-- ==== Sys2Proof/Word.lean ====
section
/-! DEFINITION. The data sizes of R5: byte, half, word and double, as bit vectors. -/

namespace Sys2Proof

/-- R5: 8 bits. -/
abbrev Byte := BitVec 8
/-- R5: 16 bits. -/
abbrev HalfWord := BitVec 16
/-- R5: 32 bits. -/
abbrev Word := BitVec 32
/-- R5: 64 bits; an instruction word is always one of these. -/
abbrev Dword := BitVec 64

end Sys2Proof
end

