-- ==== Sys2Proof/Config.lean ====
section
/-! DEFINITION. Free values: constants without a body, so that nothing in Lean can evaluate them or prove a
value of them. Each is applied to a counter of the state or to the operands it depends on (log entry 2). -/

namespace Sys2Proof.Config

/-- A choice the spec leaves to the part: bundle composition (R29), what a plain load may return (R119),
snapshot extension (R121), races (R130, R132), word order (R233). -/
opaque coin : Nat → Bool
/-- A choice among `n` alternatives is `pick c % n`. -/
opaque pick : Nat → Nat
/-- A byte the spec does not state: save frames and images (R326, R328), signatures (R401), SPDM bodies (R392). -/
opaque freeByte : Nat → Byte
/-- A word the spec does not state. -/
opaque freeWord : Nat → Word
/-- R197: the bits of an inexact special function: a fixed function of the opcode and the input's bits. The
model clamps it into the interval the spec states. -/
opaque special : Nat → Word → Nat
/-- R34: the set of the PC table that a hash of context and PC selects, of 256; the spec does not state the hash. -/
opaque pcSet : Nat → Dword → Nat
/-- R16: the set of an L2 slice that a line takes, of 4,096; the spec does not state how it is selected. -/
opaque l2Set : Nat → Nat
/-- R368: how many leaves the table memory of a die holds (status 5); the spec does not state it. -/
opaque tableRoom : Nat → Nat
/-- R398, R399: the sections of the translation of a KTIR module (type, alignment's log2, load offset, bytes),
a function of the whole object; none where the translator cannot lower it. The spec gives what a lowering
means, not its words. -/
opaque ktirSections : List Byte → Option (List (Nat × Nat × Nat × List Byte))
/-- What the boot and security core makes that the spec does not state bit by bit, from what it covers: 0 the
seal of a context image (R328); 1 the signature of a translation (R398); 2 a measurement no load has set
(R401); 3 the certificates (R401); 4 the signature of a report (R401); 5 an SPDM signature or nonce (R392);
6 the device's identity key; 7 the vendor key. -/
opaque sealed : Nat → List Byte → List Byte

/-- A free choice between two values that often coincide: where they do there is nothing to choose. -/
def choose {α : Type} [DecidableEq α] (c : Nat) (a b : α) : α :=
  if a = b then a else if coin c then a else b

end Sys2Proof.Config
end

