-- ==== Sys2Proof/Machine/Sparse.lean ====
section
/-! DEFINITION. Sparse tables keyed by natural numbers, and byte memories in their one canonical form. -/

namespace Sys2Proof.Machine

/-- A table: what stands at some numbers. A number not listed stands for "nothing there". -/
structure Sparse (α : Type) where
  items : List (Nat × α)
deriving DecidableEq, Repr

namespace Sparse

variable {α β : Type}

def empty : Sparse α := ⟨[]⟩

/-- The entry with key `k` in a list. -/
def findIn (k : Nat) : List (Nat × α) → Option α
  | [] => none
  | (j, x) :: t => if j = k then some x else findIn k t

/-- The list with `x` at `k`, in its place by ascending key. -/
def setIn (k : Nat) (x : α) : List (Nat × α) → List (Nat × α)
  | [] => [(k, x)]
  | (j, y) :: t => if j = k then (k, x) :: t else if k < j then (k, x) :: (j, y) :: t else (j, y) :: setIn k x t

def find? (m : Sparse α) (k : Nat) : Option α := findIn k m.items
def findD (m : Sparse α) (k : Nat) (d : α) : α := (m.find? k).getD d
def has (m : Sparse α) (k : Nat) : Bool := (m.find? k).isSome
def set (m : Sparse α) (k : Nat) (x : α) : Sparse α := ⟨setIn k x m.items⟩
def erase (m : Sparse α) (k : Nat) : Sparse α := ⟨m.items.filter fun e => e.1 != k⟩
def keys (m : Sparse α) : List Nat := m.items.map Prod.fst
def values (m : Sparse α) : List α := m.items.map Prod.snd
def size (m : Sparse α) : Nat := m.items.length
/-- Every entry changed by a function of its key and its value. -/
def mapKV (m : Sparse α) (f : Nat → α → β) : Sparse β := ⟨m.items.map fun e => (e.1, f e.1 e.2)⟩
/-- The entry at `k`, where there is one, changed. -/
def modify (m : Sparse α) (k : Nat) (f : α → α) : Sparse α := m.mapKV fun j x => if j = k then f x else x
/-- The entry at `k` changed, counting an absent one as `d`. -/
def update (m : Sparse α) (k : Nat) (d : α) (f : α → α) : Sparse α := m.set k (f (m.findD k d))
def filter (m : Sparse α) (p : Nat → α → Bool) : Sparse α := ⟨m.items.filter fun e => p e.1 e.2⟩
/-- The first number at or above `n` (in `fuel` tries) that is not a key. -/
def fresh (m : Sparse α) (n : Nat) : Nat → Nat
  | 0 => n
  | fuel + 1 => if m.has n then fresh m (n + 1) fuel else n
/-- One more than the largest key: a number not yet used. -/
def next (m : Sparse α) : Nat := m.items.foldl (fun a e => max a (e.1 + 1)) 0

end Sparse

/-- A memory: its bytes that are not 0, by strictly rising address. -/
abbrev Memory := List Host.Cell

namespace Memory

/-- What an address not listed reads as: the spec gives the contents of memory after a start in no rule
(DESIGN CHOICE, log entry 4). -/
def unlisted : Byte := 0

/-- The byte at an address. -/
def read (m : Memory) (a : Nat) : Byte := (Sparse.findIn a m).getD unlisted

/-- The list without the entry at `a`. -/
def drop (m : Memory) (a : Nat) : Memory := m.filter fun e => e.1 != a

/-- One byte written, keeping the canonical form. -/
def write (m : Memory) (a : Nat) (b : Byte) : Memory :=
  if b = unlisted then drop m a else Sparse.setIn a b m

/-- `n` bytes from address `a` up. -/
def readN (m : Memory) (a n : Nat) : List Byte := (List.range n).map fun i => read m (a + i)

/-- Bytes written from address `a` up. -/
def writeN (m : Memory) (a : Nat) : List Byte → Memory
  | [] => m
  | b :: t => writeN (write m a b) (a + 1) t

/-- The canonical form: addresses strictly rising, no entry equal to what an unlisted address reads as. -/
def wf : Memory → Bool
  | [] => true
  | [e] => e.2 != unlisted
  | e :: f :: t => e.2 != unlisted && decide (e.1 < f.1) && wf (f :: t)

end Memory

/-! ### Bytes and words (R5: little-endian) -/

/-- The number whose bytes, lowest first, are given. -/
def natOfBytes : List Byte → Nat
  | [] => 0
  | b :: t => b.toNat + 256 * natOfBytes t

/-- The `n` lowest bytes of a number, lowest first. -/
def bytesOfNat : Nat → Nat → List Byte
  | 0, _ => []
  | n + 1, x => BitVec.ofNat 8 x :: bytesOfNat n (x / 256)

/-- A list cut into pieces of `n`. -/
def chunks {α : Type} (n : Nat) : Nat → List α → List (List α)
  | 0, _ => []
  | _, [] => []
  | fuel + 1, l => l.take n :: chunks n fuel (l.drop n)

/-- Bytes read as words. -/
def wordsOfBytes (l : List Byte) : List Word := (chunks 4 l.length l).map fun c => BitVec.ofNat 32 (natOfBytes c)
/-- Words laid out as bytes. -/
def bytesOfWords (l : List Word) : List Byte := l.flatMap fun w => bytesOfNat 4 w.toNat

/-- Bits [hi:lo] of a number. -/
def bits (x hi lo : Nat) : Nat := x / 2 ^ lo % 2 ^ (hi + 1 - lo)
/-- Two words joined, the low one first. -/
def pair (lo hi : Word) : Dword := hi ++ lo

/-- Sorted by a measure, those of equal measure in the order they stand in. -/
def sortOn {α : Type} (f : α → Nat) (l : List α) : List α :=
  l.foldl (fun acc x => (acc.takeWhile fun y => decide (f y ≤ f x)) ++ x :: acc.dropWhile fun y => decide (f y ≤ f x)) []

end Sys2Proof.Machine
end

