-- ==== Sys2Proof/Syntax.lean ====
section
/-! DEFINITION. The steps of the part: one constructor of `Instr` per row of the table of operations and
events. Instruction words (F, I, P and M words, R145; logit words, R294) carry their decoded operands;
an event carries which agent or object it concerns, and what the outside world puts into it. -/

namespace Sys2Proof

/-- R152: element types. -/
inductive Ty
  | u32 | i32 | u16 | i16 | u8 | i8 | b32 | f64
  | f32 | f16 | bf16 | f16x2 | bf16x2 | e4m3x4 | e5m2x4 | e2m1x8
  | e4m3 | e5m2 | e3m2 | e2m3 | e2m1 | vf8 | vf4 | e3m2x4 | e2m3x4
deriving DecidableEq, Repr

/-- R70: distribution modes. -/
inductive DM
  | plain | mv | mva | s4
deriving DecidableEq, Repr

/-- R151: rounding modes; `dyn` takes %fsr.RM at issue. -/
inductive RM
  | rne | rz | rd | ru | sr | dyn
deriving DecidableEq, Repr

/-- R167: compare conditions. -/
inductive Cond
  | eq | ne | lt | le | gt | ge | equ | neu | ltu | leu | gtu | geu | num | nan
deriving DecidableEq, Repr

/-- R149: a guard predicate and its negate bit. -/
structure Guard where
  neg : Bool
  p   : BitVec 3
deriving DecidableEq, Repr

/-- R59, R147: a register field names a vector register or a queue port. -/
inductive Reg
  | v (n : BitVec 8)
  | q (n : BitVec 3)
deriving DecidableEq, Repr

/-- A source operand: a vector register, a queue port, a uniform register (R148) or an immediate (R153). -/
inductive Opnd
  | v (n : BitVec 8)
  | q (n : BitVec 3)
  | k (n : BitVec 10)
  | imm (i : BitVec 16)
deriving DecidableEq, Repr

/-- R178: integer arithmetic, F- and I-words. -/
structure IntArgs where
  g : Guard
  ty : Ty
  sat : Bool
  d : Reg
  a : Opnd
  b : Opnd
  c : Opnd
deriving DecidableEq, Repr

/-- R178: one-source integer arithmetic (abs, neg). -/
structure Int1Args where
  g : Guard
  ty : Ty
  sat : Bool
  d : Reg
  a : Opnd
deriving DecidableEq, Repr

/-- R178: two-source integer arithmetic. -/
structure Int2Args where
  g : Guard
  ty : Ty
  sat : Bool
  d : Reg
  a : Opnd
  b : Opnd
deriving DecidableEq, Repr

/-- R179: shladd. -/
structure ShladdArgs where
  g : Guard
  ty : Ty
  w64 : Bool
  sh : BitVec 5
  d : Reg
  a : Opnd
  b : Opnd
deriving DecidableEq, Repr

/-- R180, R181: one-source logic (type b32 only). -/
structure Log1Args where
  g : Guard
  d : Reg
  a : Opnd
deriving DecidableEq, Repr

/-- R180: two-source logic and shifts (type b32 only). -/
structure Log2Args where
  g : Guard
  d : Reg
  a : Opnd
  b : Opnd
deriving DecidableEq, Repr

/-- R180, R181: three-source logic; `tab` is the table of lut3 and 0 for bfi. -/
structure Log3Args where
  g : Guard
  d : Reg
  a : Opnd
  b : Opnd
  c : Opnd
  tab : Byte
deriving DecidableEq, Repr

/-- R181: bfe; `sgn` selects i32. -/
structure BfeArgs where
  g : Guard
  sgn : Bool
  d : Reg
  a : Opnd
  b : Opnd
deriving DecidableEq, Repr

/-- R182: setp. -/
structure SetpArgs where
  g : Guard
  ty : Ty
  cond : Cond
  pd : BitVec 3
  a : Opnd
  b : Opnd
deriving DecidableEq, Repr

/-- R183: sel. -/
structure SelArgs where
  g : Guard
  dm : DM
  ty : Ty
  d : Reg
  a : Opnd
  b : Opnd
  ps : BitVec 3
  inv : Bool
deriving DecidableEq, Repr

/-- R184: cvti. -/
structure CvtiArgs where
  g : Guard
  dty : Ty
  sty : Ty
  sat : Bool
  d : Reg
  a : Opnd
deriving DecidableEq, Repr

/-- R185, R186, R189, R190, R194..R197: floating-point forms in the FL layout of R150.
One-source forms have `b` and `c` absent, two-source forms have `c` absent. -/
structure Flt1Args where
  g : Guard
  dm : DM
  ty : Ty
  rm : RM
  ftz : Bool
  pla : Bool
  d : Reg
  a : Opnd
deriving DecidableEq, Repr

/-- Two-source floating-point forms. -/
structure Flt2Args where
  g : Guard
  dm : DM
  ty : Ty
  rm : RM
  ftz : Bool
  pla : Bool
  plb : Bool
  d : Reg
  a : Opnd
  b : Opnd
deriving DecidableEq, Repr

/-- Three-source floating-point forms. -/
structure Flt3Args where
  g : Guard
  dm : DM
  ty : Ty
  rm : RM
  ftz : Bool
  pla : Bool
  plb : Bool
  plc : Bool
  d : Reg
  a : Opnd
  b : Opnd
  c : Opnd
deriving DecidableEq, Repr

/-- R187: fsetp. -/
structure FsetpArgs where
  g : Guard
  dm : DM
  ty : Ty
  cond : Cond
  ftz : Bool
  pla : Bool
  plb : Bool
  pd : BitVec 3
  a : Opnd
  b : Opnd
deriving DecidableEq, Repr

/-- R191: cvt. -/
structure CvtArgs where
  g : Guard
  dm : DM
  dty : Ty
  sty : Ty
  rm : RM
  ftz : Bool
  sat : Bool
  pla : Bool
  d : Reg
  a : Opnd
deriving DecidableEq, Repr

/-- R199: dmean, dvar, dlin, dfold. -/
structure DistArgs where
  g : Guard
  dm : DM
  ty : Ty
  ftz : Bool
  d : BitVec 8
  a : Opnd
deriving DecidableEq, Repr

/-- R199: dmake. -/
structure DmakeArgs where
  g : Guard
  dm : DM
  ty : Ty
  ftz : Bool
  d : BitVec 8
  a : Opnd
  b : Opnd
deriving DecidableEq, Repr

/-- R199, R202: dspread and dsamp. -/
structure DdrawArgs where
  g : Guard
  dm : DM
  ty : Ty
  ftz : Bool
  d : BitVec 8
  a : Opnd
  stream : BitVec 4
deriving DecidableEq, Repr

/-- R204: bsinit. -/
structure BsinitArgs where
  g : Guard
  d : BitVec 8
  a : BitVec 8
  b : Opnd
deriving DecidableEq, Repr

/-- R204: bsread and bspeek; `sgn` selects i32. -/
structure BsreadArgs where
  g : Guard
  sgn : Bool
  d : Reg
  a : BitVec 8
  r : Opnd
  w : Reg
deriving DecidableEq, Repr

/-- R204: bsskip. -/
structure BsskipArgs where
  g : Guard
  a : BitVec 8
  r : Opnd
  w : Reg
deriving DecidableEq, Repr

/-- R204: bsalign. -/
structure BsalignArgs where
  g : Guard
  a : BitVec 8
  k : BitVec 3
deriving DecidableEq, Repr

/-- R206: rngseed. -/
structure RngseedArgs where
  g : Guard
  k : BitVec 10
deriving DecidableEq, Repr

/-- R207: the draw forms. -/
structure RndArgs where
  g : Guard
  d : Reg
  stream : BitVec 4
  x4 : Bool
deriving DecidableEq, Repr

/-- R208: rnd.cat. -/
structure RndCatArgs where
  g : Guard
  d : Reg
  a : Opnd
  m : BitVec 4
  stream : BitVec 4
deriving DecidableEq, Repr

/-- R210: edge behaviour of the lane moves. -/
inductive Edge
  | own | zf | wr
deriving DecidableEq, Repr

/-- R210: lane moves. -/
structure LaneArgs where
  g : Guard
  d : Reg
  a : Opnd
  b : Opnd
  m : BitVec 4
  edge : Edge
deriving DecidableEq, Repr

/-- R211: poll.any and poll.all. -/
structure PollArgs where
  g : Guard
  pd : BitVec 3
  pa : BitVec 3
  m : BitVec 4
deriving DecidableEq, Repr

/-- R211: poll.map. -/
structure PollMapArgs where
  g : Guard
  d : Reg
  pa : BitVec 3
  m : BitVec 4
deriving DecidableEq, Repr

/-- R212: combining operators of fold and pfx. -/
inductive FoldOp
  | add | min | max | and | or | xor
deriving DecidableEq, Repr

/-- R212: fold and pfx. -/
structure FoldArgs where
  g : Guard
  op : FoldOp
  ty : Ty
  exc : Bool
  d : Reg
  a : Opnd
  m : BitVec 4
deriving DecidableEq, Repr

/-- R213: peers. -/
structure PeersArgs where
  g : Guard
  d : Reg
  a : Opnd
  m : BitVec 4
deriving DecidableEq, Repr

/-- R214: mov. -/
structure MovArgs where
  g : Guard
  dm : DM
  d : Reg
  a : Opnd
deriving DecidableEq, Repr

/-- R214, R215: movi. -/
structure MoviArgs where
  g : Guard
  ty : Ty
  d : Reg
  imm : HalfWord
deriving DecidableEq, Repr

/-- R214, R215: movi.b32.hi. -/
structure MoviHiArgs where
  g : Guard
  d : Reg
  imm : HalfWord
deriving DecidableEq, Repr

/-- R214, R216: movk. -/
structure MovkArgs where
  g : Guard
  k : BitVec 10
  a : Reg
deriving DecidableEq, Repr

/-- R214: the writes of %fsr (movs) and of the predicates (movp). -/
structure MovWriteArgs where
  g : Guard
  a : Reg
deriving DecidableEq, Repr

/-- R214: movp, reading. -/
structure MovpArgs where
  g : Guard
  d : Reg
deriving DecidableEq, Repr

/-- R63: the special registers. -/
inductive Special
  | lane | grp | core | cluster | die
  | tidX | tidY | tidZ | tlin | ntidX | ntidY | ntidZ
  | bidX | bidY | bidZ | nbidX | nbidY | nbidZ | stage | nstage
  | fsr | lintag | rngcntLo | rngcntHi
  | clkLo | clkHi | nsLo | nsHi | cycLo | cycHi
  | loftwin (g : BitVec 4)
deriving DecidableEq, Repr

/-- R63, R214: movs, reading. -/
structure MovsArgs where
  g : Guard
  d : Reg
  sr : Special
deriving DecidableEq, Repr

/-- R165: FP64 forms of three, two or one source (unused sources are 0). -/
structure XfArgs where
  g : Guard
  rm : RM
  d : BitVec 8
  a : Opnd
  b : Opnd
  c : BitVec 8
deriving DecidableEq, Repr

/-- R165: xfcvt. -/
structure XfcvtArgs where
  g : Guard
  dty : Ty
  sty : Ty
  rm : RM
  d : Reg
  a : Opnd
deriving DecidableEq, Repr

/-- R165: xfsetp. -/
structure XfsetpArgs where
  g : Guard
  rm : RM
  cond : Cond
  pd : BitVec 3
  a : Opnd
  b : Opnd
deriving DecidableEq, Repr

/-- R165: the major-2 shifts, minimum and maximum. -/
structure Xop2Args where
  g : Guard
  d : Reg
  a : Opnd
  b : Opnd
deriving DecidableEq, Repr

/-- R165: xdiv and xrem; `sgn` selects i32. -/
structure XintArgs where
  g : Guard
  sgn : Bool
  d : Reg
  a : Opnd
  b : Opnd
deriving DecidableEq, Repr

/-- R158: operations of a P-word half. -/
inductive HalfOp
  | add | sub | mul | mulhi | min | max | abs | neg
  | shl | shr | sar | rot | and | or | xor | andn
  | not | popc | clz | ctz | brev | mov | fadd | fsub
  | fmul | fmin | fmax | fscale | frnd | pkadd | pkmul | nop
  | fmac
deriving DecidableEq, Repr

/-- R155: one half of a P-word. -/
structure Half where
  op : HalfOp
  g  : BitVec 3
  d  : BitVec 8
  a  : BitVec 8
  ty : Ty
  ka : Bool
  mv : Bool
deriving DecidableEq, Repr

/-- R155: a P-word. -/
structure PairArgs where
  x : Half
  y : Half
deriving DecidableEq, Repr

/-- R115: scopes. -/
inductive Scope
  | blk | cls | die | dev | sys
deriving DecidableEq, Repr

/-- R116: orders. -/
inductive Order
  | none | acq | rel | ar
deriving DecidableEq, Repr

/-- R160: load types. -/
inductive LT
  | u8 | i8 | u16 | i16 | b32 | b64 | b128
deriving DecidableEq, Repr

/-- R108, R217: a base operand of an M-word: vector registers, or uniform k0..k255 with KA. -/
inductive Base
  | v (n : BitVec 8)
  | k (n : BitVec 8)
deriving DecidableEq, Repr

/-- R220: ld, st, ldk and ld.loft; CP is the placement hint of R222. -/
structure LdstArgs where
  g : Guard
  lt : LT
  cp : BitVec 2
  order : Order
  scope : Scope
  d : BitVec 8
  base : Base
  off : BitVec 20
deriving DecidableEq, Repr

/-- R223, R224: prefetch (`lv` the level) and icflush (`lv` the log2 size). -/
structure HintArgs where
  g : Guard
  lv : BitVec 5
  base : Base
  off : BitVec 20
deriving DecidableEq, Repr

/-- R160: atomic operations. -/
inductive AOp
  | add | sub | min | max | and | or | xor | exch | cas | inc | dec
deriving DecidableEq, Repr

/-- R160: atomic types. -/
inductive AT
  | u32 | i32 | i64 | f32 | bf16x2 | f16x2
deriving DecidableEq, Repr

/-- R228: an atomic's value operand. -/
inductive AVal
  | v (n : BitVec 8)
  | imm (i : BitVec 8)
deriving DecidableEq, Repr

/-- R228: atom and red. -/
structure AtomArgs where
  g : Guard
  op : AOp
  ty : AT
  order : Order
  scope : Scope
  d : BitVec 8
  base : Base
  off : BitVec 12
  b : AVal
deriving DecidableEq, Repr

/-- R231: svpost and svwait. -/
structure SvArgs where
  g : Guard
  d : BitVec 8
  base : Base
  off : BitVec 12
  b : AVal
deriving DecidableEq, Repr

/-- R225: qcfg. -/
structure QcfgArgs where
  g : Guard
  port : BitVec 3
  k : BitVec 8
deriving DecidableEq, Repr

/-- R227: qclose. -/
structure QcloseArgs where
  g : Guard
  port : BitVec 3
deriving DecidableEq, Repr

/-- R232, R236, R277, R279: the words whose one operand is a uniform descriptor base. -/
structure DescArgs where
  g : Guard
  k : BitVec 8
deriving DecidableEq, Repr

/-- R235: cp.seal. -/
structure SealArgs where
  g : Guard
  d : BitVec 8
deriving DecidableEq, Repr

/-- R235: cp.wait names its batch in a register or in the word. -/
inductive BatchArg
  | r (b : Base)
  | imm (b : BitVec 16)
deriving DecidableEq, Repr

/-- R235: cp.wait. -/
structure CpWaitArgs where
  g : Guard
  b : BatchArg
deriving DecidableEq, Repr

/-- R237: cue.pop and cue.push. -/
structure CueArgs where
  g : Guard
  d : BitVec 8
  base : Base
deriving DecidableEq, Repr

/-- R240: the core operand of flat.give. -/
inductive CoreArg
  | imm (c : BitVec 8)
  | r (b : Base)
deriving DecidableEq, Repr

/-- R240, R241: flat.give. -/
structure GiveArgs where
  g : Guard
  d : BitVec 8
  s : BitVec 3
  s2 : BitVec 3
  core : CoreArg
deriving DecidableEq, Repr

/-- R240: flat.take and flat.stat. -/
structure SlotArgs where
  g : Guard
  d : BitVec 8
  s : BitVec 3
deriving DecidableEq, Repr

/-- R240, R243: flat.share. -/
structure ShareArgs where
  g : Guard
  d : BitVec 8
  s : BitVec 3
  s2 : BitVec 3
  mask : BitVec 4
deriving DecidableEq, Repr

/-- R245: bar.blk. -/
structure BarBlkArgs where
  g : Guard
  id : BitVec 4
  count : BitVec 15
deriving DecidableEq, Repr

/-- R247, R248: bar.cls, bar.dev, bar.dev.super. -/
structure BarArgs where
  g : Guard
  base : Base
deriving DecidableEq, Repr

/-- R247: scope of bar.arrive and bar.wait. -/
inductive BarScope
  | cls | dev
deriving DecidableEq, Repr

/-- R247: bar.arrive and bar.wait. -/
structure BarScopeArgs where
  g : Guard
  d : BitVec 8
  base : Base
  sc : BarScope
deriving DecidableEq, Repr

/-- R249: the words on one mask (join, leave, wait) or convergence register (sign, cvwait). -/
structure MaskArgs where
  g : Guard
  n : BitVec 4
deriving DecidableEq, Repr

/-- R249: mset and mget. -/
structure MaskKArgs where
  g : Guard
  n : BitVec 4
  k : BitVec 8
deriving DecidableEq, Repr

/-- R250: bra. -/
structure BraArgs where
  g : Guard
  disp : BitVec 20
deriving DecidableEq, Repr

/-- R250: call. -/
structure CallArgs where
  g : Guard
  d : BitVec 8
  disp : BitVec 20
deriving DecidableEq, Repr

/-- R250: brx and ret. -/
structure BrxArgs where
  g : Guard
  a : Base
deriving DecidableEq, Repr

/-- R253: signal. -/
structure SignalArgs where
  g : Guard
  a : Base
  stage : BitVec 4
deriving DecidableEq, Repr

/-- R254: launch. -/
structure LaunchArgs where
  g : Guard
  d : BitVec 8
  base : Base
  q : BitVec 6
deriving DecidableEq, Repr

/-- R255: trap and brk. -/
structure CodeArgs where
  g : Guard
  code : BitVec 12
deriving DecidableEq, Repr

/-- R263: wlatch. -/
structure WlatchArgs where
  g : Guard
  n : BitVec 4
  k : BitVec 8
  mv : Bool
deriving DecidableEq, Repr

/-- R265: mmpost. -/
structure MmpostArgs where
  g : Guard
  n : BitVec 4
  k : BitVec 8
  count : BitVec 15
  mv : Bool
  full2 : Bool
  ta : Bool
  tb : Bool
  acc : Bool
deriving DecidableEq, Repr

/-- R273: accclr. -/
structure TileArgs where
  g : Guard
  t : BitVec 5
deriving DecidableEq, Repr

/-- R274: accstat. -/
structure AccstatArgs where
  g : Guard
  d : BitVec 8
  t : BitVec 5
  clr : Bool
deriving DecidableEq, Repr

/-- R276: what mxstat reads. -/
inductive MxSel
  | cv | wb | eng
deriving DecidableEq, Repr

/-- R276: mxstat. -/
structure MxstatArgs where
  g : Guard
  d : BitVec 8
  idx : BitVec 4
  sel : MxSel
deriving DecidableEq, Repr

/-- R315: csrr and csrw; `r` the data pair. -/
structure CsrArgs where
  g : Guard
  r : Base
  reg : BitVec 20
deriving DecidableEq, Repr

/-- R315: the resumption of eret. -/
inductive Res
  | retry | skip | pc
deriving DecidableEq, Repr

/-- R315, R332: a debug scope: thread, group or block. -/
inductive DScope
  | thread | group | block
deriving DecidableEq, Repr

/-- R315, R320: eret. -/
structure EretArgs where
  g : Guard
  d : BitVec 8
  h : Base
  res : Res
deriving DecidableEq, Repr

/-- R315, R372: tlbinv. -/
structure TlbinvArgs where
  g : Guard
  d : BitVec 8
  a : Base
  ctx : Byte
  log2sz : BitVec 6
  all : Bool
deriving DecidableEq, Repr

/-- R315, R328: ctxsave and ctxload; `mem` the image address pair of the .mem form. -/
structure CtxArgs where
  g : Guard
  d : BitVec 8
  mem : Option Base
  ctx : Byte
deriving DecidableEq, Repr

/-- R315: halt, halt.go, ctxkill. -/
structure CtxIdArgs where
  g : Guard
  d : BitVec 8
  ctx : Byte
deriving DecidableEq, Repr

/-- R315, R333: dbgstep. -/
structure DbgstepArgs where
  g : Guard
  d : BitVec 8
  h : Base
  all : Bool
deriving DecidableEq, Repr

/-- R315, R335: tblarm. -/
structure TblarmArgs where
  g : Guard
  d : BitVec 8
  a : Base
  trig : BitVec 4
  fire : Bool
deriving DecidableEq, Repr

/-- R315, R335: tblread. -/
structure TblreadArgs where
  g : Guard
  d : BitVec 8
deriving DecidableEq, Repr

/-- R315, R332: dbgres and dbgcur. -/
structure DbgArgs where
  g : Guard
  d : BitVec 8
  h : Base
  sc : DScope
deriving DecidableEq, Repr

/-- R384: who makes a register access over the register space: the physical function, a virtual
function, or the stage manager (which has the physical function's rights). -/
inductive Requester
  | pf
  | vf (v : BitVec 3)
  | smg
  | core (c : Nat)
deriving DecidableEq, Repr

/-- One access to a system register (R314, R384): who makes it, the 20-bit register number, the instance
(of a die, cluster, core, partition or context) it names, the bytes it moves (R385) and, for a write, the value. -/
structure RegAcc where
  who : Requester
  reg : BitVec 20
  inst : Nat
  size : Nat
  /-- the byte of the register at which the access begins -/
  off : BitVec 3
  val : Dword
deriving DecidableEq, Repr

/-- R294: the operands of a logit word, named as the fields of the word. -/
structure LogitArgs where
  d : BitVec 4
  a : BitVec 4
  b : BitVec 4
  s : BitVec 4
  scalarB : Bool
  cond : Cond
  imm : Word
deriving DecidableEq, Repr

/-- R393: one message between ranks, as it arrives: the receiving partition, the sending rank, whether it is about a
superstep object or a tile, which, a number (a GEN, a row size) and the data bytes. -/
structure UeMsg where
  part : Nat
  rank : Nat
  step : Bool
  tid : Word
  obj : Dword
  val : Nat
  data : List Byte
deriving DecidableEq, Repr

/-- R395: what a rank has left unacknowledged: a pull request of a copy, the data of a tile, or a superstep message of an
object's GEN. -/
inductive UeWait
  | pull (copy : Nat)
  | tile (part rank : Nat) (tid : Word)
  | step (part rank : Nat) (obj : Dword) (gen : Nat)
deriving DecidableEq, Repr

/-- R380: where an uncorrectable error was found (the SRC codes of SCB_UELOG; a register file and a tile share one). -/
inductive ErrSrc
  | hbm | msc | l2 | l1 | flat | loft | regfile | tile
deriving DecidableEq, Repr

/-- R380: one uncorrectable error: where it was found, the die, the address of the datum within that store
(or the thread for a register file) and, for an access that meets it, the reader. -/
structure UeErr where
  src : ErrSrc
  die : Nat
  addr : Nat
  reader : Option Nat
deriving DecidableEq, Repr

/-- R387: one access of the host through BAR2 of a partition; `data` is empty in a read. -/
structure Bar2Acc where
  part : Nat
  off : Dword
  size : Nat
  data : List Byte
deriving DecidableEq, Repr

/-- R404: a start: after power-on or after a fundamental reset, and the outcome of the checks made by the
boot and security core (a failure reason, or none), which come from flash contents outside the part. -/
structure StartArgs where
  powerOn : Bool
  fail : Option Byte
deriving DecidableEq, Repr

/-- One constructor per row of the table of operations and events: the instruction words first, then the events (which have no encoding). -/
inductive Instr
  | add (a : Int2Args)
  | addImm (a : Int2Args)
  | sub (a : Int2Args)
  | subImm (a : Int2Args)
  | add3 (a : IntArgs)
  | mul (a : Int2Args)
  | mulImm (a : Int2Args)
  | mulhi (a : Int2Args)
  | mulhiImm (a : Int2Args)
  | mad (a : IntArgs)
  | shladd (a : ShladdArgs)
  | abs_ (a : Int1Args)
  | min_ (a : Int2Args)
  | minImm (a : Int2Args)
  | max_ (a : Int2Args)
  | maxImm (a : Int2Args)
  | neg (a : Int1Args)
  | shl (a : Log2Args)
  | shlImm (a : Log2Args)
  | shr (a : Log2Args)
  | shrImm (a : Log2Args)
  | sar (a : Log2Args)
  | sarImm (a : Log2Args)
  | rot (a : Log2Args)
  | rotImm (a : Log2Args)
  | and_ (a : Log2Args)
  | andImm (a : Log2Args)
  | or_ (a : Log2Args)
  | orImm (a : Log2Args)
  | xor_ (a : Log2Args)
  | xorImm (a : Log2Args)
  | andn (a : Log2Args)
  | andnImm (a : Log2Args)
  | not_ (a : Log1Args)
  | lut3 (a : Log3Args)
  | popc (a : Log1Args)
  | clz (a : Log1Args)
  | ctz (a : Log1Args)
  | brev (a : Log1Args)
  | bfe (a : BfeArgs)
  | bfi (a : Log3Args)
  | setp (a : SetpArgs)
  | setpImm (a : SetpArgs)
  | sel (a : SelArgs)
  | selImm (a : SelArgs)
  | cvti (a : CvtiArgs)
  | fadd (a : Flt2Args)
  | faddImm (a : Flt2Args)
  | fsub (a : Flt2Args)
  | fsubImm (a : Flt2Args)
  | fmul (a : Flt2Args)
  | fmulImm (a : Flt2Args)
  | fma (a : Flt3Args)
  | fmin (a : Flt2Args)
  | fminImm (a : Flt2Args)
  | fmax (a : Flt2Args)
  | fmaxImm (a : Flt2Args)
  | fsetp (a : FsetpArgs)
  | fsetpImm (a : FsetpArgs)
  | fclass (a : Flt1Args)
  | fscale (a : Flt2Args)
  | fscaleImm (a : Flt2Args)
  | frnd (a : Flt1Args)
  | cvt (a : CvtArgs)
  | pkadd (a : Flt2Args)
  | pkaddImm (a : Flt2Args)
  | pkmul (a : Flt2Args)
  | pkmulImm (a : Flt2Args)
  | pkfma (a : Flt3Args)
  | dp2 (a : Flt3Args)
  | dp4 (a : Flt3Args)
  | ex2 (a : Flt1Args)
  | lg2 (a : Flt1Args)
  | rcp (a : Flt1Args)
  | rsq (a : Flt1Args)
  | sqt (a : Flt1Args)
  | sin (a : Flt1Args)
  | cos (a : Flt1Args)
  | tnh (a : Flt1Args)
  | lgt (a : Flt1Args)
  | dmake (a : DmakeArgs)
  | dmean (a : DistArgs)
  | dvar (a : DistArgs)
  | dlin (a : DistArgs)
  | dfold (a : DistArgs)
  | dspread (a : DdrawArgs)
  | dsamp (a : DdrawArgs)
  | bsinit (a : BsinitArgs)
  | bsread (a : BsreadArgs)
  | bspeek (a : BsreadArgs)
  | bsskip (a : BsskipArgs)
  | bsalign (a : BsalignArgs)
  | rngseed (a : RngseedArgs)
  | rndU32 (a : RndArgs)
  | rndF32 (a : RndArgs)
  | rndGauss (a : RndArgs)
  | rndCat (a : RndCatArgs)
  | laneIdx (a : LaneArgs)
  | laneRise (a : LaneArgs)
  | laneFall (a : LaneArgs)
  | laneFlip (a : LaneArgs)
  | pollAny (a : PollArgs)
  | pollAll (a : PollArgs)
  | pollMap (a : PollMapArgs)
  | fold (a : FoldArgs)
  | pfx (a : FoldArgs)
  | peers (a : PeersArgs)
  | mov (a : MovArgs)
  | movi (a : MoviArgs)
  | moviHi (a : MoviHiArgs)
  | movk (a : MovkArgs)
  | movsRead (a : MovsArgs)
  | movsWriteFsr (a : MovWriteArgs)
  | movpRead (a : MovpArgs)
  | movpWrite (a : MovWriteArgs)
  | xfadd (a : XfArgs)
  | xfsub (a : XfArgs)
  | xfmul (a : XfArgs)
  | xfma (a : XfArgs)
  | xfdiv (a : XfArgs)
  | xfsqt (a : XfArgs)
  | xfcvt (a : XfcvtArgs)
  | xfsetp (a : XfsetpArgs)
  | xdiv (a : XintArgs)
  | xrem (a : XintArgs)
  | xshl2 (a : Xop2Args)
  | xshr2 (a : Xop2Args)
  | xsar2 (a : Xop2Args)
  | xmin2 (a : Xop2Args)
  | xmax2 (a : Xop2Args)
  | xcvt2 (a : Log1Args)
  | pairedWord (a : PairArgs)
  | ld (a : LdstArgs)
  | st (a : LdstArgs)
  | ldk (a : LdstArgs)
  | ldLoft (a : LdstArgs)
  | prefetch (a : HintArgs)
  | icflush (a : HintArgs)
  | qcfg (a : QcfgArgs)
  | qclose (a : QcloseArgs)
  | atom (a : AtomArgs)
  | red (a : AtomArgs)
  | svpost (a : SvArgs)
  | svwait (a : SvArgs)
  | cpRows (a : DescArgs)
  | cpReduce (a : DescArgs)
  | cpSeal (a : SealArgs)
  | cpWait (a : CpWaitArgs)
  | cpColl (a : DescArgs)
  | cpReady (a : DescArgs)
  | cuePop (a : CueArgs)
  | cuePush (a : CueArgs)
  | flatGive (a : GiveArgs)
  | flatTake (a : SlotArgs)
  | flatShare (a : ShareArgs)
  | flatStat (a : SlotArgs)
  | barBlk (a : BarBlkArgs)
  | barCls (a : BarArgs)
  | barDev (a : BarArgs)
  | barDevSuper (a : BarArgs)
  | barArrive (a : BarScopeArgs)
  | barWait (a : BarScopeArgs)
  | join (a : MaskArgs)
  | leave (a : MaskArgs)
  | wait (a : MaskArgs)
  | mset (a : MaskKArgs)
  | mget (a : MaskKArgs)
  | sign (a : MaskArgs)
  | cvwait (a : MaskArgs)
  | bra (a : BraArgs)
  | brx (a : BrxArgs)
  | call (a : CallArgs)
  | ret (a : BrxArgs)
  | exit (a : Guard)
  | yield (a : Guard)
  | suspend (a : Guard)
  | signal (a : SignalArgs)
  | launch (a : LaunchArgs)
  | trap (a : CodeArgs)
  | brk (a : CodeArgs)
  | nop (a : Guard)
  | wlatch (a : WlatchArgs)
  | mmpost (a : MmpostArgs)
  | accrd (a : DescArgs)
  | accclr (a : TileArgs)
  | acccvt (a : DescArgs)
  | accstat (a : AccstatArgs)
  | mxstat (a : MxstatArgs)
  | csrr (a : CsrArgs)
  | csrw (a : CsrArgs)
  | eret (a : EretArgs)
  | tlbinv (a : TlbinvArgs)
  | ctxsave (a : CtxArgs)
  | ctxload (a : CtxArgs)
  | halt (a : CtxIdArgs)
  | haltGo (a : CtxIdArgs)
  | dbgstep (a : DbgstepArgs)
  | tblarm (a : TblarmArgs)
  | tblread (a : TblreadArgs)
  | dbgres (a : DbgArgs)
  | dbgcur (a : DbgArgs)
  | ctxkill (a : CtxIdArgs)
  | logitLdc (a : LogitArgs)
  | logitLdw (a : LogitArgs)
  | logitLdt (a : LogitArgs)
  | logitLdb (a : LogitArgs)
  | logitLdg (a : LogitArgs)
  | logitLdd (a : LogitArgs)
  | logitLds (a : LogitArgs)
  | logitSet (a : LogitArgs)
  | logitMode (a : LogitArgs)
  | logitMov (a : LogitArgs)
  | logitAdd (a : LogitArgs)
  | logitMul (a : LogitArgs)
  | logitPen (a : LogitArgs)
  | logitFpen (a : LogitArgs)
  | logitTemp (a : LogitArgs)
  | logitClmp (a : LogitArgs)
  | logitKeep (a : LogitArgs)
  | logitTopk (a : LogitArgs)
  | logitTopp (a : LogitArgs)
  | logitMinp (a : LogitArgs)
  | logitSort (a : LogitArgs)
  | logitNorm (a : LogitArgs)
  | logitVmax (a : LogitArgs)
  | logitDraw (a : LogitArgs)
  | logitAcc (a : LogitArgs)
  | logitPub (a : LogitArgs)
  | bundleBuild (core : Nat)
  | lateResultWrite (tid : Nat)
  | xopResultReturn (die : Nat)
  | lateFaultArrival (entry : Nat)
  | operandLogReplay (entry : Nat)
  | blockSave (blk : Nat)
  | blockRelaunch (blk : Nat)
  | queueStreamRead (tid port : Nat)
  | queueStreamWrite (tid port : Nat)
  | copyComplete (copy : Nat)
  | copyFault (copy : Nat)
  | collPull (copy : Nat)
  | readyRecordRetire (part tile : Nat)
  | flatGivePoint (tid : Nat)
  | arbiterGrant (cluster : Nat)
  | passComplete (cluster : Nat)
  | tlbinvComplete (tid : Nat)
  | ctxTransferComplete (tid : Nat)
  | haltComplete (tid : Nat)
  | ctxkillComplete (tid : Nat)
  | launchAdmit (part queue : Nat)
  | blockDispatch (part cluster : Nat)
  | clusterReserve (part cluster : Nat)
  | locateCacheFill (part launch : Nat)
  | launchRetire (launch : Nat)
  | bubbleSlotEnd (part : Nat)
  | bubbleOverrunSave (part : Nat)
  | prompterJobPop (die n : Nat)
  | prompterPublish (die n : Nat)
  | l2SliceRequest (die slice : Nat)
  | translateRequest (die slice : Nat)
  | xltResolveRetry (a : RegAcc)
  | xltResolveDeny (a : RegAcc)
  | pteRead (a : RegAcc)
  | pteWrite (a : RegAcc)
  | pteClear (a : RegAcc)
  | hostLeafRead (a : RegAcc)
  | hostLeafWrite (a : RegAcc)
  | hostLeafClear (a : RegAcc)
  | hostLinkCompletion (req : Nat)
  | loftLoadGo (a : RegAcc)
  | loftLoadCopy (die : Nat)
  | loftLoadDone (die : Nat)
  | loftRefreshWindow (die group : Nat)
  | flsMapWrite (a : RegAcc)
  | flsOwnWrite (a : RegAcc)
  | flatBankDetach (a : RegAcc)
  | flatBankZero (a : RegAcc)
  | flatBankOwner (a : RegAcc)
  | scrubPass (die : Nat)
  | uncorrectableError (a : UeErr)
  | evcAdd (a : RegAcc)
  | launchCancel (a : RegAcc)
  | launchQueueTailWrite (a : RegAcc)
  | cueRegister (a : RegAcc)
  | cueDeregister (a : RegAcc)
  | bubbleSlotOpen (a : RegAcc)
  | bubbleSlotClose (a : RegAcc)
  | smgCplfifoRead (a : RegAcc)
  | smgCuePush (a : RegAcc)
  | hlkNoteRead (a : RegAcc)
  | hlkErrRead (a : RegAcc)
  | prmErrRead (a : RegAcc)
  | scbCecntRead (a : RegAcc)
  | scbUelogRead (a : RegAcc)
  | tunAvsRead (a : RegAcc)
  | dbgDataRead (a : RegAcc)
  | dbgDataWrite (a : RegAcc)
  | tblFire (a : RegAcc)
  | tblDisarm (a : RegAcc)
  | tableauExternalTrigger
  | tableauLatch (part : Nat)
  | tableauRecordsWritten (part : Nat)
  | uepGroupEnable (a : RegAcc)
  | bootFailsWrite (a : RegAcc)
  | bootCmdQueue (a : RegAcc)
  | bootLoad (part : Nat)
  | bootAttest (part : Nat)
  | bootCert (part : Nat)
  | bootEvict (part : Nat)
  | bootSvnadv (part : Nat)
  | registerWrite (a : RegAcc)
  | bar2Read (a : Bar2Acc)
  | bar2Write (a : Bar2Acc)
  | functionLevelReset (part : Nat)
  | spdmGetVersion (msg : List Byte)
  | spdmGetCapabilities (msg : List Byte)
  | spdmNegotiateAlgorithms (msg : List Byte)
  | spdmGetDigests (msg : List Byte)
  | spdmGetCertificate (msg : List Byte)
  | spdmChallenge (msg : List Byte)
  | spdmGetMeasurements (msg : List Byte)
  | mctpControlMessage (msg : List Byte)
  | uePullRequest (a : UeMsg)
  | ueTileData (a : UeMsg)
  | ueAcknowledgement (a : UeMsg)
  | ueSuperstepMessage (a : UeMsg)
  | scaleoutTimeout (w : UeWait)
  | ptmDialogue (hostNs : Dword)
  | issueFractionAdjust (power temp : Nat)
  | remoteWayAdjust (die slice : Nat) (up : Bool)
  | clockStretch (cluster cycles : Nat)
  | serdesRetrain (clk : Nat)
  | thermalTrip
  | startAttempt (a : StartArgs)
  | stageManagerReady
  | startTimeout
  | startPowerFault
  | icflushComplete (tid : Nat)
  | powerLoss
  | uePortTrainingEnd (port : Nat) (up : Bool)
  | refusedRegisterRead (a : RegAcc)
  | bootBadcmd (part : Nat)
deriving DecidableEq, Repr

end Sys2Proof
end

