-- ==== Sys2Proof/Machine/State.lean ====
section
/-! DEFINITION. The state of the part: threads, groups, blocks and launches; cores, clusters, dies and
partitions; system registers; memories; the history that the phase-consistency model reads; the package's
links and boot core. Plain data throughout. -/

namespace Sys2Proof.Machine

/-! ### Stops -/

/-- Why the machine stops with a fault. There is no such reason: what the spec calls a fault or a trap is a
next state (R316..R331), so no step ends here. Safe: a type without a value shuts nothing out. -/
inductive Fault
deriving DecidableEq, Repr

/-- Why an instruction has no meaning. -/
inductive Refusal
  /-- Raised by the dispatch arm of an instruction whose meaning is not written. Safe: the machine stops. -/
  | notModelled (mnemonic : String)
deriving DecidableEq, Repr

/-! ### Traps, thread states -/

/-- R316: causes. -/
inductive Cause
  | undef | priv | vaRange | vaPerm | misaligned | flatDetached | flatReadonly | loftRange | qportUnbound
  | cpDesc | cueUnbound | mxDesc | mxState | pageFault | stableWrite | fetchFault | fetchPerm | memerr
  | trap | brk | ibrk | watch
deriving DecidableEq, Repr

/-- R27: the held state of a thread; it is CURTAINED while TC or DC is set (R331) and SAVED while its block
is (R51). -/
inductive Held
  | ready | stalled | waiting | exited
deriving DecidableEq, Repr

/-- R367: where a memory access goes: the home die, the intermediate address (the physical one for a
physical window, R365), the kind of its window, the context it runs in, the virtual address it came from. -/
structure Loc where
  die : Nat
  ia : Nat
  dieLocal : Bool
  phys : Bool
  ctx : Nat
  va : Nat
deriving DecidableEq, Repr

/-- R27: what a STALLED or WAITING thread is held by. -/
inductive Why
  /-- nothing: the thread is READY or EXITED -/
  | none
  /-- STALLED: a register it names awaits a late result -/
  | result
  /-- STALLED: a load port is empty or a store port full -/
  | port (p : Nat)
  /-- STALLED: 2,048 copies in flight, the operand log full, the reservation table full, the ready-record
  table full or holding the same identifier, a full cue queue -/
  | room
  /-- STALLED: earlier results, accesses or sealed copies of the thread are outstanding (R67, R120, R133, R314) -/
  | drain
  /-- STALLED: after qclose or qcfg, until what it pushed to the port is performed (R227) -/
  | close
  /-- STALLED: a register or page the word names is not to be had yet; it is tried again -/
  | retry
  /-- STALLED: its instruction awaits replay from the operand log (R323) -/
  | replay (entry : Nat)
  /-- STALLED in flat.give until its give point (R140): the core that issued it, its place in issue order, slot, target
  slot and core, destination register, word -/
  | give (origin seq s s2 core d : Nat) (iw : Dword)
  /-- STALLED: held at a lane-operation gather (R46) -/
  | gather
  /-- STALLED in cvwait until PHASE changes (R261) -/
  | cv (n phase : Nat)
  /-- STALLED until an accstat reaches its place in the tile's order (R274), behind a granted pass: the cluster and the
  table entry of that pass, the destination and what it will receive -/
  | tile (cluster entry d : Nat) (x : Word)
  /-- STALLED in icflush of a range (R224) -/
  | icflush (base log2sz : Nat)
  /-- STALLED in tlbinv (R372) -/
  | tlbinv (d : Nat) (ia : Nat) (ctx log2sz : Nat) (all : Bool)
  /-- STALLED in ctxsave or ctxload (R328); `mem` the image address -/
  | transfer (load : Bool) (d ctx : Nat) (mem : Option Nat)
  /-- STALLED in halt (R327) -/
  | halt (d ctx : Nat)
  /-- STALLED in ctxkill (R321) -/
  | kill (d ctx : Nat)
  /-- STALLED in dbgstep until the step it asked for is over (R333) -/
  | step (d : Nat)
  /-- STALLED at a word whose fetch faulted, until the runtime resolves it (R325) -/
  | fetch
  /-- WAITING on mask m (R43) -/
  | mask (m : Nat)
  /-- WAITING at a block barrier (R245) -/
  | barBlk (id : Nat)
  /-- WAITING at a barrier object whose arrival or test is on its way (R247) -/
  | barSent
  /-- WAITING until GEN of a barrier object changes (R247); `super` for bar.dev.super (R248) -/
  | bar (loc : Loc) (va gen : Nat) (super : Bool) (scope : Scope)
  /-- WAITING in cue.pop (R238) -/
  | cue (handle : Nat) (d : Nat)
  /-- WAITING in suspend (R253) -/
  | suspend
  /-- WAITING in flat.take (R242) -/
  | take (slot d : Nat)
  /-- WAITING in svwait (R231) -/
  | sv
  /-- WAITING in cp.wait of a batch (R235), with the word -/
  | cp (batch : Nat) (iw : Dword)
deriving DecidableEq, Repr

/-- R56: a result that completes late: the registers it writes (vector, or uniform of the group, or
predicate), and once known the values and the flags to OR into %fsr (R67). -/
structure Pend where
  id : Nat
  /-- 1,024 stands for a register that a debugger has written since (R83) -/
  dst : List Nat
  uniform : Bool
  pred : Bool
  /-- the store port the value is pushed to (R59) -/
  port : Option Nat
  vals : Option (List Word)
  flags : Word
  /-- a special-function or lane-operation result (R317) -/
  sfu : Bool
  /-- the word that made it, and its address -/
  pc : Dword
  iw : Dword
deriving DecidableEq, Repr

/-- R322: what an access does when it is performed. -/
inductive Acc
  | load (lt : LT) (pend : Nat)
  /-- one access for every active thread of an issue (R221): the thread that holds the result -/
  | ldk (lt : LT) (lead pend : Nat)
  | store (lt : LT)
  | atom (op : AOp) (ty : AT) (pend : Option Nat)
  | svpost
  | svwait (d : Nat)
  /-- an arrival, which waits or hands the phase to a result (R247) -/
  | bar (super : Bool) (pend : Option Nat)
  | barWait
  | launch (queue pend : Nat)
  /-- a word of a store stream, with the word that pushed it and its address (R226) -/
  | qstore (port : Nat) (pc iw : Dword)
  /-- a word read ahead for a load stream: the port (R226) -/
  | qload (p : Nat)
  /-- the record of a trap that a U handler takes (R318) -/
  | record
deriving DecidableEq, Repr

/-- How far a request has come. -/
inductive ReqSt
  /-- on its way to, or queued at, its home slice (R308) -/
  | sent
  /-- missed in the slice: at the translator (R369) -/
  | miss
  /-- faulted: held by a fault record (R370) -/
  | fault (id : Nat)
  /-- its fault was resolved; awaits replay from the operand log (R323) -/
  | resolved
  /-- denied: waits in the operand log for eret (R320) -/
  | denied
  /-- at the host link, awaiting a completion (R389) -/
  | host (pa : Nat)
  /-- an svwait tested at its home slice and not yet satisfied (R231) -/
  | parked
deriving DecidableEq, Repr

/-- One thread's access to memory outside the flat aperture, from issue until it is performed. -/
structure Req where
  seq : Nat
  acc : Acc
  /-- the operand-log entry (R322), as 256 × core + number; none for a queue-stream word -/
  entry : Option Nat
  va : Nat
  loc : Loc
  size : Nat
  read : Bool
  write : Bool
  order : Order
  scope : Scope
  /-- operands, as read at issue -/
  ops : List Word
  st : ReqSt
  /-- an L1 atomic (R129) -/
  l1 : Bool
  /-- R307: of a packed atomic, the half already performed (true: the high one), and what it held before -/
  half : Option (Bool × Nat)
deriving DecidableEq, Repr

/-- R119, R121: a thread's snapshot: the stores that happen before its next access, and further published
stores it may see. -/
structure Snap where
  need : List Nat
  may : List Nat
deriving DecidableEq, Repr

/-- R133, R235: a sealed batch: its copies not yet complete, the recorded fault, the flags. -/
structure Batch where
  num : Nat
  copies : List Nat
  fault : Option (Cause × Nat)
  raised : Bool
  flags : Word
  stores : List Nat
deriving DecidableEq, Repr

/-- R225, R226: one lane entry of a queue port: the row, and the word once it is there; `fault` what the pop
of it raises. -/
structure PortEntry where
  row : Nat
  word : Word
  fault : Option (Cause × Nat)
  /-- in a store stream: the word that pushed it, and its address -/
  pc : Dword
  iw : Dword
deriving DecidableEq, Repr

/-- A thread (R26). -/
structure Thread where
  group : Nat
  lane : Nat
  /-- %tlin (R38) -/
  lin : Nat
  /-- the rounded .regs count (R57) -/
  nregs : Nat
  v : Sparse Word
  p : BitVec 7
  pc : Dword
  held : Held
  why : Why
  tc : Bool
  dc : Bool
  cause : Byte
  /-- the address its last trap record holds (R320) -/
  trapPc : Dword
  /-- no IBRK and no WATCH for one issue after a debug curtain (R331) -/
  freePass : Bool
  draws : BitVec 48
  clkHi : Option Word
  nsHi : Option Word
  cycHi : Option Word
  pend : List Pend
  out : List Req
  /-- row index of each port (R225) -/
  rows : Sparse Nat
  /-- next row the stream engine moves (R226) -/
  moved : Sparse Nat
  ports : Sparse (List PortEntry)
  /-- copies issued and not yet sealed -/
  unsealed : Batch
  nextBatch : BitVec 16
  batches : List Batch
  snap : Snap
  readyAt : Nat
  passed : Nat
deriving DecidableEq, Repr

/-- R42: M and A. -/
structure MaskReg where
  m : Word
  a : Word
deriving DecidableEq, Repr

/-- R225: the binding of a port. -/
structure QBind where
  base : Dword
  rstr : Word
  lstr : HalfWord
  nrow : Nat
  cp : Nat
deriving DecidableEq, Repr

/-- R46: a gather in progress: the word, the participants and those that have arrived. -/
structure Gather where
  pc : Dword
  parts : List Nat
  arrived : List Nat
deriving DecidableEq, Repr

/-- A group of 32 threads (R28). -/
structure Group where
  block : Nat
  index : Nat
  core : Nat
  slot : Nat
  /-- level S (R309) -/
  priv : Bool
  ctx : Nat
  k : Sparse Word
  m : Sparse MaskReg
  fsr : Word
  key : Dword
  lineage : BitVec 16
  qports : Sparse QBind
  gathers : List Gather
deriving DecidableEq, Repr

/-- R259: the state of a convergence register. -/
inductive CvState
  | idle | opened | posted | eligible | granted
deriving DecidableEq, Repr

/-- R259. -/
structure Cv where
  state : CvState
  signed : Nat
  need : Nat
  entry : Option Nat
  phase : Byte
  code : Nat
  /-- stores that its signatures have released (R137) -/
  stores : List Nat
deriving DecidableEq, Repr

/-- R245: a block barrier. -/
structure Bar where
  arrivals : Nat
  count : Nat
deriving DecidableEq, Repr

/-- R264, R265: a staged latch: the copied descriptor, with the thread that issued it and its core (R267, R272). -/
structure Staged where
  words : List Word
  mv : Bool
  tid : Nat
  core : Nat
deriving DecidableEq, Repr

/-- R265: a posted pass. -/
structure Posted where
  words : List Word
  mv : Bool
  full2 : Bool
  ta : Bool
  tb : Bool
  acc : Bool
  tid : Nat
  core : Nat
deriving DecidableEq, Repr

/-- R257: an entry of the reservation table. -/
structure RtEntry where
  block : Nat
  cv : Nat
  ctx : Nat
  latch : Option Staged
  post : Option Posted
  pri : Nat
  eligibleAt : Nat
  passed : Nat
  /-- the flats as of the last signature, which a latch from flats reads (R137) -/
  asOf : Memory
deriving DecidableEq, Repr

/-- R51: what becomes of a saved block. -/
inductive SaveSt
  | resident
  /-- the save frame's base and size (R326) -/
  | saved (frame size : Nat)
  /-- queued for relaunch -/
  | queued (frame size : Nat)
  /-- taken off the die with its context by ctxsave (R328) -/
  | swapped
deriving DecidableEq, Repr

/-- A block (R37, R40). -/
structure Block where
  launch : Nat
  lin : Nat
  stage : Nat
  groups : List Nat
  threads : List Nat
  cvs : Sparse Cv
  bars : Sparse Bar
  signal : Bool
  save : SaveSt
  lastIssue : Nat
  /-- reservation-table entries withdrawn at a save, by convergence register (R51, R272) -/
  withdrawn : List RtEntry
  /-- device ns at which it is saved, if still resident: its bubble slot has ended (R358) -/
  due : Option Nat
deriving DecidableEq, Repr

/-- R340: one dependence. -/
structure Dep where
  en : Bool
  counter : Nat
  target : Word
deriving DecidableEq, Repr

/-- R340: a launch packet. -/
structure Packet where
  entry : Dword
  hflat : Dword
  htrap : Dword
  hbrk : Dword
  gx : Nat
  gy : Nat
  gz : Nat
  bx : Nat
  by_ : Nat
  bz : Nat
  narg : Nat
  regs : Nat
  stages : Nat
  smode : Nat
  cplInt : Bool
  lateInt : Bool
  drop : Bool
  early : Bool
  cls : Nat
  flats : Nat
  kregs : Nat
  grace : Nat
  deadline : Nat
  seed : Dword
  affinity : Dword
  affStride : Word
  cen : Bool
  cevc : Nat
  cplAddr : Dword
  trapBase : Dword
  deps : List Dep
  args : List Word
  /-- the bits that must be 0 are -/
  clean : Bool
deriving DecidableEq, Repr

/-- R345: completion statuses. -/
inductive LaunchStatus
  | done | dropped | badshape | oversize | badpkt | cancelled | killed | copyfault
deriving DecidableEq, Repr

/-- R344: how far the retirement of a launch has come. -/
inductive Retire
  | live
  /-- steps 1 to 3 taken; step 4 waits for room in a notice FIFO -/
  | notice
  | gone
deriving DecidableEq, Repr

/-- An admitted launch (R339). -/
structure Launch where
  part : Nat
  queue : Nat
  seq : Nat
  ctx : Nat
  priv : Bool
  pkt : Packet
  /-- admission order -/
  order : Nat
  /-- dependences seen satisfied (R343) -/
  depSeen : List Bool
  /-- next index i = b × S + s to dispatch (R350) -/
  nextBlock : Nat
  blocks : List Nat
  late : Bool
  /-- device ns of the first dispatch (R345) -/
  disp : Option Nat
  /-- how many stores had been performed then: what its loads of stable pages may still see as it was (R114) -/
  mark : Nat
  lastCluster : Option Nat
  /-- set when the launch ends otherwise than by its blocks' exits -/
  ended : Option LaunchStatus
  retire : Retire
  /-- pending signals of blocks not yet dispatched, by i (R253) -/
  signals : List Nat
  /-- clk since which its next block could not be placed (R348) -/
  unplaced : Option Nat
deriving DecidableEq, Repr

/-! ### Cores -/

/-- R29: threads of one context at one PC. -/
structure Bucket where
  ctx : Nat
  pc : Dword
  threads : List Nat
deriving DecidableEq, Repr

/-- R30: an issue: the word, and its threads in ascending lane order. -/
structure Bundle where
  core : Nat
  pc : Dword
  word : Dword
  threads : List Nat
deriving DecidableEq, Repr

/-- R322: an entry of the operand log. -/
structure LogEntry where
  word : Dword
  pc : Dword
  threads : List Nat
  /-- threads whose access has passed translation -/
  passed : List Nat
  /-- threads whose late fault has reached the core (R323) -/
  faulted : List Nat
  priv : Bool
deriving DecidableEq, Repr

/-- R47, R48, R333: a step that dbgstep asked for: who waits for it, the named thread, the threads that issue and
the causes their records last held. -/
structure DebugStep where
  issuer : Nat
  thread : Nat
  threads : List Nat
  causes : List Byte
deriving DecidableEq, Repr

/-- A core (R14). -/
structure Core where
  /-- steps not yet issued -/
  steps : List DebugStep
  buckets : List Bucket
  bundles : List (List Nat)
  /-- selections made by each of the two selectors (R35) -/
  sel0 : Nat
  sel1 : Nat
  /-- selections left to each selector before the next build (R29) -/
  left0 : Nat
  left1 : Nat
  log : Sparse LogEntry
  /-- lines of L1, as home die and line number (R24) -/
  l1 : List (Nat × Nat)
  /-- by byte, the latest store that a thread of the core has read (R118) -/
  floor : Sparse Nat
  /-- instruction words held, by context and location (R143, R372) -/
  icache : Sparse Dword
deriving DecidableEq, Repr

/-! ### Clusters -/

/-- An exact value: NaN, an infinity, or (-1)^neg × m × 2^e. -/
inductive Num
  | nan
  | inf (neg : Bool)
  | fin (neg : Bool) (m : Nat) (e : Int)
deriving DecidableEq, Repr

/-- R257: a weight buffer; an element by k × 256 + n. -/
structure WBuf where
  valid : Bool
  fmt : Byte
  vfmt : Byte
  kw : Nat
  nw : Nat
  mean : Sparse Num
  var : Option (Sparse Num)
  /-- elements latched from signalling NaNs (R85) -/
  snan : List Nat
deriving DecidableEq, Repr

/-- R257: an accumulator tile; an element by row × 256 + column. -/
structure Tile where
  mean : Sparse Word
  var : Sparse Word
  status : BitVec 9
  /-- poisoned elements (R380) -/
  poison : List Nat
deriving DecidableEq, Repr

/-- R268: a granted pass, with what it does computed from the operands it reads. -/
structure Running where
  entry : Nat
  block : Nat
  cv : Nat
  tile : Nat
  code : Nat
  /-- the tile and the buffers after the pass -/
  tileAfter : Tile
  wb0 : WBuf
  wb1 : WBuf
  /-- the slots whose banks the pass reads: core × 8 + slot (R267) -/
  slots : List Nat
deriving DecidableEq, Repr

/-- A cluster (R14, R257). -/
structure Cluster where
  wb0 : WBuf
  wb1 : WBuf
  tiles : Sparse Tile
  table : Sparse RtEntry
  running : Option Running
  /-- the pass granted while the running one is in its last 48 clk (R270) -/
  next : Option Running
  /-- stretched cycles so far (R64, R409) -/
  stretched : Nat
deriving DecidableEq, Repr

/-- The granted passes of a cluster, in grant order. -/
def Cluster.granted (c : Cluster) : List Running := c.running.toList ++ c.next.toList

/-! ### Copies -/

/-- R232, R277, R279, R284: kinds of copies. -/
inductive CopyKind
  | rows | reduce | coll | accrd | acccvt
deriving DecidableEq, Repr

/-- A copy in flight (R234). -/
structure Copy where
  kind : CopyKind
  tid : Nat
  core : Nat
  cluster : Nat
  ctx : Nat
  part : Nat
  desc : List Word
  /-- stores required when it was issued (R132) -/
  need : List Nat
  /-- the tile as it stood at the read-out's place in the tile's order (R271) -/
  tile : Option Tile
  /-- tile data pulled so far, by linear rank (R284) -/
  pulled : Sparse (List Byte)
  /-- %clk at which its pull requests were sent -/
  asked : Option Nat
  suspended : Bool
  /-- source words read so far, by virtual address (R132) -/
  got : Sparse (List Byte)
  /-- destination words written so far, by row × 2^64 + virtual address (R233) -/
  made : List Nat
  /-- the stores it has made, and the flags its updates have raised -/
  stores : List Nat
  flags : Word
deriving DecidableEq, Repr

/-! ### Dies -/

/-- R373: a line held in an L2 slice, with its owner tag (R379). -/
structure Line where
  die : Nat
  line : Nat
  data : List Byte
  dirty : Bool
  dieLocal : Bool
  owner : Byte
deriving DecidableEq, Repr

/-- R308, R373: an L2 slice: its lines, the remote lines it holds for its own die, and its input queue: thread
and place in issue order of each request, oldest first. -/
structure Slice where
  lines : List Line
  remote : List (Nat × Nat)
  queue : List (Nat × Nat)
deriving DecidableEq, Repr

/-- R367: one leaf in the table of a die. -/
structure Leaf where
  page : Nat
  large : Bool
  raw : Dword
deriving DecidableEq, Repr

/-- R366, R372: a copy of leaves a translator holds. -/
structure Xlt where
  cached : List Leaf
deriving DecidableEq, Repr

/-- R375: the stages of a loft load. -/
inductive LoadSt
  | waiting | copied (ok : Bool)
deriving DecidableEq, Repr

/-- R375: a loft load in progress. -/
structure LoftLoad where
  part : Nat
  src : Nat
  off : Nat
  pages : Nat
  owner : Byte
  cen : Bool
  evc : Nat
  st : LoadSt
deriving DecidableEq, Repr

/-- R166: a thread-request in the compatibility unit. -/
structure Xop where
  tid : Nat
  pend : Nat
  vals : List Word
  flags : Word
deriving DecidableEq, Repr

/-- R293: one entry of a working set: token, live bit, w0..w7. -/
structure WsEntry where
  tok : Word
  live : Bool
  w : List Word
deriving DecidableEq, Repr

/-- R291..R301: a popped job. One that an earlier job of its slot holds has no sequence descriptor yet (R292). -/
structure Job where
  part : Nat
  addr : Nat
  /-- where its sequence descriptor lies -/
  seqAt : Nat
  desc : List Word
  seqd : List Word
  prog : List Dword
  ip : Nat
  pos : Nat
  set : List WsEntry
  s : List Word
  nanm : Bool
  rownan : Bool
  tail : Word
  /-- results: position, status and token -/
  outs : List (Nat × Nat × Word)
  /-- the position's draw has been made -/
  drawn : Option (Nat × Word)
  /-- ready to publish (R304) -/
  finished : Bool
deriving DecidableEq, Repr

/-- R292: a prompter: popped jobs, and whether it met the end marker. -/
structure Prompter where
  jobs : List Job
  stopped : Bool
deriving DecidableEq, Repr

/-- R380: an entry of the error log. -/
structure UeEntry where
  src : Nat
  owner : Byte
  killed : Bool
  addr : Nat
deriving DecidableEq, Repr

/-- R328: the image of a context on a die; `code` is what a copy of it in memory begins with. -/
structure Image where
  ctx : Nat
  die : Nat
  /-- context id, die and check code -/
  code : List Byte
  /-- where the free bytes of the rest begin (R328) -/
  body : Nat
  threads : Sparse Thread
  groups : Sparse Group
  blocks : Sparse Block
  copies : Sparse Copy
  logs : Sparse (Sparse LogEntry)
  /-- slot maps (FLS_MAP register number and core, value) and bank contents -/
  maps : List (Nat × Dword)
  banks : Sparse Memory
  tiles : Sparse (Sparse Tile)
  wb0 : Sparse WBuf
  wb1 : Sparse WBuf
  entries : Sparse (Sparse RtEntry)
deriving DecidableEq, Repr

/-- A die (R14). -/
structure Die where
  slices : Sparse Slice
  xlts : Sparse Xlt
  leaves : List Leaf
  load : Option LoftLoad
  xops : List Xop
  prompters : Sparse Prompter
  /-- contexts halted on the die, and since which clk (R327) -/
  halted : Sparse Nat
  /-- locate cache: line to channel and die (R351) -/
  locate : Sparse (Nat × Nat)
  /-- owner tags of loft cluster regions (R379) -/
  loftOwner : Sparse Byte
  /-- physical lines and their owners (R379) -/
  owners : Sparse Byte
  /-- R16, R366: the physical lines that the memory-side cache of each channel holds, the latest first -/
  sides : Sparse (List Nat)
  /-- poisoned physical lines, flat words and loft lines (R380) -/
  poisonHbm : List Nat
  poisonFlat : List Nat
  poisonLoft : List Nat
  ueLog : List UeEntry
  ueLost : Nat
  corrected : Nat
  shadow : Option Image
deriving DecidableEq, Repr

/-! ### Partitions -/

/-- R238, R356: a registered cue queue. -/
structure Cue where
  ring : Nat
  cap : Nat
  /-- entries, oldest first, with the stores a pop acquires -/
  entries : List (Dword × List Nat)
  /-- ring index of the head -/
  head : Nat
  /-- waiting pops: thread and destination register, in order of their turn -/
  waiters : List Nat
deriving DecidableEq, Repr

/-- R370: an outstanding fault record. -/
structure FaultRec where
  ctx : Nat
  page : Nat
  die : Nat
  kind : Nat
  reason : Nat
  va : Nat
  ia : Nat
  core : Nat
  count : Nat
  /-- threads whose fetch it holds -/
  fetchers : List Nat
  /-- write-backs it holds (R371) -/
  wbs : List Line
deriving DecidableEq, Repr

/-- R357: an open bubble slot. -/
structure Bubble where
  ends : Nat
  allowance : Nat
  seq : Nat
  clusters : Dword
deriving DecidableEq, Repr

/-- R283: a live ready record. -/
structure ReadyRec where
  tid : Word
  src : Nat
  rowb : Nat
  rows : Nat
  sstr : Word
  rcnt : Nat
  pulls : Nat
  /-- pulls answered and not yet acknowledged: the rank, and the clk at which its data left -/
  asked : List (Nat × Nat)
  rcue : Nat
  ctx : Nat
  thread : Nat
  /-- how many stores had been performed when it was announced (R138) -/
  mark : Nat
deriving DecidableEq, Repr

/-- R395: a superstep message that a rank has not acknowledged: the object, its GEN, and the clk at which it was sent. -/
structure StepMsg where
  rank : Nat
  obj : Nat
  gen : Nat
  sent : Nat
deriving DecidableEq, Repr

/-- R394: an entry of the copied rank table. -/
structure Rank where
  addr : List Byte
  job : Nat
  pid : Nat
  ports : Nat
  valid : Bool
  ss : Bool
deriving DecidableEq, Repr

/-- R412..R414: the tableau of a partition. -/
structure Tableau where
  armed : Bool
  fired : Bool
  trig : Nat
  code : Nat
  thread : Word
  buf : Nat
  cap : Nat
  ctx : Nat
  latched : Option (List (List Byte))
  ns : Nat
  clk : Nat
  written : Nat
deriving DecidableEq, Repr

/-- R399: an entry of the translation cache. -/
structure Xlation where
  key : List Byte
  cls : Nat
  svn : Nat
  bytes : List Byte
  used : Nat
deriving DecidableEq, Repr

/-- A write made for a partition that its page's LOCK holds at the translator (R369), and the cue entry that follows it
(R319, R370). -/
structure Late where
  va : Nat
  data : List Byte
  rels : List Nat
  push : Option (Nat × Dword)
deriving DecidableEq, Repr

/-- A partition (R355). -/
structure Part where
  /-- packets admitted per queue (R339) -/
  seqs : Sparse Nat
  /-- the queue served last (R339) -/
  turn : Nat
  cues : Sparse Cue
  faults : Sparse FaultRec
  notes : List Dword
  /-- MSI-X vectors raised so far (R390) -/
  msix : List Nat
  /-- trap entries held while their queue is full (R319): queue and entry -/
  heldTraps : List (Nat × Dword)
  /-- the partition's own writes that LOCK holds, oldest first -/
  late : List Late
  bubble : Option Bubble
  bubbleSeq : Nat
  /-- the launch and the cluster of R348 -/
  reserve : Option (Nat × Nat)
  ready : List ReadyRec
  ranks : List Rank
  /-- GENs that peers report complete: rank × 2^64 + object address to phases (R248) -/
  peers : Sparse Nat
  /-- own completed GENs of superstep objects -/
  supers : Sparse Nat
  /-- superstep messages not yet acknowledged (R395) -/
  steps : List StepMsg
  tableau : Tableau
  /-- queued command blocks, and who queued them (R396) -/
  boot : List (Nat × Requester)
  /-- allocated save frames: offset and size (R326) -/
  frames : List (Nat × Nat)
  xcache : List Xlation
deriving DecidableEq, Repr

/-! ### The package -/

/-- R122: who makes an access, as far as scopes can tell (R115). -/
structure Party where
  blk : Option Nat
  cls : Option Nat
  die : Option Nat
  dev : Bool
deriving DecidableEq, Repr

/-- R118..R122: a store performed in memory. -/
structure StoreRec where
  tid : Option Nat
  core : Option Nat
  launch : Option Nat
  /-- a write of a copy, ordered for its own thread only by cp.wait (R133) -/
  copy : Bool
  /-- an L1 atomic (R129) -/
  l1 : Bool
  /-- the write of an atomic (R129) -/
  atomic : Bool
  /-- publications a reader synchronises with (R122) -/
  rels : List Nat
deriving DecidableEq, Repr

/-- R120: a publication. -/
structure Pub where
  scope : Scope
  who : Party
  stores : List Nat
  /-- of an .ar atomic (R124) -/
  fence : Bool
deriving DecidableEq, Repr

/-- The coherence order of one byte: its value before the first listed store, and the stores, newest first. -/
structure ByteHist where
  first : Byte
  stores : List (Nat × Byte)
deriving DecidableEq, Repr

/-- R144: an icflush that has completed: its place among the stores, which its thread's releases publish; the context and
the bytes it covers; and, by core, the stores that happened before it and that a thread of the core had acquired. -/
structure Flush where
  store : Nat
  ctx : Nat
  va : Nat
  size : Nat
  seen : List (Nat × List Nat)
deriving DecidableEq, Repr

/-- What the phase-consistency model reads: stores in the one order in which they were performed, the bytes
they wrote, publications, and what the device-wide publication order has published so far (R123). -/
structure Hist where
  next : Nat
  stores : Sparse StoreRec
  bytes : Sparse ByteHist
  /-- publications that a reader of a flat byte synchronises with (R111, R141) -/
  flat : Sparse (List Nat)
  nextPub : Nat
  pubs : Sparse Pub
  dev : List Nat
  /-- the latest first (R144) -/
  flushes : List Flush
deriving DecidableEq, Repr

/-- R384..R393: what the part sends out. -/
inductive Msg
  /-- a host memory write: host bus address, bytes, relaxed ordering -/
  | hostWrite (addr : Nat) (data : List Byte) (relaxed : Bool)
  | hostRead (addr size : Nat)
  | hostAtomic (addr size : Nat)
  /-- the zero-length read behind posted writes -/
  | hostFlush
  | mctp (body : List Byte)
  | pull (part rank : Nat) (tid : Word)
  | tile (part rank : Nat) (tid : Word) (data : List Byte)
  | ack (part rank : Nat) (tid : Word)
  | superstep (part rank : Nat) (va gen : Nat)
  /-- the pulse of TBL_TRIGOUT (R413) -/
  | trigOut
  /-- what a read of a register or through BAR2 returns (R384, R387) -/
  | completion (data : List Byte)
deriving DecidableEq, Repr

/-- R404: how far a start has come. -/
inductive Start
  /-- no supply -/
  | off
  /-- a normal attempt: when it began, the step in progress, and the reason code with which a step is going to fail -/
  | starting (clk step : Nat) (fail : Option Byte)
  /-- the attempt ended; PCIe is down until the next start -/
  | failed
  | normal
  | understudy
deriving DecidableEq, Repr

/-- Boot, power and identity of the package. -/
structure Package where
  start : Start
  /-- the status sector of the boot flash (R405): the counter, the last reason, and whether the host forced
  understudy mode -/
  fails : Nat
  reason : Byte
  forced : Bool
  /-- firmware in flash, written by LOAD of kinds 3 and 4 (R398) -/
  flash : Sparse (List Byte)
  pcie : Bool
  tripped : Bool
  ownerKeys : Sparse (List Byte)
  measures : Sparse (List Byte)
  smgNotes : List Dword
  /-- stores that the stage manager has made in device memory (R360) -/
  smgStores : List Nat
  sent : List Msg
  /-- entries of the host-address table as the part has cached them, by page and frame (R388) -/
  hat : Sparse Nat
  /-- until which clk a retrain pauses the die-to-die link (R409) -/
  linkPause : Nat
  /-- device ns = 4·clk/5 + nsAdd + the slewed part of nsSlew since nsFrom (R391) -/
  nsAdd : Int
  nsSlew : Int
  nsFrom : Nat
  hotLoft : Bool
  algorithms : Bool
deriving DecidableEq, Repr

/-- What the machine does next (the model's own; log entry 1). -/
inductive Act
  /-- one of the two selectors of a core makes a selection -/
  | issue (core : Nat) (second : Bool)
  /-- a prompter executes the next word of its oldest job -/
  | prompt (die n : Nat)
  /-- a copy in flight reads and writes some of its words -/
  | copy (n : Nat)
  /-- the held writes of a partition are translated again (R369) -/
  | late (part : Nat)
  /-- a step of a normal start ends (R404) -/
  | boot
  /-- the stage manager stores bytes in a partition's memory (R115, R360) -/
  | smgStore (part va : Nat) (data : List Byte)
  /-- an event -/
  | event (i : Instr)
deriving DecidableEq, Repr

/-- One turn: how many clk pass before it, and what is done. -/
structure Turn where
  clk : Nat
  act : Act
deriving DecidableEq, Repr

/-- R363: a write of a window register: the register, what it held before, and the place of the write among the stores. -/
structure WinWrite where
  reg : Nat
  old : Dword
  store : Nat
deriving DecidableEq, Repr

/-- What an instruction word acts on (the model's own). -/
inductive Issue
  | none
  | bundle (b : Bundle)
  | prompter (die n job : Nat)
deriving DecidableEq, Repr

/-- The whole part. -/
structure State where
  /-- %clk (R64) -/
  clk : Nat
  /-- how many free values have been taken -/
  ctr : Nat
  agenda : List Turn
  issue : Issue
  threads : Sparse Thread
  groups : Sparse Group
  blocks : Sparse Block
  launches : Sparse Launch
  cores : Sparse Core
  clusters : Sparse Cluster
  dies : Sparse Die
  parts : Sparse Part
  copies : Sparse Copy
  /-- system registers, by number × 256 + instance; one not listed holds its reset value -/
  sys : Sparse Dword
  /-- HBM4, by die × 2^38 + physical address -/
  hbm : Memory
  /-- flats, by (die × 256 + bank) × 2^18 + offset -/
  flats : Memory
  /-- loft weight regions, by die × 2^31 + offset -/
  loft : Memory
  /-- host memory, by host bus address -/
  host : Memory
  hist : Hist
  pkg : Package
  /-- images that ctxsave.mem has written, newest first (R328) -/
  images : List Image
  /-- writes of window registers, the latest first (R363) -/
  winWrites : List WinWrite
deriving DecidableEq, Repr

/-! ### After reset -/

def Batch.empty : Batch := ⟨0, [], none, false, 0, []⟩
def WBuf.unlatched : WBuf := ⟨false, 0, 0, 0, 0, .empty, none, []⟩
def Tile.zero : Tile := ⟨.empty, .empty, 0, []⟩
def Cv.zero : Cv := ⟨.idle, 0, 0, none, 0, 0, []⟩
def Bar.zero : Bar := ⟨0, 0⟩
def MaskReg.zero : MaskReg := ⟨0, 0⟩
def Core.idle : Core := ⟨[], [], [], 0, 0, 0, 0, .empty, [], .empty, .empty⟩
def Cluster.idle : Cluster := ⟨.unlatched, .unlatched, .empty, .empty, none, none, 0⟩
def Slice.empty : Slice := ⟨[], [], []⟩
def Xlt.empty : Xlt := ⟨[]⟩
def Prompter.idle : Prompter := ⟨[], false⟩
def Die.idle : Die :=
  { slices := .empty, xlts := .empty, leaves := [], load := none, xops := [], prompters := .empty, halted := .empty,
    locate := .empty, loftOwner := .empty, owners := .empty, sides := .empty, poisonHbm := [], poisonFlat := [], poisonLoft := [],
    ueLog := [], ueLost := 0, corrected := 0, shadow := none }
def Tableau.idle : Tableau := ⟨false, false, 0, 0, 0xFFFF_FFFF, 0, 0, 0, none, 0, 0, 0⟩
def Part.idle : Part :=
  { seqs := .empty, turn := 63, cues := .empty, faults := .empty, notes := [], msix := [], heldTraps := [], late := [],
    bubble := none, bubbleSeq := 0, reserve := none, ready := [], ranks := [], peers := .empty, supers := .empty, steps := [],
    tableau := .idle, boot := [], frames := [], xcache := [] }
def Hist.empty : Hist := ⟨0, .empty, .empty, .empty, 0, .empty, [], []⟩

/-- R8, R404, R405: the package at power-on reset, before its first start attempt: PCIe down, the failure
counter 0. The contents of flash, fuses and keys are not stated (DESIGN CHOICE, log entry 3). -/
def Package.atReset : Package :=
  { start := .off, fails := 0, reason := 0, forced := false, flash := .empty, pcie := false, tripped := false,
    ownerKeys := .empty, measures := .empty, smgNotes := [], smgStores := [], sent := [], hat := .empty, linkPause := 0, nsAdd := 0, nsSlew := 0,
    nsFrom := 0, hotLoft := false, algorithms := false }

/-- R8: the machine after power-on reset: every system register at its reset value, nothing resident, nothing
pending. -/
def State.reset : State :=
  { clk := 0, ctr := 0, agenda := [], issue := .none, threads := .empty, groups := .empty, blocks := .empty,
    launches := .empty, cores := .empty, clusters := .empty, dies := .empty, parts := .empty, copies := .empty,
    sys := .empty, hbm := [], flats := [], loft := [], host := [], hist := .empty, pkg := .atReset, images := [], winWrites := [] }

end Sys2Proof.Machine
end

