-- ==== Sys2Proof/Machine/Flags.lean ====
section
/-! DEFINITION. The sticky flags of %fsr (R66, R99). Each operation returns the flags it raises beside its
result (Float, FloatOps, Special, Dist); they are ORed into %fsr when the result is written (R67, Operands). -/

namespace Sys2Proof.Machine

/-! ### Flags (R66, R99) -/

/-- The sticky flags, at their places in %fsr. -/
abbrev Flags := Word

namespace Flags
def none : Flags := 0
def nx : Flags := 1
def uf : Flags := 2
def of : Flags := 4
def inv : Flags := 8
def nf : Flags := 16
def when (b : Bool) (f : Flags) : Flags := if b then f else 0
end Flags

end Sys2Proof.Machine
end

