-- ==== Sys2Proof/Machine/Float.lean ====
section
/-! DEFINITION. Number formats and exact arithmetic (R84..R87, R96..R102): codes to exact values, exact sums
and products, one rounding into a format, conversions and the variance they add. -/

namespace Sys2Proof.Machine

/-! ### Formats (R84) -/

/-- A floating-point format: mantissa and exponent widths, bias, a sign bit or none, what its top codes mean. -/
structure Fmt where
  m : Nat
  e : Nat
  bias : Nat
  signed : Bool
  /-- has infinities (and then NaNs beside them) -/
  inf : Bool
  /-- the magnitude code of the canonical NaN, where there is one -/
  nan : Option Nat
  /-- the magnitude code of the largest finite value -/
  top : Nat
deriving DecidableEq, Repr

namespace Fmt
def f64 : Fmt := ⟨52, 11, 1023, true, true, some 0x7FF8_0000_0000_0000, 0x7FEF_FFFF_FFFF_FFFF⟩
def f32 : Fmt := ⟨23, 8, 127, true, true, some 0x7FC0_0000, 0x7F7F_FFFF⟩
def f16 : Fmt := ⟨10, 5, 15, true, true, some 0x7E00, 0x7BFF⟩
def bf16 : Fmt := ⟨7, 8, 127, true, true, some 0x7FC0, 0x7F7F⟩
def e5m2 : Fmt := ⟨2, 5, 15, true, true, some 0x7E, 0x7B⟩
def e4m3 : Fmt := ⟨3, 4, 7, true, false, some 0x7F, 0x7E⟩
def e3m2 : Fmt := ⟨2, 3, 3, true, false, none, 0x1F⟩
def e2m3 : Fmt := ⟨3, 2, 1, true, false, none, 0x1F⟩
def e2m1 : Fmt := ⟨1, 2, 1, true, false, none, 0x7⟩
def vf8 : Fmt := ⟨3, 5, 15, false, false, some 0xFF, 0xFE⟩
def vf4 : Fmt := ⟨1, 3, 3, false, false, none, 0xF⟩

/-- Bits below the sign. -/
def mag (f : Fmt) : Nat := f.m + f.e
/-- All bits. -/
def bits (f : Fmt) : Nat := f.mag + if f.signed then 1 else 0
/-- The smallest exponent of a normal value. -/
def emin (f : Fmt) : Int := 1 - (f.bias : Int)
/-- R87: the formats FTZ applies to. -/
def flushes (f : Fmt) : Bool := f == f32 || f == f16 || f == bf16
/-- The code of zero with a sign. -/
def zero (f : Fmt) (neg : Bool) : Nat := if neg && f.signed then 2 ^ f.mag else 0
/-- A magnitude code with a sign. -/
def sign (f : Fmt) (neg : Bool) (c : Nat) : Nat := c + f.zero neg
/-- The canonical NaN (R85). -/
def qnan (f : Fmt) : Nat := f.nan.getD f.top
/-- The code of an infinity. -/
def infCode (f : Fmt) (neg : Bool) : Nat := f.sign neg ((2 ^ f.e - 1) * 2 ^ f.m)

/-- R84: the value of a code. -/
def decode (f : Fmt) (c : Nat) : Num :=
  let neg := f.signed && c / 2 ^ f.mag % 2 == 1
  let a := c % 2 ^ f.mag
  let ef := a / 2 ^ f.m
  let mf := a % 2 ^ f.m
  if f.inf && ef == 2 ^ f.e - 1 then (if mf = 0 then .inf neg else .nan)
  else if !f.inf && f.nan == some a then .nan
  else if ef = 0 then .fin neg mf (f.emin - f.m)
  else .fin neg (2 ^ f.m + mf) ((ef : Int) - f.bias - f.m)

/-- R85: a signalling NaN. -/
def isSnan (f : Fmt) (c : Nat) : Bool :=
  f.inf && c / 2 ^ f.m % 2 ^ f.e == 2 ^ f.e - 1 && c % 2 ^ f.m != 0 && c / 2 ^ (f.m - 1) % 2 == 0

/-- A non-zero subnormal code. -/
def isSub (f : Fmt) (c : Nat) : Bool := c / 2 ^ f.m % 2 ^ f.e == 0 && c % 2 ^ f.m != 0

/-- R87: a source under FTZ. -/
def flushIn (f : Fmt) (ftz : Bool) (c : Nat) : Nat :=
  if ftz && f.flushes && f.isSub c then f.zero (c / 2 ^ f.mag % 2 == 1) else c

end Fmt

/-- R152: the format of a scalar or packed element type. -/
def Fmt.ofTy : Ty → Option Fmt
  | .f64 => some .f64 | .f32 => some .f32
  | .f16 | .f16x2 => some .f16
  | .bf16 | .bf16x2 => some .bf16
  | .e4m3 | .e4m3x4 => some .e4m3
  | .e5m2 | .e5m2x4 => some .e5m2
  | .e3m2 | .e3m2x4 => some .e3m2
  | .e2m3 | .e2m3x4 => some .e2m3
  | .e2m1 | .e2m1x8 => some .e2m1
  | .vf8 => some .vf8 | .vf4 => some .vf4
  | _ => none

/-! ### Exact arithmetic -/

namespace Num

def zero (neg : Bool) : Num := .fin neg 0 0
def ofInt (x : Int) : Num := .fin (x < 0) x.natAbs 0

def isNan : Num → Bool
  | .nan => true
  | _ => false
def isInf : Num → Bool
  | .inf _ => true
  | _ => false
def isZero : Num → Bool
  | .fin _ 0 _ => true
  | _ => false
def isFin : Num → Bool
  | .fin .. => true
  | _ => false
/-- The sign bit, of a zero too. -/
def neg : Num → Bool
  | .nan => false
  | .inf n => n
  | .fin n _ _ => n
/-- Negative and not zero. -/
def below0 : Num → Bool
  | .nan => false
  | .inf n => n
  | .fin n m _ => n && m != 0
def negate : Num → Num
  | .nan => .nan
  | .inf n => .inf (!n)
  | .fin n m e => .fin (!n) m e
def abs : Num → Num
  | .nan => .nan
  | .inf _ => .inf false
  | .fin _ m e => .fin false m e

/-- The value of a finite number as an integer multiple of 2^e. -/
def scaled (e : Int) : Num → Int
  | .fin n m x => let k : Int := m * 2 ^ (x - e).toNat; if n then -k else k
  | _ => 0

/-- An exponent at or below both of two numbers. -/
def lowExp : Num → Num → Int
  | .fin _ _ a, .fin _ _ b => min a b
  | .fin _ _ a, _ => a
  | _, .fin _ _ b => b
  | _, _ => 0

/-- Exact sum of finite numbers; the sign of an exact zero follows R96 (`rd`: the mode is RD). -/
def addFin (rd : Bool) (a b : Num) : Num :=
  let e := lowExp a b
  let s := a.scaled e + b.scaled e
  if s = 0 then .fin (if a.isZero && b.isZero && a.neg == b.neg then a.neg else rd) 0 0
  else .fin (s < 0) s.natAbs e

/-- IEEE 754 addition before rounding, with whether it is invalid. -/
def add (rd : Bool) : Num → Num → Num × Bool
  | .nan, _ => (.nan, false)
  | _, .nan => (.nan, false)
  | .inf a, .inf b => if a = b then (.inf a, false) else (.nan, true)
  | .inf a, _ => (.inf a, false)
  | _, .inf b => (.inf b, false)
  | a, b => (addFin rd a b, false)

/-- IEEE 754 multiplication before rounding, with whether it is invalid. -/
def mul : Num → Num → Num × Bool
  | .nan, _ => (.nan, false)
  | _, .nan => (.nan, false)
  | .inf a, b => if b.isZero then (.nan, true) else (.inf (a != b.neg), false)
  | a, .inf b => if a.isZero then (.nan, true) else (.inf (a.neg != b), false)
  | .fin n m e, .fin n' m' e' => (.fin (n != n') (m * m') (e + e'), false)

/-- R96: the sign of an exactly zero result that is no sum: −0 where IEEE 754 gives it and the mode is RD, +0
otherwise (DEDUCED, log entry 58). -/
def zeroSign (rd : Bool) : Num → Num
  | .fin n 0 e => .fin (n && rd) 0 e
  | x => x

/-- R96: a product that is a result. -/
def times (rd : Bool) (a b : Num) : Num × Bool := let p := mul a b; (p.1.zeroSign rd, p.2)

/-- A number squared, exactly. -/
def sq (x : Num) : Num := (mul x x).1

/-- Order of two numbers that are not NaN, −0 equal to +0. -/
def lt : Num → Num → Bool
  | .nan, _ => false
  | _, .nan => false
  | .inf a, .inf b => a && !b
  | .inf a, _ => a
  | _, .inf b => !b
  | a, b => let e := lowExp a b; decide (a.scaled e < b.scaled e)

def eq : Num → Num → Bool
  | .nan, _ => false
  | _, .nan => false
  | .inf a, .inf b => a == b
  | .inf _, _ => false
  | _, .inf _ => false
  | a, b => let e := lowExp a b; decide (a.scaled e = b.scaled e)

/-- Quotient of finite non-zero numbers to `k` bits and one more that says whether anything remains: enough
for any rounding into fewer than k − 18 bits. -/
def divFin (k : Nat) : Num → Num → Num
  | .fin n m e, .fin n' m' e' =>
      let sh := k + Nat.log2 m' + 1 - Nat.log2 m
      let q := m * 2 ^ sh / m'
      let r := m * 2 ^ sh % m'
      .fin (n != n') (2 * q + if r = 0 then 0 else 1) (e - e' - sh - 1)
  | _, _ => .nan

/-- IEEE 754 division before rounding, with whether it is invalid. -/
def div (a b : Num) : Num × Bool :=
  match a, b with
  | .nan, _ => (.nan, false)
  | _, .nan => (.nan, false)
  | .inf _, .inf _ => (.nan, true)
  | .inf n, y => (.inf (n != y.neg), false)
  | x, .inf n => (.zero (x.neg != n), false)
  | x, y =>
      if y.isZero then (if x.isZero then (.nan, true) else (.inf (x.neg != y.neg), false))
      else if x.isZero then (.zero (x.neg != y.neg), false)
      else (divFin 80 x y, false)

end Num

/-- The largest r with r² ≤ n, by bits: `fuel` counts the bits still to decide. -/
def sqrtBits (n : Nat) : Nat → Nat → Nat
  | 0, r => r
  | fuel + 1, r => let t := r + 2 ^ fuel; sqrtBits n fuel (if t * t ≤ n then t else r)

/-- The integer square root. -/
def natSqrt (n : Nat) : Nat := sqrtBits n (Nat.log2 n / 2 + 1) 0

/-- Square root of a number, to 80 bits and one that says whether anything remains. -/
def Num.sqrt : Num → Num × Bool
  | .nan => (.nan, false)
  | .inf n => if n then (.nan, true) else (.inf false, false)
  | .fin n m e =>
      if m = 0 then (.fin n 0 0, false)
      else if n then (.nan, true)
      else
        let sh : Nat := if e % 2 = 0 then 160 else 161
        let x := m * 2 ^ sh
        let r := natSqrt x
        (.fin false (2 * r + if r * r = x then 0 else 1) ((e - sh) / 2 - 1), false)

/-! ### Rounding (R96..R99) -/

/-- What a rounding of |x| = m × 2^e onto a grid of spacing 2^u gives: the lower multiple, whether the upper
one is taken, whether it was inexact. `d16` is D of R96. -/
structure Grid where
  q : Nat
  up : Bool
  nx : Bool
  d16 : Nat
deriving DecidableEq, Repr

/-- R96: the choice between the two neighbours. -/
def gridRound (mode : RM) (r : Nat) (neg : Bool) (m : Nat) (e u : Int) : Grid :=
  if u ≤ e then ⟨m * 2 ^ (e - u).toNat, false, false, 0⟩
  else
    let sh := (u - e).toNat
    let q := m / 2 ^ sh
    let rem := m % 2 ^ sh
    let d := rem * 65536 / 2 ^ sh
    if rem = 0 then ⟨q, false, false, 0⟩
    else
      let up := match mode with
        | .rne | .dyn => decide (2 * rem > 2 ^ sh) || (2 * rem == 2 ^ sh && q % 2 == 1)
        | .rz => false
        | .rd => neg
        | .ru => !neg
        | .sr => decide (r < d)
      ⟨q, up, true, d⟩

/-- The exponent of the spacing of `f`'s grid at |x| = m × 2^e, m ≠ 0. -/
def Fmt.spacing (f : Fmt) (m : Nat) (e : Int) : Int := max ((Nat.log2 m : Int) + e) f.emin - f.m

/-- A rounded magnitude: its code (which may lie beyond `top`), the grid step taken, whether it is tiny (R99). -/
structure Rounded where
  code : Nat
  g : Grid
  u : Int
  tiny : Bool
deriving DecidableEq, Repr

/-- R96 on the grid of a format, the exponent range unbounded above. -/
def Fmt.roundMag (f : Fmt) (mode : RM) (r : Nat) (neg : Bool) (m : Nat) (e : Int) : Rounded :=
  let u := f.spacing m e
  let g := gridRound mode r neg m e u
  let k := g.q + if g.up then 1 else 0
  -- codes of a format run on by one over its binades
  let ef : Nat := (u + f.m + f.bias).toNat
  let code := (ef - 1) * 2 ^ f.m + k
  let l : Int := Nat.log2 m + e
  let g' := gridRound mode r neg m e (l - f.m)
  let k' := g'.q + if g'.up then 1 else 0
  ⟨code, g, u, decide (l < f.emin) && decide (k' < 2 ^ (f.m + 1) ∨ l + 1 < f.emin)⟩

/-- R98: the result of an overflow, with the flags beside OF and NX. -/
def Fmt.overflow (f : Fmt) (mode : RM) (sat neg : Bool) : Nat × Flags :=
  if f.inf then
    let toInf := match mode with
      | .rne | .sr | .dyn => true
      | .ru => !neg
      | .rd => neg
      | .rz => false
    if sat || !toInf then (f.sign neg f.top, 0) else (f.infCode neg, Flags.nf)
  else if f.nan.isSome && f.signed then
    (if sat then (f.sign neg f.top, 0) else (f.qnan, Flags.nf))
  else (f.sign neg f.top, 0)

/-- The outcome of a rounding: the code, the flags, and what R102 asks about it. -/
structure RoundOut where
  code : Nat
  flags : Flags
  ovf : Bool
  r : Rounded
deriving DecidableEq, Repr

/-- R96, R98, R99, R87: a finite non-zero value rounded into a format. -/
def Fmt.roundFin (f : Fmt) (mode : RM) (sat ftz : Bool) (r : Nat) (neg : Bool) (m : Nat) (e : Int) : RoundOut :=
  let x := f.roundMag mode r neg m e
  if x.code > f.top then
    let o := f.overflow mode sat neg
    ⟨o.1, o.2 ||| Flags.of ||| Flags.nx, true, x⟩
  else
    let c := f.sign neg x.code
    if ftz && f.flushes && f.isSub c then ⟨f.zero neg, Flags.uf ||| Flags.nx, false, x⟩
    else ⟨c, Flags.when x.g.nx Flags.nx ||| Flags.when (x.g.nx && x.tiny) Flags.uf, false, x⟩

/-- R85, R96..R99: an exact result put into a format that has infinities. -/
def Fmt.put (f : Fmt) (mode : RM) (ftz : Bool) (r : Nat) (x : Num) : Nat × Flags :=
  match x with
  | .nan => (f.qnan, Flags.nf)
  | .inf n => (f.infCode n, Flags.nf)
  | .fin n m e =>
      if m = 0 then (f.zero n, 0)
      else let o := f.roundFin mode false ftz r n m e; (o.code, o.flags)

/-- R11: round(x) to FP32 with RNE, subnormals kept. -/
def rneF32 (x : Num) : Word × Flags := let p := Fmt.f32.put .rne false 0 x; (BitVec.ofNat 32 p.1, p.2)

/-- The value of an FP32 register. -/
def f32Val (w : Word) : Num := Fmt.f32.decode w.toNat

/-- The canonical NaN of FP32. -/
def nan32 : Word := 0x7FC0_0000

/-! ### Conversions between floating-point formats (R100) -/

/-- What a conversion gives: the code, the flags, and the outcome of its rounding where there was one. -/
structure ConvOut where
  code : Nat
  flags : Flags
  rounded : Option RoundOut
deriving DecidableEq, Repr

/-- R100: a source value converted; `nanNeg` is the sign bit of a NaN source. A NaN result sets NF, as R99 says of
every NaN result, also where the row of R100 lists no flag (DEDUCED, log entry 60). -/
def Fmt.convert (f : Fmt) (mode : RM) (sat ftz : Bool) (r : Nat) (nanNeg : Bool) (x : Num) : ConvOut :=
  match x with
  | .nan =>
      match f.nan with
      | some _ => ⟨f.qnan, Flags.nf, none⟩
      | none => ⟨f.sign (nanNeg && f.signed) f.top, Flags.nf ||| Flags.inv, none⟩
  | .inf n =>
      if f.inf then
        (if sat then ⟨f.sign n f.top, Flags.nf, none⟩ else ⟨f.infCode n, Flags.nf, none⟩)
      else if !f.signed then
        (if n then ⟨0, Flags.nf ||| Flags.inv, none⟩ else ⟨f.top, Flags.nf, none⟩)
      else if f.nan.isSome && !sat then ⟨f.qnan, Flags.nf, none⟩
      else ⟨f.sign n f.top, Flags.nf, none⟩
  | .fin n m e =>
      if m = 0 then ⟨f.zero n, 0, none⟩
      else if n && !f.signed then ⟨0, Flags.inv, none⟩
      else let o := f.roundFin mode sat ftz r n m e; ⟨o.code, o.flags, some o⟩

/-- R102: the variance a conversion of the finite or other FP32 value `x` to the code `y` adds; the flags are
those of R75. A `y` that is NaN while `x` is not (E4M3 without .sat) has no row of R102: w is then the canonical
NaN, as R74 makes the variance of a NaN mean (DEDUCED, log entry 59). -/
def Fmt.roundVar (f : Fmt) (mode : RM) (x : Num) (c : ConvOut) : Word × Flags :=
  let y := f.decode c.code
  match x with
  | .nan => (nan32, 0)
  | .inf _ => if y == x then (0, 0) else if y.isNan then (nan32, 0) else (0x7F80_0000, 0)
  | .fin n m e =>
      if y.eq x then (0, 0)
      else if y.isNan then (nan32, 0)
      else match c.rounded with
        | none => rneVar (Num.mul (x.add false y.negate).1 (x.add false y.negate).1).1
        | some o =>
            if y.isInf then (0x7F80_0000, Flags.of ||| Flags.nf)
            else if o.ovf then
              let d := (x.add false y.negate).1
              rneVar (d.mul d).1
            else match mode with
              | .sr =>
                  let lo := Num.fin n o.r.g.q o.r.u
                  let hi := Num.fin n (o.r.g.q + 1) o.r.u
                  let a := rneF32 (x.add false lo.negate).1.abs
                  let b := rneF32 (hi.add false x.negate).1.abs
                  rneVar ((f32Val a.1).mul (f32Val b.1)).1
              | _ =>
                  -- u² ÷ 12, u the spacing of F in the binade of y
                  let u : Int := match y with
                    | .fin _ ym ye => if ym = 0 then f.emin - f.m else f.spacing ym ye
                    | _ => 0
                  let _ := m; let _ := e
                  rneVar (Num.divFin 80 (.fin false 1 (2 * u)) (.fin false 12 0))
where
  /-- RNE to FP32 for variances: a result of +∞ sets OF and NF, nothing else is set (R75). -/
  rneVar (x : Num) : Word × Flags :=
    let p := rneF32 x
    (p.1, if (f32Val p.1).isInf then Flags.of ||| Flags.nf else 0)

/-! ### Conversions to and from integers (R101) -/

/-- An integer type's least and greatest values (R88). -/
def intRange : Ty → Int × Int
  | .u32 => (0, 2 ^ 32 - 1) | .i32 => (-2 ^ 31, 2 ^ 31 - 1)
  | .u16 => (0, 2 ^ 16 - 1) | .i16 => (-2 ^ 15, 2 ^ 15 - 1)
  | .u8 => (0, 255) | .i8 => (-128, 127)
  | _ => (0, 2 ^ 32 - 1)

/-- R101: a value rounded to an integer and saturated to [lo, hi]. -/
def toIntSat (mode : RM) (r : Nat) (lo hi : Int) (x : Num) : Int × Flags :=
  match x with
  | .nan => (0, Flags.inv)
  | .inf n => (if n then lo else hi, Flags.inv)
  | .fin n m e =>
      let g := gridRound mode r n m e 0
      let k : Int := g.q + if g.up then 1 else 0
      let v := if n then -k else k
      if v < lo then (lo, Flags.inv) else if v > hi then (hi, Flags.inv) else (v, Flags.when g.nx Flags.nx)

end Sys2Proof.Machine
end

