-- ==== Sys2Proof/Machine/Regs.lean ====
section
/-! DEFINITION. The system registers (R313): their numbers, who may reach them, their widths, which of their
bits a write sets, their reset values (R7, R8). -/

namespace Sys2Proof.Machine

/-- R384: how many instances a register has. -/
inductive Per
  | package | ctx | part | die | core
deriving DecidableEq, Repr

/-- What the register maps say of one register. `acts` : it acts on a write; `actsRead` : on a read (R385). -/
structure RegInfo where
  per : Per
  mOnly : Bool
  wide : Bool
  rw : Nat
  reset : Nat
  acts : Bool := false
  actsRead : Bool := false
deriving DecidableEq, Repr

namespace RegNo

/-- R313: a register number from its block and its index. -/
def of (block index : Nat) : Nat := block * 0x4000 + index

def waitSave : Nat := of 1 0
def earlyReserve : Nat := of 1 1
def rsv : Nat := of 1 2
def rsvcl : Nat := of 1 3
def trapArea : Nat := of 1 4
def saveBase : Nat := of 1 5
def swapVar (d : Nat) : Nat := of 1 (6 + d)
def evcAdd : Nat := of 1 0x010
def pcl : Nat := of 1 0x011
def bsMask : Nat := of 1 0x012
def bsOpen : Nat := of 1 0x013
def bsWord : Nat := of 1 0x014
def cueReg : Nat := of 1 0x015
def cancel : Nat := of 1 0x016
def rtCtx : Nat := of 1 0x017
def trapQ (c : Nat) : Nat := of 1 (0x100 + c)
def lq (q : Nat) : Nat := of 1 (0x200 + q)
def lqPtr (q : Nat) : Nat := of 1 (0x240 + q)
def evc (n : Nat) : Nat := of 1 (0x400 + n)
def ctx (c : Nat) : Nat := of 1 (0x800 + c)
def pmc (n : Nat) : Nat := of 1 (0x900 + n)
def pir : Nat := of 2 0x010
def pfr (d : Nat) : Nat := of 2 (0x012 + d)
def pteIa : Nat := of 2 0x020
def pteData : Nat := of 2 0x021
def pteCmd : Nat := of 2 0x022
def faultArea : Nat := of 2 0x030
def faultQ : Nat := of 2 0x031
def resolve : Nat := of 2 0x032
def faultAddr : Nat := of 2 0x033
def winA (c n : Nat) : Nat := of 2 (0x1000 + 32 * c + 2 * n)
def winB (c n : Nat) : Nat := of 2 (0x1000 + 32 * c + 2 * n + 1)
def prmSeqBase (n : Nat) : Nat := of 3 n
def prmInq (n : Nat) : Nat := of 3 (4 + n)
def prmErr (n : Nat) : Nat := of 3 (8 + n)
def loftRef : Nat := of 4 0
def loftSrc : Nat := of 4 0x010
def loftDst : Nat := of 4 0x011
def loftCtl : Nat := of 4 0x012
def flsMap (s : Nat) : Nat := of 5 s
def flsBankCtl : Nat := of 5 0x010
def flsOwn (b : Nat) : Nat := of 5 (0x100 + b)
def l2sRwf (s : Nat) : Nat := of 8 s
def smgFifo : Nat := of 0x0A 0
def smgCueH : Nat := of 0x0A 1
def smgCueE : Nat := of 0x0A 2
def dbgSel (n : Nat) : Nat := of 0x0B n
def dbgData (n : Nat) : Nat := of 0x0B (4 + n)
def dbgCtl (c : Nat) : Nat := of 0x0B (0x100 + c)
def dbgIbp (c n : Nat) : Nat := of 0x0B (0x1000 + 16 * c + n)
def dbgWp (c n : Nat) : Nat := of 0x0B (0x1008 + 16 * c + n)
def tblCtl : Nat := of 0x0C 0
def b2map : Nat := of 0x0D 0
def hlkErr : Nat := of 0x0D 1
def hlkNote : Nat := of 0x0D 2
def hatBase : Nat := of 0x0D 0x010
def hlCmd : Nat := of 0x0D 0x011
def ptm : Nat := of 0x0D 0x020
def uepCtl (p : Nat) : Nat := of 0x0E p
def uepGrp : Nat := of 0x0E 0x010
def uepBase : Nat := of 0x0E 0x011
def uepTmo : Nat := of 0x0E 0x012
def xcuStat : Nat := of 0x0F 0
def scbCtl : Nat := of 0x10 0
def scbCe : Nat := of 0x10 1
def scbUe : Nat := of 0x10 2
def bootStatus : Nat := of 0x11 0
def bootFails : Nat := of 0x11 1
def bootIdent : Nat := of 0x11 2
def bootCmd : Nat := of 0x11 0x010
def bootXcache : Nat := of 0x11 0x011
def bootSvn (c : Nat) : Nat := of 0x11 (0x020 + c)
def tunPwr : Nat := of 0x12 0
def tunStat : Nat := of 0x12 1
def tunAvs (c : Nat) : Nat := of 0x12 (0x100 + c)

end RegNo

/-- Bits [hi:lo] set. -/
def maskBits (hi lo : Nat) : Nat := 2 ^ (hi + 1) - 2 ^ lo

/-- The maps of the dispatcher's registers. -/
def dispInfo (i : Nat) : Option RegInfo :=
  if i = 0 then some ⟨.part, false, false, maskBits 9 0, 20, false, false⟩
  else if i = 1 then some ⟨.part, false, false, maskBits 7 0, 48, false, false⟩
  else if i = 2 then some ⟨.part, true, false, maskBits 5 0, 2, false, false⟩
  else if i = 3 then some ⟨.part, true, true, maskBits 63 0, 0, false, false⟩
  else if i = 4 then some ⟨.part, true, true, maskBits 56 6, 0, false, false⟩
  else if i = 5 then some ⟨.part, true, true, maskBits 63 58 + maskBits 56 12, 0, false, false⟩
  else if i = 6 ∨ i = 7 then some ⟨.part, true, true, maskBits 56 21, 0, false, false⟩
  else if i = 0x010 then some ⟨.part, false, true, 0, 0, true, false⟩
  else if i = 0x011 then some ⟨.part, true, true, maskBits 63 0, 0, false, false⟩
  else if i = 0x012 then some ⟨.part, false, true, maskBits 63 0, 0, false, false⟩
  else if i = 0x013 then some ⟨.part, false, true, maskBits 47 40 + maskBits 35 32, 10 * 2 ^ 40 + 2 ^ 32, true, false⟩
  else if i = 0x014 then some ⟨.part, false, true, maskBits 56 4, 0, false, false⟩
  else if i = 0x015 then some ⟨.part, false, true, maskBits 56 6, 0, true, false⟩
  else if i = 0x016 then some ⟨.part, false, true, 0, 0, true, false⟩
  else if i = 0x017 then some ⟨.part, true, false, maskBits 31 31 + maskBits 7 0, 0, false, false⟩
  else if 0x100 ≤ i ∧ i < 0x1FF then some ⟨.ctx, false, true, maskBits 63 0, 0, false, false⟩
  else if 0x200 ≤ i ∧ i < 0x240 then some ⟨.part, false, true, maskBits 63 59 + maskBits 56 0, 0, false, false⟩
  else if 0x240 ≤ i ∧ i < 0x280 then some ⟨.part, false, true, maskBits 31 0, 0, true, false⟩
  else if 0x400 ≤ i ∧ i < 0x800 then some ⟨.part, false, true, maskBits 31 0, 0, false, false⟩
  else if 0x800 ≤ i ∧ i < 0x8FF then some ⟨.package, true, false, maskBits 31 31 + maskBits 2 0, 0, false, false⟩
  else if 0x900 ≤ i ∧ i < 0x908 then some ⟨.core, false, true, maskBits 63 0, 0, false, false⟩
  else none

/-- The maps of the translator's registers. -/
def xltInfo (i : Nat) : Option RegInfo :=
  if i = 0x010 then some ⟨.part, true, true, maskBits 63 0, 0, false, false⟩
  else if i = 0x012 ∨ i = 0x013 then some ⟨.part, true, true, maskBits 54 32 + maskBits 22 0, 0, false, false⟩
  else if i = 0x020 then some ⟨.core, false, true, maskBits 47 16 + maskBits 2 0, 1, false, false⟩
  else if i = 0x021 then some ⟨.core, false, true, maskBits 63 0, 0, false, false⟩
  else if i = 0x022 then some ⟨.core, false, true, 0, 0, true, false⟩
  else if i = 0x030 then some ⟨.part, true, true, maskBits 56 17, 0, false, false⟩
  else if i = 0x031 then some ⟨.part, false, true, maskBits 63 0, 0, false, false⟩
  else if i = 0x032 then some ⟨.part, false, true, 0, 0, true, false⟩
  else if i = 0x033 then some ⟨.part, false, true, 0, 0, false, false⟩
  else if 0x1000 ≤ i ∧ i < 0x1000 + 32 * 255 then
    some ⟨.ctx, false, true, if i % 2 = 0 then maskBits 63 16 else maskBits 63 0, 0, false, false⟩
  else none

/-- The maps of the debug unit's registers. -/
def dbgInfo (i : Nat) : Option RegInfo :=
  if i < 4 then some ⟨.part, false, true, maskBits 63 28 + maskBits 11 0, 0, false, false⟩
  else if i < 8 then some ⟨.part, false, true, 0, 0, true, false⟩
  else if 0x100 ≤ i ∧ i < 0x1FF then some ⟨.ctx, false, false, maskBits 2 0, 0, true, false⟩
  else if 0x1000 ≤ i ∧ i < 0x1000 + 16 * 255 then
    some ⟨.ctx, false, true, if i % 16 < 8 then maskBits 63 63 + maskBits 56 3 else maskBits 63 0, 0, false, false⟩
  else none

/-- R313, R384 and the register maps: what register number `n` is, if it names one. -/
def regInfo (n : Nat) : Option RegInfo :=
  let i := n % 0x4000
  match n / 0x4000 with
  | 0x01 => dispInfo i
  | 0x02 => xltInfo i
  | 0x03 =>
      if i < 4 then some ⟨.die, false, true, maskBits 63 61 + maskBits 56 7 + 1, 0, false, false⟩
      else if i < 8 then some ⟨.die, false, true, maskBits 63 0, 0, false, false⟩
      else if i < 12 then some ⟨.die, false, true, 0, 0, false, true⟩ else none
  | 0x04 =>
      if i = 0 then some ⟨.die, false, true, 0, 0, false, false⟩
      else if i = 0x010 then some ⟨.die, false, true, maskBits 56 0, 0, false, false⟩
      else if i = 0x011 then some ⟨.die, false, true, maskBits 39 32 + maskBits 30 0, 0, false, false⟩
      else if i = 0x012 then some ⟨.die, false, true, maskBits 41 32 + maskBits 29 29 + maskBits 18 0, 0, true, false⟩
      else none
  | 0x05 =>
      if i < 8 then some ⟨.core, false, false, 0, 0, true, false⟩
      else if i = 0x010 then some ⟨.die, false, false, 0, 0, true, false⟩
      else if 0x100 ≤ i ∧ i < 0x200 then some ⟨.die, true, false, maskBits 31 28 + maskBits 7 0, 0xFF, false, false⟩
      else none
  | 0x08 => if i < 16 then some ⟨.die, false, false, maskBits 31 31 + maskBits 3 0, 0x8004_0004, false, false⟩ else none
  | 0x0A =>
      if i = 0 then some ⟨.package, true, true, 0, 0, false, true⟩
      else if i = 1 then some ⟨.package, true, true, maskBits 56 3, 0, false, false⟩
      else if i = 2 then some ⟨.package, true, true, 0, 0, true, false⟩ else none
  | 0x0B => dbgInfo i
  | 0x0C => if i = 0 then some ⟨.part, false, false, 0, 0, true, false⟩ else none
  | 0x0D =>
      if i = 0 then some ⟨.part, false, true, maskBits 56 8 + 1, 0, false, false⟩
      else if i = 1 then some ⟨.part, false, true, 0, 0, false, true⟩
      else if i = 2 then some ⟨.part, false, true, 0, 0, false, true⟩
      else if i = 0x010 then some ⟨.package, true, true, maskBits 37 27 + 1, 0, false, false⟩
      else if i = 0x011 then some ⟨.core, false, true, 0, 0, true, false⟩
      else if i = 0x020 then some ⟨.package, true, true, maskBits 15 0, 10, false, false⟩ else none
  | 0x0E =>
      if i < 8 then some ⟨.package, true, false, maskBits 31 31, 0, false, false⟩
      else if i = 0x010 then some ⟨.part, false, true, maskBits 63 63 + maskBits 59 24 + maskBits 11 0, 0, true, false⟩
      else if i = 0x011 then some ⟨.part, false, true, maskBits 56 5, 0, false, false⟩
      else if i = 0x012 then some ⟨.part, false, false, maskBits 15 0, 5000, false, false⟩ else none
  | 0x0F => if i = 0 then some ⟨.die, false, true, 0, 0, false, false⟩ else none
  | 0x10 =>
      if i = 0 then some ⟨.die, true, false, maskBits 31 31 + maskBits 9 0, 0x8000_0018, false, false⟩
      else if i = 1 then some ⟨.die, false, false, 0, 0, false, true⟩
      else if i = 2 then some ⟨.die, false, true, 0, 0, false, true⟩ else none
  | 0x11 =>
      if i = 0 then some ⟨.package, false, false, 0, 0, false, false⟩
      else if i = 1 then some ⟨.package, true, false, maskBits 1 0, 0, false, false⟩
      else if i = 2 then some ⟨.package, false, true, 0, 0x9640_0301_0000_0014, false, false⟩
      else if i = 0x010 then some ⟨.part, false, true, 0, 0, true, false⟩
      else if i = 0x011 then some ⟨.package, true, true, maskBits 63 48 + maskBits 37 20, 0, false, false⟩
      else if 0x020 ≤ i ∧ i < 0x028 then some ⟨.package, false, false, 0, 0, false, false⟩ else none
  | 0x12 =>
      if i = 0 then some ⟨.package, true, false, maskBits 11 0, 2600, false, false⟩
      else if i = 1 then some ⟨.package, false, false, 0, 16 * 2 ^ 15, false, false⟩
      else if 0x100 ≤ i ∧ i < 0x140 then some ⟨.package, false, false, 0, 0, false, true⟩ else none
  | _ => none

/-- A register's value at reset (R8); DISP_PCL of partition 0 owns every cluster (R355). -/
def regReset (n inst : Nat) : Dword :=
  if n = RegNo.pcl ∧ inst = 0 then BitVec.ofNat 64 (2 ^ 64 - 1)
  else BitVec.ofNat 64 ((regInfo n).map RegInfo.reset |>.getD 0)

/-- Where an instance of a register stands in State.sys. -/
def regKey (n inst : Nat) : Nat := n * 256 + inst

/-- The stored bits of a register. -/
def sysGet (s : State) (n inst : Nat) : Dword := s.sys.findD (regKey n inst) (regReset n inst)

/-- The stored bits of a register set, whoever sets them. -/
def sysPut (s : State) (n inst : Nat) (x : Dword) : State := { s with sys := s.sys.set (regKey n inst) x }

/-- Bits [hi:lo] of a register. -/
def sysBits (s : State) (n inst hi lo : Nat) : Nat := bits (sysGet s n inst).toNat hi lo

/-- A value with bits [hi:lo] replaced. -/
def putBits (x : Dword) (hi lo v : Nat) : Dword :=
  BitVec.ofNat 64 (x.toNat - bits x.toNat hi lo * 2 ^ lo + (v % 2 ^ (hi + 1 - lo)) * 2 ^ lo)

/-- A field of a register set. -/
def sysPutBits (s : State) (n inst hi lo v : Nat) : State := sysPut s n inst (putBits (sysGet s n inst) hi lo v)

/-- What a plain write leaves in a register (R7, R9): the RW bits take the written value, every other bit
stays; then the limits its map states for its fields. -/
def regStored (n : Nat) (info : RegInfo) (old new : Dword) : Dword :=
  let x := (old &&& ~~~ BitVec.ofNat 64 info.rw) ||| (new &&& BitVec.ofNat 64 info.rw)
  let f := fun hi lo => bits x.toNat hi lo
  let i := n % 0x4000
  if n = RegNo.waitSave then putBits x 9 0 (if f 9 0 = 0 then 1 else min (f 9 0) 1000)
  else if n = RegNo.earlyReserve then putBits x 7 0 (min (f 7 0) 192)
  else if n = RegNo.rsv then putBits x 5 0 (min (f 5 0) 32)
  else if n = RegNo.pteIa then putBits x 1 0 (if f 1 0 = 0 then 1 else f 1 0)
  else if n = RegNo.bsOpen then putBits x 35 32 (if f 35 32 = 0 then 1 else f 35 32)
  else if n / 0x4000 = 0x08 then putBits x 3 0 (min (f 3 0) 8)
  else if n / 0x4000 = 0x0B ∧ 0x100 ≤ i ∧ i < 0x1FF then
    let y := putBits x 1 0 (if f 1 0 = 3 then 0 else f 1 0)
    if bits new.toNat 8 8 = 1 then putBits y 8 8 0 else y
  else if n = RegNo.scbCtl then putBits x 9 0 (if f 9 0 = 0 ∨ f 9 0 > 1000 then 24 else f 9 0)
  else if n = RegNo.ptm then putBits x 15 0 (if f 15 0 = 0 ∨ f 15 0 > 1000 then 10 else f 15 0)
  else if n = RegNo.uepTmo then putBits x 15 0 (if f 15 0 = 0 then 1 else min (f 15 0) 60000)
  else if n = RegNo.tunPwr then putBits x 11 0 (max 600 (min (f 11 0) 2600))
  else x

end Sys2Proof.Machine
end

