-- ==== Sys2Proof/Machine/Base.lean ====
section
/-! DEFINITION. Reading and changing the objects of the state: where a thread, group, block or launch stands,
who owns a cluster, a context, a bank; time; free choices. -/

namespace Sys2Proof.Machine

/-! ### Objects that no number names -/

def Thread.fresh : Thread :=
  { group := 0, lane := 0, lin := 0, nregs := 8, v := .empty, p := 0, pc := 0, held := .ready, why := .none,
    tc := false, dc := false, cause := 0, trapPc := 0, freePass := false, draws := 0, clkHi := none, nsHi := none, cycHi := none,
    pend := [], out := [], rows := .empty, moved := .empty, ports := .empty, unsealed := .empty, nextBatch := 0,
    batches := [], snap := ⟨[], []⟩, readyAt := 0, passed := 0 }
def Group.fresh : Group :=
  { block := 0, index := 0, core := 0, slot := 0, priv := false, ctx := 0, k := .empty, m := .empty, fsr := 0,
    key := 0, lineage := 1, qports := .empty, gathers := [] }
def Block.fresh : Block :=
  { launch := 0, lin := 0, stage := 0, groups := [], threads := [], cvs := .empty, bars := .empty, signal := false,
    save := .resident, lastIssue := 0, withdrawn := [], due := none }
def Packet.blank : Packet :=
  { entry := 0, hflat := 0, htrap := 0, hbrk := 0, gx := 1, gy := 1, gz := 1, bx := 1, by_ := 1, bz := 1, narg := 0,
    regs := 8, stages := 1, smode := 0, cplInt := false, lateInt := false, drop := false, early := false, cls := 0,
    flats := 0, kregs := 0, grace := 0, deadline := 2 ^ 64 - 1, seed := 0, affinity := 0, affStride := 0, cen := false,
    cevc := 0, cplAddr := 0, trapBase := 0, deps := [], args := [], clean := true }
def Launch.fresh : Launch :=
  { part := 0, queue := 0, seq := 0, ctx := 0, priv := false, pkt := .blank, order := 0, depSeen := [],
    nextBlock := 0, blocks := [], late := false, disp := none, mark := 0, lastCluster := none, ended := none,
    retire := .live, signals := [], unplaced := none }
def Copy.blank : Copy := ⟨.rows, 0, 0, 0, 0, 0, [], [], none, .empty, none, false, .empty, [], [], 0⟩

/-! ### Places (R14) -/

def clusterOf (core : Nat) : Nat := core / 4
def dieOf (core : Nat) : Nat := core / 128

namespace State

def core (s : State) (n : Nat) : Core := s.cores.findD n .idle
def cluster (s : State) (n : Nat) : Cluster := s.clusters.findD n .idle
def die (s : State) (n : Nat) : Die := s.dies.findD n .idle
def part (s : State) (n : Nat) : Part := s.parts.findD n .idle
def thread (s : State) (t : Nat) : Thread := s.threads.findD t .fresh
def group (s : State) (g : Nat) : Group := s.groups.findD g .fresh
def block (s : State) (b : Nat) : Block := s.blocks.findD b .fresh
def launch (s : State) (l : Nat) : Launch := s.launches.findD l .fresh

def onCore (s : State) (n : Nat) (f : Core → Core) : State := { s with cores := s.cores.update n .idle f }
def onCluster (s : State) (n : Nat) (f : Cluster → Cluster) : State := { s with clusters := s.clusters.update n .idle f }
def onDie (s : State) (n : Nat) (f : Die → Die) : State := { s with dies := s.dies.update n .idle f }
def onPart (s : State) (n : Nat) (f : Part → Part) : State := { s with parts := s.parts.update n .idle f }
/-- The thread changed, if there is one. -/
def onThread (s : State) (t : Nat) (f : Thread → Thread) : State := { s with threads := s.threads.modify t f }
/-- Every thread named changed by a function of its number. -/
def onThreads (s : State) (ts : List Nat) (f : Nat → Thread → Thread) : State :=
  { s with threads := s.threads.mapKV fun t th => if ts.contains t then f t th else th }
def onGroup (s : State) (g : Nat) (f : Group → Group) : State := { s with groups := s.groups.modify g f }
def onBlock (s : State) (b : Nat) (f : Block → Block) : State := { s with blocks := s.blocks.modify b f }
def onLaunch (s : State) (l : Nat) (f : Launch → Launch) : State := { s with launches := s.launches.modify l f }
def onPkg (s : State) (f : Package → Package) : State := { s with pkg := f s.pkg }
/-- A message leaves the part. -/
def send (s : State) (m : Msg) : State := s.onPkg fun p => { p with sent := p.sent ++ [m] }

/-! ### A thread's surroundings -/

def groupOf (s : State) (t : Nat) : Group := s.group (s.thread t).group
def blockIdOf (s : State) (t : Nat) : Nat := (s.groupOf t).block
def blockOf (s : State) (t : Nat) : Block := s.block (s.blockIdOf t)
def launchIdOf (s : State) (t : Nat) : Nat := (s.blockOf t).launch
def launchOf (s : State) (t : Nat) : Launch := s.launch (s.launchIdOf t)
def coreOf (s : State) (t : Nat) : Nat := (s.groupOf t).core
def ctxOf (s : State) (t : Nat) : Nat := (s.groupOf t).ctx
def privOf (s : State) (t : Nat) : Bool := (s.groupOf t).priv
/-- The partition that runs a thread (R310). -/
def partOf (s : State) (t : Nat) : Nat := (s.launchOf t).part

/-- The threads of a group. -/
def groupThreads (s : State) (g : Nat) : List Nat := (s.threads.filter fun _ th => th.group == g).keys
/-- The threads of a group that have not exited. -/
def live (s : State) (g : Nat) : List Nat := (s.threads.filter fun _ th => th.group == g && th.held != .exited).keys
/-- The threads of a block that have not exited. -/
def blockLive (s : State) (b : Nat) : List Nat := (s.block b).threads.filter fun t => (s.thread t).held != .exited
/-- R58: a predicate as a thread reads it. -/
def predOf (th : Thread) (p : Nat) : Bool := p == 7 || th.p.getLsbD p

/-- The thread of a lane of a group. -/
def laneOf (s : State) (g lane : Nat) : Option Nat :=
  (s.threads.filter fun _ th => th.group == g && th.lane == lane).keys.head?

/-- R331: a thread behind a curtain, or whose block is saved, issues nothing. -/
def canIssue (s : State) (t : Nat) : Bool :=
  let th := s.thread t
  th.held == .ready && !th.tc && !th.dc && (s.blockOf t).save == .resident
    && !(s.die (dieOf (s.coreOf t))).halted.has (s.ctxOf t)

/-- A block that still holds its slots: resident, with a thread that has not exited (R28). -/
def holdsSlots (s : State) (b : Nat) : Bool := (s.block b).save == .resident && !(s.blockLive b).isEmpty

/-! ### Ownership -/

/-- R355: the partition that owns a cluster. -/
def clusterPart (s : State) (c : Nat) : Option Nat :=
  (List.range 8).find? fun p => (sysGet s RegNo.pcl p).getLsbD c
/-- The clusters of a partition. -/
def clustersOf (s : State) (p : Nat) : List Nat := (List.range 64).filter fun c => (sysGet s RegNo.pcl p).getLsbD c
def corePart (s : State) (c : Nat) : Option Nat := s.clusterPart (clusterOf c)
/-- The dies on which a partition owns a cluster. -/
def diesOf (s : State) (p : Nat) : List Nat := ((s.clustersOf p).map (· / 32)).dedup
/-- R311: the partition a context is assigned to. -/
def ctxPart (s : State) (c : Nat) : Option Nat :=
  if c < 255 ∧ sysBits s (RegNo.ctx c) 0 31 31 = 1 then some (sysBits s (RegNo.ctx c) 0 2 0) else none
/-- R311: the runtime context of a partition. -/
def runtime (s : State) (p : Nat) : Option Nat :=
  let c := sysBits s RegNo.rtCtx p 7 0
  if sysBits s RegNo.rtCtx p 31 31 = 1 ∧ s.ctxPart c = some p then some c else none
/-- The threads of a context. -/
def ctxThreads (s : State) (c : Nat) : List Nat := (s.threads.filter fun _ th => (s.group th.group).ctx == c).keys

/-! ### Time (R10, R64, R391) -/

/-- Device ns: 4·clk/5, the steps made, and the part of a slew made so far (at most 100 ns per ms). -/
def ns (s : State) : Nat :=
  let gone : Int := s.clk - s.pkg.nsFrom
  -- 100 ns per ms: 8 per 100,000 clk
  let slewed : Int :=
    if s.pkg.nsSlew ≥ 0 then min (100000 * s.pkg.nsSlew) (8 * gone) else max (100000 * s.pkg.nsSlew) (-(8 * gone))
  ((80000 * (s.clk : Int) + 100000 * s.pkg.nsAdd + slewed) / 100000).toNat

/-- %cyc of a cluster: the reference clock less its stretched cycles. -/
def cyc (s : State) (c : Nat) : Nat := s.clk - (s.cluster c).stretched

/-- R404: the part runs from a start that ended well. -/
def running (s : State) : Bool := s.pkg.start == .normal || s.pkg.start == .understudy
def isUnderstudy (s : State) : Bool := s.pkg.start == .understudy

/-! ### Free choices (log entry 2) -/

/-- One of two. -/
def coin (s : State) : Bool × State := (Config.coin s.ctr, { s with ctr := s.ctr + 1 })
/-- One of `n`; nothing is chosen where there is no choice. -/
def pick (s : State) (n : Nat) : Nat × State :=
  if n ≤ 1 then (0, s) else (Config.pick s.ctr % n, { s with ctr := s.ctr + 1 })
/-- Free bytes. -/
def freeBytes (s : State) (n : Nat) : List Byte × State :=
  ((List.range n).map fun i => Config.freeByte (s.ctr + i), { s with ctr := s.ctr + n })

/-! ### R310, R315: thread handles -/

/-- The handle of a thread. -/
def handle (s : State) (t : Nat) : Word :=
  let g := s.groupOf t
  BitVec.ofNat 8 g.ctx ++ BitVec.ofNat 8 g.core ++ BitVec.ofNat 8 g.slot ++ 0#3 ++ BitVec.ofNat 5 (s.thread t).lane

/-- The thread a handle names, among those resident. -/
def byHandle (s : State) (h : Word) : Option Nat :=
  (s.threads.filter fun t th =>
    (s.block (s.group th.group).block).save == .resident && th.held != .exited && s.handle t == h).keys.head?

/-- The partition a handle's context belongs to. -/
def handlePart (s : State) (h : Word) : Option Nat := s.ctxPart (bits h.toNat 31 24)

end State

/-! ### Notices and interrupts (R390) -/

/-- An MSI-X vector is raised in a partition's function. -/
def raiseMsix (s : State) (p v : Nat) : State := s.onPart p fun x => { x with msix := x.msix ++ [v] }

/-- R390: HLK_ERR of a partition takes an entry, unless it holds one. -/
def hlkErr (s : State) (p kind addr : Nat) : State :=
  if sysBits s RegNo.hlkErr p 63 63 = 1 then s
  else
    raiseMsix (sysPut s RegNo.hlkErr p
      (BitVec.ofNat 64 (2 ^ 63 + kind * 2 ^ 60 + addr % 2 ^ 57))) p 2

/-- Bit sets as lists of numbers. -/
def bitList (n : Nat) (x : Nat) : List Nat := (List.range n).filter fun i => x.testBit i

/-- A list without repeats, joined with another. -/
def unionN (a b : List Nat) : List Nat := a ++ b.filter fun x => !a.contains x

end Sys2Proof.Machine
end

