-- ==== Sys2Proof/Machine/Translate.lean ====
section
/-! DEFINITION. Address translation (R109, R362..R369, R388, R389): range windows, homes and slices, leaves,
physical memory and host frames, lines held in the L2 slices. -/

namespace Sys2Proof.Machine

/-! ### The flat aperture and the windows (R108..R111, R362) -/

/-- R111. -/
def flatBase : Nat := 0x01FF_FFFF_FFE0_0000
def inFlat (va : Nat) : Bool := decide (flatBase ≤ va ∧ va < flatBase + 0x20_0000)

/-- What an access needs of its window (R109). -/
structure Perm where
  r : Bool
  w : Bool
  x : Bool
deriving DecidableEq, Repr

/-- R24: the die of an interleaved address. -/
def homeDie (ia : Nat) : Nat := bits ia 8 8 ^^^ bits ia 16 16 ^^^ bits ia 24 24 ^^^ bits ia 32 32 ^^^ bits ia 40 40

/-- R362: does window n of a context take part in the selection, and where does it map `va`? -/
def windowAt (s : State) (c n va : Nat) : Option (Loc × Perm) :=
  let a := (sysGet s (RegNo.winA c n) 0).toNat
  let b := (sysGet s (RegNo.winB c n) 0).toNat
  let start := bits a 56 16 * 65536
  let size := (bits b 63 32 + 1) * 65536
  let off := bits b 31 0 * 65536
  let ph := bits a 57 57 == 1
  let dl := bits a 59 59 == 1
  let d := bits a 58 58
  match s.ctxPart c with
  | none => none
  | some p =>
    let pir := (sysGet s RegNo.pir p).toNat
    let pfr := (sysGet s (RegNo.pfr d) p).toNat
    let inside :=
      if ph then dl && decide (bits pfr 22 0 * 32768 ≤ off ∧ off + size ≤ (bits pfr 22 0 + bits pfr 54 32) * 32768)
      else decide (bits pir 31 0 * 65536 ≤ off ∧ off + size ≤ (bits pir 31 0 + bits pir 63 32) * 65536)
    if bits a 63 63 == 1 && decide (start + size ≤ 2 ^ 57) && decide (off + size ≤ 2 ^ 48) && inside
        && decide (start ≤ va ∧ va < start + size) then
      let ia := off + (va - start)
      some (⟨if dl then d else homeDie ia, ia, dl, ph, c, va⟩,
            ⟨bits a 62 62 == 1, bits a 61 61 == 1, bits a 60 60 == 1⟩)
    else none

/-- R109, R365: an effective address outside the flat aperture taken through the windows: VA_RANGE where no
window holds it, VA_PERM where the window does not permit the access or only S threads may use it. -/
def viaWindows (s : State) (c : Nat) (priv : Bool) (va : Nat) (need : Perm) : Except Cause Loc :=
  if va / 2 ^ 57 ≠ 0 then .error .vaRange
  else match (List.range 16).findSome? fun n => windowAt s c n va with
    | none => .error .vaRange
    | some (l, p) =>
        if (need.r && !p.r) || (need.w && !p.w) || (need.x && !p.x) || (l.phys && !priv) then .error .vaPerm
        else .ok l

/-- R366: the home slice of an intermediate address. -/
def homeSlice (ia : Nat) : Nat :=
  (List.range 10).foldl (fun a i => a ^^^ bits ia (10 + 4 * i) (7 + 4 * i)) 0

/-- R366: the channel of a physical address; in understudy mode only stack 0 is there (R407). -/
def channelOf (s : State) (pa : Nat) : Nat :=
  let ch := bits pa 13 7 ^^^ bits pa 20 14
  if s.isUnderstudy then ch % 32 else ch

/-! ### Leaves (R367..R369) -/

def Leaf.bit (l : Leaf) (n : Nat) : Bool := l.raw.getLsbD n
def Leaf.covers (l : Leaf) (ia : Nat) : Bool := l.page == ia / (if l.large then 2 ^ 21 else 2 ^ 16)
def Leaf.owner (l : Leaf) : Byte := BitVec.ofNat 8 (bits l.raw.toNat 57 50)
def Leaf.frame (l : Leaf) : Nat := bits l.raw.toNat 37 15 * 32768
/-- The leaf of an address in a list of leaves. -/
def leafIn (ls : List Leaf) (ia : Nat) : Option Leaf := ls.find? fun l => l.covers ia
/-- The leaf in the table of a die. -/
def leafOf (s : State) (d ia : Nat) : Option Leaf := leafIn (s.die d).leaves ia

/-- R370: reasons. -/
inductive FaultReason
  | noLeaf | kind | stable | noWrite
deriving DecidableEq, Repr

def FaultReason.code : FaultReason → Nat
  | .noLeaf => 0 | .kind => 1 | .stable => 2 | .noWrite => 3

/-- What a translator answers (R369). -/
inductive XRes
  | ok (pa : Nat) (leaf : Leaf)
  | lock
  | fault (r : FaultReason)
  | fetchPerm
deriving DecidableEq, Repr

/-- R369: the table's rows, in order. -/
def walk (leaf : Option Leaf) (l : Loc) (write fetch : Bool) : XRes :=
  match leaf with
  | none => .fault .noLeaf
  | some f =>
      if !f.bit 63 then .fault .noLeaf
      else if f.bit 58 == l.dieLocal then .fault .kind
      else if f.bit 62 then .lock
      else if write && f.bit 61 then .fault .stable
      else if write && f.bit 60 then .fault .noWrite
      else if fetch && f.bit 59 then .fetchPerm
      else
        let off := l.ia % (if f.large then 2 ^ 21 else 2 ^ 16)
        .ok (f.frame + if f.bit 58 then bits off 20 9 * 256 + bits off 7 0 else off) f

/-- R372: a translator may still hold a copy of a leaf that the table no longer has: either is used, whole. -/
def leafUsed (s : State) (d ia : Nat) : Option Leaf × State :=
  let t := leafOf s d ia
  match leafIn ((s.die d).xlts.findD (homeSlice ia) .empty).cached ia with
  | none => (t, s)
  | some c => if t = some c then (t, s) else let (b, s) := s.coin; (if b then t else some c, s)

/-- R367, R372: a translation sets AC, a write's also DT, and leaves a copy with the translator. -/
def leafTouched (s : State) (d ia : Nat) (write : Bool) : State :=
  let f := fun (l : Leaf) =>
    if l.covers ia then { l with raw := l.raw ||| (if write then 3 else 2) } else l
  s.onDie d fun x =>
    let ls := x.leaves.map f
    { x with
      leaves := ls
      xlts := x.xlts.update (homeSlice ia) .empty fun y =>
        { cached := (leafIn ls ia).toList ++ y.cached.filter fun l => !l.covers ia } }

/-! ### Physical memory and host frames (R366, R388, R389) -/

/-- 192 GiB: host frames lie at and above it. -/
def hostFrames : Nat := 0x30_0000_0000

def hbmKey (d pa : Nat) : Nat := d * 2 ^ 38 + pa

/-- R388: the entry of the host-address table for a physical address. -/
def hatEntry (s : State) (pa : Nat) : Nat :=
  let k := (pa - hostFrames) / 4096
  natOfBytes (Memory.readN s.hbm (hbmKey 0 (sysBits s RegNo.hatBase 0 37 27 * 2 ^ 27 + 8 * k)) 8)

/-- What the part's copies of entries are kept by: the page of a location, and the frame. -/
def hatKey (l : Loc) (pa : Nat) : Nat :=
  ((l.die * 2 + if l.dieLocal then 1 else 0) * 2 ^ 32 + l.ia / 2 ^ 16) * 2 ^ 24 + (pa - hostFrames) / 4096

/-- R388, R403: a translation to a host frame: the part keeps a copy of the entry, and where the table has changed since,
the old entry stands or the new one, whole, until a tlbinv of the page (R372). -/
def hatTouched (s : State) (l : Loc) (pa : Nat) : State :=
  let e := hatEntry s pa
  match s.pkg.hat.find? (hatKey l pa) with
  | some c =>
      if c = e then s
      else let (b, s) := s.coin; if b then s.onPkg fun x => { x with hat := x.hat.set (hatKey l pa) e } else s
  | none => s.onPkg fun x => { x with hat := x.hat.set (hatKey l pa) e }

/-- R388, R389: the host bus address of a host-frame byte that a location leads to, where its entry is valid. -/
def hostAddr (s : State) (l : Loc) (pa : Nat) : Option Nat :=
  let e := (s.pkg.hat.find? (hatKey l pa)).getD (hatEntry s pa)
  if sysBits s RegNo.hatBase 0 0 0 = 1 ∧ bits e 0 0 = 1 then some (bits e 63 12 * 4096 + pa % 4096) else none

/-- A request translated by the translator of its home (R369). -/
def translate (s : State) (l : Loc) (write fetch : Bool) : XRes × State :=
  let (f, s) := leafUsed s l.die l.ia
  let r := walk f l write fetch
  match r with
  | .ok pa _ =>
      let s := leafTouched s l.die l.ia write
      (r, if pa ≥ hostFrames then hatTouched s l pa else s)
  | _ => (r, s)

/-- Bytes at a physical address. -/
def physRead (s : State) (d pa n : Nat) : List Byte := Memory.readN s.hbm (hbmKey d pa) n

/-- R16, R366: the memory-side cache of a channel comes to hold a line: 512 KiB, 4,096 lines. -/
def touchSide (s : State) (d pa : Nat) : State :=
  s.onDie d fun x =>
    { x with sides := x.sides.update (channelOf s pa) [] fun l => (pa / 128 :: l.filter (· != pa / 128)).take 4096 }

/-- Bytes written at a physical address; the line takes the owner of its leaf (R379), and a write that covers a
poisoned line whole clears it (R380). -/
def physWrite (s : State) (d pa : Nat) (owner : Option Byte) (l : List Byte) : State :=
  let s := { s with hbm := Memory.writeN s.hbm (hbmKey d pa) l }
  (touchSide s d pa).onDie d fun x =>
    { x with
      owners := match owner with
        | some o => x.owners.set (pa / 128) o
        | none => x.owners
      poisonHbm := if l.length = 128 ∧ pa % 128 = 0 then x.poisonHbm.filter (· != pa / 128) else x.poisonHbm }

/-- R380: bytes of a poisoned line. -/
def physPoisoned (s : State) (d pa : Nat) : Bool := (s.die d).poisonHbm.contains (pa / 128)

/-- R379: the owner tag of a physical line; a line nothing has written is unowned. -/
def physOwner (s : State) (d pa : Nat) : Byte := (s.die d).owners.findD (pa / 128) 0xFF

/-- R389: a load of host memory; all ones, with HLK_ERR KIND 3, where the frame's entry is not valid. -/
def hostRead (s : State) (p : Nat) (l : Loc) (pa n : Nat) : List Byte × State :=
  match hostAddr s l pa with
  | some a => (Memory.readN s.host a n, s)
  | none => (List.replicate n 0xFF, hlkErr s p 3 l.va)

/-- R389: a posted write to host memory; dropped, with HLK_ERR KIND 3, where the entry is not valid. -/
def hostWrite (s : State) (p : Nat) (l : Loc) (pa : Nat) (relaxed : Bool) (b : List Byte) : State :=
  match hostAddr s l pa with
  | some a => { s with host := Memory.writeN s.host a b }.send (.hostWrite a b relaxed)
  | none => hlkErr s p 3 l.va

/-! ### Lines in the L2 slices (R25, R373) -/

/-- The line of an address, if its home slice holds it. -/
def lineAt (s : State) (l : Loc) : Option Line :=
  if l.phys then none
  else ((s.die l.die).slices.findD (homeSlice l.ia) .empty).lines.find? fun x => x.line == l.ia / 128 && x.dieLocal == l.dieLocal

/-- A line entered into, or changed in, its home slice; every remote copy is dropped before a write (R373). -/
def putLine (s : State) (x : Line) : State :=
  let k := homeSlice (x.line * 128)
  let s := s.onDie x.die fun y =>
    { y with slices := y.slices.update k .empty fun z =>
        { z with lines := x :: z.lines.filter fun o => !(o.line == x.line && o.dieLocal == x.dieLocal) } }
  if x.dirty then
    s.onDie (1 - x.die) fun y =>
      { y with slices := y.slices.mapKV fun _ z => { z with remote := z.remote.filter (· != (x.die, x.line)) } }
  else s

/-- A line leaves its slice. -/
def dropLine (s : State) (x : Line) : State :=
  s.onDie x.die fun y =>
    { y with slices := y.slices.mapKV fun _ z =>
        { z with lines := z.lines.filter fun o => !(o.line == x.line && o.dieLocal == x.dieLocal) } }

/-- R371: a write-back of the line that a fault record holds. -/
def heldBack (s : State) (l : Loc) : Option Line :=
  s.parts.values.findSome? fun p => p.faults.values.findSome? fun f => f.wbs.find? fun x =>
    x.die == l.die && x.line == l.ia / 128 && x.dieLocal == l.dieLocal

/-- A line missed in its slice is filled from the memory-side cache at `pa`, or from its write-back that is still held. -/
def fillLine (s : State) (l : Loc) (pa : Nat) : State :=
  putLine (touchSide s l.die pa) ⟨l.die, l.ia / 128,
    ((heldBack s l).map Line.data).getD (physRead s l.die (pa / 128 * 128) 128), false, l.dieLocal, physOwner s l.die pa⟩

/-- R373: the remote ways of a slice; none in understudy mode. -/
def remoteWays (s : State) (d slice : Nat) : Nat :=
  if s.isUnderstudy then 0 else min 8 (sysBits s (RegNo.l2sRwf slice) d 19 16)

/-- The set of a line in its slice (R16). -/
def setOf (line : Nat) : Nat := Config.l2Set line % 4096

/-- R16, R373: the lines of a slice that share a set with a line, itself apart. -/
def inSet (s : State) (d slice line : Nat) : List Line :=
  ((s.die d).slices.findD slice .empty).lines.filter fun x => x.line != line && setOf x.line == setOf line

/-- Where the bytes of an access stand once it has passed translation. -/
inductive Place
  | line (x : Line)
  | phys (d pa : Nat) (leaf : Option Leaf)
  | host (pa : Nat)
deriving DecidableEq, Repr

/-- How an access is answered without leaving its step. -/
inductive Answer (α : Type)
  | ok (x : α)
  | fault (c : Cause) (r : FaultReason)
  | wait

/-- R366, R369, R373: an access is placed at the line its slice holds, or translated. A host frame's line is
held nowhere (R389). A write to a page held in a clean line is translated for its permissions too (R114, R369), and so is
every fetch (R325). A line takes its leaf's OWNER when it is written (R379). -/
def place (s : State) (l : Loc) (write fetch : Bool) : Answer Place × State :=
  if l.phys then (.ok (.phys l.die l.ia none), s)
  else match lineAt s l with
    | some x => if (x.dirty || !write) && !fetch then (.ok (.line x), s) else go s (some x)
    | none => go s none
where
  go (s : State) (x : Option Line) : Answer Place × State :=
    match translate s l write fetch with
    | (.ok pa f, s) =>
        (.ok (match x with
          | some x => .line (if write then { x with owner := f.owner } else x)
          | none => if pa ≥ hostFrames then .host pa else .phys l.die pa (some f)), s)
    | (.lock, s) => (.wait, s)
    | (.fault r, s) => (.fault (if r = .stable then .stableWrite else if fetch then .fetchFault else .pageFault) r, s)
    | (.fetchPerm, s) => (.fault .fetchPerm .noLeaf, s)

/-- The bytes of an access at its place. -/
def Place.read (pl : Place) (s : State) (l : Loc) (p n : Nat) : List Byte × State :=
  match pl with
  | .line x => ((x.data.drop (l.ia % 128)).take n, s)
  | .phys d pa _ => (physRead s d pa n, touchSide s d pa)
  | .host pa => hostRead s p l pa n

/-- Bytes written at their place. -/
def Place.write (pl : Place) (s : State) (l : Loc) (p : Nat) (relaxed : Bool) (b : List Byte) : State :=
  match pl with
  | .line x =>
      let o := l.ia % 128
      putLine s { x with data := x.data.take o ++ b ++ x.data.drop (o + b.length), dirty := true }
  | .phys d pa f => physWrite s d pa (f.map Leaf.owner) b
  | .host pa => hostWrite s p l pa relaxed b

/-- R380: does a read at this place meet a poisoned line, and whose? -/
def Place.poison (pl : Place) (s : State) : Option Byte :=
  match pl with
  | .phys d pa _ => if physPoisoned s d pa then some (physOwner s d pa) else none
  | _ => none

/-- R369: a write-back of a dirty line is translated as every request is; that of a tlbinv (`bypass`) through the leaf now
in the table, whatever its LOCK (R372). -/
def writeBack (s : State) (bypass : Bool) (x : Line) : XRes × State :=
  let l : Loc := ⟨x.die, x.line * 128, x.dieLocal, false, x.owner.toNat, 0⟩
  if bypass then
    let f := (leafOf s l.die l.ia).map fun f => { f with raw := f.raw &&& ~~~ (1#64 <<< 62) }
    match walk f l true false with
    | .ok pa f => (.ok pa f, leafTouched s l.die l.ia true)
    | r => (r, s)
  else translate s l true false

end Sys2Proof.Machine
end

