-- ==== Sys2Proof/Machine/History.lean ====
section
/-! DEFINITION. Phase consistency (R115..R131): parties and scopes, releases and publications, acquires and
snapshots, the stores of a byte in coherence order and which of them a load may return. -/

namespace Sys2Proof.Machine

/-! ### Parties and scopes (R115, R117) -/

def partyOf (s : State) (t : Nat) : Party :=
  let c := s.coreOf t
  ⟨some (s.blockIdOf t), some (clusterOf c), some (dieOf c), true⟩
/-- A prompter, the dispatcher, the stage manager: parties at .dev. -/
def Party.device : Party := ⟨none, none, none, true⟩
/-- The host, a peer device: parties at .sys alone. -/
def Party.outside : Party := ⟨none, none, none, false⟩

/-- R115: does a scope, as the first party means it, include the second? -/
def scopeIncludes (sc : Scope) (a b : Party) : Bool :=
  match sc with
  | .blk => a.blk.isSome && a.blk == b.blk
  | .cls => a.cls.isSome && a.cls == b.cls
  | .die => a.die.isSome && a.die == b.die
  | .dev => a.dev && b.dev
  | .sys => true

/-- R123: the scopes with one device-wide publication order. -/
def scopeWide : Scope → Bool
  | .dev | .sys => true
  | _ => false

/-! ### Stores -/

/-- The history's key of byte `i` of an access. Each home die has its own coherence order (R366). -/
def histKey (l : Loc) (i : Nat) : Nat := (l.die * 2 + if l.dieLocal then 1 else 0) * 2 ^ 48 + l.ia + i

/-- A store record of a thread. -/
def storeOf (s : State) (t : Nat) (rels : List Nat) : StoreRec :=
  { tid := some t, core := some (s.coreOf t), launch := some (s.launchIdOf t), copy := false, l1 := false, atomic := false, rels := rels }
/-- A store record of a copy of a thread. -/
def copyStore (s : State) (t : Nat) (atomic : Bool) (rels : List Nat) : StoreRec := { storeOf s t rels with copy := true, atomic := atomic }
/-- A store record of an agent that is no thread. -/
def StoreRec.agent (rels : List Nat) : StoreRec :=
  { tid := none, core := none, launch := none, copy := false, l1 := false, atomic := false, rels := rels }

/-- A store takes the next place in the coherence order (R118, R126); `old` is what its bytes held before. -/
def Hist.add (h : Hist) (r : StoreRec) (l : Loc) (old new : List Byte) : Hist :=
  { h with
    next := h.next + 1
    stores := h.stores.set h.next r
    bytes := (List.range new.length).foldl (fun m i =>
      m.update (histKey l i) ⟨old.getD i 0, []⟩ fun b => { b with stores := (h.next, new.getD i 0) :: b.stores }) h.bytes }

/-- The stores a thread has made itself, its copies apart. -/
def Hist.own (h : Hist) (t : Nat) : List Nat := (h.stores.filter fun _ r => r.tid == some t && !r.copy).keys
/-- Stores of a core's other threads, which a release may publish too (R120). -/
def Hist.ofCore (h : Hist) (c t : Nat) : List Nat := (h.stores.filter fun _ r => r.core == some c && r.tid != some t).keys

/-! ### Releases and acquires (R120..R124) -/

/-- A publication of given stores by a party; at .dev and .sys it also enters the device-wide order (R123). -/
def publish (s : State) (who : Party) (sc : Scope) (stores : List Nat) (fence : Bool) : Nat × State :=
  let h := s.hist
  (h.nextPub,
    { s with hist :=
      { h with
        nextPub := h.nextPub + 1
        pubs := h.pubs.set h.nextPub ⟨sc, who, stores, fence⟩
        dev := if scopeWide sc then unionN h.dev stores else h.dev } })

/-- The stores that happen before a thread's release: its own, those its acquires made available, and those of
the batches it has sealed (R120, R133). It may also publish stores of other threads of its core. -/
def releaseSet (s : State) (t : Nat) : List Nat × State :=
  let th := s.thread t
  let base := unionN (unionN (s.hist.own t) th.snap.need) (th.batches.flatMap Batch.stores)
  let others := (s.hist.ofCore (s.coreOf t) t).filter fun i => !base.contains i
  if others.isEmpty then (base, s)
  else let (b, s) := s.coin; (if b then base ++ others else base, s)

/-- The next `n` stores, which an access is about to make. -/
def nextStores (s : State) (n : Nat) : List Nat := List.range' s.hist.next n

/-- R120, R122: a thread's release at a scope; `own` the stores of the access that is the release, which happen
before what follows the acquire that reads them. -/
def release (s : State) (t : Nat) (sc : Scope) (fence : Bool) (own : List Nat) : Nat × State :=
  let (l, s) := releaseSet s t
  publish s (partyOf s t) sc (unionN l own) fence

/-- The stores of the publications among `rels` that synchronise with an acquire of a party (R117, R122). -/
def syncStores (s : State) (who : Party) (sc : Scope) (rels : List Nat) : List Nat :=
  (rels.filterMap fun r => s.hist.pubs.find? r).foldl (fun a p =>
    if scopeIncludes p.scope p.who who && scopeIncludes sc who p.who then unionN a p.stores else a) []

/-- R124: the stores of earlier .ar fences of the same scope instance. -/
def fenceStores (s : State) (who : Party) (sc : Scope) : List Nat :=
  s.hist.pubs.values.foldl (fun a p => if p.fence && p.scope == sc && scopeIncludes sc p.who who then unionN a p.stores else a) []

/-- R120: what releases have published to a party so far. -/
def publishedTo (s : State) (who : Party) : List Nat :=
  s.hist.pubs.values.foldl (fun a p => if scopeIncludes p.scope p.who who then unionN a p.stores else a) []

/-- The threads that stand on a core. -/
def threadsOn (s : State) (c : Nat) : List Nat := (s.threads.filter fun _ th => (s.group th.group).core == c).keys

/-- R121: a thread's snapshot takes in stores; the part may extend that of every thread of the core by these and by
whatever has been published to each. -/
def extend (s : State) (t : Nat) (l : List Nat) : State :=
  let s := s.onThread t fun th => { th with snap := { th.snap with need := unionN th.snap.need l } }
  if s.hist.pubs.items.isEmpty && l.isEmpty then s
  else
    let (b, s) := s.coin
    if b then s.onThreads (threadsOn s (s.coreOf t)) fun u th =>
        { th with snap := { th.snap with may := unionN (unionN th.snap.may l) (publishedTo s (partyOf s u)) } }
    else s

/-- R121..R124: a thread's acquire at a scope, of what it read (`rels`). -/
def acquire (s : State) (t : Nat) (sc : Scope) (rels : List Nat) (fence : Bool) : State :=
  let who := partyOf s t
  let l := unionN (syncStores s who sc rels) (if scopeWide sc then s.hist.dev else [])
  extend s t (if fence then unionN l (fenceStores s who sc) else l)

/-- R128: an acquire of what one release published, in whatever way the two meet. -/
def acquireOf (s : State) (t : Nat) (l : List Nat) : State := extend s t l

/-! ### What a load returns (R118, R119) -/

/-- Who looks: the core whose performed stores it sees; whether what the core has read bounds it (R118); the thread
whose own stores it may not miss; the stores required of it and further ones it may see; and whether it looks at
the home, as an acquire load does (R125). -/
structure Viewer where
  core : Option Nat
  floor : Bool
  own : Option Nat
  need : List Nat
  may : List Nat
  home : Bool

def viewer (s : State) (t : Nat) : Viewer :=
  let th := s.thread t
  ⟨some (s.coreOf t), true, some t, th.snap.need, th.snap.may, false⟩

/-- R122, R125: the write of a release, performed at the home. -/
def Hist.isRelease (h : Hist) (i : Nat) : Bool :=
  match h.stores.find? i with
  | some r => !r.l1 && r.rels.any fun p => ((h.pubs.find? p).map fun x => x.stores.contains i).getD false
  | none => false

/-- A write that an acquire load may meet at the home (R122, R125): of a release, or of an atomic. -/
def Hist.meets (h : Hist) (i : Nat) : Bool :=
  h.isRelease i || ((h.stores.find? i).map fun r => r.atomic && !r.l1).getD false

/-- R119: a store the viewer may see. -/
def Viewer.sees (v : Viewer) (h : Hist) (i : Nat) : Bool :=
  (v.core.isSome && ((h.stores.find? i).bind StoreRec.core) == v.core)
    || v.need.contains i || v.may.contains i || (v.home && h.meets i)

/-- A store that happens before the viewer's load: its own, a copy's only once waited for, and those of its
acquires. -/
def Viewer.needs (v : Viewer) (h : Hist) (i : Nat) : Bool :=
  let r := h.stores.find? i
  v.need.contains i || (v.own.isSome && (r.bind StoreRec.tid) == v.own && !((r.map StoreRec.copy).getD false))

/-- The stores to each byte of an access, newest first, where its home still holds what they left there; memory that
changed under the history (through a physical window, R365) is read as it stands. -/
def histAt (s : State) (l : Loc) (home : List Byte) (i : Nat) : Option ByteHist :=
  (s.hist.bytes.find? (histKey l i)).filter fun b => (b.stores.head?.map Prod.snd).getD b.first == home.getD i 0

/-- The stores that touch an access. -/
def touching (s : State) (l : Loc) (home : List Byte) : List Nat :=
  ((List.range home.length).flatMap fun i => ((histAt s l home i).map fun b => b.stores.map Prod.fst).getD []).dedup

/-- The bytes of an access that takes just the stores `ok` admits: at each byte the latest of them, each store taken at
every byte it wrote, so that none is torn (R110, R126); with the store each byte comes from. -/
def histBytes (s : State) (l : Loc) (home : List Byte) (ok : Nat → Bool) : List (Byte × Option Nat) :=
  (List.range home.length).map fun i => match histAt s l home i with
    | some b => match b.stores.find? fun e => ok e.1 with
        | some e => (e.2, some e.1)
        | none => (b.first, none)
    | none => (home.getD i 0, none)

/-- R118: what a core has read bounds its later loads. -/
def raiseFloor (s : State) (c : Nat) (l : Loc) (r : List (Option Nat)) : State :=
  s.onCore c fun x =>
    { x with floor := (List.range r.length).foldl (fun m i => match r.getD i none with
        | some e => m.set (histKey l i) (max (m.findD (histKey l i) 0) e)
        | none => m) x.floor }

/-- Each of some stores taken or not, as the part picks. -/
def someOf (s : State) (l : List Nat) : List Nat × State :=
  l.foldl (fun (a, s) e => let (b, s) := s.coin; (if b then e :: a else a, s)) ([], s)

/-- R118, R119: the bytes an aligned access returns, with the stores they come from. `home` is what its home holds. It
takes every store it needs and, at each byte, the latest that its core has read there, and of the other stores it
may see whichever the part picks. -/
def histRead (s : State) (v : Viewer) (l : Loc) (home : List Byte) : (List Byte × List Nat) × State :=
  let h := s.hist
  let all := touching s l home
  let read := match v.core with
    | some c => if v.floor then (List.range home.length).filterMap fun i => (s.core c).floor.find? (histKey l i) else []
    | none => []
  let must := all.filter fun e => read.contains e || v.needs h e
  let (more, s) := someOf s (all.filter fun e => !must.contains e && v.sees h e)
  let r := histBytes s l home fun e => must.contains e || more.contains e
  let s := match v.core with
    | some c => if v.floor then raiseFloor s c l (r.map Prod.snd) else s
    | none => s
  ((r.map Prod.fst, (r.filterMap Prod.snd).dedup), s)

/-- R114, R138: the bytes of a read that returns, for each aligned word, its value when `mark` stores had been
performed or a value written since. -/
def mixRead (s : State) (mark : Nat) (l : Loc) (home : List Byte) : List Byte × State :=
  ((chunks 4 home.length home).foldl (fun (acc, s, off) w =>
    let l := { l with ia := l.ia + off }
    let cuts := mark :: ((touching s l w).filter fun e => decide (mark ≤ e)).map (· + 1)
    let (k, s) := s.pick cuts.length
    let r := histBytes s l w fun e => decide (e < cuts.getD k mark)
    (acc ++ r.map Prod.fst, s, off + w.length)) (([] : List Byte), s, 0)) |> fun x => (x.1, x.2.1)

/-! ### Instruction words (R143, R144) -/

/-- R144: the stores that a thread's fetch of the word at `va` may no longer miss: those that an icflush of its context, of
that word, came after, with an acquire by a thread of its core between; the icflush happens before the fetch. -/
def codeNeeds (s : State) (t va : Nat) : List Nat :=
  (s.hist.flushes.filter fun f => f.ctx == s.ctxOf t && decide (f.va ≤ va ∧ va < f.va + f.size) && (viewer s t).needs s.hist f.store).flatMap
    fun f => ((f.seen.find? fun e => e.1 == s.coreOf t).map Prod.snd).getD []

/-- R143: the values a 64-bit instruction word may be fetched with: as it stands, or as it stood after any store that `low`
does not rule out. -/
def codeValues (s : State) (low : Nat) (l : Loc) (home : List Byte) : List (List Byte) :=
  (low :: ((touching s l home).filter fun e => decide (low ≤ e)).map (· + 1)).map fun k =>
    (histBytes s l home fun e => decide (e < k)).map Prod.fst

/-- The first place among the stores at which a word that needs these stores may be looked at. -/
def codeLow (need : List Nat) (all : List Nat) : Nat := ((all.filter need.contains).map (· + 1)).foldl max 0

/-- R143: a fetch from memory: the old word or a new one, whole; what agents other than threads wrote before the thread's
launch was dispatched is there (log entry 14). -/
def codeRead (s : State) (t : Nat) (l : Loc) (home : List Byte) : List Byte × State :=
  let all := touching s l home
  if all.isEmpty then (home, s)
  else
    let mark := (s.launchOf t).mark
    let old := all.filter fun e => decide (e < mark) && ((s.hist.stores.find? e).map fun r => r.tid.isNone).getD false
    let vs := codeValues s (codeLow (codeNeeds s t l.va ++ old) all) l home
    let (k, s) := s.pick vs.length
    (vs.getD k home, s)

/-- R144: an icflush of a thread completes: what happened before it, and which cores had acquired it. -/
def noteFlush (s : State) (t va n : Nat) : State :=
  let nd := (viewer s t).needs s.hist
  let cores := (s.threads.keys.map s.coreOf).dedup
  let seen := cores.map fun c => (c, ((threadsOn s c).flatMap fun u => (s.thread u).snap.need).dedup.filter nd)
  { s with hist := { s.hist with
      next := s.hist.next + 1
      stores := s.hist.stores.set s.hist.next (storeOf s t [])
      flushes := ⟨s.hist.next, s.ctxOf t, va, n, seen⟩ :: s.hist.flushes } }

/-- R122: the publications that a reader of these stores synchronises with. -/
def relsOf (s : State) (ids : List Nat) : List Nat :=
  ids.foldl (fun a i => unionN a ((s.hist.stores.find? i).map StoreRec.rels |>.getD [])) []

/-- The newest stores of the bytes of an access, for an atomic at its home. -/
def newestOf (s : State) (l : Loc) (n : Nat) : List Nat :=
  ((List.range n).filterMap fun i => (s.hist.bytes.find? (histKey l i)).bind fun b => b.stores.head?.map Prod.fst).dedup

/-- R118: an access of a thread performed at the home reads the newest of its bytes; later loads of the core return
nothing older. -/
def readNewest (s : State) (t : Nat) (l : Loc) (n : Nat) : List Nat × State :=
  (newestOf s l n, raiseFloor s (s.coreOf t) l ((List.range n).map fun i =>
    (s.hist.bytes.find? (histKey l i)).bind fun b => b.stores.head?.map Prod.fst))

/-- A store performed at its place: it enters the coherence order, and its home holds it. -/
def storeAt (s : State) (pl : Place) (l : Loc) (p : Nat) (r : StoreRec) (relaxed : Bool) (b : List Byte) : State :=
  let (old, s) := pl.read s l p b.length
  let s := pl.write s l p relaxed b
  if l.phys then s else { s with hist := s.hist.add r l old b }

end Sys2Proof.Machine
end

