-- ==== Sys2Proof/Machine/Access.lean ====
section
/-! DEFINITION. Named operations over memory: the accesses of the part's own agents through the runtime
context's windows (R311), the flats (R111, R377), and the reading and writing of ranges for copies. -/

namespace Sys2Proof.Machine

/-- A number not used before, from the counter of free values. -/
def State.tick (s : State) : Nat × State := (s.ctr, { s with ctr := s.ctr + 1 })

/-- A range cut at 128-byte lines: offset within it, address, length. -/
def spansOf : Nat → Nat → Nat → Nat → List (Nat × Nat × Nat)
  | 0, _, _, _ => []
  | fuel + 1, off, va, n =>
      if n = 0 then [] else
        let k := min n (128 - va % 128)
        (off, va, k) :: spansOf fuel (off + k) (va + k) (n - k)
def spans (va n : Nat) : List (Nat × Nat × Nat) := spansOf (n / 128 + 2) 0 va n

/-! ### Single places -/

/-- Newest bytes at a location, by an agent that sees every store (prompters, dispatcher, host; R366). -/
def readLoc (s : State) (l : Loc) (n : Nat) : Answer (List Byte) × State :=
  match place s l false false with
  | (.ok pl, s) =>
      match pl.poison s with
      | some _ => (.fault .memerr .noLeaf, s)
      | none => let (b, s) := pl.read s l ((s.ctxPart l.ctx).getD 0) n; (.ok b, s)
  | (.fault c r, s) => (.fault c r, s)
  | (.wait, s) => (.wait, s)

/-- Bytes written at a location with the record of who wrote them. -/
def writeLoc (s : State) (l : Loc) (r : StoreRec) (relaxed : Bool) (b : List Byte) : Answer Unit × State :=
  match place s l true false with
  | (.ok pl, s) => (.ok (), storeAt s pl l ((s.ctxPart l.ctx).getD 0) r relaxed b)
  | (.fault c r, s) => (.fault c r, s)
  | (.wait, s) => (.wait, s)

/-! ### Ranges by virtual address -/

/-- Bytes of a range of virtual memory, outside the flat aperture, in a context. -/
def readRange (s : State) (c : Nat) (priv : Bool) (va n : Nat) : Answer (List Byte) × State :=
  (spans va n).foldl (fun (acc, s) (_, a, k) =>
    match acc with
    | .ok b => match viaWindows s c priv a ⟨true, false, false⟩ with
        | .error e => (.fault e .noLeaf, s)
        | .ok l => match readLoc s l k with
            | (.ok b', s) => (.ok (b ++ b'), s)
            | (.fault e r, s) => (.fault e r, s)
            | (.wait, s) => (.wait, s)
    | x => (x, s)) (.ok [], s)

/-- Bytes written to a range of virtual memory in a context; what precedes a span that faults is written.
A write that releases leaves for the host in order (R389). -/
def writeRange (s : State) (c : Nat) (priv : Bool) (r : StoreRec) (va : Nat) (b : List Byte) : Answer Unit × State :=
  (spans va b.length).foldl (fun (acc, s) (off, a, k) =>
    match acc with
    | .ok _ => match viaWindows s c priv a ⟨false, true, false⟩ with
        | .error e => (.fault e .noLeaf, s)
        | .ok l => writeLoc s l r r.rels.isEmpty ((b.drop off).take k)
    | x => (x, s)) (.ok (), s)

/-- A write made for a partition is held on a page of a range: what follows it there waits too. -/
def lateOn (s : State) (p va n : Nat) : Bool :=
  (s.part p).late.any fun x => decide (x.va / 65536 ≤ (va + n - 1) / 65536 ∧ va / 65536 ≤ (x.va + x.data.length - 1) / 65536)

/-- R311: reads made for a partition, through its runtime context. -/
def agentRead (s : State) (p va n : Nat) : Answer (List Byte) × State :=
  match s.runtime p with
  | none => (.fault .vaRange .noLeaf, s)
  | some c => if lateOn s p va n then (.wait, s) else readRange s c true va n

/-- R311: writes made for a partition, through its runtime context. -/
def agentWrite (s : State) (p : Nat) (rels : List Nat) (va : Nat) (b : List Byte) : Answer Unit × State :=
  match s.runtime p with
  | none => (.fault .vaRange .noLeaf, s)
  | some c => if lateOn s p va b.length then (.wait, s) else writeRange s c true (.agent rels) va b

/-- A write that LOCK holds is kept, with the cue entry that follows it. -/
def keepLate (s : State) (p : Nat) (x : Late) : State := s.onPart p fun y => { y with late := y.late ++ [x] }

/-- A write made for a partition, whose failure is not reported; while LOCK holds it, it waits (R369). -/
def agentPut (s : State) (p : Nat) (rels : List Nat) (va : Nat) (b : List Byte) : State :=
  match agentWrite s p rels va b with
  | (.wait, s) => keepLate s p ⟨va, b, rels, none⟩
  | (_, s) => s

/-! ### Areas of a partition at intermediate addresses (R326, R328) -/

/-- Where an intermediate address of an area lies that the part itself reaches for a context: on die `d` where the leaf
there makes the page die-local, on its interleaved home otherwise (log entry 22). -/
def areaLoc (s : State) (ctx d ia : Nat) : Loc :=
  let dl := ((leafOf s d ia).map fun f => !f.bit 58).getD false
  ⟨if dl then d else homeDie ia, ia, dl, false, ctx, 0⟩

/-- Bytes written to an area, a line at a time; a line whose page faults is not written. None while LOCK holds one. -/
def areaWrite (s : State) (ctx d ia : Nat) (b : List Byte) : Option State :=
  (spans ia b.length).foldl (fun (r : Option State) x => r.bind fun s =>
    match writeLoc s (areaLoc s ctx d x.2.1) (.agent []) false ((b.drop x.1).take x.2.2) with
    | (.wait, _) => none
    | (_, s) => some s) (some s)

/-- Bytes read from an area; a line whose page faults, or that is poisoned, reads as free bytes. None while LOCK holds
one. -/
def areaRead (s : State) (ctx d ia n : Nat) : Option (List Byte × State) :=
  (spans ia n).foldl (fun (r : Option (List Byte × State)) x => r.bind fun (b, s) =>
    match readLoc s (areaLoc s ctx d x.2.1) x.2.2 with
    | (.ok b', s) => some (b ++ b', s)
    | (.fault _ _, s) => let (b', s) := s.freeBytes x.2.2; some (b ++ b', s)
    | (.wait, _) => none) (some ([], s))

/-- R143, R363: the instruction caches hold words under the context and the intermediate address. -/
def icKey (c : Nat) (l : Loc) : Nat := (c * 4 + l.die * 2 + if l.dieLocal then 1 else 0) * 2 ^ 48 + l.ia
/-- The location of a word held. -/
def icLoc (k : Nat) : Loc := ⟨k / 2 ^ 49 % 2, k % 2 ^ 48, k / 2 ^ 48 % 2 == 1, false, k / 2 ^ 50, 0⟩

/-! ### Windows that change (R363) -/

/-- R363: the window registers as an access of a thread reads them: what a write that is not ordered before the access
left, or what the register held before it, as the part picks, each register by itself. -/
def windowView (s : State) (t : Nat) : State × State :=
  let v := viewer s t
  let r := s.winWrites.foldl (fun (a : State × State × List Nat) w =>
    if a.2.2.contains w.reg then a
    else if v.needs s.hist w.store then (a.1, a.2.1, w.reg :: a.2.2)
    else
      let (old, s) := a.2.1.coin
      if old then (sysPut a.1 w.reg 0 w.old, s, a.2.2) else (a.1, s, w.reg :: a.2.2)) (s, s, [])
  (r.1, r.2.1)

/-- R363: a thread has written a window register that held `old`. -/
def noteWindow (s : State) (t n : Nat) (old : Dword) : State :=
  if n / 0x4000 = 2 ∧ 0x1000 ≤ n % 0x4000 then
    { s with winWrites := ⟨n, old, s.hist.next⟩ :: s.winWrites
             hist := { s.hist with next := s.hist.next + 1, stores := s.hist.stores.set s.hist.next (storeOf s t []) } }
  else s

/-! ### Flats (R16, R111, R377) -/

def bankBytes : Nat := 2 ^ 18
def bankKey (d bank off : Nat) : Nat := (d * 256 + bank) * bankBytes + off

/-- The slot of an address in the flat aperture, and its offset in the bank. -/
def flatSlot (va : Nat) : Nat := bits va 20 18
def flatOff (va : Nat) : Nat := bits va 17 0

/-- FLS_MAPs of a core: attached, read-only, bank. -/
def slotMap (s : State) (core slot : Nat) : Nat := (sysGet s (RegNo.flsMap slot) core).toNat
def slotBank (s : State) (core slot : Nat) : Option Nat :=
  let m := slotMap s core slot
  if bits m 31 31 = 1 then some (bits m 7 0) else none
def slotRo (s : State) (core slot : Nat) : Bool := bits (slotMap s core slot) 30 30 == 1
def setSlot (s : State) (core slot : Nat) (x : Option (Nat × Bool)) : State :=
  sysPut s (RegNo.flsMap slot) core
    (match x with
      | some (b, ro) => BitVec.ofNat 64 (2 ^ 31 + (if ro then 2 ^ 30 else 0) + b)
      | none => 0)

/-- The attachments of a bank: core and slot. -/
def attachments (s : State) (d bank : Nat) : List (Nat × Nat) :=
  (List.range 128).flatMap fun i => (List.range 8).filterMap fun k =>
    if slotBank s (d * 128 + i) k = some bank then some (d * 128 + i, k) else none

/-- R377: the partition a bank belongs to. -/
def bankPart (s : State) (d bank : Nat) : Option Nat :=
  let x := (sysGet s (RegNo.flsOwn bank) d).toNat
  if bits x 31 31 = 1 then some (bits x 30 28) else none

def flatRead (s : State) (d bank off n : Nat) : List Byte := Memory.readN s.flats (bankKey d bank off) n
/-- Bytes written in a bank; a whole poisoned word written is poisoned no more (R380). -/
def flatWrite (s : State) (d bank off : Nat) (b : List Byte) : State :=
  let s := { s with flats := Memory.writeN s.flats (bankKey d bank off) b }
  let k := bankKey d bank off
  s.onDie d fun x => { x with poisonFlat := x.poisonFlat.filter fun w => !(decide (k ≤ 4 * w ∧ 4 * w + 4 ≤ k + b.length)) }
/-- R380: does a read of a bank meet a poisoned word? -/
def flatPoisoned (s : State) (d bank off n : Nat) : Bool :=
  let k := bankKey d bank off
  (s.die d).poisonFlat.any fun w => decide (4 * w < k + n ∧ k < 4 * w + 4)
/-- R379: the owner tag of a bank. -/
def bankOwner (s : State) (d bank : Nat) : Byte := BitVec.ofNat 8 (sysBits s (RegNo.flsOwn bank) d 7 0)
/-- R377: a bank filled with zeros. -/
def zeroBank (s : State) (d bank : Nat) : State :=
  { s with flats := s.flats.filter fun e => e.1 / bankBytes != d * 256 + bank }

/-- Publications attached to bytes of a bank, for acquires at the bank (R111). -/
def flatRels (s : State) (d bank off n : Nat) : List Nat :=
  (List.range n).foldl (fun a i => unionN a (s.hist.flat.findD (bankKey d bank off + i) [])) []
def setFlatRels (s : State) (d bank off n : Nat) (rels : List Nat) : State :=
  { s with hist := { s.hist with flat := (List.range n).foldl (fun m i => m.set (bankKey d bank off + i) rels) s.hist.flat } }

/-! ### The loft (R16, R112) -/

def loftBytes : Nat := 0x6000_0000
def loftKey (d off : Nat) : Nat := d * 2 ^ 31 + off
def loftRead (s : State) (d off n : Nat) : List Byte := Memory.readN s.loft (loftKey d off) n
def loftWrite (s : State) (d off : Nat) (b : List Byte) : State := { s with loft := Memory.writeN s.loft (loftKey d off) b }
/-- R380: a poisoned line of the loft. -/
def loftPoisoned (s : State) (d off n : Nat) : Bool := (s.die d).poisonLoft.any fun x => decide (128 * x < off + n ∧ off < 128 * x + 128)
/-- R379: the owner tag of a loft cluster region; a region nothing has been loaded into is unowned. -/
def loftOwner (s : State) (d off : Nat) : Byte := (s.die d).loftOwner.findD (off / 0x300_0000) 0xFF

end Sys2Proof.Machine
end

