-- ==== Sys2Proof/Machine/LaunchQ.lean ====
section
/-! DEFINITION. Launch queues (R337..R339): when one is enabled, its ring, and what enters it. -/

namespace Sys2Proof.Machine

/-- Fields of DISP_LQq. -/
def lqField (s : State) (p q hi lo : Nat) : Nat := sysBits s (RegNo.lq q) p hi lo
def lqCap (s : State) (p q : Nat) : Nat := 2 ^ lqField s p q 63 60
def lqCtx (s : State) (p q : Nat) : Nat := lqField s p q 11 4
def lqPriv (s : State) (p q : Nat) : Bool := lqField s p q 59 59 == 1
def lqDev (s : State) (p q : Nat) : Bool := lqField s p q 2 2 == 1
def lqIrq (s : State) (p q : Nat) : Nat := lqField s p q 1 0
def lqHead (s : State) (p q : Nat) : Nat := sysBits s (RegNo.lqPtr q) p 63 32
def lqTail (s : State) (p q : Nat) : Nat := sysBits s (RegNo.lqPtr q) p 31 0
/-- Packets pending. -/
def lqPending (s : State) (p q : Nat) : Nat := (lqTail s p q + 2 ^ 32 - lqHead s p q) % 2 ^ 32

/-- R337: a queue is enabled. -/
def lqEnabled (s : State) (p q : Nat) : Bool :=
  lqField s p q 63 60 != 0 && s.ctxPart (lqCtx s p q) == some p && (s.runtime p).isSome
    && (!lqPriv s p q || (s.runtime p == some (lqCtx s p q) && !lqDev s p q))

/-- The address of the slot of packet k. -/
def lqSlot (s : State) (p q k : Nat) : Nat := lqField s p q 56 12 * 4096 + 448 * (k % lqCap s p q)

/-- R339: a packet from a launch instruction: the status, and the slot and TAIL advanced where it is 0. -/
def lqPush (s : State) (p q : Nat) (rels : List Nat) (b : List Byte) : Nat × State :=
  if !lqEnabled s p q || !lqDev s p q then (2, s)
  else if lqPending s p q = lqCap s p q then (1, s)
  else
    let t := lqTail s p q
    (0, sysPutBits (agentPut s p rels (lqSlot s p q t) b) (RegNo.lqPtr q) p 31 0 (t + 1))

end Sys2Proof.Machine
end

