-- ==== Sys2Proof/Machine/FloatOps.lean ====
section
/-! DEFINITION. Arithmetic on codes of a format: one rounded operation with its flags (R85..R87, R96..R99),
minimum and maximum (R186), the element operations of the copy engine (R232) and of atomics (R229). -/

namespace Sys2Proof.Machine

/-- How an operation rounds: the mode, flushing, the draw of SR. -/
structure Mode where
  rm : RM
  ftz : Bool
  r : Nat
deriving DecidableEq, Repr

/-- RNE, subnormals kept. -/
def Mode.exactRne : Mode := ⟨.rne, false, 0⟩

/-- R85, R87: a source's value, and INV where it is a signalling NaN. -/
def Fmt.source (f : Fmt) (ftz : Bool) (c : Nat) : Num × Flags :=
  (f.decode (f.flushIn ftz c), Flags.when (f.isSnan c) Flags.inv)

/-- An exact result rounded into a format, with INV where the operation is invalid. -/
def Fmt.result (f : Fmt) (md : Mode) (x : Num × Bool) : Nat × Flags :=
  let p := f.put md.rm md.ftz md.r x.1
  (p.1, p.2 ||| Flags.when x.2 Flags.inv)

def Fmt.add (f : Fmt) (md : Mode) (a b : Nat) : Nat × Flags :=
  let x := f.source md.ftz a
  let y := f.source md.ftz b
  let p := f.result md (Num.add (md.rm == .rd) x.1 y.1)
  (p.1, p.2 ||| x.2 ||| y.2)

def Fmt.sub (f : Fmt) (md : Mode) (a b : Nat) : Nat × Flags :=
  let x := f.source md.ftz a
  let y := f.source md.ftz b
  let p := f.result md (Num.add (md.rm == .rd) x.1 y.1.negate)
  (p.1, p.2 ||| x.2 ||| y.2)

def Fmt.mul (f : Fmt) (md : Mode) (a b : Nat) : Nat × Flags :=
  let x := f.source md.ftz a
  let y := f.source md.ftz b
  let p := f.result md (Num.times (md.rm == .rd) x.1 y.1)
  (p.1, p.2 ||| x.2 ||| y.2)

/-- a × b + c, rounded once. -/
def Fmt.fma (f : Fmt) (md : Mode) (a b c : Nat) : Nat × Flags :=
  let x := f.source md.ftz a
  let y := f.source md.ftz b
  let z := f.source md.ftz c
  let m := Num.mul x.1 y.1
  let s := Num.add (md.rm == .rd) m.1 z.1
  let p := f.result md (s.1, m.2 || s.2)
  (p.1, p.2 ||| x.2 ||| y.2 ||| z.2)

/-- R186: −0 lies below +0. -/
def Num.below (a b : Num) : Bool := a.lt b || (a.isZero && b.isZero && a.neg && !b.neg)

/-- R186: which operand minimum (`mx` false) or maximum selects: b, or a (on equal operands too). -/
def selectsB (mx : Bool) (a b : Num) : Bool :=
  if a.isNan then !b.isNan
  else if b.isNan then false
  else if mx then a.below b else b.below a

/-- R186. -/
def Fmt.minMax (f : Fmt) (mx ftz : Bool) (a b : Nat) : Nat × Flags :=
  let x := f.source ftz a
  let y := f.source ftz b
  let c := if selectsB mx x.1 y.1 then f.flushIn ftz b else f.flushIn ftz a
  let c := if (f.decode c).isNan then f.qnan else c
  (c, x.2 ||| y.2 ||| Flags.when ((f.decode c).isNan || (f.decode c).isInf) Flags.nf)

/-- The operation on FP32 words. -/
def onF32 (p : Nat × Flags) : Word × Flags := (BitVec.ofNat 32 p.1, p.2)

/-- R229: the bits of an atomic on two 16-bit halves, each rne, subnormals kept. -/
def addHalves (f : Fmt) (a b : Word) : Word × Flags :=
  let lo := f.add .exactRne (bits a.toNat 15 0) (bits b.toNat 15 0)
  let hi := f.add .exactRne (bits a.toNat 31 16) (bits b.toNat 31 16)
  (BitVec.ofNat 32 (lo.1 + 65536 * hi.1), lo.2 ||| hi.2)

/-- R232: a reduce operator on one destination word. -/
def reduceWord (rop : Nat) (dst src : Word) : Word × Flags :=
  match rop with
  | 0x00 => onF32 (Fmt.f32.add .exactRne dst.toNat src.toNat)
  | 0x01 => addHalves .bf16 dst src
  | 0x02 => onF32 (Fmt.f32.minMax true false dst.toNat src.toNat)
  | 0x03 => onF32 (Fmt.f32.minMax false false dst.toNat src.toNat)
  | _ => (dst + src, 0)

/-! ### Variance arithmetic (R72, R74, R75) -/

/-- R72: a variance or residual input as it is read, flushed first where the instruction flushes. -/
def readVar (ftz : Bool) (w : Word) : Num × Flags :=
  match Fmt.f32.decode (Fmt.f32.flushIn ftz w.toNat) with
  | .nan => (.nan, Flags.inv)
  | x => if x.below0 then (.zero false, Flags.inv) else (x.abs, 0)

/-- A sensitivity as it is read (R78): only a NaN raises INV. -/
def readAlpha (ftz : Bool) (w : Word) : Num × Flags :=
  match Fmt.f32.decode (Fmt.f32.flushIn ftz w.toNat) with
  | .nan => (.nan, Flags.inv)
  | x => (x, 0)

/-- R73: round(): RNE to FP32, flushed to +0 or the sign's zero; a number again. -/
def roundV (ftz : Bool) (x : Num) : Num := Fmt.f32.decode (Fmt.f32.put .rne ftz 0 x).1
/-- A number that rounding left in FP32, as its register. -/
def wordOfNum (x : Num) : Word := BitVec.ofNat 32 (Fmt.f32.put .rne false 0 x).1

/-- OF and NF where a step gives an infinity. -/
def ovfFlags (x : Num) (finite : Bool) : Flags := Flags.when (finite && x.isInf) (Flags.of ||| Flags.nf)

/-- round(a + b). -/
def addV (ftz : Bool) (a b : Num) : Num × Flags :=
  let x := roundV ftz (a.add false b).1
  (x, ovfFlags x (a.isFin && b.isFin))
/-- R74: round(f × v), 0 where the variance factor v is exactly 0. -/
def mulV (ftz : Bool) (f v : Num) : Num × Flags :=
  if v.isZero then (.zero false, 0)
  else
    let x := roundV ftz (f.times false v).1
    (x, ovfFlags x v.isFin)

end Sys2Proof.Machine
end

