-- ==== Sys2Proof/Machine/Mx.lean ====
section
/-! DEFINITION. Element layouts (R90), microscaling blocks (R91, R92, R280), the QN4 codebook (R93..R95), and
the shared-exponent reduction (R106, R281). -/

namespace Sys2Proof.Machine

/-! ### Elements in memory (R90) -/

/-- Bits of an element as memory holds it. -/
def Fmt.width (f : Fmt) : Nat :=
  let k := 1 + f.m + f.e - if f.signed then 0 else 1
  if k ≤ 4 then 4 else if k ≤ 6 then 6 else if k ≤ 8 then 8 else if k ≤ 16 then 16 else 32

/-- Bytes of `n` elements. -/
def Fmt.bytes (f : Fmt) (n : Nat) : Nat :=
  if f.width = 6 then (n + 3) / 4 * 3 else (n * f.width + 7) / 8

/-- Element `i` of a run of bytes. -/
def Fmt.elemAt (f : Fmt) (b : List Byte) (i : Nat) : Nat :=
  let at_ := fun k => (b.getD k 0).toNat
  match f.width with
  | 4 => Machine.bits (at_ (i / 2)) (4 * (i % 2) + 3) (4 * (i % 2))
  | 6 =>
      let k := i / 4 * 3
      Machine.bits (at_ k + 256 * at_ (k + 1) + 65536 * at_ (k + 2)) (6 * (i % 4) + 5) (6 * (i % 4))
  | 8 => at_ i
  | 16 => at_ (2 * i) + 256 * at_ (2 * i + 1)
  | _ => natOfBytes ((b.drop (4 * i)).take 4)

/-- Element codes as bytes. -/
def Fmt.store (f : Fmt) (l : List Nat) : List Byte :=
  match f.width with
  | 4 => (chunks 2 l.length l).map fun c => BitVec.ofNat 8 (c.getD 0 0 + 16 * c.getD 1 0)
  | 6 => (chunks 4 l.length l).flatMap fun c =>
      bytesOfNat 3 (c.getD 0 0 + 2 ^ 6 * c.getD 1 0 + 2 ^ 12 * c.getD 2 0 + 2 ^ 18 * c.getD 3 0)
  | 8 => l.map fun c => BitVec.ofNat 8 c
  | 16 => l.flatMap fun c => bytesOfNat 2 c
  | _ => l.flatMap fun c => bytesOfNat 4 c

/-! ### Microscaling (R91, R92, R280) -/

/-- A number times 2^k. -/
def Num.shift (k : Int) : Num → Num
  | .fin n m e => .fin n m (e + k)
  | x => x

/-- floor(log2 |x|) of a finite non-zero number. -/
def Num.log2 : Num → Int
  | .fin _ m e => Nat.log2 m + e
  | _ => 0

/-- The larger magnitude. -/
def Num.maxAbs (a b : Num) : Num := if a.abs.lt b.abs then b.abs else a.abs

/-- R106: the unbiased exponent of the largest finite value. -/
def Fmt.emax (f : Fmt) : Int := (f.decode f.top).log2

/-- R92: an element of a block. -/
def Fmt.mxValue (f : Fmt) (scale c : Nat) : Num := if scale = 255 then .nan else (f.decode c).shift (scale - 127)

/-- R106, R280: the scale code for the largest finite magnitude of a block. -/
def Fmt.mxScale (f : Fmt) (e0 : Nat) (amax : Num) : Nat :=
  if amax.isZero then e0 else (max 0 (min 254 (amax.log2 - f.emax + 127))).toNat

/-- The largest finite magnitude of a list. -/
def amaxOf (l : List Num) : Num := l.foldl (fun a x => if x.isFin then Num.maxAbs a x else a) (Num.zero false)

/-- R280: an element re-encoded in its block's scale, E5M2 keeping its infinities. -/
def Fmt.mxElem (f : Fmt) (md : Mode) (scale : Nat) (x : Num) : ConvOut :=
  match x with
  | .inf n => if f.inf then ⟨f.infCode n, Flags.nf, none⟩ else f.convert md.rm true false md.r n x
  | _ => f.convert md.rm true false md.r x.neg (x.shift (127 - (scale : Int)))

/-- A block: its scale code and element codes, and the flags raised. -/
structure MxBlock where
  scale : Nat
  codes : List Nat
  flags : Flags
deriving DecidableEq, Repr

/-- R280: 32 FP32 values as a block; `md i` is the mode of element i. -/
def Fmt.mxEncode (f : Fmt) (md : Nat → Mode) (vals : List Word) : MxBlock :=
  let xs := vals.map f32Val
  if xs.any Num.isNan then
    ⟨255, vals.map fun _ => 0, Flags.nf ||| Flags.when (vals.any fun v => Fmt.f32.isSnan v.toNat) Flags.inv⟩
  else
    let sc := f.mxScale 127 (amaxOf xs)
    let os := xs.mapIdx fun i x => f.mxElem (md i) sc x
    ⟨sc, os.map ConvOut.code, os.foldl (fun a o => a ||| o.flags) 0⟩

/-- R280: bytes of an element record of one block. -/
def Fmt.mxRecord (f : Fmt) : Nat := f.bytes 32

/-- R280: a row record: the blocks' elements, then their scales. -/
def Fmt.mxRow (f : Fmt) (bs : List MxBlock) : List Byte :=
  f.store (bs.flatMap MxBlock.codes) ++ bs.map fun b => BitVec.ofNat 8 b.scale

/-- The blocks of a row record of `n` blocks. -/
def Fmt.mxParse (f : Fmt) (n : Nat) (b : List Byte) : List MxBlock :=
  (List.range n).map fun j =>
    ⟨(b.getD (n * f.mxRecord + j) 0).toNat,
      (List.range 32).map fun i => f.elemAt (b.drop (j * f.mxRecord)) i, 0⟩

/-- R280: a block decoded to FP32, RNE, subnormals kept. -/
def Fmt.mxDecode (f : Fmt) (b : MxBlock) : List (Word × Flags) := b.codes.map fun c =>
  let p := rneF32 (f.mxValue b.scale c)
  (p.1, p.2 ||| Flags.when (f.isSnan c && b.scale != 255) Flags.inv)

/-- The least k with n ≤ 2^k. -/
def ceilLog2 (n : Nat) : Nat := if n ≤ 1 then 0 else Nat.log2 (n - 1) + 1

/-- R106: y re-encoded, from the exact values of a block. UF is not among the flags recorded. -/
def Fmt.mxReencode (f : Fmt) (e0 : Nat) (ys : List Num) : MxBlock :=
  let sc := f.mxScale e0 (amaxOf ys)
  let os := ys.map fun y => if y.isNan then (⟨f.qnan, Flags.nf, none⟩ : ConvOut) else f.mxElem .exactRne sc y
  ⟨sc, os.map ConvOut.code, os.foldl (fun a o => a ||| o.flags) 0 &&& ~~~Flags.uf⟩

/-- INV where a contribution's element is a signalling NaN. -/
def Fmt.mxSnan (f : Fmt) (bs : List MxBlock) : Flags :=
  Flags.when (bs.any fun b => b.scale != 255 && b.codes.any fun c => f.isSnan c) Flags.inv

/-- R106: the sum of contributions of one block. -/
def Fmt.mxSum (f : Fmt) (bs : List MxBlock) : MxBlock :=
  let e := bs.foldl (fun a b => max a b.scale) 0
  if e = 255 then ⟨255, List.replicate 32 0, Flags.nf⟩
  else
    let h := ceilLog2 bs.length + 1
    let u : Int := f.emax + 1 - (31 - h) + (e - 127)
    let ys := (List.range 32).map fun i =>
      let vs := bs.map fun b => f.mxValue b.scale (b.codes.getD i 0)
      let pos := vs.any (· == Num.inf false)
      let neg := vs.any (· == Num.inf true)
      if vs.any Num.isNan then ((.nan : Num), Flags.when (pos && neg) Flags.inv)
      else if pos && neg then (.nan, Flags.inv)
      else if pos then (.inf false, 0)
      else if neg then (.inf true, 0)
      else
        let ks := vs.map fun v => match v with
          | .fin n m e =>
              let g := gridRound .rne 0 n m e u
              let k : Int := g.q + if g.up then 1 else 0
              (if n then -k else k, g.nx)
          | _ => (0, false)
        let t := (ks.map Prod.fst).sum
        (.fin (t < 0) t.natAbs u, Flags.when (ks.any Prod.snd) Flags.nx)
    let r := f.mxReencode e (ys.map Prod.fst)
    { r with flags := r.flags ||| ys.foldl (fun a y => a ||| y.2) 0 ||| f.mxSnan bs }

/-- R281: the maximum of contributions of one block. -/
def Fmt.mxMax (f : Fmt) (bs : List MxBlock) : MxBlock :=
  let live := bs.filter fun b => b.scale != 255
  if live.isEmpty then ⟨255, List.replicate 32 0, Flags.nf⟩
  else
    let e := live.foldl (fun a b => max a b.scale) 0
    let ys := (List.range 32).map fun i =>
      (live.map fun b => f.mxValue b.scale (b.codes.getD i 0)).foldl (fun a x => if selectsB true a x then x else a) .nan
    let r := f.mxReencode e ys
    { r with flags := r.flags ||| f.mxSnan bs }

/-! ### QN4 (R93..R95) -/

/-- R93: T. -/
def qnT : List Int := [-128, -92, -68, -52, -38, -25, -12, 0, 11, 22, 34, 47, 62, 79, 100, 128]

/-- R93: the value of a code, exact. -/
def qnValue (super : Num) (s c : Nat) : Num :=
  if !super.isFin then .nan
  else (((Num.ofInt (qnT.getD c 0 * s)).times false super).1).shift (-7)

/-- R95: round-half-even(255 × b / B) of finite numbers, B ≠ 0. -/
def qnScale (b bmax : Num) : Nat :=
  if b.isZero then 0 else
    match Num.divFin 80 ((Num.ofInt 255).mul b).1 bmax with
    | .fin _ m e => let g := gridRound .rne 0 false m e 0; g.q + if g.up then 1 else 0
    | _ => 0

/-- R95: the distance of a code's value from v. -/
def qnDist (super : Num) (s : Nat) (v : Num) (c : Nat) : Num := ((qnValue super s c).add false v.negate).1.abs

/-- What the quantiser makes of one element: code, flags, and the rounding variance. -/
structure QnElem where
  code : Nat
  flags : Flags
  w : Word
  wFlags : Flags
deriving DecidableEq, Repr

/-- RNE of a variance; +∞ from a finite x sets OF and NF (R75). -/
def varRound (x : Num) : Word × Flags :=
  let p := rneF32 x
  (p.1, if (f32Val p.1).isInf then Flags.of ||| Flags.nf else 0)

/-- R95: one element of a block of scale code s. -/
def qnElem (super : Num) (s : Nat) (v : Word) : QnElem :=
  match f32Val v with
  | .nan =>
      ⟨if s = 0 then 7 else if v.getLsbD 31 then 0 else 15, Flags.nf ||| Flags.inv, nan32, 0⟩
  | .inf n => ⟨if s = 0 then 7 else if n then 0 else 15, Flags.nf, 0x7F80_0000, 0⟩
  | x =>
      if s = 0 then
        let p := varRound (x.mul x).1
        ⟨7, Flags.when (!x.isZero) Flags.nx, p.1, p.2⟩
      else
        let c := (List.range 16).foldl (fun a c =>
          let d := qnDist super s x a
          let d' := qnDist super s x c
          if d'.lt d || (d'.eq d && (qnT.getD c 0).natAbs < (qnT.getD a 0).natAbs) then c else a) 7
        let y := qnValue super s c
        if y.eq x then ⟨c, 0, 0, 0⟩
        else
          let vs := (List.range 16).map fun c => qnValue super s c
          let lo := vs.filter fun z => z.lt x
          let hi := vs.filter fun z => x.lt z
          let p := match lo.getLast?, hi.head? with
            | some l, some h =>
                let u := (h.add false l.negate).1
                varRound (Num.divFin 80 (u.mul u).1 (.fin false 12 0))
            | _, _ => let d := (x.add false y.negate).1; varRound (d.mul d).1
          ⟨c, Flags.nx, p.1, p.2⟩

/-- R94, R95: a super-block of 16,384 FP32 values: its record and its elements. -/
def qnEncode (vals : List Word) : List Byte × List QnElem :=
  let xs := vals.map f32Val
  let bmax := amaxOf xs
  let super := if bmax.isZero then (0 : Word) else (rneF32 (Num.divFin 80 bmax (.fin false 255 0))).1
  let blocks := chunks 64 256 vals
  let coded := blocks.map fun b =>
    let s := if bmax.isZero then 0 else qnScale (amaxOf (b.map f32Val)) bmax
    (s, b.map fun v => qnElem (f32Val super) s v)
  (Fmt.e2m1.store (coded.flatMap fun p => p.2.map QnElem.code)
      ++ (coded.map fun p => BitVec.ofNat 8 p.1) ++ bytesOfNat 4 super.toNat ++ List.replicate 124 0,
    coded.flatMap Prod.snd)

/-- R93, R94: element `i` of a record. -/
def qnAt (b : List Byte) (i : Nat) : Num :=
  qnValue (f32Val (BitVec.ofNat 32 (natOfBytes ((b.drop 8448).take 4)))) (b.getD (8192 + i / 64) 0).toNat (Fmt.e2m1.elemAt b i)

end Sys2Proof.Machine
end

