-- ==== Sys2Proof/Machine/MatrixMath.lean ====
section
/-! DEFINITION. The arithmetic of a matrix pass (R103..R105), engine descriptors and their checks (R258, R263,
R265, R266), latching weights (R264), and what a pass leaves in its tile (R268). -/

namespace Sys2Proof.Machine

/-! ### Descriptors -/

/-- Bits [hi:lo] of a word of a descriptor. -/
def fieldOf (l : List Word) (i hi lo : Nat) : Nat := bits (l.getD i 0).toNat hi lo
/-- A word of a descriptor. -/
def wordOf (l : List Word) (i : Nat) : Nat := (l.getD i 0).toNat
/-- A 64-bit field of a descriptor. -/
def dwordAt (l : List Word) (i : Nat) : Nat := wordOf l i + 2 ^ 32 * wordOf l (i + 1)
/-- A signed 32-bit field. -/
def signedAt (l : List Word) (i : Nat) : Int := (l.getD i 0).toInt
/-- An address plus a signed displacement, modulo 2^64. -/
def addrAdd (a : Nat) (d : Int) : Nat := ((a : Int) + d).emod (2 ^ 64) |>.toNat

/-- R258: how an operand's bytes are read. -/
inductive OpKind
  | plain | mx | qn4
deriving DecidableEq, Repr

/-- R258: a format byte: its format, kind, and elements per cell. -/
def fmtByte (b : Nat) : Option (Fmt × OpKind × Nat) :=
  match b with
  | 0x08 => some (.f32, .plain, 1)
  | 0x09 => some (.f16, .plain, 1)
  | 0x0A => some (.bf16, .plain, 1)
  | 0x10 => some (.e4m3, .plain, 2)
  | 0x11 => some (.e5m2, .plain, 2)
  | 0x12 => some (.e3m2, .plain, 4)
  | 0x13 => some (.e2m3, .plain, 4)
  | 0x14 => some (.e2m1, .plain, 4)
  | 0x15 => some (.vf8, .plain, 1)
  | 0x16 => some (.vf4, .plain, 1)
  | 0x90 => some (.e4m3, .mx, 2)
  | 0x91 => some (.e5m2, .mx, 2)
  | 0x92 => some (.e3m2, .mx, 4)
  | 0x93 => some (.e2m3, .mx, 4)
  | 0x94 => some (.e2m1, .mx, 4)
  | 0x20 => some (.e2m1, .qn4, 4)
  | _ => none

/-- A mean format of A (QN4 apart) or B. -/
def meanByte (b : Nat) (qn : Bool) : Bool :=
  (0x09 ≤ b && b ≤ 0x0A) || (0x10 ≤ b && b ≤ 0x14) || (0x90 ≤ b && b ≤ 0x94) || (qn && b == 0x20)
def isVarByte (b : Nat) : Bool := b == 0x15 || b == 0x16
def isMxByte (b : Nat) : Bool := 0x90 ≤ b && b ≤ 0x94
/-- The format of a byte that names one. -/
def byteFmt (b : Nat) : Fmt := ((fmtByte b).map (·.1)).getD .f32

/-- Words from `i` on are 0. -/
def zeroFrom (l : List Word) (i : Nat) : Bool := (l.drop i).all (· == 0)

/-- R263: a latch descriptor. -/
structure LatchDesc where
  baddr : Nat
  bvaddr : Nat
  loft : Bool
  wb : Nat
  bfmt : Nat
  bvfmt : Nat
  kw : Nat
  nw : Nat
  bstr : Nat
  bvstr : Nat
  bsoff : Nat
  mv : Bool
deriving DecidableEq, Repr

def latchDesc (l : List Word) (mv : Bool) : LatchDesc :=
  ⟨dwordAt l 0, dwordAt l 2, fieldOf l 4 31 24 == 1, fieldOf l 4 23 16, fieldOf l 4 15 8, fieldOf l 4 7 0,
    fieldOf l 5 31 20, fieldOf l 5 19 10, wordOf l 6, wordOf l 7, wordOf l 8, mv⟩

/-- R263: the conditions that raise MX_DESC at wlatch. -/
def latchOk (l : List Word) (mv : Bool) : Bool :=
  let d := latchDesc l mv
  let e := ((fmtByte d.bfmt).map (·.2.2)).getD 0
  decide (fieldOf l 4 31 24 ≤ 1) && decide (d.wb ≤ 1) && meanByte d.bfmt true
    && (if mv then isVarByte d.bvfmt else d.bvfmt == 0 && d.bvaddr == 0 && d.bvstr == 0)
    && decide (1 ≤ d.kw ∧ d.kw ≤ 128 * e) && decide (1 ≤ d.nw ∧ d.nw ≤ 256) && fieldOf l 5 9 0 == 0
    && zeroFrom l 9 && (d.bfmt != 0x20 || (d.bstr == 0 && d.kw * d.nw % 16384 == 0))
    && (if isMxByte d.bfmt then d.kw % 32 == 0 else d.bsoff == 0)
    && d.baddr % 16 == 0 && d.bvaddr % 16 == 0 && d.bstr % 16 == 0 && d.bvstr % 16 == 0
    && (d.loft || (inFlat d.baddr && (!mv || inFlat d.bvaddr)))

/-- R21: the loft offsets of a cluster's region. -/
def inRegion (cluster off : Nat) : Bool := off / 0x300_0000 == cluster % 32 && decide (off < loftBytes)

/-- R263: LOFT_RANGE at wlatch. -/
def latchLoftOk (d : LatchDesc) (cluster : Nat) : Bool :=
  !d.loft || (inRegion cluster d.baddr && (!d.mv || inRegion cluster d.bvaddr))

/-- R264, R265: the byte ranges a latch reads under a layout: address and length. -/
def latchRanges (d : LatchDesc) (tb : Bool) : List (Nat × Nat) :=
  let rows := if tb then d.nw else d.kw
  let len := if tb then d.kw else d.nw
  let f := byteFmt d.bfmt
  let mean := if d.bfmt = 0x20 then [(d.baddr, d.kw * d.nw / 16384 * 8576)]
    else (List.range rows).map fun r => (d.baddr + r * d.bstr, f.bytes len)
  let scales := if isMxByte d.bfmt then [(d.baddr + d.bsoff, d.nw * (d.kw / 32))] else []
  let vars := if d.mv then (List.range rows).map fun r => (d.bvaddr + r * d.bvstr, (byteFmt d.bvfmt).bytes len) else []
  mean ++ scales ++ vars

/-- R265: is the extent of a latch inside its space? -/
def latchExtentOk (d : LatchDesc) (tb : Bool) (cluster : Nat) : Bool :=
  (latchRanges d tb).all fun r =>
    r.2 == 0 || (if d.loft then inRegion cluster r.1 && inRegion cluster (r.1 + r.2 - 1)
      else inFlat r.1 && inFlat (r.1 + r.2 - 1))

/-- R266: a pass descriptor. -/
structure PassDesc where
  aaddr : Nat
  avaddr : Nat
  asaddr : Nat
  tile : Nat
  wb : Nat
  afmt : Nat
  avfmt : Nat
  k : Nat
  n : Nat
  m : Nat
  astr : Nat
  avstr : Nat
  sstr : Nat
  pri : Nat
deriving DecidableEq, Repr

def passDesc (l : List Word) : PassDesc :=
  ⟨dwordAt l 0, dwordAt l 2, dwordAt l 4, fieldOf l 6 31 24, fieldOf l 6 23 16, fieldOf l 6 15 8, fieldOf l 6 7 0,
    fieldOf l 7 31 20, fieldOf l 7 19 10, fieldOf l 7 9 0, wordOf l 8, wordOf l 9, fieldOf l 10 31 16, fieldOf l 10 3 0⟩

/-- R266: the conditions that raise MX_DESC at mmpost, the extent of a staged latch apart. -/
def passOk (l : List Word) (mv full2 ta tb staged : Bool) : Bool :=
  let d := passDesc l
  decide (d.tile ≤ 31) && decide (d.wb ≤ 1) && meanByte d.afmt false
    && (if mv then d.avfmt == 0 || isVarByte d.avfmt else d.avfmt == 0)
    && (d.avfmt != 0 || d.avaddr == 0) && (isMxByte d.afmt || d.asaddr == 0)
    && decide (d.k ≤ 512) && decide (d.n ≤ 256) && decide (d.m ≤ 128) && fieldOf l 10 15 4 == 0 && zeroFrom l 11
    && inFlat d.aaddr && (d.avfmt == 0 || inFlat d.avaddr) && (!isMxByte d.afmt || inFlat d.asaddr)
    && d.aaddr % 16 == 0 && d.avaddr % 16 == 0 && d.asaddr % 16 == 0 && d.astr % 16 == 0 && d.avstr % 16 == 0
    && !(isMxByte d.afmt && (ta || d.k % 32 != 0)) && (!full2 || mv) && (!tb || staged)

/-- The byte ranges a pass reads of A. -/
def passRanges (d : PassDesc) (ta : Bool) : List (Nat × Nat) :=
  let rows := if ta then d.k else d.m
  let len := if ta then d.m else d.k
  let mean := (List.range rows).map fun r => (d.aaddr + r * d.astr, (byteFmt d.afmt).bytes len)
  let scales := if isMxByte d.afmt then (List.range d.m).map fun r => (d.asaddr + r * d.sstr, d.k / 32) else []
  let vars := if d.avfmt = 0 then [] else (List.range rows).map fun r => (d.avaddr + r * d.avstr, (byteFmt d.avfmt).bytes len)
  mean ++ scales ++ vars

/-- R268: the first bytes that the descriptor names: a source slot is checked even where the pass reads nothing. -/
def passSources (d : PassDesc) : List (Nat × Nat) :=
  (d.aaddr, 1) :: ((if isMxByte d.afmt then [(d.asaddr, 1)] else []) ++ if d.avfmt = 0 then [] else [(d.avaddr, 1)])

/-! ### Sums (R103..R105) -/

/-- R103: one product of two factors, with its flags. -/
def engineProduct (a b : Num) : Num × Flags :=
  let p := a.mul b
  (p.1, Flags.when p.2 Flags.inv)

/-- R104: one chunk. A chunk with a NaN product raises NF and what its products raise; that it also holds opposite
infinities adds no INV (DESIGN CHOICE, log entry 62). -/
def chunkSum (ps : List (Num × Flags)) : Word × Flags :=
  let fl := ps.foldl (fun a p => a ||| p.2) 0
  let vs := ps.map Prod.fst
  let pos := vs.any (· == Num.inf false)
  let neg := vs.any (· == Num.inf true)
  if vs.any Num.isNan then (nan32, fl ||| Flags.nf)
  else if pos && neg then (nan32, fl ||| Flags.nf ||| Flags.inv)
  else if pos || neg then ((rneF32 (.inf neg)).1, fl ||| Flags.nf)
  else match vs with
    | [] => (0, fl)
    | v :: t => let p := rneF32 (t.foldl (Num.addFin false) v); (p.1, p.2 ||| fl)

/-- R104: terms accumulated in chunks of 32; `keep` says what each step's flags leave. -/
def accumulateBy (keep : Flags → Flags) (start : Word) (terms : List (Num × Flags)) : Word × Flags :=
  (chunks 32 terms.length terms).foldl (fun (acc, fl) c =>
    let p := chunkSum c
    let q := onF32 (Fmt.f32.add .exactRne acc.toNat p.1.toNat)
    (q.1, fl ||| keep p.2 ||| keep q.2)) (start, 0)
/-- R104: the mean plane: every flag counts. -/
def accumulate : Word → List (Num × Flags) → Word × Flags := accumulateBy id

/-- R74, R105: a variance term: 0 where a factor is exactly 0. -/
def varTerm (a b : Num) : Num × Flags := if a.isZero || b.isZero then (.zero false, 0) else ((a.mul b).1, 0)
/-- R105: the terms of the variance plane. -/
def varTerms (full2 : Bool) (l : List (Num × Num × Num × Num)) : List (Num × Flags) :=
  l.flatMap fun (am, av, bm, bv) =>
    [varTerm am.sq bv, varTerm av bm.sq] ++ if full2 then [varTerm av bv] else []

/-- R75: of a variance step's flags, OF and NF where it overflows. -/
def varKeep (f : Flags) : Flags := Flags.when (f &&& Flags.of != 0) (Flags.of ||| Flags.nf)
/-- R105: the variance plane of one output element: R104 over the variance terms, each step's overflow kept (R75);
a NaN variance operand sets INV (R72). -/
def varSum (full2 : Bool) (start : Word) (l : List (Num × Num × Num × Num)) : Word × Flags :=
  let v := accumulateBy varKeep start (varTerms full2 l)
  (v.1, v.2 ||| Flags.when (l.any fun x => x.2.1.isNan || x.2.2.2.isNan) Flags.inv)

/-! ### Latching (R264) -/

/-- A latch performed over the bytes `rd` gives. -/
def latchBuffer (rd : Nat → Byte) (d : LatchDesc) (tb : Bool) : WBuf :=
  let f := byteFmt d.bfmt
  let row := fun (base str : Nat) (g : Fmt) (len r : Nat) => (List.range (g.bytes len)).map fun i => rd (base + r * str + i)
  let rows := if tb then d.nw else d.kw
  let len := if tb then d.kw else d.nw
  let place := fun (r c : Nat) => if tb then c * 256 + r else r * 256 + c
  let items := fun (g : Nat → Nat → Num) =>
    (List.range rows).foldl (fun m r => (List.range len).foldl (fun m c => Sparse.set m (place r c) (g r c)) m) Sparse.empty
  -- the scale code of an element's block
  let scaleAt := fun (r c : Nat) =>
    let j := (if tb then c else r) / 32
    (rd (d.baddr + d.bsoff + (if tb then r * (d.kw / 32) + j else j * d.nw + c))).toNat
  let mean :=
    if d.bfmt = 0x20 then
      let rec_ := fun n => (List.range 8576).map fun i => rd (d.baddr + 8576 * n + i)
      let recs := (List.range (d.kw * d.nw / 16384)).map rec_
      items fun r c => let i := r * len + c; qnAt (recs.getD (i / 16384) []) (i % 16384)
    else
      let rb := (List.range rows).map (row d.baddr d.bstr f len)
      items fun r c =>
        let code := f.elemAt (rb.getD r []) c
        if isMxByte d.bfmt then f.mxValue (scaleAt r c) code else f.decode code
  let var := if d.mv then
      let g := byteFmt d.bvfmt
      let rb := (List.range rows).map (row d.bvaddr d.bvstr g len)
      some (items fun r c => g.decode (g.elemAt (rb.getD r []) c))
    else none
  let snan :=
    if d.bfmt = 0x20 then []
    else
      let rb := (List.range rows).map (row d.baddr d.bstr f len)
      (List.range rows).flatMap fun r => (List.range len).filterMap fun c =>
        if f.isSnan (f.elemAt (rb.getD r []) c) && !(isMxByte d.bfmt && scaleAt r c == 255) then some (place r c) else none
  ⟨true, BitVec.ofNat 8 d.bfmt, BitVec.ofNat 8 d.bvfmt, d.kw, d.nw, mean, var, snan⟩

/-! ### A pass (R268) -/

/-- INV of a signalling NaN among plain codes. -/
def snanFlag (f : Fmt) (c : Nat) : Flags := Flags.when (f.isSnan c) Flags.inv

/-- A tile with its rectangle m < M, n < N replaced by `g m n`, which gives mean and variance; what is written whole is
poisoned no more (R380). -/
def Tile.rect (t : Tile) (m n : Nat) (g : Nat → Nat → Word × Word) : Tile :=
  let upd := fun (old : Sparse Word) (sel : Word × Word → Word) (vals : List (Nat × (Word × Word))) =>
    (old.items.filter fun e => !(decide (e.1 / 256 < m ∧ e.1 % 256 < n))).foldl (fun l e => Sparse.setIn e.1 e.2 l)
      (vals.filterMap fun v => if sel v.2 = 0 then none else some (v.1, sel v.2))
  let vals := (List.range m).flatMap fun i => (List.range n).map fun j => (i * 256 + j, g i j)
  { t with mean := ⟨upd t.mean Prod.fst vals⟩, var := ⟨upd t.var Prod.snd vals⟩
           poison := t.poison.filter fun i => !(decide (i / 256 < m ∧ i % 256 < n)) }

/-- R268: what a pass leaves in its tile. -/
def passTile (rd : Nat → Byte) (d : PassDesc) (mv full2 ta acc : Bool) (wb : WBuf) (t : Tile) : Tile :=
  if d.m = 0 ∨ d.n = 0 then t
  else if d.k = 0 then (if acc then t else t.rect d.m d.n fun _ _ => (0, 0))
  else
    let f := byteFmt d.afmt
    let len := if ta then d.m else d.k
    let rows := if ta then d.k else d.m
    let bytesOf := fun (base str : Nat) (g : Fmt) => (List.range rows).map fun r =>
      (List.range (g.bytes len)).map fun i => rd (base + r * str + i)
    let ab := bytesOf d.aaddr d.astr f
    let vb := if d.avfmt = 0 then [] else bytesOf d.avaddr d.avstr (byteFmt d.avfmt)
    let code := fun m k => if ta then f.elemAt (ab.getD k []) m else f.elemAt (ab.getD m []) k
    let scaleAt := fun m k => (rd (d.asaddr + m * d.sstr + k / 32)).toNat
    let amean := fun m k => if isMxByte d.afmt then f.mxValue (scaleAt m k) (code m k) else f.decode (code m k)
    -- R92: the scale is tested before the element: a NaN block raises no INV
    let asnan := fun m k => if isMxByte d.afmt && scaleAt m k == 255 then 0 else snanFlag f (code m k)
    let avar := fun m k =>
      if d.avfmt = 0 then Num.zero false
      else let g := byteFmt d.avfmt; g.decode (if ta then g.elemAt (vb.getD k []) m else g.elemAt (vb.getD m []) k)
    let bmean := fun k n => wb.mean.findD (k * 256 + n) (.zero false)
    let bvar := fun k n => match wb.var with
      | some v => v.findD (k * 256 + n) (.zero false)
      | none => .zero false
    let ks := List.range d.k
    let out := fun m n =>
      let i := m * 256 + n
      let start := if acc then t.mean.findD i 0 else 0
      let r := accumulate start (ks.map fun k =>
        let p := engineProduct (amean m k) (bmean k n)
        (p.1, p.2 ||| asnan m k ||| Flags.when (wb.snan.contains (k * 256 + n)) Flags.inv))
      let v0 := t.var.findD i 0
      if mv then
        let vs := if acc then v0 else 0
        let l := ks.map fun k => (amean m k, avar m k, bmean k n, bvar k n)
        let v := varSum full2 vs l
        (r.1, v.1, r.2 ||| v.2)
      else (r.1, (if acc then v0 else 0), r.2)
    let t' := t.rect d.m d.n fun m n => let o := out m n; (o.1, o.2.1)
    let fl := (List.range d.m).foldl (fun a m => (List.range d.n).foldl (fun a n => a ||| (out m n).2.2) a) 0
    { t' with status := t.status ||| BitVec.ofNat 9 fl.toNat ||| if mv then 0x100 else 0 }

end Sys2Proof.Machine
end

