-- ==== Sys2Proof/Machine/Special.lean ====
section
/-! DEFINITION. The special functions (R196..R198): tight bounds of the exact function in fixed point, the set
of FP32 results the stated accuracy admits, and a free choice among them that depends on the function and its
input alone (log entry 2); exact and special cases as the tables state them. -/

namespace Sys2Proof.Machine

/-- The nine functions. -/
inductive SpecialFn
  | ex2 | lg2 | rcp | rsq | sqt | sin | cos | tnh | lgt
deriving DecidableEq, Repr

def SpecialFn.num : SpecialFn → Nat
  | .ex2 => 0x38 | .lg2 => 0x39 | .rcp => 0x3A | .rsq => 0x3B | .sqt => 0x3C
  | .sin => 0x3D | .cos => 0x3E | .tnh => 0x3F | .lgt => 0x40

/-! ### Fixed point, 160 bits -/

def fxBits : Nat := 160
def fxOne : Nat := 2 ^ fxBits
/-- ln 2 × 2^160, rounded down. -/
def fxLn2 : Nat := 1013035739299659071135698605846798551586536899366
/-- π × 2^160, rounded down. -/
def fxPi : Nat := 4591442807048218921384805199743311128454155024418

/-- Σ xⁱ/i! by its terms: `t` is the term of index i. -/
def fxExpSum : Nat → Nat → Nat → Nat → Nat
  | 0, _, _, _ => 0
  | fuel + 1, x, i, t => t + fxExpSum fuel x (i + 1) (t * x / fxOne / (i + 1))
/-- e^x for 0 ≤ x < 1. -/
def fxExp (x : Nat) : Nat := fxExpSum 48 x 0 fxOne
/-- The alternating sum of every other term of the exponential series from index i. -/
def fxTrigSum : Nat → Nat → Nat → Int → Int
  | 0, _, _, _ => 0
  | fuel + 1, x, i, t => t + fxTrigSum fuel x (i + 2) (-(t * x / fxOne * x / fxOne) / ((i + 1) * (i + 2)))
/-- Bits of log2 y for 1 ≤ y < 2. -/
def fxLog2 : Nat → Nat → Nat → Nat
  | 0, _, acc => acc
  | fuel + 1, y, acc =>
      let z := y * y / fxOne
      if z ≥ 2 * fxOne then fxLog2 fuel (z / 2) (2 * acc + 1) else fxLog2 fuel z (2 * acc)

/-- The fixed-point value of a number, rounded toward −∞. -/
def Num.toFx : Num → Int
  | .fin n m e =>
      let k : Int := if e + fxBits ≥ 0 then m * 2 ^ (e + fxBits).toNat else
        if n then (m + 2 ^ (-(e + fxBits)).toNat - 1) / 2 ^ (-(e + fxBits)).toNat else m / 2 ^ (-(e + fxBits)).toNat
      if n then -k else k
  | _ => 0

/-- A fixed-point integer at a binary exponent, as a number. -/
def fxNum (k : Int) (e : Int) : Num := .fin (k < 0) k.natAbs e

/-- A closed interval of exact numbers. -/
structure Interval where
  lo : Num
  hi : Num
deriving DecidableEq, Repr

/-- The interval within `err` units of k at exponent e. -/
def Interval.around (k : Int) (err : Nat) (e : Int) : Interval := ⟨fxNum (k - err) e, fxNum (k + err) e⟩

/-- 2^x for a finite x: x = i + f, 2^f = e^(f ln 2). -/
def encEx2 (x : Num) : Interval :=
  let k := x.toFx
  let i := k / fxOne
  let f := (k % fxOne).toNat
  -- far outside the exponents of FP32 the exponent alone decides
  let i := max (-400) (min 400 i)
  .around (fxExp (f * fxLn2 / fxOne)) (2 ^ 20) (i - fxBits)

/-- log2 of m × 2^e, m ≠ 0, to 64 fraction bits. -/
def encLg2 (m : Nat) (e : Int) : Interval :=
  let l := Nat.log2 m
  let y := m * 2 ^ fxBits / 2 ^ l
  let k : Int := ((l : Int) + e) * 2 ^ 64 + fxLog2 64 y 0
  .around k 16 (-64)

/-- e^x for a finite x, as 2^(x / ln 2). -/
def encExp (x : Int) : Interval :=
  let x := max (-300 * (fxOne : Int)) (min (300 * fxOne) x)
  let q := x / fxLn2
  let r := (x - q * fxLn2).toNat
  .around (fxExp r) (2 ^ 24) (q - fxBits)

/-- sin (`c` false) or cos of a fixed-point angle reduced to [−π, π]. -/
def encTrig (c : Bool) (x : Int) : Interval :=
  let r := x % (2 * fxPi)
  let r := if r > fxPi then r - 2 * fxPi else r
  let m := r.natAbs
  let v := if c then fxTrigSum 40 m 0 fxOne else fxTrigSum 40 m 1 m
  .around (if !c && r < 0 then -v else v) (2 ^ 40) (-(fxBits : Int))

/-- Quotient of positive numbers, bounded on both sides. -/
def encDiv (a b : Interval) : Interval :=
  let q := fun x y => match Num.divFin 120 x y with
    | .fin n m e => (n, m, e)
    | _ => (false, 0, 0)
  let l := q a.lo b.hi
  let h := q a.hi b.lo
  ⟨.fin l.1 (l.2.1 - 2) l.2.2, .fin h.1 (h.2.1 + 2) h.2.2⟩

/-- tanh of a finite non-zero number. -/
def encTnh (a : Num) : Interval :=
  match a with
  | .fin n m e =>
      let r : Interval :=
        if (Nat.log2 m : Int) + e < -14 then
          -- a − a³/3 ≤ tanh a ≤ a for small a > 0
          let x : Num := .fin false m e
          let c := ((x.mul x).1.mul x).1
          ⟨(x.add false (match Num.divFin 80 c (.fin false 3 0) with | .fin _ k j => .fin true (k + 2) j | z => z)).1, x⟩
        else
          let t := encExp (2 * (Num.fin false m e).toFx)
          let one : Num := .fin false 1 0
          encDiv ⟨(t.lo.add false one.negate).1, (t.hi.add false one.negate).1⟩ ⟨(t.lo.add false one).1, (t.hi.add false one).1⟩
      if n then ⟨r.hi.negate, r.lo.negate⟩ else r
  | _ => ⟨a, a⟩

/-- Bounds of f(a) for a finite a outside the special columns. -/
def SpecialFn.enclose (f : SpecialFn) (a : Num) : Interval :=
  let one : Interval := ⟨.fin false 1 0, .fin false 1 0⟩
  match a with
  | .fin n m e => match f with
      | .ex2 => encEx2 a
      | .lg2 => encLg2 m e
      | .rcp => let r := encDiv one ⟨a.abs, a.abs⟩; if n then ⟨r.hi.negate, r.lo.negate⟩ else r
      | .rsq => let r := (Num.sqrt a).1
                match r with
                | .fin _ k j => encDiv one ⟨.fin false (k - 1) j, .fin false (k + 1) j⟩
                | _ => one
      | .sqt => let r := (Num.sqrt a).1; ⟨r, r⟩
      | .sin => encTrig false a.toFx
      | .cos => encTrig true a.toFx
      | .tnh => encTnh a
      | .lgt => let t := encExp (-a.toFx)
                encDiv one ⟨(t.lo.add false one.lo).1, (t.hi.add false one.lo).1⟩
  | _ => one

/-! ### What the accuracy admits (R197) -/

/-- FP32 codes in the order of their values: the magnitude code, negated for negative codes. -/
def keyOf (c : Nat) : Int := if c / 2 ^ 31 = 1 then -((c % 2 ^ 31 : Nat) : Int) else c
def ofKey (k : Int) : Nat := if k < 0 then 2 ^ 31 + k.natAbs else k.natAbs

/-- The key of a number rounded toward −∞ or +∞, not beyond the largest finite. -/
def keyRound (up : Bool) (x : Num) : Int :=
  match x with
  | .fin n m e =>
      if m = 0 then 0
      else
        let c := min Fmt.f32.top (Fmt.f32.roundMag (if up then .ru else .rd) 0 n m e).code
        if n then -(c : Int) else c
  | _ => 0

/-- R197: the least and greatest keys admitted at a finite a. -/
def SpecialFn.keys (f : SpecialFn) (a : Num) : Int × Int :=
  let i := f.enclose a
  let ulps := fun (n : Int) => (keyRound false i.lo - (n - 1), keyRound true i.hi + (n - 1))
  let abs_ := fun (k : Int) =>
    (keyRound true (i.lo.add false (.fin true 1 (-k))).1, keyRound false (i.hi.add false (.fin false 1 (-k))).1)
  let big := a.abs.lt (.fin false 1 15) || a.abs.eq (.fin false 1 15)
  match f with
  | .ex2 => let p := ulps 2; (max 0 p.1, p.2)
  | .rsq | .tnh => ulps 2
  | .rcp => ulps 1
  | .lg2 => if a.lt (.fin false 1 (-1)) || (Num.fin false 2 0).lt a then ulps 2
      -- below 1 the value is not positive: G of R201 is never NaN
      else let p := abs_ 22; (p.1, if a.lt (.fin false 1 0) then min 0 p.2 else p.2)
  | .sqt => ulps 1
  | .sin | .cos => if big then abs_ 22 else (-0x3F80_0000, 0x3F80_0000)
  | .lgt => abs_ 23

/-- A number that is ±2^n: its exponent. -/
def powerOf2 : Num → Option Int
  | .fin _ m e => if m ≠ 0 ∧ m = 2 ^ Nat.log2 m then some (Nat.log2 m + e) else none
  | _ => none

/-- An integer value. -/
def Num.asInt? : Num → Option Int
  | .fin n m e =>
      let v : Option Nat := if e ≥ 0 then some (m * 2 ^ e.toNat) else if m % 2 ^ (-e).toNat = 0 then some (m / 2 ^ (-e).toNat) else none
      v.map fun x => if n then -(x : Int) else x
  | _ => none

/-- R197: the exact cases of a finite non-zero a, with the exact result. -/
def SpecialFn.exact? (f : SpecialFn) (a : Num) : Option Num :=
  match f with
  | .ex2 => a.asInt?.bind fun k => if -149 ≤ k ∧ k ≤ 127 then some (.fin false 1 k) else none
  | .lg2 => (powerOf2 a).map Num.ofInt
  | .rcp => (powerOf2 a).bind fun k => if -126 ≤ k ∧ k ≤ 126 then some (.fin a.neg 1 (-k)) else none
  | .rsq => (powerOf2 a).bind fun k => if k % 2 = 0 then some (.fin false 1 (-(k / 2))) else none
  | .tnh => if (Num.fin false 91 0).lt (a.abs.mul (.fin false 10 0)).1 || (Num.fin false 91 0).eq (a.abs.mul (.fin false 10 0)).1
      then some (.fin a.neg 1 0) else none
  | _ => none

/-- R198: NaN, infinities, zeros, and negative sources of lg2, rsq and sqt: the result and whether it is invalid. -/
def SpecialFn.special? (f : SpecialFn) (a : Num) : Option (Num × Bool) :=
  match a with
  | .nan => some (.nan, false)
  | .inf n => some (match f with
      | .ex2 => if n then (.zero false, false) else (.inf false, false)
      | .lg2 => if n then (.nan, true) else (.inf false, false)
      | .rcp => (.zero n, false)
      | .rsq => if n then (.nan, true) else (.zero false, false)
      | .sqt => if n then (.nan, true) else (.inf false, false)
      | .sin | .cos => (.nan, true)
      | .tnh => (.fin n 1 0, false)
      | .lgt => if n then (.zero false, false) else (.fin false 1 0, false))
  | .fin n 0 _ => some (match f with
      | .ex2 | .cos => (.fin false 1 0, false)
      | .lg2 => (.inf true, false)
      | .rcp | .rsq => (.inf n, false)
      | .sqt | .sin | .tnh => (.zero n, false)
      | .lgt => (.fin false 1 (-1), false))
  | .fin true _ _ => match f with
      | .lg2 | .rsq | .sqt => some (.nan, true)
      | _ => none
  | _ => none

/-- The FP32 function at a value: the code and whether it is inexact, with the flags INV and NF of R198. -/
structure SpecialOut where
  code : Nat
  nx : Bool
  ovf : Bool
  flags : Flags
deriving DecidableEq, Repr

/-- R196..R198: the FP32 function. -/
def SpecialFn.eval32 (f : SpecialFn) (a : Num) : SpecialOut :=
  match f.special? a with
  | some (x, bad) => let p := Fmt.f32.put .rne false 0 x; ⟨p.1, false, false, p.2 ||| Flags.when bad Flags.inv⟩
  | none => match f.exact? a with
      | some x => ⟨(Fmt.f32.put .rne false 0 x).1, false, false, 0⟩
      | none =>
          if f = .sqt then
            let p := Fmt.f32.put .rne false 0 (Num.sqrt a).1
            ⟨p.1, p.2 &&& Flags.nx != 0, false, 0⟩
          else
            let i := f.enclose a
            -- a magnitude that reaches 2^128 overflows to infinity (R98, R99); ex2 of 128 lies just there
            let far := if i.lo.abs.lt i.hi.abs then i.hi.abs else i.lo.abs
            let big := !far.lt (.fin false 1 128)
            if big && (f == .ex2 || f == .rcp) then
              ⟨Fmt.f32.infCode i.lo.neg, true, true, Flags.nf ||| Flags.of⟩
            else
              let k := f.keys a
              let src := BitVec.ofNat 32 (Fmt.f32.put .rne false 0 a).1
              let v := k.1 + (Config.special f.num src % (k.2 - k.1 + 1).toNat : Nat)
              ⟨ofKey v, true, false, 0⟩

/-- R196: the function at an element type: the code and the flags. -/
def SpecialFn.eval (f : SpecialFn) (t : Fmt) (ftz : Bool) (c : Nat) : Nat × Flags :=
  let x := t.source ftz c
  let o := f.eval32 x.1
  let y := Fmt.f32.decode o.code
  let p : Nat × Flags := if t = .f32 then (o.code, 0) else t.put .rne false 0 y
  -- a half's root is inexact as its own rounding says
  let nx := if f = .sqt then
      (match y with
        | .fin .. => let q := t.put .rne false 0 (Num.sqrt x.1).1; q.2 &&& Flags.nx != 0
        | _ => false)
    else o.nx || (p.2 &&& Flags.nx != 0)
  let tiny := t.isSub p.1 || (t.decode p.1).isZero
  let nan := (t.decode p.1).isNan || (t.decode p.1).isInf
  let fl := o.flags ||| x.2 ||| (p.2 &&& (Flags.of ||| Flags.nf)) ||| Flags.when nx Flags.nx
    ||| Flags.when (nx && tiny) Flags.uf ||| Flags.when nan Flags.nf
  if ftz && t.flushes && t.isSub p.1 then
    (t.zero (t.decode p.1).neg, fl ||| Flags.uf ||| Flags.nx)
  else (p.1, fl)

/-! ### FP32 arithmetic the rules name: every step RNE -/

def addR (a b : Word) : Word := (onF32 (Fmt.f32.add .exactRne a.toNat b.toNat)).1
/-- Difference and product, flushing as the instruction does (R69). -/
def subZ (ftz : Bool) (a b : Word) : Word := (onF32 (Fmt.f32.sub ⟨.rne, ftz, 0⟩ a.toNat b.toNat)).1
def mulZ (ftz : Bool) (a b : Word) : Word := (onF32 (Fmt.f32.mul ⟨.rne, ftz, 0⟩ a.toNat b.toNat)).1
def fnZ (ftz : Bool) (f : SpecialFn) (a : Word) : Word := BitVec.ofNat 32 (f.eval .f32 ftz a.toNat).1
def subR : Word → Word → Word := subZ false
def mulR : Word → Word → Word := mulZ false
def fnR : SpecialFn → Word → Word := fnZ false
def log2e : Word := 0x3FB8_AA3B
def ln2c : Word := 0x3F31_7218
/-- R278, R297: e(y) = ex2(round(y × LOG2E)). -/
def expR (y : Word) : Word := fnR .ex2 (mulR y log2e)

end Sys2Proof.Machine
end

