-- ==== Sys2Proof/Machine/CopyRun.lean ====
section
/-! DEFINITION. What a copy does when it is performed (R132, R232..R234, R277..R281, R284, R285): the words it
reads as its thread sees them, conversions, reductions, tile read-outs, and the words it writes. -/

namespace Sys2Proof.Machine

/-! ### Places of an access by a thread -/

/-- Where an effective address leads: a bank of the core's slots, or memory. -/
inductive Target
  | flat (d bank off : Nat)
  | mem (l : Loc)
deriving DecidableEq, Repr

/-- R109, R111: an address resolved for a context on a core, with its precise faults. -/
def targetOf (s : State) (ctx core : Nat) (priv : Bool) (va : Nat) (need : Perm) : Except Cause Target :=
  if va / 2 ^ 57 ≠ 0 then .error .vaRange
  else if inFlat va then
    match slotBank s core (flatSlot va) with
    | none => .error .flatDetached
    | some b => if need.w && slotRo s core (flatSlot va) then .error .flatReadonly
        else .ok (.flat (dieOf core) b (flatOff va))
  else match viaWindows s ctx priv va need with
    | .error e => .error e
    | .ok l => .ok (.mem l)

/-- R363: an address resolved for an access of a thread, by the window registers as that access reads them. -/
def targetFor (s : State) (t ctx core : Nat) (priv : Bool) (va : Nat) (need : Perm) : Except Cause Target × State :=
  let v := windowView s t
  (targetOf v.1 ctx core priv va need, v.2)

/-- A run of bytes cut at aligned 4-byte words (R110). -/
def cutWordsOf : Nat → Nat → List Byte → List (Nat × List Byte)
  | 0, _, _ => []
  | fuel + 1, a, b =>
      if b.isEmpty then [] else
        let k := 4 - a % 4
        (a, b.take k) :: cutWordsOf fuel ((a + k) % 2 ^ 64) (b.drop k)
def cutWords (a : Nat) (b : List Byte) : List (Nat × List Byte) := cutWordsOf (b.length + 1) a b

def Copy.priv (s : State) (cp : Copy) : Bool := s.privOf cp.tid
/-- R132: what a copy sees: what is available to its thread; it misses none of the stores that preceded it. -/
def Copy.viewer (s : State) (cp : Copy) : Viewer :=
  let th := s.thread cp.tid
  ⟨some cp.core, false, none, cp.need, unionN (unionN th.snap.need th.snap.may) (s.hist.own cp.tid), false⟩

/-- A location read by a copy: on a stable page as its kernel's loads read it (R114). -/
def copyBytes (s : State) (cp : Copy) (l : Loc) (home : List Byte) : List Byte × State :=
  if l.phys then (home, s)
  else if ((leafOf s l.die l.ia).map fun f => f.bit 61).getD false then mixRead s (s.launchOf cp.tid).mark l home
  else let (p, s) := histRead s (cp.viewer s) l home; (p.1, s)

/-- One source word read by a copy. -/
def copyRead (s : State) (cp : Copy) (va n : Nat) : Answer (List Byte) × State :=
  match targetFor s cp.tid cp.ctx cp.core (cp.priv s) va ⟨true, false, false⟩ with
  | (.error e, s) => (.fault e .noLeaf, s)
  | (.ok (.flat d b o), s) => if flatPoisoned s d b o n then (.fault .memerr .noLeaf, s) else (.ok (flatRead s d b o n), s)
  | (.ok (.mem l), s) => match place s l false false with
      | (.fault e r, s) => (.fault e r, s)
      | (.wait, s) => (.wait, s)
      | (.ok pl, s) => match pl.poison s with
          | some _ => (.fault .memerr .noLeaf, s)
          | none =>
              let (home, s) := pl.read s l cp.part n
              let (b, s) := copyBytes s cp l home
              (.ok b, s)

/-- R233: one destination word written by a copy. -/
def copyWrite (s : State) (cp : Copy) (va : Nat) (b : List Byte) : Answer Unit × State :=
  match targetFor s cp.tid cp.ctx cp.core (cp.priv s) va ⟨false, true, false⟩ with
  | (.error e, s) => (.fault e .noLeaf, s)
  | (.ok (.flat d bk o), s) => (.ok (), flatWrite s d bk o b)
  | (.ok (.mem l), s) => writeLoc s l (copyStore s cp.tid false []) true b

/-- A piece of a destination range in one line, placed: where it stands, and what it holds. -/
structure Piece where
  tgt : Target
  pl : Place
  old : List Byte

/-- One piece placed for an update; R109 asks a copy's destination for W alone. -/
def placePiece (s : State) (cp : Copy) (va n : Nat) : Answer Piece × State :=
  match targetFor s cp.tid cp.ctx cp.core (cp.priv s) va ⟨false, true, false⟩ with
  | (.error e, s) => (.fault e .noLeaf, s)
  | (.ok (.flat d bk o), s) =>
      if flatPoisoned s d bk o n then (.fault .memerr .noLeaf, s) else (.ok ⟨.flat d bk o, .host 0, flatRead s d bk o n⟩, s)
  | (.ok (.mem l), s) => match place s l true false with
      | (.fault e r, s) => (.fault e r, s)
      | (.wait, s) => (.wait, s)
      | (.ok pl, s) => match pl.poison s with
          | some _ => (.fault .memerr .noLeaf, s)
          | none => let (old, s) := pl.read s l cp.part n; (.ok ⟨.mem l, pl, old⟩, s)

/-- The pieces of a range, one for each line, in order. -/
def placePieces (s : State) (cp : Copy) (va n : Nat) : Answer (List Piece) × State :=
  (spans va n).foldl (fun (acc, s) (_, a, k) =>
    match acc with
    | .ok ps => match placePiece s cp a k with
        | (.ok x, s) => (.ok (ps ++ [x]), s)
        | (.fault e r, s) => (.fault e r, s)
        | (.wait, s) => (.wait, s)
    | x => (x, s)) (.ok [], s)

/-- Bytes written at a piece, as the write of an atomic. -/
def putPiece (s : State) (cp : Copy) (x : Piece) (b : List Byte) : State :=
  match x.tgt with
  | .flat d bk o => flatWrite s d bk o b
  | .mem l => storeAt s x.pl l cp.part (copyStore s cp.tid true (relsOf s (newestOf s l b.length))) false b

/-- R233: one destination range of a cp.reduce updated as one atomic at its home: `f` gives what replaces it. -/
def copyUpdate (s : State) (cp : Copy) (va n : Nat) (f : List Byte → List Byte × Flags) : Answer Flags × State :=
  match placePieces s cp va n with
  | (.ok ps, s) =>
      let p := f (ps.flatMap Piece.old)
      (.ok p.2, (ps.foldl (fun (s, off) x => (putPiece s cp x ((p.1.drop off).take x.old.length), off + x.old.length)) (s, 0)).1)
  | (.fault e r, s) => (.fault e r, s)
  | (.wait, s) => (.wait, s)

/-! ### Conversions of rows (R232, R280) -/

/-- R100: an element converted, RNE, subnormals kept. -/
def convElem (a b : Fmt) (sat : Bool) (c : Nat) : Nat × Flags :=
  let o := b.convert .rne sat false 0 (c / 2 ^ a.mag % 2 == 1) (a.decode c)
  (o.code, o.flags ||| Flags.when (a.isSnan c) Flags.inv)

/-- A row of elements of one format made another. -/
def convRow (a b : Fmt) (sat : Bool) (l : List Byte) : List Byte × Flags :=
  let n := l.length * 8 / a.width
  let os := (List.range n).map fun i => convElem a b sat (a.elemAt l i)
  (b.store (os.map Prod.fst), os.foldl (fun f o => f ||| o.2) 0)

/-- R280: the element format of an MX code of CONV or ROP. -/
def mxFmt (k : Nat) : Fmt := byteFmt (0x10 + k)

/-- The row-record size of one block. -/
def mxBlockBytes (f : Fmt) : Nat := f.mxRecord + 1

/-- R232, R280: is CONV listed, and what must ROWB be? -/
def convRowOk (conv rowb : Nat) : Bool :=
  match conv with
  | 0x00 | 0x03 | 0x04 => rowb % 4 == 0
  | 0x01 | 0x02 => rowb % 8 == 0
  | 0x05 | 0x06 => rowb % 16 == 0
  | 0x10 | 0x11 | 0x12 | 0x13 | 0x14 => rowb % 128 == 0
  | 0x15 => rowb == 65536
  | 0x18 | 0x19 => rowb % 33 == 0
  | 0x1A | 0x1B => rowb % 25 == 0
  | 0x1C => rowb % 17 == 0
  | 0x1D => rowb == 8576
  | _ => false
def convListed (conv : Nat) : Bool := conv ≤ 6 || (0x10 ≤ conv && conv ≤ 0x15) || (0x18 ≤ conv && conv ≤ 0x1D)

/-- One source row converted. -/
def copyRow (conv : Nat) (l : List Byte) : List Byte × Flags :=
  match conv with
  | 0x00 => (l, 0)
  | 0x01 => convRow .f32 .bf16 false l
  | 0x02 => convRow .f32 .f16 false l
  | 0x03 => convRow .bf16 .f32 false l
  | 0x04 => convRow .f16 .f32 false l
  | 0x05 => convRow .f32 .e4m3 true l
  | 0x06 => convRow .f32 .e5m2 false l
  | 0x15 =>
      let p := qnEncode (wordsOfBytes l)
      (p.1, p.2.foldl (fun f e => f ||| e.flags) 0)
  | 0x1D =>
      let os := (List.range 16384).map fun i => rneF32 (qnAt l i)
      (bytesOfWords (os.map Prod.fst), os.foldl (fun f o => f ||| o.2) 0)
  | _ =>
      if conv < 0x18 then
        let f := mxFmt (conv - 0x10)
        let bs := (chunks 32 l.length (wordsOfBytes l)).map (f.mxEncode fun _ => .exactRne)
        (f.mxRow bs, bs.foldl (fun a b => a ||| b.flags) 0)
      else
        let f := mxFmt (conv - 0x18)
        let os := (f.mxParse (l.length / mxBlockBytes f) l).flatMap f.mxDecode
        (bytesOfWords (os.map Prod.fst), os.foldl (fun a o => a ||| o.2) 0)

/-! ### Reductions (R232, R281, R285) -/

def ropListed (rop : Nat) : Bool := rop ≤ 4 || (0x10 ≤ rop && rop ≤ 0x14) || (0x18 ≤ rop && rop ≤ 0x1C)
def ropMx (rop : Nat) : Bool := 0x10 ≤ rop
/-- R281: the row rule of a ROP. -/
def ropRowOk (rop rowb : Nat) : Bool := if ropMx rop then rowb % mxBlockBytes (mxFmt (rop % 8)) == 0 else rowb % 4 == 0

/-- R285: contributions of one row combined in order: rows as bytes. -/
def combineRows (rop : Nat) (rows : List (List Byte)) : List Byte × Flags :=
  match rows with
  | [] => ([], 0)
  | r0 :: rest =>
      if rop = 0xFF then (r0, 0)
      else if ropMx rop then
        let f := mxFmt (rop % 8)
        let n := r0.length / mxBlockBytes f
        let parsed := rows.map (f.mxParse n)
        let bs := (List.range n).map fun j =>
          let cs := parsed.map fun p => p.getD j ⟨255, [], 0⟩
          if rop < 0x18 then f.mxSum cs else f.mxMax cs
        (f.mxRow bs, bs.foldl (fun a b => a ||| b.flags) 0)
      else
        let r := rest.foldl (fun (acc : List Word × Flags) row =>
          let ws := acc.1.zipWith (reduceWord rop) (wordsOfBytes row)
          (ws.map Prod.fst, ws.foldl (fun a w => a ||| w.2) acc.2)) (wordsOfBytes r0, 0)
        (bytesOfWords r.1, r.2)

/-! ### Running a copy -/

/-- A copy at work: the state, and the copy with what it has read and written so far. `part`: of the words that are
left, each is read or written now or not, as the part picks (R132, R233, R234); `short`: the row at hand lacks some. -/
structure CopyAcc where
  s : State
  cp : Copy
  part : Bool
  short : Bool
  fault : Option (Cause × Nat)
  wait : Bool

namespace CopyAcc

def start (s : State) (cp : Copy) (part : Bool) : CopyAcc := ⟨s, cp, part, false, none, false⟩
def stopped (a : CopyAcc) : Bool := a.fault.isSome || a.wait
/-- The next row begins. -/
def row (a : CopyAcc) : CopyAcc := { a with short := false }
/-- Whether a word is taken now. -/
def takes (a : CopyAcc) : Bool × CopyAcc :=
  if a.part then (let (b, s) := a.s.coin; (b, { a with s := s })) else (true, a)
/-- What stops a word: a copy that works in part leaves the word, a whole one stops. -/
def stop (a : CopyAcc) (s : State) (f : Option (Cause × Nat)) : CopyAcc :=
  if a.part then { a with s := s, short := true } else { a with s := s, fault := f, wait := f.isNone }

/-- One aligned source word: as it was read before, or read now. -/
def word (a : CopyAcc) (va : Nat) : List Byte × CopyAcc :=
  if a.stopped then ([], a)
  else match a.cp.got.find? va with
  | some b => (b, a)
  | none =>
      let (now, a) := a.takes
      if !now then (List.replicate 4 0, { a with short := true })
      else match copyRead a.s a.cp va 4 with
        | (.ok b, s) => (b, { a with s := s, cp := { a.cp with got := a.cp.got.set va b } })
        | (.fault e _, s) => (List.replicate 4 0, a.stop s (some (e, va)))
        | (.wait, s) => (List.replicate 4 0, a.stop s none)

/-- A source range, from its aligned words. -/
def read (a : CopyAcc) (va n : Nat) : List Byte × CopyAcc :=
  (cutWords va (List.replicate n 0)).foldl (fun (b, a) w =>
    let (x, a) := a.word (w.1 / 4 * 4)
    (b ++ (x.drop (w.1 % 4)).take w.2.length, a)) ([], a)

/-- A write of the copy, done once: its place in `made`, its stores. -/
def wrote (a : CopyAcc) (s : State) (key : Nat) (fl : Flags) : CopyAcc :=
  { a with
    s := s
    cp := { a.cp with
      made := key :: a.cp.made
      stores := a.cp.stores ++ List.range' a.s.hist.next (s.hist.next - a.s.hist.next)
      flags := a.cp.flags ||| fl } }

/-- The words of row `r` at a destination, written whole, each once; their flags. -/
def put (a : CopyAcc) (r va : Nat) (b : List Byte) (fl : Flags) : CopyAcc :=
  if a.stopped || a.short then a
  else (cutWords va b).foldl (fun a w =>
    let key := r * 2 ^ 64 + w.1
    if a.stopped || a.cp.made.contains key then a
    else
      let (now, a) := a.takes
      if !now then a
      else match copyWrite a.s a.cp w.1 w.2 with
        | (.ok _, s) => a.wrote s key 0
        | (.fault e _, s) => a.stop s (some (e, w.1))
        | (.wait, s) => a.stop s none) { a with cp := { a.cp with flags := a.cp.flags ||| fl } }

/-- An atomic update of a destination range, done once. -/
def upd (a : CopyAcc) (r va n : Nat) (f : List Byte → List Byte × Flags) : CopyAcc :=
  let key := r * 2 ^ 64 + va
  if a.stopped || a.short || a.cp.made.contains key then a
  else
    let (now, a) := a.takes
    if !now then a
    else match copyUpdate a.s a.cp va n f with
      | (.ok fl, s) => a.wrote s key fl
      | (.fault e _, s) => a.stop s (some (e, va))
      | (.wait, s) => a.stop s none

end CopyAcc

/-- R278: one row of a tile merged into its record, as bytes. -/
def sacMerge (init : Bool) (c ibase : Nat) (vals : List Word) (old : List Byte) : List Byte :=
  let w := fun i => if init then (0 : Word) else BitVec.ofNat 32 (natOfBytes ((old.drop (4 * i)).take 4))
  let maxv := if init then (0xFF80_0000 : Word) else w 0
  let esum := w 1
  let count := min (w 2).toNat c
  let fl := w 4 &&& 3
  let real := vals.filter fun v => !(f32Val v).isNan
  let m := real.foldl (fun a v => if selectsB true (f32Val a) (f32Val v) then v else a) maxv
  let pinf : Word := 0x7F80_0000
  let ninf : Word := 0xFF80_0000
  let es :=
    if m = pinf then
      addR (if maxv = pinf then esum else 0) (rneF32 (.ofInt (real.filter (· == pinf)).length)).1
    else if m = ninf then 0
    else
      let o := if maxv = ninf then 0 else mulR esum (expR (subR maxv m))
      addR o (real.foldl (fun a v => addR a (expR (subR v m))) 0)
  let held := (List.range count).map fun j => (w (8 + 2 * j), w (9 + 2 * j))
  let fresh := (vals.mapIdx fun j v => (v, BitVec.ofNat 32 (ibase + j))).filter fun p => !(f32Val p.1).isNan
  -- candidate order: value descending, index ascending
  let before := fun (a b : Word × Word) =>
    (f32Val b.1).below (f32Val a.1) || (!(f32Val a.1).below (f32Val b.1) && decide (a.2.toNat ≤ b.2.toNat))
  let ins := fun (l : List (Word × Word)) p => (l.takeWhile fun q => before q p) ++ p :: l.dropWhile fun q => before q p
  let cand := ((held ++ fresh).foldl ins []).take c
  let nseen := w 3 + BitVec.ofNat 32 vals.length
  let fl := fl ||| (if vals.any fun v => (f32Val v).isNan then 1 else 0) ||| if vals.any (· == pinf) then 2 else 0
  let head := bytesOfWords [m, es, BitVec.ofNat 32 cand.length, nseen, fl, 0, 0, 0] ++ bytesOfWords (cand.flatMap fun p => [p.1, p.2])
  head ++ old.drop head.length

/-- R380: the poison that a read-out of a tile meets in its window: where it stands, and its owner. -/
def Copy.tilePoison (cp : Copy) : Option (Nat × Byte) :=
  let d := cp.desc
  ((cp.tile.getD .zero).poison.find? fun i =>
    decide (fieldOf d 5 31 24 ≤ i / 256 ∧ i / 256 < fieldOf d 5 31 24 + fieldOf d 5 23 16
      ∧ fieldOf d 5 15 8 ≤ i % 256 ∧ i % 256 < fieldOf d 5 15 8 + fieldOf d 6 31 16)).map fun i =>
        ((clusterOf cp.core % 32 * 32 + fieldOf d 4 31 24) * 2 ^ 15 + i, BitVec.ofNat 8 cp.ctx)

/-- R277, R278: accrd. -/
def runAccrd (a : CopyAcc) : CopyAcc :=
  let d := a.cp.desc
  let t := a.cp.tile.getD .zero
  let f := byteFmt (fieldOf d 4 23 16)
  let plane := if fieldOf d 4 15 8 = 1 then t.var else t.mean
  let row0 := fieldOf d 5 31 24
  let col0 := fieldOf d 5 15 8
  let ncols := fieldOf d 6 31 16
  let val := fun i j => plane.findD ((row0 + i) * 256 + (col0 + j)) 0
  let vals := fun i => (List.range ncols).map (val i)
  let rows := List.range (fieldOf d 5 23 16)
  let a := if fieldOf d 4 2 2 = 1 then a else
    rows.foldl (fun a i =>
      let os := (vals i).map fun v => convElem .f32 f false v.toNat
      a.row.put i (addrAdd (dwordAt d 0) (i * signedAt d 7)) (f.store (os.map Prod.fst)) (os.foldl (fun x o => x ||| o.2) 0)) a
  if fieldOf d 4 0 0 = 1 then
    let c := fieldOf d 6 15 0
    rows.foldl (fun a i =>
      a.row.upd (256 + i) ((dwordAt d 2 + i * wordOf d 9) % 2 ^ 64) (32 + 8 * c) fun old =>
        (sacMerge (fieldOf d 4 1 1 == 1) c (wordOf d 8) (vals i) old, 0)) a
  else a

/-! Philox4x32-10 (R80, R81) serves the threads, the copy engine and the prompters alike. -/

/-- One round. -/
def philoxRound (k0 k1 : Nat) (c : List Nat) : List Nat :=
  let p0 := 0xD2511F53 * c.getD 0 0
  let p1 := 0xCD9E8D57 * c.getD 2 0
  [(p1 / 2 ^ 32) ^^^ c.getD 1 0 ^^^ k0, p1 % 2 ^ 32, (p0 / 2 ^ 32) ^^^ c.getD 3 0 ^^^ k1, p0 % 2 ^ 32]
def philoxRounds : Nat → Nat → Nat → List Nat → List Nat
  | 0, _, _, c => c
  | n + 1, k0, k1, c => philoxRounds n ((k0 + 0x9E3779B9) % 2 ^ 32) ((k1 + 0xBB67AE85) % 2 ^ 32) (philoxRound k0 k1 c)
/-- Philox4x32-10 of a key and a counter block: x0..x3. -/
def philox (key : Dword) (c : List Nat) : List Nat := philoxRounds 10 (key.toNat % 2 ^ 32) (key.toNat / 2 ^ 32) c

/-- R279: acccvt. -/
def runAcccvt (a : CopyAcc) : CopyAcc :=
  let d := a.cp.desc
  let t := a.cp.tile.getD .zero
  let ob := fieldOf d 4 23 16
  let f := byteFmt ob
  let mv := fieldOf d 4 4 4 == 1
  let sat := fieldOf d 4 3 3 == 1
  let rm := match fieldOf d 4 2 0 with
    | 0 => RM.rne | 1 => .rz | 2 => .rd | 3 => .ru | _ => .sr
  let row0 := fieldOf d 5 31 24
  let col0 := fieldOf d 5 15 8
  let nrows := fieldOf d 5 23 16
  let ncols := fieldOf d 6 31 16
  let scale := d.getD 9 0
  let seed := BitVec.ofNat 64 (dwordAt d 10)
  let draw := fun i j => if rm = .sr then
      (philox seed [(row0 + i) * 256 + (col0 + j), fieldOf d 4 31 24, 0, 0]).getD 0 0 % 65536 else 0
  let v := fun i j => onF32 (Fmt.f32.mul .exactRne (t.mean.findD ((row0 + i) * 256 + (col0 + j)) 0).toNat scale.toNat)
  -- round(round(SCALE²) × σ²) and the flags R72, R74 and R75 give its steps
  let sq := roundV false (f32Val scale).sq
  let var := fun i j =>
    let x := readVar false (t.var.findD ((row0 + i) * 256 + (col0 + j)) 0)
    let y := mulV false sq x.1
    (y.1, x.2 ||| y.2 ||| ovfFlags sq ((f32Val scale).isFin && !x.1.isZero))
  let rows := List.range nrows
  let cols := List.range ncols
  -- a row's element bytes, flags, and rounding variances
  let rowOf := fun i =>
    let vs := cols.map (v i)
    let fl0 := vs.foldl (fun x p => x ||| p.2) 0
    if isMxByte ob then
      let bs := (chunks 32 ncols (vs.map Prod.fst)).mapIdx fun b l => (l, f.mxEncode (fun j => ⟨rm, false, draw i (32 * b + j)⟩) l)
      let ws := (bs.mapIdx fun b (p : List Word × MxBlock) => p.1.mapIdx fun j x =>
        let k : Int := 127 - (p.2.scale : Int)
        let w := if p.2.scale = 255 then (nan32, (0 : Flags))
          else
            let y := (f32Val x).shift k
            f.roundVar rm y (f.mxElem ⟨rm, false, draw i (32 * b + j)⟩ p.2.scale (f32Val x))
        let z := varRound ((f32Val w.1).shift (2 * ((p.2.scale : Int) - 127)))
        (if p.2.scale = 255 then nan32 else z.1, w.2 ||| if (f32Val w.1).isFin then z.2 else 0)).flatten
      (f.mxRow (bs.map Prod.snd), bs.foldl (fun x p => x ||| p.2.flags) fl0, ws)
    else
      let os := vs.mapIdx fun j p =>
        let o := f.convert rm sat false (draw i j) (p.1.getLsbD 31) (f32Val p.1)
        (o, f.roundVar rm (f32Val p.1) o, Flags.when (Fmt.f32.isSnan p.1.toNat) Flags.inv)
      (f.store (os.map fun o => o.1.code), os.foldl (fun x o => x ||| o.1.flags ||| o.2.2) fl0, os.map fun o => o.2.1)
  let q := if ob = 0x20 then
      (chunks 16384 (nrows * ncols) (rows.flatMap fun i => cols.map fun j => (v i j).1)).map qnEncode
    else []
  let qe := q.flatMap Prod.snd
  let a :=
    if ob = 0x20 then
      let a := q.mapIdx (fun n p => (n, p)) |>.foldl (fun a p =>
        a.row.put p.1 ((dwordAt d 0 + 8576 * p.1) % 2 ^ 64) p.2.1 (p.2.2.foldl (fun x e => x ||| e.flags) 0)) a
      { a with cp := { a.cp with flags := a.cp.flags ||| rows.foldl (fun x i => cols.foldl (fun x j => x ||| (v i j).2) x) 0 } }
    else rows.foldl (fun a i =>
      let r := rowOf i
      a.row.put i (addrAdd (dwordAt d 0) (i * signedAt d 7)) r.1 r.2.1) a
  if !mv then a
  else rows.foldl (fun a i =>
    let ws := if ob = 0x20 then cols.map fun j => let e := qe.getD (i * ncols + j) ⟨0, 0, 0, 0⟩; (e.w, e.wFlags) else (rowOf i).2.2
    let os := ws.mapIdx fun j w =>
      let v := var i j
      let x := addV false v.1 (f32Val w.1)
      let fl := w.2 ||| v.2 ||| x.2
      if fieldOf d 4 15 8 = 0x15 then
        let o := Fmt.vf8.convert .rne false false 0 false x.1
        (o.code, fl ||| (o.flags &&& (Flags.of ||| Flags.nf ||| Flags.inv)))
      else ((wordOfNum x.1).toNat, fl)
    let g := if fieldOf d 4 15 8 = 0x15 then Fmt.vf8 else Fmt.f32
    a.row.put (256 + i) (addrAdd (dwordAt d 2) (i * signedAt d 8)) (g.store (os.map Prod.fst)) (os.foldl (fun x o => x ||| o.2) 0)) a

/-- R285: a collective's rows, from the contributions pulled, in ascending rank. -/
def runColl (a : CopyAcc) : CopyAcc :=
  let d := a.cp.desc
  let rop := fieldOf d 3 31 24
  let rowb := fieldOf d 3 23 0
  let acc := fieldOf d 7 15 15 == 1
  (List.range (fieldOf d 4 23 0)).foldl (fun a (i : Nat) =>
    let va := addrAdd (dwordAt d 0) ((i : Int) * signedAt d 5)
    let srcs := a.cp.pulled.values.map fun b => (b.drop (i * rowb)).take rowb
    let own := if acc then a.row.read va rowb else ([], a.row)
    let r := combineRows rop ((if acc then [own.1] else []) ++ srcs)
    own.2.put i va r.1 r.2) a

/-- R232, R233: cp.rows and cp.reduce. -/
def runRows (a : CopyAcc) : CopyAcc :=
  let d := a.cp.desc
  let conv := fieldOf d 4 31 24
  let rop := fieldOf d 5 31 24
  let rowb := fieldOf d 4 23 0
  (List.range (if rowb = 0 then 0 else fieldOf d 5 23 0)).foldl (fun a (i : Nat) =>
    let src := a.row.read (addrAdd (dwordAt d 0) (i * signedAt d 6)) rowb
    let va := addrAdd (dwordAt d 2) (i * signedAt d 7)
    if a.cp.kind = .reduce then
      -- a word at a time, or a row of MX records at a time for the MX operators
      if ropMx rop then src.2.upd i va rowb fun old => combineRows rop [old, src.1]
      else (cutWords va src.1).foldl (fun a w => a.upd i w.1 w.2.length fun old => combineRows rop [old, w.2]) src.2
    else
      let r := copyRow conv src.1
      src.2.put i va r.1 r.2) a

/-- The ranges a copy reads or writes by address: where each begins, and its bytes. -/
def Copy.ranges (cp : Copy) : List (Nat × Nat) :=
  let d := cp.desc
  let at_ := fun (base : Nat) (str : Int) (n len : Nat) => (List.range n).map fun (i : Nat) => (addrAdd base (i * str), len)
  let rowb := fieldOf d 4 23 0
  let rows := fieldOf d 5 23 16
  let cols := fieldOf d 6 31 16
  let sized := fun (f : Fmt) => (f.store (List.replicate cols 0)).length
  match cp.kind with
  | .rows => at_ (dwordAt d 0) (signedAt d 6) (fieldOf d 5 23 0) rowb
      ++ at_ (dwordAt d 2) (signedAt d 7) (fieldOf d 5 23 0) (copyRow (fieldOf d 4 31 24) (List.replicate rowb 0)).1.length
  | .reduce => at_ (dwordAt d 0) (signedAt d 6) (fieldOf d 5 23 0) rowb ++ at_ (dwordAt d 2) (signedAt d 7) (fieldOf d 5 23 0) rowb
  | .coll => at_ (dwordAt d 0) (signedAt d 5) (fieldOf d 4 23 0) (fieldOf d 3 23 0)
  | .accrd => (if fieldOf d 4 2 2 = 1 then [] else at_ (dwordAt d 0) (signedAt d 7) rows (sized (byteFmt (fieldOf d 4 23 16))))
      ++ (if fieldOf d 4 0 0 = 1 then at_ (dwordAt d 2) (wordOf d 9) rows (32 + 8 * fieldOf d 6 15 0) else [])
  | .acccvt =>
      let ob := fieldOf d 4 23 16
      (if ob = 0x20 then [(dwordAt d 0, rows * cols / 16384 * 8576)]
        else at_ (dwordAt d 0) (signedAt d 7) rows (if isMxByte ob then cols / 32 * mxBlockBytes (byteFmt ob) else sized (byteFmt ob)))
      ++ (if fieldOf d 4 4 4 = 1 then
            at_ (dwordAt d 2) (signedAt d 8) rows (sized (if fieldOf d 4 15 8 = 0x15 then Fmt.vf8 else Fmt.f32)) else [])

/-- The first address of a slot of the flat aperture (R111). -/
def slotStart (slot : Nat) : Nat := flatBase + slot * bankBytes

/-- R140, R142: copies that threads of a core have issued are in flight, and read or write a bank through a slot of it. -/
def copiesOn (s : State) (core bank : Nat) : Bool :=
  s.copies.values.any fun cp => cp.core == core && (List.range 8).any fun k => slotBank s core k == some bank
    && cp.ranges.any fun r => decide (r.1 < slotStart k + bankBytes ∧ slotStart k < r.1 + r.2)

/-- What is left of a copy, or, in part, some of it. -/
def runCopy (s : State) (cp : Copy) (part : Bool) : CopyAcc :=
  let a := CopyAcc.start s cp part
  match cp.kind with
  | .rows | .reduce => runRows a
  | .coll => runColl a
  -- a poisoned element stops a read-out before it writes (R234, R380)
  | .accrd => if cp.tilePoison.isSome then a.stop s (some (.memerr, dwordAt cp.desc 0)) else runAccrd a
  | .acccvt => if cp.tilePoison.isSome then a.stop s (some (.memerr, dwordAt cp.desc 0)) else runAcccvt a

/-- R132, R233: the words a copy reads and writes now, some of those left; `ready` false: none (a collective whose tiles
are not all there). -/
def copySome (s : State) (cp : Copy) (ready : Bool) : Copy × State :=
  if ready then let a := runCopy s cp true; (a.cp, a.s) else (cp, s)

/-- R321: a copy discarded before it completed: which of its words it had written is not defined. -/
def discardCopy (s : State) (id : Nat) : State :=
  match s.copies.find? id with
  | none => s
  | some cp =>
      let (_, s) := copySome s cp (cp.kind != .coll || cp.pulled.size != 0)
      { s with copies := s.copies.erase id }

end Sys2Proof.Machine
end

