-- ==== Sys2Proof/Machine/Ops.lean ====
section
/-! DEFINITION. Named operations on threads: waits and their release (R27, R43, R245), cue queues (R238, R239),
exit (R45, R251), ending a context (R321), curtains and debug events (R331), and taking a trap (R316..R319)
with the return from it (R320). -/

namespace Sys2Proof.Machine

/-! ### Threads -/

/-- A thread becomes READY. -/
def setReady (s : State) (t : Nat) : State :=
  s.onThread t fun th => { th with held := .ready, why := .none, readyAt := s.clk, passed := 0 }
/-- A thread is held STALLED at the word `pc`. -/
def stall (s : State) (t : Nat) (pc : Dword) (w : Why) : State :=
  s.onThread t fun th => { th with held := .stalled, why := w, pc := pc }
/-- A thread is held WAITING at the word `pc`. -/
def waitAt (s : State) (t : Nat) (pc : Dword) (w : Why) : State :=
  s.onThread t fun th => { th with held := .waiting, why := w, pc := pc }

/-- R51: an event that could complete a wait of a saved block queues it for relaunch. -/
def queueBlock (s : State) (b : Nat) : State :=
  s.onBlock b fun x => { x with save := match x.save with
    | .saved f n => .queued f n
    | y => y }

/-- A held thread goes on at PC + 8, READY; a saved block it belongs to is queued (R51). -/
def release8 (s : State) (t : Nat) : State :=
  let s := s.onThread t fun th => { th with pc := th.pc + 8 }
  queueBlock (setReady s t) (s.blockIdOf t)

/-- R128: threads released together synchronise: each acquires what every one of them released. -/
def syncAll (s : State) (ts : List Nat) : State :=
  let (l, s) := ts.foldl (fun (l, s) t => let (x, s) := releaseSet s t; (unionN l x, s)) ([], s)
  ts.foldl (fun s t => acquireOf s t l) s

/-- A performance counter of a core goes up (R329). -/
def pmc (s : State) (core n k : Nat) : State := sysPut s (RegNo.pmc n) core (sysGet s (RegNo.pmc n) core + BitVec.ofNat 64 k)

/-- R67, R120, R133: no result, access, store-stream word or sealed copy of the thread is outstanding. -/
def drained (s : State) (t : Nat) : Bool :=
  let th := s.thread t
  th.pend.isEmpty && th.out.isEmpty && th.batches.all (fun b => b.copies.isEmpty)
    && (th.ports.filter fun p l => decide (4 ≤ p) && !l.isEmpty).items.isEmpty
/-- No access or store-stream word of the thread is outstanding. -/
def accessesDone (s : State) (t : Nat) : Bool :=
  let th := s.thread t
  th.out.isEmpty && (th.ports.filter fun p l => decide (4 ≤ p) && !l.isEmpty).items.isEmpty

/-! ### Releases and acquires of accesses (R116, R120, R121) -/

def Order.acquires : Order → Bool
  | .acq | .ar => true
  | _ => false
def Order.releases : Order → Bool
  | .rel | .ar => true
  | _ => false

/-- R371: a store of a set lies in a write-back that a fault record holds. -/
def wbHolds (s : State) (p : Nat) (stores : List Nat) : Bool :=
  (s.part p).faults.values.any fun f => f.wbs.any fun x =>
    (List.range 128).any fun i =>
      match s.hist.bytes.find? (histKey ⟨x.die, x.line * 128, x.dieLocal, false, 0, 0⟩ i) with
      | some b => b.stores.any fun e => stores.contains e.1
      | none => false

/-- R120, R133, R227: a thread may perform a release: its accesses, store-stream words and sealed copies are
performed, and no write-back of what it publishes is held. -/
def canRelease (s : State) (t : Nat) : Bool :=
  accessesDone s t && ((s.thread t).batches.all fun b => b.copies.isEmpty)
    && !wbHolds s (s.partOf t) (unionN (s.hist.own t) (s.thread t).snap.need)

/-- R67: a thread's arrival may be recorded: every earlier instruction of it has written its result, and it may
release. -/
def canArrive (s : State) (t : Nat) : Bool := (s.thread t).pend.isEmpty && canRelease s t

/-- An acquire of the thread is on its way: what follows in program order awaits it. -/
def acquiring (th : Thread) : Bool := th.out.any fun r => Order.acquires r.order

/-! ### Room (R27, R234, R322) -/

/-- R322: a free entry of the operand log: 256, of which U threads use 240 at most. -/
def freeEntry (s : State) (core : Nat) (priv : Bool) : Option Nat :=
  let l := (s.core core).log
  if l.size < 256 ∧ (priv = true ∨ (l.filter fun _ e => !e.priv).size < 240) then some (l.fresh 0 256) else none

/-- Copies of a core in flight. -/
def copiesOf (s : State) (core : Nat) : Nat := (s.copies.filter fun _ cp => cp.core == core).size

/-- R166: a thread with an xop outstanding names its destination. -/
def xopPending (s : State) (t : Nat) : Bool := s.dies.values.any fun d => d.xops.any fun x => x.tid == t

/-! ### Masks (R43..R45) -/

def maskOf (g : Group) (n : Nat) : MaskReg := g.m.findD n .zero
def setMask (s : State) (g n : Nat) (x : MaskReg) : State := s.onGroup g fun y => { y with m := y.m.set n x }

/-- The threads of a group in a set of lanes. -/
def lanesIn (s : State) (g : Nat) (m : Word) : List Nat :=
  (s.threads.filter fun _ th => th.group == g && m.getLsbD th.lane).keys

/-- check(mN). -/
def checkMask (s : State) (g n : Nat) : State :=
  let x := maskOf (s.group g) n
  if x.a ≠ 0 ∧ x.m &&& ~~~x.a = 0 then
    let ts := (lanesIn s g x.a).filter fun t => (s.thread t).why == .mask n
    let s := syncAll s ts
    setMask (ts.foldl release8 s) g n { x with a := 0 }
  else s

/-! ### Block barriers (R245) -/

def barWaiters (s : State) (b id : Nat) : List Nat := (s.block b).threads.filter fun t => (s.thread t).why == .barBlk id

/-- The phase completes: its waiters leave and the arrivals return to 0. -/
def barRelease (s : State) (b id : Nat) : State :=
  let ts := barWaiters s b id
  let s := ts.foldl release8 (syncAll s ts)
  s.onBlock b fun x => { x with bars := x.bars.update id .zero fun y => { y with arrivals := 0 } }

/-- R245: has the phase completed? With count 0 every non-exited thread must have arrived. -/
def barCheck (s : State) (b id : Nat) : State :=
  let x := (s.block b).bars.findD id .zero
  if x.arrivals = 0 then s
  else if x.count = 0 then
    (if (s.blockLive b).all fun t => (s.thread t).why == .barBlk id then barRelease s b id else s)
  else if x.arrivals ≥ x.count then barRelease s b id else s

/-! ### Convergence registers (R259..R261) -/

/-- The core and the cluster a block stands on. -/
def blockCore (s : State) (b : Nat) : Nat := (s.group ((s.block b).groups.headD 0)).core
def blockCluster (s : State) (b : Nat) : Nat := clusterOf (blockCore s b)
def cvOf (s : State) (b n : Nat) : Cv := (s.block b).cvs.findD n .zero
def setCv (s : State) (b n : Nat) (x : Cv) : State := s.onBlock b fun y => { y with cvs := y.cvs.set n x }

/-- check(): a posted pass with its signatures becomes eligible. -/
def cvCheck (s : State) (b n : Nat) : State :=
  let x := cvOf s b n
  let need := if x.need = 0 then (s.blockLive b).length else x.need
  if x.state = .posted ∧ x.signed ≥ need then
    let s := setCv s b n { x with signed := x.signed - need, state := .eligible }
    match x.entry with
    | none => s
    | some e => s.onCluster (blockCluster s b) fun c => { c with table := c.table.modify e fun y => { y with eligibleAt := s.clk, asOf := s.flats } }
  else s

/-! ### Convergence registers and the table (R260) -/

/-- The entry bound to a convergence register, or a free one; none while all 32 are in use. R260 says "a free entry": the
model takes the lowest (DESIGN CHOICE, log entry 67), which R270's last tie-break can show. -/
def entryFor (s : State) (b n : Nat) : Option Nat :=
  match (cvOf s b n).entry with
  | some e => some e
  | none =>
      let t := (s.cluster (blockCluster s b)).table
      if 32 ≤ t.size then none else some (t.fresh 0 32)

/-! ### Taking a flat (R242) -/

/-- R242: what take writes. -/
def takeWord (bank : Nat) (ro : Bool) : Word := BitVec.ofNat 32 (bank + if ro then 256 else 0)

/-- A slot of a core has been given a bank: the threads that wait to take it go on. -/
def attachWake (s : State) (core slot : Nat) : State :=
  match slotBank s core slot with
  | none => s
  | some b =>
      let w := takeWord b (slotRo s core slot)
      (s.threads.keys.filter fun t => s.coreOf t == core && (s.blockOf t).save == .resident && match (s.thread t).why with
        | .take k _ => k == slot
        | _ => false).foldl (fun s t =>
          match (s.thread t).why with
          | .take _ d => release8 (s.onThread t fun th => { th with v := th.v.set d w }) t
          | _ => s) s

/-! ### Cue queues (R238, R239, R356) -/

/-- The end marker. -/
def endMarker : Dword := 0xFFFF_FFFF_FFFF_FFFF

/-- A thread takes an entry: the pair is written, the push's stores are acquired at .dev, the wait ends. -/
def cueDeliver (s : State) (t dst : Nat) (e : Dword) (stores : List Nat) : State :=
  let s := acquireOf s t (unionN stores s.hist.dev)
  s.onThread t fun th => { th with v := (th.v.set dst (e.setWidth 32)).set (dst + 1) ((e >>> 32).setWidth 32) }

/-- The head entry leaves a queue; the end marker stays. -/
def cueDrop (s : State) (p h : Nat) : State :=
  s.onPart p fun x => { x with cues := x.cues.modify h fun q => match q.entries with
    | e :: r => if e.1 = endMarker then q else { q with entries := r, head := (q.head + 1) % q.cap }
    | [] => q }

/-- Waiting pops served in their order, as far as entries reach; those of saved blocks are passed over, their
blocks queued for relaunch (R51, R256). -/
def cueServe (s : State) (p h : Nat) : Nat → State
  | 0 => s
  | fuel + 1 =>
      match (s.part p).cues.find? h with
      | none => s
      | some q =>
          match q.entries, q.waiters.find? fun t => (s.blockOf t).save == .resident with
          | e :: _, some t =>
              match (s.thread t).why with
              | .cue _ d =>
                  let s := cueDeliver s t d e.1 e.2
                  let s := s.onPart p fun x => { x with cues := x.cues.modify h fun q => { q with waiters := q.waiters.filter (· != t) } }
                  cueServe (release8 (cueDrop s p h) t) p h fuel
              | _ => s
          | _, _ => s

/-- An entry enters a queue at its tail, with what its push releases; the ring in memory is written where the
runtime context reaches it. -/
def cueEnter (s : State) (p h : Nat) (e : Dword) (stores : List Nat) : State :=
  match (s.part p).cues.find? h with
  | none => s
  | some q =>
      let s := agentPut s p [] (q.ring + 8 * ((q.head + q.entries.length) % q.cap)) (bytesOfNat 8 e.toNat)
      let s := s.onPart p fun x => { x with cues := x.cues.modify h fun q => { q with entries := q.entries ++ [(e, stores)] } }
      let saved := q.waiters.filter fun t => (s.blockOf t).save != .resident
      let s := saved.foldl (fun s t => queueBlock s (s.blockIdOf t)) s
      cueServe s p h (q.waiters.length + 1)

def cueFull (s : State) (p h : Nat) : Bool :=
  match (s.part p).cues.find? h with
  | none => true
  | some q => decide (q.cap ≤ q.entries.length)

/-- R319, R370: an entry pushed as a release at .dev of given stores; held while its queue is full. -/
def devPush (s : State) (p h : Nat) (e : Dword) (stores : List Nat) : State :=
  let (_, s) := publish s .device .dev stores false
  if cueFull s p h then s.onPart p fun x => { x with heldTraps := x.heldTraps ++ [(h, e)] } else cueEnter s p h e stores

/-- A record written for a partition, then the entry that tells of it; where LOCK holds the record, the entry waits. -/
def recordPush (s : State) (p : Nat) (rec : Option (Nat × List Byte)) (h : Nat) (e : Dword) : State :=
  match rec with
  | none => devPush s p h e []
  | some (va, b) =>
      let n := s.hist.next
      match agentWrite s p [] va b with
      | (.wait, s) => keepLate s p ⟨va, b, [], some (h, e)⟩
      | (_, s) => devPush s p h e (List.range' n (s.hist.next - n))

/-- R369: the held writes of a partition are translated again, in their order. -/
def runLate (s : State) (p : Nat) : State :=
  (s.part p).late.foldl (fun s x => match x.push with
    | none => agentPut s p x.rels x.va x.data
    | some (h, e) => recordPush s p (some (x.va, x.data)) h e) (s.onPart p fun y => { y with late := [] })

/-- R319: entries of traps held while their queue was full are pushed as entries leave. -/
def heldTraps (s : State) (p h : Nat) : Nat → State
  | 0 => s
  | fuel + 1 =>
      match (s.part p).heldTraps.find? fun e => e.1 == h with
      | some e =>
          if cueFull s p h then s
          else
            let s := s.onPart p fun x => { x with heldTraps := x.heldTraps.erase e }
            heldTraps (cueEnter s p h e.2 s.hist.dev) p h fuel
      | none => s

/-- A pop that finds an entry and no earlier waiter. -/
def cueTake (s : State) (p h t dst : Nat) : Option State :=
  match (s.part p).cues.find? h with
  | none => none
  | some q =>
      match q.entries with
      | [] => none
      | e :: _ =>
          let s := cueDrop (cueDeliver s t dst e.1 e.2) p h
          some (heldTraps s p h (s.part p).heldTraps.length)

/-! ### exit (R45, R251) -/

/-- Staged and posted entries of a block leave the reservation table (R51, R260). -/
def dropEntries (s : State) (b : Nat) : State :=
  s.onCluster (blockCluster s b) fun c =>
    { c with table := c.table.filter fun _ e =>
        !(e.block == b && ((cvOf s b e.cv).state == .opened || (cvOf s b e.cv).state == .posted)) }

/-- A thread enters EXITED: its mask bits go, block barriers of count 0 and convergence registers are checked,
its ports close; the last exit of a block discards what it staged or posted and never ran. -/
def exitThread (s : State) (t : Nat) : State :=
  let th := s.thread t
  let g := th.group
  let b := s.blockIdOf t
  let bit : Word := 1#32 <<< th.lane
  let s := s.onThread t fun x =>
    { x with held := .exited, why := .none, tc := false, dc := false,
             ports := x.ports.filter fun p _ => decide (4 ≤ p)
             out := x.out.filter fun (r : Req) => match r.acc with
               | .qload _ => false
               | _ => true }
  let s := s.onGroup g fun x =>
    { x with
      m := x.m.mapKV fun _ y => { y with m := y.m &&& ~~~bit, a := y.a &&& ~~~bit }
      gathers := x.gathers.map fun y => { y with parts := y.parts.filter (· != t), arrived := y.arrived.filter (· != t) } }
  let s := (List.range 12).foldl (fun s n => checkMask s g n) s
  let s := (List.range 16).foldl (fun s n => barCheck s b n) s
  let s := (List.range 16).foldl (fun s n => cvCheck s b n) s
  if (s.blockLive b).isEmpty then dropEntries s b else s

/-! ### Ending a context or a launch (R321, R354) -/

/-- The lanes of threads, as a mask. -/
def lanesOf (s : State) (ts : List Nat) : Word := ts.foldl (fun (m : Word) t => m ||| (1#32 <<< (s.thread t).lane)) 0

/-- Every thread of some launches exits, what it has in flight is discarded, and the launches end with a status. -/
def endLaunches (s : State) (ts : List Nat) (hit : Launch → Bool) (st : LaunchStatus) : State :=
  let s := (s.copies.filter fun _ cp => ts.contains cp.tid).keys.foldl discardCopy s
  let s := s.onThreads ts fun _ th =>
    { th with held := .exited, why := .none, tc := false, dc := false, out := [], pend := [], ports := Sparse.empty,
              unsealed := Batch.empty, batches := [] }
  let s := { s with groups := s.groups.mapKV fun g (x : Group) =>
    let gone := lanesOf s (ts.filter fun t => (s.thread t).group == g)
    { x with
      m := x.m.mapKV fun _ y => { y with m := y.m &&& ~~~gone, a := y.a &&& ~~~gone }
      gathers := x.gathers.map fun (y : Gather) =>
        { y with parts := y.parts.filter (fun t => !ts.contains t), arrived := y.arrived.filter fun t => !ts.contains t } } }
  let ours : Block → Bool := fun b => hit (s.launch b.launch)
  let s := { s with
    cores := s.cores.mapKV fun _ k =>
      { k with
        log := k.log.filter fun _ e => !(e.threads.any ts.contains)
        bundles := k.bundles.filter fun b => !(b.any ts.contains)
        buckets := k.buckets.map fun (b : Bucket) => { b with threads := b.threads.filter fun t => !ts.contains t } }
    clusters := s.clusters.mapKV fun _ k =>
      { k with table := k.table.filter fun i e =>
          !ours (s.block e.block) || k.granted.any fun r => r.entry == i }
    dies := s.dies.mapKV fun _ d => { d with xops := d.xops.filter fun x => !ts.contains x.tid } }
  let gone : List (Nat × Nat × Nat) := (s.blocks.values.filter ours).filterMap fun b => match b.save with
    | SaveSt.saved o n | SaveSt.queued o n => some ((s.launch b.launch).part, o, n)
    | _ => none
  let s := { s with
    parts := s.parts.mapKV fun i p =>
      { p with
        cues := p.cues.mapKV fun _ q => { q with waiters := q.waiters.filter fun t => !ts.contains t }
        ready := p.ready.filter fun r => !ts.contains r.thread
        frames := p.frames.filter fun f => !gone.contains (i, f.1, f.2) } }
  { s with
    blocks := s.blocks.mapKV fun _ b => if ours b then { b with save := .resident, withdrawn := [] } else b
    launches := s.launches.mapKV fun _ l => if hit l && l.ended.isNone && l.retire == Retire.live then { l with ended := some st } else l }

/-- R321: every thread of a context exits and its launches end KILLED. -/
def endContext (s : State) (c : Nat) : State := endLaunches s (s.ctxThreads c) (fun l => l.ctx == c) .killed

/-! ### Triggers and curtains (R331, R413) -/

/-- R413: a trigger fires an armed tableau that selects it. -/
def fireTableau (s : State) (p code : Nat) (h : Word) (always : Bool) : State :=
  let x := (s.part p).tableau
  if x.armed && !x.fired && (always || x.trig.testBit code) then
    s.onPart p fun y => { y with tableau := { x with fired := true, code := code, thread := h } }
  else s

/-- DBG_CTLc.EV goes to 1; MSI-X vector 1 is raised where it was 0 (R390). -/
def setEv (s : State) (c p : Nat) : State :=
  if sysBits s (RegNo.dbgCtl c) 0 8 8 = 1 then s
  else raiseMsix (sysPutBits s (RegNo.dbgCtl c) 0 8 8 1) p 1

/-- The trap codes of R316. -/
def Cause.code : Cause → Byte
  | .undef => 0x01 | .priv => 0x02 | .vaRange => 0x03 | .vaPerm => 0x04 | .misaligned => 0x05
  | .flatDetached => 0x06 | .flatReadonly => 0x07 | .loftRange => 0x08 | .qportUnbound => 0x09
  | .cpDesc => 0x0A | .cueUnbound => 0x0B | .mxDesc => 0x0C | .mxState => 0x0D
  | .pageFault => 0x10 | .stableWrite => 0x11 | .fetchFault => 0x12 | .fetchPerm => 0x13 | .memerr => 0x18
  | .trap => 0x20 | .brk => 0x21 | .ibrk => 0x22 | .watch => 0x23

/-- What a trap reports. -/
structure TrapInfo where
  cause : Cause
  /-- address of the trapping word -/
  pc : Dword
  /-- the instruction word -/
  word : Dword
  /-- effective or fetch address, 0 where the cause has none -/
  ea : Nat
  /-- the code of trap or brk, or the issue's count of faulted threads -/
  code : Nat
  /-- a late fault, denied: the instruction waits in the operand log -/
  logged : Bool
deriving DecidableEq, Repr

def TrapInfo.at (c : Cause) (pc word : Dword) : TrapInfo := ⟨c, pc, word, 0, 0, false⟩

/-! ### Late results (R56) -/

/-- R58: a predicate written; a write of p7 is discarded. -/
def setPred (x : BitVec 7) (n : Nat) (b : Bool) : BitVec 7 :=
  if n = 7 then x else if b then x ||| (1#7 <<< n) else x &&& ~~~(1#7 <<< n)

/-- R226: the virtual address of row `row` of a stream for a lane. -/
def streamVa (q : QBind) (row lane : Nat) : Nat :=
  (q.base + BitVec.ofInt 64 (row * q.rstr.toInt + lane * q.lstr.toInt)).toNat
/-- R226: the next entry of a store stream, pushed by the word `iw` at `pc`. -/
def Thread.pushPort (th : Thread) (p : Nat) (w : Word) (pc iw : Dword) : Thread :=
  { th with ports := th.ports.update p [] fun l => l ++ [⟨th.rows.findD p 0, w, none, pc, iw⟩], rows := th.rows.update p 0 (· + 1) }
/-- A word read ahead enters a load stream's port, in order of rows. -/
def Thread.arrive (th : Thread) (p : Nat) (e : PortEntry) : Thread :=
  { th with ports := th.ports.update p [] fun l => (l.takeWhile fun x => decide (x.row < e.row)) ++ e :: l.dropWhile fun x => decide (x.row < e.row) }
/-- The word a pop of a load port would take, once it is there. -/
def Thread.headWord (th : Thread) (p : Nat) : Option PortEntry :=
  ((th.ports.findD p []).head?).filter fun e => e.row == th.rows.findD p 0
/-- What a load stream has read ahead, or is reading, is dropped: its next word is that of the thread's row. -/
def Thread.rewindPort (th : Thread) (p : Nat) : Thread :=
  { th with ports := th.ports.set p [], moved := th.moved.set p (th.rows.findD p 0)
            out := th.out.filter fun (r : Req) => r.acc != Acc.qload p }
/-- R59: the head entry of a load port leaves it. -/
def Thread.popPort (th : Thread) (p : Nat) : Thread :=
  { th with ports := th.ports.update p [] List.tail, rows := th.rows.update p 0 (· + 1) }

/-- What a late result writes: the registers and their words, but for those a debugger has written since (R83). -/
def Pend.writes (p : Pend) : List (Nat × Word) := (p.dst.zip (p.vals.getD [])).filter fun e => e.1 != 1024

/-- A late result written into its thread. -/
def applyPend (p : Pend) (th : Thread) : Thread :=
  let th := { th with pend := th.pend.filter fun x => x.id != p.id }
  match p.port with
  | some q => th.pushPort q ((p.vals.getD []).headD 0) p.pc p.iw
  | none =>
      if p.uniform then th
      else if p.pred then { th with p := p.writes.foldl (fun v e => setPred v e.1 (e.2 != 0)) th.p }
      else { th with v := p.writes.foldl (fun v e => v.set e.1 e.2) th.v }

/-- R56: no register of a thread, nor a uniform one of its group, awaits a late result. -/
def noneAwaited (s : State) (t : Nat) : Bool :=
  (s.thread t).pend.isEmpty && (s.groupThreads (s.thread t).group).all fun u => (s.thread u).pend.all fun p => !p.uniform

/-- A late result lands: its registers are written, its flags ORed (R67), and threads stalled on a result go on. -/
def landPend (s : State) (t : Nat) (p : Pend) : State :=
  let g := (s.thread t).group
  let s := s.onThread t (applyPend p)
  let s := s.onGroup g fun x =>
    { x with
      fsr := x.fsr ||| p.flags
      k := if p.uniform then p.writes.foldl (fun v e => v.set e.1 e.2) x.k else x.k }
  let ts := if p.uniform then s.groupThreads g else [t]
  (ts.filter fun u => (s.thread u).held == .stalled && (s.thread u).why == .result && noneAwaited s u).foldl setReady s

/-- R317: special-function and lane-operation results are written before a trap. -/
def settleSfu (s : State) (t : Nat) : State :=
  ((s.thread t).pend.filter fun p => p.sfu && p.vals.isSome).foldl (fun s p => landPend s t p) s

/-- R319: the address of a thread's trap record, where DISP_TRAPAREA gives an area. -/
def recordAddr (s : State) (p t : Nat) : Option Nat :=
  let b := (sysGet s RegNo.trapArea p).toNat
  let g := s.groupOf t
  if b = 0 then none else some (b + 64 * (6144 * g.core + 32 * g.slot + (s.thread t).lane))

/-- R319: the 64-byte record. -/
def trapRecord (s : State) (t : Nat) (i : TrapInfo) : List Byte :=
  bytesOfNat 8 i.pc.toNat ++ bytesOfNat 8 i.ea ++ [i.cause.code, if i.logged then 1 else 0, 0, 0] ++ bytesOfNat 4 i.code
    ++ bytesOfNat 4 (s.handle t).toNat ++ bytesOfNat 4 0 ++ bytesOfNat 8 i.word.toNat ++ List.replicate 24 0

/-- The record of a debug curtain written, where it can be. -/
def putRecord (s : State) (t : Nat) (i : TrapInfo) : State :=
  match recordAddr s (s.partOf t) t with
  | none => s
  | some a => agentPut s (s.partOf t) [] a (trapRecord s t i)

/-- R331: a debug event of a U thread: DC, the record without a push, EV, and DC of the scope's other threads. -/
def debugCurtain (s : State) (t : Nat) (i : TrapInfo) (scope : Bool) : State :=
  let p := s.partOf t
  let c := s.ctxOf t
  let s := s.onThread t fun th => { th with dc := true, cause := i.cause.code }
  let s := setEv (putRecord s t i) c p
  let s := if i.cause = .brk then s else fireTableau s p 0 (s.handle t) false
  let others :=
    if !scope then []
    else match sysBits s (RegNo.dbgCtl c) 0 1 0 with
      | 1 => s.live (s.thread t).group
      | 2 => s.blockLive (s.blockIdOf t)
      | _ => []
  let others := others.filter fun u => !s.privOf u
  (others.foldl settleSfu s).onThreads others fun _ th => { th with dc := true }

/-- R319: the queue of DISP_TRAPQc, where it names one registered and within the runtime context's reach. -/
def trapQueue (s : State) (p c : Nat) : Option Nat :=
  let h := (sysGet s (RegNo.trapQ c) 0).toNat
  if h = 0 ∨ !(s.part p).cues.has h then none
  else match s.runtime p with
    | none => none
    | some r => match viaWindows s r true h ⟨true, false, false⟩ with
        | .ok _ => some h
        | .error _ => none

/-- R319: an S trap: the record, then the entry pushed as a release at .dev; the thread behind TC. Without a
queue the context ends, except that a runtime thread alone exits. -/
def sTrap (s : State) (t : Nat) (i : TrapInfo) : State :=
  let p := s.partOf t
  let c := if s.privOf t then (s.runtime p).getD (s.ctxOf t) else s.ctxOf t
  let s := s.onThread t fun th => { th with tc := true, cause := i.cause.code }
  let s := fireTableau s p 1 (s.handle t) false
  let e : Dword := BitVec.ofNat 64 ((s.handle t).toNat + i.cause.code.toNat * 2 ^ 32)
  match trapQueue s p c with
  | some h => recordPush s p ((recordAddr s p t).map fun a => (a, trapRecord s t i)) h e
  | none =>
      let s := putRecord s t i
      if s.privOf t then exitThread (hlkErr s p 4 (s.handle t).toNat) t
      else endContext s c

/-- R318: a plain store of the trap record by the thread, where it can be made. -/
def handlerRecord (s : State) (t : Nat) (i : TrapInfo) : State :=
  let pkt := (s.launchOf t).pkt
  let b := s.blockOf t
  let a := pkt.trapBase.toNat + 32 * (b.lin * (pkt.bx * pkt.by_ * pkt.bz) + (s.thread t).lin)
  if pkt.trapBase = 0 then s
  else
    let bytes := bytesOfNat 8 i.pc.toNat ++ bytesOfNat 8 (if i.cause = .flatDetached then i.ea else 0)
      ++ [i.cause.code, 0, 0, 0] ++ bytesOfNat 4 (if i.cause = .flatDetached then 0 else i.code) ++ bytesOfNat 8 i.word.toNat
    match targetOf s (s.ctxOf t) (s.coreOf t) (s.privOf t) a ⟨false, true, false⟩ with
    | .error _ => s
    | .ok (.flat d bk o) => flatWrite s d bk o bytes
    | .ok (.mem l) => match writeLoc s l (storeOf s t []) false bytes with
        | (.wait, s) =>
            -- LOCK holds the store, and the thread until it is performed (R369)
            let (n, s) := s.tick
            s.onThread t fun th =>
              { th with held := .stalled, why := .close,
                        out := th.out ++ [⟨n, .record, none, a, l, 32, false, true, .none, .blk, wordsOfBytes bytes, .sent, false, none⟩] }
        | (_, s) => s

/-- R318: the handler of a cause, where the kernel declares one. -/
def handlerOf (s : State) (t : Nat) (c : Cause) : Option Dword :=
  let pkt := (s.launchOf t).pkt
  let h := match c with
    | .flatDetached => pkt.hflat
    | .trap => pkt.htrap
    | .brk => pkt.hbrk
    | _ => 0
  if h = 0 then none else some h

/-- TAKING A TRAP, the one operation behind every cause of R316: results of special functions land (R317); then
the U handler is entered (R318), a debug curtain falls (R331), or an S trap is taken (R319). The thread stands at
`pc`, as it stood before the word. -/
def takeTrap (s : State) (t : Nat) (i : TrapInfo) : State :=
  if (s.thread t).held = .exited then s else
  let s := settleSfu s t
  let s := s.onThread t fun th => { th with trapPc := i.pc }
  let s := if i.logged ∨ i.cause = .memerr then s else
    s.onThread t fun th => { th with held := .ready, why := .none, pc := i.pc, readyAt := s.clk }
  match handlerOf s t i.cause with
  | some h => (handlerRecord s t i).onThread t fun th => { th with pc := h, cause := i.cause.code }
  | none =>
      match i.cause with
      | .ibrk | .watch => debugCurtain s t i true
      | .brk => if s.privOf t then sTrap s t i else debugCurtain s t i true
      | _ => sTrap s t i

/-! ### Return from a trap (R320) -/

/-- How eret resumes a thread: replay, discard, or a new PC. -/
inductive Resume
  | retry | skip | pc (a : Dword)
deriving DecidableEq, Repr

/-- The denied access of a thread, if it has one: it waits in the operand log. -/
def deniedReq (th : Thread) : Option Req := th.out.find? fun r => r.st == .denied

/-- The operand-log entry a request names. -/
def logAt (s : State) (e : Option Nat) : Option LogEntry := e.bind fun e => (s.core (e / 256)).log.find? (e % 256)

/-- The late result an access brings, if it brings one. -/
def Acc.pend : Acc → Option Nat
  | .load _ p | .ldk _ _ p | .launch _ p => some p
  | .atom _ _ p | .bar _ p => p
  | _ => none

/-- A thread's access has passed translation, or is discarded; an entry that holds no other is freed (R322). -/
def passEntry (s : State) (t : Nat) (r : Req) : State :=
  match r.entry with
  | none => s
  | some e =>
      s.onCore (e / 256) fun c =>
        let l := c.log.modify (e % 256) fun x => { x with passed := unionN x.passed [t], faulted := x.faulted.filter (· != t) }
        { c with log := l.filter fun _ x => !(x.threads.all x.passed.contains) }

/-- An access is discarded: a load leaves its destination as it stood, and a wait it was to start ends. -/
def discardReq (s : State) (t : Nat) (r : Req) : State :=
  let s := s.onThread t fun th =>
    { th with out := th.out.filter fun x => x.seq != r.seq, pend := th.pend.filter fun p => some p.id != r.acc.pend }
  let s := if (s.thread t).held = .waiting then release8 s t else s
  passEntry s t r

/-- A thread's denied access is discarded. -/
def discardDenied (s : State) (t : Nat) : State :=
  match deniedReq (s.thread t) with
  | none => s
  | some r => discardReq s t r

/-- Every access of a thread that an operand log still holds, and every denied one, is discarded. -/
def discardLogged (s : State) (t : Nat) : State :=
  ((s.thread t).out.filter fun r => r.st == .denied || match logAt s r.entry with
    | some x => x.threads.contains t && !x.passed.contains t
    | none => false).foldl (fun s r => discardReq s t r) s

/-- R320: the thread leaves its trap curtain. -/
def returnFromTrap (s : State) (t : Nat) (r : Resume) : State :=
  let th := s.thread t
  let s := match deniedReq th, r with
    | some _, .retry => s.onThread t fun th =>
        -- a word of a store stream, which no entry holds, is sent again (R226)
        { th with out := th.out.map fun (x : Req) =>
            if x.st == ReqSt.denied then { x with st := if x.entry.isSome then .resolved else .sent } else x }
    | some _, .skip => discardDenied s t
    | _, .pc a => (discardLogged s t).onThread t fun th => { th with pc := a }
    | none, .retry => s.onThread t fun th => { th with pc := th.trapPc }
    | none, .skip => s.onThread t fun th => { th with pc := th.trapPc + 8 }
  s.onThread t fun th => { th with tc := false, readyAt := s.clk }

end Sys2Proof.Machine
end

