-- ==== Sys2Proof/WellFormed.lean ====
section
/-! DEFINITION. Which instruction terms are legal encodings (R163): element types, alignment of register
groups, queue ports, modifiers, mask numbers. A word whose decoded term is not well formed is an illegal
encoding and raises UNDEF in every thread that issues it. Field widths are carried by the types of Syntax. -/

namespace Sys2Proof

/-! ### Types -/

/-- R178: the six integer types. -/
def Ty.isInt : Ty → Bool
  | .u32 | .i32 | .u16 | .i16 | .u8 | .i8 => true
  | _ => false

/-- R185: the three scalar types of floating-point arithmetic. -/
def Ty.isF3 : Ty → Bool
  | .f32 | .f16 | .bf16 => true
  | _ => false

/-- R191: the scalar floating-point types of cvt. -/
def Ty.isScalarF : Ty → Bool
  | .f32 | .f16 | .bf16 | .e4m3 | .e5m2 | .e3m2 | .e2m3 | .e2m1 | .vf8 | .vf4 => true
  | _ => false

/-- R89: how many elements a packed type holds, 0 for the others. -/
def Ty.packed : Ty → Nat
  | .f16x2 | .bf16x2 => 2
  | .e4m3x4 | .e5m2x4 | .e3m2x4 | .e2m3x4 => 4
  | .e2m1x8 => 8
  | _ => 0

/-- R191: the four-element packed types that repack into each other. -/
def Ty.isPack4 (t : Ty) : Bool := t.packed == 4

/-- R70: registers of one operand. -/
def DM.size : DM → Nat
  | .plain => 1
  | .mv => 2
  | .mva => 4
  | .s4 => 4

/-! ### Operands -/

/-- R57, R147: a vector register that starts an aligned group of `n`. -/
def vOk (n : Nat) (x : BitVec 8) : Bool := x.toNat < 248 && x.toNat % n == 0

/-- R59: a destination of group size `n`; a store port only as a single register. -/
def Reg.ok (n : Nat) : Reg → Bool
  | .v x => vOk n x
  | .q p => n == 1 && 4 ≤ p.toNat

/-- R59: a width or value source in the C field. -/
def Reg.srcOk : Reg → Bool
  | .v x => vOk 1 x
  | .q p => p.toNat < 4

/-- A source of group size `n`: a uniform or an immediate is plain (R71), a load port is single (R59). -/
def Opnd.ok (n : Nat) : Opnd → Bool
  | .v x => vOk n x
  | .q p => n == 1 && p.toNat < 4
  | .k _ => true
  | .imm _ => true

/-- A source of `n` registers where a uniform gives as many (shladd.w64, R179; FP64, R165). -/
def Opnd.groupOk (n : Nat) : Opnd → Bool
  | .v x => vOk n x
  | .k x => x.toNat % n == 0
  | _ => false

def Opnd.isVQ : Opnd → Bool
  | .v _ | .q _ => true
  | _ => false

def Opnd.isV : Opnd → Bool
  | .v _ => true
  | _ => false

def Opnd.isImm : Opnd → Bool
  | .imm _ => true
  | _ => false

/-- The load ports an operand names. -/
def Opnd.ports : Opnd → List Nat
  | .q p => [p.toNat]
  | _ => []

/-- The load ports a C-field source names. -/
def Reg.ports : Reg → List Nat
  | .q p => [p.toNat]
  | _ => []

/-- R59: one load port stands in at most one source field. -/
def portsOk (l : List (List Nat)) : Bool := decide l.flatten.Nodup

/-- R148, R154: operands of a two-source F-form (`imm` false) or I-form (`imm` true). -/
def formOk (imm : Bool) (a b : Opnd) : Bool :=
  if imm then b.isImm && !a.isImm else !b.isImm && a.isVQ

/-- R61: masks are m0..m11. -/
def maskOk (m : BitVec 4) : Bool := m.toNat < 12

/-- R150: a plain mark is legal only in a distribution mode and on a vector source. -/
def markOk (dm : DM) (mark : Bool) (o : Opnd) : Bool := !mark || (dm != .plain && o.isV)

/-- R70, R71: a source of a distribution instruction, plain when marked. -/
def srcOk (dm : DM) (mark : Bool) (o : Opnd) : Bool :=
  o.ok (if mark then 1 else dm.size) && markOk dm mark o

/-- R108, R217: an address base is an even vector pair or an even uniform pair. -/
def Base.pairOk : Base → Bool
  | .v x => vOk 2 x
  | .k x => x.toNat % 2 == 0

/-- One register as base (ld.loft, handles, a target core). -/
def Base.oneOk : Base → Bool
  | .v x => vOk 1 x
  | .k _ => true

/-- R320: the aligned quad of eret.pc. -/
def Base.quadOk : Base → Bool
  | .v x => vOk 4 x
  | .k x => x.toNat % 4 == 0

/-! ### Integer words -/

def Int2Args.wf (a : Int2Args) (imm sat : Bool) (tys : Ty → Bool) : Bool :=
  tys a.ty && (sat || !a.sat) && formOk imm a.a a.b && a.a.ok 1 && a.b.ok 1 && a.d.ok 1
    && portsOk [a.a.ports, a.b.ports]

def Int1Args.wf (a : Int1Args) : Bool :=
  (a.ty == .i32 || a.ty == .i16 || a.ty == .i8) && !a.a.isImm && a.a.ok 1 && a.d.ok 1

def IntArgs.wf (a : IntArgs) : Bool :=
  a.ty.isInt && a.a.isVQ && !a.b.isImm && a.c.isVQ && a.a.ok 1 && a.b.ok 1 && a.c.ok 1 && a.d.ok 1
    && portsOk [a.a.ports, a.b.ports, a.c.ports]

/-- R179: with .w64 the destination and b are pairs. -/
def ShladdArgs.wf (a : ShladdArgs) : Bool :=
  formOk false a.a a.b && a.a.ok 1 && portsOk [a.a.ports, a.b.ports] &&
  (if a.w64 then (a.ty == .u32 || a.ty == .i32) && a.b.groupOk 2 && a.d.ok 2
   else (a.ty == .u32 || a.ty == .i32 || a.ty == .b32) && a.b.ok 1 && a.d.ok 1)

def Log1Args.wf (a : Log1Args) : Bool := !a.a.isImm && a.a.ok 1 && a.d.ok 1

def Log2Args.wf (a : Log2Args) (imm : Bool) : Bool :=
  formOk imm a.a a.b && a.a.ok 1 && a.b.ok 1 && a.d.ok 1 && portsOk [a.a.ports, a.b.ports]

def Log3Args.wf (a : Log3Args) (tab : Bool) : Bool :=
  (tab || a.tab == 0) && a.a.isVQ && !a.b.isImm && a.c.isVQ && a.a.ok 1 && a.b.ok 1 && a.c.ok 1 && a.d.ok 1
    && portsOk [a.a.ports, a.b.ports, a.c.ports]

def BfeArgs.wf (a : BfeArgs) : Bool :=
  formOk false a.a a.b && a.a.ok 1 && a.b.ok 1 && a.d.ok 1 && portsOk [a.a.ports, a.b.ports]

/-- R167: the conditions setp admits. -/
def Cond.intOk : Cond → Bool
  | .eq | .ne | .lt | .le | .gt | .ge => true
  | _ => false

def SetpArgs.wf (a : SetpArgs) (imm : Bool) : Bool :=
  a.ty.isInt && a.cond.intOk && formOk imm a.a a.b && a.a.ok 1 && a.b.ok 1 && portsOk [a.a.ports, a.b.ports]

def SelArgs.wf (a : SelArgs) (imm : Bool) : Bool :=
  (match a.ty with
    | .u32 | .i32 | .b32 | .f32 | .f16 | .bf16 | .f16x2 | .bf16x2 => true
    | _ => false)
  && formOk imm a.a a.b && a.a.ok a.dm.size && a.b.ok a.dm.size && a.d.ok a.dm.size
  && portsOk [a.a.ports, a.b.ports]

def CvtiArgs.wf (a : CvtiArgs) : Bool :=
  a.dty.isInt && a.sty.isInt && !a.a.isImm && a.a.ok 1 && a.d.ok 1

/-! ### Floating-point words -/

/-- What an FL opcode accepts: its types, its modes and whether it rounds under RM (R150, R176). -/
structure FlSpec where
  tys : Ty → Bool
  dms : DM → Bool
  rm : RM → Bool

def anyDM : DM → Bool := fun _ => true
def plainDM : DM → Bool := fun d => d == .plain
def anyRM : RM → Bool := fun _ => true
def noRM : RM → Bool := fun r => r == .rne

def Flt1Args.wf (a : Flt1Args) (sp : FlSpec) : Bool :=
  sp.tys a.ty && sp.dms a.dm && sp.rm a.rm && !a.a.isImm && srcOk a.dm a.pla a.a && a.d.ok a.dm.size

/-- `bInt`: operand b is fscale's plain i32 count (R189). -/
def Flt2Args.wf (a : Flt2Args) (imm bInt : Bool) (sp : FlSpec) : Bool :=
  sp.tys a.ty && sp.dms a.dm && sp.rm a.rm && formOk imm a.a a.b && srcOk a.dm a.pla a.a
  && (if bInt then !a.plb && a.b.ok 1 && (a.dm == .plain || a.b.ports == []) else srcOk a.dm a.plb a.b)
  && a.d.ok a.dm.size && portsOk [a.a.ports, a.b.ports]

def Flt3Args.wf (a : Flt3Args) (sp : FlSpec) : Bool :=
  sp.tys a.ty && sp.dms a.dm && sp.rm a.rm && a.a.isVQ && !a.b.isImm && a.c.isVQ
  && srcOk a.dm a.pla a.a && srcOk a.dm a.plb a.b && srcOk a.dm a.plc a.c && a.d.ok a.dm.size
  && portsOk [a.a.ports, a.b.ports, a.c.ports]

def FsetpArgs.wf (a : FsetpArgs) (imm : Bool) : Bool :=
  a.ty.isF3 && a.dm != .s4 && formOk imm a.a a.b && srcOk a.dm a.pla a.a && srcOk a.dm a.plb a.b
  && portsOk [a.a.ports, a.b.ports]

/-- R191: the kinds of cvt. -/
inductive CvtKind
  | scalar | toInt | ofInt | pack (n : Nat) | unpack (n : Nat) | repack
deriving DecidableEq, Repr

/-- R191: the kind of a pair of types, none where the pair is illegal. -/
def cvtKind (d s : Ty) : Option CvtKind :=
  if d = s then none
  else if s.isScalarF && d.isScalarF then some .scalar
  else if s.isScalarF && d.isInt then some .toInt
  else if s.isInt && d.isScalarF then some .ofInt
  else if s.isF3 && d.packed ≠ 0 then some (.pack d.packed)
  else if s.packed ≠ 0 && d.isF3 then some (.unpack s.packed)
  else if (s.packed == 2 && d.packed == 2) || (s.isPack4 && d.isPack4) then some .repack
  else none

def CvtArgs.wf (a : CvtArgs) : Bool :=
  !a.a.isImm &&
  match cvtKind a.dty a.sty with
  | none => false
  | some .scalar => srcOk a.dm a.pla a.a && a.d.ok a.dm.size
  | some .toInt | some .ofInt => a.dm == .plain && srcOk a.dm a.pla a.a && a.d.ok 1
  | some (.pack n) => a.dm == .plain && !a.pla && a.a.isV && a.a.ok n && a.d.ok 1
  | some (.unpack n) => a.dm == .plain && !a.pla && a.a.isVQ && a.a.ok 1 && (if n = 1 then false else a.d.ok n)
  | some .repack => a.dm == .plain && !a.pla && a.a.isVQ && a.a.ok 1 && a.d.ok 1

/-- R199: `n` is the size of the destination, `m` of the source group, `dms` the modes. -/
def DistArgs.wf (a : DistArgs) (dms : DM → Bool) (n m : DM → Nat) : Bool :=
  a.ty.isF3 && dms a.dm && vOk (n a.dm) a.d && (a.a.isV || (match a.a with | .k _ => true | _ => false)) && a.a.ok (m a.dm)

def DmakeArgs.wf (a : DmakeArgs) : Bool :=
  a.ty.isF3 && a.dm != .plain && vOk a.dm.size a.d && a.a.isV && a.a.ok 1
  && (if a.dm == .s4 then a.b == .v 0 else (match a.b with | .v x => vOk 1 x | .k _ => true | _ => false))

def DdrawArgs.wf (a : DdrawArgs) (dms : DM → Bool) (n m : DM → Nat) : Bool :=
  a.ty.isF3 && dms a.dm && vOk (n a.dm) a.d && (match a.a with | .v x => vOk (m a.dm) x | .k _ => true | _ => false)

/-! ### Bit streams, random draws, lane operations, moves -/

def BsinitArgs.wf (a : BsinitArgs) : Bool :=
  vOk 4 a.d && vOk 2 a.a && !a.b.isImm && a.b.ok 1

def BsreadArgs.wf (a : BsreadArgs) : Bool := a.d.ok 1 && vOk 4 a.a && a.r.groupOk 2 && a.w.srcOk
def BsskipArgs.wf (a : BsskipArgs) : Bool := vOk 4 a.a && a.r.groupOk 2 && a.w.srcOk
def BsalignArgs.wf (a : BsalignArgs) : Bool := vOk 4 a.a && a.k.toNat ≤ 6
def RngseedArgs.wf (a : RngseedArgs) : Bool := a.k.toNat % 2 == 0
def RndArgs.wf (a : RndArgs) : Bool := a.d.ok (if a.x4 then 4 else 1)
def RndCatArgs.wf (a : RndCatArgs) : Bool := a.d.ok 1 && !a.a.isImm && a.a.ok 1 && maskOk a.m
def LaneArgs.wf (a : LaneArgs) : Bool :=
  a.d.ok 1 && formOk false a.a a.b && a.a.ok 1 && a.b.ok 1 && portsOk [a.a.ports, a.b.ports] && maskOk a.m
def PollArgs.wf (a : PollArgs) : Bool := maskOk a.m
def PollMapArgs.wf (a : PollMapArgs) : Bool := a.d.ok 1 && maskOk a.m
/-- R212: the types of an operator. -/
def FoldOp.tyOk : FoldOp → Ty → Bool
  | .add, t | .min, t | .max, t => t == .u32 || t == .i32 || t == .f32
  | .and, t | .or, t | .xor, t => t == .b32
def FoldArgs.wf (a : FoldArgs) (pfx : Bool) : Bool :=
  a.op.tyOk a.ty && (pfx || !a.exc) && a.d.ok 1 && !a.a.isImm && a.a.ok 1 && maskOk a.m
def PeersArgs.wf (a : PeersArgs) : Bool := a.d.ok 1 && !a.a.isImm && a.a.ok 1 && maskOk a.m
def MovArgs.wf (a : MovArgs) : Bool := !a.a.isImm && a.a.ok a.dm.size && a.d.ok a.dm.size
/-- R153: the types a movi immediate is read in. -/
def MoviArgs.wf (a : MoviArgs) : Bool :=
  (match a.ty with
    | .u32 | .i32 | .b32 | .u16 | .i16 | .u8 | .i8 | .f32 | .f16 | .bf16 | .f16x2 | .bf16x2 | .e4m3x4 | .e5m2x4 => true
    | _ => false) && a.d.ok 1
def MoviHiArgs.wf (a : MoviHiArgs) : Bool := a.d.ok 1
def MovkArgs.wf (a : MovkArgs) : Bool := a.a.srcOk
def MovsArgs.wf (a : MovsArgs) : Bool := a.d.ok 1
def MovWriteArgs.wf (a : MovWriteArgs) : Bool := a.a.srcOk
def MovpArgs.wf (a : MovpArgs) : Bool := a.d.ok 1

/-! ### Compatibility-unit words (R165) -/

/-- R165: `n` sources of an FP64 form; unused source fields are 0. -/
def XfArgs.wf (a : XfArgs) (n : Nat) : Bool :=
  vOk 2 a.d &&
  (if n = 1 then a.a.groupOk 2 && a.b == .v 0 else a.a.isV && a.a.groupOk 2 && a.b.groupOk 2)
  && (if n = 3 then vOk 2 a.c else a.c == 0)

/-- R165: exactly one side is f64, the other f32, i32 or u32. -/
def XfcvtArgs.wf (a : XfcvtArgs) : Bool :=
  let other : Ty → Bool := fun t => t == .f32 || t == .i32 || t == .u32
  (a.dty == .f64 && other a.sty && !a.a.isImm && a.a.ok 1 && (match a.d with | .v x => vOk 2 x | _ => false))
  || (a.sty == .f64 && other a.dty && a.a.groupOk 2 && a.d.ok 1)

/-- R150, R165: xfsetp rounds nothing, so its RM is 0. -/
def XfsetpArgs.wf (a : XfsetpArgs) : Bool := a.rm == .rne && a.a.isV && a.a.groupOk 2 && a.b.groupOk 2
def XintArgs.wf (a : XintArgs) : Bool :=
  formOk false a.a a.b && a.a.ok 1 && a.b.ok 1 && a.d.ok 1 && portsOk [a.a.ports, a.b.ports]
def Xop2Args.wf (a : Xop2Args) : Bool :=
  formOk false a.a a.b && a.a.ok 1 && a.b.ok 1 && a.d.ok 1 && portsOk [a.a.ports, a.b.ports]

/-! ### P-words (R157, R158) -/

/-- R158: the types a half's operation accepts, those of its F-form among the eight TY3 codes. -/
def HalfOp.tyOk : HalfOp → Ty → Bool
  | .add, t | .sub, t | .mul, t | .mulhi, t | .min, t | .max, t => t == .u32 || t == .i32
  | .abs, t | .neg, t => t == .i32
  | .shl, t | .shr, t | .sar, t | .rot, t | .and, t | .or, t | .xor, t | .andn, t
  | .not, t | .popc, t | .clz, t | .ctz, t | .brev, t => t == .b32
  | .mov, t => t == .b32 || t == .f32
  | .fadd, t | .fsub, t | .fmul, t | .fmin, t | .fmax, t | .fscale, t | .frnd, t => t.isF3
  | .pkadd, t | .pkmul, t => t == .f16x2 || t == .bf16x2
  | .nop, _ => true
  | .fmac, t => t == .f32

/-- R158: the operations that accept DM = 01, at f32 only. -/
def HalfOp.mvOk : HalfOp → Bool
  | .fadd | .fsub | .fmul | .fmin | .fmax | .fscale | .mov => true
  | _ => false

/-- The eight types TY3 can name. -/
def Ty.isTy3 : Ty → Bool
  | .u32 | .i32 | .b32 | .f32 | .f16 | .bf16 | .f16x2 | .bf16x2 => true
  | _ => false

/-- R156, R157: one half alone. The rules bar D and A of a nop half and name no TY3 and no KA it may not have: every
TY3 and both KA are accepted (DESIGN CHOICE, log entry 64). -/
def Half.wf (h : Half) : Bool :=
  h.ty.isTy3 && h.op.tyOk h.ty && (!h.mv || (h.op.mvOk && h.ty == .f32))
  && (match h.op with
      | .nop => h.d == 0 && h.a == 0
      | .fmac => vOk 1 h.d && (if h.ka then h.a.toNat % 2 == 0 else vOk 2 h.a)
      | .fscale => vOk (if h.mv then 2 else 1) h.d && (h.ka || vOk 1 h.a)
      | _ => vOk (if h.mv then 2 else 1) h.d && (h.ka || vOk (if h.mv then 2 else 1) h.a))

/-- R157: the registers a half writes. -/
def Half.writes (h : Half) : List Nat :=
  if h.op = .nop then [] else if h.mv then [h.d.toNat, h.d.toNat + 1] else [h.d.toNat]

/-- R157: the pairing rules. -/
def PairArgs.wf (a : PairArgs) : Bool :=
  a.x.wf && a.y.wf && !(a.x.mv && a.y.mv) && !(a.x.ka && a.y.ka)
  && a.x.writes.all fun r => a.y.writes.all fun t => r % 4 != t % 4

/-! ### M-words -/

/-- R160: bytes of a load type. -/
def LT.size : LT → Nat
  | .u8 | .i8 => 1
  | .u16 | .i16 => 2
  | .b32 => 4
  | .b64 => 8
  | .b128 => 16

/-- Registers a load type fills. -/
def LT.regs : LT → Nat
  | .b64 => 2
  | .b128 => 4
  | _ => 1

/-- R115, R116: an access without an order has scope 0. -/
def LdstArgs.annOk (a : LdstArgs) (rel : Bool) : Bool :=
  match a.order with
  | .none => a.scope == .blk
  | .acq => !rel
  | .rel => rel
  | .ar => false

def LdstArgs.wfLd (a : LdstArgs) : Bool := a.annOk false && vOk a.lt.regs a.d && a.base.pairOk
def LdstArgs.wfSt (a : LdstArgs) : Bool := a.annOk true && vOk a.lt.regs a.d && a.base.pairOk
def LdstArgs.wfLdk (a : LdstArgs) : Bool :=
  a.annOk false && (a.lt == .b32 || a.lt == .b64 || a.lt == .b128) && a.d.toNat % a.lt.regs == 0
  && (match a.base with | .k x => x.toNat % 2 == 0 | .v _ => false)
def LdstArgs.wfLoft (a : LdstArgs) : Bool :=
  a.order == .none && a.scope == .blk && vOk a.lt.regs a.d && a.base.oneOk

def HintArgs.wfPrefetch (a : HintArgs) : Bool := a.lv.toNat < 3 && a.base.pairOk
def HintArgs.wfIcflush (a : HintArgs) : Bool := 3 ≤ a.lv.toNat && a.lv.toNat ≤ 30 && a.base.pairOk
def QcfgArgs.wf (a : QcfgArgs) : Bool := a.k.toNat % 2 == 0 && a.k.toNat ≤ 250

/-- R228: the pairs of operation and type. -/
def AOp.tyOk : AOp → AT → Bool
  | .add, _ => true
  | .sub, t | .and, t | .or, t | .xor, t | .cas, t => t == .u32 || t == .i32 || t == .i64
  | .min, t | .max, t | .exch, t => t == .u32 || t == .i32 || t == .i64 || t == .f32
  | .inc, t | .dec, t => t == .u32

/-- R228: the group of the value operand. -/
def AtomArgs.bSize (a : AtomArgs) : Nat :=
  (if a.op == .cas then 2 else 1) * (if a.ty == .i64 then 2 else 1)

def AtomArgs.wf (a : AtomArgs) (red : Bool) : Bool :=
  a.op.tyOk a.ty && a.base.pairOk
  && (match a.b with
      | .v x => vOk a.bSize x
      | .imm _ => (a.ty == .u32 || a.ty == .i32 || a.ty == .i64) && a.op != .cas)
  && (if red then a.d == 0 && a.op != .exch && a.op != .cas && (a.order == .none || a.order == .rel)
      else vOk (if a.ty == .i64 then 2 else 1) a.d)

def AVal.ok : AVal → Bool
  | .v x => vOk 1 x
  | .imm _ => true

def SvArgs.wf (a : SvArgs) (post : Bool) : Bool :=
  a.base.pairOk && a.b.ok && (if post then a.d == 0 else vOk 1 a.d)

/-- R232, R236, R263, R277: a descriptor base is a multiple of `n` no greater than `top`. -/
def DescArgs.wf (a : DescArgs) (n top : Nat) : Bool := a.k.toNat % n == 0 && a.k.toNat ≤ top

def CpWaitArgs.wf (a : CpWaitArgs) : Bool :=
  match a.b with
  | .r b => b.oneOk
  | .imm _ => true

def CueArgs.wf (a : CueArgs) : Bool := vOk 2 a.d && a.base.pairOk

def GiveArgs.wf (a : GiveArgs) : Bool :=
  vOk 1 a.d && (match a.core with | .imm _ => true | .r b => b.oneOk)

def MaskArgs.wfMask (a : MaskArgs) : Bool := maskOk a.n
def MaskKArgs.wf (a : MaskKArgs) : Bool := maskOk a.n
def BarBlkArgs.wf (a : BarBlkArgs) : Bool := a.count.toNat ≤ 24576

def MmpostArgs.wf (a : MmpostArgs) : Bool :=
  a.k.toNat % 16 == 0 && a.k.toNat ≤ 240 && a.count.toNat ≤ 24576

def TlbinvArgs.wf (a : TlbinvArgs) : Bool :=
  vOk 1 a.d && a.a.pairOk && 16 ≤ a.log2sz.toNat && a.log2sz.toNat ≤ 47

def CtxArgs.wf (a : CtxArgs) : Bool :=
  vOk 1 a.d && (match a.mem with | none => true | some b => b.pairOk)

def EretArgs.wf (a : EretArgs) : Bool :=
  vOk 1 a.d && (if a.res = .pc then a.h.quadOk else a.h.oneOk)

/-! ### Logit words (R294, R296) -/

/-- A field a logit opcode does not use is 0. `d`, `a`, `b`, `s`: does the opcode use it, and is it a vector. -/
def LogitArgs.uses (l : LogitArgs) (dV dS aV bV s fn imm : Bool) : Bool :=
  (if dV then l.d.toNat < 8 else dS || l.d == 0) && (if aV then l.a.toNat < 8 else l.a == 0)
  && (if bV then l.b.toNat < 8 else l.b == 0) && (s || l.s == 0)
  && (fn || (!l.scalarB && l.cond == .eq)) && (imm || l.imm == 0)

/-- R296: add and mul take a vector b or, with FN[0], a scalar. -/
def LogitArgs.wfArith (l : LogitArgs) : Bool :=
  l.uses true false true (!l.scalarB) l.scalarB true false && l.cond == .eq

/-! ### Instructions -/

def f3Any : FlSpec := ⟨Ty.isF3, anyDM, anyRM⟩
def f3NoRm : FlSpec := ⟨Ty.isF3, anyDM, noRM⟩
def f3Plain : FlSpec := ⟨Ty.isF3, plainDM, noRM⟩
/-- R196: a special function admits RM 0b000 and 0b111 only. -/
def f3Sfu : FlSpec := ⟨Ty.isF3, anyDM, fun r => r == .rne || r == .dyn⟩
def pk2 : FlSpec := ⟨fun t => t == .f16x2 || t == .bf16x2, plainDM, anyRM⟩
def dp4Spec : FlSpec := ⟨fun t => t == .e4m3x4 || t == .e5m2x4, plainDM, anyRM⟩
def ui32 : Ty → Bool := fun t => t == .u32 || t == .i32
def distDM : DM → Bool := fun d => d != .plain
def one : DM → Nat := fun _ => 1

/-- R163: is the term a legal encoding? Events have no encoding and are always well formed. -/
def Instr.wf : Instr → Bool
  | .add a | .sub a | .mul a => a.wf false true Ty.isInt
  | .addImm a | .subImm a | .mulImm a => a.wf true true Ty.isInt
  | .add3 a | .mad a => a.wf
  | .mulhi a => a.wf false false ui32
  | .mulhiImm a => a.wf true false ui32
  | .min_ a | .max_ a => a.wf false false Ty.isInt
  | .minImm a | .maxImm a => a.wf true false Ty.isInt
  | .abs_ a | .neg a => a.wf
  | .shladd a => a.wf
  | .shl a | .shr a | .sar a | .rot a | .and_ a | .or_ a | .xor_ a | .andn a => a.wf false
  | .shlImm a | .shrImm a | .sarImm a | .rotImm a | .andImm a | .orImm a | .xorImm a | .andnImm a => a.wf true
  | .not_ a | .popc a | .clz a | .ctz a | .brev a => a.wf
  | .lut3 a => a.wf true
  | .bfi a => a.wf false
  | .bfe a => a.wf
  | .setp a => a.wf false
  | .setpImm a => a.wf true
  | .sel a => a.wf false
  | .selImm a => a.wf true
  | .cvti a => a.wf
  | .fadd a | .fsub a | .fmul a => a.wf false false f3Any
  | .faddImm a | .fsubImm a | .fmulImm a => a.wf true false f3Any
  | .fmin a | .fmax a => a.wf false false f3NoRm
  | .fminImm a | .fmaxImm a => a.wf true false f3NoRm
  | .fscale a => a.wf false true f3Any
  | .fscaleImm a => a.wf true true f3Any
  | .fma a => a.wf f3Any
  | .fsetp a => a.wf false
  | .fsetpImm a => a.wf true
  -- R150, R188: fclass ignores FTZ, so the field is 0
  | .fclass a => !a.ftz && a.wf f3Plain
  | .frnd a => a.wf f3Any
  | .cvt a => a.wf
  | .pkadd a | .pkmul a => a.wf false false pk2
  | .pkaddImm a | .pkmulImm a => a.wf true false pk2
  | .pkfma a | .dp2 a => a.wf pk2
  | .dp4 a => a.wf dp4Spec
  | .ex2 a | .lg2 a | .rcp a | .rsq a | .sqt a | .sin a | .cos a | .tnh a | .lgt a => a.wf f3Sfu
  | .dmake a => a.wf
  | .dmean a | .dvar a => a.wf distDM one DM.size
  | .dlin a => a.wf (· == .mva) (fun _ => 4) (fun _ => 2)
  | .dfold a => a.wf (· == .mv) (fun _ => 2) (fun _ => 4)
  | .dspread a => a.wf (· == .s4) (fun _ => 4) (fun _ => 2)
  | .dsamp a => a.wf distDM one DM.size
  | .bsinit a => a.wf
  | .bsread a | .bspeek a => a.wf
  | .bsskip a => a.wf
  | .bsalign a => a.wf
  | .rngseed a => a.wf
  | .rndU32 a | .rndF32 a | .rndGauss a => a.wf
  | .rndCat a => a.wf
  | .laneIdx a | .laneRise a | .laneFall a | .laneFlip a => a.wf
  | .pollAny a | .pollAll a => a.wf
  | .pollMap a => a.wf
  | .fold a => a.wf false
  | .pfx a => a.wf true
  | .peers a => a.wf
  | .mov a => a.wf
  | .movi a => a.wf
  | .moviHi a => a.wf
  | .movk a => a.wf
  | .movsRead a => a.wf
  | .movsWriteFsr a | .movpWrite a => a.wf
  | .movpRead a => a.wf
  | .xfadd a | .xfsub a | .xfmul a | .xfdiv a => a.wf 2
  | .xfma a => a.wf 3
  | .xfsqt a => a.wf 1
  | .xfcvt a => a.wf
  | .xfsetp a => a.wf
  | .xdiv a | .xrem a => a.wf
  | .xshl2 a | .xshr2 a | .xsar2 a | .xmin2 a | .xmax2 a => a.wf
  | .xcvt2 a => a.wf
  | .pairedWord a => a.wf
  | .ld a => a.wfLd
  | .st a => a.wfSt
  | .ldk a => a.wfLdk
  | .ldLoft a => a.wfLoft
  | .prefetch a => a.wfPrefetch
  | .icflush a => a.wfIcflush
  | .qcfg a => a.wf
  | .atom a => a.wf false
  | .red a => a.wf true
  | .svpost a => a.wf true
  | .svwait a => a.wf false
  | .cpRows a | .cpReduce a => a.wf 8 248
  | .cpColl a | .cpReady a | .accrd a | .acccvt a => a.wf 16 240
  | .cpSeal a => vOk 1 a.d
  | .cpWait a => a.wf
  | .cuePop a | .cuePush a => a.wf
  | .flatGive a => a.wf
  | .flatTake a | .flatStat a => vOk 1 a.d
  | .flatShare a => vOk 1 a.d
  | .barBlk a => a.wf
  | .barCls a | .barDev a | .barDevSuper a => a.base.pairOk
  | .barArrive a | .barWait a => vOk 1 a.d && a.base.pairOk
  | .join a | .leave a | .wait a => a.wfMask
  | .mset a | .mget a => a.wf
  | .call a => vOk 2 a.d
  | .brx a | .ret a => a.a.pairOk
  | .signal a => a.a.oneOk
  | .launch a => vOk 1 a.d && a.base.pairOk
  | .wlatch a => a.k.toNat % 16 == 0 && a.k.toNat ≤ 240
  | .mmpost a => a.wf
  | .accstat a => vOk 1 a.d
  | .mxstat a => vOk 1 a.d
  | .csrr a => (match a.r with | .v x => vOk 2 x | .k _ => false)
  | .csrw a => a.r.pairOk
  | .eret a => a.wf
  | .tlbinv a => a.wf
  | .ctxsave a | .ctxload a => a.wf
  | .halt a | .haltGo a | .ctxkill a => vOk 1 a.d
  | .dbgstep a => vOk 1 a.d && a.h.oneOk
  | .tblarm a => vOk 1 a.d && a.a.pairOk
  | .tblread a => vOk 1 a.d
  | .dbgres a | .dbgcur a => vOk 1 a.d && a.h.oneOk
  | .logitLdc l | .logitLdw l | .logitLdt l | .logitLdb l | .logitLdd l =>
      l.uses true false false false false false false
  | .logitLdg l | .logitPub l => l.uses false false false false false false false
  | .logitLds l => l.uses false true false false false false true && l.imm.toNat ≤ 15
  | .logitSet l => l.uses false true false false false false true
  | .logitMode l => l.uses false false false false false false true && l.imm.toNat ≤ 1
  | .logitMov l | .logitNorm l => l.uses true false true false false false false
  | .logitAdd l | .logitMul l => l.wfArith
  | .logitPen l => l.uses true false true true true false false
  | .logitFpen l => l.uses true false true true true false false && l.s.toNat ≤ 14
  | .logitTemp l => l.uses true false true false true false false
  | .logitClmp l => l.uses true false true false true false false && l.s.toNat ≤ 14
  | .logitKeep l => l.uses false false true false true true false && !l.scalarB
  | .logitTopk l | .logitTopp l | .logitMinp l => l.uses false false true false true false false
  | .logitSort l | .logitDraw l => l.uses false false true false false false false
  | .logitVmax l => l.uses false true true false false false false
  | .logitAcc l => l.uses false false true true false false false
  | _ => true

end Sys2Proof
end

