-- ==== Sys2Proof/Machine/Operands.lean ====
section
/-! DEFINITION. Operand forms: what a word names (R56..R61), its class (R31), its guard (R149), reading operands
(R58..R60, R71, R108, R153), writing results (R56, R59, R66), and the issue of a word to a bundle (R26, R30..R32,
R57, R163, R309, R330): which threads trap, stall, or execute it. -/

namespace Sys2Proof.Machine

/-! ### What a word names -/

/-- Registers a word names: vector and uniform registers, predicates beside its guard, load and store ports; and
whether it is class U whatever it names. -/
structure Uses where
  v : List Nat
  k : List Nat
  p : List Nat
  lp : List Nat
  sp : List Nat
  u : Bool
deriving DecidableEq, Repr

namespace Uses
def none : Uses := ⟨[], [], [], [], [], false⟩
def join (a b : Uses) : Uses := ⟨a.v ++ b.v, a.k ++ b.k, a.p ++ b.p, a.lp ++ b.lp, a.sp ++ b.sp, a.u || b.u⟩
def all (l : List Uses) : Uses := l.foldl join none
/-- `n` vector registers from a base. -/
def vec (n : Nat) (x : BitVec 8) : Uses := { none with v := List.range' x.toNat n }
/-- `n` uniform registers from a base. -/
def uni (n x : Nat) : Uses := { none with k := List.range' x n, u := true }
def pred (x : BitVec 3) : Uses := { none with p := [x.toNat] }
def classU : Uses := { none with u := true }
/-- A source operand of `n` vector registers; a uniform stands for one, or for `kn`. -/
def src (n : Nat) (o : Opnd) (kn : Nat := 1) : Uses :=
  match o with
  | .v x => vec n x
  | .q x => { none with lp := [x.toNat] }
  | .k x => uni kn x.toNat
  | .imm _ => none
/-- A destination of `n` registers. -/
def dst (n : Nat) (r : Reg) : Uses :=
  match r with
  | .v x => vec n x
  | .q x => { none with sp := [x.toNat] }
/-- A C-field source. -/
def csrc (r : Reg) : Uses :=
  match r with
  | .v x => vec 1 x
  | .q x => { none with lp := [x.toNat] }
/-- A base operand of `n` registers. -/
def base (n : Nat) (b : Base) : Uses :=
  match b with
  | .v x => vec n x
  | .k x => uni n x.toNat
end Uses

/-- A distribution source: its group, or one register where marked plain (R71). -/
def distSrc (dm : DM) (plain : Bool) (o : Opnd) : Uses := Uses.src (if plain then 1 else dm.size) o

/-- R155..R158: what a half names; KA = 1 makes the word class U whatever the half does (R31). -/
def halfUses (h : Half) : Uses :=
  let n := if h.mv then 2 else 1
  match h.op with
  | .nop => if h.ka then .classU else .none
  | .fmac => Uses.all [.vec 1 h.d, if h.ka then .uni 2 h.a.toNat else .vec 2 h.a]
  | .fscale => Uses.all [.vec n h.d, if h.ka then .uni 1 h.a.toNat else .vec 1 h.a]
  | _ => Uses.all [.vec n h.d, if h.ka then .uni 1 h.a.toNat else .vec n h.a]

/-- Everything a word names, its guard apart. -/
def usesOf (i : Instr) : Uses :=
  let all := Uses.all
  let s1 := fun o => Uses.src 1 o
  match i with
  | .add a | .addImm a | .sub a | .subImm a | .mul a | .mulImm a | .mulhi a | .mulhiImm a | .min_ a | .minImm a
  | .max_ a | .maxImm a => all [.dst 1 a.d, s1 a.a, s1 a.b]
  | .add3 a | .mad a => all [.dst 1 a.d, s1 a.a, s1 a.b, s1 a.c]
  | .shladd a => let n := if a.w64 then 2 else 1; all [.dst n a.d, s1 a.a, .src n a.b n]
  | .abs_ a | .neg a => all [.dst 1 a.d, s1 a.a]
  | .shl a | .shlImm a | .shr a | .shrImm a | .sar a | .sarImm a | .rot a | .rotImm a | .and_ a | .andImm a | .or_ a
  | .orImm a | .xor_ a | .xorImm a | .andn a | .andnImm a => all [.dst 1 a.d, s1 a.a, s1 a.b]
  | .not_ a | .popc a | .clz a | .ctz a | .brev a | .xcvt2 a => all [.dst 1 a.d, s1 a.a]
  | .lut3 a | .bfi a => all [.dst 1 a.d, s1 a.a, s1 a.b, s1 a.c]
  | .bfe a => all [.dst 1 a.d, s1 a.a, s1 a.b]
  | .setp a | .setpImm a => all [.pred a.pd, s1 a.a, s1 a.b]
  | .sel a | .selImm a => let n := a.dm.size; all [.dst n a.d, .src n a.a, .src n a.b, .pred a.ps]
  | .cvti a => all [.dst 1 a.d, s1 a.a]
  | .fadd a | .faddImm a | .fsub a | .fsubImm a | .fmul a | .fmulImm a | .fmin a | .fminImm a | .fmax a | .fmaxImm a
  | .pkadd a | .pkaddImm a | .pkmul a | .pkmulImm a =>
      all [.dst a.dm.size a.d, distSrc a.dm a.pla a.a, distSrc a.dm a.plb a.b]
  | .fscale a | .fscaleImm a => all [.dst a.dm.size a.d, distSrc a.dm a.pla a.a, s1 a.b]
  | .fma a | .pkfma a | .dp2 a | .dp4 a =>
      all [.dst a.dm.size a.d, distSrc a.dm a.pla a.a, distSrc a.dm a.plb a.b, distSrc a.dm a.plc a.c]
  | .fsetp a | .fsetpImm a => all [.pred a.pd, distSrc a.dm a.pla a.a, distSrc a.dm a.plb a.b]
  | .fclass a | .frnd a | .ex2 a | .lg2 a | .rcp a | .rsq a | .sqt a | .sin a | .cos a | .tnh a | .lgt a =>
      all [.dst a.dm.size a.d, distSrc a.dm a.pla a.a]
  | .cvt a =>
      let n := match cvtKind a.dty a.sty with
        | some (.pack n) => (n, 1)
        | some (.unpack n) => (1, n)
        | _ => (a.dm.size, a.dm.size)
      all [.dst n.2 a.d, .src (if a.pla then 1 else n.1) a.a]
  | .dmake a => all [.vec a.dm.size a.d, s1 a.a, if a.dm = .s4 then .none else s1 a.b]
  | .dmean a | .dvar a => all [.vec 1 a.d, .src a.dm.size a.a]
  | .dlin a => all [.vec 4 a.d, .src 2 a.a]
  | .dfold a => all [.vec 2 a.d, .src 4 a.a]
  | .dspread a => all [.vec 4 a.d, .src 2 a.a]
  | .dsamp a => all [.vec 1 a.d, .src a.dm.size a.a]
  | .bsinit a => all [.vec 4 a.d, .vec 2 a.a, s1 a.b]
  | .bsread a | .bspeek a => all [.dst 1 a.d, .vec 4 a.a, .src 2 a.r 2, .csrc a.w]
  | .bsskip a => all [.vec 4 a.a, .src 2 a.r 2, .csrc a.w]
  | .bsalign a => .vec 4 a.a
  | .rngseed a => .uni 2 a.k.toNat
  | .rndU32 a | .rndF32 a | .rndGauss a => .dst (if a.x4 then 4 else 1) a.d
  | .rndCat a => all [.dst 1 a.d, s1 a.a, .classU]
  | .laneIdx a | .laneRise a | .laneFall a | .laneFlip a => all [.dst 1 a.d, s1 a.a, s1 a.b, .classU]
  | .pollAny a | .pollAll a => all [.pred a.pd, .pred a.pa, .classU]
  | .pollMap a => all [.dst 1 a.d, .pred a.pa, .classU]
  | .fold a | .pfx a => all [.dst 1 a.d, s1 a.a, .classU]
  | .peers a => all [.dst 1 a.d, s1 a.a, .classU]
  | .mov a => all [.dst a.dm.size a.d, .src a.dm.size a.a]
  | .movi a => .dst 1 a.d
  | .moviHi a => .dst 1 a.d
  | .movk a => all [.uni 1 a.k.toNat, .csrc a.a]
  | .movsRead a => .dst 1 a.d
  | .movsWriteFsr a => .csrc a.a
  | .movpRead a => all [.dst 1 a.d, { Uses.none with p := List.range 7 }]
  | .movpWrite a => all [.csrc a.a, { Uses.none with p := List.range 7 }]
  | .xfadd a | .xfsub a | .xfmul a | .xfdiv a => all [.vec 2 a.d, .src 2 a.a 2, .src 2 a.b 2]
  | .xfma a => all [.vec 2 a.d, .src 2 a.a 2, .src 2 a.b 2, .vec 2 a.c]
  | .xfsqt a => all [.vec 2 a.d, .src 2 a.a 2]
  | .xfcvt a =>
      if a.dty = .f64 then all [.dst 2 a.d, s1 a.a] else all [.dst 1 a.d, .src 2 a.a 2]
  | .xfsetp a => all [.pred a.pd, .src 2 a.a 2, .src 2 a.b 2]
  | .xdiv a | .xrem a => all [.dst 1 a.d, s1 a.a, s1 a.b]
  | .xshl2 a | .xshr2 a | .xsar2 a | .xmin2 a | .xmax2 a => all [.dst 1 a.d, s1 a.a, s1 a.b]
  | .pairedWord a => all [halfUses a.x, halfUses a.y, .pred a.x.g, .pred a.y.g]
  | .ld a | .st a => all [.vec a.lt.regs a.d, .base 2 a.base]
  | .ldk a => all [.uni a.lt.regs a.d.toNat, .base 2 a.base]
  | .ldLoft a => all [.vec a.lt.regs a.d, .base 1 a.base]
  | .prefetch a | .icflush a => .base 2 a.base
  | .qcfg a => .uni 6 a.k.toNat
  | .qclose _ => .classU
  | .atom a =>
      all [.vec (if a.ty = .i64 then 2 else 1) a.d, .base 2 a.base, match a.b with
        | .v x => .vec a.bSize x
        | .imm _ => .none]
  | .red a => all [.base 2 a.base, match a.b with
        | .v x => .vec a.bSize x
        | .imm _ => .none]
  | .svpost a => all [.base 2 a.base, match a.b with
        | .v x => .vec 1 x
        | .imm _ => .none]
  | .svwait a => all [.vec 1 a.d, .base 2 a.base, match a.b with
        | .v x => .vec 1 x
        | .imm _ => .none]
  | .cpRows a | .cpReduce a => .uni 8 a.k.toNat
  | .cpColl a | .cpReady a | .accrd a | .acccvt a => .uni 16 a.k.toNat
  | .cpSeal a => .vec 1 a.d
  | .cpWait a => match a.b with
      | .r b => .base 1 b
      | .imm _ => .none
  | .cuePop a | .cuePush a => all [.vec 2 a.d, .base 2 a.base]
  | .flatGive a => all [.vec 1 a.d, match a.core with
      | .imm _ => .none
      | .r b => .base 1 b]
  | .flatTake a | .flatStat a => .vec 1 a.d
  | .flatShare a => .vec 1 a.d
  | .barBlk _ => .classU
  | .barCls a | .barDev a | .barDevSuper a => all [.base 2 a.base, .classU]
  | .barArrive a | .barWait a => all [.vec 1 a.d, .base 2 a.base, .classU]
  | .join _ | .leave _ | .wait _ | .sign _ | .cvwait _ => .classU
  | .mset a | .mget a => .uni 1 a.k.toNat
  | .brx a | .ret a => .base 2 a.a
  | .call a => .vec 2 a.d
  | .signal a => .base 1 a.a
  | .launch a => all [.vec 1 a.d, .base 2 a.base]
  | .wlatch a => .uni 16 a.k.toNat
  | .mmpost a => .uni 16 a.k.toNat
  | .accstat a => .vec 1 a.d
  | .mxstat a => all [.vec 1 a.d, if a.sel = .cv then .classU else .none]
  | .csrr a | .csrw a => .base 2 a.r
  | .eret a => all [.vec 1 a.d, .base (if a.res = .pc then 4 else 1) a.h]
  | .tlbinv a => all [.vec 1 a.d, .base 2 a.a]
  | .ctxsave a | .ctxload a => all [.vec 1 a.d, match a.mem with
      | none => .none
      | some b => .base 2 b]
  | .halt a | .haltGo a | .ctxkill a => .vec 1 a.d
  | .dbgstep a => all [.vec 1 a.d, .base 1 a.h]
  | .tblarm a => all [.vec 1 a.d, .base 2 a.a]
  | .tblread a => .vec 1 a.d
  | .dbgres a | .dbgcur a => all [.vec 1 a.d, .base 1 a.h]
  | _ => .none

/-- R149: p7 unnegated: every thread. -/
def guardAlways : Guard := ⟨false, 7⟩

/-- R149: the guard of a word; a P-word's halves carry their own (R155). -/
def guardOf : Instr → Guard
  | .add a | .addImm a | .sub a | .subImm a | .mul a | .mulImm a | .mulhi a | .mulhiImm a | .min_ a | .minImm a
  | .max_ a | .maxImm a => a.g
  | .add3 a | .mad a => a.g
  | .shladd a => a.g
  | .abs_ a | .neg a => a.g
  | .shl a | .shlImm a | .shr a | .shrImm a | .sar a | .sarImm a | .rot a | .rotImm a | .and_ a | .andImm a | .or_ a
  | .orImm a | .xor_ a | .xorImm a | .andn a | .andnImm a => a.g
  | .not_ a | .popc a | .clz a | .ctz a | .brev a | .xcvt2 a => a.g
  | .lut3 a | .bfi a => a.g
  | .bfe a => a.g
  | .setp a | .setpImm a => a.g
  | .sel a | .selImm a => a.g
  | .cvti a => a.g
  | .fadd a | .faddImm a | .fsub a | .fsubImm a | .fmul a | .fmulImm a | .fmin a | .fminImm a | .fmax a | .fmaxImm a
  | .pkadd a | .pkaddImm a | .pkmul a | .pkmulImm a | .fscale a | .fscaleImm a => a.g
  | .fma a | .pkfma a | .dp2 a | .dp4 a => a.g
  | .fsetp a | .fsetpImm a => a.g
  | .fclass a | .frnd a | .ex2 a | .lg2 a | .rcp a | .rsq a | .sqt a | .sin a | .cos a | .tnh a | .lgt a => a.g
  | .cvt a => a.g
  | .dmake a => a.g
  | .dmean a | .dvar a | .dlin a | .dfold a => a.g
  | .dspread a | .dsamp a => a.g
  | .bsinit a => a.g
  | .bsread a | .bspeek a => a.g
  | .bsskip a => a.g
  | .bsalign a => a.g
  | .rngseed a => a.g
  | .rndU32 a | .rndF32 a | .rndGauss a => a.g
  | .rndCat a => a.g
  | .laneIdx a | .laneRise a | .laneFall a | .laneFlip a => a.g
  | .pollAny a | .pollAll a => a.g
  | .pollMap a => a.g
  | .fold a | .pfx a => a.g
  | .peers a => a.g
  | .mov a => a.g
  | .movi a => a.g
  | .moviHi a => a.g
  | .movk a => a.g
  | .movsRead a => a.g
  | .movsWriteFsr a | .movpWrite a => a.g
  | .movpRead a => a.g
  | .xfadd a | .xfsub a | .xfmul a | .xfma a | .xfdiv a | .xfsqt a => a.g
  | .xfcvt a => a.g
  | .xfsetp a => a.g
  | .xdiv a | .xrem a => a.g
  | .xshl2 a | .xshr2 a | .xsar2 a | .xmin2 a | .xmax2 a => a.g
  | .ld a | .st a | .ldk a | .ldLoft a => a.g
  | .prefetch a | .icflush a => a.g
  | .qcfg a => a.g
  | .qclose a => a.g
  | .atom a | .red a => a.g
  | .svpost a | .svwait a => a.g
  | .cpRows a | .cpReduce a | .cpColl a | .cpReady a | .accrd a | .acccvt a => a.g
  | .cpSeal a => a.g
  | .cpWait a => a.g
  | .cuePop a | .cuePush a => a.g
  | .flatGive a => a.g
  | .flatTake a | .flatStat a => a.g
  | .flatShare a => a.g
  | .barBlk a => a.g
  | .barCls a | .barDev a | .barDevSuper a => a.g
  | .barArrive a | .barWait a => a.g
  | .join a | .leave a | .wait a | .sign a | .cvwait a => a.g
  | .mset a | .mget a => a.g
  | .bra a => a.g
  | .brx a | .ret a => a.g
  | .call a => a.g
  | .exit g | .yield g | .suspend g | .nop g => g
  | .signal a => a.g
  | .launch a => a.g
  | .trap a | .brk a => a.g
  | .wlatch a => a.g
  | .mmpost a => a.g
  | .accclr a => a.g
  | .accstat a => a.g
  | .mxstat a => a.g
  | .csrr a | .csrw a => a.g
  | .eret a => a.g
  | .tlbinv a => a.g
  | .ctxsave a | .ctxload a => a.g
  | .halt a | .haltGo a | .ctxkill a => a.g
  | .dbgstep a => a.g
  | .tblarm a => a.g
  | .tblread a => a.g
  | .dbgres a | .dbgcur a => a.g
  | _ => guardAlways

/-- R309: opcodes 0xE0..0xEC. -/
def isPrivileged : Instr → Bool
  | .csrr _ | .csrw _ | .eret _ | .tlbinv _ | .ctxsave _ | .ctxload _ | .halt _ | .haltGo _ | .dbgstep _ | .tblarm _
  | .tblread _ | .dbgres _ | .dbgcur _ | .ctxkill _ => true
  | _ => false

/-! ### Reading operands -/

/-- One thread and its group, as they stand when the word issues. -/
structure Env where
  t : Nat
  th : Thread
  g : Group

def envOf (s : State) (t : Nat) : Env := ⟨t, s.thread t, s.groupOf t⟩

def guardHolds (g : Guard) (th : Thread) : Bool := State.predOf th g.p.toNat != g.neg

namespace Env
def v (e : Env) (n : Nat) : Word := e.th.v.findD n 0
def k (e : Env) (n : Nat) : Word := e.g.k.findD n 0
def p (e : Env) (n : BitVec 3) : Bool := State.predOf e.th n.toNat
/-- R59: the entry at the head of a load port. -/
def port (e : Env) (n : Nat) : Word := ((e.th.ports.findD n []).head?.map PortEntry.word).getD 0
/-- Register `i` of a source operand; `im` reads an immediate. -/
def op (e : Env) (im : HalfWord → Word) (o : Opnd) (i : Nat := 0) : Word :=
  match o with
  | .v n => e.v (n.toNat + i)
  | .q n => e.port n.toNat
  | .k n => e.k (n.toNat + i)
  | .imm x => im x
/-- A C-field source. -/
def cop (e : Env) (r : Reg) : Word :=
  match r with
  | .v n => e.v n.toNat
  | .q n => e.port n.toNat
def base1 (e : Env) (b : Base) : Word :=
  match b with
  | .v n => e.v n.toNat
  | .k n => e.k n.toNat
/-- R108: a base pair. -/
def base2 (e : Env) (b : Base) : Dword :=
  match b with
  | .v n => pair (e.v n.toNat) (e.v (n.toNat + 1))
  | .k n => pair (e.k n.toNat) (e.k (n.toNat + 1))
end Env

/-- R108: the effective address of a base pair and a signed offset. -/
def effAddr {n : Nat} (e : Env) (b : Base) (off : BitVec n) : Nat := (e.base2 b + off.signExtend 64).toNat

/-- R153: an immediate in an integer or logic word: sign-extended. -/
def immSext (x : HalfWord) : Word := x.signExtend 32

/-! ### Results of a word in one thread -/

/-- What a word writes in one thread. -/
structure Wr where
  regs : List (Nat × Word)
  preds : List (Nat × Bool)
  push : Option (Nat × Word)
  flags : Flags
  draws : Nat
deriving DecidableEq, Repr

namespace Wr
def none : Wr := ⟨[], [], Option.none, 0, 0⟩
/-- Words to a destination, with flags and draws. -/
def dst (d : Reg) (ws : List Word) (fl : Flags := 0) (draws : Nat := 0) : Wr :=
  match d with
  | .v n => ⟨ws.mapIdx fun i w => (n.toNat + i, w), [], Option.none, fl, draws⟩
  | .q n => ⟨[], [], some (n.toNat, ws.headD 0), fl, draws⟩
def vec (n : BitVec 8) (ws : List Word) (fl : Flags := 0) (draws : Nat := 0) : Wr := dst (.v n) ws fl draws
def pred (p : BitVec 3) (b : Bool) (fl : Flags := 0) : Wr := ⟨[], [(p.toNat, b)], Option.none, fl, 0⟩
end Wr

/-- The register part of a result applied to its thread. -/
def Wr.apply (w : Wr) (iw : Dword) (th : Thread) : Thread :=
  let th := { th with
    v := w.regs.foldl (fun v e => v.set e.1 e.2) th.v
    p := w.preds.foldl (fun p e => setPred p e.1 e.2) th.p
    draws := th.draws + BitVec.ofNat 48 w.draws }
  match w.push with
  | .none => th
  | .some (p, x) => th.pushPort p x (th.pc - 8) iw

/-! ### The issue of a word -/

/-- A word issued: its bundle, the threads that issued it, and those whose guard is true, in ascending order. -/
structure Issued where
  core : Nat
  pc : Dword
  word : Dword
  threads : List Nat
  active : List Nat
  /-- threads that no breakpoint or watchpoint stops at this word (R331) -/
  free : List Nat
deriving DecidableEq, Repr

/-- A thread's trap at an issued word. -/
def Issued.trap (is : Issued) (s : State) (t : Nat) (c : Cause) (ea : Nat := 0) (code : Nat := 0) : State :=
  takeTrap s t ⟨c, is.pc, is.word, ea, code, false⟩

/-- A thread that is held at an issued word. -/
def Issued.stall (is : Issued) (s : State) (t : Nat) (w : Why) : State :=
  (Machine.stall s t is.pc w).onThread t fun th => { th with freePass := is.free.contains t }

/-- R57: the register a thread may not name. -/
def namesBeyond (th : Thread) (u : Uses) : Bool := u.v.any fun n => decide (th.nregs ≤ n)

/-- R330: an armed instruction breakpoint at this word. -/
def ibrkAt (s : State) (c : Nat) (pc : Dword) : Bool :=
  sysBits s (RegNo.dbgCtl c) 0 2 2 == 1 && (List.range 8).any fun n =>
    let x := (sysGet s (RegNo.dbgIbp c n) 0).toNat
    bits x 63 63 == 1 && bits x 56 3 == bits pc.toNat 56 3

/-- R330: an armed watchpoint that the bytes of an access overlap. -/
def watchAt (s : State) (c va n : Nat) (rd wr : Bool) : Bool :=
  sysBits s (RegNo.dbgCtl c) 0 2 2 == 1 && (List.range 8).any fun i =>
    let x := (sysGet s (RegNo.dbgWp c i) 0).toNat
    let k := 2 ^ bits x 60 57
    let lo := bits x 56 0 / k * k
    bits x 63 63 == 1 && ((rd && bits x 62 62 == 1) || (wr && bits x 61 61 == 1)) && decide (lo < va + n ∧ va < lo + k)

/-- R56: a register the word names awaits a late result, or a port it pushes to awaits an earlier push; the guard's
predicate counts for every thread. -/
def pendingHazard (s : State) (t : Nat) (u : Uses) (g : Guard) (on : Bool) : Bool :=
  let th := s.thread t
  let gp := th.pend.any fun p => p.pred && p.dst.contains g.p.toNat
  gp || (on &&
    ((th.pend.any fun p => !p.uniform && p.dst.any fun r => if p.pred then u.p.contains r else u.v.contains r)
      || (th.pend.any fun p => (p.port.map u.sp.contains).getD false)
      || (!u.k.isEmpty && (s.groupThreads th.group).any fun o =>
            (s.thread o).pend.any fun p => p.uniform && p.dst.any u.k.contains)))

/-- R226: rows that a thread has pushed to a store port and that are not yet written. -/
def Thread.unwritten (th : Thread) (p : Nat) : Nat :=
  (th.ports.findD p []).length + (th.out.filter fun r => match r.acc with
    | .qstore q _ _ => q == p
    | _ => false).length

/-- R27: a port the word reads is empty, or one it writes is full. -/
def portHazard (th : Thread) (u : Uses) : Option Nat :=
  ((u.lp.find? fun p => (th.headWord p).isNone).orElse fun _ => u.sp.find? fun p => decide (16 ≤ th.unwritten p))

/-- R59, R226: a port that is not bound, a row at or beyond NROW, the fault of the streamed word at the head of a
load port, or the window fault of the word a store port would take. -/
def portFault (s : State) (th : Thread) (g : Group) (u : Uses) : Option (Cause × Nat) :=
  (u.lp ++ u.sp).findSome? fun p =>
    match g.qports.find? p with
    | none => some (.qportUnbound, 0)
    | some q =>
        let row := th.rows.findD p 0
        if q.nrow ≤ row then some (.qportUnbound, 0)
        else if p < 4 then (th.headWord p).bind PortEntry.fault
        else match targetOf s g.ctx g.core g.priv (streamVa q row th.lane) ⟨false, true, false⟩ with
          | .error c => some (c, streamVa q row th.lane)
          | .ok _ => none

/-- R323: an instruction that a thread with a faulted access may not issue: a memory access, a copy, a barrier, wait,
sign or cvwait, a trap or control instruction other than bra (the privileged ones and those that hand ports and
slots over among them), exit. -/
def awaitsReplay : Instr → Bool
  | .ld _ | .st _ | .ldk _ | .ldLoft _ | .atom _ | .red _ | .svpost _ | .svwait _ | .cpRows _ | .cpReduce _ | .cpColl _
  | .cpReady _ | .cpWait _ | .cpSeal _ | .accrd _ | .acccvt _ | .cuePop _ | .cuePush _ | .flatTake _ | .flatGive _ | .flatShare _
  | .qcfg _ | .qclose _ | .barBlk _ | .barCls _ | .barDev _ | .barDevSuper _ | .barArrive _ | .barWait _ | .wait _ | .sign _
  | .cvwait _ | .brx _ | .call _ | .ret _ | .exit _ | .yield _ | .suspend _ | .signal _ | .launch _ | .trap _ | .brk _ | .nop _
  | .csrw _ | .eret _ | .tlbinv _ | .ctxsave _ | .ctxload _ | .halt _ | .haltGo _ | .ctxkill _ | .dbgstep _ | .tblarm _ => true
  | _ => false

/-- R323: the log entry whose replay holds a thread at an instruction. -/
def replayHold (s : State) (t : Nat) (i : Instr) : Option Nat :=
  if awaitsReplay i then s.cores.items.findSome? fun k => k.2.log.items.findSome? fun e =>
    if e.2.faulted.contains t then some (256 * k.1 + e.1) else none
  else none

/-- The address of a memory word's access (R108, R217). -/
def memVa (i : Instr) (e : Env) : Option Nat :=
  match i with
  | .ld a | .st a | .ldk a => some (effAddr e a.base a.off)
  | .atom a | .red a => some (effAddr e a.base a.off)
  | .svpost a | .svwait a => some (effAddr e a.base a.off)
  | .barCls a | .barDev a | .barDevSuper a => some (e.base2 a.base).toNat
  | .barArrive a | .barWait a => some (e.base2 a.base).toNat
  | .launch a => some (e.base2 a.base).toNat
  | _ => none

/-- Earlier results, accesses or copies of the thread that the word awaits before it can issue: what a release
publishes (R120, R128, R133, R136), what an arrival and a read of %fsr record (R67), what precedes a copy (R132), a
csrw (R314), an exit (R251), an access to the flats that an acquire precedes (R121). -/
def mustDrain (s : State) (i : Instr) (t : Nat) : Bool :=
  let th := s.thread t
  let acquired := match memVa i (envOf s t) with
    | some va => inFlat va && acquiring th
    | none => false
  acquired || match i with
  | .st a => Order.releases a.order && !canRelease s t
  | .atom a | .red a => Order.releases a.order && !canRelease s t
  | .svpost _ | .cuePush _ | .cpReady _ | .signal _ | .launch _ => !canRelease s t
  | .barBlk _ | .barCls _ | .barDev _ | .barArrive _ | .sign _ => !canArrive s t
  | .barDevSuper _ => !canArrive s t || !th.unsealed.copies.isEmpty
  | .wait a => (maskOf (s.groupOf t) a.n.toNat).m.getLsbD th.lane && !canArrive s t
  | .exit _ => !th.pend.isEmpty
  | .movsRead a => a.sr == .fsr && !th.pend.isEmpty
  | .cpRows _ | .cpReduce _ | .cpColl _ | .accrd _ | .acccvt _ | .csrw _ => !accessesDone s t
  | _ => false

/-- R166: an instruction of the compatibility unit. -/
def isXop : Instr → Bool
  | .xfadd _ | .xfsub _ | .xfmul _ | .xfma _ | .xfdiv _ | .xfsqt _ | .xfcvt _ | .xfsetp _ | .xcvt2 _ | .xdiv _ | .xrem _ | .xshl2 _
  | .xshr2 _ | .xsar2 _ | .xmin2 _ | .xmax2 _ => true
  | _ => false

/-- R209: the mask of a lane or bundle operation. -/
def gatherMask : Instr → Option (BitVec 4)
  | .rndCat a => some a.m
  | .laneIdx a | .laneRise a | .laneFall a | .laneFlip a => some a.m
  | .pollAny a | .pollAll a => some a.m
  | .pollMap a => some a.m
  | .fold a | .pfx a => some a.m
  | .peers a => some a.m
  | _ => none

/-- R27: what holds a thread STALLED at a word, faults and breakpoints apart. A lane operation reads its source
whatever the guard (R209). -/
def waitsFor (s : State) (i : Instr) (t : Nat) : Option Why :=
  let th := s.thread t
  let on := guardHolds (guardOf i) th
  if pendingHazard s t (usesOf i) (guardOf i) (on || (gatherMask i).isSome) then some .result
  else if !on then none
  else match replayHold s t i with
  | some e => some (.replay e)
  | none => match portHazard th (usesOf i) with
      | some p => some (.port p)
      | none =>
          if isXop i && xopPending s t then some .result
          else if mustDrain s i t then some .drain
          else none

/-- What becomes of a thread at the word. -/
inductive Fate
  | trap (c : Cause) (ea : Nat)
  | stall (w : Why)
  | go
deriving DecidableEq, Repr

/-- R57, R59, R163, R309, R330: a thread at a word, before the word has any effect. -/
def fateOf (s : State) (i : Instr) (pc : Dword) (t : Nat) : Fate :=
  let th := s.thread t
  let g := s.groupOf t
  let u := (usesOf i)
  let fault := if guardHolds (guardOf i) th then portFault s th g u else none
  if !g.priv && !th.freePass && ibrkAt s g.ctx pc then .trap .ibrk 0
  else if !i.wf then .trap .undef 0
  else if isPrivileged i && !g.priv then .trap .priv 0
  else if namesBeyond th u then .trap .undef 0
  else match waitsFor s i t, fault with
  | some (.port _), some (c, ea) => .trap c ea
  | some w, _ => .stall w
  | none, some (c, ea) => .trap c ea
  | none, none => .go

/-- R30: the threads of a bundle that issue a class U word: those of one group, the others staying READY. -/
def oneGroup (s : State) (i : Instr) (ts : List Nat) : List Nat :=
  if (usesOf i).u then
    match ts with
    | [] => []
    | t :: _ => ts.filter fun o => (s.thread o).group == (s.thread t).group
  else ts

/-! ### Gathers (R46, R209) -/

/-- The gather in progress at a word that holds a thread: the one begun first. -/
def gatherAt (g : Group) (pc : Dword) (t : Nat) : Option Gather := g.gathers.find? fun x => x.pc == pc && x.parts.contains t

/-- A gather with one more thread arrived. -/
def Gather.arrive (x : Gather) (t : Nat) : Gather := { x with arrived := unionN x.arrived [t] }

/-- A thread arrives: at the gather that waits for it, or, its bit being set, at a new one of the mask's members. -/
def gatherArrive (m : Nat) (pc : Dword) (s : State) (t : Nat) : State :=
  let th := s.thread t
  let g := s.group th.group
  match gatherAt g pc t with
  | some z => s.onGroup th.group fun x => { x with gathers := x.gathers.replace z (z.arrive t) }
  | none =>
      let mask := (maskOf g m).m
      if mask.getLsbD th.lane then s.onGroup th.group fun x => { x with gathers := x.gathers ++ [⟨pc, lanesIn s th.group mask, [t]⟩] }
      else s

/-- The sets of participants, among threads at a word, for which it issues now: lone threads, and gathers whose every
participant has arrived and is among them. -/
def gatherSets (s : State) (pc : Dword) (ts : List Nat) : List (List Nat) :=
  ts.filterMap fun t =>
    match gatherAt (s.groupOf t) pc t with
    | none => some [t]
    | some x =>
        let ps := ts.filter fun u => gatherAt (s.groupOf u) pc u == some x
        if ps.head? = some t ∧ x.parts.all ps.contains then some ps else none

/-- Threads come to a lane operation: who issues now; the others are held. -/
def gatherGo (m : BitVec 4) (pc : Dword) (ts : List Nat) (s : State) : List Nat × State :=
  let s := ts.foldl (gatherArrive m.toNat pc) s
  let go := (gatherSets s pc ts).flatten
  (ts.filter go.contains, (ts.filter fun t => !go.contains t).foldl (fun s t => stall s t pc .gather) s)

/-! ### Room (R27, R234, R239, R260, R283, R322) -/

/-- The threads of an issue whose instruction finds no room, of those that are active: no entry of the operand log, no
copy to spare, no place in a cue queue, the ready table or the reservation table; and what is counted (R329). -/
def roomless (s : State) (i : Instr) (core : Nat) (ts : List Nat) : List Nat × Option Nat :=
  let log := fun (l : List Nat) => match l with
    | [] => ([], none)
    | t :: _ => if (freeEntry s core (s.privOf t)).isNone then (l, some 5) else ([], none)
  let copies := if ts.length + copiesOf s core ≤ 2048 then ([], none) else (ts.drop (2048 - copiesOf s core), some 6)
  let table := fun (n : BitVec 4) => match ts with
    | [] => ([], none)
    | t :: _ => if (entryFor s (s.blockIdOf t) n.toNat).isNone then (ts, none) else ([], none)
  match i with
  | .cuePop _ => log ts
  | .cuePush a =>
      let handle := fun t => ((envOf s t).base2 a.base).toNat
      -- in ascending lane order, as many to each queue as it has places
      let surplus := ts.filter fun t => match (s.part (s.partOf t)).cues.find? (handle t) with
        | some q => decide (q.cap ≤ q.entries.length + ((ts.takeWhile (· != t)).filter fun u => handle u == handle t).length)
        | none => false
      if (log ts).1.isEmpty then (surplus, none) else log ts
  | .cpRows _ | .cpReduce _ | .cpColl _ | .accrd _ | .acccvt _ => copies
  | .cpReady a => match ts with
      | [] => ([], none)
      | t :: _ =>
          let x := (s.part (s.partOf t)).ready
          -- the threads of one issue name one identifier
          if 1024 ≤ x.length ∨ x.any fun r => r.tid == (s.groupOf t).k.findD (a.k.toNat + 2) 0 then (ts, none) else (ts.drop 1, none)
  | .wlatch a => table a.n
  | .mmpost a => table a.n
  | _ => log (ts.filter fun t => match memVa i (envOf s t) with
      | some va => !inFlat va
      | none => false)

/-- Of the threads that nothing in themselves stops, those that issue the word now: a lane operation gathers (R46), and
what finds no room is held. -/
def takeIn (i : Instr) (b : Bundle) (ts : List Nat) (s : State) : List Nat × State :=
  match gatherMask i with
  | some m => gatherGo m b.pc ts s
  | none =>
      let (l, n) := roomless s i b.core (ts.filter fun t => guardHolds (guardOf i) (s.thread t))
      let s := match n with
        | some k => if l.isEmpty then s else pmc s b.core k 1
        | none => s
      (ts.filter fun t => !l.contains t, l.foldl (fun s t => stall s t b.pc .room) s)

/-- The PC of every issuing thread advances (R26); its debug free pass is used up (R331). -/
def advance (s : State) (ts : List Nat) (pc : Dword) : State :=
  let s := s.onThreads ts fun _ th => { th with pc := pc + 8, freePass := false, readyAt := s.clk, passed := 0 }
  ts.foldl (fun s t => s.onBlock (s.blockIdOf t) fun b => { b with lastIssue := s.clk }) s

/-- Of a bundle at its word, the threads that issue it. -/
def onlyThese (s : State) (b : Bundle) (ts : List Nat) : State := { s with issue := .bundle { b with threads := ts } }

/-- A word reaches the threads of a bundle: some trap, some are held; the others issue it, their PCs advance, and
`body` says what it does. What a trap ends (R319, R321) takes no further part. -/
def issueWord (i : Instr) (b : Bundle) (s : State) (body : Issued → State → State) : State :=
  let ts := oneGroup s i b.threads
  let rest := b.threads.filter fun t => !ts.contains t
  let s := if rest.isEmpty then s else s.onCore b.core fun c => { c with bundles := rest :: c.bundles }
  let fates := ts.map fun t => (t, fateOf s i b.pc t)
  let s := fates.foldl (fun s f => match f.2 with
    | .trap c ea =>
        if (s.thread f.1).held != .ready then s else
        let s := takeTrap s f.1 ⟨c, b.pc, b.word, ea, 0, false⟩
        -- a streamed word that faulted is read again (R226)
        s.onThread f.1 fun th =>
          (usesOf i).lp.foldl (fun th p => if ((th.headWord p).bind PortEntry.fault).isSome then th.rewindPort p else th) th
    | .stall w => if (s.thread f.1).held == .ready then stall s f.1 b.pc w else s
    | .go => s) s
  let free := (fates.filterMap fun f => if f.2 = .go then some f.1 else none).filter fun t => (s.thread t).held == .ready
  let (go, s) := takeIn i b free s
  if go.isEmpty then onlyThese s b []
  else
    let is : Issued := ⟨b.core, b.pc, b.word, go, go.filter fun t => guardHolds (guardOf i) (s.thread t),
      go.filter fun t => (s.thread t).freePass⟩
    body is (pmc (pmc (advance (onlyThese s b go) go b.pc) b.core 0 1) b.core 1 go.length)

/-- THE MEANING OF A WORD, the one form behind every instruction of a bundle. -/
def word (i : Instr) (s : State) (body : Issued → State → State) : Host.Outcome State Fault Refusal :=
  match s.issue with
  | .bundle b => .next (issueWord i b s body)
  | _ => .next s

/-! ### Bodies -/

/-- Flags ORed into %fsr of a thread's group (R67). -/
def orFlags (s : State) (g : Nat) (fl : Flags) : State := if fl = 0 then s else s.onGroup g fun x => { x with fsr := x.fsr ||| fl }

/-- The instruction word being issued. -/
def issuedWord (s : State) : Dword :=
  match s.issue with
  | .bundle b => b.word
  | _ => 0

/-- Results of a word landed in the threads that have one: each pops its load ports and writes; flags are ORed by
group. -/
def land (i : Instr) (rs : List (Nat × Wr)) (s : State) : State :=
  let u := (usesOf i)
  let s := s.onThreads (rs.map Prod.fst) fun t th =>
    let th := u.lp.foldl Thread.popPort th
    ((rs.find? fun r => r.1 == t).map fun r => r.2.apply (issuedWord s) th).getD th
  rs.foldl (fun s r => orFlags s (s.thread r.1).group r.2.flags) s

/-- Results written at issue: every active thread reads its operands in the state before the word. -/
def lanesBody (i : Instr) (f : State → Env → Wr) (is : Issued) (s : State) : State :=
  land i (is.active.map fun t => (t, f s (envOf s t))) s

/-- R56: results written late: they are recorded at issue and land by LATE_RESULT_WRITE; `sfu` marks results that
R317 waits for. Draws and pops are made at issue. -/
def lateBody (i : Instr) (sfu : Bool) (f : State → Env → Wr) (is : Issued) (s : State) : State :=
  let u := (usesOf i)
  let rs := is.active.map fun t => (t, f s (envOf s t))
  let n := s.ctr
  let s := { s with ctr := s.ctr + is.active.length }
  s.onThreads is.active fun t th =>
    let th := u.lp.foldl Thread.popPort th
    match rs.findIdx? fun r => r.1 == t with
    | none => th
    | some k =>
        let w := ((rs[k]?).map Prod.snd).getD .none
        { th with
          draws := th.draws + BitVec.ofNat 48 w.draws
          pend := th.pend ++ [
            { id := n + k, dst := w.regs.map Prod.fst ++ w.preds.map Prod.fst, uniform := false, pred := !w.preds.isEmpty,
              port := w.push.map Prod.fst,
              vals := some (match w.push with
                | some (_, x) => [x]
                | none => if w.preds.isEmpty then w.regs.map Prod.snd else w.preds.map fun e => if e.2 then 1 else 0),
              flags := w.flags, sfu := sfu, pc := is.pc, iw := is.word }] }

/-- R32: a uniform register written whole by one issue. -/
def setK (s : State) (g n : Nat) (x : Word) : State := s.onGroup g fun y => { y with k := y.k.set n x }

/-- A plain arithmetic word. -/
def alu (i : Instr) (s : State) (f : State → Env → Wr) : Host.Outcome State Fault Refusal := word i s (lanesBody i f)
/-- A special function. -/
def sfu (i : Instr) (s : State) (f : State → Env → Wr) : Host.Outcome State Fault Refusal := word i s (lateBody i true f)

/-- Each active thread in turn, in ascending lane order. -/
def eachActive (is : Issued) (s : State) (f : State → Nat → State) : State := is.active.foldl f s

end Sys2Proof.Machine
end

