-- ==== Sys2Proof/Machine/Poison.lean ====
section
/-! DEFINITION. Uncorrectable errors (R379, R380): the error log, what a detection does to the owner, and what
a reader of poisoned data meets. -/

namespace Sys2Proof.Machine

/-- R380: the SRC codes. -/
def ErrSrc.code : ErrSrc → Nat
  | .hbm => 0 | .msc => 1 | .l2 => 2 | .l1 => 3 | .flat => 4 | .loft => 5 | .regfile | .tile => 6

/-- R380: an entry of the log: 16 are held, further ones are counted, up to 7. -/
def ueLogAdd (s : State) (d : Nat) (e : UeEntry) : State :=
  s.onDie d fun x =>
    if x.ueLog.length < 16 then { x with ueLog := x.ueLog ++ [e] } else { x with ueLost := min 7 (x.ueLost + 1) }

/-- R380: a context that can be ended: one assigned to a partition. -/
def liveCtx (s : State) (o : Byte) : Bool := o != 0xFF && (s.ctxPart o.toNat).isSome

/-- R380, R381: a detection: an entry is logged; a live owner is ended, once. -/
def detectUe (s : State) (src : ErrSrc) (d addr : Nat) (o : Byte) : State :=
  let live := liveCtx s o
  let s := ueLogAdd s d ⟨ErrSrc.code src, o, live, addr % 2 ^ 48⟩
  if live then endContext s o.toNat else s

/-- R380: what a poisoned datum of a store then holds is free. -/
def spoil (s : State) (m : Memory) (k n : Nat) : Memory × State :=
  let (b, s) := s.freeBytes n
  (Memory.writeN m k b, s)

/-- R380: a line of a die's HBM4 is poisoned. -/
def poisonLine (s : State) (d pa : Nat) : State :=
  let (m, s) := spoil s s.hbm (hbmKey d (pa / 128 * 128)) 128
  { s with hbm := m }.onDie d fun y => { y with poisonHbm := unionN y.poisonHbm [pa / 128] }

/-- R380: a thread reads poisoned data: the detection, and whether the reader takes MEMERR: a context other than
an owning one. -/
def meetPoison (s : State) (t : Nat) (src : ErrSrc) (d addr : Nat) (o : Byte) : Bool × State :=
  let other := o != 0xFF && s.ctxOf t != o.toNat
  (other, detectUe s src d addr o)

/-- R380, R316: MEMERR in a thread, at the word whose read met the poison. A thread that its access was to hold
is held no more. -/
def memErr (s : State) (t : Nat) (pc iw : Dword) (va : Nat) : State :=
  if (s.thread t).held == .exited then s
  else
    let s := if (s.thread t).held == .waiting then setReady s t else s
    takeTrap s t ⟨.memerr, pc, iw, va, 0, false⟩

end Sys2Proof.Machine
end

