-- ==== Sys2Proof/Machine/Requests.lean ====
section
/-! DEFINITION. Memory accesses of threads, at issue (R108..R111, R219, R322): addresses and precise faults, the
operand log, requests on their way, accesses to the flats performed at the bank, and the arithmetic of atomics
(R229). -/

namespace Sys2Proof.Machine

/-! ### Values (R221, R229) -/

/-- R160: bytes of a load type. -/
def LT.bytes : LT → Nat
  | .u8 | .i8 => 1 | .u16 | .i16 => 2 | .b32 => 4 | .b64 => 8 | .b128 => 16

/-- R221: what a load writes, from the bytes it read. -/
def LT.value (lt : LT) (b : List Byte) : List Word :=
  let x := natOfBytes b
  match lt with
  | .i8 => [(BitVec.ofNat 8 x).signExtend 32]
  | .i16 => [(BitVec.ofNat 16 x).signExtend 32]
  | .u8 | .u16 | .b32 => [BitVec.ofNat 32 x]
  | .b64 | .b128 => wordsOfBytes b

def AT.bytes : AT → Nat
  | .i64 => 8
  | _ => 4

/-- The words an atomic's value register group holds, joined. -/
def joinWords (l : List Word) : Nat := natOfBytes (bytesOfWords l)

def signedOf (n x : Nat) : Int := if 2 ^ (n - 1) ≤ x then (x : Int) - 2 ^ n else x

/-- R229: the new value of a word or double, if it is written; `b` the value operand, for cas (compare, new). -/
def atomNew (op : AOp) (ty : AT) (old : Nat) (b : List Word) : Option Nat :=
  let n := 8 * AT.bytes ty
  let sgn := ty == .i32 || ty == .i64
  let x := joinWords b % 2 ^ n
  let w := BitVec.ofNat 32 old
  let y := BitVec.ofNat 32 x
  let less := fun p q => if sgn then decide (signedOf n p < signedOf n q) else decide (p < q)
  match op with
  | .add => some (match ty with
      | .f32 => (onF32 (Fmt.f32.add .exactRne old x)).1.toNat
      | .bf16x2 => (addHalves .bf16 w y).1.toNat
      | .f16x2 => (addHalves .f16 w y).1.toNat
      | _ => (old + x) % 2 ^ n)
  | .sub => some ((old + (2 ^ n - x)) % 2 ^ n)
  | .min => some (if ty == .f32 then (Fmt.f32.minMax false false old x).1 else if less x old then x else old)
  | .max => some (if ty == .f32 then (Fmt.f32.minMax true false old x).1 else if less old x then x else old)
  | .and => some (Nat.land old x)
  | .or => some (Nat.lor old x)
  | .xor => some (Nat.xor old x)
  | .exch => some x
  | .cas => if old = x then some (joinWords b / 2 ^ n % 2 ^ n) else none
  | .inc => some (if x ≤ old then 0 else old + 1)
  | .dec => some (if old = 0 ∨ x < old then x else old - 1)

/-- The words an atomic returns. -/
def atomOld (ty : AT) (old : Nat) : List Word := wordsOfBytes (bytesOfNat (AT.bytes ty) old)

/-! ### An access at issue -/

/-- What one thread's instruction asks of memory. -/
structure Access where
  va : Nat
  size : Nat
  align : Nat
  read : Bool
  write : Bool
  order : Order
  scope : Scope
  ops : List Word
  acc : Acc
  /-- the registers a result will be written to, and whether they are uniform -/
  dst : Option (List Nat × Bool)
  /-- may lie in the flat aperture -/
  flatOk : Bool
  /-- an L1 atomic (R129) -/
  l1 : Bool

def Access.perm (a : Access) : Perm := ⟨a.read, a.write, false⟩
/-- R120: an access that is, or performs, a release. -/
def Access.releases (a : Access) : Bool := Order.releases a.order

/-- R108..R111: the place of an access, with the precise faults: VA_RANGE, VA_PERM, MISALIGNED, the flat faults. -/
def accessTarget (s : State) (t : Nat) (a : Access) : Except Cause Target :=
  let x := targetOf s (s.ctxOf t) (s.coreOf t) (s.privOf t) a.va a.perm
  if 2 ^ 57 ≤ a.va then .error .vaRange
  else if inFlat a.va then
    if !a.flatOk then .error .vaRange else if a.va % a.align ≠ 0 then .error .misaligned else x
  else match x with
    | .error c => .error c
    | .ok x =>
        if a.va % a.align ≠ 0 then .error .misaligned
        else if a.size ≤ 16 then .ok x
        else match targetOf s (s.ctxOf t) (s.coreOf t) (s.privOf t) (a.va + a.size - 1) a.perm with
          | .error c => .error c
          | .ok _ => .ok x

/-- R330: the kinds of access a watchpoint takes this one for: reading, writing. -/
def Access.watched (a : Access) : Bool × Bool :=
  match a.acc with
  | .svwait _ => (true, true)
  | .barWait | .launch _ _ | .qstore _ _ _ | .qload _ | .record => (false, false)
  | _ => (a.read, a.write)

/-- R219, R330: the precise faults and then the watchpoints. -/
def accessCheck (s : State) (is : Issued) (t : Nat) (a : Access) : Except Cause Target :=
  match accessTarget s t a with
  | .error c => .error c
  | .ok x =>
      if !s.privOf t && !is.free.contains t && watchAt s (s.ctxOf t) a.va a.size a.watched.1 a.watched.2 then .error .watch else .ok x

/-- R389: a release at .sys follows the host writes it publishes by a zero-length read. `own`: the stores of the
access that is the release. -/
def releaseMem (s : State) (t : Nat) (sc : Scope) (fence : Bool) (own : List Nat := []) : Nat × State :=
  let host := s.pkg.sent.any fun m => match m with
    | .hostWrite _ _ _ => true
    | _ => false
  release (if sc = .sys ∧ host then s.send .hostFlush else s) t sc fence own

/-! ### The operand log (R322) -/

/-- The log entry of a request. -/
def entryOf (s : State) (r : Req) : Option LogEntry := logAt s r.entry
/-- The word of a request and its address, for a trap record. -/
def reqWord (s : State) (r : Req) : Dword × Dword :=
  match r.acc with
  | .qstore _ pc iw => (pc, iw)
  | _ => match entryOf s r with
      | some e => (e.pc, e.word)
      | none => (0, 0)

/-! ### Results -/

/-- An access with the number of its late result. -/
def Acc.withPend (a : Acc) (n lead : Nat) : Acc :=
  match a with
  | .load lt _ => .load lt n
  | .ldk lt _ _ => .ldk lt lead n
  | .launch q _ => .launch q n
  | .atom o ty (some _) => .atom o ty (some n)
  | .bar su (some _) => .bar su (some n)
  | x => x

/-- An access that reads what stands at its location, a red's update among them (R380). -/
def Acc.readsMem : Acc → Bool
  | .store _ | .qstore _ _ _ | .record => false
  | _ => true

/-- A thread's awaited result arrives. -/
def finish (s : State) (t : Nat) (id : Option Nat) (ws : List Word) : State :=
  match id.bind fun i => (s.thread t).pend.find? fun p => p.id == i with
  | some p => landPend s t { p with vals := some ws }
  | none => s

/-- A result written at once. -/
def writeRegs (s : State) (t : Nat) (dst : Option (List Nat × Bool)) (ws : List Word) : State :=
  match dst with
  | none => s
  | some (ds, false) => s.onThread t fun th => { th with v := (ds.zip ws).foldl (fun v e => v.set e.1 e.2) th.v }
  | some (ds, true) => (ds.zip ws).foldl (fun s e => setK s (s.thread t).group e.1 e.2) s

/-- R254: a launch packet that lies in the flats, 64 bytes at a time. -/
def flatPacket (s : State) (t va n : Nat) : Except Cause (List Byte) :=
  (List.range (n / 64)).foldl (fun acc i =>
    match acc, targetOf s (s.ctxOf t) (s.coreOf t) (s.privOf t) (va + 64 * i) ⟨true, false, false⟩ with
    | .ok b, .ok (.flat d k o) => .ok (b ++ flatRead s d k o 64)
    | .ok _, .ok (.mem _) => .error .vaRange
    | .ok _, .error c => .error c
    | .error c, _ => .error c) (.ok [])

/-! ### The flats: performed at the bank, at issue (R111, R129, R221) -/

/-- One thread's access performed at its bank. R111 lets a thread's accesses to different addresses be performed in any
order; the model performs them in program order, each at its issue, and both halves of a packed atomic at once
(DESIGN CHOICE, log entry 66). -/
def flatAccess (s : State) (is : Issued) (t : Nat) (a : Access) (d bank off : Nat) : State :=
  let n := a.size
  let poisoned := a.acc.readsMem && flatPoisoned s d bank off n
  let (err, s) := if poisoned then meetPoison s t .flat d (bankKey d bank off / 4) (bankOwner s d bank) else (false, s)
  if err then memErr s t is.pc is.word a.va
  else if (s.thread t).held == .exited then s
  else
    let old := flatRead s d bank off n
    let rels := flatRels s d bank off n
    let (own, s) := if a.releases then let (i, s) := releaseMem s t a.scope (a.order == .ar); ([i], s) else ([], s)
    let s := match a.acc with
      | .load lt _ | .ldk lt _ _ => writeRegs s t a.dst (LT.value lt old)
      | .store _ => setFlatRels (flatWrite s d bank off ((bytesOfWords a.ops).take n)) d bank off n own
      | .atom op ty _ =>
          let x := natOfBytes old
          let s := match atomNew op ty x a.ops with
            | some y => setFlatRels (flatWrite s d bank off (bytesOfNat n y)) d bank off n (unionN own rels)
            | none => s
          writeRegs s t a.dst (atomOld ty x)
      | .launch q _ => match flatPacket s t a.va n with
          | .ok b => let (st, s) := lqPush s (s.partOf t) q own b; writeRegs s t a.dst [BitVec.ofNat 32 st]
          | .error c => is.trap s t c a.va
      | _ => s
    if Order.acquires a.order then acquire s t a.scope rels (a.order == .ar) else s

/-! ### L1 (R24, R119) -/

/-- The newest bytes of a location, wherever they stand, without a translation; none in host frames. -/
def peek (s : State) (l : Loc) (n : Nat) : Option (List Byte) :=
  if l.phys then some (physRead s l.die l.ia n)
  else match lineAt s l with
    | some x => some ((x.data.drop (l.ia % 128)).take n)
    | none => match leafOf s l.die l.ia with
        | none => none
        | some f => match walk (some { f with raw := f.raw &&& ~~~(1#64 <<< 62) }) l false false with
            | .ok pa _ => if pa ≥ hostFrames then none else some (physRead s l.die pa n)
            | _ => none

def lineId (l : Loc) : Nat × Nat := ((l.die * 2 + if l.dieLocal then 1 else 0), l.ia / 128)

/-- R114: is the page of a location stable? -/
def stableAt (s : State) (l : Loc) : Bool := !l.phys && ((leafOf s l.die l.ia).map fun f => f.bit 61).getD false

/-- A thread's bytes of a location, with the stores they come from: of a stable page each word as it was at the launch
or as written since (R114); otherwise each 8 in one read (R221). -/
def loadBytes (s : State) (t : Nat) (v : Viewer) (l : Loc) (home : List Byte) : (List Byte × List Nat) × State :=
  if l.phys then ((home, []), s)
  else if stableAt s l then
    let (b, s) := mixRead s (s.launchOf t).mark l home
    ((b, []), s)
  else
    ((chunks 8 home.length home).foldl (fun (acc, s, off) c =>
      let (r, s) := histRead s v { l with ia := l.ia + off } c
      ((acc.1 ++ r.1, unionN acc.2 r.2), s, off + 8)) ((([], []) : List Byte × List Nat), s, 0)) |> fun x => (x.1, x.2.1)

/-- A word of a queue stream: a plain access in no order with the others of its thread but at one line (R226). -/
def Req.isStream (r : Req) : Bool :=
  match r.acc with
  | .qstore _ _ _ | .qload _ => true
  | _ => false

/-- Two places of one line, or homed at one slice. -/
def sameLine (a b : Loc) : Bool := a.die == b.die && a.dieLocal == b.dieLocal && a.phys == b.phys && a.ia / 128 == b.ia / 128
def sameSlice (a b : Loc) : Bool := a.die == b.die && homeSlice a.ia == homeSlice b.ia

/-- R110, R120, R121, R308: of a thread's earlier requests, does this one hold back another? Requests to one slice keep
their order; what follows an acquire awaits it, and an acquire or a release awaits what precedes it. -/
def Req.holdsBack (x : Req) (stream acq : Bool) (l : Loc) : Bool :=
  if x.isStream || stream then sameLine x.loc l
  else Order.acquires x.order || acq || sameSlice x.loc l

/-- Nothing earlier of its thread holds a request back. -/
def mayPass (l : List Req) (r : Req) : Bool :=
  (l.takeWhile fun x => x.seq != r.seq).all fun x => !x.holdsBack r.isStream (Order.acquires r.order || Order.releases r.order) r.loc

/-- A plain load that L1 serves at issue, where it holds the line: the part may serve it so. -/
def l1Serves (s : State) (t : Nat) (a : Access) (l : Loc) : Option (List Byte) :=
  match a.acc, a.order with
  | .load _ _, .none =>
      if ((s.thread t).out.all fun x => !x.holdsBack false false l) && !l.phys && (s.core (s.coreOf t)).l1.contains (lineId l) then
        peek s l a.size
      else none
  | _, _ => none

/-! ### The issue of memory instructions -/

/-- A request of a thread enters its queue, and its result is awaited. -/
def addReq (s : State) (is : Issued) (t : Nat) (a : Access) (l : Loc) (seq entry lead pend : Nat) : State :=
  let r : Req := ⟨seq, a.acc.withPend pend lead, some entry, a.va, l, a.size, a.read, a.write, a.order, a.scope, a.ops, .sent, a.l1 && !l.phys, none⟩
  s.onThread t fun th =>
    { th with
      out := th.out ++ [r]
      pend := match a.dst with
        | some (ds, u) => if u && t != lead then th.pend
            else th.pend ++ [⟨pend, ds, u, false, none, none, 0, false, is.pc, is.word⟩]
        | none => th.pend }

/-- What an access does to its thread once it is on its way: a wait holds it at the word. -/
def holdFor (s : State) (is : Issued) (t : Nat) (a : Access) : State :=
  match a.acc with
  | .svwait _ => waitAt s t is.pc .sv
  | .bar _ none | .barWait => waitAt s t is.pc .barSent
  | _ => s

/-- A memory word: addresses and precise faults; accesses to flats performed at their bank, in lane order; loads that L1
serves; the others into the operand log and on their way. -/
def memBody (f : State → Env → Access) (is : Issued) (s : State) : State :=
  let accs := is.active.map fun t => (t, f s (envOf s t))
  let (checked, s) := accs.foldl (fun (l, s) x =>
    let v := windowView s x.1
    (l ++ [(x.1, x.2, accessCheck v.1 is x.1 x.2)], v.2)) (([] : List (Nat × Access × Except Cause Target)), s)
  let s := checked.foldl (fun s x => match x.2.2 with
    | .error c => if (s.thread x.1).held == .ready then is.trap s x.1 c x.2.1.va else s
    | .ok _ => s) s
  let go := checked.filterMap fun x => match x.2.2 with
    | .ok p => if (s.thread x.1).held == .ready then some (x.1, x.2.1, p) else none
    | .error _ => none
  let s := go.foldl (fun s x => match x.2.2 with
    | .flat d b o => if (s.thread x.1).held == .ready then flatAccess s is x.1 x.2.1 d b o else s
    | .mem _ => s) s
  let mems := go.filterMap fun x => match x.2.2 with
    | .mem l => if (s.thread x.1).held == .ready then some (x.1, x.2.1, l) else none
    | .flat _ _ _ => none
  -- L1
  let (s, rest) := mems.foldl (fun (s, rest) (x : Nat × Access × Loc) =>
    match l1Serves s x.1 x.2.1 x.2.2, x.2.1.acc with
    | some home, .load lt _ =>
        let (b, s) := s.coin
        if b then
          let (r, s) := loadBytes s x.1 (viewer s x.1) x.2.2 home
          (writeRegs s x.1 x.2.1.dst (LT.value lt r.1), rest)
        else (s, rest ++ [x])
    | _, _ => (s, rest ++ [x])) (s, [])
  match rest with
  | [] => s
  | x :: _ =>
      -- what issues has a free entry (R322)
      let e := (freeEntry s is.core (s.privOf x.1)).getD 0
      let s := s.onCore is.core fun c =>
        { c with log := c.log.set e ⟨is.word, is.pc, rest.map Prod.fst, [], [], s.privOf x.1⟩ }
      let (seq, s) := s.tick
      rest.foldl (fun s y =>
        let (n, s) := if y.2.1.dst.isSome then s.tick else (0, s)
        holdFor (addReq s is y.1 y.2.1 y.2.2 seq (256 * is.core + e) x.1 n) is y.1 y.2.1) s

end Sys2Proof.Machine
end

