-- ==== Sys2Proof/Machine/Faults.lean ====
section
/-! DEFINITION. Late faults (R322, R323, R370, R371): fault records and their notices, denial, and what a wait in
memory is released by (R231, R247). -/

namespace Sys2Proof.Machine

/-! ### Denial (R323, R371) -/

/-- The threads of an entry whose access is at fault. -/
def faultedOf (s : State) (t : Nat) (r : Req) : List Nat :=
  match entryOf s r with
  | some e => e.threads.filter fun u => (s.thread u).out.any fun x => x.entry == r.entry && match x.st with
      | .fault _ | .denied => true
      | _ => false
  | none => [t]

/-- A request changed, wherever it stands in its thread's queue. -/
def setReqSt (s : State) (t seq : Nat) (st : ReqSt) : State :=
  s.onThread t fun th => { th with out := th.out.map fun (r : Req) => if r.seq == seq then { r with st := st } else r }

/-- R226: a word of a load stream that faulted: the fault stands at its place in the port, for the pop. -/
def portFaulted (s : State) (t : Nat) (r : Req) (p : Nat) (c : Cause) : State :=
  s.onThread t fun th =>
    { th with out := th.out.filter fun x => x.seq != r.seq }.arrive p ⟨(r.ops.headD 0).toNat, 0, some (c, r.va), 0, 0⟩

/-- A thread's access denied: an S trap with LOGGED set. The access of a thread that has exited is dropped. -/
def denyAccess (s : State) (t : Nat) (r : Req) (reason : FaultReason) : State :=
  if (s.thread t).held == .exited then
    passEntry (s.onThread t fun th => { th with out := th.out.filter fun x => x.seq != r.seq }) t r
  else match r.acc with
  | .qload p => portFaulted s t r p (if reason = .stable then .stableWrite else .pageFault)
  | _ =>
  let s := setReqSt s t r.seq .denied
  let n := (faultedOf s t r).length
  let s := match r.entry with
    | some e => s.onCore (e / 256) fun c =>
        { c with log := c.log.modify (e % 256) fun x => { x with faulted := unionN x.faulted [t] } }
    | none => s
  let w := reqWord s r
  takeTrap s t ⟨if reason = .stable then .stableWrite else .pageFault, w.1, w.2, r.va, n, true⟩

/-! ### Fault records (R370) -/

/-- The kinds of requests that records tell apart: read, write, fetch. -/
def reqKind (write fetch : Bool) : Nat := if fetch then 2 else if write then 1 else 0

/-- The 32-byte record. -/
def faultBytes (id : Nat) (f : FaultRec) (wb : Bool) : List Byte :=
  bytesOfNat 8 (f.va % 2 ^ 57) ++ bytesOfNat 8 (f.ia % 2 ^ 48)
    ++ bytesOfNat 4 (f.ctx + f.reason * 2 ^ 8 + (if f.kind = 1 then 2 ^ 12 else 0) + (if f.kind = 2 then 2 ^ 13 else 0)
        + (if wb then 2 ^ 14 else 0) + id * 2 ^ 16)
    ++ bytesOfNat 4 (min f.count (2 ^ 32 - 1)) ++ bytesOfNat 4 f.core ++ bytesOfNat 4 0

/-- Where a record lies. -/
def faultAddr (s : State) (p id : Nat) : Nat := sysBits s RegNo.faultArea p 56 17 * 2 ^ 17 + 32 * id

/-- What a faulting request meets. -/
inductive FaultHold
  | held (id : Nat)
  /-- XLT_FAULTQ names no queue: denied as it is raised -/
  | deny
  /-- every id is outstanding -/
  | wait
deriving DecidableEq, Repr

/-- A record outstanding for the same context, page and kind. -/
def faultFor (s : State) (p : Nat) (l : Loc) (kind : Nat) : Option Nat :=
  ((s.part p).faults.items.find? fun e =>
    e.2.ctx == l.ctx && e.2.page == l.ia / 65536 && e.2.kind == kind).map Prod.fst

/-- A new record with its notice: the record, then the push at .dev. -/
def newFault (s : State) (p h : Nat) (f : FaultRec) : Nat × State :=
  let (k, s) := s.pick 4096
  let ids := (List.range 4096).map fun i => (k + i) % 4096
  let id := (ids.find? fun i => !(s.part p).faults.has i).getD 0
  let s := sysPut s RegNo.faultAddr p (BitVec.ofNat 64 (f.va % 2 ^ 57))
  let s := s.onPart p fun x => { x with faults := x.faults.set id f }
  (id, recordPush s p (some (faultAddr s p id, faultBytes id f (!f.wbs.isEmpty))) h
    (BitVec.ofNat 64 (id + (f.reason * 2 ^ 8 + f.ctx) * 2 ^ 32)))

/-- The fault queue of a partition, where XLT_FAULTQ names one registered. -/
def faultQueue (s : State) (p : Nat) : Option Nat :=
  let h := (sysGet s RegNo.faultQ p).toNat
  if h = 0 ∨ !(s.part p).cues.has h then none else some h

/-- A faulting request joins a record or starts one. -/
def holdFault (s : State) (p : Nat) (l : Loc) (va core kind n : Nat) (r : FaultReason) (fetchers : List Nat) (wb : Option Line) :
    FaultHold × State :=
  match faultQueue s p with
  | none => (.deny, s)
  | some h =>
      match faultFor s p l kind with
      | some id =>
          -- the count of the record in memory follows
          let s := s.onPart p fun x => { x with faults := x.faults.modify id fun f =>
            { f with count := f.count + n, fetchers := f.fetchers ++ fetchers,
                     wbs := (f.wbs.filter fun x => wb.all fun y => y.line != x.line || y.dieLocal != x.dieLocal) ++ wb.toList } }
          let s := match (s.part p).faults.find? id with
            | some f => agentPut s p [] (faultAddr s p id + 20) (bytesOfNat 4 (min f.count (2 ^ 32 - 1)))
            | none => s
          (.held id, s)
      | none =>
          if 4096 ≤ (s.part p).faults.size then (.wait, s)
          else
            let f : FaultRec := ⟨l.ctx, l.ia / 65536, l.die, kind, FaultReason.code r, va, l.ia, core, n, fetchers, wb.toList⟩
            let (id, s) := newFault s p h f
            (.held id, s)

/-- Thread accesses that the translator faulted: the members of one run. The store of a U handler's trap record is dropped
(R318). -/
def faultRun (s : State) (ms : List (Nat × Req)) (l : Loc) (va : Nat) (r : FaultReason) : State :=
  match ms with
  | [] => s
  | (t, r0) :: _ =>
      if r0.acc = .record then s.onThread t fun th => { th with out := th.out.filter fun x => x.seq != r0.seq }
      else match holdFault s (s.partOf t) l va (s.coreOf t) (reqKind r0.write false) ms.length r [] none with
      | (.held id, s) => ms.foldl (fun s m => setReqSt s m.1 m.2.seq (.fault id)) s
      | (.deny, s) => ms.foldl (fun s m => denyAccess s m.1 m.2 r) (ms.foldl (fun s m => setReqSt s m.1 m.2.seq .denied) s)
      | (.wait, s) => s

/-! ### Write-backs (R370..R372) -/

/-- A line goes to its memory and leaves its slice. -/
def putBack (s : State) (x : Line) (pa : Nat) (leaf : Leaf) : State :=
  let s := dropLine s x
  if pa ≥ hostFrames then hostWrite s 0 ⟨x.die, x.line * 128, x.dieLocal, false, x.owner.toNat, 0⟩ pa true x.data else physWrite s x.die pa (some leaf.owner) x.data

/-- A line leaves its slice, a dirty one by its write-back. A write-back at fault joins a record of the owning context, or
starts one; the line stays, but for that of a tlbinv (`bypass`), while the record holds the write-back. Denied, its
data is discarded and the owning context ends. Where LOCK holds the write-back, or no fault id is free, the line stays. -/
def evict (bypass : Bool) (s : State) (x : Line) : State :=
  if !x.dirty then dropLine s x
  else match writeBack s bypass x with
    | (.ok pa f, s) => putBack s x pa f
    | (.fault r, s) =>
        let c := x.owner.toNat
        match s.ctxPart c with
        | none => dropLine s x
        | some p => match holdFault s p ⟨x.die, x.line * 128, x.dieLocal, false, c, 0⟩ 0 0 1 0 r [] (some x) with
            | (.held _, s) => if bypass then dropLine s x else s
            | (.deny, s) => endContext (dropLine s x) c
            | (.wait, s) => s
    | (_, s) => s

/-- One of some lines leaves, as the part picks; where it cannot leave now, the next that can. -/
def evictOne (s : State) (ls : List Line) : State :=
  let (k, s) := s.pick ls.length
  ((ls.rotateLeft k).foldl (fun (done, s) x =>
    if done then (true, s) else let s := evict false s x; ((lineAt s ⟨x.die, x.line * 128, x.dieLocal, false, 0, 0⟩).isNone, s))
    (false, s)).2

/-- R16: is there a way for a line in its slice: of 16, those not used as remote ways? -/
def wayFree (s : State) (d slice line : Nat) : Bool := decide ((inSet s d slice line).length + remoteWays s d slice < 16)

/-- Room is made in a slice for a line: what its set has no way for leaves; and the part may put out another line. -/
def makeRoom (s : State) (d slice line : Nat) : State :=
  let s := if wayFree s d slice line then s else evictOne s (inSet s d slice line)
  let (b, s) := s.coin
  if b then evictOne s (((s.die d).slices.findD slice .empty).lines.filter fun x => x.line != line) else s

/-- A line missed in its slice is filled where a way is free for it. -/
def fillWay (s : State) (l : Loc) (pa : Nat) : State :=
  let k := homeSlice l.ia
  let s := makeRoom s l.die k (l.ia / 128)
  if wayFree s l.die k (l.ia / 128) then fillLine s l pa else s

/-- R373: the remote ways of a slice change: copies in ways given up are dropped; lines in ways taken are written back and
dropped, as far as nothing holds their write-back. -/
def setWays (s : State) (d slice n : Nat) : State :=
  let old := remoteWays s d slice
  let s := sysPutBits s (RegNo.l2sRwf slice) d 19 16 n
  if n < old then
    s.onDie d fun y => { y with slices := y.slices.modify slice fun z =>
      { z with remote := z.remote.filter fun x => decide (((z.remote.takeWhile (· != x)).filter fun y => setOf y.2 == setOf x.2).length < n) } }
  else
    let ls := ((s.die d).slices.findD slice .empty).lines
    ls.foldl (fun s x => if decide ((inSet s d slice x.line).length + n < 16) then s else evictOne s (x :: inSet s d slice x.line)) s

/-! ### Waits in memory (R231, R247) -/

/-- What a location holds at its home, host frames among them. -/
def homeValue (s : State) (l : Loc) (n : Nat) : Option Nat :=
  match peek s l n with
  | some b => some (natOfBytes b)
  | none => match leafOf s l.die l.ia with
      | none => none
      | some f => match walk (some { f with raw := f.raw &&& ~~~(1#64 <<< 62) }) l false false with
          | .ok pa _ => if pa ≥ hostFrames then (hostAddr s l pa).map fun a => natOfBytes (Memory.readN s.host a n) else none
          | _ => none

/-- R231: the condition of svwait. -/
def svMet (v b : Nat) : Bool := decide ((v + 2 ^ 32 - b) % 2 ^ 32 < 2 ^ 31)

/-- R231: an svwait that its word satisfies: the value, the acquire, the end of the wait. -/
def svDone (s : State) (t : Nat) (r : Req) (d v : Nat) : State :=
  let s := s.onThread t fun th => { th with v := th.v.set d (BitVec.ofNat 32 v), out := th.out.filter fun x => x.seq != r.seq }
  let (ids, s) := readNewest s t r.loc 4
  release8 (acquire s t .dev (relsOf s ids) false) t

/-- Waits on words of memory whose condition now holds are ended. -/
def sweep (s : State) : State :=
  s.threads.items.foldl (fun s e =>
    let t := e.1
    let th := s.thread t
    match th.held, th.why with
    | .waiting, .sv => match th.out.find? fun r => r.st == .parked with
        | some r => match r.acc, r.st, homeValue s r.loc 4 with
            | .svwait d, .parked, some v => if svMet v ((r.ops.headD 0).toNat) then svDone s t r d v else s
            | _, _, _ => s
        | none => s
    | .waiting, .bar l _ g false sc => match homeValue s { l with ia := l.ia + 4 } 4 with
        | some h => if bits h 31 24 = g then s
            else
              let (ids, s) := readNewest s t { l with ia := l.ia + 4 } 4
              release8 (acquire s t sc (relsOf s ids) false) t
        | none => s
    | _, _ => s) s

/-! ### bar.dev.super (R248) -/

/-- The ranks of a partition's superstep group, its own apart. -/
def superPeers (s : State) (p : Nat) : List Nat :=
  if sysBits s RegNo.uepGrp p 63 63 = 0 then []
  else (List.range (s.part p).ranks.length).filter fun r =>
    r != sysBits s RegNo.uepGrp p 11 0 && (((s.part p).ranks[r]?).map fun x => x.valid && x.ss).getD false

def peerKey (rank va : Nat) : Nat := rank * 2 ^ 64 + va

/-- A phase that every device of the group has completed: its waiters leave. -/
def superCheck (s : State) (p va g : Nat) : State :=
  let ps := superPeers s p
  let x := s.part p
  if (x.supers.findD va 0).testBit g && ps.all fun r => (x.peers.findD (peerKey r va) 0).testBit g then
    let clear := fun (n : Nat) => if n.testBit g then n - 2 ^ g else n
    let s := s.onPart p fun x =>
      { x with supers := x.supers.modify va clear
               peers := ps.foldl (fun m r => m.modify (peerKey r va) clear) x.peers }
    let ts := s.threads.keys.filter fun t => s.partOf t == p && match (s.thread t).why with
      | .bar _ v gen true _ => v == va && gen == g
      | _ => false
    ts.foldl (fun s t =>
      let (ids, s) := match (s.thread t).why with
        | .bar l _ _ _ _ => readNewest s t { l with ia := l.ia + 4 } 4
        | _ => ([], s)
      release8 (acquire s t .sys (relsOf s ids) false) t) s
  else s

/-- The own object completed a phase: the peers hear of it, and are to acknowledge it (R395). -/
def superOwn (s : State) (p va g : Nat) : State :=
  let s := s.onPart p fun x =>
    { x with supers := x.supers.update va 0 fun n => n ||| 2 ^ g
             steps := x.steps ++ (superPeers s p).map fun r => ⟨r, va, g, s.clk⟩ }
  let s := (superPeers s p).foldl (fun s r => s.send (.superstep p r va g)) s
  superCheck s p va g

end Sys2Proof.Machine
end

