-- ==== Sys2Proof/Machine/Perform.lean ====
section
/-! DEFINITION. Accesses performed at their home (R118..R131, R221, R229..R231, R247, R254), and the events that
bring them there: L2_SLICE_REQUEST (R308), TRANSLATE_REQUEST (R369), HOST_LINK_COMPLETION (R389),
LATE_FAULT_ARRIVAL and OPERAND_LOG_REPLAY (R323), LATE_RESULT_WRITE (R56). -/

namespace Sys2Proof.Machine

/-! ### Runs (R230) -/

/-- The members of one issue that are performed as one run with this request, in ascending lane order: atomics on its
word, the accesses of an ldk, the launches of the issue (R254). -/
def runOf (s : State) (t : Nat) (r : Req) : List (Nat × Req) :=
  let mates := fun (ok : Req → Bool) => match entryOf s r with
    | none => [(t, r)]
    | some e => e.threads.filterMap fun u =>
        ((s.thread u).out.find? fun x => x.entry == r.entry && x.seq == r.seq && x.st == r.st && ok x).map fun x => (u, x)
  match r.acc with
  | .launch _ _ => mates fun _ => true
  | .atom _ _ _ | .svpost | .bar _ _ | .ldk _ _ _ => mates fun x =>
      x.loc.ia == r.loc.ia && x.loc.die == r.loc.die && x.loc.dieLocal == r.loc.dieLocal && x.loc.phys == r.loc.phys
        && x.size == r.size && x.half.map Prod.fst == r.half.map Prod.fst
  | _ => [(t, r)]

/-- A request may be looked up: nothing earlier of its threads holds back a member of its run. -/
def runReady (s : State) (t : Nat) (r : Req) : Bool := (runOf s t r).all fun m => mayPass (s.thread m.1).out m.2

/-- The requests homed at a slice in a given state that may be looked up. -/
def slicePool (s : State) (d slice : Nat) (st : ReqSt) : List (Nat × Req) :=
  s.threads.items.flatMap fun e =>
    (e.2.out.filter fun r => r.st == st && r.loc.die == d && homeSlice r.loc.ia == slice && (s.blockOf e.1).save != .swapped
        -- R409: a retrain holds what crosses between the dies
        && (dieOf (s.coreOf e.1) == d || decide (s.pkg.linkPause ≤ s.clk)) && runReady s e.1 r).map fun r => (e.1, r)

/-- Of two requests of one L1, which is the older: the earlier issue, then the lower address. -/
def olderReq (a b : Nat × Req) : Bool :=
  decide (a.2.seq < b.2.seq) || (a.2.seq == b.2.seq && decide (a.2.loc.ia < b.2.loc.ia))

/-- The oldest request of each core among some. -/
def oldestPerCore (s : State) (l : List (Nat × Req)) : List (Nat × Req) :=
  l.filter fun a => l.all fun b => s.coreOf a.1 != s.coreOf b.1 || a == b || !olderReq b a
    && (olderReq a b || decide (a.1 < b.1))

/-! ### The input queue of a slice (R308) -/

def sliceOf (s : State) (d slice : Nat) : Slice := (s.die d).slices.findD slice .empty
def onSlice (s : State) (d slice : Nat) (f : Slice → Slice) : State :=
  s.onDie d fun y => { y with slices := y.slices.update slice .empty f }

/-- The requests a slice holds, oldest first. -/
def queued (s : State) (d slice : Nat) : List (Nat × Req) :=
  (sliceOf s d slice).queue.filterMap fun q =>
    if (s.blockOf q.1).save == .swapped then none
    else ((s.thread q.1).out.find? fun r => r.seq == q.2 && r.st == .sent).map fun r => (q.1, r)

/-- The requests on their way to a slice. -/
def travelling (s : State) (d slice : Nat) : List (Nat × Req) :=
  (slicePool s d slice .sent).filter fun x => !(sliceOf s d slice).queue.contains (x.1, x.2.seq)

/-- Of the requests one L1 has on their way, in the order in which it sent them (issues in order, by lane within one),
those that arrive now: the part picks how many. -/
def arriving (s : State) (d slice c : Nat) : List (Nat × Req) × State :=
  let l := sortOn (fun x => x.2.seq * 32 + (s.thread x.1).lane) ((travelling s d slice).filter fun x => s.coreOf x.1 == c)
  let (k, s) := s.pick (l.length + 1)
  (l.take k, s)

/-- R308: requests reach a slice: those of one moment in ascending order of address, and no more than 64 are held; the
others wait in the mesh. -/
def sliceArrivals (s : State) (d slice : Nat) : State :=
  let cs := ((travelling s d slice).map fun x => s.coreOf x.1).dedup
  let (l, s) := cs.foldl (fun (l, s) c => let (x, s) := arriving s d slice c; (l ++ x, s)) (([] : List (Nat × Req)), s)
  let held := (queued s d slice).map fun x => (x.1, x.2.seq)
  onSlice s d slice fun z => { z with queue := held ++ ((sortOn (fun x => x.2.loc.ia) l).map fun x => (x.1, x.2.seq)).take (64 - held.length) }

/-- Requests leave the input queue. -/
def unqueue (s : State) (d slice : Nat) (ms : List (Nat × Req)) : State :=
  onSlice s d slice fun z => { z with queue := z.queue.filter fun q => !(ms.any fun m => (m.1, m.2.seq) == q) }

/-! ### Places -/

/-- The place of the bytes `off` further, and as it stands now; whose the line is stays (R379). -/
def Place.shift (pl : Place) (s : State) (l : Loc) (off : Nat) : Place :=
  match pl with
  | .line y => match lineAt s { l with ia := l.ia + off } with
      | some x => .line { x with owner := y.owner }
      | none => pl
  | .phys d pa f => .phys d (pa + off) f
  | .host pa => .host (pa + off)

/-- Bytes stored, each 8 as one store (R221). -/
def storeBytes (s : State) (pl : Place) (l : Loc) (p : Nat) (r : StoreRec) (relaxed : Bool) (b : List Byte) : State :=
  ((chunks 8 b.length b).foldl (fun (s, off) c =>
    (storeAt s (pl.shift s l off) { l with ia := l.ia + off } p r relaxed c, off + 8)) (s, 0)).1

/-- The stores that `storeBytes` makes of `n` bytes. -/
def storeIds (s : State) (l : Loc) (n : Nat) : List Nat := if l.phys then [] else nextStores s ((n + 7) / 8)

/-- An element kept among at most `n`; where there is no room the part picks which other leaves. -/
def keepAmong (s : State) (n : Nat) (x : Nat × Nat) (l : List (Nat × Nat)) : List (Nat × Nat) × State :=
  if l.contains x then (l, s)
  else if n = 0 then (l, s)
  else if l.length < n then (x :: l, s)
  else let (k, s) := s.pick l.length; (x :: l.eraseIdx k, s)

/-- R16: L1 takes a line: 256 KiB, 2,048 lines. -/
def addL1 (s : State) (c : Nat) (id : Nat × Nat) : State :=
  let (l, s) := keepAmong s 2048 id (s.core c).l1
  s.onCore c fun x => { x with l1 := l }

/-- R373: a slice takes a copy of a line of the other die, where it has remote ways. -/
def addRemote (s : State) (d slice : Nat) (id : Nat × Nat) : State :=
  let r := ((s.die d).slices.findD slice .empty).remote
  let near := r.filter fun x => setOf x.2 == setOf id.2
  let (l, s) := keepAmong s (remoteWays s d slice) id near
  s.onDie d fun y =>
    { y with slices := y.slices.update slice .empty fun z => { z with remote := l ++ z.remote.filter fun x => setOf x.2 != setOf id.2 } }

/-- The lines a load leaves behind it: in L1, and in a remote way of the reader's die (R24, R373). -/
def cacheLine (s : State) (t : Nat) (l : Loc) (pl : Place) : State :=
  match l.phys, pl with
  | true, _ | _, .host _ => s
  | _, _ =>
      let c := s.coreOf t
      let id := lineId l
      let peers := ((List.range 4).map fun i => clusterOf c * 4 + i).filter fun k => k != c && (s.core k).l1.contains id
      let (b, s) := if (s.core c).l1.contains id || peers.isEmpty then (false, s) else s.coin
      let s := if b then pmc s c 7 1 else s
      let s := addL1 s c id
      if dieOf c = l.die then s else addRemote s (dieOf c) (homeSlice l.ia) (l.die, l.ia / 128)

/-! ### Loads -/

/-- The bytes a load of thread t returns at a place. An acquire load looks at the home: it may meet any release or
atomic performed there, and returns none of what precedes a release there (R125). -/
def loadAt (s : State) (t : Nat) (r : Req) (pl : Place) : (List Byte × List Nat) × State :=
  let (home, s) := pl.read s r.loc (s.partOf t) r.size
  match pl with
  | .host _ => ((home, []), s)
  | _ =>
      let v := viewer s t
      let v := if Order.acquires r.order then
          { v with home := true, need := unionN v.need ((touching s r.loc home).filter s.hist.isRelease) }
        else v
      loadBytes s t v r.loc home

/-! ### Atomics -/

/-- R130: trailing stores of L1 atomics of other cores that nothing orders before this thread. -/
def unsyncedL1 (s : State) (t : Nat) (l : Loc) : List Nat :=
  match s.hist.bytes.find? (histKey l 0) with
  | none => []
  | some b => ((b.stores.map Prod.fst).takeWhile fun i =>
      match s.hist.stores.find? i with
      | some x => x.l1 && x.core != some (s.coreOf t) && !(s.thread t).snap.need.contains i
      | none => false)

/-- R130: the newest store is another core's, made at the home, and nothing orders it before this thread. -/
def unsyncedHome (s : State) (t : Nat) (l : Loc) : Bool :=
  match (s.hist.bytes.find? (histKey l 0)).bind fun b => b.stores.head? with
  | none => false
  | some e => match s.hist.stores.find? e.1 with
      | some x => !x.l1 && x.core != some (s.coreOf t) && !(s.thread t).snap.need.contains e.1
          && !(s.thread t).snap.may.contains e.1
      | none => false

/-- The value that an atomic on `n` bytes finds, with the stores it reads: at the home, L1 updates it does not know of
may be lost. What it reads bounds the later loads of its core (R118). -/
def atomRead (s : State) (t : Nat) (l1 : Bool) (l : Loc) (n : Nat) (pl : Place) : (List Byte × List Nat) × State :=
  let (home, s) := pl.read s l (s.partOf t) n
  let lost := if l.phys || l1 then [] else unsyncedL1 s t l
  let (k, s) := s.pick (lost.length + 1)
  let gone := lost.take k
  let at_ := if k = 0 then histBytes s l home fun _ => true else
    (List.range n).map fun i => match s.hist.bytes.find? (histKey l i) with
      | some b => match b.stores.find? fun e => !gone.contains e.1 with
          | some e => (e.2, some e.1)
          | none => (b.first, none)
      | none => (home.getD i 0, none)
  ((at_.map Prod.fst, (at_.filterMap Prod.snd).dedup), if l.phys then s else raiseFloor s (s.coreOf t) l (at_.map Prod.snd))

/-- One atomic on `n` bytes at a location, with the release and the acquire it is: `f` gives what replaces the old
value, if anything does; the old value. -/
def atomAt (s : State) (t : Nat) (r : Req) (pl : Place) (l : Loc) (n : Nat) (f : Nat → Option Nat) : Nat × State :=
  let (x, s) := atomRead s t r.l1 l n pl
  let old := natOfBytes x.1
  let rels := relsOf s x.2
  -- R130: an L1 update beside an unordered update at the home may be lost
  let (lose, s) := if r.l1 && unsyncedHome s t l then s.coin else (false, s)
  let new := if lose then none else f old
  let mine := if new.isSome && !l.phys then nextStores s 1 else []
  let (own, s) := if Order.releases r.order then let (i, s) := releaseMem s t r.scope (r.order == .ar) mine; ([i], s) else ([], s)
  let s := match new with
    | some y => storeAt s pl l (s.partOf t) { storeOf s t (unionN own rels) with l1 := r.l1, atomic := true } false (bytesOfNat n y)
    | none => s
  (old, if Order.acquires r.order then acquire s t r.scope rels (r.order == .ar) else s)

/-- R229, R307: a packed type, whose halves are atomics of their own. -/
def AT.packed : AT → Bool
  | .bf16x2 | .f16x2 => true
  | _ => false

/-- What replaces one half of a packed word. -/
def halfNew (op : AOp) (ty : AT) (hi : Bool) (old : Nat) (b : List Word) : Option Nat :=
  let sh := if hi then 65536 else 1
  (atomNew op ty (old * sh) b).map fun y => y / sh % 65536

/-- One half of a packed atomic. -/
def halfStep (s : State) (t : Nat) (r : Req) (pl : Place) (op : AOp) (ty : AT) (hi : Bool) : Nat × State :=
  let off := if hi then 2 else 0
  atomAt s t r (pl.shift s r.loc off) { r.loc with ia := r.loc.ia + off } 2 fun x => halfNew op ty hi x r.ops

/-- A request changed, wherever it stands in its thread's queue. -/
def onReq (s : State) (t seq : Nat) (f : Req → Req) : State :=
  s.onThread t fun th => { th with out := th.out.map fun (r : Req) => if r.seq == seq then f r else r }

/-- One atomic: of a packed word the half `hi`, the other half first, done already or to come; the words it returns, once
it is whole. -/
def atomStep (s : State) (t : Nat) (r : Req) (pl : Place) (op : AOp) (ty : AT) (hi : Bool) : Option (List Word) × State :=
  if !AT.packed ty then
    let (old, s) := atomAt s t r pl r.loc r.size fun x => atomNew op ty x r.ops
    (some (atomOld ty old), s)
  else
    let (old, s) := halfStep s t r pl op ty hi
    match r.half with
    | none => (none, onReq s t r.seq fun x => { x with half := some (hi, old) })
    | some (_, first) => (some [BitVec.ofNat 32 (if hi then first + old * 65536 else old + first * 65536)], s)

/-! ### Barrier objects (R246, R247) -/

/-- An arrival. -/
def barStep (s : State) (t : Nat) (r : Req) (pl : Place) (super : Bool) (pend : Option Nat) : State :=
  let hl : Loc := { r.loc with ia := r.loc.ia + 4 }
  -- R136: a superstep publishes the copies not yet sealed too
  let (own, s) := releaseMem s t r.scope false ((if super then (s.thread t).unsealed.stores else []) ++ storeIds s hl 4)
  let pl := pl.shift s r.loc 0
  let (b, s) := pl.read s r.loc (s.partOf t) 8
  let e := natOfBytes (b.take 4)
  let h := natOfBytes (b.drop 4)
  let g := bits h 31 24
  let a := bits h 23 0 + 1
  let ends := decide (e ≤ a)
  let (ids, s) := readNewest s t hl 4
  let rels := unionN [own] (relsOf s ids)
  let new := if ends then (g + 1) % 256 * 2 ^ 24 else g * 2 ^ 24 + a % 2 ^ 24
  let s := storeAt s (pl.shift s r.loc 4) hl (s.partOf t) { storeOf s t rels with atomic := true } false (bytesOfNat 4 new)
  let s := match pend with
    | some _ => finish s t pend [BitVec.ofNat 32 g]
    | none =>
        if ends && !super then release8 (acquire s t r.scope rels false) t
        else s.onThread t fun th => { th with why := .bar r.loc r.va g super r.scope }
  if ends && super then superOwn s (s.partOf t) r.va g else s

/-! ### Performing -/

/-- A request leaves its thread's queue. -/
def dropReq (s : State) (m : Nat × Req) : State :=
  s.onThread m.1 fun th => { th with out := th.out.filter fun x => x.seq != m.2.seq }
/-- A load that writes nothing: its registers are awaited no more. -/
def dropPend (s : State) (m : Nat × Req) : State :=
  s.onThread m.1 fun th => { th with pend := th.pend.filter fun p => some p.id != m.2.acc.pend }

/-- R254: the packet, all its lines. -/
def packetAt (s : State) (t : Nat) (r : Req) : Answer (List Byte) × State :=
  (spans r.va r.size).foldl (fun (acc, s) (_, va, k) =>
    match acc with
    | .ok b =>
        let l : Loc := match viaWindows s (s.ctxOf t) (s.privOf t) va ⟨true, false, false⟩ with
          | .ok l => l
          | .error _ => { r.loc with ia := r.loc.ia + (va - r.va) }
        match place s l false false with
        | (.ok pl, s) =>
            match pl.poison s with
            | some _ => (.fault .memerr .noLeaf, s)
            | none =>
                let (home, s) := pl.read s l (s.partOf t) k
                let (x, s) := match pl with
                  | .host _ => ((home, []), s)
                  | _ => loadBytes s t (viewer s t) l home
                (.ok (b ++ x.1), s)
        | (.fault c e, s) => (.fault c e, s)
        | (.wait, s) => (.wait, s)
    | x => (x, s)) (.ok [], s)

/-- An acquire that has read the given stores. -/
def acquireRead (s : State) (t : Nat) (r : Req) (ids : List Nat) : State :=
  if Order.acquires r.order then acquire s t r.scope (relsOf s ids) false else s

/-- R221: the one access of an ldk: the thread that holds the result reads; each active thread acquires. -/
def performLdk (s : State) (ms : List (Nat × Req)) (pl : Place) : State :=
  ms.foldl (fun s m => match m.2.acc with
    | .ldk lt lead pend =>
        if m.1 = lead then
          let (x, s) := loadAt (dropReq s m) lead m.2 pl
          let s := cacheLine s lead m.2.loc pl
          let s := ms.foldl (fun s u => acquireRead (dropReq s u) u.1 u.2 x.2) s
          finish s lead (some pend) (LT.value lt x.1)
        else s
    | _ => s) s

/-- One member of a run performed; of a packed atomic one half (`hi` the high one). -/
def performOne (s : State) (m : Nat × Req) (pl : Place) (hi : Bool) : State :=
  let t := m.1
  let r := m.2
  let s0 := dropReq s m
  let p := s.partOf t
  match r.acc with
  | .load lt pend =>
      let (x, s) := loadAt s0 t r pl
      let s := acquireRead (cacheLine s t r.loc pl) t r x.2
      finish s t (some pend) (LT.value lt x.1)
  | .ldk _ _ _ => s
  | .store _ =>
      let b := (bytesOfWords r.ops).take r.size
      let (own, s) := if Order.releases r.order then
          let (i, s) := releaseMem s0 t r.scope false (storeIds s0 r.loc b.length); ([i], s) else ([], s0)
      storeBytes s pl r.loc p (storeOf s t own) own.isEmpty b
  | .atom op ty pend =>
      match atomStep s t r pl op ty hi with
      | (some ws, s) => finish (dropReq s m) t pend ws
      | (none, s) => s
  | .svpost => (atomAt s0 t r pl r.loc 4 fun x => some ((x + (r.ops.headD 0).toNat) % 2 ^ 32)).2
  | .svwait d =>
      let (b, s) := pl.read s r.loc p 4
      let v := natOfBytes b
      if svMet v (r.ops.headD 0).toNat then svDone s t r d v else setReqSt s t r.seq .parked
  | .bar super pend => barStep s0 t r pl super pend
  | .barWait =>
      let (b, s) := pl.read s0 r.loc p 8
      let hl : Loc := { r.loc with ia := r.loc.ia + 4 }
      let (ids, s) := readNewest s t hl 4
      if bits (natOfBytes (b.drop 4)) 31 24 = (r.ops.headD 0).toNat % 256 then
        s.onThread t fun th => { th with why := .bar r.loc r.va ((r.ops.headD 0).toNat % 256) false r.scope }
      else release8 (acquire s t r.scope (relsOf s ids) false) t
  | .qstore _ _ _ | .record => storeBytes s0 pl r.loc p (storeOf s0 t []) true ((bytesOfWords r.ops).take r.size)
  | .qload q =>
      let (x, s) := loadAt s0 t r pl
      s.onThread t fun th => th.arrive q ⟨(r.ops.headD 0).toNat, BitVec.ofNat 32 (natOfBytes x.1), none, 0, 0⟩
  | .launch q pend =>
      match packetAt s t r with
      | (.ok b, s) =>
          let s := dropReq s m
          let (own, s) := releaseMem s t .dev false
          let (st, s) := lqPush s p q [own] b
          finish s t (some pend) [BitVec.ofNat 32 st]
      | (.fault .memerr _, s) =>
          let w := reqWord s r
          memErr (dropPend (dropReq s m) m) t w.1 w.2 r.va
      | (.fault _ e, s) => faultRun s [m] r.loc r.va e
      | (.wait, s) => s

/-- The members of a run performed in lane order; of a packed atomic (R307) one half, or both halves one after the other:
which half first, and whether the other follows at once, the part picks. -/
def performMembers (s : State) (ms : List (Nat × Req)) (pl : Place) : State :=
  match ms with
  | [] => s
  | (_, r) :: _ =>
      let one := fun (hi : Bool) (s : State) (m : Nat × Req) => match (s.thread m.1).out.find? fun x => x.seq == m.2.seq with
        | some x => performOne s (m.1, x) (pl.shift s x.loc 0) hi
        | none => s
      match r.acc with
      | .ldk _ _ _ => performLdk s ms pl
      | .atom _ ty _ =>
          if !AT.packed ty then ms.foldl (one false) s
          else
            match r.half with
            | some (hi, _) => ms.foldl (one !hi) s
            | none =>
                let (hi, s) := s.coin
                let s := ms.foldl (one hi) s
                let (both, s) := s.coin
                if both then ms.foldl (one !hi) s else s
      | _ => ms.foldl (one false) s

/-- A run performed at a place: poison (R380); each member in lane order; waits that the writes end. -/
def performRun (s : State) (ms : List (Nat × Req)) (pl : Place) : State :=
  match ms with
  | [] => s
  | (t, r) :: _ =>
      let (err, s) := match if r.acc.readsMem then pl.poison s else none with
        | some o => match pl with
            | .phys d pa _ => meetPoison s t .hbm d pa o
            | _ => (false, s)
        | none => (false, s)
      if err then
        ms.foldl (fun s m => match m.2.acc with
          | .qload q => portFaulted s m.1 m.2 q .memerr
          | _ =>
          let w := reqWord s m.2
          memErr (passEntry (dropPend (dropReq s m) m) m.1 m.2) m.1 w.1 w.2 m.2.va) s
      else
        let ms := ms.filter fun m => (s.thread m.1).out.any fun x => x.seq == m.2.seq
        let s := performMembers s ms pl
        -- what is still at fault or waiting has not passed translation; a packed atomic half done is sent again
        let s := ms.foldl (fun s m =>
          match (s.thread m.1).out.find? fun x => x.seq == m.2.seq with
          | some x =>
              if x.half.isSome then setReqSt s m.1 x.seq .sent
              else if x.st != .parked then s else passEntry s m.1 m.2
          | none => passEntry s m.1 m.2) s
        sweep s

/-! ### Events -/

/-- R308: L2_SLICE_REQUEST: requests reach the slice, and it begins the oldest it holds. A line it holds serves the
request; a miss goes to the translator. -/
def execL2SliceRequest (d slice : Nat) (s : State) : Host.Outcome State Fault Refusal :=
  .next <|
    let s := sliceArrivals s d slice
    match (queued s d slice).head? with
    | none => s
    | some (t, r) =>
        let ms := runOf s t r
        let s := unqueue s d slice ms
        let own := match r.acc with
          | .launch _ _ => true
          | _ => false
        -- a launch places each line of its packet itself (R254)
        if own then performRun s ms (.host 0)
        else if r.loc.phys then performRun s ms (.phys r.loc.die r.loc.ia none)
        else match lineAt s r.loc with
          | some x =>
              if x.dirty || !r.write then performRun s ms (.line x)
              else ms.foldl (fun s m => setReqSt s m.1 m.2.seq .miss) s
          | none => ms.foldl (fun s m => setReqSt s m.1 m.2.seq .miss) s

/-- R389: what the host link does with an access: an access with a completion waits for it. -/
def toHost (s : State) (ms : List (Nat × Req)) (r : Req) (pa : Nat) : State :=
  let a := (hostAddr s r.loc pa).getD 0
  let wait := fun s => ms.foldl (fun s m => setReqSt (passEntry s m.1 m.2) m.1 m.2.seq (.host pa)) s
  match r.acc with
  | .load _ _ | .ldk _ _ _ | .svwait _ | .barWait | .launch _ _ | .qload _ => wait (s.send (.hostRead a r.size))
  | .atom op ty (some _) =>
      let able := match op, ty with
        | .add, .u32 | .add, .i32 | .add, .i64 | .exch, .u32 | .exch, .i32 | .exch, .i64 | .cas, .u32 | .cas, .i32 | .cas, .i64 => true
        | _, _ => false
      -- AtomicOp Requester Enable is the host's (log entry 2)
      let (en, s) := s.coin
      if able && en then wait (s.send (.hostAtomic a r.size)) else performRun s ms (.host pa)
  | _ => performRun s ms (.host pa)

/-- R369: TRANSLATE_REQUEST: a translator answers the oldest request that no LOCK holds. -/
def execTranslateRequest (d slice : Nat) (s : State) : Host.Outcome State Fault Refusal :=
  .next <|
    let free := (slicePool s d slice .miss).filter fun x =>
      walk (leafOf s d x.2.loc.ia) x.2.loc x.2.write false != .lock || (leafIn ((s.die d).xlts.findD slice .empty).cached x.2.loc.ia).isSome
    let pool := oldestPerCore s free
    let (k, s) := s.pick pool.length
    match pool[k]? with
    | none => s
    | some (t, r) =>
        let ms := runOf s t r
        match translate s r.loc r.write false with
        | (.ok pa f, s) =>
            if pa ≥ hostFrames then toHost s ms r pa
            else if physPoisoned s r.loc.die pa then performRun s ms (.phys r.loc.die pa (some f))
            else
              let s := match lineAt s r.loc with
                | some _ => s
                | none => fillWay s r.loc pa
              match lineAt s r.loc with
              | some x => performRun s ms (.line (if r.write then { x with owner := f.owner } else x))
              | none => performRun s ms (.phys r.loc.die pa (some f))
        | (.fault e, s) => faultRun s ms r.loc r.va e
        | (_, s) => s

/-- R389: HOST_LINK_COMPLETION: the completion of a thread's host access returns. -/
def execHostLinkCompletion (req : Nat) (s : State) : Host.Outcome State Fault Refusal :=
  .next <| match (s.thread req).out.find? fun r => match r.st with
      | .host _ => mayPass (s.thread req).out r
      | _ => false with
    | some r => match r.st with
        | .host pa => performRun s (runOf s req r) (.host pa)
        | _ => s
    | none => s

/-- The core and the number of an entry of an operand log. -/
def entryAt (e : Nat) : Nat × Nat := (e / 256, e % 256)

/-- R323: LATE_FAULT_ARRIVAL: the fault reaches the core for those threads of the entry whose access met it. -/
def execLateFaultArrival (entry : Nat) (s : State) : Host.Outcome State Fault Refusal :=
  .next <|
    let (c, n) := entryAt entry
    s.onCore c fun k => { k with log := k.log.modify n fun x =>
      { x with faulted := unionN x.faulted (x.threads.filter fun t => (s.thread t).out.any fun r => r.entry == some entry && match r.st with
          | .fault _ => true
          | _ => false) } }

/-- R323: OPERAND_LOG_REPLAY: the entry is replayed for the threads whose fault is resolved, with the operands
it holds. -/
def execOperandLogReplay (entry : Nat) (s : State) : Host.Outcome State Fault Refusal :=
  .next <|
    let (c, n) := entryAt entry
    let ts := (((s.core c).log.find? n).map LogEntry.threads).getD []
    let due := ts.filter fun t => (s.thread t).out.any fun r => r.entry == some entry && r.st == .resolved
    let s := s.onThreads due fun _ th =>
      { th with out := th.out.map fun (r : Req) => if r.entry == some entry && r.st == ReqSt.resolved then { r with st := .sent } else r }
    s.onCore c fun k => { k with log := k.log.modify n fun x => { x with faulted := x.faulted.filter fun t => !due.contains t } }

/-- R56: LATE_RESULT_WRITE: a result of the thread that has arrived is written, its flags ORed (R67). -/
def execLateResultWrite (tid : Nat) (s : State) : Host.Outcome State Fault Refusal :=
  .next <|
    let ps := (s.thread tid).pend.filter fun p => p.vals.isSome
    let (k, s) := s.pick ps.length
    match ps[k]? with
    | some p => landPend s tid p
    | none => s

end Sys2Proof.Machine
end

