-- ==== Sys2Proof/Machine/Barriers.lean ====
section
/-! DEFINITION. Barriers of a block (R245) and barrier objects in memory (R246..R248), at issue. -/

namespace Sys2Proof.Machine

/-- bar.blk: each arrival is a release; it counts, and the thread waits until the phase completes. -/
def execBarBlk (a : BarBlkArgs) (s : State) : Host.Outcome State Fault Refusal :=
  word (.barBlk a) s fun is s => eachActive is s fun s t =>
    let b := s.blockIdOf t
    let s := waitAt s t is.pc (.barBlk a.id.toNat)
    let s := s.onBlock b fun x =>
      { x with bars := x.bars.update a.id.toNat .zero fun y => ⟨y.arrivals + 1, a.count.toNat⟩ }
    barCheck s b a.id.toNat

/-- An arrival on an object. -/
def barAccess (base : Base) (sc : Scope) (super : Bool) (dst : Option Nat) (_ : State) (e : Env) : Access :=
  { va := (e.base2 base).toNat, size := 8, align := 8, read := true, write := true, order := .rel, scope := sc, ops := [],
    acc := .bar super (dst.map fun _ => 0), dst := dst.map fun d => ([d], false), flatOk := false, l1 := false }

def barOrder : BarScope → Scope
  | .cls => .cls
  | .dev => .dev

def execBarCls (a : BarArgs) (s : State) : Host.Outcome State Fault Refusal :=
  word (.barCls a) s (memBody (barAccess a.base .cls false none))
def execBarDev (a : BarArgs) (s : State) : Host.Outcome State Fault Refusal :=
  word (.barDev a) s (memBody (barAccess a.base .dev false none))
/-- R136, R248: the arrival awaits every copy of the thread, sealed or not. -/
def execBarDevSuper (a : BarArgs) (s : State) : Host.Outcome State Fault Refusal :=
  word (.barDevSuper a) s (memBody (barAccess a.base .sys true none))
def execBarArrive (a : BarScopeArgs) (s : State) : Host.Outcome State Fault Refusal :=
  word (.barArrive a) s (memBody (barAccess a.base (barOrder a.sc) false (some a.d.toNat)))

/-- bar.wait: the phase it names in a register is to have passed. -/
def barWaitAccess (a : BarScopeArgs) (_ : State) (e : Env) : Access :=
  { va := (e.base2 a.base).toNat, size := 8, align := 8, read := true, write := false, order := .acq, scope := barOrder a.sc,
    ops := [e.v a.d.toNat], acc := .barWait, dst := none, flatOk := false, l1 := false }

def execBarWait (a : BarScopeArgs) (s : State) : Host.Outcome State Fault Refusal :=
  word (.barWait a) s (memBody (barWaitAccess a))

end Sys2Proof.Machine
end

