-- ==== Sys2Proof/Machine/Copies.lean ====
section
/-! DEFINITION. Copies and batches (R132..R134, R232..R235): issuing a copy, sealing, cp.wait, and the events
COPY_COMPLETE and COPY_FAULT. -/

namespace Sys2Proof.Machine

/-! ### Descriptors (R232, R280, R281) -/

/-- Words of a uniform descriptor. -/
def descAt (g : Group) (k n : Nat) : List Word := (List.range n).map fun i => g.k.findD (k + i) 0

/-- R91, R94: the alignment of row records of an MX code, or of QN4 (code 5). -/
def recordAlign (code : Nat) : Nat := if code < 2 then 32 else if code < 4 then 24 else if code = 4 then 16 else 128
/-- A side that holds records: its address and its stride. -/
def sideOk (code : Nat) (addr : Nat) (stride : Int) : Bool :=
  addr % recordAlign code == 0 && stride % (recordAlign code : Int) == 0

def rowsDescOk (reduce : Bool) (d : List Word) : Bool :=
  let conv := fieldOf d 4 31 24
  let rop := fieldOf d 5 31 24
  let rowb := fieldOf d 4 23 0
  let none_ := rowb == 0 || fieldOf d 5 23 0 == 0
  let src := dwordAt d 0
  let dst := dwordAt d 2
  let plain := src % 4 == 0 && dst % 4 == 0 && wordOf d 6 % 4 == 0 && wordOf d 7 % 4 == 0
  plain && (if reduce then
      conv == 0 && ropListed rop && (none_ || (convRowOk conv rowb && ropRowOk rop rowb))
        && (!ropMx rop || (sideOk (rop % 8) src (signedAt d 6) && sideOk (rop % 8) dst (signedAt d 7)))
    else
      rop == 0 && convListed conv && (none_ || convRowOk conv rowb)
        && (conv < 0x10 || (if conv < 0x18 then sideOk (conv - 0x10) dst (signedAt d 7) else sideOk (conv - 0x18) src (signedAt d 6))))

/-! ### Issue (R234) -/

/-- A copy of a thread enters the copy engine and its unsealed batch. -/
def newCopy (s : State) (t : Nat) (kind : CopyKind) (desc : List Word) (tile : Option Tile) : State :=
  let (id, s) := s.tick
  let c := s.coreOf t
  let cp : Copy :=
    { kind := kind, tid := t, core := c, cluster := clusterOf c, ctx := s.ctxOf t, part := s.partOf t, desc := desc,
      need := unionN (s.hist.own t) (s.thread t).snap.need, tile := tile, pulled := .empty, asked := none, suspended := false,
      got := .empty, made := [], stores := [], flags := 0 }
  let s := { s with copies := s.copies.set id cp }
  s.onThread t fun th => { th with unsealed := { th.unsealed with copies := th.unsealed.copies ++ [id] } }

/-- Each active thread issues one copy, in lane order. -/
def issueCopies (kind : CopyKind) (desc : List Word) (tile : State → Option Tile) (is : Issued) (s : State) : State :=
  eachActive is s fun s t =>
    if (s.thread t).held != .ready then s else newCopy s t kind desc (tile s)

/-- cp.rows and cp.reduce. -/
def rowsBody (reduce : Bool) (k : Nat) (is : Issued) (s : State) : State :=
  match is.active with
  | [] => s
  | t :: _ =>
      let d := descAt (s.groupOf t) k 8
      if !rowsDescOk reduce d then eachActive is s fun s t => is.trap s t .cpDesc
      else if fieldOf d 4 23 0 = 0 ∨ fieldOf d 5 23 0 = 0 then s
      else issueCopies (if reduce then .reduce else .rows) d (fun _ => none) is s

def execCpRows (a : DescArgs) (s : State) : Host.Outcome State Fault Refusal :=
  word (.cpRows a) s (rowsBody false a.k.toNat)
def execCpReduce (a : DescArgs) (s : State) : Host.Outcome State Fault Refusal :=
  word (.cpReduce a) s (rowsBody true a.k.toNat)

/-! ### Seals and waits (R133, R235) -/

/-- cp.seal. -/
def execCpSeal (a : SealArgs) (s : State) : Host.Outcome State Fault Refusal :=
  word (.cpSeal a) s fun is s => eachActive is s fun s t =>
    s.onThread t fun th =>
      { th with
        v := th.v.set a.d.toNat (th.nextBatch.setWidth 32)
        batches := th.batches ++ [{ th.unsealed with num := th.nextBatch.toNat }]
        unsealed := .empty
        nextBatch := th.nextBatch + 1 }

/-- R235: is a batch number sealed? -/
def sealed_ (th : Thread) (b : Nat) : Bool := decide (32768 ≤ (b + 65536 - th.nextBatch.toNat) % 65536)
/-- The batches a cp.wait covers: this one and the earlier ones. -/
def covered (th : Thread) (b : Nat) : List Batch := th.batches.filter fun x => decide ((b + 65536 - x.num) % 65536 < 32768)

/-- R235: the batches of a cp.wait have completed. -/
def waitMet (th : Thread) (b : Nat) : Bool := sealed_ th b && (covered th b).all fun x => x.copies.isEmpty

/-- R235: a cp.wait whose batches have completed: the earliest fault not yet raised is raised; else the copies are
ordered for the thread, their flags are ORed, and it goes on (`go`). -/
def finishWait (s : State) (t b : Nat) (pc iw : Dword) (go : State → State) : State :=
  let th := s.thread t
  let cov := covered th b
  match cov.find? fun x => x.fault.isSome && !x.raised with
  | some x =>
      let f := x.fault.getD (.cpDesc, 0)
      let s := s.onThread t fun th => { th with batches := th.batches.map fun y => if y.num == x.num then { y with raised := true } else y }
      takeTrap (setReady s t) t ⟨f.1, pc, iw, f.2, 0, false⟩
  | none =>
      let s := s.onThread t fun th =>
        { th with
          snap := { th.snap with need := unionN th.snap.need (cov.flatMap Batch.stores) }
          batches := th.batches.filter fun x => !(cov.any fun y => y.num == x.num) }
      go (cov.foldl (fun s x => orFlags s th.group x.flags) s)

/-- cp.wait. -/
def execCpWait (a : CpWaitArgs) (s : State) : Host.Outcome State Fault Refusal :=
  word (.cpWait a) s fun is s => eachActive is s fun s t =>
    let b := match a.b with
      | .r r => bits ((envOf s t).base1 r).toNat 15 0
      | .imm x => x.toNat
    if waitMet (s.thread t) b then finishWait s t b is.pc is.word id
    else waitAt s t is.pc (.cp b is.word)

/-! ### Completion (R233, R234) -/

/-- A copy leaves the engine: its batch takes its flags, its stores and its fault; a cp.wait it ends goes on. -/
def copyDone (s : State) (id : Nat) (cp : Copy) (fl : Flags) (fault : Option (Cause × Nat)) (stores : List Nat) : State :=
  let s := { s with copies := s.copies.erase id }
  let upd := fun (b : Batch) =>
    if b.copies.contains id then
      { b with copies := b.copies.filter (· != id), flags := b.flags ||| fl, stores := unionN b.stores stores,
               fault := match b.fault with
                 | none => fault
                 | some f => some f }
    else b
  let s := s.onThread cp.tid fun th => { th with unsealed := upd th.unsealed, batches := th.batches.map upd }
  let th := s.thread cp.tid
  match th.held, th.why with
  | .waiting, .cp b iw => if waitMet th b then finishWait s cp.tid b th.pc iw (fun s => release8 s cp.tid) else s
  | _, _ => s

/-- R282: the extents of a partition's collective group. -/
def groupExtents (s : State) (p : Nat) : Nat × Nat × Nat :=
  (sysBits s RegNo.uepGrp p 35 24 + 1, sysBits s RegNo.uepGrp p 47 36 + 1, sysBits s RegNo.uepGrp p 59 48 + 1)
def grouped (s : State) (p : Nat) : Bool := sysBits s RegNo.uepGrp p 63 63 == 1
/-- The partition's own rank. -/
def selfRank (s : State) (p : Nat) : Nat := sysBits s RegNo.uepGrp p 11 0

/-- R284: the source ranks of a collective, ascending. -/
def collSources (s : State) (p : Nat) (d : List Word) : List Nat :=
  let (gx, gy, gz) := groupExtents s p
  let m := fieldOf d 7 14 12
  (List.range (gx * gy * gz)).filter fun r =>
    (m.testBit 0 || r % gx == fieldOf d 6 11 0) && (m.testBit 1 || r / gx % gy == fieldOf d 6 23 12)
      && (m.testBit 2 || r / (gx * gy) == fieldOf d 7 11 0)

/-- A copy that may run now: not suspended, and a collective with every tile pulled. -/
def copyReady (s : State) (cp : Copy) : Bool :=
  !cp.suspended && (cp.kind != .coll || (cp.asked.isSome && cp.pulled.size == (collSources s cp.part cp.desc).length))

/-- R233: the rest of the copy performed, where nothing stops it. -/
def copyWhole (s : State) (cp : Copy) : CopyAcc := runCopy s cp false

/-- R380: poison that a copy met is a detection too. -/
def copyPoison (s : State) (cp : Copy) (va : Nat) : State :=
  match cp.tilePoison with
  | some (i, o) => detectUe s .tile (dieOf cp.core) i o
  | none =>
  match targetOf s cp.ctx cp.core (cp.priv s) va ⟨false, false, false⟩ with
  | .ok (.flat d b o) => if flatPoisoned s d b o 4 then detectUe s .flat d (bankKey d b o / 4) (bankOwner s d b) else s
  | .ok (.mem l) => match place s l false false with
      | (.ok (.phys d pa f), s) => match (Place.phys d pa f).poison s with
          | some o => detectUe s .hbm d pa o
          | none => s
      | _ => s
  | .error _ => s

/-- R132, R233: some of the words that a copy in flight has yet to read or write are read or written. -/
def copyWork (s : State) (id : Nat) : State :=
  match s.copies.find? id with
  | none => s
  | some cp =>
      if !copyReady s cp then s
      else
        let (cp, s) := copySome s cp true
        sweep { s with copies := s.copies.modify id fun _ => cp }

/-- R234: a copy that met a fault: some subset of its words is written, and its batch records the fault. -/
def copyCut (s : State) (id : Nat) (cp : Copy) (f : Cause × Nat) : State :=
  let (cp, s) := copySome s cp true
  let s := if f.1 = .memerr then copyPoison s cp f.2 else s
  if s.copies.has id then sweep (copyDone s id cp cp.flags (some f) cp.stores) else s

end Sys2Proof.Machine
end

