-- ==== Sys2Proof/Machine/Masks.lean ====
section
/-! DEFINITION. Mask registers (R43..R45, R249) and signatures on convergence registers (R261). -/

namespace Sys2Proof.Machine

/-- The body of a class U word with at least one active thread: the group and those threads. -/
def groupBody (f : Issued → State → Nat → List Nat → State) (is : Issued) (s : State) : State :=
  match is.active with
  | [] => s
  | t :: _ => f is s (s.thread t).group is.active

def execJoin (a : MaskArgs) (s : State) : Host.Outcome State Fault Refusal :=
  word (.join a) s <| groupBody fun _ s g ts =>
    let x := maskOf (s.group g) a.n.toNat
    setMask s g a.n.toNat { x with m := x.m ||| lanesOf s ts }

def execLeave (a : MaskArgs) (s : State) : Host.Outcome State Fault Refusal :=
  word (.leave a) s <| groupBody fun _ s g ts =>
    let x := maskOf (s.group g) a.n.toNat
    let t := ~~~lanesOf s ts
    checkMask (setMask s g a.n.toNat ⟨x.m &&& t, x.a &&& t⟩) g a.n.toNat

/-- wait: a member arrives and waits; another goes on. -/
def execWait (a : MaskArgs) (s : State) : Host.Outcome State Fault Refusal :=
  word (.wait a) s <| groupBody fun is s g ts =>
    let n := a.n.toNat
    let x := maskOf (s.group g) n
    let arrive := ts.filter fun t => x.m.getLsbD (s.thread t).lane
    let s := arrive.foldl (fun s t => waitAt s t is.pc (.mask n)) s
    checkMask (setMask s g n { x with a := x.a ||| lanesOf s arrive }) g n

def execMset (a : MaskKArgs) (s : State) : Host.Outcome State Fault Refusal :=
  word (.mset a) s <| groupBody fun _ s g _ =>
    let n := a.n.toNat
    let x := maskOf (s.group g) n
    let m := (s.group g).k.findD a.k.toNat 0 &&& lanesOf s (s.live g)
    let out := (lanesIn s g (x.a &&& ~~~m)).filter fun t => (s.thread t).why == .mask n
    let s := out.foldl release8 s
    checkMask (setMask s g n ⟨m, x.a &&& m⟩) g n

def execMget (a : MaskKArgs) (s : State) : Host.Outcome State Fault Refusal :=
  word (.mget a) s <| groupBody fun _ s g _ => setK s g a.k.toNat (maskOf (s.group g) a.n.toNat).m

/-- sign (R261): each active thread's release, then its signature. -/
def execSign (a : MaskArgs) (s : State) : Host.Outcome State Fault Refusal :=
  word (.sign a) s <| groupBody fun _ s g ts =>
    let n := a.n.toNat
    let b := (s.group g).block
    let (l, s) := ts.foldl (fun (l, s) t =>
      let (id, s) := releaseMem s t .cls false
      (unionN l ((s.hist.pubs.find? id).map Pub.stores |>.getD []), s)) ([], s)
    let x := cvOf s b n
    let x :=
      { x with signed := (x.signed + ts.length) % 32768, stores := unionN x.stores l,
               state := if x.state = .idle then .opened else x.state }
    cvCheck (setCv s b n x) b n

/-- The acquire of cvwait: what the signatures released. -/
def cvAcquire (s : State) (t b n : Nat) : State := acquireOf s t (cvOf s b n).stores

/-- cvwait (R261). -/
def execCvwait (a : MaskArgs) (s : State) : Host.Outcome State Fault Refusal :=
  word (.cvwait a) s <| groupBody fun is s g ts =>
    let n := a.n.toNat
    let b := (s.group g).block
    ts.foldl (fun s t =>
      let x := cvOf s b n
      if x.state = .idle then cvAcquire s t b n else is.stall s t (.cv n x.phase.toNat)) s

end Sys2Proof.Machine
end

