-- ==== Sys2Proof/Machine/Engine.lean ====
section
/-! DEFINITION. The matrix engine (R257..R279): wlatch, mmpost, accclr, accstat, mxstat, the read-outs accrd and
acccvt, and the events ARBITER_GRANT and PASS_COMPLETE. -/

namespace Sys2Proof.Machine

/-! ### Staging and posting (R260..R266) -/

/-- The entry as it stands, or a fresh one. -/
def entryAtTable (s : State) (b n e : Nat) : RtEntry :=
  ((s.cluster (blockCluster s b)).table.find? e).getD ⟨b, n, (s.launch (s.block b).launch).ctx, none, none, 0, 0, 0, []⟩

def setEntry (s : State) (b e : Nat) (x : RtEntry) : State :=
  s.onCluster (blockCluster s b) fun c => { c with table := c.table.set e x }

/-- The latch staged on a convergence register. -/
def stagedOn (s : State) (b n : Nat) : Option Staged :=
  (cvOf s b n).entry.bind fun e => ((s.cluster (blockCluster s b)).table.find? e).bind RtEntry.latch

/-- R262: a register whose pass is posted, eligible or granted. -/
def cvBusy (x : Cv) : Bool := x.state == .posted || x.state == .eligible || x.state == .granted

/-- The same precise fault in every active thread. -/
def trapAll (is : Issued) (s : State) (c : Cause) : State := eachActive is s fun s t => is.trap s t c

/-- wlatch (R263, R264). -/
def execWlatch (a : WlatchArgs) (s : State) : Host.Outcome State Fault Refusal :=
  word (.wlatch a) s <| groupBody fun is s g ts =>
    let b := (s.group g).block
    let n := a.n.toNat
    let d := descAt (s.group g) a.k.toNat 16
    if !latchOk d a.mv then trapAll is s .mxDesc
    else if !latchLoftOk (latchDesc d a.mv) (clusterOf is.core) || ((latchDesc d a.mv).loft && s.isUnderstudy) then
      trapAll is s .loftRange
    else if cvBusy (cvOf s b n) || (stagedOn s b n).isSome then trapAll is s .mxState
    else match entryFor s b n with
      | none => s
      | some e =>
          let s := setEntry s b e { entryAtTable s b n e with latch := some ⟨d, a.mv, ts.headD 0, is.core⟩ }
          let x := cvOf s b n
          setCv s b n { x with entry := some e, state := if x.state = .idle then .opened else x.state }

/-- mmpost (R265, R266). Where several checks fail, the model raises the first of MX_DESC, MX_STATE and the latch's extent,
the order in which R265 names them (DEDUCED, log entry 18). -/
def execMmpost (a : MmpostArgs) (s : State) : Host.Outcome State Fault Refusal :=
  word (.mmpost a) s <| groupBody fun is s g ts =>
    let b := (s.group g).block
    let n := a.n.toNat
    let d := descAt (s.group g) a.k.toNat 16
    let st := stagedOn s b n
    let extent := match st with
      | some x => some (latchDesc x.words x.mv)
      | none => none
    if !passOk d a.mv a.full2 a.ta a.tb st.isSome then trapAll is s .mxDesc
    else if cvBusy (cvOf s b n) then trapAll is s .mxState
    else if (extent.map fun x => !latchExtentOk x a.tb (clusterOf is.core)).getD false then
      trapAll is s (if (extent.map LatchDesc.loft).getD false then .loftRange else .mxDesc)
    else match entryFor s b n with
      | none => s
      | some e =>
          let s := setEntry s b e
            { entryAtTable s b n e with
              post := some ⟨d, a.mv, a.full2, a.ta, a.tb, a.acc, ts.headD 0, is.core⟩, pri := (passDesc d).pri, passed := 0 }
          let x := cvOf s b n
          cvCheck (setCv s b n { x with entry := some e, need := a.count.toNat, state := .posted }) b n

/-! ### Grant and completion (R267, R268, R270) -/

/-- The eligible entries of a cluster that may be granted (R270, R327). -/
def grantable (s : State) (c : Nat) : List (Nat × RtEntry) :=
  (s.cluster c).table.items.filter fun e =>
    (cvOf s e.2.block e.2.cv).state == .eligible && (cvOf s e.2.block e.2.cv).entry == some e.1
      && !(s.die (c / 32)).halted.has e.2.ctx

/-- R270: does the first entry go before the second? -/
def grantBefore (a b : Nat × RtEntry) : Bool :=
  let old := fun (x : Nat × RtEntry) => decide (16 ≤ x.2.passed)
  if old a != old b then old a
  else if a.2.pri ≠ b.2.pri then decide (b.2.pri < a.2.pri)
  else if a.2.eligibleAt ≠ b.2.eligibleAt then decide (a.2.eligibleAt < b.2.eligibleAt)
  else decide (a.1 < b.1)

/-- The bank behind an address of the flat aperture on a core (R267). -/
def bankOf (s : State) (core va : Nat) : Option Nat := if inFlat va then slotBank s core (flatSlot va) else none
/-- The slots of a core that ranges lie in, as core × 8 + slot; none where one of them holds no bank. -/
def slotsOf (s : State) (core : Nat) (rs : List (Nat × Nat)) : Option (List Nat) :=
  rs.foldl (fun acc r => match acc with
    | none => none
    | some l => if r.2 = 0 then some l
        else
          let ks := List.range' (flatSlot r.1) (flatSlot (r.1 + r.2 - 1) + 1 - flatSlot r.1)
          if inFlat r.1 && inFlat (r.1 + r.2 - 1) && ks.all fun k => (slotBank s core k).isSome then
            some (unionN l (ks.map fun k => core * 8 + k))
          else none) (some [])
/-- A byte of the flats as a core sees it, of given contents. -/
def flatByte (s : State) (m : Memory) (core va : Nat) : Byte :=
  match bankOf s core va with
  | some b => Memory.read m (bankKey (dieOf core) b (flatOff va))
  | none => 0
/-- Poison in ranges: where it stands, and its owner. -/
def rangesPoison (s : State) (core : Nat) (loft : Bool) (rs : List (Nat × Nat)) : Option (ErrSrc × Nat × Byte) :=
  rs.findSome? fun r =>
    if r.2 = 0 then none
    else if loft then
      (if loftPoisoned s (dieOf core) r.1 r.2 then some (.loft, r.1, loftOwner s (dieOf core) r.1) else none)
    else match bankOf s core r.1 with
      | some b => if flatPoisoned s (dieOf core) b (flatOff r.1) r.2 then
          some (.flat, bankKey (dieOf core) b (flatOff r.1) / 4, bankOwner s (dieOf core) b) else none
      | none => none

/-- R380: poison in a window of a tile of a cluster: where it stands, and its owner, the context that reads it. -/
def tilePoison (c t : Nat) (x : Tile) (ctx row0 rows col0 cols : Nat) : Option (ErrSrc × Nat × Byte) :=
  (x.poison.find? fun i => decide (row0 ≤ i / 256 ∧ i / 256 < row0 + rows ∧ col0 ≤ i % 256 ∧ i % 256 < col0 + cols)).map fun i =>
    (.tile, (c % 32 * 32 + t) * 2 ^ 15 + i, BitVec.ofNat 8 ctx)

/-- What a granted pass does: the completion code, its tile and the buffers after it, the slots whose banks it reads, the
error it met. -/
structure Pass where
  code : Nat
  tile : Tile
  wb0 : WBuf
  wb1 : WBuf
  slots : List Nat
  err : Option (ErrSrc × Nat × Byte)

/-- R271: the tile and the buffers that the passes granted on a cluster leave, in their order. -/
def tileNow (s : State) (c t : Nat) : Tile :=
  match (s.cluster c).granted.reverse.find? fun r => r.tile == t with
  | some r => r.tileAfter
  | none => (s.cluster c).tiles.findD t .zero
def buffersNow (s : State) (c : Nat) : WBuf × WBuf :=
  match (s.cluster c).granted.getLast? with
  | some r => (r.wb0, r.wb1)
  | none => ((s.cluster c).wb0, (s.cluster c).wb1)

/-- R21, R272: a loft address of a latch, in the region of the cluster that latches it. -/
def regionAddr (c a : Nat) : Nat := c % 32 * 0x300_0000 + a % 0x300_0000

/-- R268. A latch from flats reads them as of the last signature (R137), through the slot map as it stands at grant
(R267); where several causes end a pass, NOWEIGHT and SHAPE come before an error of an A source, which is met where the
pass would read it: the model's choice (DEDUCED, log entry 18). -/
def passOf (s : State) (c : Nat) (e : RtEntry) (p : Posted) : Pass :=
  let wbs := buffersNow s c
  let d := passDesc p.words
  let t := tileNow s c d.tile
  let still : Pass := ⟨0, t, wbs.1, wbs.2, [], none⟩
  let lat := e.latch.map fun l => (l, latchDesc l.words l.mv)
  -- the latch's region is that of the engine's cluster (R272)
  let loft := (lat.map fun x => x.2.loft).getD false
  let place := fun a => if loft then regionAddr c a else a
  let lrs := ((lat.map fun x => latchRanges x.2 p.tb).getD []).map fun r => (place r.1, r.2)
  let lcore := (lat.map fun x => x.1.core).getD p.core
  let lbanks := if loft then some [] else slotsOf s lcore lrs
  let ars := passRanges d p.ta
  let abanks := (slotsOf s p.core (passSources d)).bind fun _ => slotsOf s p.core ars
  let invalid := fun (q : Pass) => match lat with
    | some (_, l) => if l.wb = 0 then { q with wb0 := { q.wb0 with valid := false } } else { q with wb1 := { q.wb1 with valid := false } }
    | none => q
  match lbanks, abanks with
  | none, _ => { invalid still with code := 3 }
  | _, none => { still with code := 3 }
  | some lb, some ab =>
      let still := { still with slots := unionN lb ab }
      match if lat.isSome then rangesPoison s (if loft then 4 * c else lcore) loft lrs else none with
      | some x => { invalid still with code := 4, err := some x }
      | none =>
        let latched := match lat with
          | some (_, l) =>
              let rd := fun a => if loft then Memory.read s.loft (loftKey (c / 32) (place a)) else flatByte s e.asOf lcore a
              let w := latchBuffer rd l p.tb
              if l.wb = 0 then { still with wb0 := w } else { still with wb1 := w }
          | none => still
        let wb := if d.wb = 0 then latched.wb0 else latched.wb1
        if d.m = 0 ∨ d.n = 0 then latched
        else if d.k ≠ 0 ∧ !wb.valid then { latched with code := 1 }
        else if d.k ≠ 0 ∧ (wb.kw < d.k ∨ wb.nw < d.n) then { latched with code := 2 }
        else match if d.k = 0 then none else (rangesPoison s p.core false ars).or
            (if p.acc then tilePoison c d.tile t e.ctx 0 d.m 0 d.n else none) with
          | some x => { latched with code := 4, err := some x }
          | none => { latched with tile := passTile (flatByte s s.flats p.core) d p.mv p.full2 p.ta p.acc wb t }

/-- R270: ARBITER_GRANT: a free engine, or one whose pass is in its last 48 clk, takes the entry that goes first; the
others are passed over once more. -/
def execArbiterGrant (cluster : Nat) (s : State) : Host.Outcome State Fault Refusal :=
  .next <|
    let es := grantable s cluster
    match (s.cluster cluster).next, es.find? fun a => es.all fun b => a.1 == b.1 || grantBefore a b with
    | none, some (i, e) =>
        match e.post with
        | none => s
        | some p =>
            let q := passOf s cluster e p
            let r : Running := ⟨i, e.block, e.cv, (passDesc p.words).tile, q.code, q.tile, q.wb0, q.wb1, q.slots⟩
            let x := cvOf s e.block e.cv
            let s := setCv s e.block e.cv { x with state := .granted }
            let s := s.onCluster cluster fun k =>
              { k with
                table := k.table.mapKV fun j y => if j != i && es.any fun z => z.1 == j then { y with passed := y.passed + 1 } else y
                running := if k.running.isSome then k.running else some r
                next := if k.running.isSome then some r else none }
            match q.err with
            | some (src, a, o) => detectUe s src (cluster / 32) a o
            | none => s
    | _, _ => s

/-- R261, R268: PASS_COMPLETE: the tile and the buffers, the register, its waiters, the accstats behind the pass. -/
def execPassComplete (cluster : Nat) (s : State) : Host.Outcome State Fault Refusal :=
  .next <| match (s.cluster cluster).running with
    | none => s
    | some r =>
        let s := s.onCluster cluster fun k =>
          { k with running := k.next, next := none, table := k.table.erase r.entry, tiles := k.tiles.set r.tile r.tileAfter, wb0 := r.wb0, wb1 := r.wb1 }
        let x := cvOf s r.block r.cv
        let s := setCv s r.block r.cv
          { x with phase := x.phase + 1, code := r.code, entry := none, state := if 0 < x.signed then .opened else .idle }
        let s := ((s.block r.block).threads.filter fun t => match (s.thread t).held, (s.thread t).why with
          | .stalled, .cv n _ => n == r.cv
          | _, _ => false).foldl (fun s t => release8 (cvAcquire s t r.block r.cv) t) s
        s.threads.keys.foldl (fun s t =>
          match (s.thread t).held, (s.thread t).why with
          | .stalled, .tile c e d w =>
              if c = cluster ∧ e = r.entry then release8 (s.onThread t fun th => { th with v := th.v.set d w }) t else s
          | _, _ => s) s

/-! ### Tiles (R271, R273..R276) -/

/-- A granted pass on a tile, with the tile it leaves replaced. -/
def Running.leaving (r : Running) (t : Nat) (x : Tile) : Running := if r.tile = t then { r with tileAfter := x } else r
/-- The granted pass on a tile that an operation entering its order now comes behind: its entry. -/
def tileBehind (s : State) (c t : Nat) : Option Nat :=
  ((s.cluster c).granted.reverse.find? fun r => r.tile == t).map Running.entry
/-- A tile changed at its place in the order (R271): behind the passes granted on it. -/
def setTile (s : State) (c t : Nat) (x : Tile) : State :=
  s.onCluster c fun k =>
    if k.next.any fun r => r.tile == t then { k with next := k.next.map fun r => r.leaving t x }
    else if k.running.any fun r => r.tile == t then { k with running := k.running.map fun r => r.leaving t x }
    else { k with tiles := k.tiles.set t x }

/-- accclr (R273). -/
def execAccclr (a : TileArgs) (s : State) : Host.Outcome State Fault Refusal :=
  word (.accclr a) s fun is s => if is.active.isEmpty then s else setTile s (clusterOf is.core) a.t.toNat .zero

/-- accstat (R274). -/
def execAccstat (a : AccstatArgs) (s : State) : Host.Outcome State Fault Refusal :=
  word (.accstat a) s fun is s =>
    if is.active.isEmpty then s
    else
      let c := clusterOf is.core
      let x := tileNow s c a.t.toNat
      let w : Word := x.status.setWidth 32
      let s := eachActive is s fun s t =>
        match tileBehind s c a.t.toNat with
        | some e => is.stall s t (.tile c e a.d.toNat w)
        | none => s.onThread t fun th => { th with v := th.v.set a.d.toNat w }
      if a.clr then setTile s c a.t.toNat { x with status := 0 } else s

/-- R259: STATE. -/
def CvState.code : CvState → Nat
  | .idle => 0 | .opened => 1 | .posted => 2 | .eligible => 3 | .granted => 4

/-- R276: the words of mxstat. -/
def mxCvWord (x : Cv) : Word :=
  BitVec.ofNat 32 (x.phase.toNat * 2 ^ 24 + x.code * 2 ^ 20 + CvState.code x.state * 2 ^ 17 + x.signed)
def mxWbWord (w : WBuf) : Word :=
  BitVec.ofNat 32 ((if w.valid then 2 ^ 31 else 0) + (if w.var.isSome then 2 ^ 30 else 0) + w.kw * 2 ^ 20 + w.nw * 2 ^ 11
    + (if w.vfmt = 0x16 then 2 ^ 10 else 0) + w.fmt.toNat)
/-- `left`: clk until the running pass ends (R269 gives at most 4,096). -/
def mxEngWord (s : State) (c left : Nat) : Word :=
  let es := (s.cluster c).table.items.filter fun e => (cvOf s e.2.block e.2.cv).state == .eligible
  BitVec.ofNat 32 ((s.cluster c).table.size * 2 ^ 26 + es.length * 2 ^ 20 + left)

/-- mxstat (R276). -/
def execMxstat (a : MxstatArgs) (s : State) : Host.Outcome State Fault Refusal :=
  word (.mxstat a) s fun is s =>
    let c := clusterOf is.core
    let bad := match a.sel with
      | .cv => false
      | .wb => decide (2 ≤ a.idx.toNat)
      | .eng => a.idx != 0
    if bad then trapAll is s .mxDesc
    else
      let (k, s) := if a.sel = .eng ∧ (s.cluster c).running.isSome then s.pick 4096 else (0, s)
      let left := if (s.cluster c).running.isSome then k + 1 else 0
      eachActive is s fun s t =>
        let w := match a.sel with
          | .cv => mxCvWord (cvOf s (s.blockIdOf t) a.idx.toNat)
          | .wb => mxWbWord (if a.idx = 0 then (s.cluster c).wb0 else (s.cluster c).wb1)
          | .eng => mxEngWord s c left
        s.onThread t fun th => { th with v := th.v.set a.d.toNat w }

/-! ### Read-outs (R277..R279) -/

/-- The window of a tile that accrd and acccvt name. -/
def windowOk (d : List Word) : Bool :=
  decide (fieldOf d 4 31 24 ≤ 31) && decide (fieldOf d 5 23 16 ≤ 128) && decide (fieldOf d 5 31 24 + fieldOf d 5 23 16 ≤ 128)
    && decide (fieldOf d 6 31 16 ≤ 256) && decide (fieldOf d 5 15 8 + fieldOf d 6 31 16 ≤ 256) && fieldOf d 5 7 0 == 0

def accrdOk (d : List Word) : Bool :=
  let sac := fieldOf d 4 0 0 == 1
  let c := fieldOf d 6 15 0
  windowOk d && decide (8 ≤ fieldOf d 4 23 16 ∧ fieldOf d 4 23 16 ≤ 10) && decide (fieldOf d 4 15 8 ≤ 1) && fieldOf d 4 7 3 == 0
    && (fieldOf d 4 2 2 == 0 || dwordAt d 0 == 0) && wordOf d 7 % 4 == 0 && zeroFrom d 10
    && (if sac then dwordAt d 2 % 32 == 0 && decide (1 ≤ c ∧ c ≤ 4096) && wordOf d 9 % 32 == 0 && decide (32 + 8 * c ≤ wordOf d 9)
          && fieldOf d 4 15 8 == 0
        else dwordAt d 2 == 0 && fieldOf d 4 1 1 == 0 && c == 0 && wordOf d 8 == 0 && wordOf d 9 == 0)

def acccvtOk (d : List Word) : Bool :=
  let f := fieldOf d 4 23 16
  let v := fieldOf d 4 15 8
  let mv := fieldOf d 4 4 4 == 1
  let rows := fieldOf d 5 23 16
  let cols := fieldOf d 6 31 16
  windowOk d && (meanByte f true) && (if mv then v == 0x08 || v == 0x15 else v == 0 && dwordAt d 2 == 0) && fieldOf d 4 7 5 == 0
    && decide (fieldOf d 4 2 0 ≤ 4) && fieldOf d 6 15 0 == 0 && wordOf d 7 % 32 == 0 && wordOf d 8 % 32 == 0 && zeroFrom d 12
    -- R280: the address of every row record; one row has no stride to check
    && (!isMxByte f || (cols % 32 == 0 && sideOk (f - 0x90) (dwordAt d 0) (if rows ≤ 1 then 0 else signedAt d 7)))
    && (f != 0x20 || (rows * cols % 16384 == 0 && dwordAt d 0 % 128 == 0 && wordOf d 7 == 0))

/-- A read-out: a copy of each active thread, of the tile at its place in the order. -/
def readOut (kind : CopyKind) (ok : List Word → Bool) (k : Nat) (is : Issued) (s : State) : State :=
  match is.active with
  | [] => s
  | t :: _ =>
      let d := descAt (s.groupOf t) k 16
      if !ok d then trapAll is s .cpDesc
      else issueCopies kind d (fun s => some (tileNow s (clusterOf is.core) (fieldOf d 4 31 24))) is s

def execAccrd (a : DescArgs) (s : State) : Host.Outcome State Fault Refusal :=
  word (.accrd a) s (readOut .accrd accrdOk a.k.toNat)
def execAcccvt (a : DescArgs) (s : State) : Host.Outcome State Fault Refusal :=
  word (.acccvt a) s (readOut .acccvt acccvtOk a.k.toNat)

end Sys2Proof.Machine
end

