-- ==== Sys2Proof/Machine/Collective.lean ====
section
/-! DEFINITION. Collective transfers (R282..R285) and scale-out (R393..R395): cp.ready, cp.coll, pulls, ready
records, messages between ranks; and the completion of every copy (R233, R234). -/

namespace Sys2Proof.Machine

/-- An entry pushed by the part at .dev; held while the queue is full. -/
def pushEntry (s : State) (p h : Nat) (e : Nat) (stores : List Nat) : State :=
  if !(s.part p).cues.has h then s
  else
    let (_, s) := publish s .device .dev stores false
    if cueFull s p h then s.onPart p fun x => { x with heldTraps := x.heldTraps ++ [(h, BitVec.ofNat 64 e)] }
    else cueEnter s p h (BitVec.ofNat 64 e) stores

/-! ### cp.ready (R283) -/

def readyOk (d : List Word) : Bool :=
  decide (dwordAt d 0 < 2 ^ 64) && !inFlat (dwordAt d 0) && fieldOf d 3 31 24 == 0 && fieldOf d 4 31 24 == 0 && wordOf d 5 % 4 == 0
    && fieldOf d 6 31 16 == 0 && decide (1 ≤ fieldOf d 6 15 0 ∧ fieldOf d 6 15 0 ≤ 4096) && wordOf d 7 == 0 && zeroFrom d 10

def execCpReady (a : DescArgs) (s : State) : Host.Outcome State Fault Refusal :=
  word (.cpReady a) s fun is s =>
    match is.active with
    | [] => s
    | t0 :: _ =>
        let d := descAt (s.groupOf t0) a.k.toNat 16
        if !readyOk d then trapAll is s .cpDesc
        else eachActive is s fun s t =>
          let p := s.partOf t
          if (s.thread t).held != .ready then s
          else
            let (_, s) := releaseMem s t .sys false
            s.onPart p fun x => { x with ready := x.ready ++ [
              ⟨d.getD 2 0, dwordAt d 0, fieldOf d 3 23 0, fieldOf d 4 23 0, d.getD 5 0, fieldOf d 6 15 0, 0, [], dwordAt d 8, s.ctxOf t, t, s.hist.next⟩] }

/-! ### cp.coll (R284) -/

def collOk (s : State) (p : Nat) (d : List Word) : Bool :=
  let rop := fieldOf d 3 31 24
  let rowb := fieldOf d 3 23 0
  let rmask := fieldOf d 7 14 12
  let acc := fieldOf d 7 15 15
  let (gx, gy, gz) := groupExtents s p
  grouped s p && decide (fieldOf d 6 11 0 < gx ∧ fieldOf d 6 23 12 < gy ∧ fieldOf d 7 11 0 < gz)
    && (if rop = 0xFF then acc == 0 && rmask == 0
        else ropListed rop && ropRowOk rop rowb && (!ropMx rop || sideOk (rop % 8) (dwordAt d 0) (signedAt d 5)))
    && fieldOf d 4 31 24 == 0 && wordOf d 5 % 4 == 0 && fieldOf d 6 31 24 == 0 && fieldOf d 7 31 16 == 0 && zeroFrom d 10

def execCpColl (a : DescArgs) (s : State) : Host.Outcome State Fault Refusal :=
  word (.cpColl a) s fun is s =>
    match is.active with
    | [] => s
    | t :: _ =>
        let d := descAt (s.groupOf t) a.k.toNat 16
        if !collOk s (s.partOf t) d then trapAll is s .cpDesc
        else issueCopies .coll d (fun _ => none) is s

/-! ### Pulls -/

/-- R138: a word of a ready record's tile: as it was when the record was announced, or as written since. -/
def tileWord (s : State) (r : ReadyRec) (va n : Nat) : Answer (List Byte) × State :=
  match viaWindows s r.ctx (s.privOf r.thread) va ⟨true, false, false⟩ with
  | .error e => (.fault e .noLeaf, s)
  | .ok l => match place s l false false with
      | (.ok pl, s) => match pl.poison s with
          | some _ => (.fault .memerr .noLeaf, s)
          | none =>
              let (home, s) := pl.read s l ((s.ctxPart l.ctx).getD 0) n
              let (b, s) := if l.phys then (home, s) else mixRead s r.mark l home
              (.ok b, s)
      | (.fault c e, s) => (.fault c e, s)
      | (.wait, s) => (.wait, s)

/-- The bytes of a ready record's tile, row by row, word by word. -/
def tileBytes (s : State) (r : ReadyRec) : Answer (List Byte) × State :=
  ((List.range r.rows).flatMap fun (i : Nat) => cutWords (addrAdd r.src (i * r.sstr.toInt)) (List.replicate r.rowb 0)).foldl (fun (acc, s) w =>
    match acc with
    | .ok b => match tileWord s r w.1 w.2.length with
        | (.ok x, s) => (.ok (b ++ x), s)
        | (.fault c e, s) => (.fault c e, s)
        | (.wait, s) => (.wait, s)
    | x => (x, s)) (.ok [], s)

def onReady (s : State) (p : Nat) (tid : Word) (f : ReadyRec → ReadyRec) : State :=
  s.onPart p fun x => { x with ready := x.ready.map fun r => if r.tid == tid then f r else r }

/-- R284: COLL_PULL: requests go to the other source ranks; the issuing partition's own record, once every other
tile is here, is pulled at once. A record of another shape ends the copy with CP_DESC. -/
def execCollPull (copy : Nat) (s : State) : Host.Outcome State Fault Refusal :=
  .next <| match s.copies.find? copy with
    | none => s
    | some cp =>
        if cp.kind != .coll || cp.suspended then s
        else
          let src := collSources s cp.part cp.desc
          let self := selfRank s cp.part
          let tid := cp.desc.getD 2 0
          let others := src.filter (· != self)
          if cp.asked.isNone then
            let s := others.foldl (fun s r => s.send (.pull cp.part r tid)) s
            { s with copies := s.copies.set copy { cp with asked := some s.clk } }
          else if src.contains self && !cp.pulled.has self && others.all cp.pulled.has then
            match (s.part cp.part).ready.find? fun r => r.tid == tid with
            | none => s
            | some r =>
                if r.rcnt ≤ r.pulls + r.asked.length then s
                else
                  let s1 := onReady s cp.part tid fun r => { r with pulls := r.pulls + 1 }
                  if r.rowb ≠ fieldOf cp.desc 3 23 0 ∨ r.rows ≠ fieldOf cp.desc 4 23 0 then
                    copyDone s1 copy cp 0 (some (.cpDesc, 0)) []
                  else match tileBytes s1 r with
                    | (.ok b, s) => { s with copies := s.copies.set copy { cp with pulled := cp.pulled.set self b } }
                    | (.fault c _, s) => copyDone s copy cp 0 (some (c, r.src)) []
                    | (.wait, _) => s
          else s

/-- R283: READY_RECORD_RETIRE: a record whose pulls have completed leaves the table and notifies RCUE. -/
def execReadyRecordRetire (part tile : Nat) (s : State) : Host.Outcome State Fault Refusal :=
  .next <| match (s.part part).ready.find? fun r => r.tid.toNat == tile with
    | none => s
    | some r =>
        if r.pulls < r.rcnt then s
        else
          let s := s.onPart part fun x => { x with ready := x.ready.filter fun y => y.tid != r.tid }
          if r.rcue = 0 then s else pushEntry s part r.rcue tile (s.hist.own r.thread)

/-! ### Completion of copies -/

/-- R233: COPY_COMPLETE: the copy's words are written, its batch takes its flags, ACUE is notified (R284). -/
def execCopyComplete (copy : Nat) (s : State) : Host.Outcome State Fault Refusal :=
  .next <| match s.copies.find? copy with
    | none => s
    | some cp =>
        if !copyReady s cp then s
        else
          let a := copyWhole s cp
          if a.wait || a.fault.isSome then s
          else
            let stores := a.cp.stores
            let n := (collSources s cp.part cp.desc).length
            let s := copyDone a.s copy cp a.cp.flags none stores
            let s := if cp.kind = .coll ∧ dwordAt cp.desc 8 ≠ 0 then
                pushEntry s cp.part (dwordAt cp.desc 8) (wordOf cp.desc 2 + n * 2 ^ 32) stores
              else s
            sweep s

/-- R234: COPY_FAULT: the copy met a fault: some of its words are written, its batch records it. -/
def execCopyFault (copy : Nat) (s : State) : Host.Outcome State Fault Refusal :=
  .next <| match s.copies.find? copy with
    | none => s
    | some cp =>
        if !copyReady s cp then s
        else
          let a := copyWhole s cp
          match a.wait, a.fault with
          | false, some f => copyCut s copy cp f
          | _, _ => s

/-! ### Messages between ranks (R393) -/

/-- R284, R393: UE_PULL_REQUEST: another rank pulls a live record; the tile leaves, awaiting acknowledgement. -/
def execUePullRequest (a : UeMsg) (s : State) : Host.Outcome State Fault Refusal :=
  .next <| match (s.part a.part).ready.find? fun r => r.tid == a.tid with
    | none => s
    | some r =>
        if r.rcnt ≤ r.pulls + r.asked.length then s
        else match tileBytes s r with
          | (.ok b, s) => (onReady s a.part a.tid fun r => { r with asked := r.asked ++ [(a.rank, s.clk)] }).send (.tile a.part a.rank a.tid b)
          | (_, s) => s

/-- R284, R393: UE_TILE_DATA: the tile a collective of the partition asked a rank for. -/
def execUeTileData (a : UeMsg) (s : State) : Host.Outcome State Fault Refusal :=
  .next <|
    match s.copies.items.find? fun e =>
      e.2.kind == .coll && e.2.part == a.part && e.2.desc.getD 2 0 == a.tid && e.2.asked.isSome && !e.2.pulled.has a.rank
        && a.rank != selfRank s a.part && (collSources s a.part e.2.desc).contains a.rank with
    | none => s
    | some (id, cp) =>
        let s := s.send (.ack a.part a.rank a.tid)
        if a.val ≠ fieldOf cp.desc 3 23 0 ∨ a.data.length ≠ fieldOf cp.desc 3 23 0 * fieldOf cp.desc 4 23 0 then
          copyDone s id cp 0 (some (.cpDesc, 0)) []
        else { s with copies := s.copies.set id { cp with pulled := cp.pulled.set a.rank a.data } }

/-- R395: the message to a rank about an object's GEN is one. -/
def StepMsg.about (x : StepMsg) (rank obj gen : Nat) : Bool := x.rank == rank && x.obj == obj && x.gen == gen

/-- R283, R393: UE_ACKNOWLEDGEMENT: a rank has every packet of its pull, or the superstep message sent to it (R395). -/
def execUeAcknowledgement (a : UeMsg) (s : State) : Host.Outcome State Fault Refusal :=
  .next <|
    if a.step then s.onPart a.part fun x => { x with steps := x.steps.filter fun y => !y.about a.rank a.obj.toNat (a.val % 256) }
    else onReady s a.part a.tid fun r =>
      match r.asked.find? fun x => x.1 == a.rank with
      | some x => { r with asked := r.asked.erase x, pulls := r.pulls + 1 }
      | none => r

/-- R248, R393: UE_SUPERSTEP_MESSAGE: a rank of the superstep group has completed a GEN of the object. -/
def execUeSuperstepMessage (a : UeMsg) (s : State) : Host.Outcome State Fault Refusal :=
  .next <|
    let va := a.obj.toNat
    let g := a.val % 256
    let s := s.onPart a.part fun x => { x with peers := x.peers.update (peerKey a.rank va) 0 fun n => n ||| 2 ^ g }
    superCheck s a.part va g

/-- R395: when what is waited for was sent, and the partition that sent it. A pull request is acknowledged by its tile:
the model's reading (DEDUCED, log entry 46). -/
def waitSince (s : State) (w : UeWait) : Option (Nat × Nat × Nat) :=
  match w with
  | .pull copy => match s.copies.find? copy with
      | none => none
      | some cp => match cp.kind, cp.asked, (collSources s cp.part cp.desc).find? fun r => r != selfRank s cp.part && !cp.pulled.has r with
          | .coll, some c, some r => some (cp.part, r, c)
          | _, _, _ => none
  | .tile part rank tid => match (s.part part).ready.find? fun r => r.tid == tid with
      | none => none
      | some r => (r.asked.find? fun x => x.1 == rank).map fun x => (part, rank, x.2)
  | .step part rank obj gen => ((s.part part).steps.find? fun x => x.about rank obj.toNat gen).map fun x => (part, rank, x.sent)

/-- R395: SCALEOUT_TIMEOUT: a rank has left a pull request, a tile or a superstep message unacknowledged for
UEP_TMO.MS; nothing is given up. 1 ms is 1,250,000 clk. -/
def execScaleoutTimeout (w : UeWait) (s : State) : Host.Outcome State Fault Refusal :=
  .next <| match waitSince s w with
    | none => s
    | some (p, rank, c) => if sysBits s RegNo.uepTmo p 15 0 * 1250000 ≤ s.clk - c then hlkErr s p 2 rank else s

/-- R393, R404: UE_PORT_TRAINING_END: a port in training comes up, or stays down. -/
def execUePortTrainingEnd (port : Nat) (up : Bool) (s : State) : Host.Outcome State Fault Refusal :=
  .next <|
    if port < 8 ∧ sysBits s (RegNo.uepCtl port) 0 25 24 = 1 then
      sysPutBits s (RegNo.uepCtl port) 0 25 24 (if up then 2 else 0)
    else s

end Sys2Proof.Machine
end

