-- ==== Sys2Proof/Machine/Crypto.lean ====
section
/-! DEFINITION. The algorithms R392 and R397..R401 name: SHA-512, MGF1 and the verification of an RSASSA-PSS signature
with a 64-byte salt under a 4096-bit modulus. The spec names them and does not restate them (PRESUMED, the public
standards FIPS 180-4 and RFC 8017; log entry 40). -/

namespace Sys2Proof.Machine

/-! ### SHA-512 -/

def sha512Init : List Dword :=
  [0x6A09E667F3BCC908, 0xBB67AE8584CAA73B, 0x3C6EF372FE94F82B, 0xA54FF53A5F1D36F1,
   0x510E527FADE682D1, 0x9B05688C2B3E6C1F, 0x1F83D9ABFB41BD6B, 0x5BE0CD19137E2179]

def sha512KA : List Dword :=
  [0x428A2F98D728AE22, 0x7137449123EF65CD, 0xB5C0FBCFEC4D3B2F, 0xE9B5DBA58189DBBC,
   0x3956C25BF348B538, 0x59F111F1B605D019, 0x923F82A4AF194F9B, 0xAB1C5ED5DA6D8118,
   0xD807AA98A3030242, 0x12835B0145706FBE, 0x243185BE4EE4B28C, 0x550C7DC3D5FFB4E2,
   0x72BE5D74F27B896F, 0x80DEB1FE3B1696B1, 0x9BDC06A725C71235, 0xC19BF174CF692694,
   0xE49B69C19EF14AD2, 0xEFBE4786384F25E3, 0x0FC19DC68B8CD5B5, 0x240CA1CC77AC9C65,
   0x2DE92C6F592B0275, 0x4A7484AA6EA6E483, 0x5CB0A9DCBD41FBD4, 0x76F988DA831153B5,
   0x983E5152EE66DFAB, 0xA831C66D2DB43210, 0xB00327C898FB213F, 0xBF597FC7BEEF0EE4,
   0xC6E00BF33DA88FC2, 0xD5A79147930AA725, 0x06CA6351E003826F, 0x142929670A0E6E70,
   0x27B70A8546D22FFC, 0x2E1B21385C26C926, 0x4D2C6DFC5AC42AED, 0x53380D139D95B3DF,
   0x650A73548BAF63DE, 0x766A0ABB3C77B2A8, 0x81C2C92E47EDAEE6, 0x92722C851482353B]

def sha512KB : List Dword :=
  [0xA2BFE8A14CF10364, 0xA81A664BBC423001, 0xC24B8B70D0F89791, 0xC76C51A30654BE30,
   0xD192E819D6EF5218, 0xD69906245565A910, 0xF40E35855771202A, 0x106AA07032BBD1B8,
   0x19A4C116B8D2D0C8, 0x1E376C085141AB53, 0x2748774CDF8EEB99, 0x34B0BCB5E19B48A8,
   0x391C0CB3C5C95A63, 0x4ED8AA4AE3418ACB, 0x5B9CCA4F7763E373, 0x682E6FF3D6B2B8A3,
   0x748F82EE5DEFB2FC, 0x78A5636F43172F60, 0x84C87814A1F0AB72, 0x8CC702081A6439EC,
   0x90BEFFFA23631E28, 0xA4506CEBDE82BDE9, 0xBEF9A3F7B2C67915, 0xC67178F2E372532B,
   0xCA273ECEEA26619C, 0xD186B8C721C0C207, 0xEADA7DD6CDE0EB1E, 0xF57D4F7FEE6ED178,
   0x06F067AA72176FBA, 0x0A637DC5A2C898A6, 0x113F9804BEF90DAE, 0x1B710B35131C471B,
   0x28DB77F523047D84, 0x32CAAB7B40C72493, 0x3C9EBE0A15C9BEBC, 0x431D67C49C100D4C,
   0x4CC5D4BECB3E42B6, 0x597F299CFC657E2A, 0x5FCB6FAB3AD6FAEC, 0x6C44198C4A475817]

/-- Bytes of a number, most significant first. -/
def bytesBE (n x : Nat) : List Byte := (bytesOfNat n x).reverse
/-- A number from bytes, most significant first. -/
def natBE (b : List Byte) : Nat := natOfBytes b.reverse

/-- Lists cut into runs of `n`. -/
def runsOf (n : Nat) : Nat → List Byte → List (List Byte)
  | 0, _ => []
  | fuel + 1, l => if l.isEmpty then [] else l.take n :: runsOf n fuel (l.drop n)

/-- The message with its padding, in blocks of 128 bytes. -/
def sha512Blocks (m : List Byte) : List (List Byte) :=
  let z := (239 - m.length % 128) % 128
  let p := m ++ [0x80#8] ++ List.replicate z 0 ++ bytesBE 16 (8 * m.length)
  runsOf 128 (p.length / 128 + 1) p

def rotr (x : Dword) (n : Nat) : Dword := x.rotateRight n
def smallS0 (x : Dword) : Dword := rotr x 1 ^^^ rotr x 8 ^^^ (x >>> 7)
def smallS1 (x : Dword) : Dword := rotr x 19 ^^^ rotr x 61 ^^^ (x >>> 6)
def bigS0 (x : Dword) : Dword := rotr x 28 ^^^ rotr x 34 ^^^ rotr x 39
def bigS1 (x : Dword) : Dword := rotr x 14 ^^^ rotr x 18 ^^^ rotr x 41

/-- The message schedule, newest word first. -/
def schedule : Nat → List Dword → List Dword
  | 0, w => w
  | n + 1, w => schedule n ((smallS1 (w.getD 1 0) + w.getD 6 0 + smallS0 (w.getD 14 0) + w.getD 15 0) :: w)

/-- One round on the working variables a..h. -/
def sha512Round (v : List Dword) (kw : Dword) : List Dword :=
  match v with
  | [a, b, c, d, e, f, g, h] =>
      let t1 := h + bigS1 e + ((e &&& f) ^^^ (~~~e &&& g)) + kw
      let t2 := bigS0 a + ((a &&& b) ^^^ (a &&& c) ^^^ (b &&& c))
      [t1 + t2, a, b, c, d + t1, e, f, g]
  | _ => v

def sha512Block (h : List Dword) (b : List Byte) : List Dword :=
  let w0 := (runsOf 8 17 b).map fun x => BitVec.ofNat 64 (natBE x)
  let w := (schedule 64 w0.reverse).reverse
  let v := (w.zip (sha512KA ++ sha512KB)).foldl (fun v e => sha512Round v (e.1 + e.2)) h
  (h.zip v).map fun e => e.1 + e.2

def sha512 (m : List Byte) : List Byte :=
  ((sha512Blocks m).foldl sha512Block sha512Init).flatMap fun x => bytesBE 8 x.toNat

/-! ### RSASSA-PSS -/

/-- MGF1. -/
def mgf1 (seed : List Byte) (n : Nat) : List Byte :=
  ((List.range (n / 64 + 1)).flatMap fun i => sha512 (seed ++ bytesBE 4 i)).take n

/-- x^65537 mod m. -/
def rsaPublic (x m : Nat) : Nat := (((List.range 16).foldl (fun y _ => y * y % m) (x % m)) * x) % m

/-- A signature over a message under a 4096-bit modulus. -/
def pssVerify (modulus sig m : List Byte) : Bool :=
  let n := natBE modulus
  let s := natBE sig
  let em := bytesBE 512 (rsaPublic s n)
  let db := em.take 447
  let h := (em.drop 447).take 64
  let plain := (db.zip (mgf1 h 447)).map fun e => e.1 ^^^ e.2
  let plain := (plain.take 1).map (fun x => x &&& 0x7F) ++ plain.drop 1
  decide (2 ^ 4095 ≤ n ∧ s < n) && em.drop 511 == [0xBC#8] && (db.headD 0).toNat < 128
    && plain.take 382 == List.replicate 382 0 && (plain.drop 382).take 1 == [1#8]
    && h == sha512 (List.replicate 8 0 ++ sha512 m ++ plain.drop 383)

/-- Bytes cut, or filled with zeros, to a length. -/
def fixedLen (n : Nat) (l : List Byte) : List Byte := (l ++ List.replicate (n - l.length) 0).take n

end Sys2Proof.Machine
end

