-- ==== Sys2Proof/Machine/Placement.lean ====
section
/-! DEFINITION. The dispatcher's view: launch packets (R340, R341), which launches are ready (R343, R54), what room
cores have (R349, R312), and the place of a block (R350..R352). -/

namespace Sys2Proof.Machine

/-! ### Packets (R340) -/

/-- `n` bytes of a structure in memory, as a number. -/
def fieldAt (b : List Byte) (off n : Nat) : Nat := natOfBytes ((b.drop off).take n)

def depAt (b : List Byte) (i : Nat) : Dep :=
  let x := fieldAt b (104 + 8 * i) 8
  ⟨bits x 15 15 == 1, bits x 9 0, BitVec.ofNat 32 (bits x 63 32)⟩

def packetOf (b : List Byte) : Packet :=
  let f := fieldAt b
  let d := fun off => BitVec.ofNat 64 (f off 8)
  let w44 := f 44 4
  let w48 := f 48 4
  let w84 := f 84 4
  { entry := d 0, hflat := d 8, htrap := d 16, hbrk := d 24
    gx := f 32 4, gy := bits (f 36 4) 15 0, gz := bits (f 36 4) 31 16
    bx := bits (f 40 4) 31 16, by_ := bits (f 40 4) 15 0, bz := bits w44 7 0
    narg := bits w44 31 24, regs := bits w44 23 16, stages := bits w44 12 8
    smode := bits w48 29 28, cplInt := bits w48 27 27 == 1, lateInt := bits w48 26 26 == 1, drop := bits w48 25 25 == 1
    early := bits w48 24 24 == 1, cls := bits w48 23 20, flats := bits w48 19 16, kregs := bits w48 10 0
    grace := f 52 4, deadline := f 56 8, seed := d 64, affinity := d 72, affStride := BitVec.ofNat 32 (f 80 4)
    cen := bits w84 15 15 == 1, cevc := bits w84 9 0, cplAddr := d 88, trapBase := d 96
    deps := (List.range 4).map (depAt b)
    args := (List.range (bits w44 31 24)).map fun i => BitVec.ofNat 32 (f (192 + 4 * i) 4)
    clean := bits w44 15 13 == 0 && bits w48 31 30 == 0 && bits w48 15 11 == 0 && bits w84 31 16 == 0 && bits w84 14 10 == 0
      && ((List.range 4).all fun i => bits (f (104 + 8 * i) 8) 31 16 == 0 && bits (f (104 + 8 * i) 8) 14 10 == 0)
      && f 136 56 == 0 }

/-- R341: a packet within R340. -/
def Packet.ok (k : Packet) : Bool :=
  k.clean && decide (k.narg ≤ 64) && decide (1 ≤ k.regs ∧ k.regs ≤ 248) && decide (k.narg ≤ k.kregs ∧ k.kregs ≤ 1024)
    && decide (k.flats ≤ 8) && k.smode != 3 && k.entry.toNat % 8 == 0 && k.cplAddr.toNat % 32 == 0 && k.trapBase.toNat % 32 == 0

/-- R37: a packet within the extents. -/
def Packet.shapeOk (k : Packet) : Bool :=
  decide (1 ≤ k.bx ∧ k.bx ≤ 24576) && decide (1 ≤ k.by_ ∧ k.by_ ≤ 24576) && decide (1 ≤ k.bz ∧ k.bz ≤ 64)
    && decide (k.bx * k.by_ * k.bz ≤ 24576) && decide (1 ≤ k.gx ∧ k.gx < 2 ^ 31) && decide (1 ≤ k.gy ∧ 1 ≤ k.gz)
    && decide (1 ≤ k.stages ∧ k.stages ≤ 16)

def Packet.threads (k : Packet) : Nat := k.bx * k.by_ * k.bz
def Packet.groups (k : Packet) : Nat := (k.threads + 31) / 32
/-- R17: the rounded register count. -/
def Packet.rounded (k : Packet) : Nat := (k.regs + 7) / 8 * 8
/-- Blocks of the launch, over all stages. -/
def Packet.blocks (k : Packet) : Nat := k.gx * k.gy * k.gz * k.stages

/-! ### Launches -/

/-- Admitted, unretired launches of a partition. -/
def launchesOf (s : State) (p : Nat) : List (Nat × Launch) := s.launches.items.filter fun e => e.2.part == p

/-- R326: the save area of a partition: its base and size. -/
def saveArea (s : State) (p : Nat) : Option (Nat × Nat) :=
  let x := (sysGet s RegNo.saveBase p).toNat
  if 20 ≤ bits x 63 58 ∧ bits x 63 58 ≤ 40 then some (bits x 56 12 * 4096, 2 ^ bits x 63 58) else none

/-- R343: is a dependence satisfied by the counter as it stands? -/
def depMet (s : State) (p : Nat) (d : Dep) : Bool :=
  !d.en || decide ((sysBits s (RegNo.evc d.counter) p 31 0 + 2 ^ 32 - d.target.toNat) % 2 ^ 32 < 2 ^ 31)

/-- R343: what has been seen satisfied stays so. -/
def seeDeps (s : State) (p : Nat) : State :=
  { s with launches := s.launches.mapKV fun _ l =>
      if l.part == p then { l with depSeen := (l.pkt.deps.zipIdx).map fun e => l.depSeen.getD e.2 false || depMet s p e.1 } else l }

/-- The counters of the dependences not yet satisfied. -/
def openDeps (l : Launch) : List Nat := (l.pkt.deps.zipIdx.filter fun e => !l.depSeen.getD e.2 false).map fun e => e.1.counter

/-- Blocks of a launch that await relaunch, in dispatch order. -/
def queuedBlocks (s : State) (id : Nat) : List (Nat × Block) :=
  s.blocks.items.filter fun e => e.2.launch == id && match e.2.save with
    | .queued _ _ => true
    | _ => false
/-- R353: a block of the launch is saved and awaits relaunch. -/
def savedBlocks (s : State) (id : Nat) : Bool := s.blocks.items.any fun e => e.2.launch == id && match e.2.save with
  | .saved _ _ | .queued _ _ => true
  | .resident | .swapped => false

/-- R54, R343: the producers of an early consumer; a launch that names its own counter is one of its own. -/
def producers (s : State) (l : Launch) : List (Nat × Launch) :=
  (launchesOf s l.part).filter fun e => e.2.pkt.cen && (openDeps l).contains e.2.pkt.cevc

/-- R54: an early consumer. -/
def isEarly (s : State) (l : Launch) : Bool := l.pkt.early && (saveArea s l.part).isSome && !(openDeps l).isEmpty

/-- R343: ready. -/
def isReady (s : State) (l : Launch) : Bool :=
  (openDeps l).isEmpty || (isEarly s l && (openDeps l).all fun c => (producers s l).any fun e => e.2.pkt.cevc == c)

/-- R54, R353: the limit on an early consumer is in force. -/
def isLimited (s : State) (l : Launch) : Bool :=
  isEarly s l && (producers s l).any fun e => decide (e.2.nextBlock < e.2.pkt.blocks) || savedBlocks s e.1

/-! ### Room (R312, R349) -/

/-- Groups that hold a slot of a core. -/
def coreGroups (s : State) (c : Nat) : List (Nat × Group) :=
  s.groups.items.filter fun e => e.2.core == c && (s.block e.2.block).save == .resident && !(s.live e.1).isEmpty

/-- R312: slots a core reserves for S groups. -/
def reserved (s : State) (c : Nat) : Nat :=
  match s.corePart c with
  | some p => if (sysGet s RegNo.rsvcl p).getLsbD (clusterOf c) then sysBits s RegNo.rsv p 5 0 else 0
  | none => 0

/-- S groups beyond the reservation count against the U slots. -/
def usedU (s : State) (c : Nat) : Nat :=
  let gs := coreGroups s c
  (gs.filter fun e => !e.2.priv).length + ((gs.filter fun e => e.2.priv).length - reserved s c)
/-- R352: free U group slots. -/
def freeU (s : State) (c : Nat) : Nat := 192 - reserved s c - usedU s c
def freeS (s : State) (c : Nat) : Nat :=
  let n := ((coreGroups s c).filter fun e => e.2.priv).length
  min (reserved s c - n) (192 - (coreGroups s c).length)

def roundedOf (s : State) (g : Group) : Nat := (s.launch (s.block g.block).launch).pkt.rounded

/-- R349: how many groups of a launch a core could take. -/
def coreCap (s : State) (id : Nat) (l : Launch) (c : Nat) : Nat :=
  let gs := coreGroups s c
  let ls := (gs.map fun e => (s.block e.2.block).launch).dedup
  let flats := ((ls.filter (· != id)).map fun i => (s.launch i).pkt.flats).sum + l.pkt.flats
  let regs := (8192 - (gs.map fun e => roundedOf s e.2).sum) / l.pkt.rounded
  let slots := if l.priv then freeS s c else freeU s c
  let mine := (gs.filter fun e => (s.block e.2.block).launch == id).length
  let early := if !l.priv && isLimited s l then 192 - sysBits s RegNo.earlyReserve l.part 7 0 - mine else 192
  if 8 < flats then 0 else min slots (min regs early)

/-- R18, R341: the same for a core that holds no group. -/
def emptyCap (s : State) (l : Launch) (c : Nat) : Nat :=
  min (if l.priv then reserved s c else 192 - reserved s c) (8192 / l.pkt.rounded)

/-- R39: a block's groups over the cores of a cluster, given what each could take. -/
def shareOut : List (Nat × Nat) → Nat → List (Nat × Nat)
  | _, 0 => []
  | [], _ => []
  | (c, k) :: r, n => if k = 0 then shareOut r n else (c, min k n) :: shareOut r (n - min k n)

/-- R39, R352: the cores of a cluster that take `n` groups of a block, and how many each; none if they do not fit. -/
def coresFor (s : State) (k : Packet) (cap : Nat → Nat) (cluster n : Nat) : Option (List (Nat × Nat)) :=
  let cs := (List.range 4).map fun i => 4 * cluster + i
  if k.threads ≤ 6144 then
    let ok := cs.filter fun c => decide (n ≤ cap c)
    match ok.find? fun c => ok.all fun d => decide (freeU s d < freeU s c) || (freeU s d == freeU s c && decide (c ≤ d)) with
    | some c => some [(c, n)]
    | none => none
  else if (cs.map cap).sum < n then none
  else some (shareOut (cs.map fun c => (c, cap c)) n)

/-- R350, R312: the clusters that a stage of a launch may be placed on. -/
def clustersFor (s : State) (l : Launch) (stage : Nat) : List Nat :=
  let all := s.clustersOf l.part
  let die := match l.pkt.smode with
    | 1 => some (2 * stage / l.pkt.stages)
    | 2 => some (stage % 2)
    | _ => none
  let on := match die with
    | some d => if all.any fun c => c / 32 == d then all.filter fun c => c / 32 == d else all
    | none => all
  if l.priv then on.filter fun c => (sysGet s RegNo.rsvcl l.part).getLsbD c else on

/-- R341: can the launch's blocks fit on some cluster? -/
def fitsEmpty (s : State) (l : Launch) : Bool :=
  (List.range l.pkt.stages).any fun st => (clustersFor s l st).any fun c => (coresFor s l.pkt (emptyCap s l) c l.pkt.groups).isSome

/-- R358: a launch of a bubble class has room on a cluster only in an open slot that admits its class. -/
def bubbleOk (s : State) (l : Launch) (c : Nat) : Bool :=
  l.priv || l.pkt.cls == 0 || match (s.part l.part).bubble with
    | none => false
    | some b => b.clusters.getLsbD c && decide (s.ns < b.ends) && decide (sysBits s RegNo.bsOpen l.part 35 32 ≤ l.pkt.cls)

/-- R327, R348, R375: what keeps a launch off a cluster for now: a halt, another launch's reserve, a loft load. -/
def barred (s : State) (id : Nat) (l : Launch) (c : Nat) : Bool :=
  let d := s.die (c / 32)
  d.halted.has l.ctx || (d.load.map fun x => x.part == l.part).getD false
    || match (s.part l.part).reserve with
      | some (i, k) => k == c && i != id
      | none => false

/-- R272: entries a relaunched block needs in the reservation table of its cluster. -/
def tableRoom (s : State) (c n : Nat) : Bool := decide ((s.cluster c).table.size + n ≤ 32)

/-- The cores a block of `n` groups, with `w` withdrawn entries, takes on a cluster as it stands. -/
def roomOn (s : State) (id : Nat) (l : Launch) (n w c : Nat) : Option (List (Nat × Nat)) :=
  if barred s id l c || !bubbleOk s l c || (w != 0 && !tableRoom s c w) then none else coresFor s l.pkt (coreCap s id l) c n

/-! ### Affinity (R351, R352) -/

/-- What the affinity address of a block gives: nothing, a channel of a die, or a locate-cache miss to be filled. -/
inductive Affinity
  | none
  | at (ch die : Nat)
  | miss (key ch die : Nat)
  | locked
deriving DecidableEq, Repr

/-- The die whose locate cache serves a partition: that of its lowest cluster. -/
def locateDie (s : State) (p : Nat) : Nat := ((s.clustersOf p).headD 0) / 32

def affinityOf (s : State) (l : Launch) (lin : Nat) : Affinity :=
  let va := (l.pkt.affinity + BitVec.ofInt 64 (lin * l.pkt.affStride.toInt)).toNat
  if l.pkt.affinity = 0 then .none
  else match viaWindows s l.ctx l.priv va ⟨false, false, false⟩ with
    | .error _ => .none
    | .ok p =>
        if p.phys then .at (channelOf s p.ia) p.die
        else
          let key := histKey p 0 / 128
          match (s.die (locateDie s l.part)).locate.find? key with
          | some (ch, d) => .at ch d
          | none => match walk (leafOf s p.die p.ia) p false false with
              | .ok pa _ => if pa ≥ hostFrames then .none else .miss key (channelOf s pa) p.die
              | .lock => .locked
              | _ => .none

def absDiff (a b : Nat) : Nat := (a - b) + (b - a)
/-- R352: the ring of a cluster about the home of a channel. -/
def ringOf (ch die c : Nat) : Nat :=
  let h := ch / 4
  let i := c % 32
  max (absDiff (i / 8) (h / 8)) (absDiff (i % 8) (h % 8)) + if c / 32 = die then 0 else 8

def freeCluster (s : State) (c : Nat) : Nat := ((List.range 4).map fun i => freeU s (4 * c + i)).sum

/-- R352: the order in which clusters are searched, best first: with an affinity by ring, then most free slots, then
number; without, by number from the one after the launch's last. -/
def clusterBefore (s : State) (l : Launch) (a : Affinity) (x y : Nat) : Bool :=
  match a with
  | .at ch d =>
      let rx := ringOf ch d x
      let ry := ringOf ch d y
      decide (rx < ry) || (rx == ry && (decide (freeCluster s y < freeCluster s x)
        || (freeCluster s x == freeCluster s y && decide (x ≤ y))))
  | _ =>
      let r := fun c => match l.lastCluster with
        | some k => (c + 63 - k) % 64
        | none => c
      decide (r x ≤ r y)

/-- The place of a block: the first cluster with room, and its cores. -/
def seek (s : State) (id : Nat) (l : Launch) (a : Affinity) (stage n w : Nat) : Option (Nat × List (Nat × Nat)) :=
  let ok := (clustersFor s l stage).filterMap fun c => (roomOn s id l n w c).map fun x => (c, x)
  ok.find? fun e => ok.all fun o => clusterBefore s l a e.1 o.1

/-! ### Selection (R346, R350) -/

/-- EDF order. -/
def edfBefore (a b : Nat × Launch) : Bool :=
  decide (a.2.pkt.deadline < b.2.pkt.deadline) || (a.2.pkt.deadline == b.2.pkt.deadline && decide (a.2.order ≤ b.2.order))
def edfInsert (x : Nat × Launch) : List (Nat × Launch) → List (Nat × Launch)
  | [] => [x]
  | y :: r => if edfBefore x y then x :: y :: r else y :: edfInsert x r
def edfSort (l : List (Nat × Launch)) : List (Nat × Launch) := l.foldr edfInsert []

/-- Launches of a partition that are ready and have a block to place, in EDF order. -/
def candidates (s : State) (p : Nat) : List (Nat × Launch) :=
  edfSort ((launchesOf s p).filter fun e =>
    e.2.retire == .live && e.2.ended.isNone && isReady s e.2
      && (decide (e.2.nextBlock < e.2.pkt.blocks) || !(queuedBlocks s e.1).isEmpty))

/-- A launch's next block: a saved one (its number), else the next of its grid; with linear index, stage, groups
to be placed and withdrawn entries. -/
structure Next where
  saved : Option Nat
  lin : Nat
  stage : Nat
  groups : Nat
  entries : Nat
deriving DecidableEq, Repr

def liveGroups (s : State) (b : Block) : List Nat := b.groups.filter fun g => !(s.live g).isEmpty

def nextOf (s : State) (id : Nat) (l : Launch) : Next :=
  match queuedBlocks s id with
  | (b, x) :: _ => ⟨some b, x.lin, x.stage, (liveGroups s x).length, x.withdrawn.length⟩
  | [] => ⟨none, l.nextBlock / l.pkt.stages, l.nextBlock % l.pkt.stages, l.pkt.groups, 0⟩

/-- What the dispatcher does next in a partition. -/
inductive Choice
  | none
  /-- the locate cache is to be filled for a launch first -/
  | fill (launch key ch die : Nat)
  /-- a block of a launch takes cores of a cluster -/
  | place (launch : Nat) (next : Next) (cluster : Nat) (cores : List (Nat × Nat))
deriving DecidableEq, Repr

/-- R346: the first launch in EDF order whose next block fits takes the room. -/
def choose (s : State) : List (Nat × Launch) → Choice
  | [] => .none
  | (id, l) :: r =>
      let n := nextOf s id l
      match affinityOf s l n.lin with
      | .miss k ch d => .fill id k ch d
      | .locked => choose s r
      | a => match seek s id l a n.stage n.groups n.entries with
          | some (c, cs) => .place id n c cs
          | none => choose s r

def choiceOf (s : State) (p : Nat) : Choice := choose s (candidates s p)

end Sys2Proof.Machine
end

