-- ==== Sys2Proof/Machine/Dispatcher.lean ====
section
/-! DEFINITION. The dispatcher at work: admission (R339..R341), dispatch and judgement (R346..R352), save and relaunch
(R50, R51, R326), retirement (R344, R345), cancellation (R354), bubble slots (R357, R358). -/

namespace Sys2Proof.Machine

/-! ### Notices (R359, R390) -/

/-- R359: the word of a notice. -/
def noticeWord (l : Launch) (late : Bool) (status : Nat) : Dword :=
  BitVec.ofNat 64 (2 ^ 63 + (if late then 2 ^ 62 else 0) + status * 2 ^ 58 + l.part * 2 ^ 55 + l.queue * 2 ^ 48 + l.seq % 2 ^ 48)

/-- Do the FIFOs that a queue's notices go to have room? -/
def noticeRoom (s : State) (l : Launch) : Bool :=
  let irq := lqIrq s l.part l.queue
  (irq % 2 == 0 || decide ((s.part l.part).notes.length < 256)) && (irq < 2 || decide (s.pkg.smgNotes.length < 256))

/-- A notice to the host, the stage manager, or both, as IRQ says. -/
def notify (s : State) (l : Launch) (late : Bool) (status : Nat) : State :=
  let irq := lqIrq s l.part l.queue
  let w := noticeWord l late status
  let s := if irq % 2 = 0 then s
    else
      let first := (s.part l.part).notes.isEmpty
      let s := s.onPart l.part fun x => { x with notes := x.notes ++ [w] }
      if first then raiseMsix s l.part 0 else s
  if irq < 2 then s else s.onPkg fun x => { x with smgNotes := x.smgNotes ++ [w] }

/-! ### Admission (R339, R341) -/

/-- R339: queues whose next packet may be admitted. -/
def admissible (s : State) (p q : Nat) : Bool :=
  lqEnabled s p q && lqField s p q 3 3 == 1 && lqPending s p q != 0 && decide ((launchesOf s p).length < 512)

/-- R339: the queues are served in turn. -/
def nextQueue (s : State) (p : Nat) : Option Nat :=
  ((List.range 64).map fun i => ((s.part p).turn + 1 + i) % 64).find? (admissible s p)

/-- R341: the tests, in their order. -/
def packetFate (s : State) (l : Launch) : Option LaunchStatus :=
  if !l.pkt.ok then some .badpkt else if !l.pkt.shapeOk then some .badshape else if !fitsEmpty s l then some .oversize else none

/-- A packet that has been read is admitted. -/
def admitPacket (s : State) (p q : Nat) (b : List Byte) : State :=
  let h := lqHead s p q
  let seq := (s.part p).seqs.findD q 0
  let (id, s) := s.tick
  let k := packetOf b
  let l : Launch :=
    { Launch.fresh with
      part := p, queue := q, seq := seq, ctx := lqCtx s p q, priv := lqPriv s p q, pkt := k, order := id
      depSeen := k.deps.map fun d => depMet s p d }
  let s := sysPutBits s (RegNo.lqPtr q) p 63 32 (h + 1)
  let s := s.onPart p fun x => { x with seqs := x.seqs.set q (seq + 1), turn := q }
  { s with launches := s.launches.set id { l with ended := packetFate s l } }

/-- Where a read through a context's windows meets a page fault: the place and the reason. -/
def faultIn (s : State) (c va n : Nat) : Option (Loc × FaultReason) :=
  (spans va n).findSome? fun x => match viaWindows s c true x.2.1 ⟨true, false, false⟩ with
    | .error _ => none
    | .ok l => if l.phys || (lineAt s l).isSome then none
        else match walk (leafOf s l.die l.ia) l false false with
          | .fault r => some (l, r)
          | _ => none

/-- R339: the packet of slot HEAD is read, once. A page fault waits for the runtime (R370); a packet that cannot be
read breaks R340. -/
def admitNext (s : State) (p q : Nat) : State :=
  let va := lqSlot s p q (lqHead s p q)
  match agentRead s p va 448 with
  | (.ok b, s) => admitPacket s p q b
  | (.wait, s) => s
  | (.fault .pageFault _, s) =>
      match faultIn s ((s.runtime p).getD 0) va 448 with
      | none => s
      | some (l, r) =>
          if (faultFor s p l 0).isSome then s
          else match holdFault s p l va 0 0 0 r [] none with
            | (.deny, s) => admitPacket s p q []
            | (_, s) => s
  | (.fault _ _, s) => admitPacket s p q []

/-! ### Groups on cores -/

/-- R312: any free slot number of a core; an S group takes none that a group of a swapped context will come back to
(R328). -/
def takeSlot (s : State) (c : Nat) (priv : Bool) : Nat × State :=
  let used := (coreGroups s c).map fun e => e.2.slot
  let away := if priv then
      ((s.groups.filter fun _ g => g.core == c && (s.block g.block).save == .swapped).values.map Group.slot)
    else []
  let free := (List.range 192).filter fun k => !used.contains k && !away.contains k
  let (k, s) := s.pick free.length
  (free.getD k 0, s)

/-- A share of cores spelt out group by group. -/
def perGroup (cs : List (Nat × Nat)) : List Nat := cs.flatMap fun e => List.replicate e.2 e.1

/-- R28, R38, R57, R60, R80, R127: a group of a dispatched block with its threads; every store published to .dev or
wider is available to them. -/
def makeGroup (s : State) (l : Launch) (b j core lin : Nat) : State :=
  let (slot, s) := takeSlot s core l.priv
  let gid := s.ctr
  let k := l.pkt
  let n := min 32 (k.threads - 32 * j)
  let g : Group :=
    { Group.fresh with
      block := b, index := j, core := core, slot := slot, priv := l.priv, ctx := l.ctx
      k := ⟨k.args.zipIdx.map fun e => (e.2, e.1)⟩
      key := k.seed ^^^ BitVec.ofNat 64 lin }
  let th := fun (i : Nat) =>
    { Thread.fresh with
      group := gid, lane := i, lin := 32 * j + i, nregs := k.rounded, pc := k.entry, snap := ⟨s.hist.dev, []⟩, readyAt := s.clk }
  let ids := List.range' (gid + 1) n
  { s with
    ctr := gid + 1 + n
    groups := s.groups.set gid g
    threads := (List.range n).foldl (fun m i => m.set (gid + 1 + i) (th i)) s.threads
    blocks := s.blocks.modify b fun x => { x with groups := x.groups ++ [gid], threads := x.threads ++ ids } }

/-- A block of a launch's grid comes to its cores; a signal that awaits it is delivered (R253). -/
def makeBlock (s : State) (id : Nat) (l : Launch) (n : Next) (cs : List (Nat × Nat)) : State :=
  let (b, s) := s.tick
  let i := n.lin * l.pkt.stages + n.stage
  let x := { Block.fresh with launch := id, lin := n.lin, stage := n.stage, lastIssue := s.clk, signal := l.signals.contains i }
  let s := { s with blocks := s.blocks.set b x }
  let s := (perGroup cs).zipIdx.foldl (fun s e => makeGroup s l b e.2 e.1 n.lin) s
  s.onLaunch id fun x => { x with nextBlock := x.nextBlock + 1, signals := x.signals.filter (· != i), blocks := x.blocks ++ [b] }

/-! ### Save and relaunch (R50, R51, R272, R326) -/

/-- R50: the save-eligible waits. -/
def eligibleWait (w : Why) : Bool :=
  match w with
  | .mask _ | .barBlk _ | .bar _ _ _ _ _ | .cue _ _ | .suspend => true
  | _ => false

/-- R50, R166: a waiting block. -/
def isWaiting (s : State) (b : Block) : Bool :=
  let ts := (b.threads.map s.thread).filter fun th => th.held != .exited
  !ts.isEmpty && (ts.all fun th => th.held == .waiting && eligibleWait th.why) && !b.threads.any (xopPending s)

/-- R50, R358: what every save waits for: no thread CURTAINED, no granted pass, no copy in flight. -/
def saveable (s : State) (b : Nat) : Bool :=
  let x := s.block b
  (x.threads.all fun t => let th := s.thread t; th.held == .exited || (!th.tc && !th.dc))
    && (s.copies.filter fun _ c => x.threads.contains c.tid).items.isEmpty
    && s.clusters.values.all fun k => k.granted.all fun r => r.block != b

/-- R326: the size of a frame. -/
def frameSize (s : State) (b : Block) : Nat :=
  let n := (s.launch b.launch).pkt.rounded
  (4096 + 4608 * b.groups.length + (4 * n + 64) * b.threads.length + 4095) / 4096 * 4096

/-- R326: a place in the save area for a frame. -/
def frameFor (s : State) (p size : Nat) : Option Nat :=
  match saveArea s p with
  | none => none
  | some (_, n) =>
      let fs := (s.part p).frames
      (0 :: fs.map fun f => f.1 + f.2).find? fun o => decide (o + size ≤ n) && fs.all fun f => decide (o + size ≤ f.1 ∨ f.1 + f.2 ≤ o)

/-- R51, R117, R317: a block is saved: results of special functions land, each thread, exited or not, releases at .dev,
ungranted entries are withdrawn with their signatures, the slots are freed. The layout of the frame belongs to the part (R326): its
bytes are free values. -/
def saveBlock (s : State) (b : Nat) (queued : Bool) : State :=
  let x := s.block b
  let l := s.launch x.launch
  let p := l.part
  let size := frameSize s x
  let (frame, s1) := s.freeBytes size
  match (frameFor s p size).bind fun o =>
      (areaWrite s1 l.ctx (locateDie s p) (((saveArea s p).getD (0, 0)).1 + o) frame).map fun s => (o, s) with
  | none => s
  | some (o, s) =>
      let s := (s.blockLive b).foldl settleSfu s
      let s := x.threads.foldl (fun s t => (release s t .dev false []).2) s
      let c := blockCluster s b
      let mine := ((s.cluster c).table.filter fun _ e => e.block == b).values
      let s := s.onCluster c fun k => { k with table := k.table.filter fun _ e => e.block != b }
      let s := s.onPart p fun y => { y with frames := y.frames ++ [(o, size)] }
      s.onBlock b fun y =>
        { y with
          save := if queued then .queued o size else .saved o size
          withdrawn := mine
          due := none
          cvs := y.cvs.mapKV fun _ v => { v with entry := none } }

/-- R272: a withdrawn entry enters the table of the new cluster, named after the cores its threads now run on. -/
def repost (s : State) (b c : Nat) (e : RtEntry) : State :=
  let n := (s.cluster c).table.fresh 0 32
  let e := { e with
    latch := e.latch.map fun (x : Staged) => { x with core := s.coreOf x.tid }
    post := e.post.map fun (x : Posted) => { x with core := s.coreOf x.tid } }
  (s.onCluster c fun k => { k with table := k.table.set n e }).onBlock b fun y =>
    { y with cvs := y.cvs.modify e.cv fun v => { v with entry := some n } }

/-- R51, R117, R242: a saved block is relaunched on cores of a cluster: its groups take slots, its entries are re-posted,
each thread acquires at .dev what all of them released, its pops take their turns, and a flat.take looks at its new core's
slot. The time since its last issue begins anew: the spec does not say whether the time it spent saved counts (log entry 22). -/
def relaunch (s : State) (id b cluster : Nat) (cs : List (Nat × Nat)) : State :=
  let x := s.block b
  let p := (s.launch id).part
  let lg := liveGroups s x
  let s := { s with groups := s.groups.mapKV fun g y => if x.groups.contains g then { y with core := 4 * cluster } else y }
  let s := (lg.zip (perGroup cs)).foldl (fun s e =>
    let (k, s) := takeSlot (s.onGroup e.1 fun y => { y with core := e.2, slot := 192 }) e.2 false
    s.onGroup e.1 fun y => { y with slot := k }) s
  let s := s.onPart p fun y => { y with frames := match x.save with
    | .queued o n => y.frames.erase (o, n)
    | _ => y.frames }
  let s := s.onBlock b fun y => { y with save := .resident, withdrawn := [], lastIssue := s.clk }
  let s := x.withdrawn.foldl (fun s e => repost s b cluster e) s
  -- the release of the save covers what its threads had on its way (R117)
  let s := x.threads.foldl (fun s t => (release s t .dev false []).2) s
  let ts := s.blockLive b
  let s := ts.foldl (fun s t => acquire s t .dev [] false) s
  ts.foldl (fun s t => match (s.thread t).why with
    | .take k _ => attachWake s (s.coreOf t) k
    | .cue h _ =>
        let s := cueServe s p h (((s.part p).cues.find? h).map (fun q => q.waiters.length) |>.getD 0)
        heldTraps s p h (s.part p).heldTraps.length
    | _ => s) s

/-! ### Dispatch (R346, R347, R348) -/

/-- R347: the outcome for a launch selected for its first block: on time, late, or dropped. -/
inductive Judgement
  | onTime | late | dropped
deriving DecidableEq, Repr

def judge (t : Nat) (k : Packet) : Judgement :=
  let d := k.deadline
  if t ≤ d then .onTime else if min (d + k.grace) (2 ^ 64 - 1) < t && k.drop then .dropped else .late

/-- R348: the launch first in EDF order that could not be placed while another was. -/
def passOver (s : State) (p id : Nat) : State :=
  match candidates s p with
  | (h, l) :: _ => if h = id ∨ l.unplaced.isSome then s else s.onLaunch h fun x => { x with unplaced := some s.clk }
  | [] => s

/-- A selected block is placed, its launch judged at its first. -/
def placeNext (s : State) (p id : Nat) (n : Next) (c : Nat) (cs : List (Nat × Nat)) : State :=
  let l := s.launch id
  let first := l.disp.isNone && n.saved.isNone
  let t := s.ns
  match if first then judge t l.pkt else .onTime with
  | .dropped => s.onLaunch id fun x => { x with late := true, ended := some .dropped }
  | j =>
      if j = .late ∧ l.pkt.lateInt ∧ !noticeRoom s l then s
      else
        let s := passOver s p id
        let s := if j = .late then
            let s := s.onLaunch id fun x => { x with late := true }
            if l.pkt.lateInt then notify s l true 0 else s
          else s
        let s := s.onLaunch id fun x =>
          { x with disp := some (x.disp.getD t), mark := if x.disp.isSome then x.mark else s.hist.next, lastCluster := some c, unplaced := none }
        let s := s.onPart p fun x => { x with reserve := match x.reserve with
          | some (i, k) => if i = id then none else some (i, k)
          | none => none }
        match n.saved with
        | some b => relaunch s id b c cs
        | none => makeBlock s id (s.launch id) n cs

/-! ### Retirement (R344, R345) -/

def LaunchStatus.code : LaunchStatus → Nat
  | .done => 0 | .dropped => 1 | .badshape => 2 | .oversize => 3 | .badpkt => 4 | .cancelled => 5 | .killed => 6
  | .copyfault => 7

def threadsOf (s : State) (id : Nat) : List Nat := (s.blocks.values.filter fun b => b.launch == id).flatMap Block.threads

/-- R251, R344: every block has exited or been discarded, and what its threads issued has been performed. -/
def launchQuiet (s : State) (id : Nat) (l : Launch) : Bool :=
  let ts := threadsOf s id
  (l.ended.isSome || l.pkt.blocks ≤ l.nextBlock)
    && (ts.all fun t =>
      let th := s.thread t
      th.held == .exited && th.out.isEmpty && (th.ports.filter fun p x => decide (4 ≤ p) && !x.isEmpty).items.isEmpty)
    && (s.copies.filter fun _ c => ts.contains c.tid).items.isEmpty

/-- R234: a fault of a batch that no cp.wait raised. -/
def copyFaulted (s : State) (id : Nat) : Bool :=
  (threadsOf s id).any fun t =>
    let th := s.thread t
    (th.unsealed :: th.batches).any fun b => b.fault.isSome && !b.raised

def launchStatus (s : State) (id : Nat) (l : Launch) : LaunchStatus :=
  l.ended.getD (if copyFaulted s id then .copyfault else .done)

/-- R345: the record. -/
def completionRecord (s : State) (l : Launch) (st : LaunchStatus) : List Byte :=
  bytesOfNat 4 (LaunchStatus.code st + if l.late then 256 else 0) ++ bytesOfNat 4 (l.queue + 256 * l.ctx) ++ bytesOfNat 8 l.seq
    ++ bytesOfNat 8 (l.disp.getD 0) ++ bytesOfNat 8 s.ns

/-- R127: a launch's release at .sys of every store of its threads; host writes among them are flushed (R389). -/
def launchRelease (s : State) (id : Nat) : Nat × State :=
  let ids := (s.hist.stores.filter fun _ r => r.launch == some id).keys
  let host := s.pkg.sent.any fun m => match m with
    | .hostWrite _ _ _ => true
    | _ => false
  publish (if host then s.send .hostFlush else s) .device .sys ids false

/-- R342, R343: a counter advanced. -/
def evcBump (s : State) (p n k : Nat) : State := seeDeps (sysPutBits s (RegNo.evc n) p 31 0 (sysBits s (RegNo.evc n) p 31 0 + k)) p

/-- Steps 1 to 3 of R344; none while the record waits at a translator. -/
def retireSteps (s : State) (id : Nat) (l : Launch) : Option State :=
  let st := launchStatus s id l
  let rec_ := completionRecord s l st
  let (pub, s) := launchRelease s id
  let n0 := s.hist.next
  let wrote : Answer Unit × State :=
    if l.pkt.cplAddr = 0 then (.ok (), s) else writeRange s l.ctx l.priv (.agent [pub]) l.pkt.cplAddr.toNat rec_
  match wrote with
  | (.wait, _) => none
  | (_, s) =>
      -- whoever step 3 makes ready reads the record
      let (_, s) := publish s .device .sys (List.range' n0 (s.hist.next - n0)) false
      let s := if l.pkt.cen then evcBump s l.part l.pkt.cevc 1 else s
      some (sweep (s.onLaunch id fun x => { x with retire := .notice, ended := some st }))

/-- What a retired launch leaves goes. -/
def forget (s : State) (id : Nat) : State :=
  let bs := (s.blocks.filter fun _ b => b.launch == id).keys
  let ts := threadsOf s id
  -- a block whose posted pass has yet to run stays until it has (R260)
  let kept := s.clusters.values.flatMap fun k => k.table.values.map RtEntry.block
  { s with
    threads := s.threads.filter fun t _ => !ts.contains t
    groups := s.groups.filter fun _ g => !bs.contains g.block
    blocks := (s.blocks.filter fun b _ => !bs.contains b || kept.contains b).mapKV fun b x =>
      if bs.contains b then { x with threads := [], groups := [] } else x
    launches := s.launches.erase id
    parts := s.parts.mapKV fun _ p => { p with reserve := match p.reserve with
      | some (i, k) => if i = id then none else some (i, k)
      | none => none } }

/-- Step 4 of R344, and the end. -/
def retireNotice (s : State) (id : Nat) : State :=
  let l := s.launch id
  if l.pkt.cplInt then
    if noticeRoom s l then forget (notify s l false (LaunchStatus.code (l.ended.getD .done))) id else s
  else forget s id

/-! ### Cancellation (R354) -/

/-- R354: the launch named ends as a context does. -/
def cancel (s : State) (p q seq : Nat) : State :=
  match (launchesOf s p).find? fun e => e.2.queue == q && e.2.seq % 2 ^ 48 == seq && e.2.retire == .live with
  | none => s
  | some (id, _) =>
      let ts := threadsOf s id
      let s := s.onLaunch id fun l => { l with ended := some (l.ended.getD .cancelled) }
      endLaunches s ts (fun l => l.part == p && l.queue == q && l.seq % 2 ^ 48 == seq) .cancelled

/-! ### Bubble slots (R357, R358) -/

/-- R358: the slot ends: no more of its blocks are placed, and those that stay are due to be saved. -/
def closeBubble (s : State) (p at_ : Nat) : State :=
  match (s.part p).bubble with
  | none => s
  | some b =>
      let s := s.onPart p fun x => { x with bubble := none }
      { s with blocks := s.blocks.mapKV fun _ x =>
          let l := s.launch x.launch
          if l.part == p && l.pkt.cls != 0 && !l.priv && x.save == .resident && x.due.isNone then
            { x with due := some (at_ + 1000 * b.allowance) } else x }

/-- R357: a slot of n ns opens on the clusters of DISP_BSMASK that the partition owns; its words are a release at
.dev. -/
def openBubble (s : State) (p n : Nat) : State :=
  let s := closeBubble s p s.ns
  let cs := sysGet s RegNo.bsMask p &&& sysGet s RegNo.pcl p
  let seq := (s.part p).bubbleSeq
  let ends := s.ns + n
  let (pub, s) := publish s .device .dev s.hist.dev false
  let base := sysBits s RegNo.bsWord p 56 4 * 16
  let word := bytesOfNat 8 ends ++ bytesOfNat 4 seq ++ bytesOfNat 4 0
  let s := (bitList 64 cs.toNat).foldl (fun s c => agentPut s p [pub] (base + 16 * c) word) s
  let s := s.onPart p fun x =>
    { x with bubbleSeq := (seq + 1) % 2 ^ 32, bubble := some ⟨ends, sysBits s RegNo.bsOpen p 47 40, seq, cs⟩ }
  sweep s

/-! ### Events -/

/-- R339: LAUNCH_ADMIT: the packet at the head of the queue whose turn it is. -/
def execLaunchAdmit (part queue : Nat) (s : State) : Host.Outcome State Fault Refusal :=
  .next <| if nextQueue s part = some queue then admitNext s part queue else s

/-- R346: BLOCK_DISPATCH: the room of a cluster goes to the first launch in EDF order whose next block fits there. -/
def execBlockDispatch (part cluster : Nat) (s : State) : Host.Outcome State Fault Refusal :=
  .next <| match choiceOf s part with
    | .place id n c cs => if c = cluster ∧ n.saved.isNone then placeNext s part id n c cs else s
    | _ => s

/-- R51: BLOCK_RELAUNCH: a saved block queued for relaunch takes its turn. -/
def execBlockRelaunch (blk : Nat) (s : State) : Host.Outcome State Fault Refusal :=
  .next <|
    let p := (s.launch (s.block blk).launch).part
    match choiceOf s p with
    | .place id n c cs => if n.saved = some blk then placeNext s p id n c cs else s
    | _ => s

/-- R351: LOCATE_CACHE_FILL. -/
def execLocateCacheFill (part launch : Nat) (s : State) : Host.Outcome State Fault Refusal :=
  .next <| match choiceOf s part with
    | .fill id k ch d =>
        if id = launch then s.onDie (locateDie s part) fun x => { x with locate := x.locate.set k (ch, d) } else s
    | _ => s

/-- R348: CLUSTER_RESERVE: the launch first in EDF order has waited 64 µs while others were placed: one cluster is
kept for it, the one R352 searches first, among equals the one with the fewest groups. -/
def execClusterReserve (part cluster : Nat) (s : State) : Host.Outcome State Fault Refusal :=
  .next <| match candidates s part, (s.part part).reserve with
    | (id, l) :: _, none =>
        match l.unplaced with
        | none => s
        | some t =>
            let n := nextOf s id l
            let a := affinityOf s l n.lin
            let cs := clustersFor s l n.stage
            let groups := fun c => ((List.range 4).map fun i => (coreGroups s (4 * c + i)).length).sum
            let before := fun x y => match a with
              | .at ch d => decide (ringOf ch d x < ringOf ch d y)
                  || (ringOf ch d x == ringOf ch d y && (decide (groups x < groups y) || (groups x == groups y && decide (x ≤ y))))
              | _ => clusterBefore s l a x y
            if decide (80000 ≤ s.clk - t) && cs.contains cluster && cs.all (before cluster) then
              s.onPart part fun x => { x with reserve := some (id, cluster) }
            else s
    | _, _ => s

/-- R344: LAUNCH_RETIRE: the steps, in order; a full FIFO holds the last. -/
def execLaunchRetire (launch : Nat) (s : State) : Host.Outcome State Fault Refusal :=
  .next <| match s.launches.find? launch with
    | none => s
    | some l => match l.retire with
        | .live => if launchQuiet s launch l then
              match retireSteps s launch l with
              | some s => retireNotice s launch
              | none => s
            else s
        | _ => retireNotice s launch

/-- R50, R51: BLOCK_SAVE: a waiting block past the threshold of DISP_WAIT_SAVE. -/
def execBlockSave (blk : Nat) (s : State) : Host.Outcome State Fault Refusal :=
  .next <|
    let b := s.block blk
    let l := s.launch b.launch
    let us := sysBits s RegNo.waitSave l.part 9 0
    if b.save == .resident && isWaiting s b && saveable s blk && decide (b.lastIssue + 1250 * us < s.clk)
        && !(s.die (blockCluster s blk / 32)).halted.has l.ctx then saveBlock s blk false
    else s

/-- R358: BUBBLE_SLOT_END: the time of an open slot has come. -/
def execBubbleSlotEnd (part : Nat) (s : State) : Host.Outcome State Fault Refusal :=
  .next <| match (s.part part).bubble with
    | some b => if b.ends ≤ s.ns then closeBubble s part b.ends else s
    | none => s

/-- R358: BUBBLE_OVERRUN_SAVE: blocks still resident past the allowance are saved, and queued for a slot to come. -/
def execBubbleOverrunSave (part : Nat) (s : State) : Host.Outcome State Fault Refusal :=
  .next <|
    let due := s.blocks.items.filter fun e =>
      (s.launch e.2.launch).part == part && e.2.save == .resident && match e.2.due with
        | some t => decide (t ≤ s.ns)
        | none => false
    due.foldl (fun s e => if !(s.blockLive e.1).isEmpty && saveable s e.1 then saveBlock s e.1 true else s) s

end Sys2Proof.Machine
end

