-- ==== Sys2Proof/Machine/Loft.lean ====
section
/-! DEFINITION. Loft loads (R375) and refresh windows (R376). -/

namespace Sys2Proof.Machine

/-- Bytes of a loft cluster region (R21). -/
def loftRegion : Nat := 0x300_0000

/-- LOFT_LDCTL.ST. -/
def loftStatus (s : State) (d n : Nat) : State := sysPutBits s RegNo.loftCtl d 31 30 n

/-- R375: may a load of `pages` pages at `off` start for a partition? -/
def loadAllowed (s : State) (p d off pages : Nat) : Bool :=
  let n := pages * 4096
  sysBits s RegNo.loftCtl d 31 30 != 1 && (s.die d).load.isNone && pages != 0 && off % 4096 == 0
    && decide (off + n ≤ loftBytes) && !s.isUnderstudy
    && (List.range 32).all fun c =>
        !decide (c * loftRegion < off + n ∧ off < (c + 1) * loftRegion) || s.clusterPart (32 * d + c) == some p

/-- R375: a write of LOFT_LDCTL for a partition. -/
def loftCommand (s : State) (p d : Nat) (x : Dword) : State :=
  let old := sysGet s RegNo.loftCtl d
  let new := (regInfo RegNo.loftCtl).map (fun i => regStored RegNo.loftCtl i old x) |>.getD old
  let s := sysPut s RegNo.loftCtl d new
  if !x.getLsbD 28 then s
  else
    let pages := bits new.toNat 18 0
    let dst := (sysGet s RegNo.loftDst d).toNat
    let off := bits dst 30 0
    let l : LoftLoad :=
      { part := p, src := sysBits s RegNo.loftSrc d 56 0, off := off, pages := pages, owner := BitVec.ofNat 8 (bits dst 39 32)
        cen := bits new.toNat 29 29 == 1, evc := bits new.toNat 41 32, st := .waiting }
    if loadAllowed s p d off pages then (loftStatus s d 1).onDie d fun y => { y with load := some l }
    else loftStatus s d 3

/-- R375, step 2: a launch of the partition that has a block dispatched on the die, saved ones among them. -/
def launchOn (s : State) (p d : Nat) : Bool :=
  s.launches.values.any fun l => l.part == p && l.blocks.any fun b => blockCluster s b / 32 == d

/-- R380: a partition's read met poison: the detection, at the first poisoned line of the range. -/
def agentPoison (s : State) (p va n : Nat) : State :=
  let found := (spans va n).findSome? fun x => match viaWindows s ((s.runtime p).getD 0) true x.2.1 ⟨true, false, false⟩ with
    | .error _ => none
    | .ok l => match place s l false false with
        | (.ok pl, _) => match pl, pl.poison s with
            | .phys d pa _, some o => some (d, pa, o)
            | _, _ => none
        | _ => none
  match found with
  | some (d, pa, o) => detectUe s .hbm d pa o
  | none => s

/-- Bytes of a load written in the loft; the regions they lie in take its owner (R379), and poisoned lines written whole are
poisoned no more (R380). -/
def loadPut (s : State) (d : Nat) (l : LoftLoad) (off : Nat) (b : List Byte) : State :=
  (loftWrite s d off b).onDie d fun x =>
    { x with
      loftOwner := x.loftOwner.set (off / loftRegion) l.owner
      poisonLoft := x.poisonLoft.filter fun n => !decide (off ≤ 128 * n ∧ 128 * n < off + b.length) }

/-- How far the copy of a load has come: going on, faulted, or waiting at a translator. -/
inductive LoadRun
  | go | faulted | wait
deriving DecidableEq, Repr

/-- R375, step 3: one page copied. -/
def loadPage (d : Nat) (l : LoftLoad) (r : LoadRun × State) (i : Nat) : LoadRun × State :=
  match r with
  | (.go, s) =>
      match agentRead s l.part (l.src + 4096 * i) 4096 with
      | (.ok b, s) => (.go, loadPut s d l (l.off + 4096 * i) b)
      | (.fault .memerr _, s) => (.faulted, agentPoison s l.part (l.src + 4096 * i) 4096)
      | (.fault _ _, s) => (.faulted, s)
      | (.wait, s) => (.wait, s)
  | x => x

/-- R375: a copy that a fault of its source ended: each line of its range holds its old contents or its new ones, as the
part picks. -/
def loadCut (s : State) (d : Nat) (l : LoftLoad) : State :=
  (List.range (32 * l.pages)).foldl (fun s i =>
    let (new, s) := s.coin
    if !new then s
    else match agentRead s l.part (l.src + 128 * i) 128 with
      | (.ok b, s) => loadPut s d l (l.off + 128 * i) b
      | _ => s) s

/-- LOFT_LOAD_COPY (R375). -/
def execLoftLoadCopy (die : Nat) (s : State) : Host.Outcome State Fault Refusal :=
  .next <| match (s.die die).load with
    | none => s
    | some l =>
        if l.st != .waiting || launchOn s l.part die then s
        else
          let mark := fun (s : State) (ok : Bool) => s.onDie die fun x => { x with load := some { l with st := .copied ok } }
          let start := s
          match (List.range l.pages).foldl (loadPage die l) (.go, s) with
          | (.go, s) => mark s true
          -- what the source's fault did stands (R370, R380); the lines written are chosen afresh
          | (.faulted, s) => mark (loftStatus (loadCut { s with loft := start.loft } die l) die 3) false
          | (.wait, _) => s

/-- LOFT_LOAD_DONE (R375): steps 4 and 5. -/
def execLoftLoadDone (die : Nat) (s : State) : Host.Outcome State Fault Refusal :=
  .next <| match (s.die die).load with
    | some l => match l.st with
        | .waiting => s
        | .copied ok =>
            let (_, s) := publish s .device .dev [] false
            let s := if ok then loftStatus s die 2 else s
            let s := if l.cen then evcBump s l.part l.evc 1 else s
            s.onDie die fun x => { x with load := none }
    | none => s

/-- LOFT_REFRESH_WINDOW (R376): a window begins or ends. Where it stands is a function of device ns (%loftwin), and
what stalls meanwhile stalls without another effect, so no state changes. -/
def execLoftRefreshWindow (_die _group : Nat) (s : State) : Host.Outcome State Fault Refusal := .next s

end Sys2Proof.Machine
end

