-- ==== Sys2Proof/Machine/BootCmd.lean ====
section
/-! DEFINITION. The boot and security core's commands (R396..R401): command blocks, objects and their checks, LOAD,
ATTEST, CERT, EVICT, SVNADV. -/

namespace Sys2Proof.Machine

/-! ### Command blocks (R396) -/

/-- STATUS codes. -/
inductive BootStatus
  | ok | badcmd | badobj | badsig | rollback | version | nospace | fault | xlate | priv
deriving DecidableEq, Repr

def BootStatus.code : BootStatus → Nat
  | .ok => 0 | .badcmd => 1 | .badobj => 2 | .badsig => 3 | .rollback => 4 | .version => 5 | .nospace => 6 | .fault => 7
  | .xlate => 8 | .priv => 9

/-- A command block. -/
structure Cmd where
  addr : Nat
  who : Requester
  bytes : List Byte
deriving DecidableEq, Repr

def Cmd.field (c : Cmd) (off n : Nat) : Nat := natOfBytes ((c.bytes.drop off).take n)
def Cmd.cmd (c : Cmd) : Nat := c.field 0 4
def Cmd.src (c : Cmd) : Nat := c.field 8 8
def Cmd.srcLen (c : Cmd) : Nat := c.field 16 8
def Cmd.dst (c : Cmd) : Nat := c.field 24 8
def Cmd.dstCap (c : Cmd) : Nat := c.field 32 8
def Cmd.arg (c : Cmd) : Nat := c.field 48 4
def Cmd.done (c : Cmd) : Nat := c.field 56 8

/-- A block that keeps R396's table. -/
def Cmd.clean (c : Cmd) : Bool :=
  c.bytes.length == 256 && decide (1 ≤ c.cmd ∧ c.cmd ≤ 5) && c.field 52 4 == 0 && (c.bytes.drop 64).all (· == 0)
    && (if c.cmd = 5 then decide (c.arg < 2 ^ 11) else c.arg == 0)

/-- R396: a write of BOOT_CMD. -/
def bootQueue (s : State) (p : Nat) (who : Requester) (x : Dword) : State :=
  let q := (s.part p).boot
  if 16 ≤ q.length then sysPutBits s RegNo.bootCmd p 1 0 1
  else (sysPutBits s RegNo.bootCmd p 1 0 0).onPart p fun y => { y with boot := q ++ [(bits x.toNat 56 8 * 256, who)] }

/-- The head of a partition's queue, read; where it cannot be read, a block that names no command. -/
def headCmd (s : State) (p : Nat) : Option (Option Cmd × State) :=
  match (s.part p).boot with
  | [] => none
  | (a, who) :: _ => match agentRead s p a 256 with
      | (.ok b, s) => some (some ⟨a, who, b⟩, s)
      | (.fault _ _, s) => some (some ⟨a, who, []⟩, s)
      | (.wait, s) => some (none, s)

/-- What a command comes to: waiting at a translator, or complete with a status, the bytes written and the state. -/
inductive CmdEnd
  | wait
  | done (st : BootStatus) (len : Nat) (s : State)

/-- Bytes written at DST: how many before a fault, and whether one was met. -/
def putOut (s : State) (p va : Nat) (b : List Byte) : Nat × Option Bool × State :=
  (spans va b.length).foldl (fun (n, f, s) x =>
    match f with
    | some _ => (n, f, s)
    | none => match agentWrite s p [] x.2.1 ((b.drop x.1).take x.2.2) with
        | (.ok _, s) => (n + x.2.2, none, s)
        | (.fault _ _, s) => (n, some true, s)
        | (.wait, s) => (n, some false, s)) (0, none, s)

/-- R396: an output at DST. -/
def output (s : State) (p : Nat) (c : Cmd) (b : List Byte) : CmdEnd :=
  if c.dstCap < b.length then .done .nospace 0 s
  else match putOut s p c.dst b with
    | (n, none, s) => .done .ok n s
    | (n, some true, s) => .done .fault n s
    | (_, some false, _) => .wait

/-- R396: completion: STATUS and OUTLEN, the release at .sys, DONE, vector 3. -/
def complete (s : State) (p : Nat) (c : Cmd) (n0 sent : Nat) (st : BootStatus) (len : Nat) : State :=
  let (pub, s) := publish s .device .sys (List.range' n0 (s.hist.next - n0)) false
  let s := agentPut s p [pub] (c.addr + 40) (bytesOfNat 8 len)
  let s := agentPut s p [pub] (c.addr + 4) (bytesOfNat 4 (BootStatus.code st))
  let ids := List.range' n0 (s.hist.next - n0)
  -- the release: behind what has left for the host (R389)
  let (_, s) := publish (if s.pkg.sent.length = sent then s else s.send .hostFlush) .device .sys ids false
  let s := if c.bytes.length != 256 || c.done == 0 then s else pushEntry s p c.done c.addr ids
  sweep (raiseMsix (s.onPart p fun x => { x with boot := x.boot.drop 1 }) p 3)

/-- The command at the head of a partition's queue, where it is the one named, carried out and completed. -/
def runHead (s : State) (p : Nat) (want : Nat → Bool) (run : State → Cmd → CmdEnd) : State :=
  match if s.running then headCmd s p else none with
  | some (some c, s1) =>
      if !want c.cmd then s
      else
        let n0 := s1.hist.next
        let sent := s1.pkg.sent.length
        if !c.clean then complete s1 p c n0 sent .badcmd 0
        else match run s1 c with
          | .wait => s
          | .done st len s2 => complete s2 p c n0 sent st len
  | _ => s

/-! ### Objects (R397) -/

/-- Little-endian fields of an object. -/
def objField (b : List Byte) (off n : Nat) : Nat := natOfBytes ((b.drop off).take n)

structure Obj where
  bytes : List Byte
deriving DecidableEq, Repr

namespace Obj
def kind (o : Obj) : Nat := objField o.bytes 4 1
def cls (o : Obj) : Nat := objField o.bytes 5 1
def ver (o : Obj) : Nat := objField o.bytes 6 2
def svn (o : Obj) : Nat := objField o.bytes 8 4
def key (o : Obj) : Nat := objField o.bytes 12 1
def len (o : Obj) : Nat := objField o.bytes 16 8
def nsec (o : Obj) : Nat := objField o.bytes 24 4
def nker (o : Obj) : Nat := objField o.bytes 28 4
def secOff (o : Obj) : Nat := objField o.bytes 32 8
def kerOff (o : Obj) : Nat := objField o.bytes 40 8
def modulus (o : Obj) : List Byte := (o.bytes.drop (o.len - 1024)).take 512
def signature (o : Obj) : List Byte := o.bytes.drop (o.len - 512)
def signed (o : Obj) : List Byte := o.bytes.take (o.len - 512)
/-- R400: the class of a kind. -/
def kindClass (k : Nat) : Nat :=
  match k with
  | 1 => 4 | 2 => 5 | 3 => 2 | 4 => 1 | _ => 3
/-- Section `i`: type, alignment's log2, offset, size, load offset. -/
def section_ (o : Obj) (i : Nat) : Nat × Nat × Nat × Nat × Nat :=
  let a := o.secOff + 32 * i
  (objField o.bytes a 1, objField o.bytes (a + 4) 4, objField o.bytes (a + 8) 8, objField o.bytes (a + 16) 8, objField o.bytes (a + 24) 8)
def kernels (o : Obj) : List Byte := (o.bytes.drop o.kerOff).take (512 * o.nker)

def sectionOk (o : Obj) (i : Nat) : Bool :=
  let (ty, al, off, n, _) := o.section_ i
  decide (1 ≤ ty ∧ ty ≤ 5 ∧ 3 ≤ al ∧ al ≤ 12 ∧ off + n ≤ o.len)

/-- A name padded with zero bytes, and 16 bytes of 0. -/
def kernelOk (o : Obj) (i : Nat) : Bool :=
  let e := (o.bytes.drop (o.kerOff + 512 * i)).take 64
  ((e.take 48).dropWhile (· != 0)).all (· == 0) && (e.drop 48).all (· == 0)

/-- Check 1 of R398. -/
def layoutOk (o : Obj) : Bool :=
  let n := o.bytes.length
  n % 8 == 0 && decide (1152 ≤ n) && o.len == n && objField o.bytes 0 4 == 0x4B564C4E && decide (1 ≤ o.kind ∧ o.kind ≤ 5)
    && (o.cls == kindClass o.kind || (decide (o.kind ≤ 2) && (o.cls == 6 || o.cls == 7)))
    && (decide (o.kind ≤ 2) || o.ver == 0) && (decide (o.key < 4) || o.key == 0xFE || o.key == 0xFF)
    && ((o.bytes.drop 13).take 3).all (· == 0) && ((o.bytes.drop 48).take 80).all (· == 0)
    && decide (o.secOff + 32 * o.nsec ≤ n ∧ o.kerOff + 512 * o.nker ≤ n)
    && (List.range o.nsec).all o.sectionOk && (List.range o.nker).all o.kernelOk

/-- The image: each section at its load offset, the bytes between them 0; none where it is longer than `cap`. -/
def image (o : Obj) (cap : Nat) : Option (List Byte) :=
  let ss := (List.range o.nsec).map o.section_
  let n := ss.foldl (fun m x => max m (x.2.2.2.2 + x.2.2.2.1)) 0
  if cap < n then none
  else some (ss.foldl (fun out x =>
    let (_, _, off, k, at_) := x
    out.take at_ ++ (o.bytes.drop off).take k ++ out.drop (at_ + k)) (List.replicate n 0))
end Obj

/-! ### LOAD (R398, R399) -/

def deviceKey : List Byte := fixedLen 512 (Config.sealed 6 [])
def vendorKey : List Byte := fixedLen 512 (Config.sealed 7 [])

/-- Check 2 of R398. -/
def keyOk (s : State) (o : Obj) : Bool :=
  if o.key = 0xFF then o.modulus == vendorKey
  else if o.key = 0xFE then o.modulus == deviceKey
  else match s.pkg.ownerKeys.find? o.key with
    | some d => sha512 o.modulus == d
    | none => false

def svnOf (s : State) (c : Nat) : Nat := sysBits s (RegNo.bootSvn c) 0 5 0

/-- R398: the translation: a KIND 1 object of VER 3.1 signed with the device's key. -/
def translation (o : Obj) : Option (List Byte) :=
  (Config.ktirSections o.bytes).map fun ss =>
    let cls := if o.cls = 5 then 4 else o.cls
    let kerOff := 128
    let secOff := kerOff + 512 * o.nker
    let dataOff := secOff + 32 * ss.length
    let (tab, data) := ss.foldl (fun (tab, data) x =>
      (tab ++ bytesOfNat 4 x.1 ++ bytesOfNat 4 x.2.1 ++ bytesOfNat 8 (dataOff + data.length) ++ bytesOfNat 8 x.2.2.2.length
          ++ bytesOfNat 8 x.2.2.1, data ++ x.2.2.2)) (([], []) : List Byte × List Byte)
    let data := data ++ List.replicate ((8 - data.length % 8) % 8) 0
    let n := dataOff + data.length + 1024
    let head := bytesOfNat 4 0x4B564C4E ++ bytesOfNat 1 1 ++ bytesOfNat 1 cls ++ bytesOfNat 2 0x0301 ++ bytesOfNat 4 o.svn
      ++ bytesOfNat 1 0xFE ++ List.replicate 3 0 ++ bytesOfNat 8 n ++ bytesOfNat 4 ss.length ++ bytesOfNat 4 o.nker
      ++ bytesOfNat 8 secOff ++ bytesOfNat 8 kerOff ++ List.replicate 80 0
    let body := head ++ o.kernels ++ tab ++ data ++ deviceKey
    body ++ fixedLen 512 (Config.sealed 1 body)

/-- R401: a measurement: 0 boot firmware, 1 security firmware, 2 stage-manager firmware, 3 the last runtime image. -/
def measure (s : State) (n : Nat) : List Byte := fixedLen 64 ((s.pkg.measures.find? n).getD (Config.sealed 2 [BitVec.ofNat 8 n]))
def setMeasure (s : State) (n : Nat) (b : List Byte) : State :=
  s.onPkg fun x => { x with measures := x.measures.set n (sha512 b) }

/-- R399: a partition's share of the region, in bytes. -/
def xcacheShare (s : State) : Nat := sysBits s RegNo.bootXcache 0 63 48 * 2 ^ 20 / 8

/-- R399: room for `n` bytes is made by evicting the least recently used. -/
def xcacheRoom (share n : Nat) : Nat → List Xlation → List Xlation
  | 0, l => l
  | fuel + 1, l =>
      if (l.map fun x => x.bytes.length).sum + n ≤ share then l
      else match l.mergeSort fun x y => decide (x.used ≤ y.used) with
        | [] => []
        | o :: _ => xcacheRoom share n fuel (l.filter (· != o))

/-- R399: an entry written in its partition's share of the region. The spec gives neither its place there nor its form
(DESIGN CHOICE, log entry 42): it is written from the share's first byte, as free bytes. -/
def xcacheWrite (s : State) (pa n : Nat) : State :=
  let (b, s) := s.freeBytes n
  (spans pa n).foldl (fun s x => physWrite s 0 x.2.1 none ((b.drop x.1).take x.2.2)) s

/-- R398, R399: a module whose checks 1 to 4 and whose version hold. -/
def loadModule (s : State) (p : Nat) (c : Cmd) (o : Obj) : CmdEnd :=
  let key := sha512 o.bytes ++ measure s 1
  let (n, s) := s.tick
  let share := xcacheShare s
  match (if share = 0 then [] else (s.part p).xcache).find? fun x => x.key == key && x.cls == o.cls && decide (svnOf s x.cls ≤ x.svn) with
  | some x =>
      output (s.onPart p fun y => { y with xcache := y.xcache.map fun z => if z.key == key then { z with used := n } else z }) p c x.bytes
  | none =>
      let s := s.onPart p fun y => { y with xcache := y.xcache.filter fun z => z.key != key }
      match translation o with
      | none => .done .xlate 0 s
      | some b =>
          let s := if share < b.length then s
            else xcacheWrite (s.onPart p fun y => { y with xcache := ⟨key, o.cls, o.svn, b, n⟩ :: xcacheRoom share b.length (y.xcache.length + 1) y.xcache })
              (sysBits s RegNo.bootXcache 0 37 20 * 2 ^ 20 + p * share) b.length
          output s p c b

/-- LOAD of an object (R398). -/
def loadObject (s : State) (p : Nat) (c : Cmd) (o : Obj) : CmdEnd :=
  let img := fun (s : State) => match o.image c.dstCap with
    | none => CmdEnd.done .nospace 0 s
    | some b => output s p c b
  if !o.layoutOk then .done .badobj 0 s
  else if !keyOk s o || !pssVerify o.modulus o.signature o.signed then .done .badsig 0 s
  else if o.svn < svnOf s o.cls then
    let key := sha512 o.bytes ++ measure s 1
    .done .rollback 0 (s.onPart p fun y => { y with xcache := y.xcache.filter fun z => z.key != key })
  else match o.kind with
    | 1 => if o.ver = 0x0300 ∨ o.ver = 0x0301 then img s else .done .version 0 s
    | 2 => if 0x0100 ≤ o.ver ∧ o.ver ≤ 0x0104 then loadModule s p c o else .done .version 0 s
    | 5 => match img s with
        | .done .ok n s => .done .ok n (setMeasure s 3 ((o.image c.dstCap).getD []))
        | e => e
    | k => if c.who ≠ .pf then .done .badcmd 0 s
        else match output s p c o.bytes with
          | .done .ok n s => .done .ok n (s.onPkg fun x => { x with flash := x.flash.set k o.bytes })
          | e => e

/-- SRC read, unless it faults. -/
def withSource (s : State) (p : Nat) (c : Cmd) (n : Nat) (f : State → List Byte → CmdEnd) : CmdEnd :=
  match agentRead s p c.src n with
  | (.ok b, s) => f s b
  | (.fault .memerr _, s) => .done .fault 0 (agentPoison s p c.src n)
  | (.fault _ _, s) => .done .fault 0 s
  | (.wait, _) => .wait

/-- BOOT_LOAD (R398, R399). -/
def execBootLoad (part : Nat) (s : State) : Host.Outcome State Fault Refusal :=
  .next <| runHead s part (· == 1) fun s c => withSource s part c c.srcLen fun s b => loadObject s part c ⟨b⟩

/-! ### ATTEST, CERT, EVICT, SVNADV (R399..R401) -/

/-- R401: what the report says of the partition's configuration. -/
def configBytes (s : State) (p : Nat) : List Byte :=
  let w := fun (x : Dword) => bytesOfNat 8 x.toNat
  w (sysGet s RegNo.pcl p) ++ w (sysGet s RegNo.pir p) ++ w (sysGet s (RegNo.pfr 0) p) ++ w (sysGet s (RegNo.pfr 1) p)
    ++ ([0, 1].flatMap fun d => (List.range 256).flatMap fun b => w (sysGet s (RegNo.flsOwn b) d))

/-- R401: the 1,024-byte report. -/
def report (s : State) (p : Nat) (nonce : List Byte) : List Byte :=
  let body := bytesOfNat 4 0x41564C4E ++ bytesOfNat 4 1 ++ bytesOfNat 8 s.ns ++ nonce
    ++ ((List.range 4).flatMap (measure s)) ++ ((List.range 8).flatMap fun c => bytesOfNat 1 (svnOf s c))
    ++ sha512 (configBytes s p) ++ List.replicate 104 0
  body ++ fixedLen 512 (Config.sealed 4 body)

/-- BOOT_ATTEST (R401). -/
def execBootAttest (part : Nat) (s : State) : Host.Outcome State Fault Refusal :=
  .next <| runHead s part (· == 2) fun s c => withSource s part c 64 fun s b => output s part c (report s part b)

/-- BOOT_CERT (R401). -/
def execBootCert (part : Nat) (s : State) : Host.Outcome State Fault Refusal :=
  .next <| runHead s part (· == 3) fun s c => output s part c (Config.sealed 3 [])

/-- BOOT_EVICT (R399). -/
def execBootEvict (part : Nat) (s : State) : Host.Outcome State Fault Refusal :=
  .next <| runHead s part (· == 4) fun s _ => .done .ok 0 (s.onPart part fun x => { x with xcache := [] })

/-- R400: a counter raised, never lowered; older translations of its class go. -/
def raiseSvn (s : State) (cls target : Nat) : State :=
  if target ≤ svnOf s cls then s
  else
    let s := sysPutBits s (RegNo.bootSvn cls) 0 5 0 target
    { s with parts := s.parts.mapKV fun _ x => { x with xcache := x.xcache.filter fun z => !(z.cls == cls && decide (z.svn < target)) } }

/-- BOOT_SVNADV (R400). -/
def execBootSvnadv (part : Nat) (s : State) : Host.Outcome State Fault Refusal :=
  .next <| runHead s part (· == 5) fun s c =>
    match c.who with
    | .vf _ => .done .priv 0 s
    | _ => if 63 < bits c.arg 7 0 then .done .badcmd 0 s else .done .ok 0 (raiseSvn s (bits c.arg 10 8) (bits c.arg 7 0))

/-- BOOT_BADCMD (R396): a block whose CMD names no command. -/
def execBootBadcmd (part : Nat) (s : State) : Host.Outcome State Fault Refusal :=
  .next <| runHead s part (fun n => !decide (1 ≤ n ∧ n ≤ 5)) fun s _ => .done .badcmd 0 s

end Sys2Proof.Machine
end

