-- ==== Sys2Proof/Machine/Boot.lean ====
section
/-! DEFINITION. Starting the part (R404, R405, R407, R408): start attempts, their ends, loss of power. -/

namespace Sys2Proof.Machine

/-- What a reset leaves: the machine as after power-on, but for what lies outside the part's volatile state: flash,
fuses and keys, host memory; and the model's own plans and counter. -/
def afterReset (s : State) : State :=
  { State.reset with
    ctr := s.ctr
    agenda := s.agenda
    host := s.host
    sys := s.sys.filter fun k _ => decide (RegNo.bootSvn 0 ≤ k / 256 ∧ k / 256 ≤ RegNo.bootSvn 7)
    pkg := { Package.atReset with
      fails := s.pkg.fails, reason := s.pkg.reason, forced := s.pkg.forced, flash := s.pkg.flash, ownerKeys := s.pkg.ownerKeys } }

/-- BOOT_STATUS. -/
def setBootStatus (s : State) (reason step fails mode : Nat) : State :=
  sysPut s RegNo.bootStatus 0 (BitVec.ofNat 64 (reason * 2 ^ 24 + step * 2 ^ 16 + fails * 2 ^ 8 + mode))

/-- R404: the reason codes of steps 1 to 7, and of a power or thermal fault. -/
def startReason (r : Byte) : Bool :=
  let n := r.toNat
  decide ((1 ≤ n ∧ n ≤ 4) ∨ (0x10 ≤ n ∧ n ≤ 0x17) ∨ n = 0x20 ∨ n = 0x30 ∨ n = 0x31 ∨ n = 0x40 ∨ n = 0x70)

/-- An attempt ends with a reason: PCIe stays down until the next start. -/
def startFailed (s : State) (r : Byte) : State :=
  let s := setBootStatus s r.toNat 0xFF (sysBits s RegNo.bootStatus 0 11 8) 0
  s.onPkg fun x => { x with start := .failed, pcie := false, reason := r }

/-- R407: an understudy start. -/
def understudyStart (s : State) (pcieFails : Bool) : State :=
  let r := if s.pkg.forced then 0xF0 else s.pkg.reason.toNat
  if pcieFails then (setBootStatus s r 0xFF 3 3).onPkg fun x => { x with start := .failed }
  else
    let s := sysPut (setBootStatus s r 0xFF 3 2) RegNo.pcl 0 0x0000_0001_0000_0001
    s.onPkg fun x => { x with start := .understudy, pcie := true }

/-- R404, R405: a normal attempt comes to its step 1; where it is to fail with a reason, it does so in a later turn. -/
def normalStart (s : State) (fail : Option Byte) : State :=
  let n := s.pkg.fails
  let s := s.onPkg fun x => { x with fails := min 3 (n + 1), forced := false }
  (setBootStatus s s.pkg.reason.toNat 1 n 0).onPkg fun x => { x with start := .starting s.clk 1 fail, pcie := false }

/-- R404: the step that a reason belongs to; a power or thermal fault may come in any, here in the first. -/
def reasonStep (r : Byte) : Nat :=
  let n := r.toNat
  if n = 3 then 2
  else if 0x10 ≤ n ∧ n ≤ 0x17 then 3
  else if n = 0x20 then 4
  else if n = 0x30 ∨ n = 0x31 then 5
  else if n = 0x40 then 6
  else if n = 4 then 7
  else 1

/-- R401, R404: a firmware of the flash that a step verifies is measured. -/
def measureFlash (s : State) (n kind : Nat) : State :=
  match s.pkg.flash.find? kind with
  | some b => setMeasure s n b
  | none => s

/-- R404: what a step that succeeds leaves: measurements, the origin of the refresh schedule (a free value, no later than
now), PCIe trained. -/
def finishStep (s : State) (k : Nat) : State :=
  match k with
  | 2 => measureFlash s 1 4
  | 5 => [0, 1].foldl (fun s d =>
      let (b, s) := s.freeBytes 8
      sysPut s RegNo.loftRef d (BitVec.ofNat 64 (natOfBytes b % (s.ns + 1)))) s
  | 6 => s.onPkg fun x => { x with pcie := true }
  | 7 => measureFlash s 2 3
  | _ => s

/-- R404: a step of a start before the eighth fails, or is finished. -/
def bootStep (s : State) : State :=
  match s.pkg.start with
  | .starting c k fail =>
      if 8 ≤ k then s
      else match fail.filter fun r => reasonStep r == k with
        | some r => startFailed s r
        | none => (sysPutBits (finishStep s k) RegNo.bootStatus 0 23 16 (k + 1)).onPkg fun x => { x with start := .starting c (k + 1) fail }
  | _ => s

/-- START_ATTEMPT (R404, R405, R407, R411): at power-on, or at a fundamental reset. -/
def execStartAttempt (a : StartArgs) (s : State) : Host.Outcome State Fault Refusal :=
  .next <|
    if a.powerOn != (s.pkg.start == Start.off) || !(a.fail.all startReason) then s
    else
      let tripped := s.pkg.tripped
      let s := afterReset s
      if s.pkg.fails = 3 ∧ !tripped then understudyStart s (a.fail == some 0x40) else normalStart s a.fail

/-- 30 s. -/
def readyLimit : Nat := 37_500_000_000

/-- STAGE_MANAGER_READY (R404, R405): step 8 succeeds: normal mode; the Ultra Ethernet ports train. -/
def execStageManagerReady (s : State) : Host.Outcome State Fault Refusal :=
  .next <| match s.pkg.start with
    | .starting c 8 _ =>
        if readyLimit < s.clk - c then s
        else
          let s := (setBootStatus s 0 0xFF (sysBits s RegNo.bootStatus 0 11 8) 1).onPkg fun x =>
            { x with start := .normal, fails := 0, reason := 0 }
          (List.range 8).foldl (fun s p => sysPutBits s (RegNo.uepCtl p) 0 25 24 1) s
    | _ => s

/-- START_TIMEOUT (R404): no ready report within 30 s. -/
def execStartTimeout (s : State) : Host.Outcome State Fault Refusal :=
  .next <| match s.pkg.start with
    | .starting c 8 _ => if readyLimit ≤ s.clk - c then startFailed s 0x60 else s
    | _ => s

/-- START_POWER_FAULT (R404): a power or thermal fault during a step. -/
def execStartPowerFault (s : State) : Host.Outcome State Fault Refusal :=
  .next <| match s.pkg.start with
    | .starting _ _ _ => startFailed s 0x70
    | _ => s

/-- POWER_LOSS (R405): all but flash, fuses and keys is lost. -/
def execPowerLoss (s : State) : Host.Outcome State Fault Refusal := .next (afterReset s)

end Sys2Proof.Machine
end

