-- ==== Sys2Proof/Machine/Control.lean ====
section
/-! DEFINITION. Control transfer, exit, suspend and signal, launch, trap and brk (R250..R255). -/

namespace Sys2Proof.Machine

/-- R250: the target of bra and call. -/
def relTarget (pc : Dword) (disp : BitVec 20) : Dword := pc + 8 * disp.signExtend 64

def execBra (a : BraArgs) (s : State) : Host.Outcome State Fault Refusal :=
  word (.bra a) s fun is s => s.onThreads is.active fun _ th => { th with pc := relTarget is.pc a.disp }

/-- brx and ret: a target that is not a multiple of 8 raises MISALIGNED. -/
def branchTo (b : Base) (is : Issued) (s : State) : State :=
  eachActive is s fun s t =>
    let x := (envOf s t).base2 b
    if x.toNat % 8 ≠ 0 then is.trap s t .misaligned x.toNat else s.onThread t fun th => { th with pc := x }

def execBrx (a : BrxArgs) (s : State) : Host.Outcome State Fault Refusal := word (.brx a) s (branchTo a.a)
def execRet (a : BrxArgs) (s : State) : Host.Outcome State Fault Refusal := word (.ret a) s (branchTo a.a)

def execCall (a : CallArgs) (s : State) : Host.Outcome State Fault Refusal :=
  word (.call a) s fun is s => s.onThreads is.active fun _ th =>
    let r := is.pc + 8
    { th with pc := relTarget is.pc a.disp
              v := (th.v.set a.d.toNat (r.setWidth 32)).set (a.d.toNat + 1) ((r >>> 32).setWidth 32) }

/-- exit (R251): once the results on their way to the thread are written. -/
def execExit (a : Guard) (s : State) : Host.Outcome State Fault Refusal :=
  word (.exit a) s fun is s => eachActive is s fun s t =>
    if (s.thread t).held == .exited then s else exitThread s t

/-- yield (R252): the thread leaves the PC table until the next build boundary, which it does at every issue. -/
def execYield (a : Guard) (s : State) : Host.Outcome State Fault Refusal :=
  word (.yield a) s fun _ s => s

/-- suspend (R253). -/
def execSuspend (a : Guard) (s : State) : Host.Outcome State Fault Refusal :=
  word (.suspend a) s fun is s => eachActive is s fun s t =>
    let b := s.blockIdOf t
    if (s.block b).signal then acquire (s.onBlock b fun x => { x with signal := false }) t .dev [] false
    else waitAt s t is.pc .suspend

/-- R253: a signal to block (stage, b) of a launch. -/
def signalTo (s : State) (l stage b : Nat) : State :=
  let x := s.launch l
  let blocks := x.pkt.gx * x.pkt.gy * x.pkt.gz
  if x.pkt.stages ≤ stage ∨ blocks ≤ b then s
  else match (s.blocks.items.find? fun e => e.2.launch == l && e.2.lin == b && e.2.stage == stage) with
    | some (id, y) =>
        if (s.blockLive id).isEmpty then s
        else
          let ts := y.threads.filter fun t => (s.thread t).why == .suspend
          if ts.isEmpty then s.onBlock id fun z => { z with signal := true }
          else ts.foldl (fun s t => release8 (acquire s t .dev [] false) t) s
    | none =>
        let i := b * x.pkt.stages + stage
        -- a block already dispatched and gone has retired
        if i < x.nextBlock then s else s.onLaunch l fun z => { z with signals := unionN z.signals [i] }

/-- signal (R253). -/
def execSignal (a : SignalArgs) (s : State) : Host.Outcome State Fault Refusal :=
  word (.signal a) s fun is s => eachActive is s fun s t =>
    let b := ((envOf s t).base1 a.a).toNat
    let (_, s) := releaseMem s t .dev false
    signalTo s (s.launchIdOf t) a.stage.toNat b

/-- launch (R254). -/
def launchAccess (a : LaunchArgs) (_ : State) (e : Env) : Access :=
  { va := (e.base2 a.base).toNat, size := 448, align := 64, read := true, write := false, order := .rel, scope := .dev,
    ops := [], acc := .launch a.q.toNat 0, dst := some ([a.d.toNat], false), flatOk := true, l1 := false }

def execLaunch (a : LaunchArgs) (s : State) : Host.Outcome State Fault Refusal :=
  word (.launch a) s (memBody (launchAccess a))

/-- trap and brk (R255). -/
def execTrap (a : CodeArgs) (s : State) : Host.Outcome State Fault Refusal :=
  word (.trap a) s fun is s => eachActive is s fun s t => is.trap s t .trap 0 a.code.toNat
def execBrk (a : CodeArgs) (s : State) : Host.Outcome State Fault Refusal :=
  word (.brk a) s fun is s => eachActive is s fun s t => is.trap s t .brk 0 a.code.toNat

/-- nop (R255). -/
def execNop (a : Guard) (s : State) : Host.Outcome State Fault Refusal := word (.nop a) s fun _ s => s

end Sys2Proof.Machine
end

