-- ==== Sys2Proof/Machine/Cues.lean ====
section
/-! DEFINITION. cue.pop and cue.push (R237..R239). -/

namespace Sys2Proof.Machine

/-- R237: the queue a handle names, registered for the thread's partition. -/
def cueNamed (s : State) (t h : Nat) : Bool := (s.part (s.partOf t)).cues.has h

/-- The threads whose handle names a queue, those that name none having trapped. -/
def cueThreads (is : Issued) (base : Base) (s : State) : List (Nat × Nat) × State :=
  let hs := is.active.map fun t => (t, ((envOf s t).base2 base).toNat)
  let s := hs.foldl (fun s x => if cueNamed s x.1 x.2 then s else is.trap s x.1 .cueUnbound) s
  (hs.filter fun x => (s.thread x.1).held == .ready && cueNamed s x.1 x.2, s)

/-- cue.pop: entries are taken in ascending lane order; who finds none waits. -/
def execCuePop (a : CueArgs) (s : State) : Host.Outcome State Fault Refusal :=
  word (.cuePop a) s fun is s =>
    let (ok, s) := cueThreads is a.base s
    ok.foldl (fun s x =>
      let p := s.partOf x.1
      match cueTake s p x.2 x.1 a.d.toNat with
      | some s => s
      | none =>
          let s := waitAt s x.1 is.pc (.cue x.2 a.d.toNat)
          s.onPart p fun y => { y with cues := y.cues.modify x.2 fun q => { q with waiters := q.waiters ++ [x.1] } }) s

/-- cue.push: a release at .dev, then the entry, which has a place. -/
def execCuePush (a : CueArgs) (s : State) : Host.Outcome State Fault Refusal :=
  word (.cuePush a) s fun is s =>
    let (ok, s) := cueThreads is a.base s
    ok.foldl (fun s x =>
      let e := (envOf s x.1).base2 (.v a.d)
      let (id, s) := releaseMem s x.1 .dev false
      cueEnter s (s.partOf x.1) x.2 e ((s.hist.pubs.find? id).map Pub.stores |>.getD [])) s

end Sys2Proof.Machine
end

