-- ==== Sys2Proof/Machine/IntAlu.lean ====
section
/-! DEFINITION. Integer, logic, shift, bit-field, compare, select and integer-conversion words (R178..R184). -/

namespace Sys2Proof.Machine

/-! ### Values and results -/

/-- R88, R178: the integer a register denotes in an element type. -/
def intVal (ty : Ty) (w : Word) : Int :=
  match ty with
  | .i32 => w.toInt
  | .u16 => (w.setWidth 16).toNat
  | .i16 => (w.setWidth 16).toInt
  | .u8 => (w.setWidth 8).toNat
  | .i8 => (w.setWidth 8).toInt
  | _ => w.toNat

/-- R88: an integer wrapped into a type and extended to 32 bits. -/
def extTo (ty : Ty) (x : Int) : Word :=
  match ty with
  | .u16 => (BitVec.ofInt 16 x).setWidth 32
  | .i16 => (BitVec.ofInt 16 x).signExtend 32
  | .u8 => (BitVec.ofInt 8 x).setWidth 32
  | .i8 => (BitVec.ofInt 8 x).signExtend 32
  | _ => BitVec.ofInt 32 x

/-- R178: an exact result stored, saturated with .sat and wrapped without. -/
def intResult (ty : Ty) (sat : Bool) (x : Int) : Word :=
  if sat then let r := intRange ty; extTo ty (max r.1 (min r.2 x)) else extTo ty x

/-- R153: an immediate in an element type. -/
def immOf (ty : Ty) (x : HalfWord) : Word :=
  match ty with
  | .f32 => x.setWidth 32 <<< 16
  | .f16 | .bf16 => x.setWidth 32
  | .f16x2 | .bf16x2 | .e4m3x4 | .e5m2x4 => x ++ x
  | .u16 | .i16 | .u8 | .i8 => extTo ty (immSext x).toInt
  | _ => immSext x

/-- R178: a two-source form. -/
def int2 (f : Int → Int → Int) (a : Int2Args) (_ : State) (e : Env) : Wr :=
  .dst a.d [intResult a.ty a.sat (f (intVal a.ty (e.op immSext a.a)) (intVal a.ty (e.op immSext a.b)))]
/-- R178: a three-source form. -/
def int3 (f : Int → Int → Int → Int) (a : IntArgs) (_ : State) (e : Env) : Wr :=
  .dst a.d [intResult a.ty a.sat
    (f (intVal a.ty (e.op immSext a.a)) (intVal a.ty (e.op immSext a.b)) (intVal a.ty (e.op immSext a.c)))]
/-- R178: a one-source form. -/
def int1 (f : Int → Int) (a : Int1Args) (_ : State) (e : Env) : Wr :=
  .dst a.d [intResult a.ty a.sat (f (intVal a.ty (e.op immSext a.a)))]

/-- R178: the upper word of the exact product. -/
def mulHigh (x y : Int) : Int := (x * y) / 2 ^ 32
def smaller (x y : Int) : Int := if y < x then y else x
def larger (x y : Int) : Int := if x < y then y else x
def absolute (x : Int) : Int := x.natAbs

/-- R179. -/
def shladd (a : ShladdArgs) (_ : State) (e : Env) : Wr :=
  let x := e.op immSext a.a
  if a.w64 then
    let y : Dword := if a.ty = .i32 then x.signExtend 64 else x.setWidth 64
    let r := (y <<< a.sh.toNat) + pair (e.op immSext a.b) (e.op immSext a.b 1)
    .dst a.d [r.setWidth 32, (r >>> 32).setWidth 32]
  else .dst a.d [(x <<< a.sh.toNat) + e.op immSext a.b]

/-! ### Logic and shifts (R180) -/

def log1 (f : Word → Word) (a : Log1Args) (_ : State) (e : Env) : Wr := .dst a.d [f (e.op immSext a.a)]
def log2 (f : Word → Word → Word) (a : Log2Args) (_ : State) (e : Env) : Wr :=
  .dst a.d [f (e.op immSext a.a) (e.op immSext a.b)]
def log3 (f : Byte → Word → Word → Word → Word) (a : Log3Args) (_ : State) (e : Env) : Wr :=
  .dst a.d [f a.tab (e.op immSext a.a) (e.op immSext a.b) (e.op immSext a.c)]

def shiftLeft (x n : Word) : Word := if n.toNat ≥ 32 then 0 else x <<< n.toNat
def shiftRight (x n : Word) : Word := if n.toNat ≥ 32 then 0 else x >>> n.toNat
def shiftArith (x n : Word) : Word := x.sshiftRight (min n.toNat 31)
def rotateLeft (x n : Word) : Word := x.rotateLeft (n.toNat % 32)
def andNot (x y : Word) : Word := x &&& ~~~y
def andW (x y : Word) : Word := x &&& y
def orW (x y : Word) : Word := x ||| y
def xorW (x y : Word) : Word := x ^^^ y
def notW (x : Word) : Word := ~~~x
/-- A word from its bits. -/
def ofBits (f : Nat → Bool) : Word := (List.range 32).foldl (fun w i => if f i then w ||| (1#32 <<< i) else w) 0
def lut3 (tab : Byte) (x y z : Word) : Word :=
  ofBits fun i => tab.getLsbD ((if x.getLsbD i then 1 else 0) + (if y.getLsbD i then 2 else 0) + if z.getLsbD i then 4 else 0)
def popCount (x : Word) : Word := BitVec.ofNat 32 ((List.range 32).filter fun i => x.getLsbD i).length
def leadingZeros (x : Word) : Word := BitVec.ofNat 32 (((List.range 32).reverse.findIdx? fun i => x.getLsbD i).getD 32)
def trailingZeros (x : Word) : Word := BitVec.ofNat 32 (((List.range 32).findIdx? fun i => x.getLsbD i).getD 32)
def reverseBits (x : Word) : Word := ofBits fun i => x.getLsbD (31 - i)

/-- R181: bfe. -/
def bitExtract (sgn : Bool) (x y : Word) : Word :=
  let pos := bits y.toNat 7 0
  let len := bits y.toNat 15 8
  let p := min pos 32
  let e := min (pos + len) 32
  if len = 0 then 0
  else if p = 32 then (if sgn && x.getLsbD 31 then 0xFFFF_FFFF else 0)
  else
    let f := x.toNat / 2 ^ p % 2 ^ (e - p)
    if sgn && f.testBit (e - p - 1) then BitVec.ofInt 32 ((f : Int) - 2 ^ (e - p)) else BitVec.ofNat 32 f

/-- R181: bfi. -/
def bitInsert (_ : Byte) (x y z : Word) : Word :=
  let pos := bits y.toNat 7 0
  let n := min (bits y.toNat 15 8) (32 - min pos 32)
  if n = 0 then z
  else
    let m : Word := BitVec.ofNat 32 ((2 ^ n - 1) * 2 ^ pos)
    (z &&& ~~~m) ||| ((x <<< pos) &&& m)

def bfe (a : BfeArgs) (_ : State) (e : Env) : Wr := .dst a.d [bitExtract a.sgn (e.op immSext a.a) (e.op immSext a.b)]

/-! ### Compare, select, convert (R182..R184) -/

/-- R167: the integer conditions. -/
def intCond (c : Cond) (x y : Int) : Bool :=
  match c with
  | .eq => decide (x = y)
  | .ne => decide (x ≠ y)
  | .lt => decide (x < y)
  | .le => decide (x ≤ y)
  | .gt => decide (x > y)
  | .ge => decide (x ≥ y)
  | _ => false

def setp (a : SetpArgs) (_ : State) (e : Env) : Wr :=
  .pred a.pd (intCond a.cond (intVal a.ty (e.op immSext a.a)) (intVal a.ty (e.op immSext a.b)))

/-- R71, R190: a plain value as a group of its mode. -/
def plainGroup (dm : DM) (w : Word) : List Word :=
  match dm with
  | .plain => [w]
  | .mv => [w, 0]
  | .mva => [w, 0, 0, 0]
  | .s4 => [w, w, w, w]

/-- The registers of a group operand as they are; a uniform or an immediate counts as plain. -/
def groupOf (dm : DM) (im : HalfWord → Word) (e : Env) (o : Opnd) : List Word :=
  match o with
  | .v _ => (List.range dm.size).map fun i => e.op im o i
  | _ => plainGroup dm (e.op im o)

/-- R183. -/
def sel (a : SelArgs) (_ : State) (e : Env) : Wr :=
  .dst a.d (groupOf a.dm (immOf a.ty) e (if e.p a.ps != a.inv then a.a else a.b))

/-- R184. -/
def cvti (a : CvtiArgs) (_ : State) (e : Env) : Wr :=
  .dst a.d [intResult a.dty a.sat (intVal a.sty (e.op immSext a.a))]

/-! ### Meanings -/

/-- R178. -/
def execAdd (a : Int2Args) (s : State) : Host.Outcome State Fault Refusal := alu (.add a) s (int2 (· + ·) a)
/-- R178, R154. -/
def execAddImm (a : Int2Args) (s : State) : Host.Outcome State Fault Refusal := alu (.addImm a) s (int2 (· + ·) a)
/-- R178. -/
def execSub (a : Int2Args) (s : State) : Host.Outcome State Fault Refusal := alu (.sub a) s (int2 (· - ·) a)
/-- R178, R154. -/
def execSubImm (a : Int2Args) (s : State) : Host.Outcome State Fault Refusal := alu (.subImm a) s (int2 (· - ·) a)
/-- R178. -/
def execMul (a : Int2Args) (s : State) : Host.Outcome State Fault Refusal := alu (.mul a) s (int2 (· * ·) a)
/-- R178, R154. -/
def execMulImm (a : Int2Args) (s : State) : Host.Outcome State Fault Refusal := alu (.mulImm a) s (int2 (· * ·) a)
/-- R178. -/
def execMulhi (a : Int2Args) (s : State) : Host.Outcome State Fault Refusal := alu (.mulhi a) s (int2 mulHigh a)
/-- R178, R154. -/
def execMulhiImm (a : Int2Args) (s : State) : Host.Outcome State Fault Refusal := alu (.mulhiImm a) s (int2 mulHigh a)
/-- R178. -/
def execMin (a : Int2Args) (s : State) : Host.Outcome State Fault Refusal := alu (.min_ a) s (int2 smaller a)
/-- R178, R154. -/
def execMinImm (a : Int2Args) (s : State) : Host.Outcome State Fault Refusal := alu (.minImm a) s (int2 smaller a)
/-- R178. -/
def execMax (a : Int2Args) (s : State) : Host.Outcome State Fault Refusal := alu (.max_ a) s (int2 larger a)
/-- R178, R154. -/
def execMaxImm (a : Int2Args) (s : State) : Host.Outcome State Fault Refusal := alu (.maxImm a) s (int2 larger a)
/-- R178. -/
def execAdd3 (a : IntArgs) (s : State) : Host.Outcome State Fault Refusal := alu (.add3 a) s (int3 (fun x y z => x + y + z) a)
/-- R178. -/
def execMad (a : IntArgs) (s : State) : Host.Outcome State Fault Refusal := alu (.mad a) s (int3 (fun x y z => x * y + z) a)
/-- R179. -/
def execShladd (a : ShladdArgs) (s : State) : Host.Outcome State Fault Refusal := alu (.shladd a) s (shladd a)
/-- R178. -/
def execAbs (a : Int1Args) (s : State) : Host.Outcome State Fault Refusal := alu (.abs_ a) s (int1 absolute a)
/-- R178. -/
def execNeg (a : Int1Args) (s : State) : Host.Outcome State Fault Refusal := alu (.neg a) s (int1 (fun x => -x) a)
/-- R180. -/
def execShl (a : Log2Args) (s : State) : Host.Outcome State Fault Refusal := alu (.shl a) s (log2 shiftLeft a)
/-- R180, R154. -/
def execShlImm (a : Log2Args) (s : State) : Host.Outcome State Fault Refusal := alu (.shlImm a) s (log2 shiftLeft a)
/-- R180. -/
def execShr (a : Log2Args) (s : State) : Host.Outcome State Fault Refusal := alu (.shr a) s (log2 shiftRight a)
/-- R180, R154. -/
def execShrImm (a : Log2Args) (s : State) : Host.Outcome State Fault Refusal := alu (.shrImm a) s (log2 shiftRight a)
/-- R180. -/
def execSar (a : Log2Args) (s : State) : Host.Outcome State Fault Refusal := alu (.sar a) s (log2 shiftArith a)
/-- R180, R154. -/
def execSarImm (a : Log2Args) (s : State) : Host.Outcome State Fault Refusal := alu (.sarImm a) s (log2 shiftArith a)
/-- R180. -/
def execRot (a : Log2Args) (s : State) : Host.Outcome State Fault Refusal := alu (.rot a) s (log2 rotateLeft a)
/-- R180, R154. -/
def execRotImm (a : Log2Args) (s : State) : Host.Outcome State Fault Refusal := alu (.rotImm a) s (log2 rotateLeft a)
/-- R180. -/
def execAnd (a : Log2Args) (s : State) : Host.Outcome State Fault Refusal := alu (.and_ a) s (log2 andW a)
/-- R180, R154. -/
def execAndImm (a : Log2Args) (s : State) : Host.Outcome State Fault Refusal := alu (.andImm a) s (log2 andW a)
/-- R180. -/
def execOr (a : Log2Args) (s : State) : Host.Outcome State Fault Refusal := alu (.or_ a) s (log2 orW a)
/-- R180, R154. -/
def execOrImm (a : Log2Args) (s : State) : Host.Outcome State Fault Refusal := alu (.orImm a) s (log2 orW a)
/-- R180. -/
def execXor (a : Log2Args) (s : State) : Host.Outcome State Fault Refusal := alu (.xor_ a) s (log2 xorW a)
/-- R180, R154. -/
def execXorImm (a : Log2Args) (s : State) : Host.Outcome State Fault Refusal := alu (.xorImm a) s (log2 xorW a)
/-- R180. -/
def execAndn (a : Log2Args) (s : State) : Host.Outcome State Fault Refusal := alu (.andn a) s (log2 andNot a)
/-- R180, R154. -/
def execAndnImm (a : Log2Args) (s : State) : Host.Outcome State Fault Refusal := alu (.andnImm a) s (log2 andNot a)
/-- R180. -/
def execNot (a : Log1Args) (s : State) : Host.Outcome State Fault Refusal := alu (.not_ a) s (log1 notW a)
/-- R180. -/
def execPopc (a : Log1Args) (s : State) : Host.Outcome State Fault Refusal := alu (.popc a) s (log1 popCount a)
/-- R180. -/
def execClz (a : Log1Args) (s : State) : Host.Outcome State Fault Refusal := alu (.clz a) s (log1 leadingZeros a)
/-- R180. -/
def execCtz (a : Log1Args) (s : State) : Host.Outcome State Fault Refusal := alu (.ctz a) s (log1 trailingZeros a)
/-- R180. -/
def execBrev (a : Log1Args) (s : State) : Host.Outcome State Fault Refusal := alu (.brev a) s (log1 reverseBits a)
/-- R180. -/
def execLut3 (a : Log3Args) (s : State) : Host.Outcome State Fault Refusal := alu (.lut3 a) s (log3 lut3 a)
/-- R181. -/
def execBfi (a : Log3Args) (s : State) : Host.Outcome State Fault Refusal := alu (.bfi a) s (log3 bitInsert a)
/-- R181. -/
def execBfe (a : BfeArgs) (s : State) : Host.Outcome State Fault Refusal := alu (.bfe a) s (bfe a)
/-- R182. -/
def execSetp (a : SetpArgs) (s : State) : Host.Outcome State Fault Refusal := alu (.setp a) s (setp a)
/-- R182, R154. -/
def execSetpImm (a : SetpArgs) (s : State) : Host.Outcome State Fault Refusal := alu (.setpImm a) s (setp a)
/-- R183. -/
def execSel (a : SelArgs) (s : State) : Host.Outcome State Fault Refusal := alu (.sel a) s (sel a)
/-- R183, R154. -/
def execSelImm (a : SelArgs) (s : State) : Host.Outcome State Fault Refusal := alu (.selImm a) s (sel a)
/-- R184. -/
def execCvti (a : CvtiArgs) (s : State) : Host.Outcome State Fault Refusal := alu (.cvti a) s (cvti a)

end Sys2Proof.Machine
end

