-- ==== Sys2Proof/Machine/Dist.lean ====
section
/-! DEFINITION. Distribution values (R70..R79): operands, the variance arithmetic, dropped and tracked
covariance, samples; rounding modes and draws of a thread (R69, R80, R81, R97). -/

namespace Sys2Proof.Machine

/-! ### Modes and draws -/

/-- R69: %fsr.RM. -/
def fsrMode (fsr : Word) : RM :=
  match bits fsr.toNat 7 5 with
  | 1 => .rz | 2 => .rd | 3 => .ru | 4 => .sr | _ => .rne
/-- R69: the mode an instruction rounds in. -/
def modeOf (e : Env) (rm : RM) : RM := if rm = .dyn then fsrMode e.g.fsr else rm
/-- R69: does an instruction flush subnormals? -/
def flushes (e : Env) (ftz : Bool) : Bool := ftz || e.g.fsr.getLsbD 8

/-- R81: the four output words of a thread's draw, `i` draws ahead of its counter. -/
def drawWords (s : State) (e : Env) (stream i : Nat) : List Nat :=
  let n := (e.th.draws + BitVec.ofNat 48 i).toNat
  philox e.g.key
    [n % 2 ^ 32, stream * 2 ^ 20 + (s.block e.g.block).stage * 2 ^ 16 + n / 2 ^ 32, e.th.lin, 0]

/-- R96: r of the element's draw, in SR mode. -/
def srDraw (s : State) (e : Env) (m : RM) (i : Nat) : Nat :=
  if m = .sr then (drawWords s e (bits e.g.fsr.toNat 15 12) i).getD 0 0 % 65536 else 0

/-- The mode of element `i` of an instruction that rounds. -/
def elemMode (s : State) (e : Env) (rm : RM) (ftz : Bool) (i : Nat) : Mode :=
  let m := modeOf e rm
  ⟨m, flushes e ftz, srDraw s e m i⟩

/-- R97: how many draws `n` rounded elements make. -/
def drawCount (e : Env) (rm : RM) (n : Nat) : Nat := if modeOf e rm = .sr then n else 0

/-- The code of a scalar element: the low bits of its register. -/
def Fmt.low (f : Fmt) (w : Word) : Nat := w.toNat % 2 ^ (f.mag + if f.signed then 1 else 0)
/-- A code as a register: the bits above are 0. -/
def codeWord (c : Nat) : Word := BitVec.ofNat 32 c

/-! ### Operands -/

/-- One distribution operand: the code of its mean and the rest of its group as its mode reads it. -/
structure DOp where
  mean : Nat
  var : Word
  alpha : Word
  beta : Word
  tag : Word
deriving DecidableEq, Repr

def DOp.plain (c : Nat) : DOp := ⟨c, 0, 0, 0, 0⟩

/-- R70, R71: an operand read in a mode; uniforms, immediates and marked sources are plain. -/
def dop (e : Env) (f : Fmt) (im : HalfWord → Word) (dm : DM) (mark : Bool) (o : Opnd) : DOp :=
  let r := fun i => e.op im o i
  match o, dm, mark with
  | .v _, .mv, false => ⟨f.low (r 0), r 1, 0, 0, 0⟩
  | .v _, .mva, false => ⟨f.low (r 0), 0, r 1, r 2, r 3⟩
  | _, _, _ => .plain (f.low (r 0))

/-- R79: sample i of an operand; a plain source stands for four equal samples. -/
def sample (e : Env) (f : Fmt) (im : HalfWord → Word) (mark : Bool) (o : Opnd) (i : Nat) : Nat :=
  match o, mark with
  | .v _, false => f.low (e.op im o i)
  | _, _ => f.low (e.op im o)

/-- A partial derivative f and round(f²). -/
structure Deriv where
  f : Num
  sq : Num
deriving DecidableEq, Repr

def Deriv.of (ftz : Bool) (x : Num) : Deriv := ⟨x, roundV ftz x.sq⟩
/-- R75: round(f²) overflowed, in a term that counts (R74). -/
def Deriv.ovf (p : Deriv) (v : Num) : Flags := ovfFlags p.sq (p.f.isFin && !v.isZero)
def Deriv.one : Deriv := ⟨.fin false 1 0, .fin false 1 0⟩
def Deriv.minusOne : Deriv := ⟨.fin true 1 0, .fin false 1 0⟩
def Deriv.zero : Deriv := ⟨.zero false, .zero false⟩

/-- What an operation adds to the group of its result. -/
structure Spread where
  parts : List Deriv
  /-- minimum and maximum leave the operand not selected out (R73) -/
  selects : Bool
  /-- the rounding variance of a step that narrows -/
  w : Option (Word × Flags)
  nlin : Bool
  rnd : Bool

/-- R73: the variance of a .mv result. In a special function a factor round(g²) of exactly 0 gives 0 too (R198). -/
def mvVar (ftz : Bool) (ops : List DOp) (sp : Spread) : Num × Flags :=
  let rd := ops.map fun o => readVar ftz o.var
  let fl := rd.foldl (fun a r => a ||| r.2) (0 : Flags)
  let ts : List (Num × Flags) := (rd.zip sp.parts).filterMap fun x =>
    if sp.selects && x.2.f.isZero then none
    else if sp.nlin && x.2.sq.isZero then some (.zero false, 0)
    else let m := mulV ftz x.2.sq x.1.1; some (m.1, m.2 ||| x.2.ovf x.1.1)
  let sum : Num × Flags := match ts with
    | [] => ((Num.zero false), (0 : Flags))
    | t :: rest => rest.foldl (fun a x => let y := addV ftz a.1 x.1; (y.1, a.2 ||| x.2 ||| y.2)) t
  match sp.w with
  | none => (sum.1, fl ||| sum.2)
  | some w => let y := addV ftz sum.1 (f32Val w.1); (y.1, fl ||| sum.2 ||| w.2 ||| y.2)

/-- R78: sensitivity, residual and tag word of a .mva result. -/
def mvaRest (ftz : Bool) (ops : List DOp) (sp : Spread) : Num × Num × Word × Flags :=
  let xs := (ops.zip sp.parts).map fun (o, p) => (o.tag.toNat % 65536, readAlpha ftz o.alpha, readVar ftz o.beta, p)
  let fl := xs.foldl (fun a x => a ||| x.2.1.2 ||| x.2.2.1.2) (0 : Flags)
  let tag := ((xs.find? fun x => x.1 != 0 && !x.2.2.2.f.isZero).map Prod.fst).getD 0
  let al := xs.foldl (fun (a : Num × Flags) x =>
    if tag ≠ 0 ∧ x.1 = tag then
      let m := mulV ftz x.2.2.2.f x.2.1.1
      let y := addV ftz a.1 m.1
      (y.1, a.2 ||| m.2 ||| y.2)
    else a) (Num.zero false, 0)
  let be := xs.foldl (fun (a : Num × Flags × Bool) x =>
    if x.2.2.2.f.isZero then a
    else if tag ≠ 0 ∧ x.1 = tag then
      let m := mulV ftz x.2.2.2.sq x.2.2.1.1
      let y := addV ftz a.1 m.1
      (y.1, a.2.1 ||| m.2 ||| y.2 ||| x.2.2.2.ovf x.2.2.1.1, a.2.2)
    else
      let q := roundV ftz x.2.1.1.sq
      let t := addV ftz q x.2.2.1.1
      let m := mulV ftz x.2.2.2.sq t.1
      let y := addV ftz a.1 m.1
      (y.1, a.2.1 ||| ovfFlags q x.2.1.1.isFin ||| t.2 ||| m.2 ||| y.2
        ||| x.2.2.2.ovf t.1, a.2.2 || x.1 != 0)) (Num.zero false, 0, false)
  let be' := match sp.w with
    | none => (be.1, be.2.1)
    | some w => let y := addV ftz be.1 (f32Val w.1); (y.1, be.2.1 ||| w.2 ||| y.2)
  let marks : Word := (ops.foldl (fun a o => a ||| o.tag) 0) &&& 0x0007_0000
  let word := marks ||| BitVec.ofNat 32 tag ||| (if be.2.2 then 0x0001_0000 else 0) ||| (if sp.nlin then 0x0002_0000 else 0)
    ||| if sp.rnd then 0x0004_0000 else 0
  (al.1, be'.1, word, fl ||| al.2 ||| be'.2)

/-- R73, R74, R78: the group of a result whose mean is the code `c` of `f`, with the variance flags. -/
def distGroup (dm : DM) (ftz : Bool) (f : Fmt) (ops : List DOp) (sp : Spread) (c : Nat) : List Word × Flags :=
  let nan := (f.decode c).isNan
  match dm with
  | .mv =>
      let v := mvVar ftz ops sp
      if nan then ([codeWord c, nan32], ops.foldl (fun a o => a ||| (readVar ftz o.var).2) (0 : Flags))
      else ([codeWord c, wordOfNum v.1], v.2)
  | .mva =>
      let r := mvaRest ftz ops sp
      if nan then ([codeWord c, nan32, nan32, r.2.2.1],
        ops.foldl (fun a o => a ||| (readVar ftz o.beta).2 ||| (readAlpha ftz o.alpha).2) 0)
      else ([codeWord c, wordOfNum r.1, wordOfNum r.2.1, r.2.2.1], r.2.2.2)
  | _ => ([codeWord c], 0)

/-- The whole of a floating-point form in any mode: sources with their plain marks, the operation on codes of
one element (given the index of its draw), and what spreads (given the means' codes and the result). -/
def floatForm (s : State) (e : Env) (src dst : Fmt) (im : HalfWord → Word) (dm : DM) (rm : RM) (ftz rounds : Bool)
    (d : Reg) (srcs : List (Opnd × Bool)) (op : Mode → List Nat → Nat × Flags)
    (spread : Mode → List Nat → Nat → Spread) : Wr :=
  let md := elemMode s e rm ftz
  match dm with
  | .s4 =>
      let os := (List.range 4).map fun i => op (md i) (srcs.map fun o => sample e src im o.2 o.1 i)
      .dst d (os.map fun o => codeWord o.1) (os.foldl (fun a o => a ||| o.2) 0) (if rounds then drawCount e rm 4 else 0)
  | _ =>
      let ops := srcs.map fun o => dop e src im dm o.2 o.1
      let cs := ops.map DOp.mean
      let r := op (md 0) cs
      let g := if dm = .plain then ([codeWord r.1], 0) else distGroup dm (flushes e ftz) dst ops (spread (md 0) cs r.1) r.1
      .dst d g.1 (r.2 ||| g.2) (if rounds then drawCount e rm 1 else 0)

end Sys2Proof.Machine
end

