-- ==== Sys2Proof/Machine/FloatAlu.lean ====
section
/-! DEFINITION. Floating-point words: arithmetic, compare, class, scale, rounding, conversions, packed and
dot-product forms (R185..R195). -/

namespace Sys2Proof.Machine

/-- R152: the format of a scalar or packed type; every well-formed word names one. -/
def fmtOf (ty : Ty) : Fmt := (Fmt.ofTy ty).getD .f32
/-- A source's value as an instruction that may flush reads it, widened exactly. -/
def meanVal (f : Fmt) (ftz : Bool) (c : Nat) : Num := (f.source ftz c).1

/-- A step without rounding variance, not a special function. -/
def plainSpread (parts : List Deriv) : Spread := ⟨parts, false, none, false, false⟩

/-! ### Arithmetic (R185, R186, R73, R78) -/

def sumSpread (minus : Bool) (_ : Mode) (_ : List Nat) (_ : Nat) : Spread :=
  plainSpread [.one, if minus then .minusOne else .one]
def mulSpread (f : Fmt) (more : List Deriv) (md : Mode) (cs : List Nat) (_ : Nat) : Spread :=
  plainSpread ([.of md.ftz (meanVal f md.ftz (cs.getD 1 0)), .of md.ftz (meanVal f md.ftz (cs.getD 0 0))] ++ more)
def pickSpread (f : Fmt) (mx : Bool) (md : Mode) (cs : List Nat) (_ : Nat) : Spread :=
  let b := selectsB mx (meanVal f md.ftz (cs.getD 0 0)) (meanVal f md.ftz (cs.getD 1 0))
  ⟨if b then [.zero, .one] else [.one, .zero], true, none, false, false⟩

/-- R185, R186: a two-source form; `rounds` is false for a selection. -/
def flt2 (a : Flt2Args) (rounds : Bool) (op : Fmt → Mode → Nat → Nat → Nat × Flags)
    (sp : Fmt → Mode → List Nat → Nat → Spread) (s : State) (e : Env) : Wr :=
  let f := fmtOf a.ty
  floatForm s e f f (immOf a.ty) a.dm a.rm a.ftz rounds a.d [(a.a, a.pla), (a.b, a.plb)]
    (fun md cs => op f md (cs.getD 0 0) (cs.getD 1 0)) (sp f)

def faddL := fun a => flt2 a true Fmt.add fun _ => sumSpread false
def fsubL := fun a => flt2 a true Fmt.sub fun _ => sumSpread true
def fmulL := fun a => flt2 a true Fmt.mul fun f => mulSpread f []
def fminL := fun a => flt2 a false (fun f md => f.minMax false md.ftz) fun f => pickSpread f false
def fmaxL := fun a => flt2 a false (fun f md => f.minMax true md.ftz) fun f => pickSpread f true

/-- R185: a × b + c. -/
def fmaL (a : Flt3Args) (s : State) (e : Env) : Wr :=
  let f := fmtOf a.ty
  floatForm s e f f (immOf a.ty) a.dm a.rm a.ftz true a.d [(a.a, a.pla), (a.b, a.plb), (a.c, a.plc)]
    (fun md cs => f.fma md (cs.getD 0 0) (cs.getD 1 0) (cs.getD 2 0)) (mulSpread f [.one])

/-! ### Compare and class (R187, R188) -/

/-- R167: a condition between two values. -/
def fltCond (c : Cond) (a b : Num) : Bool :=
  let un := a.isNan || b.isNan
  match c with
  | .eq => a.eq b
  | .ne => !un && !a.eq b
  | .lt => a.lt b
  | .le => !un && !b.lt a
  | .gt => b.lt a
  | .ge => !un && !a.lt b
  | .equ => un || a.eq b
  | .neu => un || !a.eq b
  | .ltu => un || a.lt b
  | .leu => un || !b.lt a
  | .gtu => un || b.lt a
  | .geu => un || !a.lt b
  | .num => !un
  | .nan => un

/-- R187: means are compared. -/
def fsetpL (a : FsetpArgs) (_ : State) (e : Env) : Wr :=
  let f := fmtOf a.ty
  let x := f.source (flushes e a.ftz) (f.low (e.op (immOf a.ty) a.a))
  let y := f.source (flushes e a.ftz) (f.low (e.op (immOf a.ty) a.b))
  .pred a.pd (fltCond a.cond x.1 y.1) (x.2 ||| y.2)

/-- R188. -/
def classBit (f : Fmt) (c : Nat) : Nat :=
  match f.decode c with
  | .nan => if f.isSnan c then 0 else 1
  | .inf n => if n then 2 else 9
  | .fin n m _ => if m = 0 then (if n then 5 else 6) else if f.isSub c then (if n then 4 else 7) else if n then 3 else 8
def fclassL (a : Flt1Args) (_ : State) (e : Env) : Wr :=
  .dst a.d [1#32 <<< classBit (fmtOf a.ty) ((fmtOf a.ty).low (e.op immSext a.a))]

/-! ### Scale and rounding to integral values (R189, R190) -/

/-- R189: clamp(b, −512, 512). -/
def scaleCount (b : Word) : Int := max (-512) (min 512 b.toInt)
def scaleOp (f : Fmt) (k : Int) (md : Mode) (c : Nat) : Nat × Flags :=
  let x := f.source md.ftz c
  let p := f.put md.rm md.ftz md.r ((x.1.shift k).zeroSign (md.rm == .rd))
  (p.1, p.2 ||| x.2)
def scaleSpread (k : Int) (_ : Mode) (_ : List Nat) (_ : Nat) : Spread :=
  plainSpread [⟨.fin false 1 k, .fin false 1 (2 * k)⟩]
def fscaleL (a : Flt2Args) (s : State) (e : Env) : Wr :=
  let f := fmtOf a.ty
  let k := scaleCount (e.op immSext a.b)
  floatForm s e f f immSext a.dm a.rm a.ftz true a.d [(a.a, a.pla)] (fun md cs => scaleOp f k md (cs.getD 0 0)) (scaleSpread k)

/-- R190: to an integral value. -/
def integralOp (f : Fmt) (md : Mode) (c : Nat) : Nat × Flags :=
  let x := f.source md.ftz c
  match x.1 with
  | .fin n m e =>
      let g := gridRound md.rm md.r n m e 0
      if g.nx then ((f.put .rne false 0 (.fin n (g.q + if g.up then 1 else 0) 0)).1, Flags.nx)
      else (f.flushIn md.ftz c, 0)
  | _ => ((f.put .rne false 0 x.1).1, Flags.nf ||| x.2)
/-- R190, R102: the rounding variance on the grid of integers. -/
def integralVar (md : Mode) (x : Num) : Word × Flags :=
  match x with
  | .nan => (nan32, 0)
  | .inf _ => (0, 0)
  | .fin n m e =>
      let g := gridRound md.rm md.r n m e 0
      if !g.nx then (0, 0)
      else if md.rm = .sr then
        let a := rneF32 (x.add false (Num.fin n g.q 0).negate).1.abs
        let b := rneF32 ((Num.fin n (g.q + 1) 0).add false x.negate).1.abs
        ((rneF32 ((f32Val a.1).mul (f32Val b.1)).1).1, 0)
      else ((rneF32 (Num.divFin 80 (.fin false 1 0) (.fin false 12 0))).1, 0)
def frndL (a : Flt1Args) (s : State) (e : Env) : Wr :=
  let f := fmtOf a.ty
  floatForm s e f f immSext a.dm a.rm a.ftz true a.d [(a.a, a.pla)] (fun md cs => integralOp f md (cs.getD 0 0))
    fun md cs _ => ⟨[.one], false, some (integralVar md (meanVal f md.ftz (cs.getD 0 0))), false, true⟩

/-! ### Conversions (R191..R193) -/

/-- R100, R102: every value of one format is a value of the other. -/
def widens (src dst : Fmt) : Bool :=
  decide (src.m ≤ dst.m) && decide (dst.emin - dst.m ≤ src.emin - src.m)
    && !(dst.decode dst.top).lt (src.decode src.top) && (dst.signed || !src.signed)

/-- One element converted between floating-point formats: a widening one neither rounds nor saturates (R97, R100). -/
def convElemF (src dst : Fmt) (sat : Bool) (md : Mode) (c : Nat) : ConvOut × Flags :=
  let x := src.source md.ftz c
  (dst.convert (if widens src dst then .rne else md.rm) (sat && !widens src dst) md.ftz md.r (src.signed && c / 2 ^ src.mag % 2 == 1) x.1, x.2)
def convOp (src dst : Fmt) (sat : Bool) (md : Mode) (c : Nat) : Nat × Flags :=
  let o := convElemF src dst sat md c
  (o.1.code, o.1.flags ||| o.2)

/-- R89: elements laid into a word, and read from one. -/
def eltStride (f : Fmt) : Nat := if f.bits ≤ 4 then 4 else if f.bits ≤ 8 then 8 else 16
def packWord (f : Fmt) (cs : List Nat) : Word :=
  BitVec.ofNat 32 ((cs.mapIdx fun j c => c * 2 ^ (eltStride f * j)).foldl (· + ·) 0)
def elemOf (f : Fmt) (w : Word) (j : Nat) : Nat := f.low (w >>> (eltStride f * j))

/-- The elements of a conversion in ascending order, each with its draw. -/
def convAll (s : State) (e : Env) (a : CvtArgs) (cs : List Nat) : List (Nat × Flags) :=
  cs.mapIdx fun j c => convOp (fmtOf a.sty) (fmtOf a.dty) a.sat (elemMode s e a.rm a.ftz j) c
/-- R97: the draws of a conversion. Between equal formats no element can round, and the pack or unpack is taken as
widening: it draws nothing (DESIGN CHOICE, log entry 61). -/
def convDraws (e : Env) (a : CvtArgs) (n : Nat) : Nat := if widens (fmtOf a.sty) (fmtOf a.dty) then 0 else drawCount e a.rm n
def orAll (l : List (Nat × Flags)) : Flags := l.foldl (fun f x => f ||| x.2) 0

def cvtL (a : CvtArgs) (s : State) (e : Env) : Wr :=
  let src := fmtOf a.sty
  let dst := fmtOf a.dty
  match cvtKind a.dty a.sty with
  | none => .none
  | some .scalar =>
      let narrow := !widens src dst
      floatForm s e src dst immSext a.dm a.rm a.ftz narrow a.d [(a.a, a.pla)]
        (fun md cs => convOp src dst a.sat md (cs.getD 0 0))
        fun md cs _ => ⟨[.one], false,
          if narrow then
            let o := convElemF src dst a.sat md (cs.getD 0 0)
            some (dst.roundVar md.rm (meanVal src md.ftz (cs.getD 0 0)) o.1)
          else none, false, narrow⟩
  | some .toInt =>
      let md := elemMode s e a.rm a.ftz 0
      let x := src.source md.ftz (src.low (e.op immSext a.a))
      let r := toIntSat md.rm md.r (intRange a.dty).1 (intRange a.dty).2 x.1
      .dst a.d [extTo a.dty r.1] (r.2 ||| x.2) (drawCount e a.rm 1)
  | some .ofInt =>
      let md := elemMode s e a.rm a.ftz 0
      let x := intVal a.sty (e.op immSext a.a)
      let o := dst.convert md.rm a.sat md.ftz md.r (decide (x < 0)) (.ofInt x)
      .dst a.d [codeWord o.code] o.flags (drawCount e a.rm 1)
  | some (.pack n) =>
      let rs := convAll s e a ((List.range n).map fun j => src.low (e.op immSext a.a j))
      .dst a.d [packWord dst (rs.map Prod.fst)] (orAll rs) (convDraws e a n)
  | some (.unpack n) =>
      let rs := convAll s e a ((List.range n).map fun j => elemOf src (e.op immSext a.a) j)
      .dst a.d (rs.map fun r => codeWord r.1) (orAll rs) (convDraws e a n)
  | some .repack =>
      let rs := convAll s e a ((List.range a.sty.packed).map fun j => elemOf src (e.op immSext a.a) j)
      .dst a.d [packWord dst (rs.map Prod.fst)] (orAll rs) (convDraws e a a.sty.packed)

/-! ### Packed and dot-product forms (R194, R195) -/

/-- Two elements, each with its draw. -/
def packed2 (s : State) (e : Env) (ty : Ty) (rm : RM) (ftz : Bool) (d : Reg) (ws : List Word)
    (op : Fmt → Mode → List Nat → Nat × Flags) : Wr :=
  let f := fmtOf ty
  let rs := (List.range 2).map fun j => op f (elemMode s e rm ftz j) (ws.map fun w => elemOf f w j)
  .dst d [packWord f (rs.map Prod.fst)] (orAll rs) (drawCount e rm 2)

def pk2 (op : Fmt → Mode → Nat → Nat → Nat × Flags) (a : Flt2Args) (s : State) (e : Env) : Wr :=
  packed2 s e a.ty a.rm a.ftz a.d [e.op (immOf a.ty) a.a, e.op (immOf a.ty) a.b]
    fun f md cs => op f md (cs.getD 0 0) (cs.getD 1 0)
def pkfmaL (a : Flt3Args) (s : State) (e : Env) : Wr :=
  packed2 s e a.ty a.rm a.ftz a.d [e.op immSext a.a, e.op immSext a.b, e.op immSext a.c]
    fun f md cs => f.fma md (cs.getD 0 0) (cs.getD 1 0) (cs.getD 2 0)

/-- R195: the exact sum of terms, NaN for opposite infinities, with whether it is invalid. -/
def exactSum (rd : Bool) (ts : List (Num × Bool)) : Num × Bool :=
  match ts with
  | [] => (.zero false, false)
  | t :: rest =>
      let nan := ts.any fun x => x.1.isNan
      let bad := ts.any fun x => x.2
      let pos := ts.any fun x => x.1 == .inf false
      let neg := ts.any fun x => x.1 == .inf true
      if nan then (.nan, bad || (pos && neg))
      else if pos && neg then (.nan, true)
      else (rest.foldl (fun a x => (a.add rd x.1).1) t.1, bad)

/-- R195. -/
def dpL (a : Flt3Args) (s : State) (e : Env) : Wr :=
  let f := fmtOf a.ty
  let md := elemMode s e a.rm a.ftz 0
  let x := e.op immSext a.a
  let y := e.op immSext a.b
  let c := Fmt.f32.source md.ftz (e.op immSext a.c).toNat
  let es := (List.range a.ty.packed).map fun j => (f.source md.ftz (elemOf f x j), f.source md.ftz (elemOf f y j))
  let sum := exactSum (md.rm == .rd) (es.map (fun p => p.1.1.mul p.2.1) ++ [(c.1, false)])
  let r := Fmt.f32.result md sum
  .dst a.d [codeWord r.1] (es.foldl (fun fl p => fl ||| p.1.2 ||| p.2.2) (r.2 ||| c.2)) (drawCount e a.rm 1)

/-! ### Meanings -/

/-- R185. -/
def execFadd (a : Flt2Args) (s : State) : Host.Outcome State Fault Refusal := alu (.fadd a) s (faddL a)
/-- R185, R154. -/
def execFaddImm (a : Flt2Args) (s : State) : Host.Outcome State Fault Refusal := alu (.faddImm a) s (faddL a)
/-- R185. -/
def execFsub (a : Flt2Args) (s : State) : Host.Outcome State Fault Refusal := alu (.fsub a) s (fsubL a)
/-- R185, R154. -/
def execFsubImm (a : Flt2Args) (s : State) : Host.Outcome State Fault Refusal := alu (.fsubImm a) s (fsubL a)
/-- R185. -/
def execFmul (a : Flt2Args) (s : State) : Host.Outcome State Fault Refusal := alu (.fmul a) s (fmulL a)
/-- R185, R154. -/
def execFmulImm (a : Flt2Args) (s : State) : Host.Outcome State Fault Refusal := alu (.fmulImm a) s (fmulL a)
/-- R185. -/
def execFma (a : Flt3Args) (s : State) : Host.Outcome State Fault Refusal := alu (.fma a) s (fmaL a)
/-- R186. -/
def execFmin (a : Flt2Args) (s : State) : Host.Outcome State Fault Refusal := alu (.fmin a) s (fminL a)
/-- R186, R154. -/
def execFminImm (a : Flt2Args) (s : State) : Host.Outcome State Fault Refusal := alu (.fminImm a) s (fminL a)
/-- R186. -/
def execFmax (a : Flt2Args) (s : State) : Host.Outcome State Fault Refusal := alu (.fmax a) s (fmaxL a)
/-- R186, R154. -/
def execFmaxImm (a : Flt2Args) (s : State) : Host.Outcome State Fault Refusal := alu (.fmaxImm a) s (fmaxL a)
/-- R187. -/
def execFsetp (a : FsetpArgs) (s : State) : Host.Outcome State Fault Refusal := alu (.fsetp a) s (fsetpL a)
/-- R187, R154. -/
def execFsetpImm (a : FsetpArgs) (s : State) : Host.Outcome State Fault Refusal := alu (.fsetpImm a) s (fsetpL a)
/-- R188. -/
def execFclass (a : Flt1Args) (s : State) : Host.Outcome State Fault Refusal := alu (.fclass a) s (fclassL a)
/-- R189. -/
def execFscale (a : Flt2Args) (s : State) : Host.Outcome State Fault Refusal := alu (.fscale a) s (fscaleL a)
/-- R189, R154. -/
def execFscaleImm (a : Flt2Args) (s : State) : Host.Outcome State Fault Refusal := alu (.fscaleImm a) s (fscaleL a)
/-- R190. -/
def execFrnd (a : Flt1Args) (s : State) : Host.Outcome State Fault Refusal := alu (.frnd a) s (frndL a)
/-- R191..R193. -/
def execCvt (a : CvtArgs) (s : State) : Host.Outcome State Fault Refusal := alu (.cvt a) s (cvtL a)
/-- R194. -/
def execPkadd (a : Flt2Args) (s : State) : Host.Outcome State Fault Refusal := alu (.pkadd a) s (pk2 Fmt.add a)
/-- R194, R154. -/
def execPkaddImm (a : Flt2Args) (s : State) : Host.Outcome State Fault Refusal := alu (.pkaddImm a) s (pk2 Fmt.add a)
/-- R194. -/
def execPkmul (a : Flt2Args) (s : State) : Host.Outcome State Fault Refusal := alu (.pkmul a) s (pk2 Fmt.mul a)
/-- R194, R154. -/
def execPkmulImm (a : Flt2Args) (s : State) : Host.Outcome State Fault Refusal := alu (.pkmulImm a) s (pk2 Fmt.mul a)
/-- R194. -/
def execPkfma (a : Flt3Args) (s : State) : Host.Outcome State Fault Refusal := alu (.pkfma a) s (pkfmaL a)
/-- R195. -/
def execDp2 (a : Flt3Args) (s : State) : Host.Outcome State Fault Refusal := alu (.dp2 a) s (dpL a)
/-- R195. -/
def execDp4 (a : Flt3Args) (s : State) : Host.Outcome State Fault Refusal := alu (.dp4 a) s (dpL a)

end Sys2Proof.Machine
end

