-- ==== Sys2Proof/Machine/SfuAlu.lean ====
section
/-! DEFINITION. Special-function words in every distribution mode (R196..R198, R73, R78). Their results are late
(R56, R177): LATE_RESULT_WRITE lands them. -/

namespace Sys2Proof.Machine

/-- The sign changed. -/
def negR (a : Word) : Word := a ^^^ 0x8000_0000
def halfC : Word := 0x3F00_0000
def oneC : Word := 0x3F80_0000

/-- R197: the derivative value g at a mean, from it and the FP32 value of the function there; every step flushes as
the instruction does (R69). -/
def SpecialFn.deriv (f : SpecialFn) (ftz : Bool) (mu y : Word) : Word :=
  let mul := mulZ ftz
  let sub := subZ ftz
  let fn := fnZ ftz
  match f with
  | .ex2 => mul ln2c y
  | .lg2 => mul log2e (fn .rcp mu)
  | .rcp => negR (mul y y)
  | .rsq => negR (mul halfC (mul (mul y y) y))
  | .sqt => mul halfC (fn .rcp y)
  | .sin => fn .cos mu
  | .cos => negR (fn .sin mu)
  | .tnh => sub oneC (mul y y)
  | .lgt => mul y (sub oneC y)

/-- The derivative at the mean an instruction reads, NLIN set. -/
def fnSpread (f : SpecialFn) (t : Fmt) (md : Mode) (cs : List Nat) (_ : Nat) : Spread :=
  let mu := (rneF32 (meanVal t md.ftz (cs.getD 0 0))).1
  ⟨[.of md.ftz (f32Val (f.deriv md.ftz mu (fnZ md.ftz f mu)))], false, none, true, false⟩

/-- R196: one function at its element type. -/
def fnL (f : SpecialFn) (a : Flt1Args) (s : State) (e : Env) : Wr :=
  let t := fmtOf a.ty
  floatForm s e t t immSext a.dm a.rm a.ftz false a.d [(a.a, a.pla)] (fun md cs => f.eval t md.ftz (cs.getD 0 0)) (fnSpread f t)

/-! ### Meanings -/

/-- R196..R198. -/
def execEx2 (a : Flt1Args) (s : State) : Host.Outcome State Fault Refusal := sfu (.ex2 a) s (fnL .ex2 a)
/-- R196..R198. -/
def execLg2 (a : Flt1Args) (s : State) : Host.Outcome State Fault Refusal := sfu (.lg2 a) s (fnL .lg2 a)
/-- R196..R198. -/
def execRcp (a : Flt1Args) (s : State) : Host.Outcome State Fault Refusal := sfu (.rcp a) s (fnL .rcp a)
/-- R196..R198. -/
def execRsq (a : Flt1Args) (s : State) : Host.Outcome State Fault Refusal := sfu (.rsq a) s (fnL .rsq a)
/-- R196..R198. -/
def execSqt (a : Flt1Args) (s : State) : Host.Outcome State Fault Refusal := sfu (.sqt a) s (fnL .sqt a)
/-- R196..R198. -/
def execSin (a : Flt1Args) (s : State) : Host.Outcome State Fault Refusal := sfu (.sin a) s (fnL .sin a)
/-- R196..R198. -/
def execCos (a : Flt1Args) (s : State) : Host.Outcome State Fault Refusal := sfu (.cos a) s (fnL .cos a)
/-- R196..R198. -/
def execTnh (a : Flt1Args) (s : State) : Host.Outcome State Fault Refusal := sfu (.tnh a) s (fnL .tnh a)
/-- R196..R198. -/
def execLgt (a : Flt1Args) (s : State) : Host.Outcome State Fault Refusal := sfu (.lgt a) s (fnL .lgt a)

end Sys2Proof.Machine
end

