-- ==== Sys2Proof/Machine/DistAlu.lean ====
section
/-! DEFINITION. Distribution words: making, reading, lineage, folding and sampling (R199..R202, R77), the random generator (R80, R81, R206, R207) and bit streams (R203..R205). -/

namespace Sys2Proof.Machine

/-! ### Statistics (R200) -/

/-- A step in FP32, RNE. -/
def step32 (ftz : Bool) (x : Num × Bool) : Num × Flags :=
  let p := Fmt.f32.result ⟨.rne, ftz, 0⟩ x
  (Fmt.f32.decode p.1, p.2)

/-- R200: the mean of four samples, in FP32. -/
def meanOf4 (ftz : Bool) (l : List Num) : Num × Flags :=
  let a := step32 ftz ((l.getD 0 .nan).add false (l.getD 1 .nan))
  let b := step32 ftz ((l.getD 2 .nan).add false (l.getD 3 .nan))
  let c := step32 ftz (a.1.add false b.1)
  let m := step32 ftz (c.1.times false (.fin false 1 (-2)))
  (m.1, a.2 ||| b.2 ||| c.2 ||| m.2)

/-- R200: the variance of four samples about m. -/
def varOf4 (ftz : Bool) (l : List Num) (m : Num) : Num × Flags :=
  let sq := l.map fun x =>
    let e := step32 ftz (x.add false m.negate)
    let q := step32 ftz (e.1.mul e.1)
    (q.1, e.2 ||| q.2)
  let at_ := fun i => (sq.getD i (.nan, 0)).1
  let a := step32 ftz ((at_ 0).add false (at_ 1))
  let b := step32 ftz ((at_ 2).add false (at_ 3))
  let q := step32 ftz (a.1.add false b.1)
  let d := step32 ftz (q.1.div (.fin false 3 0))
  (d.1, sq.foldl (fun fl x => fl ||| x.2) (a.2 ||| b.2 ||| q.2 ||| d.2))

/-- The four samples of a source, widened exactly. -/
def samplesOf (e : Env) (f : Fmt) (ftz : Bool) (o : Opnd) : List Num × Flags :=
  let l := (List.range 4).map fun i => f.source ftz (sample e f immSext false o i)
  (l.map Prod.fst, l.foldl (fun fl x => fl ||| x.2) 0)

/-- R70: α² + β², with the flags of its two roundings (R99) and INV of its inputs (R72). -/
def totalVar (ftz : Bool) (o : DOp) : Num × Flags :=
  let al := readAlpha ftz o.alpha
  let q := step32 ftz (al.1.sq, false)
  let be := readVar ftz o.beta
  let y := step32 ftz (q.1.add false be.1)
  (y.1, al.2 ||| q.2 ||| be.2 ||| y.2)

/-- R199, R200: dmake. -/
def dmakeL (a : DmakeArgs) (_ : State) (e : Env) : Wr :=
  let m := codeWord ((fmtOf a.ty).low (e.op immSext a.a))
  let b := readVar (flushes e a.ftz) (e.op immSext a.b)
  match a.dm with
  | .mv => .vec a.d [m, wordOfNum b.1] b.2
  | .mva => .vec a.d [m, 0, wordOfNum b.1, 0] b.2
  | _ => .vec a.d [m, m, m, m]

/-- R200: dmean. -/
def dmeanL (a : DistArgs) (_ : State) (e : Env) : Wr :=
  let f := fmtOf a.ty
  let ftz := flushes e a.ftz
  if a.dm = .s4 then
    let l := samplesOf e f ftz a.a
    let m := meanOf4 ftz l.1
    let p := f.put .rne ftz 0 m.1
    .vec a.d [codeWord p.1] (l.2 ||| m.2 ||| p.2)
  else .vec a.d [codeWord (f.low (e.op immSext a.a))]

/-- R200: dvar. -/
def dvarL (a : DistArgs) (_ : State) (e : Env) : Wr :=
  let f := fmtOf a.ty
  let ftz := flushes e a.ftz
  let o := dop e f immSext a.dm false a.a
  match a.dm with
  | .mv => let v := readVar ftz o.var; .vec a.d [wordOfNum v.1] v.2
  | .mva => let v := totalVar ftz o; .vec a.d [wordOfNum v.1] v.2
  | _ =>
      let l := samplesOf e f ftz a.a
      let m := meanOf4 ftz l.1
      let v := varOf4 ftz l.1 m.1
      .vec a.d [wordOfNum v.1] (l.2 ||| m.2 ||| v.2)

/-- R77, R78: dlin with the tag of its group's issue; a NaN mean makes α and β² the canonical NaN. -/
def dlinL (a : DistArgs) (_ : State) (e : Env) : Wr :=
  let f := fmtOf a.ty
  let ftz := flushes e a.ftz
  let o := dop e f immSext .mv false a.a
  let v := readVar ftz o.var
  let tag : Word := e.g.lineage.setWidth 32
  if (f.decode o.mean).isNan then .vec a.d [codeWord o.mean, nan32, nan32, tag] v.2
  else .vec a.d [codeWord o.mean, wordOfNum (roundV ftz v.1.sqrt.1), 0, tag] v.2

/-- R77: the counter of every group with an active thread goes on, from 0xFFFF to 1. -/
def lineageNext (x : BitVec 16) : BitVec 16 := if x = 0xFFFF then 1 else x + 1
def dlinBody (a : DistArgs) (is : Issued) (s : State) : State :=
  let gs := (is.active.map fun t => (s.thread t).group).dedup
  gs.foldl (fun s g => s.onGroup g fun x => { x with lineage := lineageNext x.lineage }) (lanesBody (.dlin a) (dlinL a) is s)

/-- R200: dfold. -/
def dfoldL (a : DistArgs) (_ : State) (e : Env) : Wr :=
  let f := fmtOf a.ty
  let ftz := flushes e a.ftz
  let l := samplesOf e f ftz a.a
  let m := meanOf4 ftz l.1
  let v := varOf4 ftz l.1 m.1
  let p := f.put .rne ftz 0 m.1
  .vec a.d [codeWord p.1, wordOfNum v.1] (l.2 ||| m.2 ||| v.2 ||| p.2)

/-! ### Gaussian values (R201, R202) -/

def twoPiC : Word := 0x40C9_0FDB
def minusTwoC : Word := 0xC000_0000

/-- n × 2^−24 as FP32; exact for n of 24 bits. -/
def unit24 (n : Nat) : Word := (rneF32 (.fin false n (-24))).1

/-- R201: G. -/
def gaussG (xa xb : Nat) : Word × Word :=
  let ua := unit24 (2 * (xa / 2 ^ 9) + 1)
  let ub := unit24 (xb / 2 ^ 8)
  let rr := fnR .sqt (mulR minusTwoC (mulR ln2c (fnR .lg2 ua)))
  let th := mulR twoPiC ub
  (mulR rr (fnR .cos th), mulR rr (fnR .sin th))

/-- The four Gaussian values of a draw. -/
def gaussAll (x : List Nat) : List Word :=
  let p := gaussG (x.getD 0 0) (x.getD 1 0)
  let q := gaussG (x.getD 2 0) (x.getD 3 0)
  [p.1, p.2, q.1, q.2]

/-- R202: round_T(μ + round(σ × z)), with the flags of the two roundings. -/
def gaussStep (f : Fmt) (ftz : Bool) (mu sigma : Num) (z : Word) : Nat × Flags :=
  let p := step32 ftz (sigma.times false (f32Val z))
  let r := f.result ⟨.rne, ftz, 0⟩ (mu.add false p.1)
  (r.1, p.2 ||| r.2)

/-- R202: dspread. -/
def dspreadL (a : DdrawArgs) (s : State) (e : Env) : Wr :=
  let f := fmtOf a.ty
  let ftz := flushes e a.ftz
  let o := dop e f immSext .mv false a.a
  let v := readVar ftz o.var
  let sg := step32 ftz v.1.sqrt
  let mu := f.source ftz o.mean
  let rs := (gaussAll (drawWords s e a.stream.toNat 0)).map (gaussStep f ftz mu.1 sg.1)
  .vec a.d (rs.map fun r => codeWord r.1) (v.2 ||| sg.2 ||| mu.2 ||| orAll rs) 1

/-- R202: dsamp. -/
def dsampL (a : DdrawArgs) (s : State) (e : Env) : Wr :=
  let f := fmtOf a.ty
  let ftz := flushes e a.ftz
  let x := drawWords s e a.stream.toNat 0
  match a.dm with
  | .s4 => .vec a.d [codeWord (sample e f immSext false a.a (x.getD 0 0 % 4))] 0 1
  | dm =>
      let o := dop e f immSext dm false a.a
      let v := if dm = .mva then totalVar ftz o else readVar ftz o.var
      let inv := if dm = .mva then (readAlpha ftz o.alpha).2 ||| (readVar ftz o.beta).2 else v.2
      let sg := step32 ftz v.1.sqrt
      let mu := f.source ftz o.mean
      let r := gaussStep f ftz mu.1 sg.1 (gaussG (x.getD 0 0) (x.getD 1 0)).1
      .vec a.d [codeWord r.1] (inv ||| sg.2 ||| mu.2 ||| r.2) 1

/-! ### Draws (R206, R207) -/

/-- R207: `n` values made from one draw's words. -/
def rndL (f : List Nat → List Word) (a : RndArgs) (s : State) (e : Env) : Wr :=
  .dst a.d ((f (drawWords s e a.stream.toNat 0)).take (if a.x4 then 4 else 1)) 0 1
def rawWords (x : List Nat) : List Word := x.map (BitVec.ofNat 32)
def unitWords (x : List Nat) : List Word := x.map fun n => unit24 (n / 2 ^ 8)

/-- R206: the key of the group and the counters of the active threads. -/
def rngseedBody (a : RngseedArgs) (is : Issued) (s : State) : State :=
  match is.active with
  | [] => s
  | t :: _ =>
      let g := s.groupOf t
      let key := pair (g.k.findD a.k.toNat 0) (g.k.findD (a.k.toNat + 1) 0)
      (s.onGroup (s.thread t).group fun x => { x with key := key }).onThreads is.active fun _ th => { th with draws := 0 }

/-! ### Bit streams (R203..R205) -/

/-- R203: a reader: its buffer, valid bits and refill index. -/
structure BitReader where
  buf : Nat
  n : Nat
  idx : Nat
deriving DecidableEq, Repr

def readerOf (e : Env) (q : BitVec 8) : BitReader :=
  let r := fun i => (e.v (q.toNat + i)).toNat
  ⟨r 0 + 2 ^ 32 * r 1, min (r 2) 64, r 3⟩
def readerWords (b : BitReader) : List Word :=
  [BitVec.ofNat 32 b.buf, BitVec.ofNat 32 (b.buf / 2 ^ 32), BitVec.ofNat 32 b.n, BitVec.ofNat 32 b.idx]
/-- The registers of a reader written. -/
def readerWr (q : BitVec 8) (b : BitReader) : Wr := .vec q (readerWords b)

/-- R205: the field of w bits, and the reader after it. -/
def takeBits (b : BitReader) (refill w : Nat) : Nat × BitReader :=
  let more := decide (b.n < w)
  let x := if more then b.buf + refill * 2 ^ b.n else b.buf
  let n := if more then b.n + 64 else b.n
  (x % 2 ^ w, ⟨x / 2 ^ w % 2 ^ 64, n - w, if more then (b.idx + 1) % 2 ^ 32 else b.idx⟩)

/-- The refill pair and the width an instruction names. -/
def takeFor (e : Env) (q : BitVec 8) (r : Opnd) (w : Reg) : Nat × Nat × BitReader :=
  let n := min (e.cop w).toNat 32
  (n, takeBits (readerOf e q) (pair (e.op immSext r) (e.op immSext r 1)).toNat n)

/-- R205: a field as the type extends it. -/
def fieldWord (sgn : Bool) (w x : Nat) : Word :=
  if w = 0 then 0 else if sgn && x.testBit (w - 1) then BitVec.ofInt 32 ((x : Int) - 2 ^ w) else BitVec.ofNat 32 x

def bsinitL (a : BsinitArgs) (_ : State) (e : Env) : Wr :=
  let o := (e.op immSext a.b).toNat % 64
  readerWr a.d ⟨(pair (e.v a.a.toNat) (e.v (a.a.toNat + 1))).toNat / 2 ^ o, 64 - o, 1⟩
/-- R205: bsread writes the field and the reader; where they overlap the reader is written last. -/
def bsreadL (a : BsreadArgs) (_ : State) (e : Env) : Wr :=
  let x := takeFor e a.a a.r a.w
  let d := Wr.dst a.d [fieldWord a.sgn x.1 x.2.1]
  { d with regs := d.regs ++ (readerWr a.a x.2.2).regs }
def bspeekL (a : BsreadArgs) (_ : State) (e : Env) : Wr :=
  let x := takeFor e a.a a.r a.w
  .dst a.d [fieldWord a.sgn x.1 x.2.1]
def bsskipL (a : BsskipArgs) (_ : State) (e : Env) : Wr := readerWr a.a (takeFor e a.a a.r a.w).2.2
def bsalignL (a : BsalignArgs) (_ : State) (e : Env) : Wr :=
  let b := readerOf e a.a
  let drop := b.n % 2 ^ a.k.toNat
  readerWr a.a ⟨b.buf / 2 ^ drop, b.n - drop, b.idx⟩

/-! ### Meanings -/

/-- R199, R200. -/
def execDmake (a : DmakeArgs) (s : State) : Host.Outcome State Fault Refusal := alu (.dmake a) s (dmakeL a)
/-- R200. -/
def execDmean (a : DistArgs) (s : State) : Host.Outcome State Fault Refusal := alu (.dmean a) s (dmeanL a)
/-- R200. -/
def execDvar (a : DistArgs) (s : State) : Host.Outcome State Fault Refusal := alu (.dvar a) s (dvarL a)
/-- R77, R200. -/
def execDlin (a : DistArgs) (s : State) : Host.Outcome State Fault Refusal := word (.dlin a) s (dlinBody a)
/-- R200. -/
def execDfold (a : DistArgs) (s : State) : Host.Outcome State Fault Refusal := alu (.dfold a) s (dfoldL a)
/-- R202. -/
def execDspread (a : DdrawArgs) (s : State) : Host.Outcome State Fault Refusal := alu (.dspread a) s (dspreadL a)
/-- R202. -/
def execDsamp (a : DdrawArgs) (s : State) : Host.Outcome State Fault Refusal := alu (.dsamp a) s (dsampL a)
/-- R205. -/
def execBsinit (a : BsinitArgs) (s : State) : Host.Outcome State Fault Refusal := alu (.bsinit a) s (bsinitL a)
/-- R205. -/
def execBsread (a : BsreadArgs) (s : State) : Host.Outcome State Fault Refusal := alu (.bsread a) s (bsreadL a)
/-- R205. -/
def execBspeek (a : BsreadArgs) (s : State) : Host.Outcome State Fault Refusal := alu (.bspeek a) s (bspeekL a)
/-- R205. -/
def execBsskip (a : BsskipArgs) (s : State) : Host.Outcome State Fault Refusal := alu (.bsskip a) s (bsskipL a)
/-- R205. -/
def execBsalign (a : BsalignArgs) (s : State) : Host.Outcome State Fault Refusal := alu (.bsalign a) s (bsalignL a)
/-- R206. -/
def execRngseed (a : RngseedArgs) (s : State) : Host.Outcome State Fault Refusal := word (.rngseed a) s (rngseedBody a)
/-- R207. -/
def execRndU32 (a : RndArgs) (s : State) : Host.Outcome State Fault Refusal := alu (.rndU32 a) s (rndL rawWords a)
/-- R207. -/
def execRndF32 (a : RndArgs) (s : State) : Host.Outcome State Fault Refusal := alu (.rndF32 a) s (rndL unitWords a)
/-- R207. -/
def execRndGauss (a : RndArgs) (s : State) : Host.Outcome State Fault Refusal := alu (.rndGauss a) s (rndL gaussAll a)

end Sys2Proof.Machine
end

