-- ==== Sys2Proof/Machine/Lane.lean ====
section
/-! DEFINITION. Lane and bundle operations over a mask, and rnd.cat: the gather of their participants (R46, R209), the moves, polls, folds, prefixes and matches (R210..R213), the categorical draw (R208). -/

namespace Sys2Proof.Machine

/-! ### The participants (R46, R209) -/

/-- A word over participants: `f` says what it gives each contributing participant. The threads of an issue are whole
gathers, and lone threads (R46). -/
def gatherBody (i : Instr) (f : State → List Env → List (Nat × Wr)) (is : Issued) (s : State) : State :=
  let rs := (gatherSets s is.pc is.threads).flatMap fun ps => f s (ps.map (envOf s))
  let s := match is.threads with
    | [] => s
    | t :: _ => s.onGroup (s.thread t).group fun x =>
        { x with gathers := x.gathers.filter fun y => !(y.pc == is.pc && y.parts.any is.threads.contains && y.parts.all y.arrived.contains) }
  land i rs s

/-- A lane operation. -/
def laneOp (i : Instr) (s : State) (f : State → List Env → List (Nat × Wr)) : Host.Outcome State Fault Refusal :=
  word i s (gatherBody i f)

/-- The participants whose guard is true. -/
def contributing (g : Guard) (ps : List Env) : List Env := ps.filter fun e => guardHolds g e.th

/-! ### Moves between lanes (R210) -/

/-- R210: the source lane. -/
inductive LaneMove
  | idx | rise | fall | flip
deriving DecidableEq, Repr

def LaneMove.lane (k : LaneMove) (l : Nat) (b : Word) : Int :=
  match k with
  | .idx => b.toNat
  | .rise => (l : Int) - b.toNat
  | .fall => (l : Int) + b.toNat
  | .flip => (l ^^^ b.toNat : Nat)

def laneMove (k : LaneMove) (a : LaneArgs) (_ : State) (ps : List Env) : List (Nat × Wr) :=
  (contributing a.g ps).map fun e =>
    let j := k.lane e.th.lane (e.op immSext a.b)
    let j := if a.edge = .wr then j % 32 else j
    let own := if a.edge = .zf then 0 else e.op immSext a.a
    (e.t, .dst a.d [((ps.find? fun (o : Env) => (o.th.lane : Int) == j).map fun o => o.op immSext a.a).getD own])

/-! ### Polls and matches (R211, R213) -/

def pollBits (g : Guard) (pa : BitVec 3) (ps : List Env) : List (Nat × Bool) :=
  (contributing g ps).map fun e => (e.th.lane, e.p pa)
def pollAnyL (a : PollArgs) (_ : State) (ps : List Env) : List (Nat × Wr) :=
  (contributing a.g ps).map fun e => (e.t, .pred a.pd ((pollBits a.g a.pa ps).any Prod.snd))
def pollAllL (a : PollArgs) (_ : State) (ps : List Env) : List (Nat × Wr) :=
  (contributing a.g ps).map fun e => (e.t, .pred a.pd ((pollBits a.g a.pa ps).all Prod.snd))
/-- A word with the bits of the lanes that satisfy a test. -/
def laneBits (l : List (Nat × Bool)) : Word := l.foldl (fun w x => if x.2 then w ||| (1#32 <<< x.1) else w) 0
def pollMapL (a : PollMapArgs) (_ : State) (ps : List Env) : List (Nat × Wr) :=
  (contributing a.g ps).map fun e => (e.t, .dst a.d [laneBits (pollBits a.g a.pa ps)])
def peersL (a : PeersArgs) (_ : State) (ps : List Env) : List (Nat × Wr) :=
  let cs := contributing a.g ps
  cs.map fun e => (e.t, .dst a.d [laneBits (cs.map fun o => (o.th.lane, o.op immSext a.a == e.op immSext a.a))])

/-! ### Folds and prefixes (R212) -/

/-- R212: the identity of an operator. -/
def foldUnit (op : FoldOp) (ty : Ty) : Word :=
  match op with
  | .add | .or | .xor => 0
  | .and => 0xFFFF_FFFF
  | .min => if ty = .f32 then 0x7F80_0000 else if ty = .i32 then 0x7FFF_FFFF else 0xFFFF_FFFF
  | .max => if ty = .f32 then 0xFF80_0000 else if ty = .i32 then 0x8000_0000 else 0

/-- One combination, with its flags. -/
def foldStep (op : FoldOp) (ty : Ty) (ftz : Bool) (x y : Word) : Word × Flags :=
  match op, ty with
  | .add, .f32 => onF32 (Fmt.f32.add ⟨.rne, ftz, 0⟩ x.toNat y.toNat)
  | .min, .f32 => onF32 (Fmt.f32.minMax false ftz x.toNat y.toNat)
  | .max, .f32 => onF32 (Fmt.f32.minMax true ftz x.toNat y.toNat)
  | .add, _ => (x + y, 0)
  | .min, t => (extTo t (smaller (intVal t x) (intVal t y)), 0)
  | .max, t => (extTo t (larger (intVal t x) (intVal t y)), 0)
  | .and, _ => (x &&& y, 0)
  | .or, _ => (x ||| y, 0)
  | .xor, _ => (x ^^^ y, 0)

/-- The running combination: by contributing participant, the value before and after its own, and the last value
with every flag. -/
def foldRun (a : FoldArgs) (cs : List Env) : List (Nat × Word × Word) × Word × Flags :=
  cs.foldl (fun acc e =>
    let r := foldStep a.op a.ty (flushes e false) acc.2.1 (e.op immSext a.a)
    (acc.1 ++ [(e.t, acc.2.1, r.1)], r.1, acc.2.2 ||| r.2)) ([], foldUnit a.op a.ty, 0)

def foldL (a : FoldArgs) (_ : State) (ps : List Env) : List (Nat × Wr) :=
  let r := foldRun a (contributing a.g ps)
  r.1.map fun x => (x.1, .dst a.d [r.2.1] r.2.2)
def pfxL (a : FoldArgs) (_ : State) (ps : List Env) : List (Nat × Wr) :=
  let r := foldRun a (contributing a.g ps)
  r.1.map fun x => (x.1, .dst a.d [if a.exc then x.2.1 else x.2.2] r.2.2)

/-! ### The categorical draw (R208) -/

/-- A weight as it is read. -/
def catWeight (w : Word) : Num × Flags :=
  match f32Val w with
  | .nan => (.zero false, Flags.inv)
  | x => if x.below0 then (.zero false, Flags.inv) else (x, 0)

/-- The category and the flags, from the weights by lane and the draw's x0. Nothing here is flushed, whatever
%fsr.FTZ holds: R208 names no flush (DESIGN CHOICE, log entry 63). -/
def catPick (ws : List (Nat × Num)) (x0 : Nat) : Word × Flags :=
  match ws.find? fun w => w.2.isInf with
  | some w => (BitVec.ofNat 32 w.1, 0)
  | none =>
      let cum := ws.foldl (fun (l : List (Nat × Num) × Num) w =>
        let c := roundV false (l.2.add false w.2).1
        (l.1 ++ [(w.1, c)], c)) ([], Num.zero false)
      if cum.2.isZero then (0xFFFF_FFFF, 0)
      else if cum.2.isInf then
        (BitVec.ofNat 32 (((cum.1.find? fun c => c.2.isInf).map Prod.fst).getD 0), Flags.of)
      else
        let v := roundV false ((f32Val (unit24 (x0 / 2 ^ 8))).mul cum.2).1
        let first := (cum.1.find? fun c => v.lt c.2).map Prod.fst
        let last := ((ws.reverse.find? fun w => !w.2.isZero).map Prod.fst).getD 0
        (BitVec.ofNat 32 (first.getD last), 0)

def rndCatL (a : RndCatArgs) (s : State) (ps : List Env) : List (Nat × Wr) :=
  let cs := contributing a.g ps
  match cs with
  | [] => []
  | low :: _ =>
      let ws := cs.map fun e => (e.th.lane, catWeight (e.op immSext a.a))
      let inv := ws.foldl (fun fl w => fl ||| w.2.2) (0 : Flags)
      let k := catPick (ws.map fun w => (w.1, w.2.1)) ((drawWords s low a.stream.toNat 0).getD 0 0)
      cs.map fun e => (e.t, .dst a.d [k.1] (k.2 ||| inv) (if e.t = low.t then 1 else 0))

/-! ### Meanings -/

/-- R208. -/
def execRndCat (a : RndCatArgs) (s : State) : Host.Outcome State Fault Refusal := laneOp (.rndCat a) s (rndCatL a)
/-- R210. -/
def execLaneIdx (a : LaneArgs) (s : State) : Host.Outcome State Fault Refusal := laneOp (.laneIdx a) s (laneMove .idx a)
/-- R210. -/
def execLaneRise (a : LaneArgs) (s : State) : Host.Outcome State Fault Refusal := laneOp (.laneRise a) s (laneMove .rise a)
/-- R210. -/
def execLaneFall (a : LaneArgs) (s : State) : Host.Outcome State Fault Refusal := laneOp (.laneFall a) s (laneMove .fall a)
/-- R210. -/
def execLaneFlip (a : LaneArgs) (s : State) : Host.Outcome State Fault Refusal := laneOp (.laneFlip a) s (laneMove .flip a)
/-- R211. -/
def execPollAny (a : PollArgs) (s : State) : Host.Outcome State Fault Refusal := laneOp (.pollAny a) s (pollAnyL a)
/-- R211. -/
def execPollAll (a : PollArgs) (s : State) : Host.Outcome State Fault Refusal := laneOp (.pollAll a) s (pollAllL a)
/-- R211. -/
def execPollMap (a : PollMapArgs) (s : State) : Host.Outcome State Fault Refusal := laneOp (.pollMap a) s (pollMapL a)
/-- R212. -/
def execFold (a : FoldArgs) (s : State) : Host.Outcome State Fault Refusal := laneOp (.fold a) s (foldL a)
/-- R212. -/
def execPfx (a : FoldArgs) (s : State) : Host.Outcome State Fault Refusal := laneOp (.pfx a) s (pfxL a)
/-- R213. -/
def execPeers (a : PeersArgs) (s : State) : Host.Outcome State Fault Refusal := laneOp (.peers a) s (peersL a)

end Sys2Proof.Machine
end

