-- ==== Sys2Proof/Machine/Moves.lean ====
section
/-! DEFINITION. Moves (R214..R216): registers, immediates, uniforms, special registers (R15, R41, R63..R65), %fsr (R67, R68) and the predicates. -/

namespace Sys2Proof.Machine

/-! ### Plain moves -/

def movL (a : MovArgs) (_ : State) (e : Env) : Wr := .dst a.d (groupOf a.dm immSext e a.a)
def moviL (a : MoviArgs) (_ : State) (_ : Env) : Wr := .dst a.d [immOf a.ty a.imm]
/-- R215: the upper half replaced; a store port has no lower half to keep. -/
def moviHiL (a : MoviHiArgs) (_ : State) (e : Env) : Wr :=
  let low : HalfWord := match a.d with
    | .v n => (e.v n.toNat).setWidth 16
    | .q _ => 0
  .dst a.d [a.imm ++ low]

/-- R32, R216: the value of the lowest-numbered active thread of the issue. -/
def movkBody (a : MovkArgs) (is : Issued) (s : State) : State :=
  match is.active with
  | [] => s
  | t :: _ =>
      let x := (envOf s t).cop a.a
      setK (land (.movk a) (is.active.map fun u => (u, Wr.none)) s) (s.thread t).group a.k.toNat x

/-! ### Predicates -/

def movpReadL (a : MovpArgs) (_ : State) (e : Env) : Wr := .dst a.d [(1#1 ++ e.th.p).setWidth 32]
def movpWriteL (a : MovWriteArgs) (_ : State) (e : Env) : Wr :=
  let x := e.cop a.a
  { Wr.none with preds := (List.range 7).map fun i => (i, x.getLsbD i) }

/-! ### Special registers -/

/-- R65, R376: clk until the next window of bank group `g` of a die, 0 while one is in progress. -/
def loftWindow (s : State) (die g : Nat) : Nat :=
  if s.isUnderstudy then 20000 else
  let start := (sysGet s RegNo.loftRef die).toNat + 1000 * g
  if s.ns < start then ((start - s.ns) * 5 + 3) / 4
  else
    let ph := (s.ns - start) % 16000
    if ph < 400 then 0 else ((16000 - ph) * 5 + 3) / 4

/-- R63: what a special register reads as. -/
def specialVal (s : State) (e : Env) (sr : Special) : Word :=
  let w := BitVec.ofNat 32
  let b := s.block e.g.block
  let p := (s.launch b.launch).pkt
  let core := e.g.core
  match sr with
  | .lane => w e.th.lane
  | .grp => w e.g.slot
  | .core => w core
  | .cluster => w (clusterOf core)
  | .die => w (dieOf core)
  | .tidX => w (e.th.lin % p.bx)
  | .tidY => w (e.th.lin / p.bx % p.by_)
  | .tidZ => w (e.th.lin / (p.bx * p.by_))
  | .tlin => w e.th.lin
  | .ntidX => w p.bx
  | .ntidY => w p.by_
  | .ntidZ => w p.bz
  | .bidX => w (b.lin % p.gx)
  | .bidY => w (b.lin / p.gx % p.gy)
  | .bidZ => w (b.lin / (p.gx * p.gy))
  | .nbidX => w p.gx
  | .nbidY => w p.gy
  | .nbidZ => w p.gz
  | .stage => w b.stage
  | .nstage => w p.stages
  | .fsr => e.g.fsr
  | .lintag => e.g.lineage.setWidth 32
  | .rngcntLo => e.th.draws.setWidth 32
  | .rngcntHi => (e.th.draws >>> 32).setWidth 32
  | .clkLo => w s.clk
  | .clkHi => e.th.clkHi.getD (w (s.clk / 2 ^ 32))
  | .nsLo => w s.ns
  | .nsHi => e.th.nsHi.getD (w (s.ns / 2 ^ 32))
  | .cycLo => w (s.cyc (clusterOf core))
  | .cycHi => e.th.cycHi.getD (w (s.cyc (clusterOf core) / 2 ^ 32))
  | .loftwin g => w (loftWindow s (dieOf core) g.toNat)

/-- R64: a low half latches its upper half; a high half uses up what was latched. -/
def latchHalf (s : State) (e : Env) (sr : Special) (th : Thread) : Thread :=
  let hi := fun (n : Nat) => some (BitVec.ofNat 32 (n / 2 ^ 32))
  match sr with
  | .clkLo => { th with clkHi := hi s.clk }
  | .clkHi => { th with clkHi := none }
  | .nsLo => { th with nsHi := hi s.ns }
  | .nsHi => { th with nsHi := none }
  | .cycLo => { th with cycHi := hi (s.cyc (clusterOf e.g.core)) }
  | .cycHi => { th with cycHi := none }
  | _ => th

/-- R63, R64: a read of a special register. -/
def movsReadBody (a : MovsArgs) (is : Issued) (s : State) : State :=
  let s' := land (.movsRead a) (is.active.map fun t => (t, .dst a.d [specialVal s (envOf s t) a.sr])) s
  s'.onThreads is.active fun t th => latchHalf s (envOf s t) a.sr th

/-- R66, R68: what a write leaves in %fsr: no reserved bit, no reserved rounding mode. -/
def fsrStored (x : Word) : Word :=
  let y := x &&& 0xF1FF
  if bits x.toNat 7 5 ≥ 5 then y &&& ~~~0xE0 else y

/-- R68: each group with an active thread takes the value of its lowest-numbered one. -/
def movsWriteBody (a : MovWriteArgs) (is : Issued) (s : State) : State :=
  let gs := (is.active.map fun t => (s.thread t).group).dedup
  let ws := gs.filterMap fun g => (is.active.find? fun t => (s.thread t).group == g).map fun t => (g, (envOf s t).cop a.a)
  let s := land (.movsWriteFsr a) (is.active.map fun u => (u, Wr.none)) s
  ws.foldl (fun s w => s.onGroup w.1 fun x => { x with fsr := fsrStored w.2 }) s

/-! ### Meanings -/

/-- R215. -/
def execMov (a : MovArgs) (s : State) : Host.Outcome State Fault Refusal := alu (.mov a) s (movL a)
/-- R215. -/
def execMovi (a : MoviArgs) (s : State) : Host.Outcome State Fault Refusal := alu (.movi a) s (moviL a)
/-- R215. -/
def execMoviHi (a : MoviHiArgs) (s : State) : Host.Outcome State Fault Refusal := alu (.moviHi a) s (moviHiL a)
/-- R215, R216. -/
def execMovk (a : MovkArgs) (s : State) : Host.Outcome State Fault Refusal := word (.movk a) s (movkBody a)
/-- R63..R65, R67. -/
def execMovsRead (a : MovsArgs) (s : State) : Host.Outcome State Fault Refusal := word (.movsRead a) s (movsReadBody a)
/-- R68. -/
def execMovsWriteFsr (a : MovWriteArgs) (s : State) : Host.Outcome State Fault Refusal := word (.movsWriteFsr a) s (movsWriteBody a)
/-- R215. -/
def execMovpRead (a : MovpArgs) (s : State) : Host.Outcome State Fault Refusal := alu (.movpRead a) s (movpReadL a)
/-- R215. -/
def execMovpWrite (a : MovWriteArgs) (s : State) : Host.Outcome State Fault Refusal := alu (.movpWrite a) s (movpWriteL a)

end Sys2Proof.Machine
end

