-- ==== Sys2Proof/Machine/Aperture.lean ====
section
/-! DEFINITION. The debug aperture (R83, R334): what a port selects, and reading and writing it. -/

namespace Sys2Proof.Machine

/-- R331: a thread behind either curtain. -/
def isCurtained (th : Thread) : Bool := (th.tc || th.dc) && th.held != .exited

/-- The CURTAINED thread of the partition that a port's handle names. -/
def aimedAt (s : State) (p : Nat) (h : Word) : Option Nat :=
  match s.byHandle h with
  | some t => if s.partOf t == p && isCurtained (s.thread t) then some t else none
  | none => none

/-- R334: is the index one of the kind's? `n` the thread's registers. -/
def kindHas (n kind index : Nat) : Bool :=
  match kind with
  | 0 => decide (index < n)
  | 1 => index == 0
  | 2 => decide (index < 1024)
  | 3 => decide (index < 12)
  | 4 | 5 => decide (index < 16)
  | 6 => decide (index < 7)
  | _ => false

/-- R27: held states as the aperture shows them. -/
def heldCode : Held → Nat
  | .ready => 0
  | .stalled => 1
  | .waiting => 2
  | .exited => 5

/-- R334: the selected resource. -/
def resourceGet (s : State) (t kind index : Nat) : Dword :=
  let th := s.thread t
  let g := s.groupOf t
  let b := s.blockIdOf t
  let w := fun (x : Nat) => BitVec.ofNat 64 x
  match kind, index with
  | 0, i => (th.v.findD i 0).setWidth 64
  | 1, _ => th.p.setWidth 64
  | 2, i => (g.k.findD i 0).setWidth 64
  | 3, i => (maskOf g i).a ++ (maskOf g i).m
  | 4, i =>
      let x := cvOf s b i
      w (x.signed + x.need * 2 ^ 15 + (x.entry.getD 0) * 2 ^ 30 + CvState.code x.state * 2 ^ 35 + x.code * 2 ^ 38 + x.phase.toNat * 2 ^ 42)
  | 5, i =>
      let x := (s.block b).bars.findD i .zero
      w (x.arrivals + x.count * 2 ^ 15)
  | 6, 0 => th.pc
  | 6, 1 => w (heldCode th.held + (if th.tc then 8 else 0) + (if th.dc then 16 else 0) + th.cause.toNat * 2 ^ 8)
  | 6, 2 => g.fsr.setWidth 64
  | 6, 3 => th.draws.setWidth 64
  | 6, 4 => g.key
  | 6, 5 => g.lineage.setWidth 64
  | 6, 6 => w (if (s.block b).signal then 1 else 0)
  | _, _ => 0

/-- R83: a debugger's write comes after the thread's earlier results: none of those in flight reaches the
register any more. -/
def Pend.without (p : Pend) (pred uniform : Bool) (r : Nat → Bool) : Pend :=
  if p.pred != pred || p.uniform != uniform || p.port.isSome then p
  else { p with dst := p.dst.map fun d => if r d then 1024 else d }

/-- R334, R83: the selected resource set. -/
def resourceSet (s : State) (t kind index : Nat) (x : Dword) : State :=
  let g := (s.thread t).group
  let w : Word := x.setWidth 32
  match kind, index with
  | 0, i => s.onThread t fun th => { th with v := th.v.set i w, pend := th.pend.map fun p => p.without false false (· == i) }
  | 1, _ => s.onThread t fun th => { th with p := x.setWidth 7, pend := th.pend.map fun p => p.without true false fun _ => true }
  | 2, i => (setK s g i w).onThreads (s.groupThreads g) fun _ th => { th with pend := th.pend.map fun p => p.without false true (· == i) }
  | 3, i =>
      let m := (s.live g).foldl (fun (m : Word) u => m ||| (1#32 <<< (s.thread u).lane)) 0
      setMask s g i ⟨w &&& m, (x >>> 32).setWidth 32 &&& w &&& m⟩
  | 6, 0 => s.onThread t fun th => { th with pc := x }
  | 6, 2 => (s.onGroup g fun y => { y with fsr := fsrStored w }).onThread t fun th =>
      { th with pend := th.pend.map fun p => { p with flags := 0 } }
  | 6, 3 => s.onThread t fun th => { th with draws := x.setWidth 48 }
  | 6, 4 => s.onGroup g fun y => { y with key := x }
  | 6, 5 => s.onGroup g fun y => { y with lineage := x.setWidth 16 }
  | _, _ => s

/-- What port `n` of a partition aims at, where it aims at something. -/
def aperture (s : State) (p n : Nat) : Option (Nat × Nat × Nat) :=
  let sel := (sysGet s (RegNo.dbgSel n) p).toNat
  match aimedAt s p (BitVec.ofNat 32 (bits sel 63 32)) with
  | some t => if kindHas (s.thread t).nregs (bits sel 31 28) (bits sel 11 0) then some (t, bits sel 31 28, bits sel 11 0) else none
  | none => none

/-- DBG_SELn.ERR. -/
def setSelErr (s : State) (p n : Nat) (e : Bool) : State := sysPutBits s (RegNo.dbgSel n) p 27 27 (if e then 1 else 0)

/-- R334: a read of DBG_DATAn. -/
def dataRead (s : State) (p n : Nat) : Dword × State :=
  match aperture s p n with
  | some (t, k, i) => (resourceGet s t k i, setSelErr s p n false)
  | none => (0, setSelErr s p n true)

/-- R334: a write of DBG_DATAn. -/
def dataWrite (s : State) (p n : Nat) (x : Dword) : State :=
  match aperture s p n with
  | some (t, k, i) => resourceSet (setSelErr s p n false) t k i x
  | none => setSelErr s p n true

/-- R334: the checks of R43 that a debugger's write of a mask leaves due run as a thread of the group resumes. -/
def resumeChecks (s : State) (t : Nat) : State :=
  (List.range 12).foldl (fun s n => checkMask s (s.thread t).group n) s

end Sys2Proof.Machine
end

