-- ==== Sys2Proof/Decode.lean ====
section
/-! DEFINITION. The four classes of instruction words (R145..R167) and the prompter's program words (R294,
R296): the decoder, total and rejecting by name, and after it the encoder, both from the same tables. -/

namespace Sys2Proof

/-- Why a word is an illegal encoding (R163). -/
inductive Reject
  /-- an unassigned opcode -/
  | opcode
  /-- an I-word whose opcode has no I-form, or an F-word whose opcode has only one -/
  | form
  /-- a reserved or unlisted element type, rounding mode, load type, condition or selector -/
  | code
  /-- a field that must be 0 -/
  | zero
  /-- an operand, group, port, mask or modifier the entry does not allow, or a pairing rule -/
  | operand
  /-- a word of the wrong length -/
  | length
deriving DecidableEq, Repr

/-! ### Code tables -/

/-- R152: element types by their 5-bit code. -/
def Ty.ofCode (c : BitVec 5) : Option Ty :=
  match c.toNat with
  | 0x00 => some .u32 | 0x01 => some .i32 | 0x02 => some .u16 | 0x03 => some .i16
  | 0x04 => some .u8 | 0x05 => some .i8 | 0x06 => some .b32 | 0x07 => some .f64
  | 0x08 => some .f32 | 0x09 => some .f16 | 0x0A => some .bf16 | 0x0B => some .f16x2
  | 0x0C => some .bf16x2 | 0x0D => some .e4m3x4 | 0x0E => some .e5m2x4 | 0x0F => some .e2m1x8
  | 0x10 => some .e4m3 | 0x11 => some .e5m2 | 0x12 => some .e3m2 | 0x13 => some .e2m3
  | 0x14 => some .e2m1 | 0x15 => some .vf8 | 0x16 => some .vf4 | 0x17 => some .e3m2x4
  | 0x18 => some .e2m3x4 | _ => none

/-- R152. -/
def Ty.code : Ty → BitVec 5
  | .u32 => 0x00 | .i32 => 0x01 | .u16 => 0x02 | .i16 => 0x03
  | .u8 => 0x04 | .i8 => 0x05 | .b32 => 0x06 | .f64 => 0x07
  | .f32 => 0x08 | .f16 => 0x09 | .bf16 => 0x0A | .f16x2 => 0x0B
  | .bf16x2 => 0x0C | .e4m3x4 => 0x0D | .e5m2x4 => 0x0E | .e2m1x8 => 0x0F
  | .e4m3 => 0x10 | .e5m2 => 0x11 | .e3m2 => 0x12 | .e2m3 => 0x13
  | .e2m1 => 0x14 | .vf8 => 0x15 | .vf4 => 0x16 | .e3m2x4 => 0x17
  | .e2m3x4 => 0x18

/-- R70. -/
def DM.ofCode (c : BitVec 2) : DM :=
  match c.toNat with
  | 0 => .plain | 1 => .mv | 2 => .mva | _ => .s4

/-- R70. -/
def DM.code : DM → BitVec 2
  | .plain => 0 | .mv => 1 | .mva => 2 | .s4 => 3

/-- R151. -/
def RM.ofCode (c : BitVec 3) : Option RM :=
  match c.toNat with
  | 0 => some .rne | 1 => some .rz | 2 => some .rd | 3 => some .ru | 4 => some .sr | 7 => some .dyn | _ => none

/-- R151. -/
def RM.code : RM → BitVec 3
  | .rne => 0 | .rz => 1 | .rd => 2 | .ru => 3 | .sr => 4 | .dyn => 7

/-- R167. -/
def Cond.ofCode (c : BitVec 4) : Option Cond :=
  match c.toNat with
  | 0 => some .eq | 1 => some .ne | 2 => some .lt | 3 => some .le | 4 => some .gt | 5 => some .ge
  | 8 => some .equ | 9 => some .neu | 10 => some .ltu | 11 => some .leu | 12 => some .gtu | 13 => some .geu
  | 14 => some .num | 15 => some .nan | _ => none

/-- R167. -/
def Cond.code : Cond → BitVec 4
  | .eq => 0 | .ne => 1 | .lt => 2 | .le => 3 | .gt => 4 | .ge => 5
  | .equ => 8 | .neu => 9 | .ltu => 10 | .leu => 11 | .gtu => 12 | .geu => 13 | .num => 14 | .nan => 15

/-- R210. -/
def Edge.ofCode (c : BitVec 2) : Option Edge :=
  match c.toNat with
  | 0 => some .own | 1 => some .zf | 2 => some .wr | _ => none

/-- R210. -/
def Edge.code : Edge → BitVec 2
  | .own => 0 | .zf => 1 | .wr => 2

/-- R212. -/
def FoldOp.ofCode (c : BitVec 3) : Option FoldOp :=
  match c.toNat with
  | 0 => some .add | 1 => some .min | 2 => some .max | 3 => some .and | 4 => some .or | 5 => some .xor | _ => none

/-- R212. -/
def FoldOp.code : FoldOp → BitVec 3
  | .add => 0 | .min => 1 | .max => 2 | .and => 3 | .or => 4 | .xor => 5

/-- R63: special registers by number. -/
def Special.ofCode (c : Byte) : Option Special :=
  match c.toNat with
  | 0x00 => some .lane | 0x01 => some .grp | 0x02 => some .core | 0x03 => some .cluster | 0x04 => some .die
  | 0x08 => some .tidX | 0x09 => some .tidY | 0x0A => some .tidZ | 0x0B => some .tlin
  | 0x0C => some .ntidX | 0x0D => some .ntidY | 0x0E => some .ntidZ
  | 0x10 => some .bidX | 0x11 => some .bidY | 0x12 => some .bidZ
  | 0x14 => some .nbidX | 0x15 => some .nbidY | 0x16 => some .nbidZ
  | 0x18 => some .stage | 0x19 => some .nstage | 0x20 => some .fsr | 0x21 => some .lintag
  | 0x22 => some .rngcntLo | 0x23 => some .rngcntHi
  | 0x28 => some .clkLo | 0x29 => some .clkHi | 0x2A => some .nsLo | 0x2B => some .nsHi
  | 0x2C => some .cycLo | 0x2D => some .cycHi
  | n => if n / 16 = 3 then some (.loftwin (c.extractLsb' 0 4)) else none

/-- R63. -/
def Special.code : Special → Byte
  | .lane => 0x00 | .grp => 0x01 | .core => 0x02 | .cluster => 0x03 | .die => 0x04
  | .tidX => 0x08 | .tidY => 0x09 | .tidZ => 0x0A | .tlin => 0x0B
  | .ntidX => 0x0C | .ntidY => 0x0D | .ntidZ => 0x0E
  | .bidX => 0x10 | .bidY => 0x11 | .bidZ => 0x12
  | .nbidX => 0x14 | .nbidY => 0x15 | .nbidZ => 0x16
  | .stage => 0x18 | .nstage => 0x19 | .fsr => 0x20 | .lintag => 0x21
  | .rngcntLo => 0x22 | .rngcntHi => 0x23
  | .clkLo => 0x28 | .clkHi => 0x29 | .nsLo => 0x2A | .nsHi => 0x2B
  | .cycLo => 0x2C | .cycHi => 0x2D
  | .loftwin g => 0x3#4 ++ g

/-- R158. -/
def HalfOp.ofCode (c : BitVec 6) : Option HalfOp :=
  match c.toNat with
  | 0x00 => some .add | 0x01 => some .sub | 0x02 => some .mul | 0x03 => some .mulhi
  | 0x04 => some .min | 0x05 => some .max | 0x06 => some .abs | 0x07 => some .neg
  | 0x08 => some .shl | 0x09 => some .shr | 0x0A => some .sar | 0x0B => some .rot
  | 0x0C => some .and | 0x0D => some .or | 0x0E => some .xor | 0x0F => some .andn
  | 0x10 => some .not | 0x11 => some .popc | 0x12 => some .clz | 0x13 => some .ctz
  | 0x14 => some .brev | 0x15 => some .mov | 0x16 => some .fadd | 0x17 => some .fsub
  | 0x18 => some .fmul | 0x19 => some .fmin | 0x1A => some .fmax | 0x1B => some .fscale
  | 0x1C => some .frnd | 0x1D => some .pkadd | 0x1E => some .pkmul | 0x1F => some .nop
  | 0x20 => some .fmac | _ => none

/-- R158. -/
def HalfOp.code : HalfOp → BitVec 6
  | .add => 0x00 | .sub => 0x01 | .mul => 0x02 | .mulhi => 0x03
  | .min => 0x04 | .max => 0x05 | .abs => 0x06 | .neg => 0x07
  | .shl => 0x08 | .shr => 0x09 | .sar => 0x0A | .rot => 0x0B
  | .and => 0x0C | .or => 0x0D | .xor => 0x0E | .andn => 0x0F
  | .not => 0x10 | .popc => 0x11 | .clz => 0x12 | .ctz => 0x13
  | .brev => 0x14 | .mov => 0x15 | .fadd => 0x16 | .fsub => 0x17
  | .fmul => 0x18 | .fmin => 0x19 | .fmax => 0x1A | .fscale => 0x1B
  | .frnd => 0x1C | .pkadd => 0x1D | .pkmul => 0x1E | .nop => 0x1F
  | .fmac => 0x20

/-- R158: TY3. -/
def ty3OfCode (c : BitVec 3) : Ty :=
  match c.toNat with
  | 0 => .u32 | 1 => .i32 | 2 => .b32 | 3 => .f32 | 4 => .f16 | 5 => .bf16 | 6 => .f16x2 | _ => .bf16x2

/-- R158. -/
def ty3Code : Ty → BitVec 3
  | .u32 => 0 | .i32 => 1 | .b32 => 2 | .f32 => 3 | .f16 => 4 | .bf16 => 5 | .f16x2 => 6 | _ => 7

/-- R160. -/
def LT.ofCode (c : BitVec 3) : Option LT :=
  match c.toNat with
  | 0 => some .u8 | 1 => some .i8 | 2 => some .u16 | 3 => some .i16 | 4 => some .b32 | 5 => some .b64
  | 6 => some .b128 | _ => none

/-- R160. -/
def LT.code : LT → BitVec 3
  | .u8 => 0 | .i8 => 1 | .u16 => 2 | .i16 => 3 | .b32 => 4 | .b64 => 5 | .b128 => 6

/-- R115. -/
def Scope.ofCode (c : BitVec 3) : Option Scope :=
  match c.toNat with
  | 0 => some .blk | 1 => some .cls | 2 => some .die | 3 => some .dev | 4 => some .sys | _ => none

/-- R115. -/
def Scope.code : Scope → BitVec 3
  | .blk => 0 | .cls => 1 | .die => 2 | .dev => 3 | .sys => 4

/-- R116. -/
def Order.ofCode (c : BitVec 2) : Order :=
  match c.toNat with
  | 0 => .none | 1 => .acq | 2 => .rel | _ => .ar

/-- R116. -/
def Order.code : Order → BitVec 2
  | .none => 0 | .acq => 1 | .rel => 2 | .ar => 3

/-- R160. -/
def AOp.ofCode (c : BitVec 4) : Option AOp :=
  match c.toNat with
  | 0 => some .add | 1 => some .sub | 2 => some .min | 3 => some .max | 4 => some .and | 5 => some .or
  | 6 => some .xor | 7 => some .exch | 8 => some .cas | 9 => some .inc | 10 => some .dec | _ => none

/-- R160. -/
def AOp.code : AOp → BitVec 4
  | .add => 0 | .sub => 1 | .min => 2 | .max => 3 | .and => 4 | .or => 5
  | .xor => 6 | .exch => 7 | .cas => 8 | .inc => 9 | .dec => 10

/-- R160. -/
def AT.ofCode (c : BitVec 3) : Option AT :=
  match c.toNat with
  | 0 => some .u32 | 1 => some .i32 | 2 => some .i64 | 3 => some .f32 | 4 => some .bf16x2 | 5 => some .f16x2
  | _ => none

/-- R160. -/
def AT.code : AT → BitVec 3
  | .u32 => 0 | .i32 => 1 | .i64 => 2 | .f32 => 3 | .bf16x2 => 4 | .f16x2 => 5

/-- R247. -/
def BarScope.ofCode (c : BitVec 2) : Option BarScope :=
  match c.toNat with
  | 1 => some .cls | 2 => some .dev | _ => none

/-- R247. -/
def BarScope.code : BarScope → BitVec 2
  | .cls => 1 | .dev => 2

/-- R276. -/
def MxSel.ofCode (c : BitVec 2) : Option MxSel :=
  match c.toNat with
  | 0 => some .cv | 1 => some .wb | 2 => some .eng | _ => none

/-- R276. -/
def MxSel.code : MxSel → BitVec 2
  | .cv => 0 | .wb => 1 | .eng => 2

/-- R315. -/
def Res.ofCode (c : BitVec 2) : Option Res :=
  match c.toNat with
  | 0 => some .retry | 1 => some .skip | 2 => some .pc | _ => none

/-- R315. -/
def Res.code : Res → BitVec 2
  | .retry => 0 | .skip => 1 | .pc => 2

/-- R332. -/
def DScope.ofCode (c : BitVec 2) : Option DScope :=
  match c.toNat with
  | 0 => some .thread | 1 => some .group | 2 => some .block | _ => none

/-- R332. -/
def DScope.code : DScope → BitVec 2
  | .thread => 0 | .group => 1 | .block => 2

/-! ### Raw words -/

/-- R146, R154: the fields of an F- or I-word. An I-word holds imm16 at B and C, and KA at KB. -/
structure FRaw where
  op : BitVec 8
  gn : BitVec 1
  gp : BitVec 3
  dm : BitVec 2
  d : BitVec 8
  a : BitVec 8
  b : BitVec 8
  c : BitVec 8
  ty : BitVec 4
  kb : BitVec 1
  m : BitVec 11
deriving DecidableEq, Repr

/-- R146. -/
def FRaw.ofWord (w : Dword) : FRaw where
  op := w.extractLsb' 54 8
  gn := w.extractLsb' 53 1
  gp := w.extractLsb' 50 3
  dm := w.extractLsb' 48 2
  d := w.extractLsb' 40 8
  a := w.extractLsb' 32 8
  b := w.extractLsb' 24 8
  c := w.extractLsb' 16 8
  ty := w.extractLsb' 12 4
  kb := w.extractLsb' 11 1
  m := w.extractLsb' 0 11

/-- R146: the fields at their places, above them the class. -/
def FRaw.toWord (cls : BitVec 2) (r : FRaw) : Dword :=
  cls ++ r.op ++ r.gn ++ r.gp ++ r.dm ++ r.d ++ r.a ++ r.b ++ r.c ++ r.ty ++ r.kb ++ r.m

/-- R159: the fields of an M-word. -/
structure MRaw where
  op : BitVec 8
  gn : BitVec 1
  gp : BitVec 3
  d : BitVec 8
  a : BitVec 8
  ka : BitVec 1
  f20 : BitVec 20
  scope : BitVec 3
  order : BitVec 2
  mod : BitVec 8
deriving DecidableEq, Repr

/-- R159. -/
def MRaw.ofWord (w : Dword) : MRaw where
  op := w.extractLsb' 54 8
  gn := w.extractLsb' 53 1
  gp := w.extractLsb' 50 3
  d := w.extractLsb' 42 8
  a := w.extractLsb' 34 8
  ka := w.extractLsb' 33 1
  f20 := w.extractLsb' 13 20
  scope := w.extractLsb' 10 3
  order := w.extractLsb' 8 2
  mod := w.extractLsb' 0 8

/-- R159. -/
def MRaw.toWord (r : MRaw) : Dword :=
  3#2 ++ r.op ++ r.gn ++ r.gp ++ r.d ++ r.a ++ r.ka ++ r.f20 ++ r.scope ++ r.order ++ r.mod

/-- R155: the fields of a P-word half. -/
structure HRaw where
  op : BitVec 6
  g : BitVec 3
  d : BitVec 8
  a : BitVec 8
  ty : BitVec 3
  ka : BitVec 1
  dm : BitVec 2
deriving DecidableEq, Repr

/-- R155. -/
def HRaw.ofBits (w : BitVec 31) : HRaw where
  op := w.extractLsb' 25 6
  g := w.extractLsb' 22 3
  d := w.extractLsb' 14 8
  a := w.extractLsb' 6 8
  ty := w.extractLsb' 3 3
  ka := w.extractLsb' 2 1
  dm := w.extractLsb' 0 2

/-- R155. -/
def HRaw.toBits (r : HRaw) : BitVec 31 := r.op ++ r.g ++ r.d ++ r.a ++ r.ty ++ r.ka ++ r.dm

/-- R294: the fields of a program word. -/
structure LRaw where
  op : BitVec 6
  d : BitVec 4
  a : BitVec 4
  b : BitVec 4
  s : BitVec 4
  z : BitVec 6
  fn : BitVec 4
  imm : Word
deriving DecidableEq, Repr

/-- R294. -/
def LRaw.ofWord (w : Dword) : LRaw where
  op := w.extractLsb' 58 6
  d := w.extractLsb' 54 4
  a := w.extractLsb' 50 4
  b := w.extractLsb' 46 4
  s := w.extractLsb' 42 4
  z := w.extractLsb' 36 6
  fn := w.extractLsb' 32 4
  imm := w.extractLsb' 0 32

/-- R294. -/
def LRaw.toWord (r : LRaw) : Dword :=
  r.op ++ r.d ++ r.a ++ r.b ++ r.s ++ r.z ++ r.fn ++ r.imm

/-! ### Decoding operands -/

/-- R147: a destination field. -/
def Reg.ofField (x : BitVec 8) : Reg := if x.toNat < 248 then .v x else .q (x.extractLsb' 0 3)

/-- R147: a source field. -/
def Opnd.ofField (x : BitVec 8) : Opnd := if x.toNat < 248 then .v x else .q (x.extractLsb' 0 3)

def FRaw.guard (r : FRaw) : Guard := ⟨r.gn == 1, r.gp⟩
/-- R148. -/
def FRaw.uix (r : FRaw) : BitVec 2 := r.m.extractLsb' 9 2
/-- R150: the FN bits. -/
def FRaw.fn (r : FRaw) : BitVec 9 := r.m.extractLsb' 0 9
def FRaw.rm (r : FRaw) : BitVec 3 := r.m.extractLsb' 6 3
def FRaw.ftz (r : FRaw) : Bool := r.m.getLsbD 5
def FRaw.sat (r : FRaw) : Bool := r.m.getLsbD 4
def FRaw.pla (r : FRaw) : Bool := r.m.getLsbD 3
def FRaw.plb (r : FRaw) : Bool := r.m.getLsbD 2
def FRaw.plc (r : FRaw) : Bool := r.m.getLsbD 1
/-- R152: the 5-bit type code of an FL word. -/
def FRaw.flTy (r : FRaw) : BitVec 5 := r.m.extractLsb' 0 1 ++ r.ty
/-- R152: the type code of an FN word. -/
def FRaw.fnTy (r : FRaw) : BitVec 5 := 0#1 ++ r.ty
def FRaw.isK (r : FRaw) : Bool := r.kb == 1
/-- R148: UIX is 0 unless a field names a uniform register through it. -/
def FRaw.uixOk (r : FRaw) : Bool := r.isK || r.uix == 0

/-- Operand a of a two- or three-source word: from A, or in an I-word with KA from a uniform (R154). -/
def FRaw.srcA (r : FRaw) (imm : Bool) : Opnd :=
  if imm && r.isK then .k (r.uix ++ r.a) else Opnd.ofField r.a
/-- Operand b: imm16, a uniform with KB, or B. -/
def FRaw.srcB (r : FRaw) (imm : Bool) : Opnd :=
  if imm then .imm (r.b ++ r.c) else if r.isK then .k (r.uix ++ r.b) else Opnd.ofField r.b
/-- R175: the source of a one-source F-form. -/
def FRaw.src1 (r : FRaw) : Opnd := if r.isK then .k (r.uix ++ r.b) else Opnd.ofField r.a
/-- R175: with KB, A is 0; without, B is 0. -/
def FRaw.one (r : FRaw) : Bool := r.uixOk && (if r.isK then r.a == 0 else r.b == 0)
/-- The C field is unused in a two-source F-form; an I-form has none. -/
def FRaw.c0 (r : FRaw) (imm : Bool) : Bool := imm || r.c == 0
/-- No uniform operand at all. -/
def FRaw.noK (r : FRaw) : Bool := !r.isK && r.uix == 0

/-- Continue with a decoded code, or reject. -/
def need {α β : Type} (o : Option α) (k : α → Except Reject β) : Except Reject β :=
  match o with
  | some x => k x
  | none => .error .code

/-- Reject a non-zero field that must be 0. -/
def zero {β : Type} (b : Bool) (k : Except Reject β) : Except Reject β := if b then k else .error .zero

/-! ### Decoding F- and I-words, by family -/

section
variable (r : FRaw) (imm : Bool)

def decInt2 (mk : Int2Args → Instr) : Except Reject Instr :=
  zero (r.dm == 0 && r.uixOk && r.c0 imm && r.fn.extractLsb' 1 8 == 0) <|
  need (Ty.ofCode r.fnTy) fun t =>
  .ok (mk ⟨r.guard, t, r.fn.getLsbD 0, Reg.ofField r.d, r.srcA imm, r.srcB imm⟩)

def decInt1 (mk : Int1Args → Instr) : Except Reject Instr :=
  zero (r.dm == 0 && r.one && r.c == 0 && r.fn.extractLsb' 1 8 == 0) <|
  need (Ty.ofCode r.fnTy) fun t =>
  .ok (mk ⟨r.guard, t, r.fn.getLsbD 0, Reg.ofField r.d, r.src1⟩)

def decInt3 (mk : IntArgs → Instr) : Except Reject Instr :=
  zero (r.dm == 0 && r.uixOk && r.fn.extractLsb' 1 8 == 0) <|
  need (Ty.ofCode r.fnTy) fun t =>
  .ok (mk ⟨r.guard, t, r.fn.getLsbD 0, Reg.ofField r.d, r.srcA false, r.srcB false, Opnd.ofField r.c⟩)

def decShladd : Except Reject Instr :=
  zero (r.dm == 0 && r.uixOk && r.c == 0 && r.fn.extractLsb' 6 3 == 0) <|
  need (Ty.ofCode r.fnTy) fun t =>
  .ok (.shladd ⟨r.guard, t, r.fn.getLsbD 5, r.fn.extractLsb' 0 5, Reg.ofField r.d, r.srcA false, r.srcB false⟩)

def decLog2 (mk : Log2Args → Instr) : Except Reject Instr :=
  zero (r.dm == 0 && r.uixOk && r.c0 imm && r.fn == 0) <|
  if r.ty == 6 then .ok (mk ⟨r.guard, Reg.ofField r.d, r.srcA imm, r.srcB imm⟩) else .error .code

def decLog1 (mk : Log1Args → Instr) : Except Reject Instr :=
  zero (r.dm == 0 && r.one && r.c == 0 && r.fn == 0) <|
  if r.ty == 6 then .ok (mk ⟨r.guard, Reg.ofField r.d, r.src1⟩) else .error .code

def decLog3 (mk : Log3Args → Instr) : Except Reject Instr :=
  zero (r.dm == 0 && r.uixOk && r.fn.extractLsb' 8 1 == 0) <|
  if r.ty == 6 then
    .ok (mk ⟨r.guard, Reg.ofField r.d, r.srcA false, r.srcB false, Opnd.ofField r.c, r.fn.extractLsb' 0 8⟩)
  else .error .code

def decBfe : Except Reject Instr :=
  zero (r.dm == 0 && r.uixOk && r.c == 0 && r.fn == 0) <|
  if r.ty == 0 || r.ty == 1 then .ok (.bfe ⟨r.guard, r.ty == 1, Reg.ofField r.d, r.srcA false, r.srcB false⟩)
  else .error .code

/-- R147: a D or A field that names a predicate. -/
def predField (x : BitVec 8) : Option (BitVec 3) := if x.toNat < 8 then some (x.extractLsb' 0 3) else none

def decSetp (mk : SetpArgs → Instr) : Except Reject Instr :=
  zero (r.dm == 0 && r.uixOk && r.c0 imm && r.fn.extractLsb' 4 5 == 0) <|
  need (Ty.ofCode r.fnTy) fun t => need (Cond.ofCode (r.fn.extractLsb' 0 4)) fun c => need (predField r.d) fun p =>
  .ok (mk ⟨r.guard, t, c, p, r.srcA imm, r.srcB imm⟩)

def decSel (mk : SelArgs → Instr) : Except Reject Instr :=
  zero (r.uixOk && r.c0 imm && r.fn.extractLsb' 4 5 == 0) <|
  need (Ty.ofCode r.fnTy) fun t =>
  .ok (mk ⟨r.guard, DM.ofCode r.dm, t, Reg.ofField r.d, r.srcA imm, r.srcB imm, r.fn.extractLsb' 0 3, r.fn.getLsbD 3⟩)

def decCvti : Except Reject Instr :=
  zero (r.dm == 0 && r.one && r.c.extractLsb' 4 4 == 0 && r.fn.extractLsb' 1 8 == 0) <|
  need (Ty.ofCode r.fnTy) fun t => need (Ty.ofCode (0#1 ++ r.c.extractLsb' 0 4)) fun s =>
  .ok (.cvti ⟨r.guard, t, s, r.fn.getLsbD 0, Reg.ofField r.d, r.src1⟩)

def decFlt2 (mk : Flt2Args → Instr) : Except Reject Instr :=
  zero (r.uixOk && r.c0 imm && !r.sat && !r.plc) <|
  need (Ty.ofCode r.flTy) fun t => need (RM.ofCode r.rm) fun m =>
  .ok (mk ⟨r.guard, DM.ofCode r.dm, t, m, r.ftz, r.pla, r.plb, Reg.ofField r.d, r.srcA imm, r.srcB imm⟩)

def decFlt1 (mk : Flt1Args → Instr) : Except Reject Instr :=
  zero (r.one && r.c == 0 && !r.sat && !r.plb && !r.plc) <|
  need (Ty.ofCode r.flTy) fun t => need (RM.ofCode r.rm) fun m =>
  .ok (mk ⟨r.guard, DM.ofCode r.dm, t, m, r.ftz, r.pla, Reg.ofField r.d, r.src1⟩)

def decFlt3 (mk : Flt3Args → Instr) : Except Reject Instr :=
  zero (r.uixOk && !r.sat) <|
  need (Ty.ofCode r.flTy) fun t => need (RM.ofCode r.rm) fun m =>
  .ok (mk ⟨r.guard, DM.ofCode r.dm, t, m, r.ftz, r.pla, r.plb, r.plc, Reg.ofField r.d, r.srcA false, r.srcB false,
    Opnd.ofField r.c⟩)

/-- R167: FN[5] FTZ, FN[7] PLA, FN[6] PLB. -/
def decFsetp (mk : FsetpArgs → Instr) : Except Reject Instr :=
  zero (r.uixOk && r.c0 imm && !r.fn.getLsbD 8 && !r.fn.getLsbD 4) <|
  need (Ty.ofCode r.fnTy) fun t => need (Cond.ofCode (r.fn.extractLsb' 0 4)) fun c => need (predField r.d) fun p =>
  .ok (mk ⟨r.guard, DM.ofCode r.dm, t, c, r.fn.getLsbD 5, r.fn.getLsbD 7, r.fn.getLsbD 6, p, r.srcA imm, r.srcB imm⟩)

/-- R191: the source type in C[20:16]. -/
def decCvt : Except Reject Instr :=
  zero (r.one && r.c.extractLsb' 5 3 == 0 && !r.plb && !r.plc) <|
  need (Ty.ofCode r.flTy) fun t => need (Ty.ofCode (r.c.extractLsb' 0 5)) fun s => need (RM.ofCode r.rm) fun m =>
  .ok (.cvt ⟨r.guard, DM.ofCode r.dm, t, s, m, r.ftz, r.sat, r.pla, Reg.ofField r.d, r.src1⟩)

def FRaw.noMarks (r : FRaw) : Bool := r.rm == 0 && !r.sat && !r.pla && !r.plb && !r.plc

def decDist (mk : DistArgs → Instr) : Except Reject Instr :=
  zero (r.one && r.c == 0 && r.noMarks) <| need (Ty.ofCode r.flTy) fun t =>
  .ok (mk ⟨r.guard, DM.ofCode r.dm, t, r.ftz, r.d, r.src1⟩)

def decDmake : Except Reject Instr :=
  zero (r.uixOk && r.c == 0 && r.noMarks) <| need (Ty.ofCode r.flTy) fun t =>
  .ok (.dmake ⟨r.guard, DM.ofCode r.dm, t, r.ftz, r.d, r.srcA false, r.srcB false⟩)

def decDdraw (mk : DdrawArgs → Instr) : Except Reject Instr :=
  zero (r.one && r.c.extractLsb' 4 4 == 0 && r.noMarks) <| need (Ty.ofCode r.flTy) fun t =>
  .ok (mk ⟨r.guard, DM.ofCode r.dm, t, r.ftz, r.d, r.src1, r.c.extractLsb' 0 4⟩)

def decBsinit : Except Reject Instr :=
  zero (r.dm == 0 && r.uixOk && r.c == 0 && r.fn == 0) <|
  if r.ty == 6 then .ok (.bsinit ⟨r.guard, r.d, r.a, r.srcB false⟩) else .error .code

def decBsread (mk : BsreadArgs → Instr) : Except Reject Instr :=
  zero (r.dm == 0 && r.uixOk && r.fn == 0) <|
  if r.ty == 0 || r.ty == 1 then .ok (mk ⟨r.guard, r.ty == 1, Reg.ofField r.d, r.a, r.srcB false, Reg.ofField r.c⟩)
  else .error .code

def decBsskip : Except Reject Instr :=
  zero (r.dm == 0 && r.uixOk && r.fn == 0 && r.d == 0) <|
  if r.ty == 6 then .ok (.bsskip ⟨r.guard, r.a, r.srcB false, Reg.ofField r.c⟩) else .error .code

def decBsalign : Except Reject Instr :=
  zero (r.dm == 0 && r.noK && r.d == 0 && r.b == 0 && r.c == 0 && r.fn.extractLsb' 3 6 == 0) <|
  if r.ty == 6 then .ok (.bsalign ⟨r.guard, r.a, r.fn.extractLsb' 0 3⟩) else .error .code

def decRngseed : Except Reject Instr :=
  zero (r.dm == 0 && r.isK && r.d == 0 && r.a == 0 && r.c == 0 && r.fn == 0) <|
  if r.ty == 6 then .ok (.rngseed ⟨r.guard, r.uix ++ r.b⟩) else .error .code

def decRnd (ty : BitVec 4) (mk : RndArgs → Instr) : Except Reject Instr :=
  zero (r.dm == 0 && r.noK && r.a == 0 && r.b == 0 && r.c.extractLsb' 4 4 == 0 && r.fn.extractLsb' 1 8 == 0) <|
  if r.ty == ty then .ok (mk ⟨r.guard, Reg.ofField r.d, r.c.extractLsb' 0 4, r.fn.getLsbD 0⟩) else .error .code

def decRndCat : Except Reject Instr :=
  zero (r.dm == 0 && r.one && r.fn == 0) <|
  if r.ty == 8 then .ok (.rndCat ⟨r.guard, Reg.ofField r.d, r.src1, r.c.extractLsb' 0 4, r.c.extractLsb' 4 4⟩)
  else .error .code

def decLane (mk : LaneArgs → Instr) : Except Reject Instr :=
  zero (r.dm == 0 && r.uixOk && r.c.extractLsb' 4 4 == 0 && r.fn.extractLsb' 2 7 == 0) <|
  if r.ty == 6 then need (Edge.ofCode (r.fn.extractLsb' 0 2)) fun e =>
    .ok (mk ⟨r.guard, Reg.ofField r.d, r.srcA false, r.srcB false, r.c.extractLsb' 0 4, e⟩)
  else .error .code

def decPoll (mk : PollArgs → Instr) : Except Reject Instr :=
  zero (r.dm == 0 && r.noK && r.b == 0 && r.c.extractLsb' 4 4 == 0 && r.fn == 0) <|
  if r.ty == 6 then need (predField r.d) fun d => need (predField r.a) fun a =>
    .ok (mk ⟨r.guard, d, a, r.c.extractLsb' 0 4⟩)
  else .error .code

def decPollMap : Except Reject Instr :=
  zero (r.dm == 0 && r.noK && r.b == 0 && r.c.extractLsb' 4 4 == 0 && r.fn == 0) <|
  if r.ty == 6 then need (predField r.a) fun a =>
    .ok (.pollMap ⟨r.guard, Reg.ofField r.d, a, r.c.extractLsb' 0 4⟩)
  else .error .code

def decFold (mk : FoldArgs → Instr) : Except Reject Instr :=
  zero (r.dm == 0 && r.one && r.c.extractLsb' 4 4 == 0 && r.fn.extractLsb' 4 5 == 0) <|
  need (Ty.ofCode r.fnTy) fun t => need (FoldOp.ofCode (r.fn.extractLsb' 0 3)) fun o =>
  .ok (mk ⟨r.guard, o, t, r.fn.getLsbD 3, Reg.ofField r.d, r.src1, r.c.extractLsb' 0 4⟩)

def decPeers : Except Reject Instr :=
  zero (r.dm == 0 && r.one && r.c.extractLsb' 4 4 == 0 && r.fn == 0) <|
  if r.ty == 6 then .ok (.peers ⟨r.guard, Reg.ofField r.d, r.src1, r.c.extractLsb' 0 4⟩) else .error .code

def decMov : Except Reject Instr :=
  zero (r.one && r.c == 0 && r.fn == 0) <|
  if r.ty == 6 then .ok (.mov ⟨r.guard, DM.ofCode r.dm, Reg.ofField r.d, r.src1⟩) else .error .code

/-- R214: FN[0] is HI, legal with b32 only. -/
def decMovi : Except Reject Instr :=
  zero (r.dm == 0 && r.noK && r.a == 0 && r.fn.extractLsb' 1 8 == 0) <|
  need (Ty.ofCode r.fnTy) fun t =>
  if r.fn.getLsbD 0 then
    if t = .b32 then .ok (.moviHi ⟨r.guard, Reg.ofField r.d, r.b ++ r.c⟩) else .error .code
  else .ok (.movi ⟨r.guard, t, Reg.ofField r.d, r.b ++ r.c⟩)

/-- R214: the destination is k{UIX, D}. -/
def decMovk : Except Reject Instr :=
  zero (r.dm == 0 && !r.isK && r.b == 0 && r.c == 0 && r.fn == 0) <|
  if r.ty == 6 then .ok (.movk ⟨r.guard, r.uix ++ r.d, Reg.ofField r.a⟩) else .error .code

def decMovs : Except Reject Instr :=
  zero (r.dm == 0 && r.noK && r.b == 0 && r.c == 0 && r.fn.extractLsb' 1 8 == 0) <|
  if r.ty == 6 then
    if r.fn.getLsbD 0 then
      if r.d == 0x20 then .ok (.movsWriteFsr ⟨r.guard, Reg.ofField r.a⟩) else .error .code
    else need (Special.ofCode r.a) fun s => .ok (.movsRead ⟨r.guard, Reg.ofField r.d, s⟩)
  else .error .code

def decMovp : Except Reject Instr :=
  zero (r.dm == 0 && r.noK && r.b == 0 && r.c == 0 && r.fn.extractLsb' 1 8 == 0) <|
  if r.ty == 6 then
    if r.fn.getLsbD 0 then zero (r.d == 0) (.ok (.movpWrite ⟨r.guard, Reg.ofField r.a⟩))
    else zero (r.a == 0) (.ok (.movpRead ⟨r.guard, Reg.ofField r.d⟩))
  else .error .code

/-- R165: FTZ, SAT and the plain marks of an xop are 0. -/
def FRaw.xopOk (r : FRaw) : Bool := r.dm == 0 && !r.ftz && !r.sat && !r.pla && !r.plb && !r.plc

def decXf (mk : XfArgs → Instr) : Except Reject Instr :=
  zero (r.xopOk && r.uixOk) <|
  if r.flTy == 7 then need (RM.ofCode r.rm) fun m => .ok (mk ⟨r.guard, m, r.d, r.srcA false, r.srcB false, r.c⟩)
  else .error .code

def decXf1 (mk : XfArgs → Instr) : Except Reject Instr :=
  zero (r.xopOk && r.one && r.c == 0) <|
  if r.flTy == 7 then need (RM.ofCode r.rm) fun m => .ok (mk ⟨r.guard, m, r.d, r.src1, .v 0, 0⟩)
  else .error .code

def decXfcvt : Except Reject Instr :=
  zero (r.xopOk && r.one && r.c.extractLsb' 5 3 == 0) <|
  need (Ty.ofCode r.flTy) fun t => need (Ty.ofCode (r.c.extractLsb' 0 5)) fun s => need (RM.ofCode r.rm) fun m =>
  .ok (.xfcvt ⟨r.guard, t, s, m, Reg.ofField r.d, r.src1⟩)

def decXfsetp : Except Reject Instr :=
  zero (r.xopOk && r.uixOk && r.c.extractLsb' 4 4 == 0) <|
  if r.flTy == 7 then
    need (Cond.ofCode (r.c.extractLsb' 0 4)) fun c => need (predField r.d) fun p => need (RM.ofCode r.rm) fun m =>
    .ok (.xfsetp ⟨r.guard, m, c, p, r.srcA false, r.srcB false⟩)
  else .error .code

def decXint (mk : XintArgs → Instr) : Except Reject Instr :=
  zero (r.xopOk && r.rm == 0 && r.uixOk && r.c == 0) <|
  if r.flTy == 0 || r.flTy == 1 then
    .ok (mk ⟨r.guard, r.flTy == 1, Reg.ofField r.d, r.srcA false, r.srcB false⟩)
  else .error .code

def decXop2 (ty : BitVec 5) (mk : Xop2Args → Instr) : Except Reject Instr :=
  zero (r.xopOk && r.rm == 0 && r.uixOk && r.c == 0) <|
  if r.flTy == ty then .ok (mk ⟨r.guard, Reg.ofField r.d, r.srcA false, r.srcB false⟩) else .error .code

def decXcvt2 : Except Reject Instr :=
  zero (r.xopOk && r.rm == 0 && r.one && r.c == 0) <|
  if r.flTy == 1 then .ok (.xcvt2 ⟨r.guard, Reg.ofField r.d, r.src1⟩) else .error .code

end

/-- R161: the F-word opcode map. -/
def decF (r : FRaw) : Except Reject Instr :=
  match r.op.toNat with
  | 0x00 => decInt2 r false .add | 0x01 => decInt2 r false .sub | 0x02 => decInt3 r .add3
  | 0x03 => decInt2 r false .mul | 0x04 => decInt2 r false .mulhi | 0x05 => decInt3 r .mad
  | 0x06 => decShladd r | 0x07 => decInt1 r .abs_
  | 0x08 => decInt2 r false .min_ | 0x09 => decInt2 r false .max_ | 0x0A => decInt1 r .neg
  | 0x0B => decLog2 r false .shl | 0x0C => decLog2 r false .shr | 0x0D => decLog2 r false .sar
  | 0x0E => decLog2 r false .rot
  | 0x10 => decLog2 r false .and_ | 0x11 => decLog2 r false .or_ | 0x12 => decLog2 r false .xor_
  | 0x13 => decLog2 r false .andn | 0x14 => decLog1 r .not_ | 0x15 => decLog3 r .lut3
  | 0x16 => decLog1 r .popc | 0x17 => decLog1 r .clz
  | 0x18 => decLog1 r .ctz | 0x19 => decLog1 r .brev | 0x1A => decBfe r
  | 0x1B => zero (r.fn == 0) (decLog3 r .bfi) | 0x1C => decSetp r false .setp | 0x1D => decSel r false .sel
  | 0x1E => decCvti r
  | 0x20 => decFlt2 r false .fadd | 0x21 => decFlt2 r false .fsub | 0x22 => decFlt2 r false .fmul
  | 0x23 => decFlt3 r .fma | 0x24 => decFlt2 r false .fmin | 0x25 => decFlt2 r false .fmax
  | 0x26 => decFsetp r false .fsetp | 0x27 => decFlt1 r .fclass
  | 0x28 => decFlt2 r false .fscale | 0x29 => decFlt1 r .frnd | 0x2A => decCvt r
  | 0x2C => decFlt2 r false .pkadd | 0x2D => decFlt2 r false .pkmul | 0x2E => decFlt3 r .pkfma
  | 0x30 => decFlt3 r .dp2 | 0x31 => decFlt3 r .dp4
  | 0x38 => decFlt1 r .ex2 | 0x39 => decFlt1 r .lg2 | 0x3A => decFlt1 r .rcp | 0x3B => decFlt1 r .rsq
  | 0x3C => decFlt1 r .sqt | 0x3D => decFlt1 r .sin | 0x3E => decFlt1 r .cos | 0x3F => decFlt1 r .tnh
  | 0x40 => decFlt1 r .lgt
  | 0x48 => decDmake r | 0x49 => decDist r .dmean | 0x4A => decDist r .dvar | 0x4B => decDist r .dlin
  | 0x4C => decDist r .dfold | 0x4D => decDdraw r .dspread | 0x4E => decDdraw r .dsamp
  | 0x50 => decBsinit r | 0x51 => decBsread r .bsread | 0x52 => decBsread r .bspeek | 0x53 => decBsskip r
  | 0x54 => decBsalign r
  | 0x58 => decRngseed r | 0x59 => decRnd r 0 .rndU32 | 0x5A => decRnd r 8 .rndF32
  | 0x5B => decRnd r 8 .rndGauss | 0x5C => decRndCat r
  | 0x60 => decLane r .laneIdx | 0x61 => decLane r .laneRise | 0x62 => decLane r .laneFall
  | 0x63 => decLane r .laneFlip | 0x64 => decPoll r .pollAny | 0x65 => decPoll r .pollAll
  | 0x66 => decPollMap r | 0x67 => decFold r .fold | 0x68 => decFold r .pfx | 0x69 => decPeers r
  | 0x70 => decMov r | 0x71 => .error .form | 0x72 => decMovk r | 0x73 => decMovs r | 0x74 => decMovp r
  | 0xF0 => zero (r.c == 0) (decXf r .xfadd) | 0xF1 => zero (r.c == 0) (decXf r .xfsub)
  | 0xF2 => zero (r.c == 0) (decXf r .xfmul) | 0xF3 => decXf r .xfma | 0xF4 => zero (r.c == 0) (decXf r .xfdiv)
  | 0xF5 => decXf1 r .xfsqt | 0xF6 => decXfcvt r | 0xF7 => decXfsetp r
  | 0xF8 => decXint r .xdiv | 0xF9 => decXint r .xrem
  | 0xFA => decXop2 r 6 .xshl2 | 0xFB => decXop2 r 6 .xshr2 | 0xFC => decXop2 r 6 .xsar2
  | 0xFD => decXop2 r 8 .xmin2 | 0xFE => decXop2 r 8 .xmax2 | 0xFF => decXcvt2 r
  | _ => .error .opcode

/-- R161: the opcodes with an I-form. -/
def decI (r : FRaw) : Except Reject Instr :=
  match r.op.toNat with
  | 0x00 => decInt2 r true .addImm | 0x01 => decInt2 r true .subImm | 0x03 => decInt2 r true .mulImm
  | 0x04 => decInt2 r true .mulhiImm | 0x08 => decInt2 r true .minImm | 0x09 => decInt2 r true .maxImm
  | 0x0B => decLog2 r true .shlImm | 0x0C => decLog2 r true .shrImm | 0x0D => decLog2 r true .sarImm
  | 0x0E => decLog2 r true .rotImm | 0x10 => decLog2 r true .andImm | 0x11 => decLog2 r true .orImm
  | 0x12 => decLog2 r true .xorImm | 0x13 => decLog2 r true .andnImm
  | 0x1C => decSetp r true .setpImm | 0x1D => decSel r true .selImm
  | 0x20 => decFlt2 r true .faddImm | 0x21 => decFlt2 r true .fsubImm | 0x22 => decFlt2 r true .fmulImm
  | 0x24 => decFlt2 r true .fminImm | 0x25 => decFlt2 r true .fmaxImm | 0x26 => decFsetp r true .fsetpImm
  | 0x28 => decFlt2 r true .fscaleImm | 0x2C => decFlt2 r true .pkaddImm | 0x2D => decFlt2 r true .pkmulImm
  | 0x71 => decMovi r
  | _ => .error .form

/-- R155: one half. DM = 0b10 and 0b11 break the pairing rules (R157). -/
def decHalf (r : HRaw) : Except Reject Half :=
  need (HalfOp.ofCode r.op) fun o =>
  zero (r.dm.getLsbD 1 == false) (.ok ⟨o, r.g, r.d, r.a, ty3OfCode r.ty, r.ka == 1, r.dm.getLsbD 0⟩)

/-- R155: half X in bits [61:31], half Y in bits [30:0]. -/
def decP (w : Dword) : Except Reject Instr :=
  match decHalf (HRaw.ofBits (w.extractLsb' 31 31)), decHalf (HRaw.ofBits (w.extractLsb' 0 31)) with
  | .ok x, .ok y => .ok (.pairedWord ⟨x, y⟩)
  | .error e, _ => .error e
  | _, .error e => .error e

/-! ### Decoding M-words -/

def MRaw.guard (r : MRaw) : Guard := ⟨r.gn == 1, r.gp⟩
def MRaw.base (r : MRaw) : Base := if r.ka == 1 then .k r.a else .v r.a
/-- R159: outside ld, ldk, st, atom and red, [12:8] is 0. -/
def MRaw.noOrd (r : MRaw) : Bool := r.scope == 0 && r.order == 0
/-- Bits of IMM20 from `n` up are 0. -/
def MRaw.immTop (r : MRaw) (n : Nat) : Bool := r.f20 >>> n == 0
def MRaw.modTop (r : MRaw) (n : Nat) : Bool := r.mod >>> n == 0
def MRaw.imm8 (r : MRaw) : BitVec 8 := r.f20.extractLsb' 12 8
def MRaw.off12 (r : MRaw) : BitVec 12 := r.f20.extractLsb' 0 12

section
variable (r : MRaw)

def decLdst (mk : LdstArgs → Instr) : Except Reject Instr :=
  zero (r.mod.extractLsb' 0 3 == 0) <|
  need (LT.ofCode (r.mod.extractLsb' 5 3)) fun t => need (Scope.ofCode r.scope) fun s =>
  .ok (mk ⟨r.guard, t, r.mod.extractLsb' 3 2, Order.ofCode r.order, s, r.d, r.base, r.f20⟩)

def decHint (n : Nat) (mk : HintArgs → Instr) : Except Reject Instr :=
  zero (r.noOrd && r.d == 0 && r.modTop n) (.ok (mk ⟨r.guard, r.mod.extractLsb' 0 5, r.base, r.f20⟩))

def decAtom (mk : AtomArgs → Instr) : Except Reject Instr :=
  need (AOp.ofCode (r.mod.extractLsb' 4 4)) fun o => need (AT.ofCode (r.mod.extractLsb' 1 3)) fun t =>
  need (Scope.ofCode r.scope) fun s =>
  .ok (mk ⟨r.guard, o, t, Order.ofCode r.order, s, r.d, r.base, r.off12,
    if r.mod.getLsbD 0 then .imm r.imm8 else .v r.imm8⟩)

def decSv (mk : SvArgs → Instr) : Except Reject Instr :=
  zero (r.noOrd && r.modTop 1) <|
  .ok (mk ⟨r.guard, r.d, r.base, r.off12, if r.mod.getLsbD 0 then .imm r.imm8 else .v r.imm8⟩)

/-- The words whose one operand is a uniform descriptor base: KA is 1 (R232, R236, R277, R279). -/
def decDesc (mk : DescArgs → Instr) : Except Reject Instr :=
  zero (r.noOrd && r.d == 0 && r.ka == 1 && r.f20 == 0 && r.mod == 0) (.ok (mk ⟨r.guard, r.a⟩))

/-- No A operand. -/
def MRaw.noA (r : MRaw) : Bool := r.a == 0 && r.ka == 0

def decGuard (mk : Guard → Instr) : Except Reject Instr :=
  zero (r.noOrd && r.d == 0 && r.noA && r.f20 == 0 && r.mod == 0) (.ok (mk r.guard))

def decCpWait : Except Reject Instr :=
  zero (r.noOrd && r.d == 0 && r.modTop 1) <|
  if r.mod.getLsbD 0 then zero (r.noA && r.immTop 16) (.ok (.cpWait ⟨r.guard, .imm (r.f20.extractLsb' 0 16)⟩))
  else zero (r.f20 == 0) (.ok (.cpWait ⟨r.guard, .r r.base⟩))

def decCue (mk : CueArgs → Instr) : Except Reject Instr :=
  zero (r.noOrd && r.f20 == 0 && r.mod == 0) (.ok (mk ⟨r.guard, r.d, r.base⟩))

def decGive : Except Reject Instr :=
  zero (r.noOrd && r.immTop 14 && r.modTop 1) <|
  if r.mod.getLsbD 0 then zero (r.immTop 6)
    (.ok (.flatGive ⟨r.guard, r.d, r.f20.extractLsb' 0 3, r.f20.extractLsb' 3 3, .r r.base⟩))
  else zero r.noA
    (.ok (.flatGive ⟨r.guard, r.d, r.f20.extractLsb' 0 3, r.f20.extractLsb' 3 3, .imm (r.f20.extractLsb' 6 8)⟩))

def decSlot (mk : SlotArgs → Instr) : Except Reject Instr :=
  zero (r.noOrd && r.noA && r.immTop 3 && r.mod == 0) (.ok (mk ⟨r.guard, r.d, r.f20.extractLsb' 0 3⟩))

def decShare : Except Reject Instr :=
  zero (r.noOrd && r.noA && r.immTop 10 && r.mod == 0) <|
  .ok (.flatShare ⟨r.guard, r.d, r.f20.extractLsb' 0 3, r.f20.extractLsb' 3 3, r.f20.extractLsb' 6 4⟩)

def decBarBlk : Except Reject Instr :=
  zero (r.noOrd && r.d == 0 && r.noA && r.immTop 19 && r.mod == 0) <|
  .ok (.barBlk ⟨r.guard, r.f20.extractLsb' 0 4, r.f20.extractLsb' 4 15⟩)

def decBar (mk : BarArgs → Instr) : Except Reject Instr :=
  zero (r.noOrd && r.d == 0 && r.f20 == 0 && r.mod == 0) (.ok (mk ⟨r.guard, r.base⟩))

def decBarScope (mk : BarScopeArgs → Instr) : Except Reject Instr :=
  zero (r.noOrd && r.f20 == 0 && r.modTop 2) <|
  need (BarScope.ofCode (r.mod.extractLsb' 0 2)) fun s => .ok (mk ⟨r.guard, r.d, r.base, s⟩)

def decMask (mk : MaskArgs → Instr) : Except Reject Instr :=
  zero (r.noOrd && r.d == 0 && r.noA && r.immTop 4 && r.mod == 0) (.ok (mk ⟨r.guard, r.f20.extractLsb' 0 4⟩))

def decMset : Except Reject Instr :=
  zero (r.noOrd && r.d == 0 && r.ka == 1 && r.immTop 4 && r.mod == 0) <|
  .ok (.mset ⟨r.guard, r.f20.extractLsb' 0 4, r.a⟩)

def decMget : Except Reject Instr :=
  zero (r.noOrd && r.noA && r.immTop 4 && r.mod == 0) (.ok (.mget ⟨r.guard, r.f20.extractLsb' 0 4, r.d⟩))

def decBrx (mk : BrxArgs → Instr) : Except Reject Instr :=
  zero (r.noOrd && r.d == 0 && r.f20 == 0 && r.mod == 0) (.ok (mk ⟨r.guard, r.base⟩))

def decCode (mk : CodeArgs → Instr) : Except Reject Instr :=
  zero (r.noOrd && r.d == 0 && r.noA && r.immTop 12 && r.mod == 0) (.ok (mk ⟨r.guard, r.f20.extractLsb' 0 12⟩))

def decCtxId (mk : CtxIdArgs → Instr) : Except Reject Instr :=
  zero (r.noOrd && r.noA && r.immTop 8) (.ok (mk ⟨r.guard, r.d, r.f20.extractLsb' 0 8⟩))

def decCtx (mk : CtxArgs → Instr) : Except Reject Instr :=
  zero (r.noOrd && r.immTop 8 && r.modTop 1) <|
  if r.mod.getLsbD 0 then .ok (mk ⟨r.guard, r.d, some r.base, r.f20.extractLsb' 0 8⟩)
  else zero r.noA (.ok (mk ⟨r.guard, r.d, none, r.f20.extractLsb' 0 8⟩))

def decDbg (mk : DbgArgs → Instr) : Except Reject Instr :=
  zero (r.noOrd && r.f20 == 0 && r.modTop 2) <|
  need (DScope.ofCode (r.mod.extractLsb' 0 2)) fun s => .ok (mk ⟨r.guard, r.d, r.base, s⟩)

end

/-- R162: the M-word opcode map, R217: the fields each entry leaves out are 0. -/
def decM (r : MRaw) : Except Reject Instr :=
  match r.op.toNat with
  | 0x00 => decLdst r .ld | 0x01 => decLdst r .st | 0x02 => decLdst r .ldk
  | 0x03 => decLdst r .ldLoft | 0x04 => decHint r 2 .prefetch | 0x05 => decHint r 5 .icflush
  | 0x06 => zero (r.noOrd && r.d.toNat < 8 && r.ka == 1 && r.f20 == 0 && r.mod == 0)
      (.ok (.qcfg ⟨r.guard, r.d.extractLsb' 0 3, r.a⟩))
  | 0x07 => zero (r.noOrd && r.d.toNat < 8 && r.noA && r.f20 == 0 && r.mod == 0)
      (.ok (.qclose ⟨r.guard, r.d.extractLsb' 0 3⟩))
  | 0x08 => decAtom r .atom | 0x09 => decAtom r .red | 0x0A => decSv r .svpost | 0x0B => decSv r .svwait
  | 0x10 => decDesc r .cpRows | 0x11 => decDesc r .cpReduce
  | 0x12 => zero (r.noOrd && r.noA && r.f20 == 0 && r.mod == 0) (.ok (.cpSeal ⟨r.guard, r.d⟩))
  | 0x13 => decCpWait r | 0x14 => decDesc r .cpColl | 0x15 => decDesc r .cpReady
  | 0x18 => decCue r .cuePop | 0x19 => decCue r .cuePush | 0x1A => decGive r | 0x1B => decSlot r .flatTake
  | 0x1C => decShare r | 0x1D => decSlot r .flatStat
  | 0x20 => decBarBlk r | 0x21 => decBar r .barCls | 0x22 => decBar r .barDev | 0x23 => decBar r .barDevSuper
  | 0x24 => decBarScope r .barArrive | 0x25 => decBarScope r .barWait
  | 0x28 => decMask r .join | 0x29 => decMask r .leave | 0x2A => decMask r .wait
  | 0x2B => decMset r | 0x2C => decMget r | 0x2D => decMask r .sign | 0x2E => decMask r .cvwait
  | 0x30 => zero (r.noOrd && r.d == 0 && r.noA && r.mod == 0) (.ok (.bra ⟨r.guard, r.f20⟩))
  | 0x31 => decBrx r .brx
  | 0x32 => zero (r.noOrd && r.noA && r.mod == 0) (.ok (.call ⟨r.guard, r.d, r.f20⟩))
  | 0x33 => decBrx r .ret | 0x34 => decGuard r .exit | 0x35 => decGuard r .yield | 0x36 => decGuard r .suspend
  | 0x37 => zero (r.noOrd && r.d == 0 && r.immTop 4 && r.mod == 0)
      (.ok (.signal ⟨r.guard, r.base, r.f20.extractLsb' 0 4⟩))
  | 0x38 => zero (r.noOrd && r.immTop 6 && r.mod == 0) (.ok (.launch ⟨r.guard, r.d, r.base, r.f20.extractLsb' 0 6⟩))
  | 0x39 => decCode r .trap | 0x3A => decCode r .brk | 0x3B => decGuard r .nop
  | 0x40 => zero (r.noOrd && r.d == 0 && r.ka == 1 && r.immTop 4 && r.modTop 1)
      (.ok (.wlatch ⟨r.guard, r.f20.extractLsb' 0 4, r.a, r.mod.getLsbD 0⟩))
  | 0x41 => zero (r.noOrd && r.d == 0 && r.ka == 1 && r.immTop 19 && r.modTop 5)
      (.ok (.mmpost ⟨r.guard, r.f20.extractLsb' 0 4, r.a, r.f20.extractLsb' 4 15, r.mod.getLsbD 0, r.mod.getLsbD 1,
        r.mod.getLsbD 2, r.mod.getLsbD 3, r.mod.getLsbD 4⟩))
  | 0x42 => decDesc r .accrd
  | 0x43 => zero (r.noOrd && r.d == 0 && r.noA && r.immTop 5 && r.mod == 0)
      (.ok (.accclr ⟨r.guard, r.f20.extractLsb' 0 5⟩))
  | 0x44 => decDesc r .acccvt
  | 0x45 => zero (r.noOrd && r.noA && r.immTop 5 && r.modTop 1)
      (.ok (.accstat ⟨r.guard, r.d, r.f20.extractLsb' 0 5, r.mod.getLsbD 0⟩))
  | 0x46 => zero (r.noOrd && r.noA && r.immTop 4 && r.modTop 2) <|
      need (MxSel.ofCode (r.mod.extractLsb' 0 2)) fun s => .ok (.mxstat ⟨r.guard, r.d, r.f20.extractLsb' 0 4, s⟩)
  | 0xE0 => zero (r.noOrd && r.noA && r.mod == 0) (.ok (.csrr ⟨r.guard, .v r.d, r.f20⟩))
  | 0xE1 => zero (r.noOrd && r.d == 0 && r.mod == 0) (.ok (.csrw ⟨r.guard, r.base, r.f20⟩))
  | 0xE2 => zero (r.noOrd && r.f20 == 0 && r.modTop 2) <|
      need (Res.ofCode (r.mod.extractLsb' 0 2)) fun s => .ok (.eret ⟨r.guard, r.d, r.base, s⟩)
  | 0xE3 => zero (r.noOrd && r.immTop 15 && r.mod == 0)
      (.ok (.tlbinv ⟨r.guard, r.d, r.base, r.f20.extractLsb' 0 8, r.f20.extractLsb' 8 6, r.f20.getLsbD 14⟩))
  | 0xE4 => decCtx r .ctxsave | 0xE5 => decCtx r .ctxload
  | 0xE6 => zero (r.modTop 1) (decCtxId r (if r.mod.getLsbD 0 then .haltGo else .halt))
  | 0xE7 => zero (r.noOrd && r.f20 == 0 && r.modTop 1) (.ok (.dbgstep ⟨r.guard, r.d, r.base, r.mod.getLsbD 0⟩))
  | 0xE8 => zero (r.noOrd && r.f20 == 0 && r.modTop 5)
      (.ok (.tblarm ⟨r.guard, r.d, r.base, r.mod.extractLsb' 0 4, r.mod.getLsbD 4⟩))
  | 0xE9 => zero (r.noOrd && r.noA && r.f20 == 0 && r.mod == 0) (.ok (.tblread ⟨r.guard, r.d⟩))
  | 0xEA => decDbg r .dbgres | 0xEB => decDbg r .dbgcur
  | 0xEC => zero (r.mod == 0) (decCtxId r .ctxkill)
  | _ => .error .opcode

/-- Reject a decoded term that is not well formed. -/
def checkWf (e : Except Reject Instr) : Except Reject Instr :=
  match e with
  | .ok i => if i.wf then .ok i else .error .operand
  | .error r => .error r

/-- R145, R163: every 64-bit word decodes to one instruction or is an illegal encoding, by name. -/
def decode (w : Dword) : Except Reject Instr :=
  checkWf <|
  match (w.extractLsb' 62 2).toNat with
  | 0 => decF (FRaw.ofWord w)
  | 1 => decP w
  | 2 => decI (FRaw.ofWord w)
  | _ => decM (MRaw.ofWord w)

/-! ### Decoding program words of the prompter (R294, R296) -/

/-- R294: a program word. -/
def decodeLogit (w : Dword) : Except Reject Instr :=
  let r := LRaw.ofWord w
  zero (r.z == 0) <|
  let sc := r.op == 0x0B || r.op == 0x0C
  zero (!sc || r.fn.toNat ≤ 1) <|
  need (if sc then some .eq else Cond.ofCode r.fn) fun c =>
  let l : LogitArgs := ⟨r.d, r.a, r.b, r.s, sc && r.fn == 1, c, r.imm⟩
  let i : Option Instr := match r.op.toNat with
    | 0x01 => some (.logitLdc l) | 0x02 => some (.logitLdw l) | 0x03 => some (.logitLdt l)
    | 0x04 => some (.logitLdb l) | 0x05 => some (.logitLdg l) | 0x06 => some (.logitLdd l)
    | 0x07 => some (.logitLds l) | 0x08 => some (.logitSet l) | 0x09 => some (.logitMode l)
    | 0x0A => some (.logitMov l) | 0x0B => some (.logitAdd l) | 0x0C => some (.logitMul l)
    | 0x0D => some (.logitPen l) | 0x0E => some (.logitFpen l) | 0x0F => some (.logitTemp l)
    | 0x10 => some (.logitClmp l) | 0x11 => some (.logitKeep l) | 0x12 => some (.logitTopk l)
    | 0x13 => some (.logitTopp l) | 0x14 => some (.logitMinp l) | 0x15 => some (.logitSort l)
    | 0x16 => some (.logitNorm l) | 0x17 => some (.logitVmax l) | 0x18 => some (.logitDraw l)
    | 0x19 => some (.logitAcc l) | 0x1A => some (.logitPub l) | _ => none
  checkWf (match i with | some i => .ok i | none => .error .opcode)

/-! ### Bytes -/

/-- R5: eight bytes, lowest address first, as a 64-bit word; missing bytes read 0. -/
def dwordOfBytes (l : List Byte) : Dword :=
  l.getD 7 0 ++ l.getD 6 0 ++ l.getD 5 0 ++ l.getD 4 0 ++ l.getD 3 0 ++ l.getD 2 0 ++ l.getD 1 0 ++ l.getD 0 0

/-- R5: a 64-bit word as its eight bytes, lowest address first. -/
def bytesOfDword (w : Dword) : List Byte :=
  [w.extractLsb' 0 8, w.extractLsb' 8 8, w.extractLsb' 16 8, w.extractLsb' 24 8,
   w.extractLsb' 32 8, w.extractLsb' 40 8, w.extractLsb' 48 8, w.extractLsb' 56 8]

/-- Decode the bytes at an address: eight of them, an instruction word (R145). -/
def decodeBytes (l : List Byte) : Except Reject Instr :=
  if l.length = 8 then decode (dwordOfBytes l) else .error .length

/-- The decoder's reading of an instruction whose bits are `w`: every native instruction is one 64-bit word,
so bits above the table's `nbits` are 0 and bits above 64 make no instruction. A word that no thread may run is
read as a word of a logit program (R294). -/
def decodeTableWord (nbits w : Nat) : Option Instr :=
  let v := w % 2 ^ nbits
  if v < 2 ^ 64 then
    match decodeBytes (bytesOfDword (BitVec.ofNat 64 v)) with
    | .ok i => some i
    | .error _ => (decodeLogit (BitVec.ofNat 64 v)).toOption
  else none

/-! ### Encoding -/

/-- R147. -/
def Reg.field : Reg → BitVec 8
  | .v x => x
  | .q p => 31#5 ++ p

/-- R147: a source in a register field; a uniform or an immediate has none. -/
def Opnd.field : Opnd → BitVec 8
  | .v x => x
  | .q p => 31#5 ++ p
  | .k x => x.extractLsb' 0 8
  | .imm _ => 0

/-- R148: UIX and KB of a word whose operand is this one. -/
def Opnd.uix : Opnd → BitVec 2
  | .k x => x.extractLsb' 8 2
  | _ => 0

def Opnd.kBit : Opnd → BitVec 1
  | .k _ => 1
  | _ => 0

def Opnd.immVal : Opnd → HalfWord
  | .imm i => i
  | _ => 0

def bit (b : Bool) : BitVec 1 := if b then 1 else 0

/-- An F-word of two or three sources. `m` is MOD[8:0]. -/
def encF (op : BitVec 8) (g : Guard) (dm : BitVec 2) (d : BitVec 8) (a b : Opnd) (c : BitVec 8) (ty : BitVec 4)
    (m : BitVec 9) : Dword :=
  FRaw.toWord 0 ⟨op, bit g.neg, g.p, dm, d, a.field, b.field, c, ty, b.kBit, b.uix ++ m⟩

/-- A one-source F-word: a uniform source stands in B (R175). -/
def encF1 (op : BitVec 8) (g : Guard) (dm : BitVec 2) (d : BitVec 8) (a : Opnd) (c : BitVec 8) (ty : BitVec 4)
    (m : BitVec 9) : Dword :=
  match a with
  | .k x => FRaw.toWord 0 ⟨op, bit g.neg, g.p, dm, d, 0, x.extractLsb' 0 8, c, ty, 1, x.extractLsb' 8 2 ++ m⟩
  | _ => FRaw.toWord 0 ⟨op, bit g.neg, g.p, dm, d, a.field, 0, c, ty, 0, 0#2 ++ m⟩

/-- An I-word (R154). -/
def encI (op : BitVec 8) (g : Guard) (dm : BitVec 2) (d : BitVec 8) (a b : Opnd) (ty : BitVec 4) (m : BitVec 9) :
    Dword :=
  FRaw.toWord 2 ⟨op, bit g.neg, g.p, dm, d, a.field, b.immVal.extractLsb' 8 8, b.immVal.extractLsb' 0 8, ty, a.kBit,
    a.uix ++ m⟩

/-- A two-source word in its F- or I-form. -/
def encFI (imm : Bool) (op : BitVec 8) (g : Guard) (dm : BitVec 2) (d : BitVec 8) (a b : Opnd) (ty : BitVec 4)
    (m : BitVec 9) : Dword :=
  if imm then encI op g dm d a b ty m else encF op g dm d a b 0 ty m

/-- R152: TY. -/
def Ty.ty4 (t : Ty) : BitVec 4 := t.code.extractLsb' 0 4
/-- R152: TX. -/
def Ty.tx (t : Ty) : BitVec 1 := t.code.extractLsb' 4 1

/-- R150: the FL layout. -/
def flMod (rm : RM) (ftz sat pla plb plc : Bool) (t : Ty) : BitVec 9 :=
  rm.code ++ bit ftz ++ bit sat ++ bit pla ++ bit plb ++ bit plc ++ t.tx

def Int2Args.enc (a : Int2Args) (imm : Bool) (op : BitVec 8) : Dword :=
  encFI imm op a.g 0 a.d.field a.a a.b a.ty.ty4 (0#8 ++ bit a.sat)
def Int1Args.enc (a : Int1Args) (op : BitVec 8) : Dword := encF1 op a.g 0 a.d.field a.a 0 a.ty.ty4 (0#8 ++ bit a.sat)
def IntArgs.enc (a : IntArgs) (op : BitVec 8) : Dword :=
  encF op a.g 0 a.d.field a.a a.b a.c.field a.ty.ty4 (0#8 ++ bit a.sat)
def ShladdArgs.enc (a : ShladdArgs) : Dword :=
  encF 0x06 a.g 0 a.d.field a.a a.b 0 a.ty.ty4 (0#3 ++ bit a.w64 ++ a.sh)
def Log2Args.enc (a : Log2Args) (imm : Bool) (op : BitVec 8) : Dword := encFI imm op a.g 0 a.d.field a.a a.b 6 0
def Log1Args.enc (a : Log1Args) (op : BitVec 8) : Dword := encF1 op a.g 0 a.d.field a.a 0 6 0
def Log3Args.enc (a : Log3Args) (op : BitVec 8) : Dword :=
  encF op a.g 0 a.d.field a.a a.b a.c.field 6 (0#1 ++ a.tab)
def BfeArgs.enc (a : BfeArgs) : Dword := encF 0x1A a.g 0 a.d.field a.a a.b 0 (0#3 ++ bit a.sgn) 0
def SetpArgs.enc (a : SetpArgs) (imm : Bool) : Dword :=
  encFI imm 0x1C a.g 0 (0#5 ++ a.pd) a.a a.b a.ty.ty4 (0#5 ++ a.cond.code)
def SelArgs.enc (a : SelArgs) (imm : Bool) : Dword :=
  encFI imm 0x1D a.g a.dm.code a.d.field a.a a.b a.ty.ty4 (0#5 ++ bit a.inv ++ a.ps)
def CvtiArgs.enc (a : CvtiArgs) : Dword :=
  encF1 0x1E a.g 0 a.d.field a.a (0#4 ++ a.sty.ty4) a.dty.ty4 (0#8 ++ bit a.sat)
def Flt2Args.enc (a : Flt2Args) (imm : Bool) (op : BitVec 8) : Dword :=
  encFI imm op a.g a.dm.code a.d.field a.a a.b a.ty.ty4 (flMod a.rm a.ftz false a.pla a.plb false a.ty)
def Flt1Args.enc (a : Flt1Args) (op : BitVec 8) : Dword :=
  encF1 op a.g a.dm.code a.d.field a.a 0 a.ty.ty4 (flMod a.rm a.ftz false a.pla false false a.ty)
def Flt3Args.enc (a : Flt3Args) (op : BitVec 8) : Dword :=
  encF op a.g a.dm.code a.d.field a.a a.b a.c.field a.ty.ty4 (flMod a.rm a.ftz false a.pla a.plb a.plc a.ty)
def FsetpArgs.enc (a : FsetpArgs) (imm : Bool) : Dword :=
  encFI imm 0x26 a.g a.dm.code (0#5 ++ a.pd) a.a a.b a.ty.ty4
    (0#1 ++ bit a.pla ++ bit a.plb ++ bit a.ftz ++ 0#1 ++ a.cond.code)
def CvtArgs.enc (a : CvtArgs) : Dword :=
  encF1 0x2A a.g a.dm.code a.d.field a.a (0#3 ++ a.sty.code) a.dty.ty4 (flMod a.rm a.ftz a.sat a.pla false false a.dty)
def DistArgs.enc (a : DistArgs) (op : BitVec 8) : Dword :=
  encF1 op a.g a.dm.code a.d a.a 0 a.ty.ty4 (flMod .rne a.ftz false false false false a.ty)
def DmakeArgs.enc (a : DmakeArgs) : Dword :=
  encF 0x48 a.g a.dm.code a.d a.a a.b 0 a.ty.ty4 (flMod .rne a.ftz false false false false a.ty)
def DdrawArgs.enc (a : DdrawArgs) (op : BitVec 8) : Dword :=
  encF1 op a.g a.dm.code a.d a.a (0#4 ++ a.stream) a.ty.ty4 (flMod .rne a.ftz false false false false a.ty)
def BsreadArgs.enc (a : BsreadArgs) (op : BitVec 8) : Dword :=
  encF op a.g 0 a.d.field (.v a.a) a.r a.w.field (0#3 ++ bit a.sgn) 0
def RndArgs.enc (a : RndArgs) (op : BitVec 8) (ty : BitVec 4) : Dword :=
  encF op a.g 0 a.d.field (.v 0) (.v 0) (0#4 ++ a.stream) ty (0#8 ++ bit a.x4)
def LaneArgs.enc (a : LaneArgs) (op : BitVec 8) : Dword :=
  encF op a.g 0 a.d.field a.a a.b (0#4 ++ a.m) 6 (0#7 ++ a.edge.code)
def PollArgs.enc (a : PollArgs) (op : BitVec 8) : Dword :=
  encF op a.g 0 (0#5 ++ a.pd) (.v (0#5 ++ a.pa)) (.v 0) (0#4 ++ a.m) 6 0
def FoldArgs.enc (a : FoldArgs) (op : BitVec 8) : Dword :=
  encF1 op a.g 0 a.d.field a.a (0#4 ++ a.m) a.ty.ty4 (0#5 ++ bit a.exc ++ a.op.code)
def XfArgs.enc (a : XfArgs) (op : BitVec 8) : Dword :=
  encF op a.g 0 a.d a.a a.b a.c 7 (a.rm.code ++ 0#6)
def XfArgs.enc1 (a : XfArgs) (op : BitVec 8) : Dword := encF1 op a.g 0 a.d a.a 0 7 (a.rm.code ++ 0#6)
def XintArgs.enc (a : XintArgs) (op : BitVec 8) : Dword := encF op a.g 0 a.d.field a.a a.b 0 (0#3 ++ bit a.sgn) 0
def Xop2Args.enc (a : Xop2Args) (op : BitVec 8) (ty : BitVec 4) : Dword := encF op a.g 0 a.d.field a.a a.b 0 ty 0

/-- R155. -/
def Half.enc (h : Half) : BitVec 31 :=
  HRaw.toBits ⟨h.op.code, h.g, h.d, h.a, ty3Code h.ty, bit h.ka, 0#1 ++ bit h.mv⟩

/-- R108: the A and KA fields of a base. -/
def Base.field : Base → BitVec 8
  | .v x => x
  | .k x => x
def Base.kBit : Base → BitVec 1
  | .v _ => 0
  | .k _ => 1

/-- An M-word without order and scope. -/
def encM (op : BitVec 8) (g : Guard) (d a : BitVec 8) (ka : BitVec 1) (f : BitVec 20) (mod : BitVec 8) : Dword :=
  MRaw.toWord ⟨op, bit g.neg, g.p, d, a, ka, f, 0, 0, mod⟩

def LdstArgs.enc (a : LdstArgs) (op : BitVec 8) : Dword :=
  MRaw.toWord ⟨op, bit a.g.neg, a.g.p, a.d, a.base.field, a.base.kBit, a.off, a.scope.code, a.order.code,
    a.lt.code ++ a.cp ++ 0#3⟩
def HintArgs.enc (a : HintArgs) (op : BitVec 8) : Dword := encM op a.g 0 a.base.field a.base.kBit a.off (0#3 ++ a.lv)
def AVal.field : AVal → BitVec 8
  | .v x => x
  | .imm x => x
def AVal.immBit : AVal → BitVec 1
  | .v _ => 0
  | .imm _ => 1
def AtomArgs.enc (a : AtomArgs) (op : BitVec 8) : Dword :=
  MRaw.toWord ⟨op, bit a.g.neg, a.g.p, a.d, a.base.field, a.base.kBit, a.b.field ++ a.off, a.scope.code, a.order.code,
    a.op.code ++ a.ty.code ++ a.b.immBit⟩
def SvArgs.enc (a : SvArgs) (op : BitVec 8) : Dword :=
  encM op a.g a.d a.base.field a.base.kBit (a.b.field ++ a.off) (0#7 ++ a.b.immBit)
def DescArgs.enc (a : DescArgs) (op : BitVec 8) : Dword := encM op a.g 0 a.k 1 0 0
def CpWaitArgs.enc (a : CpWaitArgs) : Dword :=
  match a.b with
  | .r b => encM 0x13 a.g 0 b.field b.kBit 0 0
  | .imm n => encM 0x13 a.g 0 0 0 (0#4 ++ n) 1
def CueArgs.enc (a : CueArgs) (op : BitVec 8) : Dword := encM op a.g a.d a.base.field a.base.kBit 0 0
def GiveArgs.enc (a : GiveArgs) : Dword :=
  match a.core with
  | .imm c => encM 0x1A a.g a.d 0 0 (0#6 ++ c ++ a.s2 ++ a.s) 0
  | .r b => encM 0x1A a.g a.d b.field b.kBit (0#14 ++ a.s2 ++ a.s) 1
def SlotArgs.enc (a : SlotArgs) (op : BitVec 8) : Dword := encM op a.g a.d 0 0 (0#17 ++ a.s) 0
def BarArgs.enc (a : BarArgs) (op : BitVec 8) : Dword := encM op a.g 0 a.base.field a.base.kBit 0 0
def BarScopeArgs.enc (a : BarScopeArgs) (op : BitVec 8) : Dword :=
  encM op a.g a.d a.base.field a.base.kBit 0 (0#6 ++ a.sc.code)
def MaskArgs.enc (a : MaskArgs) (op : BitVec 8) : Dword := encM op a.g 0 0 0 (0#16 ++ a.n) 0
def BrxArgs.enc (a : BrxArgs) (op : BitVec 8) : Dword := encM op a.g 0 a.a.field a.a.kBit 0 0
def CodeArgs.enc (a : CodeArgs) (op : BitVec 8) : Dword := encM op a.g 0 0 0 (0#8 ++ a.code) 0
def CtxIdArgs.enc (a : CtxIdArgs) (op mod : BitVec 8) : Dword := encM op a.g a.d 0 0 (0#12 ++ a.ctx) mod
def CtxArgs.enc (a : CtxArgs) (op : BitVec 8) : Dword :=
  match a.mem with
  | some b => encM op a.g a.d b.field b.kBit (0#12 ++ a.ctx) 1
  | none => encM op a.g a.d 0 0 (0#12 ++ a.ctx) 0
def DbgArgs.enc (a : DbgArgs) (op : BitVec 8) : Dword := encM op a.g a.d a.h.field a.h.kBit 0 (0#6 ++ a.sc.code)

/-- R294: a program word; FN holds the condition of keep and the scalar-b mark of add and mul. -/
def LogitArgs.enc (l : LogitArgs) (op : BitVec 6) : Dword :=
  LRaw.toWord ⟨op, l.d, l.a, l.b, l.s, 0, if l.scalarB then 1 else l.cond.code, l.imm⟩

/-- The word of an instruction: `none` for an event, which has no encoding. -/
def encode? : Instr → Option Dword
  | .add a => some (a.enc false 0x00) | .addImm a => some (a.enc true 0x00)
  | .sub a => some (a.enc false 0x01) | .subImm a => some (a.enc true 0x01)
  | .add3 a => some (a.enc 0x02)
  | .mul a => some (a.enc false 0x03) | .mulImm a => some (a.enc true 0x03)
  | .mulhi a => some (a.enc false 0x04) | .mulhiImm a => some (a.enc true 0x04)
  | .mad a => some (a.enc 0x05) | .shladd a => some a.enc | .abs_ a => some (a.enc 0x07)
  | .min_ a => some (a.enc false 0x08) | .minImm a => some (a.enc true 0x08)
  | .max_ a => some (a.enc false 0x09) | .maxImm a => some (a.enc true 0x09)
  | .neg a => some (a.enc 0x0A)
  | .shl a => some (a.enc false 0x0B) | .shlImm a => some (a.enc true 0x0B)
  | .shr a => some (a.enc false 0x0C) | .shrImm a => some (a.enc true 0x0C)
  | .sar a => some (a.enc false 0x0D) | .sarImm a => some (a.enc true 0x0D)
  | .rot a => some (a.enc false 0x0E) | .rotImm a => some (a.enc true 0x0E)
  | .and_ a => some (a.enc false 0x10) | .andImm a => some (a.enc true 0x10)
  | .or_ a => some (a.enc false 0x11) | .orImm a => some (a.enc true 0x11)
  | .xor_ a => some (a.enc false 0x12) | .xorImm a => some (a.enc true 0x12)
  | .andn a => some (a.enc false 0x13) | .andnImm a => some (a.enc true 0x13)
  | .not_ a => some (a.enc 0x14) | .lut3 a => some (a.enc 0x15)
  | .popc a => some (a.enc 0x16) | .clz a => some (a.enc 0x17) | .ctz a => some (a.enc 0x18)
  | .brev a => some (a.enc 0x19) | .bfe a => some a.enc | .bfi a => some (a.enc 0x1B)
  | .setp a => some (a.enc false) | .setpImm a => some (a.enc true)
  | .sel a => some (a.enc false) | .selImm a => some (a.enc true)
  | .cvti a => some a.enc
  | .fadd a => some (a.enc false 0x20) | .faddImm a => some (a.enc true 0x20)
  | .fsub a => some (a.enc false 0x21) | .fsubImm a => some (a.enc true 0x21)
  | .fmul a => some (a.enc false 0x22) | .fmulImm a => some (a.enc true 0x22)
  | .fma a => some (a.enc 0x23)
  | .fmin a => some (a.enc false 0x24) | .fminImm a => some (a.enc true 0x24)
  | .fmax a => some (a.enc false 0x25) | .fmaxImm a => some (a.enc true 0x25)
  | .fsetp a => some (a.enc false) | .fsetpImm a => some (a.enc true)
  | .fclass a => some (a.enc 0x27)
  | .fscale a => some (a.enc false 0x28) | .fscaleImm a => some (a.enc true 0x28)
  | .frnd a => some (a.enc 0x29) | .cvt a => some a.enc
  | .pkadd a => some (a.enc false 0x2C) | .pkaddImm a => some (a.enc true 0x2C)
  | .pkmul a => some (a.enc false 0x2D) | .pkmulImm a => some (a.enc true 0x2D)
  | .pkfma a => some (a.enc 0x2E) | .dp2 a => some (a.enc 0x30) | .dp4 a => some (a.enc 0x31)
  | .ex2 a => some (a.enc 0x38) | .lg2 a => some (a.enc 0x39) | .rcp a => some (a.enc 0x3A)
  | .rsq a => some (a.enc 0x3B) | .sqt a => some (a.enc 0x3C) | .sin a => some (a.enc 0x3D)
  | .cos a => some (a.enc 0x3E) | .tnh a => some (a.enc 0x3F) | .lgt a => some (a.enc 0x40)
  | .dmake a => some a.enc | .dmean a => some (a.enc 0x49) | .dvar a => some (a.enc 0x4A)
  | .dlin a => some (a.enc 0x4B) | .dfold a => some (a.enc 0x4C) | .dspread a => some (a.enc 0x4D)
  | .dsamp a => some (a.enc 0x4E)
  | .bsinit a => some (encF 0x50 a.g 0 a.d (.v a.a) a.b 0 6 0)
  | .bsread a => some (a.enc 0x51) | .bspeek a => some (a.enc 0x52)
  | .bsskip a => some (encF 0x53 a.g 0 0 (.v a.a) a.r a.w.field 6 0)
  | .bsalign a => some (encF 0x54 a.g 0 0 (.v a.a) (.v 0) 0 6 (0#6 ++ a.k))
  | .rngseed a => some (encF 0x58 a.g 0 0 (.v 0) (.k a.k) 0 6 0)
  | .rndU32 a => some (a.enc 0x59 0) | .rndF32 a => some (a.enc 0x5A 8) | .rndGauss a => some (a.enc 0x5B 8)
  | .rndCat a => some (encF1 0x5C a.g 0 a.d.field a.a (a.stream ++ a.m) 8 0)
  | .laneIdx a => some (a.enc 0x60) | .laneRise a => some (a.enc 0x61) | .laneFall a => some (a.enc 0x62)
  | .laneFlip a => some (a.enc 0x63) | .pollAny a => some (a.enc 0x64) | .pollAll a => some (a.enc 0x65)
  | .pollMap a => some (encF 0x66 a.g 0 a.d.field (.v (0#5 ++ a.pa)) (.v 0) (0#4 ++ a.m) 6 0)
  | .fold a => some (a.enc 0x67) | .pfx a => some (a.enc 0x68)
  | .peers a => some (encF1 0x69 a.g 0 a.d.field a.a (0#4 ++ a.m) 6 0)
  | .mov a => some (encF1 0x70 a.g a.dm.code a.d.field a.a 0 6 0)
  | .movi a => some (encI 0x71 a.g 0 a.d.field (.v 0) (.imm a.imm) a.ty.ty4 0)
  | .moviHi a => some (encI 0x71 a.g 0 a.d.field (.v 0) (.imm a.imm) 6 1)
  | .movk a => some (FRaw.toWord 0
      ⟨0x72, bit a.g.neg, a.g.p, 0, a.k.extractLsb' 0 8, a.a.field, 0, 0, 6, 0, a.k.extractLsb' 8 2 ++ 0#9⟩)
  | .movsRead a => some (encF 0x73 a.g 0 a.d.field (.v a.sr.code) (.v 0) 0 6 0)
  | .movsWriteFsr a => some (encF 0x73 a.g 0 0x20 (.v a.a.field) (.v 0) 0 6 1)
  | .movpRead a => some (encF 0x74 a.g 0 a.d.field (.v 0) (.v 0) 0 6 0)
  | .movpWrite a => some (encF 0x74 a.g 0 0 (.v a.a.field) (.v 0) 0 6 1)
  | .xfadd a => some (a.enc 0xF0) | .xfsub a => some (a.enc 0xF1) | .xfmul a => some (a.enc 0xF2)
  | .xfma a => some (a.enc 0xF3) | .xfdiv a => some (a.enc 0xF4) | .xfsqt a => some (a.enc1 0xF5)
  | .xfcvt a => some (encF1 0xF6 a.g 0 a.d.field a.a (0#3 ++ a.sty.code) a.dty.ty4
      (a.rm.code ++ 0#5 ++ a.dty.tx))
  | .xfsetp a => some (encF 0xF7 a.g 0 (0#5 ++ a.pd) a.a a.b (0#4 ++ a.cond.code) 7 (a.rm.code ++ 0#6))
  | .xdiv a => some (a.enc 0xF8) | .xrem a => some (a.enc 0xF9)
  | .xshl2 a => some (a.enc 0xFA 6) | .xshr2 a => some (a.enc 0xFB 6) | .xsar2 a => some (a.enc 0xFC 6)
  | .xmin2 a => some (a.enc 0xFD 8) | .xmax2 a => some (a.enc 0xFE 8)
  | .xcvt2 a => some (encF1 0xFF a.g 0 a.d.field a.a 0 1 0)
  | .pairedWord a => some (1#2 ++ a.x.enc ++ a.y.enc)
  | .ld a => some (a.enc 0x00) | .st a => some (a.enc 0x01) | .ldk a => some (a.enc 0x02)
  | .ldLoft a => some (a.enc 0x03) | .prefetch a => some (a.enc 0x04) | .icflush a => some (a.enc 0x05)
  | .qcfg a => some (encM 0x06 a.g (0#5 ++ a.port) a.k 1 0 0)
  | .qclose a => some (encM 0x07 a.g (0#5 ++ a.port) 0 0 0 0)
  | .atom a => some (a.enc 0x08) | .red a => some (a.enc 0x09)
  | .svpost a => some (a.enc 0x0A) | .svwait a => some (a.enc 0x0B)
  | .cpRows a => some (a.enc 0x10) | .cpReduce a => some (a.enc 0x11)
  | .cpSeal a => some (encM 0x12 a.g a.d 0 0 0 0) | .cpWait a => some a.enc
  | .cpColl a => some (a.enc 0x14) | .cpReady a => some (a.enc 0x15)
  | .cuePop a => some (a.enc 0x18) | .cuePush a => some (a.enc 0x19)
  | .flatGive a => some a.enc | .flatTake a => some (a.enc 0x1B)
  | .flatShare a => some (encM 0x1C a.g a.d 0 0 (0#10 ++ a.mask ++ a.s2 ++ a.s) 0)
  | .flatStat a => some (a.enc 0x1D)
  | .barBlk a => some (encM 0x20 a.g 0 0 0 (0#1 ++ a.count ++ a.id) 0)
  | .barCls a => some (a.enc 0x21) | .barDev a => some (a.enc 0x22) | .barDevSuper a => some (a.enc 0x23)
  | .barArrive a => some (a.enc 0x24) | .barWait a => some (a.enc 0x25)
  | .join a => some (a.enc 0x28) | .leave a => some (a.enc 0x29) | .wait a => some (a.enc 0x2A)
  | .mset a => some (encM 0x2B a.g 0 a.k 1 (0#16 ++ a.n) 0)
  | .mget a => some (encM 0x2C a.g a.k 0 0 (0#16 ++ a.n) 0)
  | .sign a => some (a.enc 0x2D) | .cvwait a => some (a.enc 0x2E)
  | .bra a => some (encM 0x30 a.g 0 0 0 a.disp 0) | .brx a => some (a.enc 0x31)
  | .call a => some (encM 0x32 a.g a.d 0 0 a.disp 0) | .ret a => some (a.enc 0x33)
  | .exit g => some (encM 0x34 g 0 0 0 0 0) | .yield g => some (encM 0x35 g 0 0 0 0 0)
  | .suspend g => some (encM 0x36 g 0 0 0 0 0)
  | .signal a => some (encM 0x37 a.g 0 a.a.field a.a.kBit (0#16 ++ a.stage) 0)
  | .launch a => some (encM 0x38 a.g a.d a.base.field a.base.kBit (0#14 ++ a.q) 0)
  | .trap a => some (a.enc 0x39) | .brk a => some (a.enc 0x3A) | .nop g => some (encM 0x3B g 0 0 0 0 0)
  | .wlatch a => some (encM 0x40 a.g 0 a.k 1 (0#16 ++ a.n) (0#7 ++ bit a.mv))
  | .mmpost a => some (encM 0x41 a.g 0 a.k 1 (0#1 ++ a.count ++ a.n)
      (0#3 ++ bit a.acc ++ bit a.tb ++ bit a.ta ++ bit a.full2 ++ bit a.mv))
  | .accrd a => some (a.enc 0x42) | .accclr a => some (encM 0x43 a.g 0 0 0 (0#15 ++ a.t) 0)
  | .acccvt a => some (a.enc 0x44)
  | .accstat a => some (encM 0x45 a.g a.d 0 0 (0#15 ++ a.t) (0#7 ++ bit a.clr))
  | .mxstat a => some (encM 0x46 a.g a.d 0 0 (0#16 ++ a.idx) (0#6 ++ a.sel.code))
  | .csrr a => some (encM 0xE0 a.g a.r.field 0 0 a.reg 0)
  | .csrw a => some (encM 0xE1 a.g 0 a.r.field a.r.kBit a.reg 0)
  | .eret a => some (encM 0xE2 a.g a.d a.h.field a.h.kBit 0 (0#6 ++ a.res.code))
  | .tlbinv a => some (encM 0xE3 a.g a.d a.a.field a.a.kBit (0#5 ++ bit a.all ++ a.log2sz ++ a.ctx) 0)
  | .ctxsave a => some (a.enc 0xE4) | .ctxload a => some (a.enc 0xE5)
  | .halt a => some (a.enc 0xE6 0) | .haltGo a => some (a.enc 0xE6 1)
  | .dbgstep a => some (encM 0xE7 a.g a.d a.h.field a.h.kBit 0 (0#7 ++ bit a.all))
  | .tblarm a => some (encM 0xE8 a.g a.d a.a.field a.a.kBit 0 (0#3 ++ bit a.fire ++ a.trig))
  | .tblread a => some (encM 0xE9 a.g a.d 0 0 0 0)
  | .dbgres a => some (a.enc 0xEA) | .dbgcur a => some (a.enc 0xEB)
  | .ctxkill a => some (a.enc 0xEC 0)
  | .logitLdc l => some (l.enc 0x01) | .logitLdw l => some (l.enc 0x02) | .logitLdt l => some (l.enc 0x03)
  | .logitLdb l => some (l.enc 0x04) | .logitLdg l => some (l.enc 0x05) | .logitLdd l => some (l.enc 0x06)
  | .logitLds l => some (l.enc 0x07) | .logitSet l => some (l.enc 0x08) | .logitMode l => some (l.enc 0x09)
  | .logitMov l => some (l.enc 0x0A) | .logitAdd l => some (l.enc 0x0B) | .logitMul l => some (l.enc 0x0C)
  | .logitPen l => some (l.enc 0x0D) | .logitFpen l => some (l.enc 0x0E) | .logitTemp l => some (l.enc 0x0F)
  | .logitClmp l => some (l.enc 0x10) | .logitKeep l => some (l.enc 0x11) | .logitTopk l => some (l.enc 0x12)
  | .logitTopp l => some (l.enc 0x13) | .logitMinp l => some (l.enc 0x14) | .logitSort l => some (l.enc 0x15)
  | .logitNorm l => some (l.enc 0x16) | .logitVmax l => some (l.enc 0x17) | .logitDraw l => some (l.enc 0x18)
  | .logitAcc l => some (l.enc 0x19) | .logitPub l => some (l.enc 0x1A)
  | _ => none

/-- Is it a program word of the prompter (R294)? -/
def Instr.isLogit : Instr → Bool
  | .logitLdc _ | .logitLdw _ | .logitLdt _ | .logitLdb _ | .logitLdg _ | .logitLdd _ | .logitLds _ | .logitSet _
  | .logitMode _ | .logitMov _ | .logitAdd _ | .logitMul _ | .logitPen _ | .logitFpen _ | .logitTemp _ | .logitClmp _
  | .logitKeep _ | .logitTopk _ | .logitTopp _ | .logitMinp _ | .logitSort _ | .logitNorm _ | .logitVmax _
  | .logitDraw _ | .logitAcc _ | .logitPub _ => true
  | _ => false

/-- R145, R294: the words of an instruction; an event has none. -/
def encode (i : Instr) : List Dword := (encode? i).toList

end Sys2Proof
end

