-- ==== Sys2Proof/Machine/Fetch.lean ====
section
/-! DEFINITION. From READY threads to an issued word: BUNDLE_BUILD (R27, R29..R36, R46), the selectors (R35),
instruction fetch (R109, R143, R325), and the single steps of a debugger (R47, R48, R333). -/

namespace Sys2Proof.Machine

/-! ### Fetch (R143, R325) -/

/-- What a fetch gives: a word, a trap, a fault record that holds the thread, or no answer yet. -/
inductive Fetched
  | word (w : Dword)
  | trap (c : Cause)
  | held (id : Nat)
  | wait
deriving DecidableEq, Repr

/-- R143: a word that an instruction cache of the context holds; a physical window's words are held in none (R365). -/
def cachedWord (s : State) (c : Nat) (l : Loc) : Option Dword :=
  if l.phys then none else s.cores.items.findSome? fun e => e.2.icache.find? (icKey c l)

/-- R16: a core's instruction cache takes a word: 128 KiB, 16,384 words; where it is full the part picks what leaves. -/
def keepWord (s : State) (core k : Nat) (w : Dword) : State :=
  let ks := (s.core core).icache.keys
  let (gone, s) := if ks.length < 16384 then (none, s) else let (n, s) := s.pick ks.length; (ks[n]?, s)
  s.onCore core fun x =>
    { x with icache := (match gone with
        | some g => x.icache.erase g
        | none => x.icache).set k w }

/-- A word read from memory by the fetch path of a thread. -/
def fetchMem (s : State) (t : Nat) (l : Loc) : Fetched × State :=
  match place s l false true with
  | (.ok pl, s) =>
      let (mem, s) := match pl with
        | .phys d pa _ =>
            if physPoisoned s d pa then meetPoison s t .hbm d pa (physOwner s d pa) else (false, s)
        | _ => (false, s)
      if mem then (.trap .memerr, s)
      else
        let (b, s) := pl.read s l (s.partOf t) 8
        let (b, s) := if l.phys then (b, s) else codeRead s t l b
        (.word (BitVec.ofNat 64 (natOfBytes b)), s)
  | (.fault .fetchPerm _, s) => (.trap .fetchPerm, s)
  | (.fault _ r, s) =>
      match holdFault s (s.partOf t) l l.va (s.coreOf t) 2 1 r [t] none with
      | (.held id, s) => (.held id, s)
      | (.deny, s) => (.trap .fetchFault, s)
      | (.wait, s) => (.wait, s)
  | (.wait, s) => (.wait, s)

/-- R144: a cached word that an icflush before the fetch has not made stale. -/
def cachedFits (s : State) (t : Nat) (l : Loc) (w : Dword) : Bool :=
  let need := codeNeeds s t l.va
  need.isEmpty || match peek s l 8 with
    | some home => (codeValues s (codeLow need (touching s l home)) l home).contains (bytesOfNat 8 w.toNat)
    | none => false

/-- R325, R109: the windows, as the access reads them (R363); then the caches and memory. Where a cache of the context
holds a word that differs from memory's, either is fetched, whole (R143). -/
def fetch (s : State) (t : Nat) (pc : Dword) : Fetched × State :=
  let c := s.ctxOf t
  let va := pc.toNat
  if va % 8 ≠ 0 then (.trap .misaligned, s)
  else if inFlat va then (.trap .vaPerm, s)
  else
    let (view, s) := windowView s t
    match viaWindows view c (s.privOf t) va ⟨false, false, true⟩ with
    | .error e => (.trap e, s)
    | .ok l =>
        match cachedWord s c l with
        | some w =>
            let (again, s) := if cachedFits s t l w then s.coin else (true, s)
            if !again then (.word w, s)
            else match fetchMem s t l with
              | (.word w', s) => (.word w', s)
              | x => if cachedFits s t l w then (.word w, s) else x
        | none => match fetchMem s t l with
            | (.word w, s) => (.word w, if l.phys then s else keepWord s (s.coreOf t) (icKey c l) w)
            | x => x

/-- The word at a PC as it can be seen without a fetch. -/
def peekWord (s : State) (t : Nat) (pc : Dword) : Option Dword :=
  match viaWindows s (s.ctxOf t) (s.privOf t) pc.toNat ⟨false, false, true⟩ with
  | .error _ => none
  | .ok l => (cachedWord s (s.ctxOf t) l).orElse fun _ => (peek s l 8).map fun b => BitVec.ofNat 64 (natOfBytes b)

/-- The instruction a thread stands at, as far as it can be seen. -/
def nextInstr (s : State) (t : Nat) : Option Instr :=
  match (peekWord s t (s.thread t).pc).map decode with
  | some (.ok i) => some i
  | _ => none

/-- R31: is the word at a PC of class U, as far as it can be seen? -/
def classUAt (s : State) (t : Nat) (pc : Dword) : Bool :=
  match peekWord s t pc with
  | none => true
  | some w => match decode w with
      | .ok i => (usesOf i).u
      | .error _ => false

/-! ### READY and STALLED (R27) -/

/-- R27: what holds a thread STALLED at the word it stands at: a source that awaits a result, a port, an access. -/
def nextWait (s : State) (t : Nat) : Option Why :=
  (nextInstr s t).bind fun i => match fateOf s i (s.thread t).pc t with
    | .stall w => some w
    | _ => none

/-- A thread that its word has found no room for finds it now. -/
def nextRoom (s : State) (t : Nat) : Bool :=
  match nextInstr s t with
  | some i => (roomless s i (s.coreOf t) [t]).1.isEmpty
  | none => true

/-- R46: the gather that holds a thread, once every participant has arrived. -/
def fullGather (g : Group) (pc : Dword) (t : Nat) : Option Gather :=
  (gatherAt g pc t).filter fun x => x.parts.all x.arrived.contains

/-- Has what holds a STALLED thread cleared? -/
def causeClear (s : State) (t : Nat) : Bool :=
  let th := s.thread t
  match th.why with
  | .result | .port _ | .drain | .replay _ => (nextWait s t).isNone
  | .room => (nextWait s t).isNone && nextRoom s t
  | .close => accessesDone s t
  | .retry => true
  | .gather => (fullGather (s.groupOf t) th.pc t).isSome
  | _ => false

/-- The threads of the blocks that stand on a core. -/
def coreThreads (s : State) (core : Nat) : List Nat :=
  (s.threads.filter fun _ th => (s.group th.group).core == core
    && (s.block (s.group th.group).block).save == .resident).keys

/-- STALLED threads whose cause has cleared are READY. -/
def wakeStalled (s : State) (core : Nat) : State :=
  ((coreThreads s core).filter fun t => (s.thread t).held == .stalled && causeClear s t).foldl setReady s

/-- READY threads that their next word holds are STALLED. -/
def holdWaiting (s : State) (ts : List Nat) : State :=
  ts.foldl (fun s t => match (s.thread t).held, nextWait s t with
    | .ready, some w => stall s t (s.thread t).pc w
    | _, _ => s) s

/-! ### Buckets and bundles (R29, R30, R33, R34) -/

/-- A thread enters the bucket of its context and PC. -/
def enterBucket (bs : List Bucket) (c : Nat) (pc : Dword) (t : Nat) : List Bucket :=
  bs.map fun b => if b.ctx == c && b.pc == pc then { b with threads := unionN b.threads [t] } else b

/-- The set of the PC table for a context and PC, of 256 (R29). -/
def pcSetOf (c : Nat) (pc : Dword) : Nat := Config.pcSet c pc % 256

/-- R34: a bucket can be allocated unless the 4 ways of its set hold other PCs. -/
def roomForBucket (bs : List Bucket) (c : Nat) (pc : Dword) : Bool :=
  decide ((bs.filter fun b => pcSetOf b.ctx b.pc == pcSetOf c pc).length < 4)

/-- READY threads enter the PC table; those of a bucket that cannot be allocated are returned. -/
def enterThreads (s : State) (core : Nat) (ts : List Nat) : List Nat × State :=
  ts.foldl (fun (out, s) t =>
    let th := s.thread t
    let c := s.ctxOf t
    let bs := (s.core core).buckets
    if bs.any fun b => b.ctx == c && b.pc == th.pc then
      (out, s.onCore core fun k => { k with buckets := enterBucket k.buckets c th.pc t })
    else if roomForBucket bs c th.pc then
      (out, s.onCore core fun k => { k with buckets := k.buckets ++ [⟨c, th.pc, [t]⟩] })
    else (out ++ [t], s)) ([], s)

/-- A thread placed in the first bundle that has its lane free, in ascending lane order. -/
def laneInsert (s : State) (t : Nat) : List Nat → List Nat
  | [] => [t]
  | u :: r => if (s.thread t).lane < (s.thread u).lane then t :: u :: r else u :: laneInsert s t r
def packThread (s : State) (bs : List (List Nat)) (t : Nat) : List (List Nat) :=
  match bs.findIdx? fun b => b.all fun u => (s.thread u).lane != (s.thread t).lane with
  | some i => bs.modify i (laneInsert s t)
  | none => bs ++ [[t]]
def pack (s : State) (ts : List Nat) : List (List Nat) := ts.foldl (packThread s) []

/-- Threads cut into classes of one key. -/
def groupBy (f : Nat → Nat) (ts : List Nat) : List (List Nat) :=
  ((ts.map f).dedup).map fun k => ts.filter fun t => f t == k

/-- R46: the participants of one complete gather issue together. -/
def gatherBundles (s : State) (ts : List Nat) : List (List Nat) :=
  (ts.filterMap fun t => match fullGather (s.groupOf t) (s.thread t).pc t with
    | some x => if x.parts.head? = some t && x.parts.all ts.contains then some x.parts else none
    | none => none)

/-- R30: the bundles of a bucket: for class U one for each group, for class V the block's threads packed by
lane, starting from a group the part picks. -/
def bucketBundles (s : State) (b : Bucket) : List (List Nat) × State :=
  match b.threads with
  | [] => ([], s)
  | t :: _ =>
      let gs := gatherBundles s b.threads
      let ts := b.threads.filter fun u => !(gs.any fun g => g.contains u)
      if classUAt s t b.pc then (gs ++ (groupBy (fun u => (s.thread u).group) ts).flatMap (pack s), s)
      else
        let (k, s) := s.pick ts.length
        (gs ++ (groupBy s.blockIdOf (ts.rotateLeft k)).flatMap (pack s), s)

/-- R34: threads without a bucket: for each context and PC, bundles of one group each, in the order of group slots. -/
def loneBundles (s : State) (ts : List Nat) : List (List Nat) :=
  (groupBy (fun t => s.ctxOf t * 2 ^ 64 + (s.thread t).pc.toNat) ts).flatMap fun l =>
    (groupBy (fun t => (s.thread t).group) (sortOn (fun t => (s.groupOf t).slot) l)).flatMap (pack s)

/-- BUNDLE_BUILD (R29, R33, R34): a build boundary of a core. Each selector draws from the bundles in the next 4 clk, one
a clk. -/
def buildCore (s : State) (core : Nat) : State :=
  let s := wakeStalled s core
  let s := holdWaiting s (coreThreads s core)
  let ready := (coreThreads s core).filter s.canIssue
  let keep := fun (b : Bucket) =>
    let ts := b.threads.filter fun t => ready.contains t && (s.thread t).pc == b.pc && s.ctxOf t == b.ctx
    { b with threads := ts }
  let s := s.onCore core fun k => { k with buckets := (k.buckets.map keep).filter fun b => !b.threads.isEmpty }
  let old := (s.core core).buckets.flatMap Bucket.threads
  let (out, s) := enterThreads s core (ready.filter fun t => !old.contains t)
  let s := if out.isEmpty then s else pmc s core 2 1
  let (bs, s) := (s.core core).buckets.foldl (fun (acc, s) b => let (x, s) := bucketBundles s b; (acc ++ x, s)) ([], s)
  s.onCore core fun k => { k with bundles := loneBundles s out ++ bs, left0 := 4, left1 := 4 }

/-- BUNDLE_BUILD (R29). -/
def execBundleBuild (core : Nat) (s : State) : Host.Outcome State Fault Refusal := .next (buildCore s core)

/-! ### Selection (R35) -/

/-- Position of the bundle that holds the thread a measure puts first. -/
def bestBundle (bs : List (List Nat)) (age : Nat → Nat) : Option Nat :=
  let best := (bs.flatten).foldl (fun (a : Option Nat) t => match a with
    | some u => if age t < age u then some t else some u
    | none => some t) none
  best.bind fun t => bs.findIdx? fun b => b.contains t

/-- How often the thread of a bundle that was passed over most has been. -/
def mostPassed (s : State) (b : List Nat) : Nat := (b.map fun t => (s.thread t).passed).foldl max 0

/-- R35: bundles that can all still be issued in time only if that of the oldest thread is issued now: taken in the order
of how often they were passed over, one of them comes to its 1,536th time. -/
def pressed (s : State) (bs : List (List Nat)) : Bool :=
  ((sortOn (fun n => 1536 - n) (bs.map (mostPassed s))).mapIdx fun i n => decide (1536 ≤ n + i)).any id

/-- R410: at the issue fraction F of TUN_STAT a selector issues in F of every 16 clk; which they are is the model's choice
(log entry 7): the first. -/
def throttled (s : State) : Bool := decide (sysBits s RegNo.tunStat 0 19 15 ≤ s.clk % 16)

/-- A selection by one selector: every 16th takes the core's oldest READY thread, and so does one without which a thread
would be passed over too often; otherwise the part picks. Threads passed over are counted. -/
def selectBundle (s : State) (core : Nat) (second : Bool) : List Nat × State :=
  let k := s.core core
  let bs := k.bundles
  if bs.isEmpty || (if second then k.left1 else k.left0) == 0 then ([], s)
  else if throttled s then ([], pmc s core 4 1)
  else
    let n := (if second then k.sel1 else k.sel0) + 1
    let s := s.onCore core fun k =>
      if second then { k with sel1 := n, left1 := k.left1 - 1 } else { k with sel0 := n, left0 := k.left0 - 1 }
    let oldest := (bestBundle bs fun t => (s.thread t).readyAt).getD 0
    let (i, s) :=
      if n % 16 = 0 then (oldest, pmc s core 3 1)
      else if pressed s bs then (oldest, s)
      else s.pick bs.length
    let ts := bs.getD i []
    let s := s.onCore core fun k => { k with
      bundles := k.bundles.eraseIdx i
      buckets := k.buckets.map fun (b : Bucket) => { b with threads := b.threads.filter fun t => !ts.contains t } }
    (ts, s.onThreads ((coreThreads s core).filter fun t => s.canIssue t && !ts.contains t) fun _ th => { th with passed := th.passed + 1 })

/-! ### Issue -/

/-- A thread at a word that does not come to issue: a breakpoint on it comes first (R330, R336). -/
def stopBefore (s : State) (t : Nat) (pc w : Dword) (c : Cause) (ea : Nat) : State :=
  if !s.privOf t && !(s.thread t).freePass && ibrkAt s (s.ctxOf t) pc then takeTrap s t (.at .ibrk pc w)
  else if c = .memerr then memErr s t pc w ea
  else takeTrap s t ⟨c, pc, w, ea, 0, false⟩

/-- A bundle goes to its selector: the word is fetched and decoded once for all its threads (R30); the
instruction, with the issue set up, if there is one to execute. -/
def beginIssue (s : State) (core : Nat) (ts : List Nat) : Option Instr × State :=
  match ts with
  | [] => (none, s)
  | t :: _ =>
      let pc := (s.thread t).pc
      match fetch s t pc with
      | (.word w, s) => match decode w with
          | .ok i => (some i, { s with issue := .bundle ⟨core, pc, w, ts⟩ })
          | .error _ => (none, ts.foldl (fun s u => stopBefore s u pc w .undef 0) s)
      | (.trap c, s) => (none, ts.foldl (fun s u => stopBefore s u pc 0 c pc.toNat) s)
      | (.held id, s) =>
          let p := s.partOf t
          let s := s.onPart p fun x => { x with faults := x.faults.modify id fun f => { f with fetchers := unionN f.fetchers ts } }
          (none, ts.foldl (fun s u => stall s u pc .fetch) s)
      | (.wait, s) => (none, s)

/-- The threads of a bundle that still stand, together, at its word. -/
def stillTogether (s : State) (ok : Nat → Bool) (ts : List Nat) : List Nat :=
  match ts.filter ok with
  | [] => []
  | t :: r => t :: r.filter fun u => (s.thread u).pc == (s.thread t).pc && s.ctxOf u == s.ctxOf t

/-! ### Debug steps (R47, R48, R333) -/

/-- May a stepped thread issue? -/
def canStep (s : State) (t : Nat) : Bool :=
  isCurtainedReady (s.thread t) && (s.blockOf t).save == .resident
    && !(s.die (dieOf (s.coreOf t))).halted.has (s.ctxOf t)
where
  isCurtainedReady (th : Thread) : Bool := th.held == .ready && (th.tc || th.dc)

/-- R333: what a step left of the named thread; `issued` false where the step never came to its word. -/
def stepCode (s : State) (t : Nat) (issued : Bool) : Nat :=
  let th := s.thread t
  if issued ∧ th.cause ≠ 0 then 3
  else match th.held with
    | .exited => 4
    | .stalled => 1
    | .waiting => 2
    | .ready =>
        if issued then 0
        else if (s.die (dieOf (s.coreOf t))).halted.has (s.ctxOf t) then 7
        else if !th.dc then 5
        else 6

/-- A step is over: causes that no new record replaced are as they were, and the thread that asked for it goes on
with the status and the number of threads that issued the word; `issued` none where the step never came to its word. -/
def settleStep (s : State) (core : Nat) (issued : Option (List Nat)) : State :=
  match (s.core core).steps with
  | [] => s
  | d :: rest =>
      let s := s.onCore core fun k => { k with steps := rest }
      let n := ((issued.getD []).filter fun t => (s.thread t).cause == 0).length
      let code := stepCode s d.thread issued.isSome
      let s := s.onThreads d.threads fun t th =>
        if th.cause = 0 then { th with cause := ((d.threads.zip d.causes).find? fun e => e.1 == t).map (·.2) |>.getD 0 } else th
      match (s.thread d.issuer).held, (s.thread d.issuer).why with
      | .stalled, .step r =>
          release8 (s.onThread d.issuer fun th => { th with v := th.v.set r (BitVec.ofNat 32 (code + n * 2 ^ 16)) }) d.issuer
      | _, _ => s

/-- R331: the threads of a step leave their curtain for one issue; the causes of their last records are set aside. -/
def startStep (s : State) (core : Nat) (d : DebugStep) : State :=
  if !d.causes.isEmpty then s
  else
    let d := { d with causes := d.threads.map fun t => (s.thread t).cause }
    let s := s.onCore core fun k => { k with steps := d :: k.steps.tail }
    s.onThreads d.threads fun _ th => { th with freePass := true, cause := 0 }

/-- A selection of a core: a step that a debugger asked for comes first. -/
def select (s : State) (core : Nat) (second : Bool) : Option Instr × State :=
  match (s.core core).steps with
  | d :: _ => match stillTogether s (canStep s) d.threads with
      | [] => (none, settleStep s core none)
      | ts => match beginIssue (startStep s core d) core ts with
          | (some i, s) => (some i, s)
          | (none, s) => (none, if (ts.all fun t => canStep s t && (s.thread t).cause == 0) then s else settleStep s core (some []))
  | [] =>
      let (ts, s) := selectBundle s core second
      beginIssue s core (stillTogether s s.canIssue ts)

/-- A step has set its threads going. -/
def stepGoing (d : DebugStep) : Bool := !d.causes.isEmpty

/-- What follows the execution of a word: threads that their next word holds are STALLED (R27); a step is over; nothing is
being issued. -/
def endIssue (s : State) : State :=
  match s.issue with
  | .bundle b =>
      let s := holdWaiting { s with issue := .none } b.threads
      if ((s.core b.core).steps.head?.map stepGoing).getD false then settleStep s b.core (some b.threads) else s
  | _ => { s with issue := .none }

end Sys2Proof.Machine
end

