-- ==== Sys2Proof/Machine/Debug.lean ====
section
/-! DEFINITION. dbgcur, dbgres (R331, R332) and dbgstep (R47, R48, R333). -/

namespace Sys2Proof.Machine

/-- R332: the threads of a scope. -/
def scopeThreads (s : State) (t : Nat) (sc : DScope) : List Nat :=
  match sc with
  | .thread => [t]
  | .group => s.live (s.thread t).group
  | .block => s.blockLive (s.blockIdOf t)

/-- R332: what a handle names, for a thread of a partition: a thread, or the status. -/
def aimDebug (s : State) (t : Nat) (h : Word) : Except Word Nat :=
  if s.handlePart h ≠ some (s.partOf t) then .error 3
  else match s.byHandle h with
    | some u => .ok u
    | none => .error 2

/-- A result in a vector register. -/
def putV (s : State) (t : Nat) (d : BitVec 8) (x : Word) : State := s.onThread t fun th => { th with v := th.v.set d.toNat x }

/-- R331: the record of the debug event that dbgcur is: its address the thread's PC; the spec states no cause
code and no word for it, so they are free. -/
def curtainRecord (s : State) (t : Nat) : State :=
  let th := s.thread t
  let (c, s) := s.freeBytes 1
  let (w, s) := s.freeBytes 8
  let rec_ := bytesOfNat 8 th.pc.toNat ++ bytesOfNat 8 0 ++ c ++ List.replicate 7 0 ++ bytesOfNat 4 (s.handle t).toNat
    ++ bytesOfNat 4 0 ++ w ++ List.replicate 24 0
  let s := s.onThread t fun th => { th with cause := c.headD 0 }
  match recordAddr s (s.partOf t) t with
  | none => s
  | some a => agentPut s (s.partOf t) [] a rec_

/-- dbgcur (R331, R332). -/
def execDbgcur (a : DbgArgs) (s : State) : Host.Outcome State Fault Refusal :=
  word (.dbgcur a) s fun is s => eachActive is s fun s t =>
    match aimDebug s t ((envOf s t).base1 a.h) with
    | .error x => putV s t a.d x
    | .ok u =>
        let hit := (scopeThreads s u a.sc).filter fun o => !s.privOf o && !(s.thread o).dc
        let s := if s.privOf u then s else setEv (curtainRecord (settleSfu s u) u) (s.ctxOf u) (s.partOf u)
        let s := (hit.foldl settleSfu s).onThreads hit fun _ th => { th with dc := true }
        putV s t a.d (BitVec.ofNat 32 (hit.length % 2 ^ 16))

/-- dbgres (R331, R332, R334). -/
def execDbgres (a : DbgArgs) (s : State) : Host.Outcome State Fault Refusal :=
  word (.dbgres a) s fun is s => eachActive is s fun s t =>
    match aimDebug s t ((envOf s t).base1 a.h) with
    | .error x => putV s t a.d x
    | .ok u =>
        let hit := (scopeThreads s u a.sc).filter fun o => (s.thread o).dc
        let s := s.onThreads hit fun _ th => { th with dc := false, freePass := true, readyAt := s.clk }
        let s := hit.foldl (fun s o => if (s.thread o).tc then s else resumeChecks s o) s
        putV s t a.d (BitVec.ofNat 32 (hit.length % 2 ^ 16))

/-- R48: the threads that a step with .all issues: CURTAINED threads of the group at the PC and, for a class V
word, those of other groups of the block, one for each lane. -/
def allAtPc (s : State) (t : Nat) : List Nat :=
  let pc := (s.thread t).pc
  let ok := fun u => canStep s u && (s.thread u).pc == pc
  let own := t :: (s.live (s.thread t).group).filter fun u => u != t && ok u
  if classUAt s t pc then own
  else (s.blockLive (s.blockIdOf t)).foldl (fun acc u =>
    if ok u && s.coreOf u == s.coreOf t && acc.all fun o => (s.thread o).lane != (s.thread u).lane then acc ++ [u] else acc) own

/-- R333: the status of a step that issues nothing. -/
def stepRefused (s : State) (t : Nat) (h : Word) : Except Nat Nat :=
  if s.handlePart h ≠ some (s.partOf t) then .error 6
  else match s.byHandle h with
    | none => .error 6
    | some u =>
        let th := s.thread u
        if !th.dc then .error 5
        else if (s.die (dieOf (s.coreOf u))).halted.has (s.ctxOf u) then .error 7
        else match th.held with
          | .stalled => .error 1
          | .waiting => .error 2
          | _ => .ok u

/-- dbgstep (R333): the step is the next issue of the thread's core; the issuing thread is held until it is over. -/
def execDbgstep (a : DbgstepArgs) (s : State) : Host.Outcome State Fault Refusal :=
  word (.dbgstep a) s fun is s => eachActive is s fun s t =>
    match stepRefused s t ((envOf s t).base1 a.h) with
    | .error n => putV s t a.d (BitVec.ofNat 32 n)
    | .ok u =>
        let ts := (if a.all then allAtPc s u else [u]).foldl (fun l o => laneInsert s o l) []
        let s := resumeChecks s u
        let step : DebugStep := ⟨t, u, ts, []⟩
        let s := s.onCore (s.coreOf u) fun k => { k with steps := k.steps ++ [step] }
        is.stall s t (.step a.d.toNat)

end Sys2Proof.Machine
end

