-- ==== Sys2Proof/Machine/Errors.lean ====
section
/-! DEFINITION. The scrubber and uncorrectable errors (R378..R380). -/

namespace Sys2Proof.Machine

/-- R379: the context whose thread used a register file or a tile. -/
def userOf (s : State) (reader : Option Nat) : Byte :=
  match reader with
  | some t => BitVec.ofNat 8 (s.ctxOf t)
  | none => 0xFF

/-- R380: an uncorrectable error detected where `src` says; the datum is poisoned, and what it holds then is free
(DESIGN CHOICE, log entry 38). For a register file and a tile the owner is the context using it. -/
def ueAt (s : State) (e : UeErr) : State :=
  let d := e.die % 2
  let x := s.die d
  match e.src with
  | .hbm | .msc =>
      let o := physOwner s d e.addr
      detectUe (poisonLine s d e.addr) e.src d e.addr o
  | .l2 | .l1 =>
      -- a cached line that holds the physical line is lost with it
      let hit := x.slices.values.flatMap fun z => z.lines.filter fun l =>
        match leafOf s l.die (l.line * 128) with
        | some f => match walk (some { f with raw := f.raw &&& ~~~(1#64 <<< 62) }) ⟨l.die, l.line * 128, l.dieLocal, false, l.owner.toNat, 0⟩ false false with
            | .ok pa _ => pa / 128 == e.addr / 128
            | _ => false
        | none => false
      let s := hit.foldl dropLine s
      -- the line's own tag, where it was written in the cache (R379)
      let o := ((hit.find? fun x => x.dirty).map Line.owner).getD (physOwner s d e.addr)
      detectUe (poisonLine s d e.addr) e.src d e.addr o
  | .flat =>
      -- the address is a bank and a word of it
      let bank := e.addr / 2 ^ 16 % 256
      let w := bankKey d bank (e.addr % 2 ^ 16 * 4) / 4
      let (m, s) := spoil s s.flats (4 * w) 4
      detectUe ({ s with flats := m }.onDie d fun y => { y with poisonFlat := unionN y.poisonFlat [w] }) e.src d (e.addr % 2 ^ 24) (bankOwner s d bank)
  | .loft =>
      let off := e.addr % loftBytes
      let (m, s) := spoil s s.loft (loftKey d (off / 128 * 128)) 128
      detectUe ({ s with loft := m }.onDie d fun y => { y with poisonLoft := unionN y.poisonLoft [off / 128] }) e.src d off (loftOwner s d off)
  | .regfile =>
      -- the address is a core and a register; the context is the one whose thread read it
      detectUe s e.src d e.addr (userOf s e.reader)
  | .tile =>
      -- the address is a cluster of the die, a tile and an element
      let c := 32 * d + e.addr / 2 ^ 20 % 32
      let t := e.addr / 2 ^ 15 % 32
      let i := e.addr % 2 ^ 15
      let x := tileNow s c t
      let mean := Config.freeWord s.ctr
      let var := Config.freeWord (s.ctr + 1)
      let s := { s with ctr := s.ctr + 2 }
      detectUe (setTile s c t { x with mean := x.mean.set i mean, var := x.var.set i var, poison := unionN x.poison [i] })
        e.src d (e.addr % 2 ^ 25) (userOf s e.reader)

/-- UNCORRECTABLE_ERROR (R379, R380). -/
def execUncorrectableError (a : UeErr) (s : State) : Host.Outcome State Fault Refusal := .next (ueAt s a)

/-- SCRUB_PASS (R378, R380): every line of a die's HBM4 is read once: how many correctable errors the pass corrects
is free; a poisoned line is a detection. -/
def execScrubPass (die : Nat) (s : State) : Host.Outcome State Fault Refusal :=
  .next <|
    let d := die % 2
    if sysBits s RegNo.scbCtl d 31 31 = 0 then s
    else
      let (n, s) := s.pick (2 ^ 32)
      let s := s.onDie d fun x => { x with corrected := min (2 ^ 32 - 1) (x.corrected + n) }
      (s.die d).poisonHbm.foldl (fun s l => detectUe s .hbm d (l * 128) (physOwner s d (l * 128))) s

end Sys2Proof.Machine
end

