-- ==== Sys2Proof/Machine/Queues.lean ====
section
/-! DEFINITION. Queue streams (R225..R227): binding and closing ports, and the words that QUEUE_STREAM_READ and
QUEUE_STREAM_WRITE move. -/

namespace Sys2Proof.Machine

/-- A queue-stream word of a thread on its way. -/
def streamReq (acc : Acc) (l : Loc) (va : Nat) (write : Bool) (w : Word) (seq : Nat) : Req :=
  ⟨seq, acc, none, va, l, 4, !write, write, .none, .blk, [w], .sent, false, none⟩

/-- R226: the head word of a store stream leaves the port: to its bank, or on its way to memory. A window that no
longer permits it raises its fault in the pushing thread. -/
def moveWord (s : State) (t p : Nat) : State :=
  let th := s.thread t
  let g := s.groupOf t
  match th.ports.findD p [], g.qports.find? p with
  | e :: rest, some q =>
      let va := streamVa q e.row th.lane
      let s := s.onThread t fun th => { th with ports := th.ports.set p rest }
      match targetFor s t g.ctx g.core g.priv va ⟨false, true, false⟩ with
      | (.ok (.flat d b o), s) => flatWrite s d b o (bytesOfNat 4 e.word.toNat)
      | (.ok (.mem l), s) =>
          let (n, s) := s.tick
          s.onThread t fun th => { th with out := th.out ++ [streamReq (.qstore p e.pc e.iw) l va true e.word n] }
      | (.error c, s) => if th.held == .exited then s else takeTrap s t ⟨c, e.pc, e.iw, va, 0, false⟩
  | _, _ => s

/-- Every word a thread has pushed to a port leaves it. -/
def movePort (s : State) (t p : Nat) : Nat → State
  | 0 => s
  | fuel + 1 => if ((s.thread t).ports.findD p []).isEmpty then s else movePort (moveWord s t p) t p fuel

/-- R227: a port of a group is unbound: a store stream's words go on their way, what a load stream read ahead is
discarded. -/
def closePort (s : State) (g p : Nat) : State :=
  if !(s.group g).qports.has p then s
  else
    let ts := s.groupThreads g
    let s := if 4 ≤ p then ts.foldl (fun s t => movePort s t p 16) s else s
    let s := s.onThreads ts fun _ th => if p < 4 then th.rewindPort p else { th with ports := th.ports.erase p }
    s.onGroup g fun x => { x with qports := x.qports.erase p }

/-- R227: a store port closed holds each active thread until its words are performed. -/
def holdStores (is : Issued) (p : Nat) (s : State) : State :=
  if p < 4 then s
  else eachActive is s fun s t =>
    if (s.thread t).held == .ready && !accessesDone s t then stall s t (is.pc + 8) .close else s

/-- R225: the descriptor, where it obeys its table. -/
def qcfgDesc (g : Group) (k : Nat) : Option QBind :=
  let w := fun i => (g.k.findD (k + i) 0).toNat
  let base := pair (g.k.findD k 0) (g.k.findD (k + 1) 0)
  if base.toNat % 4 = 0 ∧ w 2 % 4 = 0 ∧ bits (w 3) 31 16 = 0 ∧ w 3 % 4 = 0 ∧ bits (w 5) 31 2 = 0 then
    some ⟨base, BitVec.ofNat 32 (w 2), BitVec.ofNat 16 (w 3), w 4, w 5⟩
  else none

/-- qcfg (R225). -/
def execQcfg (a : QcfgArgs) (s : State) : Host.Outcome State Fault Refusal :=
  word (.qcfg a) s fun is s =>
    match is.active with
    | [] => s
    | t :: _ =>
        let g := (s.thread t).group
        let p := a.port.toNat
        let bound := (s.group g).qports.has p
        let d := qcfgDesc (s.group g) a.k.toNat
        let s := closePort s g p
        match d with
        | none => eachActive is s fun s t => is.trap s t .qportUnbound
        | some q =>
            let s := s.onGroup g fun x => { x with qports := x.qports.set p q }
            let s := s.onThreads (s.groupThreads g) fun _ th =>
              { th with rows := th.rows.set p 0, moved := th.moved.set p 0, ports := th.ports.erase p }
            if bound then holdStores is p s else s

/-- qclose (R227). -/
def execQclose (a : QcloseArgs) (s : State) : Host.Outcome State Fault Refusal :=
  word (.qclose a) s fun is s =>
    match is.active with
    | [] => s
    | t :: _ =>
        let g := (s.thread t).group
        let p := a.port.toNat
        if (s.group g).qports.has p then holdStores is p (closePort s g p) else s

/-- R226: QUEUE_STREAM_READ: the engine reads the next word of a load stream for a lane, up to 16 rows ahead. -/
def execQueueStreamRead (tid port : Nat) (s : State) : Host.Outcome State Fault Refusal :=
  .next <|
    let th := s.thread tid
    let g := s.groupOf tid
    let row := th.moved.findD port 0
    match g.qports.find? port with
    | some q =>
        if port < 4 ∧ th.held ≠ .exited ∧ row < q.nrow ∧ row < th.rows.findD port 0 + 16 ∧ s.threads.has tid
            ∧ (s.blockOf tid).save = .resident then
          let va := streamVa q row th.lane
          let r := BitVec.ofNat 32 row
          let s := s.onThread tid fun th => { th with moved := th.moved.set port (row + 1) }
          let put := fun (s : State) (w : Word) (f : Option (Cause × Nat)) =>
            s.onThread tid fun th => th.arrive port ⟨row, w, f, 0, 0⟩
          match targetFor s tid g.ctx g.core g.priv va ⟨true, false, false⟩ with
          | (.error c, s) => put s 0 (some (c, va))
          | (.ok (.flat d b o), s) =>
              if flatPoisoned s d b o 4 then
                let (err, s) := meetPoison s tid .flat d (bankKey d b o / 4) (bankOwner s d b)
                put s (BitVec.ofNat 32 (natOfBytes (flatRead s d b o 4))) (if err then some (.memerr, va) else none)
              else put s (BitVec.ofNat 32 (natOfBytes (flatRead s d b o 4))) none
          | (.ok (.mem l), s) =>
              let (n, s) := s.tick
              s.onThread tid fun th => { th with out := th.out ++ [streamReq (.qload port) l va false r n] }
        else s
    | none => s

/-- R226: QUEUE_STREAM_WRITE: the engine takes the oldest word a thread pushed and writes it, as its plain store. -/
def execQueueStreamWrite (tid port : Nat) (s : State) : Host.Outcome State Fault Refusal :=
  .next (if 4 ≤ port ∧ (s.blockOf tid).save ≠ .swapped then moveWord s tid port else s)

end Sys2Proof.Machine
end

