-- ==== Sys2Proof/Machine/Flats.lean ====
section
/-! DEFINITION. Handing flats over (R140..R142, R240..R244): flat.give and its give point, flat.take, flat.share,
flat.stat. -/

namespace Sys2Proof.Machine

/-- R267: a granted pass reads a bank through a slot of a core. -/
def slotPassing (s : State) (core slot : Nat) : Bool :=
  s.clusters.values.any fun k => k.granted.any fun r => r.slots.contains (core * 8 + slot)

/-- R140, R142: the store-stream words that threads of a core have pushed toward its flats are performed. -/
def drainFlats (s : State) (core : Nat) : State :=
  (s.threads.keys.filter fun t => s.coreOf t == core).foldl (fun s t =>
    (List.range' 4 4).foldl (fun s p =>
      let th := s.thread t
      match (th.ports.findD p []).head?, (s.groupOf t).qports.find? p with
      | some e, some q => if inFlat (streamVa q e.row th.lane) then movePort s t p 16 else s
      | _, _ => s) s) s

/-- R241: a give that is refused, which has no give point: its status. -/
def giveRefused (s : State) (c slot c2 slot2 : Nat) : Option Nat :=
  match slotBank s c slot with
  | none => none
  | some b =>
      if dieOf c2 ≠ dieOf c ∨ s.corePart c2 ≠ s.corePart c then some 2
      else if slotRo s c slot && decide (1 < (attachments s (dieOf c) b).length) then none
      else if (slotBank s c2 slot2).isSome then some 1 else none

/-- R241: a give at its give point: the status, or the fault. -/
def giveAt (s : State) (c slot c2 slot2 : Nat) : Option Nat × State :=
  match slotBank s c slot, giveRefused s c slot c2 slot2 with
  | none, _ => (none, s)
  | some _, some x => (some x, s)
  | some b, none =>
      if slotRo s c slot && decide (1 < (attachments s (dieOf c) b).length) then (some 4, setSlot s c slot none)
      else
        let s := drainFlats s c
        (some 0, attachWake (setSlot (setSlot s c slot none) c2 slot2 (some (b, false))) c2 slot2)

/-- flat.give (R241): the thread is held until its give point. -/
def execFlatGive (a : GiveArgs) (s : State) : Host.Outcome State Fault Refusal :=
  word (.flatGive a) s fun is s => eachActive is s fun s t =>
    let c2 := match a.core with
      | .imm x => x.toNat
      | .r b => bits ((envOf s t).base1 b).toNat 7 0
    if (slotBank s is.core a.s.toNat).isNone then is.trap s t .flatDetached
    else
      let (n, s) := s.tick
      is.stall s t (.give is.core n a.s.toNat a.s2.toNat c2 a.d.toNat is.word)

/-- R128, R133: a give or a share publishes the copies its thread has sealed: it waits for them. -/
def copiesDone (s : State) (t : Nat) : Bool := (s.thread t).batches.all fun b => b.copies.isEmpty

/-- R140: FLAT_GIVE_POINT of a thread's give, gives of one slot in their order. -/
def execFlatGivePoint (tid : Nat) (s : State) : Host.Outcome State Fault Refusal :=
  .next <|
    let th := s.thread tid
    match th.held, th.why with
    | .stalled, .give c n slot slot2 c2 d iw =>
        let first := s.threads.values.all fun x => match x.why with
          | .give o m k _ _ _ _ => o != c || k != slot || decide (n ≤ m)
          | _ => true
        let held := match slotBank s c slot with
          | some b => slotPassing s c slot || copiesOn s c b || !copiesDone s tid
          | none => false
        if !first || (held && (giveRefused s c slot c2 slot2).isNone) then s
        else match giveAt s c slot c2 slot2 with
          | (some x, s) => release8 (s.onThread tid fun th => { th with v := th.v.set d (BitVec.ofNat 32 x) }) tid
          | (none, s) => takeTrap s tid ⟨.flatDetached, th.pc, iw, 0, 0, false⟩
    | _, _ => s

/-- flat.take (R242). -/
def execFlatTake (a : SlotArgs) (s : State) : Host.Outcome State Fault Refusal :=
  word (.flatTake a) s fun is s => eachActive is s fun s t =>
    match slotBank s is.core a.s.toNat with
    | some b => s.onThread t fun th => { th with v := th.v.set a.d.toNat (takeWord b (slotRo s is.core a.s.toNat)) }
    | none => waitAt s t is.pc (.take a.s.toNat a.d.toNat)

/-- R243: the cores a share names, its own apart. -/
def shareCores (core : Nat) (mask : BitVec 4) : List Nat :=
  ((List.range 4).filter fun i => mask.getLsbD i).map (fun i => clusterOf core * 4 + i) |>.filter (· != core)

/-- flat.share (R243). -/
def execFlatShare (a : ShareArgs) (s : State) : Host.Outcome State Fault Refusal :=
  word (.flatShare a) s fun is s => eachActive is s fun s t =>
    match slotBank s is.core a.s.toNat with
    | none => is.trap s t .flatDetached
    | some b =>
        if slotRo s is.core a.s.toNat then is.trap s t .flatReadonly
        else if !copiesDone s t || copiesOn s is.core b then is.stall s t .drain
        else
          let cs := shareCores is.core a.mask
          let put := fun (s : State) (x : Nat) => s.onThread t fun th => { th with v := th.v.set a.d.toNat (BitVec.ofNat 32 x) }
          if cs.any fun c => (slotBank s c a.s2.toNat).isSome then put s 1
          else
            let s := setSlot (drainFlats s is.core) is.core a.s.toNat (some (b, true))
            put (cs.foldl (fun s c => attachWake (setSlot s c a.s2.toNat (some (b, true))) c a.s2.toNat) s) 0

/-- R244: the state word of a slot. -/
def statWord (s : State) (core slot : Nat) : Word :=
  match slotBank s core slot with
  | none => 0
  | some b =>
      let ro := slotRo s core slot
      BitVec.ofNat 32 (b + 256 + if ro then 512 + 1024 * (((attachments s (dieOf core) b).length - 1) % 4) else 0)

/-- flat.stat (R244). -/
def execFlatStat (a : SlotArgs) (s : State) : Host.Outcome State Fault Refusal :=
  word (.flatStat a) s fun is s => eachActive is s fun s t =>
    s.onThread t fun th => { th with v := th.v.set a.d.toNat (statWord s is.core a.s.toNat) }

end Sys2Proof.Machine
end

