-- ==== Sys2Proof/Machine/Memory.lean ====
section
/-! DEFINITION. Loads, stores, hints and atomics (R220..R224, R228..R231): what each asks of memory, and the
event ICFLUSH_COMPLETE. -/

namespace Sys2Proof.Machine

/-! ### Addresses -/

/-- The words of `n` vector registers from a base. -/
def vecWords (e : Env) (d n : Nat) : List Word := (List.range n).map fun i => e.v (d + i)

/-! ### ld, st, ldk (R220, R221) -/

def ldAccess (a : LdstArgs) (_ : State) (e : Env) : Access :=
  { va := effAddr e a.base a.off, size := LT.bytes a.lt, align := LT.bytes a.lt, read := true, write := false,
    order := a.order, scope := a.scope, ops := [], acc := .load a.lt 0,
    dst := some (List.range' a.d.toNat a.lt.regs, false), flatOk := true, l1 := false }

def stAccess (a : LdstArgs) (_ : State) (e : Env) : Access :=
  { va := effAddr e a.base a.off, size := LT.bytes a.lt, align := LT.bytes a.lt, read := false, write := true,
    order := a.order, scope := a.scope, ops := vecWords e a.d.toNat a.lt.regs, acc := .store a.lt,
    dst := none, flatOk := true, l1 := false }

def ldkAccess (a : LdstArgs) (_ : State) (e : Env) : Access :=
  { va := effAddr e a.base a.off, size := LT.bytes a.lt, align := LT.bytes a.lt, read := true, write := false,
    order := a.order, scope := a.scope, ops := [], acc := .ldk a.lt 0 0,
    dst := some (List.range' a.d.toNat a.lt.regs, true), flatOk := true, l1 := false }

def execLd (a : LdstArgs) (s : State) : Host.Outcome State Fault Refusal := word (.ld a) s (memBody (ldAccess a))
def execSt (a : LdstArgs) (s : State) : Host.Outcome State Fault Refusal := word (.st a) s (memBody (stAccess a))
def execLdk (a : LdstArgs) (s : State) : Host.Outcome State Fault Refusal := word (.ldk a) s (memBody (ldkAccess a))

/-! ### ld.loft (R112, R221) -/

/-- The loft offset. -/
def loftOff (e : Env) (a : LdstArgs) : Int := (e.base1 a.base).toNat + a.off.toInt

/-- The precise faults of ld.loft; in understudy mode the loft is not started (R407). -/
def loftCheck (s : State) (e : Env) (a : LdstArgs) : Except Cause Nat :=
  let o := loftOff e a
  if s.isUnderstudy ∨ o < 0 ∨ (loftBytes : Int) ≤ o then .error .loftRange
  else if o.toNat % LT.bytes a.lt ≠ 0 then .error .misaligned
  else .ok o.toNat

def loftBody (a : LdstArgs) (is : Issued) (s : State) : State :=
  let d := dieOf is.core
  let n := LT.bytes a.lt
  let xs := is.active.map fun t => (t, loftCheck s (envOf s t) a)
  let (stopped, s) := xs.foldl (fun (l, s) x => match x.2 with
    | .error c => (x.1 :: l, is.trap s x.1 c)
    | .ok o =>
        if loftPoisoned s d o n then
          let (err, s) := meetPoison s x.1 .loft d o (loftOwner s d o)
          if err then (x.1 :: l, memErr s x.1 is.pc is.word o) else (l, s)
        else (l, s)) (([] : List Nat), s)
  let ok := is.active.filter fun t => !stopped.contains t && (s.thread t).held == .ready
  lateBody (.ldLoft a) false (fun s e => match loftCheck s e a with
    | .ok o => .vec a.d (LT.value a.lt (loftRead s d o n))
    | .error _ => .none) { is with active := ok } s

def execLdLoft (a : LdstArgs) (s : State) : Host.Outcome State Fault Refusal := word (.ldLoft a) s (loftBody a)

/-! ### prefetch and icflush (R223, R224) -/

/-- A hint: the part may bring the line; an address that would fault leaves it without effect. -/
def prefetchOne (a : HintArgs) (is : Issued) (s : State) (t : Nat) : State :=
  let va := effAddr (envOf s t) a.base a.off
  match targetOf s (s.ctxOf t) is.core (s.privOf t) va ⟨true, false, false⟩ with
  | .ok (.mem l) =>
      if l.phys then s
      else
        let (b, s) := s.coin
        if !b then s
        else match place s l false false with
          | (.ok (.line x), s) => if a.lv = 0 then cacheLine s t l (.line x) else s
          | (.ok (.phys d pa f), s) =>
              if physPoisoned s d pa || a.lv = 2 then s
              else
                let s := fillWay s l pa
                if a.lv = 0 then cacheLine s t l (.phys d pa f) else s
          | (_, s) => s
  | _ => s

def execPrefetch (a : HintArgs) (s : State) : Host.Outcome State Fault Refusal :=
  word (.prefetch a) s fun is s => eachActive is s (prefetchOne a is)

def execIcflush (a : HintArgs) (s : State) : Host.Outcome State Fault Refusal :=
  word (.icflush a) s fun is s => eachActive is s fun s t =>
    let va := effAddr (envOf s t) a.base a.off
    if va % 2 ^ a.lv.toNat ≠ 0 then is.trap s t .misaligned va
    else is.stall s t (.icflush va a.lv.toNat)

/-- The words of a range leave every instruction cache of a context. -/
def dropCode (s : State) (ctx : Nat) (drop : Loc → Bool) : State :=
  { s with cores := s.cores.mapKV fun _ c =>
      { c with icache := c.icache.filter fun k _ => !((icLoc k).ctx == ctx && drop (icLoc k)) } }

/-- R224: an address of the `n` bytes at `va` that some window of a context maps to a location. -/
def covers (s : State) (c va n : Nat) (l : Loc) : Bool :=
  (List.range 16).any fun w =>
    let start := sysBits s (RegNo.winA c w) 0 56 16 * 65536
    let off := sysBits s (RegNo.winB c w) 0 31 0 * 65536
    let x := start + (l.ia - off)
    decide (off ≤ l.ia ∧ va ≤ x ∧ x < va + n) && match viaWindows s c true x ⟨false, false, false⟩ with
      | .ok m => m.die == l.die && m.ia == l.ia && m.dieLocal == l.dieLocal
      | .error _ => false

/-- R224: ICFLUSH_COMPLETE: every cache concerned has dropped the range; the thread goes on. -/
def execIcflushComplete (tid : Nat) (s : State) : Host.Outcome State Fault Refusal :=
  .next <| match (s.thread tid).held, (s.thread tid).why with
    | .stalled, .icflush va n => release8 (noteFlush (dropCode s (s.ctxOf tid) (covers s (s.ctxOf tid) va (2 ^ n))) tid va (2 ^ n)) tid
    | _, _ => s

/-! ### Atomics (R228, R229) -/

/-- R129: a block whose groups stand on one core. -/
def blockOneCore (s : State) (b : Nat) : Bool :=
  let cs := (s.block b).groups.map fun g => (s.group g).core
  cs.all fun c => c == cs.headD 0

/-- The value operand: `n` registers, or an immediate sign-extended to the width. -/
def atomOps (e : Env) (b : AVal) (n : Nat) : List Word :=
  match b with
  | .v r => vecWords e r.toNat n
  | .imm i => wordsOfBytes (bytesOfNat (4 * n) (i.signExtend 64).toNat)

def atomAccess (red : Bool) (a : AtomArgs) (s : State) (e : Env) : Access :=
  let va := effAddr e a.base a.off
  { va := va, size := AT.bytes a.ty, align := AT.bytes a.ty, read := !red, write := true,
    order := a.order, scope := a.scope, ops := atomOps e a.b a.bSize,
    acc := .atom a.op a.ty (if red then none else some 0),
    dst := if red then none else some (List.range' a.d.toNat (if a.ty = .i64 then 2 else 1), false),
    flatOk := true, l1 := a.scope == .blk && blockOneCore s e.g.block }

def execAtom (a : AtomArgs) (s : State) : Host.Outcome State Fault Refusal :=
  word (.atom a) s (memBody (atomAccess false a))
def execRed (a : AtomArgs) (s : State) : Host.Outcome State Fault Refusal :=
  word (.red a) s (memBody (atomAccess true a))

/-! ### svpost and svwait (R231) -/

def svAccess (post : Bool) (a : SvArgs) (_ : State) (e : Env) : Access :=
  { va := effAddr e a.base a.off, size := 4, align := 4, read := true, write := post,
    order := if post then .rel else .acq, scope := .dev, ops := atomOps e a.b 1,
    acc := if post then .svpost else .svwait a.d.toNat, dst := none, flatOk := false, l1 := false }

def execSvpost (a : SvArgs) (s : State) : Host.Outcome State Fault Refusal :=
  word (.svpost a) s (memBody (svAccess true a))
def execSvwait (a : SvArgs) (s : State) : Host.Outcome State Fault Refusal :=
  word (.svwait a) s (memBody (svAccess false a))

end Sys2Proof.Machine
end

