-- ==== Sys2Proof/Machine/Leaves.lean ====
section
/-! DEFINITION. Leaves written and read through XLT_PTECMD and HLK_HLCMD (R367, R368, R388), the resolution of fault
records (R371), and what completes a tlbinv (R372). -/

namespace Sys2Proof.Machine

/-! ### Leaf commands (R368, R388) -/

/-- A command's operands: the page, its size, the dies, the leaf. -/
structure LeafCmd where
  ia : Nat
  large : Bool
  dies : Nat
  raw : Dword
deriving DecidableEq, Repr

def LeafCmd.size (c : LeafCmd) : Nat := if c.large then 2 ^ 21 else 2 ^ 16
def LeafCmd.page (c : LeafCmd) : Nat := c.ia / c.size

/-- The operands in XLT_PTEIA and XLT_PTEDATA of a core; the bits a leaf has not are 0. -/
def leafCmd (s : State) (core : Nat) : LeafCmd :=
  let a := (sysGet s RegNo.pteIa core).toNat
  let d := (sysGet s RegNo.pteData core).toNat
  ⟨bits a 47 16 * 65536, bits a 2 2 == 1, bits a 1 0,
    BitVec.ofNat 64 (bits d 63 50 * 2 ^ 50 + bits d 37 15 * 2 ^ 15 + bits d 1 0)⟩

/-- XLT_PIR of a partition: where its range begins and ends. -/
def pirOf (s : State) (p : Nat) : Nat × Nat :=
  let x := (sysGet s RegNo.pir p).toNat
  (bits x 31 0 * 65536, (bits x 31 0 + bits x 63 32) * 65536)

/-- A range lies within a partition's XLT_PIR. -/
def inPir (s : State) (p ia n : Nat) : Bool := let r := pirOf s p; decide (r.1 ≤ ia ∧ ia + n ≤ r.2)

/-- R364: a range meets the XLT_PIR of a partition other than `p`. -/
def foreignPir (s : State) (p ia n : Nat) : Bool :=
  (List.range 8).any fun q => q != p && (let r := pirOf s q; decide (r.1 < r.2 ∧ ia < r.2 ∧ r.1 < ia + n))

/-- R368: status 3: a leaf of the other size stands in the way. -/
def sizeConflict (s : State) (d : Nat) (c : LeafCmd) : Bool :=
  (s.die d).leaves.any fun l => l.large != c.large && (if l.large then l.page == c.ia / 2 ^ 21 else l.page / 32 == c.ia / 2 ^ 21)

/-- HBM4 that a frame may name (R366; stack 0 alone in understudy mode, R407). -/
def frameEnd (s : State) : Nat := if s.isUnderstudy then hostFrames / 4 else hostFrames

/-- R368: status 2 for a frame of HBM4. -/
def frameBad (s : State) (p d : Nat) (f : Leaf) : Bool :=
  let n := (if f.large then 2 ^ 21 else 2 ^ 16) / (if f.bit 58 then 2 else 1)
  let x := (sysGet s (RegNo.pfr d) p).toNat
  let a := f.frame
  a % n != 0 || decide (frameEnd s < a + n)
    || !decide (bits x 22 0 * 32768 ≤ a ∧ a + n ≤ (bits x 22 0 + bits x 54 32) * 32768)

/-- R388: status 2 for host frames. -/
def hostFrameBad (s : State) (p : Nat) (f : Leaf) : Bool :=
  let n := (if f.large then 2 ^ 21 else 2 ^ 16) / (if f.bit 58 then 2 else 1)
  let a := f.frame
  a % n != 0 || !decide (hostFrames ≤ a ∧ a + n ≤ 2 ^ 38) || s.isUnderstudy || sysBits s RegNo.hatBase 0 0 0 == 0
    || (List.range (n / 4096)).any fun i =>
        let e := hatEntry s (a + 4096 * i)
        bits e 0 0 != 1 || bits e 11 9 != p

/-- R368: status 5: the table memory of the die holds no further leaf. -/
def tableFull (s : State) (d : Nat) (c : LeafCmd) : Bool :=
  !((s.die d).leaves.any fun l => l.large == c.large && l.page == c.page) && decide (Config.tableRoom d ≤ (s.die d).leaves.length)

/-- The status of a command on a die, where it refuses. -/
def leafRefusal (s : State) (p d : Nat) (host : Bool) (op : Nat) (c : LeafCmd) : Nat :=
  let f : Leaf := ⟨c.page, c.large, c.raw⟩
  if !inPir s p c.ia c.size || c.ia % c.size != 0 || (op != 1 && foreignPir s p c.ia c.size) then 1
  else if op == 2 && (if host then hostFrameBad s p f else frameBad s p d f) then 2
  else if sizeConflict s d c then 3
  else if op == 2 && s.ctxPart (f.owner).toNat != some p then 4
  else if op == 2 && tableFull s d c then 5
  else 0

/-- The leaf of a page set or removed in the table of a die. -/
def setLeaf (s : State) (d : Nat) (c : LeafCmd) (keep : Bool) : State :=
  s.onDie d fun x =>
    let ls := x.leaves.filter fun l => !(l.large == c.large && l.page == c.page)
    { x with leaves := if keep then ⟨c.page, c.large, c.raw⟩ :: ls else ls }

/-- R368: a WRITE or CLEAR on the dies named, as far as they do not refuse. -/
def leafChange (s : State) (p : Nat) (host : Bool) (op : Nat) (c : LeafCmd) : Nat × State :=
  (bitList 2 c.dies).foldl (fun (st, s) d =>
    if st != 0 then (st, s)
    else match leafRefusal s p d host op c with
      | 0 => (0, setLeaf s d c (op == 2))
      | n => (n, s)) (0, s)

/-- R368: a READ: the leaf of die 0 where it is named, else of die 1. -/
def leafRead (s : State) (p core : Nat) (host : Bool) (c : LeafCmd) : Nat × State :=
  let d := if c.dies.testBit 0 then 0 else 1
  match leafRefusal s p d host 1 c with
  | 0 => (0, sysPut s RegNo.pteData core ((((s.die d).leaves.find? fun l => l.large == c.large && l.page == c.page).map Leaf.raw).getD 0))
  | n => (n, s)

/-- R368, R388: a write of XLT_PTECMD, or of HLK_HLCMD. -/
def leafCommand (s : State) (p core : Nat) (host : Bool) (op : Nat) : State :=
  let c := leafCmd s core
  let put := fun (x : Nat × State) => sweep (sysPutBits x.2 (if host then RegNo.hlCmd else RegNo.pteCmd) core 5 2 x.1)
  match op with
  | 0 => s
  | 1 => put (leafRead s p core host c)
  | _ => put (leafChange s p host op c)

/-! ### XLT_RESOLVE (R371) -/

/-- A held write-back is translated again: of the line its slice still holds, or of the line put back for it. -/
def retryBack (s : State) (x : Line) : State :=
  match lineAt s ⟨x.die, x.line * 128, x.dieLocal, false, 0, 0⟩ with
  | some y => evict false s { y with dirty := true }
  | none => evict false (putLine s x) x

/-- RETRY: the id is free, and every held request is translated again. -/
def faultRetry (s : State) (p id : Nat) : State :=
  match (s.part p).faults.find? id with
  | none => s
  | some f =>
      let s := s.onPart p fun x => { x with faults := x.faults.erase id }
      let mine := (s.threads.keys.filter fun t => s.partOf t == p)
      let s := s.onThreads mine fun _ th =>
        { th with out := th.out.map fun (r : Req) =>
            if r.st == ReqSt.fault id then { r with st := if r.entry.isSome then .resolved else .sent } else r }
      let s := (f.fetchers.filter fun t => (s.thread t).why == .fetch).foldl setReady s
      f.wbs.foldl retryBack s

/-- DENY: the id is free, and each held request is disposed of by its kind. -/
def faultDeny (s : State) (p id : Nat) : State :=
  match (s.part p).faults.find? id with
  | none => s
  | some f =>
      let s := s.onPart p fun x => { x with faults := x.faults.erase id }
      let reason : FaultReason := match f.reason with
        | 0 => .noLeaf | 1 => .kind | 2 => .stable | _ => .noWrite
      let held := s.threads.items.flatMap fun e =>
        if s.partOf e.1 == p then (e.2.out.filter fun r => r.st == .fault id).map fun r => (e.1, r) else []
      let s := held.foldl (fun s x => denyAccess s x.1 x.2 reason) s
      let s := (f.fetchers.filter fun t => (s.thread t).why == .fetch).foldl (fun s t =>
        let pc := (s.thread t).pc
        takeTrap s t ⟨.fetchFault, pc, 0, pc.toNat, 0, false⟩) s
      f.wbs.foldl (fun s x =>
        let s := match lineAt s ⟨x.die, x.line * 128, x.dieLocal, false, 0, 0⟩ with
          | some y => dropLine s y
          | none => s
        if liveCtx s x.owner then endContext s x.owner.toNat else s) s

/-- R370: a write of XLT_RESOLVE. -/
def faultResolve (s : State) (p : Nat) (x : Dword) : State :=
  let id := bits x.toNat 11 0
  match bits x.toNat 13 12 with
  | 1 => faultRetry s p id
  | 2 => faultDeny s p id
  | _ => s

/-! ### tlbinv (R372) -/

/-- R372: a place meets the intermediate range of `n` bytes at `ia`. -/
def rangeHit (ia n line : Nat) : Bool := decide (line * 128 < ia + n ∧ ia < line * 128 + 128)

/-- R372, step 1: every copy of a line of the range leaves the slices and remote ways, dirty ones by their write-back. -/
def flushRange (s : State) (ia n : Nat) : State :=
  let lines := [0, 1].flatMap fun d => (s.die d).slices.values.flatMap fun z => z.lines.filter fun x => rangeHit ia n x.line
  let s := lines.foldl (evict true) s
  { s with dies := s.dies.mapKV fun _ d =>
    { d with slices := d.slices.mapKV fun _ z => { z with remote := z.remote.filter fun r => !rangeHit ia n r.2 } } }

/-- A line of the range that its slice still holds: no fault id is free for its write-back (R370). -/
def unflushed (s : State) (ia n : Nat) : Bool :=
  [0, 1].any fun d => (s.die d).slices.values.any fun z => z.lines.any fun x => rangeHit ia n x.line

/-- R372, step 2: translators, locate caches and the context's instruction caches drop the range. -/
def dropRange (s : State) (c ia n : Nat) : State :=
  let touches := fun (l : Leaf) =>
    let k := if l.large then 2 ^ 21 else 2 ^ 16
    decide (l.page * k < ia + n ∧ ia < l.page * k + k)
  let s := { s with dies := s.dies.mapKV fun _ d =>
    { d with
      xlts := d.xlts.mapKV fun _ y => { cached := y.cached.filter fun l => !touches l }
      locate := d.locate.filter fun k _ => !rangeHit ia n (k % 2 ^ 41) } }
  -- entries of the host-address table cached for a page of the range (R388)
  let s := s.onPkg fun x =>
    { x with hat := x.hat.filter fun k _ => decide (ia + n ≤ k / 2 ^ 24 % 2 ^ 32 * 2 ^ 16 ∨ k / 2 ^ 24 % 2 ^ 32 * 2 ^ 16 + 2 ^ 16 ≤ ia) }
  dropCode s c fun l => decide (ia ≤ l.ia ∧ l.ia < ia + n)

/-- R372, step 3: a request to the range that has left for memory and is not yet performed there. -/
def onItsWay (s : State) (ia n : Nat) : Bool :=
  s.threads.values.any fun th => th.out.any fun r => decide (ia ≤ r.loc.ia ∧ r.loc.ia < ia + n) && match r.st with
    | .host _ => true
    | _ => false

/-- TLBINV_COMPLETE (R372). -/
def execTlbinvComplete (tid : Nat) (s : State) : Host.Outcome State Fault Refusal :=
  .next <| match (s.thread tid).held, (s.thread tid).why with
    | .stalled, .tlbinv d ia c log2sz all =>
        let (ia, n) := if all then (0, 2 ^ 48) else (ia, 2 ^ log2sz)
        let s := flushRange s ia n
        if unflushed s ia n || onItsWay s ia n then s
        else release8 ((dropRange s c ia n).onThread tid fun th => { th with v := th.v.set d 0 }) tid
    | _, _ => s

end Sys2Proof.Machine
end

