-- ==== Sys2Proof/Machine/ScaleOut.lean ====
section
/-! DEFINITION. The collective group of a partition (R394): UEP_GRP and the rank table. -/

namespace Sys2Proof.Machine

/-- R394: an entry of the rank table, where it keeps the table's form. -/
def rankOf (b : List Byte) : Option Rank :=
  let f := fun off n => natOfBytes ((b.drop off).take n)
  let r : Rank := ⟨b.take 16, f 16 4, f 20 2, f 22 1, (f 23 1).testBit 0, (f 23 1).testBit 1⟩
  if r.job < 2 ^ 24 ∧ r.pid < 8 ∧ f 23 1 < 4 ∧ f 24 8 = 0 ∧ (r.valid → r.ports ≠ 0) then some r else none

/-- R394: a transfer or an arrival that binds the group is outstanding. -/
def groupBusy (s : State) (p : Nat) : Bool :=
  s.copies.values.any (fun c => c.kind == .coll && c.part == p) || !(s.part p).ready.isEmpty
    || s.threads.items.any fun e => s.partOf e.1 == p && ((match e.2.why with
        | .bar _ _ _ super _ => super
        | _ => false) || e.2.out.any fun r => match r.acc with
        | .bar super _ => super
        | _ => false)

/-- R394: the table read and checked: none where it is invalid, nothing decided while a translator holds the read. -/
inductive TableRead
  | ranks (l : List Rank)
  | invalid
  | wait
deriving DecidableEq, Repr

def readTable (s : State) (p : Nat) (x : Dword) : TableRead × State :=
  let n := (bits x.toNat 35 24 + 1) * (bits x.toNat 47 36 + 1) * (bits x.toNat 59 48 + 1)
  let self := bits x.toNat 11 0
  if s.isUnderstudy ∨ 4096 < n ∨ n ≤ self then (.invalid, s)
  else match agentRead s p (sysBits s RegNo.uepBase p 56 5 * 32) (32 * n) with
    | (.wait, s) => (.wait, s)
    | (.fault _ _, s) => (.invalid, s)
    | (.ok b, s) =>
        let rs := (List.range n).map fun i => rankOf ((b.drop (32 * i)).take 32)
        if rs.any Option.isNone || !(((rs.getD self none).map Rank.valid).getD false) then (.invalid, s)
        else (.ranks (rs.filterMap id), s)

/-- R394: a write of UEP_GRP; none while the table's read waits at a translator. -/
def groupWrite (s : State) (p : Nat) (x : Dword) : Option State :=
  let n := RegNo.uepGrp
  let old := sysGet s n p
  let new := (regInfo n).map (fun i => regStored n i old x) |>.getD old
  if !x.getLsbD 63 then some (sysPut s n p new)
  else if groupBusy s p then some (sysPutBits s n p 62 61 1)
  else match readTable s p x with
    | (.wait, _) => none
    | (.invalid, s) => some (sysPut s n p (putBits (putBits new 63 63 0) 62 61 2))
    | (.ranks l, s) => some ((sysPut s n p (putBits new 62 61 0)).onPart p fun y => { y with ranks := l })

end Sys2Proof.Machine
end

