-- ==== Sys2Proof/Machine/Switch.lean ====
section
/-! DEFINITION. The flats switch (R377): writes of FLS_MAP, FLS_OWN and FLS_BANKCTL. -/

namespace Sys2Proof.Machine

/-- R140: a give of the slot that came earlier in the core's order has yet to reach its give point. -/
def giveAhead (s : State) (core slot : Nat) : Bool :=
  s.threads.values.any fun x => match x.why with
    | .give o _ k _ _ _ _ => o == core && k == slot
    | _ => false

/-- R140, R267: the removal of what a slot holds must wait for its give point. -/
def removalWaits (s : State) (core slot : Nat) : Bool :=
  match slotBank s core slot with
  | some b => slotPassing s core slot || copiesOn s core b
  | none => false

/-- A write of FLS_MAP that detaches must wait for its give point. -/
def mapWaits (s : State) (core slot : Nat) (x : Dword) : Bool :=
  giveAhead s core slot || (!x.getLsbD 31 && removalWaits s core slot)

/-- R377: a bank leaves a slot, as by a give without a target. -/
def detach (s : State) (core slot : Nat) : State :=
  if (slotBank s core slot).isSome then setSlot (drainFlats s core) core slot none else s

/-- R377: the conditions under which a write that sets A takes effect. -/
def mapAllowed (s : State) (core slot bank : Nat) (ro : Bool) : Bool :=
  let d := dieOf core
  let at_ := attachments s d bank
  (slotBank s core slot).isNone && (s.corePart core).isSome && bankPart s d bank == s.corePart core
    && (at_.isEmpty || (ro && decide (at_.length < 4) && at_.all fun e => slotRo s e.1 e.2 && clusterOf e.1 == clusterOf core))

/-- R377: a write of FLS_MAPs. -/
def mapWrite (s : State) (core slot : Nat) (x : Dword) : State :=
  let bank := bits x.toNat 7 0
  let ro := bits x.toNat 30 30 == 1
  if !x.getLsbD 31 then detach s core slot
  else if mapAllowed s core slot bank ro then attachWake (setSlot s core slot (some (bank, ro))) core slot
  else s

/-- A bank filled with zeros; a poisoned word of it is written whole (R380). -/
def clearBank (s : State) (d bank : Nat) : State :=
  (zeroBank s d bank).onDie d fun x => { x with poisonFlat := x.poisonFlat.filter fun w => 4 * w / bankBytes != d * 256 + bank }

/-- R377: a write of FLS_OWNb. -/
def ownWrite (s : State) (d bank : Nat) (x : Dword) : State :=
  let n := RegNo.flsOwn bank
  let old := sysGet s n d
  let new := (regInfo n).map (fun i => regStored n i old x) |>.getD old
  if bits old.toNat 31 28 = bits new.toNat 31 28 then sysPut s n d new
  else if !(attachments s d bank).isEmpty then s
  else sysPut (clearBank s d bank) n d new

/-- FLS_BANKCTL.ST. -/
def bankStatus (s : State) (d n : Nat) : State := sysPutBits s RegNo.flsBankCtl d 29 28 n

/-- FLS_BANKCTL DETACH must wait for the give points of the removals. -/
def bankWaits (s : State) (d : Nat) (x : Dword) : Bool :=
  let b := bits x.toNat 7 0
  bits x.toNat 31 30 == 1 && (attachments s d b).any fun e => giveAhead s e.1 e.2 || removalWaits s e.1 e.2

/-- R377: a write of FLS_BANKCTL for a partition. -/
def bankCommand (s : State) (p d : Nat) (x : Dword) : State :=
  let b := bits x.toNat 7 0
  let mine := bankPart s d b == some p
  match bits x.toNat 31 30 with
  | 0 => s
  | 1 => if mine then bankStatus ((attachments s d b).foldl (fun s e => detach s e.1 e.2) s) d 0 else bankStatus s d 1
  | 2 => if mine && (attachments s d b).isEmpty then bankStatus (clearBank s d b) d 0 else bankStatus s d 1
  | _ => if mine then bankStatus (sysPutBits s (RegNo.flsOwn b) d 7 0 (bits x.toNat 23 16)) d 0 else bankStatus s d 1

end Sys2Proof.Machine
end

