-- ==== Sys2Proof/Machine/Tableau.lean ====
section
/-! DEFINITION. Tableaux (R335, R412..R414): arming, triggers, the latch, the records. -/

namespace Sys2Proof.Machine

def onTableau (s : State) (p : Nat) (f : Tableau → Tableau) : State := s.onPart p fun x => { x with tableau := f x.tableau }

/-- The handle of no thread. -/
def noThread : Word := 0xFFFF_FFFF

/-! ### tblarm, tblread, TBL_CTL -/

/-- R412: CAP as tblarm reads it. -/
inductive CapRead
  | cap (n : Nat)
  | bad
  | wait
deriving DecidableEq, Repr

def readCap (s : State) (c va : Nat) : CapRead × State :=
  if va % 4096 ≠ 0 then (.bad, s)
  else match readRange s c true va 8 with
    | (.ok b, s) =>
        let n := natOfBytes b
        (if n % 4096 ≠ 0 ∨ n < 4096 then .bad else .cap n, s)
    | (.fault _ _, s) => (.bad, s)
    | (.wait, s) => (.wait, s)

/-- A thread's tblarm (R335, R412). -/
def tblarmOne (a : TblarmArgs) (is : Issued) (s : State) (t : Nat) : State :=
  let p := s.partOf t
  let va := ((envOf s t).base2 a.a).toNat
  let put := fun (s : State) (x : Word) => s.onThread t fun th => { th with v := th.v.set a.d.toNat x }
  if (s.part p).tableau.armed then put s 4
  else match readCap s (s.ctxOf t) va with
    | (.bad, s) => put s 5
    | (.wait, s) => is.stall s t .retry
    | (.cap n, s) =>
        let s := onTableau s p fun _ =>
          { Tableau.idle with armed := true, trig := a.trig.toNat, buf := va, cap := n, ctx := s.ctxOf t }
        put (if a.fire then fireTableau s p 4 (s.handle t) true else s) 0

/-- tblarm (R335, R412). -/
def execTblarm (a : TblarmArgs) (s : State) : Host.Outcome State Fault Refusal :=
  word (.tblarm a) s fun is s => eachActive is s (tblarmOne a is)

/-- R335: the status word. -/
def tableauWord (x : Tableau) : Word :=
  BitVec.ofNat 32 ((if x.armed then 1 else 0) + (if x.fired then 2 + 16 * x.code else 0) + (x.written % 2 ^ 16) * 2 ^ 16)

/-- tblread (R335, R414): one that finds a capture finished is an acquire at .dev. -/
def execTblread (a : TblreadArgs) (s : State) : Host.Outcome State Fault Refusal :=
  word (.tblread a) s fun is s => eachActive is s fun s t =>
    let x := (s.part (s.partOf t)).tableau
    let s := s.onThread t fun th => { th with v := th.v.set a.d.toNat (tableauWord x) }
    if !x.armed && x.fired then acquire s t .dev [] false else s

/-- R413, R414: a write of TBL_CTL. -/
def tableauControl (s : State) (p : Nat) (x : Dword) : State :=
  let s := if x.getLsbD 0 then fireTableau s p 2 noThread false else s
  if x.getLsbD 1 then onTableau s p fun y => if y.armed && !y.fired then { y with armed := false } else y else s

/-- TABLEAU_EXTERNAL_TRIGGER (R413). -/
def execTableauExternalTrigger (s : State) : Host.Outcome State Fault Refusal :=
  .next <| (List.range 8).foldl (fun s p => fireTableau s p 3 noThread false) s

/-! ### The capture (R413, R414) -/

/-- The state of a thread as a record shows it. -/
def recordState (th : Thread) : Nat := if isCurtained th then 3 else heldCode th.held

/-- R414: the record of a group. -/
def groupRecord (s : State) (id : Nat) (g : Group) : List Byte :=
  let b := s.block g.block
  let l := s.launch b.launch
  let lanes := (List.range 32).map fun i => (s.laneOf id i).map s.thread
  let liveBits := (lanes.zipIdx.map fun e => match e.1 with
    | some th => if th.held == .exited then 0 else 2 ^ e.2
    | none => 0).sum
  bytesOfNat 4 (g.ctx + g.core * 2 ^ 8 + g.slot * 2 ^ 16 + b.stage * 2 ^ 24) ++ bytesOfNat 4 g.index ++ bytesOfNat 8 b.lin
    ++ bytesOfNat 8 l.seq ++ bytesOfNat 4 l.queue ++ bytesOfNat 4 g.fsr.toNat
    ++ ((List.range 12).flatMap fun i => bytesOfNat 4 (maskOf g i).m.toNat)
    ++ bytesOfNat 4 liveBits ++ List.replicate 44 0
    ++ lanes.flatMap fun e => bytesOfNat 8 (match e with
      | some th => bits th.pc.toNat 56 3 * 8 + recordState th
      | none => 7)

/-- The resident groups of a partition, in ascending order of core and then group slot. -/
def residentGroups (s : State) (p : Nat) : List (Nat × Group) :=
  ((s.groups.filter fun _ g => s.holdsSlots g.block && (s.launch (s.block g.block).launch).part == p).items).mergeSort
    fun x y => decide (x.2.core * 256 + x.2.slot ≤ y.2.core * 256 + y.2.slot)

/-- TABLEAU_LATCH (R413): every snapshot of the partition at one clk. -/
def execTableauLatch (part : Nat) (s : State) : Host.Outcome State Fault Refusal :=
  .next <|
    let x := (s.part part).tableau
    if x.armed && x.fired && x.latched.isNone then
      (onTableau s part fun y =>
        { y with latched := some ((residentGroups s part).map fun e => groupRecord s e.1 e.2), ns := s.ns, clk := s.clk }).send .trigOut
    else s

/-- How far the writing of a capture has come. -/
inductive RecRun
  | go | cut | wait
deriving DecidableEq, Repr

/-- One range of the buffer written, unless the buffer has faulted. -/
def recPut (c : Nat) (r : RecRun × State) (va : Nat) (b : List Byte) : RecRun × State :=
  match r with
  | (.go, s) => match writeRange s c true (.agent []) va b with
      | (.ok _, s) => (.go, s)
      | (.fault _ _, s) => (.cut, s)
      | (.wait, s) => (.wait, s)
  | x => x

/-- R414: the records, in their order; how many were written. -/
def recAll (x : Tableau) (rs : List (List Byte)) (s : State) : Nat × RecRun × State :=
  let head := recPut x.ctx (.go, s) (x.buf + 8) (bytesOfNat 8 x.ns ++ bytesOfNat 8 x.clk ++ bytesOfNat 4 x.code)
  let head := recPut x.ctx head (x.buf + 36) (bytesOfNat 4 x.thread.toNat ++ List.replicate 24 0)
  let r := rs.zipIdx.foldl (fun (n, r) e =>
    let r := recPut x.ctx r (x.buf + 64 + 384 * e.2) e.1
    (if r.1 = .go then n + 1 else n, r)) (0, head)
  (r.1, r.2.1, r.2.2)

/-- TABLEAU_RECORDS_WRITTEN (R414): the records; COUNT and LOST with a release at .dev; then armed clears. -/
def execTableauRecordsWritten (part : Nat) (s : State) : Host.Outcome State Fault Refusal :=
  .next <|
    let x := (s.part part).tableau
    match x.latched with
    | none => s
    | some all =>
        let rs := all.take ((x.cap - 64) / 384)
        let n0 := s.hist.next
        match recAll x rs s with
        | (_, .wait, _) => s
        | (n, _, s) =>
            let (pub, s) := publish s .device .dev (List.range' n0 (s.hist.next - n0)) false
            let s := (writeRange s x.ctx true (.agent [pub]) (x.buf + 28) (bytesOfNat 4 n ++ bytesOfNat 4 (all.length - rs.length))).2
            let (_, s) := publish s .device .dev (List.range' n0 (s.hist.next - n0)) false
            sweep (onTableau s part fun y => { y with armed := false, latched := none, written := n })

end Sys2Proof.Machine
end

