-- ==== Sys2Proof/Machine/Registers.lean ====
section
/-! DEFINITION. Access to the system registers (R7, R313, R314, R384, R385): who reaches which instance, what a read
returns and does, what a write does; csrr and csrw; the events that are such accesses. -/

namespace Sys2Proof.Machine

/-! ### Who reaches a register (R314, R384) -/

/-- The context whose register this is, for registers that exist once per context (R384: the index names it). -/
def ctxIndex (n : Nat) : Nat :=
  let i := n % 0x4000
  if n / 0x4000 = 2 then (i - 0x1000) / 32
  else if i < 0x1000 then i - 0x100
  else (i - 0x1000) / 16

/-- R314: the instance that csrr and csrw on a core reach for a thread of a partition, where they may. -/
def coreInst (s : State) (p core n : Nat) (i : RegInfo) : Option Nat :=
  if i.mOnly then none
  else match i.per with
    | .package => some 0
    | .ctx => if s.ctxPart (ctxIndex n) = some p then some 0 else none
    | .part => some p
    | .die => some (dieOf core)
    | .core => some core

/-- R384: the instance of a virtual function's access. -/
def vfInst (s : State) (v n inst : Nat) (i : RegInfo) : Option Nat :=
  if i.mOnly then none
  else match i.per with
    | .package => if inst = 0 then some 0 else none
    | .ctx => if inst = 0 ∧ s.ctxPart (ctxIndex n) = some v then some 0 else none
    | .part => if inst = 0 then some v else none
    | .die => if inst < 2 ∧ (s.diesOf v).contains inst then some inst else none
    | .core => if inst < 256 ∧ s.corePart inst = some v then some inst else none

/-- R384: the instance of an access by the physical function or the stage manager. -/
def pfInst (inst : Nat) (i : RegInfo) : Option Nat :=
  let n := match i.per with
    | .package | .ctx => 1
    | .part => 8
    | .die => 2
    | .core => 256
  if inst < n then some inst else none

/-- The partition that owns an instance, where one does (R385). -/
def instPart (s : State) (n inst : Nat) : Option Nat :=
  match (regInfo n).map RegInfo.per with
  | some .part => if inst < 8 then some inst else none
  | some .ctx => s.ctxPart (ctxIndex n)
  | some .core => if inst < 256 then s.corePart inst else none
  | _ => none

/-- Ports 2 and 3 of the debug aperture (R386). -/
def linkRefused (n : Nat) : Bool := [RegNo.dbgSel 2, RegNo.dbgSel 3, RegNo.dbgData 2, RegNo.dbgData 3].contains n

/-- The instance an access reaches, and the partition it acts for. -/
def reach (s : State) (who : Requester) (n inst : Nat) : Option (Nat × Nat) :=
  match regInfo n with
  | none => none
  | some i =>
      match who with
      | .core c => match s.corePart c with
          | some p => (coreInst s p c n i).map fun k => (k, p)
          | none => none
      | .vf v => if s.isUnderstudy || linkRefused n then none else (vfInst s v.toNat n inst i).map fun k => (k, v.toNat)
      | _ => if linkRefused n then none else (pfInst inst i).map fun k => (k, (instPart s n inst).getD 0)

/-! ### Reads that do more than return the stored bits -/

/-- A value taken from a FIFO: its oldest entry, or 0. -/
def popList (l : List Dword) : Dword × List Dword := (l.headD 0, l.drop 1)

/-- R378, R380: an entry of SCB_UELOG. -/
def ueWord (e : UeEntry) (lost : Nat) : Dword :=
  BitVec.ofNat 64 (2 ^ 63 + e.src * 2 ^ 60 + e.owner.toNat * 2 ^ 52 + (if e.killed then 2 ^ 51 else 0) + lost * 2 ^ 48 + e.addr % 2 ^ 48)

/-- R357: DISP_BSOPEN as it reads. -/
def bsOpenWord (s : State) (p : Nat) : Dword :=
  let x := sysGet s RegNo.bsOpen p
  match (s.part p).bubble with
  | none => x
  | some b => if s.ns < b.ends then putBits (putBits x 63 63 1) 31 0 (min (b.ends - s.ns) (2 ^ 32 - 1)) else x

/-- R7: what a read returns, and what it changes. -/
def regRead (s : State) (n inst : Nat) : Dword × State :=
  let x := sysGet s n inst
  if n = RegNo.bsOpen then (bsOpenWord s inst, s)
  else if n = RegNo.xcuStat then (putBits x 12 0 (s.die inst).xops.length, s)
  else if n = RegNo.bootFails then (BitVec.ofNat 64 s.pkg.fails, s)
  else if n = RegNo.smgFifo then
    let r := popList s.pkg.smgNotes
    (r.1, s.onPkg fun y => { y with smgNotes := r.2 })
  else if n = RegNo.hlkNote then
    let r := popList (s.part inst).notes
    (r.1, s.onPart inst fun y => { y with notes := r.2 })
  else if n = RegNo.hlkErr then (x, sysPut s n inst 0)
  else if n / 0x4000 = 3 ∧ 8 ≤ n % 0x4000 then (x, sysPut s n inst 0)
  else if n = RegNo.scbCe then
    -- reads met a free number of correctable errors (R378; log entry 2)
    let (k, s) := s.pick (2 ^ 32)
    (BitVec.ofNat 64 (min (2 ^ 32 - 1) ((s.die inst).corrected + k)), s.onDie inst fun y => { y with corrected := 0 })
  else if n = RegNo.scbUe then
    match (s.die inst).ueLog with
    | [] => (0, s)
    | e :: r => (ueWord e (s.die inst).ueLost, s.onDie inst fun y => { y with ueLog := r, ueLost := 0 })
  else if n / 0x4000 = 0x12 ∧ 0x100 ≤ n % 0x4000 then
    -- VMV is a measurement that the spec does not give (log entry 2)
    let (v, s) := if s.isUnderstudy then ((Config.freeWord 0).toNat % 2 ^ 16, s) else ((Config.freeWord s.ctr).toNat % 2 ^ 16, { s with ctr := s.ctr + 1 })
    (putBits x 15 0 v, sysPutBits s n inst 31 16 0)
  else if n / 0x4000 = 0x0B ∧ 4 ≤ n % 0x4000 ∧ n % 0x4000 < 8 then dataRead s inst (n % 0x4000 - 4)
  else (x, s)

/-! ### Writes that act -/

/-- R338: a TAIL write. -/
def tailWrite (s : State) (p q v : Nat) : State :=
  if lqDev s p q || !lqEnabled s p q || decide (lqCap s p q < (v + 2 ^ 32 - lqHead s p q) % 2 ^ 32) then s
  else sysPutBits s (RegNo.lqPtr q) p 31 0 v

/-- R355, R407: a write of DISP_PCL. -/
def pclWrite (s : State) (p : Nat) (x : Dword) : State :=
  let old := sysGet s RegNo.pcl p
  let shared := (List.range 8).any fun q => q != p && sysGet s RegNo.pcl q &&& x != 0
  let gone := bitList 64 (old &&& ~~~x).toNat
  let resident := s.groups.items.any fun e =>
    s.holdsSlots e.2.block && (s.launch (s.block e.2.block).launch).part == p && gone.contains (clusterOf e.2.core)
  if shared || resident || (s.isUnderstudy && x &&& ~~~0x0000_0001_0000_0001 != 0) then s else sysPut s RegNo.pcl p x

/-- R311: what keeps a context's assignment. -/
def ctxBusy (s : State) (c : Nat) : Bool :=
  (s.groups.items.any fun e => e.2.ctx == c && (s.holdsSlots e.2.block || (s.block e.2.block).save != .resident))
    || s.launches.values.any (fun l => l.ctx == c && l.retire != .gone)
    || [0, 1].any (fun d => ((s.die d).shadow.map fun i => i.ctx == c).getD false)
    || (List.range 8).any fun v => (List.range 64).any fun q => lqCtx s v q == c

/-- R311: a write of DISP_CTXc. -/
def ctxWrite (s : State) (c : Nat) (x : Dword) : State :=
  let n := RegNo.ctx c
  let old := sysGet s n 0
  let new := (regInfo n).map (fun i => regStored n i old x) |>.getD old
  if ((old.getLsbD 31 && !new.getLsbD 31) || bits old.toNat 2 0 != bits new.toNat 2 0) && ctxBusy s c then s
  else sysPut s n 0 new

/-- R356: the control block of a queue: its ring and its capacity. -/
def cueBlock (b : List Byte) : Option (Nat × Nat) :=
  let ring := natOfBytes (b.take 8)
  let w := natOfBytes ((b.drop 8).take 4)
  if ring % 8 = 0 ∧ 3 ≤ w ∧ w ≤ 24 ∧ (b.drop 12).all (· == 0) then some (ring, 2 ^ w) else none

/-- R356: a write of DISP_CUEREG; none while the block's read waits at a translator. -/
def cueRegWrite (s : State) (p : Nat) (x : Dword) : Option State :=
  let h := bits x.toNat 56 6 * 64
  let put := fun (s : State) (st : Nat) => sysPut s RegNo.cueReg p (BitVec.ofNat 64 (h + 2 * st))
  let q := (s.part p).cues.find? h
  if x.getLsbD 0 then
    if q.isSome || decide (4096 ≤ (s.part p).cues.size) then some (put s 1)
    else match agentRead s p h 64 with
      | (.wait, _) => none
      | (.fault _ _, s) => some (put s 2)
      | (.ok b, s) => match cueBlock b with
          | none => some (put s 2)
          | some (r, c) => some (put (s.onPart p fun y => { y with cues := y.cues.set h ⟨r, c, [], 0, []⟩ }) 0)
  else match q with
    | none => some (put s 1)
    | some c =>
        if !c.entries.isEmpty || !c.waiters.isEmpty then some (put s 1)
        else some (put (s.onPart p fun y => { y with cues := y.cues.erase h }) 0)

/-- R360: a write of SMG_CUEE. -/
def smgPush (s : State) (x : Dword) : State :=
  let w := (sysGet s RegNo.smgCueH 0).toNat
  let p := bits w 5 4 + 4 * bits w 3 3
  let h := bits w 56 6 * 64
  if cueFull s p h then sysPutBits s RegNo.smgCueH 0 0 0 1
  else
    let ids := unionN s.hist.dev s.pkg.smgStores
    let (_, s) := publish s .device .dev ids false
    cueEnter (sysPutBits s RegNo.smgCueH 0 0 0 0) p h x ids

/-- R357, R358: a write of DISP_BSOPEN. -/
def bsOpenWrite (s : State) (p : Nat) (x : Dword) : State :=
  let n := RegNo.bsOpen
  let old := sysGet s n p
  let s := sysPut s n p ((regInfo n).map (fun i => regStored n i old x) |>.getD old)
  if bits x.toNat 31 0 = 0 then closeBubble s p s.ns else openBubble s p (bits x.toNat 31 0)

/-- R405: a write of BOOT_FAILS, stored to flash at once. -/
def bootFailsPut (s : State) (x : Dword) : State :=
  s.onPkg fun y => { y with fails := bits x.toNat 1 0, forced := bits x.toNat 1 0 == 3 }

/-- R7: a plain write. -/
def plainWrite (s : State) (n inst : Nat) (x : Dword) : State :=
  match regInfo n with
  | none => s
  | some i => sysPut s n inst (regStored n i (sysGet s n inst) x)

/-- R373: L2S_RWFs: with AUTO off CUR follows WAYS; in understudy mode it stays (R407). -/
def rwfWrite (s : State) (n inst : Nat) (x : Dword) : State :=
  let s := plainWrite s n inst x
  let y := (sysGet s n inst).toNat
  if bits y 31 31 = 0 ∧ !s.isUnderstudy then setWays s inst (n % 0x4000) (bits y 3 0) else s

/-- The registers of the dispatcher that act on a write, or check it. -/
def dispWrite (s : State) (priv : Bool) (n inst : Nat) (x : Dword) : Option State :=
  let i := n % 0x4000
  if n = RegNo.evcAdd then some (evcBump s inst (bits x.toNat 41 32) (bits x.toNat 31 0))
  else if n = RegNo.pcl then some (pclWrite s inst x)
  else if n = RegNo.bsOpen then some (bsOpenWrite s inst x)
  else if n = RegNo.cueReg then cueRegWrite s inst x
  else if n = RegNo.cancel then some (cancel s inst (bits x.toNat 53 48) (bits x.toNat 47 0))
  else if 0x200 ≤ i ∧ i < 0x240 then
    -- a write at level S leaves PRIV (R337)
    some (plainWrite s n inst (if priv then x else putBits x 59 59 (sysBits s n inst 59 59)))
  else if 0x240 ≤ i ∧ i < 0x280 then some (tailWrite s inst (i - 0x240) (bits x.toNat 31 0))
  else if 0x400 ≤ i ∧ i < 0x800 then some (seeDeps (plainWrite s n inst x) inst)
  else if 0x800 ≤ i ∧ i < 0x8FF then some (ctxWrite s (i - 0x800) x)
  else some (plainWrite s n inst x)

/-- R7: a write of a register that the writer reaches: `priv` at level M, for partition `p`; none while it waits. -/
def regWrite (s : State) (who : Requester) (p n inst : Nat) (x : Dword) : Option State :=
  let i := n % 0x4000
  match n / 0x4000 with
  | 0x01 => dispWrite s (match who with
      | .pf | .smg => true
      | _ => false) n inst x
  | 0x02 =>
      if n = RegNo.pteCmd then some (leafCommand s p inst false (bits x.toNat 1 0))
      else if n = RegNo.resolve then some (faultResolve s inst x)
      else some (plainWrite s n inst x)
  | 0x03 =>
      let s := plainWrite s n inst x
      some (if 4 ≤ i ∧ i < 8 then s.onDie inst fun y => { y with prompters := y.prompters.update (i - 4) .idle fun z => { z with stopped := false } } else s)
  | 0x04 => some (if n = RegNo.loftCtl then loftCommand s p inst x else plainWrite s n inst x)
  | 0x05 =>
      if i < 8 then if mapWaits s inst i x then none else some (mapWrite s inst i x)
      else if n = RegNo.flsBankCtl then if bankWaits s inst x then none else some (bankCommand s p inst x)
      else some (ownWrite s inst (i - 0x100) x)
  | 0x08 => some (rwfWrite s n inst x)
  | 0x0A => some (if n = RegNo.smgCueE then smgPush s x else plainWrite s n inst x)
  | 0x0B => some (if 4 ≤ i ∧ i < 8 then dataWrite s inst (i - 4) x else plainWrite s n inst x)
  | 0x0C => some (tableauControl s inst x)
  | 0x0D => some (if n = RegNo.hlCmd then leafCommand s p inst true (bits x.toNat 1 0) else plainWrite s n inst x)
  | 0x0E => if n = RegNo.uepGrp then groupWrite s inst x else some (plainWrite s n inst x)
  | 0x11 =>
      if n = RegNo.bootFails then some (bootFailsPut s x)
      else if n = RegNo.bootCmd then some (bootQueue s inst who x)
      else some (plainWrite s n inst x)
  | _ => some (plainWrite s n inst x)

/-! ### csrr, csrw (R314, R315) -/

/-- Register `i` of a base operand's number. -/
def baseReg : Base → Nat
  | .v n => n.toNat
  | .k n => n.toNat

/-- R314: what csrr and csrw of a thread reach. -/
def csrInst (s : State) (t core n : Nat) : Option Nat := (regInfo n).bind (coreInst s (s.partOf t) core n)

/-- csrr (R314). -/
def execCsrr (a : CsrArgs) (s : State) : Host.Outcome State Fault Refusal :=
  word (.csrr a) s fun is s => eachActive is s fun s t =>
    match csrInst s t is.core a.reg.toNat with
    | none => is.trap s t .priv
    | some k =>
        let r := regRead s a.reg.toNat k
        r.2.onThread t fun th =>
          { th with v := (th.v.set (baseReg a.r) (r.1.setWidth 32)).set (baseReg a.r + 1) ((r.1 >>> 32).setWidth 32) }

/-- csrw (R314): after the thread's earlier accesses; the low word alone goes to a 32-bit register. -/
def execCsrw (a : CsrArgs) (s : State) : Host.Outcome State Fault Refusal :=
  word (.csrw a) s fun is s => eachActive is s fun s t =>
    let n := a.reg.toNat
    match csrInst s t is.core n with
    | none => is.trap s t .priv
    | some k =>
        let x := (envOf s t).base2 a.r
        let x := if ((regInfo n).map RegInfo.wide).getD true then x else x &&& 0xFFFF_FFFF
        match regWrite s (.core is.core) (s.partOf t) n k x with
        | some s' => noteWindow s' t n (sysGet s n k)
        | none => is.stall s t .retry

/-! ### Accesses over the link (R384, R385) -/

/-- R385: the BAR offset of an access. -/
def barOffset (a : RegAcc) : Nat := a.inst * 2 ^ 23 + 8 * a.reg.toNat + a.off.toNat

/-- R385: a refusal is recorded. -/
def refuse (s : State) (a : RegAcc) : State :=
  match a.who with
  | .core _ => s
  | .vf v => hlkErr s v.toNat 0 (barOffset a)
  | _ => hlkErr s ((instPart s a.reg.toNat a.inst).getD 0) 0 (barOffset a)

/-- R385: size and alignment, and the direction in which the register acts. -/
def sizeOk (a : RegAcc) (i : RegInfo) (write : Bool) : Bool :=
  (a.size == 8 && a.off == 0) || (a.size == 4 && (a.off == 0 || a.off == 4) && !(if write then i.acts else i.actsRead))

/-- What an access reaches, unless it is refused. -/
def accessOk (s : State) (a : RegAcc) (write : Bool) : Option (Nat × Nat) :=
  match regInfo a.reg.toNat with
  | some i => if sizeOk a i write then reach s a.who a.reg.toNat a.inst else none
  | none => none

/-- R384: a register read over the link: what it returns is the caller's; what it changes. -/
def linkRead (s : State) (a : RegAcc) : Dword × State :=
  if !s.running then (0, s)
  else match accessOk s a false with
    | none => (0, refuse s a)
    | some (k, _) =>
        let r := regRead s a.reg.toNat k
        (if a.size = 8 then r.1 else if a.off = 4 then r.1 >>> 32 else r.1 &&& 0xFFFF_FFFF, r.2)

/-- The value a register holds: BOOT_FAILS lies in flash (R405). -/
def regHeld (s : State) (n inst : Nat) : Dword := if n = RegNo.bootFails then BitVec.ofNat 64 s.pkg.fails else sysGet s n inst

/-- R385: the value a write stores: a 4-byte write keeps the other half. -/
def merged (a : RegAcc) (old : Dword) : Dword :=
  if a.size = 8 then a.val
  else if a.off = 4 then (a.val <<< 32) ||| (old &&& 0xFFFF_FFFF)
  else (a.val &&& 0xFFFF_FFFF) ||| (old &&& 0xFFFF_FFFF_0000_0000)

/-- R384: a register write over the link. -/
def linkWrite (s : State) (a : RegAcc) : State :=
  if !s.running then s
  else match accessOk s a true with
    | none => refuse s a
    | some (k, p) =>
        let n := a.reg.toNat
        -- half a register that holds none of BOOT_FAILS.COUNT leaves it
        if n = RegNo.bootFails ∧ a.size = 4 ∧ a.off = 4 then s
        else match regWrite s a.who p n k (merged a (regHeld s n k)) with
        | some s => s
        | none => s

/-! ### Events that are register accesses -/

/-- A write event: the access is one the row names. -/
def writeEvent (row : Nat → Nat → Bool) (a : RegAcc) (s : State) : Host.Outcome State Fault Refusal :=
  .next (if row a.reg.toNat a.val.toNat then linkWrite s a else s)
/-- R384: what a read returns, sent to who made it. -/
def linkReply (a : RegAcc) (r : Dword × State) : State := r.2.send (.completion (bytesOfNat a.size r.1.toNat))
/-- A read event. -/
def readEvent (row : Nat → Bool) (a : RegAcc) (s : State) : Host.Outcome State Fault Refusal :=
  .next (if row a.reg.toNat then linkReply a (linkRead s a) else s)

/-- A register of a family: its block and the range of its indices. -/
def inBlock (blk lo n : Nat) (r : Nat) : Bool := decide (r / 0x4000 = blk ∧ lo ≤ r % 0x4000 ∧ r % 0x4000 < lo + n)

/-- XLT_RESOLVE_RETRY (R371). -/
def execXltResolveRetry (a : RegAcc) (s : State) : Host.Outcome State Fault Refusal :=
  writeEvent (fun n x => n == RegNo.resolve && bits x 13 12 == 1) a s
/-- XLT_RESOLVE_DENY (R371). -/
def execXltResolveDeny (a : RegAcc) (s : State) : Host.Outcome State Fault Refusal :=
  writeEvent (fun n x => n == RegNo.resolve && bits x 13 12 == 2) a s
/-- PTE_READ (R368). -/
def execPteRead (a : RegAcc) (s : State) : Host.Outcome State Fault Refusal :=
  writeEvent (fun n x => n == RegNo.pteCmd && bits x 1 0 == 1) a s
/-- PTE_WRITE (R368). -/
def execPteWrite (a : RegAcc) (s : State) : Host.Outcome State Fault Refusal :=
  writeEvent (fun n x => n == RegNo.pteCmd && bits x 1 0 == 2) a s
/-- PTE_CLEAR (R368). -/
def execPteClear (a : RegAcc) (s : State) : Host.Outcome State Fault Refusal :=
  writeEvent (fun n x => n == RegNo.pteCmd && bits x 1 0 == 3) a s
/-- HOST_LEAF_READ (R388). -/
def execHostLeafRead (a : RegAcc) (s : State) : Host.Outcome State Fault Refusal :=
  writeEvent (fun n x => n == RegNo.hlCmd && bits x 1 0 == 1) a s
/-- HOST_LEAF_WRITE (R388). -/
def execHostLeafWrite (a : RegAcc) (s : State) : Host.Outcome State Fault Refusal :=
  writeEvent (fun n x => n == RegNo.hlCmd && bits x 1 0 == 2) a s
/-- HOST_LEAF_CLEAR (R388). -/
def execHostLeafClear (a : RegAcc) (s : State) : Host.Outcome State Fault Refusal :=
  writeEvent (fun n x => n == RegNo.hlCmd && bits x 1 0 == 3) a s
/-- LOFT_LOAD_GO (R375). -/
def execLoftLoadGo (a : RegAcc) (s : State) : Host.Outcome State Fault Refusal :=
  writeEvent (fun n x => n == RegNo.loftCtl && x.testBit 28) a s
/-- FLS_MAP_WRITE (R377). -/
def execFlsMapWrite (a : RegAcc) (s : State) : Host.Outcome State Fault Refusal :=
  writeEvent (fun n _ => inBlock 5 0 8 n) a s
/-- FLS_OWN_WRITE (R377). -/
def execFlsOwnWrite (a : RegAcc) (s : State) : Host.Outcome State Fault Refusal :=
  writeEvent (fun n _ => inBlock 5 0x100 256 n) a s
/-- FLAT_BANK_DETACH (R377). -/
def execFlatBankDetach (a : RegAcc) (s : State) : Host.Outcome State Fault Refusal :=
  writeEvent (fun n x => n == RegNo.flsBankCtl && bits x 31 30 == 1) a s
/-- FLAT_BANK_ZERO (R377). -/
def execFlatBankZero (a : RegAcc) (s : State) : Host.Outcome State Fault Refusal :=
  writeEvent (fun n x => n == RegNo.flsBankCtl && bits x 31 30 == 2) a s
/-- FLAT_BANK_OWNER (R377). -/
def execFlatBankOwner (a : RegAcc) (s : State) : Host.Outcome State Fault Refusal :=
  writeEvent (fun n x => n == RegNo.flsBankCtl && bits x 31 30 == 3) a s
/-- EVC_ADD (R342). -/
def execEvcAdd (a : RegAcc) (s : State) : Host.Outcome State Fault Refusal := writeEvent (fun n _ => n == RegNo.evcAdd) a s
/-- LAUNCH_CANCEL (R354). -/
def execLaunchCancel (a : RegAcc) (s : State) : Host.Outcome State Fault Refusal := writeEvent (fun n _ => n == RegNo.cancel) a s
/-- LAUNCH_QUEUE_TAIL_WRITE (R338, R339). -/
def execLaunchQueueTailWrite (a : RegAcc) (s : State) : Host.Outcome State Fault Refusal :=
  writeEvent (fun n _ => inBlock 1 0x240 64 n) a s
/-- CUE_REGISTER (R356). -/
def execCueRegister (a : RegAcc) (s : State) : Host.Outcome State Fault Refusal :=
  writeEvent (fun n x => n == RegNo.cueReg && x.testBit 0) a s
/-- CUE_DEREGISTER (R356). -/
def execCueDeregister (a : RegAcc) (s : State) : Host.Outcome State Fault Refusal :=
  writeEvent (fun n x => n == RegNo.cueReg && !x.testBit 0) a s
/-- BUBBLE_SLOT_OPEN (R358). -/
def execBubbleSlotOpen (a : RegAcc) (s : State) : Host.Outcome State Fault Refusal :=
  writeEvent (fun n x => n == RegNo.bsOpen && bits x 31 0 != 0) a s
/-- BUBBLE_SLOT_CLOSE (R357). -/
def execBubbleSlotClose (a : RegAcc) (s : State) : Host.Outcome State Fault Refusal :=
  writeEvent (fun n x => n == RegNo.bsOpen && bits x 31 0 == 0) a s
/-- SMG_CUE_PUSH (R360). -/
def execSmgCuePush (a : RegAcc) (s : State) : Host.Outcome State Fault Refusal := writeEvent (fun n _ => n == RegNo.smgCueE) a s
/-- DBG_DATA_WRITE (R334). -/
def execDbgDataWrite (a : RegAcc) (s : State) : Host.Outcome State Fault Refusal := writeEvent (fun n _ => inBlock 0x0B 4 4 n) a s
/-- TBL_FIRE (R413). -/
def execTblFire (a : RegAcc) (s : State) : Host.Outcome State Fault Refusal :=
  writeEvent (fun n x => n == RegNo.tblCtl && x.testBit 0) a s
/-- TBL_DISARM (R414). -/
def execTblDisarm (a : RegAcc) (s : State) : Host.Outcome State Fault Refusal :=
  writeEvent (fun n x => n == RegNo.tblCtl && x.testBit 1) a s
/-- UEP_GROUP_ENABLE (R394). -/
def execUepGroupEnable (a : RegAcc) (s : State) : Host.Outcome State Fault Refusal :=
  writeEvent (fun n x => n == RegNo.uepGrp && x.testBit 63) a s
/-- BOOT_FAILS_WRITE (R405). -/
def execBootFailsWrite (a : RegAcc) (s : State) : Host.Outcome State Fault Refusal := writeEvent (fun n _ => n == RegNo.bootFails) a s
/-- BOOT_CMD_QUEUE (R396). -/
def execBootCmdQueue (a : RegAcc) (s : State) : Host.Outcome State Fault Refusal := writeEvent (fun n _ => n == RegNo.bootCmd) a s
/-- REGISTER_WRITE (R7): any other register, and a write that no other row names. -/
def execRegisterWrite (a : RegAcc) (s : State) : Host.Outcome State Fault Refusal := writeEvent (fun _ _ => true) a s

/-- SMG_CPLFIFO_READ (R359). -/
def execSmgCplfifoRead (a : RegAcc) (s : State) : Host.Outcome State Fault Refusal := readEvent (· == RegNo.smgFifo) a s
/-- HLK_NOTE_READ (R390). -/
def execHlkNoteRead (a : RegAcc) (s : State) : Host.Outcome State Fault Refusal := readEvent (· == RegNo.hlkNote) a s
/-- HLK_ERR_READ (R386, R390). -/
def execHlkErrRead (a : RegAcc) (s : State) : Host.Outcome State Fault Refusal := readEvent (· == RegNo.hlkErr) a s
/-- PRM_ERR_READ (R289). -/
def execPrmErrRead (a : RegAcc) (s : State) : Host.Outcome State Fault Refusal := readEvent (inBlock 3 8 4) a s
/-- SCB_CECNT_READ (R378). -/
def execScbCecntRead (a : RegAcc) (s : State) : Host.Outcome State Fault Refusal := readEvent (· == RegNo.scbCe) a s
/-- SCB_UELOG_READ (R380). -/
def execScbUelogRead (a : RegAcc) (s : State) : Host.Outcome State Fault Refusal := readEvent (· == RegNo.scbUe) a s
/-- TUN_AVS_READ (R409). -/
def execTunAvsRead (a : RegAcc) (s : State) : Host.Outcome State Fault Refusal := readEvent (inBlock 0x12 0x100 64) a s
/-- DBG_DATA_READ (R334). -/
def execDbgDataRead (a : RegAcc) (s : State) : Host.Outcome State Fault Refusal := readEvent (inBlock 0x0B 4 4) a s

/-- REFUSED_REGISTER_READ (R385): a read over the link that is refused returns 0 and is recorded. -/
def execRefusedRegisterRead (a : RegAcc) (s : State) : Host.Outcome State Fault Refusal :=
  .next (if (accessOk s a false).isNone then linkReply a (linkRead s a) else s)

end Sys2Proof.Machine
end

