-- ==== Sys2Proof/Machine/HostLink.lean ====
section
/-! DEFINITION. The host link: BAR2 (R139, R387), function-level reset (R383), device time (R391), management (R392). -/

namespace Sys2Proof.Machine

/-! ### BAR2 (R387) -/

/-- The context and the virtual address of an access; none where every access fails. -/
def bar2Map (s : State) (p : Nat) (off : Nat) : Option (Nat × Nat) :=
  let x := (sysGet s RegNo.b2map p).toNat
  if bits x 0 0 = 1 ∧ s.ctxPart (bits x 15 8) = some p ∧ off < 2 ^ 36 then some (bits x 15 8, bits x 56 16 * 65536 + off) else none

/-- A function that the part presents: the physical function, for partition 0, alone in understudy mode (R407). -/
def functionUp (s : State) (p : Nat) : Bool := s.running && decide (p < 8) && (!s.isUnderstudy || p == 0)

/-- A range read through a context as a U access; none while a leaf is locked. -/
def bar2Fetch (s : State) (c va n : Nat) : Option (Option (List Byte) × State) :=
  if (List.range n).any fun i => inFlat (va + i) then some (none, s)
  else match readRange s c false va n with
    | (.ok b, s) => some (some b, s)
    | (.fault .memerr _, s) =>
        -- R380: the read detects the error
        let bad := (spans va n).findSome? fun x => match viaWindows s c false x.2.1 ⟨true, false, false⟩ with
          | .error _ => none
          | .ok l => match (place s l false false).1 with
              | .ok (.phys d pa _) => if physPoisoned s d pa then some (d, pa, physOwner s d pa) else none
              | _ => none
        some (none, match bad with
          | some (d, pa, o) => detectUe s .hbm d pa o
          | none => s)
    | (.fault _ _, _) => some (none, s)
    | (.wait, _) => none

/-- BAR2_READ (R387): what the read returns goes to the host; one that would fault returns all ones. -/
def execBar2Read (a : Bar2Acc) (s : State) : Host.Outcome State Fault Refusal :=
  .next <|
    if !functionUp s a.part then s
    else
      let fail := fun (s : State) (va : Nat) => (hlkErr s a.part 1 va).send (.completion (List.replicate a.size 0xFF))
      match bar2Map s a.part a.off.toNat with
      | none => fail s a.off.toNat
      | some (c, va) => match bar2Fetch s c va a.size with
          | none => s
          | some (some b, s) => s.send (.completion b)
          | some (none, s) => fail s va

/-- Stores of the host made so far: those a publication from outside the part covers. -/
def hostStores (s : State) : List Nat :=
  (s.hist.stores.filter fun _ r => r.rels.any fun i => (s.hist.pubs.find? i).any fun p => p.who == Party.outside).keys

/-- BAR2_WRITE (R139, R387): posted writes of the host follow one another, and each publishes at .sys those before
it; one that would fault does nothing. -/
def execBar2Write (a : Bar2Acc) (s : State) : Host.Outcome State Fault Refusal :=
  .next <|
    if !functionUp s a.part then s
    else match bar2Map s a.part a.off.toNat with
      | none => hlkErr s a.part 1 a.off.toNat
      | some (c, va) =>
          if (List.range a.data.length).any fun i => inFlat (va + i) then hlkErr s a.part 1 va
          else
            let n0 := s.hist.next
            let k := (spans va a.data.length).length
            let (pub, s1) := publish s .outside .sys (hostStores s ++ List.range' n0 k) false
            match writeRange s1 c false (.agent [pub]) va a.data with
            | (.ok _, s2) => sweep s2
            | (.fault _ _, _) => hlkErr s a.part 1 va
            | (.wait, _) => s

/-! ### Function-level reset (R383) -/

/-- What the reset of a virtual function does for its partition. -/
def resetFunction (s : State) (p : Nat) : State :=
  let s := ((List.range 255).filter fun c => s.ctxPart c == some p).foldl endContext s
  let s := (List.range 64).foldl (fun s q => sysPutBits s (RegNo.lq q) p 3 3 0) s
  s.onPart p fun x => { x with notes := [], boot := [] }

/-- FUNCTION_LEVEL_RESET (R383): of the virtual function of a partition, or, for number 8, of physical function 0. -/
def execFunctionLevelReset (part : Nat) (s : State) : Host.Outcome State Fault Refusal :=
  .next <|
    if !s.running then s
    else if part < 8 then (if s.isUnderstudy then s else resetFunction s part)
    else if part = 8 then sysPutBits ((List.range 8).foldl resetFunction s) RegNo.hatBase 0 0 0 0
    else s

/-! ### Device time (R391) -/

/-- PTM_DIALOGUE: `hostNs` is the host's time. A correction of up to 1 µs, or any that would set the part back, is
slewed in; a larger lead of the host is stepped. What an earlier slew has made so far stays, rounded up. -/
def execPtmDialogue (hostNs : Dword) (s : State) : Host.Outcome State Fault Refusal :=
  .next <|
    if !s.running then s
    else
      let off : Int := hostNs.toNat - s.ns
      let gone : Int := s.clk - s.pkg.nsFrom
      let made : Int := if s.pkg.nsSlew ≥ 0 then min (100000 * s.pkg.nsSlew) (8 * gone) else max (100000 * s.pkg.nsSlew) (-(8 * gone))
      let base := s.pkg.nsAdd - (-made) / 100000
      let step := off > 1000
      let s := s.onPkg fun x =>
        { x with nsAdd := if step then base + off else base, nsSlew := if step then 0 else off, nsFrom := s.clk }
      let sat : Int := max (-(2 ^ 31)) (min (2 ^ 31 - 1) off)
      sysPut s RegNo.ptm 0 (putBits (putBits (sysGet s RegNo.ptm 0) 63 63 1) 47 16 (sat % 2 ^ 32).toNat)

/-! ### MCTP and SPDM (R392) -/

/-- An SPDM 1.2 message (the codes and headers of DSP0274; PRESUMED, log entry 41). -/
def spdmReply (s : State) (code p1 p2 : Byte) (body : List Byte) : State := s.send (.mctp ([0x12, code, p1, p2] ++ body))
def spdmError (s : State) (e p2 : Byte) : State := spdmReply s 0x7F e p2 []

/-- A request of one code, received where PCIe is up; `after` : one that needs negotiated algorithms. -/
def spdm (code : Byte) (after : Bool) (msg : List Byte) (s : State) (f : State → State) : Host.Outcome State Fault Refusal :=
  .next <|
    if !s.pkg.pcie || msg.getD 1 0 != code || msg.length < 4 then s
    else if after && !s.pkg.algorithms then spdmError s 0x04 0
    else f s

/-- The certificate chain of R401. -/
def certChain : List Byte := Config.sealed 3 []
/-- Bytes of a reply that the spec does not state. -/
def spdmOpen (msg : List Byte) (n : Nat) : List Byte := fixedLen n (Config.sealed 5 msg)

def execSpdmGetVersion (msg : List Byte) (s : State) : Host.Outcome State Fault Refusal :=
  spdm 0x84 false msg s fun s => spdmReply (s.onPkg fun x => { x with algorithms := false }) 0x04 0 0 [0, 1, 0, 0x12]
def execSpdmGetCapabilities (msg : List Byte) (s : State) : Host.Outcome State Fault Refusal :=
  spdm 0xE1 false msg s fun s => spdmReply s 0x61 0 0 (spdmOpen msg 16)
/-- Words 8..11 and 12..15 of the request name the signature and the hash algorithms: RSASSA_4096 is bit 2 and
SHA-512 bit 2; a request that offers neither names another algorithm. -/
def execSpdmNegotiateAlgorithms (msg : List Byte) (s : State) : Host.Outcome State Fault Refusal :=
  spdm 0xE3 false msg s fun s =>
    let asym := natOfBytes ((msg.drop 8).take 4)
    let hash := natOfBytes ((msg.drop 12).take 4)
    if asym.testBit 2 && hash.testBit 2 then spdmReply (s.onPkg fun x => { x with algorithms := true }) 0x63 0 0
      ([0x24, 0, 0x01, 0] ++ bytesOfNat 4 4 ++ bytesOfNat 4 4 ++ bytesOfNat 4 4 ++ List.replicate 16 0)
    else spdmError s 0x07 0xE3
def execSpdmGetDigests (msg : List Byte) (s : State) : Host.Outcome State Fault Refusal :=
  spdm 0x81 true msg s fun s => spdmReply s 0x01 0 1 (sha512 certChain)
def execSpdmGetCertificate (msg : List Byte) (s : State) : Host.Outcome State Fault Refusal :=
  spdm 0x82 true msg s fun s =>
    let off := natOfBytes ((msg.drop 4).take 2)
    let len := natOfBytes ((msg.drop 6).take 2)
    let part := (certChain.drop off).take len
    spdmReply s 0x02 (msg.getD 2 0) 0 (bytesOfNat 2 part.length ++ bytesOfNat 2 (certChain.length - off - part.length) ++ part)
def execSpdmChallenge (msg : List Byte) (s : State) : Host.Outcome State Fault Refusal :=
  spdm 0x83 true msg s fun s =>
    spdmReply s 0x03 (msg.getD 2 0) 1 (sha512 certChain ++ spdmOpen msg 32 ++ sha512 ((List.range 4).flatMap (measure s)) ++ [0, 0]
      ++ fixedLen 512 (Config.sealed 5 (msg ++ [0])))
/-- R401: the same four measurements as an ATTEST report. -/
def execSpdmGetMeasurements (msg : List Byte) (s : State) : Host.Outcome State Fault Refusal :=
  spdm 0xE0 true msg s fun s =>
    let block := fun (i : Nat) => [BitVec.ofNat 8 (i + 1), 1] ++ bytesOfNat 2 67 ++ [BitVec.ofNat 8 i] ++ bytesOfNat 2 64 ++ measure s i
    let rec_ := (List.range 4).flatMap block
    spdmReply s 0x60 4 0 ([4] ++ bytesOfNat 3 rec_.length ++ rec_ ++ spdmOpen msg 34)

/-- MCTP_CONTROL_MESSAGE (R392): answered; the spec does not state the answer's content. -/
def execMctpControlMessage (msg : List Byte) (s : State) : Host.Outcome State Fault Refusal :=
  .next (if s.pkg.pcie then s.send (.mctp (Config.sealed 5 msg)) else s)

end Sys2Proof.Machine
end

