-- ==== Sys2Proof/Machine/Prompter.lean ====
section
/-! DEFINITION. The prompters (R286..R292, R301, R303..R306): jobs popped, their descriptors and programs checked,
which word is executed next, and publication. -/

namespace Sys2Proof.Machine

/-! ### Descriptors (R290, R291) -/

namespace Job
/-- Word `i` of the job descriptor. -/
def word (j : Job) (i : Nat) : Nat := (j.desc.getD i 0).toNat
/-- Words `i` and `i + 1` of it. -/
def dword (j : Job) (i : Nat) : Nat := j.word i + 2 ^ 32 * j.word (i + 1)
/-- Word `i` of the sequence descriptor. -/
def sq (j : Job) (i : Nat) : Nat := (j.seqd.getD i 0).toNat
def sq2 (j : Job) (i : Nat) : Nat := j.sq i + 2 ^ 32 * j.sq (i + 1)
def slot (j : Job) : Nat := bits (j.word 0) 13 0
def npos (j : Job) : Nat := bits (j.word 0) 18 16 + 1
def ring (j : Job) : Nat := j.dword 22
def done (j : Job) : Nat := j.dword 24
def ncnt (j : Job) : Nat := bits (j.sq 14) 31 16
def nbias (j : Job) : Nat := bits (j.sq 14) 15 0
def nwatch (j : Job) : Nat := bits (j.sq 15) 8 0
/-- The place of the current position in something with a stride. -/
def place (j : Job) (base stride : Nat) : Nat := (base + j.pos * stride) % 2 ^ 64
/-- Tokens that earlier positions of the job gave. -/
def prior (j : Job) : List Word := j.outs.map fun o => o.2.2
/-- A position's run begins (R293). -/
def start (j : Job) (pos : Nat) : Job :=
  { j with pos := pos, ip := 0, set := [], s := List.replicate 16 0, nanm := false, rownan := false, drawn := none }
/-- A job that a code 8..11 ends: one NO_TOKEN entry at its position (R303). -/
def fail (j : Job) (code : Nat) : Job := { j with outs := j.outs ++ [(j.pos, code, 0xFFFF_FFFF)], finished := true }
end Job

/-- A job descriptor in hand, before anything else is read. -/
def Job.ofDesc (p addr seqAt : Nat) (b : List Byte) : Job :=
  { part := p, addr := addr, seqAt := seqAt, desc := wordsOfBytes b, seqd := [], prog := [], ip := 0, pos := 0, set := [],
    s := List.replicate 16 0, nanm := false, rownan := false, tail := 0, outs := [], drawn := none, finished := false }

/-- R291: the job's table, its alignments, and a slot of this prompter. -/
def Job.descOk (j : Job) (n : Nat) : Bool :=
  j.slot % 4 == n && bits (j.word 0) 31 19 == 0 && bits (j.word 0) 15 14 == 0 && j.word 1 == 0 && j.dword 4 % 32 == 0
    && j.word 6 % 32 == 0 && j.word 7 % 4 == 0 && j.word 12 % 8 == 0 && decide (j.word 13 ≤ 4352) && j.word 21 == 0
    && j.dword 22 % 64 == 0 && j.dword 26 == 0

/-- R290: the sequence's table and its alignments. -/
def Job.seqOk (j : Job) : Bool :=
  j.sq2 2 % 8 == 0 && j.sq2 4 % 8 == 0 && j.sq2 6 % 8 == 0 && j.sq2 8 % 4 == 0 && decide (j.ncnt ≤ 4096)
    && decide (j.nbias ≤ 1024) && decide (j.nwatch ≤ 256) && bits (j.sq 15) 31 9 == 0

/-! ### Programs (R294) -/

def logitOp (w : Dword) : Nat := (w.extractLsb' 58 6).toNat
/-- A word that names a vector register. -/
def namesVector (w : Dword) : Bool := !([0x05, 0x07, 0x08, 0x09, 0x1A].contains (logitOp w))

/-- R294: a valid program. -/
def programOk (ws : List Dword) : Bool :=
  decide (3 ≤ ws.length ∧ ws.length ≤ 64)
    && (ws.all fun w => match decodeLogit w with
        | .ok _ => true
        | .error _ => false)
    && (ws.filter fun w => logitOp w == 0x01).length == 1
    && (ws.takeWhile fun w => logitOp w != 0x01).all (fun w => !namesVector w)
    && (ws.filter fun w => logitOp w == 0x18 || logitOp w == 0x19).length == 1
    && (ws.getLast?.map fun w => logitOp w) == some 0x1A
    && (ws.filter fun w => logitOp w == 0x1A).length == 1

/-- The words of a program up to its first pub, at most 64. -/
def readProgram : Nat → State → Nat → Nat → Answer (List Dword) × State
  | 0, s, _, _ => (.ok [], s)
  | fuel + 1, s, p, va => match agentRead s p va 8 with
      | (.ok b, s) =>
          let w : Dword := BitVec.ofNat 64 (natOfBytes b)
          if logitOp w = 0x1A then (.ok [w], s)
          else match readProgram fuel s p (va + 8) with
            | (.ok r, s) => (.ok (w :: r), s)
            | x => x
      | (.fault c r, s) => (.fault c r, s)
      | (.wait, s) => (.wait, s)

/-! ### Popping (R287..R292) -/

def onPrompter (s : State) (d n : Nat) (f : Prompter → Prompter) : State :=
  s.onDie d fun x => { x with prompters := x.prompters.update n .idle f }
def prompterOf (s : State) (d n : Nat) : Prompter := (s.die d).prompters.findD n .idle

/-- R289: the first job that cannot be answered is recorded. -/
def prmErr (s : State) (d n code addr : Nat) : State :=
  if sysBits s (RegNo.prmErr n) d 63 60 ≠ 0 then s
  else sysPut s (RegNo.prmErr n) d (BitVec.ofNat 64 (code * 2 ^ 60 + addr % 2 ^ 57))

/-- A read that meets poisoned data detects the error (R380). -/
def agentFault (s : State) (p va n : Nat) (c : Cause) : State := if c = .memerr then agentPoison s p va n else s

/-- The sequence descriptor and the program of a job, checked; none while a read waits at a translator. -/
def prepare (s : State) (n : Nat) (j : Job) : Option (Job × State) :=
  if !j.descOk n then some (j.fail 9, s)
  else match agentRead s j.part j.seqAt 128 with
    | (.wait, _) => none
    | (.fault c _, s) => some (j.fail 11, agentFault s j.part j.seqAt 128 c)
    | (.ok b, s) =>
        let j := { j with seqd := wordsOfBytes b }
        if !j.seqOk then some (j.fail 9, s)
        else match readProgram 64 s j.part (j.sq2 2) with
          | (.wait, _) => none
          | (.fault c _, s) => some (j.fail 11, agentFault s j.part (j.sq2 2) 512 c)
          | (.ok ws, s) => some (if programOk ws then { j with prog := ws } else j.fail 8, s)

/-- The head entry leaves the prompter's queue, with the acquire of R239; entries held for room follow. -/
def takeEntry (s : State) (p h : Nat) : State :=
  let s := cueDrop s p h
  heldTraps s p h (s.part p).heldTraps.length

/-- R292: a job has been begun: its sequence descriptor and its program have been read, or it cannot be answered. -/
def Job.begun (j : Job) : Bool := j.finished || !j.seqd.isEmpty
/-- R292: jobs of a prompter that it works on. -/
def Prompter.working (m : Prompter) : Nat := (m.jobs.filter fun j => j.begun && !j.finished).length
/-- R292: the first job that was popped and not begun, with no earlier one of its slot. -/
def Prompter.held (m : Prompter) : Option (Job × Nat) :=
  m.jobs.zipIdx.find? fun e => !e.1.begun && (m.jobs.take e.2).all fun o => o.slot != e.1.slot

/-- R292: a context of the partition is halted on the die: a swap leaves its entries in the queue. -/
def swapping (s : State) (p d : Nat) : Bool := (s.die d).halted.keys.any fun c => s.ctxPart c == some p

/-- R292, R304: a job held behind an earlier one of its slot is begun once that one is gone. -/
def beginHeld (s : State) (d n : Nat) : Option State :=
  (prompterOf s d n).held.bind fun (j, i) =>
    (prepare s n j).map fun (j, s) => onPrompter s d n fun x => { x with jobs := x.jobs.set i j }

/-- R287..R292: the head entry of a prompter's queue is popped. A job whose slot is in flight holds no other: it waits
behind the earlier one. -/
def popEntry (s : State) (d n : Nat) : State :=
  let base := (sysGet s (RegNo.prmSeqBase n) d).toNat
  let p := bits base 63 61
  let h := (sysGet s (RegNo.prmInq n) d).toNat
  let m := prompterOf s d n
  if bits base 0 0 == 0 || h == 0 || m.stopped || swapping s p d then s
  else match (s.part p).cues.find? h with
    | none => s
    | some q => match q.entries with
        | [] => s
        | (e, _) :: _ =>
            if e = endMarker then onPrompter s d n fun x => { x with stopped := true }
            else if e.toNat % 128 ≠ 0 then prmErr (takeEntry s p h) d n 1 e.toNat
            else match agentRead s p e.toNat 128 with
              | (.wait, _) => s
              | (.fault c _, s) => prmErr (takeEntry (agentFault s p e.toNat 128 c) p h) d n 1 e.toNat
              | (.ok b, s1) =>
                  let slot := bits (natOfBytes (b.take 4)) 13 0
                  let j := Job.ofDesc p e.toNat (bits base 56 7 * 128 + 128 * (slot / 4)) b
                  let enter := fun (x : Job × State) =>
                    onPrompter (takeEntry x.2 p h) d n fun y => { y with jobs := y.jobs ++ [x.1] }
                  if m.jobs.any fun o => o.slot == slot then enter (j, s1)
                  else ((prepare s1 n j).map enter).getD s

/-- PROMPTER_JOB_POP (R287..R292): up to 8 jobs are worked on at once. -/
def popJob (s : State) (d n : Nat) : State :=
  if !s.running || decide (8 ≤ (prompterOf s d n).working) then s
  else (beginHeld s d n).getD (popEntry s d n)

def execPrompterJobPop (die n : Nat) (s : State) : Host.Outcome State Fault Refusal :=
  .next (if die < 2 ∧ n < 4 then popJob s die n else s)

/-! ### The next word (R292, R295) -/

/-- The part picks one of a prompter's unfinished jobs: its next word, decoded, and the issue set up. -/
def promptWord (s : State) (d n : Nat) : Option Instr × State :=
  let open_ := ((prompterOf s d n).jobs.zipIdx.filter fun e => e.1.begun && !e.1.finished).map Prod.snd
  if open_.isEmpty then (none, s)
  else
    let (k, s) := s.pick open_.length
    let i := open_.getD k 0
    match (prompterOf s d n).jobs[i]? with
    | none => (none, s)
    | some j => match decodeLogit (j.prog.getD j.ip 0) with
        | .ok w => (some w, { s with issue := .prompter d n i })
        | .error _ => (none, s)

/-! ### Publication (R303, R304) -/

/-- R303: a ring entry. -/
def ringEntry (slot : Nat) (o : Nat × Nat × Word) : Nat := o.2.2.toNat + slot * 2 ^ 32 + o.1 * 2 ^ 46 + o.2.1 * 2 ^ 49

/-- How far a publication has come. -/
inductive PubRun
  | ok | fault | wait
deriving DecidableEq, Repr

/-- One write of a publication, unless an earlier one failed. -/
def pubPut (p : Nat) (r : PubRun × State) (rels : List Nat) (va : Nat) (b : List Byte) : PubRun × State :=
  match r with
  | (.ok, s) => match agentWrite s p rels va b with
      | (.ok _, s) => (.ok, s)
      | (.fault _ _, s) => (.fault, s)
      | (.wait, s) => (.wait, s)
  | x => x

/-- R304, step 3, for one token: its count goes up, or it is appended; whether the table was full. -/
def countToken (j : Job) (r : Bool × PubRun × State) (tok : Word) : Bool × PubRun × State :=
  match r with
  | (full, .ok, s) =>
      let cnt := j.sq2 4
      match agentRead s j.part (j.seqAt + 58) 2 with
      | (.wait, s) => (full, .wait, s)
      | (.fault _ _, s) => (full, .fault, s)
      | (.ok nb, s) =>
          let n := natOfBytes nb
          match if n = 0 then (.ok [], s) else agentRead s j.part cnt (8 * n) with
          | (.wait, s) => (full, .wait, s)
          | (.fault _ _, s) => (full, .fault, s)
          | (.ok t, s) =>
              let at_ := fun i => natOfBytes ((t.drop (8 * i)).take 4)
              match (List.range n).find? fun i => at_ i == tok.toNat with
              | some i =>
                  let c := natOfBytes ((t.drop (8 * i + 4)).take 2)
                  let r := pubPut j.part (.ok, s) [] (cnt + 8 * i) (bytesOfNat 4 tok.toNat ++ bytesOfNat 4 (min (c + 1) 65535))
                  (full, r.1, r.2)
              | none =>
                  if 4096 ≤ n then (true, .ok, s)
                  else
                    let r := pubPut j.part (.ok, s) [] (cnt + 8 * n) (bytesOfNat 4 tok.toNat ++ bytesOfNat 4 1)
                    let r := pubPut j.part r [] (j.seqAt + 58) (bytesOfNat 2 (n + 1))
                    (full, r.1, r.2)
  | x => x

/-- The header of a ring. -/
structure RingHead where
  pseq : Nat
  tail : Nat
  consumed : Nat
  cap : Nat
deriving DecidableEq, Repr

def ringHead (b : List Byte) : RingHead :=
  let w := natOfBytes (b.take 8)
  ⟨bits w 63 32, bits w 23 0, bits (natOfBytes ((b.drop 8).take 4)) 23 0, 2 ^ bits (natOfBytes ((b.drop 12).take 4)) 4 0⟩

/-- What becomes of a finished job: it waits, is dropped, or is published. -/
inductive PubEnd
  | wait
  | drop (s : State)
  | done (s : State)

/-- R304: the steps, in their order. -/
def publishJob (s : State) (j : Job) : PubEnd :=
  match agentRead s j.part j.ring 16 with
  | (.wait, _) => .wait
  | (.fault c _, s) => .drop (agentFault s j.part j.ring 16 c)
  | (.ok hb, s) =>
      let h := ringHead hb
      let n := j.outs.length
      if h.cap < (h.tail + n + 2 ^ 24 - h.consumed) % 2 ^ 24 then .wait
      else
        let n0 := s.hist.next
        let sent := s.pkg.sent.length
        let r := j.outs.zipIdx.foldl (fun r e =>
          pubPut j.part r [] (j.ring + 64 + 8 * ((h.tail + e.2) % h.cap)) (bytesOfNat 8 (ringEntry j.slot e.1))) (.ok, s)
        match r with
        | (.wait, _) => .wait
        | (.fault, s) => .drop s
        | (.ok, s) =>
            let toks := (j.outs.map fun o => o.2.2).filter (· != 0xFFFF_FFFF)
            match toks.foldl (countToken j) (false, .ok, s) with
            | (_, .wait, _) => .wait
            | (full, _, s) =>
                let last := j.outs.getLastD (0, 0, 0)
                match agentWrite s j.part [] (j.addr + 112)
                  (bytesOfNat 4 (last.2.1 + last.1 * 2 ^ 4 + (if full then 2 ^ 7 else 0)) ++ bytesOfNat 4 j.tail.toNat
                    ++ bytesOfNat 4 n ++ bytesOfNat 4 0) with
                | (.wait, _) => .wait
                | (_, s) =>
                -- the release: behind what has left for the host
                let s := if s.pkg.sent.length = sent then s else s.send .hostFlush
                let (pub, s) := publish s .device .sys (List.range' n0 (s.hist.next - n0)) false
                let w := (h.pseq + 1) % 2 ^ 32 * 2 ^ 32 + n * 2 ^ 24 + (h.tail + n) % 2 ^ 24
                match agentWrite s j.part [pub] j.ring (bytesOfNat 8 w) with
                | (.wait, _) => .wait
                | (.fault _ _, s) => .drop s
                | (.ok _, s) =>
                    let ids := List.range' n0 (s.hist.next - n0)
                    let (_, s) := publish s .device .sys ids false
                    .done (sweep (if j.done = 0 then s else pushEntry s j.part j.done j.addr ids))

/-- PROMPTER_PUBLISH (R292, R304): of the finished jobs with no earlier one for their ring, the part picks one that
does not wait. -/
def execPrompterPublish (die n : Nat) (s : State) : Host.Outcome State Fault Refusal :=
  .next <|
    let js := (prompterOf s die n).jobs
    let first := fun (i : Nat) (j : Job) => !((js.take i).any fun o => o.ring == j.ring)
    let ready := (js.zipIdx.filter fun e => e.1.finished && first e.2 e.1 && match publishJob s e.1 with
      | .wait => false
      | _ => true)
    if ready.isEmpty then s
    else
      let (k, s) := s.pick ready.length
      match ready[k]? with
      | none => s
      | some (j, i) =>
          let gone := fun (s : State) => onPrompter s die n fun x => { x with jobs := x.jobs.eraseIdx i }
          match publishJob s j with
          | .wait => s
          | .drop s => prmErr (gone s) die n 2 j.addr
          | .done s => gone s

end Sys2Proof.Machine
end

