-- ==== Sys2Proof/Machine/Logit.lean ====
section
/-! DEFINITION. The 26 words of a logit program (R293..R302). Arithmetic is FP32, RNE, subnormals kept, NaN canonical;
no word raises a flag. -/

namespace Sys2Proof.Machine

/-! ### One word of a job -/

/-- What a word comes to: the next word follows, the position's run ends, the job ends with a code, or the word waits
at a translator. -/
inductive LogitEnd
  | go (j : Job) (s : State)
  | turn (j : Job) (s : State)
  | bad (code : Nat) (s : State)
  | wait

/-- A word of a job that is being issued by its prompter. -/
def logit (s : State) (f : Job → State → LogitEnd) : Host.Outcome State Fault Refusal :=
  .next <| match s.issue with
    | .prompter d n i => match (prompterOf s d n).jobs[i]? with
        | none => s
        | some j =>
            let put := fun (s : State) (j : Job) => onPrompter s d n fun x => { x with jobs := x.jobs.set i j }
            match f j s with
            | .go j s => put s { j with ip := j.ip + 1 }
            | .turn j s => put s j
            | .bad c s => put s (j.fail c)
            | .wait => s
    | _ => s

/-- A word that only computes. -/
def compute (s : State) (f : Job → Job) : Host.Outcome State Fault Refusal := logit s fun j s => .go (f j) s

/-- Bytes read for a job; a fault ends it with FAULT. -/
def jobRead (j : Job) (s : State) (va n : Nat) (k : List Byte → State → LogitEnd) : LogitEnd :=
  if n = 0 then k [] s
  else match agentRead s j.part va n with
    | (.ok b, s) => k b s
    | (.fault c _, s) => .bad 11 (agentFault s j.part va n c)
    | (.wait, _) => .wait

/-! ### Values (R293) -/

def divR (a b : Word) : Word := (onF32 (Fmt.f32.result .exactRne (Num.div (f32Val a) (f32Val b)))).1
def maxR (a b : Word) : Word := (onF32 (Fmt.f32.minMax true false a.toNat b.toNat)).1
def minR (a b : Word) : Word := (onF32 (Fmt.f32.minMax false false a.toNat b.toNat)).1
def isNan32 (a : Word) : Bool := (f32Val a).isNan
/-- Numeric comparisons, false where either is NaN. -/
def gtR (a b : Word) : Bool := (f32Val b).lt (f32Val a)
def geR (a b : Word) : Bool := fltCond .ge (f32Val a) (f32Val b)
def eqR (a b : Word) : Bool := (f32Val a).eq (f32Val b)
def posInf : Word := 0x7F80_0000
def negInf : Word := 0xFF80_0000
def one32 : Word := 0x3F80_0000
/-- A number as FP32; exact below 2^24. -/
def natR (n : Nat) : Word := BitVec.ofNat 32 (Fmt.f32.put .rne false 0 (.fin false n 0)).1
/-- R299: x[31:8] × 2^−24. -/
def unitR (x : Nat) : Word := BitVec.ofNat 32 (Fmt.f32.put .rne false 0 (.fin false (x / 256) (-24))).1

namespace WsEntry
def val (e : WsEntry) (i : BitVec 4) : Word := e.w.getD i.toNat 0
def put (e : WsEntry) (i : BitVec 4) (x : Word) : WsEntry := { e with w := e.w.set i.toNat x }
end WsEntry

namespace Job
def scalar (j : Job) (i : Nat) : Word := j.s.getD i 0
/-- Every entry's vector register set. -/
def each (j : Job) (d : BitVec 4) (f : WsEntry → Word) : Job := { j with set := j.set.map fun e => e.put d (f e) }
/-- Live bits narrowed. -/
def narrow (j : Job) (keep : Nat → WsEntry → Bool) : Job :=
  { j with set := j.set.zipIdx.map fun e => { e.1 with live := e.1.live && keep e.2 e.1 } }
/-- Live entries: index and value. -/
def lives (j : Job) (a : BitVec 4) : List (Nat × Word) :=
  (j.set.zipIdx.filter fun e => e.1.live).map fun e => (e.2, e.1.val a)
end Job

/-- R293: does a value rank above another? Value descending, −0 below +0, NaN below −∞. -/
def above (a b : Word) : Bool :=
  if isNan32 a then false else if isNan32 b then true else (f32Val b).below (f32Val a)

/-- One entry put in its place among ranked ones, after those of equal rank. -/
def rankInsert (x : Nat × Word) : List (Nat × Word) → List (Nat × Word)
  | [] => [x]
  | y :: r => if above x.2 y.2 then x :: y :: r else y :: rankInsert x r
/-- R293: the rank order; equal values go to the lower entry index. -/
def ranked (l : List (Nat × Word)) : List (Nat × Word) := l.foldl (fun r x => rankInsert x r) []

/-- R293: m. -/
def maxLive (l : List (Nat × Word)) : Word :=
  l.foldl (fun m x => if !isNan32 x.2 && above x.2 m then x.2 else m) negInf

/-- R293: ω of a value that is no NaN. -/
def omega (m v : Word) : Word :=
  if m = posInf then (if v = posInf then one32 else 0) else expR (subR v m)

def sumR (l : List Word) : Word := l.foldl addR 0

/-! ### Loads (R296, R302) -/

/-- R302: TAIL of a record. -/
def recordTail (maxv esum : Word) (vs : List Word) : Word :=
  if (f32Val esum).isZero then 0
  else
    let c := if maxv = posInf then natR (vs.filter (· == posInf)).length else sumR (vs.map fun v => expR (subR v maxv))
    maxR 0 (subR one32 (divR c esum))

/-- ldc (R296, R302). -/
def execLogitLdc (a : LogitArgs) (s : State) : Host.Outcome State Fault Refusal :=
  logit s fun j s =>
    let va := j.place (j.dword 4) (j.word 6)
    jobRead j s va 32 fun b s =>
      let h := wordsOfBytes b
      let n := (h.getD 2 0).toNat
      let flags := (h.getD 4 0).toNat
      if 4096 < n ∨ 4 ≤ flags ∨ !(b.drop 20).all (· == 0) then .bad 10 s
      else jobRead j s (va + 32) (8 * n) fun c s =>
        let ws := wordsOfBytes c
        let cand := (List.range n).map fun i => (ws.getD (2 * i) 0, ws.getD (2 * i + 1) 0)
        .go { j with
          set := cand.map fun e => (⟨e.2, true, List.replicate 8 0⟩ : WsEntry).put a.d e.1
          rownan := flags.testBit 0
          tail := maxR j.tail (recordTail (h.getD 0 0) (h.getD 1 0) (cand.map Prod.fst)) } s

/-- One watch token appended, unless it is there. -/
def watchEntry (j : Job) (a : LogitArgs) (r : LogitEnd) (t : Word) : LogitEnd :=
  match r with
  | .go j' s =>
      if j'.set.any fun e => e.tok == t then .go j' s
      else
        let app := fun (x : Word) (s : State) =>
          LogitEnd.go { j' with set := j'.set ++ [(⟨t, true, List.replicate 8 0⟩ : WsEntry).put a.d x] } s
        if j.dword 8 ≠ 0 ∧ t.toNat < j.sq 13 then
          jobRead j s ((j.place (j.dword 8) (j.word 7) + 4 * t.toNat) % 2 ^ 64) 4 fun b s => app (BitVec.ofNat 32 (natOfBytes b)) s
        else app negInf s
  | x => x

/-- ldw (R296). -/
def execLogitLdw (a : LogitArgs) (s : State) : Host.Outcome State Fault Refusal :=
  logit s fun j s => jobRead j s (j.sq2 8) (4 * j.nwatch) fun b s => (wordsOfBytes b).foldl (watchEntry j a) (.go j s)

/-- R290: the entry of a token in a table of pairs; its first occurrence counts. -/
def lookup (t : List Word) (tok : Word) : Option Word :=
  ((List.range (t.length / 2)).find? fun i => t.getD (2 * i) 0 == tok).map fun i => t.getD (2 * i + 1) 0

/-- ldt (R296). -/
def execLogitLdt (a : LogitArgs) (s : State) : Host.Outcome State Fault Refusal :=
  logit s fun j s => jobRead j s (j.sq2 4) (8 * j.ncnt) fun b s =>
    let t := wordsOfBytes b
    .go (j.each a.d fun e => natR (bits ((lookup t e.tok).getD 0).toNat 15 0 + (j.prior.filter (· == e.tok)).length)) s
/-- ldb (R296). -/
def execLogitLdb (a : LogitArgs) (s : State) : Host.Outcome State Fault Refusal :=
  logit s fun j s => jobRead j s (j.sq2 6) (8 * j.nbias) fun b s =>
    let t := wordsOfBytes b
    .go (j.each a.d fun e => (lookup t e.tok).getD 0) s
/-- ldd (R296). -/
def execLogitLdd (a : LogitArgs) (s : State) : Host.Outcome State Fault Refusal :=
  logit s fun j s =>
    if j.dword 10 = 0 then .go (j.each a.d fun _ => 0) s
    else jobRead j s (j.place (j.dword 10) (j.word 12)) (8 * j.word 13) fun b s =>
      let t := wordsOfBytes b
      .go (j.each a.d fun e => (lookup t e.tok).getD 0) s

/-- One entry tested against the grammar mask. -/
def maskEntry (j : Job) (r : LogitEnd) (i : Nat) : LogitEnd :=
  match r with
  | .go j' s => match j'.set[i]? with
      | none => .go j' s
      | some e =>
          let put := fun (x : Bool) (s : State) => LogitEnd.go { j' with set := j'.set.set i { e with live := e.live && x } } s
          if !e.live then .go j' s
          else if j.sq 12 ≤ e.tok.toNat then put false s
          else jobRead j s (j.sq2 10 + e.tok.toNat / 8) 1 fun b s => put ((natOfBytes b).testBit (e.tok.toNat % 8)) s
  | x => x

/-- ldg (R290, R296). -/
def execLogitLdg (_ : LogitArgs) (s : State) : Host.Outcome State Fault Refusal :=
  logit s fun j s => if j.sq2 10 = 0 then .go j s else (List.range j.set.length).foldl (maskEntry j) (.go j s)

/-- lds (R296). -/
def execLogitLds (a : LogitArgs) (s : State) : Host.Outcome State Fault Refusal :=
  compute s fun j => { j with s := j.s.set a.d.toNat (j.seqd.getD (16 + a.imm.toNat) 0) }
/-- set (R296). -/
def execLogitSet (a : LogitArgs) (s : State) : Host.Outcome State Fault Refusal :=
  compute s fun j => { j with s := j.s.set a.d.toNat a.imm }
/-- mode (R296). -/
def execLogitMode (a : LogitArgs) (s : State) : Host.Outcome State Fault Refusal :=
  compute s fun j => { j with nanm := a.imm.getLsbD 0 }

/-! ### Elementwise (R296, R297) -/

/-- The second operand of add and mul. -/
def logitB (j : Job) (a : LogitArgs) (e : WsEntry) : Word := if a.scalarB then j.scalar a.s.toNat else e.val a.b

/-- mov (R296). -/
def execLogitMov (a : LogitArgs) (s : State) : Host.Outcome State Fault Refusal := compute s fun j => j.each a.d fun e => e.val a.a
/-- add (R296). -/
def execLogitAdd (a : LogitArgs) (s : State) : Host.Outcome State Fault Refusal :=
  compute s fun j => j.each a.d fun e => addR (e.val a.a) (logitB j a e)
/-- mul (R296). -/
def execLogitMul (a : LogitArgs) (s : State) : Host.Outcome State Fault Refusal :=
  compute s fun j => j.each a.d fun e => mulR (e.val a.a) (logitB j a e)
/-- pen (R296). -/
def execLogitPen (a : LogitArgs) (s : State) : Host.Outcome State Fault Refusal :=
  compute s fun j => j.each a.d fun e =>
    let x := e.val a.a
    let k := j.scalar a.s.toNat
    if !gtR (e.val a.b) 0 then x else if gtR x 0 then divR x k else mulR x k
/-- fpen (R296). -/
def execLogitFpen (a : LogitArgs) (s : State) : Host.Outcome State Fault Refusal :=
  compute s fun j => j.each a.d fun e =>
    let b := e.val a.b
    subR (e.val a.a) (addR (mulR (j.scalar a.s.toNat) b) (if gtR b 0 then j.scalar (a.s.toNat + 1) else 0))

/-- R297. -/
def tempOf (t m x : Word) : Word :=
  if isNan32 t then x
  else if t = posInf then (if (f32Val x).isFin then 0 else x)
  else if gtR t 0 then divR x t
  else if isNan32 x then nan32
  else if m ≠ negInf ∧ eqR x m then 0
  else negInf
/-- temp (R297). -/
def execLogitTemp (a : LogitArgs) (s : State) : Host.Outcome State Fault Refusal :=
  compute s fun j =>
    let m := maxLive (j.lives a.a)
    j.each a.d fun e => tempOf (j.scalar a.s.toNat) m (e.val a.a)
/-- clmp (R296). -/
def execLogitClmp (a : LogitArgs) (s : State) : Host.Outcome State Fault Refusal :=
  compute s fun j => j.each a.d fun e => minR (maxR (e.val a.a) (j.scalar a.s.toNat)) (j.scalar (a.s.toNat + 1))

/-! ### Selections (R296, R298) -/

/-- keep (R167, R296). -/
def execLogitKeep (a : LogitArgs) (s : State) : Host.Outcome State Fault Refusal :=
  compute s fun j => j.narrow fun _ e => fltCond a.cond (f32Val (e.val a.a)) (f32Val (j.scalar a.s.toNat))
/-- topk (R296). -/
def execLogitTopk (a : LogitArgs) (s : State) : Host.Outcome State Fault Refusal :=
  compute s fun j =>
    let k := (j.scalar a.s.toNat).toNat
    let l := j.lives a.a
    if 0 < k ∧ k < l.length then
      let keep := ((ranked l).take k).map Prod.fst
      j.narrow fun i _ => keep.contains i
    else j

/-- R298: the entries, in rank order, up to the first whose running sum reaches t. -/
def toppKeep (m t : Word) : Word → List (Nat × Word) → List Nat
  | _, [] => []
  | c, x :: r =>
      let c := if isNan32 x.2 then c else addR c (omega m x.2)
      x.1 :: if geR c t then [] else toppKeep m t c r

/-- topp (R298). -/
def execLogitTopp (a : LogitArgs) (s : State) : Host.Outcome State Fault Refusal :=
  compute s fun j =>
    let p := j.scalar a.s.toNat
    let l := j.lives a.a
    let m := maxLive l
    if m = negInf ∨ m = posInf ∨ isNan32 p ∨ geR p one32 then j
    else
      let r := ranked l
      let z := sumR ((r.filter fun x => !isNan32 x.2).map fun x => omega m x.2)
      let keep := toppKeep m (mulR p z) 0 r
      j.narrow fun i _ => keep.contains i
/-- minp (R298). -/
def execLogitMinp (a : LogitArgs) (s : State) : Host.Outcome State Fault Refusal :=
  compute s fun j =>
    let p := j.scalar a.s.toNat
    let m := maxLive (j.lives a.a)
    if m = negInf ∨ m = posInf ∨ !gtR p 0 then j
    else j.narrow fun _ e =>
      let v := e.val a.a
      eqR v m || (!isNan32 v && geR (omega m v) p)
/-- sort (R296). -/
def execLogitSort (a : LogitArgs) (s : State) : Host.Outcome State Fault Refusal :=
  compute s fun j =>
    { j with set := ((ranked (j.lives a.a)).filterMap fun x => j.set[x.1]?) ++ j.set.filter fun e => !e.live }
/-- norm (R296). -/
def execLogitNorm (a : LogitArgs) (s : State) : Host.Outcome State Fault Refusal :=
  compute s fun j =>
    let l := j.lives a.a
    let m := maxLive l
    let z := sumR ((l.filter fun x => !isNan32 x.2).map fun x => omega m x.2)
    j.each a.d fun e =>
      let v := e.val a.a
      if m = negInf ∨ !e.live then 0 else if isNan32 v then nan32 else divR (omega m v) z
/-- vmax (R296). -/
def execLogitVmax (a : LogitArgs) (s : State) : Host.Outcome State Fault Refusal :=
  compute s fun j => { j with s := j.s.set a.d.toNat (maxLive (j.lives a.a)) }

/-! ### Draws (R299..R301) -/

/-- R301: x0 and x1 of the position's draw. -/
def jobDraw (j : Job) : Nat × Nat :=
  let x := philox (BitVec.ofNat 64 (j.sq2 0)) [j.word 2, j.word 3, j.pos, 0]
  (x.getD 0 0, x.getD 1 0)

/-- R299: the first entry whose cumulative weight exceeds v; else the last of positive weight. -/
def chooseFrom (u : Word) (ws : List (Nat × Word)) : Nat :=
  let cum := (ws.foldl (fun (acc : Word × List (Nat × Word)) x =>
    let c := addR acc.1 x.2
    (c, acc.2 ++ [(x.1, c)])) (0, []))
  let v := mulR u cum.1
  match cum.2.find? fun x => gtR x.2 v with
  | some x => x.1
  | none => ((ws.filter fun x => gtR x.2 0).getLast?.map Prod.fst).getD 0

/-- R299: NAN, EMPTY, or the weights of the live entries. -/
def drawWeights (j : Job) (a : BitVec 4) : Except Nat (List (Nat × Word)) :=
  let l := (j.lives a).map fun x => (x.1, if j.nanm && isNan32 x.2 then negInf else x.2)
  if !j.nanm && (j.rownan || l.any fun x => isNan32 x.2) then .error 4
  else if l.all fun x => x.2 == negInf then .error 3
  else
    let m := maxLive l
    .ok (l.map fun x => (x.1, omega m x.2))

/-- NO_TOKEN. -/
def noToken : Word := 0xFFFF_FFFF
def tokenAt (j : Job) (i : Nat) : Word := (j.set[i]?.map WsEntry.tok).getD noToken

/-- R299: the position's status and token. -/
def drawOf (j : Job) (a : BitVec 4) : Nat × Word :=
  match drawWeights j a with
  | .error st => (st, noToken)
  | .ok ws => (0, tokenAt j (chooseFrom (unitR (jobDraw j).1) ws))
/-- draw (R299). -/
def execLogitDraw (a : LogitArgs) (s : State) : Host.Outcome State Fault Refusal :=
  compute s fun j => { j with drawn := some (drawOf j a.a) }

/-- R300: rejection against the draft token. -/
def accOf (j : Job) (a b : BitVec 4) : Nat × Word :=
  match drawWeights j a with
  | .error st => (st, noToken)
  | .ok ws =>
      let c := sumR (ws.map Prod.snd)
      let p : List (Nat × Word) := ws.map fun x => (x.1, divR x.2 c)
      let q : Nat → Word := fun i => (j.set[i]?.map fun (e : WsEntry) => e.val b).getD 0
      let x := j.desc.getD (14 + j.pos) 0
      let u2 := unitR (jobDraw j).2
      let hit := match j.set.findIdx? fun e => e.tok == x with
        | none => false
        | some i => match p.find? fun (y : Nat × Word) => y.1 == i with
            | none => false
            | some y => if q i = 0 then gtR y.2 0 else gtR y.2 (mulR u2 (q i))
      if hit then (1, x)
      else
        let rho : List (Nat × Word) := p.map fun (y : Nat × Word) => (y.1, maxR 0 (subR y.2 (q y.1)))
        let ws : List (Nat × Word) := if rho.all fun (y : Nat × Word) => (f32Val y.2).isZero then p else rho
        (2, tokenAt j (chooseFrom (unitR (jobDraw j).1) ws))
/-- acc (R300): at the last position it is draw. -/
def execLogitAcc (a : LogitArgs) (s : State) : Host.Outcome State Fault Refusal :=
  compute s fun j => { j with drawn := some (if j.pos + 1 = j.npos then drawOf j a.a else accOf j a.a a.b) }

/-- R301: a position's run ends: its entry; the next position runs after ACCEPT alone. -/
def endRun (j : Job) : Job :=
  let o := j.drawn.getD (3, noToken)
  let j := { j with outs := j.outs ++ [(j.pos, o.1, o.2)] }
  if o.1 = 1 ∧ j.pos + 1 < j.npos then j.start (j.pos + 1) else { j with finished := true }
/-- pub (R295, R301). -/
def execLogitPub (_ : LogitArgs) (s : State) : Host.Outcome State Fault Refusal :=
  logit s fun j s => .turn (endRun j) s

end Sys2Proof.Machine
end

