-- ==== Sys2Proof/Machine/Privileged.lean ====
section
/-! DEFINITION. Privileged instructions (R315, R320, R321, R327, R328, R372) on threads and contexts: eret, ctxkill,
halt, ctxsave, ctxload, tlbinv, and what completes them. -/

namespace Sys2Proof.Machine

/-- A status written at once. -/
def status (s : State) (t : Nat) (d : BitVec 8) (n : Nat) : State :=
  s.onThread t fun th => { th with v := th.v.set d.toNat (BitVec.ofNat 32 n) }

/-- The operation a thread waited for is complete: its status is written and it goes on. -/
def finishWith (s : State) (t d n : Nat) : State :=
  release8 (s.onThread t fun th => { th with v := th.v.set d (BitVec.ofNat 32 n) }) t

/-- A context of the issuing thread's partition. -/
def ownCtx (s : State) (t ctx : Nat) : Bool := s.ctxPart ctx == some (s.partOf t)

/-! ### eret (R320) -/

/-- The resumption eret asks for. -/
def resumption (a : EretArgs) (e : Env) : Resume :=
  match a.res with
  | .retry => .retry
  | .skip => .skip
  | .pc => .pc (match a.h with
      | .v n => pair (e.v (n.toNat + 2)) (e.v (n.toNat + 3))
      | .k n => pair (e.k (n.toNat + 2)) (e.k (n.toNat + 3)))

/-- eret (R320). -/
def execEret (a : EretArgs) (s : State) : Host.Outcome State Fault Refusal :=
  word (.eret a) s fun is s => eachActive is s fun s t =>
    let e := envOf s t
    let h := e.base1 a.h
    if s.handlePart h ≠ some (s.partOf t) then status s t a.d 3
    else match s.byHandle h with
      | none => status s t a.d 2
      | some u =>
          if !(s.thread u).tc then status s t a.d 1
          else
            let s := returnFromTrap s u (resumption a e)
            status (if (s.thread u).dc then s else resumeChecks s u) t a.d 0

/-! ### ctxkill (R321) -/

/-- ctxkill (R321): the context ends; the thread is held until its launches have retired. -/
def execCtxkill (a : CtxIdArgs) (s : State) : Host.Outcome State Fault Refusal :=
  word (.ctxkill a) s fun is s => eachActive is s fun s t =>
    let c := a.ctx.toNat
    if !ownCtx s t c then status s t a.d 3
    else if s.runtime (s.partOf t) = some c then status s t a.d 1
    else is.stall (endContext s c) t (.kill a.d.toNat c)

/-- A granted pass of a context is on an engine. -/
def Cluster.passesOf (k : Cluster) (ctx : Nat) : Bool :=
  k.granted.any fun r => match k.table.find? r.entry with
    | some e => e.ctx == ctx
    | none => false

/-- R321: a granted pass of the context has yet to complete. -/
def ctxPassing (s : State) (c : Nat) : Bool :=
  s.clusters.values.any fun k => k.passesOf c

/-- CTXKILL_COMPLETE (R321): granted passes have completed and every launch that was ended has retired. -/
def execCtxkillComplete (tid : Nat) (s : State) : Host.Outcome State Fault Refusal :=
  .next <| match (s.thread tid).held, (s.thread tid).why with
    | .stalled, .kill d c =>
        if ctxPassing s c || s.launches.values.any fun l => l.ctx == c && l.ended.isSome then s else finishWith s tid d 0
    | _, _ => s

/-! ### halt (R327) -/

/-- The threads of a context on a die, in blocks that stand there. -/
def haltedThreads (s : State) (d c : Nat) : List Nat :=
  s.threads.keys.filter fun t => s.ctxOf t == c && dieOf (s.coreOf t) == d && (s.blockOf t).save == .resident

/-- halt (R327): from its issue no thread of the context on the die issues. -/
def execHalt (a : CtxIdArgs) (s : State) : Host.Outcome State Fault Refusal :=
  word (.halt a) s fun is s => eachActive is s fun s t =>
    let c := a.ctx.toNat
    let d := dieOf is.core
    if !ownCtx s t c then status s t a.d 3
    else if (s.die d).halted.has c then status s t a.d 0
    else is.stall (s.onDie d fun x => { x with halted := x.halted.set c s.clk }) t (.halt a.d.toNat c)

/-- R327: a request that no drain waits for: performed later from its log entry, or held by a fault or a wait. -/
def reqHeld (r : Req) : Bool :=
  match r.st with
  | .fault _ | .resolved | .denied | .parked => true
  | .sent | .miss => r.entry.isSome
  | .host _ => false

/-- R327: the prompters of a die that serve a partition have published every job they popped. -/
def promptersIdle (s : State) (p d : Nat) : Bool :=
  (List.range 4).all fun n => ((s.die d).prompters.findD n .idle).jobs.all fun j => j.part != p

/-- R327: what a halt waits for. -/
def haltDone (s : State) (d c : Nat) : Bool :=
  let ts := haltedThreads s d c
  !((List.range' (32 * d) 32).any fun k => (s.cluster k).passesOf c)
    && (ts.all fun t => (s.thread t).out.all reqHeld)
    && match s.ctxPart c with
      | some p => promptersIdle s p d
      | none => true

/-- The copies of some threads suspended at a word boundary, or going on. -/
def suspendCopies (s : State) (ts : List Nat) (x : Bool) : State :=
  { s with copies := s.copies.mapKV fun _ cp => if ts.contains cp.tid then { cp with suspended := x } else cp }

/-- HALT_COMPLETE (R327). -/
def execHaltComplete (tid : Nat) (s : State) : Host.Outcome State Fault Refusal :=
  .next <| match (s.thread tid).held, (s.thread tid).why with
    | .stalled, .halt d c =>
        let die := dieOf (s.coreOf tid)
        if haltDone s die c then finishWith (suspendCopies s (haltedThreads s die c) true) tid d 0 else s
    | _, _ => s

/-- R327: the halt of a context is lifted on a die; the time it lasted counts toward no save. -/
def liftHalt (s : State) (d c : Nat) : State :=
  match (s.die d).halted.find? c with
  | none => s
  | some since =>
      let ts := haltedThreads s d c
      let s := suspendCopies (s.onDie d fun x => { x with halted := x.halted.erase c }) ts false
      { s with blocks := s.blocks.mapKV fun _ b =>
          if b.threads.any ts.contains then { b with lastIssue := b.lastIssue + (s.clk - since) } else b }

/-- halt.go (R327). -/
def execHaltGo (a : CtxIdArgs) (s : State) : Host.Outcome State Fault Refusal :=
  word (.haltGo a) s fun is s => eachActive is s fun s t =>
    let c := a.ctx.toNat
    if !ownCtx s t c then status s t a.d 3 else status (liftHalt s (dieOf is.core) c) t a.d 0

/-! ### Images (R328) -/

/-- 2 MiB, and 448 MiB. -/
def imageAlign : Nat := 2 ^ 21
def imageBytes : Nat := 448 * 2 ^ 20

/-- The clusters of a partition on a die. -/
def clustersOn (s : State) (p d : Nat) : List Nat := (s.clustersOf p).filter fun c => c / 32 == d
/-- The banks of a partition on a die. -/
def partBanks (s : State) (p d : Nat) : List Nat := (List.range 256).filter fun b => bankPart s d b == some p

/-- The blocks of a context that stand on a die. -/
def blocksOn (s : State) (d c : Nat) : List Nat :=
  s.blocks.keys.filter fun b => s.holdsSlots b && blockCluster s b / 32 == d
    && ((s.block b).groups.any fun g => (s.group g).ctx == c)

/-- The contents of a bank: the listed bytes, by offset. -/
def bankCells (s : State) (d b : Nat) : Memory :=
  (s.flats.filter fun e => e.1 / bankBytes == d * 256 + b).map fun e => (e.1 % bankBytes, e.2)

/-- The image of a halted context on a die, with the first 64 bytes of its copy in memory. -/
def takeImage (s : State) (p d c : Nat) : Image × State :=
  let bs := blocksOn s d c
  let gs := (s.groups.filter fun _ g => bs.contains g.block)
  let ts := (s.threads.filter fun _ th => gs.has th.group)
  let cs := clustersOn s p d
  let (n, s) := s.tick
  let head := bytesOfNat 8 c ++ bytesOfNat 8 d ++ bytesOfNat 8 n
  ({ ctx := c, die := d
     code := head ++ fixedLen 40 (Config.sealed 0 head)
     body := n + 1
     threads := ts, groups := gs, blocks := s.blocks.filter fun b _ => bs.contains b
     copies := s.copies.filter fun _ cp => ts.has cp.tid
     logs := (s.cores.filter fun k _ => dieOf k == d).mapKV fun _ k => k.log.filter fun _ e => e.threads.any ts.has
     maps := cs.flatMap fun k => (List.range' (4 * k) 4).flatMap fun core => (List.range 8).map fun i =>
       (regKey (RegNo.flsMap i) core, sysGet s (RegNo.flsMap i) core)
     banks := ⟨(partBanks s p d).map fun b => (b, bankCells s d b)⟩
     tiles := ⟨cs.map fun k => (k, (s.cluster k).tiles.mapKV fun _ t => { t with var := .empty })⟩
     wb0 := ⟨cs.map fun k => (k, (s.cluster k).wb0)⟩
     wb1 := ⟨cs.map fun k => (k, (s.cluster k).wb1)⟩
     entries := ⟨cs.map fun k => (k, (s.cluster k).table.filter fun _ e => e.ctx == c)⟩ }, { s with ctr := s.ctr + (imageBytes - 64) })

/-- R328: the 448 MiB of an image in memory. Its layout belongs to the part: behind what tells the image, free bytes. -/
def Image.bytes (i : Image) : List Byte := i.code ++ (List.range (imageBytes - 64)).map fun k => Config.freeByte (i.body + k)

/-- R328: where the variance planes of a cluster go, and their 4 MiB: tile by tile, row by row (log entry 23). -/
def planesAt (s : State) (p d k : Nat) : Nat := sysBits s (RegNo.swapVar d) p 56 21 * 2 ^ 21 + 2 ^ 22 * (k % 32)
def planeWords (c : Cluster) : List Word :=
  (List.range 32).flatMap fun t => (List.range 32768).map fun i => (c.tiles.findD t .zero).var.findD i 0

/-- The variance planes of a partition's engines on a die written to their area, and read from it. -/
def putPlanes (s : State) (p d c : Nat) : Option State :=
  (clustersOn s p d).foldl (fun (r : Option State) k => r.bind fun s =>
    areaWrite s c d (planesAt s p d k) (bytesOfWords (planeWords (s.cluster k)))) (some s)
def getPlanes (s : State) (p d c : Nat) : Option State :=
  (clustersOn s p d).foldl (fun (r : Option State) k => r.bind fun s =>
    (areaRead s c d (planesAt s p d k) (2 ^ 22)).map fun (b, s) =>
      (chunks 32768 32 (wordsOfBytes b)).zipIdx.foldl (fun s e => s.onCluster k fun x =>
        { x with tiles := x.tiles.update e.2 .zero fun t =>
            { t with var := ⟨(e.1.zipIdx.filter fun w => w.1 != 0).map fun w => (w.2, w.1)⟩ } }) s) (some s)

/-- What ctxsave leaves on the die. -/
def clearSaved (s : State) (p : Nat) (i : Image) : State :=
  let cs := clustersOn s p i.die
  let s := (partBanks s p i.die).foldl (fun s b =>
    (attachments s i.die b).foldl (fun s e => setSlot s e.1 e.2 none) s) s
  let s := cs.foldl (fun s k => s.onCluster k fun x =>
    { x with tiles := Sparse.empty, wb0 := { x.wb0 with valid := false }, wb1 := { x.wb1 with valid := false }
             table := x.table.filter fun _ e => e.ctx != i.ctx }) s
  { s with blocks := s.blocks.mapKV fun b x => if i.blocks.has b then { x with save := .swapped } else x }

/-- R328: does every page of an image's place in memory allow the transfer? -/
def imageFaults (s : State) (c : Nat) (priv : Bool) (va : Nat) (write : Bool) : Bool :=
  (List.range (imageBytes / 65536)).any fun i =>
    match viaWindows s c priv (va + 65536 * i) ⟨!write, write, false⟩ with
    | .error _ => true
    | .ok l => !l.phys && match walk (leafOf s l.die l.ia) l write false with
        | .ok _ _ | .lock => false
        | _ => true

/-- A thread's ctxsave or ctxload: the statuses known at once, or the wait for CTX_TRANSFER_COMPLETE. -/
def transferOne (a : CtxArgs) (load : Bool) (is : Issued) (s : State) (t : Nat) : State :=
  let c := a.ctx.toNat
  let d := dieOf is.core
  let mem := a.mem.map fun b => ((envOf s t).base2 b).toNat
  if !ownCtx s t c then status s t a.d 3
  else if !load && !(s.die d).halted.has c then status s t a.d 1
  else match mem with
    | some va => if va % imageAlign ≠ 0 then status s t a.d 5 else is.stall s t (.transfer load a.d.toNat c mem)
    | none => is.stall s t (.transfer load a.d.toNat c none)

/-- ctxsave (R328). -/
def execCtxsave (a : CtxArgs) (s : State) : Host.Outcome State Fault Refusal :=
  word (.ctxsave a) s fun is s => eachActive is s (transferOne a false is)
/-- ctxload (R328). -/
def execCtxload (a : CtxArgs) (s : State) : Host.Outcome State Fault Refusal :=
  word (.ctxload a) s fun is s => eachActive is s (transferOne a true is)

/-- A ctxsave carried out: its status; none while it waits for the halt's drain or at a translator. -/
def saveNow (s : State) (t c : Nat) (mem : Option Nat) : Option (Nat × State) :=
  let d := dieOf (s.coreOf t)
  let p := s.partOf t
  if !haltDone s d c then none
  else
    let s0 := suspendCopies s (haltedThreads s d c) true
    let (i, s1) := takeImage s0 p d c
    let keep := fun (s : State) => (putPlanes s p d c).map fun s =>
      (0, (clearSaved s p i).onDie d fun x => { x with shadow := some i })
    match mem with
    | none => keep s1
    | some va =>
        if imageFaults s1 (s.ctxOf t) (s.privOf t) va true then some (5, s)
        else match writeRange s1 (s.ctxOf t) (s.privOf t) (storeOf s t []) va i.bytes with
          | (.ok _, s2) => keep { s2 with images := i :: s2.images }
          | (.fault _ _, _) => some (5, s)
          | (.wait, _) => none

/-- The image a ctxload restores: from memory, or the shadow. -/
inductive LoadSrc
  | image (i : Image)
  | status (n : Nat)
  | wait

def loadSource (s : State) (t d : Nat) (mem : Option Nat) : LoadSrc :=
  match mem with
  | none => match (s.die d).shadow with
      | some i => .image i
      | none => .status 2
  | some va =>
      if imageFaults s (s.ctxOf t) (s.privOf t) va false then .status 5
      else match readRange s (s.ctxOf t) (s.privOf t) va imageBytes with
        | (.fault _ _, _) => .status 5
        | (.wait, _) => .wait
        | (.ok b, _) => match s.images.find? fun i => i.bytes == b with
            | some i => if i.die = d then .image i else .status 5
            | none => .status 5

/-- R328: status 4. -/
def loadOccupied (s : State) (p d : Nat) (i : Image) : Bool :=
  (s.groups.items.any fun e => !e.2.priv && s.holdsSlots e.2.block && (clustersOn s p d).contains (clusterOf e.2.core))
    || i.banks.keys.any fun b => !(attachments s d b).isEmpty

/-- A block of an image comes back. As long as no load has brought it back, what has happened to it since (a fault
resolved, a wait ended) stands; a block that went on since is as the image has it. One whose launch has ended or
retired does not come back. -/
def restoreBlock (i : Image) (s : State) (b : Nat) : State :=
  let x := s.block b
  let alive := match s.launches.find? x.launch with
    | some l => l.ended.isNone
    | none => false
  if !alive then s
  else
    let gs := (i.groups.filter fun _ g => g.block == b)
    let ts := (i.threads.filter fun _ th => gs.has th.group)
    let s := if x.save = .swapped then s
      else
        { s with
          blocks := match i.blocks.find? b with
            | some y => s.blocks.set b y
            | none => s.blocks
          groups := gs.items.foldl (fun m e => m.set e.1 e.2) s.groups
          threads := ts.items.foldl (fun m e => m.set e.1 e.2) s.threads
          copies := (i.copies.filter fun _ cp => ts.has cp.tid).items.foldl (fun m e => m.set e.1 e.2) s.copies
          cores := s.cores.mapKV fun k c => match i.logs.find? k with
            | none => c
            | some l => { c with log := (l.filter fun _ e => e.threads.any ts.has).items.foldl (fun m e => m.set e.1 e.2) c.log } }
    -- a slot number that an S group has taken meanwhile is given up for a free one
    let s := gs.items.foldl (fun s e =>
      let g := s.group e.1
      if (coreGroups s g.core).any fun o => o.1 != e.1 && o.2.slot == g.slot then
        let (k, s) := takeSlot s g.core false
        s.onGroup e.1 fun y => { y with slot := k }
      else s) s
    s.onBlock b fun y => { y with save := .resident }

/-- R328: the die's state of a context written back. -/
def putImage (s : State) (i : Image) : State :=
  let d := i.die
  let s := { s with sys := i.maps.foldl (fun m e => m.set e.1 e.2) s.sys }
  let s := i.banks.items.foldl (fun s e =>
    let s := zeroBank s d e.1
    { s with flats := e.2.foldl (fun m c => Memory.write m (bankKey d e.1 c.1) c.2) s.flats }) s
  let s := i.tiles.items.foldl (fun s e => s.onCluster e.1 fun k =>
    { k with tiles := e.2, wb0 := i.wb0.findD e.1 k.wb0, wb1 := i.wb1.findD e.1 k.wb1 }) s
  let s := i.blocks.keys.foldl (restoreBlock i) s
  let s := i.entries.items.foldl (fun s e =>
    (e.2.values.filter fun x => (s.block x.block).save == .resident && (cvOf s x.block x.cv).entry.isSome).foldl
      (fun s x => repost s x.block e.1 x) s) s
  let s := s.onDie d fun x =>
    { x with shadow := some i, halted := if x.halted.has i.ctx then x.halted else x.halted.set i.ctx s.clk }
  let ts := i.threads.keys
  let s := ts.foldl (fun s t => match (s.thread t).why with
    | .cue h _ => cueServe s (s.partOf t) h (((s.part (s.partOf t)).cues.find? h).map (fun q => q.waiters.length) |>.getD 0)
    | _ => s) s
  sweep s

/-- A ctxload carried out: its status; none while it waits at a translator. -/
def loadNow (s : State) (t c : Nat) (mem : Option Nat) : Option (Nat × State) :=
  let d := dieOf (s.coreOf t)
  match loadSource s t d mem with
  | .wait => none
  | .status n => some (n, s)
  | .image i =>
      if i.ctx ≠ c then some (2, s)
      else if loadOccupied s (s.partOf t) d i then some (4, s)
      else (getPlanes (putImage s i) (s.partOf t) d c).map fun s => (0, s)

/-- CTX_TRANSFER_COMPLETE (R328). -/
def execCtxTransferComplete (tid : Nat) (s : State) : Host.Outcome State Fault Refusal :=
  .next <| match (s.thread tid).held, (s.thread tid).why with
    | .stalled, .transfer load d c mem =>
        match if load then loadNow s tid c mem else saveNow s tid c mem with
        | some (n, s) => finishWith s tid d n
        | none => s
    | _, _ => s

/-! ### tlbinv (R372) -/

/-- tlbinv (R372): the thread is held until TLBINV_COMPLETE. -/
def execTlbinv (a : TlbinvArgs) (s : State) : Host.Outcome State Fault Refusal :=
  word (.tlbinv a) s fun is s => eachActive is s fun s t =>
    let c := a.ctx.toNat
    let n := 2 ^ a.log2sz.toNat
    let ia := ((envOf s t).base2 a.a).toNat
    if !ownCtx s t c || (!a.all && !inPir s (s.partOf t) ia n) then status s t a.d 3
    else if !a.all && ia % n != 0 then status s t a.d 1
    else is.stall s t (.tlbinv a.d.toNat ia c a.log2sz.toNat a.all)

end Sys2Proof.Machine
end

