-- ==== Sys2Proof/Machine/Tuning.lean ====
section
/-! DEFINITION. The tuning loops (R409, R410) and the thermal trip (R411). None changes what a load, an atomic, a pass
or a draw returns. -/

namespace Sys2Proof.Machine

/-- R410: the issue fraction after one turn of the power loop. -/
def nextFraction (f power cap : Nat) (hot : Bool) : Nat :=
  if hot || decide (cap < power) then max 4 (f - 1)
  else if 100 * power < 95 * cap then min 16 (f + 1)
  else f

/-- ISSUE_FRACTION_ADJUST (R409, R410): the loop's turn, every 100 µs: the average power in W and the highest
temperature in °C, which holds F down from 105 °C until it falls below 100 °C. -/
def execIssueFractionAdjust (power temp : Nat) (s : State) : Host.Outcome State Fault Refusal :=
  .next <|
    if !s.running then s
    else
      let s := s.onPkg fun x => { x with hotLoft := decide (105 < temp) || (x.hotLoft && decide (100 ≤ temp)) }
      let f := nextFraction (sysBits s RegNo.tunStat 0 19 15) power (sysBits s RegNo.tunPwr 0 11 0) s.pkg.hotLoft
      sysPut s RegNo.tunStat 0 (BitVec.ofNat 64 (min power 4095 * 2 ^ 20 + f * 2 ^ 15 + min temp 255))

/-- REMOTE_WAY_ADJUST (R409): CUR of a slice rises or falls by 1, within 0..8, while AUTO = 1. -/
def execRemoteWayAdjust (die slice : Nat) (up : Bool) (s : State) : Host.Outcome State Fault Refusal :=
  .next <|
    let n := RegNo.l2sRwf slice
    if !s.running || s.isUnderstudy || decide (2 ≤ die ∨ 16 ≤ slice) || sysBits s n die 31 31 == 0 then s
    else
      let c := sysBits s n die 19 16
      setWays s die slice (if up then min 8 (c + 1) else c - 1)

/-- CLOCK_STRETCH (R64, R409): a droop event stretches a cluster's clock: so many clk pass in which %cyc stands. -/
def execClockStretch (cluster cycles : Nat) (s : State) : Host.Outcome State Fault Refusal :=
  .next <|
    if !s.running || decide (64 ≤ cluster) then s
    else
      let s := { s with clk := s.clk + cycles }.onCluster cluster fun k => { k with stretched := k.stretched + cycles }
      let n := RegNo.tunAvs cluster
      sysPutBits s n 0 31 16 (min 65535 (sysBits s n 0 31 16 + 1))

/-- SERDES_RETRAIN (R409): the die-to-die link pauses, for at most 1 µs. -/
def execSerdesRetrain (clk : Nat) (s : State) : Host.Outcome State Fault Refusal :=
  .next (if s.running then s.onPkg fun x => { x with linkPause := s.clk + min clk 1250 } else s)

/-- THERMAL_TRIP (R411, R415): every context ends, every launch is KILLED, captures end, PCIe goes down; the trip
counts as a failed attempt. -/
def execThermalTrip (s : State) : Host.Outcome State Fault Refusal :=
  .next <|
    if !s.running then s
    else
      let s := endLaunches s s.threads.keys (fun _ => true) .killed
      let s := { s with parts := s.parts.mapKV fun _ x => { x with tableau := { x.tableau with armed := false, latched := none } } }
      (sysPutBits s RegNo.bootStatus 0 31 24 0x70).onPkg fun x => { x with start := .failed, pcie := false, tripped := true, reason := 0x70, fails := min 3 (x.fails + 1) }

end Sys2Proof.Machine
end

