-- ==== Sys2Proof/Machine/Xop.lean ====
section
/-! DEFINITION. The compatibility unit (R86, R165, R166) and paired words (R155..R158). -/

namespace Sys2Proof.Machine

/-! ### Requests to the unit (R166) -/

/-- R166: each active thread's request joins its die's queue; the result is late. -/
def xopBody (i : Instr) (f : State → Env → Wr) (is : Issued) (s : State) : State :=
  let rs := is.active.map fun t => (t, f s (envOf s t))
  let s := land i (is.active.map fun t => (t, Wr.none)) s
  rs.foldl (fun s r =>
    let w := r.2
    let n := s.ctr
    let s := { s with ctr := n + 1 }
    let s := s.onThread r.1 fun th => { th with pend := th.pend ++ [
      { id := n, dst := w.regs.map Prod.fst ++ w.preds.map Prod.fst, uniform := false, pred := !w.preds.isEmpty,
        port := w.push.map Prod.fst, vals := none, flags := w.flags, sfu := false, pc := is.pc, iw := is.word }] }
    let vals := match w.push with
      | some x => [x.2]
      | none => w.regs.map Prod.snd ++ w.preds.map fun e => if e.2 then 1 else 0
    s.onDie (dieOf is.core) fun d => { d with xops := d.xops ++ [⟨r.1, n, vals, w.flags⟩] }) s

def xop (i : Instr) (s : State) (f : State → Env → Wr) : Host.Outcome State Fault Refusal := word i s (xopBody i f)

/-- R166: the unit returns one result. -/
def xopReturn (die : Nat) (s : State) : State :=
  let q := (s.die die).xops.take 4096
  let (k, s) := s.pick q.length
  match q[k]? with
  | none => s
  | some x =>
      let s := s.onDie die fun d => { d with xops := d.xops.filter fun y => y.pend != x.pend }
      let s := sysPutBits s RegNo.xcuStat die 63 32 (sysBits s RegNo.xcuStat die 63 32 + 1)
      match (s.thread x.tid).pend.find? fun p => p.id == x.pend with
      | none => s
      | some p => landPend s x.tid { p with vals := some x.vals }

/-! ### FP64 (R86, R165) -/

/-- R86: SR rounds RNE and draws nothing. -/
def mode64 (e : Env) (rm : RM) : Mode := let m := modeOf e rm; ⟨if m = .sr then .rne else m, false, 0⟩
/-- An aligned pair as an FP64 code. -/
def op64 (e : Env) (o : Opnd) : Nat := (pair (e.op immSext o) (e.op immSext o 1)).toNat
def words64 (c : Nat) : List Word := [BitVec.ofNat 32 c, BitVec.ofNat 32 (c / 2 ^ 32)]

def xf2 (op : Mode → Nat → Nat → Nat × Flags) (a : XfArgs) (_ : State) (e : Env) : Wr :=
  let r := op (mode64 e a.rm) (op64 e a.a) (op64 e a.b)
  .vec a.d (words64 r.1) r.2
def xfmaL (a : XfArgs) (_ : State) (e : Env) : Wr :=
  let r := Fmt.f64.fma (mode64 e a.rm) (op64 e a.a) (op64 e a.b) (op64 e (.v a.c))
  .vec a.d (words64 r.1) r.2
/-- R165: the quotient, correctly rounded; a division by zero sets NF only. -/
def div64 (md : Mode) (a b : Nat) : Nat × Flags :=
  let x := Fmt.f64.source false a
  let y := Fmt.f64.source false b
  let q := x.1.div y.1
  let p := Fmt.f64.result md (q.1.zeroSign (md.rm == .rd), q.2)
  (p.1, p.2 ||| x.2 ||| y.2)
def xfsqtL (a : XfArgs) (_ : State) (e : Env) : Wr :=
  let x := Fmt.f64.source false (op64 e a.a)
  let p := Fmt.f64.result (mode64 e a.rm) x.1.sqrt
  .vec a.d (words64 p.1) (p.2 ||| x.2)

/-- R165: to or from f64. -/
def xfcvtL (a : XfcvtArgs) (_ : State) (e : Env) : Wr :=
  let md := mode64 e a.rm
  let ftz := flushes e false
  if a.dty = .f64 then
    match a.sty with
    | .f32 =>
        let x := Fmt.f32.source ftz (e.op immSext a.a).toNat
        let o := Fmt.f64.convert md.rm false false 0 false x.1
        .dst a.d (words64 o.code) (o.flags ||| x.2)
    | t =>
        let x := intVal t (e.op immSext a.a)
        let o := Fmt.f64.convert md.rm false false 0 (decide (x < 0)) (.ofInt x)
        .dst a.d (words64 o.code) o.flags
  else
    let x := Fmt.f64.source false (op64 e a.a)
    match a.dty with
    | .f32 =>
        let o := Fmt.f32.convert md.rm false ftz 0 false x.1
        .dst a.d [codeWord o.code] (o.flags ||| x.2)
    | t =>
        let r := toIntSat md.rm 0 (intRange t).1 (intRange t).2 x.1
        .dst a.d [extTo t r.1] (r.2 ||| x.2)

def xfsetpL (a : XfsetpArgs) (_ : State) (e : Env) : Wr :=
  let x := Fmt.f64.source false (op64 e a.a)
  let y := Fmt.f64.source false (op64 e a.b)
  .pred a.pd (fltCond a.cond x.1 y.1) (x.2 ||| y.2)

/-! ### Integer and major-2 forms (R165) -/

/-- R165: the quotient toward zero. -/
def quotient (sgn : Bool) (x y : Word) : Word :=
  if y = 0 then 0xFFFF_FFFF else if sgn then BitVec.ofInt 32 (x.toInt.tdiv y.toInt) else BitVec.ofNat 32 (x.toNat / y.toNat)
/-- R165: a − b × quotient. -/
def remainder (sgn : Bool) (x y : Word) : Word := if y = 0 then x else x - y * quotient sgn x y
def xint (f : Bool → Word → Word → Word) (a : XintArgs) (_ : State) (e : Env) : Wr :=
  .dst a.d [f a.sgn (e.op immSext a.a) (e.op immSext a.b)]
def xop2 (f : Word → Word → Word) (a : Xop2Args) (_ : State) (e : Env) : Wr :=
  .dst a.d [f (e.op immSext a.a) (e.op immSext a.b)]
def shl2 (x n : Word) : Word := x <<< (n.toNat % 32)
def shr2 (x n : Word) : Word := x >>> (n.toNat % 32)
def sar2 (x n : Word) : Word := x.sshiftRight (n.toNat % 32)
def min2 (x y : Word) : Word := if (f32Val x).lt (f32Val y) then x else y
def max2 (x y : Word) : Word := if (f32Val y).lt (f32Val x) then x else y
/-- R165: truncation; NaN and what lies outside i32 give 0x8000_0000. -/
def trunc2 (x : Word) : Word :=
  match f32Val x with
  | .fin n m e =>
      let k : Int := if n then -((gridRound .rz 0 n m e 0).q : Int) else (gridRound .rz 0 n m e 0).q
      if k < -2 ^ 31 ∨ 2 ^ 31 ≤ k then 0x8000_0000 else BitVec.ofInt 32 k
  | _ => 0x8000_0000
def xcvt2L (a : Log1Args) (_ : State) (e : Env) : Wr := .dst a.d [trunc2 (e.op immSext a.a)]

/-! ### Halves of a paired word (R155..R158) -/

/-- The second operand of a half. -/
def halfB (h : Half) : Opnd := if h.ka then .k (h.a.setWidth 10) else .v h.a
def halfGuard (h : Half) : Guard := ⟨false, h.g⟩
def halfDm (h : Half) : DM := if h.mv then .mv else .plain
def halfInt2 (h : Half) : Int2Args := ⟨halfGuard h, h.ty, false, .v h.d, .v h.d, halfB h⟩
def halfInt1 (h : Half) : Int1Args := ⟨halfGuard h, h.ty, false, .v h.d, halfB h⟩
def halfLog2 (h : Half) : Log2Args := ⟨halfGuard h, .v h.d, .v h.d, halfB h⟩
def halfLog1 (h : Half) : Log1Args := ⟨halfGuard h, .v h.d, halfB h⟩
def halfFlt2 (h : Half) : Flt2Args := ⟨halfGuard h, halfDm h, h.ty, .dyn, false, false, false, .v h.d, .v h.d, halfB h⟩
def halfFlt1 (h : Half) : Flt1Args := ⟨halfGuard h, halfDm h, h.ty, .dyn, false, false, .v h.d, halfB h⟩

/-- R156: d := round(a × a′ + d). -/
def fmacL (h : Half) (s : State) (e : Env) : Wr :=
  let md := elemMode s e .dyn false 0
  let r := Fmt.f32.fma md (e.op immSext (halfB h)).toNat (e.op immSext (halfB h) 1).toNat (e.v h.d.toNat).toNat
  .vec h.d [codeWord r.1] r.2 (drawCount e .dyn 1)

/-- R156: what one half does in a thread. -/
def halfL (h : Half) (s : State) (e : Env) : Wr :=
  match h.op with
  | .add => int2 (· + ·) (halfInt2 h) s e
  | .sub => int2 (· - ·) (halfInt2 h) s e
  | .mul => int2 (· * ·) (halfInt2 h) s e
  | .mulhi => int2 mulHigh (halfInt2 h) s e
  | .min => int2 smaller (halfInt2 h) s e
  | .max => int2 larger (halfInt2 h) s e
  | .abs => int1 absolute (halfInt1 h) s e
  | .neg => int1 (fun x => -x) (halfInt1 h) s e
  | .shl => log2 shiftLeft (halfLog2 h) s e
  | .shr => log2 shiftRight (halfLog2 h) s e
  | .sar => log2 shiftArith (halfLog2 h) s e
  | .rot => log2 rotateLeft (halfLog2 h) s e
  | .and => log2 andW (halfLog2 h) s e
  | .or => log2 orW (halfLog2 h) s e
  | .xor => log2 xorW (halfLog2 h) s e
  | .andn => log2 andNot (halfLog2 h) s e
  | .not => log1 notW (halfLog1 h) s e
  | .popc => log1 popCount (halfLog1 h) s e
  | .clz => log1 leadingZeros (halfLog1 h) s e
  | .ctz => log1 trailingZeros (halfLog1 h) s e
  | .brev => log1 reverseBits (halfLog1 h) s e
  | .mov => .vec h.d (groupOf (halfDm h) immSext e (halfB h))
  | .fadd => faddL (halfFlt2 h) s e
  | .fsub => fsubL (halfFlt2 h) s e
  | .fmul => fmulL (halfFlt2 h) s e
  | .fmin => fminL (halfFlt2 h) s e
  | .fmax => fmaxL (halfFlt2 h) s e
  | .fscale => fscaleL (halfFlt2 h) s e
  | .frnd => frndL (halfFlt1 h) s e
  | .pkadd => pk2 Fmt.add (halfFlt2 h) s e
  | .pkmul => pk2 Fmt.mul (halfFlt2 h) s e
  | .nop => .none
  | .fmac => fmacL h s e

/-- R156: both halves read before either writes; each under its own guard; half X draws first. -/
def pairedL (a : PairArgs) (s : State) (e : Env) : Wr :=
  let x := if guardHolds (halfGuard a.x) e.th then halfL a.x s e else .none
  let e' := { e with th := { e.th with draws := e.th.draws + BitVec.ofNat 48 x.draws } }
  let y := if guardHolds (halfGuard a.y) e.th then halfL a.y s e' else .none
  ⟨x.regs ++ y.regs, [], none, x.flags ||| y.flags, x.draws + y.draws⟩

/-! ### Meanings -/

/-- R165. -/
def execXfadd (a : XfArgs) (s : State) : Host.Outcome State Fault Refusal := xop (.xfadd a) s (xf2 Fmt.f64.add a)
/-- R165. -/
def execXfsub (a : XfArgs) (s : State) : Host.Outcome State Fault Refusal := xop (.xfsub a) s (xf2 Fmt.f64.sub a)
/-- R165. -/
def execXfmul (a : XfArgs) (s : State) : Host.Outcome State Fault Refusal := xop (.xfmul a) s (xf2 Fmt.f64.mul a)
/-- R165. -/
def execXfma (a : XfArgs) (s : State) : Host.Outcome State Fault Refusal := xop (.xfma a) s (xfmaL a)
/-- R165. -/
def execXfdiv (a : XfArgs) (s : State) : Host.Outcome State Fault Refusal := xop (.xfdiv a) s (xf2 div64 a)
/-- R165. -/
def execXfsqt (a : XfArgs) (s : State) : Host.Outcome State Fault Refusal := xop (.xfsqt a) s (xfsqtL a)
/-- R165. -/
def execXfcvt (a : XfcvtArgs) (s : State) : Host.Outcome State Fault Refusal := xop (.xfcvt a) s (xfcvtL a)
/-- R165. -/
def execXfsetp (a : XfsetpArgs) (s : State) : Host.Outcome State Fault Refusal := xop (.xfsetp a) s (xfsetpL a)
/-- R165. -/
def execXdiv (a : XintArgs) (s : State) : Host.Outcome State Fault Refusal := xop (.xdiv a) s (xint quotient a)
/-- R165. -/
def execXrem (a : XintArgs) (s : State) : Host.Outcome State Fault Refusal := xop (.xrem a) s (xint remainder a)
/-- R165. -/
def execXshl2 (a : Xop2Args) (s : State) : Host.Outcome State Fault Refusal := xop (.xshl2 a) s (xop2 shl2 a)
/-- R165. -/
def execXshr2 (a : Xop2Args) (s : State) : Host.Outcome State Fault Refusal := xop (.xshr2 a) s (xop2 shr2 a)
/-- R165. -/
def execXsar2 (a : Xop2Args) (s : State) : Host.Outcome State Fault Refusal := xop (.xsar2 a) s (xop2 sar2 a)
/-- R165. -/
def execXmin2 (a : Xop2Args) (s : State) : Host.Outcome State Fault Refusal := xop (.xmin2 a) s (xop2 min2 a)
/-- R165. -/
def execXmax2 (a : Xop2Args) (s : State) : Host.Outcome State Fault Refusal := xop (.xmax2 a) s (xop2 max2 a)
/-- R165. -/
def execXcvt2 (a : Log1Args) (s : State) : Host.Outcome State Fault Refusal := xop (.xcvt2 a) s (xcvt2L a)
/-- R155..R158. -/
def execPairedWord (a : PairArgs) (s : State) : Host.Outcome State Fault Refusal := alu (.pairedWord a) s (pairedL a)
/-- R56, R166. -/
def execXopResultReturn (die : Nat) (s : State) : Host.Outcome State Fault Refusal := .next (xopReturn die s)

end Sys2Proof.Machine
end

