-- ==== Sys2Proof/Machine/Dispatch.lean ====
section
/-! DEFINITION. One arm per row of the table of operations and events: its meaning. -/

namespace Sys2Proof.Machine

def exec (i : Instr) (s : State) : Host.Outcome State Fault Refusal :=
  match i with
  | .add a => Sys2Proof.Machine.execAdd a s
  | .addImm a => Sys2Proof.Machine.execAddImm a s
  | .sub a => Sys2Proof.Machine.execSub a s
  | .subImm a => Sys2Proof.Machine.execSubImm a s
  | .add3 a => Sys2Proof.Machine.execAdd3 a s
  | .mul a => Sys2Proof.Machine.execMul a s
  | .mulImm a => Sys2Proof.Machine.execMulImm a s
  | .mulhi a => Sys2Proof.Machine.execMulhi a s
  | .mulhiImm a => Sys2Proof.Machine.execMulhiImm a s
  | .mad a => Sys2Proof.Machine.execMad a s
  | .shladd a => Sys2Proof.Machine.execShladd a s
  | .abs_ a => Sys2Proof.Machine.execAbs a s
  | .min_ a => Sys2Proof.Machine.execMin a s
  | .minImm a => Sys2Proof.Machine.execMinImm a s
  | .max_ a => Sys2Proof.Machine.execMax a s
  | .maxImm a => Sys2Proof.Machine.execMaxImm a s
  | .neg a => Sys2Proof.Machine.execNeg a s
  | .shl a => Sys2Proof.Machine.execShl a s
  | .shlImm a => Sys2Proof.Machine.execShlImm a s
  | .shr a => Sys2Proof.Machine.execShr a s
  | .shrImm a => Sys2Proof.Machine.execShrImm a s
  | .sar a => Sys2Proof.Machine.execSar a s
  | .sarImm a => Sys2Proof.Machine.execSarImm a s
  | .rot a => Sys2Proof.Machine.execRot a s
  | .rotImm a => Sys2Proof.Machine.execRotImm a s
  | .and_ a => Sys2Proof.Machine.execAnd a s
  | .andImm a => Sys2Proof.Machine.execAndImm a s
  | .or_ a => Sys2Proof.Machine.execOr a s
  | .orImm a => Sys2Proof.Machine.execOrImm a s
  | .xor_ a => Sys2Proof.Machine.execXor a s
  | .xorImm a => Sys2Proof.Machine.execXorImm a s
  | .andn a => Sys2Proof.Machine.execAndn a s
  | .andnImm a => Sys2Proof.Machine.execAndnImm a s
  | .not_ a => Sys2Proof.Machine.execNot a s
  | .lut3 a => Sys2Proof.Machine.execLut3 a s
  | .popc a => Sys2Proof.Machine.execPopc a s
  | .clz a => Sys2Proof.Machine.execClz a s
  | .ctz a => Sys2Proof.Machine.execCtz a s
  | .brev a => Sys2Proof.Machine.execBrev a s
  | .bfe a => Sys2Proof.Machine.execBfe a s
  | .bfi a => Sys2Proof.Machine.execBfi a s
  | .setp a => Sys2Proof.Machine.execSetp a s
  | .setpImm a => Sys2Proof.Machine.execSetpImm a s
  | .sel a => Sys2Proof.Machine.execSel a s
  | .selImm a => Sys2Proof.Machine.execSelImm a s
  | .cvti a => Sys2Proof.Machine.execCvti a s
  | .fadd a => Sys2Proof.Machine.execFadd a s
  | .faddImm a => Sys2Proof.Machine.execFaddImm a s
  | .fsub a => Sys2Proof.Machine.execFsub a s
  | .fsubImm a => Sys2Proof.Machine.execFsubImm a s
  | .fmul a => Sys2Proof.Machine.execFmul a s
  | .fmulImm a => Sys2Proof.Machine.execFmulImm a s
  | .fma a => Sys2Proof.Machine.execFma a s
  | .fmin a => Sys2Proof.Machine.execFmin a s
  | .fminImm a => Sys2Proof.Machine.execFminImm a s
  | .fmax a => Sys2Proof.Machine.execFmax a s
  | .fmaxImm a => Sys2Proof.Machine.execFmaxImm a s
  | .fsetp a => Sys2Proof.Machine.execFsetp a s
  | .fsetpImm a => Sys2Proof.Machine.execFsetpImm a s
  | .fclass a => Sys2Proof.Machine.execFclass a s
  | .fscale a => Sys2Proof.Machine.execFscale a s
  | .fscaleImm a => Sys2Proof.Machine.execFscaleImm a s
  | .frnd a => Sys2Proof.Machine.execFrnd a s
  | .cvt a => Sys2Proof.Machine.execCvt a s
  | .pkadd a => Sys2Proof.Machine.execPkadd a s
  | .pkaddImm a => Sys2Proof.Machine.execPkaddImm a s
  | .pkmul a => Sys2Proof.Machine.execPkmul a s
  | .pkmulImm a => Sys2Proof.Machine.execPkmulImm a s
  | .pkfma a => Sys2Proof.Machine.execPkfma a s
  | .dp2 a => Sys2Proof.Machine.execDp2 a s
  | .dp4 a => Sys2Proof.Machine.execDp4 a s
  | .ex2 a => Sys2Proof.Machine.execEx2 a s
  | .lg2 a => Sys2Proof.Machine.execLg2 a s
  | .rcp a => Sys2Proof.Machine.execRcp a s
  | .rsq a => Sys2Proof.Machine.execRsq a s
  | .sqt a => Sys2Proof.Machine.execSqt a s
  | .sin a => Sys2Proof.Machine.execSin a s
  | .cos a => Sys2Proof.Machine.execCos a s
  | .tnh a => Sys2Proof.Machine.execTnh a s
  | .lgt a => Sys2Proof.Machine.execLgt a s
  | .dmake a => Sys2Proof.Machine.execDmake a s
  | .dmean a => Sys2Proof.Machine.execDmean a s
  | .dvar a => Sys2Proof.Machine.execDvar a s
  | .dlin a => Sys2Proof.Machine.execDlin a s
  | .dfold a => Sys2Proof.Machine.execDfold a s
  | .dspread a => Sys2Proof.Machine.execDspread a s
  | .dsamp a => Sys2Proof.Machine.execDsamp a s
  | .bsinit a => Sys2Proof.Machine.execBsinit a s
  | .bsread a => Sys2Proof.Machine.execBsread a s
  | .bspeek a => Sys2Proof.Machine.execBspeek a s
  | .bsskip a => Sys2Proof.Machine.execBsskip a s
  | .bsalign a => Sys2Proof.Machine.execBsalign a s
  | .rngseed a => Sys2Proof.Machine.execRngseed a s
  | .rndU32 a => Sys2Proof.Machine.execRndU32 a s
  | .rndF32 a => Sys2Proof.Machine.execRndF32 a s
  | .rndGauss a => Sys2Proof.Machine.execRndGauss a s
  | .rndCat a => Sys2Proof.Machine.execRndCat a s
  | .laneIdx a => Sys2Proof.Machine.execLaneIdx a s
  | .laneRise a => Sys2Proof.Machine.execLaneRise a s
  | .laneFall a => Sys2Proof.Machine.execLaneFall a s
  | .laneFlip a => Sys2Proof.Machine.execLaneFlip a s
  | .pollAny a => Sys2Proof.Machine.execPollAny a s
  | .pollAll a => Sys2Proof.Machine.execPollAll a s
  | .pollMap a => Sys2Proof.Machine.execPollMap a s
  | .fold a => Sys2Proof.Machine.execFold a s
  | .pfx a => Sys2Proof.Machine.execPfx a s
  | .peers a => Sys2Proof.Machine.execPeers a s
  | .mov a => Sys2Proof.Machine.execMov a s
  | .movi a => Sys2Proof.Machine.execMovi a s
  | .moviHi a => Sys2Proof.Machine.execMoviHi a s
  | .movk a => Sys2Proof.Machine.execMovk a s
  | .movsRead a => Sys2Proof.Machine.execMovsRead a s
  | .movsWriteFsr a => Sys2Proof.Machine.execMovsWriteFsr a s
  | .movpRead a => Sys2Proof.Machine.execMovpRead a s
  | .movpWrite a => Sys2Proof.Machine.execMovpWrite a s
  | .xfadd a => Sys2Proof.Machine.execXfadd a s
  | .xfsub a => Sys2Proof.Machine.execXfsub a s
  | .xfmul a => Sys2Proof.Machine.execXfmul a s
  | .xfma a => Sys2Proof.Machine.execXfma a s
  | .xfdiv a => Sys2Proof.Machine.execXfdiv a s
  | .xfsqt a => Sys2Proof.Machine.execXfsqt a s
  | .xfcvt a => Sys2Proof.Machine.execXfcvt a s
  | .xfsetp a => Sys2Proof.Machine.execXfsetp a s
  | .xdiv a => Sys2Proof.Machine.execXdiv a s
  | .xrem a => Sys2Proof.Machine.execXrem a s
  | .xshl2 a => Sys2Proof.Machine.execXshl2 a s
  | .xshr2 a => Sys2Proof.Machine.execXshr2 a s
  | .xsar2 a => Sys2Proof.Machine.execXsar2 a s
  | .xmin2 a => Sys2Proof.Machine.execXmin2 a s
  | .xmax2 a => Sys2Proof.Machine.execXmax2 a s
  | .xcvt2 a => Sys2Proof.Machine.execXcvt2 a s
  | .pairedWord a => Sys2Proof.Machine.execPairedWord a s
  | .ld a => Sys2Proof.Machine.execLd a s
  | .st a => Sys2Proof.Machine.execSt a s
  | .ldk a => Sys2Proof.Machine.execLdk a s
  | .ldLoft a => Sys2Proof.Machine.execLdLoft a s
  | .prefetch a => Sys2Proof.Machine.execPrefetch a s
  | .icflush a => Sys2Proof.Machine.execIcflush a s
  | .qcfg a => Sys2Proof.Machine.execQcfg a s
  | .qclose a => Sys2Proof.Machine.execQclose a s
  | .atom a => Sys2Proof.Machine.execAtom a s
  | .red a => Sys2Proof.Machine.execRed a s
  | .svpost a => Sys2Proof.Machine.execSvpost a s
  | .svwait a => Sys2Proof.Machine.execSvwait a s
  | .cpRows a => Sys2Proof.Machine.execCpRows a s
  | .cpReduce a => Sys2Proof.Machine.execCpReduce a s
  | .cpSeal a => Sys2Proof.Machine.execCpSeal a s
  | .cpWait a => Sys2Proof.Machine.execCpWait a s
  | .cpColl a => Sys2Proof.Machine.execCpColl a s
  | .cpReady a => Sys2Proof.Machine.execCpReady a s
  | .cuePop a => Sys2Proof.Machine.execCuePop a s
  | .cuePush a => Sys2Proof.Machine.execCuePush a s
  | .flatGive a => Sys2Proof.Machine.execFlatGive a s
  | .flatTake a => Sys2Proof.Machine.execFlatTake a s
  | .flatShare a => Sys2Proof.Machine.execFlatShare a s
  | .flatStat a => Sys2Proof.Machine.execFlatStat a s
  | .barBlk a => Sys2Proof.Machine.execBarBlk a s
  | .barCls a => Sys2Proof.Machine.execBarCls a s
  | .barDev a => Sys2Proof.Machine.execBarDev a s
  | .barDevSuper a => Sys2Proof.Machine.execBarDevSuper a s
  | .barArrive a => Sys2Proof.Machine.execBarArrive a s
  | .barWait a => Sys2Proof.Machine.execBarWait a s
  | .join a => Sys2Proof.Machine.execJoin a s
  | .leave a => Sys2Proof.Machine.execLeave a s
  | .wait a => Sys2Proof.Machine.execWait a s
  | .mset a => Sys2Proof.Machine.execMset a s
  | .mget a => Sys2Proof.Machine.execMget a s
  | .sign a => Sys2Proof.Machine.execSign a s
  | .cvwait a => Sys2Proof.Machine.execCvwait a s
  | .bra a => Sys2Proof.Machine.execBra a s
  | .brx a => Sys2Proof.Machine.execBrx a s
  | .call a => Sys2Proof.Machine.execCall a s
  | .ret a => Sys2Proof.Machine.execRet a s
  | .exit a => Sys2Proof.Machine.execExit a s
  | .yield a => Sys2Proof.Machine.execYield a s
  | .suspend a => Sys2Proof.Machine.execSuspend a s
  | .signal a => Sys2Proof.Machine.execSignal a s
  | .launch a => Sys2Proof.Machine.execLaunch a s
  | .trap a => Sys2Proof.Machine.execTrap a s
  | .brk a => Sys2Proof.Machine.execBrk a s
  | .nop a => Sys2Proof.Machine.execNop a s
  | .wlatch a => Sys2Proof.Machine.execWlatch a s
  | .mmpost a => Sys2Proof.Machine.execMmpost a s
  | .accrd a => Sys2Proof.Machine.execAccrd a s
  | .accclr a => Sys2Proof.Machine.execAccclr a s
  | .acccvt a => Sys2Proof.Machine.execAcccvt a s
  | .accstat a => Sys2Proof.Machine.execAccstat a s
  | .mxstat a => Sys2Proof.Machine.execMxstat a s
  | .csrr a => Sys2Proof.Machine.execCsrr a s
  | .csrw a => Sys2Proof.Machine.execCsrw a s
  | .eret a => Sys2Proof.Machine.execEret a s
  | .tlbinv a => Sys2Proof.Machine.execTlbinv a s
  | .ctxsave a => Sys2Proof.Machine.execCtxsave a s
  | .ctxload a => Sys2Proof.Machine.execCtxload a s
  | .halt a => Sys2Proof.Machine.execHalt a s
  | .haltGo a => Sys2Proof.Machine.execHaltGo a s
  | .dbgstep a => Sys2Proof.Machine.execDbgstep a s
  | .tblarm a => Sys2Proof.Machine.execTblarm a s
  | .tblread a => Sys2Proof.Machine.execTblread a s
  | .dbgres a => Sys2Proof.Machine.execDbgres a s
  | .dbgcur a => Sys2Proof.Machine.execDbgcur a s
  | .ctxkill a => Sys2Proof.Machine.execCtxkill a s
  | .logitLdc a => Sys2Proof.Machine.execLogitLdc a s
  | .logitLdw a => Sys2Proof.Machine.execLogitLdw a s
  | .logitLdt a => Sys2Proof.Machine.execLogitLdt a s
  | .logitLdb a => Sys2Proof.Machine.execLogitLdb a s
  | .logitLdg a => Sys2Proof.Machine.execLogitLdg a s
  | .logitLdd a => Sys2Proof.Machine.execLogitLdd a s
  | .logitLds a => Sys2Proof.Machine.execLogitLds a s
  | .logitSet a => Sys2Proof.Machine.execLogitSet a s
  | .logitMode a => Sys2Proof.Machine.execLogitMode a s
  | .logitMov a => Sys2Proof.Machine.execLogitMov a s
  | .logitAdd a => Sys2Proof.Machine.execLogitAdd a s
  | .logitMul a => Sys2Proof.Machine.execLogitMul a s
  | .logitPen a => Sys2Proof.Machine.execLogitPen a s
  | .logitFpen a => Sys2Proof.Machine.execLogitFpen a s
  | .logitTemp a => Sys2Proof.Machine.execLogitTemp a s
  | .logitClmp a => Sys2Proof.Machine.execLogitClmp a s
  | .logitKeep a => Sys2Proof.Machine.execLogitKeep a s
  | .logitTopk a => Sys2Proof.Machine.execLogitTopk a s
  | .logitTopp a => Sys2Proof.Machine.execLogitTopp a s
  | .logitMinp a => Sys2Proof.Machine.execLogitMinp a s
  | .logitSort a => Sys2Proof.Machine.execLogitSort a s
  | .logitNorm a => Sys2Proof.Machine.execLogitNorm a s
  | .logitVmax a => Sys2Proof.Machine.execLogitVmax a s
  | .logitDraw a => Sys2Proof.Machine.execLogitDraw a s
  | .logitAcc a => Sys2Proof.Machine.execLogitAcc a s
  | .logitPub a => Sys2Proof.Machine.execLogitPub a s
  | .bundleBuild core => Sys2Proof.Machine.execBundleBuild core s
  | .lateResultWrite tid => Sys2Proof.Machine.execLateResultWrite tid s
  | .xopResultReturn die => Sys2Proof.Machine.execXopResultReturn die s
  | .lateFaultArrival entry => Sys2Proof.Machine.execLateFaultArrival entry s
  | .operandLogReplay entry => Sys2Proof.Machine.execOperandLogReplay entry s
  | .blockSave blk => Sys2Proof.Machine.execBlockSave blk s
  | .blockRelaunch blk => Sys2Proof.Machine.execBlockRelaunch blk s
  | .queueStreamRead tid port => Sys2Proof.Machine.execQueueStreamRead tid port s
  | .queueStreamWrite tid port => Sys2Proof.Machine.execQueueStreamWrite tid port s
  | .copyComplete copy => Sys2Proof.Machine.execCopyComplete copy s
  | .copyFault copy => Sys2Proof.Machine.execCopyFault copy s
  | .collPull copy => Sys2Proof.Machine.execCollPull copy s
  | .readyRecordRetire part tile => Sys2Proof.Machine.execReadyRecordRetire part tile s
  | .flatGivePoint tid => Sys2Proof.Machine.execFlatGivePoint tid s
  | .arbiterGrant cluster => Sys2Proof.Machine.execArbiterGrant cluster s
  | .passComplete cluster => Sys2Proof.Machine.execPassComplete cluster s
  | .tlbinvComplete tid => Sys2Proof.Machine.execTlbinvComplete tid s
  | .ctxTransferComplete tid => Sys2Proof.Machine.execCtxTransferComplete tid s
  | .haltComplete tid => Sys2Proof.Machine.execHaltComplete tid s
  | .ctxkillComplete tid => Sys2Proof.Machine.execCtxkillComplete tid s
  | .launchAdmit part queue => Sys2Proof.Machine.execLaunchAdmit part queue s
  | .blockDispatch part cluster => Sys2Proof.Machine.execBlockDispatch part cluster s
  | .clusterReserve part cluster => Sys2Proof.Machine.execClusterReserve part cluster s
  | .locateCacheFill part launch => Sys2Proof.Machine.execLocateCacheFill part launch s
  | .launchRetire launch => Sys2Proof.Machine.execLaunchRetire launch s
  | .bubbleSlotEnd part => Sys2Proof.Machine.execBubbleSlotEnd part s
  | .bubbleOverrunSave part => Sys2Proof.Machine.execBubbleOverrunSave part s
  | .prompterJobPop die n => Sys2Proof.Machine.execPrompterJobPop die n s
  | .prompterPublish die n => Sys2Proof.Machine.execPrompterPublish die n s
  | .l2SliceRequest die slice => Sys2Proof.Machine.execL2SliceRequest die slice s
  | .translateRequest die slice => Sys2Proof.Machine.execTranslateRequest die slice s
  | .xltResolveRetry a => Sys2Proof.Machine.execXltResolveRetry a s
  | .xltResolveDeny a => Sys2Proof.Machine.execXltResolveDeny a s
  | .pteRead a => Sys2Proof.Machine.execPteRead a s
  | .pteWrite a => Sys2Proof.Machine.execPteWrite a s
  | .pteClear a => Sys2Proof.Machine.execPteClear a s
  | .hostLeafRead a => Sys2Proof.Machine.execHostLeafRead a s
  | .hostLeafWrite a => Sys2Proof.Machine.execHostLeafWrite a s
  | .hostLeafClear a => Sys2Proof.Machine.execHostLeafClear a s
  | .hostLinkCompletion req => Sys2Proof.Machine.execHostLinkCompletion req s
  | .loftLoadGo a => Sys2Proof.Machine.execLoftLoadGo a s
  | .loftLoadCopy die => Sys2Proof.Machine.execLoftLoadCopy die s
  | .loftLoadDone die => Sys2Proof.Machine.execLoftLoadDone die s
  | .loftRefreshWindow die group => Sys2Proof.Machine.execLoftRefreshWindow die group s
  | .flsMapWrite a => Sys2Proof.Machine.execFlsMapWrite a s
  | .flsOwnWrite a => Sys2Proof.Machine.execFlsOwnWrite a s
  | .flatBankDetach a => Sys2Proof.Machine.execFlatBankDetach a s
  | .flatBankZero a => Sys2Proof.Machine.execFlatBankZero a s
  | .flatBankOwner a => Sys2Proof.Machine.execFlatBankOwner a s
  | .scrubPass die => Sys2Proof.Machine.execScrubPass die s
  | .uncorrectableError a => Sys2Proof.Machine.execUncorrectableError a s
  | .evcAdd a => Sys2Proof.Machine.execEvcAdd a s
  | .launchCancel a => Sys2Proof.Machine.execLaunchCancel a s
  | .launchQueueTailWrite a => Sys2Proof.Machine.execLaunchQueueTailWrite a s
  | .cueRegister a => Sys2Proof.Machine.execCueRegister a s
  | .cueDeregister a => Sys2Proof.Machine.execCueDeregister a s
  | .bubbleSlotOpen a => Sys2Proof.Machine.execBubbleSlotOpen a s
  | .bubbleSlotClose a => Sys2Proof.Machine.execBubbleSlotClose a s
  | .smgCplfifoRead a => Sys2Proof.Machine.execSmgCplfifoRead a s
  | .smgCuePush a => Sys2Proof.Machine.execSmgCuePush a s
  | .hlkNoteRead a => Sys2Proof.Machine.execHlkNoteRead a s
  | .hlkErrRead a => Sys2Proof.Machine.execHlkErrRead a s
  | .prmErrRead a => Sys2Proof.Machine.execPrmErrRead a s
  | .scbCecntRead a => Sys2Proof.Machine.execScbCecntRead a s
  | .scbUelogRead a => Sys2Proof.Machine.execScbUelogRead a s
  | .tunAvsRead a => Sys2Proof.Machine.execTunAvsRead a s
  | .dbgDataRead a => Sys2Proof.Machine.execDbgDataRead a s
  | .dbgDataWrite a => Sys2Proof.Machine.execDbgDataWrite a s
  | .tblFire a => Sys2Proof.Machine.execTblFire a s
  | .tblDisarm a => Sys2Proof.Machine.execTblDisarm a s
  | .tableauExternalTrigger => Sys2Proof.Machine.execTableauExternalTrigger s
  | .tableauLatch part => Sys2Proof.Machine.execTableauLatch part s
  | .tableauRecordsWritten part => Sys2Proof.Machine.execTableauRecordsWritten part s
  | .uepGroupEnable a => Sys2Proof.Machine.execUepGroupEnable a s
  | .bootFailsWrite a => Sys2Proof.Machine.execBootFailsWrite a s
  | .bootCmdQueue a => Sys2Proof.Machine.execBootCmdQueue a s
  | .bootLoad part => Sys2Proof.Machine.execBootLoad part s
  | .bootAttest part => Sys2Proof.Machine.execBootAttest part s
  | .bootCert part => Sys2Proof.Machine.execBootCert part s
  | .bootEvict part => Sys2Proof.Machine.execBootEvict part s
  | .bootSvnadv part => Sys2Proof.Machine.execBootSvnadv part s
  | .registerWrite a => Sys2Proof.Machine.execRegisterWrite a s
  | .bar2Read a => Sys2Proof.Machine.execBar2Read a s
  | .bar2Write a => Sys2Proof.Machine.execBar2Write a s
  | .functionLevelReset part => Sys2Proof.Machine.execFunctionLevelReset part s
  | .spdmGetVersion msg => Sys2Proof.Machine.execSpdmGetVersion msg s
  | .spdmGetCapabilities msg => Sys2Proof.Machine.execSpdmGetCapabilities msg s
  | .spdmNegotiateAlgorithms msg => Sys2Proof.Machine.execSpdmNegotiateAlgorithms msg s
  | .spdmGetDigests msg => Sys2Proof.Machine.execSpdmGetDigests msg s
  | .spdmGetCertificate msg => Sys2Proof.Machine.execSpdmGetCertificate msg s
  | .spdmChallenge msg => Sys2Proof.Machine.execSpdmChallenge msg s
  | .spdmGetMeasurements msg => Sys2Proof.Machine.execSpdmGetMeasurements msg s
  | .mctpControlMessage msg => Sys2Proof.Machine.execMctpControlMessage msg s
  | .uePullRequest a => Sys2Proof.Machine.execUePullRequest a s
  | .ueTileData a => Sys2Proof.Machine.execUeTileData a s
  | .ueAcknowledgement a => Sys2Proof.Machine.execUeAcknowledgement a s
  | .ueSuperstepMessage a => Sys2Proof.Machine.execUeSuperstepMessage a s
  | .scaleoutTimeout w => Sys2Proof.Machine.execScaleoutTimeout w s
  | .ptmDialogue hostNs => Sys2Proof.Machine.execPtmDialogue hostNs s
  | .issueFractionAdjust power temp => Sys2Proof.Machine.execIssueFractionAdjust power temp s
  | .remoteWayAdjust die slice up => Sys2Proof.Machine.execRemoteWayAdjust die slice up s
  | .clockStretch cluster cycles => Sys2Proof.Machine.execClockStretch cluster cycles s
  | .serdesRetrain clk => Sys2Proof.Machine.execSerdesRetrain clk s
  | .thermalTrip => Sys2Proof.Machine.execThermalTrip s
  | .startAttempt a => Sys2Proof.Machine.execStartAttempt a s
  | .stageManagerReady => Sys2Proof.Machine.execStageManagerReady s
  | .startTimeout => Sys2Proof.Machine.execStartTimeout s
  | .startPowerFault => Sys2Proof.Machine.execStartPowerFault s
  | .icflushComplete tid => Sys2Proof.Machine.execIcflushComplete tid s
  | .powerLoss => Sys2Proof.Machine.execPowerLoss s
  | .uePortTrainingEnd port up => Sys2Proof.Machine.execUePortTrainingEnd port up s
  | .refusedRegisterRead a => Sys2Proof.Machine.execRefusedRegisterRead a s
  | .bootBadcmd part => Sys2Proof.Machine.execBootBadcmd part s

end Sys2Proof.Machine
end

