-- ==== Sys2Proof/Machine/Auto.lean ====
section
/-! DEFINITION. What can happen next, and what the machine does in a turn (the model's own, log entry 1): an agenda
names its turns; without one the part picks one of the happenings that stand ready. Events from outside (the host's
accesses, other ranks' messages, power, errors, tuning) come by the agenda alone. -/

namespace Sys2Proof.Machine

/-- A happening. -/
abbrev Happening := State → Host.Outcome State Fault Refusal

/-- What an outcome's state goes on to. -/
def andThen (o : Host.Outcome State Fault Refusal) (f : State → State) : Host.Outcome State Fault Refusal :=
  match o with
  | .next s => .next (f s)
  | .fault r => .fault r
  | .refused r => .refused r

/-- A word that came to issue is executed, and the issue ends. -/
def runIssue (x : Option Instr × State) : Host.Outcome State Fault Refusal :=
  match x.1 with
  | none => .next x.2
  | some i => andThen (exec i x.2) endIssue

/-- R35: a selection by one selector of a core. -/
def runSelect (core : Nat) (second : Bool) (s : State) : Host.Outcome State Fault Refusal := runIssue (select s core second)

/-- R292: a prompter's next word. -/
def runPrompt (die n : Nat) (s : State) : Host.Outcome State Fault Refusal := runIssue (promptWord s die n)

/-- The stage manager stores in a partition's memory, through the windows of its runtime context (log entry 65). -/
def smgStore (s : State) (p va : Nat) (b : List Byte) : State :=
  let n := s.hist.next
  let s := if s.running then agentPut s p [] va b else s
  s.onPkg fun x => { x with smgStores := x.smgStores ++ List.range' n (s.hist.next - n) }

/-- One turn of an agenda. -/
def runTurn (a : Act) (s : State) : Host.Outcome State Fault Refusal :=
  match a with
  | .issue c second => runSelect c second s
  | .prompt d n => runPrompt d n s
  | .copy n => .next (copyWork s n)
  | .late p => .next (runLate s p)
  | .smgStore p va b => .next (smgStore s p va b)
  | .boot => .next (bootStep s)
  | .event i => exec i s

/-! ### What stands ready -/

/-- Cores on which a group stands. -/
def liveCores (s : State) : List Nat := (s.groups.values.map Group.core).dedup

/-- Builds and selections. -/
def coreHappenings (s : State) (c : Nat) : List Happening :=
  let sel := !(s.core c).bundles.isEmpty || !(s.core c).steps.isEmpty
  execBundleBuild c :: (if sel then [runSelect c false, runSelect c true] else [])

/-- The completion of what a thread is stalled in. -/
def stallHappening (t : Nat) (th : Thread) : List Happening :=
  match th.held, th.why with
  | .stalled, .icflush _ _ => [execIcflushComplete t]
  | .stalled, .tlbinv _ _ _ _ _ => [execTlbinvComplete t]
  | .stalled, .transfer _ _ _ _ => [execCtxTransferComplete t]
  | .stalled, .halt _ _ => [execHaltComplete t]
  | .stalled, .kill _ _ => [execCtxkillComplete t]
  | .stalled, .give _ _ _ _ _ _ _ => [execFlatGivePoint t]
  | _, _ => []

/-- A thread's oldest request, its results and its streams. -/
def threadHappenings (s : State) (t : Nat) (th : Thread) : List Happening :=
  (th.out.flatMap fun r => match r.st with
    | .sent => [execL2SliceRequest r.loc.die (homeSlice r.loc.ia)]
    | .miss => [execTranslateRequest r.loc.die (homeSlice r.loc.ia)]
    | .host _ => [execHostLinkCompletion t]
    | _ => [])
  ++ (if th.pend.any fun p => p.vals.isSome then [execLateResultWrite t] else [])
  ++ stallHappening t th
  ++ ((s.group th.group).qports.keys.map fun p => if p < 4 then execQueueStreamRead t p else execQueueStreamWrite t p)

/-- R323: late faults on their way to a core, and replays. -/
def logHappenings (c : Nat) (k : Core) : List Happening :=
  k.log.keys.flatMap fun n => [execLateFaultArrival (256 * c + n), execOperandLogReplay (256 * c + n)]

/-- The matrix engine. -/
def clusterHappenings (c : Nat) (k : Cluster) : List Happening :=
  (if k.running.isSome then [execPassComplete c] else [])
  ++ (if k.next.isNone && decide (k.granted.length < k.table.size) then [execArbiterGrant c] else [])

/-- Copies, and the reading of tiles. -/
def copyHappenings (n : Nat) (c : Copy) : List Happening :=
  [execCopyComplete n, execCopyFault n, fun s => .next (copyWork s n)] ++ (if c.kind = .coll then [execCollPull n, execScaleoutTimeout (.pull n)] else [])

/-- Prompters, the loft load, the compatibility unit. -/
def dieHappenings (s : State) (d : Nat) : List Happening :=
  (List.range 4).flatMap (fun n => [execPrompterJobPop d n, runPrompt d n, execPrompterPublish d n])
  ++ (if (s.die d).load.isSome then [execLoftLoadCopy d, execLoftLoadDone d] else [])
  ++ (if (s.die d).xops.isEmpty then [] else [execXopResultReturn d])

/-- The dispatcher of a partition. -/
def dispatchHappenings (s : State) (p : Nat) : List Happening :=
  (match nextQueue s p with
    | some q => [execLaunchAdmit p q]
    | none => [])
  ++ (match choiceOf s p with
    | .none => []
    | .fill l _ _ _ => [execLocateCacheFill p l]
    | .place _ n c _ => match n.saved with
        | none => [execBlockDispatch p c]
        | some b => [execBlockRelaunch b])
  ++ (s.clustersOf p).map (execClusterReserve p)

/-- A partition's other work. -/
def partHappenings (s : State) (p : Nat) : List Happening :=
  let x := s.part p
  (if x.bubble.isSome then [execBubbleSlotEnd p] else []) ++ [execBubbleOverrunSave p]
  ++ (if x.boot.isEmpty then []
      else [execBootLoad p, execBootAttest p, execBootCert p, execBootEvict p, execBootSvnadv p, execBootBadcmd p])
  ++ (if x.tableau.armed then [execTableauLatch p, execTableauRecordsWritten p] else [])
  ++ (if x.late.isEmpty then [] else [fun s => .next (runLate s p)])
  ++ x.ready.flatMap (fun r =>
    execReadyRecordRetire p r.tid.toNat :: r.asked.map fun a => execScaleoutTimeout (.tile p a.1 r.tid))
  ++ x.steps.map (fun m => execScaleoutTimeout (.step p m.rank (BitVec.ofNat 64 m.obj) m.gen))

/-- Everything that stands ready in a part that runs; after a thermal trip what is under way ends, and nothing new is
dispatched (R411). In a start its next step comes (R404). -/
def happenings (s : State) : List Happening :=
  match s.pkg.start with
  | .starting _ _ _ => [fun s => .next (bootStep s)]
  | _ =>
  if !s.running && !s.pkg.tripped then []
  else
    (liveCores s).flatMap (coreHappenings s) ++ s.threads.items.flatMap (fun e => threadHappenings s e.1 e.2)
    ++ s.cores.items.flatMap (fun e => logHappenings e.1 e.2)
    ++ s.clusters.items.flatMap (fun e => clusterHappenings e.1 e.2)
    ++ s.copies.items.flatMap (fun e => copyHappenings e.1 e.2)
    ++ [0, 1].flatMap (dieHappenings s)
    ++ (List.range 8).flatMap (fun p => (if s.running then dispatchHappenings s p else []) ++ partHappenings s p)
    ++ s.launches.keys.map execLaunchRetire ++ s.blocks.keys.map execBlockSave

/-- R29, R49: the turns of each core come round, whatever else is picked: at every 16th clk the happenings are one core's
alone, each core's in turn: a build, then a selection by the one selector, a build, a selection by the other. -/
def coreTurn (s : State) : List Happening :=
  let n := s.clk / 16
  let hs := if s.clk % 16 = 0 ∧ s.running ∧ (liveCores s).contains (n % 256) then coreHappenings s (n % 256) else []
  match n / 256 % 4 with
  | 1 => (hs.drop 1).take 1
  | 3 => (hs.drop 2).take 1
  | _ => hs.take 1

/-- A turn without an agenda: %clk goes up by 1, and a happening happens: that of the core whose turn it is, where it has
one, else one the part picks. -/
def autoTurn (s : State) : Host.Outcome State Fault Refusal :=
  let s := { s with clk := s.clk + 1, issue := .none }
  let hs := if (coreTurn s).isEmpty then happenings s else coreTurn s
  let (k, s) := s.pick hs.length
  match hs[k]? with
  | none => .next s
  | some h => h s

/-- A turn of an agenda: its clk pass, then its act. -/
def agendaTurn (t : Turn) (rest : List Turn) (s : State) : Host.Outcome State Fault Refusal :=
  runTurn t.act { s with clk := s.clk + t.clk, agenda := rest, issue := .none }

/-! ### A word placed where the next step fetches it (log entry 1) -/

/-- A launch of the runtime context 0 of partition 0, with one group of one thread on core 0, its code in the 64 KiB of
HBM4 from physical address 0 of die 0, which window 0 shows executable at 0; the thread stands at 0, in the one bundle
of its core, and the agenda is one selection of that core. -/
def placeThreadWord (s : State) (w : Dword) : State :=
  let t := s.threads.next
  let g := s.groups.next
  let b := s.blocks.next
  let l := s.launches.next
  let s := sysPut s RegNo.pcl 0 1
  let s := sysPut s (RegNo.ctx 0) 0 (BitVec.ofNat 64 (2 ^ 31))
  let s := sysPut s RegNo.rtCtx 0 (BitVec.ofNat 64 (2 ^ 31))
  let s := sysPut s (RegNo.pfr 0) 0 (BitVec.ofNat 64 (2 * 2 ^ 32))
  let s := sysPut s (RegNo.winA 0 0) 0 (BitVec.ofNat 64 (2 ^ 63 + 2 ^ 62 + 2 ^ 61 + 2 ^ 60 + 2 ^ 59 + 2 ^ 57))
  let s := { sysPut s (RegNo.winB 0 0) 0 0 with winWrites := [] }
  let s := { s with
    hbm := Memory.writeN s.hbm 0 (bytesOfDword w)
    launches := s.launches.set l { Launch.fresh with priv := true, order := l, nextBlock := 1, blocks := [b] }
    blocks := s.blocks.set b { Block.fresh with launch := l, groups := [g], threads := [t] }
    groups := s.groups.set g { Group.fresh with block := b, priv := true }
    threads := s.threads.set t { Thread.fresh with group := g, nregs := 256 }
    agenda := [⟨(16 - s.clk % 16) % 16, .issue 0 false⟩]
    issue := .none }
  let s := s.onCore 0 fun c => { c with steps := [], bundles := [[t]], left0 := 4 }
  let s := s.onDie 0 fun d => { d with halted := d.halted.erase 0, poisonHbm := d.poisonHbm.filter (· != 0) }
  s.onPkg fun p => { p with start := .normal }

/-- A job of prompter 0 of die 0 whose program is the one word. -/
def placeLogitWord (s : State) (w : Dword) : State :=
  let s := onPrompter s 0 0 fun x => { x with jobs := [{ Job.ofDesc 0 0 0 (List.replicate 128 0) with seqd := List.replicate 32 0, prog := [w] }] }
  let s := { s with agenda := [⟨0, .prompt 0 0⟩], issue := .none }
  s.onPkg fun p => { p with start := .normal }

/-- The word stored and the next step's turn set up: a word of the native set in a thread, another of the logit set
in a prompter's job. -/
def placeWord (s : State) (w : Dword) : State :=
  match decode w with
  | .ok _ => placeThreadWord s w
  | .error _ => match decodeLogit w with
      | .ok _ => placeLogitWord s w
      | .error _ => placeThreadWord s w

end Sys2Proof.Machine
end

