-- ==== Sys2Proof/Machine/Step.lean ====
section
/-! DEFINITION. One step of the machine. -/

namespace Sys2Proof.Machine

/-- One turn: the agenda's next, or, where it is empty, whatever the part picks of what stands ready. -/
def step (s : State) : Host.Outcome State Fault Refusal :=
  match s.agenda with
  | t :: rest => agendaTurn t rest s
  | [] => autoTurn s

/-- The state with an instruction stored where the next step fetches it. A program comes to run by a launch that the
host queues (R339); this stands for that (log entry 1). -/
def State.withFetchWord (s : State) (nbits w : Nat) : State := placeWord s (BitVec.ofNat 64 (w % 2 ^ nbits))

end Sys2Proof.Machine
end

