-- ==== Sys2Proof/Safety.lean ====
section
/-! DEFINITION. What counts as a safe run, in the terms the statements use: the machine goes on, no word is left
half issued between steps, memories stand in their one canonical form; when a thread may issue a word, and what an
issued word leaves as it was. -/

namespace Sys2Proof.Machine

/-- An outcome that is a next state: no stop. -/
def Answers (o : Host.Outcome State Fault Refusal) : Prop := ∃ t, o = .next t

/-- Between two steps no instruction word is being issued. -/
def State.settled (s : State) : Prop := s.issue = .none

/-- Every memory stands in its canonical form. -/
def State.memoryOk (s : State) : Prop :=
  Memory.wf s.hbm = true ∧ Memory.wf s.flats = true ∧ Memory.wf s.loft = true ∧ Memory.wf s.host = true

/-! ### When a word issues -/

/-- The guard of a word is true in a thread (R149). -/
def Guarded (s : State) (i : Instr) (t : Nat) : Prop := guardHolds (guardOf i) (s.thread t) = true

/-- A READY thread that comes to the word `i` at `pc` and may run it: its level may (R309), no breakpoint is armed on the
word (R330), it names no register past its own (R57). -/
structure Stands (s : State) (i : Instr) (pc : Dword) (t : Nat) : Prop where
  here : s.threads.has t = true
  grouped : s.groups.has (s.thread t).group = true
  ready : (s.thread t).held = .ready
  level : isPrivileged i = true → s.privOf t = true
  unbroken : s.privOf t = true ∨ (s.thread t).freePass = true ∨ ibrkAt s (s.ctxOf t) pc = false
  within : namesBeyond (s.thread t) (usesOf i) = false

/-- A thread at the word that nothing holds back: nothing it reads is awaited (R56), its streams stand ready (R27, R59), no
replay holds it (R323), no earlier xop of it is outstanding where the word is one (R166), and what the word awaits of it
is done (R67, R120, R133, R314). -/
structure MayIssue (s : State) (i : Instr) (pc : Dword) (t : Nat) : Prop extends Stands s i pc t where
  landed : pendingHazard s t (usesOf i) (guardOf i) (guardHolds (guardOf i) (s.thread t) || (gatherMask i).isSome) = false
  replayed : Guarded s i t → replayHold s t i = none
  unfaulted : Guarded s i t → portFault s (s.thread t) (s.groupOf t) (usesOf i) = none
  streams : Guarded s i t → portHazard (s.thread t) (usesOf i) = none
  asked : Guarded s i t → isXop i = true → xopPending s t = false
  drained : Guarded s i t → mustDrain s i t = false

/-- The threads of a bundle whose guard is true, in the bundle's order. -/
def activeIn (i : Instr) (b : Bundle) (s : State) : List Nat := b.threads.filter fun t => guardHolds (guardOf i) (s.thread t)

/-- A bundle stands at a well-formed word that each of its threads may issue (R30), and there is room for what it does
(R234, R239, R260, R283, R322); for a class U word they are of one group (R31). -/
structure Issuing (i : Instr) (b : Bundle) (s : State) : Prop where
  bundle : s.issue = .bundle b
  place : b.core < 256
  some : b.threads ≠ []
  apart : b.threads.Nodup
  stands : ∀ t ∈ b.threads, s.coreOf t = b.core
  wf : i.wf = true
  may : ∀ t ∈ b.threads, MayIssue s i b.pc t
  together : (usesOf i).u = true → ∀ t ∈ b.threads, ∀ u ∈ b.threads, (s.thread t).group = (s.thread u).group
  room : (roomless s i b.core (activeIn i b s)).1 = []

/-- R26: a thread that has issued the word at `pc`, before what the word does to it. -/
def stepped (s : State) (pc : Dword) (t : Nat) : Thread :=
  { s.thread t with pc := pc + 8, freePass := false, readyAt := s.clk, passed := 0 }

/-- R59: an issued thread whose load ports the word has popped. -/
def popped (i : Instr) (s : State) (pc : Dword) (t : Nat) : Thread := (usesOf i).lp.foldl Thread.popPort (stepped s pc t)

/-- The bundle as an issue: every thread of it issues the word. -/
def issuedAs (i : Instr) (b : Bundle) (s : State) : Issued :=
  ⟨b.core, b.pc, b.word, b.threads, activeIn i b s, b.threads.filter fun t => (s.thread t).freePass⟩

/-- The state in which an issued word acts: PCs advanced, counters 0 and 1 of the core gone up (R329). -/
def afterIssue (b : Bundle) (s : State) : State :=
  pmc (pmc (advance s b.threads b.pc) b.core 0 1) b.core 1 b.threads.length

/-! ### What an issued word leaves as it was -/

/-- R329: what an issue adds to a system register: 1 to counter 0 of its core, its threads to counter 1. -/
def counted (b : Bundle) (n c : Nat) : Dword :=
  if n = RegNo.pmc 0 ∧ c = b.core then 1
  else if n = RegNo.pmc 1 ∧ c = b.core then BitVec.ofNat 64 b.threads.length else 0

/-- The frame of an issue: other threads, memories, the history, cores, clusters, dies, partitions, launches, copies,
the package and the clock are untouched; a block changes in the time of its last issue alone, a system register by
what the issue counts. -/
structure Frame (b : Bundle) (s s' : State) : Prop where
  others : ∀ t, t ∉ b.threads → s'.threads.find? t = s.threads.find? t
  blocks : ∀ k, s'.block k = { s.block k with
    lastIssue := if s.blocks.has k = true ∧ k ∈ b.threads.map s.blockIdOf then s.clk else (s.block k).lastIssue }
  sys : ∀ n c, c < 256 → sysGet s' n c = sysGet s n c + counted b n c
  clk : s'.clk = s.clk
  agenda : s'.agenda = s.agenda
  issue : s'.issue = s.issue
  launches : s'.launches = s.launches
  cores : s'.cores = s.cores
  clusters : s'.clusters = s.clusters
  dies : s'.dies = s.dies
  parts : s'.parts = s.parts
  copies : s'.copies = s.copies
  hbm : s'.hbm = s.hbm
  flats : s'.flats = s.flats
  loft : s'.loft = s.loft
  host : s'.host = s.host
  hist : s'.hist = s.hist
  pkg : s'.pkg = s.pkg
  images : s'.images = s.images
  winWrites : s'.winWrites = s.winWrites

/-- The flags that a word raises in a group: those of its threads that are active, ORed (R67). -/
def raised (i : Instr) (b : Bundle) (s : State) (r : Env → Wr) (g : Nat) : Flags :=
  (activeIn i b s).foldl (fun fl t => if (s.thread t).group = g then fl ||| (r (envOf s t)).flags else fl) 0

/-- WHAT A WORD WITH RESULTS AT ISSUE DOES: each active thread takes its result `r`, read from the state before the
word; inactive ones only advance; a group changes in the flags of %fsr alone; all else stands. -/
structure Lands (i : Instr) (b : Bundle) (s s' : State) (r : Env → Wr) : Prop where
  active : ∀ t ∈ b.threads, Guarded s i t → s'.thread t = (r (envOf s t)).apply b.word (popped i s b.pc t)
  inactive : ∀ t ∈ b.threads, ¬ Guarded s i t → s'.thread t = stepped s b.pc t
  groups : ∀ g, s'.group g = { s.group g with fsr := (s.group g).fsr ||| raised i b s r g }
  frame : Frame b s s'

/-- The late result of a word in a thread, as it waits (R56). -/
def awaited (id : Nat) (sfu : Bool) (b : Bundle) (w : Wr) : Pend :=
  { id := id, dst := w.regs.map Prod.fst ++ w.preds.map Prod.fst, uniform := false, pred := !w.preds.isEmpty,
    port := w.push.map Prod.fst,
    vals := some (match w.push with
      | some (_, x) => [x]
      | none => if w.preds.isEmpty then w.regs.map Prod.snd else w.preds.map fun e => if e.2 then 1 else 0),
    flags := w.flags, sfu := sfu, pc := b.pc, iw := b.word }

/-- WHAT A WORD WITH LATE RESULTS DOES AT ISSUE: each active thread awaits its result `r`, its draws made, its ports
popped; no register, predicate or flag is written yet. -/
structure Awaits (i : Instr) (sfu : Bool) (b : Bundle) (s s' : State) (r : Env → Wr) : Prop where
  active : ∀ t ∈ b.threads, Guarded s i t → ∃ n, s.ctr ≤ n ∧ n < s'.ctr ∧ s'.thread t =
    { popped i s b.pc t with
      draws := (s.thread t).draws + BitVec.ofNat 48 (r (envOf s t)).draws
      pend := (s.thread t).pend ++ [awaited n sfu b (r (envOf s t))] }
  inactive : ∀ t ∈ b.threads, ¬ Guarded s i t → s'.thread t = stepped s b.pc t
  groups : s'.groups = s.groups
  frame : Frame b s s'

/-- An instruction completes with results at issue. -/
def Completes (i : Instr) (r : State → Env → Wr) : Prop :=
  ∀ b s, Issuing i b s → ∃ s', exec i s = .next s' ∧ Lands i b s s' (r s)

/-- An instruction completes with late results. -/
def CompletesLate (i : Instr) (sfu : Bool) (r : State → Env → Wr) : Prop :=
  ∀ b s, Issuing i b s → ∃ s', exec i s = .next s' ∧ Awaits i sfu b s s' (r s)

/-- WHAT A WORD DOES THAT CHANGES ITS THREADS AND GROUPS ALONE: `tf` each active thread (after its ports are popped),
`gf` each group there is; all else stands. -/
structure Acts (i : Instr) (b : Bundle) (s s' : State) (tf : Nat → Thread → Thread) (gf : Nat → Group → Group) : Prop where
  active : ∀ t ∈ b.threads, Guarded s i t → s'.thread t = tf t (popped i s b.pc t)
  inactive : ∀ t ∈ b.threads, ¬ Guarded s i t → s'.thread t = stepped s b.pc t
  has : ∀ g, s'.groups.has g = s.groups.has g
  groups : ∀ g, s.groups.has g = true → s'.group g = gf g (s.group g)
  frame : Frame b s s'

/-- R46, R209: the bundle is the whole gather of mask `m`: its threads are the members of the mask, and no gather is in
progress at the word. (Gathers in progress at other words stay as they are.) -/
structure Gathered (m : BitVec 4) (b : Bundle) (s : State) : Prop where
  fresh : ∀ t ∈ b.threads, ∀ x ∈ (s.groupOf t).gathers, x.pc ≠ b.pc
  inside : ∀ t ∈ b.threads, (maskOf (s.groupOf t) m.toNat).m.getLsbD (s.thread t).lane = true
  members : ∀ t ∈ b.threads, ∀ u, u ∈ b.threads ↔ u ∈ lanesIn s (s.thread t).group (maskOf (s.groupOf t) m.toNat).m

/-- The contributing participants of a gathered issue, as they stand before it, in the bundle's order. -/
def contributors (i : Instr) (b : Bundle) (s : State) : List Env := (activeIn i b s).map (envOf s)

/-- The words of a result, as the compatibility unit returns them. -/
def Wr.words (w : Wr) : List Word :=
  match w.push with
  | .some x => [x.2]
  | .none => w.regs.map Prod.snd ++ w.preds.map fun e => if e.2 then 1 else 0

/-- A result that the compatibility unit has yet to return. -/
def asked (id : Nat) (b : Bundle) (w : Wr) : Pend := { awaited id false b w with vals := none }

/-- WHAT AN XOP DOES AT ISSUE (R56, R166): each active thread awaits a result whose value is not there yet, and a request
of it with the result `r` joins the queue of the die's unit; no register, predicate or flag is written. -/
structure Asks (i : Instr) (b : Bundle) (s s' : State) (r : Env → Wr) : Prop where
  active : ∀ t ∈ b.threads, Guarded s i t → ∃ n, s.ctr ≤ n ∧ n < s'.ctr ∧
    s'.thread t = { popped i s b.pc t with pend := (s.thread t).pend ++ [asked n b (r (envOf s t))] } ∧
    ⟨t, n, (r (envOf s t)).words, (r (envOf s t)).flags⟩ ∈ (s'.die (dieOf b.core)).xops
  inactive : ∀ t ∈ b.threads, ¬ Guarded s i t → s'.thread t = stepped s b.pc t
  groups : s'.groups = s.groups
  die : ∃ l : List Xop, l.map Xop.tid = activeIn i b s ∧ ∀ d, s'.die d =
    { s.die d with xops := (s.die d).xops ++ if d = dieOf b.core then l else [] }
  frame : Frame b s { s' with dies := s.dies }

/-- An xop completes: no request of its threads is outstanding in the unit where they may issue it (R166). -/
def CompletesXop (i : Instr) (r : Env → Wr) : Prop := ∀ b s, Issuing i b s → ∃ s', exec i s = .next s' ∧ Asks i b s s' r

/-! ### Accesses on their way -/

/-- One active thread issues the word; what follows speaks of the state in which the word acts (afterIssue). -/
structure Sole (i : Instr) (b : Bundle) (s : State) (t : Nat) : Prop where
  issuing : Issuing i b s
  active : activeIn i b s = [t]

/-- The request of an access (R322); at a physical window it is no L1 atomic (R365). -/
def requestOf (x : Access) (l : Loc) (seq entry pend t : Nat) : Req :=
  ⟨seq, x.acc.withPend pend t, some entry, x.va, l, x.size, x.read, x.write, x.order, x.scope, x.ops, .sent, x.l1 && !l.phys, none⟩

/-- The result an access brings, as it is awaited. -/
def Access.awaits (x : Access) (pend : Nat) (b : Bundle) : List Pend :=
  match x.dst with
  | some (ds, u) => [⟨pend, ds, u, false, none, none, 0, false, b.pc, b.word⟩]
  | none => []

/-- The wait an access holds its thread in (R231, R247), if any. -/
def Access.waits (x : Access) : Option Why :=
  match x.acc with
  | .svwait _ => some .sv
  | .bar _ none | .barWait => some .barSent
  | _ => none

/-- AN ACCESS ON ITS WAY (R322): one operand-log entry is taken for the word, the thread's request joins its queue, the
result it brings is awaited, and a wait holds the thread at the word; nothing else of the state in which the word acts
changes. -/
structure Sent (b : Bundle) (s0 s' : State) (t : Nat) (x : Access) (l : Loc) (e : Nat) : Prop where
  thread : ∃ seq pend, s'.thread t =
    let th := s0.thread t
    let th := { th with out := th.out ++ [requestOf x l seq (256 * b.core + e) pend t], pend := th.pend ++ x.awaits pend b }
    match x.waits with
    | some w => { th with held := .waiting, why := w, pc := b.pc }
    | none => th
  others : ∀ u, u ≠ t → s'.threads.find? u = s0.threads.find? u
  log : s'.core b.core = { s0.core b.core with
    log := (s0.core b.core).log.set e ⟨b.word, b.pc, [t], [], [], s0.privOf t⟩ }
  cores : ∀ c, c ≠ b.core → s'.core c = s0.core c
  rest : { s' with threads := s0.threads, cores := s0.cores, ctr := s0.ctr } = s0

/-- A word whose one active thread's access `x` goes to memory: its address is good through the windows as the access
reads them (R219, R363), L1 does not serve it, entry `e` of the operand log is free. -/
structure ToMemory (i : Instr) (b : Bundle) (s : State) (t : Nat) (x : Access) (l : Loc) (e : Nat) : Prop where
  sole : Sole i b s t
  place : accessCheck (windowView (afterIssue b s) t).1 (issuedAs i b s) t x = .ok (.mem l)
  l1 : l1Serves (windowView (afterIssue b s) t).2 t x l = none
  entry : freeEntry s b.core (s.privOf t) = some e

/-- A word whose one active thread's access `x` lies in a bank the thread's core holds, unpoisoned: it is performed
there at issue (R111). -/
structure ToBank (i : Instr) (b : Bundle) (s : State) (t : Nat) (x : Access) (d bank off : Nat) : Prop where
  sole : Sole i b s t
  place : accessCheck (windowView (afterIssue b s) t).1 (issuedAs i b s) t x = .ok (.flat d bank off)
  sound : flatPoisoned (afterIssue b s) d bank off x.size = false

/-- R111: WHAT AN ACCESS `x` AT A BANK DOES AT ISSUE: it writes `regs` (the group's where the result is uniform), the
`bytes` at `key` of the flats, and makes the release and the acquire it is; the snapshots of threads, the publications
and free choices apart, all else of the state in which the word acts stands. -/
structure AtBank (s0 s' : State) (t : Nat) (x : Access) (regs : List (Nat × Word)) (key : Nat) (bytes : List Byte) : Prop where
  thread : s'.thread t = { s0.thread t with
    snap := (s'.thread t).snap
    v := if x.dst.any Prod.snd then (s0.thread t).v else regs.foldl (fun v e => v.set e.1 e.2) (s0.thread t).v }
  others : ∀ u, u ≠ t → s'.thread u = { s0.thread u with snap := (s'.thread u).snap }
  groups : ∀ g, s'.group g = { s0.group g with
    k := if x.dst.any Prod.snd ∧ g = (s0.thread t).group then regs.foldl (fun k e => k.set e.1 e.2) (s0.group g).k else (s0.group g).k }
  memory : ∀ a, Memory.read s'.flats a = if key ≤ a ∧ a < key + bytes.length then bytes.getD (a - key) 0 else Memory.read s0.flats a
  pkg : s'.pkg = if x.releases ∧ x.scope = .sys then { s0.pkg with sent := s'.pkg.sent } else s0.pkg
  dies : ∀ d, s'.die d = { s0.die d with poisonFlat := (s'.die d).poisonFlat }
  stored : s'.hist.bytes = s0.hist.bytes
  rest : { s' with
    threads := s0.threads, groups := s0.groups, flats := s0.flats, hist := s0.hist, dies := s0.dies, pkg := s0.pkg
    ctr := s0.ctr } = s0

/-- No thread waits on a word of memory. -/
def State.quiet (s : State) : Prop :=
  ∀ t, (s.thread t).held = .waiting → (s.thread t).why ≠ .sv ∧ ∀ l va g sc, (s.thread t).why ≠ .bar l va g false sc

/-- Slice `slice` of die `d` holds one request to begin, `r` of thread `t`, a run of its own (R308, R230), and none is on
its way to it. -/
structure AtSlice (s : State) (d slice t : Nat) (r : Req) : Prop where
  pool : queued s d slice = [(t, r)]
  still : travelling s d slice = []
  named : (s.thread t).out.find? (fun x => x.seq == r.seq) = some r
  alone : runOf s t r = [(t, r)]
  quiet : s.quiet

/-- What every data register and every memory holds, and what the machine is set to, is the same in two states: the
vector, predicate, uniform and status registers, the PRNG, system registers, accumulators, and memories. -/
structure Keeps (s s' : State) : Prop where
  regs : ∀ t, (s'.thread t).v = (s.thread t).v ∧ (s'.thread t).p = (s.thread t).p ∧ (s'.thread t).draws = (s.thread t).draws
  groups : ∀ g, (s'.group g).k = (s.group g).k ∧ (s'.group g).fsr = (s.group g).fsr ∧ (s'.group g).key = (s.group g).key ∧
    (s'.group g).lineage = (s.group g).lineage
  sys : s'.sys = s.sys
  tiles : ∀ c, (s'.cluster c).tiles = (s.cluster c).tiles ∧ (s'.cluster c).wb0 = (s.cluster c).wb0 ∧ (s'.cluster c).wb1 = (s.cluster c).wb1
  hbm : s'.hbm = s.hbm
  flats : s'.flats = s.flats
  loft : s'.loft = s.loft
  host : s'.host = s.host
  lines : ∀ d, (s'.die d).slices = (s.die d).slices
  clk : s'.clk = s.clk

/-- One thread, active at a well-formed word that it may run: whether anything holds it back is open. -/
structure Alone (i : Instr) (b : Bundle) (s : State) (t : Nat) : Prop where
  bundle : s.issue = .bundle b
  only : b.threads = [t]
  wf : i.wf = true
  stands : Stands s i b.pc t
  guarded : Guarded s i t

/-- A word of a kernel or a handler, which threads issue: no word of a logit program (R294), no event. -/
def IsWord (i : Instr) : Prop := (encode? i).isSome = true ∧ i.isLogit = false

/-- R27: the thread is held STALLED at the word by `w`, the word having had no effect: no PC advances, nothing is
counted. -/
def heldAt (b : Bundle) (s : State) (t : Nat) (w : Why) : State := onlyThese (stall s t b.pc w) b []

/-- R317: the trap of an access at fault, before the word has any effect on memory. -/
def accessTraps (b : Bundle) (s : State) (t : Nat) (c : Cause) (va : Nat) : State :=
  takeTrap (windowView (afterIssue b s) t).2 t ⟨c, b.pc, b.word, va, 0, false⟩

/-- R27: the thread is held STALLED at the word, by `w`; in all else the word has acted as an issue alone. -/
def stalledAt (b : Bundle) (s : State) (t : Nat) (w : Why) : State :=
  (afterIssue b s).onThread t fun th =>
    { th with held := .stalled, why := w, pc := b.pc, freePass := (s.thread t).freePass }
/-- R27: the thread is held WAITING at the word, for `w`. -/
def waitingAt (b : Bundle) (s : State) (t : Nat) (w : Why) : State :=
  (afterIssue b s).onThread t fun th => { th with held := .waiting, why := w, pc := b.pc }
/-- The state in which a word acts, with registers of its thread written. -/
def wroteRegs (b : Bundle) (s : State) (t : Nat) (l : List (Nat × Word)) : State :=
  (afterIssue b s).onThread t fun th => { th with v := l.foldl (fun v e => v.set e.1 e.2) th.v }
/-- R317: the trap that a word takes in its thread, in the state in which the word acts. -/
def trapsAt (b : Bundle) (s : State) (t : Nat) (c : Cause) (ea code : Nat) : State :=
  takeTrap (afterIssue b s) t ⟨c, b.pc, b.word, ea, code, false⟩

/-! ### Accesses to the system registers -/

/-- R384, R385: an eight-byte write of `x` to register `n` that the part admits: it reaches instance `k`, for
partition `p`. -/
structure WritesReg (s : State) (a : RegAcc) (n k p : Nat) (x : Dword) : Prop where
  running : s.running = true
  reg : a.reg.toNat = n
  size : a.size = 8
  value : a.val = x
  reaches : accessOk s a true = some (k, p)

/-- R384, R385: an eight-byte read of register `n` that the part admits: it reaches instance `k`. -/
structure ReadsReg (s : State) (a : RegAcc) (n k : Nat) : Prop where
  running : s.running = true
  reg : a.reg.toNat = n
  size : a.size = 8
  reaches : ∃ p, accessOk s a false = some (k, p)

/-- A read answered: `x` leaves the part as the completion. -/
def replied (s : State) (x : Dword) : State := s.send (.completion (bytesOfNat 8 x.toNat))

end Sys2Proof.Machine
end

