-- ==== Sys2Proof/Certificates/Slice0/Obligations.lean ====
section
/-! DEFINITION. The statements for the provers: what each instruction does and leaves as it was, what taking a trap and
returning from one do, what an event does, how words are encoded, and the rules of the machine as a whole. -/

open Sys2Proof
open Sys2Proof.Machine

/-- R178: the exact result of an integer word, saturated into the range of its type with .sat, wrapped without; the
operands as the type reads them.
R178, R88: with .sat the stored integer is the exact one clamped into its type's range; without, it is in range
and congruent to it. -/
def Obligations.IntegerArithmetic : Prop :=
  (let at2 := fun (f : Int → Int → Int) (a : Int2Args) (_ : State) (e : Env) =>
    Wr.dst a.d [intResult a.ty a.sat (f (intVal a.ty (e.op immSext a.a)) (intVal a.ty (e.op immSext a.b)))]
  (∀ a, Completes (.add a) (at2 (fun x y => x + y) a)) ∧ (∀ a, Completes (.addImm a) (at2 (fun x y => x + y) a)) ∧
  (∀ a, Completes (.sub a) (at2 (fun x y => x - y) a)) ∧ (∀ a, Completes (.subImm a) (at2 (fun x y => x - y) a)) ∧
  (∀ a, Completes (.mul a) (at2 (fun x y => x * y) a)) ∧ (∀ a, Completes (.mulImm a) (at2 (fun x y => x * y) a)) ∧
  (∀ a, Completes (.mulhi a) (at2 (fun x y => x * y / 2 ^ 32) a)) ∧
  (∀ a, Completes (.mulhiImm a) (at2 (fun x y => x * y / 2 ^ 32) a)) ∧
  (∀ a, Completes (.min_ a) (at2 min a)) ∧ (∀ a, Completes (.minImm a) (at2 min a)) ∧
  (∀ a, Completes (.max_ a) (at2 max a)) ∧ (∀ a, Completes (.maxImm a) (at2 max a)) ∧
  (∀ a, Completes (.add3 a) fun _ e => .dst a.d [intResult a.ty a.sat
    (intVal a.ty (e.op immSext a.a) + intVal a.ty (e.op immSext a.b) + intVal a.ty (e.op immSext a.c))]) ∧
  (∀ a, Completes (.mad a) fun _ e => .dst a.d [intResult a.ty a.sat
    (intVal a.ty (e.op immSext a.a) * intVal a.ty (e.op immSext a.b) + intVal a.ty (e.op immSext a.c))]) ∧
  (∀ a, Completes (.abs_ a) fun _ e => .dst a.d [intResult a.ty a.sat (intVal a.ty (e.op immSext a.a)).natAbs]) ∧
  (∀ a, Completes (.neg a) fun _ e => .dst a.d [intResult a.ty a.sat (-intVal a.ty (e.op immSext a.a))]) ∧
  (∀ a, Completes (.cvti a) fun _ e => .dst a.d [intResult a.dty a.sat (intVal a.sty (e.op immSext a.a))])) ∧
  (∀ ty x, ty.isInt = true →
    intVal ty (intResult ty true x) = max (intRange ty).1 (min (intRange ty).2 x) ∧
    (intRange ty).1 ≤ intVal ty (intResult ty false x) ∧ intVal ty (intResult ty false x) ≤ (intRange ty).2 ∧
    ((intRange ty).2 - (intRange ty).1 + 1) ∣ (intVal ty (intResult ty false x) - x))

/-- R179, R180: shladd, the logic words and the shifts: a count of 32 or more shifts everything out, rotation takes the
count modulo 32.
R180, R181: the counting words, reversal, the three-input table and the bit-field words, bit by bit. -/
def Obligations.LogicShiftsAndFields : Prop :=
  (let at2 := fun (f : Word → Word → Word) (a : Log2Args) (_ : State) (e : Env) =>
    Wr.dst a.d [f (e.op immSext a.a) (e.op immSext a.b)]
  let at1 := fun (f : Word → Word) (a : Log1Args) (_ : State) (e : Env) => Wr.dst a.d [f (e.op immSext a.a)]
  let left := fun (x n : Word) => if 32 ≤ n.toNat then (0 : Word) else x <<< n.toNat
  let right := fun (x n : Word) => if 32 ≤ n.toNat then (0 : Word) else x >>> n.toNat
  let arith := fun (x n : Word) => BitVec.ofInt 32 (x.toInt / 2 ^ (min n.toNat 31))
  let turn := fun (x n : Word) => x.rotateLeft (n.toNat % 32)
  (∀ a, Completes (.shl a) (at2 left a)) ∧ (∀ a, Completes (.shlImm a) (at2 left a)) ∧
  (∀ a, Completes (.shr a) (at2 right a)) ∧ (∀ a, Completes (.shrImm a) (at2 right a)) ∧
  (∀ a, Completes (.sar a) (at2 arith a)) ∧ (∀ a, Completes (.sarImm a) (at2 arith a)) ∧
  (∀ a, Completes (.rot a) (at2 turn a)) ∧ (∀ a, Completes (.rotImm a) (at2 turn a)) ∧
  (∀ a, Completes (.and_ a) (at2 (· &&& ·) a)) ∧ (∀ a, Completes (.andImm a) (at2 (· &&& ·) a)) ∧
  (∀ a, Completes (.or_ a) (at2 (· ||| ·) a)) ∧ (∀ a, Completes (.orImm a) (at2 (· ||| ·) a)) ∧
  (∀ a, Completes (.xor_ a) (at2 (· ^^^ ·) a)) ∧ (∀ a, Completes (.xorImm a) (at2 (· ^^^ ·) a)) ∧
  (∀ a, Completes (.andn a) (at2 (fun x y => x &&& ~~~y) a)) ∧ (∀ a, Completes (.andnImm a) (at2 (fun x y => x &&& ~~~y) a)) ∧
  (∀ a, Completes (.not_ a) (at1 (~~~ ·) a)) ∧
  (∀ a, Completes (.shladd a) fun _ e =>
    let x := e.op immSext a.a
    if a.w64 then
      let r := (if a.ty = .i32 then x.signExtend 64 else x.setWidth 64) <<< a.sh.toNat
        + pair (e.op immSext a.b) (e.op immSext a.b 1)
      .dst a.d [r.setWidth 32, (r >>> 32).setWidth 32]
    else .dst a.d [x <<< a.sh.toNat + e.op immSext a.b])) ∧
  (∀ a, Completes (.lut3 a) fun _ e => .dst a.d [lut3 a.tab (e.op immSext a.a) (e.op immSext a.b) (e.op immSext a.c)]) ∧
  (∀ tab x y z i, i < 32 → (lut3 tab x y z).getLsbD i =
    tab.getLsbD ((x.getLsbD i).toNat + 2 * (y.getLsbD i).toNat + 4 * (z.getLsbD i).toNat)) ∧
  (∀ a, Completes (.brev a) fun _ e => .dst a.d [reverseBits (e.op immSext a.a)]) ∧
  (∀ x i, i < 32 → (reverseBits x).getLsbD i = x.getLsbD (31 - i)) ∧
  (∀ a, Completes (.popc a) fun _ e => .dst a.d [popCount (e.op immSext a.a)]) ∧
  (∀ x, (popCount x).toNat = ((List.range 32).filter fun i => x.getLsbD i).length) ∧
  (∀ a, Completes (.clz a) fun _ e => .dst a.d [leadingZeros (e.op immSext a.a)]) ∧
  (∀ x, if x = 0 then leadingZeros x = 32
    else x.getLsbD (31 - (leadingZeros x).toNat) = true ∧ ∀ i, 31 - (leadingZeros x).toNat < i → x.getLsbD i = false) ∧
  (∀ a, Completes (.ctz a) fun _ e => .dst a.d [trailingZeros (e.op immSext a.a)]) ∧
  (∀ x, if x = 0 then trailingZeros x = 32
    else x.getLsbD (trailingZeros x).toNat = true ∧ ∀ i, i < (trailingZeros x).toNat → x.getLsbD i = false) ∧
  (∀ a, Completes (.bfe a) fun _ e => .dst a.d [bitExtract a.sgn (e.op immSext a.a) (e.op immSext a.b)]) ∧
  (∀ x y, let pos := y.toNat % 256; let len := y.toNat / 256 % 256
    ∀ i, i < 32 → (bitExtract false x y).getLsbD i = (decide (i < len) && x.getLsbD (pos + i))) ∧
  (∀ x y, let pos := y.toNat % 256; let len := y.toNat / 256 % 256
    ∀ i, i < 32 → 0 < len → (bitExtract true x y).getLsbD i = x.getLsbD (min (pos + min i (len - 1)) 31)) ∧
  (∀ a, Completes (.bfi a) fun _ e => .dst a.d [bitInsert a.tab (e.op immSext a.a) (e.op immSext a.b) (e.op immSext a.c)]) ∧
  (∀ tab x y z, let pos := y.toNat % 256; let len := y.toNat / 256 % 256
    ∀ i, i < 32 → (bitInsert tab x y z).getLsbD i = if pos ≤ i ∧ i < pos + len then x.getLsbD (i - pos) else z.getLsbD i)

/-- R182..R184, R58: setp writes one predicate and no flag, sel copies the group its predicate selects; a write of p7
is discarded. -/
def Obligations.CompareAndSelect : Prop :=
  let cmp := fun (a : SetpArgs) (_ : State) (e : Env) =>
    Wr.pred a.pd (intCond a.cond (intVal a.ty (e.op immSext a.a)) (intVal a.ty (e.op immSext a.b)))
  let chosen := fun (a : SelArgs) (_ : State) (e : Env) =>
    Wr.dst a.d (groupOf a.dm (immOf a.ty) e (if e.p a.ps = a.inv then a.b else a.a))
  (∀ a, Completes (.setp a) (cmp a)) ∧ (∀ a, Completes (.setpImm a) (cmp a)) ∧
  (∀ a, Completes (.sel a) (chosen a)) ∧ (∀ a, Completes (.selImm a) (chosen a)) ∧
  (∀ c x y, intCond c x y = true ↔ (c = .eq ∧ x = y) ∨ (c = .ne ∧ x ≠ y) ∨ (c = .lt ∧ x < y) ∨ (c = .le ∧ x ≤ y)
    ∨ (c = .gt ∧ y < x) ∨ (c = .ge ∧ y ≤ x)) ∧
  (∀ p b iw th, ((Wr.pred p b).apply iw th) = { th with p := if p = 7 then th.p else ((Wr.pred p b).apply iw th).p }) ∧
  (∀ p q b iw th, State.predOf ((Wr.pred p b).apply iw th) q = if q = 7 then true else if q = p.toNat then b else State.predOf th q)

/-- R185, R186, R189, R190: the floating-point words in every distribution mode: the operation on the means (or on each
sample), its rounding, and what it adds to the variance (R73, R78).
R85, R87, R185, R186: NaN operands, invalid sums and products, and the result of minimum and maximum. -/
def Obligations.FloatArithmetic : Prop :=
  (let two := fun (a : Flt2Args) (rounds : Bool) (op : Fmt → Mode → Nat → Nat → Nat × Flags)
      (sp : Fmt → Mode → List Nat → Nat → Spread) (s : State) (e : Env) =>
    let f := fmtOf a.ty
    floatForm s e f f (immOf a.ty) a.dm a.rm a.ftz rounds a.d [(a.a, a.pla), (a.b, a.plb)]
      (fun md cs => op f md (cs.getD 0 0) (cs.getD 1 0)) (sp f)
  let sum := fun (_ : Fmt) (_ : Mode) (_ : List Nat) (_ : Nat) => plainSpread [.one, .one]
  let diff := fun (_ : Fmt) (_ : Mode) (_ : List Nat) (_ : Nat) => plainSpread [.one, .minusOne]
  (∀ a, Completes (.fadd a) (two a true Fmt.add sum)) ∧ (∀ a, Completes (.faddImm a) (two a true Fmt.add sum)) ∧
  (∀ a, Completes (.fsub a) (two a true Fmt.sub diff)) ∧ (∀ a, Completes (.fsubImm a) (two a true Fmt.sub diff)) ∧
  (∀ a, Completes (.fmul a) (two a true Fmt.mul fun f => mulSpread f [])) ∧
  (∀ a, Completes (.fmulImm a) (two a true Fmt.mul fun f => mulSpread f [])) ∧
  (∀ a, Completes (.fmin a) (two a false (fun f md => f.minMax false md.ftz) fun f => pickSpread f false)) ∧
  (∀ a, Completes (.fminImm a) (two a false (fun f md => f.minMax false md.ftz) fun f => pickSpread f false)) ∧
  (∀ a, Completes (.fmax a) (two a false (fun f md => f.minMax true md.ftz) fun f => pickSpread f true)) ∧
  (∀ a, Completes (.fmaxImm a) (two a false (fun f md => f.minMax true md.ftz) fun f => pickSpread f true)) ∧
  (∀ a, Completes (.fma a) fun s e =>
    let f := fmtOf a.ty
    floatForm s e f f (immOf a.ty) a.dm a.rm a.ftz true a.d [(a.a, a.pla), (a.b, a.plb), (a.c, a.plc)]
      (fun md cs => f.fma md (cs.getD 0 0) (cs.getD 1 0) (cs.getD 2 0)) (mulSpread f [.one])) ∧
  (∀ a, Completes (.fscale a) fun s e =>
    let f := fmtOf a.ty
    let k := max (-512) (min 512 (e.op immSext a.b).toInt)
    floatForm s e f f immSext a.dm a.rm a.ftz true a.d [(a.a, a.pla)]
      (fun md cs => scaleOp f k md (cs.getD 0 0)) (scaleSpread k)) ∧
  (∀ a, Completes (.fscaleImm a) fun s e =>
    let f := fmtOf a.ty
    let k := max (-512) (min 512 (e.op immSext a.b).toInt)
    floatForm s e f f immSext a.dm a.rm a.ftz true a.d [(a.a, a.pla)]
      (fun md cs => scaleOp f k md (cs.getD 0 0)) (scaleSpread k)) ∧
  (∀ a, Completes (.frnd a) fun s e =>
    let f := fmtOf a.ty
    floatForm s e f f immSext a.dm a.rm a.ftz true a.d [(a.a, a.pla)] (fun md cs => integralOp f md (cs.getD 0 0))
      fun md cs _ => ⟨[.one], false, some (integralVar md (meanVal f md.ftz (cs.getD 0 0))), false, true⟩) ∧
  (∀ s e src dst im rm ftz rounds d srcs op sp,
    let r := op (elemMode s e rm ftz 0) (srcs.map fun (o : Opnd × Bool) => src.low (e.op im o.1))
    floatForm s e src dst im .plain rm ftz rounds d srcs op sp
      = .dst d [codeWord r.1] r.2 (if rounds then drawCount e rm 1 else 0))) ∧
  (∀ f ∈ [Fmt.f32, Fmt.f16, Fmt.bf16], ∀ (md : Mode) (a b : Nat),
    let x := (f.source md.ftz a).1
    let y := (f.source md.ftz b).1
    (x.isNan = true ∨ y.isNan = true → (f.add md a b).1 = f.qnan ∧ (f.sub md a b).1 = f.qnan ∧ (f.mul md a b).1 = f.qnan) ∧
    (x = .inf false → y = .inf true → (f.add md a b).1 = f.qnan ∧ (f.add md a b).2 &&& Flags.inv = Flags.inv) ∧
    (x.isInf = true → y.isZero = true → (f.mul md a b).1 = f.qnan ∧ (f.mul md a b).2 &&& Flags.inv = Flags.inv) ∧
    (x.isNan = true → y.isNan = false → (f.minMax false md.ftz a b).1 = f.flushIn md.ftz b ∧
      (f.minMax true md.ftz a b).1 = f.flushIn md.ftz b) ∧
    (x.isNan = false → y.isNan = false → x.lt y = true → (f.minMax false md.ftz a b).1 = f.flushIn md.ftz a ∧
      (f.minMax true md.ftz a b).1 = f.flushIn md.ftz b))

/-- R187, R188: compares of means raise no flag but INV for a signalling NaN; fclass sets one bit.
R196..R198, R56: a special function reads its operands and pops its ports at issue and writes nothing yet; its
result waits. -/
def Obligations.FloatCompareAndFunctions : Prop :=
  (let cmp := fun (a : FsetpArgs) (_ : State) (e : Env) =>
    let f := fmtOf a.ty
    let x := f.source (flushes e a.ftz) (f.low (e.op (immOf a.ty) a.a))
    let y := f.source (flushes e a.ftz) (f.low (e.op (immOf a.ty) a.b))
    Wr.pred a.pd (fltCond a.cond x.1 y.1) (x.2 ||| y.2)
  (∀ a, Completes (.fsetp a) (cmp a)) ∧ (∀ a, Completes (.fsetpImm a) (cmp a)) ∧
  (∀ a, Completes (.fclass a) fun _ e =>
    .dst a.d [1#32 <<< classBit (fmtOf a.ty) ((fmtOf a.ty).low (e.op immSext a.a))]) ∧
  (∀ c x y, (x.isNan = true ∨ y.isNan = true) → (fltCond c x y = true ↔
    c = .equ ∨ c = .neu ∨ c = .ltu ∨ c = .leu ∨ c = .gtu ∨ c = .geu ∨ c = .nan)) ∧
  (∀ x y, x.isNan = false → y.isNan = false →
    fltCond .lt x y = x.lt y ∧ fltCond .ge x y = !(x.lt y) ∧ fltCond .gt x y = y.lt x ∧ fltCond .le x y = !(y.lt x) ∧
    fltCond .eq x y = x.eq y ∧ fltCond .ne x y = !(x.eq y) ∧ fltCond .num x y = true ∧ fltCond .nan x y = false)) ∧
  (let at_ := fun (f : SpecialFn) (a : Flt1Args) (s : State) (e : Env) =>
    let t := fmtOf a.ty
    floatForm s e t t immSext a.dm a.rm a.ftz false a.d [(a.a, a.pla)]
      (fun md cs => f.eval t md.ftz (cs.getD 0 0)) (fnSpread f t)
  (∀ a, CompletesLate (.ex2 a) true (at_ .ex2 a)) ∧ (∀ a, CompletesLate (.lg2 a) true (at_ .lg2 a)) ∧
  (∀ a, CompletesLate (.rcp a) true (at_ .rcp a)) ∧ (∀ a, CompletesLate (.rsq a) true (at_ .rsq a)) ∧
  (∀ a, CompletesLate (.sqt a) true (at_ .sqt a)) ∧ (∀ a, CompletesLate (.sin a) true (at_ .sin a)) ∧
  (∀ a, CompletesLate (.cos a) true (at_ .cos a)) ∧ (∀ a, CompletesLate (.tnh a) true (at_ .tnh a)) ∧
  (∀ a, CompletesLate (.lgt a) true (at_ .lgt a)))

/-- R191..R195: conversions, packed words and dot products. -/
def Obligations.ConversionsAndPacked : Prop :=
  let pair2 := fun (op : Fmt → Mode → Nat → Nat → Nat × Flags) (a : Flt2Args) (s : State) (e : Env) =>
    let f := fmtOf a.ty
    let x := e.op (immOf a.ty) a.a
    let y := e.op (immOf a.ty) a.b
    let lo := op f (elemMode s e a.rm a.ftz 0) (elemOf f x 0) (elemOf f y 0)
    let hi := op f (elemMode s e a.rm a.ftz 1) (elemOf f x 1) (elemOf f y 1)
    Wr.dst a.d [packWord f [lo.1, hi.1]] (lo.2 ||| hi.2) (drawCount e a.rm 2)
  (∀ a, Completes (.pkadd a) (pair2 Fmt.add a)) ∧ (∀ a, Completes (.pkaddImm a) (pair2 Fmt.add a)) ∧
  (∀ a, Completes (.pkmul a) (pair2 Fmt.mul a)) ∧ (∀ a, Completes (.pkmulImm a) (pair2 Fmt.mul a)) ∧
  (∀ a, Completes (.pkfma a) (pkfmaL a)) ∧ (∀ a, Completes (.dp2 a) (dpL a)) ∧ (∀ a, Completes (.dp4 a) (dpL a)) ∧
  (∀ a, Completes (.cvt a) (cvtL a)) ∧
  (∀ s e a, cvtKind a.dty a.sty = some .toInt →
    let md := elemMode s e a.rm a.ftz 0
    let x := (fmtOf a.sty).source md.ftz ((fmtOf a.sty).low (e.op immSext a.a))
    let r := toIntSat md.rm md.r (intRange a.dty).1 (intRange a.dty).2 x.1
    cvtL a s e = .dst a.d [extTo a.dty r.1] (r.2 ||| x.2) (drawCount e a.rm 1)) ∧
  (∀ mode r lo hi x, lo ≤ 0 → 0 ≤ hi → lo ≤ (toIntSat mode r lo hi x).1 ∧ (toIntSat mode r lo hi x).1 ≤ hi)

/-- R77, R199, R200: making and reading distributions; dlin takes its group's tag and moves the group's counter on.
R201, R202, R207, R80, R81: words that draw: one draw of the thread's counter each, made from the group's key, the
stream and the counter as they stood before the word. -/
def Obligations.DistributionsAndDraws : Prop :=
  (∀ a, Completes (.dmake a) fun _ e =>
    let m := codeWord ((fmtOf a.ty).low (e.op immSext a.a))
    let v := readVar (flushes e a.ftz) (e.op immSext a.b)
    match a.dm with
    | .mv => .vec a.d [m, wordOfNum v.1] v.2
    | .mva => .vec a.d [m, 0, wordOfNum v.1, 0] v.2
    | _ => .vec a.d [m, m, m, m]) ∧
  (∀ a, Completes (.dmean a) (dmeanL a)) ∧ (∀ a, Completes (.dvar a) (dvarL a)) ∧ (∀ a, Completes (.dfold a) (dfoldL a)) ∧
  (∀ a s e, a.dm = .mv ∨ a.dm = .mva → dmeanL a s e = .vec a.d [codeWord ((fmtOf a.ty).low (e.op immSext a.a))]) ∧
  (∀ a b s, Issuing (.dlin a) b s → ∃ s1, Lands (.dlin a) b s s1 (dlinL a s) ∧ ∃ s', exec (.dlin a) s = .next s' ∧
    { s' with groups := s1.groups } = s1 ∧ ∀ g, s'.group g = { s1.group g with
      lineage := if g ∈ (activeIn (.dlin a) b s).map fun t => (s.thread t).group then
          if (s.group g).lineage = 0xFFFF then 1 else (s.group g).lineage + 1
        else (s.group g).lineage }) ∧
  (let values := fun (f : List Nat → List Word) (a : RndArgs) (s : State) (e : Env) =>
    Wr.dst a.d ((f (drawWords s e a.stream.toNat 0)).take (if a.x4 then 4 else 1)) 0 1
  (∀ a, Completes (.rndU32 a) (values (fun x => x.map (BitVec.ofNat 32)) a)) ∧
  (∀ a, Completes (.rndF32 a) (values (fun x => x.map fun n => unit24 (n / 2 ^ 8)) a)) ∧
  (∀ a, Completes (.rndGauss a) (values gaussAll a)) ∧
  (∀ a, Completes (.dspread a) (dspreadL a)) ∧ (∀ a, Completes (.dsamp a) (dsampL a)) ∧
  (∀ s e st i, drawWords s e st i =
    let n := (e.th.draws + BitVec.ofNat 48 i).toNat
    philox e.g.key [n % 2 ^ 32, st * 2 ^ 20 + (s.block e.g.block).stage * 2 ^ 16 + n / 2 ^ 32, e.th.lin, 0]) ∧
  (∀ w iw th, (w : Wr).push = none → (w.apply iw th).draws = th.draws + BitVec.ofNat 48 w.draws) ∧
  (∀ a b s, Issuing (.rngseed a) b s → activeIn (.rngseed a) b s ≠ [] → ∃ s', exec (.rngseed a) s = .next s' ∧
    Acts (.rngseed a) b s s' (fun _ th => { th with draws := 0 }) fun g x =>
      if g ∈ (activeIn (.rngseed a) b s).map (fun t => (s.thread t).group) then
        { x with key := pair (x.k.findD a.k.toNat 0) (x.k.findD (a.k.toNat + 1) 0) } else x))

/-- R203..R205: bit streams: the field is the low bits of the buffer, refilled by the pair where too few are left, and
the reader moves past it; after bsalign the bits consumed since the start are a multiple of 2^k. -/
def Obligations.BitStreams : Prop :=
  let took := fun (e : Env) (q : BitVec 8) (r : Opnd) (w : Reg) =>
    takeBits (readerOf e q) (pair (e.op immSext r) (e.op immSext r 1)).toNat (min (e.cop w).toNat 32)
  (∀ a, Completes (.bsinit a) fun _ e =>
    let o := (e.op immSext a.b).toNat % 64
    .vec a.d (readerWords ⟨(pair (e.v a.a.toNat) (e.v (a.a.toNat + 1))).toNat / 2 ^ o, 64 - o, 1⟩)) ∧
  (∀ a, Completes (.bspeek a) fun _ e =>
    .dst a.d [fieldWord a.sgn (min (e.cop a.w).toNat 32) (took e a.a a.r a.w).1]) ∧
  (∀ a, Completes (.bsread a) fun _ e =>
    let d := Wr.dst a.d [fieldWord a.sgn (min (e.cop a.w).toNat 32) (took e a.a a.r a.w).1]
    { d with regs := d.regs ++ (Wr.vec a.a (readerWords (took e a.a a.r a.w).2)).regs }) ∧
  (∀ a, Completes (.bsskip a) fun _ e => .vec a.a (readerWords (took e a.a a.r a.w).2)) ∧
  (∀ a, Completes (.bsalign a) fun _ e =>
    let x := readerOf e a.a
    let drop := x.n % 2 ^ a.k.toNat
    .vec a.a (readerWords ⟨x.buf / 2 ^ drop, x.n - drop, x.idx⟩)) ∧
  (∀ x refill w, w ≤ x.n → takeBits x refill w = (x.buf % 2 ^ w, ⟨x.buf / 2 ^ w % 2 ^ 64, x.n - w, x.idx⟩)) ∧
  (∀ x refill w, x.n < w → takeBits x refill w =
    let y := x.buf + refill * 2 ^ x.n
    (y % 2 ^ w, ⟨y / 2 ^ w % 2 ^ 64, x.n + 64 - w, (x.idx + 1) % 2 ^ 32⟩)) ∧
  (∀ w x, w ≤ 32 → x < 2 ^ w → fieldWord false w x = BitVec.ofNat 32 x) ∧
  (∀ sgn, fieldWord sgn 0 0 = 0) ∧
  (∀ w x, 0 < w → w ≤ 32 → x < 2 ^ w →
    fieldWord true w x = BitVec.ofInt 32 (if 2 ^ (w - 1) ≤ x then (x : Int) - 2 ^ w else x)) ∧
  (∀ (x : BitReader) (k : BitVec 3), k ≤ 6 → (2 ^ k.toNat : Int) ∣ 64 * x.idx - (x.n - x.n % 2 ^ k.toNat : Nat))

/-- R215, R58: the plain moves, the immediates and the predicates as a word.
R15, R32, R63..R68, R216: moves between the group's registers, the special registers and the threads.
R66, R68: reserved bits of %fsr read 0 whatever is written, and no reserved rounding mode is stored. -/
def Obligations.RegisterMoves : Prop :=
  (∀ a, Completes (.mov a) fun _ e => .dst a.d (groupOf a.dm immSext e a.a)) ∧
  (∀ a, Completes (.movi a) fun _ _ => .dst a.d [immOf a.ty a.imm]) ∧
  (∀ a, Completes (.moviHi a) fun _ e => .dst a.d [a.imm ++ (match a.d with
    | .v n => (e.v n.toNat).setWidth 16
    | .q _ => 0#16 : HalfWord)]) ∧
  (∀ a, Completes (.movpRead a) fun _ e => .dst a.d [(1#1 ++ e.th.p).setWidth 32]) ∧
  (∀ a, Completes (.movpWrite a) fun _ e =>
    { Wr.none with preds := (List.range 7).map fun i => (i, (e.cop a.a).getLsbD i) }) ∧
  (∀ x : HalfWord, immOf .f32 x = x.setWidth 32 <<< 16 ∧ immOf .u32 x = x.signExtend 32 ∧ immOf .u16 x = x.setWidth 32 ∧
    immOf .i16 x = x.signExtend 32 ∧ immOf .u8 x = (x.setWidth 8).setWidth 32 ∧ immOf .i8 x = (x.setWidth 8).signExtend 32) ∧
  (∀ a b s t l, Issuing (.movk a) b s → activeIn (.movk a) b s = t :: l → ∃ s', exec (.movk a) s = .next s' ∧
    Acts (.movk a) b s s' (fun _ th => th) fun g x =>
      if g = (s.thread t).group then { x with k := x.k.set a.k.toNat ((envOf s t).cop a.a) } else x) ∧
  (∀ a b s, Issuing (.movsRead a) b s → ∃ s', exec (.movsRead a) s = .next s' ∧
    Acts (.movsRead a) b s s'
      (fun t th => latchHalf s (envOf s t) a.sr ((Wr.dst a.d [specialVal s (envOf s t) a.sr]).apply b.word th)) fun _ x => x) ∧
  (∀ a b s, Issuing (.movsWriteFsr a) b s → ∃ s', exec (.movsWriteFsr a) s = .next s' ∧
    Acts (.movsWriteFsr a) b s s' (fun _ th => th) fun g x =>
      match (activeIn (.movsWriteFsr a) b s).find? fun t => (s.thread t).group == g with
      | some t => { x with fsr := fsrStored ((envOf s t).cop a.a) }
      | none => x) ∧
  (∀ s e, specialVal s e .lane = BitVec.ofNat 32 e.th.lane ∧ specialVal s e .core = BitVec.ofNat 32 e.g.core ∧
    specialVal s e .cluster = BitVec.ofNat 32 (e.g.core / 4) ∧ specialVal s e .die = BitVec.ofNat 32 (e.g.core / 128) ∧
    specialVal s e .fsr = e.g.fsr ∧ specialVal s e .clkLo = BitVec.ofNat 32 s.clk ∧
    specialVal s e .clkHi = e.th.clkHi.getD (BitVec.ofNat 32 (s.clk / 2 ^ 32))) ∧
  (∀ x : Word, fsrStored x &&& 0xFFFF_0E00 = 0 ∧ bits (fsrStored x).toNat 7 5 < 5 ∧
    (bits x.toNat 7 5 < 5 → fsrStored x = x &&& 0x0000_F1FF))

/-- R209, R210, R46: moves between lanes over a whole gather: each contributing participant reads the operand of the
participant in its source lane, or, where there is none, its own or 0 as the edge says.
R211, R213: polls, maps and matches over the contributing participants of a whole gather.
R212, R208: folds, prefixes and the categorical draw over the contributing participants of a whole gather, in
ascending lane order. -/
def Obligations.LaneExchange : Prop :=
  (let moved := fun (k : LaneMove) (a : LaneArgs) (b : Bundle) (s : State) (e : Env) =>
    let j := k.lane e.th.lane (e.op immSext a.b)
    let j := if a.edge = .wr then j % 32 else j
    Wr.dst a.d [((((b.threads.map (envOf s)).find? fun (o : Env) => (o.th.lane : Int) == j).map fun o => o.op immSext a.a).getD
      (if a.edge = .zf then 0 else e.op immSext a.a))]
  (∀ a b s, Issuing (.laneIdx a) b s → Gathered a.m b s →
    ∃ s', exec (.laneIdx a) s = .next s' ∧ Lands (.laneIdx a) b s s' (moved .idx a b s)) ∧
  (∀ a b s, Issuing (.laneRise a) b s → Gathered a.m b s →
    ∃ s', exec (.laneRise a) s = .next s' ∧ Lands (.laneRise a) b s s' (moved .rise a b s)) ∧
  (∀ a b s, Issuing (.laneFall a) b s → Gathered a.m b s →
    ∃ s', exec (.laneFall a) s = .next s' ∧ Lands (.laneFall a) b s s' (moved .fall a b s)) ∧
  (∀ a b s, Issuing (.laneFlip a) b s → Gathered a.m b s →
    ∃ s', exec (.laneFlip a) s = .next s' ∧ Lands (.laneFlip a) b s s' (moved .flip a b s)) ∧
  (∀ l (x : Word), LaneMove.lane .idx l x = x.toNat ∧ LaneMove.lane .rise l x = l - x.toNat ∧
    LaneMove.lane .fall l x = l + x.toNat ∧ LaneMove.lane .flip l x = ((l ^^^ x.toNat : Nat) : Int))) ∧
  (∀ a b s, Issuing (.pollAny a) b s → Gathered a.m b s → ∃ s', exec (.pollAny a) s = .next s' ∧
    Lands (.pollAny a) b s s' fun _ => .pred a.pd ((contributors (.pollAny a) b s).any fun o => o.p a.pa)) ∧
  (∀ a b s, Issuing (.pollAll a) b s → Gathered a.m b s → ∃ s', exec (.pollAll a) s = .next s' ∧
    Lands (.pollAll a) b s s' fun _ => .pred a.pd ((contributors (.pollAll a) b s).all fun o => o.p a.pa)) ∧
  (∀ a b s, Issuing (.pollMap a) b s → Gathered a.m b s → ∃ s', exec (.pollMap a) s = .next s' ∧
    Lands (.pollMap a) b s s' fun _ => .dst a.d [laneBits ((contributors (.pollMap a) b s).map fun o => (o.th.lane, o.p a.pa))]) ∧
  (∀ a b s, Issuing (.peers a) b s → Gathered a.m b s → ∃ s', exec (.peers a) s = .next s' ∧
    Lands (.peers a) b s s' fun e => .dst a.d
      [laneBits ((contributors (.peers a) b s).map fun o => (o.th.lane, o.op immSext a.a == e.op immSext a.a))]) ∧
  (∀ l n, n < 32 → (laneBits l).getLsbD n = l.any fun x => x.1 == n && x.2) ∧
  (let run := fun (a : FoldArgs) (es : List Env) => es.foldl (fun (acc : Word × Flags) e =>
    let r := foldStep a.op a.ty (flushes e false) acc.1 (e.op immSext a.a)
    (r.1, acc.2 ||| r.2)) (foldUnit a.op a.ty, 0)
  (∀ a b s, Issuing (.fold a) b s → Gathered a.m b s → ∃ s', exec (.fold a) s = .next s' ∧
    Lands (.fold a) b s s' fun _ => .dst a.d [(run a (contributors (.fold a) b s)).1] (run a (contributors (.fold a) b s)).2) ∧
  (∀ a b s, Issuing (.pfx a) b s → Gathered a.m b s → ∃ s', exec (.pfx a) s = .next s' ∧
    Lands (.pfx a) b s s' fun e =>
      let es := contributors (.pfx a) b s
      let k := (es.findIdx? fun (o : Env) => o.t == e.t).getD 0
      .dst a.d [(run a (es.take (if a.exc then k else k + 1))).1] (run a es).2) ∧
  (∀ a b s, Issuing (.rndCat a) b s → Gathered a.m b s → ∃ s', exec (.rndCat a) s = .next s' ∧
    Lands (.rndCat a) b s s' fun e =>
      let es := contributors (.rndCat a) b s
      let ws := es.map fun o => (o.th.lane, catWeight (o.op immSext a.a))
      let low := (es.head?).getD e
      let k := catPick (ws.map fun w => (w.1, w.2.1)) ((drawWords s low a.stream.toNat 0).getD 0 0)
      .dst a.d [k.1] (k.2 ||| ws.foldl (fun fl w => fl ||| w.2.2) 0) (if e.t = low.t then 1 else 0)))

/-- R86, R165, R166: the words of the compatibility unit: requests whose results are the FP64 and integer operations of
the spec.
R165: integer division by zero gives all ones and leaves the dividend as the remainder; otherwise quotient and
remainder are those of division toward zero. -/
def Obligations.CompatibilityUnit : Prop :=
  (let d2 := fun (op : Mode → Nat → Nat → Nat × Flags) (a : XfArgs) (e : Env) =>
    let r := op (mode64 e a.rm) (op64 e a.a) (op64 e a.b)
    Wr.vec a.d (words64 r.1) r.2
  let w2 := fun (f : Word → Word → Word) (a : Xop2Args) (e : Env) => Wr.dst a.d [f (e.op immSext a.a) (e.op immSext a.b)]
  let i2 := fun (f : Bool → Word → Word → Word) (a : XintArgs) (e : Env) =>
    Wr.dst a.d [f a.sgn (e.op immSext a.a) (e.op immSext a.b)]
  (∀ a, CompletesXop (.xfadd a) (d2 Fmt.f64.add a)) ∧ (∀ a, CompletesXop (.xfsub a) (d2 Fmt.f64.sub a)) ∧
  (∀ a, CompletesXop (.xfmul a) (d2 Fmt.f64.mul a)) ∧ (∀ a, CompletesXop (.xfdiv a) (d2 div64 a)) ∧
  (∀ a, CompletesXop (.xfma a) fun e =>
    let r := Fmt.f64.fma (mode64 e a.rm) (op64 e a.a) (op64 e a.b) (op64 e (.v a.c))
    .vec a.d (words64 r.1) r.2) ∧
  (∀ a, CompletesXop (.xfsqt a) fun e =>
    let x := Fmt.f64.source false (op64 e a.a)
    let p := Fmt.f64.result (mode64 e a.rm) x.1.sqrt
    .vec a.d (words64 p.1) (p.2 ||| x.2)) ∧
  (∀ a, CompletesXop (.xfcvt a) (xfcvtL a .reset)) ∧
  (∀ a, CompletesXop (.xfsetp a) fun e =>
    let x := Fmt.f64.source false (op64 e a.a)
    let y := Fmt.f64.source false (op64 e a.b)
    .pred a.pd (fltCond a.cond x.1 y.1) (x.2 ||| y.2)) ∧
  (∀ a, CompletesXop (.xdiv a) (i2 quotient a)) ∧ (∀ a, CompletesXop (.xrem a) (i2 remainder a)) ∧
  (∀ a, CompletesXop (.xshl2 a) (w2 (fun x n => x <<< (n.toNat % 32)) a)) ∧
  (∀ a, CompletesXop (.xshr2 a) (w2 (fun x n => x >>> (n.toNat % 32)) a)) ∧
  (∀ a, CompletesXop (.xsar2 a) (w2 (fun x n => x.sshiftRight (n.toNat % 32)) a)) ∧
  (∀ a, CompletesXop (.xmin2 a) (w2 (fun x y => if (f32Val x).lt (f32Val y) then x else y) a)) ∧
  (∀ a, CompletesXop (.xmax2 a) (w2 (fun x y => if (f32Val y).lt (f32Val x) then x else y) a)) ∧
  (∀ a, CompletesXop (.xcvt2 a) fun e => .dst a.d [trunc2 (e.op immSext a.a)])) ∧
  (∀ sgn x, quotient sgn x 0 = 0xFFFF_FFFF ∧ remainder sgn x 0 = x) ∧
  (∀ x y : Word, y ≠ 0 → (quotient false x y).toNat = x.toNat / y.toNat ∧ (remainder false x y).toNat = x.toNat % y.toNat) ∧
  (∀ x y : Word, y ≠ 0 → ¬(x.toInt = -2 ^ 31 ∧ y.toInt = -1) →
    (quotient true x y).toInt = x.toInt.tdiv y.toInt ∧ (remainder true x y).toInt = x.toInt.tmod y.toInt)

/-- R155..R158: a paired word: each half under its own guard, both reading before either writes, half X drawing
first. -/
def Obligations.PairedWords : Prop :=
  ∀ a, Completes (.pairedWord a) fun s e =>
    let x := if guardHolds ⟨false, a.x.g⟩ e.th then halfL a.x s e else .none
    let e' := { e with th := { e.th with draws := e.th.draws + BitVec.ofNat 48 x.draws } }
    let y := if guardHolds ⟨false, a.y.g⟩ e.th then halfL a.y s e' else .none
    ⟨x.regs ++ y.regs, [], none, x.flags ||| y.flags, x.draws + y.draws⟩

/-- R108, R120, R220..R222, R228..R231, R246, R247, R254, R322: words whose access goes to memory: the request each one
active thread makes, with its address, size, alignment, kind, order and scope, is on its way. -/
def Obligations.MemoryRequests : Prop :=
  let sends := fun (i : Instr) (f : State → Env → Access) => ∀ b s t l e,
    ToMemory i b s t (f (afterIssue b s) (envOf (afterIssue b s) t)) l e →
    ∃ s', exec i s = .next s' ∧ Sent b (afterIssue b s) s' t (f (afterIssue b s) (envOf (afterIssue b s) t)) l e
  (∀ a, sends (.ld a) fun _ e =>
    ⟨effAddr e a.base a.off, (LT.bytes a.lt), (LT.bytes a.lt), true, false, a.order, a.scope, [], .load a.lt 0,
      some (List.range' a.d.toNat a.lt.regs, false), true, false⟩) ∧
  (∀ a, sends (.st a) fun _ e =>
    ⟨effAddr e a.base a.off, (LT.bytes a.lt), (LT.bytes a.lt), false, true, a.order, a.scope, vecWords e a.d.toNat a.lt.regs,
      .store a.lt, none, true, false⟩) ∧
  (∀ a, sends (.ldk a) fun _ e =>
    ⟨effAddr e a.base a.off, (LT.bytes a.lt), (LT.bytes a.lt), true, false, a.order, a.scope, [], .ldk a.lt 0 0,
      some (List.range' a.d.toNat a.lt.regs, true), true, false⟩) ∧
  (∀ a, sends (.atom a) fun s e =>
    ⟨effAddr e a.base a.off, (AT.bytes a.ty), (AT.bytes a.ty), true, true, a.order, a.scope, atomOps e a.b a.bSize,
      .atom a.op a.ty (some 0), some (List.range' a.d.toNat (if a.ty = .i64 then 2 else 1), false), true,
      a.scope == .blk && blockOneCore s e.g.block⟩) ∧
  (∀ a, sends (.red a) fun s e =>
    ⟨effAddr e a.base a.off, (AT.bytes a.ty), (AT.bytes a.ty), false, true, a.order, a.scope, atomOps e a.b a.bSize,
      .atom a.op a.ty none, none, true, a.scope == .blk && blockOneCore s e.g.block⟩) ∧
  (∀ a, sends (.svpost a) fun _ e =>
    ⟨effAddr e a.base a.off, 4, 4, true, true, .rel, .dev, atomOps e a.b 1, .svpost, none, false, false⟩) ∧
  (∀ a, sends (.svwait a) fun _ e =>
    ⟨effAddr e a.base a.off, 4, 4, true, false, .acq, .dev, atomOps e a.b 1, .svwait a.d.toNat, none, false, false⟩) ∧
  (∀ a, sends (.barCls a) fun _ e =>
    ⟨(e.base2 a.base).toNat, 8, 8, true, true, .rel, .cls, [], .bar false none, none, false, false⟩) ∧
  (∀ a, sends (.barDev a) fun _ e =>
    ⟨(e.base2 a.base).toNat, 8, 8, true, true, .rel, .dev, [], .bar false none, none, false, false⟩) ∧
  (∀ a, sends (.barDevSuper a) fun _ e =>
    ⟨(e.base2 a.base).toNat, 8, 8, true, true, .rel, .sys, [], .bar true none, none, false, false⟩) ∧
  (∀ a, sends (.barArrive a) fun _ e =>
    ⟨(e.base2 a.base).toNat, 8, 8, true, true, .rel, if a.sc = .cls then .cls else .dev, [], .bar false (some 0),
      some ([a.d.toNat], false), false, false⟩) ∧
  (∀ a, sends (.barWait a) fun _ e =>
    ⟨(e.base2 a.base).toNat, 8, 8, true, false, .acq, if a.sc = .cls then .cls else .dev, [e.v a.d.toNat], .barWait, none, false,
      false⟩) ∧
  (∀ a, sends (.launch a) fun _ e =>
    ⟨(e.base2 a.base).toNat, 448, 64, true, false, .rel, .dev, [], .launch a.q.toNat 0, some ([a.d.toNat], false), true, false⟩)

/-- R111, R221, R229: loads, stores and atomics on the flats are performed at the bank as the word issues: a load writes
what the bank holds, a store its bytes, an atomic the new value and (atom) the old one.
R229: the new value of an integer atomic: modulo the width, compared as signed in the i types; inc and dec wrap at the
operand; cas stores its second value where the first matches. -/
def Obligations.BankAndAtomics : Prop :=
  (let bank := fun (i : Instr) (f : State → Env → Access) (r : List Byte → Access → List (Nat × Word)) (w : List Byte → Access → List Byte) =>
    ∀ b s t d k o, let s0 := afterIssue b s
      let x := f s0 (envOf s0 t)
      ToBank i b s t x d k o → ∃ s', exec i s = .next s' ∧
        AtBank s0 s' t x (r (Memory.readN s0.flats (bankKey d k o) x.size) x) (bankKey d k o)
          (w (Memory.readN s0.flats (bankKey d k o) x.size) x)
  let loaded := fun (lt : LT) (b : List Byte) (x : Access) => match x.dst with
    | some (ds, _) => ds.zip (LT.value lt b)
    | none => []
  let updated := fun (a : AtomArgs) (b : List Byte) (x : Access) => match atomNew a.op a.ty (natOfBytes b) x.ops with
    | some y => bytesOfNat x.size y
    | none => []
  (∀ a, bank (.ld a) (fun _ e =>
    ⟨effAddr e a.base a.off, (LT.bytes a.lt), (LT.bytes a.lt), true, false, a.order, a.scope, [], .load a.lt 0,
      some (List.range' a.d.toNat a.lt.regs, false), true, false⟩) (loaded a.lt) fun _ _ => []) ∧
  (∀ a, bank (.ldk a) (fun _ e =>
    ⟨effAddr e a.base a.off, (LT.bytes a.lt), (LT.bytes a.lt), true, false, a.order, a.scope, [], .ldk a.lt 0 0,
      some (List.range' a.d.toNat a.lt.regs, true), true, false⟩) (loaded a.lt) fun _ _ => []) ∧
  (∀ a, bank (.st a) (fun _ e =>
    ⟨effAddr e a.base a.off, (LT.bytes a.lt), (LT.bytes a.lt), false, true, a.order, a.scope, vecWords e a.d.toNat a.lt.regs,
      .store a.lt, none, true, false⟩) (fun _ _ => []) fun _ x => (bytesOfWords x.ops).take x.size) ∧
  (∀ a, bank (.atom a) (fun s e =>
    ⟨effAddr e a.base a.off, (AT.bytes a.ty), (AT.bytes a.ty), true, true, a.order, a.scope, atomOps e a.b a.bSize,
      .atom a.op a.ty (some 0), some (List.range' a.d.toNat (if a.ty = .i64 then 2 else 1), false), true,
      a.scope == .blk && blockOneCore s e.g.block⟩)
    (fun b _ => (List.range' a.d.toNat (if a.ty = .i64 then 2 else 1)).zip (wordsOfBytes (bytesOfNat (AT.bytes a.ty) (natOfBytes b))))
    (updated a)) ∧
  (∀ a, bank (.red a) (fun s e =>
    ⟨effAddr e a.base a.off, (AT.bytes a.ty), (AT.bytes a.ty), false, true, a.order, a.scope, atomOps e a.b a.bSize,
      .atom a.op a.ty none, none, true, a.scope == .blk && blockOneCore s e.g.block⟩) (fun _ _ => []) (updated a))) ∧
  (∀ old x : Word,
    atomNew .add .u32 old.toNat [x] = some (old + x).toNat ∧ atomNew .sub .u32 old.toNat [x] = some (old - x).toNat ∧
    atomNew .and .u32 old.toNat [x] = some (old &&& x).toNat ∧ atomNew .or .u32 old.toNat [x] = some (old ||| x).toNat ∧
    atomNew .xor .u32 old.toNat [x] = some (old ^^^ x).toNat ∧ atomNew .exch .u32 old.toNat [x] = some x.toNat ∧
    atomNew .min .u32 old.toNat [x] = some (min old.toNat x.toNat) ∧
    atomNew .max .u32 old.toNat [x] = some (max old.toNat x.toNat) ∧
    atomNew .min .i32 old.toNat [x] = some (if x.slt old then x else old).toNat ∧
    atomNew .max .i32 old.toNat [x] = some (if old.slt x then x else old).toNat ∧
    atomNew .inc .u32 old.toNat [x] = some (if x.toNat ≤ old.toNat then 0 else old.toNat + 1) ∧
    atomNew .dec .u32 old.toNat [x] = some (if old = 0 ∨ x.toNat < old.toNat then x.toNat else old.toNat - 1)) ∧
  (∀ old c n : Word, atomNew .cas .u32 old.toNat [c, n] = if old = c then some n.toNat else none) ∧
  (∀ (old : Dword) (x y : Word), atomNew .add .i64 old.toNat [x, y] = some (old + (y ++ x)).toNat ∧
    atomNew .exch .i64 old.toNat [x, y] = some (y ++ x).toNat)

/-- R219, R316, R317: an access that may not be made traps, before the word has any effect on memory: its address out of
range, in no window or not permitted there, misaligned, in a slot that holds no bank or may not be written, or watched.
R27, R46, R56, R59, R120, R121, R132, R133, R166, R209, R251, R314, R322, R323: what holds a thread STALLED at its word, for
every word, with no effect of the word yet: a result that is awaited, a replay, a port, an earlier xop, what the word awaits of its
thread, room for what it does, the other participants of its gather. -/
def Obligations.AccessFaultsAndWaits : Prop :=
  (let traps := fun (i : Instr) (f : State → Env → Access) => ∀ b s t c, Sole i b s t →
    accessCheck (windowView (afterIssue b s) t).1 (issuedAs i b s) t (f (afterIssue b s) (envOf (afterIssue b s) t)) = .error c →
    exec i s = .next (accessTraps b s t c (f (afterIssue b s) (envOf (afterIssue b s) t)).va)
  (∀ a, traps (.ld a) (ldAccess a)) ∧ (∀ a, traps (.st a) (stAccess a)) ∧ (∀ a, traps (.ldk a) (ldkAccess a)) ∧
  (∀ a, traps (.atom a) (atomAccess false a)) ∧ (∀ a, traps (.red a) (atomAccess true a)) ∧
  (∀ a, traps (.svpost a) (svAccess true a)) ∧ (∀ a, traps (.svwait a) (svAccess false a)) ∧
  (∀ a, traps (.barCls a) (barAccess a.base .cls false none)) ∧ (∀ a, traps (.barDev a) (barAccess a.base .dev false none)) ∧
  (∀ a, traps (.barDevSuper a) (barAccess a.base .sys true none)) ∧
  (∀ a, traps (.barArrive a) (barAccess a.base (barOrder a.sc) false (some a.d.toNat))) ∧
  (∀ a, traps (.barWait a) (barWaitAccess a)) ∧ (∀ a, traps (.launch a) (launchAccess a)) ∧
  (∀ s is t (x : Access) c, accessTarget s t x = .error c → accessCheck s is t x = .error c) ∧
  (∀ s t (x : Access), 2 ^ 57 ≤ x.va ∨ (inFlat x.va = true ∧ x.flatOk = false) → accessTarget s t x = .error .vaRange) ∧
  (∀ s t (x : Access), inFlat x.va = true → x.flatOk = true →
    (x.va % x.align ≠ 0 → accessTarget s t x = .error .misaligned) ∧
    (x.va % x.align = 0 → slotBank s (s.coreOf t) (flatSlot x.va) = none → accessTarget s t x = .error .flatDetached) ∧
    (x.va % x.align = 0 → slotBank s (s.coreOf t) (flatSlot x.va) ≠ none → slotRo s (s.coreOf t) (flatSlot x.va) = true →
      x.write = true → accessTarget s t x = .error .flatReadonly)) ∧
  (∀ s t (x : Access), x.va < 2 ^ 57 → inFlat x.va = false →
    (∀ c, viaWindows s (s.ctxOf t) (s.privOf t) x.va ⟨x.read, x.write, false⟩ = .error c → accessTarget s t x = .error c) ∧
    (∀ l, viaWindows s (s.ctxOf t) (s.privOf t) x.va ⟨x.read, x.write, false⟩ = .ok l → x.va % x.align ≠ 0 →
      accessTarget s t x = .error .misaligned))) ∧
  (∀ i b s t, IsWord i → Alone i b s t →
    let u := usesOf i
    (pendingHazard s t u (guardOf i) true = true → exec i s = .next (heldAt b s t .result)) ∧
    (pendingHazard s t u (guardOf i) true = false →
      (∀ e, replayHold s t i = some e → exec i s = .next (heldAt b s t (.replay e))) ∧
      (replayHold s t i = none →
        (∀ p, portHazard (s.thread t) u = some p → portFault s (s.thread t) (s.groupOf t) u = none →
          exec i s = .next (heldAt b s t (.port p))) ∧
        (portHazard (s.thread t) u = none →
          (isXop i = true → xopPending s t = true → exec i s = .next (heldAt b s t .result)) ∧
          ((isXop i && xopPending s t) = false → mustDrain s i t = true → exec i s = .next (heldAt b s t .drain)))))) ∧
  (∀ s t, canRelease s t = false →
    (∀ a : LdstArgs, Order.releases a.order = true → mustDrain s (.st a) t = true) ∧
    (∀ a : AtomArgs, Order.releases a.order = true → mustDrain s (.atom a) t = true ∧ mustDrain s (.red a) t = true) ∧
    (∀ a, mustDrain s (.svpost a) t = true) ∧ (∀ a, mustDrain s (.cuePush a) t = true) ∧ (∀ a, mustDrain s (.cpReady a) t = true) ∧
    (∀ a, mustDrain s (.signal a) t = true) ∧ (∀ a, mustDrain s (.launch a) t = true) ∧
    (∀ a, mustDrain s (.barBlk a) t = true) ∧ (∀ a, mustDrain s (.barCls a) t = true) ∧ (∀ a, mustDrain s (.barDev a) t = true) ∧
    (∀ a, mustDrain s (.barDevSuper a) t = true) ∧ (∀ a, mustDrain s (.barArrive a) t = true) ∧ (∀ a, mustDrain s (.sign a) t = true) ∧
    (∀ a : MaskArgs, (maskOf (s.groupOf t) a.n.toNat).m.getLsbD (s.thread t).lane = true → mustDrain s (.wait a) t = true)) ∧
  (∀ s t, accessesDone s t = false →
    (∀ a, mustDrain s (.cpRows a) t = true) ∧ (∀ a, mustDrain s (.cpReduce a) t = true) ∧ (∀ a, mustDrain s (.cpColl a) t = true) ∧
    (∀ a, mustDrain s (.accrd a) t = true) ∧ (∀ a, mustDrain s (.acccvt a) t = true) ∧ (∀ a, mustDrain s (.csrw a) t = true)) ∧
  (∀ s t, (s.thread t).pend ≠ [] → (∀ a, mustDrain s (.exit a) t = true) ∧
    (∀ a : MovsArgs, a.sr = .fsr → mustDrain s (.movsRead a) t = true)) ∧
  (∀ i b s t, IsWord i → Alone i b s t → MayIssue s i b.pc t → gatherMask i = none → (roomless s i b.core [t]).1 = [t] →
    exec i s = .next (heldAt b (match (roomless s i b.core [t]).2 with
      | some k => pmc s b.core k 1
      | none => s) t .room)) ∧
  (∀ s (a : LdstArgs) c t, freeEntry s c (s.privOf t) = none → inFlat (effAddr (envOf s t) a.base a.off) = false →
    roomless s (.ld a) c [t] = ([t], some 5) ∧ roomless s (.st a) c [t] = ([t], some 5)) ∧
  (∀ s a c t, 2048 ≤ copiesOf s c → roomless s (.cpRows a) c [t] = ([t], some 6)) ∧
  (∀ i m b s t, gatherMask i = some m → Issuing i b s → b.threads = [t] → (∀ x ∈ (s.groupOf t).gathers, x.pc ≠ b.pc) →
    (maskOf (s.groupOf t) m.toNat).m.getLsbD (s.thread t).lane = true →
    (∃ u, u ≠ t ∧ u ∈ lanesIn s (s.thread t).group (maskOf (s.groupOf t) m.toNat).m) →
    exec i s = .next (heldAt b (s.onGroup (s.thread t).group fun x => { x with
      gathers := x.gathers ++ [⟨b.pc, lanesIn s (s.thread t).group (maskOf (s.groupOf t) m.toNat).m, [t]⟩] }) t .gather))

/-- R112, R221: loads of the loft: a late result, the bytes at the offset in the loft of the core's die. -/
def Obligations.LoftLoads : Prop :=
  ∀ (a : LdstArgs) b s, Issuing (.ldLoft a) b s → s.isUnderstudy = false →
    let off := fun (e : Env) => (e.base1 a.base).toNat + a.off.toInt
    (∀ t ∈ activeIn (.ldLoft a) b s, 0 ≤ off (envOf s t) ∧ off (envOf s t) < 0x6000_0000 ∧
      (off (envOf s t)).toNat % (LT.bytes a.lt) = 0 ∧ loftPoisoned s (dieOf b.core) (off (envOf s t)).toNat (LT.bytes a.lt) = false) →
    ∃ s', exec (.ldLoft a) s = .next s' ∧ Awaits (.ldLoft a) false b s s' fun e =>
      .vec a.d (LT.value a.lt (Memory.readN s.loft (dieOf b.core * 2 ^ 31 + (off e).toNat) (LT.bytes a.lt)))

/-- R223: a prefetch is a hint: where no dirty line of a slice has to give way, it changes no register and no memory, it may
take the line into a cache (performance counter 7 counts a line that another L1 of the cluster holds).
R224: icflush holds its thread STALLED; ICFLUSH_COMPLETE takes the words of the range out of every instruction cache,
for the thread's context, and the thread goes on after the word; what happened before the flush is noted, so that later fetches of
the range are held to it. A range that is not aligned to its size traps. -/
def Obligations.PrefetchAndFlush : Prop :=
  (∀ (a : HintArgs) b s t, Sole (.prefetch a) b s t → ∃ s', exec (.prefetch a) s = .next s' ∧
    let s0 := afterIssue b s
    ((∀ d k, ∀ x ∈ (sliceOf s0 d k).lines, x.dirty = false) →
      s'.threads = s0.threads ∧ s'.groups = s0.groups ∧ s'.blocks = s0.blocks ∧ s'.hbm = s0.hbm ∧ s'.flats = s0.flats ∧
      s'.loft = s0.loft ∧ s'.host = s0.host ∧ s'.hist = s0.hist ∧ s'.clusters = s0.clusters ∧ s'.parts = s0.parts ∧
      { s'.pkg with hat := s0.pkg.hat } = s0.pkg ∧ ∀ n c, c < 256 → n ≠ RegNo.pmc 7 → sysGet s' n c = sysGet s0 n c)) ∧
  (∀ (a : HintArgs) b s t, Sole (.icflush a) b s t → let s0 := afterIssue b s
    let va := effAddr (envOf s0 t) a.base a.off
    (va % 2 ^ a.lv.toNat = 0 → exec (.icflush a) s = .next (stalledAt b s t (.icflush va a.lv.toNat))) ∧
    (va % 2 ^ a.lv.toNat ≠ 0 →
      exec (.icflush a) s = .next (trapsAt b s t .misaligned va 0))) ∧
  (∀ s t va n, s.threads.has t = true → (s.thread t).held = .stalled → (s.thread t).why = .icflush va n →
    ∃ s', exec (.icflushComplete t) s = .next s' ∧
      s'.thread t = { s.thread t with held := .ready, why := .none, pc := (s.thread t).pc + 8, readyAt := s.clk, passed := 0 } ∧
      (∀ u, u ≠ t → s'.thread u = s.thread u) ∧
      (∀ c x l, va ≤ x → x < va + 2 ^ n → viaWindows s (s.ctxOf t) true x ⟨false, false, false⟩ = .ok l →
        (s'.core c).icache.find? (icKey (s.ctxOf t) l) = none) ∧
      (∀ c k, (icLoc k).ctx ≠ s.ctxOf t ∨ covers s (s.ctxOf t) va (2 ^ n) (icLoc k) = false →
        (s'.core c).icache.find? k = (s.core c).icache.find? k) ∧
      Keeps s s' ∧ s'.hist.bytes = s.hist.bytes ∧ s'.hist.pubs = s.hist.pubs ∧
      ∃ f, s'.hist.flushes = f :: s.hist.flushes ∧ f.ctx = s.ctxOf t ∧ f.va = va ∧ f.size = 2 ^ n)

/-- R308, R118, R221, R222: a request that its slice begins in a physical window: a load brings the bytes that stand
there, a store puts its bytes there and nowhere else.
R308, R366, R369, R373: a request for an address whose line its slice does not hold leaves the slice's queue and is passed to
the translator; the translator fills the line through the leaf and performs a load that no store precedes with what the frame
holds; where no leaf stands and no fault queue is set, the access is denied and traps. -/
def Obligations.SliceAndTranslator : Prop :=
  (∀ s d k t r, AtSlice s d k t r → r.loc.phys = true → physPoisoned s r.loc.die r.loc.ia = false →
    (∀ lt p ds fl sfu pc iw, r.acc = .load lt p → (∀ x ∈ ds, x < 1024) → (s.thread t).pend.find? (fun x => x.id == p) =
        some ⟨p, ds, false, false, none, none, fl, sfu, pc, iw⟩ →
      ∃ s', exec (.l2SliceRequest d k) s = .next s' ∧
        (s'.thread t).v = (ds.zip (LT.value lt (Memory.readN s.hbm (hbmKey r.loc.die r.loc.ia) r.size))).foldl
          (fun v e => v.set e.1 e.2) (s.thread t).v ∧
        (s'.thread t).pend = (s.thread t).pend.filter (fun x => x.id != p) ∧
        (s'.thread t).out = (s.thread t).out.filter (fun x => x.seq != r.seq) ∧
        (s'.thread t).p = (s.thread t).p ∧ (s'.thread t).pc = (s.thread t).pc ∧
        (∀ u, u ≠ t → (s'.thread u).v = (s.thread u).v ∧ (s'.thread u).pc = (s.thread u).pc ∧ (s'.thread u).held = (s.thread u).held) ∧
        s'.hbm = s.hbm ∧ s'.flats = s.flats ∧ s'.loft = s.loft ∧ s'.host = s.host) ∧
    (∀ lt, r.acc = .store lt → ∃ s', exec (.l2SliceRequest d k) s = .next s' ∧
      (∀ a, Memory.read s'.hbm a =
        let b := (bytesOfWords r.ops).take r.size
        if hbmKey r.loc.die r.loc.ia ≤ a ∧ a < hbmKey r.loc.die r.loc.ia + b.length then
          b.getD (a - hbmKey r.loc.die r.loc.ia) 0 else Memory.read s.hbm a) ∧
      (s'.thread t).out = (s.thread t).out.filter (fun x => x.seq != r.seq) ∧
      (∀ u, (s'.thread u).v = (s.thread u).v ∧ (s'.thread u).p = (s.thread u).p ∧ (s'.thread u).pc = (s.thread u).pc ∧
        (s'.thread u).held = (s.thread u).held) ∧
      s'.flats = s.flats ∧ s'.loft = s.loft ∧ s'.host = s.host)) ∧
  (∀ s d k t r, AtSlice s d k t r → r.loc.phys = false → lineAt s r.loc = none → (∀ q n, r.acc ≠ .launch q n) →
    ∃ s', exec (.l2SliceRequest d k) s = .next s' ∧
      s'.threads = s.threads.modify t (fun th =>
        { th with out := th.out.map fun x => if x.seq == r.seq then { x with st := .miss } else x }) ∧
      sliceOf s' d k = { sliceOf s d k with queue := [] } ∧ (∀ e j, e ≠ d ∨ j ≠ k → sliceOf s' e j = sliceOf s e j) ∧
      { s' with threads := s.threads, dies := s.dies } = s) ∧
  (∀ s d k t r lt p ds fl sfu pc iw f pa,
    slicePool s d k .miss = [(t, r)] → (s.thread t).out.find? (fun x => x.seq == r.seq) = some r → runOf s t r = [(t, r)] → s.quiet →
    r.loc.phys = false → r.order = .none → r.write = false → (sliceOf s d k).lines = [] →
    ((s.die d).xlts.findD k .empty).cached = [] → heldBack s r.loc = none →
    leafOf s d r.loc.ia = some f → walk (some f) r.loc false false = .ok pa f → pa < hostFrames → physPoisoned s d pa = false →
    f.bit 61 = false → r.loc.ia % 128 + r.size ≤ 128 → pa % 128 = r.loc.ia % 128 → r.loc.die = d →
    (∀ i, i < r.size → s.hist.bytes.find? (histKey r.loc i) = none) → (∀ x ∈ ds, x < 1024) →
    r.acc = .load lt p → (s.thread t).pend.find? (fun x => x.id == p) = some ⟨p, ds, false, false, none, none, fl, sfu, pc, iw⟩ →
    ∃ s', exec (.translateRequest d k) s = .next s' ∧
      (s'.thread t).v = (ds.zip (LT.value lt (Memory.readN s.hbm (hbmKey d pa) r.size))).foldl (fun v e => v.set e.1 e.2) (s.thread t).v ∧
      (s'.thread t).out = (s.thread t).out.filter (fun x => x.seq != r.seq) ∧
      ((lineAt s' r.loc).map Line.data) = some (Memory.readN s.hbm (hbmKey d (pa / 128 * 128)) 128) ∧
      s'.hbm = s.hbm ∧ s'.flats = s.flats ∧ s'.loft = s.loft ∧ s'.host = s.host) ∧
  (∀ s d k t r lt p, slicePool s d k .miss = [(t, r)] → runOf s t r = [(t, r)] → r.loc.phys = false →
    ((s.die d).xlts.findD k .empty).cached = [] → leafOf s d r.loc.ia = none → r.loc.die = d →
    (sysGet s RegNo.faultQ (s.partOf t)) = 0 → (s.thread t).held = .ready → r.acc = .load lt p →
    ∃ (s1 : State) (w : Dword × Dword) (n : Nat), exec (.translateRequest d k) s = .next (takeTrap s1 t ⟨.pageFault, w.1, w.2, r.va, n, true⟩) ∧
      (s1.thread t).out = (s.thread t).out.map (fun x => if x.seq == r.seq then { x with st := .denied } else x) ∧
      (s1.thread t).v = (s.thread t).v ∧ (s1.thread t).pc = (s.thread t).pc)

/-- R225..R227: a port is bound by its descriptor, row indexes at 0, a descriptor that breaks its table traps; a load port is
closed and what was read ahead is dropped; the engine brings the next word of a load stream and takes the oldest word of a
store stream, at base + row · RSTR + lane · LSTR. -/
def Obligations.QueueStreams : Prop :=
  (∀ (a : QcfgArgs) b s t, Sole (.qcfg a) b s t → let s0 := afterIssue b s
    let g := (s0.thread t).group
    let w := fun i => ((s0.group g).k.findD (a.k.toNat + i) 0)
    let good := (w 0).toNat % 4 = 0 ∧ (w 2).toNat % 4 = 0 ∧ (w 3).toNat < 65536 ∧ (w 3).toNat % 4 = 0 ∧ (w 5).toNat < 4
    (s0.group g).qports.has a.port.toNat = false →
    (good → exec (.qcfg a) s = .next ((s0.onGroup g fun x => { x with
        qports := x.qports.set a.port.toNat ⟨w 1 ++ w 0, w 2, (w 3).setWidth 16, (w 4).toNat, (w 5).toNat⟩ }).onThreads (s0.groupThreads g)
      fun _ th => { th with
        rows := th.rows.set a.port.toNat 0, moved := th.moved.set a.port.toNat 0, ports := th.ports.erase a.port.toNat })) ∧
    (¬ good → exec (.qcfg a) s = .next (trapsAt b s t .qportUnbound 0 0))) ∧
  (∀ (a : QcloseArgs) b s t, Sole (.qclose a) b s t → let s0 := afterIssue b s
    let g := (s0.thread t).group
    ((s0.group g).qports.has a.port.toNat = false → exec (.qclose a) s = .next s0) ∧
    ((s0.group g).qports.has a.port.toNat = true → a.port.toNat < 4 → s0.threads.keys.Nodup → ∃ s', exec (.qclose a) s = .next s' ∧
      s'.group g = { s0.group g with qports := (s0.group g).qports.erase a.port.toNat } ∧
      ∀ u, s'.thread u = if s0.threads.has u = true ∧ (s0.thread u).group = g then (s0.thread u).rewindPort a.port.toNat else s0.thread u) ∧
    ((s0.group g).qports.has a.port.toNat = true → 4 ≤ a.port.toNat → accessesDone s0 t = true → s0.threads.keys.Nodup →
      (∀ u, (s0.thread u).ports.findD a.port.toNat [] = []) → ∃ s', exec (.qclose a) s = .next s' ∧
      s'.group g = { s0.group g with qports := (s0.group g).qports.erase a.port.toNat } ∧
      ∀ u, s'.thread u = if s0.threads.has u = true ∧ (s0.thread u).group = g then
        { s0.thread u with ports := (s0.thread u).ports.erase a.port.toNat } else s0.thread u)) ∧
  (∀ (s : State) (t p : Nat) (q : QBind) (row : Nat), p < 4 → s.threads.has t = true → (s.thread t).held ≠ .exited → (s.blockOf t).save = .resident →
    (s.groupOf t).qports.find? p = some q → row = (s.thread t).moved.findD p 0 → row < q.nrow → row < (s.thread t).rows.findD p 0 + 16 →
    let va := (q.base + BitVec.ofInt 64 (row * q.rstr.toInt + (s.thread t).lane * q.lstr.toInt)).toNat
    let s1 := s.onThread t fun th => { th with moved := th.moved.set p (row + 1) }
    -- the window registers as this read takes them (R363)
    let w := targetFor s1 t (s.ctxOf t) (s.coreOf t) (s.privOf t) va ⟨true, false, false⟩
    (∀ c, w.1 = .error c → exec (.queueStreamRead t p) s = .next (w.2.onThread t fun th => th.arrive p ⟨row, 0, some (c, va), 0, 0⟩)) ∧
    (∀ d k o, w.1 = .ok (.flat d k o) → flatPoisoned s d k o 4 = false →
      exec (.queueStreamRead t p) s = .next (w.2.onThread t fun th =>
        th.arrive p ⟨row, BitVec.ofNat 32 (natOfBytes (Memory.readN s.flats (bankKey d k o) 4)), none, 0, 0⟩)) ∧
    (∀ l, w.1 = .ok (.mem l) → exec (.queueStreamRead t p) s = .next { w.2.onThread t fun th => { th with
        out := th.out ++ [⟨w.2.ctr, .qload p, none, va, l, 4, true, false, .none, .blk, [BitVec.ofNat 32 row], .sent, false, none⟩] } with
      ctr := w.2.ctr + 1 })) ∧
  (∀ s t p q e rest, 4 ≤ p → s.threads.has t = true → (s.blockOf t).save = .resident → (s.groupOf t).qports.find? p = some q →
    (s.thread t).ports.findD p [] = e :: rest →
    let va := (q.base + BitVec.ofInt 64 (e.row * q.rstr.toInt + (s.thread t).lane * q.lstr.toInt)).toNat
    let w := targetFor (s.onThread t fun th => { th with ports := th.ports.set p rest }) t (s.ctxOf t) (s.coreOf t) (s.privOf t) va
      ⟨false, true, false⟩
    (∀ d k o, w.1 = .ok (.flat d k o) → ∃ s', exec (.queueStreamWrite t p) s = .next s' ∧
      (∀ a, Memory.read s'.flats a = if bankKey d k o ≤ a ∧ a < bankKey d k o + 4 then
        (bytesOfNat 4 e.word.toNat).getD (a - bankKey d k o) 0 else Memory.read s.flats a) ∧
      s'.threads = s.threads.modify t (fun th => { th with ports := th.ports.set p rest }) ∧
      s'.groups = s.groups ∧ s'.hbm = s.hbm ∧ s'.hist = s.hist) ∧
    (∀ l, w.1 = .ok (.mem l) → exec (.queueStreamWrite t p) s = .next { w.2.onThread t fun th => { th with
        out := th.out ++ [⟨w.2.ctr, .qstore p e.pc e.iw, none, va, l, 4, false, true, .none, .blk, [e.word], .sent, false, none⟩] } with
      ctr := w.2.ctr + 1 }))

/-- R132, R133, R232..R235: a copy joins the engine and its thread's unsealed batch, an empty one is none, a descriptor that
breaks its table traps; a seal numbers the batch; a wait for batches that are complete goes on with what they bring, and
otherwise holds the thread WAITING. -/
def Obligations.CopiesAndBatches : Prop :=
  let issues := fun (i : Instr) (red : Bool) (k : BitVec 8) => ∀ b s t, Sole i b s t → let s0 := afterIssue b s
    let d := (List.range 8).map fun n => (s0.groupOf t).k.findD (k.toNat + n) 0
    (rowsDescOk red d = false → exec i s = .next (trapsAt b s t .cpDesc 0 0)) ∧
    ((dwordAt d 0 % 4 ≠ 0 ∨ dwordAt d 2 % 4 ≠ 0 ∨ wordOf d 6 % 4 ≠ 0 ∨ wordOf d 7 % 4 ≠ 0) → rowsDescOk red d = false) ∧
    (rowsDescOk red d = true → (fieldOf d 4 23 0 = 0 ∨ fieldOf d 5 23 0 = 0) → exec i s = .next s0) ∧
    (rowsDescOk red d = true → fieldOf d 4 23 0 ≠ 0 → fieldOf d 5 23 0 ≠ 0 →
      exec i s = .next { s0 with
        ctr := s0.ctr + 1
        copies := s0.copies.set s0.ctr ⟨if red then .reduce else .rows, t, b.core, clusterOf b.core, s0.ctxOf t, s0.partOf t, d,
          unionN (s0.hist.own t) (s0.thread t).snap.need, none, .empty, none, false, .empty, [], [], 0⟩
        threads := s0.threads.modify t fun th => { th with unsealed := { th.unsealed with copies := th.unsealed.copies ++ [s0.ctr] } } })
  (∀ a, issues (.cpRows a) false a.k) ∧ (∀ a, issues (.cpReduce a) true a.k) ∧
  (∀ a b s, Issuing (.cpSeal a) b s → ∃ s', exec (.cpSeal a) s = .next s' ∧ Acts (.cpSeal a) b s s' (fun _ th => { th with
    v := th.v.set a.d.toNat (th.nextBatch.setWidth 32)
    batches := th.batches ++ [{ th.unsealed with num := th.nextBatch.toNat }]
    unsealed := ⟨0, [], none, false, 0, []⟩
    nextBatch := th.nextBatch + 1 }) fun _ g => g) ∧
  (∀ a b s t, Sole (.cpWait a) b s t → let s0 := afterIssue b s
    let n := match a.b with
      | .r r => bits ((envOf s0 t).base1 r).toNat 15 0
      | .imm x => x.toNat
    let cov := (s0.thread t).batches.filter fun x => decide ((n + 65536 - x.num) % 65536 < 32768)
    let met := 32768 ≤ (n + 65536 - (s0.thread t).nextBatch.toNat) % 65536 ∧ ∀ x ∈ cov, x.copies = []
    (met → (∀ x ∈ cov, x.fault = none) → ∃ s', exec (.cpWait a) s = .next s' ∧
      s'.thread t = { s0.thread t with
        snap := { (s0.thread t).snap with need := unionN (s0.thread t).snap.need (cov.flatMap Batch.stores) }
        batches := (s0.thread t).batches.filter fun x => !(cov.any fun y => y.num == x.num) } ∧
      (∀ g, s'.group g = { s0.group g with 
        fsr := (if g = (s0.thread t).group then cov.foldl (fun fl x => fl ||| x.flags) (s0.group g).fsr else (s0.group g).fsr) }) ∧
      { s' with threads := s0.threads, groups := s0.groups } = s0) ∧
    (¬ met → exec (.cpWait a) s = .next (waitingAt b s t (.cp n b.word))) ∧
    (met → ∀ x f, cov.find? (fun x => x.fault.isSome && !x.raised) = some x → x.fault = some f →
      ∃ s1, exec (.cpWait a) s = .next (takeTrap s1 t ⟨f.1, b.pc, b.word, f.2, 0, false⟩) ∧
        (s1.thread t).v = (s0.thread t).v ∧ (s1.thread t).pc = b.pc + 8))

/-- R237..R239: a pop takes the oldest entry of its queue, the end marker staying; an empty queue holds it WAITING; a push
enters its pair behind the others, a full queue holds it STALLED; a handle that names no registered queue traps. -/
def Obligations.CueQueues : Prop :=
  (∀ (a : CueArgs) b s t, Sole (.cuePop a) b s t → let s0 := afterIssue b s
    let p := s0.partOf t
    let h := ((envOf s0 t).base2 a.base).toNat
    ((s0.part p).cues.find? h = none → exec (.cuePop a) s = .next (trapsAt b s t .cueUnbound 0 0)) ∧
    (∀ q, (s0.part p).cues.find? h = some q → (∀ e ∈ (s0.part p).heldTraps, e.1 ≠ h) →
      (∀ e rest, q.entries = e :: rest → ∃ s', exec (.cuePop a) s = .next s' ∧
        s'.thread t = { s0.thread t with
          v := ((s0.thread t).v.set a.d.toNat (e.1.setWidth 32)).set (a.d.toNat + 1) ((e.1 >>> 32).setWidth 32)
          snap := (s'.thread t).snap } ∧
        (∀ u, u ≠ t → s'.thread u = { s0.thread u with snap := (s'.thread u).snap }) ∧
        s'.part p = { s0.part p with cues := (s'.part p).cues } ∧
        (∀ k, (s'.part p).cues.find? k = if k = h then
            some (if e.1 = 0xFFFF_FFFF_FFFF_FFFF then q else { q with entries := rest, head := (q.head + 1) % q.cap })
          else (s0.part p).cues.find? k) ∧
        (∀ n, n ≠ p → s'.part n = s0.part n) ∧
        { s' with threads := s0.threads, parts := s0.parts, ctr := s0.ctr } = s0) ∧
      (q.entries = [] → exec (.cuePop a) s = .next ((waitingAt b s t (.cue h a.d.toNat)).onPart p fun y =>
        { y with cues := y.cues.modify h fun q => { q with waiters := q.waiters ++ [t] } })))) ∧
  (∀ (a : CueArgs) b s t, Sole (.cuePush a) b s t → let s0 := afterIssue b s
    let p := s0.partOf t
    let h := ((envOf s0 t).base2 a.base).toNat
    ((s0.part p).cues.find? h = none → exec (.cuePush a) s = .next (trapsAt b s t .cueUnbound 0 0)) ∧
    (∀ q, (s0.part p).cues.find? h = some q → q.waiters = [] → ∃ s' l, exec (.cuePush a) s = .next s' ∧
        ((s'.part p).cues.find? h).map Cue.entries = some (q.entries ++ [((envOf s0 t).base2 (.v a.d), l)]) ∧
        (∀ k, k ≠ h → (s'.part p).cues.find? k = (s0.part p).cues.find? k) ∧
        s'.threads = s0.threads ∧ s'.groups = s0.groups ∧ s'.flats = s0.flats)) ∧
  (∀ (a : CueArgs) b s t q, Alone (.cuePush a) b s t → MayIssue s (.cuePush a) b.pc t → freeEntry s b.core (s.privOf t) ≠ none →
    (s.part (s.partOf t)).cues.find? ((envOf s t).base2 a.base).toNat = some q → q.cap ≤ q.entries.length →
    exec (.cuePush a) s = .next (heldAt b s t .room))

/-- R240, R242..R244: take writes the bank of an attached slot and waits for a detached one; stat writes the state word; share
attaches its bank read-only, here and at the cores it names, where their slots are free.
R140..R142, R241: a give holds its thread until its give point, or traps where the slot holds no bank; at the give point the
bank goes, writable, to the other core's slot, or the status says why it does not, and the thread goes on. -/
def Obligations.FlatSlots : Prop :=
  (∀ (a : SlotArgs) b s t, Sole (.flatTake a) b s t →
    (∀ k, slotBank s b.core a.s.toNat = some k → exec (.flatTake a) s = .next (wroteRegs b s t
      [(a.d.toNat, BitVec.ofNat 32 (k + if slotRo s b.core a.s.toNat then 256 else 0))])) ∧
    (slotBank s b.core a.s.toNat = none → exec (.flatTake a) s = .next (waitingAt b s t (.take a.s.toNat a.d.toNat)))) ∧
  (∀ (a : SlotArgs) b s t, Sole (.flatStat a) b s t → exec (.flatStat a) s = .next (wroteRegs b s t [(a.d.toNat,
    match slotBank s b.core a.s.toNat with
    | none => 0
    | some k => BitVec.ofNat 32 (k + 256 + if slotRo s b.core a.s.toNat then
        512 + 1024 * (((attachments s (dieOf b.core) k).length - 1) % 4) else 0))])) ∧
  (∀ (a : ShareArgs) b s t, Sole (.flatShare a) b s t → let s0 := afterIssue b s
    let cs := ((List.range 4).filter fun i => a.mask.getLsbD i && 4 * (b.core / 4) + i != b.core).map fun i => 4 * (b.core / 4) + i
    (slotBank s b.core a.s.toNat = none → exec (.flatShare a) s = .next (trapsAt b s t .flatDetached 0 0)) ∧
    (∀ k, slotBank s b.core a.s.toNat = some k →
      (slotRo s b.core a.s.toNat = true → exec (.flatShare a) s = .next (trapsAt b s t .flatReadonly 0 0)) ∧
      (slotRo s b.core a.s.toNat = false → copiesDone s0 t = false ∨ copiesOn s0 b.core k = true →
        exec (.flatShare a) s = .next (stalledAt b s t .drain)) ∧
      (slotRo s b.core a.s.toNat = false → copiesDone s0 t = true → copiesOn s0 b.core k = false → (∃ c ∈ cs, slotBank s c a.s2.toNat ≠ none) →
        exec (.flatShare a) s = .next (wroteRegs b s t [(a.d.toNat, 1)])) ∧
      (slotRo s b.core a.s.toNat = false → copiesDone s0 t = true → copiesOn s0 b.core k = false → (∀ c ∈ cs, slotBank s c a.s2.toNat = none) → b.core < 256 →
        (∀ u, (s0.thread u).ports = .empty) → (∀ u c d, (s0.thread u).why ≠ .take c d) →
        ∃ s', exec (.flatShare a) s = .next s' ∧ s'.threads = (wroteRegs b s t [(a.d.toNat, 0)]).threads ∧
          slotBank s' b.core a.s.toNat = some k ∧ slotRo s' b.core a.s.toNat = true ∧
          (∀ c ∈ cs, slotBank s' c a.s2.toNat = some k ∧ slotRo s' c a.s2.toNat = true) ∧
          (∀ c j, c < 256 → j < 8 → (c, j) ≠ (b.core, a.s.toNat) → (c ∉ cs ∨ j ≠ a.s2.toNat) →
            slotBank s' c j = slotBank s0 c j ∧ slotRo s' c j = slotRo s0 c j) ∧
          s'.flats = s0.flats ∧ s'.hbm = s0.hbm ∧ s'.groups = s0.groups))) ∧
  (∀ (a : GiveArgs) b s t, Sole (.flatGive a) b s t → let s0 := afterIssue b s
    let c2 := match a.core with
      | .imm x => x.toNat
      | .r r => bits ((envOf s0 t).base1 r).toNat 7 0
    (slotBank s b.core a.s.toNat = none → exec (.flatGive a) s = .next (trapsAt b s t .flatDetached 0 0)) ∧
    (slotBank s b.core a.s.toNat ≠ none → exec (.flatGive a) s = .next { stalledAt b s t
      (.give b.core s0.ctr a.s.toNat a.s2.toNat c2 a.d.toNat b.word) with ctr := s0.ctr + 1 })) ∧
  (∀ s t c n k k2 c2 d iw, s.threads.has t = true → (s.thread t).held = .stalled → (s.thread t).why = .give c n k k2 c2 d iw →
    s.threads.keys.Nodup → (∀ u, u ≠ t → (s.thread u).why = .none) → slotBank s c k = none →
    exec (.flatGivePoint t) s = .next (takeTrap s t ⟨.flatDetached, (s.thread t).pc, iw, 0, 0, false⟩)) ∧
  (∀ s t c n k k2 c2 d iw bank, s.threads.has t = true → c < 256 → c2 < 256 → k < 8 → k2 < 8 →
    (s.thread t).held = .stalled → (s.thread t).why = .give c n k k2 c2 d iw →
    s.threads.keys.Nodup → (∀ u, u ≠ t → (s.thread u).why = .none) → (∀ u, (s.thread u).ports = .empty) → slotBank s c k = some bank →
    (copiesDone s t = true ∧ copiesOn s c bank = false ∧ slotPassing s c k = false) ∨ giveRefused s c k c2 k2 ≠ none →
    ∃ s', exec (.flatGivePoint t) s = .next s' ∧ s'.flats = s.flats ∧ s'.groups = s.groups ∧
      (∀ u, u ≠ t → s'.thread u = s.thread u) ∧
      (∃ st : Word, s'.thread t = { s.thread t with
          v := (s.thread t).v.set d st, held := .ready, why := .none, pc := (s.thread t).pc + 8, readyAt := s.clk, passed := 0 } ∧
        (dieOf c2 ≠ dieOf c ∨ s.corePart c2 ≠ s.corePart c → st = 2 ∧ s'.sys = s.sys) ∧
        (dieOf c2 = dieOf c → s.corePart c2 = s.corePart c → slotRo s c k = true → 1 < (attachments s (dieOf c) bank).length →
          st = 4 ∧ slotBank s' c k = none) ∧
        (dieOf c2 = dieOf c → s.corePart c2 = s.corePart c → slotRo s c k = false ∨ (attachments s (dieOf c) bank).length ≤ 1 →
          (slotBank s c2 k2 ≠ none → st = 1 ∧ s'.sys = s.sys) ∧
          (slotBank s c2 k2 = none → st = 0 ∧ slotBank s' c k = none ∧ slotBank s' c2 k2 = some bank ∧ slotRo s' c2 k2 = false))))

/-- R245: an arrival at a block barrier counts and waits; the one that completes the phase lets every waiter go on, and
arrivals return to 0.
R43, R44, R249: join enters the lanes of its active threads in M; leave takes them out of M and A; mset sets M and mget
reads it; other mask registers stand. -/
def Obligations.BarriersAndMasks : Prop :=
  (∀ (a : BarBlkArgs) b s t, Sole (.barBlk a) b s t → let s0 := afterIssue b s
    let k := s0.blockIdOf t
    let y := (s0.block k).bars.findD a.id.toNat ⟨0, 0⟩
    s0.blocks.has k = true → t ∈ (s0.block k).threads → (s0.block k).threads.Nodup → a.count.toNat ≠ 0 →
    (y.arrivals + 1 < a.count.toNat → exec (.barBlk a) s = .next ((waitingAt b s t (.barBlk a.id.toNat)).onBlock k fun x =>
      { x with bars := x.bars.update a.id.toNat ⟨0, 0⟩ fun y => ⟨y.arrivals + 1, a.count.toNat⟩ })) ∧
    (a.count.toNat ≤ y.arrivals + 1 → ∃ s', exec (.barBlk a) s = .next s' ∧
      ((s'.block k).bars.findD a.id.toNat ⟨0, 0⟩).arrivals = 0 ∧
      (s'.thread t).held = .ready ∧ (s'.thread t).pc = b.pc + 8 ∧
      (∀ u ∈ (s0.block k).threads, (s0.thread u).why = .barBlk a.id.toNat → s0.threads.has u = true → u ≠ t →
        (s'.thread u).held = .ready ∧ (s'.thread u).why = .none ∧ (s'.thread u).pc = (s0.thread u).pc + 8) ∧
      (∀ u, (s'.thread u).v = (s0.thread u).v ∧ (s'.thread u).p = (s0.thread u).p) ∧
      s'.groups = s0.groups ∧ s'.hbm = s0.hbm ∧ s'.flats = s0.flats ∧ s'.sys = s0.sys)) ∧
  (let one := fun (b : Bundle) (s : State) (t : Nat) => (1#32 <<< ((afterIssue b s).thread t).lane)
  (∀ (a : MaskArgs) b s t, Sole (.join a) b s t → let s0 := afterIssue b s
    let x := maskOf (s0.groupOf t) a.n.toNat
    exec (.join a) s = .next (s0.onGroup (s0.thread t).group fun y => { y with
      m := y.m.set a.n.toNat ⟨x.m ||| one b s t, x.a⟩ })) ∧
  (∀ (a : MaskArgs) b s t, Sole (.leave a) b s t → let s0 := afterIssue b s
    let x := maskOf (s0.groupOf t) a.n.toNat
    (x.a &&& ~~~(one b s t) = 0 ∨ (x.m &&& ~~~x.a) &&& ~~~(one b s t) ≠ 0) →
    exec (.leave a) s = .next (s0.onGroup (s0.thread t).group fun y => { y with
      m := y.m.set a.n.toNat ⟨x.m &&& ~~~(one b s t), x.a &&& ~~~(one b s t)⟩ })) ∧
  (∀ (a : MaskKArgs) b s t, Sole (.mset a) b s t → let s0 := afterIssue b s
    let x := maskOf (s0.groupOf t) a.n.toNat
    x.a = 0 → ∃ m, exec (.mset a) s = .next (s0.onGroup (s0.thread t).group fun y => { y with m := y.m.set a.n.toNat ⟨m, 0⟩ }) ∧
      ∀ l, l < 32 → m.getLsbD l = (((s0.groupOf t).k.findD a.k.toNat 0).getLsbD l &&
        (s0.live (s0.thread t).group).any fun u => (s0.thread u).lane == l)) ∧
  (∀ (a : MaskKArgs) b s t, Sole (.mget a) b s t → let s0 := afterIssue b s
    exec (.mget a) s = .next (s0.onGroup (s0.thread t).group fun y => { y with
      k := y.k.set a.k.toNat (maskOf (s0.groupOf t) a.n.toNat).m })) ∧
  (∀ (a : MaskArgs) b s t, Sole (.wait a) b s t → let s0 := afterIssue b s
    let x := maskOf (s0.groupOf t) a.n.toNat
    (s0.thread t).lane < 32 →
    (x.m.getLsbD (s0.thread t).lane = false → x.a = 0 → exec (.wait a) s = .next (s0.onGroup (s0.thread t).group fun y =>
      { y with m := y.m.set a.n.toNat x })) ∧
    (x.m.getLsbD (s0.thread t).lane = true → x.m &&& ~~~(x.a ||| one b s t) ≠ 0 →
      exec (.wait a) s = .next ((waitingAt b s t (.mask a.n.toNat)).onGroup (s0.thread t).group fun y =>
        { y with m := y.m.set a.n.toNat ⟨x.m, x.a ||| one b s t⟩ })) ∧
    (x.m.getLsbD (s0.thread t).lane = true → x.m &&& ~~~(x.a ||| one b s t) = 0 → s0.threads.keys.Nodup →
      ∃ s', exec (.wait a) s = .next s' ∧ (maskOf (s'.groupOf t) a.n.toNat) = ⟨x.m, 0⟩ ∧
        (s'.thread t).held = .ready ∧ (s'.thread t).pc = b.pc + 8 ∧
        (∀ u, s0.threads.has u = true → u ≠ t → (s0.thread u).group = (s0.thread t).group → (s0.thread u).why = .mask a.n.toNat →
          x.a.getLsbD (s0.thread u).lane = true →
          (s'.thread u).held = .ready ∧ (s'.thread u).pc = (s0.thread u).pc + 8) ∧
        (∀ u, (s'.thread u).v = (s0.thread u).v ∧ (s'.thread u).p = (s0.thread u).p) ∧ s'.hbm = s0.hbm ∧ s'.flats = s0.flats)) ∧
  (∀ (a : MaskArgs) b s t, Alone (.wait a) b s t → (maskOf (s.groupOf t) a.n.toNat).m.getLsbD (s.thread t).lane = true →
    pendingHazard s t (usesOf (.wait a)) (guardOf (.wait a)) true = false → replayHold s t (.wait a) = none → canArrive s t = false →
    exec (.wait a) s = .next (heldAt b s t .drain)))

/-- R259..R261: a signature counts at its convergence register, opening an idle one; the signature that completes a posted pass
makes it eligible; cvwait goes on at an idle register and is held STALLED at any other. -/
def Obligations.ConvergenceRegisters : Prop :=
  (∀ (a : MaskArgs) b s t, Sole (.sign a) b s t → let s0 := afterIssue b s
    let k := (s0.groupOf t).block
    let x := cvOf s0 k a.n.toNat
    s0.blocks.has k = true → x.signed + 1 < 32768 →
    (x.state ≠ .posted → ∃ s', exec (.sign a) s = .next s' ∧ s'.threads = s0.threads ∧ s'.groups = s0.groups ∧
      (cvOf s' k a.n.toNat) = { x with
        signed := x.signed + 1, state := if x.state = .idle then .opened else x.state
        stores := (cvOf s' k a.n.toNat).stores } ∧
      (∀ n, n ≠ a.n.toNat → cvOf s' k n = cvOf s0 k n) ∧ s'.clusters = s0.clusters ∧ s'.hbm = s0.hbm ∧ s'.flats = s0.flats) ∧
    (∀ e y, x.state = .posted → x.need ≠ 0 → x.need ≤ x.signed + 1 → x.entry = some e →
      (s0.cluster (blockCluster s0 k)).table.find? e = some y → ∃ s', exec (.sign a) s = .next s' ∧
      (cvOf s' k a.n.toNat).state = .eligible ∧ (cvOf s' k a.n.toNat).signed = x.signed + 1 - x.need ∧
      (s'.cluster (blockCluster s0 k)).table.find? e = some { y with eligibleAt := s0.clk, asOf := s0.flats } ∧
      s'.threads = s0.threads ∧ s'.groups = s0.groups ∧ s'.hbm = s0.hbm ∧ s'.flats = s0.flats)) ∧
  (∀ (a : MaskArgs) b s t, Sole (.cvwait a) b s t → let s0 := afterIssue b s
    let x := cvOf s0 (s0.groupOf t).block a.n.toNat
    (x.state = .idle → ∃ s', exec (.cvwait a) s = .next s' ∧
      s'.thread t = { s0.thread t with snap := (s'.thread t).snap } ∧
      (s'.thread t).snap.need = unionN (s0.thread t).snap.need x.stores ∧
      (∀ u, u ≠ t → s'.thread u = { s0.thread u with snap := (s'.thread u).snap }) ∧
      { s' with threads := s0.threads, ctr := s0.ctr } = s0) ∧
    (x.state ≠ .idle → exec (.cvwait a) s = .next (stalledAt b s t (.cv a.n.toNat x.phase.toNat))))

/-- R250..R252, R255: branches, calls and returns set the PC alone (a call also its link pair); a register target that is not a
multiple of 8 traps; nop and yield do nothing else than issue. -/
def Obligations.ControlTransfer : Prop :=
  (∀ a b s, Issuing (.bra a) b s → ∃ s', exec (.bra a) s = .next s' ∧
    Acts (.bra a) b s s' (fun _ th => { th with pc := b.pc + 8 * a.disp.signExtend 64 }) fun _ g => g) ∧
  (∀ a b s, Issuing (.call a) b s → ∃ s', exec (.call a) s = .next s' ∧
    Acts (.call a) b s s' (fun _ th => { th with
      pc := b.pc + 8 * a.disp.signExtend 64
      v := (th.v.set a.d.toNat ((b.pc + 8).setWidth 32)).set (a.d.toNat + 1) (((b.pc + 8) >>> 32).setWidth 32) }) fun _ g => g) ∧
  (∀ a b s, Issuing (.nop a) b s → ∃ s', exec (.nop a) s = .next s' ∧ Acts (.nop a) b s s' (fun _ th => th) fun _ g => g) ∧
  (∀ a b s, Issuing (.yield a) b s → ∃ s', exec (.yield a) s = .next s' ∧ Acts (.yield a) b s s' (fun _ th => th) fun _ g => g) ∧
  (∀ a b s, Issuing (.brx a) b s → (∀ t ∈ activeIn (.brx a) b s, ((envOf s t).base2 a.a).toNat % 8 = 0) →
    ∃ s', exec (.brx a) s = .next s' ∧
      Acts (.brx a) b s s' (fun t th => { th with pc := (envOf s t).base2 a.a }) fun _ g => g) ∧
  (∀ a b s, Issuing (.ret a) b s → (∀ t ∈ activeIn (.ret a) b s, ((envOf s t).base2 a.a).toNat % 8 = 0) →
    ∃ s', exec (.ret a) s = .next s' ∧
      Acts (.ret a) b s s' (fun t th => { th with pc := (envOf s t).base2 a.a }) fun _ g => g) ∧
  (∀ a b s t, Sole (.brx a) b s t → ((envOf s t).base2 a.a).toNat % 8 ≠ 0 →
    exec (.brx a) s = .next (trapsAt b s t .misaligned ((envOf s t).base2 a.a).toNat 0)) ∧
  (∀ a b s t, Sole (.ret a) b s t → ((envOf s t).base2 a.a).toNat % 8 ≠ 0 →
    exec (.ret a) s = .next (trapsAt b s t .misaligned ((envOf s t).base2 a.a).toNat 0))

/-- R45, R251, R253: exit: the thread is EXITED, its bits leave M and A of every mask register, no register is written; a thread
that awaits a result is held STALLED first. suspend takes a pending signal and goes on, or waits for one; signal lets the
suspended threads of the block it names go on, or stands pending. -/
def Obligations.ExitSuspendSignal : Prop :=
  (∀ a b s t, Sole (.exit a) b s t → let s0 := afterIssue b s
    (∃ s', exec (.exit a) s = .next s' ∧ (s'.thread t).held = .exited ∧
      (∀ n, (maskOf (s'.groupOf t) n).m.getLsbD (s0.thread t).lane = false ∧ (maskOf (s'.groupOf t) n).a.getLsbD (s0.thread t).lane = false) ∧
      (∀ u, (s'.thread u).v = (s0.thread u).v ∧ (s'.thread u).p = (s0.thread u).p) ∧
      (∀ g, (s'.group g).k = (s0.group g).k ∧ (s'.group g).fsr = (s0.group g).fsr) ∧
      s'.hbm = s0.hbm ∧ s'.flats = s0.flats ∧ s'.loft = s0.loft ∧ s'.host = s0.host ∧ s'.sys = s0.sys)) ∧
  (∀ a b s t, Alone (.exit a) b s t → pendingHazard s t (usesOf (.exit a)) (guardOf (.exit a)) true = false →
    replayHold s t (.exit a) = none → (s.thread t).pend ≠ [] → exec (.exit a) s = .next (heldAt b s t .drain)) ∧
  (∀ a b s t, Sole (.suspend a) b s t → let s0 := afterIssue b s
    let k := s0.blockIdOf t
    ((s0.block k).signal = false → exec (.suspend a) s = .next (waitingAt b s t .suspend)) ∧
    ((s0.block k).signal = true → ∃ s', exec (.suspend a) s = .next s' ∧ s'.block k = { s0.block k with signal := false } ∧
      s'.thread t = { s0.thread t with snap := (s'.thread t).snap } ∧
      (∀ u, u ≠ t → s'.thread u = { s0.thread u with snap := (s'.thread u).snap }) ∧
      { s' with threads := s0.threads, blocks := s0.blocks, ctr := s0.ctr } = s0)) ∧
  (∀ (a : SignalArgs) b s t k y, Sole (.signal a) b s t → let s0 := afterIssue b s
    let l := s0.launchOf t
    let n := ((envOf s0 t).base1 a.a).toNat
    a.stage.toNat < l.pkt.stages → n < l.pkt.gx * l.pkt.gy * l.pkt.gz → s0.blocks.find? k = some y →
    (s0.blocks.items.find? fun e => e.2.launch == s0.launchIdOf t && e.2.lin == n && e.2.stage == a.stage.toNat) = some (k, y) →
    s0.blockLive k ≠ [] → y.threads.Nodup → ∃ s', exec (.signal a) s = .next s' ∧
      ((∀ u ∈ y.threads, (s0.thread u).why ≠ .suspend) → s'.block k = { y with signal := true } ∧ s'.threads = s0.threads) ∧
      (∀ u ∈ y.threads, s0.threads.has u = true → (s0.thread u).why = .suspend →
        (s'.thread u).held = .ready ∧ (s'.thread u).pc = (s0.thread u).pc + 8 ∧ (s'.thread u).v = (s0.thread u).v) ∧
      s'.groups = s0.groups ∧ s'.hbm = s0.hbm ∧ s'.flats = s0.flats ∧ s'.sys = s0.sys)

/-- R257..R266: wlatch stages its descriptor on a convergence register and opens an idle one; mmpost posts a pass there, eligible
at once where its signatures stand; a descriptor that breaks its table traps MX_DESC, a register with a pass under way
MX_STATE; no tile and no register of a thread changes. -/
def Obligations.MatrixPosting : Prop :=
  let same := fun (s0 s' : State) => s'.threads = s0.threads ∧ s'.groups = s0.groups ∧ s'.hbm = s0.hbm ∧ s'.flats = s0.flats ∧
    s'.loft = s0.loft ∧ ∀ c, (s'.cluster c).tiles = (s0.cluster c).tiles ∧ (s'.cluster c).wb0 = (s0.cluster c).wb0 ∧
      (s'.cluster c).wb1 = (s0.cluster c).wb1
  let desc := fun (s0 : State) (t : Nat) (k : BitVec 8) => (List.range 16).map fun n => (s0.groupOf t).k.findD (k.toNat + n) 0
  let entry := fun (s0 : State) (k n e : Nat) => ((s0.cluster (blockCluster s0 k)).table.find? e).getD
    ⟨k, n, (s0.launch (s0.block k).launch).ctx, none, none, 0, 0, 0, []⟩
  (∀ (a : WlatchArgs) b s t, Sole (.wlatch a) b s t → let s0 := afterIssue b s
    let k := (s0.groupOf t).block
    let x := cvOf s0 k a.n.toNat
    let d := desc s0 t a.k
    (latchOk d a.mv = false → exec (.wlatch a) s = .next (trapsAt b s t .mxDesc 0 0)) ∧
    (latchOk d a.mv = true → latchLoftOk (latchDesc d a.mv) (clusterOf b.core) = true → s0.isUnderstudy = false →
      ((x.state = .posted ∨ x.state = .eligible ∨ x.state = .granted) ∨ (stagedOn s0 k a.n.toNat).isSome = true →
        exec (.wlatch a) s = .next (trapsAt b s t .mxState 0 0)) ∧
      ((x.state = .idle ∨ x.state = .opened) → stagedOn s0 k a.n.toNat = none → s0.blocks.has k = true →
        (∀ e, entryFor s0 k a.n.toNat = some e → ∃ s', exec (.wlatch a) s = .next s' ∧ same s0 s' ∧
          cvOf s' k a.n.toNat = { x with entry := some e, state := .opened } ∧
          (s'.cluster (blockCluster s0 k)).table.find? e = some { entry s0 k a.n.toNat e with latch := some ⟨d, a.mv, t, b.core⟩ })))) ∧
  (∀ (a : WlatchArgs) b s t, Alone (.wlatch a) b s t → MayIssue s (.wlatch a) b.pc t → entryFor s (s.blockIdOf t) a.n.toNat = none →
    exec (.wlatch a) s = .next (heldAt b s t .room)) ∧
  (∀ (a : MmpostArgs) b s t, Alone (.mmpost a) b s t → MayIssue s (.mmpost a) b.pc t → entryFor s (s.blockIdOf t) a.n.toNat = none →
    exec (.mmpost a) s = .next (heldAt b s t .room)) ∧
  (∀ (a : MmpostArgs) b s t, Sole (.mmpost a) b s t → let s0 := afterIssue b s
    let k := (s0.groupOf t).block
    let x := cvOf s0 k a.n.toNat
    let d := desc s0 t a.k
    let ok := passOk d a.mv a.full2 a.ta a.tb (stagedOn s0 k a.n.toNat).isSome
    (ok = false → exec (.mmpost a) s = .next (trapsAt b s t .mxDesc 0 0)) ∧
    (ok = true → (x.state = .posted ∨ x.state = .eligible ∨ x.state = .granted) →
      exec (.mmpost a) s = .next (trapsAt b s t .mxState 0 0)) ∧
    (ok = true → (x.state = .idle ∨ x.state = .opened) → s0.blocks.has k = true →
      (∀ l, stagedOn s0 k a.n.toNat = some l → latchExtentOk (latchDesc l.words l.mv) a.tb (clusterOf b.core) = true) →
      ∀ e, entryFor s0 k a.n.toNat = some e → ∃ s', exec (.mmpost a) s = .next s' ∧ same s0 s' ∧
        let need := if a.count = 0 then (s0.blockLive k).length else a.count.toNat
        let met := need ≤ x.signed
        cvOf s' k a.n.toNat = { x with
          entry := some e, need := a.count.toNat, state := if met then .eligible else .posted
          signed := if met then x.signed - need else x.signed } ∧
        (s'.cluster (blockCluster s0 k)).table.find? e = some { entry s0 k a.n.toNat e with
          post := some ⟨d, a.mv, a.full2, a.ta, a.tb, a.acc, t, b.core⟩, pri := (passDesc d).pri, passed := 0
          eligibleAt := if met then s0.clk else (entry s0 k a.n.toNat e).eligibleAt
          asOf := if met then s0.flats else (entry s0 k a.n.toNat e).asOf }))

/-- R271..R279: accclr zeroes a tile and its status; accstat reads the status, and clears it where asked; mxstat reads a
convergence register, a weight buffer or the engine; a read-out issues a copy of the tile as it stands in the tile's order. -/
def Obligations.TileWords : Prop :=
  (∀ (a : TileArgs) b s t, Sole (.accclr a) b s t → ((afterIssue b s).cluster (clusterOf b.core)).granted = [] →
    exec (.accclr a) s = .next ((afterIssue b s).onCluster (clusterOf b.core) fun k =>
      { k with tiles := k.tiles.set a.t.toNat ⟨.empty, .empty, 0, []⟩ })) ∧
  (∀ (a : AccstatArgs) b s t, Sole (.accstat a) b s t → let s0 := afterIssue b s
    let k := s0.cluster (clusterOf b.core)
    let x := k.tiles.findD a.t.toNat ⟨.empty, .empty, 0, []⟩
    k.granted = [] → ∃ s', exec (.accstat a) s = .next s' ∧
      s'.threads = (wroteRegs b s t [(a.d.toNat, x.status.setWidth 32)]).threads ∧
      (s'.cluster (clusterOf b.core)).tiles.findD a.t.toNat ⟨.empty, .empty, 0, []⟩ = (if a.clr then { x with status := 0 } else x) ∧
      { s' with threads := s0.threads, clusters := s0.clusters } = s0) ∧
  (∀ (a : AccstatArgs) b s t r, Sole (.accstat a) b s t → let s0 := afterIssue b s
    (s0.cluster (clusterOf b.core)).granted = [r] → r.tile = a.t.toNat → a.clr = false →
    exec (.accstat a) s = .next (stalledAt b s t (.tile (clusterOf b.core) r.entry a.d.toNat (r.tileAfter.status.setWidth 32)))) ∧
  (∀ (a : MxstatArgs) b s t, Sole (.mxstat a) b s t → let s0 := afterIssue b s
    let k := s0.cluster (clusterOf b.core)
    let x := cvOf s0 (s0.blockIdOf t) a.idx.toNat
    let w := if a.idx = 0 then k.wb0 else k.wb1
    (a.sel = .cv → exec (.mxstat a) s = .next (wroteRegs b s t [(a.d.toNat, BitVec.ofNat 32
      (x.phase.toNat * 2 ^ 24 + x.code * 2 ^ 20 + CvState.code x.state * 2 ^ 17 + x.signed))])) ∧
    (a.sel = .wb → a.idx.toNat < 2 → exec (.mxstat a) s = .next (wroteRegs b s t [(a.d.toNat, BitVec.ofNat 32
      ((if w.valid then 2 ^ 31 else 0) + (if w.var.isSome then 2 ^ 30 else 0) + w.kw * 2 ^ 20 + w.nw * 2 ^ 11 +
        (if w.vfmt = 0x16 then 2 ^ 10 else 0) + w.fmt.toNat))])) ∧
    (a.sel = .eng → a.idx = 0 → k.running = none → exec (.mxstat a) s = .next (wroteRegs b s t [(a.d.toNat, BitVec.ofNat 32
      (k.table.size * 2 ^ 26 + (k.table.items.filter fun e => (cvOf s0 e.2.block e.2.cv).state == .eligible).length * 2 ^ 20))])) ∧
    ((a.sel = .wb ∧ 2 ≤ a.idx.toNat ∨ a.sel = .eng ∧ a.idx ≠ 0) → exec (.mxstat a) s = .next (trapsAt b s t .mxDesc 0 0))) ∧
  (let reads := fun (i : Instr) (kind : CopyKind) (ok : List Word → Bool) (k : BitVec 8) => ∀ b s t, Sole i b s t →
    let s0 := afterIssue b s
    let d := (List.range 16).map fun n => (s0.groupOf t).k.findD (k.toNat + n) 0
    (ok d = false → exec i s = .next (trapsAt b s t .cpDesc 0 0)) ∧
    (ok d = true → exec i s = .next { s0 with
        ctr := s0.ctr + 1
        copies := s0.copies.set s0.ctr ⟨kind, t, b.core, clusterOf b.core, s0.ctxOf t, s0.partOf t, d,
          unionN (s0.hist.own t) (s0.thread t).snap.need, some (tileNow s0 (clusterOf b.core) (fieldOf d 4 31 24)), .empty, none, false,
          .empty, [], [], 0⟩
        threads := s0.threads.modify t fun th => { th with unsealed := { th.unsealed with copies := th.unsealed.copies ++ [s0.ctr] } } })
  (∀ a, reads (.accrd a) .accrd accrdOk a.k) ∧ (∀ a, reads (.acccvt a) .acccvt acccvtOk a.k))

/-- R261, R267, R268, R270: the arbiter grants the one eligible entry to a free engine; the pass ends with its tile and buffers,
its register idle or open, the phase one on, and the threads that wait for it go on. A pass changes its M × N elements alone; it
ends with code 1 where its buffer is not valid, 2 where the buffer is too small, and 4 where it adds to a poisoned element. -/
def Obligations.MatrixPasses : Prop :=
  (∀ s c i e p, (s.cluster c).next = none → grantable s c = [(i, e)] → e.post = some p → s.blocks.has e.block = true →
    (passOf s c e p).err = none → ∃ s', exec (.arbiterGrant c) s = .next s' ∧
      (cvOf s' e.block e.cv) = { cvOf s e.block e.cv with state := .granted } ∧
      (∀ r : Running, r = ⟨i, e.block, e.cv, (passDesc p.words).tile, (passOf s c e p).code, (passOf s c e p).tile,
          (passOf s c e p).wb0, (passOf s c e p).wb1, (passOf s c e p).slots⟩ →
        ((s.cluster c).running = none → s'.cluster c = { s.cluster c with running := some r }) ∧
        (∀ q, (s.cluster c).running = some q → s'.cluster c = { s.cluster c with next := some r })) ∧
      s'.threads = s.threads ∧ s'.groups = s.groups ∧ s'.flats = s.flats ∧ s'.hbm = s.hbm) ∧
  (∀ s c r, (s.cluster c).running = some r → s.blocks.has r.block = true → (∀ t, (s.thread t).why = .none) →
    ∃ s', exec (.passComplete c) s = .next s' ∧
      s'.cluster c = { s.cluster c with
        running := (s.cluster c).next, next := none, table := (s.cluster c).table.erase r.entry, tiles := (s.cluster c).tiles.set r.tile r.tileAfter
        wb0 := r.wb0, wb1 := r.wb1 } ∧
      (cvOf s' r.block r.cv) = { cvOf s r.block r.cv with
        phase := (cvOf s r.block r.cv).phase + 1, code := r.code, entry := none
        state := if 0 < (cvOf s r.block r.cv).signed then .opened else .idle } ∧
      s'.threads = s.threads ∧ s'.groups = s.groups ∧ s'.flats = s.flats ∧ s'.hbm = s.hbm) ∧
  (∀ s c r t ph, (s.cluster c).running = some r → s.blocks.has r.block = true → t ∈ (s.block r.block).threads →
    (s.block r.block).threads.Nodup → s.threads.has t = true →
    (s.thread t).held = .stalled → (s.thread t).why = .cv r.cv ph →
    ∃ s', exec (.passComplete c) s = .next s' ∧ (s'.thread t).held = .ready ∧ (s'.thread t).why = .none ∧
      (s'.thread t).pc = (s.thread t).pc + 8 ∧ (s'.thread t).v = (s.thread t).v) ∧
  (∀ rd d mv full2 ta acc wb t i, d.n ≤ 256 → ¬(i / 256 < d.m ∧ i % 256 < d.n) →
    (passTile rd d mv full2 ta acc wb t).mean.findD i 0 = t.mean.findD i 0 ∧
    (passTile rd d mv full2 ta acc wb t).var.findD i 0 = t.var.findD i 0) ∧
  (∀ s c e p, e.latch = none → let d := passDesc p.words
    slotsOf s p.core (passSources d) ≠ none → slotsOf s p.core (passRanges d p.ta) ≠ none →
    d.m ≠ 0 → d.n ≠ 0 → d.k ≠ 0 → let w := if d.wb = 0 then (buffersNow s c).1 else (buffersNow s c).2
    (w.valid = false → (passOf s c e p).code = 1) ∧
    (w.valid = true → (w.kw < d.k ∨ w.nw < d.n) → (passOf s c e p).code = 2) ∧
    ((w.valid = false ∨ w.kw < d.k ∨ w.nw < d.n) → (passOf s c e p).tile = tileNow s c d.tile) ∧
    (w.valid = true → d.k ≤ w.kw → d.n ≤ w.nw → p.acc = true → (∃ x ∈ (tileNow s c d.tile).poison, x / 256 < d.m ∧ x % 256 < d.n) →
      (passOf s c e p).code = 4 ∧ (passOf s c e p).tile = tileNow s c d.tile))

/-- R255, R316..R319, R331: TAKING A TRAP: trap and brk enter the kernel's handler where it declares one; otherwise trap puts
its thread behind TC with the PC at the word and pushes handle and cause onto the trap queue, or ends the context where none
is registered, and brk of a U thread drops the debug curtain. -/
def Obligations.TrapsTaken : Prop :=
  let entered := fun (b : Bundle) (s0 : State) (t : Nat) (h : Dword) (c : Byte) => s0.onThread t fun th =>
    { th with pc := h, held := .ready, why := .none, readyAt := s0.clk, trapPc := b.pc, cause := c }
  (∀ (a : CodeArgs) b s t, Sole (.trap a) b s t → let s0 := afterIssue b s
    let pkt := (s0.launchOf t).pkt
    (s0.thread t).pend = [] →
    (pkt.htrap ≠ 0 → pkt.trapBase = 0 → exec (.trap a) s = .next (entered b s0 t pkt.htrap 0x20)) ∧
    (pkt.htrap = 0 → sysGet s0 RegNo.trapArea (s0.partOf t) = 0 → (s0.part (s0.partOf t)).tableau.armed = false →
      let c := if s0.privOf t then (s0.runtime (s0.partOf t)).getD (s0.ctxOf t) else s0.ctxOf t
      (∀ h q, trapQueue s0 (s0.partOf t) c = some h → (s0.part (s0.partOf t)).cues.find? h = some q → q.waiters = [] →
        q.entries.length < q.cap → ∃ s' l, exec (.trap a) s = .next s' ∧
        s'.thread t = { s0.thread t with
          held := .ready, why := .none, pc := b.pc, readyAt := s0.clk, trapPc := b.pc, tc := true, cause := 0x20 } ∧
        (∀ u, u ≠ t → s'.thread u = s0.thread u) ∧ s'.groups = s0.groups ∧ s'.flats = s0.flats ∧
        ((s'.part (s0.partOf t)).cues.find? h).map Cue.entries =
          some (q.entries ++ [(BitVec.ofNat 64 ((s0.handle t).toNat + 0x20 * 2 ^ 32), l)])) ∧
      (trapQueue s0 (s0.partOf t) c = none → s0.privOf t = false → ∃ s', exec (.trap a) s = .next s' ∧
        (∀ u ∈ s0.ctxThreads c, (s'.thread u).held = .exited ∧ (s'.thread u).v = (s0.thread u).v) ∧
        (∀ u, u ∉ s0.ctxThreads c → s'.thread u = s0.thread u) ∧
        ((s0.copies.filter fun _ cp => (s0.ctxThreads c).contains cp.tid) = .empty → s'.hbm = s0.hbm ∧ s'.flats = s0.flats)))) ∧
  (∀ (a : CodeArgs) b s t, Sole (.brk a) b s t → let s0 := afterIssue b s
    let pkt := (s0.launchOf t).pkt
    let p := s0.partOf t
    (s0.thread t).pend = [] →
    (pkt.hbrk ≠ 0 → pkt.trapBase = 0 → exec (.brk a) s = .next (entered b s0 t pkt.hbrk 0x21)) ∧
    (pkt.hbrk = 0 → s0.privOf t = false → sysGet s0 RegNo.trapArea p = 0 → sysBits s0 (RegNo.dbgCtl (s0.ctxOf t)) 0 1 0 = 0 →
      ∃ s', exec (.brk a) s = .next s' ∧
        s'.thread t = { s0.thread t with
          held := .ready, why := .none, pc := b.pc, readyAt := s0.clk, trapPc := b.pc, dc := true, cause := 0x21 } ∧
        (∀ u, u ≠ t → s'.thread u = s0.thread u) ∧ sysBits s' (RegNo.dbgCtl (s0.ctxOf t)) 0 8 8 = 1 ∧
        s'.groups = s0.groups ∧ s'.hbm = s0.hbm ∧ s'.flats = s0.flats)) ∧
  (∀ s t i, (trapRecord s t i).length = 64 ∧ (trapRecord s t i).take 8 = bytesOfNat 8 i.pc.toNat ∧
    ((trapRecord s t i).drop 8).take 8 = bytesOfNat 8 i.ea ∧ (trapRecord s t i)[16]? = some i.cause.code ∧
    (trapRecord s t i)[17]? = some (if i.logged then 1 else 0) ∧
    ((trapRecord s t i).drop 24).take 4 = bytesOfNat 4 (s.handle t).toNat ∧
    ((trapRecord s t i).drop 32).take 8 = bytesOfNat 8 i.word.toNat) ∧
  (∀ s p t, sysGet s RegNo.trapArea p ≠ 0 → recordAddr s p t = some ((sysGet s RegNo.trapArea p).toNat +
    64 * (6144 * s.coreOf t + 32 * (s.groupOf t).slot + (s.thread t).lane)))

/-- R309, R57, R163: a word a thread may not run traps before it has any effect: a privileged word at level U as PRIV, one that
breaks its encoding's rules or names a register past the thread's own as UNDEF; in level S the privileged words run. -/
def Obligations.WordsRefused : Prop :=
  (∀ i b s t, isPrivileged i = true → s.issue = .bundle b → b.threads = [t] → s.threads.has t = true → (s.thread t).held = .ready →
    (s.groupOf t).priv = false → (s.thread t).freePass = true ∨ ibrkAt s (s.ctxOf t) b.pc = false → i.wf = true →
    (∀ p ∈ (usesOf i).lp, ((s.thread t).headWord p).bind PortEntry.fault = none) →
    exec i s = .next (onlyThese (takeTrap s t ⟨.priv, b.pc, b.word, 0, 0, false⟩) b [])) ∧
  (∀ i b s t, IsWord i → s.issue = .bundle b → b.threads = [t] → s.threads.has t = true → (s.thread t).held = .ready →
    s.privOf t = true ∨ (s.thread t).freePass = true ∨ ibrkAt s (s.ctxOf t) b.pc = false → i.wf = false →
    (∀ p ∈ (usesOf i).lp, ((s.thread t).headWord p).bind PortEntry.fault = none) →
    exec i s = .next (onlyThese (takeTrap s t ⟨.undef, b.pc, b.word, 0, 0, false⟩) b [])) ∧
  (∀ i b s t, IsWord i → isPrivileged i = false → s.issue = .bundle b → b.threads = [t] → s.threads.has t = true →
    (s.thread t).held = .ready → s.privOf t = true ∨ (s.thread t).freePass = true ∨ ibrkAt s (s.ctxOf t) b.pc = false → i.wf = true →
    namesBeyond (s.thread t) (usesOf i) = true → (∀ p ∈ (usesOf i).lp, ((s.thread t).headWord p).bind PortEntry.fault = none) →
    exec i s = .next (onlyThese (takeTrap s t ⟨.undef, b.pc, b.word, 0, 0, false⟩) b [])) ∧
  (∀ i, isPrivileged i = true ↔ (∃ a, i = .csrr a) ∨ (∃ a, i = .csrw a) ∨ (∃ a, i = .eret a) ∨ (∃ a, i = .tlbinv a) ∨
    (∃ a, i = .ctxsave a) ∨ (∃ a, i = .ctxload a) ∨ (∃ a, i = .halt a) ∨ (∃ a, i = .haltGo a) ∨ (∃ a, i = .dbgstep a) ∨
    (∃ a, i = .tblarm a) ∨ (∃ a, i = .tblread a) ∨ (∃ a, i = .dbgres a) ∨ (∃ a, i = .dbgcur a) ∨ (∃ a, i = .ctxkill a))

/-- R320: RETURN FROM A TRAP: eret lets the thread its handle names out of its trap curtain, at the word that trapped, past it,
or at a PC it gives; status 3 for a handle of another partition, 2 for one that names no thread, 1 for a thread behind no trap
curtain. -/
def Obligations.ReturnFromTrap : Prop :=
  ∀ (a : EretArgs) b s t, Sole (.eret a) b s t → let s0 := afterIssue b s
    let h := (envOf s0 t).base1 a.h
    (s0.handlePart h ≠ some (s0.partOf t) → exec (.eret a) s = .next (wroteRegs b s t [(a.d.toNat, 3)])) ∧
    (s0.handlePart h = some (s0.partOf t) →
      (s0.byHandle h = none → exec (.eret a) s = .next (wroteRegs b s t [(a.d.toNat, 2)])) ∧
      (∀ u, s0.byHandle h = some u →
        ((s0.thread u).tc = false → exec (.eret a) s = .next (wroteRegs b s t [(a.d.toNat, 1)])) ∧
        ((s0.thread u).tc = true → (s0.thread u).dc = true → u ≠ t →
          (∀ r ∈ (s0.thread u).out, r.st ≠ .denied ∧ (a.res = .pc → r.entry = none)) →
          exec (.eret a) s = .next ((wroteRegs b s t [(a.d.toNat, 0)]).onThread u fun th => { th with
            tc := false, readyAt := s0.clk
            pc := match a.res with
              | .retry => th.trapPc
              | .skip => th.trapPc + 8
              | .pc => match a.h with
                | .v n => (envOf s0 t).v (n.toNat + 3) ++ (envOf s0 t).v (n.toNat + 2)
                | .k n => (envOf s0 t).k (n.toNat + 3) ++ (envOf s0 t).k (n.toNat + 2) })) ∧
        ((s0.thread u).tc = true → (s0.thread u).dc = false → u ≠ t →
          (∀ r ∈ (s0.thread u).out, r.st ≠ .denied ∧ (a.res = .pc → r.entry = none)) →
          (∀ n, (maskOf (s0.groupOf u) n).a = 0) → ∃ s', exec (.eret a) s = .next s' ∧ (s'.thread u).tc = false ∧
            (s'.thread t).v = (s0.thread t).v.set a.d.toNat 0 ∧ (s'.thread u).v = (s0.thread u).v ∧
            (a.res = .retry → (s'.thread u).pc = (s0.thread u).trapPc) ∧
            (a.res = .skip → (s'.thread u).pc = (s0.thread u).trapPc + 8))))

/-- R327, R321: halt stops a context on the die of its issuer and is over when what was under way is; halt.go lifts it; ctxkill ends
a context, its threads EXITED, and is over when its launches have retired; contexts of another partition answer 3. -/
def Obligations.HaltAndKill : Prop :=
  (∀ (a : CtxIdArgs) b s t, Sole (.halt a) b s t → let s0 := afterIssue b s
    let c := a.ctx.toNat
    (s0.ctxPart c ≠ some (s0.partOf t) → exec (.halt a) s = .next (wroteRegs b s t [(a.d.toNat, 3)])) ∧
    (s0.ctxPart c = some (s0.partOf t) →
      ((s0.die (dieOf b.core)).halted.has c = true → exec (.halt a) s = .next (wroteRegs b s t [(a.d.toNat, 0)])) ∧
      ((s0.die (dieOf b.core)).halted.has c = false → exec (.halt a) s = .next
        ((stalledAt b s t (.halt a.d.toNat c)).onDie (dieOf b.core) fun x => { x with halted := x.halted.set c s0.clk })))) ∧
  (∀ s t d c, s.threads.has t = true → (s.thread t).held = .stalled → (s.thread t).why = .halt d c →
    (haltDone s (dieOf (s.coreOf t)) c = true → ∃ s', exec (.haltComplete t) s = .next s' ∧
      s'.thread t = { s.thread t with
        v := (s.thread t).v.set d 0, held := .ready, why := .none, pc := (s.thread t).pc + 8, readyAt := s.clk, passed := 0 } ∧
      (∀ u, u ≠ t → s'.thread u = s.thread u) ∧ Keeps { s with threads := .empty } { s' with threads := .empty }) ∧
    (haltDone s (dieOf (s.coreOf t)) c = false → exec (.haltComplete t) s = .next s)) ∧
  (∀ (a : CtxIdArgs) b s t, Sole (.haltGo a) b s t → let s0 := afterIssue b s
    let c := a.ctx.toNat
    (s0.ctxPart c ≠ some (s0.partOf t) → exec (.haltGo a) s = .next (wroteRegs b s t [(a.d.toNat, 3)])) ∧
    (s0.ctxPart c = some (s0.partOf t) → ∃ s', exec (.haltGo a) s = .next s' ∧
      s'.threads = (wroteRegs b s t [(a.d.toNat, 0)]).threads ∧ (s'.die (dieOf b.core)).halted.has c = false ∧
      (∀ e, e ≠ c → (s'.die (dieOf b.core)).halted.find? e = (s0.die (dieOf b.core)).halted.find? e) ∧ s'.groups = s0.groups)) ∧
  (∀ (a : CtxIdArgs) b s t, Sole (.ctxkill a) b s t → let s0 := afterIssue b s
    let c := a.ctx.toNat
    (s0.ctxPart c ≠ some (s0.partOf t) → exec (.ctxkill a) s = .next (wroteRegs b s t [(a.d.toNat, 3)])) ∧
    (s0.ctxPart c = some (s0.partOf t) →
      (s0.runtime (s0.partOf t) = some c → exec (.ctxkill a) s = .next (wroteRegs b s t [(a.d.toNat, 1)])) ∧
      (s0.runtime (s0.partOf t) ≠ some c → s0.ctxOf t ≠ c → ∃ s', exec (.ctxkill a) s = .next s' ∧
        (∀ u ∈ s0.ctxThreads c, u ≠ t → (s'.thread u).held = .exited ∧ (s'.thread u).out = [] ∧ (s'.thread u).pend = []) ∧
        (s'.thread t).held = .stalled ∧ (s'.thread t).why = .kill a.d.toNat c ∧ (s'.thread t).pc = b.pc ∧
        (∀ l x, s0.launches.find? l = some x → x.ctx = c → x.ended = none → x.retire = .live →
          (s'.launch l).ended = some .killed) ∧
        ((s0.copies.filter fun _ cp => (s0.ctxThreads c).contains cp.tid) = .empty → s'.hbm = s0.hbm ∧ s'.flats = s0.flats) ∧
        ∀ g, (s'.group g).k = (s0.group g).k ∧ (s'.group g).fsr = (s0.group g).fsr))) ∧
  (∀ s t d c, s.threads.has t = true → (s.thread t).held = .stalled → (s.thread t).why = .kill d c →
    (ctxPassing s c = true ∨ (∃ l ∈ s.launches.values, l.ctx = c ∧ l.ended ≠ none) → exec (.ctxkillComplete t) s = .next s) ∧
    (ctxPassing s c = false → (∀ l ∈ s.launches.values, l.ctx = c → l.ended = none) → ∃ s', exec (.ctxkillComplete t) s = .next s' ∧
      s'.thread t = { s.thread t with
        v := (s.thread t).v.set d 0, held := .ready, why := .none, pc := (s.thread t).pc + 8, readyAt := s.clk, passed := 0 } ∧
      (∀ u, u ≠ t → s'.thread u = s.thread u) ∧ s'.groups = s.groups ∧ s'.hbm = s.hbm ∧ s'.flats = s.flats))

/-- R328, R372: ctxsave, ctxload and tlbinv answer a status at once where they may not run, and otherwise hold the thread until the
transfer or the invalidation is complete. CTX_TRANSFER_COMPLETE waits for the halt's drain, then puts the context's image into the
die's shadow, and into memory where the word names a place, its planes into their area, and takes its blocks off the die; or
brings an image back. TLBINV_COMPLETE takes the range out of the slices, the translators and the instruction caches, and waits for
what is on its way. -/
def Obligations.ContextTransfers : Prop :=
  let now := fun (i : Instr) (load : Bool) (a : CtxArgs) => ∀ b s t, Sole i b s t → let s0 := afterIssue b s
    let c := a.ctx.toNat
    let mem := a.mem.map fun m => ((envOf s0 t).base2 m).toNat
    (s0.ctxPart c ≠ some (s0.partOf t) → exec i s = .next (wroteRegs b s t [(a.d.toNat, 3)])) ∧
    (s0.ctxPart c = some (s0.partOf t) →
      (load = false → (s0.die (dieOf b.core)).halted.has c = false → exec i s = .next (wroteRegs b s t [(a.d.toNat, 1)])) ∧
      (load = true ∨ (s0.die (dieOf b.core)).halted.has c = true →
        (∀ va, mem = some va → va % 2 ^ 21 ≠ 0 → exec i s = .next (wroteRegs b s t [(a.d.toNat, 5)])) ∧
        ((∀ va, mem = some va → va % 2 ^ 21 = 0) → exec i s = .next (stalledAt b s t (.transfer load a.d.toNat c mem)))))
  let saved := fun (s1 : State) (t d p e : Nat) (i : Image) =>
    finishWith ((clearSaved s1 p i).onDie e fun x => { x with shadow := some i }) t d 0
  (∀ a, now (.ctxsave a) false a) ∧ (∀ a, now (.ctxload a) true a) ∧
  (∀ s t d c mem, (s.thread t).held = .stalled → (s.thread t).why = .transfer false d c mem →
    let e := dieOf (s.coreOf t)
    let p := s.partOf t
    let x := takeImage (suspendCopies s (haltedThreads s e c) true) p e c
    (haltDone s e c = false → exec (.ctxTransferComplete t) s = .next s) ∧
    (haltDone s e c = true →
      (x.1.ctx = c ∧ x.1.die = e ∧ ∀ b ∈ blocksOn s e c, x.1.blocks.find? b = s.blocks.find? b) ∧
      (mem = none → ∀ s1, putPlanes x.2 p e c = some s1 → exec (.ctxTransferComplete t) s = .next (saved s1 t d p e x.1)) ∧
      (∀ va, mem = some va →
        (imageFaults s (s.ctxOf t) (s.privOf t) va true = true → exec (.ctxTransferComplete t) s = .next (finishWith s t d 5)) ∧
        (imageFaults s (s.ctxOf t) (s.privOf t) va true = false →
          ∀ s1, writeRange x.2 (s.ctxOf t) (s.privOf t) (storeOf s t []) va x.1.bytes = (.ok (), s1) →
          ∀ s2, putPlanes { s1 with images := x.1 :: s1.images } p e c = some s2 →
            exec (.ctxTransferComplete t) s = .next (saved s2 t d p e x.1))))) ∧
  (∀ s t d c s1, s.threads.has t = true → (s.thread t).held = .stalled → (s.thread t).why = .transfer false d c none →
    let e := dieOf (s.coreOf t)
    let x := takeImage (suspendCopies s (haltedThreads s e c) true) (s.partOf t) e c
    haltDone s e c = true → putPlanes x.2 (s.partOf t) e c = some s1 → ∃ s', exec (.ctxTransferComplete t) s = .next s' ∧
      (s'.thread t).v = (s.thread t).v.set d 0 ∧ (s'.thread t).held = .ready ∧ (s'.thread t).pc = (s.thread t).pc + 8 ∧
      (∀ b ∈ blocksOn s e c, (s'.block b).save = .swapped) ∧ s'.flats = s.flats ∧ s'.groups = s.groups) ∧
  (∀ s t d c mem, (s.thread t).held = .stalled → (s.thread t).why = .transfer true d c mem →
    let e := dieOf (s.coreOf t)
    (mem = none → (s.die e).shadow = none → exec (.ctxTransferComplete t) s = .next (finishWith s t d 2)) ∧
    (∀ va, mem = some va → imageFaults s (s.ctxOf t) (s.privOf t) va false = true →
      exec (.ctxTransferComplete t) s = .next (finishWith s t d 5)) ∧
    (∀ i, loadSource s t e mem = .image i →
      (i.ctx ≠ c → exec (.ctxTransferComplete t) s = .next (finishWith s t d 2)) ∧
      (i.ctx = c → loadOccupied s (s.partOf t) e i = true → exec (.ctxTransferComplete t) s = .next (finishWith s t d 4)) ∧
      (i.ctx = c → loadOccupied s (s.partOf t) e i = false → ∀ s1, getPlanes (putImage s i) (s.partOf t) e c = some s1 →
        exec (.ctxTransferComplete t) s = .next (finishWith s1 t d 0)))) ∧
  (∀ (a : TlbinvArgs) b s t, Sole (.tlbinv a) b s t → let s0 := afterIssue b s
    let c := a.ctx.toNat
    let ia := ((envOf s0 t).base2 a.a).toNat
    ((s0.ctxPart c ≠ some (s0.partOf t) ∨ (a.all = false ∧ inPir s0 (s0.partOf t) ia (2 ^ a.log2sz.toNat) = false)) →
      exec (.tlbinv a) s = .next (wroteRegs b s t [(a.d.toNat, 3)])) ∧
    (s0.ctxPart c = some (s0.partOf t) → (a.all = true ∨ inPir s0 (s0.partOf t) ia (2 ^ a.log2sz.toNat) = true) →
      (a.all = false → ia % 2 ^ a.log2sz.toNat ≠ 0 → exec (.tlbinv a) s = .next (wroteRegs b s t [(a.d.toNat, 1)])) ∧
      ((a.all = true ∨ ia % 2 ^ a.log2sz.toNat = 0) →
        exec (.tlbinv a) s = .next (stalledAt b s t (.tlbinv a.d.toNat ia c a.log2sz.toNat a.all))))) ∧
  (∀ s t d ia c k all, (s.thread t).held = .stalled → (s.thread t).why = .tlbinv d ia c k all →
    let r := if all then (0, 2 ^ 48) else (ia, 2 ^ k)
    let s1 := flushRange s r.1 r.2
    (unflushed s1 r.1 r.2 = true ∨ onItsWay s1 r.1 r.2 = true → exec (.tlbinvComplete t) s = .next s1) ∧
    (unflushed s1 r.1 r.2 = false → onItsWay s1 r.1 r.2 = false → ∃ s', exec (.tlbinvComplete t) s = .next s' ∧
      s' = finishWith (dropRange s1 c r.1 r.2) t d 0 ∧ unflushed s' r.1 r.2 = false ∧
      (∀ e y l, y ∈ (s'.die e).xlts.values → l ∈ y.cached → let n := if l.large then 2 ^ 21 else 2 ^ 16
        ¬(l.page * n < r.1 + r.2 ∧ r.1 < l.page * n + n)) ∧
      (∀ e x, (icLoc x).ctx = c → r.1 ≤ (icLoc x).ia → (icLoc x).ia < r.1 + r.2 → (s'.core e).icache.find? x = none))) ∧
  (∀ s t d ia c k all, s.threads.has t = true → (s.thread t).held = .stalled → (s.thread t).why = .tlbinv d ia c k all →
    let r := if all then (0, 2 ^ 48) else (ia, 2 ^ k)
    onItsWay s r.1 r.2 = false → (∀ e z, z ∈ (s.die e).slices.values → z.lines = []) →
    ∃ s', exec (.tlbinvComplete t) s = .next s' ∧
      s'.thread t = { s.thread t with
        v := (s.thread t).v.set d 0, held := .ready, why := .none, pc := (s.thread t).pc + 8, readyAt := s.clk, passed := 0 } ∧
      (∀ u, u ≠ t → s'.thread u = s.thread u) ∧ s'.groups = s.groups ∧ s'.hbm = s.hbm ∧ s'.flats = s.flats ∧ s'.sys = s.sys)

/-- R7, R313, R314, R363, R385: SYSTEM REGISTERS: csrr writes the pair with what a read gives, csrw, once the thread's accesses are
done (till then its thread is held STALLED at the word), does what a write does, with the low word alone to a 32-bit register;
beside a window register the value it held before is kept, for the accesses the write is not ordered before (R363). Each traps
PRIV where its thread does not reach the register. Over the link a write admitted does the same; one refused is recorded, and a read refused returns 0. A plain write sets
the RW bits alone. -/
def Obligations.SystemRegisters : Prop :=
  (∀ (a : CsrArgs) b s t, Sole (.csrr a) b s t → let s0 := afterIssue b s
    let n := a.reg.toNat
    (csrInst s0 t b.core n = none → exec (.csrr a) s = .next (trapsAt b s t .priv 0 0)) ∧
    (∀ k, csrInst s0 t b.core n = some k → exec (.csrr a) s = .next ((regRead s0 n k).2.onThread t fun th =>
      { th with v := (th.v.set (baseReg a.r) ((regRead s0 n k).1.setWidth 32)).set (baseReg a.r + 1) (((regRead s0 n k).1 >>> 32).setWidth 32) }))) ∧
  (∀ (a : CsrArgs) b s t, Sole (.csrw a) b s t → let s0 := afterIssue b s
    let n := a.reg.toNat
    (csrInst s0 t b.core n = none → exec (.csrw a) s = .next (trapsAt b s t .priv 0 0)) ∧
    (∀ k i, csrInst s0 t b.core n = some k → regInfo n = some i →
      let x := if i.wide then (envOf s0 t).base2 a.r else (envOf s0 t).base2 a.r &&& 0xFFFF_FFFF
      (∀ s', regWrite s0 (.core b.core) (s0.partOf t) n k x = some s' →
        exec (.csrw a) s = .next (noteWindow s' t n (sysGet s0 n k))) ∧
      (regWrite s0 (.core b.core) (s0.partOf t) n k x = none → exec (.csrw a) s = .next (stalledAt b s t .retry)))) ∧
  (∀ (a : CsrArgs) b s t, Alone (.csrw a) b s t → pendingHazard s t (usesOf (.csrw a)) (guardOf (.csrw a)) true = false →
    replayHold s t (.csrw a) = none → accessesDone s t = false → exec (.csrw a) s = .next (heldAt b s t .drain)) ∧
  (∀ s t n old, (n / 0x4000 ≠ 2 ∨ n % 0x4000 < 0x1000) → noteWindow s t n old = s) ∧
  (∀ s t core n, regInfo n = none → csrInst s t core n = none) ∧
  (∀ s t core n i, regInfo n = some i → i.mOnly = true → csrInst s t core n = none) ∧
  (∀ s t core n i, regInfo n = some i → i.mOnly = false →
    (i.per = .part → csrInst s t core n = some (s.partOf t)) ∧ (i.per = .core → csrInst s t core n = some core) ∧
    (i.per = .die → csrInst s t core n = some (dieOf core)) ∧
    (i.per = .ctx → s.ctxPart (ctxIndex n) ≠ some (s.partOf t) → csrInst s t core n = none)) ∧
  (∀ s p k n, n < 1024 → (regRead s (RegNo.evc n) p).1 = sysGet s (RegNo.evc n) p ∧ (regRead s (RegNo.pmc (n % 8)) k).1 = sysGet s (RegNo.pmc (n % 8)) k) ∧
  (∀ s a n k p x, WritesReg s a n k p x → exec (.registerWrite a) s = .next ((regWrite s a.who p n k x).getD s)) ∧
  (∀ s a, s.running = true → accessOk s a true = none → exec (.registerWrite a) s = .next (refuse s a)) ∧
  (∀ s a, s.running = true → a.size = 8 → accessOk s a false = none →
    exec (.refusedRegisterRead a) s = .next (replied (refuse s a) 0)) ∧
  (∀ s v a, a.who = .vf v → sysBits s RegNo.hlkErr v.toNat 63 63 = 0 → sysGet (refuse s a) RegNo.hlkErr v.toNat =
    BitVec.ofNat 64 (2 ^ 63 + barOffset a % 2 ^ 57)) ∧
  (∀ n, n ∈ [RegNo.rsvcl, RegNo.trapArea, RegNo.saveBase, RegNo.bsMask, RegNo.bsWord, RegNo.rtCtx, RegNo.pir, RegNo.pfr 0, RegNo.pfr 1,
      RegNo.faultArea, RegNo.faultQ, RegNo.b2map, RegNo.uepBase] → ∀ i, regInfo n = some i → ∀ s a k p x, WritesReg s a n k p x →
    exec (.registerWrite a) s = .next (sysPut s n k ((sysGet s n k &&& ~~~BitVec.ofNat 64 i.rw) ||| (x &&& BitVec.ofNat 64 i.rw))))

/-- R338, R342, R343, R354, R356..R358, R360: REGISTERS THAT THE DISPATCHER ACTS ON: an event counter advanced, with the
dependences it satisfies; TAIL moved where the ring holds what it announces; a launch cancelled; a cue queue registered or
deregistered, with the status; an entry pushed by the stage manager; a bubble slot opened and closed. -/
def Obligations.DispatcherRegisters : Prop :=
  (∀ s a k p x, WritesReg s a RegNo.evcAdd k p x → let n := bits x.toNat 41 32
    ∃ s', exec (.evcAdd a) s = .next s' ∧
      sysBits s' (RegNo.evc n) k 31 0 = (sysBits s (RegNo.evc n) k 31 0 + bits x.toNat 31 0) % 2 ^ 32 ∧
      (∀ m i, regKey m i ≠ regKey (RegNo.evc n) k → sysGet s' m i = sysGet s m i) ∧
      (∀ id l, s.launches.find? id = some l → l.part = k → ∀ j d, l.pkt.deps[j]? = some d →
        (s'.launch id).depSeen.getD j false = (l.depSeen.getD j false || depMet s' k d)) ∧
      { s' with sys := s.sys, launches := s.launches } = s) ∧
  (∀ s a k p x q, q < 64 → WritesReg s a (RegNo.lqPtr q) k p x → let v := bits x.toNat 31 0
    (lqDev s k q = false → lqEnabled s k q = true → (v + 2 ^ 32 - lqHead s k q) % 2 ^ 32 ≤ lqCap s k q →
      exec (.launchQueueTailWrite a) s = .next (sysPutBits s (RegNo.lqPtr q) k 31 0 v)) ∧
    ((lqDev s k q = true ∨ lqEnabled s k q = false ∨ lqCap s k q < (v + 2 ^ 32 - lqHead s k q) % 2 ^ 32) →
      exec (.launchQueueTailWrite a) s = .next s)) ∧
  (∀ s a k p x, WritesReg s a RegNo.cancel k p x →
    let hit := fun (l : Launch) => l.part = k ∧ l.queue = bits x.toNat 53 48 ∧ l.seq % 2 ^ 48 = bits x.toNat 47 0
    ((∀ e ∈ s.launches.items, hit e.2 → e.2.retire ≠ .live) → exec (.launchCancel a) s = .next s) ∧
    (∀ id l, s.launches.find? id = some l → hit l → l.retire = .live → l.ended = none →
      (∀ e ∈ s.launches.items, hit e.2 → e.1 = id) → (s.copies.filter fun _ cp => (threadsOf s id).contains cp.tid) = .empty →
      ∃ s', exec (.launchCancel a) s = .next s' ∧ (s'.launch id).ended = some .cancelled ∧
        (∀ t ∈ threadsOf s id, s.threads.has t = true → (s'.thread t).held = .exited ∧ (s'.thread t).out = []) ∧
        (∀ t, t ∉ threadsOf s id → s'.thread t = s.thread t) ∧ s'.hbm = s.hbm ∧ s'.flats = s.flats)) ∧
  (∀ s a k p x, WritesReg s a RegNo.cueReg k p x → let h := bits x.toNat 56 6 * 64
    let put := fun (s : State) (st : Nat) => sysPut s RegNo.cueReg k (BitVec.ofNat 64 (h + 2 * st))
    (x.getLsbD 0 = true →
      (((s.part k).cues.has h = true ∨ 4096 ≤ (s.part k).cues.size) → exec (.cueRegister a) s = .next (put s 1)) ∧
      ((s.part k).cues.has h = false → (s.part k).cues.size < 4096 →
        (∀ s1 c r, agentRead s k h 64 = (.fault c r, s1) → exec (.cueRegister a) s = .next (put s1 2)) ∧
        (∀ s1 blk, agentRead s k h 64 = (.ok blk, s1) → cueBlock blk = none → exec (.cueRegister a) s = .next (put s1 2)) ∧
        (∀ s1 blk r n, agentRead s k h 64 = (.ok blk, s1) → cueBlock blk = some (r, n) → exec (.cueRegister a) s =
          .next (put (s1.onPart k fun y => { y with cues := y.cues.set h ⟨r, n, [], 0, []⟩ }) 0)))) ∧
    (x.getLsbD 0 = false →
      ((s.part k).cues.find? h = none → exec (.cueDeregister a) s = .next (put s 1)) ∧
      (∀ q, (s.part k).cues.find? h = some q →
        ((q.entries ≠ [] ∨ q.waiters ≠ []) → exec (.cueDeregister a) s = .next (put s 1)) ∧
        (q.entries = [] → q.waiters = [] → exec (.cueDeregister a) s =
          .next (put (s.onPart k fun y => { y with cues := y.cues.erase h }) 0))))) ∧
  (∀ s a k p x, WritesReg s a RegNo.smgCueE k p x → let w := (sysGet s RegNo.smgCueH 0).toNat
    let c := bits w 5 4 + 4 * bits w 3 3
    let h := bits w 56 6 * 64
    (cueFull s c h = true → exec (.smgCuePush a) s = .next (sysPutBits s RegNo.smgCueH 0 0 0 1)) ∧
    (∀ q, (s.part c).cues.find? h = some q → q.entries.length < q.cap → q.waiters = [] → ∃ s' l,
      exec (.smgCuePush a) s = .next s' ∧ sysBits s' RegNo.smgCueH 0 0 0 = 0 ∧
      ((s'.part c).cues.find? h).map Cue.entries = some (q.entries ++ [(x, l)]) ∧ s'.threads = s.threads)) ∧
  (∀ s a k p x, WritesReg s a RegNo.bsOpen k p x → (s.part k).bubble = none → bits x.toNat 31 0 ≠ 0 → s.quiet →
    ∃ s', exec (.bubbleSlotOpen a) s = .next s' ∧ s'.threads = s.threads ∧ (s'.part k).bubbleSeq = ((s.part k).bubbleSeq + 1) % 2 ^ 32 ∧
      (s'.part k).bubble = some ⟨s.ns + bits x.toNat 31 0, bits x.toNat 47 40, (s.part k).bubbleSeq,
        sysGet s RegNo.bsMask k &&& sysGet s RegNo.pcl k⟩) ∧
  (∀ s a k p x y, WritesReg s a RegNo.bsOpen k p x → (s.part k).bubble = some y → bits x.toNat 31 0 = 0 →
    ∃ s', exec (.bubbleSlotClose a) s = .next s' ∧ s'.threads = s.threads ∧ (s'.part k).bubble = none ∧
      ∀ i b, s.blocks.find? i = some b → let l := s.launch b.launch
        s'.block i = { b with due :=
          if l.part = k ∧ l.pkt.cls ≠ 0 ∧ l.priv = false ∧ b.save = .resident ∧ b.due = none then some (s.ns + 1000 * y.allowance) else b.due })

/-- R368, R371, R388: LEAVES AND FAULT RECORDS: a READ brings the leaf of the lowest die named, WRITE and CLEAR change it on each die
named, a command refused gives its status and changes no leaf; RETRY of a record frees its id and sends what it held back to be
translated, DENY denies it. -/
def Obligations.LeavesAndFaults : Prop :=
  let reads := fun (mk : RegAcc → Instr) (n : Nat) (host : Bool) => ∀ s a k p x, WritesReg s a n k p x → bits x.toNat 1 0 = 1 → s.quiet →
    let c := leafCmd s k
    let d := if c.dies.testBit 0 then 0 else 1
    (leafRefusal s p d host 1 c = 0 → exec (mk a) s = .next (sysPutBits (sysPut s RegNo.pteData k
      ((((s.die d).leaves.find? fun l => l.large == c.large && l.page == c.page).map Leaf.raw).getD 0)) n k 5 2 0)) ∧
    (leafRefusal s p d host 1 c ≠ 0 → exec (mk a) s = .next (sysPutBits s n k 5 2 (leafRefusal s p d host 1 c)))
  let writes := fun (mk : RegAcc → Instr) (n op : Nat) (host : Bool) => ∀ s a k p x, WritesReg s a n k p x → bits x.toNat 1 0 = op → s.quiet →
    let c := leafCmd s k
    let ds := bitList 2 c.dies
    ((∀ d ∈ ds, leafRefusal s p d host op c = 0) → exec (mk a) s =
      .next (sysPutBits (ds.foldl (fun s d => setLeaf s d c (op == 2)) s) n k 5 2 0)) ∧
    (∀ d r, ds = d :: r → leafRefusal s p d host op c ≠ 0 → exec (mk a) s = .next (sysPutBits s n k 5 2 (leafRefusal s p d host op c)))
  reads .pteRead RegNo.pteCmd false ∧ reads .hostLeafRead RegNo.hlCmd true ∧
  writes .pteWrite RegNo.pteCmd 2 false ∧ writes .pteClear RegNo.pteCmd 3 false ∧
  writes .hostLeafWrite RegNo.hlCmd 2 true ∧ writes .hostLeafClear RegNo.hlCmd 3 true ∧
  (∀ s d c keep, ((setLeaf s d c keep).die d).leaves.find? (fun l => l.large == c.large && l.page == c.page) =
      (if keep then some ⟨c.page, c.large, c.raw⟩ else none) ∧
    (∀ l, (l.large ≠ c.large ∨ l.page ≠ c.page) → (l ∈ ((setLeaf s d c keep).die d).leaves ↔ l ∈ (s.die d).leaves)) ∧
    ∀ e, e ≠ d → (setLeaf s d c keep).die e = s.die e) ∧
  (∀ s p d host op c, (inPir s p c.ia c.size = false → leafRefusal s p d host op c = 1) ∧
    (inPir s p c.ia c.size = true → c.ia % c.size = 0 → foreignPir s p c.ia c.size = false → sizeConflict s d c = true → op ≠ 2 →
      leafRefusal s p d host op c = 3)) ∧
  (∀ s a k p x f, WritesReg s a RegNo.resolve k p x → bits x.toNat 13 12 = 1 → (s.part k).faults.find? (bits x.toNat 11 0) = some f → f.wbs = [] →
    ∃ s', exec (.xltResolveRetry a) s = .next s' ∧ (s'.part k).faults.find? (bits x.toNat 11 0) = none ∧
      (∀ t th, s.threads.find? t = some th → s.partOf t = k → (s'.thread t).out = th.out.map fun (r : Req) =>
        if r.st == ReqSt.fault (bits x.toNat 11 0) then { r with st := if r.entry.isSome then .resolved else .sent } else r) ∧
      (∀ t ∈ f.fetchers, s.threads.has t = true → (s.thread t).why = .fetch → (s'.thread t).held = .ready ∧ (s'.thread t).pc = (s.thread t).pc) ∧
      (∀ t, t ∉ f.fetchers → s.partOf t ≠ k → s'.thread t = s.thread t) ∧ s'.hbm = s.hbm ∧ s'.flats = s.flats) ∧
  (∀ s a k p x f t r, WritesReg s a RegNo.resolve k p x → bits x.toNat 13 12 = 2 → (s.part k).faults.find? (bits x.toNat 11 0) = some f →
    f.wbs = [] → f.fetchers = [] →
    (s.threads.items.flatMap fun e => if s.partOf e.1 == k then (e.2.out.filter fun r => r.st == .fault (bits x.toNat 11 0)).map fun r => (e.1, r) else []) = [(t, r)] →
    exec (.xltResolveDeny a) s = .next (denyAccess (s.onPart k fun y => { y with faults := y.faults.erase (bits x.toNat 11 0) }) t r
      (match f.reason with
        | 0 => .noLeaf | 1 => .kind | 2 => .stable | _ => .noWrite)))

/-- R375..R377: THE FLATS SWITCH AND LOFT LOADS: FLS_MAP attaches a free bank of the partition to an empty slot and detaches one;
FLS_OWN gives a bank to another partition, with zeros; FLS_BANKCTL detaches, zeroes and tags a bank of the partition; a loft load
is admitted or refused, copies its pages and completes with its counter; a refresh window changes nothing. -/
def Obligations.SwitchAndLoft : Prop :=
  (∀ s a k p x i, i < 8 → WritesReg s a (RegNo.flsMap i) k p x → mapWaits s k i x = false →
    (x.getLsbD 31 = true → mapAllowed s k i (bits x.toNat 7 0) (bits x.toNat 30 30 == 1) = true → ∃ s', exec (.flsMapWrite a) s = .next s' ∧
      slotBank s' k i = some (bits x.toNat 7 0) ∧ slotRo s' k i = (bits x.toNat 30 30 == 1) ∧
      (∀ c j, (c ≠ k ∨ j ≠ i) → c < 256 → j < 8 → slotBank s' c j = slotBank s c j) ∧ s'.flats = s.flats ∧ s'.hbm = s.hbm) ∧
    (x.getLsbD 31 = true → mapAllowed s k i (bits x.toNat 7 0) (bits x.toNat 30 30 == 1) = false → exec (.flsMapWrite a) s = .next s) ∧
    (x.getLsbD 31 = false → ∃ s', exec (.flsMapWrite a) s = .next s' ∧ slotBank s' k i = none)) ∧
  (∀ s a k p x n, n < 256 → WritesReg s a (RegNo.flsOwn n) k p x → let old := (sysGet s (RegNo.flsOwn n) k).toNat
    (bits old 31 28 ≠ bits x.toNat 31 28 → attachments s k n ≠ [] → exec (.flsOwnWrite a) s = .next s) ∧
    (bits old 31 28 ≠ bits x.toNat 31 28 → attachments s k n = [] → ∃ s', exec (.flsOwnWrite a) s = .next s' ∧
      sysBits s' (RegNo.flsOwn n) k 31 28 = bits x.toNat 31 28 ∧ sysBits s' (RegNo.flsOwn n) k 7 0 = bits x.toNat 7 0 ∧
      (∀ o, o < 2 ^ 18 → Memory.read s'.flats (bankKey k n o) = 0) ∧
      (∀ o, o / 2 ^ 18 ≠ k * 256 + n → Memory.read s'.flats o = Memory.read s.flats o) ∧ s'.threads = s.threads ∧ s'.hbm = s.hbm) ∧
    (bits old 31 28 = bits x.toNat 31 28 → ∃ s', exec (.flsOwnWrite a) s = .next s' ∧
      sysBits s' (RegNo.flsOwn n) k 7 0 = bits x.toNat 7 0 ∧ { s' with sys := s.sys } = s)) ∧
  (∀ s a k p x, WritesReg s a RegNo.flsBankCtl k p x → let n := bits x.toNat 7 0
    (bits x.toNat 31 30 = 1 → bankWaits s k x = false →
      (bankPart s k n ≠ some p → exec (.flatBankDetach a) s = .next (bankStatus s k 1)) ∧
      (bankPart s k n = some p → ∃ s', exec (.flatBankDetach a) s = .next s' ∧ attachments s' k n = [] ∧ sysBits s' RegNo.flsBankCtl k 29 28 = 0)) ∧
    (bits x.toNat 31 30 = 2 →
      ((bankPart s k n ≠ some p ∨ attachments s k n ≠ []) → exec (.flatBankZero a) s = .next (bankStatus s k 1)) ∧
      (bankPart s k n = some p → attachments s k n = [] → ∃ s', exec (.flatBankZero a) s = .next s' ∧
        (∀ o, o < 2 ^ 18 → Memory.read s'.flats (bankKey k n o) = 0) ∧
        (∀ o, o / 2 ^ 18 ≠ k * 256 + n → Memory.read s'.flats o = Memory.read s.flats o) ∧ s'.threads = s.threads ∧ s'.hbm = s.hbm)) ∧
    (bits x.toNat 31 30 = 3 →
      (bankPart s k n ≠ some p → exec (.flatBankOwner a) s = .next (bankStatus s k 1)) ∧
      (bankPart s k n = some p → ∃ s', exec (.flatBankOwner a) s = .next s' ∧ bankOwner s' k n = BitVec.ofNat 8 (bits x.toNat 23 16) ∧
        bankPart s' k n = some p ∧ { s' with sys := s.sys } = s))) ∧
  (∀ s a k p x, WritesReg s a RegNo.loftCtl k p x → x.getLsbD 28 = true → let off := sysBits s RegNo.loftDst k 30 0
    let n := bits x.toNat 18 0
    let s1 := plainWrite s RegNo.loftCtl k x
    (loadAllowed s1 p k off n = false → exec (.loftLoadGo a) s = .next (loftStatus s1 k 3)) ∧
    (loadAllowed s1 p k off n = true → exec (.loftLoadGo a) s = .next ((loftStatus s1 k 1).onDie k fun y =>
      { y with load := some ⟨p, sysBits s RegNo.loftSrc k 56 0, off, n, BitVec.ofNat 8 (sysBits s RegNo.loftDst k 39 32),
          bits x.toNat 29 29 == 1, bits x.toNat 41 32, .waiting⟩ }))) ∧
  (∀ s d l, (s.die d).load = some l → l.st = .waiting → (launchOn s l.part d = true → exec (.loftLoadCopy d) s = .next s) ∧
    (launchOn s l.part d = false → ∀ s1, (List.range l.pages).foldl (loadPage d l) (.go, s) = (.go, s1) →
      exec (.loftLoadCopy d) s = .next (s1.onDie d fun x => { x with load := some { l with st := .copied true } }))) ∧
  (∀ s d l ok, d < 2 → (s.die d).load = some l → l.st = .copied ok → l.evc < 1024 → l.part < 8 → ∃ s', exec (.loftLoadDone d) s = .next s' ∧ (s'.die d).load = none ∧
    (ok = true → sysBits s' RegNo.loftCtl d 31 30 = 2) ∧
    (l.cen = true → sysBits s' (RegNo.evc l.evc) l.part 31 0 = (sysBits s (RegNo.evc l.evc) l.part 31 0 + 1) % 2 ^ 32) ∧
    s'.threads = s.threads ∧ s'.loft = s.loft ∧ s'.hbm = s.hbm) ∧
  (∀ s d g, exec (.loftRefreshWindow d g) s = .next s)

/-- R289, R359, R378, R380, R386, R390, R409: READS THAT TAKE WHAT THEY RETURN: a notice leaves its FIFO, an error register reads
its entry and is empty again, a count is cleared, a measurement's minimum goes. -/
def Obligations.ReadsThatTake : Prop :=
  (∀ s a k, ReadsReg s a RegNo.smgFifo k → exec (.smgCplfifoRead a) s =
    .next (replied (s.onPkg fun y => { y with smgNotes := s.pkg.smgNotes.drop 1 }) (s.pkg.smgNotes.headD 0))) ∧
  (∀ s a k, ReadsReg s a RegNo.hlkNote k → exec (.hlkNoteRead a) s =
    .next (replied (s.onPart k fun y => { y with notes := (s.part k).notes.drop 1 }) ((s.part k).notes.headD 0))) ∧
  (∀ s a k, ReadsReg s a RegNo.hlkErr k → exec (.hlkErrRead a) s = .next (replied (sysPut s RegNo.hlkErr k 0) (sysGet s RegNo.hlkErr k))) ∧
  (∀ s a k n, n < 4 → ReadsReg s a (RegNo.prmErr n) k →
    exec (.prmErrRead a) s = .next (replied (sysPut s (RegNo.prmErr n) k 0) (sysGet s (RegNo.prmErr n) k))) ∧
  (∀ s a k, ReadsReg s a RegNo.scbCe k → ∃ n s1, exec (.scbCecntRead a) s =
    .next (replied s1 (BitVec.ofNat 64 (min (2 ^ 32 - 1) ((s.die k).corrected + n)))) ∧
    (s1.die k).corrected = 0 ∧ { s1 with dies := s.dies, ctr := s.ctr } = s) ∧
  (∀ s a k, ReadsReg s a RegNo.scbUe k →
    ((s.die k).ueLog = [] → exec (.scbUelogRead a) s = .next (replied s 0)) ∧
    (∀ e r, (s.die k).ueLog = e :: r → exec (.scbUelogRead a) s =
      .next (replied (s.onDie k fun y => { y with ueLog := r, ueLost := 0 }) (BitVec.ofNat 64 (2 ^ 63 + e.src * 2 ^ 60 + e.owner.toNat * 2 ^ 52 +
        (if e.killed then 2 ^ 51 else 0) + (s.die k).ueLost * 2 ^ 48 + e.addr % 2 ^ 48))))) ∧
  (∀ s a k c, c < 64 → ReadsReg s a (RegNo.tunAvs c) k → ∃ v s1, exec (.tunAvsRead a) s = .next (replied s1 (putBits (sysGet s (RegNo.tunAvs c) k) 15 0 v)) ∧
    sysBits s1 (RegNo.tunAvs c) k 31 16 = 0 ∧ { s1 with sys := s.sys, ctr := s.ctr } = s)

/-- R292..R302: A LOGIT PROGRAM: each word of a job that a prompter issues has its effect on the job's working set, scalars or
modes, in FP32 arithmetic, and the job's next word follows; nothing of the machine changes but the prompter. Words that only compute. -/
def Obligations.LogitComputes : Prop :=
  let runs := fun (i : Instr) (f : Job → Job) => ∀ s d n k j, s.issue = .prompter d n k → (prompterOf s d n).jobs[k]? = some j →
    exec i s = .next (onPrompter s d n fun x => { x with jobs := x.jobs.set k { f j with ip := j.ip + 1 } })
  let each := fun (a : LogitArgs) (v : Job → WsEntry → Word) (j : Job) =>
    { j with set := j.set.map fun e => { e with w := e.w.set a.d.toNat (v j e) } }
  let keep := fun (c : Job → Nat → WsEntry → Bool) (j : Job) =>
    { j with set := j.set.zipIdx.map fun e => { e.1 with live := e.1.live && c j e.2 e.1 } }
  let a_ := fun (a : LogitArgs) (e : WsEntry) => e.w.getD a.a.toNat 0
  let b_ := fun (a : LogitArgs) (e : WsEntry) => e.w.getD a.b.toNat 0
  let s_ := fun (a : LogitArgs) (j : Job) => j.s.getD a.s.toNat 0
  let s1 := fun (a : LogitArgs) (j : Job) => j.s.getD (a.s.toNat + 1) 0
  let l_ := fun (a : LogitArgs) (j : Job) => (j.set.zipIdx.filter fun e => e.1.live).map fun e => (e.2, a_ a e.1)
  let m_ := fun (a : LogitArgs) (j : Job) => maxLive (l_ a j)
  let z_ := fun (a : LogitArgs) (l : List (Nat × Word)) (j : Job) => sumR ((l.filter fun x => !isNan32 x.2).map fun x => omega (m_ a j) x.2)
  (∀ a, runs (.logitLds a) fun j => { j with s := j.s.set a.d.toNat (j.seqd.getD (16 + a.imm.toNat) 0) }) ∧
  (∀ a, runs (.logitSet a) fun j => { j with s := j.s.set a.d.toNat a.imm }) ∧
  (∀ a, runs (.logitMode a) fun j => { j with nanm := a.imm.getLsbD 0 }) ∧
  (∀ a, runs (.logitMov a) (each a fun _ e => a_ a e)) ∧
  (∀ a, runs (.logitAdd a) (each a fun j e => addR (a_ a e) (if a.scalarB then s_ a j else b_ a e))) ∧
  (∀ a, runs (.logitMul a) (each a fun j e => mulR (a_ a e) (if a.scalarB then s_ a j else b_ a e))) ∧
  (∀ a, runs (.logitPen a) (each a fun j e =>
    if gtR (b_ a e) 0 then (if gtR (a_ a e) 0 then divR (a_ a e) (s_ a j) else mulR (a_ a e) (s_ a j)) else a_ a e)) ∧
  (∀ a, runs (.logitFpen a) (each a fun j e =>
    subR (a_ a e) (addR (mulR (s_ a j) (b_ a e)) (if gtR (b_ a e) 0 then s1 a j else 0)))) ∧
  (∀ a, runs (.logitTemp a) (each a fun j e => let t := s_ a j
    let x := a_ a e
    if isNan32 t then x
    else if t = 0x7F80_0000 then (if (f32Val x).isFin then 0 else x)
    else if gtR t 0 then divR x t
    else if isNan32 x then nan32
    else if m_ a j ≠ 0xFF80_0000 ∧ eqR x (m_ a j) then 0 else 0xFF80_0000)) ∧
  (∀ a, runs (.logitClmp a) (each a fun j e => minR (maxR (a_ a e) (s_ a j)) (s1 a j))) ∧
  (∀ a, runs (.logitKeep a) (keep fun j _ e => fltCond a.cond (f32Val (a_ a e)) (f32Val (s_ a j)))) ∧
  (∀ a, runs (.logitTopk a) fun j => let k := (s_ a j).toNat
    if 0 < k ∧ k < (l_ a j).length then keep (fun j i _ => (((ranked (l_ a j)).take k).map Prod.fst).contains i) j else j) ∧
  (∀ a, runs (.logitTopp a) fun j => let p := s_ a j
    let m := m_ a j
    if m = 0xFF80_0000 ∨ m = 0x7F80_0000 ∨ isNan32 p ∨ geR p 0x3F80_0000 then j
    else keep (fun j i _ => (toppKeep m (mulR p (z_ a (ranked (l_ a j)) j)) 0 (ranked (l_ a j))).contains i) j) ∧
  (∀ a, runs (.logitMinp a) fun j => let p := s_ a j
    let m := m_ a j
    if m = 0xFF80_0000 ∨ m = 0x7F80_0000 ∨ gtR p 0 = false then j
    else keep (fun _ _ e => eqR (a_ a e) m || (!isNan32 (a_ a e) && geR (omega m (a_ a e)) p)) j) ∧
  (∀ a, runs (.logitSort a) fun j =>
    { j with set := ((ranked (l_ a j)).filterMap fun x => j.set[x.1]?) ++ j.set.filter fun e => !e.live }) ∧
  (∀ a, runs (.logitNorm a) (each a fun j e =>
    if m_ a j = 0xFF80_0000 ∨ e.live = false then 0
    else if isNan32 (a_ a e) then nan32 else divR (omega (m_ a j) (a_ a e)) (z_ a (l_ a j) j))) ∧
  (∀ a, runs (.logitVmax a) fun j => { j with s := j.s.set a.d.toNat (m_ a j) }) ∧
  (∀ a, runs (.logitDraw a) fun j => { j with drawn := some (drawOf j a.a) }) ∧
  (∀ a, runs (.logitAcc a) fun j => { j with drawn := some (if j.pos + 1 = j.npos then drawOf j a.a else accOf j a.a a.b) }) ∧
  (∀ j a, j.nanm = false → (j.rownan = true ∨ ∃ x ∈ j.lives a, isNan32 x.2 = true) → drawOf j a = (4, 0xFFFF_FFFF)) ∧
  (∀ j a, j.nanm = true → (∀ x ∈ j.lives a, isNan32 x.2 = true ∨ x.2 = 0xFF80_0000) → drawOf j a = (3, 0xFFFF_FFFF)) ∧
  (∀ m v, omega m v = if m = 0x7F80_0000 then (if v = 0x7F80_0000 then 0x3F80_0000 else 0) else fnR .ex2 (mulR (subR v m) 0x3FB8_AA3B)) ∧
  (∀ (u : Word) x, chooseFrom u [x] = if gtR (addR 0 x.2) (mulR u (addR 0 x.2)) ∨ gtR x.2 0 then x.1 else 0)

/-- R290, R295, R296, R301, R302: LOGIT WORDS THAT READ MEMORY, AND pub: a load brings its table, where it can be read, into the working set;
an unreadable table ends the job with code 11, a record header that breaks its table with code 10; pub ends the position's run with
its status and token, and after an acceptance the next position's begins. -/
def Obligations.LogitReads : Prop :=
  let at_ := fun (s : State) d n k (j : Job) => s.issue = .prompter d n k ∧ (prompterOf s d n).jobs[k]? = some j
  let after := fun (s1 : State) d n k (j : Job) => onPrompter s1 d n fun x => { x with jobs := x.jobs.set k { j with ip := j.ip + 1 } }
  let failed := fun (s1 : State) d n k (j : Job) (c : Nat) => onPrompter s1 d n fun x => { x with jobs := x.jobs.set k (j.fail c) }
  let put := fun (a : LogitArgs) (e : WsEntry) (x : Word) => { e with w := e.w.set a.d.toNat x }
  let fresh := fun (a : LogitArgs) (t x : Word) => ({ tok := t, live := true, w := (List.replicate 8 (0 : Word)).set a.d.toNat x } : WsEntry)
  (∀ a s d n k j, at_ s d n k j → let va := j.place (j.dword 4) (j.word 6)
    (∀ s1 c r, agentRead s j.part va 32 = (.fault c r, s1) → c ≠ .memerr → exec (.logitLdc a) s = .next (failed s1 d n k j 11)) ∧
    (∀ s1 b, agentRead s j.part va 32 = (.ok b, s1) → let h := wordsOfBytes b
      let c := (h.getD 2 0).toNat
      let good := c ≤ 4096 ∧ (h.getD 4 0).toNat < 4 ∧ (b.drop 20).all (· == 0) = true
      (¬ good → exec (.logitLdc a) s = .next (failed s1 d n k j 10)) ∧
      (good → c ≠ 0 → ∀ s2 x, agentRead s1 j.part (va + 32) (8 * c) = (.ok x, s2) → let ws := wordsOfBytes x
        exec (.logitLdc a) s = .next (after s2 d n k { j with
          set := (List.range c).map fun i => fresh a (ws.getD (2 * i + 1) 0) (ws.getD (2 * i) 0)
          rownan := (h.getD 4 0).toNat.testBit 0
          tail := maxR j.tail (recordTail (h.getD 0 0) (h.getD 1 0) ((List.range c).map fun i => ws.getD (2 * i) 0)) })))) ∧
  (∀ maxv esum vs, recordTail maxv esum vs = if (f32Val esum).isZero then 0
    else maxR 0 (subR 0x3F80_0000 (divR (if maxv = 0x7F80_0000 then natR (vs.filter (· == 0x7F80_0000)).length
      else sumR (vs.map fun v => expR (subR v maxv))) esum))) ∧
  (∀ a s d n k j, at_ s d n k j →
    (j.nwatch = 0 → exec (.logitLdw a) s = .next (after s d n k j)) ∧
    (∀ s1 b t, j.nwatch ≠ 0 → agentRead s j.part (j.sq2 8) (4 * j.nwatch) = (.ok b, s1) → wordsOfBytes b = [t] →
      ((j.set.any fun e => e.tok == t) = true → exec (.logitLdw a) s = .next (after s1 d n k j)) ∧
      ((j.set.any fun e => e.tok == t) = false →
        ((j.dword 8 = 0 ∨ j.sq 13 ≤ t.toNat) → exec (.logitLdw a) s = .next (after s1 d n k { j with set := j.set ++ [fresh a t 0xFF80_0000] })) ∧
        (j.dword 8 ≠ 0 → t.toNat < j.sq 13 → ∀ s2 x, agentRead s1 j.part ((j.place (j.dword 8) (j.word 7) + 4 * t.toNat) % 2 ^ 64) 4 = (.ok x, s2) →
          exec (.logitLdw a) s = .next (after s2 d n k { j with set := j.set ++ [fresh a t (BitVec.ofNat 32 (natOfBytes x))] }))))) ∧
  (∀ a s d n k j s1 b, at_ s d n k j → j.ncnt ≠ 0 → agentRead s j.part (j.sq2 4) (8 * j.ncnt) = (.ok b, s1) →
    exec (.logitLdt a) s = .next (after s1 d n k { j with
      set := j.set.map fun e => put a e (natR (bits ((lookup (wordsOfBytes b) e.tok).getD 0).toNat 15 0 + (j.prior.filter (· == e.tok)).length)) })) ∧
  (∀ a s d n k j s1 b, at_ s d n k j → j.nbias ≠ 0 → agentRead s j.part (j.sq2 6) (8 * j.nbias) = (.ok b, s1) →
    exec (.logitLdb a) s = .next (after s1 d n k { j with set := j.set.map fun e => put a e ((lookup (wordsOfBytes b) e.tok).getD 0) })) ∧
  (∀ a s d n k j, at_ s d n k j →
    (j.dword 10 = 0 → exec (.logitLdd a) s = .next (after s d n k { j with set := j.set.map fun e => put a e 0 })) ∧
    (∀ s1 b, j.dword 10 ≠ 0 → j.word 13 ≠ 0 → agentRead s j.part (j.place (j.dword 10) (j.word 12)) (8 * j.word 13) = (.ok b, s1) →
      exec (.logitLdd a) s = .next (after s1 d n k { j with set := j.set.map fun e => put a e ((lookup (wordsOfBytes b) e.tok).getD 0) }))) ∧
  (∀ a s d n k j, at_ s d n k j →
    (j.sq2 10 = 0 → exec (.logitLdg a) s = .next (after s d n k j)) ∧
    (∀ e, j.sq2 10 ≠ 0 → j.set = [e] → e.live = true →
      (j.sq 12 ≤ e.tok.toNat → exec (.logitLdg a) s = .next (after s d n k { j with set := [{ e with live := false }] })) ∧
      (e.tok.toNat < j.sq 12 → ∀ s1 b, agentRead s j.part (j.sq2 10 + e.tok.toNat / 8) 1 = (.ok b, s1) →
        exec (.logitLdg a) s = .next (after s1 d n k { j with set := [{ e with live := (natOfBytes b).testBit (e.tok.toNat % 8) }] })))) ∧
  (∀ a s d n k j, at_ s d n k j → let o := j.drawn.getD (3, 0xFFFF_FFFF)
    let j1 := { j with outs := j.outs ++ [(j.pos, o.1, o.2)] }
    let j2 := if o.1 = 1 ∧ j.pos + 1 < j.npos then
        { j1 with pos := j.pos + 1, ip := 0, set := [], s := List.replicate 16 0, nanm := false, rownan := false, drawn := none }
      else { j1 with finished := true }
    exec (.logitPub a) s = .next (onPrompter s d n fun x => { x with jobs := x.jobs.set k j2 })) ∧
  (∀ j c, (Job.fail j c).outs = j.outs ++ [(j.pos, c, 0xFFFF_FFFF)] ∧ (Job.fail j c).finished = true)

/-- R339..R341, R344..R348, R350..R352: THE DISPATCHER: the packet at the head of the queue in turn is admitted, with the status of the
first test it fails; the block selected is placed, its launch judged at its first, with threads at the entry point; the locate cache
is filled for a launch that needs it; a cluster is reserved for a launch passed over for 64 µs; a launch whose blocks are done
retires: counter, record, notice. -/
def Obligations.LaunchesRun : Prop :=
  (∀ s p q s1 pk, nextQueue s p = some q → agentRead s p (lqSlot s p q (lqHead s p q)) 448 = (.ok pk, s1) →
    ∃ s' id, exec (.launchAdmit p q) s = .next s' ∧ s'.launches.has id = true ∧ let l := s'.launch id
      l.part = p ∧ l.queue = q ∧ l.seq = (s1.part p).seqs.findD q 0 ∧ l.ctx = lqCtx s1 p q ∧ l.priv = lqPriv s1 p q ∧ l.pkt = packetOf pk ∧
      l.retire = .live ∧ l.blocks = [] ∧ l.nextBlock = 0 ∧
      (l.pkt.ok = false → l.ended = some .badpkt) ∧ (l.pkt.ok = true → l.pkt.shapeOk = false → l.ended = some .badshape) ∧
      (l.pkt.ok = true → l.pkt.shapeOk = true → l.ended = none ∨ l.ended = some .oversize) ∧
      lqHead s' p q = (lqHead s1 p q + 1) % 2 ^ 32 ∧ (s'.part p).seqs.findD q 0 = (s1.part p).seqs.findD q 0 + 1 ∧ (s'.part p).turn = q ∧
      s'.threads = s1.threads) ∧
  (∀ s p q, nextQueue s p ≠ some q → exec (.launchAdmit p q) s = .next s) ∧
  (∀ s p id n c cs, choiceOf s p = .place id n c cs → n.saved = none → (s.launch id).disp.isSome = true ∨ s.ns ≤ (s.launch id).pkt.deadline →
    ∃ s', exec (.blockDispatch p c) s = .next s' ∧ let l := s.launch id
      (s'.launch id).nextBlock = l.nextBlock + 1 ∧ (s'.launch id).blocks = l.blocks ++ [s.ctr] ∧ (s'.launch id).disp = some (l.disp.getD s.ns) ∧
      (s'.launch id).lastCluster = some c ∧ (s'.launch id).late = l.late ∧
      (s'.block s.ctr).launch = id ∧ (s'.block s.ctr).lin = n.lin ∧ (s'.block s.ctr).stage = n.stage ∧ (s'.block s.ctr).save = .resident ∧
      (∀ t ∈ (s'.block s.ctr).threads, let th := s'.thread t
        th.pc = l.pkt.entry ∧ th.held = .ready ∧ th.nregs = l.pkt.rounded ∧ th.v = .empty ∧ th.p = 0 ∧ th.draws = 0 ∧ th.tc = false ∧
        th.dc = false ∧ th.pend = [] ∧ th.out = [] ∧ th.snap.need = s.hist.dev) ∧
      (∀ g ∈ (s'.block s.ctr).groups, clusterOf (s'.group g).core = c ∧ (s'.group g).priv = l.priv ∧ (s'.group g).ctx = l.ctx ∧
        (s'.group g).key = l.pkt.seed ^^^ BitVec.ofNat 64 n.lin ∧ (s'.group g).fsr = 0 ∧ (s'.group g).lineage = 1) ∧
      (∀ t, t < s.ctr → s'.threads.find? t = s.threads.find? t) ∧ (∀ g, g < s.ctr → s'.groups.find? g = s.groups.find? g) ∧
      s'.hbm = s.hbm ∧ s'.flats = s.flats ∧ s'.sys = s.sys) ∧
  (∀ s p id n c cs, choiceOf s p = .place id n c cs → n.saved = none → (s.launch id).disp = none →
    (s.launch id).pkt.deadline < s.ns → min ((s.launch id).pkt.deadline + (s.launch id).pkt.grace) (2 ^ 64 - 1) < s.ns →
    (s.launch id).pkt.drop = true → exec (.blockDispatch p c) s = .next (s.onLaunch id fun x => { x with late := true, ended := some .dropped })) ∧
  (∀ s p id k ch d, choiceOf s p = .fill id k ch d → exec (.locateCacheFill p id) s =
    .next (s.onDie (locateDie s p) fun x => { x with locate := x.locate.set k (ch, d) })) ∧
  (∀ s p id l r t c, candidates s p = (id, l) :: r → (s.part p).reserve = none → l.unplaced = some t → 80000 ≤ s.clk - t →
    clustersFor s l (nextOf s id l).stage = [c] → exec (.clusterReserve p c) s = .next (s.onPart p fun x => { x with reserve := some (id, c) })) ∧
  (∀ s id l, s.launches.find? id = some l → l.retire = .live →
    (launchQuiet s id l = false → exec (.launchRetire id) s = .next s) ∧
    (launchQuiet s id l = true → l.pkt.cplAddr = 0 → l.pkt.cplInt = false → ∃ s', exec (.launchRetire id) s = .next s' ∧
      s'.launches.has id = false ∧ (∀ t ∈ threadsOf s id, s'.threads.has t = false) ∧ s'.hbm = s.hbm ∧ s'.flats = s.flats ∧
      (l.pkt.cen = true → sysBits s' (RegNo.evc l.pkt.cevc) l.part 31 0 = (sysBits s (RegNo.evc l.pkt.cevc) l.part 31 0 + 1) % 2 ^ 32) ∧
      (l.pkt.cen = false → s'.sys = s.sys))) ∧
  (∀ s id l, s.launches.find? id = some l → l.retire = .notice → l.pkt.cplInt = true → lqIrq s l.part l.queue = 1 →
    ((s.part l.part).notes.length < 256 → ∃ s', exec (.launchRetire id) s = .next s' ∧ s'.launches.has id = false ∧
      (s'.part l.part).notes = (s.part l.part).notes ++ [noticeWord l false (LaunchStatus.code (l.ended.getD .done))]) ∧
    (256 ≤ (s.part l.part).notes.length → exec (.launchRetire id) s = .next s)) ∧
  (∀ s l st, let r := completionRecord s l st
    r.length = 32 ∧ r.take 4 = bytesOfNat 4 (LaunchStatus.code st + if l.late then 256 else 0) ∧
    (r.drop 4).take 4 = bytesOfNat 4 (l.queue + 256 * l.ctx) ∧ (r.drop 8).take 8 = bytesOfNat 8 l.seq ∧
    (r.drop 16).take 8 = bytesOfNat 8 (l.disp.getD 0) ∧ r.drop 24 = bytesOfNat 8 s.ns)

/-- R50, R51, R326, R358: SAVE AND RELAUNCH: a block that has waited past DISP_WAIT_SAVE is saved into a frame of the save area, once no
LOCK holds a page of it, its entries withdrawn; one queued for relaunch takes cores of a cluster again; a bubble slot ends at its time, and what stays past the allowance is saved. -/
def Obligations.SavesAndBubbles : Prop :=
  (∀ s k, let b := s.block k
    let l := s.launch b.launch
    let n := frameSize s b
    let f := s.freeBytes n
    b.save = .resident → isWaiting s b = true → saveable s k = true → b.lastIssue + 1250 * sysBits s RegNo.waitSave l.part 9 0 < s.clk →
    (s.die (blockCluster s k / 32)).halted.has l.ctx = false →
    (frameFor s l.part n = none → exec (.blockSave k) s = .next s) ∧
    (∀ o, frameFor s l.part n = some o →
      let w := areaWrite f.2 l.ctx (locateDie s l.part) (((saveArea s l.part).getD (0, 0)).1 + o) f.1
      (w = none → exec (.blockSave k) s = .next s) ∧
      (∀ s1, w = some s1 → ∃ s', exec (.blockSave k) s = .next s' ∧ (s'.block k).save = .saved o n ∧
        (s'.block k).withdrawn = ((s.cluster (blockCluster s k)).table.filter fun _ e => e.block == k).values ∧
        (∀ e ∈ (s'.cluster (blockCluster s k)).table.values, e.block ≠ k) ∧
        (s'.part l.part).frames = (s.part l.part).frames ++ [(o, n)] ∧ (∀ t, (s'.thread t).pc = (s.thread t).pc) ∧
        s'.hbm = s1.hbm ∧ s'.flats = s.flats))) ∧
  (∀ s k, (s.clk ≤ (s.block k).lastIssue + 1250 * sysBits s RegNo.waitSave (s.launch (s.block k).launch).part 9 0 ∨ isWaiting s (s.block k) = false) →
    exec (.blockSave k) s = .next s) ∧
  (∀ s k id n c cs, choiceOf s (s.launch (s.block k).launch).part = .place id n c cs → n.saved = some k →
    ∃ s', exec (.blockRelaunch k) s = .next s' ∧ (s'.block k).save = .resident ∧ (s'.block k).withdrawn = [] ∧
      ((s.part (s.launch id).part).heldTraps = [] → s'.hbm = s.hbm) ∧
      (s'.launch id).lastCluster = some c ∧ ∀ g ∈ (s.block k).groups, s.groups.has g = true → clusterOf (s'.group g).core = c) ∧
  (∀ s p, ((s.part p).bubble = none → exec (.bubbleSlotEnd p) s = .next s) ∧
    (∀ b, (s.part p).bubble = some b → (s.ns < b.ends → exec (.bubbleSlotEnd p) s = .next s) ∧
      (b.ends ≤ s.ns → ∃ s', exec (.bubbleSlotEnd p) s = .next s' ∧ (s'.part p).bubble = none ∧ s'.threads = s.threads ∧
        ∀ i x, s.blocks.find? i = some x → let l := s.launch x.launch
          s'.block i = { x with due :=
            if l.part = p ∧ l.pkt.cls ≠ 0 ∧ l.priv = false ∧ x.save = .resident ∧ x.due = none then some (b.ends + 1000 * b.allowance) else x.due }))) ∧
  (∀ s p k x o, (s.blocks.items.filter fun e => (s.launch e.2.launch).part == p && e.2.save == .resident && (match e.2.due with
      | some t => decide (t ≤ s.ns)
      | none => false)) = [(k, x)] → s.block k = x → s.blockLive k ≠ [] → saveable s k = true →
    frameFor s p (frameSize s x) = some o → let f := s.freeBytes (frameSize s x)
    ∀ s1, areaWrite f.2 (s.launch x.launch).ctx (locateDie s p) (((saveArea s p).getD (0, 0)).1 + o) f.1 = some s1 →
    ∃ s', exec (.bubbleOverrunSave p) s = .next s' ∧ (s'.block k).save = .queued o (frameSize s x) ∧
      (s'.part p).frames = (s.part p).frames ++ [(o, frameSize s x)] ∧ s'.hbm = s1.hbm ∧ s'.flats = s.flats)

/-- R287..R292, R294, R303, R304: PROMPTER JOBS: a job popped is read, checked and begun, or waits behind an earlier one of its slot,
after which it is begun; eight are worked on at once; a swap leaves the queue as it is; the end marker stops its prompter, a job that
cannot be read is recorded; a finished job is published where its ring has room, and recorded where its ring cannot be reached. -/
def Obligations.PrompterJobs : Prop :=
  (∀ s d n q e st r, d < 2 → n < 4 → s.running = true → sysBits s (RegNo.prmSeqBase n) d 0 0 = 1 →
    let p := sysBits s (RegNo.prmSeqBase n) d 63 61
    let h := (sysGet s (RegNo.prmInq n) d).toNat
    let m := prompterOf s d n
    h ≠ 0 → m.stopped = false → m.working < 8 → m.held = none → swapping s p d = false → (s.part p).cues.find? h = some q → q.entries = (e, st) :: r →
    (e = endMarker → exec (.prompterJobPop d n) s = .next (onPrompter s d n fun x => { x with stopped := true })) ∧
    (e ≠ endMarker → e.toNat % 128 ≠ 0 → exec (.prompterJobPop d n) s = .next (prmErr (takeEntry s p h) d n 1 e.toNat)) ∧
    (e ≠ endMarker → e.toNat % 128 = 0 → (∀ s1 c f, c ≠ .memerr → agentRead s p e.toNat 128 = (.fault c f, s1) →
        exec (.prompterJobPop d n) s = .next (prmErr (takeEntry s1 p h) d n 1 e.toNat)) ∧
      (∀ s1 b, agentRead s p e.toNat 128 = (.ok b, s1) → let slot := bits (natOfBytes (b.take 4)) 13 0
        let j := Job.ofDesc p e.toNat (sysBits s (RegNo.prmSeqBase n) d 56 7 * 128 + 128 * (slot / 4)) b
        ((∀ o ∈ m.jobs, o.slot ≠ slot) → ∀ j1 s2, prepare s1 n j = some (j1, s2) →
          exec (.prompterJobPop d n) s = .next (onPrompter (takeEntry s2 p h) d n fun x => { x with jobs := x.jobs ++ [j1] })) ∧
        ((∃ o ∈ m.jobs, o.slot = slot) →
          exec (.prompterJobPop d n) s = .next (onPrompter (takeEntry s1 p h) d n fun x => { x with jobs := x.jobs ++ [j] }))))) ∧
  (∀ s d n, d < 2 → n < 4 → s.running = true → let m := prompterOf s d n
    (8 ≤ m.working → exec (.prompterJobPop d n) s = .next s) ∧
    (m.working < 8 → m.held = none → swapping s (sysBits s (RegNo.prmSeqBase n) d 63 61) d = true → exec (.prompterJobPop d n) s = .next s) ∧
    (m.working < 8 → ∀ j i j1 s1, m.held = some (j, i) → prepare s n j = some (j1, s1) →
      exec (.prompterJobPop d n) s = .next (onPrompter s1 d n fun x => { x with jobs := x.jobs.set i j1 }))) ∧
  (∀ s d n code addr, (sysBits s (RegNo.prmErr n) d 63 60 = 0 → prmErr s d n code addr =
      sysPut s (RegNo.prmErr n) d (BitVec.ofNat 64 (code * 2 ^ 60 + addr % 2 ^ 57))) ∧
    (sysBits s (RegNo.prmErr n) d 63 60 ≠ 0 → prmErr s d n code addr = s)) ∧
  (∀ s n j, j.descOk n = false → prepare s n j = some (j.fail 9, s)) ∧
  (∀ s n j s1 b, j.descOk n = true → agentRead s j.part j.seqAt 128 = (.ok b, s1) → let j1 := { j with seqd := wordsOfBytes b }
    (j1.seqOk = false → prepare s n j = some (j1.fail 9, s1)) ∧
    (j1.seqOk = true → ∀ ws s2, readProgram 64 s1 j.part (j1.sq2 2) = (.ok ws, s2) →
      prepare s n j = some (if programOk ws then { j1 with prog := ws } else j1.fail 8, s2))) ∧
  (∀ s d n j, (prompterOf s d n).jobs = [j] →
    let gone := fun (s : State) => onPrompter s d n fun x => { x with jobs := x.jobs.eraseIdx 0 }
    (j.finished = false → exec (.prompterPublish d n) s = .next s) ∧
    (j.finished = true →
      (publishJob s j = .wait → exec (.prompterPublish d n) s = .next s) ∧
      (∀ s1, publishJob s j = .drop s1 → exec (.prompterPublish d n) s = .next (prmErr (gone s1) d n 2 j.addr)) ∧
      (∀ s1, publishJob s j = .done s1 → exec (.prompterPublish d n) s = .next (gone s1)))) ∧
  (∀ s j s1 hb, agentRead s j.part j.ring 16 = (.ok hb, s1) →
    (ringHead hb).cap < ((ringHead hb).tail + j.outs.length + 2 ^ 24 - (ringHead hb).consumed) % 2 ^ 24 → publishJob s j = .wait) ∧
  (∀ slot pos st tok, ringEntry slot (pos, st, tok) = tok.toNat + slot * 2 ^ 32 + pos * 2 ^ 46 + st * 2 ^ 49)

/-- R233, R234, R282..R285: COPIES AND COLLECTIVES: cp.ready releases at .sys and lists its record, and is held for room where the table
is full or lists its identifier; cp.coll issues a collective copy;
its pulls are asked for once, the part's own tile is pulled last; a copy completes with its words written and its batch told, or meets
a fault that its batch records; a record whose pulls are done leaves the table. -/
def Obligations.CopiesComplete : Prop :=
  (∀ (a : DescArgs) b s t, Sole (.cpReady a) b s t → let s0 := afterIssue b s
    let d := (List.range 16).map fun n => (s0.groupOf t).k.findD (a.k.toNat + n) 0
    let x := s0.part (s0.partOf t)
    (readyOk d = false → exec (.cpReady a) s = .next (trapsAt b s t .cpDesc 0 0)) ∧
    (readyOk d = true → ∃ s', exec (.cpReady a) s = .next s' ∧
      (s'.part (s0.partOf t)).ready = x.ready ++ [⟨d.getD 2 0, dwordAt d 0, fieldOf d 3 23 0, fieldOf d 4 23 0, d.getD 5 0, fieldOf d 6 15 0,
        0, [], dwordAt d 8, s0.ctxOf t, t, s0.hist.next⟩] ∧ (∀ u, (s'.thread u).v = (s0.thread u).v ∧ (s'.thread u).pc = (s0.thread u).pc) ∧
      s'.hbm = s0.hbm ∧ s'.flats = s0.flats ∧ s'.groups = s0.groups)) ∧
  (∀ s (a : DescArgs) c t, let x := (s.part (s.partOf t)).ready
    (1024 ≤ x.length ∨ (x.any fun r => r.tid == (s.groupOf t).k.findD (a.k.toNat + 2) 0) = true) → roomless s (.cpReady a) c [t] = ([t], none)) ∧
  (∀ (a : DescArgs) b s t, Sole (.cpColl a) b s t → let s0 := afterIssue b s
    let d := (List.range 16).map fun n => (s0.groupOf t).k.findD (a.k.toNat + n) 0
    (collOk s0 (s0.partOf t) d = false → exec (.cpColl a) s = .next (trapsAt b s t .cpDesc 0 0)) ∧
    (collOk s0 (s0.partOf t) d = true →
      exec (.cpColl a) s = .next { s0 with
        ctr := s0.ctr + 1
        copies := s0.copies.set s0.ctr ⟨.coll, t, b.core, clusterOf b.core, s0.ctxOf t, s0.partOf t, d,
          unionN (s0.hist.own t) (s0.thread t).snap.need, none, .empty, none, false, .empty, [], [], 0⟩
        threads := s0.threads.modify t fun th => { th with unsealed := { th.unsealed with copies := th.unsealed.copies ++ [s0.ctr] } } })) ∧
  (∀ s id cp, s.copies.find? id = some cp → cp.kind = .coll → cp.suspended = false →
    let src := collSources s cp.part cp.desc
    let others := src.filter (· != selfRank s cp.part)
    (cp.asked = none → ∃ s', exec (.collPull id) s = .next s' ∧ s'.copies = s.copies.set id { cp with asked := some s.clk } ∧
      s'.pkg.sent = s.pkg.sent ++ others.map (fun r => .pull cp.part r (cp.desc.getD 2 0)) ∧ s'.threads = s.threads ∧ s'.hbm = s.hbm) ∧
    (∀ r, cp.asked.isSome = true → src.contains (selfRank s cp.part) = true → cp.pulled.has (selfRank s cp.part) = false →
      others.all cp.pulled.has = true → ((s.part cp.part).ready.find? fun r => r.tid == cp.desc.getD 2 0) = some r →
      (r.rcnt ≤ r.pulls + r.asked.length → exec (.collPull id) s = .next s) ∧
      (r.pulls + r.asked.length < r.rcnt → r.rowb = fieldOf cp.desc 3 23 0 → r.rows = fieldOf cp.desc 4 23 0 →
        let s1 := onReady s cp.part (cp.desc.getD 2 0) fun r => { r with pulls := r.pulls + 1 }
        ∀ s2 x, tileBytes s1 r = (.ok x, s2) → exec (.collPull id) s =
          .next { s2 with copies := s2.copies.set id { cp with pulled := cp.pulled.set (selfRank s cp.part) x } }))) ∧
  (∀ s p n r, ((s.part p).ready.find? fun r => r.tid.toNat == n) = some r → (r.pulls < r.rcnt → exec (.readyRecordRetire p n) s = .next s) ∧
    (r.rcnt ≤ r.pulls → r.rcue = 0 → exec (.readyRecordRetire p n) s =
      .next (s.onPart p fun x => { x with ready := x.ready.filter fun y => y.tid != r.tid }))) ∧
  (∀ s id cp, s.copies.find? id = some cp → (copyReady s cp = false → exec (.copyComplete id) s = .next s ∧ exec (.copyFault id) s = .next s) ∧
    (copyReady s cp = true → let a := copyWhole s cp
      (a.wait = false → a.fault = none → cp.kind ≠ .coll → exec (.copyComplete id) s =
        .next (sweep (copyDone a.s id cp a.cp.flags none a.cp.stores))) ∧
      (a.fault.isSome = true → exec (.copyComplete id) s = .next s) ∧
      ((cp.kind = .accrd ∨ cp.kind = .acccvt) → cp.tilePoison.isSome = true → exec (.copyComplete id) s = .next s ∧
        exec (.copyFault id) s = .next (copyCut s id cp (.memerr, dwordAt cp.desc 0))) ∧
      (∀ f, a.wait = false → a.fault = some f → exec (.copyFault id) s = .next (copyCut s id cp f)))) ∧
  (∀ s id cp d b o d2 b2 o2, s.copies.find? id = some cp → cp.kind = .rows → cp.suspended = false → cp.got = .empty → cp.made = [] → s.winWrites = [] → fieldOf cp.desc 4 31 24 = 0 →
    fieldOf cp.desc 4 23 0 = 4 → fieldOf cp.desc 5 23 0 = 1 → dwordAt cp.desc 0 % 4 = 0 → dwordAt cp.desc 2 % 4 = 0 →
    targetOf s cp.ctx cp.core (s.privOf cp.tid) (dwordAt cp.desc 0) ⟨true, false, false⟩ = .ok (.flat d b o) →
    targetOf s cp.ctx cp.core (s.privOf cp.tid) (dwordAt cp.desc 2) ⟨false, true, false⟩ = .ok (.flat d2 b2 o2) →
    flatPoisoned s d b o 4 = false → (s.thread cp.tid).held ≠ .waiting → ∃ s', exec (.copyComplete id) s = .next s' ∧
      s'.flats = Memory.writeN s.flats (bankKey d2 b2 o2) (Memory.readN s.flats (bankKey d b o) 4) ∧ s'.copies = s.copies.erase id ∧ s'.hbm = s.hbm) ∧
  (∀ s id cp fl f st, ((s.thread cp.tid).held ≠ .waiting ∨ ∀ n w, (s.thread cp.tid).why ≠ .cp n w) → let s' := copyDone s id cp fl f st
    s'.copies = s.copies.erase id ∧ (∀ u, u ≠ cp.tid → s'.thread u = s.thread u) ∧ s'.hbm = s.hbm ∧ s'.flats = s.flats ∧
    (s.threads.has cp.tid = true → ∀ (n : Nat) (x : Batch), (s.thread cp.tid).batches[n]? = some x →
      (s'.thread cp.tid).batches[n]? = some (if x.copies.contains id then
        { x with copies := x.copies.filter (· != id), flags := x.flags ||| fl, stores := unionN x.stores st, fault := x.fault.or f } else x)))

/-- R248, R283, R284, R393..R395: SCALE-OUT: a pull of a live record is answered with its tile; a tile that arrives joins the collective
that asked for it and is acknowledged; an acknowledgement counts as a pull; a superstep message completes the phase with the last
rank's; a message to a rank is to be acknowledged, and a pull, a tile or a superstep message that is not in time is reported; a group is enabled from a rank table that keeps its form; a port's training ends. -/
def Obligations.ScaleOut : Prop :=
  (∀ (m : UeMsg) s r, ((s.part m.part).ready.find? fun r => r.tid == m.tid) = some r →
    (r.rcnt ≤ r.pulls + r.asked.length → exec (.uePullRequest m) s = .next s) ∧
    (r.pulls + r.asked.length < r.rcnt → ∀ s1 x, tileBytes s r = (.ok x, s1) → exec (.uePullRequest m) s =
      .next ((onReady s1 m.part m.tid fun r => { r with asked := r.asked ++ [(m.rank, s1.clk)] }).send (.tile m.part m.rank m.tid x)))) ∧
  (∀ (m : UeMsg) s id cp, (s.copies.items.find? fun e => e.2.kind == .coll && e.2.part == m.part && e.2.desc.getD 2 0 == m.tid && e.2.asked.isSome &&
      !e.2.pulled.has m.rank && m.rank != selfRank s m.part && (collSources s m.part e.2.desc).contains m.rank) = some (id, cp) →
    let s1 := s.send (.ack m.part m.rank m.tid)
    ((m.val = fieldOf cp.desc 3 23 0 ∧ m.data.length = fieldOf cp.desc 3 23 0 * fieldOf cp.desc 4 23 0) → exec (.ueTileData m) s =
      .next { s1 with copies := s.copies.set id { cp with pulled := cp.pulled.set m.rank m.data } }) ∧
    ((m.val ≠ fieldOf cp.desc 3 23 0 ∨ m.data.length ≠ fieldOf cp.desc 3 23 0 * fieldOf cp.desc 4 23 0) →
      exec (.ueTileData m) s = .next (copyDone s1 id cp 0 (some (.cpDesc, 0)) []))) ∧
  (∀ (m : UeMsg) s, m.step = false → exec (.ueAcknowledgement m) s = .next (s.onPart m.part fun x => { x with ready := x.ready.map fun r =>
    if r.tid = m.tid then ((r.asked.find? fun y => y.1 == m.rank).map fun y => { r with asked := r.asked.erase y, pulls := r.pulls + 1 }).getD r else r })) ∧
  (∀ (m : UeMsg) s, m.step = true → ∃ s', exec (.ueAcknowledgement m) s = .next s' ∧ (s'.part m.part).ready = (s.part m.part).ready ∧
    (∀ x, x ∈ (s'.part m.part).steps ↔ x ∈ (s.part m.part).steps ∧ ¬(x.rank = m.rank ∧ x.obj = m.obj.toNat ∧ x.gen = m.val % 256)) ∧
    s'.threads = s.threads ∧ s'.copies = s.copies ∧ s'.hbm = s.hbm) ∧
  (∀ s p va g, (∃ r ∈ superPeers s p, ((s.part p).peers.findD (peerKey r va) 0).testBit g = false) → let s' := superOwn s p va g
    (s'.part p).steps = (s.part p).steps ++ (superPeers s p).map (fun r => ⟨r, va, g, s.clk⟩) ∧
    s'.pkg.sent = s.pkg.sent ++ (superPeers s p).map (fun r => .superstep p r va g) ∧ s'.threads = s.threads) ∧
  (∀ (m : UeMsg) s, let g := m.val % 256
    let va := m.obj.toNat
    let s1 := s.onPart m.part fun x => { x with peers := x.peers.update (peerKey m.rank va) 0 fun n => n ||| 2 ^ g }
    (((s.part m.part).supers.findD va 0).testBit g = false → exec (.ueSuperstepMessage m) s = .next s1) ∧
    (((s.part m.part).supers.findD va 0).testBit g = true →
      (∀ r ∈ superPeers s m.part, ((s1.part m.part).peers.findD (peerKey r va) 0).testBit g = true) →
      ∃ s', exec (.ueSuperstepMessage m) s = .next s' ∧ ∀ t l sc, (s.thread t).why = .bar l va g true sc → s.partOf t = m.part →
        s.threads.has t = true → s.threads.keys.Nodup → (s'.thread t).held = .ready ∧ (s'.thread t).pc = (s.thread t).pc + 8 ∧
          (s'.thread t).v = (s.thread t).v)) ∧
  (∀ s id cp c r, s.copies.find? id = some cp → cp.kind = .coll → cp.asked = some c →
    ((collSources s cp.part cp.desc).find? fun r => r != selfRank s cp.part && !cp.pulled.has r) = some r →
    (sysBits s RegNo.uepTmo cp.part 15 0 * 1250000 ≤ s.clk - c → exec (.scaleoutTimeout (.pull id)) s = .next (hlkErr s cp.part 2 r)) ∧
    (s.clk - c < sysBits s RegNo.uepTmo cp.part 15 0 * 1250000 → exec (.scaleoutTimeout (.pull id)) s = .next s)) ∧
  (∀ s p rank (tid : Word) r x, ((s.part p).ready.find? fun r => r.tid == tid) = some r → (r.asked.find? fun x => x.1 == rank) = some x →
    (sysBits s RegNo.uepTmo p 15 0 * 1250000 ≤ s.clk - x.2 → exec (.scaleoutTimeout (.tile p rank tid)) s = .next (hlkErr s p 2 rank)) ∧
    (s.clk - x.2 < sysBits s RegNo.uepTmo p 15 0 * 1250000 → exec (.scaleoutTimeout (.tile p rank tid)) s = .next s)) ∧
  (∀ s p x (obj : Dword), obj.toNat = x.obj → (s.part p).steps = [x] →
    (sysBits s RegNo.uepTmo p 15 0 * 1250000 ≤ s.clk - x.sent → exec (.scaleoutTimeout (.step p x.rank obj x.gen)) s = .next (hlkErr s p 2 x.rank)) ∧
    (s.clk - x.sent < sysBits s RegNo.uepTmo p 15 0 * 1250000 → exec (.scaleoutTimeout (.step p x.rank obj x.gen)) s = .next s)) ∧
  (∀ s a k p x, WritesReg s a RegNo.uepGrp k p x → x.getLsbD 63 = true → let n := RegNo.uepGrp
    let new := regStored n ⟨.part, false, true, maskBits 63 63 + maskBits 59 24 + maskBits 11 0, 0, true, false⟩ (sysGet s n k) x
    (groupBusy s k = true → exec (.uepGroupEnable a) s = .next (sysPutBits s n k 62 61 1)) ∧
    (groupBusy s k = false →
      (∀ s1, readTable s k x = (.invalid, s1) → exec (.uepGroupEnable a) s = .next (sysPut s1 n k (putBits (putBits new 63 63 0) 62 61 2))) ∧
      (∀ s1 l, readTable s k x = (.ranks l, s1) → exec (.uepGroupEnable a) s =
        .next ((sysPut s1 n k (putBits new 62 61 0)).onPart k fun y => { y with ranks := l })))) ∧
  (∀ s port up, (port < 8 → sysBits s (RegNo.uepCtl port) 0 25 24 = 1 → exec (.uePortTrainingEnd port up) s =
      .next (sysPutBits s (RegNo.uepCtl port) 0 25 24 (if up then 2 else 0))) ∧
    (sysBits s (RegNo.uepCtl port) 0 25 24 ≠ 1 → exec (.uePortTrainingEnd port up) s = .next s))

/-- R396..R401, R405: THE BOOT AND SECURITY CORE: a command block is queued, where there is room; the command at the head is carried out
and completed with its status: a block that breaks its table BADCMD, an object by the first check it fails, a report, the chain, an
empty cache, a counter raised and never lowered; completion drops the head and raises vector 3. -/
def Obligations.BootCommands : Prop :=
  (∀ s a k p x, WritesReg s a RegNo.bootCmd k p x →
    ((s.part k).boot.length < 16 → exec (.bootCmdQueue a) s = .next ((sysPutBits s RegNo.bootCmd k 1 0 0).onPart k fun y =>
      { y with boot := (s.part k).boot ++ [(bits x.toNat 56 8 * 256, a.who)] })) ∧
    (16 ≤ (s.part k).boot.length → exec (.bootCmdQueue a) s = .next (sysPutBits s RegNo.bootCmd k 1 0 1))) ∧
  (∀ s p c s1, s.running = true → headCmd s p = some (some c, s1) → let n0 := s1.hist.next
    let k := s1.pkg.sent.length
    let ends := fun (i : Instr) (n : Nat) (e : CmdEnd) => c.cmd = n → c.clean = true →
      (∀ st len s3, e = .done st len s3 → exec i s = .next (complete s3 p c n0 k st len)) ∧ (e = .wait → exec i s = .next s)
    (c.clean = false →
      (c.cmd = 1 → exec (.bootLoad p) s = .next (complete s1 p c n0 k .badcmd 0)) ∧ (c.cmd = 2 → exec (.bootAttest p) s = .next (complete s1 p c n0 k .badcmd 0)) ∧
      (c.cmd = 3 → exec (.bootCert p) s = .next (complete s1 p c n0 k .badcmd 0)) ∧ (c.cmd = 4 → exec (.bootEvict p) s = .next (complete s1 p c n0 k .badcmd 0)) ∧
      (c.cmd = 5 → exec (.bootSvnadv p) s = .next (complete s1 p c n0 k .badcmd 0)) ∧
      (c.cmd = 0 ∨ 5 < c.cmd → exec (.bootBadcmd p) s = .next (complete s1 p c n0 k .badcmd 0))) ∧
    (∀ s2 b, agentRead s1 p c.src c.srcLen = (.ok b, s2) → ends (.bootLoad p) 1 (loadObject s2 p c ⟨b⟩)) ∧
    (∀ s2 f r, agentRead s1 p c.src c.srcLen = (.fault f r, s2) → f ≠ .memerr → ends (.bootLoad p) 1 (.done .fault 0 s2)) ∧
    (∀ s2 b, agentRead s1 p c.src 64 = (.ok b, s2) → ends (.bootAttest p) 2 (output s2 p c (report s2 p b))) ∧
    ends (.bootCert p) 3 (output s1 p c (Config.sealed 3 [])) ∧
    ends (.bootEvict p) 4 (.done .ok 0 (s1.onPart p fun x => { x with xcache := [] })) ∧
    (∀ v, c.who = .vf v → ends (.bootSvnadv p) 5 (.done .priv 0 s1)) ∧
    (c.who = .pf → ends (.bootSvnadv p) 5 (if 63 < bits c.arg 7 0 then .done .badcmd 0 s1
      else .done .ok 0 (raiseSvn s1 (bits c.arg 10 8) (bits c.arg 7 0))))) ∧
  (∀ s p c n0 k st len, ((complete s p c n0 k st len).part p).boot = (s.part p).boot.drop 1 ∧
    ∃ l, ((complete s p c n0 k st len).part p).msix = l ++ [3]) ∧
  (∀ s c n, n < 64 → svnOf (raiseSvn s c n) c = max (svnOf s c) n) ∧
  (∀ s p c o, (o.layoutOk = false → loadObject s p c o = .done .badobj 0 s) ∧
    (o.layoutOk = true → keyOk s o = false → loadObject s p c o = .done .badsig 0 s) ∧
    (o.layoutOk = true → pssVerify o.modulus o.signature o.signed = false → loadObject s p c o = .done .badsig 0 s) ∧
    (∀ st n s', loadObject s p c o = .done st n s' → st = .ok → o.layoutOk = true ∧ keyOk s o = true ∧
      pssVerify o.modulus o.signature o.signed = true ∧ svnOf s o.cls ≤ o.svn)) ∧
  (∀ s p b, b.length = 64 → (report s p b).length = 1024 ∧ (report s p b).take 4 = bytesOfNat 4 0x41564C4E ∧ ((report s p b).drop 16).take 64 = b) ∧
  (∀ s p c b, c.dstCap < b.length → output s p c b = .done .nospace 0 s)

/-- R8, R404, R405, R407, R411: STARTS AND POWER: a normal attempt resets the part, counts as a failure until step 8 succeeds, goes step by
step, and ends with the reason of the step that fails; after three failures the part starts as an understudy; a write of half of BOOT_FAILS without its COUNT leaves it; a ready stage manager ends the start
in normal mode; a thermal trip kills all there is; loss of power leaves flash, fuses and keys. -/
def Obligations.StartsAndPower : Prop :=
  let cold := fun (s s' : State) => s'.threads = .empty ∧ s'.groups = .empty ∧ s'.launches = .empty ∧ s'.hbm = [] ∧ s'.flats = [] ∧ s'.loft = [] ∧
    s'.host = s.host ∧ s'.pkg.flash = s.pkg.flash ∧ s'.pkg.ownerKeys = s.pkg.ownerKeys
  (∀ s b r, b = (s.pkg.start == Start.off) → s.pkg.fails ≤ 3 → (s.pkg.fails ≠ 3 ∨ s.pkg.tripped = true) → r.all startReason = true →
    ∃ s', exec (.startAttempt ⟨b, r⟩) s = .next s' ∧ cold s s' ∧ s'.pkg.start = .starting 0 1 r ∧ s'.pkg.pcie = false ∧
      s'.pkg.fails = min 3 (s.pkg.fails + 1) ∧ sysBits s' RegNo.bootStatus 0 23 16 = 1 ∧ sysBits s' RegNo.bootStatus 0 7 0 = 0 ∧
      ∀ n i, (regKey n i < regKey (RegNo.bootSvn 0) 0 ∨ regKey (RegNo.bootSvn 7) 255 < regKey n i) → regKey n i ≠ regKey RegNo.bootStatus 0 → sysGet s' n i = regReset n i) ∧
  (∀ s c k r, s.pkg.start = .starting c k r → k < 8 →
    (∀ x, r = some x → reasonStep x = k → ∃ s', runTurn .boot s = .next s' ∧ s'.pkg.start = .failed ∧ s'.pkg.pcie = false ∧ s'.pkg.reason = x ∧
      s'.pkg.fails = s.pkg.fails ∧ sysBits s' RegNo.bootStatus 0 31 24 = x.toNat) ∧
    ((∀ x, r = some x → reasonStep x ≠ k) → ∃ s', runTurn .boot s = .next s' ∧ s'.pkg.start = .starting c (k + 1) r ∧
      sysBits s' RegNo.bootStatus 0 23 16 = k + 1 ∧ s'.pkg.pcie = (k == 6 || s.pkg.pcie) ∧ s'.pkg.fails = s.pkg.fails ∧
      (k = 5 → ∀ d, d < 2 → (sysGet s' RegNo.loftRef d).toNat ≤ s'.ns) ∧ s'.threads = s.threads ∧ s'.hbm = s.hbm)) ∧
  (∀ s b, b = (s.pkg.start == Start.off) → s.pkg.fails = 3 → s.pkg.tripped = false → ∃ s', exec (.startAttempt ⟨b, none⟩) s = .next s' ∧ cold s s' ∧
    s'.pkg.start = .understudy ∧ s'.pkg.pcie = true ∧ s'.pkg.fails = 3 ∧ sysGet s' RegNo.pcl 0 = 0x0000_0001_0000_0001 ∧ sysBits s' RegNo.bootStatus 0 7 0 = 2) ∧
  (∀ s b r, b ≠ (s.pkg.start == Start.off) → exec (.startAttempt ⟨b, r⟩) s = .next s) ∧
  (∀ s c r, s.pkg.start = .starting c 8 r →
    (s.clk - c ≤ 37_500_000_000 → ∃ s', exec .stageManagerReady s = .next s' ∧ s'.pkg.start = .normal ∧ s'.pkg.fails = 0 ∧ s'.pkg.reason = 0 ∧
      sysBits s' RegNo.bootStatus 0 7 0 = 1 ∧ sysBits s' RegNo.bootStatus 0 23 16 = 0xFF ∧
      (∀ p, p < 8 → sysBits s' (RegNo.uepCtl p) 0 25 24 = 1) ∧ s'.threads = s.threads ∧ s'.hbm = s.hbm) ∧
    (37_500_000_000 < s.clk - c → exec .stageManagerReady s = .next s) ∧
    (s.clk - c < 37_500_000_000 → exec .startTimeout s = .next s) ∧
    (37_500_000_000 ≤ s.clk - c → ∃ s', exec .startTimeout s = .next s' ∧ s'.pkg.start = .failed ∧ s'.pkg.pcie = false ∧ s'.pkg.reason = 0x60 ∧
      sysBits s' RegNo.bootStatus 0 31 24 = 0x60) ∧
    (∃ s', exec .startPowerFault s = .next s' ∧ s'.pkg.start = .failed ∧ s'.pkg.pcie = false ∧ s'.pkg.reason = 0x70)) ∧
  (∀ s, ∃ s', exec .powerLoss s = .next s' ∧ cold s s' ∧ s'.pkg.start = .off ∧ s'.pkg.pcie = false ∧ s'.pkg.fails = s.pkg.fails ∧ s'.pkg.reason = s.pkg.reason) ∧
  (∀ s a k p x, WritesReg s a RegNo.bootFails k p x → exec (.bootFailsWrite a) s =
    .next (s.onPkg fun y => { y with fails := bits x.toNat 1 0, forced := bits x.toNat 1 0 == 3 })) ∧
  (∀ s (a : RegAcc) k p, s.running = true → a.reg.toNat = RegNo.bootFails → a.size = 4 → a.off = 4 → accessOk s a true = some (k, p) →
    exec (.registerWrite a) s = .next s) ∧
  (∀ s, (s.running = false → exec .thermalTrip s = .next s) ∧
    (s.running = true → ∃ s', exec .thermalTrip s = .next s' ∧ s'.pkg.start = .failed ∧ s'.pkg.pcie = false ∧ s'.pkg.tripped = true ∧ s'.pkg.reason = 0x70 ∧ sysBits s' RegNo.bootStatus 0 31 24 = 0x70 ∧
      s'.pkg.fails = min 3 (s.pkg.fails + 1) ∧ (∀ t, s.threads.has t = true → (s'.thread t).held = .exited) ∧
      (∀ l x, s.launches.find? l = some x → x.ended = none → x.retire = .live → (s'.launch l).ended = some .killed) ∧
      (∀ p, (s'.part p).tableau.armed = false)))

/-- R139, R383, R387, R391, R392: THE HOST LINK: BAR2 reads and writes through its window as a U access, all ones and no effect where it
cannot; a function-level reset ends its contexts and stops its queues; a PTM dialogue steps or slews device time; SPDM and MCTP are answered. -/
def Obligations.HostLink : Prop :=
  (∀ (a : Bar2Acc) s, functionUp s a.part = true →
    (bar2Map s a.part a.off.toNat = none →
      exec (.bar2Read a) s = .next ((hlkErr s a.part 1 a.off.toNat).send (.completion (List.replicate a.size 0xFF))) ∧
      exec (.bar2Write a) s = .next (hlkErr s a.part 1 a.off.toNat)) ∧
    (∀ c va, bar2Map s a.part a.off.toNat = some (c, va) →
      ((List.range a.size).any (fun i => inFlat (va + i)) = false → ∀ s1 b, readRange s c false va a.size = (.ok b, s1) →
        exec (.bar2Read a) s = .next (s1.send (.completion b))) ∧
      ((List.range a.size).any (fun i => inFlat (va + i)) = true →
        exec (.bar2Read a) s = .next ((hlkErr s a.part 1 va).send (.completion (List.replicate a.size 0xFF)))) ∧
      ((List.range a.data.length).any (fun i => inFlat (va + i)) = true → exec (.bar2Write a) s = .next (hlkErr s a.part 1 va)) ∧
      ((List.range a.data.length).any (fun i => inFlat (va + i)) = false →
        let r := publish s .outside .sys (hostStores s ++ List.range' s.hist.next (spans va a.data.length).length) false
        (∀ s2, writeRange r.2 c false (.agent [r.1]) va a.data = (.ok (), s2) → exec (.bar2Write a) s = .next (sweep s2)) ∧
        (∀ s2 f e, writeRange r.2 c false (.agent [r.1]) va a.data = (.fault f e, s2) → exec (.bar2Write a) s = .next (hlkErr s a.part 1 va))))) ∧
  (∀ s p, s.running = true → s.isUnderstudy = false → p < 8 → ∃ s', exec (.functionLevelReset p) s = .next s' ∧
    (∀ c, c < 255 → s.ctxPart c = some p → ∀ t ∈ s.ctxThreads c, (s'.thread t).held = .exited) ∧
    (∀ q, q < 64 → sysBits s' (RegNo.lq q) p 3 3 = 0) ∧ (s'.part p).notes = [] ∧ (s'.part p).boot = []) ∧
  (∀ s, s.running = true → ∃ s', exec (.functionLevelReset 8) s = .next s' ∧ sysBits s' RegNo.hatBase 0 0 0 = 0 ∧
    ∀ p, p < 8 → (s'.part p).notes = [] ∧ ∀ q, q < 64 → sysBits s' (RegNo.lq q) p 3 3 = 0) ∧
  (∀ s h, s.running = true → s.pkg.nsSlew = 0 → s.pkg.nsFrom ≤ s.clk → (0 : Int) ≤ 80000 * s.clk + 100000 * s.pkg.nsAdd →
    ∃ s', exec (.ptmDialogue h) s = .next s' ∧ sysBits s' RegNo.ptm 0 63 63 = 1 ∧
      (s.ns + 1000 < h.toNat → s'.ns = h.toNat ∧ s'.pkg.nsSlew = 0) ∧
      (h.toNat ≤ s.ns + 1000 → s'.ns = s.ns ∧ s'.pkg.nsSlew = (h.toNat : Int) - s.ns) ∧
      { s' with sys := s.sys, pkg := s.pkg } = s) ∧
  (
    let req := fun (mk : List Byte → Instr) (code : Byte) (after : Bool) (reply : List Byte → State → State) => ∀ m s, s.pkg.pcie = true →
      m.getD 1 0 = code → 4 ≤ m.length → (after = false ∨ s.pkg.algorithms = true → exec (mk m) s = .next (reply m s)) ∧
      (after = true → s.pkg.algorithms = false → exec (mk m) s = .next (s.send (.mctp [0x12, 0x7F, 0x04, 0])))
    req .spdmGetVersion 0x84 false (fun _ s => (s.onPkg fun x => { x with algorithms := false }).send (.mctp [0x12, 0x04, 0, 0, 0, 1, 0, 0x12])) ∧
    req .spdmGetCapabilities 0xE1 false (fun m s => s.send (.mctp ([0x12, 0x61, 0, 0] ++ spdmOpen m 16))) ∧
    (∀ m s, s.pkg.pcie = true → m.getD 1 0 = 0xE3 → 4 ≤ m.length →
      let ok := (natOfBytes ((m.drop 8).take 4)).testBit 2 && (natOfBytes ((m.drop 12).take 4)).testBit 2
      ∃ s', exec (.spdmNegotiateAlgorithms m) s = .next s' ∧ s'.pkg.algorithms = (if ok then true else s.pkg.algorithms) ∧ s'.threads = s.threads ∧
        ∃ b, s'.pkg.sent = s.pkg.sent ++ [.mctp ([0x12, if ok then 0x63 else 0x7F] ++ b)]) ∧
    req .spdmGetDigests 0x81 true (fun _ s => s.send (.mctp ([0x12, 0x01, 0, 1] ++ sha512 (Config.sealed 3 [])))) ∧
    req .spdmGetCertificate 0x82 true (fun m s =>
      let off := natOfBytes ((m.drop 4).take 2)
      let x := ((Config.sealed 3 []).drop off).take (natOfBytes ((m.drop 6).take 2))
      s.send (.mctp ([0x12, 0x02, m.getD 2 0, 0] ++ (bytesOfNat 2 x.length ++ bytesOfNat 2 ((Config.sealed 3 []).length - off - x.length) ++ x)))) ∧
    (∀ m s, s.pkg.pcie = true → m.getD 1 0 = 0x83 → 4 ≤ m.length → s.pkg.algorithms = true → ∃ n g, exec (.spdmChallenge m) s =
      .next (s.send (.mctp ([0x12, 0x03, m.getD 2 0, 1] ++ (sha512 (Config.sealed 3 []) ++ n ++ sha512 ((List.range 4).flatMap (measure s)) ++ [0, 0] ++ g))))) ∧
    (∀ m s, s.pkg.pcie = true → m.getD 1 0 = 0xE0 → 4 ≤ m.length → s.pkg.algorithms = true → ∃ s' h g, exec (.spdmGetMeasurements m) s = .next s' ∧
      s'.pkg.sent = s.pkg.sent ++ [.mctp ([0x12, 0x60, 4, 0] ++ h ++ ((List.range 4).flatMap fun i =>
        [BitVec.ofNat 8 (i + 1), 1] ++ bytesOfNat 2 67 ++ [BitVec.ofNat 8 i] ++ bytesOfNat 2 64 ++ measure s i) ++ g)] ∧ s'.threads = s.threads)) ∧
  (∀ m s, s.pkg.pcie = true → ∃ b, exec (.mctpControlMessage m) s = .next (s.send (.mctp b)))

/-- R64, R373, R378..R381, R409, R410: TUNING AND ERRORS: the issue fraction falls by one over the cap and rises below 95 % of it, within
4 to 16; the remote ways move by one, copies in ways given up are dropped, lines that still have a way stay; a droop stretches a
cluster's clock: clk pass in which %cyc stands; a retrain pauses the die-to-die link; an uncorrectable error
poisons its datum, is logged and ends a live owner; a scrub pass counts what it corrects. -/
def Obligations.TuningAndErrors : Prop :=
  (∀ s w t, s.running = true → let f := sysBits s RegNo.tunStat 0 19 15
    let cap := sysBits s RegNo.tunPwr 0 11 0
    ∃ s', exec (.issueFractionAdjust w t) s = .next s' ∧
      sysBits s' RegNo.tunStat 0 19 15 = (if s'.pkg.hotLoft = true ∨ cap < w then max 4 (f - 1) else if 100 * w < 95 * cap then min 16 (f + 1) else f) ∧
      s'.pkg.hotLoft = (decide (105 < t) || (s.pkg.hotLoft && decide (100 ≤ t))) ∧
      sysBits s' RegNo.tunStat 0 31 20 = min w 4095 ∧ sysBits s' RegNo.tunStat 0 7 0 = min t 255 ∧ { s' with sys := s.sys, pkg := s.pkg } = s) ∧
  (∀ s d k up, s.running = true → s.isUnderstudy = false → d < 2 → k < 16 → let c := sysBits s (RegNo.l2sRwf k) d 19 16
    (sysBits s (RegNo.l2sRwf k) d 31 31 = 1 → exec (.remoteWayAdjust d k up) s =
      .next (setWays s d k (if up then min 8 (c + 1) else c - 1))) ∧
    (sysBits s (RegNo.l2sRwf k) d 31 31 = 0 → exec (.remoteWayAdjust d k up) s = .next s)) ∧
  (∀ s d k n, let s1 := sysPutBits s (RegNo.l2sRwf k) d 19 16 n
    (n < remoteWays s d k → setWays s d k n = s1.onDie d fun y => { y with slices := y.slices.modify k fun z => { z with
      remote := z.remote.filter fun x => decide (((z.remote.takeWhile (· != x)).filter fun y => Machine.setOf y.2 == Machine.setOf x.2).length < n) } }) ∧
    (remoteWays s d k ≤ n → (∀ x ∈ ((s.die d).slices.findD k .empty).lines, (inSet s d k x.line).length + n < 16) → setWays s d k n = s1)) ∧
  (∀ s c n, s.running = true → c < 64 → ∃ s', exec (.clockStretch c n) s = .next s' ∧ s'.cyc c = s.cyc c ∧
    sysBits s' (RegNo.tunAvs c) 0 31 16 = min 65535 (sysBits s (RegNo.tunAvs c) 0 31 16 + 1) ∧ s'.threads = s.threads ∧ s'.clk = s.clk + n) ∧
  (∀ s n, s.running = true → exec (.serdesRetrain n) s = .next (s.onPkg fun x => { x with linkPause := s.clk + min n 1250 })) ∧
  (∀ s d, d < 2 → (sysBits s RegNo.scbCtl d 31 31 = 0 → exec (.scrubPass d) s = .next s) ∧
    (sysBits s RegNo.scbCtl d 31 31 = 1 → (s.die d).poisonHbm = [] → ∃ s' n, exec (.scrubPass d) s = .next s' ∧
      (s'.die d).corrected = min (2 ^ 32 - 1) ((s.die d).corrected + n) ∧ s'.threads = s.threads ∧ s'.hbm = s.hbm)) ∧
  (∀ s (e : UeErr), e.die < 2 → e.src = .hbm ∨ e.src = .msc → let o := physOwner s e.die e.addr
    ∃ b, b.length = 128 ∧ exec (.uncorrectableError e) s = .next (detectUe ({ s with
      ctr := s.ctr + 128, hbm := Memory.writeN s.hbm (hbmKey e.die (e.addr / 128 * 128)) b }.onDie e.die fun y =>
        { y with poisonHbm := unionN y.poisonHbm [e.addr / 128] }) e.src e.die e.addr o)) ∧
  (∀ s (e : UeErr), e.die < 2 → e.src = .flat → s.copies = .empty → let b := e.addr / 2 ^ 16 % 256
    ∃ s', exec (.uncorrectableError e) s = .next s' ∧ bankKey e.die b (e.addr % 2 ^ 16 * 4) / 4 ∈ (s'.die e.die).poisonFlat) ∧
  (∀ s (e : UeErr), e.die < 2 → e.src = .loft → ∃ s', exec (.uncorrectableError e) s = .next s' ∧ e.addr % loftBytes / 128 ∈ (s'.die e.die).poisonLoft) ∧
  (∀ s (e : UeErr), e.die < 2 → e.src = .tile → e.reader = none → let c := 32 * e.die + e.addr / 2 ^ 20 % 32
    ∃ s', exec (.uncorrectableError e) s = .next s' ∧ e.addr % 2 ^ 15 ∈ (tileNow s' c (e.addr / 2 ^ 15 % 32)).poison ∧
      s'.threads = s.threads ∧ s'.hbm = s.hbm ∧ s'.flats = s.flats) ∧
  (∀ s src d a o, (s.die d).ueLog.length < 16 → let s' := detectUe s src d a o
    ((s'.die d).ueLog = (s.die d).ueLog ++ [⟨ErrSrc.code src, o, liveCtx s o, a % 2 ^ 48⟩]) ∧ (s'.die d).ueLost = (s.die d).ueLost ∧
    (liveCtx s o = true → ∀ t ∈ s.ctxThreads o.toNat, (s'.thread t).held = .exited) ∧ (liveCtx s o = false → s'.threads = s.threads)) ∧
  (∀ s src d a o, 16 ≤ (s.die d).ueLog.length → ((detectUe s src d a o).die d).ueLog = (s.die d).ueLog ∧
    ((detectUe s src d a o).die d).ueLost = min 7 ((s.die d).ueLost + 1))

/-- R56, R67, R166, R323, R389: RESULTS THAT COME LATE: one that has arrived is written to its registers with its flags (but for a
register that a debugger has written since, R83: its number is then 1024), and a thread that awaited it goes on where nothing else is
awaited; the compatibility
unit returns one of its results; a fault reaches the core for those whose access met it, and a replay sends what was resolved again;
a host completion brings a load the host's bytes. -/
def Obligations.LateResults : Prop :=
  (∀ s t p, (s.thread t).pend.filter (fun p => p.vals.isSome) = [p] → s.threads.has t = true → p.port = none → p.uniform = false → p.pred = false →
    s.groups.has (s.thread t).group = true → ∃ s', exec (.lateResultWrite t) s = .next s' ∧
      (s'.thread t).v = ((p.dst.zip (p.vals.getD [])).filter fun e => e.1 != 1024).foldl (fun v e => v.set e.1 e.2) (s.thread t).v ∧
      (s'.thread t).pend = (s.thread t).pend.filter (fun x => x.id != p.id) ∧ (s'.thread t).p = (s.thread t).p ∧ (s'.thread t).pc = (s.thread t).pc ∧
      (s'.group (s.thread t).group) = { s.group (s.thread t).group with fsr := (s.group (s.thread t).group).fsr ||| p.flags } ∧
      ((s.thread t).held = .stalled → (s.thread t).why = .result →
        (s'.thread t).held = (if (s'.thread t).pend = [] ∧ ∀ u ∈ s'.groupThreads (s.thread t).group, ∀ q ∈ (s'.thread u).pend, q.uniform = false
          then .ready else .stalled)) ∧
      (∀ u, u ≠ t → s'.thread u = s.thread u) ∧ { s' with threads := s.threads, groups := s.groups } = s) ∧
  (∀ s d x p, (s.die d).xops = [x] → (s.thread x.tid).pend.find? (fun p => p.id == x.pend) = some p → ∃ s', exec (.xopResultReturn d) s = .next s' ∧
    s' = landPend (sysPutBits (s.onDie d fun y => { y with xops := [] }) RegNo.xcuStat d 63 32 (sysBits s RegNo.xcuStat d 63 32 + 1)) x.tid
      { p with vals := some x.vals }) ∧
  (∀ s e (met : Req → Bool), (∀ r, met r = true ↔ ∃ f, r.st = .fault f) → exec (.lateFaultArrival e) s = .next (s.onCore (e / 256) fun k => { k with log := k.log.modify (e % 256) fun x =>
    { x with faulted := unionN x.faulted (x.threads.filter fun t => (s.thread t).out.any fun r => r.entry == some e && met r) } })) ∧
  (∀ s e x, (s.core (e / 256)).log.find? (e % 256) = some x →
    let due := x.threads.filter fun t => (s.thread t).out.any fun r => r.entry == some e && r.st == .resolved
    let resend := fun (r : Req) => if r.entry == some e && r.st == ReqSt.resolved then { r with st := ReqSt.sent } else r
    ∃ s', exec (.operandLogReplay e) s = .next s' ∧
      (∀ t ∈ due, s.threads.has t = true → s'.thread t = { s.thread t with out := (s.thread t).out.map resend }) ∧
      (∀ t, t ∉ due → s'.thread t = s.thread t) ∧
      (s'.core (e / 256)).log.find? (e % 256) = some { x with faulted := x.faulted.filter fun t => !due.contains t } ∧
      { s' with threads := s.threads, cores := s.cores } = s) ∧
  (∀ s t r pa a lt p ds fl sfu pc iw, (s.thread t).out.head? = some r → r.st = .host pa → r.acc = .load lt p → r.order = .none → s.quiet →
    hostAddr s r.loc pa = some a → (s.thread t).pend.find? (fun x => x.id == p) = some ⟨p, ds, false, false, none, none, fl, sfu, pc, iw⟩ →
    ∃ s', exec (.hostLinkCompletion t) s = .next s' ∧
      (s'.thread t).v = ((ds.zip (LT.value lt (Memory.readN s.host a r.size))).filter fun e => e.1 != 1024).foldl (fun v e => v.set e.1 e.2) (s.thread t).v ∧
      (s'.thread t).out = (s.thread t).out.filter (fun x => x.seq != r.seq) ∧ (s'.thread t).pc = (s.thread t).pc ∧
      (∀ u, u ≠ t → (s'.thread u).v = (s.thread u).v ∧ (s'.thread u).pc = (s.thread u).pc) ∧ s'.hbm = s.hbm ∧ s'.flats = s.flats ∧ s'.host = s.host)

/-- R27, R29..R31, R34, R46, R331: A BUILD BOUNDARY: bundles hold threads that can issue, of one context at one PC; a thread alone is its own
bundle, two threads of a group at one PC share one; a thread whose cause has cleared is READY again; a READY thread whose next word
waits for a result, a port or its accesses is STALLED. -/
def Obligations.BundlesBuilt : Prop :=
  (∀ s c, ∃ s', exec (.bundleBuild c) s = .next s' ∧
    (∀ b ∈ (s'.core c).bundles, ∀ t ∈ b, s'.canIssue t = true ∧ t ∈ coreThreads s c ∧
      ∀ u ∈ b, (s'.thread t).pc = (s'.thread u).pc ∧ s'.ctxOf t = s'.ctxOf u) ∧
    (∀ t, (s'.thread t).pc = (s.thread t).pc ∧ (s'.thread t).v = (s.thread t).v ∧ (s'.thread t).p = (s.thread t).p) ∧
    (∀ t ∈ coreThreads s c, (s.thread t).held = .stalled → causeClear s t = true → nextWait s t = none → (s'.thread t).held = .ready) ∧
    (∀ t ∈ coreThreads s c, ∀ w, (s.thread t).held = .ready → nextWait s t = some w → (s'.thread t).held = .stalled ∧ (s'.thread t).why = w) ∧
    s'.groups = s.groups ∧ s'.hbm = s.hbm ∧ s'.flats = s.flats) ∧
  (∀ s c t, coreThreads s c = [t] → s.canIssue t = true → nextWait s t = none → (s.core c).buckets = [] → (s.groupOf t).gathers = [] →
    ∃ s', exec (.bundleBuild c) s = .next s' ∧ (s'.core c).bundles = [[t]]) ∧
  (∀ s c t u, coreThreads s c = [t, u] → s.canIssue t = true → s.canIssue u = true → nextWait s t = none → nextWait s u = none →
    (s.core c).buckets = [] → (s.groupOf t).gathers = [] →
    (s.thread t).group = (s.thread u).group → (s.thread t).pc = (s.thread u).pc → (s.thread t).lane < (s.thread u).lane →
    ∃ s', exec (.bundleBuild c) s = .next s' ∧ (s'.core c).bundles = [[t, u]])

/-- R47, R331..R335, R412..R414: DEBUGGERS: dbgcur draws and dbgres opens the debug curtain of the threads its scope names, with their count;
dbgstep asks for one issue of a thread behind it, or says why there is none; the aperture reads and writes a curtained thread's state;
a tableau is armed, fired, disarmed, latched and written. -/
def Obligations.DebugAndTableau : Prop :=
  (∀ (a : DbgstepArgs) b s t, Sole (.dbgstep a) b s t → let s0 := afterIssue b s
    let h := (envOf s0 t).base1 a.h
    ((s0.handlePart h ≠ some (s0.partOf t) ∨ s0.byHandle h = none) → exec (.dbgstep a) s = .next (wroteRegs b s t [(a.d.toNat, 6)])) ∧
    (∀ u, s0.handlePart h = some (s0.partOf t) → s0.byHandle h = some u →
      ((s0.thread u).dc = false → exec (.dbgstep a) s = .next (wroteRegs b s t [(a.d.toNat, 5)])) ∧
      ((s0.thread u).dc = true → let hd := (s0.die (dieOf (s0.coreOf u))).halted.has (s0.ctxOf u)
        (hd = true → exec (.dbgstep a) s = .next (wroteRegs b s t [(a.d.toNat, 7)])) ∧
        (hd = false → (s0.thread u).held = .stalled → exec (.dbgstep a) s = .next (wroteRegs b s t [(a.d.toNat, 1)])) ∧
        (hd = false → (s0.thread u).held = .waiting → exec (.dbgstep a) s = .next (wroteRegs b s t [(a.d.toNat, 2)])) ∧
        (hd = false → (s0.thread u).held = .ready → ∃ s' ts, exec (.dbgstep a) s = .next s' ∧ u ∈ ts ∧ (a.all = false → ts = [u]) ∧
          (s'.core (s0.coreOf u)).steps = (s0.core (s0.coreOf u)).steps ++ [⟨t, u, ts, []⟩] ∧
          (s'.thread t).held = .stalled ∧ (s'.thread t).why = .step a.d.toNat ∧ (s'.thread t).pc = b.pc ∧ s'.hbm = s0.hbm ∧ s'.flats = s0.flats)))) ∧
  (let aimed := fun (s0 : State) (t : Nat) (h : Word) (u : Nat) => s0.handlePart h = some (s0.partOf t) ∧ s0.byHandle h = some u
  let missed := fun (mk : DbgArgs → Instr) => ∀ (a : DbgArgs) b s t, Sole (mk a) b s t → let s0 := afterIssue b s
    let h := (envOf s0 t).base1 a.h
    (s0.handlePart h ≠ some (s0.partOf t) → exec (mk a) s = .next (wroteRegs b s t [(a.d.toNat, 3)])) ∧
    (s0.handlePart h = some (s0.partOf t) → s0.byHandle h = none → exec (mk a) s = .next (wroteRegs b s t [(a.d.toNat, 2)]))
  missed .dbgcur ∧ missed .dbgres ∧
  (∀ (a : DbgArgs) b s t u, Sole (.dbgcur a) b s t → let s0 := afterIssue b s
    let hit := (scopeThreads s0 u a.sc).filter fun o => !s0.privOf o && !(s0.thread o).dc
    aimed s0 t ((envOf s0 t).base1 a.h) u → (∀ o ∈ hit, s0.threads.has o = true) → ∃ s', exec (.dbgcur a) s = .next s' ∧
      (∀ o ∈ hit, (s'.thread o).dc = true) ∧ (s'.thread t).v = (s0.thread t).v.set a.d.toNat (BitVec.ofNat 32 (hit.length % 2 ^ 16)) ∧
      (s0.privOf u = false → sysBits s' (RegNo.dbgCtl (s0.ctxOf u)) 0 8 8 = 1)) ∧
  (∀ (a : DbgArgs) b s t u, Sole (.dbgres a) b s t → let s0 := afterIssue b s
    let hit := (scopeThreads s0 u a.sc).filter fun o => (s0.thread o).dc
    aimed s0 t ((envOf s0 t).base1 a.h) u → (∀ o ∈ hit, s0.threads.has o = true) → ∃ s', exec (.dbgres a) s = .next s' ∧
      (∀ o ∈ hit, (s'.thread o).dc = false ∧ (s'.thread o).freePass = true) ∧
      (s'.thread t).v = (s0.thread t).v.set a.d.toNat (BitVec.ofNat 32 (hit.length % 2 ^ 16)) ∧ s'.hbm = s0.hbm)) ∧
  (∀ s a k n, n < 4 → ReadsReg s a (RegNo.dbgData n) k →
    (∀ t kd i, aperture s k n = some (t, kd, i) → exec (.dbgDataRead a) s = .next (replied (setSelErr s k n false) (resourceGet s t kd i))) ∧
    (aperture s k n = none → exec (.dbgDataRead a) s = .next (replied (setSelErr s k n true) 0))) ∧
  (∀ s a k p x n, n < 4 → WritesReg s a (RegNo.dbgData n) k p x →
    (∀ t kd i, aperture s k n = some (t, kd, i) → exec (.dbgDataWrite a) s = .next (resourceSet (setSelErr s k n false) t kd i x)) ∧
    (aperture s k n = none → exec (.dbgDataWrite a) s = .next (setSelErr s k n true))) ∧
  (∀ s t i x, s.threads.has t = true → ((resourceSet s t 0 i x).thread t).v = (s.thread t).v.set i (x.setWidth 32) ∧
    ((resourceSet s t 1 0 x).thread t).p = x.setWidth 7 ∧ ((resourceSet s t 6 0 x).thread t).pc = x ∧
    (resourceGet s t 0 i) = ((s.thread t).v.findD i 0).setWidth 64 ∧ resourceGet s t 6 0 = (s.thread t).pc) ∧
  (∀ (a : TblarmArgs) b s t, Sole (.tblarm a) b s t → let s0 := afterIssue b s
    let p := s0.partOf t
    let va := ((envOf s0 t).base2 a.a).toNat
    ((s0.part p).tableau.armed = true → exec (.tblarm a) s = .next (wroteRegs b s t [(a.d.toNat, 4)])) ∧
    ((s0.part p).tableau.armed = false →
      (va % 4096 ≠ 0 → exec (.tblarm a) s = .next (wroteRegs b s t [(a.d.toNat, 5)])) ∧
      (va % 4096 = 0 → ∀ s1 x, readRange s0 (s0.ctxOf t) true va 8 = (.ok x, s1) → natOfBytes x % 4096 = 0 → 4096 ≤ natOfBytes x → ∃ s',
        exec (.tblarm a) s = .next s' ∧ (s'.thread t).v = (s1.thread t).v.set a.d.toNat 0 ∧
        (s'.part p).tableau = ⟨true, a.fire, a.trig.toNat, if a.fire then 4 else 0, if a.fire then s1.handle t else 0xFFFF_FFFF, va, natOfBytes x,
          s1.ctxOf t, none, 0, 0, 0⟩))) ∧
  (∀ (a : TblreadArgs) b s t, Sole (.tblread a) b s t → let s0 := afterIssue b s
    let x := (s0.part (s0.partOf t)).tableau
    let w := (if x.armed then 1 else 0) + (if x.fired then 2 + 16 * x.code else 0) + x.written % 2 ^ 16 * 2 ^ 16
    ((x.armed = true ∨ x.fired = false) → exec (.tblread a) s = .next (wroteRegs b s t [(a.d.toNat, BitVec.ofNat 32 w)])) ∧
    (x.armed = false → x.fired = true → ∃ s', exec (.tblread a) s = .next s' ∧ (s'.thread t).v = (s0.thread t).v.set a.d.toNat (BitVec.ofNat 32 w) ∧
      s'.hbm = s0.hbm ∧ s'.flats = s0.flats)) ∧
  (∀ s a k p x, WritesReg s a RegNo.tblCtl k p x → let y := (s.part k).tableau
    (x.getLsbD 0 = true → x.getLsbD 1 = false →
      (y.armed = true → y.fired = false → y.trig.testBit 2 = true → exec (.tblFire a) s =
        .next (s.onPart k fun z => { z with tableau := { y with fired := true, code := 2, thread := 0xFFFF_FFFF } })) ∧
      ((y.armed = false ∨ y.fired = true ∨ y.trig.testBit 2 = false) → exec (.tblFire a) s = .next s)) ∧
    (x.getLsbD 0 = false → x.getLsbD 1 = true → ∃ s', exec (.tblDisarm a) s = .next s' ∧
      (s'.part k).tableau = (if y.armed = true ∧ y.fired = false then { y with armed := false } else y) ∧ s'.threads = s.threads)) ∧
  (∀ s, ∃ s', exec .tableauExternalTrigger s = .next s' ∧ s'.threads = s.threads ∧ ∀ p, p < 8 → let y := (s.part p).tableau
    (s'.part p).tableau = if y.armed = true ∧ y.fired = false ∧ y.trig.testBit 3 = true then { y with fired := true, code := 3, thread := 0xFFFF_FFFF } else y) ∧
  (∀ s p, let y := (s.part p).tableau
    (y.armed = true → y.fired = true → y.latched = none → ∃ s', exec (.tableauLatch p) s = .next s' ∧
      (s'.part p).tableau = { y with latched := some ((residentGroups s p).map fun e => groupRecord s e.1 e.2), ns := s.ns, clk := s.clk } ∧
      s'.pkg.sent = s.pkg.sent ++ [.trigOut] ∧ s'.threads = s.threads) ∧
    ((y.armed = false ∨ y.fired = false ∨ y.latched ≠ none) → exec (.tableauLatch p) s = .next s)) ∧
  (∀ s p l, let y := (s.part p).tableau
    y.latched = some l → (∀ n r s1, recAll y (l.take ((y.cap - 64) / 384)) s = (n, r, s1) → r ≠ .wait → ∃ s', exec (.tableauRecordsWritten p) s = .next s' ∧
      (s'.part p).tableau.armed = false ∧ (s'.part p).tableau.latched = none ∧ (s'.part p).tableau.written = n))

/-- R8, R42, R355 and the register maps: what power-on reset leaves: no thread, group, block, launch or copy, no supply, no failed start, the
stated values of registers, nothing set in the agenda; every memory canonical, and no byte of it written. That an unwritten byte reads 0 is
the model's choice (log entry 4), and so is the agenda (log entry 1). -/
def Obligations.ResetState : Prop :=
  let s := State.reset
  s.threads.items = [] ∧ s.groups.items = [] ∧ s.blocks.items = [] ∧ s.launches.items = [] ∧ s.copies.items = [] ∧ s.clk = 0 ∧
  s.agenda = [] ∧ s.settled ∧ s.memoryOk ∧ s.pkg.start = .off ∧ s.pkg.fails = 0 ∧ s.running = false ∧
  (∀ a, Memory.read s.hbm a = 0 ∧ Memory.read s.flats a = 0 ∧ Memory.read s.loft a = 0 ∧ Memory.read s.host a = 0) ∧
  sysGet s RegNo.waitSave 0 = 20 ∧ sysGet s RegNo.earlyReserve 0 = 48 ∧ sysGet s RegNo.rsv 0 = 2 ∧
  sysGet s RegNo.pcl 0 = 0xFFFF_FFFF_FFFF_FFFF ∧ sysGet s RegNo.pcl 1 = 0 ∧ sysGet s RegNo.pteIa 0 = 1 ∧ sysGet s (RegNo.flsOwn 3) 1 = 0xFF ∧
  sysGet s (RegNo.l2sRwf 7) 0 = 0x8004_0004 ∧ sysGet s RegNo.ptm 0 = 10 ∧ sysGet s RegNo.uepTmo 0 = 5000 ∧ sysGet s RegNo.scbCtl 0 = 0x8000_0018 ∧
  (∀ c, c < 255 → sysGet s (RegNo.ctx c) 0 = 0 ∧ sysGet s (RegNo.dbgCtl c) 0 = 0) ∧ (∀ n, n < 64 → sysGet s (RegNo.lq n) 0 = 0) ∧
  (∀ g n, n < 12 → (maskOf (s.group g) n).m = 0 ∧ (maskOf (s.group g) n).a = 0)

/-- R26, R30, R143, R145, R325, R409: A STEP RUNS THE DECODED INSTRUCTION. An event of the agenda is what the step does; a selection of a core with one
bundle, in a clk that the issue fraction leaves open (R409), fetches the word at the bundle's PC, decodes it once and executes the
instruction for its threads, then ends the issue; in another clk nothing issues and counter 4 counts; the word fetched, where no core
holds it, is the eight bytes at the PC's physical address, or, where threads wrote them, those bytes as they stood before or after
some of the writes, whole (R143); an illegal encoding raises UNDEF; a prompter executes the program word at
its job's place. The agenda is the model's own (log entry 1). -/
def Obligations.StepRunsDecoded : Prop :=
  (∀ s n i rest, s.agenda = ⟨n, .event i⟩ :: rest → step s = exec i { s with clk := s.clk + n, agenda := rest, issue := .none }) ∧
  (∀ s n c sec rest t ts, s.agenda = ⟨n, .issue c sec⟩ :: rest → (s.core c).steps = [] → (s.core c).bundles = [t :: ts] →
    (if sec then (s.core c).left1 else (s.core c).left0) ≠ 0 → (s.clk + n) % 16 < sysBits s RegNo.tunStat 0 19 15 →
    (∀ u ∈ t :: ts, s.canIssue u = true ∧ (s.thread u).pc = (s.thread t).pc ∧ s.ctxOf u = s.ctxOf t) →
    let pc := (s.thread t).pc
    ∃ s1, (∀ u, (s1.thread u).pc = (s.thread u).pc ∧ (s1.thread u).v = (s.thread u).v ∧ s1.canIssue u = s.canIssue u) ∧ s1.hbm = s.hbm ∧
      s1.groups = s.groups ∧ s1.dies = s.dies ∧ s1.clk = s.clk + n ∧ s1.agenda = rest ∧
      (∀ w s2 i, fetch s1 t pc = (.word w, s2) → decode w = .ok i →
        step s = andThen (exec i { s2 with issue := .bundle ⟨c, pc, w, t :: ts⟩ }) endIssue) ∧
      (∀ w s2 r, fetch s1 t pc = (.word w, s2) → decode w = .error r →
        step s = .next ((t :: ts).foldl (fun s u => stopBefore s u pc w .undef 0) s2))) ∧
  (∀ s n c sec rest b bs, s.agenda = ⟨n, .issue c sec⟩ :: rest → (s.core c).steps = [] → (s.core c).bundles = b :: bs →
    (if sec then (s.core c).left1 else (s.core c).left0) ≠ 0 → sysBits s RegNo.tunStat 0 19 15 ≤ (s.clk + n) % 16 →
    step s = .next (pmc { s with clk := s.clk + n, agenda := rest, issue := .none } c 4 1)) ∧
  (∀ s t (pc : Dword) l s1 d pa leaf, pc.toNat % 8 = 0 → inFlat pc.toNat = false → let s0 := (windowView s t).2
    viaWindows (windowView s t).1 (s.ctxOf t) (s.privOf t) pc.toNat ⟨false, false, true⟩ = .ok l → cachedWord s0 (s.ctxOf t) l = none →
    place s0 l false true = (.ok (.phys d pa leaf), s1) → physPoisoned s1 d pa = false →
    ((l.phys = true ∨ ∀ i, i < 8 → s1.hist.bytes.find? (histKey l i) = none) → ∃ s2, fetch s t pc = (.word (BitVec.ofNat 64 (natOfBytes (Memory.readN s1.hbm (hbmKey d pa) 8))), s2) ∧ s2.threads = s1.threads ∧
      s2.hbm = s1.hbm) ∧
    (l.phys = false → ∃ s2 b, fetch s t pc = (.word (BitVec.ofNat 64 (natOfBytes b)), s2) ∧
      b ∈ codeValues s1 0 l (Memory.readN s1.hbm (hbmKey d pa) 8))) ∧
  (∀ s n d k rest j i, s.agenda = ⟨n, .prompt d k⟩ :: rest → (prompterOf s d k).jobs = [j] → j.finished = false →
    decodeLogit (j.prog.getD j.ip 0) = .ok i →
    step s = andThen (exec i { s with clk := s.clk + n, agenda := rest, issue := .prompter d k 0 }) endIssue)

/-- R145..R164, R294: A FEW WORDS, each as the spec writes it out, and the instruction each stands for. -/
def Obligations.WordsDecode : Prop :=
  decode 0x089D_0400_0000_81C0 = .ok (.fmul ⟨⟨false, 7⟩, .mv, .f32, .dyn, false, false, false, .v 4, .v 0, .v 0⟩) ∧
  decode 0x001C_0201_0400_0800 = .ok (.add ⟨⟨false, 7⟩, .u32, false, .v 2, .v 1, .k 4⟩) ∧
  decode 0x871C_0100_000C_0002 = .ok (.setpImm ⟨⟨false, 7⟩, .u32, .lt, 1, .v 0, .imm 12⟩) ∧
  decode 0xC21C_0012_0000_0F51 = .ok (.atom ⟨⟨false, 7⟩, .or, .u32, .ar, .dev, 0, .k 4, 0, .imm 0⟩) ∧
  decode 0x56E1_018C_01C2_40C4 = .ok (.pairedWord ⟨⟨.fadd, 7, 8, 12, .f32, false, false⟩, ⟨.add, 7, 9, 3, .u32, true, false⟩⟩) ∧
  decode 0x055C_0501_0203_6096 = .ok (.lut3 ⟨⟨false, 7⟩, .v 5, .v 1, .v 2, .v 3, 0x96⟩) ∧
  decode 0xD064_0082_0100_6011 = .ok (.mmpost ⟨⟨true, 1⟩, 3, 0x20, 128, true, false, false, false, true⟩) ∧
  decode 0xCC24_0000_0000_6000 = .ok (.bra ⟨⟨true, 1⟩, 3⟩) ∧
  decode 0xF8DC_0008_0200_A000 = .ok (.tlbinv ⟨⟨false, 7⟩, 0, .v 2, 5, 16, false⟩) ∧
  decode 0xF85C_0010_1004_4000 = .ok (.csrw ⟨⟨false, 7⟩, .v 4, 0x08022⟩) ∧
  decode 0xF99C_0000_0000_A000 = .ok (.halt ⟨⟨false, 7⟩, 0, 5⟩) ∧
  decode 0xFA1C_0022_0000_0003 = .ok (.tblarm ⟨⟨false, 7⟩, 0, .k 8, 3, false⟩) ∧
  decode 0xF9DC_1814_0000_0000 = .ok (.dbgstep ⟨⟨false, 7⟩, 6, .v 5, false⟩) ∧
  decodeLogit 0x3400_4000_0000_0000 = .ok (.logitPen ⟨0, 0, 1, 0, false, .eq, 0⟩) ∧
  decodeLogit 0x3C00_0400_0000_0000 = .ok (.logitTemp ⟨0, 0, 0, 1, false, .eq, 0⟩) ∧
  decodeLogit 0x6800_0000_0000_0000 = .ok (.logitPub ⟨0, 0, 0, 0, false, .eq, 0⟩)

/-- R145..R164, R294: DECODE AND ENCODE AGREE: for every well-formed instruction with an encoding, with every operand at every value it
admits, decoding its word gives it back; a logit word is read by the prompter's decoder, every other by the threads'. -/
def Obligations.DecodeOfEncode : Prop :=
  ∀ i w, i.wf = true → encode? i = some w →
    (i.isLogit = false → decode w = .ok i) ∧ (i.isLogit = true → decodeLogit w = .ok i)

/-- R145, R163: EACH WORD HAS ONE MEANING: a word that decodes is the encoding of the instruction it decodes to, every bit of it, and that
instruction is well formed; no thread runs a logit word and no prompter runs another. -/
def Obligations.EncodeOfDecode : Prop :=
  (∀ w i, decode w = .ok i → i.wf = true ∧ i.isLogit = false ∧ encode? i = some w) ∧
  (∀ w i, decodeLogit w = .ok i → i.wf = true ∧ i.isLogit = true ∧ encode? i = some w)

/-- The model's own (log entry 1): EVERY STEP ANSWERS A NEXT STATE, no fault and no refusal, and leaves nothing in the middle of an issue. -/
def Obligations.EveryStepAnswers : Prop := ∀ s, ∃ s', step s = .next s' ∧ s'.settled

/-- The model's own (log entry 4), of R4..R6: AN INVARIANT EVERY STEP KEEPS: every memory (HBM4, banks, loft, the host's) stands in its
canonical form, addresses rising and no byte listed that reads as an unlisted one does: equal memories are equal lists. -/
def Obligations.MemoryStaysCanonical : Prop := ∀ s s', s.memoryOk → step s = .next s' → s'.memoryOk
end

