-- ==== Sys2Proof/Laws/Sparse.lean ====
section
/-! SUPPORT. Laws of sparse tables and of byte memories: read after write, and that every memory operation keeps
the canonical form. -/

namespace Sys2Proof.Machine

namespace Sparse

variable {α β : Type}

theorem findIn_setIn (l : List (Nat × α)) (k j : Nat) (x : α) :
    findIn j (setIn k x l) = if j = k then some x else findIn j l := by
  induction l with
  | nil => simp [setIn, findIn, eq_comm]
  | cons e t ih =>
    obtain ⟨i, y⟩ := e
    unfold setIn
    split
    · rename_i h; subst h; simp [findIn]; split <;> simp_all [eq_comm]
    · split
      · simp [findIn]; split <;> simp_all [eq_comm]
      · rename_i h1 h2
        simp only [findIn, ih]
        split
        · rename_i h; subst h; simp [h1]
        · rfl

@[simp] theorem find?_set (m : Sparse α) (k j : Nat) (x : α) :
    (m.set k x).find? j = if j = k then some x else m.find? j := findIn_setIn _ _ _ _

@[simp] theorem findD_set (m : Sparse α) (k j : Nat) (x d : α) :
    (m.set k x).findD j d = if j = k then x else m.findD j d := by
  simp only [findD, find?_set]; split <;> rfl

theorem findIn_map (l : List (Nat × α)) (f : Nat → α → β) (k : Nat) :
    findIn k (l.map fun e => (e.1, f e.1 e.2)) = (findIn k l).map (f k) := by
  induction l with
  | nil => rfl
  | cons e t ih =>
    simp only [List.map_cons, findIn, ih]
    split
    · rename_i h; subst h; rfl
    · rfl

@[simp] theorem find?_mapKV (m : Sparse α) (f : Nat → α → β) (k : Nat) :
    (m.mapKV f).find? k = (m.find? k).map (f k) := findIn_map _ _ _

@[simp] theorem keys_mapKV (m : Sparse α) (f : Nat → α → β) : (m.mapKV f).keys = m.keys := by
  simp [keys, mapKV, Function.comp_def]

@[simp] theorem has_mapKV (m : Sparse α) (f : Nat → α → β) (k : Nat) : (m.mapKV f).has k = m.has k := by
  simp [has]

@[simp] theorem find?_modify (m : Sparse α) (k j : Nat) (f : α → α) :
    (m.modify k f).find? j = if j = k then (m.find? j).map f else m.find? j := by
  simp only [modify, find?_mapKV]
  split <;> cases m.find? j <;> simp_all

@[simp] theorem has_modify (m : Sparse α) (k j : Nat) (f : α → α) : (m.modify k f).has j = m.has j := by
  simp [modify]

@[simp] theorem keys_modify (m : Sparse α) (k : Nat) (f : α → α) : (m.modify k f).keys = m.keys := by
  simp [modify]

@[simp] theorem find?_update (m : Sparse α) (k j : Nat) (d : α) (f : α → α) :
    (m.update k d f).find? j = if j = k then some (f (m.findD k d)) else m.find? j := by
  simp [update]

@[simp] theorem findD_update (m : Sparse α) (k j : Nat) (d e : α) (f : α → α) :
    (m.update k d f).findD j e = if j = k then f (m.findD k d) else m.findD j e := by
  simp [update]

theorem findD_of_find? {m : Sparse α} {k : Nat} {x : α} (h : m.find? k = some x) (d : α) : m.findD k d = x := by
  simp [findD, h]

theorem findD_modify (m : Sparse α) (k j : Nat) (f : α → α) (d : α) (h : m.has k = true ∨ f d = d) :
    (m.modify k f).findD j d = if j = k then f (m.findD j d) else m.findD j d := by
  simp only [findD, find?_modify]
  split
  · rename_i e; subst e
    cases hf : m.find? j with
    | none => simp [has, hf] at h; simp [h]
    | some x => simp
  · rfl

theorem has_iff (m : Sparse α) (k : Nat) : m.has k = true ↔ ∃ x, m.find? k = some x := by
  simp [has, Option.isSome_iff_exists]

theorem findIn_filter_key (l : List (Nat × α)) (p : Nat → Bool) (k : Nat) :
    findIn k (l.filter fun e => p e.1) = if p k then findIn k l else none := by
  induction l with
  | nil => simp [findIn]
  | cons e t ih =>
    by_cases he : p e.1
    · simp only [List.filter_cons, he, if_true, findIn, ih]
      split
      · rename_i h; subst h; simp [he]
      · rfl
    · rw [List.filter_cons_of_neg (by simpa using he), ih]
      by_cases hk : e.1 = k
      · have : p k = false := by rw [← hk]; simpa using he
        simp [this]
      · simp [findIn, hk]

@[simp] theorem find?_erase (m : Sparse α) (k j : Nat) :
    (m.erase k).find? j = if j = k then none else m.find? j := by
  have := findIn_filter_key m.items (fun i => i != k) j
  simp only [erase, find?] at *
  rw [this]
  by_cases h : j = k <;> simp [h]

@[simp] theorem find?_empty (k : Nat) : (empty : Sparse α).find? k = none := rfl
@[simp] theorem findD_empty (k : Nat) (d : α) : (empty : Sparse α).findD k d = d := rfl

theorem mem_keys (m : Sparse α) (k : Nat) : k ∈ m.keys ↔ m.has k = true := by
  obtain ⟨l⟩ := m
  simp only [keys, has, find?]
  induction l with
  | nil => simp [findIn]
  | cons e t ih =>
    simp only [List.map_cons, List.mem_cons, findIn, ih]
    by_cases h : e.1 = k
    · simp [h]
    · simp [h, Ne.symm h]

/-- A number that is not yet used. -/
theorem not_has_next (m : Sparse α) : m.has m.next = false := by
  have key : ∀ (l : List (Nat × α)) (a : Nat), a ≤ l.foldl (fun a e => max a (e.1 + 1)) a ∧
      ∀ e ∈ l, e.1 < l.foldl (fun a e => max a (e.1 + 1)) a := by
    intro l
    induction l with
    | nil => intro a; simp
    | cons e t ih =>
      intro a
      obtain ⟨h1, h2⟩ := ih (max a (e.1 + 1))
      refine ⟨by simp only [List.foldl_cons]; omega, ?_⟩
      intro x hx
      rcases List.mem_cons.1 hx with rfl | hx
      · simp only [List.foldl_cons]; omega
      · exact h2 x hx
  by_contra h
  have h' : m.has m.next = true := by simpa using h
  rw [← mem_keys] at h'
  obtain ⟨e, he, h2⟩ := List.mem_map.1 h'
  have := (key m.items 0).2 e he
  simp only [next] at h2
  omega

end Sparse

namespace Memory

/-- The rising order of a list, apart from what its entries hold. -/
theorem wf_cons (e : Host.Cell) (t : Memory) :
    wf (e :: t) = true ↔ e.2 ≠ unlisted ∧ (∀ f ∈ t, e.1 < f.1) ∧ wf t = true := by
  induction t generalizing e with
  | nil => simp [wf]
  | cons f t ih =>
    simp only [wf, Bool.and_eq_true, decide_eq_true_eq, bne_iff_ne, ne_eq, List.mem_cons, forall_eq_or_imp]
    constructor
    · rintro ⟨⟨h1, h2⟩, h3⟩
      refine ⟨h1, ⟨h2, fun g hg => ?_⟩, h3⟩
      exact lt_trans h2 (((ih f).1 h3).2.1 g hg)
    · rintro ⟨h1, ⟨h2, _⟩, h3⟩
      exact ⟨⟨h1, h2⟩, h3⟩

theorem wf_filter (m : Memory) (p : Host.Cell → Bool) (h : wf m = true) : wf (m.filter p) = true := by
  induction m with
  | nil => rfl
  | cons e t ih =>
    rw [wf_cons] at h
    by_cases hp : p e
    · rw [List.filter_cons_of_pos hp, wf_cons]
      exact ⟨h.1, fun f hf => h.2.1 f (List.mem_of_mem_filter hf), ih h.2.2⟩
    · rw [List.filter_cons_of_neg hp]; exact ih h.2.2

theorem wf_drop (m : Memory) (a : Nat) (h : wf m = true) : wf (drop m a) = true := wf_filter _ _ h

theorem mem_setIn {m : Memory} {a : Nat} {b : Byte} {e : Host.Cell} (h : e ∈ Sparse.setIn a b m) : e = (a, b) ∨ e ∈ m := by
  induction m with
  | nil => simpa [Sparse.setIn] using h
  | cons f t ih =>
    obtain ⟨j, y⟩ := f
    unfold Sparse.setIn at h
    split at h
    · rcases List.mem_cons.1 h with h | h
      · exact .inl h
      · exact .inr (List.mem_cons_of_mem _ h)
    · split at h
      · rcases List.mem_cons.1 h with h | h
        · exact .inl h
        · exact .inr h
      · rcases List.mem_cons.1 h with h | h
        · exact .inr (h ▸ List.mem_cons_self)
        · rcases ih h with h | h
          · exact .inl h
          · exact .inr (List.mem_cons_of_mem _ h)

theorem wf_setIn (m : Memory) (a : Nat) (b : Byte) (hb : b ≠ unlisted) (h : wf m = true) :
    wf (Sparse.setIn a b m) = true := by
  induction m with
  | nil => simpa [Sparse.setIn, wf] using hb
  | cons f t ih =>
    obtain ⟨j, y⟩ := f
    have h' := (wf_cons _ _).1 h
    unfold Sparse.setIn
    split
    · rename_i hj
      exact (wf_cons _ _).2 ⟨hb, fun g hg => hj ▸ h'.2.1 g hg, h'.2.2⟩
    · split
      · rename_i hlt
        refine (wf_cons _ _).2 ⟨hb, fun g hg => ?_, h⟩
        rcases List.mem_cons.1 hg with rfl | hg
        · exact hlt
        · exact lt_trans hlt (h'.2.1 g hg)
      · rename_i h1 h2
        refine (wf_cons _ _).2 ⟨h'.1, fun g hg => ?_, ih h'.2.2⟩
        rcases mem_setIn hg with rfl | hg
        · show j < a; omega
        · exact h'.2.1 g hg

/-- A write of one byte keeps the canonical form. -/
theorem wf_write (m : Memory) (a : Nat) (b : Byte) (h : wf m = true) : wf (write m a b) = true := by
  unfold write
  split
  · exact wf_drop m a h
  · exact wf_setIn m a b ‹_› h

/-- A write of bytes keeps the canonical form. -/
theorem wf_writeN (l : List Byte) (m : Memory) (a : Nat) (h : wf m = true) : wf (writeN m a l) = true := by
  induction l generalizing m a with
  | nil => exact h
  | cons b t ih => exact ih _ _ (wf_write m a b h)

/-- Read after write, of one byte. -/
theorem read_write (m : Memory) (a c : Nat) (b : Byte) : read (write m a b) c = if c = a then b else read m c := by
  unfold write
  split
  · rename_i hb
    have := Sparse.findIn_filter_key m (fun i => i != a) c
    simp only [read, drop]
    rw [this]
    by_cases h : c = a
    · simp [h, hb]
    · simp [h]
  · simp only [read, Sparse.findIn_setIn]
    split <;> rfl

/-- Read after write, of bytes: those written, and every other byte as it was. -/
theorem read_writeN (l : List Byte) (m : Memory) (a c : Nat) :
    read (writeN m a l) c = if a ≤ c ∧ c < a + l.length then l.getD (c - a) 0 else read m c := by
  induction l generalizing m a with
  | nil => simp only [writeN, List.length_nil]; rw [if_neg (by omega)]
  | cons b t ih =>
    simp only [writeN, ih, read_write, List.length_cons]
    by_cases h1 : c = a
    · subst h1; simp
    · by_cases h2 : a ≤ c ∧ c < a + (t.length + 1)
      · rw [if_pos h2, if_pos (by omega)]
        obtain ⟨k, rfl⟩ : ∃ k, c = a + 1 + k := ⟨c - (a + 1), by omega⟩
        rw [show a + 1 + k - a = k + 1 by omega, show a + 1 + k - (a + 1) = k by omega]
        rfl
      · rw [if_neg h2, if_neg (by omega), if_neg h1]

theorem read_writeN_outside (l : List Byte) (m : Memory) (a c : Nat) (h : ¬(a ≤ c ∧ c < a + l.length)) :
    read (writeN m a l) c = read m c := by rw [read_writeN, if_neg h]

end Memory

@[simp] theorem length_bytesOfNat (n x : Nat) : (bytesOfNat n x).length = n := by
  induction n generalizing x with
  | zero => rfl
  | succ n ih => simp [bytesOfNat, ih]

theorem natOfBytes_bytesOfNat (n x : Nat) : natOfBytes (bytesOfNat n x) = x % 256 ^ n := by
  induction n generalizing x with
  | zero => simp [bytesOfNat, natOfBytes, Nat.mod_one]
  | succ n ih =>
    simp only [bytesOfNat, natOfBytes, ih, BitVec.toNat_ofNat]
    rw [show (2 : Nat) ^ 8 = 256 by norm_num, pow_succ, Nat.mul_comm (256 ^ n) 256, Nat.mod_mul]

end Sys2Proof.Machine
end

