-- ==== Sys2Proof/Laws/State.lean ====
section
/-! SUPPORT. What each update of the state leaves of every field (one lemma per field per update), and what an
object reads as after an update. -/

namespace Sys2Proof.Machine

/-! ### State.onCore -/

@[simp] theorem onCore_clk (s : State) (n : Nat) (f : Core → Core) : (s.onCore n f).clk = s.clk := rfl
@[simp] theorem onCore_ctr (s : State) (n : Nat) (f : Core → Core) : (s.onCore n f).ctr = s.ctr := rfl
@[simp] theorem onCore_agenda (s : State) (n : Nat) (f : Core → Core) : (s.onCore n f).agenda = s.agenda := rfl
@[simp] theorem onCore_issue (s : State) (n : Nat) (f : Core → Core) : (s.onCore n f).issue = s.issue := rfl
@[simp] theorem onCore_threads (s : State) (n : Nat) (f : Core → Core) : (s.onCore n f).threads = s.threads := rfl
@[simp] theorem onCore_groups (s : State) (n : Nat) (f : Core → Core) : (s.onCore n f).groups = s.groups := rfl
@[simp] theorem onCore_blocks (s : State) (n : Nat) (f : Core → Core) : (s.onCore n f).blocks = s.blocks := rfl
@[simp] theorem onCore_launches (s : State) (n : Nat) (f : Core → Core) : (s.onCore n f).launches = s.launches := rfl
@[simp] theorem onCore_cores (s : State) (n : Nat) (f : Core → Core) : (s.onCore n f).cores = s.cores.update n .idle f := rfl
@[simp] theorem onCore_clusters (s : State) (n : Nat) (f : Core → Core) : (s.onCore n f).clusters = s.clusters := rfl
@[simp] theorem onCore_dies (s : State) (n : Nat) (f : Core → Core) : (s.onCore n f).dies = s.dies := rfl
@[simp] theorem onCore_parts (s : State) (n : Nat) (f : Core → Core) : (s.onCore n f).parts = s.parts := rfl
@[simp] theorem onCore_copies (s : State) (n : Nat) (f : Core → Core) : (s.onCore n f).copies = s.copies := rfl
@[simp] theorem onCore_sys (s : State) (n : Nat) (f : Core → Core) : (s.onCore n f).sys = s.sys := rfl
@[simp] theorem onCore_hbm (s : State) (n : Nat) (f : Core → Core) : (s.onCore n f).hbm = s.hbm := rfl
@[simp] theorem onCore_flats (s : State) (n : Nat) (f : Core → Core) : (s.onCore n f).flats = s.flats := rfl
@[simp] theorem onCore_loft (s : State) (n : Nat) (f : Core → Core) : (s.onCore n f).loft = s.loft := rfl
@[simp] theorem onCore_host (s : State) (n : Nat) (f : Core → Core) : (s.onCore n f).host = s.host := rfl
@[simp] theorem onCore_hist (s : State) (n : Nat) (f : Core → Core) : (s.onCore n f).hist = s.hist := rfl
@[simp] theorem onCore_pkg (s : State) (n : Nat) (f : Core → Core) : (s.onCore n f).pkg = s.pkg := rfl
@[simp] theorem onCore_images (s : State) (n : Nat) (f : Core → Core) : (s.onCore n f).images = s.images := rfl
@[simp] theorem onCore_winWrites (s : State) (n : Nat) (f : Core → Core) : (s.onCore n f).winWrites = s.winWrites := rfl

/-! ### State.onCluster -/

@[simp] theorem onCluster_clk (s : State) (n : Nat) (f : Cluster → Cluster) : (s.onCluster n f).clk = s.clk := rfl
@[simp] theorem onCluster_ctr (s : State) (n : Nat) (f : Cluster → Cluster) : (s.onCluster n f).ctr = s.ctr := rfl
@[simp] theorem onCluster_agenda (s : State) (n : Nat) (f : Cluster → Cluster) : (s.onCluster n f).agenda = s.agenda := rfl
@[simp] theorem onCluster_issue (s : State) (n : Nat) (f : Cluster → Cluster) : (s.onCluster n f).issue = s.issue := rfl
@[simp] theorem onCluster_threads (s : State) (n : Nat) (f : Cluster → Cluster) : (s.onCluster n f).threads = s.threads := rfl
@[simp] theorem onCluster_groups (s : State) (n : Nat) (f : Cluster → Cluster) : (s.onCluster n f).groups = s.groups := rfl
@[simp] theorem onCluster_blocks (s : State) (n : Nat) (f : Cluster → Cluster) : (s.onCluster n f).blocks = s.blocks := rfl
@[simp] theorem onCluster_launches (s : State) (n : Nat) (f : Cluster → Cluster) : (s.onCluster n f).launches = s.launches := rfl
@[simp] theorem onCluster_cores (s : State) (n : Nat) (f : Cluster → Cluster) : (s.onCluster n f).cores = s.cores := rfl
@[simp] theorem onCluster_clusters (s : State) (n : Nat) (f : Cluster → Cluster) : (s.onCluster n f).clusters = s.clusters.update n .idle f := rfl
@[simp] theorem onCluster_dies (s : State) (n : Nat) (f : Cluster → Cluster) : (s.onCluster n f).dies = s.dies := rfl
@[simp] theorem onCluster_parts (s : State) (n : Nat) (f : Cluster → Cluster) : (s.onCluster n f).parts = s.parts := rfl
@[simp] theorem onCluster_copies (s : State) (n : Nat) (f : Cluster → Cluster) : (s.onCluster n f).copies = s.copies := rfl
@[simp] theorem onCluster_sys (s : State) (n : Nat) (f : Cluster → Cluster) : (s.onCluster n f).sys = s.sys := rfl
@[simp] theorem onCluster_hbm (s : State) (n : Nat) (f : Cluster → Cluster) : (s.onCluster n f).hbm = s.hbm := rfl
@[simp] theorem onCluster_flats (s : State) (n : Nat) (f : Cluster → Cluster) : (s.onCluster n f).flats = s.flats := rfl
@[simp] theorem onCluster_loft (s : State) (n : Nat) (f : Cluster → Cluster) : (s.onCluster n f).loft = s.loft := rfl
@[simp] theorem onCluster_host (s : State) (n : Nat) (f : Cluster → Cluster) : (s.onCluster n f).host = s.host := rfl
@[simp] theorem onCluster_hist (s : State) (n : Nat) (f : Cluster → Cluster) : (s.onCluster n f).hist = s.hist := rfl
@[simp] theorem onCluster_pkg (s : State) (n : Nat) (f : Cluster → Cluster) : (s.onCluster n f).pkg = s.pkg := rfl
@[simp] theorem onCluster_images (s : State) (n : Nat) (f : Cluster → Cluster) : (s.onCluster n f).images = s.images := rfl
@[simp] theorem onCluster_winWrites (s : State) (n : Nat) (f : Cluster → Cluster) : (s.onCluster n f).winWrites = s.winWrites := rfl

/-! ### State.onDie -/

@[simp] theorem onDie_clk (s : State) (n : Nat) (f : Die → Die) : (s.onDie n f).clk = s.clk := rfl
@[simp] theorem onDie_ctr (s : State) (n : Nat) (f : Die → Die) : (s.onDie n f).ctr = s.ctr := rfl
@[simp] theorem onDie_agenda (s : State) (n : Nat) (f : Die → Die) : (s.onDie n f).agenda = s.agenda := rfl
@[simp] theorem onDie_issue (s : State) (n : Nat) (f : Die → Die) : (s.onDie n f).issue = s.issue := rfl
@[simp] theorem onDie_threads (s : State) (n : Nat) (f : Die → Die) : (s.onDie n f).threads = s.threads := rfl
@[simp] theorem onDie_groups (s : State) (n : Nat) (f : Die → Die) : (s.onDie n f).groups = s.groups := rfl
@[simp] theorem onDie_blocks (s : State) (n : Nat) (f : Die → Die) : (s.onDie n f).blocks = s.blocks := rfl
@[simp] theorem onDie_launches (s : State) (n : Nat) (f : Die → Die) : (s.onDie n f).launches = s.launches := rfl
@[simp] theorem onDie_cores (s : State) (n : Nat) (f : Die → Die) : (s.onDie n f).cores = s.cores := rfl
@[simp] theorem onDie_clusters (s : State) (n : Nat) (f : Die → Die) : (s.onDie n f).clusters = s.clusters := rfl
@[simp] theorem onDie_dies (s : State) (n : Nat) (f : Die → Die) : (s.onDie n f).dies = s.dies.update n .idle f := rfl
@[simp] theorem onDie_parts (s : State) (n : Nat) (f : Die → Die) : (s.onDie n f).parts = s.parts := rfl
@[simp] theorem onDie_copies (s : State) (n : Nat) (f : Die → Die) : (s.onDie n f).copies = s.copies := rfl
@[simp] theorem onDie_sys (s : State) (n : Nat) (f : Die → Die) : (s.onDie n f).sys = s.sys := rfl
@[simp] theorem onDie_hbm (s : State) (n : Nat) (f : Die → Die) : (s.onDie n f).hbm = s.hbm := rfl
@[simp] theorem onDie_flats (s : State) (n : Nat) (f : Die → Die) : (s.onDie n f).flats = s.flats := rfl
@[simp] theorem onDie_loft (s : State) (n : Nat) (f : Die → Die) : (s.onDie n f).loft = s.loft := rfl
@[simp] theorem onDie_host (s : State) (n : Nat) (f : Die → Die) : (s.onDie n f).host = s.host := rfl
@[simp] theorem onDie_hist (s : State) (n : Nat) (f : Die → Die) : (s.onDie n f).hist = s.hist := rfl
@[simp] theorem onDie_pkg (s : State) (n : Nat) (f : Die → Die) : (s.onDie n f).pkg = s.pkg := rfl
@[simp] theorem onDie_images (s : State) (n : Nat) (f : Die → Die) : (s.onDie n f).images = s.images := rfl
@[simp] theorem onDie_winWrites (s : State) (n : Nat) (f : Die → Die) : (s.onDie n f).winWrites = s.winWrites := rfl

/-! ### State.onPart -/

@[simp] theorem onPart_clk (s : State) (n : Nat) (f : Part → Part) : (s.onPart n f).clk = s.clk := rfl
@[simp] theorem onPart_ctr (s : State) (n : Nat) (f : Part → Part) : (s.onPart n f).ctr = s.ctr := rfl
@[simp] theorem onPart_agenda (s : State) (n : Nat) (f : Part → Part) : (s.onPart n f).agenda = s.agenda := rfl
@[simp] theorem onPart_issue (s : State) (n : Nat) (f : Part → Part) : (s.onPart n f).issue = s.issue := rfl
@[simp] theorem onPart_threads (s : State) (n : Nat) (f : Part → Part) : (s.onPart n f).threads = s.threads := rfl
@[simp] theorem onPart_groups (s : State) (n : Nat) (f : Part → Part) : (s.onPart n f).groups = s.groups := rfl
@[simp] theorem onPart_blocks (s : State) (n : Nat) (f : Part → Part) : (s.onPart n f).blocks = s.blocks := rfl
@[simp] theorem onPart_launches (s : State) (n : Nat) (f : Part → Part) : (s.onPart n f).launches = s.launches := rfl
@[simp] theorem onPart_cores (s : State) (n : Nat) (f : Part → Part) : (s.onPart n f).cores = s.cores := rfl
@[simp] theorem onPart_clusters (s : State) (n : Nat) (f : Part → Part) : (s.onPart n f).clusters = s.clusters := rfl
@[simp] theorem onPart_dies (s : State) (n : Nat) (f : Part → Part) : (s.onPart n f).dies = s.dies := rfl
@[simp] theorem onPart_parts (s : State) (n : Nat) (f : Part → Part) : (s.onPart n f).parts = s.parts.update n .idle f := rfl
@[simp] theorem onPart_copies (s : State) (n : Nat) (f : Part → Part) : (s.onPart n f).copies = s.copies := rfl
@[simp] theorem onPart_sys (s : State) (n : Nat) (f : Part → Part) : (s.onPart n f).sys = s.sys := rfl
@[simp] theorem onPart_hbm (s : State) (n : Nat) (f : Part → Part) : (s.onPart n f).hbm = s.hbm := rfl
@[simp] theorem onPart_flats (s : State) (n : Nat) (f : Part → Part) : (s.onPart n f).flats = s.flats := rfl
@[simp] theorem onPart_loft (s : State) (n : Nat) (f : Part → Part) : (s.onPart n f).loft = s.loft := rfl
@[simp] theorem onPart_host (s : State) (n : Nat) (f : Part → Part) : (s.onPart n f).host = s.host := rfl
@[simp] theorem onPart_hist (s : State) (n : Nat) (f : Part → Part) : (s.onPart n f).hist = s.hist := rfl
@[simp] theorem onPart_pkg (s : State) (n : Nat) (f : Part → Part) : (s.onPart n f).pkg = s.pkg := rfl
@[simp] theorem onPart_images (s : State) (n : Nat) (f : Part → Part) : (s.onPart n f).images = s.images := rfl
@[simp] theorem onPart_winWrites (s : State) (n : Nat) (f : Part → Part) : (s.onPart n f).winWrites = s.winWrites := rfl

/-! ### State.onThread -/

@[simp] theorem onThread_clk (s : State) (t : Nat) (f : Thread → Thread) : (s.onThread t f).clk = s.clk := rfl
@[simp] theorem onThread_ctr (s : State) (t : Nat) (f : Thread → Thread) : (s.onThread t f).ctr = s.ctr := rfl
@[simp] theorem onThread_agenda (s : State) (t : Nat) (f : Thread → Thread) : (s.onThread t f).agenda = s.agenda := rfl
@[simp] theorem onThread_issue (s : State) (t : Nat) (f : Thread → Thread) : (s.onThread t f).issue = s.issue := rfl
@[simp] theorem onThread_threads (s : State) (t : Nat) (f : Thread → Thread) : (s.onThread t f).threads = s.threads.modify t f := rfl
@[simp] theorem onThread_groups (s : State) (t : Nat) (f : Thread → Thread) : (s.onThread t f).groups = s.groups := rfl
@[simp] theorem onThread_blocks (s : State) (t : Nat) (f : Thread → Thread) : (s.onThread t f).blocks = s.blocks := rfl
@[simp] theorem onThread_launches (s : State) (t : Nat) (f : Thread → Thread) : (s.onThread t f).launches = s.launches := rfl
@[simp] theorem onThread_cores (s : State) (t : Nat) (f : Thread → Thread) : (s.onThread t f).cores = s.cores := rfl
@[simp] theorem onThread_clusters (s : State) (t : Nat) (f : Thread → Thread) : (s.onThread t f).clusters = s.clusters := rfl
@[simp] theorem onThread_dies (s : State) (t : Nat) (f : Thread → Thread) : (s.onThread t f).dies = s.dies := rfl
@[simp] theorem onThread_parts (s : State) (t : Nat) (f : Thread → Thread) : (s.onThread t f).parts = s.parts := rfl
@[simp] theorem onThread_copies (s : State) (t : Nat) (f : Thread → Thread) : (s.onThread t f).copies = s.copies := rfl
@[simp] theorem onThread_sys (s : State) (t : Nat) (f : Thread → Thread) : (s.onThread t f).sys = s.sys := rfl
@[simp] theorem onThread_hbm (s : State) (t : Nat) (f : Thread → Thread) : (s.onThread t f).hbm = s.hbm := rfl
@[simp] theorem onThread_flats (s : State) (t : Nat) (f : Thread → Thread) : (s.onThread t f).flats = s.flats := rfl
@[simp] theorem onThread_loft (s : State) (t : Nat) (f : Thread → Thread) : (s.onThread t f).loft = s.loft := rfl
@[simp] theorem onThread_host (s : State) (t : Nat) (f : Thread → Thread) : (s.onThread t f).host = s.host := rfl
@[simp] theorem onThread_hist (s : State) (t : Nat) (f : Thread → Thread) : (s.onThread t f).hist = s.hist := rfl
@[simp] theorem onThread_pkg (s : State) (t : Nat) (f : Thread → Thread) : (s.onThread t f).pkg = s.pkg := rfl
@[simp] theorem onThread_images (s : State) (t : Nat) (f : Thread → Thread) : (s.onThread t f).images = s.images := rfl
@[simp] theorem onThread_winWrites (s : State) (t : Nat) (f : Thread → Thread) : (s.onThread t f).winWrites = s.winWrites := rfl

/-! ### State.onThreads -/

@[simp] theorem onThreads_clk (s : State) (ts : List Nat) (f : Nat → Thread → Thread) : (s.onThreads ts f).clk = s.clk := rfl
@[simp] theorem onThreads_ctr (s : State) (ts : List Nat) (f : Nat → Thread → Thread) : (s.onThreads ts f).ctr = s.ctr := rfl
@[simp] theorem onThreads_agenda (s : State) (ts : List Nat) (f : Nat → Thread → Thread) : (s.onThreads ts f).agenda = s.agenda := rfl
@[simp] theorem onThreads_issue (s : State) (ts : List Nat) (f : Nat → Thread → Thread) : (s.onThreads ts f).issue = s.issue := rfl
@[simp] theorem onThreads_threads (s : State) (ts : List Nat) (f : Nat → Thread → Thread) : (s.onThreads ts f).threads = s.threads.mapKV fun t th => if ts.contains t then f t th else th := rfl
@[simp] theorem onThreads_groups (s : State) (ts : List Nat) (f : Nat → Thread → Thread) : (s.onThreads ts f).groups = s.groups := rfl
@[simp] theorem onThreads_blocks (s : State) (ts : List Nat) (f : Nat → Thread → Thread) : (s.onThreads ts f).blocks = s.blocks := rfl
@[simp] theorem onThreads_launches (s : State) (ts : List Nat) (f : Nat → Thread → Thread) : (s.onThreads ts f).launches = s.launches := rfl
@[simp] theorem onThreads_cores (s : State) (ts : List Nat) (f : Nat → Thread → Thread) : (s.onThreads ts f).cores = s.cores := rfl
@[simp] theorem onThreads_clusters (s : State) (ts : List Nat) (f : Nat → Thread → Thread) : (s.onThreads ts f).clusters = s.clusters := rfl
@[simp] theorem onThreads_dies (s : State) (ts : List Nat) (f : Nat → Thread → Thread) : (s.onThreads ts f).dies = s.dies := rfl
@[simp] theorem onThreads_parts (s : State) (ts : List Nat) (f : Nat → Thread → Thread) : (s.onThreads ts f).parts = s.parts := rfl
@[simp] theorem onThreads_copies (s : State) (ts : List Nat) (f : Nat → Thread → Thread) : (s.onThreads ts f).copies = s.copies := rfl
@[simp] theorem onThreads_sys (s : State) (ts : List Nat) (f : Nat → Thread → Thread) : (s.onThreads ts f).sys = s.sys := rfl
@[simp] theorem onThreads_hbm (s : State) (ts : List Nat) (f : Nat → Thread → Thread) : (s.onThreads ts f).hbm = s.hbm := rfl
@[simp] theorem onThreads_flats (s : State) (ts : List Nat) (f : Nat → Thread → Thread) : (s.onThreads ts f).flats = s.flats := rfl
@[simp] theorem onThreads_loft (s : State) (ts : List Nat) (f : Nat → Thread → Thread) : (s.onThreads ts f).loft = s.loft := rfl
@[simp] theorem onThreads_host (s : State) (ts : List Nat) (f : Nat → Thread → Thread) : (s.onThreads ts f).host = s.host := rfl
@[simp] theorem onThreads_hist (s : State) (ts : List Nat) (f : Nat → Thread → Thread) : (s.onThreads ts f).hist = s.hist := rfl
@[simp] theorem onThreads_pkg (s : State) (ts : List Nat) (f : Nat → Thread → Thread) : (s.onThreads ts f).pkg = s.pkg := rfl
@[simp] theorem onThreads_images (s : State) (ts : List Nat) (f : Nat → Thread → Thread) : (s.onThreads ts f).images = s.images := rfl
@[simp] theorem onThreads_winWrites (s : State) (ts : List Nat) (f : Nat → Thread → Thread) : (s.onThreads ts f).winWrites = s.winWrites := rfl

/-! ### State.onGroup -/

@[simp] theorem onGroup_clk (s : State) (g : Nat) (f : Group → Group) : (s.onGroup g f).clk = s.clk := rfl
@[simp] theorem onGroup_ctr (s : State) (g : Nat) (f : Group → Group) : (s.onGroup g f).ctr = s.ctr := rfl
@[simp] theorem onGroup_agenda (s : State) (g : Nat) (f : Group → Group) : (s.onGroup g f).agenda = s.agenda := rfl
@[simp] theorem onGroup_issue (s : State) (g : Nat) (f : Group → Group) : (s.onGroup g f).issue = s.issue := rfl
@[simp] theorem onGroup_threads (s : State) (g : Nat) (f : Group → Group) : (s.onGroup g f).threads = s.threads := rfl
@[simp] theorem onGroup_groups (s : State) (g : Nat) (f : Group → Group) : (s.onGroup g f).groups = s.groups.modify g f := rfl
@[simp] theorem onGroup_blocks (s : State) (g : Nat) (f : Group → Group) : (s.onGroup g f).blocks = s.blocks := rfl
@[simp] theorem onGroup_launches (s : State) (g : Nat) (f : Group → Group) : (s.onGroup g f).launches = s.launches := rfl
@[simp] theorem onGroup_cores (s : State) (g : Nat) (f : Group → Group) : (s.onGroup g f).cores = s.cores := rfl
@[simp] theorem onGroup_clusters (s : State) (g : Nat) (f : Group → Group) : (s.onGroup g f).clusters = s.clusters := rfl
@[simp] theorem onGroup_dies (s : State) (g : Nat) (f : Group → Group) : (s.onGroup g f).dies = s.dies := rfl
@[simp] theorem onGroup_parts (s : State) (g : Nat) (f : Group → Group) : (s.onGroup g f).parts = s.parts := rfl
@[simp] theorem onGroup_copies (s : State) (g : Nat) (f : Group → Group) : (s.onGroup g f).copies = s.copies := rfl
@[simp] theorem onGroup_sys (s : State) (g : Nat) (f : Group → Group) : (s.onGroup g f).sys = s.sys := rfl
@[simp] theorem onGroup_hbm (s : State) (g : Nat) (f : Group → Group) : (s.onGroup g f).hbm = s.hbm := rfl
@[simp] theorem onGroup_flats (s : State) (g : Nat) (f : Group → Group) : (s.onGroup g f).flats = s.flats := rfl
@[simp] theorem onGroup_loft (s : State) (g : Nat) (f : Group → Group) : (s.onGroup g f).loft = s.loft := rfl
@[simp] theorem onGroup_host (s : State) (g : Nat) (f : Group → Group) : (s.onGroup g f).host = s.host := rfl
@[simp] theorem onGroup_hist (s : State) (g : Nat) (f : Group → Group) : (s.onGroup g f).hist = s.hist := rfl
@[simp] theorem onGroup_pkg (s : State) (g : Nat) (f : Group → Group) : (s.onGroup g f).pkg = s.pkg := rfl
@[simp] theorem onGroup_images (s : State) (g : Nat) (f : Group → Group) : (s.onGroup g f).images = s.images := rfl
@[simp] theorem onGroup_winWrites (s : State) (g : Nat) (f : Group → Group) : (s.onGroup g f).winWrites = s.winWrites := rfl

/-! ### State.onBlock -/

@[simp] theorem onBlock_clk (s : State) (b : Nat) (f : Block → Block) : (s.onBlock b f).clk = s.clk := rfl
@[simp] theorem onBlock_ctr (s : State) (b : Nat) (f : Block → Block) : (s.onBlock b f).ctr = s.ctr := rfl
@[simp] theorem onBlock_agenda (s : State) (b : Nat) (f : Block → Block) : (s.onBlock b f).agenda = s.agenda := rfl
@[simp] theorem onBlock_issue (s : State) (b : Nat) (f : Block → Block) : (s.onBlock b f).issue = s.issue := rfl
@[simp] theorem onBlock_threads (s : State) (b : Nat) (f : Block → Block) : (s.onBlock b f).threads = s.threads := rfl
@[simp] theorem onBlock_groups (s : State) (b : Nat) (f : Block → Block) : (s.onBlock b f).groups = s.groups := rfl
@[simp] theorem onBlock_blocks (s : State) (b : Nat) (f : Block → Block) : (s.onBlock b f).blocks = s.blocks.modify b f := rfl
@[simp] theorem onBlock_launches (s : State) (b : Nat) (f : Block → Block) : (s.onBlock b f).launches = s.launches := rfl
@[simp] theorem onBlock_cores (s : State) (b : Nat) (f : Block → Block) : (s.onBlock b f).cores = s.cores := rfl
@[simp] theorem onBlock_clusters (s : State) (b : Nat) (f : Block → Block) : (s.onBlock b f).clusters = s.clusters := rfl
@[simp] theorem onBlock_dies (s : State) (b : Nat) (f : Block → Block) : (s.onBlock b f).dies = s.dies := rfl
@[simp] theorem onBlock_parts (s : State) (b : Nat) (f : Block → Block) : (s.onBlock b f).parts = s.parts := rfl
@[simp] theorem onBlock_copies (s : State) (b : Nat) (f : Block → Block) : (s.onBlock b f).copies = s.copies := rfl
@[simp] theorem onBlock_sys (s : State) (b : Nat) (f : Block → Block) : (s.onBlock b f).sys = s.sys := rfl
@[simp] theorem onBlock_hbm (s : State) (b : Nat) (f : Block → Block) : (s.onBlock b f).hbm = s.hbm := rfl
@[simp] theorem onBlock_flats (s : State) (b : Nat) (f : Block → Block) : (s.onBlock b f).flats = s.flats := rfl
@[simp] theorem onBlock_loft (s : State) (b : Nat) (f : Block → Block) : (s.onBlock b f).loft = s.loft := rfl
@[simp] theorem onBlock_host (s : State) (b : Nat) (f : Block → Block) : (s.onBlock b f).host = s.host := rfl
@[simp] theorem onBlock_hist (s : State) (b : Nat) (f : Block → Block) : (s.onBlock b f).hist = s.hist := rfl
@[simp] theorem onBlock_pkg (s : State) (b : Nat) (f : Block → Block) : (s.onBlock b f).pkg = s.pkg := rfl
@[simp] theorem onBlock_images (s : State) (b : Nat) (f : Block → Block) : (s.onBlock b f).images = s.images := rfl
@[simp] theorem onBlock_winWrites (s : State) (b : Nat) (f : Block → Block) : (s.onBlock b f).winWrites = s.winWrites := rfl

/-! ### State.onLaunch -/

@[simp] theorem onLaunch_clk (s : State) (l : Nat) (f : Launch → Launch) : (s.onLaunch l f).clk = s.clk := rfl
@[simp] theorem onLaunch_ctr (s : State) (l : Nat) (f : Launch → Launch) : (s.onLaunch l f).ctr = s.ctr := rfl
@[simp] theorem onLaunch_agenda (s : State) (l : Nat) (f : Launch → Launch) : (s.onLaunch l f).agenda = s.agenda := rfl
@[simp] theorem onLaunch_issue (s : State) (l : Nat) (f : Launch → Launch) : (s.onLaunch l f).issue = s.issue := rfl
@[simp] theorem onLaunch_threads (s : State) (l : Nat) (f : Launch → Launch) : (s.onLaunch l f).threads = s.threads := rfl
@[simp] theorem onLaunch_groups (s : State) (l : Nat) (f : Launch → Launch) : (s.onLaunch l f).groups = s.groups := rfl
@[simp] theorem onLaunch_blocks (s : State) (l : Nat) (f : Launch → Launch) : (s.onLaunch l f).blocks = s.blocks := rfl
@[simp] theorem onLaunch_launches (s : State) (l : Nat) (f : Launch → Launch) : (s.onLaunch l f).launches = s.launches.modify l f := rfl
@[simp] theorem onLaunch_cores (s : State) (l : Nat) (f : Launch → Launch) : (s.onLaunch l f).cores = s.cores := rfl
@[simp] theorem onLaunch_clusters (s : State) (l : Nat) (f : Launch → Launch) : (s.onLaunch l f).clusters = s.clusters := rfl
@[simp] theorem onLaunch_dies (s : State) (l : Nat) (f : Launch → Launch) : (s.onLaunch l f).dies = s.dies := rfl
@[simp] theorem onLaunch_parts (s : State) (l : Nat) (f : Launch → Launch) : (s.onLaunch l f).parts = s.parts := rfl
@[simp] theorem onLaunch_copies (s : State) (l : Nat) (f : Launch → Launch) : (s.onLaunch l f).copies = s.copies := rfl
@[simp] theorem onLaunch_sys (s : State) (l : Nat) (f : Launch → Launch) : (s.onLaunch l f).sys = s.sys := rfl
@[simp] theorem onLaunch_hbm (s : State) (l : Nat) (f : Launch → Launch) : (s.onLaunch l f).hbm = s.hbm := rfl
@[simp] theorem onLaunch_flats (s : State) (l : Nat) (f : Launch → Launch) : (s.onLaunch l f).flats = s.flats := rfl
@[simp] theorem onLaunch_loft (s : State) (l : Nat) (f : Launch → Launch) : (s.onLaunch l f).loft = s.loft := rfl
@[simp] theorem onLaunch_host (s : State) (l : Nat) (f : Launch → Launch) : (s.onLaunch l f).host = s.host := rfl
@[simp] theorem onLaunch_hist (s : State) (l : Nat) (f : Launch → Launch) : (s.onLaunch l f).hist = s.hist := rfl
@[simp] theorem onLaunch_pkg (s : State) (l : Nat) (f : Launch → Launch) : (s.onLaunch l f).pkg = s.pkg := rfl
@[simp] theorem onLaunch_images (s : State) (l : Nat) (f : Launch → Launch) : (s.onLaunch l f).images = s.images := rfl
@[simp] theorem onLaunch_winWrites (s : State) (l : Nat) (f : Launch → Launch) : (s.onLaunch l f).winWrites = s.winWrites := rfl

/-! ### State.onPkg -/

@[simp] theorem onPkg_clk (s : State) (f : Package → Package) : (s.onPkg f).clk = s.clk := rfl
@[simp] theorem onPkg_ctr (s : State) (f : Package → Package) : (s.onPkg f).ctr = s.ctr := rfl
@[simp] theorem onPkg_agenda (s : State) (f : Package → Package) : (s.onPkg f).agenda = s.agenda := rfl
@[simp] theorem onPkg_issue (s : State) (f : Package → Package) : (s.onPkg f).issue = s.issue := rfl
@[simp] theorem onPkg_threads (s : State) (f : Package → Package) : (s.onPkg f).threads = s.threads := rfl
@[simp] theorem onPkg_groups (s : State) (f : Package → Package) : (s.onPkg f).groups = s.groups := rfl
@[simp] theorem onPkg_blocks (s : State) (f : Package → Package) : (s.onPkg f).blocks = s.blocks := rfl
@[simp] theorem onPkg_launches (s : State) (f : Package → Package) : (s.onPkg f).launches = s.launches := rfl
@[simp] theorem onPkg_cores (s : State) (f : Package → Package) : (s.onPkg f).cores = s.cores := rfl
@[simp] theorem onPkg_clusters (s : State) (f : Package → Package) : (s.onPkg f).clusters = s.clusters := rfl
@[simp] theorem onPkg_dies (s : State) (f : Package → Package) : (s.onPkg f).dies = s.dies := rfl
@[simp] theorem onPkg_parts (s : State) (f : Package → Package) : (s.onPkg f).parts = s.parts := rfl
@[simp] theorem onPkg_copies (s : State) (f : Package → Package) : (s.onPkg f).copies = s.copies := rfl
@[simp] theorem onPkg_sys (s : State) (f : Package → Package) : (s.onPkg f).sys = s.sys := rfl
@[simp] theorem onPkg_hbm (s : State) (f : Package → Package) : (s.onPkg f).hbm = s.hbm := rfl
@[simp] theorem onPkg_flats (s : State) (f : Package → Package) : (s.onPkg f).flats = s.flats := rfl
@[simp] theorem onPkg_loft (s : State) (f : Package → Package) : (s.onPkg f).loft = s.loft := rfl
@[simp] theorem onPkg_host (s : State) (f : Package → Package) : (s.onPkg f).host = s.host := rfl
@[simp] theorem onPkg_hist (s : State) (f : Package → Package) : (s.onPkg f).hist = s.hist := rfl
@[simp] theorem onPkg_pkg (s : State) (f : Package → Package) : (s.onPkg f).pkg = f s.pkg := rfl
@[simp] theorem onPkg_images (s : State) (f : Package → Package) : (s.onPkg f).images = s.images := rfl
@[simp] theorem onPkg_winWrites (s : State) (f : Package → Package) : (s.onPkg f).winWrites = s.winWrites := rfl

/-! ### sysPut -/

@[simp] theorem sysPut_clk (s : State) (n i : Nat) (x : Dword) : (sysPut s n i x).clk = s.clk := rfl
@[simp] theorem sysPut_ctr (s : State) (n i : Nat) (x : Dword) : (sysPut s n i x).ctr = s.ctr := rfl
@[simp] theorem sysPut_agenda (s : State) (n i : Nat) (x : Dword) : (sysPut s n i x).agenda = s.agenda := rfl
@[simp] theorem sysPut_issue (s : State) (n i : Nat) (x : Dword) : (sysPut s n i x).issue = s.issue := rfl
@[simp] theorem sysPut_threads (s : State) (n i : Nat) (x : Dword) : (sysPut s n i x).threads = s.threads := rfl
@[simp] theorem sysPut_groups (s : State) (n i : Nat) (x : Dword) : (sysPut s n i x).groups = s.groups := rfl
@[simp] theorem sysPut_blocks (s : State) (n i : Nat) (x : Dword) : (sysPut s n i x).blocks = s.blocks := rfl
@[simp] theorem sysPut_launches (s : State) (n i : Nat) (x : Dword) : (sysPut s n i x).launches = s.launches := rfl
@[simp] theorem sysPut_cores (s : State) (n i : Nat) (x : Dword) : (sysPut s n i x).cores = s.cores := rfl
@[simp] theorem sysPut_clusters (s : State) (n i : Nat) (x : Dword) : (sysPut s n i x).clusters = s.clusters := rfl
@[simp] theorem sysPut_dies (s : State) (n i : Nat) (x : Dword) : (sysPut s n i x).dies = s.dies := rfl
@[simp] theorem sysPut_parts (s : State) (n i : Nat) (x : Dword) : (sysPut s n i x).parts = s.parts := rfl
@[simp] theorem sysPut_copies (s : State) (n i : Nat) (x : Dword) : (sysPut s n i x).copies = s.copies := rfl
@[simp] theorem sysPut_sys (s : State) (n i : Nat) (x : Dword) : (sysPut s n i x).sys = s.sys.set (regKey n i) x := rfl
@[simp] theorem sysPut_hbm (s : State) (n i : Nat) (x : Dword) : (sysPut s n i x).hbm = s.hbm := rfl
@[simp] theorem sysPut_flats (s : State) (n i : Nat) (x : Dword) : (sysPut s n i x).flats = s.flats := rfl
@[simp] theorem sysPut_loft (s : State) (n i : Nat) (x : Dword) : (sysPut s n i x).loft = s.loft := rfl
@[simp] theorem sysPut_host (s : State) (n i : Nat) (x : Dword) : (sysPut s n i x).host = s.host := rfl
@[simp] theorem sysPut_hist (s : State) (n i : Nat) (x : Dword) : (sysPut s n i x).hist = s.hist := rfl
@[simp] theorem sysPut_pkg (s : State) (n i : Nat) (x : Dword) : (sysPut s n i x).pkg = s.pkg := rfl
@[simp] theorem sysPut_images (s : State) (n i : Nat) (x : Dword) : (sysPut s n i x).images = s.images := rfl
@[simp] theorem sysPut_winWrites (s : State) (n i : Nat) (x : Dword) : (sysPut s n i x).winWrites = s.winWrites := rfl

/-! ### Objects after an update -/

@[simp] theorem core_onCore (s : State) (n m : Nat) (f : Core → Core) :
    (s.onCore n f).core m = if m = n then f (s.core n) else s.core m := by simp [State.core]
@[simp] theorem cluster_onCluster (s : State) (n m : Nat) (f : Cluster → Cluster) :
    (s.onCluster n f).cluster m = if m = n then f (s.cluster n) else s.cluster m := by simp [State.cluster]
@[simp] theorem die_onDie (s : State) (n m : Nat) (f : Die → Die) :
    (s.onDie n f).die m = if m = n then f (s.die n) else s.die m := by simp [State.die]
@[simp] theorem part_onPart (s : State) (n m : Nat) (f : Part → Part) :
    (s.onPart n f).part m = if m = n then f (s.part n) else s.part m := by simp [State.part]
theorem thread_onThread (s : State) (t u : Nat) (f : Thread → Thread) (h : s.threads.has t = true) :
    (s.onThread t f).thread u = if u = t then f (s.thread t) else s.thread u := by
  simp only [State.thread, State.onThread, Sparse.findD_modify _ _ _ _ _ (.inl h)]; split <;> simp_all
theorem thread_onThread_ne (s : State) (t u : Nat) (f : Thread → Thread) (h : u ≠ t) :
    (s.onThread t f).thread u = s.thread u := by
  simp [State.thread, State.onThread, Sparse.findD, h]
theorem group_onGroup (s : State) (g u : Nat) (f : Group → Group) (h : s.groups.has g = true) :
    (s.onGroup g f).group u = if u = g then f (s.group g) else s.group u := by
  simp only [State.group, State.onGroup, Sparse.findD_modify _ _ _ _ _ (.inl h)]; split <;> simp_all
theorem group_onGroup_ne (s : State) (g u : Nat) (f : Group → Group) (h : u ≠ g) :
    (s.onGroup g f).group u = s.group u := by
  simp [State.group, State.onGroup, Sparse.findD, h]
theorem block_onBlock (s : State) (b u : Nat) (f : Block → Block) (h : s.blocks.has b = true) :
    (s.onBlock b f).block u = if u = b then f (s.block b) else s.block u := by
  simp only [State.block, State.onBlock, Sparse.findD_modify _ _ _ _ _ (.inl h)]; split <;> simp_all
theorem block_onBlock_ne (s : State) (b u : Nat) (f : Block → Block) (h : u ≠ b) :
    (s.onBlock b f).block u = s.block u := by
  simp [State.block, State.onBlock, Sparse.findD, h]
theorem launch_onLaunch (s : State) (l u : Nat) (f : Launch → Launch) (h : s.launches.has l = true) :
    (s.onLaunch l f).launch u = if u = l then f (s.launch l) else s.launch u := by
  simp only [State.launch, State.onLaunch, Sparse.findD_modify _ _ _ _ _ (.inl h)]; split <;> simp_all

/-- A thread after a change of several: those named that exist are changed, every other is as it was. -/
theorem thread_onThreads (s : State) (ts : List Nat) (f : Nat → Thread → Thread) (t : Nat) :
    (s.onThreads ts f).thread t = if t ∈ ts ∧ s.threads.has t = true then f t (s.thread t) else s.thread t := by
  simp only [State.thread, State.onThreads, Sparse.findD, Sparse.find?_mapKV, Sparse.has]
  obtain h | ⟨x, h⟩ := (s.threads.find? t).eq_none_or_eq_some <;> by_cases ht : t ∈ ts <;> simp [h, ht]

@[simp] theorem has_onThreads (s : State) (ts : List Nat) (f : Nat → Thread → Thread) (t : Nat) :
    (s.onThreads ts f).threads.has t = s.threads.has t := by simp
@[simp] theorem has_onThread (s : State) (t u : Nat) (f : Thread → Thread) :
    (s.onThread t f).threads.has u = s.threads.has u := by simp

/-! ### Objects that an update of others leaves -/

@[simp] theorem cluster_onCore (s : State) (n : Nat) (f : Core → Core) (m : Nat) : (s.onCore n f).cluster m = s.cluster m := rfl
@[simp] theorem die_onCore (s : State) (n : Nat) (f : Core → Core) (m : Nat) : (s.onCore n f).die m = s.die m := rfl
@[simp] theorem part_onCore (s : State) (n : Nat) (f : Core → Core) (m : Nat) : (s.onCore n f).part m = s.part m := rfl
@[simp] theorem thread_onCore (s : State) (n : Nat) (f : Core → Core) (m : Nat) : (s.onCore n f).thread m = s.thread m := rfl
@[simp] theorem group_onCore (s : State) (n : Nat) (f : Core → Core) (m : Nat) : (s.onCore n f).group m = s.group m := rfl
@[simp] theorem block_onCore (s : State) (n : Nat) (f : Core → Core) (m : Nat) : (s.onCore n f).block m = s.block m := rfl
@[simp] theorem launch_onCore (s : State) (n : Nat) (f : Core → Core) (m : Nat) : (s.onCore n f).launch m = s.launch m := rfl
@[simp] theorem core_onCluster (s : State) (n : Nat) (f : Cluster → Cluster) (m : Nat) : (s.onCluster n f).core m = s.core m := rfl
@[simp] theorem die_onCluster (s : State) (n : Nat) (f : Cluster → Cluster) (m : Nat) : (s.onCluster n f).die m = s.die m := rfl
@[simp] theorem part_onCluster (s : State) (n : Nat) (f : Cluster → Cluster) (m : Nat) : (s.onCluster n f).part m = s.part m := rfl
@[simp] theorem thread_onCluster (s : State) (n : Nat) (f : Cluster → Cluster) (m : Nat) : (s.onCluster n f).thread m = s.thread m := rfl
@[simp] theorem group_onCluster (s : State) (n : Nat) (f : Cluster → Cluster) (m : Nat) : (s.onCluster n f).group m = s.group m := rfl
@[simp] theorem block_onCluster (s : State) (n : Nat) (f : Cluster → Cluster) (m : Nat) : (s.onCluster n f).block m = s.block m := rfl
@[simp] theorem launch_onCluster (s : State) (n : Nat) (f : Cluster → Cluster) (m : Nat) : (s.onCluster n f).launch m = s.launch m := rfl
@[simp] theorem core_onDie (s : State) (n : Nat) (f : Die → Die) (m : Nat) : (s.onDie n f).core m = s.core m := rfl
@[simp] theorem cluster_onDie (s : State) (n : Nat) (f : Die → Die) (m : Nat) : (s.onDie n f).cluster m = s.cluster m := rfl
@[simp] theorem part_onDie (s : State) (n : Nat) (f : Die → Die) (m : Nat) : (s.onDie n f).part m = s.part m := rfl
@[simp] theorem thread_onDie (s : State) (n : Nat) (f : Die → Die) (m : Nat) : (s.onDie n f).thread m = s.thread m := rfl
@[simp] theorem group_onDie (s : State) (n : Nat) (f : Die → Die) (m : Nat) : (s.onDie n f).group m = s.group m := rfl
@[simp] theorem block_onDie (s : State) (n : Nat) (f : Die → Die) (m : Nat) : (s.onDie n f).block m = s.block m := rfl
@[simp] theorem launch_onDie (s : State) (n : Nat) (f : Die → Die) (m : Nat) : (s.onDie n f).launch m = s.launch m := rfl
@[simp] theorem core_onPart (s : State) (n : Nat) (f : Part → Part) (m : Nat) : (s.onPart n f).core m = s.core m := rfl
@[simp] theorem cluster_onPart (s : State) (n : Nat) (f : Part → Part) (m : Nat) : (s.onPart n f).cluster m = s.cluster m := rfl
@[simp] theorem die_onPart (s : State) (n : Nat) (f : Part → Part) (m : Nat) : (s.onPart n f).die m = s.die m := rfl
@[simp] theorem thread_onPart (s : State) (n : Nat) (f : Part → Part) (m : Nat) : (s.onPart n f).thread m = s.thread m := rfl
@[simp] theorem group_onPart (s : State) (n : Nat) (f : Part → Part) (m : Nat) : (s.onPart n f).group m = s.group m := rfl
@[simp] theorem block_onPart (s : State) (n : Nat) (f : Part → Part) (m : Nat) : (s.onPart n f).block m = s.block m := rfl
@[simp] theorem launch_onPart (s : State) (n : Nat) (f : Part → Part) (m : Nat) : (s.onPart n f).launch m = s.launch m := rfl
@[simp] theorem core_onThread (s : State) (t : Nat) (f : Thread → Thread) (m : Nat) : (s.onThread t f).core m = s.core m := rfl
@[simp] theorem cluster_onThread (s : State) (t : Nat) (f : Thread → Thread) (m : Nat) : (s.onThread t f).cluster m = s.cluster m := rfl
@[simp] theorem die_onThread (s : State) (t : Nat) (f : Thread → Thread) (m : Nat) : (s.onThread t f).die m = s.die m := rfl
@[simp] theorem part_onThread (s : State) (t : Nat) (f : Thread → Thread) (m : Nat) : (s.onThread t f).part m = s.part m := rfl
@[simp] theorem group_onThread (s : State) (t : Nat) (f : Thread → Thread) (m : Nat) : (s.onThread t f).group m = s.group m := rfl
@[simp] theorem block_onThread (s : State) (t : Nat) (f : Thread → Thread) (m : Nat) : (s.onThread t f).block m = s.block m := rfl
@[simp] theorem launch_onThread (s : State) (t : Nat) (f : Thread → Thread) (m : Nat) : (s.onThread t f).launch m = s.launch m := rfl
@[simp] theorem core_onThreads (s : State) (ts : List Nat) (f : Nat → Thread → Thread) (m : Nat) : (s.onThreads ts f).core m = s.core m := rfl
@[simp] theorem cluster_onThreads (s : State) (ts : List Nat) (f : Nat → Thread → Thread) (m : Nat) : (s.onThreads ts f).cluster m = s.cluster m := rfl
@[simp] theorem die_onThreads (s : State) (ts : List Nat) (f : Nat → Thread → Thread) (m : Nat) : (s.onThreads ts f).die m = s.die m := rfl
@[simp] theorem part_onThreads (s : State) (ts : List Nat) (f : Nat → Thread → Thread) (m : Nat) : (s.onThreads ts f).part m = s.part m := rfl
@[simp] theorem group_onThreads (s : State) (ts : List Nat) (f : Nat → Thread → Thread) (m : Nat) : (s.onThreads ts f).group m = s.group m := rfl
@[simp] theorem block_onThreads (s : State) (ts : List Nat) (f : Nat → Thread → Thread) (m : Nat) : (s.onThreads ts f).block m = s.block m := rfl
@[simp] theorem launch_onThreads (s : State) (ts : List Nat) (f : Nat → Thread → Thread) (m : Nat) : (s.onThreads ts f).launch m = s.launch m := rfl
@[simp] theorem core_onGroup (s : State) (g : Nat) (f : Group → Group) (m : Nat) : (s.onGroup g f).core m = s.core m := rfl
@[simp] theorem cluster_onGroup (s : State) (g : Nat) (f : Group → Group) (m : Nat) : (s.onGroup g f).cluster m = s.cluster m := rfl
@[simp] theorem die_onGroup (s : State) (g : Nat) (f : Group → Group) (m : Nat) : (s.onGroup g f).die m = s.die m := rfl
@[simp] theorem part_onGroup (s : State) (g : Nat) (f : Group → Group) (m : Nat) : (s.onGroup g f).part m = s.part m := rfl
@[simp] theorem thread_onGroup (s : State) (g : Nat) (f : Group → Group) (m : Nat) : (s.onGroup g f).thread m = s.thread m := rfl
@[simp] theorem block_onGroup (s : State) (g : Nat) (f : Group → Group) (m : Nat) : (s.onGroup g f).block m = s.block m := rfl
@[simp] theorem launch_onGroup (s : State) (g : Nat) (f : Group → Group) (m : Nat) : (s.onGroup g f).launch m = s.launch m := rfl
@[simp] theorem core_onBlock (s : State) (b : Nat) (f : Block → Block) (m : Nat) : (s.onBlock b f).core m = s.core m := rfl
@[simp] theorem cluster_onBlock (s : State) (b : Nat) (f : Block → Block) (m : Nat) : (s.onBlock b f).cluster m = s.cluster m := rfl
@[simp] theorem die_onBlock (s : State) (b : Nat) (f : Block → Block) (m : Nat) : (s.onBlock b f).die m = s.die m := rfl
@[simp] theorem part_onBlock (s : State) (b : Nat) (f : Block → Block) (m : Nat) : (s.onBlock b f).part m = s.part m := rfl
@[simp] theorem thread_onBlock (s : State) (b : Nat) (f : Block → Block) (m : Nat) : (s.onBlock b f).thread m = s.thread m := rfl
@[simp] theorem group_onBlock (s : State) (b : Nat) (f : Block → Block) (m : Nat) : (s.onBlock b f).group m = s.group m := rfl
@[simp] theorem launch_onBlock (s : State) (b : Nat) (f : Block → Block) (m : Nat) : (s.onBlock b f).launch m = s.launch m := rfl
@[simp] theorem core_onLaunch (s : State) (l : Nat) (f : Launch → Launch) (m : Nat) : (s.onLaunch l f).core m = s.core m := rfl
@[simp] theorem cluster_onLaunch (s : State) (l : Nat) (f : Launch → Launch) (m : Nat) : (s.onLaunch l f).cluster m = s.cluster m := rfl
@[simp] theorem die_onLaunch (s : State) (l : Nat) (f : Launch → Launch) (m : Nat) : (s.onLaunch l f).die m = s.die m := rfl
@[simp] theorem part_onLaunch (s : State) (l : Nat) (f : Launch → Launch) (m : Nat) : (s.onLaunch l f).part m = s.part m := rfl
@[simp] theorem thread_onLaunch (s : State) (l : Nat) (f : Launch → Launch) (m : Nat) : (s.onLaunch l f).thread m = s.thread m := rfl
@[simp] theorem group_onLaunch (s : State) (l : Nat) (f : Launch → Launch) (m : Nat) : (s.onLaunch l f).group m = s.group m := rfl
@[simp] theorem block_onLaunch (s : State) (l : Nat) (f : Launch → Launch) (m : Nat) : (s.onLaunch l f).block m = s.block m := rfl
@[simp] theorem core_onPkg (s : State) (f : Package → Package) (m : Nat) : (s.onPkg f).core m = s.core m := rfl
@[simp] theorem cluster_onPkg (s : State) (f : Package → Package) (m : Nat) : (s.onPkg f).cluster m = s.cluster m := rfl
@[simp] theorem die_onPkg (s : State) (f : Package → Package) (m : Nat) : (s.onPkg f).die m = s.die m := rfl
@[simp] theorem part_onPkg (s : State) (f : Package → Package) (m : Nat) : (s.onPkg f).part m = s.part m := rfl
@[simp] theorem thread_onPkg (s : State) (f : Package → Package) (m : Nat) : (s.onPkg f).thread m = s.thread m := rfl
@[simp] theorem group_onPkg (s : State) (f : Package → Package) (m : Nat) : (s.onPkg f).group m = s.group m := rfl
@[simp] theorem block_onPkg (s : State) (f : Package → Package) (m : Nat) : (s.onPkg f).block m = s.block m := rfl
@[simp] theorem launch_onPkg (s : State) (f : Package → Package) (m : Nat) : (s.onPkg f).launch m = s.launch m := rfl
@[simp] theorem core_sysPut (s : State) (n i : Nat) (x : Dword) (m : Nat) : (sysPut s n i x).core m = s.core m := rfl
@[simp] theorem cluster_sysPut (s : State) (n i : Nat) (x : Dword) (m : Nat) : (sysPut s n i x).cluster m = s.cluster m := rfl
@[simp] theorem die_sysPut (s : State) (n i : Nat) (x : Dword) (m : Nat) : (sysPut s n i x).die m = s.die m := rfl
@[simp] theorem part_sysPut (s : State) (n i : Nat) (x : Dword) (m : Nat) : (sysPut s n i x).part m = s.part m := rfl
@[simp] theorem thread_sysPut (s : State) (n i : Nat) (x : Dword) (m : Nat) : (sysPut s n i x).thread m = s.thread m := rfl
@[simp] theorem group_sysPut (s : State) (n i : Nat) (x : Dword) (m : Nat) : (sysPut s n i x).group m = s.group m := rfl
@[simp] theorem block_sysPut (s : State) (n i : Nat) (x : Dword) (m : Nat) : (sysPut s n i x).block m = s.block m := rfl
@[simp] theorem launch_sysPut (s : State) (n i : Nat) (x : Dword) (m : Nat) : (sysPut s n i x).launch m = s.launch m := rfl

theorem sysGet_sysPut (s : State) (n i m j : Nat) (x : Dword) :
    sysGet (sysPut s n i x) m j = if regKey m j = regKey n i then x else sysGet s m j := by
  simp only [sysGet, sysPut, Sparse.findD_set]

@[simp] theorem sysGet_sysPut_same (s : State) (n i : Nat) (x : Dword) : sysGet (sysPut s n i x) n i = x := by
  simp [sysGet_sysPut]

end Sys2Proof.Machine
end

