-- ==== Sys2Proof/Laws/Issue.lean ====
section
/-! SUPPORT. The issue of a word: that a bundle whose threads may all issue it reaches the word's body whole, and
what the state is there. -/

namespace Sys2Proof.Machine

/-! ### The fate of a thread -/

/-- Nothing holds a thread STALLED at a word that it may issue. -/
theorem waitsFor_none {s : State} {i : Instr} {pc : Dword} {t : Nat} (h : MayIssue s i pc t) : waitsFor s i t = none := by
  unfold waitsFor
  simp only [h.landed, Bool.false_eq_true, if_false]
  cases hg : guardHolds (guardOf i) (s.thread t)
  · rfl
  · simp only [Bool.not_true, Bool.false_eq_true, if_false, h.replayed hg, h.streams hg, h.drained hg, Bool.and_eq_true]
    rw [if_neg]
    rintro ⟨hx, hp⟩
    simp [h.asked hg hx] at hp

theorem fateOf_go {s : State} {i : Instr} {pc : Dword} {t : Nat} (hw : i.wf = true) (h : MayIssue s i pc t) :
    fateOf s i pc t = .go := by
  have hb : (!(s.groupOf t).priv && !(s.thread t).freePass && ibrkAt s (s.groupOf t).ctx pc) = false := by
    have := h.unbroken
    simp only [State.privOf, State.ctxOf] at this
    rcases this with h | h | h <;> simp [h]
  have hp : (isPrivileged i && !(s.groupOf t).priv) = false := by
    have := h.level
    simp only [State.privOf] at this
    cases hi : isPrivileged i
    · rfl
    · simp [this hi]
  unfold fateOf
  simp only [hb, hw, hp, h.within, waitsFor_none h, Bool.not_true, Bool.false_eq_true, if_false]
  cases hg : guardHolds (guardOf i) (s.thread t)
  · rfl
  · simp [h.unfaulted hg]

theorem oneGroup_all {s : State} {i : Instr} {ts : List Nat}
    (h : (usesOf i).u = true → ∀ t ∈ ts, ∀ u ∈ ts, (s.thread t).group = (s.thread u).group) : oneGroup s i ts = ts := by
  unfold oneGroup
  cases hu : (usesOf i).u
  · rfl
  · cases ts with
    | nil => rfl
    | cons t ts =>
        simp only [if_true]
        refine List.filter_eq_self.2 fun u hm => ?_
        simp [h hu u hm t (by simp)]

/-- A bundle that may issue its word, and that is admitted whole, reaches the word's body. -/
theorem word_admitted {i : Instr} {b : Bundle} {s s1 : State} (h : Issuing i b s) (ha : takeIn i b b.threads s = (b.threads, s1))
    (hi : s1.issue = .bundle b) (hth : s1.threads = s.threads) (body : Issued → State → State) :
    word i s body = .next (body (issuedAs i b s) (afterIssue b s1)) := by
  have ht := oneGroup_all (s := s) (i := i) (ts := b.threads) h.together
  have hr : (b.threads.filter fun t => !b.threads.contains t) = [] := by
    refine List.filter_eq_nil_iff.2 fun t hm => ?_
    simp [hm]
  have hf : ∀ (l : List Nat), (∀ t ∈ l, t ∈ b.threads) →
      (l.map fun t => (t, fateOf s i b.pc t)) = l.map fun t => (t, Fate.go) := fun l hl =>
    List.map_congr_left fun t hm => by rw [fateOf_go h.wf (h.may t (hl t hm))]
  have hfold : ∀ (l : List Nat) (s0 : State) (g : State → Nat × Fate → State), (∀ s t, g s (t, .go) = s) →
      (l.map fun t => (t, Fate.go)).foldl g s0 = s0 := by
    intro l s0 g hg
    induction l generalizing s0 with
    | nil => rfl
    | cons t l ih => simp [hg, ih]
  have hgo : ((b.threads.map fun t => (t, Fate.go)).filterMap fun f => if f.2 = .go then some f.1 else none) = b.threads := by
    rw [List.filterMap_map]
    simp
  have hready : (b.threads.filter fun t => (s.thread t).held == .ready) = b.threads :=
    List.filter_eq_self.2 fun t hm => by simp [(h.may t hm).ready]
  have hne : b.threads.isEmpty = false := by
    cases hb : b.threads with
    | nil => exact absurd hb h.some
    | cons _ _ => rfl
  have hthis : onlyThese s1 b b.threads = s1 := by
    unfold onlyThese
    rw [← hi]
  have hthread : ∀ t, s1.thread t = s.thread t := fun t => by simp only [State.thread, hth]
  unfold word issueWord
  rw [h.bundle]
  simp only [ht, hr, List.isEmpty_nil, if_true, hf b.threads fun t h => h]
  rw [hfold]
  · simp only [hgo, hready, ha, hne, Bool.false_eq_true, if_false, hthis, hthread]
    rfl
  · intro s t; rfl

/-- A bundle that may issue a word that gathers nobody is admitted whole. -/
theorem admit_all {i : Instr} {b : Bundle} {s : State} (h : Issuing i b s) (hn : gatherMask i = none) :
    takeIn i b b.threads s = (b.threads, s) := by
  have hr := h.room
  unfold activeIn at hr
  unfold takeIn
  rw [hn]
  generalize roomless s i b.core (b.threads.filter fun t => guardHolds (guardOf i) (s.thread t)) = x at hr
  obtain ⟨l, n⟩ := x
  simp only at hr
  subst hr
  have : (b.threads.filter fun t => !([] : List Nat).contains t) = b.threads := List.filter_eq_self.2 fun t _ => rfl
  simp only [this, List.foldl_nil]
  cases n <;> rfl

/-- A bundle that may issue its word reaches the word's body. -/
theorem word_issues {i : Instr} {b : Bundle} {s : State} (h : Issuing i b s) (hn : gatherMask i = none) (body : Issued → State → State) :
    word i s body = .next (body (issuedAs i b s) (afterIssue b s)) :=
  word_admitted h (admit_all h hn) h.bundle rfl body

/-! ### The state in which an issued word acts -/

theorem touchBlocks_eq (ts : List Nat) (f : State → Nat → Nat) (s0 : State) (clk : Nat) (hf : ∀ s s' : State, s'.threads = s.threads → s'.groups = s.groups → f s' = f s) :
    ∀ s : State, s.threads = s0.threads → s.groups = s0.groups → s.clk = clk →
    (ts.foldl (fun s t => s.onBlock (f s t) fun b => { b with lastIssue := s.clk }) s) =
      { s with blocks := s.blocks.mapKV fun k b => if k ∈ ts.map (f s0) then { b with lastIssue := clk } else b } := by
  induction ts with
  | nil =>
      intro s _ _ _
      have : s.blocks.mapKV (fun k b => if k ∈ ([] : List Nat).map (f s0) then { b with lastIssue := clk } else b) = s.blocks := by
        simp [Sparse.mapKV]
      rw [this]; rfl
  | cons t ts ih =>
      intro s h1 h2 h3
      rw [List.foldl_cons, ih _ (by simpa using h1) (by simpa using h2) (by simpa using h3)]
      rw [hf s0 s h1 h2, h3]
      simp only [State.onBlock, Sparse.modify, Sparse.mapKV, List.map_map, List.map_cons, List.mem_cons]
      congr 2
      refine List.map_congr_left fun e _ => ?_
      simp only [Function.comp]
      by_cases h : e.1 = f s0 t
      · simp only [h, if_true, true_or]
        split <;> rfl
      · simp only [h, if_false, false_or]

/-- The PCs advanced and the blocks' times of issue set, in one record. -/
theorem advance_eq (s : State) (ts : List Nat) (pc : Dword) :
    advance s ts pc =
      { s.onThreads ts fun _ th => { th with pc := pc + 8, freePass := false, readyAt := s.clk, passed := 0 } with
        blocks := s.blocks.mapKV fun k b => if k ∈ ts.map (s.onThreads ts fun _ th => { th with pc := pc + 8, freePass := false, readyAt := s.clk, passed := 0 }).blockIdOf then { b with lastIssue := s.clk } else b } := by
  unfold advance
  have := touchBlocks_eq ts (fun s t => s.blockIdOf t)
    (s.onThreads ts fun _ th => { th with pc := pc + 8, freePass := false, readyAt := s.clk, passed := 0 }) s.clk
    (by
      intro s s' h1 h2; funext t
      simp only [State.blockIdOf, State.groupOf, State.group, State.thread, h1, h2])
    (s.onThreads ts fun _ th => { th with pc := pc + 8, freePass := false, readyAt := s.clk, passed := 0 }) rfl rfl rfl
  exact this

theorem afterIssue_thread {b : Bundle} {s : State} {t : Nat} (hm : t ∈ b.threads) (h : s.threads.has t = true) :
    (afterIssue b s).thread t = stepped s b.pc t := by
  have : (afterIssue b s).thread t = (advance s b.threads b.pc).thread t := rfl
  rw [this, advance_eq]
  obtain ⟨x, hx⟩ := (Sparse.has_iff _ _).1 h
  simp [State.thread, State.onThreads, Sparse.findD, hx, hm, stepped]

theorem afterIssue_find?_ne {b : Bundle} {s : State} {t : Nat} (hm : t ∉ b.threads) :
    (afterIssue b s).threads.find? t = s.threads.find? t := by
  have : (afterIssue b s).threads = (advance s b.threads b.pc).threads := rfl
  rw [this, advance_eq]
  cases hx : s.threads.find? t <;> simp [State.onThreads, hx, hm]

theorem afterIssue_has (b : Bundle) (s : State) (t : Nat) : (afterIssue b s).threads.has t = s.threads.has t := by
  have : (afterIssue b s).threads = (advance s b.threads b.pc).threads := rfl
  rw [this, advance_eq]
  simp [State.onThreads]

/-- No issue changes what group a thread is of. -/
theorem afterIssue_thread_group (b : Bundle) (s : State) (t : Nat) :
    ((afterIssue b s).thread t).group = (s.thread t).group := by
  have : (afterIssue b s).thread t = (advance s b.threads b.pc).thread t := rfl
  rw [this, advance_eq]
  obtain hx | ⟨x, hx⟩ := (s.threads.find? t).eq_none_or_eq_some
  · simp [State.thread, State.onThreads, Sparse.findD, hx]
  · by_cases hm : t ∈ b.threads <;> simp [State.thread, State.onThreads, Sparse.findD, hx, hm]

@[simp] theorem afterIssue_clk (b : Bundle) (s : State) : (afterIssue b s).clk = s.clk := by simp [afterIssue, pmc, advance_eq]
@[simp] theorem afterIssue_ctr (b : Bundle) (s : State) : (afterIssue b s).ctr = s.ctr := by simp [afterIssue, pmc, advance_eq]
@[simp] theorem afterIssue_agenda (b : Bundle) (s : State) : (afterIssue b s).agenda = s.agenda := by simp [afterIssue, pmc, advance_eq]
@[simp] theorem afterIssue_issue (b : Bundle) (s : State) : (afterIssue b s).issue = s.issue := by simp [afterIssue, pmc, advance_eq]
@[simp] theorem afterIssue_groups (b : Bundle) (s : State) : (afterIssue b s).groups = s.groups := by simp [afterIssue, pmc, advance_eq]
@[simp] theorem afterIssue_launches (b : Bundle) (s : State) : (afterIssue b s).launches = s.launches := by simp [afterIssue, pmc, advance_eq]
@[simp] theorem afterIssue_cores (b : Bundle) (s : State) : (afterIssue b s).cores = s.cores := by simp [afterIssue, pmc, advance_eq]
@[simp] theorem afterIssue_clusters (b : Bundle) (s : State) : (afterIssue b s).clusters = s.clusters := by simp [afterIssue, pmc, advance_eq]
@[simp] theorem afterIssue_dies (b : Bundle) (s : State) : (afterIssue b s).dies = s.dies := by simp [afterIssue, pmc, advance_eq]
@[simp] theorem afterIssue_parts (b : Bundle) (s : State) : (afterIssue b s).parts = s.parts := by simp [afterIssue, pmc, advance_eq]
@[simp] theorem afterIssue_copies (b : Bundle) (s : State) : (afterIssue b s).copies = s.copies := by simp [afterIssue, pmc, advance_eq]
@[simp] theorem afterIssue_hbm (b : Bundle) (s : State) : (afterIssue b s).hbm = s.hbm := by simp [afterIssue, pmc, advance_eq]
@[simp] theorem afterIssue_flats (b : Bundle) (s : State) : (afterIssue b s).flats = s.flats := by simp [afterIssue, pmc, advance_eq]
@[simp] theorem afterIssue_loft (b : Bundle) (s : State) : (afterIssue b s).loft = s.loft := by simp [afterIssue, pmc, advance_eq]
@[simp] theorem afterIssue_host (b : Bundle) (s : State) : (afterIssue b s).host = s.host := by simp [afterIssue, pmc, advance_eq]
@[simp] theorem afterIssue_hist (b : Bundle) (s : State) : (afterIssue b s).hist = s.hist := by simp [afterIssue, pmc, advance_eq]
@[simp] theorem afterIssue_pkg (b : Bundle) (s : State) : (afterIssue b s).pkg = s.pkg := by simp [afterIssue, pmc, advance_eq]
@[simp] theorem afterIssue_images (b : Bundle) (s : State) : (afterIssue b s).images = s.images := by simp [afterIssue, pmc, advance_eq]
@[simp] theorem afterIssue_winWrites (b : Bundle) (s : State) : (afterIssue b s).winWrites = s.winWrites := by simp [afterIssue, pmc, advance_eq]
@[simp] theorem afterIssue_group (b : Bundle) (s : State) (g : Nat) : (afterIssue b s).group g = s.group g := by simp [State.group]

@[simp] theorem afterIssue_groupOf (b : Bundle) (s : State) (t : Nat) : (afterIssue b s).groupOf t = s.groupOf t := by
  simp [State.groupOf, afterIssue_thread_group]
@[simp] theorem afterIssue_blockIdOf (b : Bundle) (s : State) (t : Nat) : (afterIssue b s).blockIdOf t = s.blockIdOf t := by
  simp [State.blockIdOf]
@[simp] theorem afterIssue_coreOf (b : Bundle) (s : State) (t : Nat) : (afterIssue b s).coreOf t = s.coreOf t := by
  simp [State.coreOf]
@[simp] theorem afterIssue_ctxOf (b : Bundle) (s : State) (t : Nat) : (afterIssue b s).ctxOf t = s.ctxOf t := by
  simp [State.ctxOf]
@[simp] theorem afterIssue_privOf (b : Bundle) (s : State) (t : Nat) : (afterIssue b s).privOf t = s.privOf t := by
  simp [State.privOf]

theorem afterIssue_block (b : Bundle) (s : State) (k : Nat) :
    (afterIssue b s).block k = { s.block k with
      lastIssue := if s.blocks.has k = true ∧ k ∈ b.threads.map s.blockIdOf then s.clk else (s.block k).lastIssue } := by
  have he : (afterIssue b s).block k = (advance s b.threads b.pc).block k := rfl
  have hb : (s.onThreads b.threads fun _ th => { th with pc := b.pc + 8, freePass := false, readyAt := s.clk, passed := 0 }).blockIdOf
      = s.blockIdOf := by
    funext t
    have : ((s.onThreads b.threads fun _ th => { th with pc := b.pc + 8, freePass := false, readyAt := s.clk, passed := 0 }).thread t).group
        = (s.thread t).group := by
      obtain hx | ⟨x, hx⟩ := (s.threads.find? t).eq_none_or_eq_some
      · simp [State.thread, State.onThreads, Sparse.findD, hx]
      · by_cases hm : t ∈ b.threads <;> simp [State.thread, State.onThreads, Sparse.findD, hx, hm]
    show (s.group _).block = (s.group _).block
    rw [this]
  rw [he, advance_eq, hb]
  obtain hx | ⟨x, hx⟩ := (s.blocks.find? k).eq_none_or_eq_some
  · simp [State.block, Sparse.findD, Sparse.has, hx]
  · simp only [State.block, Sparse.findD, Sparse.find?_mapKV, hx, Sparse.has, Option.map_some, Option.getD_some, Option.isSome_some, true_and]
    split <;> rfl

/-- What an issue leaves of a block's launch, place and members. -/
@[simp] theorem afterIssue_block_launch (b : Bundle) (s : State) (k : Nat) : ((afterIssue b s).block k).launch = (s.block k).launch := by
  rw [afterIssue_block]
@[simp] theorem afterIssue_launchIdOf (b : Bundle) (s : State) (t : Nat) : (afterIssue b s).launchIdOf t = s.launchIdOf t := by
  simp [State.launchIdOf, State.blockOf]
@[simp] theorem afterIssue_launch (b : Bundle) (s : State) (l : Nat) : (afterIssue b s).launch l = s.launch l := by simp [State.launch]
@[simp] theorem afterIssue_launchOf (b : Bundle) (s : State) (t : Nat) : (afterIssue b s).launchOf t = s.launchOf t := by
  simp [State.launchOf]
@[simp] theorem afterIssue_partOf (b : Bundle) (s : State) (t : Nat) : (afterIssue b s).partOf t = s.partOf t := by
  simp [State.partOf]

theorem regKey_inj {n c m d : Nat} (hc : c < 256) (hd : d < 256) : regKey n c = regKey m d ↔ n = m ∧ c = d := by
  unfold regKey; omega

theorem afterIssue_sys {b : Bundle} {s : State} (hb : b.core < 256) (n c : Nat) (hc : c < 256) :
    sysGet (afterIssue b s) n c = sysGet s n c + counted b n c := by
  have h0 : sysGet (advance s b.threads b.pc) = sysGet s := by
    funext n c
    rw [advance_eq]; rfl
  unfold afterIssue pmc counted
  simp only [sysGet_sysPut, regKey_inj hc hb, regKey_inj hb hb, h0]
  have hne : ¬ (RegNo.pmc 1 = RegNo.pmc 0) := by decide
  by_cases h : n = RegNo.pmc 0 ∧ c = b.core
  · obtain ⟨rfl, rfl⟩ := h
    have : ¬ (RegNo.pmc 0 = RegNo.pmc 1) := by decide
    simp [this]
  · by_cases h' : n = RegNo.pmc 1 ∧ c = b.core
    · obtain ⟨rfl, rfl⟩ := h'
      simp [hne]
    · simp [h, h']

/-- The environment of an issuing thread: its own thread advanced, its group as it was. -/
theorem afterIssue_env {b : Bundle} {s : State} {t : Nat} (hm : t ∈ b.threads) (h : s.threads.has t = true) :
    envOf (afterIssue b s) t = ⟨t, stepped s b.pc t, s.groupOf t⟩ := by
  simp [envOf, afterIssue_thread hm h]

/-! ### The frame -/

/-- A state that differs from the issued one in threads and groups alone keeps the frame. -/
theorem Frame.of_afterIssue {b : Bundle} {s s' : State} (hb : b.core < 256)
    (ho : ∀ t, t ∉ b.threads → s'.threads.find? t = s.threads.find? t)
    (h : { s' with threads := (afterIssue b s).threads, groups := (afterIssue b s).groups, ctr := (afterIssue b s).ctr } = afterIssue b s) :
    Frame b s s' := by
  have f : ∀ {α : Type} (g : State → α), g { s' with threads := (afterIssue b s).threads, groups := (afterIssue b s).groups, ctr := (afterIssue b s).ctr } = g (afterIssue b s) :=
    fun g => congrArg g h
  refine ⟨ho, ?_, ?_, ?_, ?_, ?_, ?_, ?_, ?_, ?_, ?_, ?_, ?_, ?_, ?_, ?_, ?_, ?_, ?_, ?_⟩
  · intro k; rw [← afterIssue_block]; exact f fun s => s.block k
  · intro n c hc
    rw [← afterIssue_sys hb n c hc]; exact f fun s => sysGet s n c
  · rw [← afterIssue_clk b s]; exact f State.clk
  · rw [← afterIssue_agenda b s]; exact f State.agenda
  · rw [← afterIssue_issue b s]; exact f State.issue
  · rw [← afterIssue_launches b s]; exact f State.launches
  · rw [← afterIssue_cores b s]; exact f State.cores
  · rw [← afterIssue_clusters b s]; exact f State.clusters
  · rw [← afterIssue_dies b s]; exact f State.dies
  · rw [← afterIssue_parts b s]; exact f State.parts
  · rw [← afterIssue_copies b s]; exact f State.copies
  · rw [← afterIssue_hbm b s]; exact f State.hbm
  · rw [← afterIssue_flats b s]; exact f State.flats
  · rw [← afterIssue_loft b s]; exact f State.loft
  · rw [← afterIssue_host b s]; exact f State.host
  · rw [← afterIssue_hist b s]; exact f State.hist
  · rw [← afterIssue_pkg b s]; exact f State.pkg
  · rw [← afterIssue_images b s]; exact f State.images
  · rw [← afterIssue_winWrites b s]; exact f State.winWrites

/-! ### Results landed -/

/-- What `orFlags` over results leaves: groups alone, each with the flags of its threads. -/
theorem orFlags_group (s : State) (g : Nat) (fl : Flags) (h : s.groups.has g = true) (j : Nat) :
    (orFlags s g fl).group j = { s.group j with fsr := if g = j then (s.group j).fsr ||| fl else (s.group j).fsr } := by
  by_cases hf : fl = 0
  · subst hf
    simp [orFlags]
  · rw [orFlags, if_neg hf]
    obtain ⟨x, hx⟩ := (Sparse.has_iff _ _).1 h
    by_cases hg : g = j
    · subst hg
      simp [State.group, State.onGroup, Sparse.findD, hx]
    · have hg' : ¬ j = g := fun e => hg e.symm
      simp only [State.group, State.onGroup, Sparse.findD, Sparse.find?_modify, hg, hg', if_false]

theorem orFlags_rest (s : State) (g : Nat) (fl : Flags) : { orFlags s g fl with groups := s.groups } = s := by
  unfold orFlags; split <;> rfl
@[simp] theorem orFlags_threads (s : State) (g : Nat) (fl : Flags) : (orFlags s g fl).threads = s.threads := by
  unfold orFlags; split <;> rfl
@[simp] theorem orFlags_has (s : State) (g : Nat) (fl : Flags) (j : Nat) : (orFlags s g fl).groups.has j = s.groups.has j := by
  unfold orFlags; split <;> simp

/-- Flags of results ORed into the groups of their threads. -/
theorem orAllFlags (rs : List (Nat × Wr)) : ∀ (s : State), (∀ r ∈ rs, s.groups.has (s.thread r.1).group = true) →
    let s' := rs.foldl (fun s r => orFlags s (s.thread r.1).group r.2.flags) s
    s'.threads = s.threads ∧ { s' with groups := s.groups } = s ∧
      ∀ j, s'.group j = { s.group j with
        fsr := rs.foldl (fun fl r => if (s.thread r.1).group = j then fl ||| r.2.flags else fl) (s.group j).fsr } := by
  induction rs with
  | nil => intro s _; exact ⟨rfl, rfl, fun _ => rfl⟩
  | cons r rs ih =>
      intro s h
      have ht : ∀ t, (orFlags s (s.thread r.1).group r.2.flags).thread t = s.thread t := fun t => by
        simp [State.thread]
      have := ih (orFlags s (s.thread r.1).group r.2.flags) (fun q hq => by
        rw [ht, orFlags_has]; exact h q (List.mem_cons_of_mem _ hq))
      obtain ⟨h1, h2, h3⟩ := this
      refine ⟨by simpa using h1, ?_, fun j => ?_⟩
      · have e := orFlags_rest s (s.thread r.1).group r.2.flags
        rw [List.foldl_cons]
        have h4 := congrArg (fun x : State => { x with groups := s.groups }) h2
        simp only at h4
        exact h4.trans e
      · rw [List.foldl_cons, h3 j, orFlags_group _ _ _ (h r (by simp))]
        simp only [ht, List.foldl_cons]

/-- `raised` from any starting flags. -/
theorem foldl_or_start {α : Type} (l : List α) (c : α → Prop) [DecidablePred c] (f : α → Flags) (x : Flags) :
    l.foldl (fun fl a => if c a then fl ||| f a else fl) x = x ||| l.foldl (fun fl a => if c a then fl ||| f a else fl) 0 := by
  induction l generalizing x with
  | nil => simp
  | cons a l ih =>
      rw [List.foldl_cons, List.foldl_cons, ih, ih (if c a then 0 ||| f a else 0)]
      by_cases h : c a
      · simp [h, BitVec.or_assoc]
      · simp [h]

theorem find?_map_key {α : Type} (l : List Nat) (f : Nat → α) (t : Nat) :
    ((l.map fun u => (u, f u)).find? fun r => r.1 == t) = if t ∈ l then some (t, f t) else none := by
  induction l with
  | nil => rfl
  | cons u l ih =>
      by_cases h : u = t
      · subst h; simp
      · have h' : ¬ t = u := fun e => h e.symm
        simp [h, h', ih]

/-- What landing results does: their threads pop their ports and take them, the groups take their flags, nothing
else changes. -/
theorem land_spec (i : Instr) (ts : List Nat) (f : Nat → Wr) (s : State)
    (hg : ∀ t ∈ ts, s.groups.has (s.thread t).group = true) :
    let s' := land i (ts.map fun t => (t, f t)) s
    (∀ t ∈ ts, s.threads.has t = true → s'.thread t = (f t).apply (issuedWord s) ((usesOf i).lp.foldl Thread.popPort (s.thread t))) ∧
    (∀ t, t ∉ ts → s'.threads.find? t = s.threads.find? t) ∧
    (∀ j, s'.group j = { s.group j with
      fsr := (s.group j).fsr ||| ts.foldl (fun fl t => if (s.thread t).group = j then fl ||| (f t).flags else fl) 0 }) ∧
    { s' with threads := s.threads, groups := s.groups } = s := by
  have pop : ∀ (th : Thread) (p : Nat), (th.popPort p).group = th.group := fun _ _ => rfl
  have pops : ∀ (l : List Nat) (th : Thread), (l.foldl Thread.popPort th).group = th.group := by
    intro l
    induction l with
    | nil => intro _; rfl
    | cons p l ih => intro th; rw [List.foldl_cons, ih, pop]
  have app : ∀ (w : Wr) (x : Dword) (th : Thread), (w.apply x th).group = th.group := by
    intro w x th
    unfold Wr.apply
    cases w.push <;> rfl
  have hk : ((ts.map fun t => (t, f t)).map Prod.fst) = ts := by
    rw [List.map_map]; exact List.map_id ts
  have h1 : ∀ t, ((s.onThreads ts fun t th =>
      (((ts.map fun t => (t, f t)).find? fun r => r.1 == t).map fun r => r.2.apply (issuedWord s) ((usesOf i).lp.foldl Thread.popPort th)).getD ((usesOf i).lp.foldl Thread.popPort th)).thread t).group
      = (s.thread t).group := by
    intro t
    obtain hx | ⟨x, hx⟩ := (s.threads.find? t).eq_none_or_eq_some
    · simp [State.thread, State.onThreads, Sparse.findD, hx]
    · by_cases hm : t ∈ ts
      · simp only [State.thread, State.onThreads, Sparse.findD, Sparse.find?_mapKV, hx, Option.map_some, Option.getD_some,
          List.contains_eq_mem, hm, decide_true, if_true, find?_map_key, app, pops]
      · simp [State.thread, State.onThreads, Sparse.findD, hx, hm]
  have h2 := orAllFlags (ts.map fun t => (t, f t)) (s.onThreads ts fun t th =>
      (((ts.map fun t => (t, f t)).find? fun r => r.1 == t).map fun r => r.2.apply (issuedWord s) ((usesOf i).lp.foldl Thread.popPort th)).getD ((usesOf i).lp.foldl Thread.popPort th))
      (by
        intro r hr
        obtain ⟨t, ht, rfl⟩ := List.mem_map.1 hr
        rw [h1]
        exact hg t ht)
  obtain ⟨ha, hb, hc⟩ := h2
  have hl : land i (ts.map fun t => (t, f t)) s = (ts.map fun t => (t, f t)).foldl (fun s r => orFlags s (s.thread r.1).group r.2.flags)
      (s.onThreads ts fun t th =>
      (((ts.map fun t => (t, f t)).find? fun r => r.1 == t).map fun r => r.2.apply (issuedWord s) ((usesOf i).lp.foldl Thread.popPort th)).getD ((usesOf i).lp.foldl Thread.popPort th)) := by
    unfold land
    simp only [hk]
  intro s'
  refine ⟨fun t hm hh => ?_, fun t hm => ?_, fun j => ?_, ?_⟩
  · show (land _ _ _).thread t = _
    rw [hl]
    obtain ⟨x, hx⟩ := (Sparse.has_iff _ _).1 hh
    rw [State.thread, Sparse.findD, ha]
    simp only [State.thread, Sparse.findD, State.onThreads, Sparse.find?_mapKV, hx, Option.map_some, Option.getD_some,
      List.contains_eq_mem, hm, decide_true, if_true, find?_map_key]
  · show (land _ _ _).threads.find? t = _
    rw [hl, ha]
    cases hx : s.threads.find? t <;> simp [State.onThreads, hx, hm]
  · show (land _ _ _).group j = _
    rw [hl, hc j, List.foldl_map]
    simp only [h1]
    rw [foldl_or_start ts (fun t => (s.thread t).group = j) (fun t => (f t).flags)]
    rfl
  · show { land i (ts.map fun t => (t, f t)) s with threads := s.threads, groups := s.groups } = s
    rw [hl]
    have := congrArg (fun x : State => { x with threads := s.threads }) hb
    simp only at this
    exact this

/-- A word with results at issue, under the conditions of issue: `f`, read in the issued state, gives `r`. -/
theorem lanes_complete {i : Instr} {f : State → Env → Wr} {r : Env → Wr} {b : Bundle} {s : State} (h : Issuing i b s)
    (hn : gatherMask i = none) (hf : ∀ t ∈ b.threads, Guarded s i t → f (afterIssue b s) ⟨t, stepped s b.pc t, s.groupOf t⟩ = r (envOf s t)) :
    ∃ s', alu i s f = .next s' ∧ Lands i b s s' r := by
  refine ⟨_, word_issues h hn _, ?_⟩
  have hmem : ∀ t ∈ activeIn i b s, t ∈ b.threads := fun t ht => (List.mem_filter.1 ht).1
  have hr : ∀ t ∈ activeIn i b s, f (afterIssue b s) (envOf (afterIssue b s) t) = r (envOf s t) := fun t ht => by
    have hm := hmem t ht
    rw [afterIssue_env hm (h.may t hm).here]
    exact hf t hm (List.mem_filter.1 ht).2
  have hbody : lanesBody i f (issuedAs i b s) (afterIssue b s)
      = land i ((activeIn i b s).map fun t => (t, r (envOf s t))) (afterIssue b s) := by
    unfold lanesBody issuedAs
    congr 1
    exact List.map_congr_left fun t ht => by rw [hr t ht]
  rw [hbody]
  obtain ⟨h1, h2, h3, h4⟩ := land_spec i (activeIn i b s) (fun t => r (envOf s t)) (afterIssue b s) (by
    intro t ht
    rw [afterIssue_thread_group, afterIssue_groups]
    exact (h.may t (hmem t ht)).grouped)
  have hw : issuedWord (afterIssue b s) = b.word := by simp [issuedWord, h.bundle]
  refine ⟨fun t hm hg => ?_, fun t hm hg => ?_, fun g => ?_, ?_⟩
  · have ha : t ∈ activeIn i b s := List.mem_filter.2 ⟨hm, hg⟩
    rw [h1 t ha (by rw [afterIssue_has]; exact (h.may t hm).here), hw, afterIssue_thread hm (h.may t hm).here]
    rfl
  · have ha : t ∉ activeIn i b s := fun hh => hg (List.mem_filter.1 hh).2
    have := h2 t ha
    rw [State.thread, Sparse.findD, this]
    exact afterIssue_thread hm (h.may t hm).here
  · rw [h3 g]
    simp only [afterIssue_group, afterIssue_thread_group]
    rfl
  · refine Frame.of_afterIssue h.place (fun t hm => ?_) ?_
    · rw [h2 t fun hh => hm (hmem t hh)]
      exact afterIssue_find?_ne hm
    · exact congrArg (fun x : State => { x with ctr := (afterIssue b s).ctr }) h4

/-! ### Late results -/

theorem popPorts_pend (l : List Nat) (th : Thread) : (l.foldl Thread.popPort th).pend = th.pend := by
  induction l generalizing th with
  | nil => rfl
  | cons p l ih => rw [List.foldl_cons, ih]; rfl
theorem popPorts_draws (l : List Nat) (th : Thread) : (l.foldl Thread.popPort th).draws = th.draws := by
  induction l generalizing th with
  | nil => rfl
  | cons p l ih => rw [List.foldl_cons, ih]; rfl

theorem findIdx?_map_key {α : Type} (l : List Nat) (f : Nat → α) (t : Nat) (h : t ∈ l) :
    ∃ k, k < l.length ∧ ((l.map fun u => (u, f u)).findIdx? fun r => r.1 == t) = some k ∧
      ((l.map fun u => (u, f u))[k]?) = some (t, f t) := by
  induction l with
  | nil => exact absurd h (by simp)
  | cons u l ih =>
      by_cases e : u = t
      · subst e
        exact ⟨0, by simp, by simp [List.findIdx?_cons], by simp⟩
      · have hm : t ∈ l := by
          rcases List.mem_cons.1 h with rfl | h
          · exact absurd rfl e
          · exact h
        obtain ⟨k, h1, h2, h3⟩ := ih hm
        refine ⟨k + 1, by simpa using h1, ?_, by simpa using h3⟩
        simp [List.findIdx?_cons, e, h2]

/-- What a word with late results leaves, over the threads that issue it. -/
theorem late_spec (i : Instr) (sfu : Bool) (f : State → Env → Wr) (is : Issued) (s : State) :
    let s' := lateBody i sfu f is s
    (∀ t ∈ is.active, s.threads.has t = true → ∃ n, s.ctr ≤ n ∧ n < s'.ctr ∧ s'.thread t =
      { (usesOf i).lp.foldl Thread.popPort (s.thread t) with
        draws := (s.thread t).draws + BitVec.ofNat 48 (f s (envOf s t)).draws
        pend := (s.thread t).pend ++ [awaited n sfu ⟨is.core, is.pc, is.word, is.threads⟩ (f s (envOf s t))] }) ∧
    (∀ t, t ∉ is.active → s'.threads.find? t = s.threads.find? t) ∧
    { s' with threads := s.threads, ctr := s.ctr } = s := by
  refine ⟨fun t hm hh => ?_, fun t hm => ?_, rfl⟩
  · obtain ⟨x, hx⟩ := (Sparse.has_iff _ _).1 hh
    obtain ⟨k, h1, h2, h3⟩ := findIdx?_map_key is.active (fun t => f s (envOf s t)) t hm
    refine ⟨s.ctr + k, Nat.le_add_right _ _, Nat.add_lt_add_left h1 _, ?_⟩
    have hth : s.thread t = x := by simp [State.thread, Sparse.findD, hx]
    unfold lateBody
    simp only [State.thread, State.onThreads, Sparse.findD, Sparse.find?_mapKV, hx, Option.map_some, Option.getD_some,
      List.contains_eq_mem, hm, decide_true, if_true, h2, h3, popPorts_pend, popPorts_draws]
    rfl
  · unfold lateBody
    cases hx : s.threads.find? t <;> simp [State.onThreads, hx, hm]

/-- A word with late results, under the conditions of issue. -/
theorem late_complete {i : Instr} {sfu : Bool} {f : State → Env → Wr} {r : Env → Wr} {b : Bundle} {s : State} (h : Issuing i b s)
    (hn : gatherMask i = none) (hf : ∀ t ∈ b.threads, Guarded s i t → f (afterIssue b s) ⟨t, stepped s b.pc t, s.groupOf t⟩ = r (envOf s t)) :
    ∃ s', word i s (lateBody i sfu f) = .next s' ∧ Awaits i sfu b s s' r := by
  refine ⟨_, word_issues h hn _, ?_⟩
  have hmem : ∀ t ∈ activeIn i b s, t ∈ b.threads := fun t ht => (List.mem_filter.1 ht).1
  obtain ⟨h1, h2, h3⟩ := late_spec i sfu f (issuedAs i b s) (afterIssue b s)
  refine ⟨fun t hm hg => ?_, fun t hm hg => ?_, ?_, ?_⟩
  · have ha : t ∈ activeIn i b s := List.mem_filter.2 ⟨hm, hg⟩
    obtain ⟨n, n1, n2, n3⟩ := h1 t ha (by rw [afterIssue_has]; exact (h.may t hm).here)
    refine ⟨n, by simpa using n1, n2, ?_⟩
    rw [n3, afterIssue_env hm (h.may t hm).here, hf t hm hg, afterIssue_thread hm (h.may t hm).here]
    rfl
  · have ha : t ∉ activeIn i b s := fun hh => hg (List.mem_filter.1 hh).2
    have := h2 t ha
    rw [State.thread, Sparse.findD, this]
    exact afterIssue_thread hm (h.may t hm).here
  · rw [← afterIssue_groups b s]; have := congrArg State.groups h3; exact this
  · refine Frame.of_afterIssue h.place (fun t hm => ?_) ?_
    · rw [h2 t fun hh => hm (hmem t hh)]
      exact afterIssue_find?_ne hm
    · have := congrArg (fun x : State => { x with groups := (afterIssue b s).groups }) h3
      exact this

/-! ### Words that change threads and groups alone -/

theorem mem_activeIn {i : Instr} {b : Bundle} {s : State} {t : Nat} : t ∈ activeIn i b s ↔ t ∈ b.threads ∧ Guarded s i t := by
  simp [activeIn, Guarded]

/-- How the effect of a word that changes threads and groups alone is read off its final state. -/
theorem Acts.intro {i : Instr} {b : Bundle} {s s' : State} {tf : Nat → Thread → Thread} {gf : Nat → Group → Group}
    (h : Issuing i b s)
    (ht : ∀ t ∈ activeIn i b s, s'.thread t = tf t (popped i s b.pc t))
    (hi : ∀ t, t ∉ activeIn i b s → s'.threads.find? t = (afterIssue b s).threads.find? t)
    (hh : ∀ g, s'.groups.has g = s.groups.has g)
    (hg : ∀ g, s.groups.has g = true → s'.group g = gf g (s.group g))
    (hr : { s' with threads := (afterIssue b s).threads, groups := (afterIssue b s).groups, ctr := (afterIssue b s).ctr } = afterIssue b s) :
    Acts i b s s' tf gf := by
  refine ⟨fun t hm hgd => ht t (mem_activeIn.2 ⟨hm, hgd⟩), fun t hm hgd => ?_, hh, hg, Frame.of_afterIssue h.place (fun t hm => ?_) hr⟩
  · have := hi t fun hx => hgd (mem_activeIn.1 hx).2
    rw [State.thread, Sparse.findD, this]
    exact afterIssue_thread hm (h.may t hm).here
  · rw [hi t fun hx => hm (mem_activeIn.1 hx).1]
    exact afterIssue_find?_ne hm

/-- A word without load ports that changes each active thread by `f` and nothing else. -/
theorem acts_threads {i : Instr} {b : Bundle} {s : State} {f : Nat → Thread → Thread} {body : Issued → State → State}
    (h : Issuing i b s) (hn : gatherMask i = none) (hp : (usesOf i).lp = [])
    (hb : body (issuedAs i b s) (afterIssue b s) = (afterIssue b s).onThreads (activeIn i b s) f) :
    ∃ s', word i s body = .next s' ∧ Acts i b s s' f fun _ x => x := by
  refine ⟨_, word_issues h hn _, ?_⟩
  rw [hb]
  refine Acts.intro h (fun t hm => ?_) (fun t hm => ?_) (fun g => by simp) (fun g _ => by simp) ?_
  · have hm' := (mem_activeIn.1 hm).1
    have hh := (h.may t hm').here
    have ha := afterIssue_thread hm' hh
    obtain ⟨x, hx⟩ := (Sparse.has_iff _ _).1 ((afterIssue_has b s t).trans hh)
    have hxe : x = stepped s b.pc t := by rw [← ha]; simp [State.thread, Sparse.findD, hx]
    subst hxe
    simp [State.thread, State.onThreads, Sparse.findD, hx, hm, popped, hp]
  · cases hx : (afterIssue b s).threads.find? t <;> simp [State.onThreads, hx, hm]
  · rfl

/-- A word all of whose effect is that its threads advance. -/
theorem acts_none {i : Instr} {b : Bundle} {s : State} {body : Issued → State → State}
    (h : Issuing i b s) (hn : gatherMask i = none) (hp : (usesOf i).lp = []) (hb : body (issuedAs i b s) (afterIssue b s) = afterIssue b s) :
    ∃ s', word i s body = .next s' ∧ Acts i b s s' (fun _ th => th) fun _ x => x := by
  refine ⟨_, word_issues h hn _, ?_⟩
  rw [hb]
  refine Acts.intro h (fun t hm => ?_) (fun t hm => rfl) (fun g => by simp) (fun g _ => by simp) rfl
  have hm' := (mem_activeIn.1 hm).1
  rw [afterIssue_thread hm' (h.may t hm').here, popped, hp]
  rfl

/-! ### Each active thread in turn -/

theorem eachActive_onThread (is : Issued) (s : State) (f : State → Nat → Thread → Thread)
    (hf : ∀ s s' t, { s' with threads := s.threads } = s → f s' t = f s t) :
    is.active.Nodup →
    eachActive is s (fun s t => s.onThread t (f s t)) = s.onThreads is.active (f s) := by
  intro hn
  have key : ∀ (l : List Nat) (done : List Nat) (s' : State), (∀ t ∈ l, t ∉ done) → l.Nodup →
      s' = s.onThreads done (f s) →
      l.foldl (fun s t => s.onThread t (f s t)) s' = s.onThreads (done ++ l) (f s) := by
    intro l
    induction l with
    | nil => intro done s' _ _ e; simpa using e
    | cons t l ih =>
        intro done s' hd hn e
        rw [List.foldl_cons]
        have : s'.onThread t (f s' t) = s.onThreads (done ++ [t]) (f s) := by
          have hfs : f s' t = f s t := hf s s' t (by rw [e]; rfl)
          rw [hfs, e]
          have htd : t ∉ done := hd t (by simp)
          simp only [State.onThread, State.onThreads, Sparse.modify, Sparse.mapKV, List.map_map]
          congr 2
          refine List.map_congr_left fun x _ => ?_
          by_cases hx : x.1 = t
          · simp [hx, htd]
          · by_cases hd' : x.1 ∈ done <;> simp [hx, hd']
        rw [ih (done ++ [t]) _ (fun u hu => ?_) (List.nodup_cons.1 hn).2 this]
        · simp
        · simp only [List.mem_append, List.mem_singleton, not_or]
          exact ⟨hd u (List.mem_cons_of_mem _ hu), fun e => (List.nodup_cons.1 hn).1 (e ▸ hu)⟩
  have := key is.active [] s (by simp) hn (by
    simp [State.onThreads, Sparse.mapKV])
  simpa [eachActive] using this

end Sys2Proof.Machine
end

