-- ==== Sys2Proof/Laws/Access.lean ====
section
/-! SUPPORT. A memory word with one active thread: what its body does with an access that goes to memory, and with
one performed at a bank. -/

namespace Sys2Proof.Machine

/-- The one active thread at the word: READY, its own PC advanced. -/
theorem Sole.thread {i : Instr} {b : Bundle} {s : State} {t : Nat} (h : Sole i b s t) :
    t ∈ b.threads ∧ s.threads.has t = true ∧ (afterIssue b s).thread t = stepped s b.pc t ∧ ((afterIssue b s).thread t).held = .ready := by
  have hm : t ∈ b.threads := (mem_activeIn.1 (by rw [h.active]; simp)).1
  have hh := (h.issuing.may t hm).here
  have ht := afterIssue_thread (s := s) hm hh
  exact ⟨hm, hh, ht, by rw [ht]; exact (h.issuing.may t hm).ready⟩

theorem thread_onThread_self (s : State) (t : Nat) (f : Thread → Thread) (h : s.threads.has t = true) :
    (s.onThread t f).thread t = f (s.thread t) := by
  obtain ⟨x, hx⟩ := (Sparse.has_iff _ _).1 h
  simp [State.thread, State.onThread, Sparse.findD, hx]
theorem find?_onThread_ne (s : State) (t u : Nat) (f : Thread → Thread) (h : u ≠ t) :
    (s.onThread t f).threads.find? u = s.threads.find? u := by
  simp only [State.onThread, Sparse.find?_modify, if_neg h]

/-- One thread's access that goes to memory: what the body of a memory word does with it, once for all of them. -/
theorem memBody_mem {f : State → Env → Access} {is : Issued} {s : State} {t : Nat}
    {x : Access} {l : Loc} {e : Nat} (ha : is.active = [t]) (hx : f s (envOf s t) = x)
    (hc : accessCheck (windowView s t).1 is t x = .ok (.mem l)) (hr : ((windowView s t).2.thread t).held = .ready)
    (hl : l1Serves (windowView s t).2 t x l = none)
    (he : freeEntry (windowView s t).2 is.core ((windowView s t).2.privOf t) = some e) :
    memBody f is s =
      let s := (windowView s t).2
      let s := s.onCore is.core fun c => { c with log := c.log.set e ⟨is.word, is.pc, [t], [], [], s.privOf t⟩ }
      let s1 := s.tick.2
      let p := if x.dst.isSome then s1.tick else (0, s1)
      holdFor (addReq p.2 is t x l s.tick.1 (256 * is.core + e) t p.1) is t x := by
  unfold memBody
  simp [ha, hx, hc, hr, hl, he]

/-- One thread's access in a bank that its core holds. -/
theorem memBody_bank {f : State → Env → Access} {is : Issued} {s : State} {t : Nat}
    {x : Access} {d bk o : Nat} (ha : is.active = [t]) (hx : f s (envOf s t) = x)
    (hc : accessCheck (windowView s t).1 is t x = .ok (.flat d bk o)) (hr : ((windowView s t).2.thread t).held = .ready) :
    memBody f is s = flatAccess (windowView s t).2 is t x d bk o := by
  unfold memBody
  simp [ha, hx, hc, hr]

/-- An access at fault traps before it has any effect. -/
theorem memBody_trap {f : State → Env → Access} {is : Issued} {s : State} {t : Nat}
    {x : Access} {c : Cause} (ha : is.active = [t]) (hx : f s (envOf s t) = x)
    (hc : accessCheck (windowView s t).1 is t x = .error c) (hr : ((windowView s t).2.thread t).held = .ready) :
    memBody f is s = is.trap (windowView s t).2 t c x.va := by
  unfold memBody
  simp [ha, hx, hc, hr]

/-! ### Windows as an access reads them (R363) -/

/-- What reads the windows takes free choices and changes nothing. -/
theorem windowView_rest (s : State) (t : Nat) : { (windowView s t).2 with ctr := s.ctr } = s := by
  unfold windowView
  have key : ∀ (v : Viewer) (l : List WinWrite) (a : State × State × List Nat), { a.2.1 with ctr := s.ctr } = s →
      { (l.foldl (fun (a : State × State × List Nat) w =>
        if a.2.2.contains w.reg then a
        else if v.needs s.hist w.store then (a.1, a.2.1, w.reg :: a.2.2)
        else
          let (old, s) := a.2.1.coin
          if old then (sysPut a.1 w.reg 0 w.old, s, a.2.2) else (a.1, s, w.reg :: a.2.2)) a).2.1 with ctr := s.ctr } = s := by
    intro v l
    induction l with
    | nil => intro a h; exact h
    | cons w l ih =>
        intro a h
        rw [List.foldl_cons]
        refine ih _ ?_
        split
        · exact h
        · split
          · exact h
          · dsimp only
            split <;> exact h
  exact key (viewer s t) s.winWrites (s, s, []) rfl
@[simp] theorem windowView_thread (s : State) (t u : Nat) : (windowView s t).2.thread u = s.thread u := by
  have := congrArg (fun x : State => x.thread u) (windowView_rest s t); exact this
@[simp] theorem windowView_threads (s : State) (t : Nat) : (windowView s t).2.threads = s.threads := by
  have := congrArg State.threads (windowView_rest s t); exact this
@[simp] theorem windowView_privOf (s : State) (t u : Nat) : (windowView s t).2.privOf u = s.privOf u := by
  have := congrArg (fun x : State => x.privOf u) (windowView_rest s t); exact this
@[simp] theorem windowView_core (s : State) (t c : Nat) : (windowView s t).2.core c = s.core c := by
  have := congrArg (fun x : State => x.core c) (windowView_rest s t); exact this
@[simp] theorem windowView_freeEntry (s : State) (t c : Nat) (p : Bool) : freeEntry (windowView s t).2 c p = freeEntry s c p := by
  unfold freeEntry; simp only [windowView_core]

/-- Where every write of a window is known of, the windows are as they stand. -/
theorem windowView_still {s : State} (h : s.winWrites = []) (t : Nat) : windowView s t = (s, s) := by
  simp [windowView, h]

end Sys2Proof.Machine
end

