-- ==== Sys2Proof/Laws/Area.lean ====
section
/-! SUPPORT. Accesses that the part makes for itself (records, rings, frames of the save area, images): what each of them
leaves unchanged, said once for all of them. -/

namespace Sys2Proof.Machine

/-- The two states differ at most in memory, its history, its caches and leaves, error and interrupt records, and free values
spent. -/
structure MemOnly (s s' : State) : Prop where
  rest : { s' with ctr := s.ctr, dies := s.dies, parts := s.parts, sys := s.sys, hbm := s.hbm, host := s.host, hist := s.hist,
                   pkg := s.pkg } = s
  part : ∀ p, { s'.part p with msix := (s.part p).msix } = s.part p
  halted : ∀ d, (s'.die d).halted = (s.die d).halted
  shadow : ∀ d, (s'.die d).shadow = (s.die d).shadow

namespace MemOnly

theorem refl (s : State) : MemOnly s s := ⟨rfl, fun _ => rfl, fun _ => rfl, fun _ => rfl⟩

variable {s s' s'' : State}

theorem trans (h : MemOnly s s') (h' : MemOnly s' s'') : MemOnly s s'' := by
  refine ⟨?_, fun p => ?_, fun d => (h'.halted d).trans (h.halted d), fun d => (h'.shadow d).trans (h.shadow d)⟩
  · have := h'.rest
    rw [← h.rest, ← this]
  · have := h'.part p
    rw [← h.part p, ← this]

theorem threads (h : MemOnly s s') : s'.threads = s.threads := by have := congrArg State.threads h.rest; exact this
theorem groups (h : MemOnly s s') : s'.groups = s.groups := by have := congrArg State.groups h.rest; exact this
theorem blocks (h : MemOnly s s') : s'.blocks = s.blocks := by have := congrArg State.blocks h.rest; exact this
theorem launches (h : MemOnly s s') : s'.launches = s.launches := by have := congrArg State.launches h.rest; exact this
theorem cores (h : MemOnly s s') : s'.cores = s.cores := by have := congrArg State.cores h.rest; exact this
theorem clusters (h : MemOnly s s') : s'.clusters = s.clusters := by have := congrArg State.clusters h.rest; exact this
theorem copies (h : MemOnly s s') : s'.copies = s.copies := by have := congrArg State.copies h.rest; exact this
theorem flats (h : MemOnly s s') : s'.flats = s.flats := by have := congrArg State.flats h.rest; exact this
theorem loft (h : MemOnly s s') : s'.loft = s.loft := by have := congrArg State.loft h.rest; exact this
theorem images (h : MemOnly s s') : s'.images = s.images := by have := congrArg State.images h.rest; exact this
theorem winWrites (h : MemOnly s s') : s'.winWrites = s.winWrites := by have := congrArg State.winWrites h.rest; exact this
theorem clk (h : MemOnly s s') : s'.clk = s.clk := by have := congrArg State.clk h.rest; exact this
theorem frames (h : MemOnly s s') (p : Nat) : (s'.part p).frames = (s.part p).frames := by
  have := congrArg Part.frames (h.part p); exact this
theorem thread (h : MemOnly s s') (t : Nat) : s'.thread t = s.thread t := by simp only [State.thread, h.threads]
theorem group (h : MemOnly s s') (g : Nat) : s'.group g = s.group g := by simp only [State.group, h.groups]
theorem block (h : MemOnly s s') (b : Nat) : s'.block b = s.block b := by simp only [State.block, h.blocks]
theorem launch (h : MemOnly s s') (l : Nat) : s'.launch l = s.launch l := by simp only [State.launch, h.launches]
theorem cluster (h : MemOnly s s') (c : Nat) : s'.cluster c = s.cluster c := by simp only [State.cluster, h.clusters]

/-- A change of a die that keeps who is halted there and its shadow. -/
theorem onDie (s : State) (d : Nat) (f : Die → Die) (h1 : ∀ x, (f x).halted = x.halted) (h2 : ∀ x, (f x).shadow = x.shadow) :
    MemOnly s (s.onDie d f) := by
  refine ⟨rfl, fun _ => rfl, fun e => ?_, fun e => ?_⟩ <;> simp only [die_onDie] <;> split <;> simp_all

theorem hbm (s : State) (m : Memory) : MemOnly s { s with hbm := m } := ⟨rfl, fun _ => rfl, fun _ => rfl, fun _ => rfl⟩
theorem host (s : State) (m : Memory) : MemOnly s { s with host := m } := ⟨rfl, fun _ => rfl, fun _ => rfl, fun _ => rfl⟩
theorem hist (s : State) (m : Hist) : MemOnly s { s with hist := m } := ⟨rfl, fun _ => rfl, fun _ => rfl, fun _ => rfl⟩
theorem ctr (s : State) (n : Nat) : MemOnly s { s with ctr := n } := ⟨rfl, fun _ => rfl, fun _ => rfl, fun _ => rfl⟩
theorem pkg (s : State) (p : Package) : MemOnly s { s with pkg := p } := ⟨rfl, fun _ => rfl, fun _ => rfl, fun _ => rfl⟩

theorem hlkErr (s : State) (p k a : Nat) : MemOnly s (hlkErr s p k a) := by
  unfold Machine.hlkErr
  split
  · exact refl s
  · refine ⟨rfl, fun q => ?_, fun _ => rfl, fun _ => rfl⟩
    simp only [raiseMsix, part_onPart]
    split
    · subst_vars; rfl
    · rfl

theorem touchSide (s : State) (d pa : Nat) : MemOnly s (touchSide s d pa) := onDie _ _ _ (fun _ => rfl) fun _ => rfl
theorem leafTouched (s : State) (d ia : Nat) (w : Bool) : MemOnly s (leafTouched s d ia w) := onDie _ _ _ (fun _ => rfl) fun _ => rfl
theorem physWrite (s : State) (d pa : Nat) (o : Option Byte) (l : List Byte) : MemOnly s (physWrite s d pa o l) :=
  ((hbm s _).trans (touchSide _ _ _)).trans (onDie _ _ _ (fun _ => rfl) fun _ => rfl)
theorem putLine (s : State) (x : Line) : MemOnly s (putLine s x) := by
  unfold Machine.putLine
  split
  · refine (onDie s x.die _ ?_ ?_).trans (onDie _ (1 - x.die) _ ?_ ?_) <;> exact fun _ => rfl
  · refine onDie s x.die _ ?_ ?_ <;> exact fun _ => rfl
theorem hostWrite (s : State) (p : Nat) (a : Loc) (pa : Nat) (r : Bool) (l : List Byte) : MemOnly s (hostWrite s p a pa r l) := by
  unfold Machine.hostWrite
  split
  · exact (host s _).trans (pkg _ _)
  · exact hlkErr s p 3 _
theorem coin (s : State) : MemOnly s s.coin.2 := ctr s _
theorem hatTouched (s : State) (l : Loc) (pa : Nat) : MemOnly s (hatTouched s l pa) := by
  unfold Machine.hatTouched
  dsimp only
  split
  · split
    · exact refl s
    · split
      · exact (coin s).trans (pkg _ _)
      · exact coin s
  · exact pkg _ _
theorem leafUsed (s : State) (d ia : Nat) : MemOnly s (leafUsed s d ia).2 := by
  unfold Machine.leafUsed
  split
  · exact refl s
  · dsimp only
    split
    · exact refl s
    · exact coin s
theorem translate (s : State) (l : Loc) (w f : Bool) : MemOnly s (translate s l w f).2 := by
  unfold Machine.translate
  dsimp only
  split
  · split
    · exact ((leafUsed s _ _).trans (leafTouched _ _ _ _)).trans (hatTouched _ _ _)
    · exact (leafUsed s _ _).trans (leafTouched _ _ _ _)
  · exact leafUsed s _ _
theorem placeGo (s : State) (l : Loc) (w f : Bool) (x : Option Line) : MemOnly s (place.go l w f s x).2 := by
  unfold place.go
  have h := translate s l w f
  split <;> rename_i e <;> rw [e] at h <;> exact h
theorem place (s : State) (l : Loc) (w f : Bool) : MemOnly s (place s l w f).2 := by
  unfold Machine.place
  split
  · exact refl s
  · split
    · split
      · exact refl s
      · exact placeGo s l w f _
    · exact placeGo s l w f _
theorem placeRead (pl : Place) (s : State) (l : Loc) (p n : Nat) : MemOnly s (pl.read s l p n).2 := by
  cases pl with
  | line x => exact refl s
  | phys d pa _ => exact touchSide s d pa
  | host pa =>
    simp only [Place.read, hostRead]
    split
    · exact refl s
    · exact hlkErr s _ _ _
theorem placeWrite (pl : Place) (s : State) (l : Loc) (p : Nat) (r : Bool) (b : List Byte) : MemOnly s (pl.write s l p r b) := by
  cases pl with
  | line x => simp only [Place.write]; exact putLine s _
  | phys d pa _ => exact physWrite s d pa _ b
  | host pa => exact hostWrite s _ _ _ _ _
theorem storeAt (s : State) (pl : Place) (l : Loc) (p : Nat) (r : StoreRec) (x : Bool) (b : List Byte) : MemOnly s (storeAt s pl l p r x b) := by
  unfold Machine.storeAt
  dsimp only
  split
  · exact (placeRead pl s l p _).trans (placeWrite pl _ l p x b)
  · exact ((placeRead pl s l p _).trans (placeWrite pl _ l p x b)).trans (hist _ _)

/-- A write of bytes at a location. -/
theorem writeLoc (s : State) (l : Loc) (r : StoreRec) (x : Bool) (b : List Byte) : MemOnly s (writeLoc s l r x b).2 := by
  unfold Machine.writeLoc
  have h := place s l true false
  split <;> rename_i e <;> rw [e] at h
  · exact h.trans (storeAt _ _ _ _ _ _ _)
  · exact h
  · exact h
/-- A read of bytes at a location. -/
theorem readLoc (s : State) (l : Loc) (n : Nat) : MemOnly s (readLoc s l n).2 := by
  unfold Machine.readLoc
  have h := place s l false false
  split <;> rename_i e <;> rw [e] at h
  · dsimp only
    split
    · exact h
    · exact h.trans (placeRead _ _ _ _ _)
  · exact h
  · exact h
theorem freeBytes (s : State) (n : Nat) : MemOnly s (s.freeBytes n).2 := ctr s _

/-- R326, R328: bytes written to an area. -/
theorem areaWrite {s s1 : State} {c d ia : Nat} {b : List Byte} (h : areaWrite s c d ia b = some s1) : MemOnly s s1 := by
  unfold Machine.areaWrite at h
  have key : ∀ (l : List (Nat × Nat × Nat)) (r : Option State), (∀ x, r = some x → MemOnly s x) → ∀ y,
      l.foldl (fun (r : Option State) x => r.bind fun s =>
        match Machine.writeLoc s (areaLoc s c d x.2.1) (.agent []) false ((b.drop x.1).take x.2.2) with
        | (.wait, _) => none
        | (_, s) => some s) r = some y → MemOnly s y := by
    intro l
    induction l with
    | nil => intro r hr y hy; exact hr y hy
    | cons x l ih =>
        intro r hr y hy
        refine ih _ ?_ y hy
        intro z hz
        cases r with
        | none => cases hz
        | some w =>
            have hw := hr w rfl
            have h2 := writeLoc w (areaLoc w c d x.2.1) (.agent []) false ((b.drop x.1).take x.2.2)
            simp only [Option.bind] at hz
            split at hz
            · cases hz
            · rename_i e
              rw [e] at h2
              obtain rfl := Option.some.inj hz
              exact hw.trans h2
  exact key _ _ (fun x hx => by cases hx; exact refl s) _ h

/-- R326, R328: bytes read from an area. -/
theorem areaRead {s s1 : State} {c d ia n : Nat} {b : List Byte} (h : areaRead s c d ia n = some (b, s1)) : MemOnly s s1 := by
  unfold Machine.areaRead at h
  have key : ∀ (l : List (Nat × Nat × Nat)) (r : Option (List Byte × State)), (∀ x, r = some x → MemOnly s x.2) → ∀ y,
      l.foldl (fun (r : Option (List Byte × State)) x => r.bind fun (b, s) =>
        match Machine.readLoc s (areaLoc s c d x.2.1) x.2.2 with
        | (.ok b', s) => some (b ++ b', s)
        | (.fault _ _, s) => let (b', s) := s.freeBytes x.2.2; some (b ++ b', s)
        | (.wait, _) => none) r = some y → MemOnly s y.2 := by
    intro l
    induction l with
    | nil => intro r hr y hy; exact hr y hy
    | cons x l ih =>
        intro r hr y hy
        refine ih _ ?_ y hy
        intro z hz
        cases r with
        | none => cases hz
        | some w =>
            have hw := hr w rfl
            have h2 := readLoc w.2 (areaLoc w.2 c d x.2.1) x.2.2
            simp only [Option.bind] at hz
            split at hz
            · rename_i e; rw [e] at h2; obtain rfl := Option.some.inj hz; exact hw.trans h2
            · rename_i e; rw [e] at h2; obtain rfl := Option.some.inj hz; exact (hw.trans h2).trans (freeBytes _ _)
            · cases hz
  exact key _ _ (fun x hx => by cases hx; exact refl s) _ h

/-- A range of virtual addresses written. -/
theorem writeRange (s : State) (c : Nat) (priv : Bool) (r : StoreRec) (va : Nat) (b : List Byte) :
    MemOnly s (writeRange s c priv r va b).2 := by
  unfold Machine.writeRange
  have key : ∀ (l : List (Nat × Nat × Nat)) (a : Answer Unit × State), MemOnly s a.2 →
      MemOnly s (l.foldl (fun (a : Answer Unit × State) x =>
        match a.1 with
        | .ok _ => match viaWindows a.2 c priv x.2.1 ⟨false, true, false⟩ with
            | .error e => (.fault e .noLeaf, a.2)
            | .ok l => Machine.writeLoc a.2 l r r.rels.isEmpty ((b.drop x.1).take x.2.2)
        | y => (y, a.2)) a).2 := by
    intro l
    induction l with
    | nil => exact fun a h => h
    | cons x l ih =>
        intro a h
        refine ih _ ?_
        obtain ⟨acc, w⟩ := a
        cases acc with
        | ok _ =>
            dsimp only
            split
            · exact h
            · exact h.trans (writeLoc w _ _ _ _)
        | fault _ _ => exact h
        | wait => exact h
  exact key _ _ (refl s)

end MemOnly

/-- Where no leaf is, cached or not, and no slice holds a line, an area takes no byte: its lines fault. -/
theorem areaWrite_unmapped {s : State} (hf : ∀ d ia, leafOf s d ia = none)
    (hx : ∀ d ia, leafIn ((s.die d).xlts.findD (homeSlice ia) .empty).cached ia = none) (hl : ∀ l, lineAt s l = none)
    (c d ia : Nat) (b : List Byte) : areaWrite s c d ia b = some s := by
  have hw : ∀ x b, writeLoc s (areaLoc s c d x) (.agent []) false b = (.fault .pageFault .noLeaf, s) := by
    intro x b
    simp [writeLoc, place, place.go, areaLoc, hl, translate, leafUsed, hf, hx, walk]
  unfold areaWrite
  induction spans ia b.length with
  | nil => rfl
  | cons x l ih => simpa only [List.foldl_cons, Option.bind_some, hw] using ih

/-! ### Ranges behind physical windows (R365) -/

/-- The pieces of a range lie in it. -/
theorem mem_spansOf {fuel off va n : Nat} {x : Nat × Nat × Nat} (h : x ∈ spansOf fuel off va n) : va ≤ x.2.1 ∧ x.2.1 < va + n := by
  induction fuel generalizing off va n with
  | zero => cases h
  | succ m ih =>
      unfold spansOf at h
      split at h
      · cases h
      · rename_i hn
        rcases List.mem_cons.1 h with rfl | h
        · exact ⟨Nat.le_refl _, Nat.lt_add_of_pos_right (by omega)⟩
        · have := ih h
          have hk : min n (128 - va % 128) ≤ n := Nat.min_le_left _ _
          omega
/-- The windows of a context stand in system registers alone. -/
theorem viaWindows_congr {s s' : State} (h : s'.sys = s.sys) (c : Nat) (priv : Bool) (va : Nat) (p : Perm) :
    viaWindows s' c priv va p = viaWindows s c priv va p := by
  have hg : ∀ n i, sysGet s' n i = sysGet s n i := fun n i => by unfold sysGet; rw [h]
  have hc : s'.ctxPart c = s.ctxPart c := by unfold State.ctxPart sysBits; simp only [hg]
  unfold viaWindows windowAt
  simp only [hg, hc]
/-- A write behind physical windows succeeds and changes no register. -/
theorem writeRange_phys {s : State} {c : Nat} {priv : Bool} {r : StoreRec} {va : Nat} {b : List Byte}
    (h : ∀ a, va ≤ a → a < va + b.length → ∃ l, viaWindows s c priv a ⟨false, true, false⟩ = .ok l ∧ l.phys = true) :
    ∃ s1, writeRange s c priv r va b = (.ok (), s1) ∧ s1.sys = s.sys := by
  have key : ∀ (l : List (Nat × Nat × Nat)), (∀ x ∈ l, va ≤ x.2.1 ∧ x.2.1 < va + b.length) → ∀ w : State, w.sys = s.sys →
      ∃ s1, l.foldl (fun (a : Answer Unit × State) x =>
        match a.1 with
        | .ok _ => match viaWindows a.2 c priv x.2.1 ⟨false, true, false⟩ with
            | .error e => (.fault e .noLeaf, a.2)
            | .ok l => writeLoc a.2 l r r.rels.isEmpty ((b.drop x.1).take x.2.2)
        | y => (y, a.2)) (.ok (), w) = (.ok (), s1) ∧ s1.sys = s.sys := by
    intro l
    induction l with
    | nil => exact fun _ w hw => ⟨w, rfl, hw⟩
    | cons x l ih =>
        intro hl w hw
        obtain ⟨y, hy, hp⟩ := h x.2.1 (hl x (by simp)).1 (hl x (by simp)).2
        have e : writeLoc w y r r.rels.isEmpty ((b.drop x.1).take x.2.2) = (.ok (),
            storeAt w (.phys y.die y.ia none) y ((w.ctxPart y.ctx).getD 0) r r.rels.isEmpty ((b.drop x.1).take x.2.2)) := by
          simp [writeLoc, place, hp]
        simp only [List.foldl_cons, viaWindows_congr hw, hy, e]
        refine ih (fun x hx => hl x (by simp [hx])) _ ?_
        rw [← hw]
        simp only [storeAt, hp, if_true]
        rfl
  exact key (spans va b.length) (fun x hx => mem_spansOf hx) s rfl

end Sys2Proof.Machine
end

