-- ==== Sys2Proof/Laws/Results.lean ====
section
/-! SUPPORT. What an issued word reads of its thread is what stood there before the word: operands, modes, draws,
and with them the result of every word whose results are written at issue. -/

namespace Sys2Proof.Machine

/-- Two environments from which a word reads the same: registers, predicates, ports, lane, place in the block
and draw counter agree, and so does the stage of the block. -/
structure SameReads (s' s : State) (e' e : Env) : Prop where
  t : e'.t = e.t
  k : e'.g.k = e.g.k
  fsr : e'.g.fsr = e.g.fsr
  key : e'.g.key = e.g.key
  blk : e'.g.block = e.g.block
  lineage : e'.g.lineage = e.g.lineage
  v : e'.th.v = e.th.v
  p : e'.th.p = e.th.p
  ports : e'.th.ports = e.th.ports
  lane : e'.th.lane = e.th.lane
  lin : e'.th.lin = e.th.lin
  draws : e'.th.draws = e.th.draws
  stage : (s'.block e.g.block).stage = (s.block e.g.block).stage

/-- An issued thread reads what stood there before the word. -/
theorem sameReads_issued (s : State) (b : Bundle) (pc : Dword) (t : Nat) :
    SameReads (afterIssue b s) s ⟨t, stepped s pc t, s.groupOf t⟩ (envOf s t) :=
  ⟨rfl, rfl, rfl, rfl, rfl, rfl, rfl, rfl, rfl, rfl, rfl, rfl, by rw [afterIssue_block]⟩

namespace SameReads

variable {s' s : State} {e' e : Env} (h : SameReads s' s e' e)
include h

theorem reg (n : Nat) : e'.v n = e.v n := by simp only [Env.v, h.v]
theorem uni (n : Nat) : e'.k n = e.k n := by simp only [Env.k, h.k]
theorem port (n : Nat) : e'.port n = e.port n := by simp only [Env.port, h.ports]
theorem pred (n : BitVec 3) : e'.p n = e.p n := by simp only [Env.p, State.predOf, h.p]
theorem op (im : HalfWord → Word) (o : Opnd) (i : Nat) : e'.op im o i = e.op im o i := by
  cases o <;> simp only [Env.op, h.reg, h.uni, h.port]
theorem cop (r : Reg) : e'.cop r = e.cop r := by cases r <;> simp only [Env.cop, h.reg, h.port]
theorem base1 (x : Base) : e'.base1 x = e.base1 x := by cases x <;> simp only [Env.base1, h.reg, h.uni]
theorem base2 (x : Base) : e'.base2 x = e.base2 x := by cases x <;> simp only [Env.base2, h.reg, h.uni]
theorem guard (x : Guard) : guardHolds x e'.th = guardHolds x e.th := by simp only [guardHolds, State.predOf, h.p]
theorem mode (rm : RM) : modeOf e' rm = modeOf e rm := by simp only [modeOf, h.fsr]
theorem flush (ftz : Bool) : flushes e' ftz = flushes e ftz := by simp only [flushes, h.fsr]
theorem count (rm : RM) (n : Nat) : drawCount e' rm n = drawCount e rm n := by simp only [drawCount, h.mode]
theorem smp (f : Fmt) (im : HalfWord → Word) (m : Bool) (o : Opnd) (i : Nat) : sample e' f im m o i = sample e f im m o i := by
  unfold sample; simp only [h.op]
theorem dist (f : Fmt) (im : HalfWord → Word) (dm : DM) (m : Bool) (o : Opnd) : dop e' f im dm m o = dop e f im dm m o := by
  unfold dop; simp only [h.op]
/-- R81. -/
theorem words (st i : Nat) : drawWords s' e' st i = drawWords s e st i := by
  unfold drawWords; rw [h.key, h.blk, h.draws, h.lin, h.stage]
theorem elem (rm : RM) (ftz : Bool) (i : Nat) : elemMode s' e' rm ftz i = elemMode s e rm ftz i := by
  unfold elemMode srDraw; simp only [h.mode, h.flush, h.words, h.fsr]
theorem mode64 (rm : RM) : Machine.mode64 e' rm = Machine.mode64 e rm := by simp only [Machine.mode64, h.mode]
theorem op64 (o : Opnd) : Machine.op64 e' o = Machine.op64 e o := by unfold Machine.op64; simp only [h.op]
theorem floatForm (src dst : Fmt) (im : HalfWord → Word) (dm : DM) (rm : RM) (ftz rounds : Bool) (d : Reg)
    (srcs : List (Opnd × Bool)) (op : Mode → List Nat → Nat × Flags) (spread : Mode → List Nat → Nat → Spread) :
    Machine.floatForm s' e' src dst im dm rm ftz rounds d srcs op spread
      = floatForm s e src dst im dm rm ftz rounds d srcs op spread := by
  unfold Machine.floatForm
  simp only [h.elem, h.smp, h.dist, h.count, h.flush]

theorem groupOperand (dm : DM) (im : HalfWord → Word) (o : Opnd) :
    groupOf dm im e' o = groupOf dm im e o := by
  unfold groupOf; simp only [h.op]

/-! ### Results -/

theorem int2 (f) (a : Int2Args) : Machine.int2 f a s' e' = int2 f a s e := by
  unfold Machine.int2; simp only [h.op]
theorem int1 (f) (a : Int1Args) : Machine.int1 f a s' e' = int1 f a s e := by
  unfold Machine.int1; simp only [h.op]
theorem log2 (f) (a : Log2Args) : Machine.log2 f a s' e' = log2 f a s e := by
  unfold Machine.log2; simp only [h.op]
theorem log1 (f) (a : Log1Args) : Machine.log1 f a s' e' = log1 f a s e := by
  unfold Machine.log1; simp only [h.op]
theorem flt2 (a : Flt2Args) (r) (op) (sp) :
    Machine.flt2 a r op sp s' e' = flt2 a r op sp s e := by
  unfold Machine.flt2; simp only [h.floatForm]
theorem fmaL (a : Flt3Args) : Machine.fmaL a s' e' = fmaL a s e := by
  unfold Machine.fmaL; simp only [h.floatForm]
theorem fsetpL (a : FsetpArgs) : Machine.fsetpL a s' e' = fsetpL a s e := by
  unfold Machine.fsetpL; simp only [h.op, h.flush]
theorem fclassL (a : Flt1Args) : Machine.fclassL a s' e' = fclassL a s e := by
  unfold Machine.fclassL; simp only [h.op]
theorem fscaleL (a : Flt2Args) : Machine.fscaleL a s' e' = fscaleL a s e := by
  unfold Machine.fscaleL; simp only [h.op, h.floatForm]
theorem frndL (a : Flt1Args) : Machine.frndL a s' e' = frndL a s e := by
  unfold Machine.frndL; simp only [h.floatForm]
theorem cvtL (a : CvtArgs) : Machine.cvtL a s' e' = cvtL a s e := by
  unfold Machine.cvtL convAll convDraws
  simp only [h.op, h.floatForm, h.elem, h.count]
theorem packed2 (ty rm ftz d ws op) :
    Machine.packed2 s' e' ty rm ftz d ws op = packed2 s e ty rm ftz d ws op := by
  unfold Machine.packed2; simp only [h.elem, h.count]
theorem pk2 (op) (a : Flt2Args) : Machine.pk2 op a s' e' = pk2 op a s e := by
  unfold Machine.pk2; simp only [h.packed2, h.op]
theorem pkfmaL (a : Flt3Args) : Machine.pkfmaL a s' e' = pkfmaL a s e := by
  unfold Machine.pkfmaL; simp only [h.packed2, h.op]
theorem dpL (a : Flt3Args) : Machine.dpL a s' e' = dpL a s e := by
  unfold Machine.dpL; simp only [h.elem, h.count, h.op]
theorem fnL (f) (a : Flt1Args) : Machine.fnL f a s' e' = fnL f a s e := by
  unfold Machine.fnL; simp only [h.floatForm]
theorem samplesOf (f ftz o) : Machine.samplesOf e' f ftz o = samplesOf e f ftz o := by
  unfold Machine.samplesOf; simp only [h.smp]
theorem dmakeL (a : DmakeArgs) : Machine.dmakeL a s' e' = dmakeL a s e := by
  unfold Machine.dmakeL; simp only [h.op, h.flush]
theorem dmeanL (a : DistArgs) : Machine.dmeanL a s' e' = dmeanL a s e := by
  unfold Machine.dmeanL; simp only [h.op, h.flush, h.samplesOf]
theorem dvarL (a : DistArgs) : Machine.dvarL a s' e' = dvarL a s e := by
  unfold Machine.dvarL; simp only [h.flush, h.samplesOf, h.dist]
theorem dlinL (a : DistArgs) : Machine.dlinL a s' e' = dlinL a s e := by
  unfold Machine.dlinL; simp only [h.flush, h.dist, h.lineage]
theorem dfoldL (a : DistArgs) : Machine.dfoldL a s' e' = dfoldL a s e := by
  unfold Machine.dfoldL; simp only [h.flush, h.samplesOf]
theorem dspreadL (a : DdrawArgs) : Machine.dspreadL a s' e' = dspreadL a s e := by
  unfold Machine.dspreadL; simp only [h.flush, h.dist, h.words]
theorem dsampL (a : DdrawArgs) : Machine.dsampL a s' e' = dsampL a s e := by
  unfold Machine.dsampL; simp only [h.flush, h.dist, h.words, h.smp]
theorem rndL (f) (a : RndArgs) : Machine.rndL f a s' e' = rndL f a s e := by
  unfold Machine.rndL; simp only [h.words]
theorem takeFor (q r w) : Machine.takeFor e' q r w = takeFor e q r w := by
  unfold Machine.takeFor Machine.readerOf; simp only [h.op, h.cop, h.reg]


theorem int3 (f) (a : IntArgs) : Machine.int3 f a s' e' = int3 f a s e := by
  unfold Machine.int3; simp only [h.op]
theorem log3 (f) (a : Log3Args) : Machine.log3 f a s' e' = log3 f a s e := by
  unfold Machine.log3; simp only [h.op]
theorem shladd (a : ShladdArgs) : Machine.shladd a s' e' = shladd a s e := by
  unfold Machine.shladd; simp only [h.op]
theorem bfe (a : BfeArgs) : Machine.bfe a s' e' = bfe a s e := by
  unfold Machine.bfe; simp only [h.op]
theorem setp (a : SetpArgs) : Machine.setp a s' e' = setp a s e := by
  unfold Machine.setp; simp only [h.op]
theorem sel (a : SelArgs) : Machine.sel a s' e' = sel a s e := by
  unfold Machine.sel; simp only [h.groupOperand, h.pred]
theorem cvti (a : CvtiArgs) : Machine.cvti a s' e' = cvti a s e := by
  unfold Machine.cvti; simp only [h.op]
theorem bsinitL (a : BsinitArgs) : Machine.bsinitL a s' e' = bsinitL a s e := by
  unfold Machine.bsinitL; simp only [h.op, h.reg]
theorem bsreadL (a : BsreadArgs) : Machine.bsreadL a s' e' = bsreadL a s e := by
  unfold Machine.bsreadL; simp only [h.takeFor]
theorem bspeekL (a : BsreadArgs) : Machine.bspeekL a s' e' = bspeekL a s e := by
  unfold Machine.bspeekL; simp only [h.takeFor]
theorem bsskipL (a : BsskipArgs) : Machine.bsskipL a s' e' = bsskipL a s e := by
  unfold Machine.bsskipL; simp only [h.takeFor]
theorem bsalignL (a : BsalignArgs) : Machine.bsalignL a s' e' = bsalignL a s e := by
  unfold Machine.bsalignL Machine.readerOf; simp only [h.reg]
theorem movL (a : MovArgs) : Machine.movL a s' e' = movL a s e := by
  unfold Machine.movL; simp only [h.groupOperand]
omit h in
theorem moviL (a : MoviArgs) : Machine.moviL a s' e' = moviL a s e := rfl
theorem moviHiL (a : MoviHiArgs) : Machine.moviHiL a s' e' = moviHiL a s e := by
  unfold Machine.moviHiL; simp only [h.reg]
theorem movpReadL (a : MovpArgs) : Machine.movpReadL a s' e' = movpReadL a s e := by
  unfold Machine.movpReadL; rw [h.p]
theorem movpWriteL (a : MovWriteArgs) : Machine.movpWriteL a s' e' = movpWriteL a s e := by
  unfold Machine.movpWriteL; simp only [h.cop]
theorem xf2 (f) (a : XfArgs) : Machine.xf2 f a s' e' = xf2 f a s e := by
  unfold Machine.xf2; simp only [h.mode64, h.op64]
theorem xfmaL (a : XfArgs) : Machine.xfmaL a s' e' = xfmaL a s e := by
  unfold Machine.xfmaL; simp only [h.mode64, h.op64]
theorem xfsqtL (a : XfArgs) : Machine.xfsqtL a s' e' = xfsqtL a s e := by
  unfold Machine.xfsqtL; simp only [h.mode64, h.op64]
theorem xfcvtL (a : XfcvtArgs) : Machine.xfcvtL a s' e' = xfcvtL a s e := by
  unfold Machine.xfcvtL; simp only [h.mode64, h.op64, h.flush, h.op]
theorem xfsetpL (a : XfsetpArgs) : Machine.xfsetpL a s' e' = xfsetpL a s e := by
  unfold Machine.xfsetpL; simp only [h.op64]
theorem xint (f) (a : XintArgs) : Machine.xint f a s' e' = xint f a s e := by
  unfold Machine.xint; simp only [h.op]
theorem xop2 (f) (a : Xop2Args) : Machine.xop2 f a s' e' = xop2 f a s e := by
  unfold Machine.xop2; simp only [h.op]
theorem xcvt2L (a : Log1Args) : Machine.xcvt2L a s' e' = xcvt2L a s e := by
  unfold Machine.xcvt2L; simp only [h.op]
theorem fmacL (x : Half) : Machine.fmacL x s' e' = fmacL x s e := by
  unfold Machine.fmacL; simp only [h.op, h.elem, h.count, h.reg]
theorem half (x : Half) : Machine.halfL x s' e' = Machine.halfL x s e := by
  unfold Machine.halfL Machine.faddL Machine.fsubL Machine.fmulL Machine.fminL Machine.fmaxL
  cases x.op <;> simp only [h.int2, h.int1, h.log2, h.log1, h.flt2, h.fscaleL, h.frndL, h.pk2, h.groupOperand, h.fmacL]

/-- A reader whose thread has made `n` more draws. -/
theorem moreDraws (n : Nat) :
    SameReads s' s { e' with th := { e'.th with draws := e'.th.draws + BitVec.ofNat 48 n } }
      { e with th := { e.th with draws := e.th.draws + BitVec.ofNat 48 n } } :=
  ⟨h.t, h.k, h.fsr, h.key, h.blk, h.lineage, h.v, h.p, h.ports, h.lane, h.lin, by simp only [h.draws], h.stage⟩

/-- R156. -/
theorem pairedL (a : PairArgs) : Machine.pairedL a s' e' = pairedL a s e := by
  unfold Machine.pairedL
  simp only [h.guard, h.half, (h.moreDraws _).half]

end SameReads

/-! ### The shapes of a word -/

/-- A word with results at issue whose result depends on what its thread reads alone. -/
theorem completes_alu {i : Instr} {f : State → Env → Wr} (hx : ∀ s, exec i s = alu i s f)
    (hn : gatherMask i = none)
    (hf : ∀ s' s e' e, SameReads s' s e' e → f s' e' = f s e) : Completes i f := by
  intro b s h
  rw [hx]
  exact lanes_complete h hn fun t _ _ => hf _ _ _ _ (sameReads_issued s b b.pc t)

/-- A word with late results whose result depends on what its thread reads alone. -/
theorem completes_late {i : Instr} {sfu : Bool} {f : State → Env → Wr} (hx : ∀ s, exec i s = word i s (lateBody i sfu f))
    (hn : gatherMask i = none)
    (hf : ∀ s' s e' e, SameReads s' s e' e → f s' e' = f s e) : CompletesLate i sfu f := by
  intro b s h
  rw [hx]
  exact late_complete h hn fun t _ _ => hf _ _ _ _ (sameReads_issued s b b.pc t)

end Sys2Proof.Machine
end

