-- ==== Sys2Proof/Laws/Gather.lean ====
section
/-! SUPPORT. A gather whose participants are all in one issue (R46, R209): the lane word acts on all of them at once. -/

namespace Sys2Proof.Machine

/-- A state that differs from `s0` in the gathers of one group alone: one more stands last. -/
structure OneGather (s0 s : State) (g : Nat) (x : Gather) : Prop where
  rest : { s with groups := s0.groups } = s0
  at_ : s.groups.find? g = (s0.groups.find? g).map fun y => { y with gathers := y.gathers ++ [x] }
  other : ∀ j, j ≠ g → s.groups.find? j = s0.groups.find? j

namespace OneGather
variable {s0 s : State} {g : Nat} {x : Gather}

theorem threads (h : OneGather s0 s g x) : s.threads = s0.threads := by have := congrArg State.threads h.rest; exact this
theorem thread (h : OneGather s0 s g x) (t : Nat) : s.thread t = s0.thread t := by
  simp [State.thread, h.threads]
theorem group (h : OneGather s0 s g x) (hg : s0.groups.has g = true) :
    s.group g = { s0.group g with gathers := (s0.group g).gathers ++ [x] } := by
  obtain ⟨y, hy⟩ := (Sparse.has_iff _ _).1 hg
  simp [State.group, Sparse.findD, h.at_, hy]
theorem group_ne (h : OneGather s0 s g x) {j : Nat} (hj : j ≠ g) : s.group j = s0.group j := by
  simp [State.group, Sparse.findD, h.other j hj]
theorem group_block (h : OneGather s0 s g x) (j : Nat) : (s.group j).block = (s0.group j).block := by
  by_cases hj : j = g
  · subst hj
    simp only [State.group, Sparse.findD, h.at_]
    cases s0.groups.find? j <;> rfl
  · rw [h.group_ne hj]
end OneGather

theorem mem_unionN {a b : List Nat} {x : Nat} : x ∈ unionN a b ↔ x ∈ a ∨ x ∈ b := by
  unfold unionN
  by_cases h : x ∈ a <;> simp [h]

/-- A gather that stands after others at other words is found. -/
theorem gatherAt_last {g : Group} {l : List Gather} {x : Gather} {t : Nat} (h : g.gathers = l ++ [x])
    (hl : ∀ y ∈ l, y.pc ≠ x.pc) (ht : t ∈ x.parts) : gatherAt g x.pc t = some x := by
  unfold gatherAt
  have : l.find? (fun y => y.pc == x.pc && y.parts.contains t) = none := List.find?_eq_none.2 fun y hy => by simp [hl y hy]
  rw [h, List.find?_append, this]
  simp [ht]

theorem replace_last {l : List Gather} {x y : Gather} (hl : ∀ z ∈ l, z.pc ≠ x.pc) : (l ++ [x]).replace x y = l ++ [y] := by
  have : x ∉ l := fun h => hl x h rfl
  rw [List.replace_append_right this]
  simp

theorem onGroup_find? (s : State) (g j : Nat) (f : Group → Group) :
    (s.onGroup g f).groups.find? j = if j = g then (s.groups.find? g).map f else s.groups.find? j := by
  simp only [State.onGroup, Sparse.find?_modify]
  by_cases h : j = g
  · subst h; simp
  · simp [h]

/-- The first participant to arrive opens the gather. -/
theorem gatherArrive_first {s : State} {m : Nat} {pc : Dword} {t g : Nat} (hg : (s.thread t).group = g)
    (hm : (maskOf (s.group g) m).m.getLsbD (s.thread t).lane = true) (hf : ∀ y ∈ (s.group g).gathers, y.pc ≠ pc) :
    OneGather s (gatherArrive m pc s t) g ⟨pc, lanesIn s g (maskOf (s.group g) m).m, [t]⟩ := by
  have hn : gatherAt (s.group g) pc t = none := by
    unfold gatherAt
    refine List.find?_eq_none.2 fun y hy => ?_
    simp [hf y hy]
  have he : gatherArrive m pc s t = s.onGroup g fun x =>
      { x with gathers := x.gathers ++ [⟨pc, lanesIn s g (maskOf (s.group g) m).m, [t]⟩] } := by
    unfold gatherArrive
    simp only [hg, hn, hm, if_true]
  rw [he]
  exact ⟨rfl, by rw [onGroup_find?, if_pos rfl], fun j hj => by rw [onGroup_find?, if_neg hj]⟩

/-- A further participant joins it. -/
theorem gatherArrive_next {s0 s : State} {m : Nat} {pc : Dword} {t g : Nat} {parts arr : List Nat}
    (hg : (s0.thread t).group = g) (hh : s0.groups.has g = true) (ht : t ∈ parts)
    (hf : ∀ y ∈ (s0.group g).gathers, y.pc ≠ pc) (h : OneGather s0 s g ⟨pc, parts, arr⟩) :
    OneGather s0 (gatherArrive m pc s t) g ⟨pc, parts, unionN arr [t]⟩ := by
  have hgr := h.group hh
  have ha : gatherAt (s.group g) pc t = some ⟨pc, parts, arr⟩ :=
    gatherAt_last (x := ⟨pc, parts, arr⟩) (by rw [hgr]) hf ht
  have he : gatherArrive m pc s t = s.onGroup g fun x =>
      { x with gathers := x.gathers.replace ⟨pc, parts, arr⟩ (Gather.arrive ⟨pc, parts, arr⟩ t) } := by
    unfold gatherArrive
    simp only [h.thread, hg, ha]
  rw [he]
  obtain ⟨y, hy⟩ := (Sparse.has_iff _ _).1 hh
  have hold : (y.gathers ++ [(⟨pc, parts, arr⟩ : Gather)]).replace ⟨pc, parts, arr⟩ (Gather.arrive ⟨pc, parts, arr⟩ t)
      = y.gathers ++ [⟨pc, parts, unionN arr [t]⟩] :=
    replace_last fun z hz => hf z (by simpa [State.group, Sparse.findD, hy] using hz)
  refine ⟨?_, ?_, fun j hj => ?_⟩
  · have := congrArg (fun x : State => { x with groups := s0.groups }) h.rest
    exact this
  · rw [onGroup_find?, if_pos rfl, h.at_, hy]
    simp only [Option.map_some, hold]
  · rw [onGroup_find?, if_neg hj]; exact h.other j hj

/-- Every thread of a whole gather has arrived. -/
theorem gatherArrive_all {s : State} {m : Nat} {pc : Dword} {g : Nat} {ts : List Nat} (hne : ts ≠ [])
    (hh : s.groups.has g = true) (hg : ∀ t ∈ ts, (s.thread t).group = g)
    (hp : ∀ t ∈ ts, t ∈ lanesIn s g (maskOf (s.group g) m).m)
    (hm : ∀ t ∈ ts, (maskOf (s.group g) m).m.getLsbD (s.thread t).lane = true)
    (hf : ∀ y ∈ (s.group g).gathers, y.pc ≠ pc) :
    ∃ arr, (∀ t ∈ ts, t ∈ arr) ∧ OneGather s (ts.foldl (gatherArrive m pc) s) g ⟨pc, lanesIn s g (maskOf (s.group g) m).m, arr⟩ := by
  cases ts with
  | nil => exact absurd rfl hne
  | cons t ts =>
      have h0 := gatherArrive_first (m := m) (pc := pc) (hg t (by simp)) (hm t (by simp)) hf
      have : ∀ (l : List Nat) (s' : State) (arr : List Nat), (∀ u ∈ l, u ∈ t :: ts) →
          OneGather s s' g ⟨pc, lanesIn s g (maskOf (s.group g) m).m, arr⟩ →
          ∃ arr', (∀ u, u ∈ arr ∨ u ∈ l → u ∈ arr') ∧
            OneGather s (l.foldl (gatherArrive m pc) s') g ⟨pc, lanesIn s g (maskOf (s.group g) m).m, arr'⟩ := by
        intro l
        induction l with
        | nil => intro s' arr _ h; exact ⟨arr, by simp, h⟩
        | cons u l ih =>
            intro s' arr hl h
            obtain ⟨arr', h1, h2⟩ := ih _ _ (fun v hv => hl v (List.mem_cons_of_mem _ hv))
              (gatherArrive_next (hg u (hl u (by simp))) hh (hp u (hl u (by simp))) hf h)
            refine ⟨arr', fun v hv => h1 v ?_, h2⟩
            rw [mem_unionN]
            rcases hv with hv | hv
            · exact .inl (.inl hv)
            · rcases List.mem_cons.1 hv with rfl | hv
              · exact .inl (.inr (by simp))
              · exact .inr hv
      obtain ⟨arr, h1, h2⟩ := this ts _ _ (fun u hu => List.mem_cons_of_mem _ hu) h0
      exact ⟨arr, fun u hu => h1 u (by rcases List.mem_cons.1 hu with rfl | hu <;> simp [*]), h2⟩

/-- The sets of a word depend on the groups of its threads alone. -/
theorem gatherSets_congr {s s' : State} (h : ∀ t, s'.groupOf t = s.groupOf t) (pc : Dword) (ts : List Nat) :
    gatherSets s' pc ts = gatherSets s pc ts := by
  unfold gatherSets
  simp only [h]

/-- The participants issue as one set. -/
theorem gatherSets_one {s0 s : State} {g : Nat} {pc : Dword} {ts parts arr : List Nat}
    (hne : ts ≠ []) (hn : ts.Nodup) (hh : s0.groups.has g = true)
    (hg : ∀ t ∈ ts, (s0.thread t).group = g) (hm : ∀ u, u ∈ ts ↔ u ∈ parts)
    (hf : ∀ y ∈ (s0.group g).gathers, y.pc ≠ pc)
    (h : OneGather s0 s g ⟨pc, parts, arr⟩) : gatherSets s pc ts = [ts] := by
  have hat : ∀ t ∈ ts, gatherAt (s.groupOf t) pc t = some ⟨pc, parts, arr⟩ := by
    intro t ht
    refine gatherAt_last (x := ⟨pc, parts, arr⟩) (l := (s0.group g).gathers) ?_ hf ((hm t).1 ht)
    rw [State.groupOf, h.thread, hg t ht, h.group hh]
  have hps : (ts.filter fun u => gatherAt (s.groupOf u) pc u == some ⟨pc, parts, arr⟩) = ts :=
    List.filter_eq_self.2 fun t ht => by simp [hat t ht]
  have hall : (parts.all fun u => ts.contains u) = true := by
    simp only [List.all_eq_true]
    intro u hu
    simp [(hm u).2 hu]
  have hfm : ∀ l : List Nat, (∀ t ∈ l, t ∈ ts) →
      (l.filterMap fun t => match gatherAt (s.groupOf t) pc t with
        | none => some [t]
        | some x =>
            let ps := ts.filter fun u => gatherAt (s.groupOf u) pc u == some x
            if ps.head? = some t ∧ x.parts.all ps.contains then some ps else none)
      = l.filterMap fun t => if ts.head? = some t then some ts else none := by
    intro l hl
    refine List.filterMap_congr fun t ht => ?_
    rw [hat t (hl t ht)]
    simp only [hps]
    have : (parts.all ts.contains) = true := hall
    simp only [this, and_true]
  unfold gatherSets
  refine (hfm _ fun t h => h).trans ?_
  cases hts : ts with
  | nil => exact absurd hts hne
  | cons t l =>
      have hnt : t ∉ l := by rw [hts] at hn; exact (List.nodup_cons.1 hn).1
      have : (l.filterMap fun u => if (t :: l).head? = some u then some (t :: l) else none) = [] := by
        refine List.filterMap_eq_nil_iff.2 fun u hu => ?_
        have : ¬ t = u := fun e => hnt (e ▸ hu)
        simp [this]
      rw [List.filterMap_cons, this]
      simp

/-- What an issue leaves of a state that one gather has been added to. -/
theorem afterIssue_oneGather {b : Bundle} {s s1 : State} {g : Nat} {x : Gather} (h : OneGather s s1 g x) :
    afterIssue b s1 = { afterIssue b s with groups := s1.groups } := by
  have hs : s1 = { s with groups := s1.groups } := by
    have := congrArg (fun y : State => { y with groups := s1.groups }) h.rest
    exact this
  have hb : ∀ f : Nat → Thread → Thread, (s1.onThreads b.threads f).blockIdOf = (s.onThreads b.threads f).blockIdOf := by
    intro f
    funext t
    have ht : (s1.onThreads b.threads f).thread t = (s.onThreads b.threads f).thread t := by
      simp only [State.thread, State.onThreads, h.threads]
    show (s1.group _).block = (s.group _).block
    rw [ht, h.group_block]
  unfold afterIssue
  rw [advance_eq, advance_eq, hb]
  have hc : s1.clk = s.clk := by have := congrArg State.clk h.rest; exact this
  have hbl : s1.blocks = s.blocks := by have := congrArg State.blocks h.rest; exact this
  rw [hc, hbl, hs]
  rfl

/-- A lane word whose whole gather is in the issue: every contributing participant takes its result. -/
theorem gather_complete {i : Instr} {m : BitVec 4} {f : State → List Env → List (Nat × Wr)} {r : Env → Wr} {b : Bundle} {s : State}
    (h : Issuing i b s) (hi : gatherMask i = some m) (hu : (usesOf i).u = true) (hga : Gathered m b s)
    (hf : ∀ s1 : State, s1.blocks = (afterIssue b s).blocks → ∀ es : List Env,
      (List.Forall₂ (fun e' e => SameReads s1 s e' e) es (b.threads.map (envOf s))) →
      f s1 es = (activeIn i b s).map fun t => (t, r (envOf s t))) :
    ∃ s', word i s (gatherBody i f) = .next s' ∧ Lands i b s s' r := by
  obtain ⟨t0, ht0⟩ : ∃ t, t ∈ b.threads := by
    cases hb : b.threads with
    | nil => exact absurd hb h.some
    | cons t _ => exact ⟨t, by simp⟩
  have hg : ∀ t ∈ b.threads, (s.thread t).group = (s.thread t0).group := fun t ht => h.together hu t ht t0 ht0
  have hh : s.groups.has (s.thread t0).group = true := (h.may t0 ht0).grouped
  have hgo : s.group (s.thread t0).group = s.groupOf t0 := rfl
  obtain ⟨arr, harr, hone⟩ := gatherArrive_all (s := s) (m := m.toNat) (pc := b.pc) (ts := b.threads) h.some hh hg
    (fun t ht => (hga.members t0 ht0 t).1 ht)
    (fun t ht => by
      have := hga.inside t ht
      rw [State.groupOf, hg t ht] at this
      exact this)
    (hga.fresh t0 ht0)
  have hset := gatherSets_one (ts := b.threads) h.some h.apart hh hg (hga.members t0 ht0) (hga.fresh t0 ht0) hone
  generalize hs1 : b.threads.foldl (gatherArrive m.toNat b.pc) s = s1 at hone hset
  have hadmit : takeIn i b b.threads s = (b.threads, s1) := by
    unfold takeIn gatherGo
    rw [hi]
    have e1 : (b.threads.filter fun t => b.threads.contains t) = b.threads := List.filter_eq_self.2 fun t ht => by simp [ht]
    have e2 : (b.threads.filter fun t => !b.threads.contains t) = [] := List.filter_eq_nil_iff.2 fun t ht => by simp [ht]
    simp only [hs1, hset, List.flatten_cons, List.flatten_nil, List.append_nil, e1, e2, List.foldl_nil]
  have hissue : s1.issue = .bundle b := by have := congrArg State.issue hone.rest; exact this.trans h.bundle
  refine ⟨_, word_admitted h hadmit hissue hone.threads _, ?_⟩
  have hs2 := afterIssue_oneGather (b := b) hone
  generalize hA : afterIssue b s1 = s2 at hs2 ⊢
  have hthreads : s2.threads = (afterIssue b s).threads := by rw [hs2]
  have hblocks : s2.blocks = (afterIssue b s).blocks := by rw [hs2]
  have hthread : ∀ t, s2.thread t = (afterIssue b s).thread t := fun t => by simp only [State.thread, hthreads]
  have hgroup : ∀ t, s2.groupOf t = s1.groupOf t := fun t => by
    rw [← hA]; exact afterIssue_groupOf b s1 t
  have hset2 : gatherSets s2 b.pc b.threads = [b.threads] := (gatherSets_congr hgroup _ _).trans hset
  -- what the participants read
  have hread : List.Forall₂ (fun e' e => SameReads s2 s e' e) (b.threads.map (envOf s2)) (b.threads.map (envOf s)) := by
    rw [List.forall₂_map_left_iff, List.forall₂_map_right_iff, List.forall₂_same]
    intro t ht
    have hgt : s2.groupOf t = { s.groupOf t with gathers := (s2.groupOf t).gathers } := by
      have h2 : s.groupOf t = s.group (s.thread t0).group := by rw [State.groupOf, hg t ht]
      rw [hgroup, State.groupOf, hone.thread, hg t ht, hone.group hh, h2]
    have hst : s2.thread t = stepped s b.pc t := by rw [hthread]; exact afterIssue_thread ht (h.may t ht).here
    have e1 : (envOf s2 t) = ⟨t, stepped s b.pc t, s2.groupOf t⟩ := by simp only [envOf, hst]
    rw [e1, hgt]
    refine ⟨rfl, rfl, rfl, rfl, rfl, rfl, rfl, rfl, rfl, rfl, rfl, rfl, ?_⟩
    have : s2.block (envOf s t).g.block = (afterIssue b s).block (envOf s t).g.block := by simp only [State.block, hblocks]
    rw [this, afterIssue_block]
  have hres := hf s2 hblocks _ hread
  -- the gather leaves its group
  have hbody : gatherBody i f (issuedAs i b s) s2 =
      land i ((activeIn i b s).map fun t => (t, r (envOf s t))) (s2.onGroup (s.thread t0).group fun x =>
        { x with gathers := x.gathers.filter fun y => !(y.pc == b.pc && y.parts.any b.threads.contains && y.parts.all y.arrived.contains) }) := by
    unfold gatherBody
    have e1 : (issuedAs i b s).threads = b.threads := rfl
    have e2 : (issuedAs i b s).pc = b.pc := rfl
    simp only [e1, e2, hset2, List.flatMap_cons, List.flatMap_nil, List.append_nil, hres]
    cases hb : b.threads with
    | nil => exact absurd hb h.some
    | cons u l =>
        have hu' : u ∈ b.threads := by rw [hb]; simp
        have : (s2.thread u).group = (s.thread t0).group := by
          rw [hthread, afterIssue_thread_group]; exact hg u hu'
        simp only [this]
  rw [hbody]
  generalize hs3 : (s2.onGroup (s.thread t0).group fun x =>
        { x with gathers := x.gathers.filter fun y => !(y.pc == b.pc && y.parts.any b.threads.contains && y.parts.all y.arrived.contains) }) = s3
  have h3t : s3.threads = (afterIssue b s).threads := by rw [← hs3]; exact hthreads
  have h3thread : ∀ t, s3.thread t = (afterIssue b s).thread t := fun t => by simp only [State.thread, h3t]
  have h2g : s2.groups = s1.groups := by rw [hs2]
  have h3g : ∀ j, s3.groups.find? j = s.groups.find? j := by
    intro j
    rw [← hs3, onGroup_find?, h2g]
    by_cases hj : j = (s.thread t0).group
    · rw [if_pos hj, hone.at_, hj]
      obtain ⟨y, hy⟩ := (Sparse.has_iff _ _).1 hh
      rw [hy]
      simp only [Option.map_some, Option.some.injEq]
      have hold : y.gathers.filter (fun z => !(z.pc == b.pc && z.parts.any b.threads.contains && z.parts.all z.arrived.contains)) = y.gathers := by
        refine List.filter_eq_self.2 fun z hz => ?_
        have : z.pc ≠ b.pc := hga.fresh t0 ht0 z (by
          have hy' : s.group (s.thread t0).group = y := by simp only [State.group, Sparse.findD, hy, Option.getD_some]
          rw [← hgo, hy']
          exact hz)
        simp [this]
      have hhead : (lanesIn s (s.thread t0).group (maskOf (s.group (s.thread t0).group) m.toNat).m).any
          b.threads.contains = true := by
        refine List.any_eq_true.2 ⟨t0, (hga.members t0 ht0 t0).1 ht0, by simp [ht0]⟩
      have hfull : (lanesIn s (s.thread t0).group (maskOf (s.group (s.thread t0).group) m.toNat).m).all arr.contains = true := by
        refine List.all_eq_true.2 fun u hu => ?_
        simp [harr u ((hga.members t0 ht0 u).2 hu)]
      rw [List.filter_append, hold]
      simp [hhead, hfull]
    · rw [if_neg hj, hone.other j hj]
  have h3group : ∀ j, s3.group j = s.group j := fun j => by simp only [State.group, Sparse.findD, h3g]
  have h3rest : { s3 with groups := (afterIssue b s).groups } = afterIssue b s := by
    rw [← hs3, hs2]
    rfl
  have hmem : ∀ t ∈ activeIn i b s, t ∈ b.threads := fun t ht => (List.mem_filter.1 ht).1
  obtain ⟨h1, h2, h4, h5⟩ := land_spec i (activeIn i b s) (fun t => r (envOf s t)) s3 (by
    intro t ht
    rw [h3thread, afterIssue_thread_group, Sparse.has, h3g]
    exact (h.may t (hmem t ht)).grouped)
  have hw : issuedWord s3 = b.word := by
    have : s3.issue = (afterIssue b s).issue := by have := congrArg State.issue h3rest; exact this
    simp [issuedWord, this, h.bundle]
  refine ⟨fun t hm hgd => ?_, fun t hm hgd => ?_, fun g => ?_, ?_⟩
  · have ha : t ∈ activeIn i b s := List.mem_filter.2 ⟨hm, hgd⟩
    rw [h1 t ha (by rw [h3t, afterIssue_has]; exact (h.may t hm).here), hw, h3thread, afterIssue_thread hm (h.may t hm).here]
    rfl
  · have ha : t ∉ activeIn i b s := fun hh => hgd (List.mem_filter.1 hh).2
    have := h2 t ha
    rw [State.thread, Sparse.findD, this, h3t]
    exact afterIssue_thread hm (h.may t hm).here
  · rw [h4 g]
    simp only [h3group, h3thread, afterIssue_thread_group]
    rfl
  · refine Frame.of_afterIssue h.place (fun t hm => ?_) ?_
    · rw [h2 t fun hh => hm (hmem t hh), h3t]
      exact afterIssue_find?_ne hm
    · have := congrArg (fun x : State => { x with threads := (afterIssue b s).threads, groups := (afterIssue b s).groups, ctr := (afterIssue b s).ctr }) h5
      refine this.trans ?_
      have := congrArg (fun x : State => { x with threads := (afterIssue b s).threads, ctr := (afterIssue b s).ctr }) h3rest
      exact this

/-! ### Participants read alike -/

/-- Lists of environments that read alike, one by one. -/
abbrev SameReadsAll (s1 s : State) (es es0 : List Env) : Prop := List.Forall₂ (fun e' e => SameReads s1 s e' e) es es0

theorem SameReadsAll.contributing {s1 s : State} {es es0 : List Env} (g : Guard) (h : SameReadsAll s1 s es es0) :
    SameReadsAll s1 s (Machine.contributing g es) (Machine.contributing g es0) := by
  induction h with
  | nil => exact .nil
  | cons h _ ih =>
      unfold Machine.contributing at *
      rw [List.filter_cons, List.filter_cons, h.guard]
      split
      · exact .cons h ih
      · exact ih

theorem SameReadsAll.map {α : Type} {s1 s : State} {es es0 : List Env} (h : SameReadsAll s1 s es es0) {f f0 : Env → α}
    (hf : ∀ e' e, SameReads s1 s e' e → f e' = f0 e) : es.map f = es0.map f0 := by
  induction h with
  | nil => rfl
  | cons h _ ih => rw [List.map_cons, List.map_cons, hf _ _ h, ih]

theorem SameReadsAll.foldl {α : Type} {s1 s : State} {es es0 : List Env} (h : SameReadsAll s1 s es es0) {f f0 : α → Env → α}
    (hf : ∀ x e' e, SameReads s1 s e' e → f x e' = f0 x e) (x : α) : es.foldl f x = es0.foldl f0 x := by
  induction h generalizing x with
  | nil => rfl
  | cons h _ ih => rw [List.foldl_cons, List.foldl_cons, hf _ _ _ h, ih]

theorem SameReadsAll.find? {α : Type} {s1 s : State} {es es0 : List Env} (h : SameReadsAll s1 s es es0) {p p0 : Env → Bool}
    {f f0 : Env → α} (hp : ∀ e' e, SameReads s1 s e' e → p e' = p0 e) (hf : ∀ e' e, SameReads s1 s e' e → f e' = f0 e) :
    (es.find? p).map f = (es0.find? p0).map f0 := by
  induction h with
  | nil => rfl
  | cons h _ ih =>
      rw [List.find?_cons, List.find?_cons, hp _ _ h]
      split
      · simp [hf _ _ h]
      · exact ih

/-- The contributing participants of an issue are its active threads. -/
theorem contributing_issue (i : Instr) (b : Bundle) (s : State) :
    contributing (guardOf i) (b.threads.map (envOf s)) = contributors i b s := by
  unfold contributing contributors activeIn
  rw [List.filter_map]
  rfl

end Sys2Proof.Machine
end

