-- ==== Sys2Proof/Laws/Held.lean ====
section
/-! SUPPORT. A word whose one thread does not issue it yet (R56, R226, R239, R322): the thread is held at the word, and that is all.
-/

namespace Sys2Proof.Machine

/-- Every instruction word is the frame `word` around a body of its own. -/
theorem core_word {i : Instr} (h : IsWord i) : ∃ body, ∀ s, exec i s = word i s body := by
  obtain ⟨h1, h2⟩ := h
  cases i <;> first
    | exact ⟨_, fun _ => rfl⟩
    | exact absurd h1 Bool.false_ne_true
    | exact absurd h2.symm Bool.false_ne_true

/-- What becomes of a thread that issues alone with its guard true: what it waits for, a stream fault, or it goes. -/
theorem fate_of {s : State} {i : Instr} {b : Bundle} {t : Nat} (h : Alone i b s t) :
    fateOf s i b.pc t = match waitsFor s i t, portFault s (s.thread t) (s.groupOf t) (usesOf i) with
      | some (.port _), some (c, ea) => .trap c ea
      | some w, _ => .stall w
      | none, some (c, ea) => .trap c ea
      | none, none => .go := by
  have hs := h.stands
  have hg := h.guarded
  unfold Guarded at hg
  unfold fateOf
  have h1 : (!(s.groupOf t).priv && !(s.thread t).freePass && ibrkAt s (s.groupOf t).ctx b.pc) = false := by
    rcases hs.unbroken with h | h | h
    · have : (s.groupOf t).priv = true := h
      simp [this]
    · simp [h]
    · have : ibrkAt s (s.groupOf t).ctx b.pc = false := h
      simp [this]
  have h2 : (isPrivileged i && !(s.groupOf t).priv) = false := by
    cases hp : isPrivileged i
    · rfl
    · have : (s.groupOf t).priv = true := hs.level hp
      simp [this]
  simp only [h1, h2, h.wf, hs.within, hg, if_true]
  rfl

/-- Nobody asks for room where nobody issues. -/
theorem roomless_nil (s : State) (i : Instr) (c : Nat) : (roomless s i c []).1 = [] := by
  cases i <;> simp only [roomless, List.filter_nil] <;> (try split) <;> simp

/-- With nobody to issue, nothing is admitted and nothing changes. -/
theorem takeIn_nil (i : Instr) (b : Bundle) (s : State) : takeIn i b [] s = ([], s) := by
  unfold takeIn
  split
  · simp [gatherGo, gatherSets]
  · have h := roomless_nil s i b.core
    simp only [List.filter_nil, h, List.isEmpty_nil, if_true, List.foldl_nil]
    split <;> rfl

/-- A word whose one thread must wait leaves that thread held at the word, and nothing else. -/
theorem word_held {s : State} {i : Instr} {b : Bundle} {t : Nat} {w : Why} (h : Alone i b s t) (body)
   (hw : fateOf s i b.pc t = .stall w) : word i s body = .next (heldAt b s t w) := by
  have ho : oneGroup s i [t] = [t] := by unfold oneGroup; split <;> simp
  unfold word
  rw [h.bundle]
  simp only [issueWord, h.only, ho]
  have hr := h.stands.ready
  simp [hw, hr]
  rw [takeIn_nil]; rfl

/-- R56, R226: a word whose thread awaits a result, a port or an earlier access is held at the word. -/
theorem exec_held {s : State} {i : Instr} {b : Bundle} {t : Nat} (h : IsWord i) (ha : Alone i b s t) (w : Why)
   (hw : waitsFor s i t = some w) (hp : ∀ p, w = .port p → portFault s (s.thread t) (s.groupOf t) (usesOf i) = none) :
   exec i s = .next (heldAt b s t w) := by
  obtain ⟨body, hb⟩ := core_word h
  rw [hb]
  refine word_held ha body ?_
  rw [fate_of ha, hw]
  cases w
  case port p => rw [hp p rfl]
  all_goals rfl

/-- A word that finds no room holds its one thread at the word, and counts the hold where R329 says so. -/
theorem exec_roomless {s : State} {i : Instr} {b : Bundle} {t : Nat} (h : IsWord i) (ha : Alone i b s t) (hm : MayIssue s i b.pc t)
  (hn : gatherMask i = none) (hr : (roomless s i b.core [t]).1 = [t]) : exec i s = .next (heldAt b (match (roomless s i b.core [t]).2 with
      | some k => pmc s b.core k 1
      | none => s) t .room) := by
  obtain ⟨body, hb⟩ := core_word h
  rw [hb]
  have ho : oneGroup s i [t] = [t] := by unfold oneGroup; split <;> simp
  have hg : guardHolds (guardOf i) (s.thread t) = true := ha.guarded
  have hf := fateOf_go ha.wf hm
  unfold word
  rw [ha.bundle]
  simp only [issueWord, ha.only, ho]
  simp [hf, ha.stands.ready, takeIn, hn, hg]
  generalize hq : roomless s i b.core [t] = r at *
  obtain ⟨l, n⟩ := r
  simp only at hr
  subst hr
  cases n <;> simp [heldAt]

end Sys2Proof.Machine
end

