-- ==== Sys2Proof/Laws/PerInstr.lean ====
section
/-! SUPPORT. Per instruction: which constructors are words of a program and which are events.

R145 and R294 give the words of a program their encodings; the other rows of the opcode table are things that happen
in the package (a grant, a completion, a register access, a message), which no word encodes. -/

namespace Sys2Proof.Laws.Encoding

/-- The constructors no word encodes: the happenings of R295 to R415. -/
def isEvent : Instr → Bool
  | .bundleBuild _ | .lateResultWrite _ | .xopResultReturn _ | .lateFaultArrival _
  | .operandLogReplay _ | .blockSave _ | .blockRelaunch _ | .queueStreamRead _ _
  | .queueStreamWrite _ _ | .copyComplete _ | .copyFault _ | .collPull _
  | .readyRecordRetire _ _ | .flatGivePoint _ | .arbiterGrant _ | .passComplete _
  | .tlbinvComplete _ | .ctxTransferComplete _ | .haltComplete _ | .ctxkillComplete _
  | .launchAdmit _ _ | .blockDispatch _ _ | .clusterReserve _ _ | .locateCacheFill _ _
  | .launchRetire _ | .bubbleSlotEnd _ | .bubbleOverrunSave _ | .prompterJobPop _ _
  | .prompterPublish _ _ | .l2SliceRequest _ _ | .translateRequest _ _ | .xltResolveRetry _
  | .xltResolveDeny _ | .pteRead _ | .pteWrite _ | .pteClear _
  | .hostLeafRead _ | .hostLeafWrite _ | .hostLeafClear _ | .hostLinkCompletion _
  | .loftLoadGo _ | .loftLoadCopy _ | .loftLoadDone _ | .loftRefreshWindow _ _
  | .flsMapWrite _ | .flsOwnWrite _ | .flatBankDetach _ | .flatBankZero _
  | .flatBankOwner _ | .scrubPass _ | .uncorrectableError _ | .evcAdd _
  | .launchCancel _ | .launchQueueTailWrite _ | .cueRegister _ | .cueDeregister _
  | .bubbleSlotOpen _ | .bubbleSlotClose _ | .smgCplfifoRead _ | .smgCuePush _
  | .hlkNoteRead _ | .hlkErrRead _ | .prmErrRead _ | .scbCecntRead _
  | .scbUelogRead _ | .tunAvsRead _ | .dbgDataRead _ | .dbgDataWrite _
  | .tblFire _ | .tblDisarm _ | .tableauExternalTrigger | .tableauLatch _
  | .tableauRecordsWritten _ | .uepGroupEnable _ | .bootFailsWrite _ | .bootCmdQueue _
  | .bootLoad _ | .bootAttest _ | .bootCert _ | .bootEvict _
  | .bootSvnadv _ | .registerWrite _ | .bar2Read _ | .bar2Write _
  | .functionLevelReset _ | .spdmGetVersion _ | .spdmGetCapabilities _ | .spdmNegotiateAlgorithms _
  | .spdmGetDigests _ | .spdmGetCertificate _ | .spdmChallenge _ | .spdmGetMeasurements _
  | .mctpControlMessage _ | .uePullRequest _ | .ueTileData _ | .ueAcknowledgement _
  | .ueSuperstepMessage _ | .scaleoutTimeout _ | .ptmDialogue _ | .issueFractionAdjust _ _
  | .remoteWayAdjust _ _ _ | .clockStretch _ _ | .serdesRetrain _ | .thermalTrip
  | .startAttempt _ | .stageManagerReady | .startTimeout | .startPowerFault
  | .icflushComplete _ | .powerLoss | .uePortTrainingEnd _ _ | .refusedRegisterRead _
  | .bootBadcmd _ => true
  | _ => false

/-- An instruction has a word exactly when it is no event, and every event is well formed: it has no field a word could
hold out of range. -/
def Statement (i : Instr) : Prop :=
  (encode? i).isSome = !isEvent i ∧ (isEvent i = true → i.wf = true)

theorem add (a : Int2Args) : Statement (.add a) := ⟨rfl, nofun⟩
theorem addImm (a : Int2Args) : Statement (.addImm a) := ⟨rfl, nofun⟩
theorem sub (a : Int2Args) : Statement (.sub a) := ⟨rfl, nofun⟩
theorem subImm (a : Int2Args) : Statement (.subImm a) := ⟨rfl, nofun⟩
theorem add3 (a : IntArgs) : Statement (.add3 a) := ⟨rfl, nofun⟩
theorem mul (a : Int2Args) : Statement (.mul a) := ⟨rfl, nofun⟩
theorem mulImm (a : Int2Args) : Statement (.mulImm a) := ⟨rfl, nofun⟩
theorem mulhi (a : Int2Args) : Statement (.mulhi a) := ⟨rfl, nofun⟩
theorem mulhiImm (a : Int2Args) : Statement (.mulhiImm a) := ⟨rfl, nofun⟩
theorem mad (a : IntArgs) : Statement (.mad a) := ⟨rfl, nofun⟩
theorem shladd (a : ShladdArgs) : Statement (.shladd a) := ⟨rfl, nofun⟩
theorem abs_ (a : Int1Args) : Statement (.abs_ a) := ⟨rfl, nofun⟩
theorem min_ (a : Int2Args) : Statement (.min_ a) := ⟨rfl, nofun⟩
theorem minImm (a : Int2Args) : Statement (.minImm a) := ⟨rfl, nofun⟩
theorem max_ (a : Int2Args) : Statement (.max_ a) := ⟨rfl, nofun⟩
theorem maxImm (a : Int2Args) : Statement (.maxImm a) := ⟨rfl, nofun⟩
theorem neg (a : Int1Args) : Statement (.neg a) := ⟨rfl, nofun⟩
theorem shl (a : Log2Args) : Statement (.shl a) := ⟨rfl, nofun⟩
theorem shlImm (a : Log2Args) : Statement (.shlImm a) := ⟨rfl, nofun⟩
theorem shr (a : Log2Args) : Statement (.shr a) := ⟨rfl, nofun⟩
theorem shrImm (a : Log2Args) : Statement (.shrImm a) := ⟨rfl, nofun⟩
theorem sar (a : Log2Args) : Statement (.sar a) := ⟨rfl, nofun⟩
theorem sarImm (a : Log2Args) : Statement (.sarImm a) := ⟨rfl, nofun⟩
theorem rot (a : Log2Args) : Statement (.rot a) := ⟨rfl, nofun⟩
theorem rotImm (a : Log2Args) : Statement (.rotImm a) := ⟨rfl, nofun⟩
theorem and_ (a : Log2Args) : Statement (.and_ a) := ⟨rfl, nofun⟩
theorem andImm (a : Log2Args) : Statement (.andImm a) := ⟨rfl, nofun⟩
theorem or_ (a : Log2Args) : Statement (.or_ a) := ⟨rfl, nofun⟩
theorem orImm (a : Log2Args) : Statement (.orImm a) := ⟨rfl, nofun⟩
theorem xor_ (a : Log2Args) : Statement (.xor_ a) := ⟨rfl, nofun⟩
theorem xorImm (a : Log2Args) : Statement (.xorImm a) := ⟨rfl, nofun⟩
theorem andn (a : Log2Args) : Statement (.andn a) := ⟨rfl, nofun⟩
theorem andnImm (a : Log2Args) : Statement (.andnImm a) := ⟨rfl, nofun⟩
theorem not_ (a : Log1Args) : Statement (.not_ a) := ⟨rfl, nofun⟩
theorem lut3 (a : Log3Args) : Statement (.lut3 a) := ⟨rfl, nofun⟩
theorem popc (a : Log1Args) : Statement (.popc a) := ⟨rfl, nofun⟩
theorem clz (a : Log1Args) : Statement (.clz a) := ⟨rfl, nofun⟩
theorem ctz (a : Log1Args) : Statement (.ctz a) := ⟨rfl, nofun⟩
theorem brev (a : Log1Args) : Statement (.brev a) := ⟨rfl, nofun⟩
theorem bfe (a : BfeArgs) : Statement (.bfe a) := ⟨rfl, nofun⟩
theorem bfi (a : Log3Args) : Statement (.bfi a) := ⟨rfl, nofun⟩
theorem setp (a : SetpArgs) : Statement (.setp a) := ⟨rfl, nofun⟩
theorem setpImm (a : SetpArgs) : Statement (.setpImm a) := ⟨rfl, nofun⟩
theorem sel (a : SelArgs) : Statement (.sel a) := ⟨rfl, nofun⟩
theorem selImm (a : SelArgs) : Statement (.selImm a) := ⟨rfl, nofun⟩
theorem cvti (a : CvtiArgs) : Statement (.cvti a) := ⟨rfl, nofun⟩
theorem fadd (a : Flt2Args) : Statement (.fadd a) := ⟨rfl, nofun⟩
theorem faddImm (a : Flt2Args) : Statement (.faddImm a) := ⟨rfl, nofun⟩
theorem fsub (a : Flt2Args) : Statement (.fsub a) := ⟨rfl, nofun⟩
theorem fsubImm (a : Flt2Args) : Statement (.fsubImm a) := ⟨rfl, nofun⟩
theorem fmul (a : Flt2Args) : Statement (.fmul a) := ⟨rfl, nofun⟩
theorem fmulImm (a : Flt2Args) : Statement (.fmulImm a) := ⟨rfl, nofun⟩
theorem fma (a : Flt3Args) : Statement (.fma a) := ⟨rfl, nofun⟩
theorem fmin (a : Flt2Args) : Statement (.fmin a) := ⟨rfl, nofun⟩
theorem fminImm (a : Flt2Args) : Statement (.fminImm a) := ⟨rfl, nofun⟩
theorem fmax (a : Flt2Args) : Statement (.fmax a) := ⟨rfl, nofun⟩
theorem fmaxImm (a : Flt2Args) : Statement (.fmaxImm a) := ⟨rfl, nofun⟩
theorem fsetp (a : FsetpArgs) : Statement (.fsetp a) := ⟨rfl, nofun⟩
theorem fsetpImm (a : FsetpArgs) : Statement (.fsetpImm a) := ⟨rfl, nofun⟩
theorem fclass (a : Flt1Args) : Statement (.fclass a) := ⟨rfl, nofun⟩
theorem fscale (a : Flt2Args) : Statement (.fscale a) := ⟨rfl, nofun⟩
theorem fscaleImm (a : Flt2Args) : Statement (.fscaleImm a) := ⟨rfl, nofun⟩
theorem frnd (a : Flt1Args) : Statement (.frnd a) := ⟨rfl, nofun⟩
theorem cvt (a : CvtArgs) : Statement (.cvt a) := ⟨rfl, nofun⟩
theorem pkadd (a : Flt2Args) : Statement (.pkadd a) := ⟨rfl, nofun⟩
theorem pkaddImm (a : Flt2Args) : Statement (.pkaddImm a) := ⟨rfl, nofun⟩
theorem pkmul (a : Flt2Args) : Statement (.pkmul a) := ⟨rfl, nofun⟩
theorem pkmulImm (a : Flt2Args) : Statement (.pkmulImm a) := ⟨rfl, nofun⟩
theorem pkfma (a : Flt3Args) : Statement (.pkfma a) := ⟨rfl, nofun⟩
theorem dp2 (a : Flt3Args) : Statement (.dp2 a) := ⟨rfl, nofun⟩
theorem dp4 (a : Flt3Args) : Statement (.dp4 a) := ⟨rfl, nofun⟩
theorem ex2 (a : Flt1Args) : Statement (.ex2 a) := ⟨rfl, nofun⟩
theorem lg2 (a : Flt1Args) : Statement (.lg2 a) := ⟨rfl, nofun⟩
theorem rcp (a : Flt1Args) : Statement (.rcp a) := ⟨rfl, nofun⟩
theorem rsq (a : Flt1Args) : Statement (.rsq a) := ⟨rfl, nofun⟩
theorem sqt (a : Flt1Args) : Statement (.sqt a) := ⟨rfl, nofun⟩
theorem sin (a : Flt1Args) : Statement (.sin a) := ⟨rfl, nofun⟩
theorem cos (a : Flt1Args) : Statement (.cos a) := ⟨rfl, nofun⟩
theorem tnh (a : Flt1Args) : Statement (.tnh a) := ⟨rfl, nofun⟩
theorem lgt (a : Flt1Args) : Statement (.lgt a) := ⟨rfl, nofun⟩
theorem dmake (a : DmakeArgs) : Statement (.dmake a) := ⟨rfl, nofun⟩
theorem dmean (a : DistArgs) : Statement (.dmean a) := ⟨rfl, nofun⟩
theorem dvar (a : DistArgs) : Statement (.dvar a) := ⟨rfl, nofun⟩
theorem dlin (a : DistArgs) : Statement (.dlin a) := ⟨rfl, nofun⟩
theorem dfold (a : DistArgs) : Statement (.dfold a) := ⟨rfl, nofun⟩
theorem dspread (a : DdrawArgs) : Statement (.dspread a) := ⟨rfl, nofun⟩
theorem dsamp (a : DdrawArgs) : Statement (.dsamp a) := ⟨rfl, nofun⟩
theorem bsinit (a : BsinitArgs) : Statement (.bsinit a) := ⟨rfl, nofun⟩
theorem bsread (a : BsreadArgs) : Statement (.bsread a) := ⟨rfl, nofun⟩
theorem bspeek (a : BsreadArgs) : Statement (.bspeek a) := ⟨rfl, nofun⟩
theorem bsskip (a : BsskipArgs) : Statement (.bsskip a) := ⟨rfl, nofun⟩
theorem bsalign (a : BsalignArgs) : Statement (.bsalign a) := ⟨rfl, nofun⟩
theorem rngseed (a : RngseedArgs) : Statement (.rngseed a) := ⟨rfl, nofun⟩
theorem rndU32 (a : RndArgs) : Statement (.rndU32 a) := ⟨rfl, nofun⟩
theorem rndF32 (a : RndArgs) : Statement (.rndF32 a) := ⟨rfl, nofun⟩
theorem rndGauss (a : RndArgs) : Statement (.rndGauss a) := ⟨rfl, nofun⟩
theorem rndCat (a : RndCatArgs) : Statement (.rndCat a) := ⟨rfl, nofun⟩
theorem laneIdx (a : LaneArgs) : Statement (.laneIdx a) := ⟨rfl, nofun⟩
theorem laneRise (a : LaneArgs) : Statement (.laneRise a) := ⟨rfl, nofun⟩
theorem laneFall (a : LaneArgs) : Statement (.laneFall a) := ⟨rfl, nofun⟩
theorem laneFlip (a : LaneArgs) : Statement (.laneFlip a) := ⟨rfl, nofun⟩
theorem pollAny (a : PollArgs) : Statement (.pollAny a) := ⟨rfl, nofun⟩
theorem pollAll (a : PollArgs) : Statement (.pollAll a) := ⟨rfl, nofun⟩
theorem pollMap (a : PollMapArgs) : Statement (.pollMap a) := ⟨rfl, nofun⟩
theorem fold (a : FoldArgs) : Statement (.fold a) := ⟨rfl, nofun⟩
theorem pfx (a : FoldArgs) : Statement (.pfx a) := ⟨rfl, nofun⟩
theorem peers (a : PeersArgs) : Statement (.peers a) := ⟨rfl, nofun⟩
theorem mov (a : MovArgs) : Statement (.mov a) := ⟨rfl, nofun⟩
theorem movi (a : MoviArgs) : Statement (.movi a) := ⟨rfl, nofun⟩
theorem moviHi (a : MoviHiArgs) : Statement (.moviHi a) := ⟨rfl, nofun⟩
theorem movk (a : MovkArgs) : Statement (.movk a) := ⟨rfl, nofun⟩
theorem movsRead (a : MovsArgs) : Statement (.movsRead a) := ⟨rfl, nofun⟩
theorem movsWriteFsr (a : MovWriteArgs) : Statement (.movsWriteFsr a) := ⟨rfl, nofun⟩
theorem movpRead (a : MovpArgs) : Statement (.movpRead a) := ⟨rfl, nofun⟩
theorem movpWrite (a : MovWriteArgs) : Statement (.movpWrite a) := ⟨rfl, nofun⟩
theorem xfadd (a : XfArgs) : Statement (.xfadd a) := ⟨rfl, nofun⟩
theorem xfsub (a : XfArgs) : Statement (.xfsub a) := ⟨rfl, nofun⟩
theorem xfmul (a : XfArgs) : Statement (.xfmul a) := ⟨rfl, nofun⟩
theorem xfma (a : XfArgs) : Statement (.xfma a) := ⟨rfl, nofun⟩
theorem xfdiv (a : XfArgs) : Statement (.xfdiv a) := ⟨rfl, nofun⟩
theorem xfsqt (a : XfArgs) : Statement (.xfsqt a) := ⟨rfl, nofun⟩
theorem xfcvt (a : XfcvtArgs) : Statement (.xfcvt a) := ⟨rfl, nofun⟩
theorem xfsetp (a : XfsetpArgs) : Statement (.xfsetp a) := ⟨rfl, nofun⟩
theorem xdiv (a : XintArgs) : Statement (.xdiv a) := ⟨rfl, nofun⟩
theorem xrem (a : XintArgs) : Statement (.xrem a) := ⟨rfl, nofun⟩
theorem xshl2 (a : Xop2Args) : Statement (.xshl2 a) := ⟨rfl, nofun⟩
theorem xshr2 (a : Xop2Args) : Statement (.xshr2 a) := ⟨rfl, nofun⟩
theorem xsar2 (a : Xop2Args) : Statement (.xsar2 a) := ⟨rfl, nofun⟩
theorem xmin2 (a : Xop2Args) : Statement (.xmin2 a) := ⟨rfl, nofun⟩
theorem xmax2 (a : Xop2Args) : Statement (.xmax2 a) := ⟨rfl, nofun⟩
theorem xcvt2 (a : Log1Args) : Statement (.xcvt2 a) := ⟨rfl, nofun⟩
theorem pairedWord (a : PairArgs) : Statement (.pairedWord a) := ⟨rfl, nofun⟩
theorem ld (a : LdstArgs) : Statement (.ld a) := ⟨rfl, nofun⟩
theorem st (a : LdstArgs) : Statement (.st a) := ⟨rfl, nofun⟩
theorem ldk (a : LdstArgs) : Statement (.ldk a) := ⟨rfl, nofun⟩
theorem ldLoft (a : LdstArgs) : Statement (.ldLoft a) := ⟨rfl, nofun⟩
theorem prefetch (a : HintArgs) : Statement (.prefetch a) := ⟨rfl, nofun⟩
theorem icflush (a : HintArgs) : Statement (.icflush a) := ⟨rfl, nofun⟩
theorem qcfg (a : QcfgArgs) : Statement (.qcfg a) := ⟨rfl, nofun⟩
theorem qclose (a : QcloseArgs) : Statement (.qclose a) := ⟨rfl, nofun⟩
theorem atom (a : AtomArgs) : Statement (.atom a) := ⟨rfl, nofun⟩
theorem red (a : AtomArgs) : Statement (.red a) := ⟨rfl, nofun⟩
theorem svpost (a : SvArgs) : Statement (.svpost a) := ⟨rfl, nofun⟩
theorem svwait (a : SvArgs) : Statement (.svwait a) := ⟨rfl, nofun⟩
theorem cpRows (a : DescArgs) : Statement (.cpRows a) := ⟨rfl, nofun⟩
theorem cpReduce (a : DescArgs) : Statement (.cpReduce a) := ⟨rfl, nofun⟩
theorem cpSeal (a : SealArgs) : Statement (.cpSeal a) := ⟨rfl, nofun⟩
theorem cpWait (a : CpWaitArgs) : Statement (.cpWait a) := ⟨rfl, nofun⟩
theorem cpColl (a : DescArgs) : Statement (.cpColl a) := ⟨rfl, nofun⟩
theorem cpReady (a : DescArgs) : Statement (.cpReady a) := ⟨rfl, nofun⟩
theorem cuePop (a : CueArgs) : Statement (.cuePop a) := ⟨rfl, nofun⟩
theorem cuePush (a : CueArgs) : Statement (.cuePush a) := ⟨rfl, nofun⟩
theorem flatGive (a : GiveArgs) : Statement (.flatGive a) := ⟨rfl, nofun⟩
theorem flatTake (a : SlotArgs) : Statement (.flatTake a) := ⟨rfl, nofun⟩
theorem flatShare (a : ShareArgs) : Statement (.flatShare a) := ⟨rfl, nofun⟩
theorem flatStat (a : SlotArgs) : Statement (.flatStat a) := ⟨rfl, nofun⟩
theorem barBlk (a : BarBlkArgs) : Statement (.barBlk a) := ⟨rfl, nofun⟩
theorem barCls (a : BarArgs) : Statement (.barCls a) := ⟨rfl, nofun⟩
theorem barDev (a : BarArgs) : Statement (.barDev a) := ⟨rfl, nofun⟩
theorem barDevSuper (a : BarArgs) : Statement (.barDevSuper a) := ⟨rfl, nofun⟩
theorem barArrive (a : BarScopeArgs) : Statement (.barArrive a) := ⟨rfl, nofun⟩
theorem barWait (a : BarScopeArgs) : Statement (.barWait a) := ⟨rfl, nofun⟩
theorem join (a : MaskArgs) : Statement (.join a) := ⟨rfl, nofun⟩
theorem leave (a : MaskArgs) : Statement (.leave a) := ⟨rfl, nofun⟩
theorem wait (a : MaskArgs) : Statement (.wait a) := ⟨rfl, nofun⟩
theorem mset (a : MaskKArgs) : Statement (.mset a) := ⟨rfl, nofun⟩
theorem mget (a : MaskKArgs) : Statement (.mget a) := ⟨rfl, nofun⟩
theorem sign (a : MaskArgs) : Statement (.sign a) := ⟨rfl, nofun⟩
theorem cvwait (a : MaskArgs) : Statement (.cvwait a) := ⟨rfl, nofun⟩
theorem bra (a : BraArgs) : Statement (.bra a) := ⟨rfl, nofun⟩
theorem brx (a : BrxArgs) : Statement (.brx a) := ⟨rfl, nofun⟩
theorem call (a : CallArgs) : Statement (.call a) := ⟨rfl, nofun⟩
theorem ret (a : BrxArgs) : Statement (.ret a) := ⟨rfl, nofun⟩
theorem exit (a : Guard) : Statement (.exit a) := ⟨rfl, nofun⟩
theorem yield (a : Guard) : Statement (.yield a) := ⟨rfl, nofun⟩
theorem suspend (a : Guard) : Statement (.suspend a) := ⟨rfl, nofun⟩
theorem signal (a : SignalArgs) : Statement (.signal a) := ⟨rfl, nofun⟩
theorem launch (a : LaunchArgs) : Statement (.launch a) := ⟨rfl, nofun⟩
theorem trap (a : CodeArgs) : Statement (.trap a) := ⟨rfl, nofun⟩
theorem brk (a : CodeArgs) : Statement (.brk a) := ⟨rfl, nofun⟩
theorem nop (a : Guard) : Statement (.nop a) := ⟨rfl, nofun⟩
theorem wlatch (a : WlatchArgs) : Statement (.wlatch a) := ⟨rfl, nofun⟩
theorem mmpost (a : MmpostArgs) : Statement (.mmpost a) := ⟨rfl, nofun⟩
theorem accrd (a : DescArgs) : Statement (.accrd a) := ⟨rfl, nofun⟩
theorem accclr (a : TileArgs) : Statement (.accclr a) := ⟨rfl, nofun⟩
theorem acccvt (a : DescArgs) : Statement (.acccvt a) := ⟨rfl, nofun⟩
theorem accstat (a : AccstatArgs) : Statement (.accstat a) := ⟨rfl, nofun⟩
theorem mxstat (a : MxstatArgs) : Statement (.mxstat a) := ⟨rfl, nofun⟩
theorem csrr (a : CsrArgs) : Statement (.csrr a) := ⟨rfl, nofun⟩
theorem csrw (a : CsrArgs) : Statement (.csrw a) := ⟨rfl, nofun⟩
theorem eret (a : EretArgs) : Statement (.eret a) := ⟨rfl, nofun⟩
theorem tlbinv (a : TlbinvArgs) : Statement (.tlbinv a) := ⟨rfl, nofun⟩
theorem ctxsave (a : CtxArgs) : Statement (.ctxsave a) := ⟨rfl, nofun⟩
theorem ctxload (a : CtxArgs) : Statement (.ctxload a) := ⟨rfl, nofun⟩
theorem halt (a : CtxIdArgs) : Statement (.halt a) := ⟨rfl, nofun⟩
theorem haltGo (a : CtxIdArgs) : Statement (.haltGo a) := ⟨rfl, nofun⟩
theorem dbgstep (a : DbgstepArgs) : Statement (.dbgstep a) := ⟨rfl, nofun⟩
theorem tblarm (a : TblarmArgs) : Statement (.tblarm a) := ⟨rfl, nofun⟩
theorem tblread (a : TblreadArgs) : Statement (.tblread a) := ⟨rfl, nofun⟩
theorem dbgres (a : DbgArgs) : Statement (.dbgres a) := ⟨rfl, nofun⟩
theorem dbgcur (a : DbgArgs) : Statement (.dbgcur a) := ⟨rfl, nofun⟩
theorem ctxkill (a : CtxIdArgs) : Statement (.ctxkill a) := ⟨rfl, nofun⟩
theorem logitLdc (a : LogitArgs) : Statement (.logitLdc a) := ⟨rfl, nofun⟩
theorem logitLdw (a : LogitArgs) : Statement (.logitLdw a) := ⟨rfl, nofun⟩
theorem logitLdt (a : LogitArgs) : Statement (.logitLdt a) := ⟨rfl, nofun⟩
theorem logitLdb (a : LogitArgs) : Statement (.logitLdb a) := ⟨rfl, nofun⟩
theorem logitLdg (a : LogitArgs) : Statement (.logitLdg a) := ⟨rfl, nofun⟩
theorem logitLdd (a : LogitArgs) : Statement (.logitLdd a) := ⟨rfl, nofun⟩
theorem logitLds (a : LogitArgs) : Statement (.logitLds a) := ⟨rfl, nofun⟩
theorem logitSet (a : LogitArgs) : Statement (.logitSet a) := ⟨rfl, nofun⟩
theorem logitMode (a : LogitArgs) : Statement (.logitMode a) := ⟨rfl, nofun⟩
theorem logitMov (a : LogitArgs) : Statement (.logitMov a) := ⟨rfl, nofun⟩
theorem logitAdd (a : LogitArgs) : Statement (.logitAdd a) := ⟨rfl, nofun⟩
theorem logitMul (a : LogitArgs) : Statement (.logitMul a) := ⟨rfl, nofun⟩
theorem logitPen (a : LogitArgs) : Statement (.logitPen a) := ⟨rfl, nofun⟩
theorem logitFpen (a : LogitArgs) : Statement (.logitFpen a) := ⟨rfl, nofun⟩
theorem logitTemp (a : LogitArgs) : Statement (.logitTemp a) := ⟨rfl, nofun⟩
theorem logitClmp (a : LogitArgs) : Statement (.logitClmp a) := ⟨rfl, nofun⟩
theorem logitKeep (a : LogitArgs) : Statement (.logitKeep a) := ⟨rfl, nofun⟩
theorem logitTopk (a : LogitArgs) : Statement (.logitTopk a) := ⟨rfl, nofun⟩
theorem logitTopp (a : LogitArgs) : Statement (.logitTopp a) := ⟨rfl, nofun⟩
theorem logitMinp (a : LogitArgs) : Statement (.logitMinp a) := ⟨rfl, nofun⟩
theorem logitSort (a : LogitArgs) : Statement (.logitSort a) := ⟨rfl, nofun⟩
theorem logitNorm (a : LogitArgs) : Statement (.logitNorm a) := ⟨rfl, nofun⟩
theorem logitVmax (a : LogitArgs) : Statement (.logitVmax a) := ⟨rfl, nofun⟩
theorem logitDraw (a : LogitArgs) : Statement (.logitDraw a) := ⟨rfl, nofun⟩
theorem logitAcc (a : LogitArgs) : Statement (.logitAcc a) := ⟨rfl, nofun⟩
theorem logitPub (a : LogitArgs) : Statement (.logitPub a) := ⟨rfl, nofun⟩
theorem bundleBuild (core : Nat) : Statement (.bundleBuild core) := ⟨rfl, fun _ => rfl⟩
theorem lateResultWrite (tid : Nat) : Statement (.lateResultWrite tid) := ⟨rfl, fun _ => rfl⟩
theorem xopResultReturn (die : Nat) : Statement (.xopResultReturn die) := ⟨rfl, fun _ => rfl⟩
theorem lateFaultArrival (entry : Nat) : Statement (.lateFaultArrival entry) := ⟨rfl, fun _ => rfl⟩
theorem operandLogReplay (entry : Nat) : Statement (.operandLogReplay entry) := ⟨rfl, fun _ => rfl⟩
theorem blockSave (blk : Nat) : Statement (.blockSave blk) := ⟨rfl, fun _ => rfl⟩
theorem blockRelaunch (blk : Nat) : Statement (.blockRelaunch blk) := ⟨rfl, fun _ => rfl⟩
theorem queueStreamRead (tid port : Nat) : Statement (.queueStreamRead tid port) := ⟨rfl, fun _ => rfl⟩
theorem queueStreamWrite (tid port : Nat) : Statement (.queueStreamWrite tid port) := ⟨rfl, fun _ => rfl⟩
theorem copyComplete (copy : Nat) : Statement (.copyComplete copy) := ⟨rfl, fun _ => rfl⟩
theorem copyFault (copy : Nat) : Statement (.copyFault copy) := ⟨rfl, fun _ => rfl⟩
theorem collPull (copy : Nat) : Statement (.collPull copy) := ⟨rfl, fun _ => rfl⟩
theorem readyRecordRetire (part tile : Nat) : Statement (.readyRecordRetire part tile) := ⟨rfl, fun _ => rfl⟩
theorem flatGivePoint (tid : Nat) : Statement (.flatGivePoint tid) := ⟨rfl, fun _ => rfl⟩
theorem arbiterGrant (cluster : Nat) : Statement (.arbiterGrant cluster) := ⟨rfl, fun _ => rfl⟩
theorem passComplete (cluster : Nat) : Statement (.passComplete cluster) := ⟨rfl, fun _ => rfl⟩
theorem tlbinvComplete (tid : Nat) : Statement (.tlbinvComplete tid) := ⟨rfl, fun _ => rfl⟩
theorem ctxTransferComplete (tid : Nat) : Statement (.ctxTransferComplete tid) := ⟨rfl, fun _ => rfl⟩
theorem haltComplete (tid : Nat) : Statement (.haltComplete tid) := ⟨rfl, fun _ => rfl⟩
theorem ctxkillComplete (tid : Nat) : Statement (.ctxkillComplete tid) := ⟨rfl, fun _ => rfl⟩
theorem launchAdmit (part queue : Nat) : Statement (.launchAdmit part queue) := ⟨rfl, fun _ => rfl⟩
theorem blockDispatch (part cluster : Nat) : Statement (.blockDispatch part cluster) := ⟨rfl, fun _ => rfl⟩
theorem clusterReserve (part cluster : Nat) : Statement (.clusterReserve part cluster) := ⟨rfl, fun _ => rfl⟩
theorem locateCacheFill (part launch : Nat) : Statement (.locateCacheFill part launch) := ⟨rfl, fun _ => rfl⟩
theorem launchRetire (launch : Nat) : Statement (.launchRetire launch) := ⟨rfl, fun _ => rfl⟩
theorem bubbleSlotEnd (part : Nat) : Statement (.bubbleSlotEnd part) := ⟨rfl, fun _ => rfl⟩
theorem bubbleOverrunSave (part : Nat) : Statement (.bubbleOverrunSave part) := ⟨rfl, fun _ => rfl⟩
theorem prompterJobPop (die n : Nat) : Statement (.prompterJobPop die n) := ⟨rfl, fun _ => rfl⟩
theorem prompterPublish (die n : Nat) : Statement (.prompterPublish die n) := ⟨rfl, fun _ => rfl⟩
theorem l2SliceRequest (die slice : Nat) : Statement (.l2SliceRequest die slice) := ⟨rfl, fun _ => rfl⟩
theorem translateRequest (die slice : Nat) : Statement (.translateRequest die slice) := ⟨rfl, fun _ => rfl⟩
theorem xltResolveRetry (a : RegAcc) : Statement (.xltResolveRetry a) := ⟨rfl, fun _ => rfl⟩
theorem xltResolveDeny (a : RegAcc) : Statement (.xltResolveDeny a) := ⟨rfl, fun _ => rfl⟩
theorem pteRead (a : RegAcc) : Statement (.pteRead a) := ⟨rfl, fun _ => rfl⟩
theorem pteWrite (a : RegAcc) : Statement (.pteWrite a) := ⟨rfl, fun _ => rfl⟩
theorem pteClear (a : RegAcc) : Statement (.pteClear a) := ⟨rfl, fun _ => rfl⟩
theorem hostLeafRead (a : RegAcc) : Statement (.hostLeafRead a) := ⟨rfl, fun _ => rfl⟩
theorem hostLeafWrite (a : RegAcc) : Statement (.hostLeafWrite a) := ⟨rfl, fun _ => rfl⟩
theorem hostLeafClear (a : RegAcc) : Statement (.hostLeafClear a) := ⟨rfl, fun _ => rfl⟩
theorem hostLinkCompletion (req : Nat) : Statement (.hostLinkCompletion req) := ⟨rfl, fun _ => rfl⟩
theorem loftLoadGo (a : RegAcc) : Statement (.loftLoadGo a) := ⟨rfl, fun _ => rfl⟩
theorem loftLoadCopy (die : Nat) : Statement (.loftLoadCopy die) := ⟨rfl, fun _ => rfl⟩
theorem loftLoadDone (die : Nat) : Statement (.loftLoadDone die) := ⟨rfl, fun _ => rfl⟩
theorem loftRefreshWindow (die group : Nat) : Statement (.loftRefreshWindow die group) := ⟨rfl, fun _ => rfl⟩
theorem flsMapWrite (a : RegAcc) : Statement (.flsMapWrite a) := ⟨rfl, fun _ => rfl⟩
theorem flsOwnWrite (a : RegAcc) : Statement (.flsOwnWrite a) := ⟨rfl, fun _ => rfl⟩
theorem flatBankDetach (a : RegAcc) : Statement (.flatBankDetach a) := ⟨rfl, fun _ => rfl⟩
theorem flatBankZero (a : RegAcc) : Statement (.flatBankZero a) := ⟨rfl, fun _ => rfl⟩
theorem flatBankOwner (a : RegAcc) : Statement (.flatBankOwner a) := ⟨rfl, fun _ => rfl⟩
theorem scrubPass (die : Nat) : Statement (.scrubPass die) := ⟨rfl, fun _ => rfl⟩
theorem uncorrectableError (a : UeErr) : Statement (.uncorrectableError a) := ⟨rfl, fun _ => rfl⟩
theorem evcAdd (a : RegAcc) : Statement (.evcAdd a) := ⟨rfl, fun _ => rfl⟩
theorem launchCancel (a : RegAcc) : Statement (.launchCancel a) := ⟨rfl, fun _ => rfl⟩
theorem launchQueueTailWrite (a : RegAcc) : Statement (.launchQueueTailWrite a) := ⟨rfl, fun _ => rfl⟩
theorem cueRegister (a : RegAcc) : Statement (.cueRegister a) := ⟨rfl, fun _ => rfl⟩
theorem cueDeregister (a : RegAcc) : Statement (.cueDeregister a) := ⟨rfl, fun _ => rfl⟩
theorem bubbleSlotOpen (a : RegAcc) : Statement (.bubbleSlotOpen a) := ⟨rfl, fun _ => rfl⟩
theorem bubbleSlotClose (a : RegAcc) : Statement (.bubbleSlotClose a) := ⟨rfl, fun _ => rfl⟩
theorem smgCplfifoRead (a : RegAcc) : Statement (.smgCplfifoRead a) := ⟨rfl, fun _ => rfl⟩
theorem smgCuePush (a : RegAcc) : Statement (.smgCuePush a) := ⟨rfl, fun _ => rfl⟩
theorem hlkNoteRead (a : RegAcc) : Statement (.hlkNoteRead a) := ⟨rfl, fun _ => rfl⟩
theorem hlkErrRead (a : RegAcc) : Statement (.hlkErrRead a) := ⟨rfl, fun _ => rfl⟩
theorem prmErrRead (a : RegAcc) : Statement (.prmErrRead a) := ⟨rfl, fun _ => rfl⟩
theorem scbCecntRead (a : RegAcc) : Statement (.scbCecntRead a) := ⟨rfl, fun _ => rfl⟩
theorem scbUelogRead (a : RegAcc) : Statement (.scbUelogRead a) := ⟨rfl, fun _ => rfl⟩
theorem tunAvsRead (a : RegAcc) : Statement (.tunAvsRead a) := ⟨rfl, fun _ => rfl⟩
theorem dbgDataRead (a : RegAcc) : Statement (.dbgDataRead a) := ⟨rfl, fun _ => rfl⟩
theorem dbgDataWrite (a : RegAcc) : Statement (.dbgDataWrite a) := ⟨rfl, fun _ => rfl⟩
theorem tblFire (a : RegAcc) : Statement (.tblFire a) := ⟨rfl, fun _ => rfl⟩
theorem tblDisarm (a : RegAcc) : Statement (.tblDisarm a) := ⟨rfl, fun _ => rfl⟩
theorem tableauExternalTrigger : Statement .tableauExternalTrigger := ⟨rfl, fun _ => rfl⟩
theorem tableauLatch (part : Nat) : Statement (.tableauLatch part) := ⟨rfl, fun _ => rfl⟩
theorem tableauRecordsWritten (part : Nat) : Statement (.tableauRecordsWritten part) := ⟨rfl, fun _ => rfl⟩
theorem uepGroupEnable (a : RegAcc) : Statement (.uepGroupEnable a) := ⟨rfl, fun _ => rfl⟩
theorem bootFailsWrite (a : RegAcc) : Statement (.bootFailsWrite a) := ⟨rfl, fun _ => rfl⟩
theorem bootCmdQueue (a : RegAcc) : Statement (.bootCmdQueue a) := ⟨rfl, fun _ => rfl⟩
theorem bootLoad (part : Nat) : Statement (.bootLoad part) := ⟨rfl, fun _ => rfl⟩
theorem bootAttest (part : Nat) : Statement (.bootAttest part) := ⟨rfl, fun _ => rfl⟩
theorem bootCert (part : Nat) : Statement (.bootCert part) := ⟨rfl, fun _ => rfl⟩
theorem bootEvict (part : Nat) : Statement (.bootEvict part) := ⟨rfl, fun _ => rfl⟩
theorem bootSvnadv (part : Nat) : Statement (.bootSvnadv part) := ⟨rfl, fun _ => rfl⟩
theorem registerWrite (a : RegAcc) : Statement (.registerWrite a) := ⟨rfl, fun _ => rfl⟩
theorem bar2Read (a : Bar2Acc) : Statement (.bar2Read a) := ⟨rfl, fun _ => rfl⟩
theorem bar2Write (a : Bar2Acc) : Statement (.bar2Write a) := ⟨rfl, fun _ => rfl⟩
theorem functionLevelReset (part : Nat) : Statement (.functionLevelReset part) := ⟨rfl, fun _ => rfl⟩
theorem spdmGetVersion (msg : List Byte) : Statement (.spdmGetVersion msg) := ⟨rfl, fun _ => rfl⟩
theorem spdmGetCapabilities (msg : List Byte) : Statement (.spdmGetCapabilities msg) := ⟨rfl, fun _ => rfl⟩
theorem spdmNegotiateAlgorithms (msg : List Byte) : Statement (.spdmNegotiateAlgorithms msg) := ⟨rfl, fun _ => rfl⟩
theorem spdmGetDigests (msg : List Byte) : Statement (.spdmGetDigests msg) := ⟨rfl, fun _ => rfl⟩
theorem spdmGetCertificate (msg : List Byte) : Statement (.spdmGetCertificate msg) := ⟨rfl, fun _ => rfl⟩
theorem spdmChallenge (msg : List Byte) : Statement (.spdmChallenge msg) := ⟨rfl, fun _ => rfl⟩
theorem spdmGetMeasurements (msg : List Byte) : Statement (.spdmGetMeasurements msg) := ⟨rfl, fun _ => rfl⟩
theorem mctpControlMessage (msg : List Byte) : Statement (.mctpControlMessage msg) := ⟨rfl, fun _ => rfl⟩
theorem uePullRequest (a : UeMsg) : Statement (.uePullRequest a) := ⟨rfl, fun _ => rfl⟩
theorem ueTileData (a : UeMsg) : Statement (.ueTileData a) := ⟨rfl, fun _ => rfl⟩
theorem ueAcknowledgement (a : UeMsg) : Statement (.ueAcknowledgement a) := ⟨rfl, fun _ => rfl⟩
theorem ueSuperstepMessage (a : UeMsg) : Statement (.ueSuperstepMessage a) := ⟨rfl, fun _ => rfl⟩
theorem scaleoutTimeout (w : UeWait) : Statement (.scaleoutTimeout w) := ⟨rfl, fun _ => rfl⟩
theorem ptmDialogue (hostNs : Dword) : Statement (.ptmDialogue hostNs) := ⟨rfl, fun _ => rfl⟩
theorem issueFractionAdjust (power temp : Nat) : Statement (.issueFractionAdjust power temp) := ⟨rfl, fun _ => rfl⟩
theorem remoteWayAdjust (die slice : Nat) (up : Bool) : Statement (.remoteWayAdjust die slice up) := ⟨rfl, fun _ => rfl⟩
theorem clockStretch (cluster cycles : Nat) : Statement (.clockStretch cluster cycles) := ⟨rfl, fun _ => rfl⟩
theorem serdesRetrain (clk : Nat) : Statement (.serdesRetrain clk) := ⟨rfl, fun _ => rfl⟩
theorem thermalTrip : Statement .thermalTrip := ⟨rfl, fun _ => rfl⟩
theorem startAttempt (a : StartArgs) : Statement (.startAttempt a) := ⟨rfl, fun _ => rfl⟩
theorem stageManagerReady : Statement .stageManagerReady := ⟨rfl, fun _ => rfl⟩
theorem startTimeout : Statement .startTimeout := ⟨rfl, fun _ => rfl⟩
theorem startPowerFault : Statement .startPowerFault := ⟨rfl, fun _ => rfl⟩
theorem icflushComplete (tid : Nat) : Statement (.icflushComplete tid) := ⟨rfl, fun _ => rfl⟩
theorem powerLoss : Statement .powerLoss := ⟨rfl, fun _ => rfl⟩
theorem uePortTrainingEnd (port : Nat) (up : Bool) : Statement (.uePortTrainingEnd port up) := ⟨rfl, fun _ => rfl⟩
theorem refusedRegisterRead (a : RegAcc) : Statement (.refusedRegisterRead a) := ⟨rfl, fun _ => rfl⟩
theorem bootBadcmd (part : Nat) : Statement (.bootBadcmd part) := ⟨rfl, fun _ => rfl⟩

end Sys2Proof.Laws.Encoding
end

