-- ==== Sys2Proof/Laws/Saves.lean ====
section
/-! SUPPORT. What settling and releasing leave unchanged, and what saving a block (R51, R326) and
writing the planes of a context's tiles (R328) leave. -/

namespace Sys2Proof.Machine

/-- The two states differ at most in threads (their PCs stand), groups (their cores stand), the history and free values
spent. -/
structure Settles (s s' : State) : Prop where
  rest : { s' with threads := s.threads, groups := s.groups, hist := s.hist, ctr := s.ctr } = s
  pc : ∀ t, (s'.thread t).pc = (s.thread t).pc
  core : ∀ g, (s'.group g).core = (s.group g).core

namespace Settles

theorem refl (s : State) : Settles s s := ⟨rfl, fun _ => rfl, fun _ => rfl⟩

variable {s s' s'' : State}

theorem trans (h : Settles s s') (h' : Settles s' s'') : Settles s s'' :=
  ⟨by have := h'.rest; rw [← h.rest, ← this], fun t => (h'.pc t).trans (h.pc t), fun t => (h'.core t).trans (h.core t)⟩
theorem foldl {α : Type} (f : State → α → State) (hf : ∀ s x, Settles s (f s x)) (l : List α) : ∀ s, Settles s (l.foldl f s) := by
  induction l with
  | nil => exact refl
  | cons x l ih => exact fun s => (hf s x).trans (ih _)

theorem blocks (h : Settles s s') : s'.blocks = s.blocks := by have := congrArg State.blocks h.rest; exact this
theorem launches (h : Settles s s') : s'.launches = s.launches := by have := congrArg State.launches h.rest; exact this
theorem hbm (h : Settles s s') : s'.hbm = s.hbm := by have := congrArg State.hbm h.rest; exact this
theorem flats (h : Settles s s') : s'.flats = s.flats := by have := congrArg State.flats h.rest; exact this
theorem parts (h : Settles s s') : s'.parts = s.parts := by have := congrArg State.parts h.rest; exact this
theorem clusters (h : Settles s s') : s'.clusters = s.clusters := by have := congrArg State.clusters h.rest; exact this
theorem sys (h : Settles s s') : s'.sys = s.sys := by have := congrArg State.sys h.rest; exact this
theorem block (h : Settles s s') (b : Nat) : s'.block b = s.block b := by simp only [State.block, h.blocks]
theorem part (h : Settles s s') (p : Nat) : s'.part p = s.part p := by simp only [State.part, h.parts]
theorem cluster (h : Settles s s') (c : Nat) : s'.cluster c = s.cluster c := by simp only [State.cluster, h.clusters]
theorem blockCluster (h : Settles s s') (b : Nat) : blockCluster s' b = blockCluster s b := by
  simp only [Machine.blockCluster, blockCore, h.block, h.core]

theorem onThread (s : State) (t : Nat) (f : Thread → Thread) (hf : ∀ x, (f x).pc = x.pc) : Settles s (s.onThread t f) := by
  refine ⟨rfl, fun u => ?_, fun _ => rfl⟩
  simp only [State.onThread, State.thread, Sparse.findD, Sparse.find?_modify]
  split
  · cases h : s.threads.find? u <;> simp [hf]
  · rfl
theorem onGroup (s : State) (t : Nat) (f : Group → Group) (hf : ∀ x, (f x).core = x.core) : Settles s (s.onGroup t f) := by
  refine ⟨rfl, fun _ => rfl, fun u => ?_⟩
  simp only [State.onGroup, State.group, Sparse.findD, Sparse.find?_modify]
  split
  · cases h : s.groups.find? u <;> simp [hf]
  · rfl
theorem applyPend_pc (p : Pend) (x : Thread) : (applyPend p x).pc = x.pc := by
  unfold applyPend
  cases p.port with
  | some q => rfl
  | none => dsimp only; split <;> [rfl; (split <;> rfl)]
theorem landPend (s : State) (t : Nat) (p : Pend) : Settles s (landPend s t p) := by
  unfold Machine.landPend
  dsimp only
  refine ((onThread s t _ (applyPend_pc p)).trans (onGroup _ (s.thread t).group _ ?_)).trans (foldl _ (fun s t => ?_) _ _)
  · exact fun _ => rfl
  · exact onThread s t _ fun _ => rfl
theorem settleSfu (s : State) (t : Nat) : Settles s (settleSfu s t) := foldl _ (fun s p => landPend s t p) _ _
theorem release (s : State) (t : Nat) (sc : Scope) (f : Bool) (own : List Nat) : Settles s (release s t sc f own).2 := by
  unfold Machine.release publish releaseSet
  dsimp only
  split <;> exact ⟨rfl, fun _ => rfl, fun _ => rfl⟩

end Settles

theorem MemOnly.blockCluster {s s' : State} (h : MemOnly s s') (b : Nat) : blockCluster s' b = blockCluster s b := by
  simp only [Machine.blockCluster, blockCore, h.block, h.group]

/-- R51, R326: a block saved into the frame at `o` of its partition's save area, whose bytes are written. -/
theorem saveBlock_spec {s s1 : State} {k o : Nat} (q : Bool) (hk : s.blocks.has k = true) {b : Block} (hb : s.block k = b) {l : Launch}
    (hl : s.launch b.launch = l) {n : Nat} (hn : frameSize s b = n) (ho : frameFor s l.part n = some o)
    (hw : areaWrite (s.freeBytes n).2 l.ctx (locateDie s l.part) (((saveArea s l.part).getD (0, 0)).1 + o) (s.freeBytes n).1 = some s1) :
    let s' := saveBlock s k q
    (s'.block k).save = (if q then .queued o n else .saved o n) ∧
    (s'.block k).withdrawn = ((s.cluster (blockCluster s k)).table.filter fun _ e => e.block == k).values ∧
    (∀ e ∈ (s'.cluster (blockCluster s k)).table.values, e.block ≠ k) ∧
    (s'.part l.part).frames = (s.part l.part).frames ++ [(o, n)] ∧ (∀ t, (s'.thread t).pc = (s.thread t).pc) ∧
    s'.hbm = s1.hbm ∧ s'.flats = s.flats := by
  intro s'
  have hm := (MemOnly.freeBytes s n).trans (MemOnly.areaWrite hw)
  have e : s' = saveBlock s k q := rfl
  unfold saveBlock at e
  simp only [hb, hl, hn, ho, hw, Option.bind, Option.map] at e
  have hs := (Settles.foldl Machine.settleSfu Settles.settleSfu (s1.blockLive k) s1).trans
    (Settles.foldl (fun s t => (release s t .dev false []).2) (fun s t => Settles.release s t _ _ _) b.threads _)
  generalize b.threads.foldl (fun s t => (release s t .dev false []).2) ((s1.blockLive k).foldl Machine.settleSfu s1) = s2 at e hs
  have hc : blockCluster s2 k = blockCluster s k := (hs.blockCluster k).trans (hm.blockCluster k)
  have hcl : s2.cluster (blockCluster s k) = s.cluster (blockCluster s k) := (hs.cluster _).trans (hm.cluster _)
  have hk2 : s2.blocks.has k = true := by rw [hs.blocks, hm.blocks]; exact hk
  rw [hc] at e
  rw [e]
  refine ⟨?_, ?_, ?_, ?_, fun t => ?_, hs.hbm, hs.flats.trans hm.flats⟩
  · rw [block_onBlock _ _ _ _ (by simpa using hk2)]; simp
  · rw [block_onBlock _ _ _ _ (by simpa using hk2)]; simp [hcl]
  · simp [Sparse.values, Sparse.filter]
  · simp [hs.part, hm.frames]
  · have := hs.pc t; rw [hm.thread] at this; simpa using this

/-- Areas written one after the other. -/
theorem MemOnly.areas {s s1 : State} {c d : Nat} {a : State → Nat → Nat} {b : State → Nat → List Byte} {l : List Nat}
    (h : l.foldl (fun (r : Option State) k => r.bind fun s => Machine.areaWrite s c d (a s k) (b s k)) (some s) = some s1) : MemOnly s s1 := by
  have key : ∀ (l : List Nat) (r : Option State), (∀ x, r = some x → MemOnly s x) → ∀ y,
      l.foldl (fun (r : Option State) k => r.bind fun s => Machine.areaWrite s c d (a s k) (b s k)) r = some y → MemOnly s y := by
    intro l
    induction l with
    | nil => intro r hr y hy; exact hr y hy
    | cons x l ih =>
        intro r hr y hy
        refine ih _ (fun z hz => ?_) y hy
        cases r with
        | none => cases hz
        | some w => exact (hr w rfl).trans (areaWrite hz)
  exact key l (some s) (fun x hx => Option.some.inj hx ▸ refl s) s1 h

/-- Where an area takes no byte (`areaWrite_unmapped`), several do not either. -/
theorem areas_unmapped {s : State} (hf : ∀ d ia, leafOf s d ia = none)
    (hx : ∀ d ia, leafIn ((s.die d).xlts.findD (homeSlice ia) .empty).cached ia = none) (hl : ∀ l, lineAt s l = none)
    {c d : Nat} {a : State → Nat → Nat} {b : State → Nat → List Byte} {l : List Nat} :
    l.foldl (fun (r : Option State) k => r.bind fun s => areaWrite s c d (a s k) (b s k)) (some s) = some s := by
  induction l with
  | nil => rfl
  | cons x l ih => simpa only [List.foldl_cons, Option.bind_some, areaWrite_unmapped hf hx hl] using ih

/-- R328: the planes of a die's tiles written to their area. -/
theorem MemOnly.putPlanes {s s1 : State} {p d c : Nat} (h : putPlanes s p d c = some s1) : MemOnly s s1 :=
  areas (a := fun s k => planesAt s p d k) (b := fun s k => bytesOfWords (planeWords (s.cluster k))) (l := clustersOn s p d) h

/-- The planes are dropped where their area takes no byte. -/
theorem putPlanes_unmapped {s : State} (hf : ∀ d ia, leafOf s d ia = none)
    (hx : ∀ d ia, leafIn ((s.die d).xlts.findD (homeSlice ia) .empty).cached ia = none) (hl : ∀ l, lineAt s l = none)
    (p d c : Nat) : putPlanes s p d c = some s :=
  areas_unmapped hf hx hl (a := fun s k => planesAt s p d k) (b := fun s k => bytesOfWords (planeWords (s.cluster k))) (l := clustersOn s p d)

end Sys2Proof.Machine
end

