-- ==== Sys2Proof/Laws/Xop.lean ====
section
/-! SUPPORT. The issue of an xop (R56, R166): each active thread's request joins its die's queue. -/

namespace Sys2Proof.Machine

/-- One thread's request. -/
def askOne (b : Bundle) (w : Wr) (t : Nat) (s : State) : State :=
  (({ s with ctr := s.ctr + 1 }).onThread t fun th => { th with pend := th.pend ++ [asked s.ctr b w] }).onDie
    (dieOf b.core) fun d => { d with xops := d.xops ++ [Xop.mk t s.ctr w.words w.flags] }

/-- The requests of threads, one after another. -/
theorem askAll_spec (b : Bundle) (w : Nat → Wr) : ∀ (ts : List Nat) (s : State), ts.Nodup →
    let s' := ts.foldl (fun s t => askOne b (w t) t s) s
    s.ctr ≤ s'.ctr ∧
    (∀ t ∈ ts, s.threads.has t = true → ∃ n, s.ctr ≤ n ∧ n < s'.ctr ∧
      s'.thread t = { s.thread t with pend := (s.thread t).pend ++ [asked n b (w t)] } ∧
      ⟨t, n, (w t).words, (w t).flags⟩ ∈ (s'.die (dieOf b.core)).xops) ∧
    (∀ t, t ∉ ts → s'.threads.find? t = s.threads.find? t) ∧
    (∃ l : List Xop, l.map Xop.tid = ts ∧ ∀ d, s'.die d =
      { s.die d with xops := (s.die d).xops ++ if d = dieOf b.core then l else [] }) ∧
    { s' with threads := s.threads, ctr := s.ctr, dies := s.dies } = s := by
  intro ts
  induction ts with
  | nil =>
      intro s _
      refine ⟨Nat.le_refl _, by simp, by simp, ⟨[], rfl, fun d => ?_⟩, rfl⟩
      simp
  | cons t ts ih =>
      intro s hn
      have hnt := (List.nodup_cons.1 hn).1
      obtain ⟨h0, h1, h2, ⟨l, hl, hd⟩, h4⟩ := ih (askOne b (w t) t s) (List.nodup_cons.1 hn).2
      have hdie : ∀ d, (askOne b (w t) t s).die d =
          { s.die d with xops := (s.die d).xops ++ if d = dieOf b.core then [⟨t, s.ctr, (w t).words, (w t).flags⟩] else [] } := by
        intro d
        by_cases h : d = dieOf b.core
        · subst h; simp [askOne, State.die, State.onDie, State.onThread]
        · have h' : ¬ dieOf b.core = d := fun e => h e.symm
          simp [askOne, State.die, State.onDie, State.onThread, h, h']
      have hfind : ∀ u, (askOne b (w t) t s).threads.find? u = if u = t then
          (s.threads.find? u).map fun th => { th with pend := th.pend ++ [asked s.ctr b (w t)] }
          else s.threads.find? u := by
        intro u
        by_cases h : u = t
        · subst h; simp [askOne, State.onThread, State.onDie]
        · have h' : ¬ t = u := fun e => h e.symm
          simp [askOne, State.onThread, State.onDie, h, h']
      have hctr : (askOne b (w t) t s).ctr = s.ctr + 1 := rfl
      rw [hctr] at h0
      refine ⟨by rw [List.foldl_cons]; omega, fun u hu hh => ?_, fun u hu => ?_, ⟨⟨t, s.ctr, (w t).words, (w t).flags⟩ :: l, by simp [hl], fun d => ?_⟩, ?_⟩
      · rw [List.foldl_cons]
        by_cases hut : u = t
        · subst hut
          have hx := h2 u hnt
          obtain ⟨x, hx'⟩ := (Sparse.has_iff _ _).1 hh
          refine ⟨s.ctr, Nat.le_refl _, by omega, ?_, ?_⟩
          · simp only [State.thread, Sparse.findD, hx, hfind, if_true, hx', Option.map_some, Option.getD_some]
          · rw [hd, hdie]; simp
        · have hu' : u ∈ ts := by
            rcases List.mem_cons.1 hu with e | e
            · exact absurd e hut
            · exact e
          have hh' : (askOne b (w t) t s).threads.has u = true := by
            rw [Sparse.has, hfind, if_neg hut]; exact hh
          obtain ⟨n, n1, n2, n3, n4⟩ := h1 u hu' hh'
          rw [hctr] at n1
          refine ⟨n, by omega, n2, ?_, n4⟩
          rw [n3]
          have : (askOne b (w t) t s).thread u = s.thread u := by simp only [State.thread, Sparse.findD, hfind, if_neg hut]
          rw [this]
      · rw [List.foldl_cons, h2 u fun e => hu (List.mem_cons_of_mem _ e), hfind, if_neg fun e => hu (by simp [e])]
      · rw [List.foldl_cons, hd d, hdie d]
        by_cases h : d = dieOf b.core <;> simp [h]
      · rw [List.foldl_cons]
        have := congrArg (fun x : State => { x with threads := s.threads, ctr := s.ctr, dies := s.dies }) h4
        exact this

/-- A thread's draws and registers under an empty result. -/
theorem applyNone (iw : Dword) (th : Thread) : Wr.none.apply iw th = th := by
  simp [Wr.none, Wr.apply]

/-- An xop, under the conditions of issue. -/
theorem completes_xop {i : Instr} {f : State → Env → Wr} {r : Env → Wr} (hx : ∀ s, exec i s = xop i s f)
    (hn : gatherMask i = none)
    (hf : ∀ s' s e' e, SameReads s' s e' e → f s' e' = r e) : CompletesXop i r := by
  intro b s h
  rw [hx]
  refine ⟨_, word_issues h hn _, ?_⟩
  have hmem : ∀ t ∈ activeIn i b s, t ∈ b.threads := fun t ht => (List.mem_filter.1 ht).1
  have hbody : xopBody i f (issuedAs i b s) (afterIssue b s) = (activeIn i b s).foldl (fun s' t => askOne b (r (envOf s t)) t s')
      (land i ((activeIn i b s).map fun t => (t, Wr.none)) (afterIssue b s)) := by
    unfold xopBody
    have e1 : (issuedAs i b s).active = activeIn i b s := rfl
    simp only [e1]
    have e2 : ((activeIn i b s).map fun t => (t, f (afterIssue b s) (envOf (afterIssue b s) t)))
        = (activeIn i b s).map fun t => (t, r (envOf s t)) :=
      List.map_congr_left fun t ht => by
        rw [afterIssue_env (hmem t ht) (h.may t (hmem t ht)).here, hf _ _ _ _ (sameReads_issued s b b.pc t)]
    rw [e2, List.foldl_map]
    rfl
  rw [hbody]
  obtain ⟨l1, l2, l3, l4⟩ := land_spec i (activeIn i b s) (fun _ => Wr.none) (afterIssue b s) (by
    intro t ht
    rw [afterIssue_thread_group, afterIssue_groups]
    exact (h.may t (hmem t ht)).grouped)
  generalize hs1 : land i ((activeIn i b s).map fun t => (t, Wr.none)) (afterIssue b s) = s1 at *
  have hthread : ∀ t ∈ activeIn i b s, s1.thread t = popped i s b.pc t := fun t ht => by
    rw [l1 t ht (by rw [afterIssue_has]; exact (h.may t (hmem t ht)).here), applyNone,
      afterIssue_thread (hmem t ht) (h.may t (hmem t ht)).here]
    rfl
  have hgroups : s1.groups = s.groups := by
    rw [← hs1]
    unfold land
    have key : ∀ (l : List Nat) (x : State), (l.map fun t => (t, Wr.none)).foldl (fun s r => orFlags s (s.thread r.1).group r.2.flags) x = x := by
      intro l
      induction l with
      | nil => intro _; rfl
      | cons t l ih => intro x; rw [List.map_cons, List.foldl_cons]; simp only [orFlags]; exact ih x
    rw [key]
    simp
  have hhas : ∀ t ∈ activeIn i b s, s1.threads.has t = true := fun t ht => by
    rw [← hs1]
    unfold land
    have key : ∀ (l : List Nat) (x : State), (l.map fun t => (t, Wr.none)).foldl (fun s r => orFlags s (s.thread r.1).group r.2.flags) x = x := by
      intro l
      induction l with
      | nil => intro _; rfl
      | cons t l ih => intro x; rw [List.map_cons, List.foldl_cons]; simp only [orFlags]; exact ih x
    rw [key]
    simp only [State.onThreads, Sparse.has_mapKV, afterIssue_has]
    exact (h.may t (hmem t ht)).here
  have hctr : s1.ctr = s.ctr := by have := congrArg State.ctr l4; exact this.trans (afterIssue_ctr b s)
  have hdies : s1.dies = s.dies := by have := congrArg State.dies l4; exact this.trans (afterIssue_dies b s)
  have hdie : ∀ d, s1.die d = s.die d := fun d => by simp only [State.die, hdies]
  obtain ⟨a0, a1, a2, ⟨l, al, ad⟩, a4⟩ := askAll_spec b (fun t => r (envOf s t)) (activeIn i b s) s1 (h.apart.filter _)
  refine ⟨fun t hm hg => ?_, fun t hm hg => ?_, ?_, ⟨l, al, fun d => ?_⟩, ?_⟩
  · have ha : t ∈ activeIn i b s := mem_activeIn.2 ⟨hm, hg⟩
    obtain ⟨n, n1, n2, n3, n4⟩ := a1 t ha (hhas t ha)
    refine ⟨n, by rw [← hctr]; exact n1, n2, ?_, n4⟩
    rw [n3, hthread t ha]
    simp only [popped, popPorts_pend]
    rfl
  · have ha : t ∉ activeIn i b s := fun hh => hg (mem_activeIn.1 hh).2
    rw [State.thread, Sparse.findD, a2 t ha, l2 t ha]
    exact afterIssue_thread hm (h.may t hm).here
  · rw [← hgroups]; have := congrArg State.groups a4; exact this
  · rw [ad d, hdie d]
  · refine Frame.of_afterIssue h.place (fun t hm => ?_) ?_
    · have ha : t ∉ activeIn i b s := fun hh => hm (hmem t hh)
      exact (a2 t ha).trans ((l2 t ha).trans (afterIssue_find?_ne hm))
    · have h1 := congrArg (fun x : State => { x with dies := s.dies, threads := (afterIssue b s).threads, groups := (afterIssue b s).groups, ctr := (afterIssue b s).ctr }) a4
      have h2 := congrArg (fun x : State => { x with dies := s.dies, ctr := (afterIssue b s).ctr }) l4
      have h3 : { afterIssue b s with dies := s.dies, ctr := (afterIssue b s).ctr } = afterIssue b s := by
        conv => lhs; rw [← afterIssue_dies b s]
      exact (h1.trans h2).trans h3

end Sys2Proof.Machine
end

