-- ==== Sys2Proof/Tests/Slice0.lean ====
section
/-! SUPPORT. The model's own tests: well-formedness, decoding of words that the spec writes out, single steps whose results
the spec gives, and witnesses: states that meet the hypotheses of the statements. -/

namespace Sys2Proof.Tests

set_option Elab.async false

open Sys2Proof.Machine

/-! ### A small state -/

/-- The guard of a word that has none. -/
def al : Guard := ⟨false, 7⟩

/-- One bundle of thread 0 at PC 0x100 on core 0. -/
def b0 : Bundle := ⟨0, 0x100, 0, [0]⟩

/-- Thread 0, lane 0 of group 0 of block 0 of launch 0, with 256 registers, behind no curtain. -/
def th0 : Thread := { Thread.fresh with nregs := 256, pc := 0x100 }

/-- A normal start, with thread 0, at level S, about to issue the word of `b0`. -/
def one : State := { State.reset with
  threads := ⟨[(0, th0)]⟩
  groups := ⟨[(0, { Group.fresh with priv := true })]⟩
  blocks := ⟨[(0, { Block.fresh with groups := [0], threads := [0] })]⟩
  launches := ⟨[(0, { Launch.fresh with priv := true, nextBlock := 1, blocks := [0] })]⟩
  issue := .bundle b0
  pkg := { Package.atReset with start := .normal, pcie := true } }

/-- The state with registers of the thread set. -/
def withV (s : State) (l : List (Nat × Word)) : State := s.onThread 0 fun th => { th with v := l.foldl (fun v e => v.set e.1 e.2) th.v }

/-- May thread 0 issue the word? -/
def mayAt (i : Instr) (s : State) : Bool :=
  let th := s.thread 0
  s.threads.has 0 && s.groups.has th.group && th.held == .ready
    && (!isPrivileged i || s.privOf 0) && (s.privOf 0 || th.freePass || !ibrkAt s (s.ctxOf 0) b0.pc) && !namesBeyond th (usesOf i)
    && !pendingHazard s 0 (usesOf i) (guardOf i) (guardHolds (guardOf i) th || (gatherMask i).isSome) && (replayHold s 0 i).isNone
    && (portFault s th (s.groupOf 0) (usesOf i)).isNone && (portHazard th (usesOf i)).isNone
    && !(isXop i && xopPending s 0) && !mustDrain s i 0

theorem mayIssue {i : Instr} {s : State} (h : mayAt i s = true) : MayIssue s i b0.pc 0 := by
  simp only [mayAt, Bool.and_eq_true, Bool.or_eq_true, Bool.not_eq_true', beq_iff_eq, Option.isNone_iff_eq_none, Bool.and_eq_false_iff] at h
  obtain ⟨⟨⟨⟨⟨⟨⟨⟨⟨⟨⟨h1, h2⟩, h3⟩, h4⟩, h5⟩, h6⟩, h7⟩, h8⟩, h9⟩, h10⟩, h11⟩, h12⟩ := h
  refine ⟨⟨h1, h2, h3, fun hp => h4.resolve_left (by simp [hp]), ?_, h6⟩, h7, fun _ => h8, fun _ => h9, fun _ => h10, fun _ hx => ?_,
    fun _ => h12⟩
  · rcases h5 with (h | h) | h
    · exact .inl h
    · exact .inr (.inl h)
    · exact .inr (.inr h)
  · simpa [hx] using h11

/-- May thread 0 issue the word, alone and active, and is there room for what it does? -/
def soleAt (i : Instr) (s : State) : Bool :=
  s.issue == .bundle b0 && s.coreOf 0 == 0 && i.wf && mayAt i s && guardHolds (guardOf i) (s.thread 0) && (roomless s i 0 [0]).1.isEmpty

theorem sole {i : Instr} {s : State} (h : soleAt i s = true) : Sole i b0 s 0 := by
  simp only [soleAt, Bool.and_eq_true, beq_iff_eq, List.isEmpty_iff] at h
  obtain ⟨⟨⟨⟨⟨h1, h2⟩, h3⟩, h4⟩, h5⟩, h6⟩ := h
  have hb : ∀ t ∈ b0.threads, t = 0 := fun t ht => by simpa [b0] using ht
  have ha : activeIn i b0 s = [0] := by simp [activeIn, b0, h5]
  refine ⟨⟨h1, by decide, by decide, by decide, fun t ht => ?_, h3, fun t ht => ?_, fun _ t ht u hu => ?_, ha ▸ h6⟩, ha⟩
  · obtain rfl := hb t ht; exact h2
  · obtain rfl := hb t ht; exact mayIssue h4
  · obtain rfl := hb t ht; obtain rfl := hb u hu; rfl

theorem may {i : Instr} {s : State} (h : soleAt i s = true) : Issuing i b0 s := (sole h).issuing

/-! ### Words written out field by field from the spec: R146, R154, R155, R159 and each entry; R294 for logit words -/

theorem test_decode_add : decode 0x001C_0501_0200_4001 = .ok (.add ⟨al, .u8, true, .v 5, .v 1, .v 2⟩) := by decide +kernel
theorem test_decode_addImm : decode 0x801C_0501_1234_4001 = .ok (.addImm ⟨al, .u8, true, .v 5, .v 1, .imm 0x1234⟩) := by decide +kernel
theorem test_decode_sub : decode 0x005C_0501_0200_3000 = .ok (.sub ⟨al, .i16, false, .v 5, .v 1, .v 2⟩) := by decide +kernel
theorem test_decode_subImm : decode 0x805C_0501_1234_3000 = .ok (.subImm ⟨al, .i16, false, .v 5, .v 1, .imm 0x1234⟩) := by decide +kernel
theorem test_decode_mul : decode 0x00DC_0501_0200_5001 = .ok (.mul ⟨al, .i8, true, .v 5, .v 1, .v 2⟩) := by decide +kernel
theorem test_decode_mulImm : decode 0x80DC_0501_1234_5001 = .ok (.mulImm ⟨al, .i8, true, .v 5, .v 1, .imm 0x1234⟩) := by decide +kernel
theorem test_decode_mulhi : decode 0x012C_0501_BC00_1C00 = .ok (.mulhi ⟨⟨true, 3⟩, .i32, false, .v 5, .v 1, .k 700⟩) := by decide +kernel
theorem test_decode_mulhiImm : decode 0x811C_FC2C_FFFF_0A00 = .ok (.mulhiImm ⟨al, .u32, false, .q 4, .k 300, .imm 0xFFFF⟩) := by decide +kernel
theorem test_decode_min_ : decode 0x022C_0501_BC00_1C00 = .ok (.min_ ⟨⟨true, 3⟩, .i32, false, .v 5, .v 1, .k 700⟩) := by decide +kernel
theorem test_decode_minImm : decode 0x821C_FC2C_FFFF_0A00 = .ok (.minImm ⟨al, .u32, false, .q 4, .k 300, .imm 0xFFFF⟩) := by decide +kernel
theorem test_decode_max_ : decode 0x026C_0501_BC00_1C00 = .ok (.max_ ⟨⟨true, 3⟩, .i32, false, .v 5, .v 1, .k 700⟩) := by decide +kernel
theorem test_decode_maxImm : decode 0x825C_FC2C_FFFF_0A00 = .ok (.maxImm ⟨al, .u32, false, .q 4, .k 300, .imm 0xFFFF⟩) := by decide +kernel
theorem test_decode_add3 : decode 0x009C_0501_0203_1001 = .ok (.add3 ⟨al, .i32, true, .v 5, .v 1, .v 2, .v 3⟩) := by decide +kernel
theorem test_decode_mad : decode 0x015C_0501_02FB_2000 = .ok (.mad ⟨al, .u16, false, .v 5, .v 1, .v 2, .q 3⟩) := by decide +kernel
theorem test_decode_shladd : decode 0x019C_0601_0200_0023 = .ok (.shladd ⟨al, .u32, true, 3, .v 6, .v 1, .v 2⟩) := by decide +kernel
theorem test_decode_abs_ : decode 0x01DC_0501_0000_3001 = .ok (.abs_ ⟨al, .i16, true, .v 5, .v 1⟩) := by decide +kernel
theorem test_decode_neg : decode 0x029C_0500_0300_5A00 = .ok (.neg ⟨al, .i8, false, .v 5, .k 259⟩) := by decide +kernel
theorem test_decode_shl : decode 0x02DC_0501_0200_6000 = .ok (.shl ⟨al, .v 5, .v 1, .v 2⟩) := by decide +kernel
theorem test_decode_shlImm : decode 0x82DC_0501_001F_6000 = .ok (.shlImm ⟨al, .v 5, .v 1, .imm 31⟩) := by decide +kernel
theorem test_decode_shr : decode 0x031C_0501_0200_6000 = .ok (.shr ⟨al, .v 5, .v 1, .v 2⟩) := by decide +kernel
theorem test_decode_shrImm : decode 0x831C_0501_001F_6000 = .ok (.shrImm ⟨al, .v 5, .v 1, .imm 31⟩) := by decide +kernel
theorem test_decode_sar : decode 0x035C_0501_0200_6000 = .ok (.sar ⟨al, .v 5, .v 1, .v 2⟩) := by decide +kernel
theorem test_decode_sarImm : decode 0x835C_0501_001F_6000 = .ok (.sarImm ⟨al, .v 5, .v 1, .imm 31⟩) := by decide +kernel
theorem test_decode_rot : decode 0x039C_0501_0200_6000 = .ok (.rot ⟨al, .v 5, .v 1, .v 2⟩) := by decide +kernel
theorem test_decode_rotImm : decode 0x839C_0501_001F_6000 = .ok (.rotImm ⟨al, .v 5, .v 1, .imm 31⟩) := by decide +kernel
theorem test_decode_and_ : decode 0x041C_0501_0200_6000 = .ok (.and_ ⟨al, .v 5, .v 1, .v 2⟩) := by decide +kernel
theorem test_decode_andImm : decode 0x841C_0501_001F_6000 = .ok (.andImm ⟨al, .v 5, .v 1, .imm 31⟩) := by decide +kernel
theorem test_decode_or_ : decode 0x045C_0501_0200_6000 = .ok (.or_ ⟨al, .v 5, .v 1, .v 2⟩) := by decide +kernel
theorem test_decode_orImm : decode 0x845C_0501_001F_6000 = .ok (.orImm ⟨al, .v 5, .v 1, .imm 31⟩) := by decide +kernel
theorem test_decode_xor_ : decode 0x049C_0501_0200_6000 = .ok (.xor_ ⟨al, .v 5, .v 1, .v 2⟩) := by decide +kernel
theorem test_decode_xorImm : decode 0x849C_0501_001F_6000 = .ok (.xorImm ⟨al, .v 5, .v 1, .imm 31⟩) := by decide +kernel
theorem test_decode_andn : decode 0x04DC_0501_0200_6000 = .ok (.andn ⟨al, .v 5, .v 1, .v 2⟩) := by decide +kernel
theorem test_decode_andnImm : decode 0x84DC_0501_001F_6000 = .ok (.andnImm ⟨al, .v 5, .v 1, .imm 31⟩) := by decide +kernel
theorem test_decode_not_ : decode 0x051C_0501_0000_6000 = .ok (.not_ ⟨al, .v 5, .v 1⟩) := by decide +kernel
theorem test_decode_popc : decode 0x059C_0501_0000_6000 = .ok (.popc ⟨al, .v 5, .v 1⟩) := by decide +kernel
theorem test_decode_clz : decode 0x05DC_0501_0000_6000 = .ok (.clz ⟨al, .v 5, .v 1⟩) := by decide +kernel
theorem test_decode_ctz : decode 0x061C_0501_0000_6000 = .ok (.ctz ⟨al, .v 5, .v 1⟩) := by decide +kernel
theorem test_decode_brev : decode 0x065C_0501_0000_6000 = .ok (.brev ⟨al, .v 5, .v 1⟩) := by decide +kernel
theorem test_decode_lut3 : decode 0x055C_0501_0203_6096 = .ok (.lut3 ⟨al, .v 5, .v 1, .v 2, .v 3, 0x96⟩) := by decide +kernel
theorem test_decode_bfe : decode 0x069C_0501_0200_1000 = .ok (.bfe ⟨al, true, .v 5, .v 1, .v 2⟩) := by decide +kernel
theorem test_decode_bfi : decode 0x06DC_0501_0203_6000 = .ok (.bfi ⟨al, .v 5, .v 1, .v 2, .v 3, 0⟩) := by decide +kernel
theorem test_decode_setp : decode 0x071C_0201_0300_5005 = .ok (.setp ⟨al, .i8, .ge, 2, .v 1, .v 3⟩) := by decide +kernel
theorem test_decode_setpImm : decode 0x871C_0100_000C_0002 = .ok (.setpImm ⟨al, .u32, .lt, 1, .v 0, .imm 12⟩) := by decide +kernel
theorem test_decode_sel : decode 0x075D_0402_0600_800B = .ok (.sel ⟨al, .mv, .f32, .v 4, .v 2, .v 6, 3, true⟩) := by decide +kernel
theorem test_decode_selImm : decode 0x875C_0402_3C00_9003 = .ok (.selImm ⟨al, .plain, .f16, .v 4, .v 2, .imm 0x3C00, 3, false⟩) := by decide +kernel
theorem test_decode_cvti : decode 0x079C_0501_0002_5001 = .ok (.cvti ⟨al, .i8, .u16, true, .v 5, .v 1⟩) := by decide +kernel
theorem test_decode_fadd : decode 0x081D_0402_0700_8124 = .ok (.fadd ⟨al, .mv, .f32, .sr, true, false, true, .v 4, .v 2, .v 7⟩) := by decide +kernel
theorem test_decode_faddImm : decode 0x881C_0402_3C00_9040 = .ok (.faddImm ⟨al, .plain, .f16, .rz, false, false, false, .v 4, .v 2, .imm 0x3C00⟩) := by decide +kernel
theorem test_decode_fsub : decode 0x085D_0402_0700_8124 = .ok (.fsub ⟨al, .mv, .f32, .sr, true, false, true, .v 4, .v 2, .v 7⟩) := by decide +kernel
theorem test_decode_fsubImm : decode 0x885C_0402_3C00_9040 = .ok (.fsubImm ⟨al, .plain, .f16, .rz, false, false, false, .v 4, .v 2, .imm 0x3C00⟩) := by decide +kernel
theorem test_decode_fmul : decode 0x089D_0402_0700_8124 = .ok (.fmul ⟨al, .mv, .f32, .sr, true, false, true, .v 4, .v 2, .v 7⟩) := by decide +kernel
theorem test_decode_fmulImm : decode 0x889C_0402_3C00_9040 = .ok (.fmulImm ⟨al, .plain, .f16, .rz, false, false, false, .v 4, .v 2, .imm 0x3C00⟩) := by decide +kernel
theorem test_decode_fmin : decode 0x091E_0402_0800_A028 = .ok (.fmin ⟨al, .mva, .bf16, .rne, true, true, false, .v 4, .v 2, .v 8⟩) := by decide +kernel
theorem test_decode_fminImm : decode 0x891C_0402_3F80_8000 = .ok (.fminImm ⟨al, .plain, .f32, .rne, false, false, false, .v 4, .v 2, .imm 0x3F80⟩) := by decide +kernel
theorem test_decode_fmax : decode 0x095E_0402_0800_A028 = .ok (.fmax ⟨al, .mva, .bf16, .rne, true, true, false, .v 4, .v 2, .v 8⟩) := by decide +kernel
theorem test_decode_fmaxImm : decode 0x895C_0402_3F80_8000 = .ok (.fmaxImm ⟨al, .plain, .f32, .rne, false, false, false, .v 4, .v 2, .imm 0x3F80⟩) := by decide +kernel
theorem test_decode_fma : decode 0x08DF_0408_0C03_81C2 = .ok (.fma ⟨al, .s4, .f32, .dyn, false, false, false, true, .v 4, .v 8, .v 12, .v 3⟩) := by decide +kernel
theorem test_decode_fscale : decode 0x0A1C_0402_0300_80C0 = .ok (.fscale ⟨al, .plain, .f32, .ru, false, false, false, .v 4, .v 2, .v 3⟩) := by decide +kernel
theorem test_decode_fscaleImm : decode 0x8A1C_0402_0005_8080 = .ok (.fscaleImm ⟨al, .plain, .f32, .rd, false, false, false, .v 4, .v 2, .imm 5⟩) := by decide +kernel
theorem test_decode_frnd : decode 0x0A5C_0402_0000_A060 = .ok (.frnd ⟨al, .plain, .bf16, .rz, true, false, .v 4, .v 2⟩) := by decide +kernel
theorem test_decode_fsetp : decode 0x099C_0602_0300_902F = .ok (.fsetp ⟨al, .plain, .f16, .nan, true, false, false, 6, .v 2, .v 3⟩) := by decide +kernel
theorem test_decode_fsetpImm : decode 0x899D_0602_4000_8083 = .ok (.fsetpImm ⟨al, .mv, .f32, .le, false, true, false, 6, .v 2, .imm 0x4000⟩) := by decide +kernel
theorem test_decode_fclass : decode 0x09DC_0402_0000_8000 = .ok (.fclass ⟨al, .plain, .f32, .rne, false, false, .v 4, .v 2⟩) := by decide +kernel
theorem test_decode_cvt : decode 0x0A9C_0402_0008_0011 = .ok (.cvt ⟨al, .plain, .e4m3, .f32, .rne, false, true, false, .v 4, .v 2⟩) := by decide +kernel
theorem test_decode_pkadd : decode 0x0B1C_0402_0300_B060 = .ok (.pkadd ⟨al, .plain, .f16x2, .rz, true, false, false, .v 4, .v 2, .v 3⟩) := by decide +kernel
theorem test_decode_pkaddImm : decode 0x8B1C_0402_3F80_C000 = .ok (.pkaddImm ⟨al, .plain, .bf16x2, .rne, false, false, false, .v 4, .v 2, .imm 0x3F80⟩) := by decide +kernel
theorem test_decode_pkmul : decode 0x0B5C_0402_0300_B060 = .ok (.pkmul ⟨al, .plain, .f16x2, .rz, true, false, false, .v 4, .v 2, .v 3⟩) := by decide +kernel
theorem test_decode_pkmulImm : decode 0x8B5C_0402_3F80_C000 = .ok (.pkmulImm ⟨al, .plain, .bf16x2, .rne, false, false, false, .v 4, .v 2, .imm 0x3F80⟩) := by decide +kernel
theorem test_decode_pkfma : decode 0x0B9C_0402_0305_C020 = .ok (.pkfma ⟨al, .plain, .bf16x2, .rne, true, false, false, false, .v 4, .v 2, .v 3, .v 5⟩) := by decide +kernel
theorem test_decode_dp2 : decode 0x0C1C_0402_0305_B000 = .ok (.dp2 ⟨al, .plain, .f16x2, .rne, false, false, false, false, .v 4, .v 2, .v 3, .v 5⟩) := by decide +kernel
theorem test_decode_dp4 : decode 0x0C5C_0402_0305_D080 = .ok (.dp4 ⟨al, .plain, .e4m3x4, .rd, false, false, false, false, .v 4, .v 2, .v 3, .v 5⟩) := by decide +kernel
theorem test_decode_ex2 : decode 0x0E1C_0402_0000_8020 = .ok (.ex2 ⟨al, .plain, .f32, .rne, true, false, .v 4, .v 2⟩) := by decide +kernel
theorem test_decode_lg2 : decode 0x0E5C_0402_0000_8020 = .ok (.lg2 ⟨al, .plain, .f32, .rne, true, false, .v 4, .v 2⟩) := by decide +kernel
theorem test_decode_rcp : decode 0x0E9C_0402_0000_8020 = .ok (.rcp ⟨al, .plain, .f32, .rne, true, false, .v 4, .v 2⟩) := by decide +kernel
theorem test_decode_rsq : decode 0x0EDC_0402_0000_8020 = .ok (.rsq ⟨al, .plain, .f32, .rne, true, false, .v 4, .v 2⟩) := by decide +kernel
theorem test_decode_sqt : decode 0x0F1C_0402_0000_8020 = .ok (.sqt ⟨al, .plain, .f32, .rne, true, false, .v 4, .v 2⟩) := by decide +kernel
theorem test_decode_sin : decode 0x0F5C_0402_0000_8020 = .ok (.sin ⟨al, .plain, .f32, .rne, true, false, .v 4, .v 2⟩) := by decide +kernel
theorem test_decode_cos : decode 0x0F9C_0402_0000_8020 = .ok (.cos ⟨al, .plain, .f32, .rne, true, false, .v 4, .v 2⟩) := by decide +kernel
theorem test_decode_tnh : decode 0x0FDC_0402_0000_8020 = .ok (.tnh ⟨al, .plain, .f32, .rne, true, false, .v 4, .v 2⟩) := by decide +kernel
theorem test_decode_lgt : decode 0x101C_0402_0000_8020 = .ok (.lgt ⟨al, .plain, .f32, .rne, true, false, .v 4, .v 2⟩) := by decide +kernel
theorem test_decode_dmake : decode 0x121D_0402_0300_9000 = .ok (.dmake ⟨al, .mv, .f16, false, 4, .v 2, .v 3⟩) := by decide +kernel
theorem test_decode_dmean : decode 0x125D_0502_0000_8000 = .ok (.dmean ⟨al, .mv, .f32, false, 5, .v 2⟩) := by decide +kernel
theorem test_decode_dvar : decode 0x129E_0504_0000_8020 = .ok (.dvar ⟨al, .mva, .f32, true, 5, .v 4⟩) := by decide +kernel
theorem test_decode_dlin : decode 0x12DE_0802_0000_8000 = .ok (.dlin ⟨al, .mva, .f32, false, 8, .v 2⟩) := by decide +kernel
theorem test_decode_dfold : decode 0x131D_0804_0000_8000 = .ok (.dfold ⟨al, .mv, .f32, false, 8, .v 4⟩) := by decide +kernel
theorem test_decode_dspread : decode 0x135F_0804_0005_8000 = .ok (.dspread ⟨al, .s4, .f32, false, 8, .v 4, 5⟩) := by decide +kernel
theorem test_decode_dsamp : decode 0x139D_0904_0006_8000 = .ok (.dsamp ⟨al, .mv, .f32, false, 9, .v 4, 6⟩) := by decide +kernel
theorem test_decode_bsinit : decode 0x141C_0802_0700_6000 = .ok (.bsinit ⟨al, 8, 2, .v 7⟩) := by decide +kernel
theorem test_decode_bsread : decode 0x145C_0508_0207_1000 = .ok (.bsread ⟨al, true, .v 5, 8, .v 2, .v 7⟩) := by decide +kernel
theorem test_decode_bspeek : decode 0x149C_0508_0207_0000 = .ok (.bspeek ⟨al, false, .v 5, 8, .v 2, .v 7⟩) := by decide +kernel
theorem test_decode_bsskip : decode 0x14DC_0008_0207_6000 = .ok (.bsskip ⟨al, 8, .v 2, .v 7⟩) := by decide +kernel
theorem test_decode_bsalign : decode 0x151C_0008_0000_6006 = .ok (.bsalign ⟨al, 8, 6⟩) := by decide +kernel
theorem test_decode_rngseed : decode 0x161C_0000_0200_6C00 = .ok (.rngseed ⟨al, 514⟩) := by decide +kernel
theorem test_decode_rndU32 : decode 0x165C_0400_0009_0001 = .ok (.rndU32 ⟨al, .v 4, 9, true⟩) := by decide +kernel
theorem test_decode_rndF32 : decode 0x169C_0500_0009_8000 = .ok (.rndF32 ⟨al, .v 5, 9, false⟩) := by decide +kernel
theorem test_decode_rndGauss : decode 0x16DC_0400_000A_8001 = .ok (.rndGauss ⟨al, .v 4, 10, true⟩) := by decide +kernel
theorem test_decode_rndCat : decode 0x171C_0502_0093_8000 = .ok (.rndCat ⟨al, .v 5, .v 2, 3, 9⟩) := by decide +kernel
theorem test_decode_laneIdx : decode 0x181C_0502_0307_6000 = .ok (.laneIdx ⟨al, .v 5, .v 2, .v 3, 7, .own⟩) := by decide +kernel
theorem test_decode_laneRise : decode 0x185C_0502_0307_6001 = .ok (.laneRise ⟨al, .v 5, .v 2, .v 3, 7, .zf⟩) := by decide +kernel
theorem test_decode_laneFall : decode 0x189C_0502_0307_6002 = .ok (.laneFall ⟨al, .v 5, .v 2, .v 3, 7, .wr⟩) := by decide +kernel
theorem test_decode_laneFlip : decode 0x18DC_0502_0307_6000 = .ok (.laneFlip ⟨al, .v 5, .v 2, .v 3, 7, .own⟩) := by decide +kernel
theorem test_decode_pollAny : decode 0x191C_0205_0007_6000 = .ok (.pollAny ⟨al, 2, 5, 7⟩) := by decide +kernel
theorem test_decode_pollAll : decode 0x195C_0306_000B_6000 = .ok (.pollAll ⟨al, 3, 6, 11⟩) := by decide +kernel
theorem test_decode_pollMap : decode 0x199C_0506_0007_6000 = .ok (.pollMap ⟨al, .v 5, 6, 7⟩) := by decide +kernel
theorem test_decode_fold : decode 0x19DC_0502_0007_6005 = .ok (.fold ⟨al, .xor, .b32, false, .v 5, .v 2, 7⟩) := by decide +kernel
theorem test_decode_pfx : decode 0x1A1C_0502_0007_800A = .ok (.pfx ⟨al, .max, .f32, true, .v 5, .v 2, 7⟩) := by decide +kernel
theorem test_decode_peers : decode 0x1A5C_0502_0007_6000 = .ok (.peers ⟨al, .v 5, .v 2, 7⟩) := by decide +kernel
theorem test_decode_mov : decode 0x1C1F_0804_0000_6000 = .ok (.mov ⟨al, .s4, .v 8, .v 4⟩) := by decide +kernel
theorem test_decode_movi : decode 0x9C5C_0500_3F80_8000 = .ok (.movi ⟨al, .f32, .v 5, 0x3F80⟩) := by decide +kernel
theorem test_decode_moviHi : decode 0x9C5C_0500_ABCD_6001 = .ok (.moviHi ⟨al, .v 5, 0xABCD⟩) := by decide +kernel
theorem test_decode_movk : decode 0x1C9C_0302_0000_6400 = .ok (.movk ⟨al, 515, .v 2⟩) := by decide +kernel
theorem test_decode_movsRead : decode 0x1CDC_0528_0000_6000 = .ok (.movsRead ⟨al, .v 5, .clkLo⟩) := by decide +kernel
theorem test_decode_movsWriteFsr : decode 0x1CDC_2002_0000_6001 = .ok (.movsWriteFsr ⟨al, .v 2⟩) := by decide +kernel
theorem test_decode_movpRead : decode 0x1D1C_0500_0000_6000 = .ok (.movpRead ⟨al, .v 5⟩) := by decide +kernel
theorem test_decode_movpWrite : decode 0x1D1C_0002_0000_6001 = .ok (.movpWrite ⟨al, .v 2⟩) := by decide +kernel
theorem test_decode_xfadd : decode 0x3C1C_0602_0400_7040 = .ok (.xfadd ⟨al, .rz, 6, .v 2, .v 4, 0⟩) := by decide +kernel
theorem test_decode_xfsub : decode 0x3C5C_0602_0400_7040 = .ok (.xfsub ⟨al, .rz, 6, .v 2, .v 4, 0⟩) := by decide +kernel
theorem test_decode_xfmul : decode 0x3C9C_0602_0400_7040 = .ok (.xfmul ⟨al, .rz, 6, .v 2, .v 4, 0⟩) := by decide +kernel
theorem test_decode_xfdiv : decode 0x3D1C_0602_0400_7040 = .ok (.xfdiv ⟨al, .rz, 6, .v 2, .v 4, 0⟩) := by decide +kernel
theorem test_decode_xfma : decode 0x3CDC_0602_0408_70C0 = .ok (.xfma ⟨al, .ru, 6, .v 2, .v 4, 8⟩) := by decide +kernel
theorem test_decode_xfsqt : decode 0x3D5C_0602_0000_7000 = .ok (.xfsqt ⟨al, .rne, 6, .v 2, .v 0, 0⟩) := by decide +kernel
theorem test_decode_xfcvt : decode 0x3D9C_0603_0001_7000 = .ok (.xfcvt ⟨al, .f64, .i32, .rne, .v 6, .v 3⟩) := by decide +kernel
theorem test_decode_xfsetp : decode 0x3DDC_0302_040E_7000 = .ok (.xfsetp ⟨al, .rne, .num, 3, .v 2, .v 4⟩) := by decide +kernel
theorem test_decode_xdiv : decode 0x3E1C_0502_0300_1000 = .ok (.xdiv ⟨al, true, .v 5, .v 2, .v 3⟩) := by decide +kernel
theorem test_decode_xrem : decode 0x3E5C_0502_0300_0000 = .ok (.xrem ⟨al, false, .v 5, .v 2, .v 3⟩) := by decide +kernel
theorem test_decode_xshl2 : decode 0x3E9C_0502_0300_6000 = .ok (.xshl2 ⟨al, .v 5, .v 2, .v 3⟩) := by decide +kernel
theorem test_decode_xshr2 : decode 0x3EDC_0502_0300_6000 = .ok (.xshr2 ⟨al, .v 5, .v 2, .v 3⟩) := by decide +kernel
theorem test_decode_xsar2 : decode 0x3F1C_0502_0300_6000 = .ok (.xsar2 ⟨al, .v 5, .v 2, .v 3⟩) := by decide +kernel
theorem test_decode_xmin2 : decode 0x3F5C_0502_0300_8000 = .ok (.xmin2 ⟨al, .v 5, .v 2, .v 3⟩) := by decide +kernel
theorem test_decode_xmax2 : decode 0x3F9C_0502_0300_8000 = .ok (.xmax2 ⟨al, .v 5, .v 2, .v 3⟩) := by decide +kernel
theorem test_decode_xcvt2 : decode 0x3FDC_0502_0000_1000 = .ok (.xcvt2 ⟨al, .v 5, .v 2⟩) := by decide +kernel
theorem test_decode_pairedWord : decode 0x6041_018C_03C2_40CC = .ok (.pairedWord ⟨⟨.fmac, 2, 8, 12, .f32, false, false⟩, ⟨.sub, 7, 9, 3, .i32, true, false⟩⟩) := by decide +kernel
theorem test_decode_ld : decode 0xC01C_1809_FFFF_0DA8 = .ok (.ld ⟨al, .b64, 1, .acq, .dev, 6, .v 2, 0xFFFF8⟩) := by decide +kernel
theorem test_decode_st : decode 0xC05C_1422_0000_D240 = .ok (.st ⟨al, .u16, 0, .rel, .sys, 5, .k 8, 6⟩) := by decide +kernel
theorem test_decode_ldk : decode 0xC09C_3022_0002_00C0 = .ok (.ldk ⟨al, .b128, 0, .none, .blk, 12, .k 8, 16⟩) := by decide +kernel
theorem test_decode_ldLoft : decode 0xC0DC_140C_0000_E020 = .ok (.ldLoft ⟨al, .i8, 0, .none, .blk, 5, .v 3, 7⟩) := by decide +kernel
theorem test_decode_prefetch : decode 0xC11C_0022_0008_0002 = .ok (.prefetch ⟨al, 2, .k 8, 64⟩) := by decide +kernel
theorem test_decode_icflush : decode 0xC15C_0008_0000_000C = .ok (.icflush ⟨al, 12, .v 2, 0⟩) := by decide +kernel
theorem test_decode_qcfg : decode 0xC19C_18A2_0000_0000 = .ok (.qcfg ⟨al, 6, 40⟩) := by decide +kernel
theorem test_decode_qclose : decode 0xC1DC_1400_0000_0000 = .ok (.qclose ⟨al, 5⟩) := by decide +kernel
theorem test_decode_atom : decode 0xC21C_1408_0DFF_8780 = .ok (.atom ⟨al, .cas, .u32, .ar, .cls, 5, .v 2, 0xFFC, .v 6⟩) := by decide +kernel
theorem test_decode_red : decode 0xC25C_0023_FE00_8A23 = .ok (.red ⟨al, .min, .i32, .rel, .die, 0, .k 8, 4, .imm 0xFF⟩) := by decide +kernel
theorem test_decode_svpost : decode 0xC29C_0008_0C00_8000 = .ok (.svpost ⟨al, 0, .v 2, 4, .v 6⟩) := by decide +kernel
theorem test_decode_svwait : decode 0xC2DC_1422_0200_0001 = .ok (.svwait ⟨al, 5, .k 8, 0, .imm 1⟩) := by decide +kernel
theorem test_decode_cpRows : decode 0xC41C_00A2_0000_0000 = .ok (.cpRows ⟨al, 40⟩) := by decide +kernel
theorem test_decode_cpReduce : decode 0xC45C_00C2_0000_0000 = .ok (.cpReduce ⟨al, 48⟩) := by decide +kernel
theorem test_decode_cpColl : decode 0xC51C_0082_0000_0000 = .ok (.cpColl ⟨al, 32⟩) := by decide +kernel
theorem test_decode_cpReady : decode 0xC55C_00C2_0000_0000 = .ok (.cpReady ⟨al, 48⟩) := by decide +kernel
theorem test_decode_cpSeal : decode 0xC49C_1400_0000_0000 = .ok (.cpSeal ⟨al, 5⟩) := by decide +kernel
theorem test_decode_cpWait : decode 0xC4DC_0000_0246_8001 = .ok (.cpWait ⟨al, .imm 0x1234⟩) := by decide +kernel
theorem test_decode_cuePop : decode 0xC61C_1822_0000_0000 = .ok (.cuePop ⟨al, 6, .k 8⟩) := by decide +kernel
theorem test_decode_cuePush : decode 0xC65C_1808_0000_0000 = .ok (.cuePush ⟨al, 6, .v 2⟩) := by decide +kernel
theorem test_decode_flatGive : decode 0xC69C_1400_022E_6000 = .ok (.flatGive ⟨al, 5, 3, 6, .imm 0x45⟩) := by decide +kernel
theorem test_decode_flatTake : decode 0xC6DC_1400_0000_6000 = .ok (.flatTake ⟨al, 5, 3⟩) := by decide +kernel
theorem test_decode_flatStat : decode 0xC75C_1400_0000_E000 = .ok (.flatStat ⟨al, 5, 7⟩) := by decide +kernel
theorem test_decode_flatShare : decode 0xC71C_1400_0056_6000 = .ok (.flatShare ⟨al, 5, 3, 6, 0xA⟩) := by decide +kernel
theorem test_decode_barBlk : decode 0xC81C_0000_C001_2000 = .ok (.barBlk ⟨al, 9, 24576⟩) := by decide +kernel
theorem test_decode_barCls : decode 0xC85C_0008_0000_0000 = .ok (.barCls ⟨al, .v 2⟩) := by decide +kernel
theorem test_decode_barDev : decode 0xC89C_0022_0000_0000 = .ok (.barDev ⟨al, .k 8⟩) := by decide +kernel
theorem test_decode_barDevSuper : decode 0xC8DC_0022_0000_0000 = .ok (.barDevSuper ⟨al, .k 8⟩) := by decide +kernel
theorem test_decode_barArrive : decode 0xC91C_1408_0000_0002 = .ok (.barArrive ⟨al, 5, .v 2, .dev⟩) := by decide +kernel
theorem test_decode_barWait : decode 0xC95C_1408_0000_0001 = .ok (.barWait ⟨al, 5, .v 2, .cls⟩) := by decide +kernel
theorem test_decode_join : decode 0xCA1C_0000_0001_6000 = .ok (.join ⟨al, 11⟩) := by decide +kernel
theorem test_decode_leave : decode 0xCA5C_0000_0001_6000 = .ok (.leave ⟨al, 11⟩) := by decide +kernel
theorem test_decode_wait : decode 0xCA9C_0000_0001_6000 = .ok (.wait ⟨al, 11⟩) := by decide +kernel
theorem test_decode_sign : decode 0xCB5C_0000_0001_E000 = .ok (.sign ⟨al, 15⟩) := by decide +kernel
theorem test_decode_cvwait : decode 0xCB9C_0000_0001_E000 = .ok (.cvwait ⟨al, 15⟩) := by decide +kernel
theorem test_decode_mset : decode 0xCADC_0052_0000_2000 = .ok (.mset ⟨al, 1, 20⟩) := by decide +kernel
theorem test_decode_mget : decode 0xCB1C_5000_0000_2000 = .ok (.mget ⟨al, 1, 20⟩) := by decide +kernel
theorem test_decode_bra : decode 0xCC24_0000_0000_6000 = .ok (.bra ⟨⟨true, 1⟩, 3⟩) := by decide +kernel
theorem test_decode_brx : decode 0xCC5C_0022_0000_0000 = .ok (.brx ⟨al, .k 8⟩) := by decide +kernel
theorem test_decode_call : decode 0xCC9C_1801_FFFF_C000 = .ok (.call ⟨al, 6, 0xFFFFE⟩) := by decide +kernel
theorem test_decode_ret : decode 0xCCDC_0018_0000_0000 = .ok (.ret ⟨al, .v 6⟩) := by decide +kernel
theorem test_decode_exit : decode 0xCD28_0000_0000_0000 = .ok (.exit ⟨true, 2⟩) := by decide +kernel
theorem test_decode_yield : decode 0xCD68_0000_0000_0000 = .ok (.yield ⟨true, 2⟩) := by decide +kernel
theorem test_decode_suspend : decode 0xCDA8_0000_0000_0000 = .ok (.suspend ⟨true, 2⟩) := by decide +kernel
theorem test_decode_nop : decode 0xCEE8_0000_0000_0000 = .ok (.nop ⟨true, 2⟩) := by decide +kernel
theorem test_decode_signal : decode 0xCDDC_000C_0000_A000 = .ok (.signal ⟨al, .v 3, 5⟩) := by decide +kernel
theorem test_decode_launch : decode 0xCE1C_1422_0007_E000 = .ok (.launch ⟨al, 5, .k 8, 63⟩) := by decide +kernel
theorem test_decode_trap : decode 0xCE5C_0000_0157_8000 = .ok (.trap ⟨al, 0xABC⟩) := by decide +kernel
theorem test_decode_brk : decode 0xCE9C_0000_0024_6000 = .ok (.brk ⟨al, 0x123⟩) := by decide +kernel
theorem test_decode_wlatch : decode 0xD01C_0082_0000_A001 = .ok (.wlatch ⟨al, 5, 32, true⟩) := by decide +kernel
theorem test_decode_mmpost : decode 0xD064_0082_0100_6011 = .ok (.mmpost ⟨⟨true, 1⟩, 3, 0x20, 128, true, false, false, false, true⟩) := by decide +kernel
theorem test_decode_accrd : decode 0xD09C_00C2_0000_0000 = .ok (.accrd ⟨al, 48⟩) := by decide +kernel
theorem test_decode_acccvt : decode 0xD11C_0102_0000_0000 = .ok (.acccvt ⟨al, 64⟩) := by decide +kernel
theorem test_decode_accclr : decode 0xD0DC_0000_0002_2000 = .ok (.accclr ⟨al, 17⟩) := by decide +kernel
theorem test_decode_accstat : decode 0xD15C_1400_0002_2001 = .ok (.accstat ⟨al, 5, 17, true⟩) := by decide +kernel
theorem test_decode_mxstat : decode 0xD19C_1400_0000_2001 = .ok (.mxstat ⟨al, 5, 1, .wb⟩) := by decide +kernel
theorem test_decode_csrr : decode 0xF81C_1800_1004_4000 = .ok (.csrr ⟨al, .v 6, 0x08022⟩) := by decide +kernel
theorem test_decode_csrw : decode 0xF85C_0010_1004_4000 = .ok (.csrw ⟨al, .v 4, 0x08022⟩) := by decide +kernel
theorem test_decode_eret : decode 0xF89C_1420_0000_0002 = .ok (.eret ⟨al, 5, .v 8, .pc⟩) := by decide +kernel
theorem test_decode_tlbinv : decode 0xF8DC_0008_0200_A000 = .ok (.tlbinv ⟨al, 0, .v 2, 5, 16, false⟩) := by decide +kernel
theorem test_decode_ctxsave : decode 0xF91C_1408_0001_2001 = .ok (.ctxsave ⟨al, 5, some (.v 2), 9⟩) := by decide +kernel
theorem test_decode_ctxload : decode 0xF95C_1400_0001_2000 = .ok (.ctxload ⟨al, 5, none, 9⟩) := by decide +kernel
theorem test_decode_halt : decode 0xF99C_1400_0001_2000 = .ok (.halt ⟨al, 5, 9⟩) := by decide +kernel
theorem test_decode_haltGo : decode 0xF99C_1400_0001_2001 = .ok (.haltGo ⟨al, 5, 9⟩) := by decide +kernel
theorem test_decode_dbgstep : decode 0xF9DC_1814_0000_0001 = .ok (.dbgstep ⟨al, 6, .v 5, true⟩) := by decide +kernel
theorem test_decode_tblarm : decode 0xFA1C_0022_0000_0013 = .ok (.tblarm ⟨al, 0, .k 8, 3, true⟩) := by decide +kernel
theorem test_decode_tblread : decode 0xFA5C_1400_0000_0000 = .ok (.tblread ⟨al, 5⟩) := by decide +kernel
theorem test_decode_dbgres : decode 0xFA9C_140C_0000_0001 = .ok (.dbgres ⟨al, 5, .v 3, .group⟩) := by decide +kernel
theorem test_decode_dbgcur : decode 0xFADC_140C_0000_0002 = .ok (.dbgcur ⟨al, 5, .v 3, .block⟩) := by decide +kernel
theorem test_decode_ctxkill : decode 0xFB1C_1400_0001_2000 = .ok (.ctxkill ⟨al, 5, 9⟩) := by decide +kernel
theorem test_decode_logitLdc : decodeLogit 0x0540_0000_0000_0000 = .ok (.logitLdc ⟨5, 0, 0, 0, false, .eq, 0⟩) := by decide +kernel
theorem test_decode_logitLdw : decodeLogit 0x0940_0000_0000_0000 = .ok (.logitLdw ⟨5, 0, 0, 0, false, .eq, 0⟩) := by decide +kernel
theorem test_decode_logitLdt : decodeLogit 0x0D40_0000_0000_0000 = .ok (.logitLdt ⟨5, 0, 0, 0, false, .eq, 0⟩) := by decide +kernel
theorem test_decode_logitLdb : decodeLogit 0x1140_0000_0000_0000 = .ok (.logitLdb ⟨5, 0, 0, 0, false, .eq, 0⟩) := by decide +kernel
theorem test_decode_logitLdd : decodeLogit 0x1940_0000_0000_0000 = .ok (.logitLdd ⟨5, 0, 0, 0, false, .eq, 0⟩) := by decide +kernel
theorem test_decode_logitLdg : decodeLogit 0x1400_0000_0000_0000 = .ok (.logitLdg ⟨0, 0, 0, 0, false, .eq, 0⟩) := by decide +kernel
theorem test_decode_logitLds : decodeLogit 0x1E40_0000_0000_000F = .ok (.logitLds ⟨9, 0, 0, 0, false, .eq, 15⟩) := by decide +kernel
theorem test_decode_logitSet : decodeLogit 0x23C0_0000_3F80_0000 = .ok (.logitSet ⟨15, 0, 0, 0, false, .eq, 1065353216⟩) := by decide +kernel
theorem test_decode_logitMode : decodeLogit 0x2400_0000_0000_0001 = .ok (.logitMode ⟨0, 0, 0, 0, false, .eq, 1⟩) := by decide +kernel
theorem test_decode_logitMov : decodeLogit 0x2948_0000_0000_0000 = .ok (.logitMov ⟨5, 2, 0, 0, false, .eq, 0⟩) := by decide +kernel
theorem test_decode_logitAdd : decodeLogit 0x2D48_C000_0000_0000 = .ok (.logitAdd ⟨5, 2, 3, 0, false, .eq, 0⟩) := by decide +kernel
theorem test_decode_logitMul : decodeLogit 0x3148_2C01_0000_0000 = .ok (.logitMul ⟨5, 2, 0, 11, true, .eq, 0⟩) := by decide +kernel
theorem test_decode_logitPen : decodeLogit 0x3548_E400_0000_0000 = .ok (.logitPen ⟨5, 2, 3, 9, false, .eq, 0⟩) := by decide +kernel
theorem test_decode_logitFpen : decodeLogit 0x3948_F800_0000_0000 = .ok (.logitFpen ⟨5, 2, 3, 14, false, .eq, 0⟩) := by decide +kernel
theorem test_decode_logitTemp : decodeLogit 0x3D48_2400_0000_0000 = .ok (.logitTemp ⟨5, 2, 0, 9, false, .eq, 0⟩) := by decide +kernel
theorem test_decode_logitClmp : decodeLogit 0x4148_3800_0000_0000 = .ok (.logitClmp ⟨5, 2, 0, 14, false, .eq, 0⟩) := by decide +kernel
theorem test_decode_logitKeep : decodeLogit 0x4408_240F_0000_0000 = .ok (.logitKeep ⟨0, 2, 0, 9, false, .nan, 0⟩) := by decide +kernel
theorem test_decode_logitTopk : decodeLogit 0x4808_2400_0000_0000 = .ok (.logitTopk ⟨0, 2, 0, 9, false, .eq, 0⟩) := by decide +kernel
theorem test_decode_logitTopp : decodeLogit 0x4C08_2400_0000_0000 = .ok (.logitTopp ⟨0, 2, 0, 9, false, .eq, 0⟩) := by decide +kernel
theorem test_decode_logitMinp : decodeLogit 0x5008_2400_0000_0000 = .ok (.logitMinp ⟨0, 2, 0, 9, false, .eq, 0⟩) := by decide +kernel
theorem test_decode_logitSort : decodeLogit 0x5408_0000_0000_0000 = .ok (.logitSort ⟨0, 2, 0, 0, false, .eq, 0⟩) := by decide +kernel
theorem test_decode_logitNorm : decodeLogit 0x5948_0000_0000_0000 = .ok (.logitNorm ⟨5, 2, 0, 0, false, .eq, 0⟩) := by decide +kernel
theorem test_decode_logitVmax : decodeLogit 0x5F48_0000_0000_0000 = .ok (.logitVmax ⟨13, 2, 0, 0, false, .eq, 0⟩) := by decide +kernel
theorem test_decode_logitDraw : decodeLogit 0x6008_0000_0000_0000 = .ok (.logitDraw ⟨0, 2, 0, 0, false, .eq, 0⟩) := by decide +kernel
theorem test_decode_logitAcc : decodeLogit 0x6408_C000_0000_0000 = .ok (.logitAcc ⟨0, 2, 3, 0, false, .eq, 0⟩) := by decide +kernel
theorem test_decode_logitPub : decodeLogit 0x6800_0000_0000_0000 = .ok (.logitPub ⟨0, 0, 0, 0, false, .eq, 0⟩) := by decide +kernel

/-! ### Ill-formed terms, refused: one for each check of WellFormed -/

theorem test_wf_integer_words :
    (Instr.add ⟨al, .f32, false, .v 5, .v 1, .v 2⟩).wf = false ∧ (Instr.add ⟨al, .u32, false, .v 5, .v 1, .imm 2⟩).wf = false ∧
    (Instr.addImm ⟨al, .u32, false, .v 5, .v 1, .v 2⟩).wf = false ∧ (Instr.add ⟨al, .u32, false, .v 248, .v 1, .v 2⟩).wf = false ∧
    (Instr.add ⟨al, .u32, false, .q 3, .v 1, .v 2⟩).wf = false ∧ (Instr.add ⟨al, .u32, false, .v 5, .q 4, .v 2⟩).wf = false ∧
    (Instr.add ⟨al, .u32, false, .v 5, .q 2, .q 2⟩).wf = false ∧ (Instr.add ⟨al, .u32, false, .v 5, .k 2, .v 2⟩).wf = false ∧
    (Instr.min_ ⟨al, .u32, true, .v 5, .v 1, .v 2⟩).wf = false ∧ (Instr.mulhi ⟨al, .u16, false, .v 5, .v 1, .v 2⟩).wf = false ∧
    (Instr.abs_ ⟨al, .u32, false, .v 5, .v 1⟩).wf = false ∧ (Instr.neg ⟨al, .i32, false, .v 5, .imm 1⟩).wf = false ∧
    (Instr.mad ⟨al, .u32, false, .v 5, .v 1, .v 2, .k 3⟩).wf = false ∧ (Instr.add3 ⟨al, .b32, false, .v 5, .v 1, .v 2, .v 3⟩).wf = false ∧
    (Instr.shladd ⟨al, .u32, true, 3, .v 5, .v 1, .v 2⟩).wf = false ∧ (Instr.shladd ⟨al, .u32, true, 3, .v 6, .v 1, .k 3⟩).wf = false ∧
    (Instr.shladd ⟨al, .b32, true, 3, .v 6, .v 1, .v 2⟩).wf = false ∧ (Instr.shladd ⟨al, .i16, false, 3, .v 6, .v 1, .v 2⟩).wf = false := by decide +kernel
theorem test_wf_logic_words :
    (Instr.not_ ⟨al, .v 5, .imm 1⟩).wf = false ∧ (Instr.shl ⟨al, .v 5, .v 1, .imm 2⟩).wf = false ∧ (Instr.lut3 ⟨al, .v 5, .v 1, .imm 2, .v 3, 1⟩).wf = false ∧
    (Instr.bfi ⟨al, .v 5, .v 1, .v 2, .v 3, 1⟩).wf = false ∧ (Instr.bfe ⟨al, false, .v 5, .q 1, .q 1⟩).wf = false ∧
    (Instr.setp ⟨al, .u32, .nan, 1, .v 1, .v 2⟩).wf = false ∧ (Instr.setp ⟨al, .f32, .lt, 1, .v 1, .v 2⟩).wf = false ∧
    (Instr.sel ⟨al, .plain, .u8, .v 4, .v 2, .v 6, 3, false⟩).wf = false ∧ (Instr.sel ⟨al, .mv, .f32, .v 4, .v 3, .v 6, 3, false⟩).wf = false ∧
    (Instr.cvti ⟨al, .u8, .f32, false, .v 5, .v 1⟩).wf = false := by decide +kernel
theorem test_wf_float_words :
    (Instr.fadd ⟨al, .plain, .e4m3, .rne, false, false, false, .v 4, .v 2, .v 3⟩).wf = false ∧ (Instr.fadd ⟨al, .plain, .f32, .rne, false, true, false, .v 4, .v 2, .v 3⟩).wf = false ∧
    (Instr.fadd ⟨al, .mva, .f32, .rne, false, false, false, .v 4, .v 2, .v 8⟩).wf = false ∧ (Instr.fadd ⟨al, .mv, .f32, .rne, false, false, false, .v 5, .v 2, .v 8⟩).wf = false ∧
    (Instr.fmin ⟨al, .plain, .f32, .rz, false, false, false, .v 4, .v 2, .v 3⟩).wf = false ∧ (Instr.fscale ⟨al, .mv, .f32, .rne, false, false, true, .v 4, .v 2, .v 3⟩).wf = false ∧
    (Instr.fma ⟨al, .plain, .f32, .rne, false, false, false, false, .v 4, .v 2, .imm 3, .v 1⟩).wf = false ∧ (Instr.fsetp ⟨al, .s4, .f32, .eq, false, false, false, 1, .v 4, .v 8⟩).wf = false ∧
    (Instr.fclass ⟨al, .mv, .f32, .rne, false, false, .v 4, .v 2⟩).wf = false ∧ (Instr.ex2 ⟨al, .plain, .f32, .rz, false, false, .v 4, .v 2⟩).wf = false ∧
    (Instr.pkadd ⟨al, .plain, .f32, .rne, false, false, false, .v 4, .v 2, .v 3⟩).wf = false ∧ (Instr.dp4 ⟨al, .plain, .f16x2, .rne, false, false, false, false, .v 4, .v 2, .v 3, .v 5⟩).wf = false ∧
    (Instr.cvt ⟨al, .plain, .f32, .f32, .rne, false, false, false, .v 4, .v 2⟩).wf = false ∧ (Instr.cvt ⟨al, .mv, .i32, .f32, .rne, false, false, false, .v 4, .v 2⟩).wf = false ∧
    (Instr.cvt ⟨al, .plain, .e4m3x4, .f32, .rne, false, false, false, .v 4, .v 2⟩).wf = false ∧ (Instr.cvt ⟨al, .plain, .u8, .i32, .rne, false, false, false, .v 4, .v 2⟩).wf = false := by decide +kernel
theorem test_wf_distributions_and_draws :
    (Instr.dmake ⟨al, .plain, .f32, false, 4, .v 2, .v 3⟩).wf = false ∧ (Instr.dmake ⟨al, .s4, .f32, false, 4, .v 2, .v 3⟩).wf = false ∧ (Instr.dmean ⟨al, .plain, .f32, false, 5, .v 2⟩).wf = false ∧
    (Instr.dlin ⟨al, .mv, .f32, false, 8, .v 2⟩).wf = false ∧ (Instr.dfold ⟨al, .mv, .f32, false, 8, .v 6⟩).wf = false ∧ (Instr.dspread ⟨al, .mv, .f32, false, 8, .v 4, 5⟩).wf = false ∧
    (Instr.dsamp ⟨al, .plain, .f32, false, 9, .v 4, 6⟩).wf = false ∧ (Instr.rndU32 ⟨al, .v 5, 9, true⟩).wf = false ∧ (Instr.rngseed ⟨al, 515⟩).wf = false ∧
    (Instr.bsinit ⟨al, 6, 2, .v 7⟩).wf = false ∧ (Instr.bsinit ⟨al, 8, 3, .v 7⟩).wf = false ∧ (Instr.bsread ⟨al, true, .v 5, 8, .v 3, .v 7⟩).wf = false ∧
    (Instr.bspeek ⟨al, true, .v 5, 8, .v 2, .q 4⟩).wf = false ∧ (Instr.bsskip ⟨al, 9, .v 2, .v 7⟩).wf = false ∧ (Instr.bsalign ⟨al, 8, 7⟩).wf = false := by decide +kernel
theorem test_wf_lanes_and_moves :
    (Instr.laneIdx ⟨al, .v 5, .v 2, .v 3, 12, .own⟩).wf = false ∧ (Instr.pollAny ⟨al, 2, 5, 12⟩).wf = false ∧ (Instr.pollMap ⟨al, .v 5, 6, 15⟩).wf = false ∧
    (Instr.fold ⟨al, .add, .b32, false, .v 5, .v 2, 7⟩).wf = false ∧ (Instr.fold ⟨al, .add, .u32, true, .v 5, .v 2, 7⟩).wf = false ∧ (Instr.pfx ⟨al, .and, .u32, true, .v 5, .v 2, 7⟩).wf = false ∧
    (Instr.peers ⟨al, .v 5, .imm 2, 7⟩).wf = false ∧ (Instr.rndCat ⟨al, .v 5, .v 2, 13, 9⟩).wf = false ∧ (Instr.mov ⟨al, .s4, .v 6, .v 4⟩).wf = false ∧ (Instr.movi ⟨al, .e2m1, .v 5, 1⟩).wf = false ∧
    (Instr.moviHi ⟨al, .q 1, 1⟩).wf = false ∧ (Instr.movk ⟨al, 5, .q 4⟩).wf = false ∧ (Instr.movpWrite ⟨al, .v 250⟩).wf = false ∧ (Instr.movsRead ⟨al, .v 249, .clkLo⟩).wf = false := by decide +kernel
theorem test_wf_compatibility_unit :
    (Instr.xfadd ⟨al, .rz, 5, .v 2, .v 4, 0⟩).wf = false ∧ (Instr.xfadd ⟨al, .rz, 6, .k 2, .v 4, 0⟩).wf = false ∧ (Instr.xfadd ⟨al, .rz, 6, .v 2, .v 4, 8⟩).wf = false ∧
    (Instr.xfma ⟨al, .ru, 6, .v 2, .v 4, 9⟩).wf = false ∧ (Instr.xfsqt ⟨al, .rne, 6, .v 2, .v 4, 0⟩).wf = false ∧ (Instr.xfcvt ⟨al, .f64, .f64, .rne, .v 6, .v 2⟩).wf = false ∧
    (Instr.xfcvt ⟨al, .f64, .i32, .rne, .v 5, .v 2⟩).wf = false ∧ (Instr.xfcvt ⟨al, .i32, .f64, .rne, .v 5, .v 3⟩).wf = false ∧ (Instr.xfsetp ⟨al, .rne, .num, 3, .v 2, .v 5⟩).wf = false ∧
    (Instr.xdiv ⟨al, true, .v 5, .v 2, .imm 3⟩).wf = false ∧ (Instr.xmin2 ⟨al, .v 5, .q 2, .q 2⟩).wf = false ∧ (Instr.xcvt2 ⟨al, .q 0, .v 2⟩).wf = false := by decide +kernel
theorem test_wf_pairs :
    (Instr.pairedWord ⟨⟨.fadd, 7, 8, 12, .f32, false, false⟩, ⟨.add, 7, 12, 3, .u32, true, false⟩⟩).wf = false ∧
    (Instr.pairedWord ⟨⟨.fadd, 7, 8, 12, .f32, true, false⟩, ⟨.add, 7, 9, 3, .u32, true, false⟩⟩).wf = false ∧
    (Instr.pairedWord ⟨⟨.fadd, 7, 8, 12, .f32, false, true⟩, ⟨.fadd, 7, 10, 2, .f32, true, true⟩⟩).wf = false ∧
    (Instr.pairedWord ⟨⟨.fadd, 7, 8, 12, .u32, false, false⟩, ⟨.add, 7, 9, 3, .u32, true, false⟩⟩).wf = false ∧
    (Instr.pairedWord ⟨⟨.nop, 7, 8, 12, .u32, false, false⟩, ⟨.add, 7, 9, 3, .u32, true, false⟩⟩).wf = false ∧
    (Instr.pairedWord ⟨⟨.fmac, 7, 8, 13, .f32, false, false⟩, ⟨.add, 7, 9, 3, .u32, true, false⟩⟩).wf = false ∧
    (Instr.pairedWord ⟨⟨.not, 7, 8, 12, .b32, false, true⟩, ⟨.add, 7, 9, 3, .u32, true, false⟩⟩).wf = false := by decide +kernel
theorem test_wf_memory_words :
    (Instr.ld ⟨al, .b64, 1, .none, .dev, 6, .v 2, 0⟩).wf = false ∧ (Instr.ld ⟨al, .b64, 1, .rel, .dev, 6, .v 2, 0⟩).wf = false ∧ (Instr.st ⟨al, .b64, 1, .acq, .dev, 6, .v 2, 0⟩).wf = false ∧
    (Instr.ld ⟨al, .b64, 0, .none, .blk, 5, .v 2, 0⟩).wf = false ∧ (Instr.ld ⟨al, .b32, 0, .none, .blk, 5, .v 3, 0⟩).wf = false ∧ (Instr.ldk ⟨al, .u8, 0, .none, .blk, 12, .k 8, 0⟩).wf = false ∧
    (Instr.ldk ⟨al, .b32, 0, .none, .blk, 12, .v 8, 0⟩).wf = false ∧ (Instr.ldk ⟨al, .b64, 0, .none, .blk, 13, .k 8, 0⟩).wf = false ∧ (Instr.ldLoft ⟨al, .i8, 0, .acq, .dev, 5, .v 3, 7⟩).wf = false ∧
    (Instr.prefetch ⟨al, 3, .k 8, 64⟩).wf = false ∧ (Instr.icflush ⟨al, 31, .v 2, 0⟩).wf = false ∧ (Instr.icflush ⟨al, 2, .v 2, 0⟩).wf = false ∧ (Instr.qcfg ⟨al, 6, 41⟩).wf = false ∧
    (Instr.qcfg ⟨al, 6, 252⟩).wf = false ∧ (Instr.atom ⟨al, .inc, .i32, .ar, .cls, 5, .v 2, 0, .v 6⟩).wf = false ∧ (Instr.atom ⟨al, .cas, .u32, .ar, .cls, 5, .v 2, 0, .v 7⟩).wf = false ∧
    (Instr.atom ⟨al, .add, .f32, .ar, .cls, 5, .v 2, 0, .imm 7⟩).wf = false ∧ (Instr.atom ⟨al, .add, .i64, .ar, .cls, 5, .v 2, 0, .v 8⟩).wf = false ∧
    (Instr.red ⟨al, .exch, .u32, .none, .blk, 0, .v 2, 0, .v 7⟩).wf = false ∧ (Instr.red ⟨al, .add, .u32, .acq, .blk, 0, .v 2, 0, .v 7⟩).wf = false ∧
    (Instr.red ⟨al, .add, .u32, .none, .blk, 5, .v 2, 0, .v 7⟩).wf = false ∧ (Instr.svpost ⟨al, 5, .v 2, 4, .v 6⟩).wf = false ∧ (Instr.svwait ⟨al, 248, .k 8, 0, .imm 1⟩).wf = false := by decide +kernel
theorem test_wf_queues_and_copies :
    (Instr.cpRows ⟨al, 41⟩).wf = false ∧ (Instr.cpColl ⟨al, 40⟩).wf = false ∧ (Instr.cpSeal ⟨al, 250⟩).wf = false ∧ (Instr.cpWait ⟨al, .r (.v 250)⟩).wf = false ∧
    (Instr.cuePop ⟨al, 7, .k 8⟩).wf = false ∧ (Instr.cuePush ⟨al, 6, .v 3⟩).wf = false ∧ (Instr.flatGive ⟨al, 5, 3, 6, .r (.v 255)⟩).wf = false ∧ (Instr.flatTake ⟨al, 255, 3⟩).wf = false ∧
    (Instr.flatShare ⟨al, 255, 3, 6, 1⟩).wf = false ∧ (Instr.barBlk ⟨al, 9, 24577⟩).wf = false ∧ (Instr.barCls ⟨al, .v 3⟩).wf = false ∧ (Instr.barArrive ⟨al, 255, .v 2, .dev⟩).wf = false ∧
    (Instr.join ⟨al, 12⟩).wf = false ∧ (Instr.mset ⟨al, 13, 20⟩).wf = false ∧ (Instr.call ⟨al, 7, 1⟩).wf = false ∧ (Instr.brx ⟨al, .k 9⟩).wf = false ∧ (Instr.signal ⟨al, .v 249, 5⟩).wf = false ∧
    (Instr.launch ⟨al, 5, .k 9, 63⟩).wf = false := by decide +kernel
theorem test_wf_matrix_and_privileged :
    (Instr.wlatch ⟨al, 5, 33, true⟩).wf = false ∧ (Instr.mmpost ⟨al, 3, 0x28, 128, true, false, false, false, true⟩).wf = false ∧ (Instr.mmpost ⟨al, 3, 0x20, 24577, true, false, false, false, true⟩).wf = false ∧
    (Instr.accstat ⟨al, 248, 17, true⟩).wf = false ∧ (Instr.mxstat ⟨al, 248, 1, .wb⟩).wf = false ∧ (Instr.csrr ⟨al, .k 6, 0x08022⟩).wf = false ∧ (Instr.csrw ⟨al, .v 5, 0x08022⟩).wf = false ∧
    (Instr.eret ⟨al, 5, .v 6, .pc⟩).wf = false ∧ (Instr.eret ⟨al, 248, .v 6, .skip⟩).wf = false ∧ (Instr.tlbinv ⟨al, 0, .v 2, 5, 15, false⟩).wf = false ∧ (Instr.tlbinv ⟨al, 0, .v 2, 5, 48, false⟩).wf = false ∧
    (Instr.ctxsave ⟨al, 5, some (.v 3), 9⟩).wf = false ∧ (Instr.halt ⟨al, 248, 9⟩).wf = false ∧ (Instr.dbgstep ⟨al, 6, .v 248, true⟩).wf = false ∧ (Instr.tblarm ⟨al, 0, .k 9, 3, true⟩).wf = false ∧
    (Instr.tblread ⟨al, 248⟩).wf = false ∧ (Instr.dbgcur ⟨al, 248, .v 3, .block⟩).wf = false := by decide +kernel
theorem test_wf_logit_words :
    (Instr.logitLdc ⟨8, 0, 0, 0, false, .eq, 0⟩).wf = false ∧ (Instr.logitLdc ⟨0, 1, 0, 0, false, .eq, 0⟩).wf = false ∧ (Instr.logitLds ⟨0, 0, 0, 0, false, .eq, 16⟩).wf = false ∧
    (Instr.logitMode ⟨0, 0, 0, 0, false, .eq, 2⟩).wf = false ∧ (Instr.logitAdd ⟨0, 0, 1, 1, true, .eq, 0⟩).wf = false ∧ (Instr.logitAdd ⟨0, 0, 1, 1, false, .eq, 0⟩).wf = false ∧
    (Instr.logitFpen ⟨0, 0, 0, 15, false, .eq, 0⟩).wf = false ∧ (Instr.logitClmp ⟨0, 0, 0, 15, false, .eq, 0⟩).wf = false ∧ (Instr.logitKeep ⟨0, 0, 0, 1, true, .lt, 0⟩).wf = false ∧
    (Instr.logitTopk ⟨1, 0, 0, 1, false, .eq, 0⟩).wf = false ∧ (Instr.logitAcc ⟨0, 8, 0, 0, false, .eq, 0⟩).wf = false ∧ (Instr.logitPub ⟨0, 0, 0, 0, false, .lt, 0⟩).wf = false := by decide +kernel
/-- R163: the decoder refuses words of such terms and of no opcode, by name. -/
theorem test_decode_refuses : (decode 0x001C_FA01_0200_0000).toOption = none ∧ (decode 0x001C_0501_0200_0002).toOption = none ∧ (decode 0xFFFF_FFFF_FFFF_FFFF).toOption = none ∧
    (decode 0x6800_0000_0000_0000).toOption = none ∧ (decodeLogit 0x7FFF_FFFF_FFFF_FFFF).toOption = none := by decide +kernel

/-! ### Words that thread 0 may issue, alone and active: the premise `Sole`, and `Issuing` with it -/

theorem may_IntegerArithmetic :
    Sole (.add ⟨al, .u8, true, .v 5, .v 1, .v 2⟩) b0 one 0 ∧
    Sole (.addImm ⟨al, .u8, true, .v 5, .v 1, .imm 0x1234⟩) b0 one 0 ∧
    Sole (.sub ⟨al, .i16, false, .v 5, .v 1, .v 2⟩) b0 one 0 ∧
    Sole (.subImm ⟨al, .i16, false, .v 5, .v 1, .imm 0x1234⟩) b0 one 0 ∧
    Sole (.mul ⟨al, .i8, true, .v 5, .v 1, .v 2⟩) b0 one 0 ∧
    Sole (.mulImm ⟨al, .i8, true, .v 5, .v 1, .imm 0x1234⟩) b0 one 0 ∧
    Sole (.mulhi ⟨⟨true, 3⟩, .i32, false, .v 5, .v 1, .k 700⟩) b0 one 0 ∧
    Sole (.mulhiImm ⟨al, .u32, false, .v 5, .v 1, .imm 0xFFFF⟩) b0 one 0 ∧
    Sole (.min_ ⟨⟨true, 3⟩, .i32, false, .v 5, .v 1, .k 700⟩) b0 one 0 ∧
    Sole (.minImm ⟨al, .u32, false, .v 5, .v 1, .imm 0xFFFF⟩) b0 one 0 ∧
    Sole (.max_ ⟨⟨true, 3⟩, .i32, false, .v 5, .v 1, .k 700⟩) b0 one 0 ∧
    Sole (.maxImm ⟨al, .u32, false, .v 5, .v 1, .imm 0xFFFF⟩) b0 one 0 ∧
    Sole (.add3 ⟨al, .i32, true, .v 5, .v 1, .v 2, .v 3⟩) b0 one 0 ∧
    Sole (.mad ⟨al, .u16, false, .v 5, .v 1, .v 2, .v 3⟩) b0 one 0 ∧
    Sole (.abs_ ⟨al, .i16, true, .v 5, .v 1⟩) b0 one 0 ∧
    Sole (.neg ⟨al, .i8, false, .v 5, .k 259⟩) b0 one 0 ∧
    Sole (.cvti ⟨al, .i8, .u16, true, .v 5, .v 1⟩) b0 one 0 :=
  ⟨sole (by decide +kernel), sole (by decide +kernel), sole (by decide +kernel), sole (by decide +kernel), sole (by decide +kernel), sole (by decide +kernel), sole (by decide +kernel), sole (by decide +kernel), sole (by decide +kernel), sole (by decide +kernel), sole (by decide +kernel), sole (by decide +kernel), sole (by decide +kernel), sole (by decide +kernel), sole (by decide +kernel), sole (by decide +kernel), sole (by decide +kernel)⟩

theorem may_LogicShiftsAndFields :
    Sole (.shl ⟨al, .v 5, .v 1, .v 2⟩) b0 one 0 ∧
    Sole (.shlImm ⟨al, .v 5, .v 1, .imm 31⟩) b0 one 0 ∧
    Sole (.shr ⟨al, .v 5, .v 1, .v 2⟩) b0 one 0 ∧
    Sole (.shrImm ⟨al, .v 5, .v 1, .imm 31⟩) b0 one 0 ∧
    Sole (.sar ⟨al, .v 5, .v 1, .v 2⟩) b0 one 0 ∧
    Sole (.sarImm ⟨al, .v 5, .v 1, .imm 31⟩) b0 one 0 ∧
    Sole (.rot ⟨al, .v 5, .v 1, .v 2⟩) b0 one 0 ∧
    Sole (.rotImm ⟨al, .v 5, .v 1, .imm 31⟩) b0 one 0 ∧
    Sole (.and_ ⟨al, .v 5, .v 1, .v 2⟩) b0 one 0 ∧
    Sole (.andImm ⟨al, .v 5, .v 1, .imm 31⟩) b0 one 0 ∧
    Sole (.or_ ⟨al, .v 5, .v 1, .v 2⟩) b0 one 0 ∧
    Sole (.orImm ⟨al, .v 5, .v 1, .imm 31⟩) b0 one 0 ∧
    Sole (.xor_ ⟨al, .v 5, .v 1, .v 2⟩) b0 one 0 ∧
    Sole (.xorImm ⟨al, .v 5, .v 1, .imm 31⟩) b0 one 0 ∧
    Sole (.andn ⟨al, .v 5, .v 1, .v 2⟩) b0 one 0 ∧
    Sole (.andnImm ⟨al, .v 5, .v 1, .imm 31⟩) b0 one 0 ∧
    Sole (.not_ ⟨al, .v 5, .v 1⟩) b0 one 0 ∧
    Sole (.shladd ⟨al, .u32, true, 3, .v 6, .v 1, .v 2⟩) b0 one 0 ∧
    Sole (.lut3 ⟨al, .v 5, .v 1, .v 2, .v 3, 0x96⟩) b0 one 0 ∧
    Sole (.brev ⟨al, .v 5, .v 1⟩) b0 one 0 ∧
    Sole (.popc ⟨al, .v 5, .v 1⟩) b0 one 0 ∧
    Sole (.clz ⟨al, .v 5, .v 1⟩) b0 one 0 ∧
    Sole (.ctz ⟨al, .v 5, .v 1⟩) b0 one 0 ∧
    Sole (.bfe ⟨al, true, .v 5, .v 1, .v 2⟩) b0 one 0 ∧
    Sole (.bfi ⟨al, .v 5, .v 1, .v 2, .v 3, 0⟩) b0 one 0 :=
  ⟨sole (by decide +kernel), sole (by decide +kernel), sole (by decide +kernel), sole (by decide +kernel), sole (by decide +kernel), sole (by decide +kernel), sole (by decide +kernel), sole (by decide +kernel), sole (by decide +kernel), sole (by decide +kernel), sole (by decide +kernel), sole (by decide +kernel), sole (by decide +kernel), sole (by decide +kernel), sole (by decide +kernel), sole (by decide +kernel), sole (by decide +kernel), sole (by decide +kernel), sole (by decide +kernel), sole (by decide +kernel), sole (by decide +kernel), sole (by decide +kernel), sole (by decide +kernel), sole (by decide +kernel), sole (by decide +kernel)⟩

theorem may_CompareAndSelect :
    Sole (.setp ⟨al, .i8, .ge, 2, .v 1, .v 3⟩) b0 one 0 ∧
    Sole (.setpImm ⟨al, .u32, .lt, 1, .v 0, .imm 12⟩) b0 one 0 ∧
    Sole (.sel ⟨al, .mv, .f32, .v 4, .v 2, .v 6, 3, true⟩) b0 one 0 ∧
    Sole (.selImm ⟨al, .plain, .f16, .v 4, .v 2, .imm 0x3C00, 3, false⟩) b0 one 0 :=
  ⟨sole (by decide +kernel), sole (by decide +kernel), sole (by decide +kernel), sole (by decide +kernel)⟩

theorem may_FloatArithmetic :
    Sole (.fadd ⟨al, .mv, .f32, .sr, true, false, true, .v 4, .v 2, .v 7⟩) b0 one 0 ∧
    Sole (.faddImm ⟨al, .plain, .f16, .rz, false, false, false, .v 4, .v 2, .imm 0x3C00⟩) b0 one 0 ∧
    Sole (.fsub ⟨al, .mv, .f32, .sr, true, false, true, .v 4, .v 2, .v 7⟩) b0 one 0 ∧
    Sole (.fsubImm ⟨al, .plain, .f16, .rz, false, false, false, .v 4, .v 2, .imm 0x3C00⟩) b0 one 0 ∧
    Sole (.fmul ⟨al, .mv, .f32, .sr, true, false, true, .v 4, .v 2, .v 7⟩) b0 one 0 ∧
    Sole (.fmulImm ⟨al, .plain, .f16, .rz, false, false, false, .v 4, .v 2, .imm 0x3C00⟩) b0 one 0 ∧
    Sole (.fmin ⟨al, .mva, .bf16, .rne, true, true, false, .v 4, .v 2, .v 8⟩) b0 one 0 ∧
    Sole (.fminImm ⟨al, .plain, .f32, .rne, false, false, false, .v 4, .v 2, .imm 0x3F80⟩) b0 one 0 ∧
    Sole (.fmax ⟨al, .mva, .bf16, .rne, true, true, false, .v 4, .v 2, .v 8⟩) b0 one 0 ∧
    Sole (.fmaxImm ⟨al, .plain, .f32, .rne, false, false, false, .v 4, .v 2, .imm 0x3F80⟩) b0 one 0 ∧
    Sole (.fma ⟨al, .s4, .f32, .dyn, false, false, false, true, .v 4, .v 8, .v 12, .v 3⟩) b0 one 0 ∧
    Sole (.fscale ⟨al, .plain, .f32, .ru, false, false, false, .v 4, .v 2, .v 3⟩) b0 one 0 ∧
    Sole (.fscaleImm ⟨al, .plain, .f32, .rd, false, false, false, .v 4, .v 2, .imm 5⟩) b0 one 0 ∧
    Sole (.frnd ⟨al, .plain, .bf16, .rz, true, false, .v 4, .v 2⟩) b0 one 0 :=
  ⟨sole (by decide +kernel), sole (by decide +kernel), sole (by decide +kernel), sole (by decide +kernel), sole (by decide +kernel), sole (by decide +kernel), sole (by decide +kernel), sole (by decide +kernel), sole (by decide +kernel), sole (by decide +kernel), sole (by decide +kernel), sole (by decide +kernel), sole (by decide +kernel), sole (by decide +kernel)⟩

theorem may_FloatCompareAndFunctions :
    Sole (.fsetp ⟨al, .plain, .f16, .nan, true, false, false, 6, .v 2, .v 3⟩) b0 one 0 ∧
    Sole (.fsetpImm ⟨al, .mv, .f32, .le, false, true, false, 6, .v 2, .imm 0x4000⟩) b0 one 0 ∧
    Sole (.fclass ⟨al, .plain, .f32, .rne, false, false, .v 4, .v 2⟩) b0 one 0 ∧
    Sole (.ex2 ⟨al, .plain, .f32, .rne, true, false, .v 4, .v 2⟩) b0 one 0 ∧
    Sole (.lg2 ⟨al, .plain, .f32, .rne, true, false, .v 4, .v 2⟩) b0 one 0 ∧
    Sole (.rcp ⟨al, .plain, .f32, .rne, true, false, .v 4, .v 2⟩) b0 one 0 ∧
    Sole (.rsq ⟨al, .plain, .f32, .rne, true, false, .v 4, .v 2⟩) b0 one 0 ∧
    Sole (.sqt ⟨al, .plain, .f32, .rne, true, false, .v 4, .v 2⟩) b0 one 0 ∧
    Sole (.sin ⟨al, .plain, .f32, .rne, true, false, .v 4, .v 2⟩) b0 one 0 ∧
    Sole (.cos ⟨al, .plain, .f32, .rne, true, false, .v 4, .v 2⟩) b0 one 0 ∧
    Sole (.tnh ⟨al, .plain, .f32, .rne, true, false, .v 4, .v 2⟩) b0 one 0 ∧
    Sole (.lgt ⟨al, .plain, .f32, .rne, true, false, .v 4, .v 2⟩) b0 one 0 :=
  ⟨sole (by decide +kernel), sole (by decide +kernel), sole (by decide +kernel), sole (by decide +kernel), sole (by decide +kernel), sole (by decide +kernel), sole (by decide +kernel), sole (by decide +kernel), sole (by decide +kernel), sole (by decide +kernel), sole (by decide +kernel), sole (by decide +kernel)⟩

theorem may_ConversionsAndPacked :
    Sole (.pkadd ⟨al, .plain, .f16x2, .rz, true, false, false, .v 4, .v 2, .v 3⟩) b0 one 0 ∧
    Sole (.pkaddImm ⟨al, .plain, .bf16x2, .rne, false, false, false, .v 4, .v 2, .imm 0x3F80⟩) b0 one 0 ∧
    Sole (.pkmul ⟨al, .plain, .f16x2, .rz, true, false, false, .v 4, .v 2, .v 3⟩) b0 one 0 ∧
    Sole (.pkmulImm ⟨al, .plain, .bf16x2, .rne, false, false, false, .v 4, .v 2, .imm 0x3F80⟩) b0 one 0 ∧
    Sole (.pkfma ⟨al, .plain, .bf16x2, .rne, true, false, false, false, .v 4, .v 2, .v 3, .v 5⟩) b0 one 0 ∧
    Sole (.dp2 ⟨al, .plain, .f16x2, .rne, false, false, false, false, .v 4, .v 2, .v 3, .v 5⟩) b0 one 0 ∧
    Sole (.dp4 ⟨al, .plain, .e4m3x4, .rd, false, false, false, false, .v 4, .v 2, .v 3, .v 5⟩) b0 one 0 ∧
    Sole (.cvt ⟨al, .plain, .e4m3, .f32, .rne, false, true, false, .v 4, .v 2⟩) b0 one 0 :=
  ⟨sole (by decide +kernel), sole (by decide +kernel), sole (by decide +kernel), sole (by decide +kernel), sole (by decide +kernel), sole (by decide +kernel), sole (by decide +kernel), sole (by decide +kernel)⟩

theorem may_DistributionsAndDraws :
    Sole (.dmake ⟨al, .mv, .f16, false, 4, .v 2, .v 3⟩) b0 one 0 ∧
    Sole (.dmean ⟨al, .mv, .f32, false, 5, .v 2⟩) b0 one 0 ∧
    Sole (.dvar ⟨al, .mva, .f32, true, 5, .v 4⟩) b0 one 0 ∧
    Sole (.dfold ⟨al, .mv, .f32, false, 8, .v 4⟩) b0 one 0 ∧
    Sole (.dlin ⟨al, .mva, .f32, false, 8, .v 2⟩) b0 one 0 ∧
    Sole (.rndU32 ⟨al, .v 4, 9, true⟩) b0 one 0 ∧
    Sole (.rndF32 ⟨al, .v 5, 9, false⟩) b0 one 0 ∧
    Sole (.rndGauss ⟨al, .v 4, 10, true⟩) b0 one 0 ∧
    Sole (.dspread ⟨al, .s4, .f32, false, 8, .v 4, 5⟩) b0 one 0 ∧
    Sole (.dsamp ⟨al, .mv, .f32, false, 9, .v 4, 6⟩) b0 one 0 ∧
    Sole (.rngseed ⟨al, 514⟩) b0 one 0 :=
  ⟨sole (by decide +kernel), sole (by decide +kernel), sole (by decide +kernel), sole (by decide +kernel), sole (by decide +kernel), sole (by decide +kernel), sole (by decide +kernel), sole (by decide +kernel), sole (by decide +kernel), sole (by decide +kernel), sole (by decide +kernel)⟩

theorem may_BitStreams :
    Sole (.bsinit ⟨al, 8, 2, .v 7⟩) b0 one 0 ∧
    Sole (.bspeek ⟨al, false, .v 5, 8, .v 2, .v 7⟩) b0 one 0 ∧
    Sole (.bsread ⟨al, true, .v 5, 8, .v 2, .v 7⟩) b0 one 0 ∧
    Sole (.bsskip ⟨al, 8, .v 2, .v 7⟩) b0 one 0 ∧
    Sole (.bsalign ⟨al, 8, 6⟩) b0 one 0 :=
  ⟨sole (by decide +kernel), sole (by decide +kernel), sole (by decide +kernel), sole (by decide +kernel), sole (by decide +kernel)⟩

/-- R205: a signed field whose top bit is set, at widths 1 and 32. -/
theorem may_BitStreams_fields :
    fieldWord true 1 1 = 0xFFFF_FFFF ∧ fieldWord true 32 0x8000_0000 = 0x8000_0000 ∧ fieldWord true 5 15 = 15 ∧
    fieldWord true 0 0 = 0 := by decide +kernel

theorem may_RegisterMoves :
    Sole (.mov ⟨al, .s4, .v 8, .v 4⟩) b0 one 0 ∧
    Sole (.movi ⟨al, .f32, .v 5, 0x3F80⟩) b0 one 0 ∧
    Sole (.moviHi ⟨al, .v 5, 0xABCD⟩) b0 one 0 ∧
    Sole (.movpRead ⟨al, .v 5⟩) b0 one 0 ∧
    Sole (.movpWrite ⟨al, .v 2⟩) b0 one 0 ∧
    Sole (.movk ⟨al, 515, .v 2⟩) b0 one 0 ∧
    Sole (.movsRead ⟨al, .v 5, .clkLo⟩) b0 one 0 ∧
    Sole (.movsWriteFsr ⟨al, .v 2⟩) b0 one 0 :=
  ⟨sole (by decide +kernel), sole (by decide +kernel), sole (by decide +kernel), sole (by decide +kernel), sole (by decide +kernel), sole (by decide +kernel), sole (by decide +kernel), sole (by decide +kernel)⟩

theorem may_CompatibilityUnit :
    Sole (.xfadd ⟨al, .rz, 6, .v 2, .v 4, 0⟩) b0 one 0 ∧
    Sole (.xfsub ⟨al, .rz, 6, .v 2, .v 4, 0⟩) b0 one 0 ∧
    Sole (.xfmul ⟨al, .rz, 6, .v 2, .v 4, 0⟩) b0 one 0 ∧
    Sole (.xfdiv ⟨al, .rz, 6, .v 2, .v 4, 0⟩) b0 one 0 ∧
    Sole (.xfma ⟨al, .ru, 6, .v 2, .v 4, 8⟩) b0 one 0 ∧
    Sole (.xfsqt ⟨al, .rne, 6, .v 2, .v 0, 0⟩) b0 one 0 ∧
    Sole (.xfcvt ⟨al, .f64, .i32, .rne, .v 6, .v 3⟩) b0 one 0 ∧
    Sole (.xfsetp ⟨al, .rne, .num, 3, .v 2, .v 4⟩) b0 one 0 ∧
    Sole (.xdiv ⟨al, true, .v 5, .v 2, .v 3⟩) b0 one 0 ∧
    Sole (.xrem ⟨al, false, .v 5, .v 2, .v 3⟩) b0 one 0 ∧
    Sole (.xshl2 ⟨al, .v 5, .v 2, .v 3⟩) b0 one 0 ∧
    Sole (.xshr2 ⟨al, .v 5, .v 2, .v 3⟩) b0 one 0 ∧
    Sole (.xsar2 ⟨al, .v 5, .v 2, .v 3⟩) b0 one 0 ∧
    Sole (.xmin2 ⟨al, .v 5, .v 2, .v 3⟩) b0 one 0 ∧
    Sole (.xmax2 ⟨al, .v 5, .v 2, .v 3⟩) b0 one 0 ∧
    Sole (.xcvt2 ⟨al, .v 5, .v 2⟩) b0 one 0 :=
  ⟨sole (by decide +kernel), sole (by decide +kernel), sole (by decide +kernel), sole (by decide +kernel), sole (by decide +kernel), sole (by decide +kernel), sole (by decide +kernel), sole (by decide +kernel), sole (by decide +kernel), sole (by decide +kernel), sole (by decide +kernel), sole (by decide +kernel), sole (by decide +kernel), sole (by decide +kernel), sole (by decide +kernel), sole (by decide +kernel)⟩

theorem may_Accesses :
    Sole (.ld ⟨al, .b64, 1, .acq, .dev, 6, .v 2, 0xFFFF8⟩) b0 one 0 ∧
    Sole (.st ⟨al, .u16, 0, .rel, .sys, 5, .k 8, 6⟩) b0 one 0 ∧
    Sole (.ldk ⟨al, .b128, 0, .none, .blk, 12, .k 8, 16⟩) b0 one 0 ∧
    Sole (.atom ⟨al, .cas, .u32, .ar, .cls, 5, .v 2, 0xFFC, .v 6⟩) b0 one 0 ∧
    Sole (.red ⟨al, .min, .i32, .rel, .die, 0, .k 8, 4, .imm 0xFF⟩) b0 one 0 ∧
    Sole (.svpost ⟨al, 0, .v 2, 4, .v 6⟩) b0 one 0 ∧
    Sole (.svwait ⟨al, 5, .k 8, 0, .imm 1⟩) b0 one 0 ∧
    Sole (.barCls ⟨al, .v 2⟩) b0 one 0 ∧
    Sole (.barDev ⟨al, .k 8⟩) b0 one 0 ∧
    Sole (.barDevSuper ⟨al, .k 8⟩) b0 one 0 ∧
    Sole (.barArrive ⟨al, 5, .v 2, .dev⟩) b0 one 0 ∧
    Sole (.barWait ⟨al, 5, .v 2, .cls⟩) b0 one 0 ∧
    Sole (.launch ⟨al, 5, .k 8, 63⟩) b0 one 0 ∧
    Sole (.ldLoft ⟨al, .i8, 0, .none, .blk, 5, .v 3, 7⟩) b0 one 0 ∧
    Sole (.prefetch ⟨al, 2, .k 8, 64⟩) b0 one 0 ∧
    Sole (.icflush ⟨al, 12, .v 2, 0⟩) b0 one 0 :=
  ⟨sole (by decide +kernel), sole (by decide +kernel), sole (by decide +kernel), sole (by decide +kernel), sole (by decide +kernel), sole (by decide +kernel), sole (by decide +kernel), sole (by decide +kernel), sole (by decide +kernel), sole (by decide +kernel), sole (by decide +kernel), sole (by decide +kernel), sole (by decide +kernel), sole (by decide +kernel), sole (by decide +kernel), sole (by decide +kernel)⟩

theorem may_StreamsAndCopies :
    Sole (.qcfg ⟨al, 6, 40⟩) b0 one 0 ∧
    Sole (.qclose ⟨al, 5⟩) b0 one 0 ∧
    Sole (.cpRows ⟨al, 40⟩) b0 one 0 ∧
    Sole (.cpReduce ⟨al, 48⟩) b0 one 0 ∧
    Sole (.cpSeal ⟨al, 5⟩) b0 one 0 ∧
    Sole (.cpWait ⟨al, .imm 0x1234⟩) b0 one 0 ∧
    Sole (.cuePop ⟨al, 6, .k 8⟩) b0 one 0 ∧
    Sole (.cuePush ⟨al, 6, .v 2⟩) b0 one 0 ∧
    Sole (.flatTake ⟨al, 5, 3⟩) b0 one 0 ∧
    Sole (.flatStat ⟨al, 5, 7⟩) b0 one 0 ∧
    Sole (.flatShare ⟨al, 5, 3, 6, 0xA⟩) b0 one 0 ∧
    Sole (.flatGive ⟨al, 5, 3, 6, .imm 0x45⟩) b0 one 0 ∧
    Sole (.cpReady ⟨al, 48⟩) b0 one 0 ∧
    Sole (.cpColl ⟨al, 32⟩) b0 one 0 ∧
    Sole (.accrd ⟨al, 48⟩) b0 one 0 ∧
    Sole (.acccvt ⟨al, 64⟩) b0 one 0 :=
  ⟨sole (by decide +kernel), sole (by decide +kernel), sole (by decide +kernel), sole (by decide +kernel), sole (by decide +kernel), sole (by decide +kernel), sole (by decide +kernel), sole (by decide +kernel), sole (by decide +kernel), sole (by decide +kernel), sole (by decide +kernel), sole (by decide +kernel), sole (by decide +kernel), sole (by decide +kernel), sole (by decide +kernel), sole (by decide +kernel)⟩

theorem may_Synchronisation :
    Sole (.barBlk ⟨al, 9, 24576⟩) b0 one 0 ∧
    Sole (.join ⟨al, 11⟩) b0 one 0 ∧
    Sole (.leave ⟨al, 11⟩) b0 one 0 ∧
    Sole (.mset ⟨al, 1, 20⟩) b0 one 0 ∧
    Sole (.mget ⟨al, 1, 20⟩) b0 one 0 ∧
    Sole (.wait ⟨al, 11⟩) b0 one 0 ∧
    Sole (.sign ⟨al, 15⟩) b0 one 0 ∧
    Sole (.cvwait ⟨al, 15⟩) b0 one 0 ∧
    Sole (.bra ⟨⟨true, 1⟩, 3⟩) b0 one 0 ∧
    Sole (.call ⟨al, 6, 0xFFFFE⟩) b0 one 0 ∧
    Sole (.nop ⟨true, 2⟩) b0 one 0 ∧
    Sole (.yield ⟨true, 2⟩) b0 one 0 ∧
    Sole (.brx ⟨al, .k 8⟩) b0 one 0 ∧
    Sole (.ret ⟨al, .v 6⟩) b0 one 0 ∧
    Sole (.exit ⟨true, 2⟩) b0 one 0 ∧
    Sole (.suspend ⟨true, 2⟩) b0 one 0 ∧
    Sole (.signal ⟨al, .v 3, 5⟩) b0 one 0 ∧
    Sole (.wlatch ⟨al, 5, 32, true⟩) b0 one 0 ∧
    Sole (.mmpost ⟨⟨true, 1⟩, 3, 0x20, 128, true, false, false, false, true⟩) b0 one 0 ∧
    Sole (.accclr ⟨al, 17⟩) b0 one 0 ∧
    Sole (.accstat ⟨al, 5, 17, true⟩) b0 one 0 ∧
    Sole (.mxstat ⟨al, 5, 1, .wb⟩) b0 one 0 :=
  ⟨sole (by decide +kernel), sole (by decide +kernel), sole (by decide +kernel), sole (by decide +kernel), sole (by decide +kernel), sole (by decide +kernel), sole (by decide +kernel), sole (by decide +kernel), sole (by decide +kernel), sole (by decide +kernel), sole (by decide +kernel), sole (by decide +kernel), sole (by decide +kernel), sole (by decide +kernel), sole (by decide +kernel), sole (by decide +kernel), sole (by decide +kernel), sole (by decide +kernel), sole (by decide +kernel), sole (by decide +kernel), sole (by decide +kernel), sole (by decide +kernel)⟩

theorem may_Privileged :
    Sole (.trap ⟨al, 0xABC⟩) b0 one 0 ∧
    Sole (.brk ⟨al, 0x123⟩) b0 one 0 ∧
    Sole (.eret ⟨al, 5, .v 8, .pc⟩) b0 one 0 ∧
    Sole (.halt ⟨al, 5, 9⟩) b0 one 0 ∧
    Sole (.haltGo ⟨al, 5, 9⟩) b0 one 0 ∧
    Sole (.ctxkill ⟨al, 5, 9⟩) b0 one 0 ∧
    Sole (.ctxsave ⟨al, 5, some (.v 2), 9⟩) b0 one 0 ∧
    Sole (.ctxload ⟨al, 5, none, 9⟩) b0 one 0 ∧
    Sole (.tlbinv ⟨al, 0, .v 2, 5, 16, false⟩) b0 one 0 ∧
    Sole (.csrr ⟨al, .v 6, 0x08022⟩) b0 one 0 ∧
    Sole (.csrw ⟨al, .v 4, 0x08022⟩) b0 one 0 ∧
    Sole (.dbgstep ⟨al, 6, .v 5, true⟩) b0 one 0 ∧
    Sole (.dbgcur ⟨al, 5, .v 3, .block⟩) b0 one 0 ∧
    Sole (.dbgres ⟨al, 5, .v 3, .group⟩) b0 one 0 ∧
    Sole (.tblarm ⟨al, 0, .k 8, 3, true⟩) b0 one 0 ∧
    Sole (.tblread ⟨al, 5⟩) b0 one 0 :=
  ⟨sole (by decide +kernel), sole (by decide +kernel), sole (by decide +kernel), sole (by decide +kernel), sole (by decide +kernel), sole (by decide +kernel), sole (by decide +kernel), sole (by decide +kernel), sole (by decide +kernel), sole (by decide +kernel), sole (by decide +kernel), sole (by decide +kernel), sole (by decide +kernel), sole (by decide +kernel), sole (by decide +kernel), sole (by decide +kernel)⟩

theorem may_Gathered :
    Sole (.laneIdx ⟨al, .v 5, .v 2, .v 3, 7, .own⟩) b0 one 0 ∧
    Sole (.laneRise ⟨al, .v 5, .v 2, .v 3, 7, .zf⟩) b0 one 0 ∧
    Sole (.laneFall ⟨al, .v 5, .v 2, .v 3, 7, .wr⟩) b0 one 0 ∧
    Sole (.laneFlip ⟨al, .v 5, .v 2, .v 3, 7, .own⟩) b0 one 0 ∧
    Sole (.pollAny ⟨al, 2, 5, 7⟩) b0 one 0 ∧
    Sole (.pollAll ⟨al, 3, 6, 11⟩) b0 one 0 ∧
    Sole (.pollMap ⟨al, .v 5, 6, 7⟩) b0 one 0 ∧
    Sole (.peers ⟨al, .v 5, .v 2, 7⟩) b0 one 0 ∧
    Sole (.fold ⟨al, .xor, .b32, false, .v 5, .v 2, 7⟩) b0 one 0 ∧
    Sole (.pfx ⟨al, .max, .f32, true, .v 5, .v 2, 7⟩) b0 one 0 ∧
    Sole (.rndCat ⟨al, .v 5, .v 2, 3, 9⟩) b0 one 0 ∧
    Sole (.pairedWord ⟨⟨.fmac, 2, 8, 12, .f32, false, false⟩, ⟨.sub, 7, 9, 3, .i32, true, false⟩⟩) b0 one 0 :=
  ⟨sole (by decide +kernel), sole (by decide +kernel), sole (by decide +kernel), sole (by decide +kernel), sole (by decide +kernel), sole (by decide +kernel), sole (by decide +kernel), sole (by decide +kernel), sole (by decide +kernel), sole (by decide +kernel), sole (by decide +kernel), sole (by decide +kernel)⟩

/-! ### Witnesses: states that meet the premises of the statements, clause by clause -/

/-- What holds of every thread listed and of an absent one holds of all. -/
theorem thread_all {P : Thread → Prop} {s : State} (h0 : P .fresh) (h : ∀ e ∈ s.threads.items, P e.2) (t : Nat) : P (s.thread t) := by
  have aux : ∀ l : List (Nat × Thread), (∀ e ∈ l, P e.2) → P ((Sparse.findIn t l).getD .fresh) := by
    intro l
    induction l with
    | nil => exact fun _ => h0
    | cons e l ih =>
        intro hl
        simp only [Sparse.findIn]
        split
        · exact hl e (by simp)
        · exact ih fun x hx => hl x (by simp [hx])
  exact aux _ h

/-- No thread listed waits on a word of memory. -/
def calm (s : State) : Bool := s.threads.items.all fun e => e.2.held != .waiting
theorem quiet {s : State} (h : calm s = true) : s.quiet := by
  refine thread_all (P := fun th => th.held = .waiting → th.why ≠ .sv ∧ ∀ l va g sc, th.why ≠ .bar l va g false sc) ?_ ?_
  · intro h; cases h
  · intro e he hw
    have := List.all_eq_true.1 h e he
    simp [hw] at this

/-- System registers set: number, instance, value. -/
def regs (s : State) (l : List (Nat × Nat × Nat)) : State := l.foldl (fun s e => sysPut s e.1 e.2.1 (BitVec.ofNat 64 e.2.2)) s

/-- Context 0 stands in partition 0, with a physical window of die 0 at VA 0 and a window of intermediate addresses from 0 at VA
2 MiB, both readable, writable and executable; slot 2 of core 0 holds bank 7, writable, slot 3 bank 8, read-only. -/
def mapped (s : State) : State := regs s
  [(RegNo.ctx 0, 0, 2 ^ 31), (RegNo.rtCtx, 0, 2 ^ 31), (RegNo.pfr 0, 0, 64 * 2 ^ 32), (RegNo.pir, 0, 16 * 2 ^ 32),
   (RegNo.winA 0 0, 0, 2 ^ 63 + 2 ^ 62 + 2 ^ 61 + 2 ^ 60 + 2 ^ 59 + 2 ^ 57), (RegNo.winB 0 0, 0, 0),
   (RegNo.winA 0 1, 0, 2 ^ 63 + 2 ^ 62 + 2 ^ 61 + 2 ^ 60 + 2 ^ 59 + 2 ^ 21), (RegNo.winB 0 1, 0, 0),
   (RegNo.flsMap 2, 0, 2 ^ 31 + 7), (RegNo.flsMap 3, 0, 2 ^ 31 + 2 ^ 30 + 8)]

/-! #### Gathers (LaneExchange, AccessFaultsAndWaits) -/

/-- Mask 7 of the group holds lane 0, alone. -/
def masked : State := one.onGroup 0 fun g => { g with m := g.m.set 7 ⟨1, 0⟩ }
theorem gathered : Gathered 7 b0 masked := by
  have h : ∀ t ∈ b0.threads, t = 0 := fun t ht => by simpa [b0] using ht
  refine ⟨fun t ht => ?_, fun t ht => ?_, fun t ht u => ?_⟩ <;> obtain rfl := h t ht
  · decide
  · decide +kernel
  · have : lanesIn masked (masked.thread 0).group (maskOf (masked.groupOf 0) (7 : BitVec 4).toNat).m = [0] := by decide +kernel
    rw [this]; simp [b0]
theorem may_LaneExchange : Issuing (.laneFlip ⟨al, .v 5, .v 2, .v 3, 7, .own⟩) b0 masked ∧ Issuing (.pollAny ⟨al, 2, 5, 7⟩) b0 masked ∧
    Issuing (.pfx ⟨al, .max, .f32, true, .v 5, .v 2, 7⟩) b0 masked ∧ Issuing (.rndCat ⟨al, .v 5, .v 2, 7, 9⟩) b0 masked :=
  ⟨may (by decide +kernel), may (by decide +kernel), may (by decide +kernel), may (by decide +kernel)⟩
/-- A second participant has not arrived. -/
def halfGathered : State := { one.onGroup 0 fun g => { g with m := g.m.set 7 ⟨3, 0⟩ } with
  threads := ⟨[(0, th0), (1, { th0 with lane := 1, pc := 0x80 })]⟩ }
theorem may_HeldByGather : Issuing (.laneIdx ⟨al, .v 5, .v 2, .v 3, 7, .own⟩) b0 halfGathered ∧ b0.threads = [0] ∧
    (∀ x ∈ (halfGathered.groupOf 0).gathers, x.pc ≠ b0.pc) ∧ (maskOf (halfGathered.groupOf 0) 7).m.getLsbD (halfGathered.thread 0).lane = true ∧
    ∃ u, u ≠ 0 ∧ u ∈ lanesIn halfGathered (halfGathered.thread 0).group (maskOf (halfGathered.groupOf 0) 7).m :=
  ⟨may (by decide +kernel), rfl, by decide +kernel, by decide +kernel, 1, by decide, by decide +kernel⟩
/-! #### Accesses (MemoryRequests, BankAndAtomics, AccessFaultsAndWaits, SliceAndTranslator) -/

def memAt (i : Instr) (s : State) (f : State → Env → Access) : Bool :=
  let s0 := afterIssue b0 s
  let x := f s0 (envOf s0 0)
  soleAt i s && s0.winWrites == [] && (match accessCheck s0 (issuedAs i b0 s) 0 x with
    | .ok (.mem l) => (l1Serves s0 0 x l).isNone
    | _ => false) && (freeEntry s b0.core (s.privOf 0)).isSome

theorem toMem {i : Instr} {s : State} {f : State → Env → Access} (h : memAt i s f = true) :
    ∃ l e, ToMemory i b0 s 0 (f (afterIssue b0 s) (envOf (afterIssue b0 s) 0)) l e := by
  simp only [memAt, Bool.and_eq_true, beq_iff_eq] at h
  obtain ⟨⟨⟨h1, h0⟩, h2⟩, h4⟩ := h
  split at h2
  · rename_i l hl
    obtain ⟨e, he⟩ := Option.isSome_iff_exists.1 h4
    exact ⟨l, e, sole h1, by rw [windowView_still h0]; exact hl, by rw [windowView_still h0]; simpa using h2, he⟩
  · exact absurd h2 (by decide)

def bankAt (i : Instr) (s : State) (f : State → Env → Access) : Bool :=
  let s0 := afterIssue b0 s
  let x := f s0 (envOf s0 0)
  soleAt i s && s0.winWrites == [] && (match accessCheck s0 (issuedAs i b0 s) 0 x with
    | .ok (.flat d k o) => !flatPoisoned s0 d k o x.size
    | _ => false)

theorem toBank {i : Instr} {s : State} {f : State → Env → Access} (h : bankAt i s f = true) :
    ∃ d k o, ToBank i b0 s 0 (f (afterIssue b0 s) (envOf (afterIssue b0 s) 0)) d k o := by
  simp only [bankAt, Bool.and_eq_true, beq_iff_eq] at h
  obtain ⟨⟨h1, h0⟩, h2⟩ := h
  split at h2
  · rename_i d k o hl
    exact ⟨d, k, o, sole h1, by rw [windowView_still h0]; exact hl, by simpa using h2⟩
  · exact absurd h2 (by decide)

/-- v2:v3 hold an address. -/
def at_ (va : Nat) : State := withV (mapped one) [(2, BitVec.ofNat 32 va), (3, BitVec.ofNat 32 (va / 2 ^ 32))]
/-- K8:K9 hold an address. -/
def atK (va : Nat) : State := (mapped one).onGroup 0 fun g => { g with k := (g.k.set 8 (BitVec.ofNat 32 va)).set 9 (BitVec.ofNat 32 (va / 2 ^ 32)) }
/-- The address 0x40 of bank 7. -/
def inBank : Nat := 0x01FF_FFFF_FFE0_0000 + 2 * 0x4_0000 + 0x40

theorem may_MemoryRequests :
    memAt (.ld ⟨al, .b64, 1, .acq, .dev, 6, .v 2, 8⟩) (at_ 0xFFF0) (ldAccess ⟨al, .b64, 1, .acq, .dev, 6, .v 2, 8⟩) = true ∧
    memAt (.st ⟨al, .u16, 0, .rel, .sys, 5, .v 2, 6⟩) (at_ 0x0) (stAccess ⟨al, .u16, 0, .rel, .sys, 5, .v 2, 6⟩) = true ∧
    memAt (.ldk ⟨al, .b128, 0, .none, .blk, 12, .k 8, 16⟩) (atK 0x20_0000) (ldkAccess ⟨al, .b128, 0, .none, .blk, 12, .k 8, 16⟩) = true ∧
    memAt (.atom ⟨al, .cas, .u32, .ar, .cls, 5, .v 2, 0xFFC, .v 6⟩) (at_ 0x1000) (atomAccess false ⟨al, .cas, .u32, .ar, .cls, 5, .v 2, 0xFFC, .v 6⟩) = true ∧
    memAt (.red ⟨al, .min, .i32, .rel, .die, 0, .v 2, 4, .imm 0xFF⟩) (at_ 0x1000) (atomAccess true ⟨al, .min, .i32, .rel, .die, 0, .v 2, 4, .imm 0xFF⟩) = true ∧
    memAt (.svpost ⟨al, 0, .v 2, 4, .v 6⟩) (at_ 0x1000) (svAccess true ⟨al, 0, .v 2, 4, .v 6⟩) = true ∧
    memAt (.svwait ⟨al, 5, .v 2, 0, .imm 1⟩) (at_ 0x20_1000) (svAccess false ⟨al, 5, .v 2, 0, .imm 1⟩) = true ∧
    memAt (.barCls ⟨al, .v 2⟩) (at_ 0x1000) (barAccess (.v 2) .cls false none) = true ∧
    memAt (.barDev ⟨al, .v 2⟩) (at_ 0x1000) (barAccess (.v 2) .dev false none) = true ∧
    memAt (.barDevSuper ⟨al, .v 2⟩) (at_ 0x1000) (barAccess (.v 2) .sys true none) = true ∧
    memAt (.barArrive ⟨al, 5, .v 2, .dev⟩) (at_ 0x1000) (barAccess (.v 2) .dev false (some 5)) = true ∧
    memAt (.barWait ⟨al, 5, .v 2, .cls⟩) (at_ 0x1000) (barWaitAccess ⟨al, 5, .v 2, .cls⟩) = true ∧
    memAt (.launch ⟨al, 5, .v 2, 63⟩) (at_ 0x1000) (launchAccess ⟨al, 5, .v 2, 63⟩) = true := by decide +kernel

theorem may_BankAndAtomics :
    bankAt (.ld ⟨al, .b128, 0, .none, .blk, 12, .v 2, 16⟩) (at_ inBank) (ldAccess ⟨al, .b128, 0, .none, .blk, 12, .v 2, 16⟩) = true ∧
    bankAt (.ldk ⟨al, .b32, 0, .none, .blk, 12, .k 8, 16⟩) (atK inBank) (ldkAccess ⟨al, .b32, 0, .none, .blk, 12, .k 8, 16⟩) = true ∧
    bankAt (.st ⟨al, .u8, 0, .rel, .dev, 12, .v 2, 1⟩) (at_ inBank) (stAccess ⟨al, .u8, 0, .rel, .dev, 12, .v 2, 1⟩) = true ∧
    bankAt (.atom ⟨al, .add, .i64, .none, .dev, 6, .v 2, 0, .v 8⟩) (at_ inBank) (atomAccess false ⟨al, .add, .i64, .none, .dev, 6, .v 2, 0, .v 8⟩) = true ∧
    bankAt (.red ⟨al, .or, .u32, .rel, .blk, 0, .v 2, 4, .imm 3⟩) (at_ inBank) (atomAccess true ⟨al, .or, .u32, .rel, .blk, 0, .v 2, 4, .imm 3⟩) = true := by
  decide +kernel

def ld8 : LdstArgs := ⟨al, .b64, 0, .none, .blk, 6, .v 2, 0⟩
/-- A release held back by a store on its way. -/
def behindLoad : State := (at_ 0x1000).onThread 0 fun th => { th with out := [⟨7, .store .b32, none, 0, ⟨0, 0, false, true, 0, 0⟩, 4, false, true, .none, .blk, [0], .sent, false, none⟩] }
/-- The premises of AccessFaultsAndWaits: an address past the windows, two that are not aligned. -/
theorem may_AccessFaults :
    (soleAt (.ld ld8) (at_ (2 ^ 57)) = true ∧ 2 ^ 57 ≤ effAddr (envOf (afterIssue b0 (at_ (2 ^ 57))) 0) ld8.base ld8.off) ∧
    (soleAt (.ld ld8) (at_ (inBank + 4)) = true ∧ inFlat (effAddr (envOf (afterIssue b0 (at_ (inBank + 4))) 0) ld8.base ld8.off) = true) ∧
    (soleAt (.ld ld8) (at_ 0x1004) = true ∧ ((targetOf (afterIssue b0 (at_ 0x1004)) 0 0 true 0x1004 ⟨true, false, false⟩).toOption.isSome = true)) ∧
    (afterIssue b0 (at_ (2 ^ 57))).winWrites = [] := by
  decide +kernel
theorem may_LoftLoads : Issuing (.ldLoft ⟨al, .i8, 0, .none, .blk, 5, .v 3, 7⟩) b0 one ∧ one.isUnderstudy = false ∧ loftPoisoned one 0 7 1 = false ∧
    (∀ t ∈ activeIn (.ldLoft ⟨al, .i8, 0, .none, .blk, 5, .v 3, 7⟩) b0 one, ((envOf one t).base1 (.v 3)).toNat + (7 : BitVec 20).toInt = 7) :=
  ⟨may (by decide +kernel), by decide +kernel, by decide +kernel, by decide +kernel⟩

/-! What holds a word (AccessFaultsAndWaits) -/

def aloneAt (i : Instr) (s : State) : Bool :=
  let th := s.thread 0
  s.issue == .bundle b0 && i.wf && s.threads.has 0 && s.groups.has th.group && th.held == .ready && (!isPrivileged i || s.privOf 0)
    && (s.privOf 0 || th.freePass || !ibrkAt s (s.ctxOf 0) b0.pc) && !namesBeyond th (usesOf i) && guardHolds (guardOf i) th
theorem alone {i : Instr} {s : State} (h : aloneAt i s = true) : Alone i b0 s 0 := by
  simp only [aloneAt, Bool.and_eq_true, Bool.or_eq_true, Bool.not_eq_true', beq_iff_eq] at h
  obtain ⟨⟨⟨⟨⟨⟨⟨⟨h1, h2⟩, h3⟩, h4⟩, h5⟩, h6⟩, h7⟩, h8⟩, h9⟩ := h
  refine ⟨h1, rfl, h2, ⟨h3, h4, h5, fun hp => h6.resolve_left (by simp [hp]), ?_, h8⟩, h9⟩
  rcases h7 with (h | h) | h
  · exact .inl h
  · exact .inr (.inl h)
  · exact .inr (.inr h)
/-- v1 awaits a result. -/
def awaiting : State := one.onThread 0 fun th => { th with pend := [⟨9, [1], false, false, none, none, 0, false, 0x80, 0⟩] }
/-- A late fault of the thread waits for its replay. -/
def faulted : State := one.onCore 0 fun c => { c with log := c.log.set 3 ⟨0, 0x80, [0], [], [0], true⟩ }
/-- An xop of the thread is outstanding. -/
def xopping : State := one.onDie 0 fun d => { d with xops := [⟨0, 9, [1], 0⟩] }
/-- Port 0 is bound and empty. -/
def dry : State := one.onGroup 0 fun g => { g with qports := g.qports.set 0 ⟨0x1000, 4, 64, 4, 0⟩ }
/-- The table lists identifier 5, which K50 names. -/
def listed : State := (one.onGroup 0 fun g => { g with k := g.k.set 50 5 }).onPart 0 fun x => { x with ready := [⟨5, 0, 0, 0, 0, 1, 0, [], 0, 0, 0, 0⟩] }
def addV : Instr := .add ⟨al, .u32, false, .v 5, .v 1, .v 2⟩
def addQ : Instr := .add ⟨al, .u32, false, .v 5, .q 0, .v 2⟩
def divV : Instr := .xdiv ⟨al, false, .v 5, .v 2, .v 3⟩
def callV : Instr := .call ⟨al, 6, 4⟩
def stRel : Instr := .st { ld8 with order := .rel }
theorem may_HeldAtTheWord :
    (aloneAt addV awaiting = true ∧ pendingHazard awaiting 0 (usesOf addV) (guardOf addV) true = true) ∧
    (aloneAt callV faulted = true ∧ pendingHazard faulted 0 (usesOf callV) (guardOf callV) true = false ∧ replayHold faulted 0 callV = some 3) ∧
    (aloneAt addQ dry = true ∧ pendingHazard dry 0 (usesOf addQ) (guardOf addQ) true = false ∧ replayHold dry 0 addQ = none ∧
      portHazard (dry.thread 0) (usesOf addQ) = some 0 ∧ portFault dry (dry.thread 0) (dry.groupOf 0) (usesOf addQ) = none) ∧
    (aloneAt divV xopping = true ∧ pendingHazard xopping 0 (usesOf divV) (guardOf divV) true = false ∧ replayHold xopping 0 divV = none ∧
      portHazard (xopping.thread 0) (usesOf divV) = none ∧ xopPending xopping 0 = true) ∧
    (aloneAt stRel behindLoad = true ∧ pendingHazard behindLoad 0 (usesOf stRel) (guardOf stRel) true = false ∧
      replayHold behindLoad 0 stRel = none ∧ portHazard (behindLoad.thread 0) (usesOf stRel) = none ∧ mustDrain behindLoad stRel 0 = true) ∧
    canRelease behindLoad 0 = false ∧ accessesDone behindLoad 0 = false ∧ (awaiting.thread 0).pend ≠ [] := by decide +kernel
theorem may_HeldForRoom : aloneAt (.cpReady ⟨al, 48⟩) listed = true ∧ IsWord (.cpReady ⟨al, 48⟩) ∧ gatherMask (.cpReady ⟨al, 48⟩) = none ∧
    roomless listed (.cpReady ⟨al, 48⟩) 0 [0] = ([0], none) ∧ waitsFor listed (.cpReady ⟨al, 48⟩) 0 = none ∧
    (∀ i ∈ [addV, addQ, divV, callV, stRel], IsWord i) := by
  refine ⟨by decide +kernel, by simp only [IsWord]; decide +kernel, rfl, by decide +kernel, by decide +kernel, ?_⟩
  simp only [IsWord]; decide +kernel
/-- An operand log with 256 entries, and 2,048 copies of a core. -/
theorem may_HeldForRoom_full : freeEntry (one.onCore 0 fun c => { c with log := ⟨(List.range 256).map fun n => (n, ⟨0, 0, [0], [], [], true⟩)⟩ }) 0 true = none := by
  decide +kernel

/-- A request that waits at slice 0 of die 0: `acc`, 4 bytes at physical or intermediate address `ia`, in state `st`. -/
def asking (acc : Acc) (rd phys : Bool) (ia : Nat) (st : ReqSt) : State := (mapped one).onThread 0 fun th => { th with
  out := [⟨7, acc, none, ia, ⟨0, ia, true, phys, 0, ia⟩, 4, rd, !rd, .none, .blk, [5], st, false, none⟩]
  pend := [⟨9, [4], false, false, none, none, 0, false, 0x100, 0⟩] }
def asked0 (acc : Acc) (rd phys : Bool) (ia : Nat) (st : ReqSt) : Req := ⟨7, acc, none, ia, ⟨0, ia, true, phys, 0, ia⟩, 4, rd, !rd, .none, .blk, [5], st, false, none⟩
/-- The request stands in the queue of slice 0. -/
def arrived (s : State) : State := s.onDie 0 fun d => { d with slices := d.slices.set 0 { Slice.empty with queue := [(0, 7)] } }
theorem atSlice {s : State} {d k t : Nat} {r : Req} (h : (queued s d k == [(t, r)] && travelling s d k == [] &&
    (s.thread t).out.find? (fun x => x.seq == r.seq) == some r && runOf s t r == [(t, r)] && calm s) = true) : AtSlice s d k t r := by
  simp only [Bool.and_eq_true, beq_iff_eq] at h
  exact ⟨h.1.1.1.1, h.1.1.1.2, h.1.1.2, h.1.2, quiet h.2⟩
theorem may_SliceRequests :
    AtSlice (arrived (asking (.load .b32 9) true true 0 .sent)) 0 0 0 (asked0 (.load .b32 9) true true 0 .sent) ∧
    AtSlice (arrived (asking (.store .b32) false true 0 .sent)) 0 0 0 (asked0 (.store .b32) false true 0 .sent) ∧
    AtSlice (arrived (asking (.load .b32 9) true false 0 .sent)) 0 0 0 (asked0 (.load .b32 9) true false 0 .sent) ∧
    physPoisoned (arrived (asking (.load .b32 9) true true 0 .sent)) 0 0 = false ∧
    lineAt (arrived (asking (.load .b32 9) true false 0 .sent)) ⟨0, 0, true, false, 0, 0⟩ = none :=
  ⟨atSlice (by decide +kernel), atSlice (by decide +kernel), atSlice (by decide +kernel), by decide +kernel, by decide +kernel⟩

/-- A leaf of a die-local page 0: valid, at frame 0. -/
def leaf0 : Leaf := ⟨0, false, BitVec.ofNat 64 (2 ^ 63)⟩
def missing (leaves : List Leaf) : State := (asking (.load .b32 9) true false 0 .miss).onDie 0 fun d => { d with leaves := leaves }
theorem may_Translator :
    slicePool (missing [leaf0]) 0 0 .miss = [(0, asked0 (.load .b32 9) true false 0 .miss)] ∧
    runOf (missing [leaf0]) 0 (asked0 (.load .b32 9) true false 0 .miss) = [(0, asked0 (.load .b32 9) true false 0 .miss)] ∧
    ((missing [leaf0]).thread 0).out.find? (fun x => x.seq == 7) = some (asked0 (.load .b32 9) true false 0 .miss) ∧
    (sliceOf (missing [leaf0]) 0 0).lines = [] ∧ (((missing [leaf0]).die 0).xlts.findD 0 .empty).cached = [] ∧
    heldBack (missing [leaf0]) ⟨0, 0, true, false, 0, 0⟩ = none ∧ (∀ i ∈ [0, 1, 2, 3], (missing [leaf0]).hist.bytes.find? (histKey ⟨0, 0, true, false, 0, 0⟩ i) = none) ∧
    leafOf (missing [leaf0]) 0 0 = some leaf0 ∧ walk (some leaf0) ⟨0, 0, true, false, 0, 0⟩ false false = .ok 0 leaf0 ∧
    physPoisoned (missing [leaf0]) 0 0 = false ∧ leaf0.bit 61 = false ∧
    slicePool (missing []) 0 0 .miss = [(0, asked0 (.load .b32 9) true false 0 .miss)] ∧ leafOf (missing []) 0 0 = none ∧
    sysGet (missing []) RegNo.faultQ ((missing []).partOf 0) = 0 ∧ ((missing []).thread 0).held = .ready ∧ calm (missing [leaf0]) = true := by
  decide +kernel
/-- icflush at its completion. -/
theorem may_IcflushComplete : let s := one.onThread 0 fun th => { th with held := .stalled, why := .icflush 0x1000 12 }
    s.threads.has 0 = true ∧ (s.thread 0).held = .stalled ∧ (s.thread 0).why = .icflush 0x1000 12 := by decide +kernel
theorem may_IcflushAligned : soleAt (.icflush ⟨al, 12, .v 2, 0⟩) (at_ 0x1000) = true ∧ effAddr (envOf (afterIssue b0 (at_ 0x1000)) 0) (.v 2) (0 : BitVec 20) % 2 ^ 12 = 0 ∧
    effAddr (envOf (afterIssue b0 (at_ 0x1800)) 0) (.v 2) (0 : BitVec 20) % 2 ^ 12 ≠ 0 := by decide +kernel

/-! #### Streams, copies, queues, slots, barriers (QueueStreams to ExitSuspendSignal) -/

/-- A thread that is not listed is a fresh one. -/
theorem thread_else {P : Thread → Prop} {s : State} (h0 : P .fresh) (h : s.threads.items.all (fun e => e.1 == 0) = true) : ∀ u, u ≠ 0 → P (s.thread u) := by
  intro u hu
  have aux : ∀ l : List (Nat × Thread), (∀ e ∈ l, e.1 = 0) → Sparse.findIn u l = none := by
    intro l
    induction l with
    | nil => exact fun _ => rfl
    | cons e l ih =>
        intro hl
        have h1 : ¬ e.1 = u := by have := hl e (by simp); omega
        simp only [Sparse.findIn, h1, ite_false]
        exact ih fun x hx => hl x (by simp [hx])
  have := aux s.threads.items fun e he => by simpa using List.all_eq_true.1 h e he
  show P ((Sparse.findIn u s.threads.items).getD .fresh)
  rw [this]; exact h0

/-- Thread 0 changed. -/
def with0 (s : State) (f : Thread → Thread) : State := s.onThread 0 f
/-- Uniform registers of the group set from `n` on. -/
def kset (s : State) (n : Nat) (l : List Word) : State := s.onGroup 0 fun g => { g with k := l.zipIdx.foldl (fun k e => k.set (n + e.2) e.1) g.k }
/-- Port `p` bound to four rows at `va`, 4 bytes a row and 64 a lane. -/
def bound (s : State) (p va : Nat) : State := s.onGroup 0 fun g => { g with qports := g.qports.set p ⟨BitVec.ofNat 64 va, 4, 64, 4, 0⟩ }
def toFlat (x : Except Cause Target) : Bool := match x with
  | .ok (.flat _ _ _) => true
  | _ => false
def isMem (x : Except Cause Target) : Bool := match x with
  | .ok (.mem _) => true
  | _ => false
/-- A store of the thread is on its way. -/
def busy (s : State) : State := with0 s fun th => { th with out := [⟨7, .store .b32, none, 0, ⟨0, 0, false, true, 0, 0⟩, 4, false, true, .none, .blk, [0], .sent, false, none⟩] }
/-- A sealed batch of the thread has a copy that is not complete. -/
def copying (s : State) : State := with0 s fun th => { th with batches := [⟨0x1234, [5], none, false, 0, []⟩] }

theorem may_QueueStreams :
    (let s0 := afterIssue b0 (kset (mapped one) 40 [0x1000, 0, 4, 64, 3, 1])
     soleAt (.qcfg ⟨al, 6, 40⟩) (kset (mapped one) 40 [0x1000, 0, 4, 64, 3, 1]) = true ∧ (s0.group (s0.thread 0).group).qports.has 6 = false) ∧
    (soleAt (.qcfg ⟨al, 6, 40⟩) (kset (mapped one) 40 [0x1001, 0, 4, 64, 3, 1]) = true) ∧
    (soleAt (.qclose ⟨al, 5⟩) one = true ∧ soleAt (.qclose ⟨al, 2⟩) (bound one 2 0x1000) = true ∧ soleAt (.qclose ⟨al, 5⟩) (bound one 5 0x1000) = true ∧
      ((afterIssue b0 (bound one 2 0x1000)).group 0).qports.has 2 = true ∧ ((afterIssue b0 (bound one 5 0x1000)).group 0).qports.has 5 = true ∧
      accessesDone (afterIssue b0 (bound one 5 0x1000)) 0 = true ∧
      (afterIssue b0 (bound one 2 0x1000)).threads.keys.Nodup ∧ (afterIssue b0 (bound one 5 0x1000)).threads.keys.Nodup) ∧
    (∀ va ∈ [0x1000, inBank], let s := bound (mapped one) 1 va
      s.threads.has 0 = true ∧ (s.thread 0).held ≠ .exited ∧ (s.blockOf 0).save = .resident ∧
      (s.groupOf 0).qports.find? 1 = some ⟨BitVec.ofNat 64 va, 4, 64, 4, 0⟩ ∧ (s.thread 0).moved.findD 1 0 = 0 ∧ (s.thread 0).rows.findD 1 0 = 0) ∧
    isMem (targetOf (bound (mapped one) 1 0x1000) 0 0 true 0x1000 ⟨true, false, false⟩) = true ∧
    toFlat (targetOf (bound (mapped one) 1 inBank) 0 0 true inBank ⟨true, false, false⟩) = true ∧
    (∀ va ∈ [0x1000, inBank], let s := with0 (bound (mapped one) 6 va) fun th => { th with ports := th.ports.set 6 [⟨0, 7, none, 0x100, 0⟩] }
      s.threads.has 0 = true ∧ (s.blockOf 0).save = .resident ∧ (s.groupOf 0).qports.find? 6 = some ⟨BitVec.ofNat 64 va, 4, 64, 4, 0⟩ ∧
      (s.thread 0).ports.findD 6 [] = [⟨0, 7, none, 0x100, 0⟩]) ∧
    isMem (targetOf (mapped one) 0 0 true 0x1000 ⟨false, true, false⟩) = true ∧ toFlat (targetOf (mapped one) 0 0 true inBank ⟨false, true, false⟩) = true := by
  decide +kernel
theorem may_QueueStreams_drained : ∀ u, ((afterIssue b0 (bound one 5 0x1000)).thread u).ports.findD 5 [] = [] :=
  thread_all (P := fun th => th.ports.findD 5 [] = []) (by decide) (by decide +kernel)

/-- A copy descriptor: rows of 16 bytes, two of them. -/
def rowsDesc (src rowb : Word) : List Word := [src, 0, 0x2000, 0, rowb, 2, 16, 16]
theorem may_CopiesAndBatches :
    (rowsDescOk false (rowsDesc 0x1002 16) = false ∧ soleAt (.cpRows ⟨al, 40⟩) (kset one 40 (rowsDesc 0x1002 16)) = true) ∧
    (rowsDescOk true (rowsDesc 0x1000 0) = true ∧ soleAt (.cpReduce ⟨al, 48⟩) (kset one 48 (rowsDesc 0x1000 0)) = true) ∧
    (rowsDescOk false (rowsDesc 0x1000 16) = true ∧ rowsDescOk true (rowsDesc 0x1000 16) = true ∧
      accessesDone (afterIssue b0 (kset one 40 (rowsDesc 0x1000 16))) 0 = true ∧
      ((List.range 8).map fun n => (((afterIssue b0 (kset one 40 (rowsDesc 0x1000 16))).groupOf 0).k.findD (40 + n) 0)) = rowsDesc 0x1000 16 ∧
      ((afterIssue b0 (kset one 40 (rowsDesc 0x1000 16))).copies.filter fun _ cp => cp.core == b0.core).size < 2048) ∧
    soleAt (.cpSeal ⟨al, 5⟩) one = true ∧
    (∀ x ∈ [(⟨0x1234, [], none, false, 0, []⟩ : Batch), ⟨0x1234, [], some (.cpDesc, 0), false, 0, []⟩, ⟨0x1234, [5], none, false, 0, []⟩],
      soleAt (.cpWait ⟨al, .imm 0x1234⟩) (with0 one fun th => { th with nextBatch := 0x1235, batches := [x] }) = true) ∧
    32768 ≤ (0x1234 + 65536 - 0x1235) % 65536 ∧ (0x1234 + 65536 - (one.thread 0).nextBatch.toNat) % 65536 < 32768 ∧
    ([(⟨0x1234, [], some (.cpDesc, 0), false, 0, []⟩ : Batch)].find? fun x => x.fault.isSome && !x.raised) = some ⟨0x1234, [], some (.cpDesc, 0), false, 0, []⟩ := by
  decide +kernel

/-- A cue queue at 0x1000, which K8:K9 and v2:v3 name. -/
def cued (entries : List (Dword × List Nat)) (cap : Nat) : State :=
  (withV (kset one 8 [0x1000, 0]) [(2, 0x1000), (3, 0)]).onPart 0 fun x => { x with cues := x.cues.set 0x1000 ⟨0x4000, cap, entries, 0, []⟩ }
theorem may_CueQueues :
    (∀ s ∈ [kset one 8 [0x1000, 0], cued [(7, [])] 4, cued [(0xFFFF_FFFF_FFFF_FFFF, [])] 4, cued [] 4], soleAt (.cuePop ⟨al, 6, .k 8⟩) s = true) ∧
    (∀ s ∈ [withV one [(2, 0x1000)], cued [] 4, cued [(7, [])] 4], soleAt (.cuePush ⟨al, 6, .v 2⟩) s = true) ∧
    ((afterIssue b0 (cued [(7, [])] 4)).part ((afterIssue b0 (cued [(7, [])] 4)).partOf 0)).cues.find? 0x1000 = some ⟨0x4000, 4, [(7, [])], 0, []⟩ ∧
    ((envOf (afterIssue b0 (cued [] 4)) 0).base2 (.k 8)).toNat = 0x1000 ∧ ((envOf (afterIssue b0 (cued [] 4)) 0).base2 (.v 2)).toNat = 0x1000 ∧
    ((afterIssue b0 one).part ((afterIssue b0 one).partOf 0)).cues.find? 0x1000 = none ∧
    ((cued [] 4).part 0).heldTraps = [] := by
  decide +kernel
theorem may_CuePush_full : Alone (.cuePush ⟨al, 6, .v 2⟩) b0 (cued [(7, [])] 1) 0 ∧ MayIssue (cued [(7, [])] 1) (.cuePush ⟨al, 6, .v 2⟩) b0.pc 0 ∧
    freeEntry (cued [(7, [])] 1) b0.core ((cued [(7, [])] 1).privOf 0) ≠ none ∧
    ((cued [(7, [])] 1).part ((cued [(7, [])] 1).partOf 0)).cues.find? ((envOf (cued [(7, [])] 1) 0).base2 (.v 2)).toNat = some ⟨0x4000, 1, [(7, [])], 0, []⟩ := by
  have h : aloneAt (.cuePush ⟨al, 6, .v 2⟩) (cued [(7, [])] 1) = true := by decide +kernel
  refine ⟨alone h, ?_, by decide +kernel, by decide +kernel⟩
  exact mayIssue (by decide +kernel)

theorem may_FlatSlots :
    (soleAt (.flatTake ⟨al, 5, 2⟩) (mapped one) = true ∧ slotBank (mapped one) 0 2 = some 7 ∧ soleAt (.flatTake ⟨al, 5, 0⟩) (mapped one) = true ∧
      slotBank (mapped one) 0 0 = none) ∧
    (soleAt (.flatStat ⟨al, 5, 3⟩) (mapped one) = true ∧ slotRo (mapped one) 0 3 = true) ∧
    (soleAt (.flatShare ⟨al, 5, 0, 6, 2⟩) (mapped one) = true ∧ soleAt (.flatShare ⟨al, 5, 3, 6, 2⟩) (mapped one) = true ∧
      soleAt (.flatShare ⟨al, 5, 2, 6, 2⟩) (mapped one) = true ∧ slotRo (mapped one) 0 2 = false ∧
      copiesDone (afterIssue b0 (mapped one)) 0 = true ∧ copiesOn (afterIssue b0 (mapped one)) 0 7 = false ∧ slotBank (mapped one) 1 6 = none ∧
      soleAt (.flatShare ⟨al, 5, 2, 6, 2⟩) (copying (mapped one)) = true ∧ copiesDone (afterIssue b0 (copying (mapped one))) 0 = false ∧
      soleAt (.flatShare ⟨al, 5, 2, 6, 2⟩) (regs (mapped one) [(RegNo.flsMap 6, 1, 2 ^ 31 + 9)]) = true ∧
      slotBank (regs (mapped one) [(RegNo.flsMap 6, 1, 2 ^ 31 + 9)]) 1 6 = some 9) ∧
    (soleAt (.flatGive ⟨al, 5, 0, 6, .imm 0x45⟩) (mapped one) = true ∧ soleAt (.flatGive ⟨al, 5, 2, 6, .imm 0x45⟩) (mapped one) = true) := by decide +kernel
theorem may_FlatShare_free : (∀ u, ((afterIssue b0 (mapped one)).thread u).ports = .empty) ∧ ∀ u c d, ((afterIssue b0 (mapped one)).thread u).why ≠ .take c d :=
  ⟨thread_all (P := fun th => th.ports = .empty) (by decide) (by decide +kernel), fun u c d h => by
    have := thread_all (P := fun th => th.why = .none) (s := afterIssue b0 (mapped one)) (by decide) (by decide +kernel) u
    simp [this] at h⟩
/-- A give of slot `k` to slot `k2` of core `c2` at its give point. -/
def giving (s : State) (k k2 c2 : Nat) : State := with0 s fun th => { th with held := .stalled, why := .give 0 3 k k2 c2 5 0 }
theorem may_FlatGivePoint :
    (∀ s ∈ [giving (mapped one) 2 6 1, giving (mapped one) 2 6 130, giving (regs (mapped one) [(RegNo.flsMap 3, 1, 2 ^ 31 + 2 ^ 30 + 8)]) 3 6 1,
        giving (regs (mapped one) [(RegNo.flsMap 6, 1, 2 ^ 31 + 9)]) 2 6 1],
      s.threads.has 0 = true ∧ s.coreOf 0 = 0 ∧ (s.thread 0).held = .stalled ∧ (s.thread 0).batches = [] ∧ copiesDone s 0 = true ∧
      copiesOn s 0 7 = false ∧ copiesOn s 0 8 = false ∧ slotPassing s 0 2 = false ∧ slotPassing s 0 3 = false ∧
      s.threads.items.all (fun e => e.1 == 0) = true ∧ ∀ e ∈ s.threads.items, e.2.ports = .empty) ∧
    dieOf 130 ≠ dieOf 0 ∧ (mapped one).corePart 1 = (mapped one).corePart 0 ∧ slotBank (mapped one) 0 2 = some 7 ∧ slotBank (mapped one) 1 6 = none ∧
    1 < (attachments (giving (regs (mapped one) [(RegNo.flsMap 3, 1, 2 ^ 31 + 2 ^ 30 + 8)]) 3 6 1) 0 8).length := by decide +kernel
theorem may_FlatGivePoint_others : ∀ u, u ≠ 0 → ((giving (mapped one) 2 6 1).thread u).why = .none := thread_else (P := fun th => th.why = .none) rfl (by decide +kernel)

def atBar (n : Nat) : State := one.onBlock 0 fun x => { x with bars := x.bars.set 9 ⟨n, 64⟩ }
def inMask (m a : Word) : State := one.onGroup 0 fun g => { g with m := g.m.set 11 ⟨m, a⟩ }
theorem may_BarriersAndMasks :
    (∀ n ∈ [0, 62, 63], soleAt (.barBlk ⟨al, 9, 64⟩) (atBar n) = true ∧ canRelease (afterIssue b0 (atBar n)) 0 = true ∧ (afterIssue b0 (atBar n)).blocks.has 0 = true ∧
      0 ∈ ((afterIssue b0 (atBar n)).block 0).threads ∧ ((afterIssue b0 (atBar n)).block 0).threads.Nodup ∧
      (((afterIssue b0 (atBar n)).block ((afterIssue b0 (atBar n)).blockIdOf 0)).bars.findD 9 ⟨0, 0⟩).arrivals = n) ∧
    (soleAt (.join ⟨al, 11⟩) (inMask 2 0) = true ∧ soleAt (.leave ⟨al, 11⟩) (inMask 7 4) = true ∧ soleAt (.mset ⟨al, 11, 20⟩) (inMask 7 0) = true ∧
      soleAt (.mget ⟨al, 11, 20⟩) (inMask 7 0) = true) ∧
    (∀ s ∈ [inMask 2 0, inMask 3 0, inMask 1 0], soleAt (.wait ⟨al, 11⟩) s = true ∧ canRelease (afterIssue b0 s) 0 = true) ∧
    (afterIssue b0 (inMask 1 0)).threads.keys.Nodup ∧
    (aloneAt (.wait ⟨al, 11⟩) (busy (inMask 3 0)) = true ∧ canArrive (busy (inMask 3 0)) 0 = false ∧
      pendingHazard (busy (inMask 3 0)) 0 (usesOf (.wait ⟨al, 11⟩)) (guardOf (.wait ⟨al, 11⟩)) true = false ∧
      replayHold (busy (inMask 3 0)) 0 (.wait ⟨al, 11⟩) = none ∧
      (maskOf ((busy (inMask 3 0)).groupOf 0) 11).m.getLsbD ((busy (inMask 3 0)).thread 0).lane = true) := by decide +kernel

/-- Convergence register 15 of the block in state `st`, with entry 0. -/
def cvAt (st : CvState) (signed need : Nat) (y : RtEntry) : State := (one.onBlock 0 fun x =>
  { x with cvs := x.cvs.set 15 ⟨st, signed, need, some 0, 0, 0, []⟩ }).onCluster 0 fun c => { c with table := c.table.set 0 y }
def anEntry : RtEntry := ⟨0, 15, 0, none, none, 0, 0, 0, []⟩
theorem may_ConvergenceRegisters :
    (∀ s ∈ [one, cvAt .opened 3 0 anEntry, cvAt .posted 0 1 anEntry], soleAt (.sign ⟨al, 15⟩) s = true ∧ canRelease (afterIssue b0 s) 0 = true ∧
      (afterIssue b0 s).blocks.has 0 = true ∧ ((afterIssue b0 s).groupOf 0).block = 0) ∧
    ((afterIssue b0 (cvAt .posted 0 1 anEntry)).cluster (blockCluster (afterIssue b0 (cvAt .posted 0 1 anEntry)) 0)).table.find? 0 = some anEntry ∧
    (cvOf (afterIssue b0 (cvAt .posted 0 1 anEntry)) 0 15).state = .posted ∧
    (∀ s ∈ [one, cvAt .posted 0 1 anEntry], soleAt (.cvwait ⟨al, 15⟩) s = true) ∧ (cvOf (afterIssue b0 one) 0 15).state = .idle := by decide +kernel

theorem may_ControlTransfer :
    (∀ t ∈ activeIn (.brx ⟨al, .k 8⟩) b0 one, ((envOf one t).base2 (.k 8)).toNat % 8 = 0) ∧
    (∀ t ∈ activeIn (.ret ⟨al, .v 6⟩) b0 one, ((envOf one t).base2 (.v 6)).toNat % 8 = 0) ∧
    (soleAt (.brx ⟨al, .k 8⟩) (kset one 8 [4]) = true ∧ ((envOf (kset one 8 [4]) 0).base2 (.k 8)).toNat % 8 ≠ 0) ∧
    (soleAt (.ret ⟨al, .v 6⟩) (withV one [(6, 0x104)]) = true ∧ ((envOf (withV one [(6, 0x104)]) 0).base2 (.v 6)).toNat % 8 ≠ 0) := by decide +kernel

/-- A result of thread 0 that is not there yet. -/
def pending (s : State) : State := with0 s fun th => { th with pend := [⟨9, [40], false, false, none, none, 0, false, 0x80, 0⟩] }
/-- Block 1, at stage 5 of the launch, holds thread 9. -/
def staged (w : Why) : State := { one with
  threads := ⟨[(0, th0), (9, { th0 with group := 9, held := .waiting, why := w })]⟩
  groups := ⟨[(0, { Group.fresh with priv := true }), (9, { Group.fresh with priv := true, block := 9 })]⟩
  blocks := ⟨[(0, { Block.fresh with groups := [0], threads := [0] }), (9, { Block.fresh with groups := [9], threads := [9], stage := 5 })]⟩
  launches := ⟨[(0, { Launch.fresh with priv := true, nextBlock := 2, blocks := [0, 9], pkt := { Launch.fresh.pkt with stages := 8, gx := 1, gy := 1, gz := 1 } })]⟩ }
theorem may_ExitSuspendSignal :
    (soleAt (.exit ⟨true, 2⟩) (withV one []) = true ∧ (((afterIssue b0 one).thread 0).pend = []) ∧ aloneAt (.exit ⟨true, 2⟩) (pending one) = true ∧
      pendingHazard (pending one) 0 (usesOf (.exit ⟨true, 2⟩)) (guardOf (.exit ⟨true, 2⟩)) true = false ∧
      replayHold (pending one) 0 (.exit ⟨true, 2⟩) = none ∧ ((pending one).thread 0).pend ≠ []) ∧
    (soleAt (.suspend ⟨true, 2⟩) one = true ∧ ((afterIssue b0 one).block ((afterIssue b0 one).blockIdOf 0)).signal = false ∧
      soleAt (.suspend ⟨true, 2⟩) (one.onBlock 0 fun x => { x with signal := true }) = true) ∧
    (∀ s ∈ [staged .none, staged .suspend], let s0 := afterIssue b0 s
      soleAt (.signal ⟨al, .v 3, 5⟩) s = true ∧ canRelease s0 0 = true ∧ 5 < (s0.launchOf 0).pkt.stages ∧
      ((envOf s0 0).base1 (.v 3)).toNat < (s0.launchOf 0).pkt.gx * (s0.launchOf 0).pkt.gy * (s0.launchOf 0).pkt.gz ∧
      (s0.blocks.items.find? fun e => e.2.launch == s0.launchIdOf 0 && e.2.lin == 0 && e.2.stage == 5).map Prod.fst = some 9 ∧
      s0.blocks.find? 9 = some { Block.fresh with groups := [9], threads := [9], stage := 5 } ∧ s0.blockLive 9 ≠ []) := by decide +kernel

/-! #### The matrix engine, traps, privileged words (MatrixPosting to ContextTransfers) -/

/-- A latch descriptor: 16 rows of 16 FP32 columns at 0x40 of the bank in slot 2. -/
def latchK (w4 : Word) : List Word := [0xFFE8_0040, 0x01FF_FFFF, 0, 0, w4, 16 * 2 ^ 20 + 16 * 2 ^ 10, 64, 0, 0, 0, 0, 0, 0, 0, 0, 0]
/-- A pass descriptor: 16 by 16 by 16, BF16, rows at 0x40 of the bank in slot 2. -/
def passK (w6 : Word) (m : Nat := 16) : List Word := [0xFFE8_0040, 0x01FF_FFFF, 0, 0, 0, 0, w6, BitVec.ofNat 32 (m * (2 ^ 20 + 2 ^ 10 + 1)), 32, 0, 0, 0, 0, 0, 0, 0]
def fullTable (s : State) : State := s.onCluster 0 fun c => { c with table := ⟨(List.range 32).map fun i => (i, ⟨9, 15, 0, none, none, 0, 0, 0, []⟩)⟩ }
theorem may_MatrixPosting :
    (latchOk (latchK 0x0000_0900) false = true ∧ latchOk (latchK 0x0000_0700) false = false ∧ latchLoftOk (latchDesc (latchK 0x0000_0900) false) 0 = true ∧
      one.isUnderstudy = false) ∧
    (∀ s ∈ [one, cvAt .opened 3 0 anEntry, cvAt .posted 0 1 anEntry], ∀ d ∈ [latchK 0x0000_0900, latchK 0x0000_0700],
      soleAt (.wlatch ⟨al, 15, 32, false⟩) (kset s 32 d) = true) ∧
    ((List.range 16).map fun n => ((afterIssue b0 (kset one 32 (latchK 0x0000_0900))).groupOf 0).k.findD (32 + n) 0) = latchK 0x0000_0900 ∧
    (stagedOn one 0 15 = none ∧ entryFor one 0 15 = some 0 ∧ one.blocks.has 0 = true) ∧
    (stagedOn (cvAt .opened 3 0 { anEntry with latch := some ⟨latchK 0x0000_0900, false, 0, 0⟩ }) 0 15).isSome = true ∧
    (∀ ta ∈ [false, true], passOk (passK 0x0000_0900) false false ta false false = true) ∧ passOk (passK 0x2000_0900) false false false false false = false ∧
    passOk (passK 0x0000_0900) false false false true false = false ∧
    (∀ s ∈ [one, cvAt .opened 1 0 anEntry, cvAt .granted 0 1 anEntry, cvAt .opened 0 0 { anEntry with latch := some ⟨latchK 0x0000_0900, false, 0, 0⟩ }],
      ∀ d ∈ [passK 0x0000_0900, passK 0x2000_0900], soleAt (.mmpost ⟨al, 15, 32, 64, false, false, false, false, true⟩) (kset s 32 d) = true) ∧
    latchExtentOk (latchDesc (latchK 0x0000_0900) false) true 0 = true := by decide +kernel
theorem may_MatrixPosting_full : ∀ i ∈ [Instr.wlatch ⟨al, 15, 32, false⟩, .mmpost ⟨al, 15, 32, 64, false, false, false, false, true⟩],
    Alone i b0 (fullTable one) 0 ∧ MayIssue (fullTable one) i b0.pc 0 ∧ entryFor (fullTable one) ((fullTable one).blockIdOf 0) 15 = none := by
  have h : ∀ i ∈ [Instr.wlatch ⟨al, 15, 32, false⟩, .mmpost ⟨al, 15, 32, 64, false, false, false, false, true⟩],
      aloneAt i (fullTable one) = true ∧ mayAt i (fullTable one) = true ∧ entryFor (fullTable one) ((fullTable one).blockIdOf 0) 15 = none := by decide +kernel
  exact fun i hi => ⟨alone (h i hi).1, mayIssue (h i hi).2.1, (h i hi).2.2⟩

/-- A pass on the engine, which leaves tile 17 with status 5. -/
def running (t : Nat) : Running := ⟨0, 0, 15, t, 0, ⟨.empty, .empty, 5, []⟩, (one.cluster 0).wb0, (one.cluster 0).wb1, []⟩
def onEngine (s : State) (t : Nat) : State := s.onCluster 0 fun c => { c with running := some (running t) }
/-- A read-out descriptor: 16 by 16 of tile 3, to 0x2000. -/
def readK (w4 : Word) : List Word := [0x2000, 0, 0, 0, w4, 0x0010_0000, 0x0010_0000, 64, 0, 0, 0, 0, 0, 0, 0, 0]
theorem may_TileWords :
    (soleAt (.accclr ⟨al, 17⟩) one = true ∧ ((afterIssue b0 one).cluster (clusterOf b0.core)).granted = [] ∧ ((afterIssue b0 one).cluster (clusterOf b0.core)).running = none) ∧
    (soleAt (.accstat ⟨al, 5, 17, true⟩) one = true ∧ soleAt (.accstat ⟨al, 5, 17, false⟩) (onEngine one 17) = true ∧
      ((afterIssue b0 (onEngine one 17)).cluster (clusterOf b0.core)).granted = [running 17]) ∧
    (∀ a ∈ [((15, .cv) : BitVec 4 × MxSel), (1, .wb), (2, .wb), (0, .eng), (1, .eng)], soleAt (.mxstat ⟨al, 5, a.1, a.2⟩) one = true) ∧
    (accrdOk (readK 0x0308_0000) = true ∧ accrdOk (readK 0x0307_0000) = false ∧ acccvtOk (readK 0x0309_0000) = true ∧ acccvtOk (readK 0x0307_0000) = false) ∧
    (soleAt (.accrd ⟨al, 48⟩) (kset one 48 (readK 0x0308_0000)) = true ∧ soleAt (.accrd ⟨al, 48⟩) (kset one 48 (readK 0x0307_0000)) = true ∧
      soleAt (.acccvt ⟨al, 48⟩) (kset one 48 (readK 0x0309_0000)) = true ∧ soleAt (.acccvt ⟨al, 48⟩) (kset one 48 (readK 0x0307_0000)) = true ∧
      accessesDone (afterIssue b0 (kset one 48 (readK 0x0308_0000))) 0 = true ∧
      ((afterIssue b0 (kset one 48 (readK 0x0308_0000))).copies.filter fun _ cp => cp.core == b0.core).size < 2048) := by decide +kernel

def aPost (w6 : Word) : Posted := ⟨passK w6 0, false, false, false, false, false, 0, 0⟩
def eligible (w6 : Word) : State := regs (cvAt .eligible 0 1 { anEntry with post := some (aPost w6) }) [(RegNo.flsMap 2, 0, 2 ^ 31 + 7)]
/-- Buffer 1 holds 8 rows. -/
def shortBuffer (s : State) : State := s.onCluster 0 fun c => { c with wb1 := { c.wb1 with valid := true, kw := 8, nw := 16 } }
theorem may_MatrixPasses :
    ((eligible 0x0300_0900).cluster 0).running = none ∧ ((eligible 0x0300_0900).cluster 0).next = none ∧ ((onEngine (eligible 0x0300_0900) 17).cluster 0).next = none ∧
      grantable (onEngine (eligible 0x0300_0900) 17) 0 = [(0, { anEntry with post := some (aPost 0x0300_0900) })] ∧
      (passOf (onEngine (eligible 0x0300_0900) 17) 0 { anEntry with post := some (aPost 0x0300_0900) } (aPost 0x0300_0900)).err = none ∧ (grantable (eligible 0x0300_0900) 0).map Prod.fst = [0] ∧
      grantable (eligible 0x0300_0900) 0 = [(0, { anEntry with post := some (aPost 0x0300_0900) })] ∧
      (eligible 0x0300_0900).blocks.has 0 = true ∧ (passOf (eligible 0x0300_0900) 0 { anEntry with post := some (aPost 0x0300_0900) } (aPost 0x0300_0900)).err = none ∧
    ((onEngine (eligible 0x0300_0900) 17).cluster 0).running = some (running 17) ∧
    (let s := onEngine (with0 one fun th => { th with held := .stalled, why := .cv 15 3 }) 17
     (s.cluster 0).running = some (running 17) ∧ s.blocks.has 0 = true ∧ 0 ∈ (s.block 0).threads ∧ (s.block 0).threads.Nodup ∧ s.threads.has 0 = true ∧
      (s.thread 0).held = .stalled ∧ (s.thread 0).why = .cv (running 17).cv 3) ∧
    (let d := passDesc (passK 0x0301_0900)
     (∀ s ∈ [eligible 0x0301_0900, shortBuffer (eligible 0x0301_0900)], slotsOf s 0 (passSources d) ≠ none ∧ slotsOf s 0 (passRanges d false) ≠ none) ∧
      d.m ≠ 0 ∧ d.n ≠ 0 ∧ d.k ≠ 0 ∧ d.wb = 1 ∧ (buffersNow (eligible 0x0301_0900) 0).2.valid = false ∧
      (buffersNow (shortBuffer (eligible 0x0301_0900)) 0).2.valid = true ∧ (buffersNow (shortBuffer (eligible 0x0301_0900)) 0).2.kw < d.k) := by decide +kernel
theorem may_PoisonedPass : let s := (eligible 0x0301_0900).onCluster 0 fun k =>
      { k with wb1 := { k.wb1 with valid := true, kw := 256, nw := 256 }, tiles := k.tiles.set (passDesc (passK 0x0301_0900)).tile { Tile.zero with poison := [0] } }
    (buffersNow s 0).2.valid = true ∧ (passDesc (passK 0x0301_0900)).k ≤ (buffersNow s 0).2.kw ∧ (passDesc (passK 0x0301_0900)).n ≤ (buffersNow s 0).2.nw ∧
    (tileNow s 0 (passDesc (passK 0x0301_0900)).tile).poison = [0] := by decide +kernel
theorem may_PassCompletes_quiet : ∀ t, ((onEngine (eligible 0x0300_0900) 17).thread t).why = .none :=
  thread_all (P := fun th => th.why = .none) rfl (by decide +kernel)

/-- The launch's packet changed. -/
def pkt (s : State) (f : Packet → Packet) : State := s.onLaunch 0 fun l => { l with pkt := f l.pkt }
/-- The thread at level U. -/
def user (s : State) : State := s.onGroup 0 fun g => { g with priv := false }
/-- A trap queue of context 0 with room. -/
def trapped : State := (regs (mapped one) [(RegNo.trapQ 0, 0, 0x1000)]).onPart 0 fun x => { x with cues := x.cues.set 0x1000 ⟨0x4000, 4, [], 0, []⟩ }
theorem may_TrapsTaken :
    (∀ s ∈ [pkt one fun k => { k with htrap := 0x4000, hbrk := 0x5000 }, trapped, user one], soleAt (.trap ⟨al, 0xABC⟩) s = true ∧
      soleAt (.brk ⟨al, 0x123⟩) s = true ∧ ((afterIssue b0 s).thread 0).pend = [] ∧ ((afterIssue b0 s).launchOf 0).pkt.trapBase = 0 ∧
      sysGet (afterIssue b0 s) RegNo.trapArea ((afterIssue b0 s).partOf 0) = 0 ∧ ((afterIssue b0 s).part 0).tableau.armed = false ∧
      sysBits (afterIssue b0 s) (RegNo.dbgCtl ((afterIssue b0 s).ctxOf 0)) 0 1 0 = 0) ∧
    (let s0 := afterIssue b0 trapped
     (s0.launchOf 0).pkt.htrap = 0 ∧ (s0.launchOf 0).pkt.hbrk = 0 ∧ s0.privOf 0 = true ∧ trapQueue s0 (s0.partOf 0) ((s0.runtime (s0.partOf 0)).getD (s0.ctxOf 0)) = some 0x1000 ∧
     (s0.part (s0.partOf 0)).cues.find? 0x1000 = some ⟨0x4000, 4, [], 0, []⟩) ∧
    (let s0 := afterIssue b0 (user one)
     (s0.launchOf 0).pkt.htrap = 0 ∧ (s0.launchOf 0).pkt.hbrk = 0 ∧ s0.privOf 0 = false ∧ trapQueue s0 (s0.partOf 0) (s0.ctxOf 0) = none) ∧
    sysGet (regs one [(RegNo.trapArea, 0, 0x10_0000)]) RegNo.trapArea 0 ≠ 0 := by decide +kernel

theorem may_WordsRefused :
    (isPrivileged (.halt ⟨al, 5, 9⟩) = true ∧ (Instr.halt ⟨al, 5, 9⟩).wf = true ∧ (user one).issue = .bundle b0 ∧ (user one).threads.has 0 = true ∧
      ((user one).groupOf 0).priv = false ∧ ibrkAt (user one) ((user one).ctxOf 0) b0.pc = false) ∧
    (isPrivileged (.csrr ⟨al, .v 7, 0x08022⟩) = true ∧ (Instr.csrr ⟨al, .v 7, 0x08022⟩).wf = false ∧ (one.groupOf 0).priv = true) ∧
    ((Instr.add ⟨al, .u32, false, .v 40, .v 1, .v 3⟩).wf = true ∧
      namesBeyond ((with0 one fun th => { th with nregs := 32 }).thread 0) (usesOf (.add ⟨al, .u32, false, .v 40, .v 1, .v 3⟩)) = true ∧
      (usesOf (.add ⟨al, .u32, false, .v 40, .v 1, .v 3⟩)).lp = []) := by decide +kernel

/-- Thread 1, in lane 1 of the group, stands in a state of its own; v8 and v3 name it. -/
def other (f : Thread → Thread) (h : Word) : State := withV { mapped one with threads := ⟨[(0, th0), (1, f { th0 with lane := 1, trapPc := 0x200, pc := 0x200 })]⟩ } [(8, h), (3, h), (5, h)]
theorem may_ReturnFromTrap :
    (∀ s ∈ [other id 0x0900_0000, other id 0x0000_0007, other id 1, other (fun th => { th with tc := true, dc := true }) 1, other (fun th => { th with tc := true }) 1],
      ∀ r ∈ [Res.retry, .skip, .pc], soleAt (.eret ⟨al, 5, .v 8, r⟩) s = true) ∧
    (let s0 := afterIssue b0 (other id 0x0900_0000); s0.handlePart ((envOf s0 0).base1 (.v 8)) ≠ some (s0.partOf 0)) ∧
    (let s0 := afterIssue b0 (other id 7); s0.handlePart ((envOf s0 0).base1 (.v 8)) = some (s0.partOf 0) ∧ s0.byHandle ((envOf s0 0).base1 (.v 8)) = none) ∧
    (∀ s ∈ [other id 1, other (fun th => { th with tc := true, dc := true }) 1, other (fun th => { th with tc := true }) 1], let s0 := afterIssue b0 s
      s0.handlePart ((envOf s0 0).base1 (.v 8)) = some (s0.partOf 0) ∧ s0.byHandle ((envOf s0 0).base1 (.v 8)) = some 1 ∧ (s0.thread 1).out = [] ∧
      (s0.groupOf 1).m.items = []) := by decide +kernel

/-- Two contexts of partition 0: 0, the runtime, and 1. -/
def twoCtx : State := regs (mapped one) [(RegNo.ctx 1, 0, 2 ^ 31)]
/-- Halted on die 0. -/
def halted (c : Nat) (s : State) : State := s.onDie 0 fun x => { x with halted := x.halted.set c 0 }
def stalled (w : Why) (s : State) : State := with0 s fun th => { th with held := .stalled, why := w }
theorem may_HaltAndKill :
    (∀ s ∈ [twoCtx, halted 1 twoCtx], ∀ c ∈ [0, 1, 9], soleAt (.halt ⟨al, 5, BitVec.ofNat 8 c⟩) s = true ∧ soleAt (.haltGo ⟨al, 5, BitVec.ofNat 8 c⟩) s = true ∧
      soleAt (.ctxkill ⟨al, 5, BitVec.ofNat 8 c⟩) s = true) ∧
    (let s0 := afterIssue b0 twoCtx
     s0.ctxPart 9 ≠ some (s0.partOf 0) ∧ s0.ctxPart 1 = some (s0.partOf 0) ∧ (s0.die (dieOf b0.core)).halted.has 1 = false ∧ s0.runtime (s0.partOf 0) = some 0 ∧
     s0.ctxOf 0 ≠ 1) ∧ ((afterIssue b0 (halted 1 twoCtx)).die (dieOf b0.core)).halted.has 1 = true ∧
    (∀ s ∈ [stalled (.halt 5 1) twoCtx, stalled (.halt 5 0) (busy twoCtx)], s.threads.has 0 = true ∧ (s.thread 0).held = .stalled) ∧
    haltDone (stalled (.halt 5 1) twoCtx) 0 1 = true ∧ haltDone (stalled (.halt 5 0) (busy twoCtx)) 0 0 = false ∧
    (let s := stalled (.kill 5 1) twoCtx
     s.threads.has 0 = true ∧ (s.thread 0).held = .stalled ∧ (s.thread 0).why = .kill 5 1 ∧ (∀ k ∈ s.clusters.values, k.granted = []) ∧
      ∀ l ∈ s.launches.values, l.ctx ≠ 1) := by decide +kernel

theorem may_ContextTransfers :
    (∀ s ∈ [withV twoCtx [(2, 0x40_0000), (3, 0)], halted 1 (withV twoCtx [(2, 0x40_0000), (3, 0)]), halted 1 (withV twoCtx [(2, 0x40_1000), (3, 0)])], ∀ c ∈ [1, 9],
      soleAt (.ctxsave ⟨al, 5, some (.v 2), BitVec.ofNat 8 c⟩) s = true ∧ soleAt (.ctxload ⟨al, 5, some (.v 2), BitVec.ofNat 8 c⟩) s = true ∧
      soleAt (.ctxload ⟨al, 5, none, BitVec.ofNat 8 c⟩) s = true) ∧
    (let s := stalled (.transfer false 5 1 none) twoCtx
     s.threads.has 0 = true ∧ (s.thread 0).held = .stalled ∧ (s.thread 0).why = .transfer false 5 1 none ∧ haltDone s (dieOf (s.coreOf 0)) 1 = true) ∧
    (let s := stalled (.transfer true 5 1 none) twoCtx
     s.threads.has 0 = true ∧ (s.thread 0).held = .stalled ∧ (s.thread 0).why = .transfer true 5 1 none ∧ (s.die (dieOf (s.coreOf 0))).shadow = none) ∧
    (∀ v ∈ [0, 0x100, 0x7000_0000], soleAt (.tlbinv ⟨al, 0, .v 2, 1, 16, false⟩) (withV twoCtx [(2, BitVec.ofNat 32 v)]) = true) ∧
    soleAt (.tlbinv ⟨al, 0, .v 2, 9, 16, true⟩) twoCtx = true ∧ soleAt (.tlbinv ⟨al, 0, .v 2, 1, 16, true⟩) twoCtx = true ∧
    (let s0 := afterIssue b0 twoCtx; inPir s0 (s0.partOf 0) 0 (2 ^ 16) = true ∧ inPir s0 (s0.partOf 0) 0x100 (2 ^ 16) = true ∧ inPir s0 (s0.partOf 0) 0x7000_0000 (2 ^ 16) = false) ∧
    (∀ s ∈ [stalled (.tlbinv 5 0 1 16 false) twoCtx, stalled (.tlbinv 5 0 1 16 false) (with0 twoCtx fun th => { th with out := [{ asked0 (.load .b32 9) true false 0 (.host 7) with va := 0 }] })],
      s.threads.has 0 = true ∧ (s.thread 0).held = .stalled ∧ (s.thread 0).why = .tlbinv 5 0 1 16 false) ∧
    onItsWay (stalled (.tlbinv 5 0 1 16 false) twoCtx) 0 (2 ^ 16) = false ∧ (twoCtx.die 0).slices.items = [] ∧
    onItsWay (with0 twoCtx fun th => { th with out := [{ asked0 (.load .b32 9) true false 0 (.host 7) with va := 0 }] }) 0 (2 ^ 16) = true := by decide +kernel

/-! #### Context transfers that end (ContextTransfers) -/

/-- Where no die has anything, no leaf is, no line and no cached translation. -/
theorem blank {s : State} (h : s.dies = .empty) : (∀ d ia, leafOf s d ia = none) ∧
    (∀ d ia, leafIn ((s.die d).xlts.findD (homeSlice ia) .empty).cached ia = none) ∧ ∀ l, lineAt s l = none := by
  have hd : ∀ d, s.die d = .idle := fun d => by simp [State.die, h, Sparse.findD, Sparse.find?, Sparse.empty, Sparse.findIn]
  refine ⟨fun d ia => ?_, fun d ia => ?_, fun l => ?_⟩
  · unfold leafOf; rw [hd]; rfl
  · rw [hd]; rfl
  · unfold lineAt; rw [hd]; split <;> rfl
/-- Context 1 is to be saved or loaded, by thread 0. -/
def moving (load : Bool) (mem : Option Nat) (s : State) : State := stalled (.transfer load 5 1 mem) s
/-- A physical window of 448 MiB of die 0 at VA 1 GiB, for context 0; the partition has no cluster. -/
def wide : State := regs twoCtx [(RegNo.pfr 0, 0, 14336 * 2 ^ 32), (RegNo.pcl, 0, 0),
  (RegNo.winA 0 2, 0, 2 ^ 63 + 2 ^ 62 + 2 ^ 61 + 2 ^ 60 + 2 ^ 59 + 2 ^ 57 + 2 ^ 30), (RegNo.winB 0 2, 0, 7167 * 2 ^ 32)]
theorem wide_window (w : Bool) (a : Nat) (h1 : 2 ^ 30 ≤ a) (h2 : a < 2 ^ 30 + imageBytes) :
    ∃ l, viaWindows wide 0 true a ⟨!w, w, false⟩ = .ok l ∧ l.phys = true := by
  have hi : imageBytes = 469762048 := rfl
  have c : wide.ctxPart 0 = some 0 := by decide +kernel
  have f : ∀ n : Fin 3, bits (sysGet wide (RegNo.winA 0 n) 0).toNat 56 16 * 65536 = [0, 2 ^ 21, 2 ^ 30].getD n 0 ∧
      (bits (sysGet wide (RegNo.winB 0 n) 0).toNat 63 32 + 1) * 65536 = [65536, 65536, 469762048].getD n 0 := by decide +kernel
  have no : ∀ n, (a < bits (sysGet wide (RegNo.winA 0 n) 0).toNat 56 16 * 65536 ∨ bits (sysGet wide (RegNo.winA 0 n) 0).toNat 56 16 * 65536 +
      (bits (sysGet wide (RegNo.winB 0 n) 0).toNat 63 32 + 1) * 65536 ≤ a) → windowAt wide 0 n a = none := by
    intro n hn
    unfold windowAt
    simp only [c]
    rw [if_neg]
    simp only [Bool.and_eq_true, decide_eq_true_eq, not_and]
    omega
  have n0 : windowAt wide 0 0 a = none := no 0 (.inr (by have x := (f 0).1; have y := (f 0).2; exact x ▸ y ▸ (by show 0 + 65536 ≤ a; omega)))
  have n1 : windowAt wide 0 1 a = none := no 1 (.inr (by have x := (f 1).1; have y := (f 1).2; exact x ▸ y ▸ (by show 2 ^ 21 + 65536 ≤ a; omega)))
  have n2 : windowAt wide 0 2 a = some (⟨0, a - 2 ^ 30, true, true, 0, a⟩, ⟨true, true, true⟩) := by
    have g : bits (sysGet wide (RegNo.winB 0 2) 0).toNat 31 0 * 65536 = 0 ∧ (bits (sysGet wide (RegNo.winA 0 2) 0).toNat 57 57 == 1) = true ∧
      (bits (sysGet wide (RegNo.winA 0 2) 0).toNat 59 59 == 1) = true ∧ bits (sysGet wide (RegNo.winA 0 2) 0).toNat 58 58 = 0 ∧
      (bits (sysGet wide (RegNo.winA 0 2) 0).toNat 63 63 == 1) = true ∧ (bits (sysGet wide (RegNo.winA 0 2) 0).toNat 62 62 == 1) = true ∧
      (bits (sysGet wide (RegNo.winA 0 2) 0).toNat 61 61 == 1) = true ∧ (bits (sysGet wide (RegNo.winA 0 2) 0).toNat 60 60 == 1) = true ∧
      decide (bits (sysGet wide (RegNo.pfr 0) 0).toNat 22 0 * 32768 ≤ 0 ∧
        0 + 469762048 ≤ (bits (sysGet wide (RegNo.pfr 0) 0).toNat 22 0 + bits (sysGet wide (RegNo.pfr 0) 0).toNat 54 32) * 32768) = true := by decide +kernel
    obtain ⟨g1, g2, g3, g4, g5, g6, g7, g8, g9⟩ := g
    have f1 : bits (sysGet wide (RegNo.winA 0 2) 0).toNat 56 16 * 65536 = 2 ^ 30 := (f 2).1
    have f2 : (bits (sysGet wide (RegNo.winB 0 2) 0).toNat 63 32 + 1) * 65536 = 469762048 := (f 2).2
    have h3 : decide (2 ^ 30 ≤ a ∧ a < 2 ^ 30 + 469762048) = true := by simp only [decide_eq_true_eq]; omega
    unfold windowAt
    simp only [c, g1, g2, g3, g4, g5, g6, g7, g8, f1, f2, g9, h3, if_true, Bool.and_true, Nat.zero_add]
    rw [if_pos (by decide)]
  refine ⟨⟨0, a - 2 ^ 30, true, true, 0, a⟩, ?_, rfl⟩
  unfold viaWindows
  rw [if_neg (by omega)]
  simp [List.range, List.range.loop, n0, n1, n2]
theorem wide_faults {s : State} (h : s.sys = wide.sys) (w : Bool) : imageFaults s 0 true (2 ^ 30) w = false := by
  unfold imageFaults
  rw [List.any_eq_false]
  intro i hi
  have hi := List.mem_range.1 hi
  have e : imageBytes = 469762048 := rfl
  obtain ⟨l, h1, h2⟩ := wide_window w (2 ^ 30 + 65536 * i) (by omega) (by omega)
  rw [viaWindows_congr h, h1]
  simp [h2]
theorem may_ContextTransfers_saved :
    (let s := moving false none twoCtx
     haltDone s 0 1 = true ∧ s.threads.has 0 = true ∧ ∃ s1, putPlanes (takeImage (suspendCopies s (haltedThreads s 0 1) true) 0 0 1).2 0 0 1 = some s1) ∧
    (let s := moving false (some (2 ^ 40)) twoCtx; haltDone s 0 1 = true ∧ imageFaults s (s.ctxOf 0) (s.privOf 0) (2 ^ 40) true = true) := by
  refine ⟨⟨by decide +kernel, by decide +kernel, ?_⟩, by decide +kernel, ?_⟩
  · obtain ⟨h1, h2, h3⟩ := blank (s := (takeImage (suspendCopies (moving false none twoCtx) (haltedThreads (moving false none twoCtx) 0 1) true) 0 0 1).2) rfl
    exact ⟨_, putPlanes_unmapped h1 h2 h3 0 0 1⟩
  · unfold imageFaults
    rw [List.any_eq_true]
    exact ⟨0, by decide +kernel, by decide +kernel⟩
theorem image_length (i : Image) (h : i.code.length = 64) : i.bytes.length = imageBytes := by
  unfold Image.bytes
  rw [List.length_append, List.length_map, List.length_range, h]; rfl
theorem image_written {s : State} (h : s.sys = wide.sys) {i : Image} (hl : i.bytes.length = imageBytes) (r : StoreRec) :
    ∃ s1 s2, writeRange s 0 true r (2 ^ 30) i.bytes = (.ok (), s1) ∧ putPlanes { s1 with images := i :: s1.images } 0 0 1 = some s2 := by
  obtain ⟨s1, h1, h2⟩ := writeRange_phys (s := s) (c := 0) (priv := true) (r := r) (va := 2 ^ 30) (b := i.bytes) (by
    intro a h1 h2
    rw [hl] at h2
    obtain ⟨l, e1, e2⟩ := wide_window true a h1 h2
    exact ⟨l, by rw [viaWindows_congr h]; exact e1, e2⟩)
  refine ⟨s1, { s1 with images := i :: s1.images }, h1, ?_⟩
  have e : clustersOn { s1 with images := i :: s1.images } 0 0 = clustersOn wide 0 0 := by
    unfold clustersOn State.clustersOf sysGet
    show ((List.range 64).filter fun c => ((s1.sys.find? _).getD _).getLsbD c).filter _ = _
    rw [h2, h]; rfl
  unfold putPlanes
  rw [e, show clustersOn wide 0 0 = [] by decide +kernel, List.foldl_nil]
theorem code_length (s : State) (p d c : Nat) : (takeImage s p d c).1.code.length = 64 := by
  show (_ ++ fixedLen 40 _).length = 64
  rw [List.length_append, fixedLen, List.length_take]
  simp [bytesOfNat]
  omega
theorem may_ContextTransfers_written :
    let s := moving false (some (2 ^ 30)) wide
    let x := takeImage (suspendCopies s (haltedThreads s 0 1) true) 0 0 1
    haltDone s 0 1 = true ∧ imageFaults s (s.ctxOf 0) (s.privOf 0) (2 ^ 30) true = false ∧
    ∃ s1 s2, writeRange x.2 (s.ctxOf 0) (s.privOf 0) (storeOf s 0 []) (2 ^ 30) x.1.bytes = (.ok (), s1) ∧
      putPlanes { s1 with images := x.1 :: s1.images } 0 0 1 = some s2 := by
  intro s x
  have hp : s.privOf 0 = true ∧ s.ctxOf 0 = 0 := by decide +kernel
  rw [hp.1, hp.2]
  have h1 : haltDone s 0 1 = true := by decide +kernel
  have h2 : s.sys = wide.sys := rfl
  have h3 : x.2.sys = s.sys := rfl
  have h4 : x.1.bytes.length = imageBytes := image_length _ (code_length _ _ _ _)
  clear_value x
  exact ⟨h1, wide_faults h2 true, image_written (h3.trans h2) h4 (storeOf s 0 [])⟩
/-- An image of context 1 of die 0 stands in its shadow. -/
def anImage (c : Nat) : Image := { (takeImage wide 0 0 c).1 with ctx := c }
def shadowed (c : Nat) (s : State) : State := s.onDie 0 fun d => { d with shadow := some (anImage c) }
theorem may_ContextTransfers_loaded :
    (let s := moving true none twoCtx; (s.die 0).shadow = none) ∧
    (let s := moving true (some (2 ^ 40)) twoCtx; imageFaults s (s.ctxOf 0) (s.privOf 0) (2 ^ 40) false = true) ∧
    (let s := moving true none (shadowed 9 wide); ∃ i, loadSource s 0 0 none = .image i ∧ i.ctx ≠ 1) ∧
    (let s := moving true none (shadowed 1 wide); ∃ i, loadSource s 0 0 none = .image i ∧ i.ctx = 1 ∧ loadOccupied s 0 0 i = false ∧
      ∃ s1, getPlanes (putImage s i) 0 0 1 = some s1) := by
  refine ⟨by decide +kernel, ?_, ?_, ?_⟩
  · unfold imageFaults
    rw [List.any_eq_true]
    exact ⟨0, by decide +kernel, by decide +kernel⟩
  · exact ⟨_, rfl, by decide +kernel⟩
  · refine ⟨anImage 1, rfl, rfl, by decide +kernel, putImage (moving true none (shadowed 1 wide)) (anImage 1), ?_⟩
    have e : clustersOn (putImage (moving true none (shadowed 1 wide)) (anImage 1)) 0 0 = [] := by decide +kernel
    unfold getPlanes
    rw [e, List.foldl_nil]

/-! #### Registers and what writes to them do (SystemRegisters to ReadsThatTake) -/

/-- The host reaches register `reg`, instance `inst`, through the physical function. -/
def acc (reg inst val : Nat) : RegAcc := ⟨.pf, BitVec.ofNat 20 reg, inst, 8, 0, BitVec.ofNat 64 val⟩
theorem writesReg {s : State} {reg inst val k p : Nat} (h : (s.running && reg < 2 ^ 20 && accessOk s (acc reg inst val) true == some (k, p)) = true) :
    WritesReg s (acc reg inst val) reg k p (BitVec.ofNat 64 val) := by
  simp only [Bool.and_eq_true, decide_eq_true_eq, beq_iff_eq] at h
  exact ⟨h.1.1, by have := h.1.2; simp [acc]; omega, rfl, rfl, h.2⟩
theorem readsReg {s : State} {reg inst k p : Nat} (h : (s.running && reg < 2 ^ 20 && accessOk s (acc reg inst 0) false == some (k, p)) = true) :
    ReadsReg s (acc reg inst 0) reg k := by
  simp only [Bool.and_eq_true, decide_eq_true_eq, beq_iff_eq] at h
  exact ⟨h.1.1, by have := h.1.2; simp [acc]; omega, rfl, p, h.2⟩
/-- May the register be written so? -/
def may_write (s : State) (reg inst val : Nat) : Bool := s.running && reg < 2 ^ 20 && accessOk s (acc reg inst val) true == some (inst, 0)
def isOk {α β : Type} (r : Answer α × β) : Bool := match r.1 with
  | .ok _ => true
  | _ => false
def isFault {α β : Type} (r : Answer α × β) : Bool := match r.1 with
  | .fault _ _ => true
  | _ => false
def bytesIn (r : Answer (List Byte) × State) : List Byte := match r.1 with
  | .ok b => b
  | _ => []
/-- Bytes stand at a physical address of die 0. -/
def withMem (s : State) (a : Nat) (b : List Byte) : State := { s with hbm := Memory.writeN s.hbm (hbmKey 0 a) b }

theorem may_SystemRegisters :
    (∀ n ∈ [RegNo.evc 3, RegNo.bootFails, RegNo.trapArea], soleAt (.csrr ⟨al, .v 6, BitVec.ofNat 20 n⟩) one = true ∧ soleAt (.csrw ⟨al, .v 6, BitVec.ofNat 20 n⟩) one = true) ∧
    (let s0 := afterIssue b0 one
     csrInst s0 0 0 RegNo.bootFails = none ∧ csrInst s0 0 0 (RegNo.evc 3) = some 0 ∧ (regInfo (RegNo.evc 3)).isSome = true ∧ (regWrite s0 (.core 0) 0 (RegNo.evc 3) 0 5).isSome = true) ∧
    (let i : Instr := .csrw ⟨al, .v 6, BitVec.ofNat 20 (RegNo.evc 3)⟩
     aloneAt i (busy one) = true ∧ pendingHazard (busy one) 0 (usesOf i) (guardOf i) true = false ∧ replayHold (busy one) 0 i = none ∧
     accessesDone (busy one) 0 = false) ∧
    (soleAt (.csrw ⟨al, .v 6, BitVec.ofNat 20 (RegNo.winA 0 3)⟩) (mapped one) = true ∧
     (let s0 := afterIssue b0 (mapped one)
      csrInst s0 0 0 (RegNo.winA 0 3) = some 0 ∧ (regWrite s0 (.core 0) 0 (RegNo.winA 0 3) 0 5).isSome = true)) ∧
    (let s := giving (mapped one) 2 6 1
     (regWrite (afterIssue b0 s) (.core 0) 0 (RegNo.flsMap 2) 0 0) = none ∧ csrInst (afterIssue b0 s) 0 0 (RegNo.flsMap 2) = some 0) ∧
    regInfo 0xFFFFF = none ∧ ((regInfo RegNo.bootFails).map RegInfo.mOnly) = some true ∧
    ([RegNo.evc 3, RegNo.flsMap 1, RegNo.loftCtl, RegNo.dbgCtl 7].map fun n => (regInfo n).map RegInfo.per) = [some .part, some .core, some .die, some .ctx] ∧
    (afterIssue b0 one).ctxPart 7 ≠ some ((afterIssue b0 one).partOf 0) ∧
    may_write one (RegNo.evc 3) 0 5 = true ∧ accessOk one ⟨.vf 0, BitVec.ofNat 20 RegNo.trapArea, 0, 8, 0, 0⟩ true = none ∧
    accessOk one ⟨.vf 0, BitVec.ofNat 20 RegNo.trapArea, 0, 8, 0, 0⟩ false = none ∧ sysBits one RegNo.hlkErr (0 : BitVec 3).toNat 63 63 = 0 ∧
    (∀ n ∈ [RegNo.rsvcl, RegNo.trapArea, RegNo.saveBase, RegNo.bsMask, RegNo.bsWord, RegNo.rtCtx, RegNo.pir, RegNo.pfr 0, RegNo.pfr 1,
      RegNo.faultArea, RegNo.faultQ, RegNo.b2map, RegNo.uepBase], may_write (mapped one) n 0 0x1234_5678 = true) := by decide +kernel

/-- A launch that waits for event counter 3 to reach 5; queue 3 enabled, of 16 packets. -/
def queued : State := (regs (mapped one) [(RegNo.lq 3, 0, 4 * 2 ^ 60 + 0x2 * 4096)]).onLaunch 0 fun l => { l with pkt := { l.pkt with deps := [⟨true, 3, 5⟩] }, depSeen := [false] }
theorem may_DispatcherRegisters :
    (may_write queued RegNo.evcAdd 0 (3 * 2 ^ 32 + 5) = true ∧ ((queued.launches.find? 0).map fun l => (l.part, l.pkt.deps)) = some (0, [⟨true, 3, 5⟩])) ∧
    (may_write queued (RegNo.lqPtr 3) 0 2 = true ∧ lqDev queued 0 3 = false ∧ lqEnabled queued 0 3 = true ∧ (2 + 2 ^ 32 - lqHead queued 0 3) % 2 ^ 32 ≤ lqCap queued 0 3 ∧
      may_write queued (RegNo.lqPtr 4) 0 2 = true ∧ lqEnabled queued 0 4 = false) ∧
    (may_write queued RegNo.cancel 0 0 = true ∧ ((queued.launches.find? 0).map fun l => (l.part, l.queue, l.seq, l.retire, l.ended)) = some (0, 0, 0, .live, none) ∧
      may_write queued RegNo.cancel 0 7 = true ∧ (∀ e ∈ queued.launches.items, e.2.seq ≠ 7) ∧ queued.copies.items = []) := by decide +kernel
theorem may_CueRegister :
    (may_write queued RegNo.cueReg 0 0x1001 = true ∧ (queued.part 0).cues.size = 0 ∧ cueBlock (bytesIn (agentRead queued 0 0x1000 64)) = none ∧
      isOk (agentRead queued 0 0x1000 64) = true ∧ isFault (agentRead queued 0 (2 ^ 40) 64) = true ∧ may_write queued RegNo.cueReg 0 (2 ^ 40 + 1) = true ∧
      cueBlock (bytesIn (agentRead (withMem queued 0x1000 [0, 0x40, 0, 0, 0, 0, 0, 0, 4]) 0 0x1000 64)) = some (0x4000, 16) ∧
      may_write (cued [] 4) RegNo.cueReg 0 0x1001 = true ∧ ((cued [] 4).part 0).cues.has 0x1000 = true) ∧
    (may_write queued RegNo.cueReg 0 0x1000 = true ∧ may_write (cued [] 4) RegNo.cueReg 0 0x1000 = true ∧ may_write (cued [(7, [])] 4) RegNo.cueReg 0 0x1000 = true) ∧
    (may_write (regs (cued [(7, [])] 1) [(RegNo.smgCueH, 0, 0x1000)]) RegNo.smgCueE 0 9 = true ∧ cueFull (cued [(7, [])] 1) 0 0x1000 = true ∧
      may_write (regs (cued [] 4) [(RegNo.smgCueH, 0, 0x1000)]) RegNo.smgCueE 0 9 = true) ∧
    (may_write queued RegNo.bsOpen 0 (2 ^ 40 + 1000) = true ∧ (queued.part 0).bubble = none ∧ bits (2 ^ 40 + 1000) 31 0 ≠ 0 ∧ calm queued = true) ∧
    may_write (queued.onPart 0 fun y => { y with bubble := some ⟨1000, 1, 0, 1⟩ }) RegNo.bsOpen 0 0 = true := by decide +kernel

/-- A leaf of 64 KiB at intermediate address 0, frame 0, context 0, to be written on die 0. -/
def leafAt (ia : Nat) : State := regs (mapped one) [(RegNo.pteIa, 0, ia), (RegNo.pteData, 0, 2 ^ 63)]
def faultAt : FaultRec := ⟨0, 0, 0, 0, 0, 0, 0, 0, 1, [], []⟩
/-- A load of thread 0 is held by fault record 3. -/
def heldLoad (fs : List Nat) : State := ((mapped one).onPart 0 fun y => { y with faults := y.faults.set 3 { faultAt with fetchers := fs } }).onThread 0 fun th =>
  { th with out := [{ asked0 (.load .b32 9) true false 0 (.fault 3) with entry := some 4 }] }
theorem may_LeavesAndFaults :
    (∀ n ∈ [RegNo.pteCmd, RegNo.hlCmd], ∀ op ∈ [1, 2, 3], may_write (leafAt 1) n 0 op = true) ∧ calm (leafAt 1) = true ∧
    bitList 2 (leafCmd (leafAt 1) 0).dies = [0] ∧
    (∀ host ∈ [false, true], leafRefusal (leafAt 1) 0 0 host 1 (leafCmd (leafAt 1) 0) = 0 ∧ leafRefusal (leafAt 1) 0 0 host 3 (leafCmd (leafAt 1) 0) = 0 ∧
      leafRefusal (leafAt 0x7000_0001) 0 0 host 1 (leafCmd (leafAt 0x7000_0001) 0) ≠ 0) ∧
    (let s := (leafAt 1).onDie 0 fun d => { d with leaves := [⟨0, false, 0⟩] }
     leafRefusal s 0 0 false 2 (leafCmd s 0) = 0 ∧ may_write s RegNo.pteCmd 0 2 = true ∧ calm s = true ∧ bitList 2 (leafCmd s 0).dies = [0]) ∧
    (inPir (leafAt 1) 0 0 65536 = true ∧ foreignPir (leafAt 1) 0 0 65536 = false ∧
      sizeConflict ((leafAt 1).onDie 0 fun d => { d with leaves := [⟨0, true, 0⟩] }) 0 (leafCmd (leafAt 1) 0) = true) ∧
    (may_write (heldLoad []) RegNo.resolve 0 (2 ^ 12 + 3) = true ∧ may_write (heldLoad []) RegNo.resolve 0 (2 ^ 13 + 3) = true ∧
      ((heldLoad []).part 0).faults.find? 3 = some faultAt ∧ faultAt.wbs = [] ∧
      ((heldLoad []).threads.items.flatMap fun e => if (heldLoad []).partOf e.1 == 0 then (e.2.out.filter fun r => r.st == .fault 3).map fun r => (e.1, r) else [])
        = [(0, { asked0 (.load .b32 9) true false 0 (.fault 3) with entry := some 4 })]) ∧
    (let s := stalled .fetch (heldLoad [0]); may_write s RegNo.resolve 0 (2 ^ 12 + 3) = true ∧ s.threads.has 0 = true ∧ (s.thread 0).why = .fetch) := by decide +kernel

/-- Banks 7 and 9 of die 0 are the partition's. -/
def owned : State := regs (mapped one) [(RegNo.flsOwn 7, 0, 2 ^ 31), (RegNo.flsOwn 9, 0, 2 ^ 31)]
def loading (st : LoadSt) (s : State) : State := s.onDie 0 fun d => { d with load := some ⟨0, 0, 0, 0, 0, true, 3, st⟩ }
theorem may_SwitchAndLoft :
    (∀ v ∈ [2 ^ 31 + 9, 2 ^ 31 + 20, 0], may_write owned (RegNo.flsMap 1) 0 v = true ∧ mapWaits owned 0 1 (BitVec.ofNat 64 v) = false) ∧
    mapAllowed owned 0 1 9 false = true ∧ mapAllowed owned 0 1 20 false = false ∧
    (may_write owned (RegNo.flsOwn 7) 0 (2 ^ 31 + 2 ^ 28) = true ∧ attachments owned 0 7 ≠ [] ∧ may_write owned (RegNo.flsOwn 9) 0 (2 ^ 31 + 2 ^ 28) = true ∧
      attachments owned 0 9 = [] ∧ bits (sysGet owned (RegNo.flsOwn 9) 0).toNat 31 28 = 8 ∧ may_write owned (RegNo.flsOwn 9) 0 (2 ^ 31 + 5) = true) ∧
    (∀ op ∈ [1, 2, 3], ∀ b ∈ [7, 9, 20], may_write owned RegNo.flsBankCtl 0 (op * 2 ^ 30 + b) = true ∧ bankWaits owned 0 (BitVec.ofNat 64 (op * 2 ^ 30 + b)) = false) ∧
    bankPart owned 0 7 = some 0 ∧ bankPart owned 0 9 = some 0 ∧ bankPart owned 0 20 ≠ some 0 ∧
    (may_write owned RegNo.loftCtl 0 (2 ^ 28 + 1) = true ∧ loadAllowed owned 0 0 0 1 = true ∧ loadAllowed owned 0 0 0 0 = false) ∧
    (((loading .waiting owned).die 0).load = some ⟨0, 0, 0, 0, 0, true, 3, .waiting⟩ ∧ launchOn (loading .waiting owned) 0 0 = true ∧
      launchOn (loading .waiting { owned with launches := .empty }) 0 0 = false) ∧
    ((loading (.copied true) owned).die 0).load = some ⟨0, 0, 0, 0, 0, true, 3, .copied true⟩ := by decide +kernel

theorem may_ReadsThatTake :
    ReadsReg one (acc RegNo.smgFifo 0 0) RegNo.smgFifo 0 ∧ ReadsReg one (acc RegNo.hlkNote 0 0) RegNo.hlkNote 0 ∧ ReadsReg one (acc RegNo.hlkErr 0 0) RegNo.hlkErr 0 ∧
    ReadsReg one (acc (RegNo.prmErr 2) 1 0) (RegNo.prmErr 2) 1 ∧ ReadsReg one (acc RegNo.scbCe 1 0) RegNo.scbCe 1 ∧ ReadsReg one (acc RegNo.scbUe 0 0) RegNo.scbUe 0 ∧
    ReadsReg (one.onDie 0 fun d => { d with ueLog := [⟨1, 5, true, 64⟩] }) (acc RegNo.scbUe 0 0) RegNo.scbUe 0 ∧
    ReadsReg one (acc (RegNo.tunAvs 63) 0 0) (RegNo.tunAvs 63) 0 :=
  ⟨readsReg (p := 0) (by decide +kernel), readsReg (p := 0) (by decide +kernel), readsReg (p := 0) (by decide +kernel), readsReg (p := 0) (by decide +kernel),
    readsReg (p := 0) (by decide +kernel), readsReg (p := 0) (by decide +kernel), readsReg (p := 0) (by decide +kernel), readsReg (p := 0) (by decide +kernel)⟩
theorem may_Writes : WritesReg queued (acc RegNo.evcAdd 0 (3 * 2 ^ 32 + 5)) RegNo.evcAdd 0 0 (BitVec.ofNat 64 (3 * 2 ^ 32 + 5)) := writesReg (by decide +kernel)

/-! #### Prompters and the dispatcher (LogitComputes to PrompterJobs) -/

/-- A job of slot 0 in partition 0, whose record is at 0x1000. -/
def aJob : Job :=
  { part := 0, addr := 0x2000, seqAt := 0x1000, desc := [0, 0, 0, 0, 0x1000], seqd := [], prog := [], ip := 0, pos := 0, set := []
    s := List.replicate 16 0, nanm := false, rownan := false, tail := 0, outs := [], drawn := none, finished := false }
/-- Prompter 1 of die 0 executes a word of it. -/
def jobState (s : State) (j : Job) : State := ({ s with issue := .prompter 0 1 0 }).onDie 0 fun d => { d with prompters := d.prompters.set 1 ⟨[j], false⟩ }
def at1 (s : State) (j : Job) : Bool := (jobState s j).issue == .prompter 0 1 0 && (prompterOf (jobState s j) 0 1).jobs[0]? == some j
def atMapped : State := mapped one
/-- Its counts: one history token, one bias, one watched token; its tables at `va`. -/
def tables (j : Job) (va : Word) : Job := { j with seqd := [0, 0, 0, 0, va, 0, va, 0, va, 0, va, 0, 16, 16, 0x0001_0001, 1] }
def oneEntry : WsEntry := ⟨5, true, List.replicate 8 0⟩
theorem may_LogitComputes : at1 one aJob = true ∧ at1 one { aJob with set := [oneEntry], rownan := true } = true ∧
    aJob.nanm = false ∧ (∀ x ∈ ({ aJob with nanm := true, set := [oneEntry] } : Job).lives 0, x.2 = 0) ∧
    (∀ x ∈ ({ aJob with nanm := true, set := [{ oneEntry with w := List.replicate 8 0xFF80_0000 }] } : Job).lives 0, x.2 = 0xFF80_0000) := by decide +kernel
theorem may_LogitReads :
    (at1 atMapped aJob = true ∧ aJob.place (aJob.dword 4) (aJob.word 6) = 0x1000 ∧
      isFault (agentRead (jobState one aJob) 0 0x1000 32) = true ∧ isOk (agentRead (jobState atMapped aJob) 0 0x1000 32) = true ∧
      bytesIn (agentRead (jobState (withMem atMapped 0x1000 ([0, 0, 0x80, 0x3F, 0, 0, 0, 0x40, 1] : List Byte)) aJob) 0 0x1000 32)
        = ([0, 0, 0x80, 0x3F, 0, 0, 0, 0x40, 1] ++ List.replicate 23 0 : List Byte) ∧
      bytesIn (agentRead (jobState (withMem atMapped 0x1009 [0x20]) aJob) 0 0x1000 32) = (List.replicate 9 0 ++ [0x20] ++ List.replicate 22 0 : List Byte) ∧
      isOk (agentRead (jobState atMapped aJob) 0 0x1020 8) = true) ∧
    (aJob.nwatch = 0 ∧ (tables aJob 0x1000).nwatch = 1 ∧ (tables aJob 0x1000).ncnt ≠ 0 ∧ (tables aJob 0x1000).nbias ≠ 0 ∧
      bytesIn (agentRead (jobState atMapped (tables aJob 0x1000)) 0 0x1000 4) = [0, 0, 0, 0] ∧ bytesIn (agentRead (jobState atMapped (tables aJob 0x1000)) 0 0x1000 8) = List.replicate 8 0) ∧
    (aJob.dword 8 = 0 ∧ ({ aJob with desc := [0, 0, 0, 0, 0x1000, 0, 0, 0, 0x1000, 0, 0x1000, 0, 0, 1] } : Job).dword 8 ≠ 0 ∧
      ({ aJob with desc := [0, 0, 0, 0, 0x1000, 0, 0, 0, 0x1000, 0, 0x1000, 0, 0, 1] } : Job).dword 10 ≠ 0 ∧
      ({ aJob with desc := [0, 0, 0, 0, 0x1000, 0, 0, 0, 0x1000, 0, 0x1000, 0, 0, 1] } : Job).word 13 = 1) ∧
    (aJob.sq2 10 = 0 ∧ (tables aJob 0x1000).sq2 10 ≠ 0 ∧ (tables aJob 0x1000).sq 12 = 16 ∧ oneEntry.live = true ∧
      isOk (agentRead (jobState atMapped aJob) 0 0x1000 1) = true) := by decide +kernel

/-- Partition 0 has cluster 0 alone, and launch 7 of one block is admitted. -/
def launching (l : Launch) : State := regs { mapped one with launches := ⟨[(7, l)]⟩, clk := 200000, ctr := 20 } [(RegNo.pcl, 0, 1)]
def aLaunch : Launch := { Launch.fresh with order := 1 }
/-- Queue 3 holds one packet. -/
def packetWaits : State := regs (mapped one) [(RegNo.lq 3, 0, 4 * 2 ^ 60 + 0x2 * 4096 + 8), (RegNo.lqPtr 3, 0, 1)]
/-- Launch 0 is over. -/
def isOver (f : Launch → Launch) : State := (with0 one fun th => { th with held := .exited }).onLaunch 0 f
def placed (c : Choice) : Option (Nat × Option Nat × Nat) := match c with
  | .place id n c _ => some (id, n.saved, c)
  | _ => none
def filled (c : Choice) : Bool := match c with
  | .fill _ _ _ _ => true
  | _ => false
theorem may_Admits : nextQueue packetWaits 0 = some 3 ∧ nextQueue one 0 = none := by decide +kernel
theorem may_AdmitReads : isOk (agentRead packetWaits 0 (lqSlot packetWaits 0 3 (lqHead packetWaits 0 3)) 448) = true := by decide +kernel
theorem may_Places : placed (choiceOf (launching aLaunch) 0) = some (7, none, 0) ∧ ((launching aLaunch).launch 7).disp = none ∧
    (launching aLaunch).ns ≤ ((launching aLaunch).launch 7).pkt.deadline := by decide +kernel
theorem may_Drops : let s := launching { aLaunch with pkt := { aLaunch.pkt with deadline := 100, grace := 10, drop := true } }
    placed (choiceOf s 0) = some (7, none, 0) ∧ (s.launch 7).disp = none ∧ (s.launch 7).pkt.deadline < s.ns ∧
    min ((s.launch 7).pkt.deadline + (s.launch 7).pkt.grace) (2 ^ 64 - 1) < s.ns ∧ (s.launch 7).pkt.drop = true := by decide +kernel
theorem may_Fills : filled (choiceOf ((launching { aLaunch with pkt := { aLaunch.pkt with affinity := 0x20_0000 } }).onDie 0 fun d => { d with leaves := [leaf0] }) 0) = true := by
  decide +kernel
theorem may_Reserves : let s := launching { aLaunch with unplaced := some 100 }
    (candidates s 0).map Prod.fst = [7] ∧ (s.part 0).reserve = none ∧ 80000 ≤ s.clk - 100 ∧ clustersFor s { aLaunch with unplaced := some 100 } (nextOf s 7 { aLaunch with unplaced := some 100 }).stage = [0] := by
  decide +kernel
theorem may_Retires :
    (one.launches.find? 0 = some { Launch.fresh with priv := true, nextBlock := 1, blocks := [0] } ∧ launchQuiet one 0 (one.launch 0) = false) ∧
    ((isOver id).launches.find? 0).map Launch.retire = some .live ∧ launchQuiet (isOver id) 0 ((isOver id).launch 0) = true ∧ ((isOver id).launch 0).pkt.cplAddr = 0 ∧
    ((isOver id).launch 0).pkt.cplInt = false ∧
    (let s := regs (isOver fun l => { l with retire := .notice, pkt := { l.pkt with cplInt := true } }) [(RegNo.lq 0, 0, 1)]
     ((s.launches.find? 0).map fun l => (l.retire, l.pkt.cplInt)) = some (.notice, true) ∧ lqIrq s 0 0 = 1 ∧ (s.part 0).notes = []) ∧
    256 ≤ ((one.onPart 0 fun x => { x with notes := List.replicate 256 0 }).part 0).notes.length := by decide +kernel

/-- Block 0 has waited since the start; a save area of 2^20 bytes. -/
def waits (s : State) : State := { regs (with0 s fun th => { th with held := .waiting, why := .suspend }) [(RegNo.saveBase, 0, 20 * 2 ^ 58 + 0x10_0000)] with clk := 200000 }
/-- Block 0 queued for relaunch. -/
def requeued : State := regs { (mapped one).onBlock 0 fun x => { x with save := .queued 0 4096 } with ctr := 20 } [(RegNo.pcl, 0, 1), (RegNo.rsvcl, 0, 1)]
/-- The frame of block 0 can be written. -/
def frameWritten (s : State) : Bool :=
  let f := s.freeBytes (frameSize s (s.block 0))
  match frameFor s 0 (frameSize s (s.block 0)) with
  | some o => (areaWrite f.2 (s.launch (s.block 0).launch).ctx (locateDie s 0) (((saveArea s 0).getD (0, 0)).1 + o) f.1).isSome
  | none => false
/-- The pages of the save area's first frame are locked. -/
def lockedArea (s : State) : State := s.onDie 0 fun d => { d with leaves := [⟨0, true, 2 ^ 63 + 2 ^ 62⟩] }
theorem may_SavesAndBubbles :
    frameWritten (waits one) = true ∧ frameWritten (waits (one.onBlock 0 fun x => { x with due := some 5 })) = true ∧
    frameWritten (lockedArea (waits one)) = false ∧ (frameFor (lockedArea (waits one)) 0 (frameSize (waits one) ((waits one).block 0))).isSome = true ∧
    ((requeued.part 0).heldTraps = []) ∧
    (one.onPart 0 fun y => { y with bubble := some ⟨1000, 1, 0, 1⟩ }).ns < 1000 ∧
    (let s := { one.onPart 0 fun y => { y with bubble := some ⟨1000, 1, 0, 1⟩ } with clk := 200000 }
     (s.part 0).bubble = some ⟨1000, 1, 0, 1⟩ ∧ (⟨1000, 1, 0, 1⟩ : Bubble).ends ≤ s.ns) ∧
    (let s := waits one; (s.block 0).save = .resident ∧ isWaiting s (s.block 0) = true ∧ saveable s 0 = true ∧
      (s.block 0).lastIssue + 1250 * sysBits s RegNo.waitSave 0 9 0 < s.clk ∧ (s.die 0).halted.has 0 = false ∧ (frameFor s 0 (frameSize s (s.block 0))).isSome = true) ∧
    frameFor { with0 one (fun th => { th with held := .waiting, why := .suspend }) with clk := 200000 } 0 4096 = none ∧ isWaiting one (one.block 0) = false ∧
    placed (choiceOf requeued 0) = some (0, some 0, 0) ∧ (one.part 0).bubble = none ∧
    (let s := waits (one.onBlock 0 fun x => { x with due := some 5 })
     ((s.blocks.items.filter fun e => (s.launch e.2.launch).part == 0 && e.2.save == .resident && (match e.2.due with
        | some t => decide (t ≤ s.ns)
        | none => false)).map Prod.fst) = [0] ∧ s.blockLive 0 ≠ [] ∧ saveable s 0 = true ∧ (frameFor s 0 (frameSize s (s.block 0))).isSome = true) := by decide +kernel

/-- Prompter 0 of die 0 takes from the queue at 0x1000. -/
def prompted (entries : List (Dword × List Nat)) : State := (regs (mapped one) [(RegNo.prmSeqBase 0, 0, 1 + 0x3000), (RegNo.prmInq 0, 0, 0x1000)]).onPart 0 fun x =>
  { x with cues := x.cues.set 0x1000 ⟨0x4000, 4, entries, 0, []⟩ }
def published (e : PubEnd) : Nat := match e with
  | .wait => 0
  | .drop _ => 1
  | .done _ => 2
/-- A finished job, its ring at `va`. -/
def ended (va : Word) : Job := { aJob with desc := List.replicate 22 0 ++ [va, 0], finished := true, outs := [(0, 1, 42)] }
def prepared (r : Option (Job × State)) : Option Bool := r.map fun x => x.1.finished
theorem may_PrompterPops :
    (∀ e ∈ [0xFFFF_FFFF_FFFF_FFFF, 0x1001, 2 ^ 40, 0x2000], let s := prompted [(BitVec.ofNat 64 e, [])]
      s.running = true ∧ sysBits s (RegNo.prmSeqBase 0) 0 0 0 = 1 ∧ sysBits s (RegNo.prmSeqBase 0) 0 63 61 = 0 ∧ (sysGet s (RegNo.prmInq 0) 0).toNat = 0x1000 ∧
      (prompterOf s 0 0).stopped = false ∧ (prompterOf s 0 0).jobs = [] ∧ (prompterOf s 0 0).working = 0 ∧ (prompterOf s 0 0).held = none ∧ swapping s 0 0 = false ∧ (s.part 0).cues.find? 0x1000 = some ⟨0x4000, 4, [(BitVec.ofNat 64 e, [])], 0, []⟩) ∧
    endMarker = 0xFFFF_FFFF_FFFF_FFFF ∧ isFault (agentRead (prompted []) 0 (2 ^ 40) 128) = true ∧ bytesIn (agentRead (prompted []) 0 0x2000 128) = List.replicate 128 0 ∧
    prepared (prepare (prompted []) 1 (Job.ofDesc 0 0x2000 0x3000 (List.replicate 128 0))) = some true ∧
    (Job.ofDesc 0 0x2000 0x3000 (List.replicate 128 0)).descOk 0 = true ∧ (Job.ofDesc 0 0x2000 0x3000 (List.replicate 128 0)).descOk 1 = false ∧
    isOk (agentRead (prompted []) 0 0x3000 128) = true ∧ ({ aJob with seqd := List.replicate 32 0 } : Job).seqOk = true ∧ ({ aJob with seqd := [0, 0, 1] } : Job).seqOk = false ∧
    (match readProgram 64 (withMem (prompted []) 7 [0x68]) 0 0 with
      | (.ok ws, _) => ws == [0x6800_0000_0000_0000]
      | _ => false) = true := by decide +kernel
/-- Prompter 0 with eight jobs under way, and with one held behind its slot's earlier job, which is over. -/
theorem may_PrompterJobs_more :
    8 ≤ (⟨List.replicate 8 { aJob with seqd := [1] }, false⟩ : Prompter).working ∧
    swapping ((prompted []).onDie 0 fun x => { x with halted := x.halted.set 0 0 }) 0 0 = true ∧
    ((⟨[aJob], false⟩ : Prompter).held).isSome = true ∧
    (prepare (prompted []) 0 (Job.ofDesc 0 0x2000 0x3000 (List.replicate 128 0))).isSome = true := by decide +kernel
theorem may_PrompterPublishes :
    (prompterOf ((mapped one).onDie 0 fun d => { d with prompters := d.prompters.set 1 ⟨[ended 0x1000], false⟩ }) 0 1).jobs = [ended 0x1000] ∧ aJob.finished = false ∧
    published (publishJob one (ended 0x1000)) = 1 ∧ published (publishJob (withMem (mapped one) 0x1000 [1]) (ended 0x1000)) = 0 ∧
    published (publishJob (withMem (mapped one) 0x100C [4]) (ended 0x1000)) = 2 ∧
    isOk (agentRead (mapped one) 0 0x1000 16) = true ∧
    (ringHead [1, 0, 0, 0, 0, 0, 0, 0, 0, 0, 0, 0, 0]).cap < ((ringHead [1, 0, 0, 0, 0, 0, 0, 0, 0, 0, 0, 0, 0]).tail + 1 + 2 ^ 24 - (ringHead [1, 0, 0, 0, 0, 0, 0, 0, 0, 0, 0, 0, 0]).consumed) % 2 ^ 24 := by
  decide +kernel

/-! #### Copies, scale-out, boot, the host, debuggers (CopiesComplete to MemoryStaysCanonical) -/

/-- A ready record's descriptor: two rows of 16 bytes at 0x1000, tile 7, to be pulled `rcnt` times. -/
def readyDesc (rcnt : Word) : List Word := [0x1000, 0, 7, 16, 2, 16, rcnt, 0, 0, 0, 0, 0, 0, 0, 0, 0]
/-- A collective's: tile 7 of the whole group, gathered to 0x2000. -/
def collDesc (w3 : Word) : List Word := [0x2000, 0, 7, w3, 2, 16, 0, 0x7000, 0, 0, 0, 0, 0, 0, 0, 0]
def aReady : ReadyRec := ⟨7, 0x1000, 16, 2, 16, 3, 0, [], 0, 0, 0, 0⟩
def withReady (s : State) (l : List ReadyRec) : State := s.onPart 0 fun x => { x with ready := l }
/-- A group of two ranks along x; this part is rank 0. -/
def ranked (s : State) : State := (regs s [(RegNo.uepGrp, 0, 2 ^ 63 + 2 ^ 24)]).onPart 0 fun x =>
  { x with ranks := [⟨[], 0, 0, 0, true, true⟩, ⟨[], 0, 0, 0, true, true⟩] }
def aCopy (k : CopyKind) (d : List Word) : Copy := ⟨k, 0, 0, 0, 0, 0, d, [], none, .empty, none, false, .empty, [], [], 0⟩
def withCopy (s : State) (c : Copy) : State := { s with copies := ⟨[(5, c)]⟩ }
/-- Four bytes from 0x40 to 0x80 of bank 7. -/
def flatRow : List Word := [0xFFE8_0040, 0x01FF_FFFF, 0xFFE8_0080, 0x01FF_FFFF, 4, 1, 4, 4]
theorem may_CopiesComplete :
    (readyOk (readyDesc 0) = false ∧ readyOk (readyDesc 3) = true ∧ soleAt (.cpReady ⟨al, 48⟩) (kset one 48 (readyDesc 0)) = true ∧
      soleAt (.cpReady ⟨al, 48⟩) (kset one 48 (readyDesc 3)) = true ∧
      (let s := withReady (kset one 48 (readyDesc 3)) [aReady]
       ((s.part (s.partOf 0)).ready.any fun r => r.tid == (s.groupOf 0).k.findD 50 0) = true) ∧
      1024 ≤ (((withReady one (List.replicate 1024 aReady)).part 0).ready).length) ∧
    (soleAt (.cpColl ⟨al, 32⟩) (ranked (kset one 32 (collDesc 0x0000_0010))) = true ∧ collOk (ranked one) 0 (collDesc 0x0000_0010) = true ∧
      collOk one 0 (collDesc 0x0000_0010) = false ∧ soleAt (.cpColl ⟨al, 32⟩) (kset one 32 (collDesc 0x0000_0010)) = true) := by decide +kernel
theorem may_Pulls :
    (collSources (ranked one) 0 (collDesc 0x0000_0010) = [0, 1] ∧ selfRank (ranked one) 0 = 0 ∧
      (let s := withReady (withCopy (ranked (mapped one)) { aCopy .coll (collDesc 0x0000_0010) with asked := some 0, pulled := ⟨[(1, [])]⟩ }) [aReady]
       (s.copies.find? 5).isSome = true ∧ (collSources s 0 (collDesc 0x0000_0010)).contains (selfRank s 0) = true ∧
       ((s.part 0).ready.find? fun r => r.tid == (collDesc 0x0000_0010).getD 2 0) = some aReady ∧ aReady.pulls + aReady.asked.length < aReady.rcnt ∧
       aReady.rowb = fieldOf (collDesc 0x0000_0010) 3 23 0 ∧ aReady.rows = fieldOf (collDesc 0x0000_0010) 4 23 0 ∧
       isOk (tileBytes (onReady s 0 7 fun r => { r with pulls := r.pulls + 1 }) { aReady with pulls := 1 }) = true)) ∧
    ((withReady one [{ aReady with pulls := 3 }]).part 0).ready = [{ aReady with pulls := 3 }] ∧ (3 : Nat) ≤ ({ aReady with pulls := 3 } : ReadyRec).pulls := by decide +kernel
theorem may_CopyEnds :
    copyReady (withCopy one { aCopy .rows flatRow with suspended := true }) { aCopy .rows flatRow with suspended := true } = false ∧
    (let s := withCopy (mapped one) (aCopy .rows flatRow)
     copyReady s (aCopy .rows flatRow) = true ∧ (copyWhole s (aCopy .rows flatRow)).wait = false ∧ (copyWhole s (aCopy .rows flatRow)).fault = none ∧ s.winWrites = [] ∧ (flatPoisoned s 0 7 0x40 4) = false ∧
      toFlat (targetOf s 0 0 (s.privOf 0) (dwordAt flatRow 0) ⟨true, false, false⟩) = true ∧ toFlat (targetOf s 0 0 (s.privOf 0) (dwordAt flatRow 2) ⟨false, true, false⟩) = true ∧
      fieldOf flatRow 4 31 24 = 0 ∧ fieldOf flatRow 4 23 0 = 4 ∧ fieldOf flatRow 5 23 0 = 1 ∧ dwordAt flatRow 0 % 4 = 0 ∧ dwordAt flatRow 2 % 4 = 0 ∧
      (s.die 0).poisonFlat = [] ∧ (s.thread 0).held ≠ .waiting) ∧
    (let s := withCopy one (aCopy .rows flatRow); (copyWhole s (aCopy .rows flatRow)).wait = false ∧ (copyWhole s (aCopy .rows flatRow)).fault.isSome = true) ∧
    (copying one).threads.has 0 = true ∧ ((copying one).thread 0).batches[0]? = some ⟨0x1234, [5], none, false, 0, []⟩ := by decide +kernel

def aMsg : UeMsg := ⟨0, 1, false, 7, 0x1000, 16, List.replicate 32 0⟩
theorem may_ScaleOut :
    (let s := withReady (ranked (mapped one)) [aReady]
     ((s.part aMsg.part).ready.find? fun r => r.tid == aMsg.tid) = some aReady ∧ isOk (tileBytes s aReady) = true ∧
      ((withReady s [{ aReady with asked := [(1, 0), (2, 0), (3, 0)] }]).part 0).ready = [{ aReady with asked := [(1, 0), (2, 0), (3, 0)] }]) ∧
    (let s := withCopy (ranked one) { aCopy .coll (collDesc 0x0000_0010) with asked := some 0 }
     ((s.copies.items.find? fun e => e.2.kind == .coll && e.2.part == aMsg.part && e.2.desc.getD 2 0 == aMsg.tid && e.2.asked.isSome && !e.2.pulled.has aMsg.rank &&
      aMsg.rank != selfRank s aMsg.part && (collSources s aMsg.part e.2.desc).contains aMsg.rank).map Prod.fst) = some 5 ∧
      aMsg.val = fieldOf (collDesc 0x0000_0010) 3 23 0 ∧ aMsg.data.length = fieldOf (collDesc 0x0000_0010) 3 23 0 * fieldOf (collDesc 0x0000_0010) 4 23 0 ∧
      ({ aMsg with val := 5 } : UeMsg).val ≠ fieldOf (collDesc 0x0000_0010) 3 23 0 ∧
      (sysBits s RegNo.uepTmo 0 15 0 * 1250000 ≤ ({ s with clk := 2 ^ 40 }).clk - 0) ∧ s.clk - 0 < sysBits s RegNo.uepTmo 0 15 0 * 1250000 ∧
      ((collSources s 0 (collDesc 0x0000_0010)).find? fun r => r != selfRank s 0 && true) = some 1) ∧
    (((one.part aMsg.part).supers.findD aMsg.obj.toNat 0).testBit (aMsg.val % 256) = false) ∧
    (let s := (with0 one fun th => { th with held := .waiting, why := .bar ⟨0, 0x1000, true, true, 0, 0x1000⟩ 0x1000 16 true .sys }).onPart 0 fun x =>
        { x with supers := x.supers.set 0x1000 (2 ^ 16) }
     ((s.part 0).supers.findD aMsg.obj.toNat 0).testBit (aMsg.val % 256) = true ∧ superPeers s 0 = [] ∧ s.partOf 0 = 0 ∧ s.threads.has 0 = true ∧ s.threads.keys.Nodup) ∧
    (let s := (withReady one [{ aReady with asked := [(1, 0)] }]).onPart 0 fun x => { x with steps := [⟨1, 0x1000, 16, 0⟩] }
     ((s.part 0).ready.find? fun r => r.tid == 7).isSome = true ∧ (({ aReady with asked := [(1, 0)] } : ReadyRec).asked.find? fun x => x.1 == 1) = some (1, 0) ∧
      (s.part 0).steps = [⟨1, 0x1000, 16, 0⟩] ∧ (0x1000 : Dword).toNat = 0x1000) ∧
    (let s := (regs (ranked one) [(RegNo.uepGrp, 0, 2 ^ 63)]).onPart 0 fun x => { x with ranks := x.ranks.map fun r => { r with valid := true, ss := true } }
     ∃ r ∈ superPeers s 0, ((s.part 0).peers.findD (peerKey r 0x1000) 0).testBit 16 = false) ∧
    (may_write one RegNo.uepGrp 0 (2 ^ 63) = true ∧ groupBusy one 0 = false ∧ groupBusy (withReady one [aReady]) 0 = true) ∧
    (sysBits (regs one [(RegNo.uepCtl 3, 0, 2 ^ 24)]) (RegNo.uepCtl 3) 0 25 24 = 1 ∧ sysBits one (RegNo.uepCtl 3) 0 25 24 ≠ 1) := by decide +kernel
def tableRead (r : TableRead × State) : Nat := match r.1 with
  | .wait => 0
  | .invalid => 1
  | .ranks _ => 2
theorem may_RankTable : tableRead (readTable one 0 (BitVec.ofNat 64 (2 ^ 63))) = 1 ∧
    tableRead (readTable (regs (withMem (mapped one) 0x1000 (List.replicate 22 0 ++ [1, 3])) [(RegNo.uepBase, 0, 0x1000)]) 0 (BitVec.ofNat 64 (2 ^ 63))) = 2 := by decide +kernel

/-- One command block is queued, at 0x1000, which holds command `c`. -/
def commanded (c : Byte) (who : Requester) : State := (withMem (mapped one) 0x1000 [c]).onPart 0 fun x => { x with boot := [(0x1000, who)] }
def headIs (s : State) (f : Cmd → Bool) : Bool := match headCmd s 0 with
  | some (some c, _) => f c
  | _ => false
theorem may_BootCommands :
    (may_write one RegNo.bootCmd 0 0x1000 = true ∧ (one.part 0).boot.length < 16 ∧ 16 ≤ ((one.onPart 0 fun x => { x with boot := List.replicate 16 (0, .pf) }).part 0).boot.length) ∧
    (one.running = true ∧ headIs (commanded 0 .pf) (fun c => c.cmd == 0 && !c.clean) = true ∧ headIs (commanded 3 .pf) (fun c => c.cmd == 3 && c.clean && c.who == .pf) = true ∧
      headIs (commanded 5 (.vf 2)) (fun c => c.cmd == 5 && c.clean && c.who == .vf 2 && c.srcLen == 0 && c.src == 0) = true) := by decide +kernel
theorem may_BootUnclean : ∀ c ∈ [1, 2, 3, 4, 5, 9], headIs ((withMem (commanded (BitVec.ofNat 8 c) .pf) 0x1080 [1])) (fun x => x.cmd == c && !x.clean) = true := by decide +kernel
theorem may_BootReads : isOk (agentRead (commanded 1 .pf) 0 0 0) = true ∧ isOk (agentRead (commanded 2 .pf) 0 0 64) = true ∧ isFault (agentRead (commanded 1 .pf) 0 (2 ^ 40) 16) = true := by
  decide +kernel

theorem may_StartsAndPower :
    (State.reset.pkg.fails ≤ 3 ∧ State.reset.pkg.fails ≠ 3 ∧ State.reset.pkg.tripped = false ∧ startReason 0x20 = true ∧ startReason 0x70 = true ∧
      ((one.onPkg fun p => { p with fails := 3 }).pkg.fails = 3) ∧ (one.pkg.start == Start.off) = false) ∧
    (∀ k ∈ [1, 5, 7], (one.onPkg fun p => { p with start := .starting 0 k (some 0x31) }).pkg.start = .starting 0 k (some 0x31) ∧
      (reasonStep 0x31 = k ↔ k = 5) ∧ reasonStep 0x70 = 1 ∧ reasonStep 0x17 = 3) ∧ (Option.all startReason (some 0x31) = true) ∧
    ((one.onPkg fun p => { p with start := .starting 0 8 none }).pkg.start = .starting 0 8 none ∧ (State.reset.clk - 0 ≤ 37_500_000_000) ∧
      37_500_000_000 < ({ one with clk := 2 ^ 40 } : State).clk - 0) ∧
    may_write one RegNo.bootFails 0 3 = true ∧ accessOk one ⟨.pf, BitVec.ofNat 20 RegNo.bootFails, 0, 4, 4, 7⟩ true ≠ none ∧ State.reset.running = false ∧ one.running = true ∧ one.threads.has 0 = true ∧
    ((one.launches.find? 0).map fun l => (l.ended, l.retire)) = some (none, .live) := by decide +kernel

/-- BAR2 of partition 0 shows context 0's VA from `va` on; a leaf at intermediate address 0. -/
def barred (va : Nat) : State := (regs (mapped one) [(RegNo.b2map, 0, va + 1)]).onDie 0 fun d => { d with leaves := [leaf0] }
theorem may_HostLink :
    (functionUp one 0 = true ∧ bar2Map one 0 0 = none ∧ bar2Map (barred 0x20_0000) 0 8 = some (0, 0x20_0008) ∧ bar2Map (barred 0x01FF_FFFF_FFE0_0000) 0 8 = some (0, 0x01FF_FFFF_FFE0_0008) ∧
      inFlat 0x20_0008 = false ∧ inFlat 0x01FF_FFFF_FFE0_0008 = true ∧ isOk (readRange (barred 0x20_0000) 0 false 0x20_0008 4) = true ∧
      isOk (writeRange (barred 0x20_0000) 0 false (.agent [3]) 0x20_0008 [1, 2]) = true ∧ isFault (writeRange (barred 0x50_0000) 0 false (.agent [3]) 0x50_0008 [1, 2]) = true) ∧
    (one.running = true ∧ one.isUnderstudy = false ∧ one.ctxPart 0 = none ∧ (mapped one).ctxPart 0 = some 0 ∧ 0 ∈ (mapped one).ctxThreads 0) ∧
    (one.pkg.nsSlew = 0 ∧ one.pkg.nsFrom ≤ one.clk ∧ (0 : Int) ≤ 80000 * one.clk + 100000 * one.pkg.nsAdd ∧ one.ns + 1000 < (5000 : Dword).toNat) ∧
    (one.pkg.pcie = true ∧ one.pkg.algorithms = false ∧ ([0x12, 0x84, 0, 0] : List Byte).getD 1 0 = 0x84 ∧ 4 ≤ ([0x12, 0x84, 0, 0] : List Byte).length ∧
      (one.onPkg fun p => { p with algorithms := true }).pkg.algorithms = true) := by decide +kernel

theorem may_TuningAndErrors :
    (one.running = true ∧ one.isUnderstudy = false ∧ sysBits one (RegNo.l2sRwf 3) 1 31 31 = 1 ∧ sysBits one (RegNo.l2sRwf 3) 1 19 16 ≤ 8 ∧
      sysBits (regs one [(RegNo.l2sRwf 3, 1, 0x0004_0004)]) (RegNo.l2sRwf 3) 1 31 31 = 0) ∧
    (0 < remoteWays one 1 3 ∧ remoteWays one 1 3 ≤ 4 ∧ ((one.die 1).slices.findD 3 .empty).lines = [] ∧
      (let s := one.onDie 1 fun d => { d with slices := d.slices.set 3 { Slice.empty with remote := [(0, 5)] } }; ((s.die 1).slices.findD 3 .empty).remote = [(0, 5)])) ∧
    (sysBits one RegNo.scbCtl 0 31 31 = 1 ∧ sysBits (regs one [(RegNo.scbCtl, 0, 0)]) RegNo.scbCtl 0 31 31 = 0 ∧ (one.die 0).poisonHbm = []) ∧
    (one.copies = .empty ∧ (one.die 0).ueLog.length < 16 ∧ 16 ≤ ((one.onDie 0 fun d => { d with ueLog := List.replicate 16 ⟨0, 0, false, 0⟩ }).die 0).ueLog.length ∧
      liveCtx (mapped one) 0 = true ∧ liveCtx one 0xFF = false) := by decide +kernel

def landed : Pend := ⟨9, [40], false, false, none, some [7], 1, true, 0x80, 0⟩
def withPend (p : Pend) : State := with0 one fun th => { th with held := .stalled, why := .result, pend := [p] }
def hostLoad (s : State) : State := with0 s fun th => { th with
  out := [{ asked0 (.load .b32 9) true false 0 (.host 0x30_0000_0000) with entry := some 4 }]
  pend := [⟨9, [4], false, false, none, none, 0, false, 0x100, 0⟩] }
theorem may_LateResults :
    (((withPend landed).thread 0).pend.filter (fun p => p.vals.isSome) = [landed] ∧ (withPend landed).threads.has 0 = true ∧ (withPend landed).groups.has ((withPend landed).thread 0).group = true) ∧
    (let s := (pending one).onDie 0 fun d => { d with xops := [⟨0, 9, [7], 0⟩] }
     (s.die 0).xops = [⟨0, 9, [7], 0⟩] ∧ ((s.thread 0).pend.find? fun p => p.id == 9) = some ⟨9, [40], false, false, none, none, 0, false, 0x80, 0⟩) ∧
    (let s := (heldLoad []).onCore 0 fun k => { k with log := k.log.set 4 ⟨0, 0x100, [0], [], [], true⟩ }
     (s.core (4 / 256)).log.find? (4 % 256) = some ⟨0, 0x100, [0], [], [], true⟩) ∧
    (let s := hostLoad (regs (mapped one) [(RegNo.hatBase, 0, 1)])
     (s.thread 0).out.head? = some { asked0 (.load .b32 9) true false 0 (.host 0x30_0000_0000) with entry := some 4 } ∧ calm s = true) := by decide +kernel
theorem may_HostAddr : (hostAddr (withMem (regs (mapped one) [(RegNo.hatBase, 0, 1)]) 0 [1]) ⟨0, 0, true, false, 0, 0⟩ 0x30_0000_0000).isSome = true := by decide +kernel

/-- Two threads of one group at one PC, on core 0. -/
def pairOf : State := { one with threads := ⟨[(0, th0), (1, { th0 with lane := 1 })]⟩ }
def behindDebug (h : Held) : State := other (fun th => { th with dc := true, held := h }) 1
theorem may_Debuggers :
    (∀ s ∈ [other id 0x0900_0000, other id 7, other id 1, behindDebug .stalled, behindDebug .waiting, behindDebug .ready, halted 0 (behindDebug .ready)],
      soleAt (.dbgstep ⟨al, 6, .v 5, false⟩) s = true ∧ soleAt (.dbgstep ⟨al, 6, .v 5, true⟩) s = true ∧ soleAt (.dbgcur ⟨al, 5, .v 3, .block⟩) s = true ∧
      soleAt (.dbgres ⟨al, 5, .v 3, .group⟩) s = true) ∧
    (∀ s ∈ [behindDebug .stalled, behindDebug .ready], let s0 := afterIssue b0 s; s0.handlePart ((envOf s0 0).base1 (.v 5)) = some (s0.partOf 0) ∧ s0.byHandle ((envOf s0 0).base1 (.v 5)) = some 1) ∧
    ((afterIssue b0 (halted 0 (behindDebug .ready))).die (dieOf ((afterIssue b0 (halted 0 (behindDebug .ready))).coreOf 1))).halted.has 0 = true ∧
    (scopeThreads (afterIssue b0 (behindDebug .ready)) 1 .block).all (afterIssue b0 (behindDebug .ready)).threads.has = true := by decide +kernel
theorem may_Aperture :
    (may_write (regs (behindDebug .ready) [(RegNo.dbgSel 1, 0, 2 ^ 32 + 5)]) (RegNo.dbgData 1) 0 77 = true ∧ aperture (regs (behindDebug .ready) [(RegNo.dbgSel 1, 0, 2 ^ 32 + 5)]) 0 1 = some (1, 0, 5) ∧
      aperture one 0 1 = none ∧ may_write one (RegNo.dbgData 1) 0 77 = true) ∧ one.threads.has 0 = true := by decide +kernel
theorem may_ReadsAperture : ReadsReg one (acc (RegNo.dbgData 1) 0 0) (RegNo.dbgData 1) 0 := readsReg (p := 0) (by decide +kernel)
def tabled (f : Tableau → Tableau) (s : State) : State := s.onPart 0 fun x => { x with tableau := f x.tableau }
/-- K8:K9 name a parameter block at 0x1000, whose first eight bytes are 0x2000. -/
def armable (va : Nat) : State := withMem (kset (mapped one) 8 [BitVec.ofNat 32 va, 0]) 0x1000 [0, 0x20]
theorem may_Tableau :
    (soleAt (.tblarm ⟨al, 5, .k 8, 3, false⟩) (tabled (fun y => { y with armed := true }) (armable 0x1000)) = true ∧ soleAt (.tblarm ⟨al, 5, .k 8, 3, true⟩) (armable 0x1100) = true ∧
      soleAt (.tblarm ⟨al, 5, .k 8, 3, true⟩) (armable 0x1000) = true ∧ ((armable 0x1000).part 0).tableau.armed = false ∧
      bytesIn (readRange (afterIssue b0 (armable 0x1000)) 0 true 0x1000 8) = [0, 0x20, 0, 0, 0, 0, 0, 0]) ∧
    (soleAt (.tblread ⟨al, 5⟩) (tabled (fun y => { y with armed := true }) one) = true ∧ soleAt (.tblread ⟨al, 5⟩) (tabled (fun y => { y with fired := true }) (mapped one)) = true) ∧
    (may_write (tabled (fun y => { y with armed := true, trig := 12 }) one) RegNo.tblCtl 0 1 = true ∧ may_write one RegNo.tblCtl 0 2 = true) ∧
    (let y := ((tabled (fun y => { y with armed := true, fired := true }) one).part 0).tableau; y.armed = true ∧ y.fired = true ∧ y.latched = none) := by decide +kernel
theorem may_TableauWritten : let s := tabled (fun y => { y with armed := true, fired := true, latched := some [] }) (mapped one)
    (s.part 0).tableau.latched = some [] ∧ (match recAll (s.part 0).tableau (([] : List (List Byte)).take (((s.part 0).tableau.cap - 64) / 384)) s with
      | (_, .wait, _) => false
      | _ => true) = true := by decide +kernel

/-- Memory holds `w` at the PC, and core 0 has one bundle. -/
def atWord (w : Nat) (rest : List Turn) : State := ({ withMem (mapped one) 0x100 (bytesOfNat 8 w) with issue := .none, agenda := rest }).onCore 0 fun k => { k with bundles := [[0]], left0 := 2 }
def fetched (r : Fetched × State) : Option Dword := match r.1 with
  | .word w => some w
  | _ => none
theorem may_BundlesBuilt :
    (coreThreads one 0 = [0] ∧ one.canIssue 0 = true ∧ (one.core 0).buckets = [] ∧ (one.groupOf 0).gathers = []) ∧
    (coreThreads pairOf 0 = [0, 1] ∧ pairOf.canIssue 0 = true ∧ pairOf.canIssue 1 = true ∧ (pairOf.thread 0).pc = (pairOf.thread 1).pc ∧ (pairOf.thread 0).lane < (pairOf.thread 1).lane) ∧
    (let s := with0 one fun th => { th with held := .stalled, why := .drain }; 0 ∈ coreThreads s 0 ∧ (s.thread 0).held = .stalled ∧ causeClear s 0 = true) ∧
    (nextWait one 0 = none ∧ nextWait pairOf 0 = none ∧ nextWait pairOf 1 = none) ∧
    (let s := with0 one fun th => { th with held := .stalled, why := .drain }; nextWait s 0 = none) ∧
    (let s := with0 (atWord 0x001C_0201_0400_0800 []) fun th => { th with pend := [⟨9, [1, 2, 8], false, false, none, none, 0, false, 0x80, 0⟩] }
     0 ∈ coreThreads s 0 ∧ (s.thread 0).held = .ready ∧ (nextWait s 0).isSome = true) := by decide +kernel

theorem may_StepRunsDecoded :
    ((atWord 0 [⟨3, .event .stageManagerReady⟩]).agenda = [⟨3, .event .stageManagerReady⟩]) ∧
    (let s := atWord 0x001C_0201_0400_0800 [⟨3, .issue 0 false⟩]
     s.agenda = [⟨3, .issue 0 false⟩] ∧ (s.core 0).left0 ≠ 0 ∧ (s.clk + 3) % 16 < sysBits s RegNo.tunStat 0 19 15 ∧ (s.core 0).steps = [] ∧ (s.core 0).bundles = [[0]] ∧ s.canIssue 0 = true ∧
      fetched (fetch { s with clk := 3, agenda := [] } 0 0x100) = some 0x001C_0201_0400_0800 ∧
      inFlat 0x100 = false ∧ s.winWrites = [] ∧ (viaWindows s 0 true 0x100 ⟨false, false, true⟩).toOption.any (fun l => (cachedWord s 0 l).isNone &&
        (match place s l false true with
          | (.ok (.phys d pa _), s1) => !physPoisoned s1 d pa && l.phys && (List.range 8).all (fun i => (s1.hist.bytes.find? (histKey l i)).isNone)
          | _ => false)) = true) ∧
    (let s := regs (atWord 0 [⟨3, .issue 0 false⟩]) [(RegNo.tunStat, 0, 2 ^ 15)]
     s.agenda = [⟨3, .issue 0 false⟩] ∧ (s.core 0).steps = [] ∧ (s.core 0).bundles = [[0]] ∧ (s.core 0).left0 ≠ 0 ∧
      sysBits s RegNo.tunStat 0 19 15 ≤ (s.clk + 3) % 16) ∧
    (let s := atWord 0xFFFF_FFFF_FFFF_FFFF [⟨3, .issue 0 false⟩]
     fetched (fetch { s with clk := 3, agenda := [] } 0 0x100) = some 0xFFFF_FFFF_FFFF_FFFF ∧ (decode 0xFFFF_FFFF_FFFF_FFFF).toOption = none) ∧
    (let s := { jobState one { aJob with prog := [0x6800_0000_0000_0000] } with agenda := [⟨3, .prompt 0 1⟩] }
     (prompterOf s 0 1).jobs = [{ aJob with prog := [0x6800_0000_0000_0000] }] ∧ aJob.finished = false ∧
      (decodeLogit (([0x6800_0000_0000_0000] : List Dword).getD 0 0)).toOption = some (.logitPub ⟨0, 0, 0, 0, false, .eq, 0⟩)) := by decide +kernel
/-- The same word behind a window that is translated. -/
def viaLeaf : State := (regs (atWord 0x001C_0201_0400_0800 []) [(RegNo.winA 0 0, 0, 2 ^ 63 + 2 ^ 62 + 2 ^ 61 + 2 ^ 60 + 2 ^ 59)]).onDie 0 fun d => { d with leaves := [leaf0] }
theorem may_StepRunsDecoded_translated : fetched (fetch viaLeaf 0 0x100) = some 0x001C_0201_0400_0800 ∧
    (viaWindows (windowView viaLeaf 0).1 0 true 0x100 ⟨false, false, true⟩).toOption.any (fun l => !l.phys && (cachedWord viaLeaf 0 l).isNone &&
      (List.range 8).all (fun i => (viaLeaf.hist.bytes.find? (histKey l i)).isNone) &&
      (match place viaLeaf l false true with
        | (.ok (.phys d pa _), s1) => !physPoisoned s1 d pa
        | _ => false)) = true := by decide +kernel
theorem may_DecodeOfEncode : (Instr.logitPub ⟨0, 0, 0, 0, false, .eq, 0⟩).wf = true ∧ encode? (.logitPub ⟨0, 0, 0, 0, false, .eq, 0⟩) = some 0x6800_0000_0000_0000 ∧
    (Instr.add ⟨al, .u32, false, .v 2, .v 1, .k 4⟩).wf = true ∧ encode? (.add ⟨al, .u32, false, .v 2, .v 1, .k 4⟩) = some 0x001C_0201_0400_0800 := by decide +kernel
theorem may_EncodeOfDecode : decode 0x001C_0201_0400_0800 = .ok (.add ⟨al, .u32, false, .v 2, .v 1, .k 4⟩) ∧
    decodeLogit 0x6800_0000_0000_0000 = .ok (.logitPub ⟨0, 0, 0, 0, false, .eq, 0⟩) := by decide +kernel
theorem may_MemoryStaysCanonical : State.reset.memoryOk := by unfold State.memoryOk; decide +kernel
theorem may_MemoryStays_written : (atWord 0x001C_0201_0400_0800 []).memoryOk := by unfold State.memoryOk; decide +kernel
theorem may_Numbers : Ty.isInt .u32 = true ∧ Ty.isInt .i8 = true ∧ (Fmt.f32.source false 0x7FC0_0000).1.isNan = true ∧ (Fmt.f32.source false 0x7F80_0000).1 = .inf false ∧
    (Fmt.f32.source false 0xFF80_0000).1 = .inf true ∧ (Fmt.f32.source false 0).1.isZero = true ∧ (Fmt.f32.source false 0x3F80_0000).1.lt (Fmt.f32.source false 0x4000_0000).1 = true ∧
    (Fmt.f32.source false 0x3F80_0000).1.isNan = false := by decide +kernel

/-! ### Single steps whose results the spec works out (its examples, named), or a hand calculation from its rules -/

/-- The state after a word; as it was where there is none. -/
def did (i : Instr) (s : State) : State := match exec i s with
  | .next t => t
  | _ => s
/-- A vector register of thread `t` after a word. -/
def out (i : Instr) (s : State) (t n : Nat) : Word := ((did i s).thread t).v.findD n 0
/-- R178: 2^31 − 1 plus 1, saturated and wrapped. -/
theorem test_add : let s := withV one [(1, 0x7FFF_FFFF), (2, 1)]
    out (.add ⟨al, .i32, true, .v 5, .v 1, .v 2⟩) s 0 5 = 0x7FFF_FFFF ∧ out (.add ⟨al, .i32, false, .v 5, .v 1, .v 2⟩) s 0 5 = 0x8000_0000 := by decide +kernel
/-- R180: a count of 32 shifts everything out; the source is also the destination. -/
theorem test_shl : out (.shl ⟨al, .v 1, .v 1, .v 2⟩) (withV one [(1, 3), (2, 32)]) 0 1 = 0 ∧ out (.rot ⟨al, .v 1, .v 1, .v 2⟩) (withV one [(1, 3), (2, 33)]) 0 1 = 6 := by decide +kernel
/-- R180's worked table index. -/
theorem test_lut3 : lut3 0x96 0xFF00_FF00 0xF0F0_F0F0 0xCCCC_CCCC = 0xC33C_C33C := by decide +kernel
/-- R205, the example: the start four bits in, three reads without and one with a refill. -/
theorem test_bsinit : let s := did (.bsinit ⟨al, 4, 8, .v 14⟩) (withV one [(8, 0xDEAD_BEEF), (9, 0x0123_4567), (14, 4)])
    ((s.thread 0).v.findD 4 0, (s.thread 0).v.findD 5 0, (s.thread 0).v.findD 6 0, (s.thread 0).v.findD 7 0) = (0x7DEA_DBEE, 0x0012_3456, 60, 1) := by decide +kernel
theorem test_bsread : let s := withV one [(4, 0x4567_DEAD), (5, 0x0000_0123), (6, 48), (7, 1), (10, 0x7654_3210), (11, 0xFEDC_BA98), (14, 16)]
    out (.bsread ⟨al, true, .v 1, 4, .v 10, .v 14⟩) s 0 1 = 0xFFFF_DEAD ∧ out (.bsread ⟨al, true, .v 1, 4, .v 10, .v 14⟩) s 0 4 = 0x0123_4567 := by decide +kernel
theorem test_bsread_refill : let s := did (.bsread ⟨al, false, .v 3, 4, .v 10, .v 14⟩) (withV one [(4, 0), (5, 0), (6, 0), (7, 1), (10, 0x7654_3210), (11, 0xFEDC_BA98), (14, 8)])
    ((s.thread 0).v.findD 3 0, (s.thread 0).v.findD 4 0, (s.thread 0).v.findD 5 0, (s.thread 0).v.findD 6 0, (s.thread 0).v.findD 7 0) = (0x10, 0x9876_5432, 0x00FE_DCBA, 56, 2) := by decide +kernel
/-- R78, the example: x·x in .mv and in .mva. -/
theorem test_fmul : let s := did (.fmul ⟨al, .mv, .f32, .rne, false, false, false, .v 2, .v 0, .v 0⟩) (withV one [(0, 0x4050_0000), (1, 0x3E80_0000)])
    ((s.thread 0).v.findD 2 0, (s.thread 0).v.findD 3 0) = (0x4129_0000, 0x40A9_0000) := by decide +kernel
theorem test_fmul_mva : let s := did (.fmul ⟨al, .mva, .f32, .rne, false, false, false, .v 8, .v 4, .v 4⟩) (withV one [(4, 0x4050_0000), (5, 0x3F00_0000), (6, 0), (7, 1)])
    ((s.thread 0).v.findD 8 0, (s.thread 0).v.findD 9 0, (s.thread 0).v.findD 10 0, (s.thread 0).v.findD 11 0) = (0x4129_0000, 0x4050_0000, 0, 1) := by decide +kernel
/-- R78: x·x − x, the second step of the example. -/
theorem test_fsub_mva : let s0 := withV one [(4, 0x4050_0000), (5, 0x3F00_0000), (7, 1), (8, 0x4129_0000), (9, 0x4050_0000), (11, 1)]
    let s := did (.fsub ⟨al, .mva, .f32, .rne, false, false, false, .v 12, .v 8, .v 4⟩) s0
    ((s.thread 0).v.findD 12 0, (s.thread 0).v.findD 13 0, (s.thread 0).v.findD 14 0, (s.thread 0).v.findD 15 0) = (0x40EA_0000, 0x4030_0000, 0, 1) := by decide +kernel
/-- R102, the example: a conversion to E4M3 under RNE. -/
theorem test_cvt : let s := did (.cvt ⟨al, .mv, .e4m3, .f32, .rne, false, false, false, .v 2, .v 0⟩) (withV one [(0, 0x40EA_0000), (1, 0x40B1_0000)])
    ((s.thread 0).v.findD 2 0, (s.thread 0).v.findD 3 0) = (0x4F, 0x40B1_AAAB) := by decide +kernel
/-- R198, the example: sqt of 16 with variance 1 awaits 4 and 1/64. -/
theorem test_sqt : ((did (.sqt ⟨al, .mv, .f32, .rne, false, false, .v 2, .v 0⟩) (withV one [(0, 0x4180_0000), (1, 0x3F80_0000)])).thread 0).pend.map (fun p => (p.dst, p.vals))
    = [([2, 3], some [0x4080_0000, 0x3C80_0000])] := by decide +kernel
/-- R213, the example: lanes 0, 3, 4, 9 and 17 hold 5, 7, −2, 10 and 1; lane 4's guard is false. -/
def lanes : State :=
  let th := fun (l : Nat) (x : Word) (p : BitVec 7) => (l, { th0 with lane := l, lin := l, p := p, v := ⟨[(2, x)]⟩ })
  { one with
    threads := ⟨[th 0 5 4, th 3 7 4, th 4 (-2) 0, th 9 10 4, th 17 1 4]⟩
    groups := ⟨[(0, { Group.fresh with priv := true, m := ⟨[(1, ⟨0x0002_0219, 0⟩)]⟩ })]⟩
    blocks := ⟨[(0, { Block.fresh with groups := [0], threads := [0, 3, 4, 9, 17] })]⟩
    issue := .bundle ⟨0, 0x100, 0, [0, 3, 4, 9, 17]⟩ }
theorem test_pfx : ([0, 3, 4, 9, 17].map fun t => out (.pfx ⟨⟨false, 2⟩, .add, .i32, true, .v 3, .v 2, 1⟩) lanes t 3) = [0, 5, 0, 12, 22] := by decide +kernel
theorem test_fold : ([0, 3, 4, 9, 17].map fun t => out (.fold ⟨⟨false, 2⟩, .add, .i32, false, .v 3, .v 2, 1⟩) lanes t 3) = [23, 23, 0, 23, 23] := by decide +kernel
theorem test_laneFall : ([0, 3, 4, 9, 17].map fun t => out (.laneFall ⟨⟨false, 2⟩, .v 3, .v 2, .k 5, 1, .own⟩) (kset lanes 5 [1]) t 3) = [5, -2, 0, 10, 1] := by decide +kernel
/-- R165: division by zero, and the one overflow of division toward zero. -/
theorem test_xdiv : quotient true 7 0 = 0xFFFF_FFFF ∧ remainder true 7 0 = 7 ∧ quotient true 0x8000_0000 0xFFFF_FFFF = 0x8000_0000 ∧ quotient true (-7) 2 = -3 := by decide +kernel
/-- R369, the example: home die, slice, offset and channel of the access. -/
theorem test_translation :
    let s := regs one [(RegNo.ctx 5, 0, 2 ^ 31), (RegNo.pir, 0, 0x5_0000 * 2 ^ 32), (RegNo.winA 5 2, 0, 0xE000_6000_0000_0000), (RegNo.winB 5 2, 0, 0x0000_FFFF_0003_0000)]
    (windowAt s 5 2 0x6000_0012_3580).map Prod.fst = some ⟨0, 0x3_0012_3580, false, false, 5, 0x6000_0012_3580⟩ ∧ homeSlice 0x3_0012_3580 = 13 ∧ channelOf one 0x40_9A80 = 55 ∧
    (match walk (some ⟨0x3_0012, false, BitVec.ofNat 64 (2 ^ 63 + 2 ^ 58 + 0x40_8000)⟩) ⟨0, 0x3_0012_3580, false, false, 5, 0x6000_0012_3580⟩ false false with
      | .ok pa _ => pa
      | _ => 0) = 0x40_9A80 := by decide +kernel
/-- The worked schedule of 14_scheduling: Q's late notice. -/
theorem test_notice : noticeWord { aLaunch with part := 1, queue := 3, seq := 11 } true 0 = 0xC083_0000_0000_000B := by decide +kernel
/-- R306: ring entries 0 of the worked program. -/
theorem test_ring : ringEntry 40 (0, 0, 17) = 0x0000_0028_0000_0011 ∧ ringEntry 40 (0, 0, 950) = 0x0000_0028_0000_03B6 := by decide +kernel
/-- R306's worked table: the pen column. -/
theorem test_logitPen : let e := fun (x c : Word) => ({ tok := 0, live := true, w := [x, c, 0, 0, 0, 0, 0, 0] } : WsEntry)
    ((prompterOf (did (.logitPen ⟨0, 0, 1, 0, false, .eq, 0⟩) (jobState one { aJob with s := 0x4000_0000 :: List.replicate 15 0, set := [e 0x3FB1_7218 0x3F80_0000, e 0x3F31_7218 0, e 0 0, e 0xBF31_7218 0x4000_0000] })) 0 1).jobs.map
      fun j => j.set.map fun x => x.w.getD 0 0) = [[0x3F31_7218, 0x3F31_7218, 0, 0xBFB1_7218]] := by decide +kernel
/-- R215, R153: the high half alone; the immediate of f32 is its upper half. -/
theorem test_moviHi : out (.moviHi ⟨al, .v 5, 0xABCD⟩) (withV one [(5, 0x1234_5678)]) 0 5 = 0xABCD_5678 ∧ out (.movi ⟨al, .f32, .v 5, 0x3F80⟩) one 0 5 = 0x3F80_0000 := by decide +kernel
/-- R111, R217: a store to a bank, little-endian, of the low half of its register. -/
theorem test_st : let s := did (.st ⟨al, .u16, 0, .none, .blk, 12, .v 2, 2⟩) (withV (at_ inBank) [(12, 0x1234_ABCD)])
    Memory.readN s.flats (bankKey 0 7 0x41) 4 = [0, 0xCD, 0xAB, 0] := by decide +kernel
/-- R221: a signed byte of a bank. -/
theorem test_ld : out (.ld ⟨al, .i8, 0, .none, .blk, 12, .v 2, 3⟩) { at_ inBank with flats := Memory.writeN [] (bankKey 0 7 0x43) [0x80] } 0 12 = 0xFFFF_FF80 := by decide +kernel
/-- R229: inc wraps to 0 at its operand and gives the old value. -/
theorem test_atom : let s := { withV (at_ inBank) [(6, 5)] with flats := Memory.writeN [] (bankKey 0 7 0x40) [5] }
    out (.atom ⟨al, .inc, .u32, .none, .blk, 5, .v 2, 0, .v 6⟩) s 0 5 = 5 ∧ Memory.readN (did (.atom ⟨al, .inc, .u32, .none, .blk, 5, .v 2, 0, .v 6⟩) s).flats (bankKey 0 7 0x40) 1 = [0] := by decide +kernel
/-- R251, R252: the link pair of a call two words back. -/
theorem test_call : let s := did (.call ⟨al, 6, 0xFFFFE⟩) one
    (s.thread 0).pc = 0xF0 ∧ (s.thread 0).v.findD 6 0 = 0x108 ∧ (s.thread 0).v.findD 7 0 = 0 := by decide +kernel
/-- R318: brk enters the kernel's handler. -/
theorem test_brk : ((did (.brk ⟨al, 0x123⟩) (pkt one fun k => { k with hbrk := 0x5000 })).thread 0).pc = 0x5000 := by decide +kernel
/-- R309, R319: halt at level U traps; with no trap queue its context ends. -/
theorem test_halt_user : ((did (.halt ⟨al, 5, 0⟩) (user (mapped one))).thread 0).held = .exited := by decide +kernel
/-- R163, R317: a word that names a register past the thread's own traps, its PC at the word. -/
theorem test_undef : let s := did (.add ⟨al, .u32, false, .v 40, .v 1, .v 3⟩) (with0 trapped fun th => { th with nregs := 32 })
    (s.thread 0).tc = true ∧ (s.thread 0).pc = 0x100 ∧ (s.thread 0).cause = Cause.undef.code := by decide +kernel

end Sys2Proof.Tests
end

/-! ### What every step keeps (O59, O60)

A step answers a next state, leaves nothing in the middle of an issue, and keeps every memory canonical. Both are said of
every function that a step calls by one relation, `Upholds s₀ s`, from the state `s₀` in which the step begins to the one it
has come to; a function's lemma says that it keeps the relation, from the lemmas of those it calls. The lemmas stand by the
file of the model whose functions they are about. -/

namespace Sys2Proof.Machine

/-- What every part of a step keeps of the state `s₀` it begins in: canonical memories stay canonical, and where no word
was being issued none is. -/
def Upholds (s₀ s : State) : Prop := (s₀.memoryOk → s.memoryOk) ∧ (s₀.issue = .none → s.issue = .none)

/-- A meaning that answers a next state, and one that upholds `s₀`. -/
def Proceeds (s₀ : State) (o : Host.Outcome State Fault Refusal) : Prop := ∃ s, o = .next s ∧ Upholds s₀ s

/-- What a prompter's word comes to upholds `s₀`. -/
def LogitEnd.Upholds (s₀ : State) : LogitEnd → Prop
  | .go _ s | .turn _ s | .bad _ s => Machine.Upholds s₀ s
  | .wait => True

/-- What a publication comes to upholds `s₀`. -/
def PubEnd.Upholds (s₀ : State) : PubEnd → Prop
  | .done s | .drop s => Machine.Upholds s₀ s
  | .wait => True

/-- What a boot command comes to upholds `s₀`. -/
def CmdEnd.Upholds (s₀ : State) : CmdEnd → Prop
  | .done _ _ s => Machine.Upholds s₀ s
  | .wait => True

section
variable {s₀ s s' : State}

theorem Upholds.refl (s : State) : Upholds s s := ⟨id, id⟩

/-- An update of anything but a memory and the issue. -/
theorem upholds_update {clk ctr agenda threads groups blocks launches cores clusters dies parts copies sys hist pkg images}
    {winWrites} (h : Upholds s₀ s) : Upholds s₀ ⟨clk, ctr, agenda, s.issue, threads, groups, blocks, launches, cores,
      clusters, dies, parts, copies, sys, s.hbm, s.flats, s.loft, s.host, hist, pkg, images, winWrites⟩ := h

theorem upholds_hbm {m : Memory} (hm : Memory.wf s.hbm = true → Memory.wf m = true) (h : Upholds s₀ s) :
    Upholds s₀ { s with hbm := m } :=
  ⟨fun ok => (h.1 ok).imp hm id, h.2⟩

theorem upholds_flats {m : Memory} (hm : Memory.wf s.flats = true → Memory.wf m = true) (h : Upholds s₀ s) :
    Upholds s₀ { s with flats := m } :=
  ⟨fun ok => (h.1 ok).imp_right (And.imp_left hm), h.2⟩

theorem upholds_loft {m : Memory} (hm : Memory.wf s.loft = true → Memory.wf m = true) (h : Upholds s₀ s) :
    Upholds s₀ { s with loft := m } :=
  ⟨fun ok => (h.1 ok).imp_right (And.imp_right (And.imp_left hm)), h.2⟩

theorem upholds_host {m : Memory} (hm : Memory.wf s.host = true → Memory.wf m = true) (h : Upholds s₀ s) :
    Upholds s₀ { s with host := m } :=
  ⟨fun ok => (h.1 ok).imp_right (And.imp_right (And.imp_right hm)), h.2⟩

/-- The loft as it stood in another state that upholds `s₀`. -/
theorem upholds_loftOf (h' : Upholds s₀ s') (h : Upholds s₀ s) : Upholds s₀ { s with loft := s'.loft } :=
  ⟨fun ok => (h.1 ok).imp_right (And.imp_right (And.imp_left fun _ => (h'.1 ok).2.2.1)), h.2⟩

/-- The state of a result, taken apart. -/
theorem Upholds.of_snd {α : Type} {p : α × State} {a : α} (h : Upholds s₀ p.2) (e : p = (a, s)) : Upholds s₀ s := by
  rw [e] at h
  exact h

theorem ite_snd_upholds {α : Type} {c : Prop} [Decidable c] {a b : α × State} (ha : Upholds s₀ a.2) (hb : Upholds s₀ b.2) :
    Upholds s₀ (if c then a else b).2 := by
  split
  · exact ha
  · exact hb

theorem foldl_upholds {α : Type} {f : State → α → State} {l : List α}
    (hf : ∀ s x, Upholds s₀ s → Upholds s₀ (f s x)) (h : Upholds s₀ s) : Upholds s₀ (l.foldl f s) :=
  List.foldlRecOn l f h fun s hs x _ => hf s x hs

/-- A fold that carries a value beside the state. -/
theorem foldl_snd_upholds {α β : Type} {f : β × State → α → β × State} {l : List α} {p : β × State}
    (hf : ∀ p x, Upholds s₀ p.2 → Upholds s₀ (f p x).2) (h : Upholds s₀ p.2) : Upholds s₀ (l.foldl f p).2 :=
  List.foldlRecOn (motive := fun p : β × State => Upholds s₀ p.2) l f h fun p hp x _ => hf p x hp

/-- A fold that carries a value behind the state. -/
theorem foldl_fst_upholds {α β : Type} {f : State × β → α → State × β} {l : List α} {p : State × β}
    (hf : ∀ p x, Upholds s₀ p.1 → Upholds s₀ (f p x).1) (h : Upholds s₀ p.1) : Upholds s₀ (l.foldl f p).1 :=
  List.foldlRecOn (motive := fun p : State × β => Upholds s₀ p.1) l f h fun p hp x _ => hf p x hp

/-- A fold that carries values around the state. -/
theorem foldl_mid_upholds {α β γ : Type} {f : β × State × γ → α → β × State × γ} {l : List α} {p : β × State × γ}
    (hf : ∀ p x, Upholds s₀ p.2.1 → Upholds s₀ (f p x).2.1) (h : Upholds s₀ p.2.1) : Upholds s₀ (l.foldl f p).2.1 :=
  List.foldlRecOn (motive := fun p : β × State × γ => Upholds s₀ p.2.1) l f h fun p hp x _ => hf p x hp

/-- A fold over the words of a copy. -/
theorem foldl_copyAcc_upholds {α : Type} {f : CopyAcc → α → CopyAcc} {l : List α} {a : CopyAcc}
    (hf : ∀ a x, Upholds s₀ a.s → Upholds s₀ (f a x).s) (h : Upholds s₀ a.s) : Upholds s₀ (l.foldl f a).s :=
  List.foldlRecOn (motive := fun a : CopyAcc => Upholds s₀ a.s) l f h fun a ha x _ => hf a x ha

/-- A fold that stops where a step of it answers none. -/
theorem foldl_bind_ind {α β : Type} {P : β → Prop} {f : β → α → Option β} {l : List α} {b b' : β}
    (hf : ∀ b x b', P b → f b x = some b' → P b') (h : P b)
    (hr : l.foldl (fun r x => r.bind fun b => f b x) (some b) = some b') : P b' := by
  refine List.foldlRecOn (motive := fun r => ∀ b', r = some b' → P b') l _ ?_ ?_ b' hr
  · exact fun _ e => Option.some.inj e ▸ h
  · rintro r hr x - b' e
    obtain ⟨b, rfl, e⟩ := Option.bind_eq_some_iff.1 e
    exact hf b x b' (hr b rfl) e

theorem next_proceeds (h : Upholds s₀ s) : Proceeds s₀ (.next s) := ⟨s, rfl, h⟩

/-! #### Regs -/

theorem sysPut_upholds {n inst x} (h : Upholds s₀ s) : Upholds s₀ (sysPut s n inst x) := h

theorem sysPutBits_upholds {n inst hi lo v} (h : Upholds s₀ s) : Upholds s₀ (sysPutBits s n inst hi lo v) := by
  unfold sysPutBits
  grind [sysPut_upholds]

/-! #### Base -/

theorem onCore_upholds {n f} (h : Upholds s₀ s) : Upholds s₀ (s.onCore n f) := h
theorem onCluster_upholds {n f} (h : Upholds s₀ s) : Upholds s₀ (s.onCluster n f) := h
theorem onDie_upholds {n f} (h : Upholds s₀ s) : Upholds s₀ (s.onDie n f) := h
theorem onPart_upholds {n f} (h : Upholds s₀ s) : Upholds s₀ (s.onPart n f) := h
theorem onThread_upholds {t f} (h : Upholds s₀ s) : Upholds s₀ (s.onThread t f) := h
theorem onThreads_upholds {ts f} (h : Upholds s₀ s) : Upholds s₀ (s.onThreads ts f) := h
theorem onGroup_upholds {g f} (h : Upholds s₀ s) : Upholds s₀ (s.onGroup g f) := h
theorem onBlock_upholds {b f} (h : Upholds s₀ s) : Upholds s₀ (s.onBlock b f) := h
theorem onLaunch_upholds {l f} (h : Upholds s₀ s) : Upholds s₀ (s.onLaunch l f) := h
theorem onPkg_upholds {f} (h : Upholds s₀ s) : Upholds s₀ (s.onPkg f) := h

theorem send_upholds {m} (h : Upholds s₀ s) : Upholds s₀ (s.send m) := by
  unfold State.send
  grind [onPkg_upholds]

theorem coin_upholds (h : Upholds s₀ s) : Upholds s₀ (s.coin).2 := h

theorem pick_upholds {n} (h : Upholds s₀ s) : Upholds s₀ (s.pick n).2 := by
  unfold State.pick
  split <;> exact h

theorem freeBytes_upholds {n} (h : Upholds s₀ s) : Upholds s₀ (s.freeBytes n).2 := h

theorem raiseMsix_upholds {p v} (h : Upholds s₀ s) : Upholds s₀ (raiseMsix s p v) := by
  unfold raiseMsix
  grind [onPart_upholds]

theorem hlkErr_upholds {p kind addr} (h : Upholds s₀ s) : Upholds s₀ (hlkErr s p kind addr) := by
  unfold hlkErr
  grind [raiseMsix_upholds, sysPut_upholds]

/-! #### Translate -/

theorem leafUsed_upholds {d ia} (h : Upholds s₀ s) : Upholds s₀ (leafUsed s d ia).2 := by
  unfold leafUsed
  grind [coin_upholds]

theorem leafTouched_upholds {d ia write} (h : Upholds s₀ s) : Upholds s₀ (leafTouched s d ia write) := by
  unfold leafTouched
  grind [onDie_upholds]

theorem hatTouched_upholds {l pa} (h : Upholds s₀ s) : Upholds s₀ (hatTouched s l pa) := by
  unfold hatTouched
  grind [coin_upholds, onPkg_upholds]

theorem translate_upholds {l write fetch} (h : Upholds s₀ s) : Upholds s₀ (translate s l write fetch).2 := by
  unfold translate
  grind [leafUsed_upholds, leafTouched_upholds, hatTouched_upholds]

theorem touchSide_upholds {d pa} (h : Upholds s₀ s) : Upholds s₀ (touchSide s d pa) := by
  unfold touchSide
  grind [onDie_upholds]

theorem physWrite_upholds {d pa owner l} (h : Upholds s₀ s) : Upholds s₀ (physWrite s d pa owner l) :=
  onDie_upholds (touchSide_upholds (upholds_hbm (Memory.wf_writeN _ _ _) h))

theorem hostRead_upholds {p l pa n} (h : Upholds s₀ s) : Upholds s₀ (hostRead s p l pa n).2 := by
  unfold hostRead
  grind [hlkErr_upholds]

theorem hostWrite_upholds {p l pa relaxed b} (h : Upholds s₀ s) : Upholds s₀ (hostWrite s p l pa relaxed b) := by
  unfold hostWrite
  split
  · exact send_upholds (upholds_host (Memory.wf_writeN _ _ _) h)
  · exact hlkErr_upholds h

theorem putLine_upholds {x} (h : Upholds s₀ s) : Upholds s₀ (putLine s x) := by
  unfold putLine
  grind [onDie_upholds]

theorem dropLine_upholds {x} (h : Upholds s₀ s) : Upholds s₀ (dropLine s x) := by
  unfold dropLine
  grind [onDie_upholds]

theorem fillLine_upholds {l pa} (h : Upholds s₀ s) : Upholds s₀ (fillLine s l pa) := by
  unfold fillLine
  grind [putLine_upholds, touchSide_upholds]

theorem placeGo_upholds {l write fetch x} (h : Upholds s₀ s) : Upholds s₀ (place.go l write fetch s x).2 := by
  unfold place.go
  grind [translate_upholds]

theorem place_upholds {l write fetch} (h : Upholds s₀ s) : Upholds s₀ (place s l write fetch).2 := by
  unfold place
  grind [placeGo_upholds]

theorem placeRead_upholds {pl l p n} (h : Upholds s₀ s) : Upholds s₀ (Place.read pl s l p n).2 := by
  unfold Place.read
  grind [touchSide_upholds, hostRead_upholds]

theorem placeWrite_upholds {pl l p relaxed b} (h : Upholds s₀ s) : Upholds s₀ (Place.write pl s l p relaxed b) := by
  unfold Place.write
  grind [putLine_upholds, physWrite_upholds, hostWrite_upholds]

theorem writeBack_upholds {bypass x} (h : Upholds s₀ s) : Upholds s₀ (writeBack s bypass x).2 := by
  unfold writeBack
  grind [leafTouched_upholds, translate_upholds]

/-! #### History -/

theorem publish_upholds {who sc stores fence} (h : Upholds s₀ s) : Upholds s₀ (publish s who sc stores fence).2 := h

theorem releaseSet_upholds {t} (h : Upholds s₀ s) : Upholds s₀ (releaseSet s t).2 := by
  unfold releaseSet
  grind [coin_upholds]

theorem release_upholds {t sc fence own} (h : Upholds s₀ s) : Upholds s₀ (release s t sc fence own).2 := by
  unfold release
  grind [releaseSet_upholds, publish_upholds]

theorem extend_upholds {t l} (h : Upholds s₀ s) : Upholds s₀ (extend s t l) := by
  unfold extend
  grind [onThread_upholds, coin_upholds, onThreads_upholds]

theorem acquire_upholds {t sc rels fence} (h : Upholds s₀ s) : Upholds s₀ (acquire s t sc rels fence) := by
  unfold acquire
  grind [extend_upholds]

theorem acquireOf_upholds {t l} (h : Upholds s₀ s) : Upholds s₀ (acquireOf s t l) := by
  unfold acquireOf
  grind [extend_upholds]

theorem raiseFloor_upholds {c l r} (h : Upholds s₀ s) : Upholds s₀ (raiseFloor s c l r) := by
  unfold raiseFloor
  grind [onCore_upholds]

theorem someOf_upholds {l} (h : Upholds s₀ s) : Upholds s₀ (someOf s l).2 := by
  unfold someOf
  grind [coin_upholds, foldl_snd_upholds]

theorem histRead_upholds {v l home} (h : Upholds s₀ s) : Upholds s₀ (histRead s v l home).2 := by
  unfold histRead
  grind [someOf_upholds, raiseFloor_upholds]

theorem mixRead_upholds {mark l home} (h : Upholds s₀ s) : Upholds s₀ (mixRead s mark l home).2 :=
  foldl_mid_upholds (fun _ _ hp => pick_upholds hp) h

theorem codeRead_upholds {t l home} (h : Upholds s₀ s) : Upholds s₀ (codeRead s t l home).2 := by
  unfold codeRead
  grind [pick_upholds]

theorem noteFlush_upholds {t va n} (h : Upholds s₀ s) : Upholds s₀ (noteFlush s t va n) := h

theorem readNewest_upholds {t l n} (h : Upholds s₀ s) : Upholds s₀ (readNewest s t l n).2 := by
  unfold readNewest
  grind [raiseFloor_upholds]

theorem storeAt_upholds {pl l p r relaxed b} (h : Upholds s₀ s) : Upholds s₀ (storeAt s pl l p r relaxed b) := by
  unfold storeAt
  grind [placeRead_upholds, placeWrite_upholds, upholds_update]

/-! #### Access -/

theorem tick_upholds (h : Upholds s₀ s) : Upholds s₀ (s.tick).2 := h

theorem readLoc_upholds {l n} (h : Upholds s₀ s) : Upholds s₀ (readLoc s l n).2 := by
  unfold readLoc
  grind [place_upholds, placeRead_upholds]

theorem writeLoc_upholds {l r relaxed b} (h : Upholds s₀ s) : Upholds s₀ (writeLoc s l r relaxed b).2 := by
  unfold writeLoc
  grind [place_upholds, storeAt_upholds]

theorem readRange_upholds {c priv va n} (h : Upholds s₀ s) : Upholds s₀ (readRange s c priv va n).2 := by
  unfold readRange
  grind [readLoc_upholds, foldl_snd_upholds]

theorem writeRange_upholds {c priv r va b} (h : Upholds s₀ s) : Upholds s₀ (writeRange s c priv r va b).2 := by
  unfold writeRange
  grind [writeLoc_upholds, foldl_snd_upholds]

theorem agentRead_upholds {p va n} (h : Upholds s₀ s) : Upholds s₀ (agentRead s p va n).2 := by
  unfold agentRead
  grind [readRange_upholds]

theorem agentWrite_upholds {p rels va b} (h : Upholds s₀ s) : Upholds s₀ (agentWrite s p rels va b).2 := by
  unfold agentWrite
  grind [writeRange_upholds]

theorem keepLate_upholds {p x} (h : Upholds s₀ s) : Upholds s₀ (keepLate s p x) := by
  unfold keepLate
  grind [onPart_upholds]

theorem agentPut_upholds {p rels va b} (h : Upholds s₀ s) : Upholds s₀ (agentPut s p rels va b) := by
  unfold agentPut
  grind [agentWrite_upholds, keepLate_upholds]

theorem areaWrite_upholds {ctx d ia b} (h : Upholds s₀ s) {r} (hr : areaWrite s ctx d ia b = some r) : Upholds s₀ r := by
  refine foldl_bind_ind (fun s x s' hs e => ?_) h hr
  grind [writeLoc_upholds]

theorem areaRead_upholds {ctx d ia n} (h : Upholds s₀ s) {r} (hr : areaRead s ctx d ia n = some r) : Upholds s₀ r.2 := by
  refine foldl_bind_ind (P := fun r : List Byte × State => Upholds s₀ r.2) (fun r x r' hs e => ?_) h hr
  grind [readLoc_upholds, freeBytes_upholds]

/-- The view differs from the state in registers alone, the state from what it was in free values spent. -/
theorem windowView_upholds {t} (h : Upholds s₀ s) : Upholds s₀ (windowView s t).1 ∧ Upholds s₀ (windowView s t).2 := by
  refine List.foldlRecOn (motive := fun a : State × State × List Nat => Upholds s₀ a.1 ∧ Upholds s₀ a.2.1)
    s.winWrites _ ⟨h, h⟩ fun a ha w _ => ?_
  grind [coin_upholds, sysPut_upholds]

theorem noteWindow_upholds {t n old} (h : Upholds s₀ s) : Upholds s₀ (noteWindow s t n old) := by
  unfold noteWindow
  split <;> exact h

theorem setSlot_upholds {core slot x} (h : Upholds s₀ s) : Upholds s₀ (setSlot s core slot x) := by
  unfold setSlot
  grind [sysPut_upholds]

theorem flatWrite_upholds {d bank off b} (h : Upholds s₀ s) : Upholds s₀ (flatWrite s d bank off b) :=
  onDie_upholds (upholds_flats (Memory.wf_writeN _ _ _) h)

theorem zeroBank_upholds {d bank} (h : Upholds s₀ s) : Upholds s₀ (zeroBank s d bank) :=
  upholds_flats (Memory.wf_filter _ _) h

theorem setFlatRels_upholds {d bank off n rels} (h : Upholds s₀ s) : Upholds s₀ (setFlatRels s d bank off n rels) := h

theorem loftWrite_upholds {d off b} (h : Upholds s₀ s) : Upholds s₀ (loftWrite s d off b) :=
  upholds_loft (Memory.wf_writeN _ _ _) h

/-! #### LaunchQ -/

theorem lqPush_upholds {p q rels b} (h : Upholds s₀ s) : Upholds s₀ (lqPush s p q rels b).2 := by
  unfold lqPush
  split
  · exact h
  · split
    · exact h
    · exact sysPutBits_upholds (agentPut_upholds h)

/-! #### CopyRun -/

theorem targetFor_upholds {t ctx core priv va need} (h : Upholds s₀ s) : Upholds s₀ (targetFor s t ctx core priv va need).2 :=
  (windowView_upholds h).2

theorem copyBytes_upholds {cp l home} (h : Upholds s₀ s) : Upholds s₀ (copyBytes s cp l home).2 := by
  unfold copyBytes
  grind [mixRead_upholds, histRead_upholds]

theorem copyRead_upholds {cp va n} (h : Upholds s₀ s) : Upholds s₀ (copyRead s cp va n).2 := by
  unfold copyRead
  split <;> grind [targetFor_upholds, place_upholds, placeRead_upholds, copyBytes_upholds]

theorem copyWrite_upholds {cp va b} (h : Upholds s₀ s) : Upholds s₀ (copyWrite s cp va b).2 := by
  unfold copyWrite
  grind [targetFor_upholds, flatWrite_upholds, writeLoc_upholds]

theorem placePiece_upholds {cp va n} (h : Upholds s₀ s) : Upholds s₀ (placePiece s cp va n).2 := by
  unfold placePiece
  grind [targetFor_upholds, place_upholds, placeRead_upholds]

theorem placePieces_upholds {cp va n} (h : Upholds s₀ s) : Upholds s₀ (placePieces s cp va n).2 := by
  unfold placePieces
  grind [placePiece_upholds, foldl_snd_upholds]

theorem putPiece_upholds {cp x b} (h : Upholds s₀ s) : Upholds s₀ (putPiece s cp x b) := by
  unfold putPiece
  grind [flatWrite_upholds, storeAt_upholds]

theorem copyUpdate_upholds {cp va n f} (h : Upholds s₀ s) : Upholds s₀ (copyUpdate s cp va n f).2 := by
  unfold copyUpdate
  grind [placePieces_upholds, foldl_fst_upholds, putPiece_upholds]

theorem copyAccStart_upholds {cp part} (h : Upholds s₀ s) : Upholds s₀ (CopyAcc.start s cp part).s := h
theorem copyAccRow_upholds {a} (h : Upholds s₀ a.s) : Upholds s₀ (CopyAcc.row a).s := h

theorem copyAccTakes_upholds {a} (h : Upholds s₀ a.s) : Upholds s₀ (CopyAcc.takes a).2.s := by
  unfold CopyAcc.takes
  grind [coin_upholds]

theorem copyAccStop_upholds {a s f} (h : Upholds s₀ s) : Upholds s₀ (CopyAcc.stop a s f).s := by
  unfold CopyAcc.stop
  split <;> exact h

theorem copyAccWord_upholds {a va} (h : Upholds s₀ a.s) : Upholds s₀ (CopyAcc.word a va).2.s := by
  unfold CopyAcc.word
  grind [copyAccTakes_upholds, copyRead_upholds, copyAccStop_upholds]

theorem copyAccRead_upholds {a va n} (h : Upholds s₀ a.s) : Upholds s₀ (CopyAcc.read a va n).2.s :=
  List.foldlRecOn (motive := fun x : List Byte × CopyAcc => Upholds s₀ x.2.s) _ _ h fun _ hx _ _ => copyAccWord_upholds hx

theorem copyAccWrote_upholds {a key fl} (h : Upholds s₀ s) :
    Upholds s₀ (CopyAcc.wrote a s key fl).s := h

theorem copyAccPut_upholds {a r va b fl} (h : Upholds s₀ a.s) : Upholds s₀ (CopyAcc.put a r va b fl).s := by
  unfold CopyAcc.put
  grind [copyAccTakes_upholds, copyWrite_upholds, copyAccWrote_upholds, copyAccStop_upholds, foldl_copyAcc_upholds]

theorem copyAccUpd_upholds {a r va n f} (h : Upholds s₀ a.s) : Upholds s₀ (CopyAcc.upd a r va n f).s := by
  unfold CopyAcc.upd
  grind [copyAccTakes_upholds, copyUpdate_upholds, copyAccWrote_upholds, copyAccStop_upholds]

theorem runAccrd_upholds {a} (h : Upholds s₀ a.s) : Upholds s₀ (runAccrd a).s := by
  unfold runAccrd
  grind [copyAccPut_upholds, copyAccRow_upholds, copyAccUpd_upholds, foldl_copyAcc_upholds]

theorem runAcccvt_upholds {a} (h : Upholds s₀ a.s) : Upholds s₀ (runAcccvt a).s := by
  unfold runAcccvt
  grind [copyAccPut_upholds, copyAccRow_upholds, foldl_copyAcc_upholds]

theorem runColl_upholds {a} (h : Upholds s₀ a.s) : Upholds s₀ (runColl a).s := by
  unfold runColl
  grind [copyAccRead_upholds, copyAccRow_upholds, copyAccPut_upholds, foldl_copyAcc_upholds]

theorem runRows_upholds {a} (h : Upholds s₀ a.s) : Upholds s₀ (runRows a).s := by
  unfold runRows
  grind [copyAccRead_upholds, copyAccRow_upholds, copyAccUpd_upholds, copyAccPut_upholds, foldl_copyAcc_upholds]

theorem runCopy_upholds {cp part} (h : Upholds s₀ s) : Upholds s₀ (runCopy s cp part).s := by
  unfold runCopy
  grind [copyAccStart_upholds, runRows_upholds, runColl_upholds, copyAccStop_upholds, runAccrd_upholds, runAcccvt_upholds]

theorem copySome_upholds {cp ready} (h : Upholds s₀ s) : Upholds s₀ (copySome s cp ready).2 := by
  unfold copySome
  grind [runCopy_upholds]

theorem discardCopy_upholds {id} (h : Upholds s₀ s) : Upholds s₀ (discardCopy s id) := by
  unfold discardCopy
  grind [copySome_upholds, upholds_update]

/-! #### Ops -/

theorem setReady_upholds {t} (h : Upholds s₀ s) : Upholds s₀ (setReady s t) := by
  unfold setReady
  grind [onThread_upholds]

theorem stall_upholds {t pc w} (h : Upholds s₀ s) : Upholds s₀ (stall s t pc w) := by
  unfold stall
  grind [onThread_upholds]

theorem waitAt_upholds {t pc w} (h : Upholds s₀ s) : Upholds s₀ (waitAt s t pc w) := by
  unfold waitAt
  grind [onThread_upholds]

theorem queueBlock_upholds {b} (h : Upholds s₀ s) : Upholds s₀ (queueBlock s b) := by
  unfold queueBlock
  grind [onBlock_upholds]

theorem release8_upholds {t} (h : Upholds s₀ s) : Upholds s₀ (release8 s t) := by
  unfold release8
  grind [onThread_upholds, queueBlock_upholds, setReady_upholds]

theorem syncAll_upholds {ts} (h : Upholds s₀ s) : Upholds s₀ (syncAll s ts) := by
  unfold syncAll
  grind [releaseSet_upholds, acquireOf_upholds, foldl_upholds, foldl_snd_upholds]

theorem pmc_upholds {core n k} (h : Upholds s₀ s) : Upholds s₀ (pmc s core n k) := by
  unfold pmc
  grind [sysPut_upholds]

theorem setMask_upholds {g n x} (h : Upholds s₀ s) : Upholds s₀ (setMask s g n x) := by
  unfold setMask
  grind [onGroup_upholds]

theorem checkMask_upholds {g n} (h : Upholds s₀ s) : Upholds s₀ (checkMask s g n) := by
  unfold checkMask
  grind [syncAll_upholds, setMask_upholds, release8_upholds, foldl_upholds]

theorem barRelease_upholds {b id} (h : Upholds s₀ s) : Upholds s₀ (barRelease s b id) := by
  unfold barRelease
  grind [release8_upholds, syncAll_upholds, onBlock_upholds, foldl_upholds]

theorem barCheck_upholds {b id} (h : Upholds s₀ s) : Upholds s₀ (barCheck s b id) := by
  unfold barCheck
  grind [barRelease_upholds]

theorem setCv_upholds {b n x} (h : Upholds s₀ s) : Upholds s₀ (setCv s b n x) := by
  unfold setCv
  grind [onBlock_upholds]

theorem cvCheck_upholds {b n} (h : Upholds s₀ s) : Upholds s₀ (cvCheck s b n) := by
  unfold cvCheck
  grind [setCv_upholds, onCluster_upholds]

theorem attachWake_upholds {core slot} (h : Upholds s₀ s) : Upholds s₀ (attachWake s core slot) := by
  unfold attachWake
  grind [release8_upholds, onThread_upholds, foldl_upholds]

theorem cueDeliver_upholds {t dst e stores} (h : Upholds s₀ s) : Upholds s₀ (cueDeliver s t dst e stores) := by
  unfold cueDeliver
  grind [acquireOf_upholds, onThread_upholds]

theorem cueDrop_upholds {p h'} (h : Upholds s₀ s) : Upholds s₀ (cueDrop s p h') := by
  unfold cueDrop
  grind [onPart_upholds]

theorem cueServe_upholds {p q fuel} (h : Upholds s₀ s) : Upholds s₀ (cueServe s p q fuel) := by
  induction fuel generalizing s with
  | zero => exact h
  | succ fuel ih =>
    unfold cueServe
    split
    · exact h
    · split
      · split
        · exact ih (release8_upholds (cueDrop_upholds (onPart_upholds (cueDeliver_upholds h))))
        · exact h
      · exact h

theorem cueEnter_upholds {p h' e stores} (h : Upholds s₀ s) : Upholds s₀ (cueEnter s p h' e stores) := by
  unfold cueEnter
  grind [agentPut_upholds, onPart_upholds, queueBlock_upholds, cueServe_upholds, foldl_upholds]

theorem devPush_upholds {p h' e stores} (h : Upholds s₀ s) : Upholds s₀ (devPush s p h' e stores) := by
  unfold devPush
  grind [publish_upholds, onPart_upholds, cueEnter_upholds]

theorem recordPush_upholds {p rec h' e} (h : Upholds s₀ s) : Upholds s₀ (recordPush s p rec h' e) := by
  unfold recordPush
  grind [devPush_upholds, agentWrite_upholds, keepLate_upholds]

theorem runLate_upholds {p} (h : Upholds s₀ s) : Upholds s₀ (runLate s p) := by
  unfold runLate
  grind [agentPut_upholds, recordPush_upholds, onPart_upholds, foldl_upholds]

theorem heldTraps_upholds {p q fuel} (h : Upholds s₀ s) : Upholds s₀ (heldTraps s p q fuel) := by
  induction fuel generalizing s with
  | zero => exact h
  | succ fuel ih =>
    unfold heldTraps
    grind [onPart_upholds, cueEnter_upholds]

theorem cueTake_upholds {p h' t dst} (h : Upholds s₀ s) {r} (hr : cueTake s p h' t dst = some r) : Upholds s₀ r := by
  unfold cueTake at hr
  grind [cueDrop_upholds, cueDeliver_upholds, heldTraps_upholds]

theorem dropEntries_upholds {b} (h : Upholds s₀ s) : Upholds s₀ (dropEntries s b) := by
  unfold dropEntries
  grind [onCluster_upholds]

theorem exitThread_upholds {t} (h : Upholds s₀ s) : Upholds s₀ (exitThread s t) := by
  unfold exitThread
  grind [onThread_upholds, onGroup_upholds, checkMask_upholds, barCheck_upholds, cvCheck_upholds, dropEntries_upholds,
    foldl_upholds]

theorem endLaunches_upholds {ts hit st} (h : Upholds s₀ s) : Upholds s₀ (endLaunches s ts hit st) := by
  unfold endLaunches
  grind [discardCopy_upholds, onThreads_upholds, foldl_upholds, upholds_update]

theorem endContext_upholds {c} (h : Upholds s₀ s) : Upholds s₀ (endContext s c) := by
  unfold endContext
  grind [endLaunches_upholds]

theorem fireTableau_upholds {p code h' always} (h : Upholds s₀ s) : Upholds s₀ (fireTableau s p code h' always) := by
  unfold fireTableau
  grind [onPart_upholds]

theorem setEv_upholds {c p} (h : Upholds s₀ s) : Upholds s₀ (setEv s c p) := by
  unfold setEv
  grind [raiseMsix_upholds, sysPutBits_upholds]

theorem landPend_upholds {t p} (h : Upholds s₀ s) : Upholds s₀ (landPend s t p) := by
  unfold landPend
  grind [onThread_upholds, onGroup_upholds, setReady_upholds, foldl_upholds]

theorem settleSfu_upholds {t} (h : Upholds s₀ s) : Upholds s₀ (settleSfu s t) := by
  unfold settleSfu
  grind [landPend_upholds, foldl_upholds]

theorem putRecord_upholds {t i} (h : Upholds s₀ s) : Upholds s₀ (putRecord s t i) := by
  unfold putRecord
  grind [agentPut_upholds]

theorem debugCurtain_upholds {t i scope} (h : Upholds s₀ s) : Upholds s₀ (debugCurtain s t i scope) := by
  unfold debugCurtain
  grind [onThread_upholds, setEv_upholds, putRecord_upholds, fireTableau_upholds, onThreads_upholds, settleSfu_upholds,
    foldl_upholds]

theorem sTrap_upholds {t i} (h : Upholds s₀ s) : Upholds s₀ (sTrap s t i) := by
  unfold sTrap
  grind [onThread_upholds, fireTableau_upholds, recordPush_upholds, putRecord_upholds, exitThread_upholds, hlkErr_upholds,
    endContext_upholds]

theorem handlerRecord_upholds {t i} (h : Upholds s₀ s) : Upholds s₀ (handlerRecord s t i) := by
  unfold handlerRecord
  grind [flatWrite_upholds, writeLoc_upholds, tick_upholds, onThread_upholds]

theorem takeTrap_upholds {t i} (h : Upholds s₀ s) : Upholds s₀ (takeTrap s t i) := by
  unfold takeTrap
  grind [settleSfu_upholds, onThread_upholds, handlerRecord_upholds, debugCurtain_upholds, sTrap_upholds]

theorem passEntry_upholds {t r} (h : Upholds s₀ s) : Upholds s₀ (passEntry s t r) := by
  unfold passEntry
  grind [onCore_upholds]

theorem discardReq_upholds {t r} (h : Upholds s₀ s) : Upholds s₀ (discardReq s t r) := by
  unfold discardReq
  grind [onThread_upholds, release8_upholds, passEntry_upholds]

theorem discardDenied_upholds {t} (h : Upholds s₀ s) : Upholds s₀ (discardDenied s t) := by
  unfold discardDenied
  grind [discardReq_upholds]

theorem discardLogged_upholds {t} (h : Upholds s₀ s) : Upholds s₀ (discardLogged s t) := by
  unfold discardLogged
  grind [discardReq_upholds, foldl_upholds]

theorem returnFromTrap_upholds {t r} (h : Upholds s₀ s) : Upholds s₀ (returnFromTrap s t r) := by
  unfold returnFromTrap
  grind [onThread_upholds, discardDenied_upholds, discardLogged_upholds]

/-! #### Operands -/

theorem issuedTrap_upholds {is t c ea code} (h : Upholds s₀ s) : Upholds s₀ (Issued.trap is s t c ea code) := by
  unfold Issued.trap
  grind [takeTrap_upholds]

theorem issuedStall_upholds {is t w} (h : Upholds s₀ s) : Upholds s₀ (Issued.stall is s t w) := by
  unfold Issued.stall
  grind [onThread_upholds, stall_upholds]

theorem gatherArrive_upholds {m pc t} (h : Upholds s₀ s) : Upholds s₀ (gatherArrive m pc s t) := by
  unfold gatherArrive
  grind [onGroup_upholds]

theorem gatherGo_upholds {m pc ts} (h : Upholds s₀ s) : Upholds s₀ (gatherGo m pc ts s).2 := by
  unfold gatherGo
  grind [gatherArrive_upholds, stall_upholds, foldl_upholds]

theorem takeIn_upholds {i b ts} (h : Upholds s₀ s) : Upholds s₀ (takeIn i b ts s).2 := by
  unfold takeIn
  grind [gatherGo_upholds, pmc_upholds, stall_upholds, foldl_upholds]

theorem advance_upholds {ts pc} (h : Upholds s₀ s) : Upholds s₀ (advance s ts pc) := by
  unfold advance
  grind [onThreads_upholds, onBlock_upholds, foldl_upholds]

theorem onlyThese_upholds {b ts} (hi : s₀.issue ≠ .none) (h : Upholds s₀ s) : Upholds s₀ (onlyThese s b ts) :=
  ⟨h.1, fun e => absurd e hi⟩

theorem issueWord_upholds {i b body} (hi : s₀.issue ≠ .none) (hbody : ∀ y s, Upholds s₀ s → Upholds s₀ (body y s))
    (h : Upholds s₀ s) : Upholds s₀ (issueWord i b s body) := by
  unfold issueWord
  extract_lets ts rest s1 fates s2 free
  have h1 : Upholds s₀ s1 := by
    unfold s1
    split
    · exact h
    · exact onCore_upholds h
  have h2 : Upholds s₀ s2 := by
    refine foldl_upholds (fun s f hs => ?_) h1
    grind [takeTrap_upholds, onThread_upholds, stall_upholds]
  have h3 := takeIn_upholds (i := i) (b := b) (ts := free) h2
  dsimp only
  split
  · exact onlyThese_upholds hi h3
  · exact hbody _ _ (pmc_upholds (pmc_upholds (advance_upholds (onlyThese_upholds hi h3))))

/-- A word acts on a bundle that is being issued, and on nothing else. -/
theorem word_proceeds {i body} (h : Upholds s₀ s) (hbody : ∀ y s, Upholds s₀ s → Upholds s₀ (body y s)) :
    Proceeds s₀ (word i s body) := by
  unfold word
  split
  · rename_i b e
    exact next_proceeds (issueWord_upholds (fun hi => by have := h.2 hi; simp [e] at this) hbody h)
  · exact next_proceeds h

theorem orFlags_upholds {g fl} (h : Upholds s₀ s) : Upholds s₀ (orFlags s g fl) := by
  unfold orFlags
  grind [onGroup_upholds]

theorem land_upholds {i rs} (h : Upholds s₀ s) : Upholds s₀ (land i rs s) := by
  unfold land
  grind [onThreads_upholds, orFlags_upholds, foldl_upholds]

theorem lanesBody_upholds {i f is} (h : Upholds s₀ s) : Upholds s₀ (lanesBody i f is s) := by
  unfold lanesBody
  grind [land_upholds]

theorem lateBody_upholds {i sfu f is} (h : Upholds s₀ s) : Upholds s₀ (lateBody i sfu f is s) := by
  unfold lateBody
  grind [onThreads_upholds, upholds_update]

theorem setK_upholds {g n x} (h : Upholds s₀ s) : Upholds s₀ (setK s g n x) := by
  unfold setK
  grind [onGroup_upholds]

theorem alu_proceeds {i f} (h : Upholds s₀ s) : Proceeds s₀ (alu i s f) := by
  unfold alu
  grind [word_proceeds, lanesBody_upholds]

theorem sfu_proceeds {i f} (h : Upholds s₀ s) : Proceeds s₀ (sfu i s f) := by
  unfold sfu
  grind [word_proceeds, lateBody_upholds]

theorem eachActive_upholds {is f} (h : Upholds s₀ s) (hf : ∀ s y, Upholds s₀ s → Upholds s₀ (f s y)) :
    Upholds s₀ (eachActive is s f) := by
  unfold eachActive
  grind [foldl_upholds]

/-! #### Poison -/

theorem ueLogAdd_upholds {d e} (h : Upholds s₀ s) : Upholds s₀ (ueLogAdd s d e) := by
  unfold ueLogAdd
  grind [onDie_upholds]

theorem detectUe_upholds {src d addr o} (h : Upholds s₀ s) : Upholds s₀ (detectUe s src d addr o) := by
  unfold detectUe
  grind [ueLogAdd_upholds, endContext_upholds]

/-- Only free values are spent; the memory spoilt is answered beside the state. -/
theorem spoil_upholds {m k n} (h : Upholds s₀ s) : Upholds s₀ (spoil s m k n).2 := freeBytes_upholds h

theorem poisonLine_upholds {d pa} (h : Upholds s₀ s) : Upholds s₀ (poisonLine s d pa) :=
  onDie_upholds (upholds_hbm (Memory.wf_writeN _ _ _) (freeBytes_upholds (n := 128) h))

theorem meetPoison_upholds {t src d addr o} (h : Upholds s₀ s) : Upholds s₀ (meetPoison s t src d addr o).2 := by
  unfold meetPoison
  grind [detectUe_upholds]

theorem memErr_upholds {t pc iw va} (h : Upholds s₀ s) : Upholds s₀ (memErr s t pc iw va) := by
  unfold memErr
  grind [setReady_upholds, takeTrap_upholds]

/-! #### Requests -/

theorem releaseMem_upholds {t sc fence own} (h : Upholds s₀ s) : Upholds s₀ (releaseMem s t sc fence own).2 := by
  unfold releaseMem
  grind [release_upholds, send_upholds]

theorem finish_upholds {t id ws} (h : Upholds s₀ s) : Upholds s₀ (finish s t id ws) := by
  unfold finish
  grind [landPend_upholds]

theorem writeRegs_upholds {t dst ws} (h : Upholds s₀ s) : Upholds s₀ (writeRegs s t dst ws) := by
  unfold writeRegs
  grind [onThread_upholds, setK_upholds, foldl_upholds]

theorem flatAccess_upholds {is t a d bank off} (h : Upholds s₀ s) : Upholds s₀ (flatAccess s is t a d bank off) := by
  unfold flatAccess
  grind [meetPoison_upholds, memErr_upholds, releaseMem_upholds, writeRegs_upholds, setFlatRels_upholds,
    flatWrite_upholds, lqPush_upholds, issuedTrap_upholds, acquire_upholds]

theorem loadBytes_upholds {t v l home} (h : Upholds s₀ s) : Upholds s₀ (loadBytes s t v l home).2 := by
  unfold loadBytes
  split
  · exact h
  · split
    · exact mixRead_upholds h
    · exact foldl_mid_upholds (fun _ _ hp => histRead_upholds hp) h

theorem addReq_upholds {is t a l seq entry lead pend} (h : Upholds s₀ s) :
    Upholds s₀ (addReq s is t a l seq entry lead pend) := by
  unfold addReq
  grind [onThread_upholds]

theorem holdFor_upholds {is t a} (h : Upholds s₀ s) : Upholds s₀ (holdFor s is t a) := by
  unfold holdFor
  grind [waitAt_upholds]

theorem memBody_upholds {f is} (h : Upholds s₀ s) : Upholds s₀ (memBody f is s) := by
  unfold memBody
  extract_lets accs
  split
  rename_i checked s1 e1
  have h1 : Upholds s₀ s1 := by
    have := foldl_snd_upholds (l := accs) (p := (([], s) : List (Nat × Access × Except Cause Target) × State))
      (f := fun p x => (p.1 ++ [(x.1, x.2, accessCheck (windowView p.2 x.1).1 is x.1 x.2)], (windowView p.2 x.1).2))
      (fun p x hp => (windowView_upholds hp).2) h
    rw [show _ = (checked, s1) from e1] at this
    exact this
  extract_lets s2 go s3 mems
  have h2 : Upholds s₀ s2 := foldl_upholds (fun s x hs => by grind [issuedTrap_upholds]) h1
  have h3 : Upholds s₀ s3 := foldl_upholds (fun s x hs => by grind [flatAccess_upholds]) h2
  split
  rename_i s4 rest e4
  have h4 : Upholds s₀ s4 := by
    rw [show s4 = _ from (congrArg Prod.fst e4).symm]
    exact foldl_fst_upholds (fun p x hp => by grind [coin_upholds, loadBytes_upholds, writeRegs_upholds]) h3
  split
  · exact h4
  · exact foldl_upholds (fun s y hs => by grind [holdFor_upholds, addReq_upholds, tick_upholds])
      (tick_upholds (onCore_upholds h4))

/-! #### Faults -/

theorem setReqSt_upholds {t seq st} (h : Upholds s₀ s) : Upholds s₀ (setReqSt s t seq st) := by
  unfold setReqSt
  grind [onThread_upholds]

theorem portFaulted_upholds {t r p c} (h : Upholds s₀ s) : Upholds s₀ (portFaulted s t r p c) := by
  unfold portFaulted
  grind [onThread_upholds]

theorem denyAccess_upholds {t r reason} (h : Upholds s₀ s) : Upholds s₀ (denyAccess s t r reason) := by
  unfold denyAccess
  grind [passEntry_upholds, onThread_upholds, portFaulted_upholds, setReqSt_upholds, onCore_upholds, takeTrap_upholds]

theorem newFault_upholds {p h' f} (h : Upholds s₀ s) : Upholds s₀ (newFault s p h' f).2 := by
  unfold newFault
  grind [pick_upholds, sysPut_upholds, onPart_upholds, recordPush_upholds]

theorem holdFault_upholds {p l va core kind n r fetchers wb} (h : Upholds s₀ s) :
    Upholds s₀ (holdFault s p l va core kind n r fetchers wb).2 := by
  unfold holdFault
  grind [onPart_upholds, agentPut_upholds, newFault_upholds]

theorem faultRun_upholds {ms l va r} (h : Upholds s₀ s) : Upholds s₀ (faultRun s ms l va r) := by
  unfold faultRun
  grind [onThread_upholds, holdFault_upholds, setReqSt_upholds, denyAccess_upholds, foldl_upholds]

theorem putBack_upholds {x pa leaf} (h : Upholds s₀ s) : Upholds s₀ (putBack s x pa leaf) := by
  unfold putBack
  grind [dropLine_upholds, hostWrite_upholds, physWrite_upholds]

theorem evict_upholds {bypass x} (h : Upholds s₀ s) : Upholds s₀ (evict bypass s x) := by
  unfold evict
  split
  · exact dropLine_upholds h
  · split <;> rename_i e <;> have hw := (writeBack_upholds h).of_snd e
    · exact putBack_upholds hw
    · grind [dropLine_upholds, holdFault_upholds, endContext_upholds]
    · exact hw

theorem evictOne_upholds {ls} (h : Upholds s₀ s) : Upholds s₀ (evictOne s ls) := by
  unfold evictOne
  grind [pick_upholds, evict_upholds, foldl_snd_upholds]

theorem makeRoom_upholds {d slice line} (h : Upholds s₀ s) : Upholds s₀ (makeRoom s d slice line) := by
  unfold makeRoom
  grind [evictOne_upholds, coin_upholds]

theorem fillWay_upholds {l pa} (h : Upholds s₀ s) : Upholds s₀ (fillWay s l pa) := by
  unfold fillWay
  grind [makeRoom_upholds, fillLine_upholds]

theorem setWays_upholds {d slice n} (h : Upholds s₀ s) : Upholds s₀ (setWays s d slice n) := by
  unfold setWays
  grind [sysPutBits_upholds, onDie_upholds, evictOne_upholds, foldl_upholds]

theorem svDone_upholds {t r d v} (h : Upholds s₀ s) : Upholds s₀ (svDone s t r d v) := by
  unfold svDone
  grind [onThread_upholds, readNewest_upholds, release8_upholds, acquire_upholds]

theorem sweep_upholds (h : Upholds s₀ s) : Upholds s₀ (sweep s) := by
  refine foldl_upholds (fun s e hs => ?_) h
  dsimp only
  split
  · split
    · split
      · split
        · exact svDone_upholds hs
        · exact hs
      · exact hs
    · exact hs
  · split
    · split
      · exact hs
      · exact release8_upholds (acquire_upholds (readNewest_upholds hs))
    · exact hs
  · exact hs

theorem superCheck_upholds {p va g} (h : Upholds s₀ s) : Upholds s₀ (superCheck s p va g) := by
  unfold superCheck
  grind [onPart_upholds, readNewest_upholds, release8_upholds, acquire_upholds, foldl_upholds]

theorem superOwn_upholds {p va g} (h : Upholds s₀ s) : Upholds s₀ (superOwn s p va g) := by
  unfold superOwn
  grind [onPart_upholds, send_upholds, superCheck_upholds, foldl_upholds]

/-! #### Perform -/

theorem onSlice_upholds {d slice f} (h : Upholds s₀ s) : Upholds s₀ (onSlice s d slice f) := by
  unfold onSlice
  grind [onDie_upholds]

theorem arriving_upholds {d slice c} (h : Upholds s₀ s) : Upholds s₀ (arriving s d slice c).2 := by
  unfold arriving
  grind [pick_upholds]

theorem sliceArrivals_upholds {d slice} (h : Upholds s₀ s) : Upholds s₀ (sliceArrivals s d slice) := by
  unfold sliceArrivals
  grind [arriving_upholds, onSlice_upholds, foldl_snd_upholds]

theorem unqueue_upholds {d slice ms} (h : Upholds s₀ s) : Upholds s₀ (unqueue s d slice ms) := by
  unfold unqueue
  grind [onSlice_upholds]

theorem storeBytes_upholds {pl l p r relaxed b} (h : Upholds s₀ s) : Upholds s₀ (storeBytes s pl l p r relaxed b) :=
  foldl_fst_upholds (fun _ _ hp => storeAt_upholds hp) h

theorem keepAmong_upholds {n x l} (h : Upholds s₀ s) : Upholds s₀ (keepAmong s n x l).2 := by
  unfold keepAmong
  grind [pick_upholds]

theorem addL1_upholds {c id} (h : Upholds s₀ s) : Upholds s₀ (addL1 s c id) := by
  unfold addL1
  grind [keepAmong_upholds, onCore_upholds]

theorem addRemote_upholds {d slice id} (h : Upholds s₀ s) : Upholds s₀ (addRemote s d slice id) := by
  unfold addRemote
  grind [keepAmong_upholds, onDie_upholds]

theorem cacheLine_upholds {t l pl} (h : Upholds s₀ s) : Upholds s₀ (cacheLine s t l pl) := by
  unfold cacheLine
  grind [coin_upholds, pmc_upholds, addL1_upholds, addRemote_upholds]

theorem loadAt_upholds {t r pl} (h : Upholds s₀ s) : Upholds s₀ (loadAt s t r pl).2 := by
  unfold loadAt
  grind [placeRead_upholds, loadBytes_upholds]

theorem atomRead_upholds {t l1 l n pl} (h : Upholds s₀ s) : Upholds s₀ (atomRead s t l1 l n pl).2 := by
  unfold atomRead
  grind [placeRead_upholds, pick_upholds, raiseFloor_upholds]

theorem atomAt_upholds {t r pl l n f} (h : Upholds s₀ s) : Upholds s₀ (atomAt s t r pl l n f).2 := by
  unfold atomAt
  grind [atomRead_upholds, coin_upholds, releaseMem_upholds, storeAt_upholds, acquire_upholds]

theorem halfStep_upholds {t r pl op ty hi} (h : Upholds s₀ s) : Upholds s₀ (halfStep s t r pl op ty hi).2 := by
  unfold halfStep
  grind [atomAt_upholds]

theorem onReq_upholds {t seq f} (h : Upholds s₀ s) : Upholds s₀ (onReq s t seq f) := by
  unfold onReq
  grind [onThread_upholds]

theorem atomStep_upholds {t r pl op ty hi} (h : Upholds s₀ s) : Upholds s₀ (atomStep s t r pl op ty hi).2 := by
  unfold atomStep
  grind [atomAt_upholds, halfStep_upholds, onReq_upholds]

theorem barStep_upholds {t r pl super pend} (h : Upholds s₀ s) : Upholds s₀ (barStep s t r pl super pend) := by
  unfold barStep
  extract_lets hl
  split
  rename_i own s1 e1
  have h1 : Upholds s₀ s1 := by grind [releaseMem_upholds]
  extract_lets pl1
  split
  rename_i b s2 e2
  have h2 : Upholds s₀ s2 := by grind [placeRead_upholds]
  extract_lets e h' g a ends
  split
  rename_i ids s3 e3
  have h3 : Upholds s₀ s3 := by grind [readNewest_upholds]
  extract_lets rels new s4 s5
  have h4 : Upholds s₀ s4 := storeAt_upholds h3
  have h5 : Upholds s₀ s5 := by
    unfold s5
    split
    · exact finish_upholds h4
    · split
      · exact release8_upholds (acquire_upholds h4)
      · exact onThread_upholds h4
  split
  · exact superOwn_upholds h5
  · exact h5

theorem dropReq_upholds {m} (h : Upholds s₀ s) : Upholds s₀ (dropReq s m) := by
  unfold dropReq
  grind [onThread_upholds]

theorem dropPend_upholds {m} (h : Upholds s₀ s) : Upholds s₀ (dropPend s m) := by
  unfold dropPend
  grind [onThread_upholds]

theorem packetAt_upholds {t r} (h : Upholds s₀ s) : Upholds s₀ (packetAt s t r).2 := by
  refine foldl_snd_upholds (fun p x hp => ?_) h
  dsimp only
  split
  · split
    · split
      · grind [place_upholds]
      · split <;> grind [place_upholds, placeRead_upholds, loadBytes_upholds]
    · grind [place_upholds]
    · grind [place_upholds]
  · exact hp

theorem acquireRead_upholds {t r ids} (h : Upholds s₀ s) : Upholds s₀ (acquireRead s t r ids) := by
  unfold acquireRead
  grind [acquire_upholds]

theorem performLdk_upholds {ms pl} (h : Upholds s₀ s) : Upholds s₀ (performLdk s ms pl) := by
  unfold performLdk
  grind [loadAt_upholds, dropReq_upholds, cacheLine_upholds, acquireRead_upholds, finish_upholds, foldl_upholds]

theorem performOne_upholds {m pl hi} (h : Upholds s₀ s) : Upholds s₀ (performOne s m pl hi) := by
  unfold performOne
  extract_lets t r s0 p
  have h0 : Upholds s₀ s0 := dropReq_upholds h
  split
  · exact finish_upholds (acquireRead_upholds (cacheLine_upholds (loadAt_upholds h0)))
  · exact h
  · split
    exact storeBytes_upholds (by grind [releaseMem_upholds])
  · grind [atomStep_upholds, finish_upholds, dropReq_upholds]
  · exact atomAt_upholds h0
  · dsimp only
    split
    · exact svDone_upholds (placeRead_upholds h)
    · exact setReqSt_upholds (placeRead_upholds h)
  · exact barStep_upholds h0
  · dsimp only
    split
    · exact onThread_upholds (readNewest_upholds (placeRead_upholds h0))
    · exact release8_upholds (acquire_upholds (readNewest_upholds (placeRead_upholds h0)))
  · exact storeBytes_upholds h0
  · exact storeBytes_upholds h0
  · exact onThread_upholds (loadAt_upholds h0)
  · have hp := packetAt_upholds (t := t) (r := r) h
    split <;> rename_i e <;> rw [e] at hp
    · exact finish_upholds (lqPush_upholds (releaseMem_upholds (dropReq_upholds hp)))
    · exact memErr_upholds (dropPend_upholds (dropReq_upholds hp))
    · exact faultRun_upholds hp
    · exact hp

theorem performMembers_upholds {ms pl} (h : Upholds s₀ s) : Upholds s₀ (performMembers s ms pl) := by
  unfold performMembers
  split
  · exact h
  · extract_lets one
    have hone : ∀ hi s l, Upholds s₀ s → Upholds s₀ (List.foldl (one hi) s l) := by
      refine fun hi s l hs => foldl_upholds (fun s m hs => ?_) hs
      unfold one
      split
      · exact performOne_upholds hs
      · exact hs
    split
    · exact performLdk_upholds h
    · split
      · exact hone _ _ _ h
      · split
        · exact hone _ _ _ h
        · dsimp only
          split
          · exact hone _ _ _ (coin_upholds (hone _ _ _ (coin_upholds h)))
          · exact coin_upholds (hone _ _ _ (coin_upholds h))
    · exact hone _ _ _ h

theorem performRun_upholds {ms pl} (h : Upholds s₀ s) : Upholds s₀ (performRun s ms pl) := by
  unfold performRun
  grind [meetPoison_upholds, portFaulted_upholds, memErr_upholds, passEntry_upholds, dropPend_upholds, dropReq_upholds,
    performMembers_upholds, setReqSt_upholds, sweep_upholds, foldl_upholds]

theorem execL2SliceRequest_proceeds {d slice} (h : Upholds s₀ s) : Proceeds s₀ (execL2SliceRequest d slice s) := by
  unfold execL2SliceRequest
  grind [sliceArrivals_upholds, unqueue_upholds, performRun_upholds, setReqSt_upholds, foldl_upholds, next_proceeds]

theorem toHost_upholds {ms r pa} (h : Upholds s₀ s) : Upholds s₀ (toHost s ms r pa) := by
  unfold toHost
  grind [setReqSt_upholds, passEntry_upholds, send_upholds, coin_upholds, performRun_upholds, foldl_upholds]

theorem execTranslateRequest_proceeds {d slice} (h : Upholds s₀ s) : Proceeds s₀ (execTranslateRequest d slice s) := by
  refine next_proceeds ?_
  extract_lets free pool
  have hp : Upholds s₀ (s.pick pool.length).2 := pick_upholds h
  dsimp only
  split
  · exact hp
  · split <;> rename_i e <;> have ht := (translate_upholds hp).of_snd e
    · grind [toHost_upholds, performRun_upholds, fillWay_upholds]
    · exact faultRun_upholds ht
    · exact ht

theorem execHostLinkCompletion_proceeds {req} (h : Upholds s₀ s) : Proceeds s₀ (execHostLinkCompletion req s) := by
  unfold execHostLinkCompletion
  grind [performRun_upholds, next_proceeds]

theorem execLateFaultArrival_proceeds {entry} (h : Upholds s₀ s) : Proceeds s₀ (execLateFaultArrival entry s) := by
  unfold execLateFaultArrival
  grind [onCore_upholds, next_proceeds]

theorem execOperandLogReplay_proceeds {entry} (h : Upholds s₀ s) : Proceeds s₀ (execOperandLogReplay entry s) := by
  unfold execOperandLogReplay
  grind [onThreads_upholds, onCore_upholds, next_proceeds]

theorem execLateResultWrite_proceeds {tid} (h : Upholds s₀ s) : Proceeds s₀ (execLateResultWrite tid s) := by
  unfold execLateResultWrite
  grind [pick_upholds, landPend_upholds, next_proceeds]

/-! #### Barriers -/

theorem execBarBlk_proceeds {a} (h : Upholds s₀ s) : Proceeds s₀ (execBarBlk a s) := by
  unfold execBarBlk
  grind [word_proceeds, eachActive_upholds, waitAt_upholds, onBlock_upholds, barCheck_upholds]

theorem execBarCls_proceeds {a} (h : Upholds s₀ s) : Proceeds s₀ (execBarCls a s) := by
  unfold execBarCls
  grind [word_proceeds, memBody_upholds]

theorem execBarDev_proceeds {a} (h : Upholds s₀ s) : Proceeds s₀ (execBarDev a s) := by
  unfold execBarDev
  grind [word_proceeds, memBody_upholds]

theorem execBarDevSuper_proceeds {a} (h : Upholds s₀ s) : Proceeds s₀ (execBarDevSuper a s) := by
  unfold execBarDevSuper
  grind [word_proceeds, memBody_upholds]

theorem execBarArrive_proceeds {a} (h : Upholds s₀ s) : Proceeds s₀ (execBarArrive a s) := by
  unfold execBarArrive
  grind [word_proceeds, memBody_upholds]

theorem execBarWait_proceeds {a} (h : Upholds s₀ s) : Proceeds s₀ (execBarWait a s) := by
  unfold execBarWait
  grind [word_proceeds, memBody_upholds]

/-! #### Copies -/

theorem newCopy_upholds {t kind desc tile} (h : Upholds s₀ s) : Upholds s₀ (newCopy s t kind desc tile) := by
  unfold newCopy
  grind [tick_upholds, onThread_upholds, upholds_update]

theorem issueCopies_upholds {kind desc tile is} (h : Upholds s₀ s) : Upholds s₀ (issueCopies kind desc tile is s) := by
  unfold issueCopies
  grind [eachActive_upholds, newCopy_upholds]

theorem rowsBody_upholds {reduce k is} (h : Upholds s₀ s) : Upholds s₀ (rowsBody reduce k is s) := by
  unfold rowsBody
  grind [eachActive_upholds, issuedTrap_upholds, issueCopies_upholds]

theorem execCpRows_proceeds {a} (h : Upholds s₀ s) : Proceeds s₀ (execCpRows a s) := by
  unfold execCpRows
  grind [word_proceeds, rowsBody_upholds]

theorem execCpReduce_proceeds {a} (h : Upholds s₀ s) : Proceeds s₀ (execCpReduce a s) := by
  unfold execCpReduce
  grind [word_proceeds, rowsBody_upholds]

theorem execCpSeal_proceeds {a} (h : Upholds s₀ s) : Proceeds s₀ (execCpSeal a s) := by
  unfold execCpSeal
  grind [word_proceeds, eachActive_upholds, onThread_upholds]

theorem finishWait_upholds {t b pc iw go} (h : Upholds s₀ s) (hgo : ∀ s, Upholds s₀ s → Upholds s₀ (go s)) :
    Upholds s₀ (finishWait s t b pc iw go) := by
  unfold finishWait
  grind [onThread_upholds, takeTrap_upholds, setReady_upholds, orFlags_upholds, foldl_upholds]

theorem execCpWait_proceeds {a} (h : Upholds s₀ s) : Proceeds s₀ (execCpWait a s) := by
  unfold execCpWait
  grind [word_proceeds, eachActive_upholds, finishWait_upholds, waitAt_upholds]

theorem copyDone_upholds {id cp fl fault stores} (h : Upholds s₀ s) : Upholds s₀ (copyDone s id cp fl fault stores) := by
  unfold copyDone
  grind [onThread_upholds, finishWait_upholds, release8_upholds, upholds_update]

theorem copyWhole_upholds {cp} (h : Upholds s₀ s) : Upholds s₀ (copyWhole s cp).s := by
  unfold copyWhole
  grind [runCopy_upholds]

theorem copyPoison_upholds {cp va} (h : Upholds s₀ s) : Upholds s₀ (copyPoison s cp va) := by
  unfold copyPoison
  split
  · exact detectUe_upholds h
  · split <;> grind [detectUe_upholds, place_upholds]

theorem copyWork_upholds {id} (h : Upholds s₀ s) : Upholds s₀ (copyWork s id) := by
  unfold copyWork
  grind [copySome_upholds, sweep_upholds, upholds_update]

theorem copyCut_upholds {id cp f} (h : Upholds s₀ s) : Upholds s₀ (copyCut s id cp f) := by
  unfold copyCut
  grind [copySome_upholds, copyPoison_upholds, sweep_upholds, copyDone_upholds]

/-! #### Masks -/

theorem groupBody_upholds {f is} (hf : ∀ is s g ts, Upholds s₀ s → Upholds s₀ (f is s g ts)) (h : Upholds s₀ s) :
    Upholds s₀ (groupBody f is s) := by
  unfold groupBody
  split
  · exact h
  · exact hf _ _ _ _ h

theorem execJoin_proceeds {a} (h : Upholds s₀ s) : Proceeds s₀ (execJoin a s) := by
  unfold execJoin
  grind [word_proceeds, groupBody_upholds, setMask_upholds]

theorem execLeave_proceeds {a} (h : Upholds s₀ s) : Proceeds s₀ (execLeave a s) := by
  unfold execLeave
  grind [word_proceeds, groupBody_upholds, checkMask_upholds, setMask_upholds]

theorem execWait_proceeds {a} (h : Upholds s₀ s) : Proceeds s₀ (execWait a s) := by
  unfold execWait
  grind [word_proceeds, groupBody_upholds, waitAt_upholds, checkMask_upholds, setMask_upholds, foldl_upholds]

theorem execMset_proceeds {a} (h : Upholds s₀ s) : Proceeds s₀ (execMset a s) := by
  unfold execMset
  grind [word_proceeds, groupBody_upholds, release8_upholds, checkMask_upholds, setMask_upholds, foldl_upholds]

theorem execMget_proceeds {a} (h : Upholds s₀ s) : Proceeds s₀ (execMget a s) := by
  unfold execMget
  grind [word_proceeds, groupBody_upholds, setK_upholds]

theorem execSign_proceeds {a} (h : Upholds s₀ s) : Proceeds s₀ (execSign a s) := by
  unfold execSign
  grind [word_proceeds, groupBody_upholds, releaseMem_upholds, cvCheck_upholds, setCv_upholds, foldl_snd_upholds]

theorem cvAcquire_upholds {t b n} (h : Upholds s₀ s) : Upholds s₀ (cvAcquire s t b n) := by
  unfold cvAcquire
  grind [acquireOf_upholds]

theorem execCvwait_proceeds {a} (h : Upholds s₀ s) : Proceeds s₀ (execCvwait a s) := by
  unfold execCvwait
  grind [word_proceeds, groupBody_upholds, cvAcquire_upholds, issuedStall_upholds, foldl_upholds]

/-! #### Engine -/

theorem setEntry_upholds {b e x} (h : Upholds s₀ s) : Upholds s₀ (setEntry s b e x) := by
  unfold setEntry
  grind [onCluster_upholds]

theorem trapAll_upholds {is c} (h : Upholds s₀ s) : Upholds s₀ (trapAll is s c) := by
  unfold trapAll
  grind [eachActive_upholds, issuedTrap_upholds]

theorem execWlatch_proceeds {a} (h : Upholds s₀ s) : Proceeds s₀ (execWlatch a s) := by
  unfold execWlatch
  grind [word_proceeds, groupBody_upholds, trapAll_upholds, setEntry_upholds, setCv_upholds]

theorem execMmpost_proceeds {a} (h : Upholds s₀ s) : Proceeds s₀ (execMmpost a s) := by
  unfold execMmpost
  grind [word_proceeds, groupBody_upholds, trapAll_upholds, setEntry_upholds, cvCheck_upholds, setCv_upholds]

theorem execArbiterGrant_proceeds {cluster} (h : Upholds s₀ s) : Proceeds s₀ (execArbiterGrant cluster s) := by
  refine next_proceeds ?_
  dsimp only
  split
  · split
    · exact h
    · split
      · exact detectUe_upholds (onCluster_upholds (setCv_upholds h))
      · exact onCluster_upholds (setCv_upholds h)
  · exact h

theorem execPassComplete_proceeds {cluster} (h : Upholds s₀ s) : Proceeds s₀ (execPassComplete cluster s) := by
  unfold execPassComplete
  grind [onCluster_upholds, setCv_upholds, release8_upholds, cvAcquire_upholds, onThread_upholds, foldl_upholds,
    next_proceeds]

theorem setTile_upholds {c t x} (h : Upholds s₀ s) : Upholds s₀ (setTile s c t x) := by
  unfold setTile
  grind [onCluster_upholds]

theorem execAccclr_proceeds {a} (h : Upholds s₀ s) : Proceeds s₀ (execAccclr a s) := by
  unfold execAccclr
  grind [word_proceeds, setTile_upholds]

theorem execAccstat_proceeds {a} (h : Upholds s₀ s) : Proceeds s₀ (execAccstat a s) := by
  unfold execAccstat
  grind [word_proceeds, eachActive_upholds, issuedStall_upholds, onThread_upholds, setTile_upholds]

theorem execMxstat_proceeds {a} (h : Upholds s₀ s) : Proceeds s₀ (execMxstat a s) := by
  unfold execMxstat
  grind [word_proceeds, trapAll_upholds, pick_upholds, eachActive_upholds, onThread_upholds]

theorem readOut_upholds {kind ok k is} (h : Upholds s₀ s) : Upholds s₀ (readOut kind ok k is s) := by
  unfold readOut
  grind [trapAll_upholds, issueCopies_upholds]

theorem execAccrd_proceeds {a} (h : Upholds s₀ s) : Proceeds s₀ (execAccrd a s) := by
  unfold execAccrd
  grind [word_proceeds, readOut_upholds]

theorem execAcccvt_proceeds {a} (h : Upholds s₀ s) : Proceeds s₀ (execAcccvt a s) := by
  unfold execAcccvt
  grind [word_proceeds, readOut_upholds]

/-! #### Collective -/

theorem pushEntry_upholds {p h' e stores} (h : Upholds s₀ s) : Upholds s₀ (pushEntry s p h' e stores) := by
  unfold pushEntry
  grind [publish_upholds, onPart_upholds, cueEnter_upholds]

theorem execCpReady_proceeds {a} (h : Upholds s₀ s) : Proceeds s₀ (execCpReady a s) := by
  unfold execCpReady
  grind [word_proceeds, trapAll_upholds, eachActive_upholds, releaseMem_upholds, onPart_upholds]

theorem execCpColl_proceeds {a} (h : Upholds s₀ s) : Proceeds s₀ (execCpColl a s) := by
  unfold execCpColl
  grind [word_proceeds, trapAll_upholds, issueCopies_upholds]

theorem tileWord_upholds {r va n} (h : Upholds s₀ s) : Upholds s₀ (tileWord s r va n).2 := by
  unfold tileWord
  grind [place_upholds, placeRead_upholds, mixRead_upholds]

theorem tileBytes_upholds {r} (h : Upholds s₀ s) : Upholds s₀ (tileBytes s r).2 := by
  unfold tileBytes
  grind [tileWord_upholds, foldl_snd_upholds]

theorem onReady_upholds {p tid f} (h : Upholds s₀ s) : Upholds s₀ (onReady s p tid f) := by
  unfold onReady
  grind [onPart_upholds]

theorem execCollPull_proceeds {copy} (h : Upholds s₀ s) : Proceeds s₀ (execCollPull copy s) := by
  refine next_proceeds ?_
  split
  · exact h
  · grind [send_upholds, onReady_upholds, copyDone_upholds, tileBytes_upholds, foldl_upholds, upholds_update]

theorem execReadyRecordRetire_proceeds {part tile} (h : Upholds s₀ s) :
    Proceeds s₀ (execReadyRecordRetire part tile s) := by
  unfold execReadyRecordRetire
  grind [onPart_upholds, pushEntry_upholds, next_proceeds]

theorem execCopyComplete_proceeds {copy} (h : Upholds s₀ s) : Proceeds s₀ (execCopyComplete copy s) := by
  unfold execCopyComplete
  grind [copyWhole_upholds, copyDone_upholds, pushEntry_upholds, sweep_upholds, next_proceeds]

theorem execCopyFault_proceeds {copy} (h : Upholds s₀ s) : Proceeds s₀ (execCopyFault copy s) := by
  unfold execCopyFault
  grind [copyWhole_upholds, copyCut_upholds, next_proceeds]

theorem execUePullRequest_proceeds {a} (h : Upholds s₀ s) : Proceeds s₀ (execUePullRequest a s) := by
  unfold execUePullRequest
  grind [tileBytes_upholds, send_upholds, onReady_upholds, next_proceeds]

theorem execUeTileData_proceeds {a} (h : Upholds s₀ s) : Proceeds s₀ (execUeTileData a s) := by
  unfold execUeTileData
  grind [send_upholds, copyDone_upholds, upholds_update, next_proceeds]

theorem execUeAcknowledgement_proceeds {a} (h : Upholds s₀ s) : Proceeds s₀ (execUeAcknowledgement a s) := by
  unfold execUeAcknowledgement
  grind [onPart_upholds, onReady_upholds, next_proceeds]

theorem execUeSuperstepMessage_proceeds {a} (h : Upholds s₀ s) : Proceeds s₀ (execUeSuperstepMessage a s) := by
  unfold execUeSuperstepMessage
  grind [onPart_upholds, superCheck_upholds, next_proceeds]

theorem execScaleoutTimeout_proceeds {w} (h : Upholds s₀ s) : Proceeds s₀ (execScaleoutTimeout w s) := by
  unfold execScaleoutTimeout
  grind [hlkErr_upholds, next_proceeds]

theorem execUePortTrainingEnd_proceeds {port up} (h : Upholds s₀ s) : Proceeds s₀ (execUePortTrainingEnd port up s) := by
  unfold execUePortTrainingEnd
  grind [sysPutBits_upholds, next_proceeds]

/-! #### Placement -/

theorem seeDeps_upholds {p} (h : Upholds s₀ s) : Upholds s₀ (seeDeps s p) := h

/-! #### Dispatcher -/

theorem notify_upholds {l late status} (h : Upholds s₀ s) : Upholds s₀ (notify s l late status) := by
  unfold notify
  grind [onPart_upholds, raiseMsix_upholds, onPkg_upholds]

theorem admitPacket_upholds {p q b} (h : Upholds s₀ s) : Upholds s₀ (admitPacket s p q b) := by
  unfold admitPacket
  grind [tick_upholds, sysPutBits_upholds, onPart_upholds, upholds_update]

theorem admitNext_upholds {p q} (h : Upholds s₀ s) : Upholds s₀ (admitNext s p q) := by
  unfold admitNext
  extract_lets va
  split <;> rename_i e <;> have hr := (agentRead_upholds h).of_snd e
  · exact admitPacket_upholds hr
  · exact hr
  · grind [admitPacket_upholds, holdFault_upholds]
  · exact admitPacket_upholds hr

theorem takeSlot_upholds {c priv} (h : Upholds s₀ s) : Upholds s₀ (takeSlot s c priv).2 := by
  unfold takeSlot
  grind [pick_upholds]

theorem makeGroup_upholds {l b j core lin} (h : Upholds s₀ s) : Upholds s₀ (makeGroup s l b j core lin) := by
  unfold makeGroup
  grind [takeSlot_upholds, upholds_update]

theorem makeBlock_upholds {id l n cs} (h : Upholds s₀ s) : Upholds s₀ (makeBlock s id l n cs) := by
  unfold makeBlock
  grind [tick_upholds, makeGroup_upholds, onLaunch_upholds, foldl_upholds, upholds_update]

theorem saveBlock_upholds {b queued} (h : Upholds s₀ s) : Upholds s₀ (saveBlock s b queued) := by
  unfold saveBlock
  dsimp only
  split
  · exact h
  · rename_i o s1 e
    obtain ⟨o', -, e⟩ := Option.bind_eq_some_iff.1 e
    obtain ⟨s2, hw, e⟩ := Option.map_eq_some_iff.1 e
    have h1 : Upholds s₀ s1 := (Prod.mk.inj e).2 ▸ areaWrite_upholds (freeBytes_upholds h) hw
    exact onBlock_upholds (onPart_upholds (onCluster_upholds (foldl_upholds (fun _ _ => release_upholds)
      (foldl_upholds (fun _ _ => settleSfu_upholds) h1))))

theorem repost_upholds {b c e} (h : Upholds s₀ s) : Upholds s₀ (repost s b c e) := by
  unfold repost
  grind [onBlock_upholds, onCluster_upholds]

theorem relaunch_upholds {id b cluster cs} (h : Upholds s₀ s) : Upholds s₀ (relaunch s id b cluster cs) := by
  unfold relaunch
  extract_lets x p lg s1 s2 s3 s4 s5 s6 ts s7
  have h1 : Upholds s₀ s1 := h
  have h2 : Upholds s₀ s2 := foldl_upholds (fun _ _ hs => onGroup_upholds (takeSlot_upholds (onGroup_upholds hs))) h1
  have h4 : Upholds s₀ s4 := onBlock_upholds (onPart_upholds h2)
  have h6 : Upholds s₀ s6 := foldl_upholds (fun _ _ => release_upholds) (foldl_upholds (fun _ _ => repost_upholds) h4)
  refine foldl_upholds (fun s t hs => ?_) (foldl_upholds (fun _ _ => acquire_upholds) h6)
  split
  · exact attachWake_upholds hs
  · exact heldTraps_upholds (cueServe_upholds hs)
  · exact hs

theorem passOver_upholds {p id} (h : Upholds s₀ s) : Upholds s₀ (passOver s p id) := by
  unfold passOver
  grind [onLaunch_upholds]

theorem placeNext_upholds {p id n c cs} (h : Upholds s₀ s) : Upholds s₀ (placeNext s p id n c cs) := by
  unfold placeNext
  grind [onLaunch_upholds, passOver_upholds, notify_upholds, onPart_upholds, relaunch_upholds, makeBlock_upholds]

theorem launchRelease_upholds {id} (h : Upholds s₀ s) : Upholds s₀ (launchRelease s id).2 := by
  unfold launchRelease
  grind [publish_upholds, send_upholds]

theorem evcBump_upholds {p n k} (h : Upholds s₀ s) : Upholds s₀ (evcBump s p n k) := by
  unfold evcBump
  grind [seeDeps_upholds, sysPutBits_upholds]

theorem retireSteps_upholds {id l} (h : Upholds s₀ s) {r} (hr : retireSteps s id l = some r) : Upholds s₀ r := by
  unfold retireSteps at hr
  grind [launchRelease_upholds, writeRange_upholds, publish_upholds, evcBump_upholds, sweep_upholds, onLaunch_upholds]

theorem forget_upholds {id} (h : Upholds s₀ s) : Upholds s₀ (forget s id) := h

theorem retireNotice_upholds {id} (h : Upholds s₀ s) : Upholds s₀ (retireNotice s id) := by
  unfold retireNotice
  grind [forget_upholds, notify_upholds]

theorem cancel_upholds {p q seq} (h : Upholds s₀ s) : Upholds s₀ (cancel s p q seq) := by
  unfold cancel
  grind [onLaunch_upholds, endLaunches_upholds]

theorem closeBubble_upholds {p at_} (h : Upholds s₀ s) : Upholds s₀ (closeBubble s p at_) := by
  unfold closeBubble
  grind [onPart_upholds, upholds_update]

theorem openBubble_upholds {p n} (h : Upholds s₀ s) : Upholds s₀ (openBubble s p n) := by
  unfold openBubble
  grind [closeBubble_upholds, publish_upholds, agentPut_upholds, onPart_upholds, sweep_upholds, foldl_upholds]

theorem execLaunchAdmit_proceeds {part queue} (h : Upholds s₀ s) : Proceeds s₀ (execLaunchAdmit part queue s) := by
  unfold execLaunchAdmit
  grind [admitNext_upholds, next_proceeds]

theorem execBlockDispatch_proceeds {part cluster} (h : Upholds s₀ s) : Proceeds s₀ (execBlockDispatch part cluster s) := by
  unfold execBlockDispatch
  grind [placeNext_upholds, next_proceeds]

theorem execBlockRelaunch_proceeds {blk} (h : Upholds s₀ s) : Proceeds s₀ (execBlockRelaunch blk s) := by
  unfold execBlockRelaunch
  grind [placeNext_upholds, next_proceeds]

theorem execLocateCacheFill_proceeds {part launch} (h : Upholds s₀ s) :
    Proceeds s₀ (execLocateCacheFill part launch s) := by
  unfold execLocateCacheFill
  grind [onDie_upholds, next_proceeds]

theorem execClusterReserve_proceeds {part cluster} (h : Upholds s₀ s) :
    Proceeds s₀ (execClusterReserve part cluster s) := by
  unfold execClusterReserve
  grind [onPart_upholds, next_proceeds]

theorem execLaunchRetire_proceeds {launch} (h : Upholds s₀ s) : Proceeds s₀ (execLaunchRetire launch s) := by
  unfold execLaunchRetire
  grind [retireSteps_upholds, retireNotice_upholds, next_proceeds]

theorem execBlockSave_proceeds {blk} (h : Upholds s₀ s) : Proceeds s₀ (execBlockSave blk s) := by
  unfold execBlockSave
  grind [saveBlock_upholds, next_proceeds]

theorem execBubbleSlotEnd_proceeds {part} (h : Upholds s₀ s) : Proceeds s₀ (execBubbleSlotEnd part s) := by
  unfold execBubbleSlotEnd
  grind [closeBubble_upholds, next_proceeds]

theorem execBubbleOverrunSave_proceeds {part} (h : Upholds s₀ s) : Proceeds s₀ (execBubbleOverrunSave part s) := by
  unfold execBubbleOverrunSave
  grind [saveBlock_upholds, foldl_upholds, next_proceeds]

/-! #### Loft -/

theorem loftStatus_upholds {d n} (h : Upholds s₀ s) : Upholds s₀ (loftStatus s d n) := by
  unfold loftStatus
  grind [sysPutBits_upholds]

theorem loftCommand_upholds {p d x} (h : Upholds s₀ s) : Upholds s₀ (loftCommand s p d x) := by
  unfold loftCommand
  grind [sysPut_upholds, onDie_upholds, loftStatus_upholds]

theorem agentPoison_upholds {p va n} (h : Upholds s₀ s) : Upholds s₀ (agentPoison s p va n) := by
  unfold agentPoison
  grind [place_upholds, detectUe_upholds]

theorem loadPut_upholds {d l off b} (h : Upholds s₀ s) : Upholds s₀ (loadPut s d l off b) := by
  unfold loadPut
  grind [onDie_upholds, loftWrite_upholds]

theorem loadPage_upholds {d l r i} (h : Upholds s₀ r.2) : Upholds s₀ (loadPage d l r i).2 := by
  unfold loadPage
  grind [agentRead_upholds, loadPut_upholds, agentPoison_upholds]

theorem loadCut_upholds {d l} (h : Upholds s₀ s) : Upholds s₀ (loadCut s d l) := by
  unfold loadCut
  grind [coin_upholds, agentRead_upholds, loadPut_upholds, foldl_upholds]

theorem execLoftLoadCopy_proceeds {die} (h : Upholds s₀ s) : Proceeds s₀ (execLoftLoadCopy die s) := by
  refine next_proceeds ?_
  split
  · exact h
  · rename_i l _
    split
    · exact h
    · have hp := foldl_snd_upholds (l := List.range l.pages) (p := (LoadRun.go, s)) (f := loadPage die l)
        (fun _ _ => loadPage_upholds) h
      dsimp only
      split <;> rename_i e <;> rw [e] at hp
      · exact onDie_upholds hp
      · exact onDie_upholds (loftStatus_upholds (loadCut_upholds (upholds_loftOf h hp)))
      · exact h

theorem execLoftLoadDone_proceeds {die} (h : Upholds s₀ s) : Proceeds s₀ (execLoftLoadDone die s) := by
  unfold execLoftLoadDone
  grind [publish_upholds, loftStatus_upholds, evcBump_upholds, onDie_upholds, next_proceeds]

theorem execLoftRefreshWindow_proceeds (die group) (h : Upholds s₀ s) : Proceeds s₀ (execLoftRefreshWindow die group s) :=
  next_proceeds h

/-! #### BootCmd -/

theorem bootQueue_upholds {p who x} (h : Upholds s₀ s) : Upholds s₀ (bootQueue s p who x) := by
  unfold bootQueue
  grind [sysPutBits_upholds, onPart_upholds]

theorem headCmd_upholds {p} (h : Upholds s₀ s) {r} (hr : headCmd s p = some r) : Upholds s₀ r.2 := by
  unfold headCmd at hr
  grind [agentRead_upholds]

theorem putOut_upholds {p va b} (h : Upholds s₀ s) : Upholds s₀ (putOut s p va b).2.2 := by
  refine List.foldlRecOn (motive := fun r : Nat × Option Bool × State => Upholds s₀ r.2.2) _ _ h fun r hr x _ => ?_
  grind [agentWrite_upholds]

theorem output_upholds {p c b} (h : Upholds s₀ s) : CmdEnd.Upholds s₀ (output s p c b) := by
  unfold output
  grind [putOut_upholds, CmdEnd.Upholds]

theorem complete_upholds {p c n0 sent st len} (h : Upholds s₀ s) : Upholds s₀ (complete s p c n0 sent st len) := by
  have done : ∀ s ids, Upholds s₀ s →
      Upholds s₀ (publish (if s.pkg.sent.length = sent then s else s.send .hostFlush) .device .sys ids false).2 := by
    intro s ids hs
    split
    · exact publish_upholds hs
    · exact publish_upholds (send_upholds hs)
  have h1 := fun rels b a b' a' ids => done _ ids
    (agentPut_upholds (p := p) (rels := rels) (va := a') (b := b') (agentPut_upholds (p := p) (rels := rels) (va := a) (b := b)
      (publish_upholds (who := .device) (sc := .sys) (stores := List.range' n0 (s.hist.next - n0)) (fence := false) h)))
  unfold complete
  dsimp only
  refine sweep_upholds (raiseMsix_upholds (onPart_upholds ?_))
  split
  · exact h1 _ _ _ _ _ _
  · exact pushEntry_upholds (h1 _ _ _ _ _ _)

theorem runHead_upholds {p want run} (hrun : ∀ s y, Upholds s₀ s → CmdEnd.Upholds s₀ (run s y)) (h : Upholds s₀ s) :
    Upholds s₀ (runHead s p want run) := by
  unfold runHead
  split
  · rename_i c s1 e
    have h1 : Upholds s₀ s1 := by
      split at e
      · exact headCmd_upholds h e
      · cases e
    split
    · exact h
    · extract_lets n0 sent
      split
      · exact complete_upholds h1
      · have hr := hrun s1 c h1
        split <;> rename_i e <;> rw [e] at hr
        · exact h
        · exact complete_upholds hr
  · exact h

theorem setMeasure_upholds {n b} (h : Upholds s₀ s) : Upholds s₀ (setMeasure s n b) := by
  unfold setMeasure
  grind [onPkg_upholds]

theorem xcacheWrite_upholds {pa n} (h : Upholds s₀ s) : Upholds s₀ (xcacheWrite s pa n) := by
  unfold xcacheWrite
  grind [freeBytes_upholds, physWrite_upholds, foldl_upholds]

theorem loadModule_upholds {p c o} (h : Upholds s₀ s) : CmdEnd.Upholds s₀ (loadModule s p c o) := by
  -- the share is made opaque, and the body unfolded under its binders, or the kernel would compute with them
  obtain ⟨f, hf⟩ : ∃ f, f = loadModule := ⟨_, rfl⟩
  obtain ⟨shareOf, hs⟩ : ∃ f, f = xcacheShare := ⟨_, rfl⟩
  rw [← hf]
  delta loadModule at hf
  rw [← hs] at hf
  subst hf
  have ht := tick_upholds h
  beta_reduce
  generalize s.tick = x at ht ⊢
  extract_lets key
  split
  extract_lets share
  split
  · exact output_upholds (onPart_upholds ht)
  · rename_i s2 _ _
    have h2 : Upholds s₀ s2 := onPart_upholds ht
    split
    · exact h2
    · extract_lets s3
      refine output_upholds ?_
      unfold s3
      split
      · exact h2
      · exact xcacheWrite_upholds (onPart_upholds h2)

theorem loadObject_upholds {p c o} (h : Upholds s₀ s) : CmdEnd.Upholds s₀ (loadObject s p c o) := by
  unfold loadObject
  extract_lets img
  have himg : CmdEnd.Upholds s₀ (img s) := by
    unfold img
    split
    · exact h
    · exact output_upholds h
  split
  · exact h
  · split
    · exact h
    · split
      · exact onPart_upholds h
      · split
        · split
          · exact himg
          · exact h
        · split
          · exact loadModule_upholds h
          · exact h
        · split
          · rename_i e
            rw [e] at himg
            exact setMeasure_upholds himg
          · exact himg
        · split
          · exact h
          · have ho := output_upholds (p := p) (c := c) (b := o.bytes) h
            split
            · rename_i e
              rw [e] at ho
              exact onPkg_upholds ho
            · exact ho

theorem withSource_upholds {p c n f} (h : Upholds s₀ s) (hf : ∀ s y, Upholds s₀ s → CmdEnd.Upholds s₀ (f s y)) :
    CmdEnd.Upholds s₀ (withSource s p c n f) := by
  unfold withSource
  grind [agentRead_upholds, agentPoison_upholds, CmdEnd.Upholds]

theorem execBootLoad_proceeds {part} (h : Upholds s₀ s) : Proceeds s₀ (execBootLoad part s) := by
  unfold execBootLoad
  grind [runHead_upholds, withSource_upholds, loadObject_upholds, next_proceeds]

theorem execBootAttest_proceeds {part} (h : Upholds s₀ s) : Proceeds s₀ (execBootAttest part s) := by
  unfold execBootAttest
  grind [runHead_upholds, withSource_upholds, output_upholds, next_proceeds]

theorem execBootCert_proceeds {part} (h : Upholds s₀ s) : Proceeds s₀ (execBootCert part s) := by
  unfold execBootCert
  grind [runHead_upholds, output_upholds, next_proceeds]

theorem execBootEvict_proceeds {part} (h : Upholds s₀ s) : Proceeds s₀ (execBootEvict part s) :=
  next_proceeds (runHead_upholds (fun _ _ => onPart_upholds) h)

theorem raiseSvn_upholds {cls target} (h : Upholds s₀ s) : Upholds s₀ (raiseSvn s cls target) := by
  unfold raiseSvn
  grind [sysPutBits_upholds, upholds_update]

theorem execBootSvnadv_proceeds {part} (h : Upholds s₀ s) : Proceeds s₀ (execBootSvnadv part s) := by
  refine next_proceeds (runHead_upholds (fun s c hs => ?_) h)
  split
  · exact hs
  · split
    · exact hs
    · exact raiseSvn_upholds hs

theorem execBootBadcmd_proceeds {part} (h : Upholds s₀ s) : Proceeds s₀ (execBootBadcmd part s) :=
  next_proceeds (runHead_upholds (fun _ _ hs => hs) h)

/-! #### Boot -/

theorem afterReset_upholds (h : Upholds s₀ s) : Upholds s₀ (afterReset s) :=
  ⟨fun ok => ⟨rfl, rfl, rfl, (h.1 ok).2.2.2⟩, fun _ => rfl⟩

theorem setBootStatus_upholds {reason step fails mode} (h : Upholds s₀ s) :
    Upholds s₀ (setBootStatus s reason step fails mode) := by
  unfold setBootStatus
  grind [sysPut_upholds]

theorem startFailed_upholds {r} (h : Upholds s₀ s) : Upholds s₀ (startFailed s r) := by
  unfold startFailed
  grind [setBootStatus_upholds, onPkg_upholds]

theorem understudyStart_upholds {pcieFails} (h : Upholds s₀ s) : Upholds s₀ (understudyStart s pcieFails) := by
  unfold understudyStart
  grind [onPkg_upholds, setBootStatus_upholds, sysPut_upholds]

theorem normalStart_upholds {fail} (h : Upholds s₀ s) : Upholds s₀ (normalStart s fail) := by
  unfold normalStart
  grind [onPkg_upholds, setBootStatus_upholds]

theorem measureFlash_upholds {n kind} (h : Upholds s₀ s) : Upholds s₀ (measureFlash s n kind) := by
  unfold measureFlash
  grind [setMeasure_upholds]

theorem finishStep_upholds {k} (h : Upholds s₀ s) : Upholds s₀ (finishStep s k) := by
  unfold finishStep
  grind [measureFlash_upholds, freeBytes_upholds, sysPut_upholds, onPkg_upholds, foldl_upholds]

theorem bootStep_upholds (h : Upholds s₀ s) : Upholds s₀ (bootStep s) := by
  unfold bootStep
  grind [startFailed_upholds, onPkg_upholds, sysPutBits_upholds, finishStep_upholds]

theorem execStartAttempt_proceeds {a} (h : Upholds s₀ s) : Proceeds s₀ (execStartAttempt a s) := by
  unfold execStartAttempt
  grind [afterReset_upholds, understudyStart_upholds, normalStart_upholds, next_proceeds]

theorem execStageManagerReady_proceeds (h : Upholds s₀ s) : Proceeds s₀ (execStageManagerReady s) := by
  unfold execStageManagerReady
  grind [onPkg_upholds, setBootStatus_upholds, sysPutBits_upholds, foldl_upholds, next_proceeds]

theorem execStartTimeout_proceeds (h : Upholds s₀ s) : Proceeds s₀ (execStartTimeout s) := by
  unfold execStartTimeout
  grind [startFailed_upholds, next_proceeds]

theorem execStartPowerFault_proceeds (h : Upholds s₀ s) : Proceeds s₀ (execStartPowerFault s) := by
  unfold execStartPowerFault
  grind [startFailed_upholds, next_proceeds]

theorem execPowerLoss_proceeds (h : Upholds s₀ s) : Proceeds s₀ (execPowerLoss s) := by
  unfold execPowerLoss
  grind [afterReset_upholds, next_proceeds]

/-! #### Control -/

theorem execBra_proceeds {a} (h : Upholds s₀ s) : Proceeds s₀ (execBra a s) := by
  unfold execBra
  grind [word_proceeds, onThreads_upholds]

theorem branchTo_upholds {b is} (h : Upholds s₀ s) : Upholds s₀ (branchTo b is s) := by
  unfold branchTo
  grind [eachActive_upholds, issuedTrap_upholds, onThread_upholds]

theorem execBrx_proceeds {a} (h : Upholds s₀ s) : Proceeds s₀ (execBrx a s) := by
  unfold execBrx
  grind [word_proceeds, branchTo_upholds]

theorem execRet_proceeds {a} (h : Upholds s₀ s) : Proceeds s₀ (execRet a s) := by
  unfold execRet
  grind [word_proceeds, branchTo_upholds]

theorem execCall_proceeds {a} (h : Upholds s₀ s) : Proceeds s₀ (execCall a s) := by
  unfold execCall
  grind [word_proceeds, onThreads_upholds]

theorem execExit_proceeds {a} (h : Upholds s₀ s) : Proceeds s₀ (execExit a s) := by
  unfold execExit
  grind [word_proceeds, eachActive_upholds, exitThread_upholds]

theorem execYield_proceeds {a} (h : Upholds s₀ s) : Proceeds s₀ (execYield a s) := by
  unfold execYield
  grind [word_proceeds]

theorem execSuspend_proceeds {a} (h : Upholds s₀ s) : Proceeds s₀ (execSuspend a s) := by
  unfold execSuspend
  grind [word_proceeds, eachActive_upholds, acquire_upholds, onBlock_upholds, waitAt_upholds]

theorem signalTo_upholds {l stage b} (h : Upholds s₀ s) : Upholds s₀ (signalTo s l stage b) := by
  unfold signalTo
  grind [onBlock_upholds, release8_upholds, acquire_upholds, onLaunch_upholds, foldl_upholds]

theorem execSignal_proceeds {a} (h : Upholds s₀ s) : Proceeds s₀ (execSignal a s) := by
  unfold execSignal
  grind [word_proceeds, eachActive_upholds, releaseMem_upholds, signalTo_upholds]

theorem execLaunch_proceeds {a} (h : Upholds s₀ s) : Proceeds s₀ (execLaunch a s) := by
  unfold execLaunch
  grind [word_proceeds, memBody_upholds]

theorem execTrap_proceeds {a} (h : Upholds s₀ s) : Proceeds s₀ (execTrap a s) := by
  unfold execTrap
  grind [word_proceeds, eachActive_upholds, issuedTrap_upholds]

theorem execBrk_proceeds {a} (h : Upholds s₀ s) : Proceeds s₀ (execBrk a s) := by
  unfold execBrk
  grind [word_proceeds, eachActive_upholds, issuedTrap_upholds]

theorem execNop_proceeds {a} (h : Upholds s₀ s) : Proceeds s₀ (execNop a s) := by
  unfold execNop
  grind [word_proceeds]

/-! #### Cues -/

theorem cueThreads_upholds {is base} (h : Upholds s₀ s) : Upholds s₀ (cueThreads is base s).2 := by
  unfold cueThreads
  grind [issuedTrap_upholds, foldl_upholds]

theorem execCuePop_proceeds {a} (h : Upholds s₀ s) : Proceeds s₀ (execCuePop a s) := by
  unfold execCuePop
  grind [word_proceeds, cueThreads_upholds, cueTake_upholds, waitAt_upholds, onPart_upholds, foldl_upholds]

theorem execCuePush_proceeds {a} (h : Upholds s₀ s) : Proceeds s₀ (execCuePush a s) := by
  unfold execCuePush
  grind [word_proceeds, cueThreads_upholds, releaseMem_upholds, cueEnter_upholds, foldl_upholds]

/-! #### DistAlu -/

theorem dlinBody_upholds {a is} (h : Upholds s₀ s) : Upholds s₀ (dlinBody a is s) := by
  unfold dlinBody
  grind [onGroup_upholds, lanesBody_upholds, foldl_upholds]

theorem rngseedBody_upholds {a is} (h : Upholds s₀ s) : Upholds s₀ (rngseedBody a is s) := by
  unfold rngseedBody
  grind [onThreads_upholds, onGroup_upholds]

theorem execDlin_proceeds {a} (h : Upholds s₀ s) : Proceeds s₀ (execDlin a s) := by
  unfold execDlin
  grind [word_proceeds, dlinBody_upholds]

theorem execRngseed_proceeds {a} (h : Upholds s₀ s) : Proceeds s₀ (execRngseed a s) := by
  unfold execRngseed
  grind [word_proceeds, rngseedBody_upholds]

/-! #### Lane -/

theorem gatherBody_upholds {i f is} (h : Upholds s₀ s) : Upholds s₀ (gatherBody i f is s) := by
  unfold gatherBody
  grind [onGroup_upholds, land_upholds]

theorem laneOp_proceeds {i f} (h : Upholds s₀ s) : Proceeds s₀ (laneOp i s f) := by
  unfold laneOp
  grind [word_proceeds, gatherBody_upholds]

/-! #### Moves -/

theorem movkBody_upholds {a is} (h : Upholds s₀ s) : Upholds s₀ (movkBody a is s) := by
  unfold movkBody
  grind [setK_upholds, land_upholds]

theorem movsReadBody_upholds {a is} (h : Upholds s₀ s) : Upholds s₀ (movsReadBody a is s) := by
  unfold movsReadBody
  grind [land_upholds, onThreads_upholds]

theorem movsWriteBody_upholds {a is} (h : Upholds s₀ s) : Upholds s₀ (movsWriteBody a is s) := by
  unfold movsWriteBody
  grind [land_upholds, onGroup_upholds, foldl_upholds]

theorem execMovk_proceeds {a} (h : Upholds s₀ s) : Proceeds s₀ (execMovk a s) := by
  unfold execMovk
  grind [word_proceeds, movkBody_upholds]

theorem execMovsRead_proceeds {a} (h : Upholds s₀ s) : Proceeds s₀ (execMovsRead a s) := by
  unfold execMovsRead
  grind [word_proceeds, movsReadBody_upholds]

theorem execMovsWriteFsr_proceeds {a} (h : Upholds s₀ s) : Proceeds s₀ (execMovsWriteFsr a s) := by
  unfold execMovsWriteFsr
  grind [word_proceeds, movsWriteBody_upholds]

/-! #### Aperture -/

theorem resourceSet_upholds {t kind index x} (h : Upholds s₀ s) : Upholds s₀ (resourceSet s t kind index x) := by
  unfold resourceSet
  grind [onThread_upholds, onThreads_upholds, setK_upholds, setMask_upholds, onGroup_upholds]

theorem setSelErr_upholds {p n e} (h : Upholds s₀ s) : Upholds s₀ (setSelErr s p n e) := by
  unfold setSelErr
  grind [sysPutBits_upholds]

theorem dataRead_upholds {p n} (h : Upholds s₀ s) : Upholds s₀ (dataRead s p n).2 := by
  unfold dataRead
  grind [setSelErr_upholds]

theorem dataWrite_upholds {p n x} (h : Upholds s₀ s) : Upholds s₀ (dataWrite s p n x) := by
  unfold dataWrite
  grind [resourceSet_upholds, setSelErr_upholds]

theorem resumeChecks_upholds {t} (h : Upholds s₀ s) : Upholds s₀ (resumeChecks s t) := by
  unfold resumeChecks
  grind [checkMask_upholds, foldl_upholds]

/-! #### Fetch -/

theorem keepWord_upholds {core k w} (h : Upholds s₀ s) : Upholds s₀ (keepWord s core k w) := by
  unfold keepWord
  grind [pick_upholds, onCore_upholds]

theorem fetchMem_upholds {t l} (h : Upholds s₀ s) : Upholds s₀ (fetchMem s t l).2 := by
  unfold fetchMem
  grind [place_upholds, meetPoison_upholds, placeRead_upholds, codeRead_upholds, holdFault_upholds]

theorem fetch_upholds {t pc} (h : Upholds s₀ s) : Upholds s₀ (fetch s t pc).2 := by
  unfold fetch
  dsimp only
  have hv := (windowView_upholds (t := t) h).2
  split
  · exact h
  · split
    · exact h
    · split
      · exact hv
      · split
        · grind [coin_upholds, fetchMem_upholds]
        · grind [fetchMem_upholds, keepWord_upholds]

theorem wakeStalled_upholds {core} (h : Upholds s₀ s) : Upholds s₀ (wakeStalled s core) := by
  unfold wakeStalled
  grind [setReady_upholds, foldl_upholds]

theorem holdWaiting_upholds {ts} (h : Upholds s₀ s) : Upholds s₀ (holdWaiting s ts) := by
  unfold holdWaiting
  grind [stall_upholds, foldl_upholds]

theorem enterThreads_upholds {core ts} (h : Upholds s₀ s) : Upholds s₀ (enterThreads s core ts).2 := by
  unfold enterThreads
  grind [onCore_upholds, foldl_snd_upholds]

theorem bucketBundles_upholds {b} (h : Upholds s₀ s) : Upholds s₀ (bucketBundles s b).2 := by
  unfold bucketBundles
  grind [pick_upholds]

theorem buildCore_upholds {core} (h : Upholds s₀ s) : Upholds s₀ (buildCore s core) := by
  unfold buildCore
  grind [wakeStalled_upholds, holdWaiting_upholds, onCore_upholds, enterThreads_upholds, pmc_upholds,
    bucketBundles_upholds, foldl_snd_upholds]

theorem execBundleBuild_proceeds {core} (h : Upholds s₀ s) : Proceeds s₀ (execBundleBuild core s) := by
  unfold execBundleBuild
  grind [buildCore_upholds, next_proceeds]

theorem selectBundle_upholds {core second} (h : Upholds s₀ s) : Upholds s₀ (selectBundle s core second).2 := by
  unfold selectBundle
  grind [pmc_upholds, onCore_upholds, pick_upholds, onThreads_upholds]

theorem stopBefore_upholds {t pc w c ea} (h : Upholds s₀ s) : Upholds s₀ (stopBefore s t pc w c ea) := by
  unfold stopBefore
  grind [takeTrap_upholds, memErr_upholds]

theorem settleStep_upholds {core issued} (h : Upholds s₀ s) : Upholds s₀ (settleStep s core issued) := by
  unfold settleStep
  grind [onCore_upholds, onThreads_upholds, release8_upholds, onThread_upholds]

theorem startStep_upholds {core d} (h : Upholds s₀ s) : Upholds s₀ (startStep s core d) := by
  unfold startStep
  grind [onCore_upholds, onThreads_upholds]

/-! #### Debug -/

theorem putV_upholds {t d x} (h : Upholds s₀ s) : Upholds s₀ (putV s t d x) := by
  unfold putV
  grind [onThread_upholds]

theorem curtainRecord_upholds {t} (h : Upholds s₀ s) : Upholds s₀ (curtainRecord s t) := by
  unfold curtainRecord
  grind [freeBytes_upholds, onThread_upholds, agentPut_upholds]

theorem execDbgcur_proceeds {a} (h : Upholds s₀ s) : Proceeds s₀ (execDbgcur a s) := by
  refine word_proceeds h fun is s hs => eachActive_upholds hs fun s t hs => ?_
  split
  · exact putV_upholds hs
  · refine putV_upholds (onThreads_upholds (foldl_upholds (fun _ _ => settleSfu_upholds) ?_))
    split
    · exact hs
    · exact setEv_upholds (curtainRecord_upholds (settleSfu_upholds hs))

theorem execDbgres_proceeds {a} (h : Upholds s₀ s) : Proceeds s₀ (execDbgres a s) := by
  unfold execDbgres
  grind [word_proceeds, eachActive_upholds, putV_upholds, onThreads_upholds, resumeChecks_upholds, foldl_upholds]

theorem execDbgstep_proceeds {a} (h : Upholds s₀ s) : Proceeds s₀ (execDbgstep a s) := by
  unfold execDbgstep
  grind [word_proceeds, eachActive_upholds, putV_upholds, resumeChecks_upholds, onCore_upholds, issuedStall_upholds]

/-! #### Errors -/

theorem ueAt_upholds {e} (h : Upholds s₀ s) : Upholds s₀ (ueAt s e) := by
  unfold ueAt
  dsimp only
  split
  · exact detectUe_upholds (poisonLine_upholds h)
  · exact detectUe_upholds (poisonLine_upholds h)
  · exact detectUe_upholds (poisonLine_upholds (foldl_upholds (fun _ _ => dropLine_upholds) h))
  · exact detectUe_upholds (poisonLine_upholds (foldl_upholds (fun _ _ => dropLine_upholds) h))
  · exact detectUe_upholds (onDie_upholds (upholds_flats (Memory.wf_writeN _ _ _) (freeBytes_upholds (n := 4) h)))
  · exact detectUe_upholds (onDie_upholds (upholds_loft (Memory.wf_writeN _ _ _) (freeBytes_upholds (n := 128) h)))
  · exact detectUe_upholds h
  · exact detectUe_upholds (setTile_upholds h)

theorem execUncorrectableError_proceeds {a} (h : Upholds s₀ s) : Proceeds s₀ (execUncorrectableError a s) := by
  unfold execUncorrectableError
  grind [ueAt_upholds, next_proceeds]

theorem execScrubPass_proceeds {die} (h : Upholds s₀ s) : Proceeds s₀ (execScrubPass die s) := by
  unfold execScrubPass
  grind [pick_upholds, onDie_upholds, detectUe_upholds, foldl_upholds, next_proceeds]

/-! #### Queues -/

theorem moveWord_upholds {t p} (h : Upholds s₀ s) : Upholds s₀ (moveWord s t p) := by
  unfold moveWord
  grind [onThread_upholds, targetFor_upholds, flatWrite_upholds, tick_upholds, takeTrap_upholds]

theorem movePort_upholds {t p fuel} (h : Upholds s₀ s) : Upholds s₀ (movePort s t p fuel) := by
  induction fuel generalizing s with
  | zero => exact h
  | succ fuel ih =>
    unfold movePort
    grind [moveWord_upholds]

theorem closePort_upholds {g p} (h : Upholds s₀ s) : Upholds s₀ (closePort s g p) := by
  unfold closePort
  grind [movePort_upholds, onThreads_upholds, onGroup_upholds, foldl_upholds]

theorem holdStores_upholds {is p} (h : Upholds s₀ s) : Upholds s₀ (holdStores is p s) := by
  unfold holdStores
  grind [eachActive_upholds, stall_upholds]

theorem execQcfg_proceeds {a} (h : Upholds s₀ s) : Proceeds s₀ (execQcfg a s) := by
  refine word_proceeds h fun is s hs => ?_
  split
  · exact hs
  · dsimp only
    split
    · exact eachActive_upholds (closePort_upholds hs) fun _ _ => issuedTrap_upholds
    · split
      · exact holdStores_upholds (onThreads_upholds (onGroup_upholds (closePort_upholds hs)))
      · exact onThreads_upholds (onGroup_upholds (closePort_upholds hs))

theorem execQclose_proceeds {a} (h : Upholds s₀ s) : Proceeds s₀ (execQclose a s) := by
  unfold execQclose
  grind [word_proceeds, holdStores_upholds, closePort_upholds]

theorem execQueueStreamRead_proceeds {tid port} (h : Upholds s₀ s) : Proceeds s₀ (execQueueStreamRead tid port s) := by
  unfold execQueueStreamRead
  grind [onThread_upholds, targetFor_upholds, meetPoison_upholds, tick_upholds, next_proceeds]

theorem execQueueStreamWrite_proceeds {tid port} (h : Upholds s₀ s) : Proceeds s₀ (execQueueStreamWrite tid port s) := by
  unfold execQueueStreamWrite
  grind [moveWord_upholds, next_proceeds]

/-! #### Flats -/

theorem drainFlats_upholds {core} (h : Upholds s₀ s) : Upholds s₀ (drainFlats s core) := by
  unfold drainFlats
  grind [movePort_upholds, foldl_upholds]

theorem giveAt_upholds {c slot c2 slot2} (h : Upholds s₀ s) : Upholds s₀ (giveAt s c slot c2 slot2).2 := by
  unfold giveAt
  grind [setSlot_upholds, drainFlats_upholds, attachWake_upholds]

theorem execFlatGive_proceeds {a} (h : Upholds s₀ s) : Proceeds s₀ (execFlatGive a s) := by
  unfold execFlatGive
  grind [word_proceeds, eachActive_upholds, issuedTrap_upholds, tick_upholds, issuedStall_upholds]

theorem execFlatGivePoint_proceeds {tid} (h : Upholds s₀ s) : Proceeds s₀ (execFlatGivePoint tid s) := by
  unfold execFlatGivePoint
  grind [giveAt_upholds, release8_upholds, onThread_upholds, takeTrap_upholds, next_proceeds]

theorem execFlatTake_proceeds {a} (h : Upholds s₀ s) : Proceeds s₀ (execFlatTake a s) := by
  unfold execFlatTake
  grind [word_proceeds, eachActive_upholds, onThread_upholds, waitAt_upholds]

theorem execFlatShare_proceeds {a} (h : Upholds s₀ s) : Proceeds s₀ (execFlatShare a s) := by
  unfold execFlatShare
  grind [word_proceeds, eachActive_upholds, issuedTrap_upholds, issuedStall_upholds, onThread_upholds, setSlot_upholds,
    drainFlats_upholds, attachWake_upholds, foldl_upholds]

theorem execFlatStat_proceeds {a} (h : Upholds s₀ s) : Proceeds s₀ (execFlatStat a s) := by
  unfold execFlatStat
  grind [word_proceeds, eachActive_upholds, onThread_upholds]

/-! #### Memory -/

theorem execLd_proceeds {a} (h : Upholds s₀ s) : Proceeds s₀ (execLd a s) := by
  unfold execLd
  grind [word_proceeds, memBody_upholds]

theorem execSt_proceeds {a} (h : Upholds s₀ s) : Proceeds s₀ (execSt a s) := by
  unfold execSt
  grind [word_proceeds, memBody_upholds]

theorem execLdk_proceeds {a} (h : Upholds s₀ s) : Proceeds s₀ (execLdk a s) := by
  unfold execLdk
  grind [word_proceeds, memBody_upholds]

theorem loftBody_upholds {a is} (h : Upholds s₀ s) : Upholds s₀ (loftBody a is s) := by
  unfold loftBody
  grind [issuedTrap_upholds, meetPoison_upholds, memErr_upholds, lateBody_upholds, foldl_snd_upholds]

theorem execLdLoft_proceeds {a} (h : Upholds s₀ s) : Proceeds s₀ (execLdLoft a s) := by
  unfold execLdLoft
  grind [word_proceeds, loftBody_upholds]

theorem prefetchOne_upholds {a is t} (h : Upholds s₀ s) : Upholds s₀ (prefetchOne a is s t) := by
  unfold prefetchOne
  grind [coin_upholds, place_upholds, cacheLine_upholds, fillWay_upholds]

theorem execPrefetch_proceeds {a} (h : Upholds s₀ s) : Proceeds s₀ (execPrefetch a s) := by
  unfold execPrefetch
  grind [word_proceeds, eachActive_upholds, prefetchOne_upholds]

theorem execIcflush_proceeds {a} (h : Upholds s₀ s) : Proceeds s₀ (execIcflush a s) := by
  unfold execIcflush
  grind [word_proceeds, eachActive_upholds, issuedTrap_upholds, issuedStall_upholds]

theorem dropCode_upholds {ctx drop} (h : Upholds s₀ s) : Upholds s₀ (dropCode s ctx drop) := h

theorem execIcflushComplete_proceeds {tid} (h : Upholds s₀ s) : Proceeds s₀ (execIcflushComplete tid s) := by
  unfold execIcflushComplete
  grind [release8_upholds, noteFlush_upholds, dropCode_upholds, next_proceeds]

theorem execAtom_proceeds {a} (h : Upholds s₀ s) : Proceeds s₀ (execAtom a s) := by
  unfold execAtom
  grind [word_proceeds, memBody_upholds]

theorem execRed_proceeds {a} (h : Upholds s₀ s) : Proceeds s₀ (execRed a s) := by
  unfold execRed
  grind [word_proceeds, memBody_upholds]

theorem execSvpost_proceeds {a} (h : Upholds s₀ s) : Proceeds s₀ (execSvpost a s) := by
  unfold execSvpost
  grind [word_proceeds, memBody_upholds]

theorem execSvwait_proceeds {a} (h : Upholds s₀ s) : Proceeds s₀ (execSvwait a s) := by
  unfold execSvwait
  grind [word_proceeds, memBody_upholds]

/-! #### Leaves -/

theorem setLeaf_upholds {d c keep} (h : Upholds s₀ s) : Upholds s₀ (setLeaf s d c keep) := by
  unfold setLeaf
  grind [onDie_upholds]

theorem leafChange_upholds {p host op c} (h : Upholds s₀ s) : Upholds s₀ (leafChange s p host op c).2 := by
  unfold leafChange
  grind [setLeaf_upholds, foldl_snd_upholds]

theorem leafRead_upholds {p core host c} (h : Upholds s₀ s) : Upholds s₀ (leafRead s p core host c).2 := by
  unfold leafRead
  grind [sysPut_upholds]

theorem leafCommand_upholds {p core host op} (h : Upholds s₀ s) : Upholds s₀ (leafCommand s p core host op) := by
  unfold leafCommand
  grind [sweep_upholds, sysPutBits_upholds, leafRead_upholds, leafChange_upholds]

theorem retryBack_upholds {x} (h : Upholds s₀ s) : Upholds s₀ (retryBack s x) := by
  unfold retryBack
  grind [evict_upholds, putLine_upholds]

theorem faultRetry_upholds {p id} (h : Upholds s₀ s) : Upholds s₀ (faultRetry s p id) := by
  unfold faultRetry
  grind [onPart_upholds, onThreads_upholds, setReady_upholds, retryBack_upholds, foldl_upholds]

theorem faultDeny_upholds {p id} (h : Upholds s₀ s) : Upholds s₀ (faultDeny s p id) := by
  unfold faultDeny
  grind [onPart_upholds, denyAccess_upholds, takeTrap_upholds, dropLine_upholds, endContext_upholds, foldl_upholds]

theorem faultResolve_upholds {p x} (h : Upholds s₀ s) : Upholds s₀ (faultResolve s p x) := by
  unfold faultResolve
  grind [faultRetry_upholds, faultDeny_upholds]

theorem flushRange_upholds {ia n} (h : Upholds s₀ s) : Upholds s₀ (flushRange s ia n) := by
  unfold flushRange
  grind [evict_upholds, foldl_upholds, upholds_update]

theorem dropRange_upholds {c ia n} (h : Upholds s₀ s) : Upholds s₀ (dropRange s c ia n) := by
  unfold dropRange
  grind [onPkg_upholds, dropCode_upholds, upholds_update]

theorem execTlbinvComplete_proceeds {tid} (h : Upholds s₀ s) : Proceeds s₀ (execTlbinvComplete tid s) := by
  unfold execTlbinvComplete
  grind [flushRange_upholds, release8_upholds, onThread_upholds, dropRange_upholds, next_proceeds]

/-! #### ScaleOut -/

theorem readTable_upholds {p x} (h : Upholds s₀ s) : Upholds s₀ (readTable s p x).2 := by
  unfold readTable
  grind [agentRead_upholds]

theorem groupWrite_upholds {p x} (h : Upholds s₀ s) {r} (hr : groupWrite s p x = some r) : Upholds s₀ r := by
  unfold groupWrite at hr
  grind [sysPut_upholds, sysPutBits_upholds, readTable_upholds, onPart_upholds]

/-! #### Switch -/

theorem detach_upholds {core slot} (h : Upholds s₀ s) : Upholds s₀ (detach s core slot) := by
  unfold detach
  grind [setSlot_upholds, drainFlats_upholds]

theorem mapWrite_upholds {core slot x} (h : Upholds s₀ s) : Upholds s₀ (mapWrite s core slot x) := by
  unfold mapWrite
  grind [detach_upholds, attachWake_upholds, setSlot_upholds]

theorem clearBank_upholds {d bank} (h : Upholds s₀ s) : Upholds s₀ (clearBank s d bank) := by
  unfold clearBank
  grind [onDie_upholds, zeroBank_upholds]

theorem ownWrite_upholds {d bank x} (h : Upholds s₀ s) : Upholds s₀ (ownWrite s d bank x) := by
  unfold ownWrite
  grind [sysPut_upholds, clearBank_upholds]

theorem bankStatus_upholds {d n} (h : Upholds s₀ s) : Upholds s₀ (bankStatus s d n) := by
  unfold bankStatus
  grind [sysPutBits_upholds]

theorem bankCommand_upholds {p d x} (h : Upholds s₀ s) : Upholds s₀ (bankCommand s p d x) := by
  unfold bankCommand
  grind [bankStatus_upholds, detach_upholds, clearBank_upholds, sysPutBits_upholds, foldl_upholds]

/-! #### Tableau -/

theorem onTableau_upholds {p f} (h : Upholds s₀ s) : Upholds s₀ (onTableau s p f) := by
  unfold onTableau
  grind [onPart_upholds]

theorem readCap_upholds {c va} (h : Upholds s₀ s) : Upholds s₀ (readCap s c va).2 := by
  unfold readCap
  grind [readRange_upholds]

theorem tblarmOne_upholds {a is t} (h : Upholds s₀ s) : Upholds s₀ (tblarmOne a is s t) := by
  unfold tblarmOne
  grind [onThread_upholds, readCap_upholds, issuedStall_upholds, onTableau_upholds, fireTableau_upholds]

theorem execTblarm_proceeds {a} (h : Upholds s₀ s) : Proceeds s₀ (execTblarm a s) := by
  unfold execTblarm
  grind [word_proceeds, eachActive_upholds, tblarmOne_upholds]

theorem execTblread_proceeds {a} (h : Upholds s₀ s) : Proceeds s₀ (execTblread a s) := by
  unfold execTblread
  grind [word_proceeds, eachActive_upholds, onThread_upholds, acquire_upholds]

theorem tableauControl_upholds {p x} (h : Upholds s₀ s) : Upholds s₀ (tableauControl s p x) := by
  unfold tableauControl
  grind [fireTableau_upholds, onTableau_upholds]

theorem execTableauExternalTrigger_proceeds (h : Upholds s₀ s) : Proceeds s₀ (execTableauExternalTrigger s) := by
  unfold execTableauExternalTrigger
  grind [fireTableau_upholds, foldl_upholds, next_proceeds]

theorem execTableauLatch_proceeds {part} (h : Upholds s₀ s) : Proceeds s₀ (execTableauLatch part s) := by
  unfold execTableauLatch
  grind [send_upholds, onTableau_upholds, next_proceeds]

theorem recPut_upholds {c r va b} (h : Upholds s₀ r.2) : Upholds s₀ (recPut c r va b).2 := by
  unfold recPut
  grind [writeRange_upholds]

theorem recAll_upholds {x rs} (h : Upholds s₀ s) : Upholds s₀ (recAll x rs s).2.2 :=
  List.foldlRecOn (motive := fun r : Nat × RecRun × State => Upholds s₀ r.2.2) _ _
    (recPut_upholds (recPut_upholds h)) fun _ hr _ _ => recPut_upholds hr

theorem execTableauRecordsWritten_proceeds {part} (h : Upholds s₀ s) : Proceeds s₀ (execTableauRecordsWritten part s) := by
  refine next_proceeds ?_
  extract_lets x
  split
  · exact h
  · extract_lets rs
    have hr := recAll_upholds (x := x) (rs := rs) h
    split
    · exact h
    · rename_i e
      rw [e] at hr
      exact sweep_upholds (onTableau_upholds (publish_upholds (writeRange_upholds (publish_upholds hr))))

/-! #### Registers -/

theorem regRead_upholds {n inst} (h : Upholds s₀ s) : Upholds s₀ (regRead s n inst).2 := by
  unfold regRead
  refine ite_snd_upholds h <| ite_snd_upholds h <| ite_snd_upholds h <| ite_snd_upholds (onPkg_upholds h) <|
    ite_snd_upholds (onPart_upholds h) <| ite_snd_upholds (sysPut_upholds h) <| ite_snd_upholds (sysPut_upholds h) <|
    ite_snd_upholds (onDie_upholds (pick_upholds h)) <| ite_snd_upholds ?_ <| ite_snd_upholds (sysPutBits_upholds ?_) <|
    ite_snd_upholds (dataRead_upholds h) h
  · split
    · exact h
    · exact onDie_upholds h
  · exact ite_snd_upholds h h

theorem tailWrite_upholds {p q v} (h : Upholds s₀ s) : Upholds s₀ (tailWrite s p q v) := by
  unfold tailWrite
  grind [sysPutBits_upholds]

theorem pclWrite_upholds {p x} (h : Upholds s₀ s) : Upholds s₀ (pclWrite s p x) := by
  unfold pclWrite
  grind [sysPut_upholds]

theorem ctxWrite_upholds {c x} (h : Upholds s₀ s) : Upholds s₀ (ctxWrite s c x) := by
  unfold ctxWrite
  grind [sysPut_upholds]

theorem cueRegWrite_upholds {p x} (h : Upholds s₀ s) {r} (hr : cueRegWrite s p x = some r) : Upholds s₀ r := by
  unfold cueRegWrite at hr
  grind [sysPut_upholds, agentRead_upholds, onPart_upholds]

theorem smgPush_upholds {x} (h : Upholds s₀ s) : Upholds s₀ (smgPush s x) := by
  unfold smgPush
  grind [sysPutBits_upholds, publish_upholds, cueEnter_upholds]

theorem bsOpenWrite_upholds {p x} (h : Upholds s₀ s) : Upholds s₀ (bsOpenWrite s p x) := by
  unfold bsOpenWrite
  grind [sysPut_upholds, closeBubble_upholds, openBubble_upholds]

theorem bootFailsPut_upholds {x} (h : Upholds s₀ s) : Upholds s₀ (bootFailsPut s x) := by
  unfold bootFailsPut
  grind [onPkg_upholds]

theorem plainWrite_upholds {n inst x} (h : Upholds s₀ s) : Upholds s₀ (plainWrite s n inst x) := by
  unfold plainWrite
  grind [sysPut_upholds]

theorem rwfWrite_upholds {n inst x} (h : Upholds s₀ s) : Upholds s₀ (rwfWrite s n inst x) := by
  unfold rwfWrite
  grind [plainWrite_upholds, setWays_upholds]

theorem dispWrite_upholds {priv n inst x} (h : Upholds s₀ s) {r} (hr : dispWrite s priv n inst x = some r) :
    Upholds s₀ r := by
  unfold dispWrite at hr
  grind [evcBump_upholds, pclWrite_upholds, bsOpenWrite_upholds, cueRegWrite_upholds, cancel_upholds, plainWrite_upholds,
    tailWrite_upholds, seeDeps_upholds, ctxWrite_upholds]

theorem regWrite_upholds {who p n inst x} (h : Upholds s₀ s) {r} (hr : regWrite s who p n inst x = some r) :
    Upholds s₀ r := by
  unfold regWrite at hr
  grind [dispWrite_upholds, leafCommand_upholds, faultResolve_upholds, plainWrite_upholds, onDie_upholds,
    loftCommand_upholds, mapWrite_upholds, bankCommand_upholds, ownWrite_upholds, rwfWrite_upholds, smgPush_upholds,
    dataWrite_upholds, tableauControl_upholds, groupWrite_upholds, bootFailsPut_upholds, bootQueue_upholds]

theorem execCsrr_proceeds {a} (h : Upholds s₀ s) : Proceeds s₀ (execCsrr a s) := by
  unfold execCsrr
  grind [word_proceeds, eachActive_upholds, issuedTrap_upholds, regRead_upholds, onThread_upholds]

theorem execCsrw_proceeds {a} (h : Upholds s₀ s) : Proceeds s₀ (execCsrw a s) := by
  unfold execCsrw
  grind [word_proceeds, eachActive_upholds, issuedTrap_upholds, regWrite_upholds, noteWindow_upholds, issuedStall_upholds]

theorem refuse_upholds {a} (h : Upholds s₀ s) : Upholds s₀ (refuse s a) := by
  unfold refuse
  grind [hlkErr_upholds]

theorem linkRead_upholds {a} (h : Upholds s₀ s) : Upholds s₀ (linkRead s a).2 := by
  unfold linkRead
  grind [refuse_upholds, regRead_upholds]

theorem linkWrite_upholds {a} (h : Upholds s₀ s) : Upholds s₀ (linkWrite s a) := by
  unfold linkWrite
  grind [refuse_upholds, regWrite_upholds]

/-- A write event, whatever row names it. -/
theorem writeEvent_proceeds {row : Bool} {a} (h : Upholds s₀ s) : Proceeds s₀ (.next (if row then linkWrite s a else s)) := by
  refine next_proceeds ?_
  split
  · exact linkWrite_upholds h
  · exact h

theorem linkReply_upholds {a r} (h : Upholds s₀ r.2) : Upholds s₀ (linkReply a r) := send_upholds h

/-- A read event, whatever row names it. -/
theorem readEvent_proceeds {row : Bool} {a} (h : Upholds s₀ s) :
    Proceeds s₀ (.next (if row then linkReply a (linkRead s a) else s)) := by
  refine next_proceeds ?_
  split
  · exact linkReply_upholds (linkRead_upholds h)
  · exact h

theorem execRefusedRegisterRead_proceeds {a} (h : Upholds s₀ s) : Proceeds s₀ (execRefusedRegisterRead a s) := by
  unfold execRefusedRegisterRead
  grind [linkReply_upholds, linkRead_upholds, next_proceeds]

/-! #### HostLink -/

theorem bar2Fetch_upholds {c va n} (h : Upholds s₀ s) {r} (hr : bar2Fetch s c va n = some r) : Upholds s₀ r.2 := by
  unfold bar2Fetch at hr
  grind [readRange_upholds, place_upholds, detectUe_upholds]

theorem execBar2Read_proceeds {a} (h : Upholds s₀ s) : Proceeds s₀ (execBar2Read a s) := by
  refine next_proceeds ?_
  split
  · exact h
  · dsimp only
    split
    · exact send_upholds (hlkErr_upholds h)
    · split
      · exact h
      · rename_i e
        exact send_upholds (bar2Fetch_upholds h e)
      · rename_i e
        exact send_upholds (hlkErr_upholds (bar2Fetch_upholds h e))

theorem execBar2Write_proceeds {a} (h : Upholds s₀ s) : Proceeds s₀ (execBar2Write a s) := by
  unfold execBar2Write
  grind [hlkErr_upholds, publish_upholds, writeRange_upholds, sweep_upholds, next_proceeds]

theorem resetFunction_upholds {p} (h : Upholds s₀ s) : Upholds s₀ (resetFunction s p) := by
  unfold resetFunction
  grind [endContext_upholds, sysPutBits_upholds, onPart_upholds, foldl_upholds]

theorem execFunctionLevelReset_proceeds {part} (h : Upholds s₀ s) : Proceeds s₀ (execFunctionLevelReset part s) := by
  unfold execFunctionLevelReset
  grind [resetFunction_upholds, sysPutBits_upholds, foldl_upholds, next_proceeds]

theorem execPtmDialogue_proceeds {hostNs} (h : Upholds s₀ s) : Proceeds s₀ (execPtmDialogue hostNs s) := by
  unfold execPtmDialogue
  grind [onPkg_upholds, sysPut_upholds, next_proceeds]

theorem spdmReply_upholds {code p1 p2 body} (h : Upholds s₀ s) : Upholds s₀ (spdmReply s code p1 p2 body) := by
  unfold spdmReply
  grind [send_upholds]

theorem spdmError_upholds {e p2} (h : Upholds s₀ s) : Upholds s₀ (spdmError s e p2) := by
  unfold spdmError
  grind [spdmReply_upholds]

theorem spdm_proceeds {code after msg f} (h : Upholds s₀ s) (hf : ∀ s, Upholds s₀ s → Upholds s₀ (f s)) :
    Proceeds s₀ (spdm code after msg s f) := by
  unfold spdm
  grind [spdmError_upholds, next_proceeds]

theorem execSpdmGetVersion_proceeds {msg} (h : Upholds s₀ s) : Proceeds s₀ (execSpdmGetVersion msg s) := by
  unfold execSpdmGetVersion
  grind [spdm_proceeds, spdmReply_upholds, onPkg_upholds]

theorem execSpdmGetCapabilities_proceeds {msg} (h : Upholds s₀ s) : Proceeds s₀ (execSpdmGetCapabilities msg s) := by
  unfold execSpdmGetCapabilities
  grind [spdm_proceeds, spdmReply_upholds]

theorem execSpdmNegotiateAlgorithms_proceeds {msg} (h : Upholds s₀ s) :
    Proceeds s₀ (execSpdmNegotiateAlgorithms msg s) := by
  unfold execSpdmNegotiateAlgorithms
  grind [spdm_proceeds, spdmReply_upholds, onPkg_upholds, spdmError_upholds]

theorem execSpdmGetDigests_proceeds {msg} (h : Upholds s₀ s) : Proceeds s₀ (execSpdmGetDigests msg s) := by
  unfold execSpdmGetDigests
  grind [spdm_proceeds, spdmReply_upholds]

theorem execSpdmGetCertificate_proceeds {msg} (h : Upholds s₀ s) : Proceeds s₀ (execSpdmGetCertificate msg s) := by
  unfold execSpdmGetCertificate
  grind [spdm_proceeds, spdmReply_upholds]

theorem execSpdmChallenge_proceeds {msg} (h : Upholds s₀ s) : Proceeds s₀ (execSpdmChallenge msg s) := by
  unfold execSpdmChallenge
  grind [spdm_proceeds, spdmReply_upholds]

theorem execSpdmGetMeasurements_proceeds {msg} (h : Upholds s₀ s) : Proceeds s₀ (execSpdmGetMeasurements msg s) := by
  unfold execSpdmGetMeasurements
  grind [spdm_proceeds, spdmReply_upholds]

theorem execMctpControlMessage_proceeds {msg} (h : Upholds s₀ s) : Proceeds s₀ (execMctpControlMessage msg s) := by
  unfold execMctpControlMessage
  grind [send_upholds, next_proceeds]

/-! #### Prompter -/

theorem readProgram_upholds {fuel p va} (h : Upholds s₀ s) : Upholds s₀ (readProgram fuel s p va).2 := by
  induction fuel generalizing s va with
  | zero => exact h
  | succ fuel ih =>
    unfold readProgram
    have hr := agentRead_upholds (p := p) (va := va) (n := 8) h
    split <;> rename_i e <;> rw [e] at hr
    · dsimp only
      split
      · exact hr
      · have := ih (va := va + 8) hr
        split
        · rename_i e'
          rw [e'] at this
          exact this
        · exact this
    · exact hr
    · exact hr

theorem onPrompter_upholds {d n f} (h : Upholds s₀ s) : Upholds s₀ (onPrompter s d n f) := by
  unfold onPrompter
  grind [onDie_upholds]

theorem prmErr_upholds {d n code addr} (h : Upholds s₀ s) : Upholds s₀ (prmErr s d n code addr) := by
  unfold prmErr
  grind [sysPut_upholds]

theorem agentFault_upholds {p va n c} (h : Upholds s₀ s) : Upholds s₀ (agentFault s p va n c) := by
  unfold agentFault
  grind [agentPoison_upholds]

theorem prepare_upholds {n j} (h : Upholds s₀ s) {r} (hr : prepare s n j = some r) : Upholds s₀ r.2 := by
  unfold prepare at hr
  grind [agentRead_upholds, agentFault_upholds, readProgram_upholds]

theorem takeEntry_upholds {p h'} (h : Upholds s₀ s) : Upholds s₀ (takeEntry s p h') := by
  unfold takeEntry
  grind [cueDrop_upholds, heldTraps_upholds]

theorem beginHeld_upholds {d n} (h : Upholds s₀ s) {r} (hr : beginHeld s d n = some r) : Upholds s₀ r := by
  obtain ⟨_, _, hr⟩ := Option.bind_eq_some_iff.1 hr
  obtain ⟨_, hx, rfl⟩ := Option.map_eq_some_iff.1 hr
  exact onPrompter_upholds (prepare_upholds h hx)

theorem popEntry_upholds {d n} (h : Upholds s₀ s) : Upholds s₀ (popEntry s d n) := by
  unfold popEntry
  dsimp only
  split
  · exact h
  · split
    · exact h
    · split
      · exact h
      · rename_i e _ _ _
        split
        · exact onPrompter_upholds h
        · split
          · exact prmErr_upholds (takeEntry_upholds h)
          · have hr := agentRead_upholds (p := bits (sysGet s (RegNo.prmSeqBase n) d).toNat 63 61) (va := e.toNat) (n := 128) h
            split <;> rename_i e' <;> rw [e'] at hr
            · exact h
            · exact prmErr_upholds (takeEntry_upholds (agentFault_upholds hr))
            · split
              · exact onPrompter_upholds (takeEntry_upholds hr)
              · cases hp : prepare _ n _ with
                | none => exact h
                | some x => exact onPrompter_upholds (takeEntry_upholds (prepare_upholds hr hp))

theorem popJob_upholds {d n} (h : Upholds s₀ s) : Upholds s₀ (popJob s d n) := by
  unfold popJob
  split
  · exact h
  · cases e : beginHeld s d n with
    | none => exact popEntry_upholds h
    | some s1 => exact beginHeld_upholds h e

theorem execPrompterJobPop_proceeds {die n} (h : Upholds s₀ s) : Proceeds s₀ (execPrompterJobPop die n s) := by
  unfold execPrompterJobPop
  grind [popJob_upholds, next_proceeds]

theorem pubPut_upholds {p r rels va b} (h : Upholds s₀ r.2) : Upholds s₀ (pubPut p r rels va b).2 := by
  unfold pubPut
  grind [agentWrite_upholds]

theorem countToken_upholds {j r tok} (h : Upholds s₀ r.2.2) : Upholds s₀ (countToken j r tok).2.2 := by
  unfold countToken
  split
  · extract_lets cnt
    have h1 := agentRead_upholds (p := j.part) (va := j.seqAt + 58) (n := 2) h
    split <;> rename_i e <;> rw [e] at h1
    · exact h1
    · exact h1
    · rename_i nb s1
      extract_lets n
      have h2 : Upholds s₀ (if n = 0 then (Answer.ok [], s1) else agentRead s1 j.part cnt (8 * n)).2 := by
        split
        · exact h1
        · exact agentRead_upholds h1
      split <;> rename_i e <;> rw [e] at h2
      · exact h2
      · exact h2
      · dsimp only
        split
        · exact pubPut_upholds h2
        · split
          · exact h2
          · exact pubPut_upholds (pubPut_upholds h2)
  · exact h

theorem publishJob_upholds {j} (h : Upholds s₀ s) : PubEnd.Upholds s₀ (publishJob s j) := by
  unfold publishJob
  split
  · trivial
  · rename_i e
    exact agentFault_upholds ((agentRead_upholds h).of_snd e)
  · rename_i e
    have h1 := (agentRead_upholds h).of_snd e
    extract_lets hd n
    split
    · trivial
    · rename_i n0 sent r toks last w _
      have hr : Upholds s₀ r.2 := foldl_snd_upholds (fun _ _ => pubPut_upholds) h1
      clear_value r
      split
      · trivial
      · exact hr
      · rename_i s2
        have ht : Upholds s₀ (toks.foldl (countToken j) (false, .ok, s2)).2.2 :=
          List.foldlRecOn (motive := fun r : Bool × PubRun × State => Upholds s₀ r.2.2) _ _ hr
            fun _ hr _ _ => countToken_upholds hr
        split <;> rename_i e <;> rw [e] at ht
        · trivial
        · split
          · trivial
          · rename_i s3 _ e3
            have h3 := (agentWrite_upholds ht).of_snd e3
            extract_lets s4
            have h4 : Upholds s₀ s4 := by
              unfold s4
              split
              · exact h3
              · exact send_upholds h3
            dsimp only
            split
            · trivial
            · rename_i e5
              exact (agentWrite_upholds (publish_upholds h4)).of_snd e5
            · rename_i e5
              have h5 := (agentWrite_upholds (publish_upholds h4)).of_snd e5
              refine sweep_upholds ?_
              split
              · exact publish_upholds h5
              · exact pushEntry_upholds (publish_upholds h5)

theorem execPrompterPublish_proceeds {die n} (h : Upholds s₀ s) : Proceeds s₀ (execPrompterPublish die n s) := by
  refine next_proceeds ?_
  extract_lets js first ready
  have h1 : Upholds s₀ (s.pick ready.length).2 := pick_upholds h
  dsimp only
  split
  · exact h
  · split
    · exact h1
    · rename_i j _ _
      have hp := publishJob_upholds (j := j) h1
      split <;> rename_i e <;> rw [e] at hp
      · exact h1
      · exact prmErr_upholds (onPrompter_upholds hp)
      · exact onPrompter_upholds hp

/-! #### Logit -/

theorem logit_proceeds {f} (hf : ∀ j s, Upholds s₀ s → LogitEnd.Upholds s₀ (f j s)) (h : Upholds s₀ s) :
    Proceeds s₀ (logit s f) := by
  refine next_proceeds ?_
  split
  · split
    · exact h
    · rename_i j _
      have hr := hf j s h
      dsimp only
      split <;> rename_i e <;> rw [e] at hr
      · exact onPrompter_upholds hr
      · exact onPrompter_upholds hr
      · exact onPrompter_upholds hr
      · exact h
  · exact h

theorem compute_proceeds {f} (h : Upholds s₀ s) : Proceeds s₀ (compute s f) := logit_proceeds (fun _ _ hs => hs) h

theorem jobRead_upholds {j va n k} (hk : ∀ b s, Upholds s₀ s → LogitEnd.Upholds s₀ (k b s)) (h : Upholds s₀ s) :
    LogitEnd.Upholds s₀ (jobRead j s va n k) := by
  unfold jobRead
  split
  · exact hk _ _ h
  · have hr := agentRead_upholds (p := j.part) (va := va) (n := n) h
    split <;> rename_i e <;> rw [e] at hr
    · exact hk _ _ hr
    · exact agentFault_upholds hr
    · trivial

theorem execLogitLdc_proceeds {a} (h : Upholds s₀ s) : Proceeds s₀ (execLogitLdc a s) := by
  unfold execLogitLdc
  grind [logit_proceeds, jobRead_upholds, LogitEnd.Upholds]

theorem watchEntry_upholds {j a r t} (h : LogitEnd.Upholds s₀ r) : LogitEnd.Upholds s₀ (watchEntry j a r t) := by
  unfold watchEntry
  grind [jobRead_upholds, LogitEnd.Upholds]

theorem execLogitLdw_proceeds {a} (h : Upholds s₀ s) : Proceeds s₀ (execLogitLdw a s) :=
  logit_proceeds (fun j _ hs => jobRead_upholds (fun _ s hs =>
    List.foldlRecOn (motive := LogitEnd.Upholds s₀) _ _ (show LogitEnd.Upholds s₀ (.go j s) from hs)
      fun _ hr _ _ => watchEntry_upholds hr) hs) h

theorem execLogitLdt_proceeds {a} (h : Upholds s₀ s) : Proceeds s₀ (execLogitLdt a s) := by
  unfold execLogitLdt
  grind [logit_proceeds, jobRead_upholds, LogitEnd.Upholds]

theorem execLogitLdb_proceeds {a} (h : Upholds s₀ s) : Proceeds s₀ (execLogitLdb a s) := by
  unfold execLogitLdb
  grind [logit_proceeds, jobRead_upholds, LogitEnd.Upholds]

theorem execLogitLdd_proceeds {a} (h : Upholds s₀ s) : Proceeds s₀ (execLogitLdd a s) := by
  unfold execLogitLdd
  grind [logit_proceeds, jobRead_upholds, LogitEnd.Upholds]

theorem maskEntry_upholds {j r i} (h : LogitEnd.Upholds s₀ r) : LogitEnd.Upholds s₀ (maskEntry j r i) := by
  unfold maskEntry
  grind [jobRead_upholds, LogitEnd.Upholds]

theorem execLogitLdg_proceeds (a) (h : Upholds s₀ s) : Proceeds s₀ (execLogitLdg a s) := by
  refine logit_proceeds (fun j s hs => ?_) h
  split
  · exact hs
  · exact List.foldlRecOn (motive := LogitEnd.Upholds s₀) _ _ (show LogitEnd.Upholds s₀ (.go j s) from hs)
      fun _ hr _ _ => maskEntry_upholds hr

theorem execLogitPub_proceeds (a) (h : Upholds s₀ s) : Proceeds s₀ (execLogitPub a s) := logit_proceeds (fun _ _ hs => hs) h

/-! #### Privileged -/

theorem status_upholds {t d n} (h : Upholds s₀ s) : Upholds s₀ (status s t d n) := by
  unfold status
  grind [onThread_upholds]

theorem finishWith_upholds {t d n} (h : Upholds s₀ s) : Upholds s₀ (finishWith s t d n) := by
  unfold finishWith
  grind [release8_upholds, onThread_upholds]

theorem execEret_proceeds {a} (h : Upholds s₀ s) : Proceeds s₀ (execEret a s) := by
  unfold execEret
  grind [word_proceeds, eachActive_upholds, status_upholds, returnFromTrap_upholds, resumeChecks_upholds]

theorem execCtxkill_proceeds {a} (h : Upholds s₀ s) : Proceeds s₀ (execCtxkill a s) := by
  unfold execCtxkill
  grind [word_proceeds, eachActive_upholds, status_upholds, issuedStall_upholds, endContext_upholds]

theorem execCtxkillComplete_proceeds {tid} (h : Upholds s₀ s) : Proceeds s₀ (execCtxkillComplete tid s) := by
  unfold execCtxkillComplete
  grind [finishWith_upholds, next_proceeds]

theorem execHalt_proceeds {a} (h : Upholds s₀ s) : Proceeds s₀ (execHalt a s) := by
  unfold execHalt
  grind [word_proceeds, eachActive_upholds, status_upholds, issuedStall_upholds, onDie_upholds]

theorem suspendCopies_upholds {ts x} (h : Upholds s₀ s) : Upholds s₀ (suspendCopies s ts x) := h

theorem execHaltComplete_proceeds {tid} (h : Upholds s₀ s) : Proceeds s₀ (execHaltComplete tid s) := by
  unfold execHaltComplete
  grind [finishWith_upholds, suspendCopies_upholds, next_proceeds]

theorem liftHalt_upholds {d c} (h : Upholds s₀ s) : Upholds s₀ (liftHalt s d c) := by
  unfold liftHalt
  grind [suspendCopies_upholds, onDie_upholds, upholds_update]

theorem execHaltGo_proceeds {a} (h : Upholds s₀ s) : Proceeds s₀ (execHaltGo a s) := by
  unfold execHaltGo
  grind [word_proceeds, eachActive_upholds, status_upholds, liftHalt_upholds]

theorem takeImage_upholds {p d c} (h : Upholds s₀ s) : Upholds s₀ (takeImage s p d c).2 := by
  unfold takeImage
  grind [tick_upholds, upholds_update]

theorem putPlanes_upholds {p d c} (h : Upholds s₀ s) {r} (hr : putPlanes s p d c = some r) : Upholds s₀ r :=
  foldl_bind_ind (fun _ _ _ hs e => areaWrite_upholds hs e) h hr

theorem getPlanes_upholds {p d c} (h : Upholds s₀ s) {r} (hr : getPlanes s p d c = some r) : Upholds s₀ r := by
  refine foldl_bind_ind (fun s k s' hs e => ?_) h hr
  obtain ⟨x, hx, rfl⟩ := Option.map_eq_some_iff.1 e
  exact foldl_upholds (fun _ _ => onCluster_upholds) (areaRead_upholds hs hx)

theorem clearSaved_upholds {p i} (h : Upholds s₀ s) : Upholds s₀ (clearSaved s p i) := by
  unfold clearSaved
  grind [setSlot_upholds, onCluster_upholds, foldl_upholds, upholds_update]

theorem transferOne_upholds {a load is t} (h : Upholds s₀ s) : Upholds s₀ (transferOne a load is s t) := by
  unfold transferOne
  grind [status_upholds, issuedStall_upholds]

theorem execCtxsave_proceeds {a} (h : Upholds s₀ s) : Proceeds s₀ (execCtxsave a s) := by
  unfold execCtxsave
  grind [word_proceeds, eachActive_upholds, transferOne_upholds]

theorem execCtxload_proceeds {a} (h : Upholds s₀ s) : Proceeds s₀ (execCtxload a s) := by
  unfold execCtxload
  grind [word_proceeds, eachActive_upholds, transferOne_upholds]

theorem saveNow_upholds {t c mem} (h : Upholds s₀ s) {r} (hr : saveNow s t c mem = some r) : Upholds s₀ r.2 := by
  unfold saveNow at hr
  dsimp only at hr
  split at hr
  · cases hr
  · have h1 := takeImage_upholds (p := s.partOf t) (d := dieOf (s.coreOf t)) (c := c)
      (suspendCopies_upholds (ts := haltedThreads s (dieOf (s.coreOf t)) c) (x := true) h)
    have keep : ∀ {i d s1} {r : Nat × State}, Upholds s₀ s1 → ((putPlanes s1 (s.partOf t) d c).map fun s2 =>
        (0, (clearSaved s2 (s.partOf t) i).onDie d fun x => { x with shadow := some i })) = some r → Upholds s₀ r.2 := by
      intro i d s1 r hs e
      obtain ⟨s2, hp, rfl⟩ := Option.map_eq_some_iff.1 e
      exact onDie_upholds (clearSaved_upholds (putPlanes_upholds hs hp))
    split at hr
    · exact keep h1 hr
    · rename_i va
      split at hr
      · obtain rfl := Option.some.inj hr
        exact h
      · split at hr <;> rename_i e
        · exact keep (upholds_update ((congrArg Prod.snd e).symm ▸ writeRange_upholds h1 : Upholds s₀ (_, _).2)) hr
        · obtain rfl := Option.some.inj hr
          exact h
        · cases hr

theorem restoreBlock_upholds {i b} (h : Upholds s₀ s) : Upholds s₀ (restoreBlock i s b) := by
  unfold restoreBlock
  grind [takeSlot_upholds, onGroup_upholds, onBlock_upholds, foldl_upholds, upholds_update]

theorem putImage_upholds {i} (h : Upholds s₀ s) : Upholds s₀ (putImage s i) := by
  unfold putImage
  extract_lets d s1 s2 s3 s4 s5 s6 ts
  have h2 : Upholds s₀ s2 := foldl_upholds (fun s e hs => upholds_flats (fun ok =>
    List.foldlRecOn (motive := fun m => Memory.wf m = true) _ _ ok fun _ hm _ _ => Memory.wf_write _ _ _ hm)
      (zeroBank_upholds hs)) (upholds_update h)
  have h4 : Upholds s₀ s4 := foldl_upholds (fun _ _ => restoreBlock_upholds) (foldl_upholds (fun _ _ => onCluster_upholds) h2)
  have h5 : Upholds s₀ s5 := foldl_upholds (fun _ _ => foldl_upholds fun _ _ => repost_upholds) h4
  grind [cueServe_upholds, sweep_upholds, foldl_upholds, onDie_upholds]

theorem loadNow_upholds {t c mem} (h : Upholds s₀ s) {r} (hr : loadNow s t c mem = some r) : Upholds s₀ r.2 := by
  unfold loadNow at hr
  dsimp only at hr
  split at hr
  · cases hr
  · obtain rfl := Option.some.inj hr
    exact h
  · split at hr
    · obtain rfl := Option.some.inj hr
      exact h
    · split at hr
      · obtain rfl := Option.some.inj hr
        exact h
      · obtain ⟨s1, hs, rfl⟩ := Option.map_eq_some_iff.1 hr
        exact getPlanes_upholds (putImage_upholds h) hs

theorem execCtxTransferComplete_proceeds {tid} (h : Upholds s₀ s) : Proceeds s₀ (execCtxTransferComplete tid s) := by
  refine next_proceeds ?_
  split
  · split
    · rename_i e
      refine finishWith_upholds ?_
      split at e
      · exact loadNow_upholds h e
      · exact saveNow_upholds h e
    · exact h
  · exact h

theorem execTlbinv_proceeds {a} (h : Upholds s₀ s) : Proceeds s₀ (execTlbinv a s) := by
  unfold execTlbinv
  grind [word_proceeds, eachActive_upholds, status_upholds, issuedStall_upholds]

/-! #### Tuning -/

theorem execIssueFractionAdjust_proceeds {power temp} (h : Upholds s₀ s) :
    Proceeds s₀ (execIssueFractionAdjust power temp s) := by
  unfold execIssueFractionAdjust
  grind [onPkg_upholds, sysPut_upholds, next_proceeds]

theorem execRemoteWayAdjust_proceeds {die slice up} (h : Upholds s₀ s) :
    Proceeds s₀ (execRemoteWayAdjust die slice up s) := by
  unfold execRemoteWayAdjust
  grind [setWays_upholds, next_proceeds]

theorem execClockStretch_proceeds {cluster cycles} (h : Upholds s₀ s) :
    Proceeds s₀ (execClockStretch cluster cycles s) := by
  unfold execClockStretch
  grind [onCluster_upholds, sysPutBits_upholds, upholds_update, next_proceeds]

theorem execSerdesRetrain_proceeds {clk} (h : Upholds s₀ s) : Proceeds s₀ (execSerdesRetrain clk s) := by
  unfold execSerdesRetrain
  grind [onPkg_upholds, next_proceeds]

theorem execThermalTrip_proceeds (h : Upholds s₀ s) : Proceeds s₀ (execThermalTrip s) := by
  unfold execThermalTrip
  grind [endLaunches_upholds, onPkg_upholds, sysPutBits_upholds, upholds_update, next_proceeds]

/-! #### Xop -/

theorem xopBody_upholds {i f is} (h : Upholds s₀ s) : Upholds s₀ (xopBody i f is s) := by
  unfold xopBody
  grind [land_upholds, onThread_upholds, onDie_upholds, foldl_upholds, upholds_update]

theorem xop_proceeds {i f} (h : Upholds s₀ s) : Proceeds s₀ (xop i s f) := by
  unfold xop
  grind [word_proceeds, xopBody_upholds]

theorem xopReturn_upholds {die} (h : Upholds s₀ s) : Upholds s₀ (xopReturn die s) := by
  unfold xopReturn
  grind [pick_upholds, onDie_upholds, sysPutBits_upholds, landPend_upholds]

theorem execXopResultReturn_proceeds {die} (h : Upholds s₀ s) : Proceeds s₀ (execXopResultReturn die s) := by
  unfold execXopResultReturn
  grind [xopReturn_upholds, next_proceeds]

/-! #### Auto -/

theorem smgStore_upholds {p va b} (h : Upholds s₀ s) : Upholds s₀ (smgStore s p va b) := by
  unfold smgStore
  grind [agentPut_upholds, onPkg_upholds]

/-! #### An issue, from its selection to its end -/

/-- A selection: it upholds what the state before it had, but that an instruction it answers is being issued. -/
def Selects (s₀ : State) (x : Option Instr × State) : Prop :=
  (s₀.memoryOk → x.2.memoryOk) ∧ (x.1 = none → Upholds s₀ x.2)

theorem selects_none (h : Upholds s₀ s) : Selects s₀ (none, s) := ⟨h.1, fun _ => h⟩
theorem selects_issue {i : Instr} {x : Issue} (h : Upholds s₀ s) : Selects s₀ (some i, { s with issue := x }) :=
  ⟨h.1, fun e => nomatch e⟩

theorem beginIssue_selects {core ts} (h : Upholds s₀ s) : Selects s₀ (beginIssue s core ts) := by
  unfold beginIssue
  split
  · exact selects_none h
  · dsimp only
    split
    · rename_i e
      have hf := (fetch_upholds h).of_snd e
      split
      · exact selects_issue hf
      · exact selects_none (foldl_upholds (fun _ _ => stopBefore_upholds) hf)
    · rename_i e
      exact selects_none (foldl_upholds (fun _ _ => stopBefore_upholds) ((fetch_upholds h).of_snd e))
    · rename_i e
      exact selects_none (foldl_upholds (fun _ _ => stall_upholds) (onPart_upholds ((fetch_upholds h).of_snd e)))
    · rename_i e
      exact selects_none ((fetch_upholds h).of_snd e)

theorem select_selects {core second} (h : Upholds s₀ s) : Selects s₀ (select s core second) := by
  unfold select
  split
  · rename_i d _ _
    have hb := beginIssue_selects (core := core) (ts := stillTogether s (canStep s) d.threads)
      (startStep_upholds (core := core) (d := d) h)
    split
    · exact selects_none (settleStep_upholds h)
    · split <;> rename_i e <;> rw [e] at hb
      · exact hb
      · have hs := hb.2 rfl
        split
        · exact selects_none hs
        · exact selects_none (settleStep_upholds hs)
  · exact beginIssue_selects (selectBundle_upholds h)

theorem promptWord_selects {d n} (h : Upholds s₀ s) : Selects s₀ (promptWord s d n) := by
  unfold promptWord
  dsimp only
  split
  · exact selects_none h
  · split
    · exact selects_none (pick_upholds h)
    · split
      · exact selects_issue (pick_upholds h)
      · exact selects_none (pick_upholds h)

theorem endIssue_upholds : Upholds { s with issue := .none } (endIssue s) := by
  unfold endIssue
  split
  · dsimp only
    split
    · exact settleStep_upholds (holdWaiting_upholds (.refl _))
    · exact holdWaiting_upholds (.refl _)
  · exact .refl _

/-- Every instruction and every event answers a next state, one that upholds what stood before it. -/
theorem exec_proceeds (i : Instr) (h : Upholds s₀ s) : Proceeds s₀ (exec i s) := by
  cases i with
  | add | addImm | sub | subImm | add3 | mul | mulImm | mulhi | mulhiImm | mad | shladd | abs_ | min_ | minImm | max_ | maxImm
  | neg | shl | shlImm | shr | shrImm | sar | sarImm | rot | rotImm | and_ | andImm | or_ | orImm | xor_ | xorImm | andn
  | andnImm | not_ | lut3 | popc | clz | ctz | brev | bfe | bfi | setp | setpImm | sel | selImm | cvti | fadd | faddImm | fsub
  | fsubImm | fmul | fmulImm | fma | fmin | fminImm | fmax | fmaxImm | fsetp | fsetpImm | fclass | fscale | fscaleImm | frnd
  | cvt | pkadd | pkaddImm | pkmul | pkmulImm | pkfma | dp2 | dp4 | dmake | dmean | dvar | dfold | dspread | dsamp | bsinit
  | bsread | bspeek | bsskip | bsalign | rndU32 | rndF32 | rndGauss | mov | movi | moviHi | movpRead | movpWrite | pairedWord
  => exact alu_proceeds h
  | ex2 | lg2 | rcp | rsq | sqt | sin | cos | tnh | lgt => exact sfu_proceeds h
  | rndCat | laneIdx | laneRise | laneFall | laneFlip | pollAny | pollAll | pollMap | fold | pfx | peers
  => exact laneOp_proceeds h
  | xfadd | xfsub | xfmul | xfma | xfdiv | xfsqt | xfcvt | xfsetp | xdiv | xrem | xshl2 | xshr2 | xsar2 | xmin2 | xmax2
  | xcvt2 => exact xop_proceeds h
  | logitLds | logitSet | logitMode | logitMov | logitAdd | logitMul | logitPen | logitFpen | logitTemp | logitClmp
  | logitKeep | logitTopk | logitTopp | logitMinp | logitSort | logitNorm | logitVmax | logitDraw | logitAcc
  => exact compute_proceeds h
  | xltResolveRetry | xltResolveDeny | pteRead | pteWrite | pteClear | hostLeafRead | hostLeafWrite | hostLeafClear
  | loftLoadGo | flsMapWrite | flsOwnWrite | flatBankDetach | flatBankZero | flatBankOwner | evcAdd | launchCancel
  | launchQueueTailWrite | cueRegister | cueDeregister | bubbleSlotOpen | bubbleSlotClose | smgCuePush | dbgDataWrite
  | tblFire | tblDisarm | uepGroupEnable | bootFailsWrite | bootCmdQueue | registerWrite => exact writeEvent_proceeds h
  | smgCplfifoRead | hlkNoteRead | hlkErrRead | prmErrRead | scbCecntRead | scbUelogRead | tunAvsRead | dbgDataRead =>
    exact readEvent_proceeds h
  | dlin => exact execDlin_proceeds h
  | rngseed => exact execRngseed_proceeds h
  | movk => exact execMovk_proceeds h
  | movsRead => exact execMovsRead_proceeds h
  | movsWriteFsr => exact execMovsWriteFsr_proceeds h
  | ld => exact execLd_proceeds h
  | st => exact execSt_proceeds h
  | ldk => exact execLdk_proceeds h
  | ldLoft => exact execLdLoft_proceeds h
  | prefetch => exact execPrefetch_proceeds h
  | icflush => exact execIcflush_proceeds h
  | qcfg => exact execQcfg_proceeds h
  | qclose => exact execQclose_proceeds h
  | atom => exact execAtom_proceeds h
  | red => exact execRed_proceeds h
  | svpost => exact execSvpost_proceeds h
  | svwait => exact execSvwait_proceeds h
  | cpRows => exact execCpRows_proceeds h
  | cpReduce => exact execCpReduce_proceeds h
  | cpSeal => exact execCpSeal_proceeds h
  | cpWait => exact execCpWait_proceeds h
  | cpColl => exact execCpColl_proceeds h
  | cpReady => exact execCpReady_proceeds h
  | cuePop => exact execCuePop_proceeds h
  | cuePush => exact execCuePush_proceeds h
  | flatGive => exact execFlatGive_proceeds h
  | flatTake => exact execFlatTake_proceeds h
  | flatShare => exact execFlatShare_proceeds h
  | flatStat => exact execFlatStat_proceeds h
  | barBlk => exact execBarBlk_proceeds h
  | barCls => exact execBarCls_proceeds h
  | barDev => exact execBarDev_proceeds h
  | barDevSuper => exact execBarDevSuper_proceeds h
  | barArrive => exact execBarArrive_proceeds h
  | barWait => exact execBarWait_proceeds h
  | join => exact execJoin_proceeds h
  | leave => exact execLeave_proceeds h
  | wait => exact execWait_proceeds h
  | mset => exact execMset_proceeds h
  | mget => exact execMget_proceeds h
  | sign => exact execSign_proceeds h
  | cvwait => exact execCvwait_proceeds h
  | bra => exact execBra_proceeds h
  | brx => exact execBrx_proceeds h
  | call => exact execCall_proceeds h
  | ret => exact execRet_proceeds h
  | exit => exact execExit_proceeds h
  | yield => exact execYield_proceeds h
  | suspend => exact execSuspend_proceeds h
  | signal => exact execSignal_proceeds h
  | launch => exact execLaunch_proceeds h
  | trap => exact execTrap_proceeds h
  | brk => exact execBrk_proceeds h
  | nop => exact execNop_proceeds h
  | wlatch => exact execWlatch_proceeds h
  | mmpost => exact execMmpost_proceeds h
  | accrd => exact execAccrd_proceeds h
  | accclr => exact execAccclr_proceeds h
  | acccvt => exact execAcccvt_proceeds h
  | accstat => exact execAccstat_proceeds h
  | mxstat => exact execMxstat_proceeds h
  | csrr => exact execCsrr_proceeds h
  | csrw => exact execCsrw_proceeds h
  | eret => exact execEret_proceeds h
  | tlbinv => exact execTlbinv_proceeds h
  | ctxsave => exact execCtxsave_proceeds h
  | ctxload => exact execCtxload_proceeds h
  | halt => exact execHalt_proceeds h
  | haltGo => exact execHaltGo_proceeds h
  | dbgstep => exact execDbgstep_proceeds h
  | tblarm => exact execTblarm_proceeds h
  | tblread => exact execTblread_proceeds h
  | dbgres => exact execDbgres_proceeds h
  | dbgcur => exact execDbgcur_proceeds h
  | ctxkill => exact execCtxkill_proceeds h
  | logitLdc => exact execLogitLdc_proceeds h
  | logitLdw => exact execLogitLdw_proceeds h
  | logitLdt => exact execLogitLdt_proceeds h
  | logitLdb => exact execLogitLdb_proceeds h
  | logitLdg a => exact execLogitLdg_proceeds a h
  | logitLdd => exact execLogitLdd_proceeds h
  | logitPub a => exact execLogitPub_proceeds a h
  | bundleBuild => exact execBundleBuild_proceeds h
  | lateResultWrite => exact execLateResultWrite_proceeds h
  | xopResultReturn => exact execXopResultReturn_proceeds h
  | lateFaultArrival => exact execLateFaultArrival_proceeds h
  | operandLogReplay => exact execOperandLogReplay_proceeds h
  | blockSave => exact execBlockSave_proceeds h
  | blockRelaunch => exact execBlockRelaunch_proceeds h
  | queueStreamRead => exact execQueueStreamRead_proceeds h
  | queueStreamWrite => exact execQueueStreamWrite_proceeds h
  | copyComplete => exact execCopyComplete_proceeds h
  | copyFault => exact execCopyFault_proceeds h
  | collPull => exact execCollPull_proceeds h
  | readyRecordRetire => exact execReadyRecordRetire_proceeds h
  | flatGivePoint => exact execFlatGivePoint_proceeds h
  | arbiterGrant => exact execArbiterGrant_proceeds h
  | passComplete => exact execPassComplete_proceeds h
  | tlbinvComplete => exact execTlbinvComplete_proceeds h
  | ctxTransferComplete => exact execCtxTransferComplete_proceeds h
  | haltComplete => exact execHaltComplete_proceeds h
  | ctxkillComplete => exact execCtxkillComplete_proceeds h
  | launchAdmit => exact execLaunchAdmit_proceeds h
  | blockDispatch => exact execBlockDispatch_proceeds h
  | clusterReserve => exact execClusterReserve_proceeds h
  | locateCacheFill => exact execLocateCacheFill_proceeds h
  | launchRetire => exact execLaunchRetire_proceeds h
  | bubbleSlotEnd => exact execBubbleSlotEnd_proceeds h
  | bubbleOverrunSave => exact execBubbleOverrunSave_proceeds h
  | prompterJobPop => exact execPrompterJobPop_proceeds h
  | prompterPublish => exact execPrompterPublish_proceeds h
  | l2SliceRequest => exact execL2SliceRequest_proceeds h
  | translateRequest => exact execTranslateRequest_proceeds h
  | hostLinkCompletion => exact execHostLinkCompletion_proceeds h
  | loftLoadCopy => exact execLoftLoadCopy_proceeds h
  | loftLoadDone => exact execLoftLoadDone_proceeds h
  | loftRefreshWindow d g => exact execLoftRefreshWindow_proceeds d g h
  | scrubPass => exact execScrubPass_proceeds h
  | uncorrectableError => exact execUncorrectableError_proceeds h
  | tableauExternalTrigger => exact execTableauExternalTrigger_proceeds h
  | tableauLatch => exact execTableauLatch_proceeds h
  | tableauRecordsWritten => exact execTableauRecordsWritten_proceeds h
  | bootLoad => exact execBootLoad_proceeds h
  | bootAttest => exact execBootAttest_proceeds h
  | bootCert => exact execBootCert_proceeds h
  | bootEvict => exact execBootEvict_proceeds h
  | bootSvnadv => exact execBootSvnadv_proceeds h
  | bar2Read => exact execBar2Read_proceeds h
  | bar2Write => exact execBar2Write_proceeds h
  | functionLevelReset => exact execFunctionLevelReset_proceeds h
  | spdmGetVersion => exact execSpdmGetVersion_proceeds h
  | spdmGetCapabilities => exact execSpdmGetCapabilities_proceeds h
  | spdmNegotiateAlgorithms => exact execSpdmNegotiateAlgorithms_proceeds h
  | spdmGetDigests => exact execSpdmGetDigests_proceeds h
  | spdmGetCertificate => exact execSpdmGetCertificate_proceeds h
  | spdmChallenge => exact execSpdmChallenge_proceeds h
  | spdmGetMeasurements => exact execSpdmGetMeasurements_proceeds h
  | mctpControlMessage => exact execMctpControlMessage_proceeds h
  | uePullRequest => exact execUePullRequest_proceeds h
  | ueTileData => exact execUeTileData_proceeds h
  | ueAcknowledgement => exact execUeAcknowledgement_proceeds h
  | ueSuperstepMessage => exact execUeSuperstepMessage_proceeds h
  | scaleoutTimeout => exact execScaleoutTimeout_proceeds h
  | ptmDialogue => exact execPtmDialogue_proceeds h
  | issueFractionAdjust => exact execIssueFractionAdjust_proceeds h
  | remoteWayAdjust => exact execRemoteWayAdjust_proceeds h
  | clockStretch => exact execClockStretch_proceeds h
  | serdesRetrain => exact execSerdesRetrain_proceeds h
  | thermalTrip => exact execThermalTrip_proceeds h
  | startAttempt => exact execStartAttempt_proceeds h
  | stageManagerReady => exact execStageManagerReady_proceeds h
  | startTimeout => exact execStartTimeout_proceeds h
  | startPowerFault => exact execStartPowerFault_proceeds h
  | icflushComplete => exact execIcflushComplete_proceeds h
  | powerLoss => exact execPowerLoss_proceeds h
  | uePortTrainingEnd => exact execUePortTrainingEnd_proceeds h
  | refusedRegisterRead => exact execRefusedRegisterRead_proceeds h
  | bootBadcmd => exact execBootBadcmd_proceeds h

/-! #### Turns -/

theorem runIssue_proceeds {x} (h : Selects s₀ x) : Proceeds s₀ (runIssue x) := by
  obtain ⟨_ | i, s⟩ := x
  · exact next_proceeds (h.2 rfl)
  · obtain ⟨s1, e, h1⟩ := exec_proceeds i (.refl s)
    refine ⟨endIssue s1, by simp only [runIssue, e, andThen], fun ok => endIssue_upholds.1 (h1.1 (h.1 ok)), fun _ =>
      endIssue_upholds.2 rfl⟩

theorem runSelect_proceeds {core second} (h : Upholds s₀ s) : Proceeds s₀ (runSelect core second s) :=
  runIssue_proceeds (select_selects h)

theorem runPrompt_proceeds {die n} (h : Upholds s₀ s) : Proceeds s₀ (runPrompt die n s) :=
  runIssue_proceeds (promptWord_selects h)

theorem runTurn_proceeds {a} (h : Upholds s₀ s) : Proceeds s₀ (runTurn a s) := by
  cases a with
  | issue => exact runSelect_proceeds h
  | prompt => exact runPrompt_proceeds h
  | copy => exact next_proceeds (copyWork_upholds h)
  | late => exact next_proceeds (runLate_upholds h)
  | boot => exact next_proceeds (bootStep_upholds h)
  | smgStore => exact next_proceeds (smgStore_upholds h)
  | event i => exact exec_proceeds i h

/-! #### Happenings -/

/-- A happening that answers a next state whenever it happens, one that upholds what stood before it. -/
def Happening.Proceeds (f : Happening) : Prop := ∀ ⦃s₀ s⦄, Upholds s₀ s → Machine.Proceeds s₀ (f s)

theorem coreHappenings_proceed (s : State) (c : Nat) : ∀ f ∈ coreHappenings s c, Happening.Proceeds f := by
  unfold coreHappenings
  dsimp only
  refine List.forall_mem_cons.2 ⟨fun _ _ => execBundleBuild_proceeds, ?_⟩
  split
  · exact List.forall_mem_cons.2 ⟨fun _ _ => runSelect_proceeds, List.forall_mem_singleton.2 fun _ _ => runSelect_proceeds⟩
  · exact List.forall_mem_nil _

theorem stallHappening_proceeds (t : Nat) (th : Thread) : ∀ f ∈ stallHappening t th, Happening.Proceeds f := by
  unfold stallHappening
  split
  · exact List.forall_mem_singleton.2 fun _ _ => execIcflushComplete_proceeds
  · exact List.forall_mem_singleton.2 fun _ _ => execTlbinvComplete_proceeds
  · exact List.forall_mem_singleton.2 fun _ _ => execCtxTransferComplete_proceeds
  · exact List.forall_mem_singleton.2 fun _ _ => execHaltComplete_proceeds
  · exact List.forall_mem_singleton.2 fun _ _ => execCtxkillComplete_proceeds
  · exact List.forall_mem_singleton.2 fun _ _ => execFlatGivePoint_proceeds
  · exact List.forall_mem_nil _

theorem threadHappenings_proceed (s : State) (t : Nat) (th : Thread) :
    ∀ f ∈ threadHappenings s t th, Happening.Proceeds f := by
  unfold threadHappenings
  simp only [List.forall_mem_append, List.forall_mem_flatMap, List.forall_mem_map]
  refine ⟨⟨⟨fun r _ => ?_, ?_⟩, stallHappening_proceeds t th⟩, fun p _ => ?_⟩
  · split
    · exact List.forall_mem_singleton.2 fun _ _ => execL2SliceRequest_proceeds
    · exact List.forall_mem_singleton.2 fun _ _ => execTranslateRequest_proceeds
    · exact List.forall_mem_singleton.2 fun _ _ => execHostLinkCompletion_proceeds
    · exact List.forall_mem_nil _
  · split
    · exact List.forall_mem_singleton.2 fun _ _ => execLateResultWrite_proceeds
    · exact List.forall_mem_nil _
  · split
    · exact fun _ _ => execQueueStreamRead_proceeds
    · exact fun _ _ => execQueueStreamWrite_proceeds

theorem logHappenings_proceed (c : Nat) (k : Core) : ∀ f ∈ logHappenings c k, Happening.Proceeds f := by
  simp only [logHappenings, List.forall_mem_flatMap, List.forall_mem_cons]
  exact fun n _ => ⟨fun _ _ => execLateFaultArrival_proceeds, fun _ _ => execOperandLogReplay_proceeds, List.forall_mem_nil _⟩

theorem clusterHappenings_proceed (c : Nat) (k : Cluster) : ∀ f ∈ clusterHappenings c k, Happening.Proceeds f := by
  unfold clusterHappenings
  refine List.forall_mem_append.2 ⟨?_, ?_⟩
  · split
    · exact List.forall_mem_singleton.2 fun _ _ => execPassComplete_proceeds
    · exact List.forall_mem_nil _
  · split
    · exact List.forall_mem_singleton.2 fun _ _ => execArbiterGrant_proceeds
    · exact List.forall_mem_nil _

theorem copyHappenings_proceed (n : Nat) (c : Copy) : ∀ f ∈ copyHappenings n c, Happening.Proceeds f := by
  simp only [copyHappenings, List.forall_mem_append, List.forall_mem_cons]
  refine ⟨⟨fun _ _ => execCopyComplete_proceeds, fun _ _ => execCopyFault_proceeds,
    fun _ _ h => next_proceeds (copyWork_upholds h), List.forall_mem_nil _⟩, ?_⟩
  split
  · exact List.forall_mem_cons.2 ⟨fun _ _ => execCollPull_proceeds,
      List.forall_mem_singleton.2 fun _ _ => execScaleoutTimeout_proceeds⟩
  · exact List.forall_mem_nil _

theorem dieHappenings_proceed (s : State) (d : Nat) : ∀ f ∈ dieHappenings s d, Happening.Proceeds f := by
  simp only [dieHappenings, List.forall_mem_append, List.forall_mem_flatMap, List.forall_mem_cons]
  refine ⟨⟨fun n _ => ⟨fun _ _ => execPrompterJobPop_proceeds, fun _ _ => runPrompt_proceeds,
    fun _ _ => execPrompterPublish_proceeds, List.forall_mem_nil _⟩, ?_⟩, ?_⟩
  · split
    · exact List.forall_mem_cons.2 ⟨fun _ _ => execLoftLoadCopy_proceeds,
        List.forall_mem_singleton.2 fun _ _ => execLoftLoadDone_proceeds⟩
    · exact List.forall_mem_nil _
  · split
    · exact List.forall_mem_nil _
    · exact List.forall_mem_singleton.2 fun _ _ => execXopResultReturn_proceeds

theorem dispatchHappenings_proceed (s : State) (p : Nat) : ∀ f ∈ dispatchHappenings s p, Happening.Proceeds f := by
  simp only [dispatchHappenings, List.forall_mem_append, List.forall_mem_map]
  refine ⟨⟨?_, ?_⟩, fun _ _ _ _ => execClusterReserve_proceeds⟩
  · split
    · exact List.forall_mem_singleton.2 fun _ _ => execLaunchAdmit_proceeds
    · exact List.forall_mem_nil _
  · split
    · exact List.forall_mem_nil _
    · exact List.forall_mem_singleton.2 fun _ _ => execLocateCacheFill_proceeds
    · split
      · exact List.forall_mem_singleton.2 fun _ _ => execBlockDispatch_proceeds
      · exact List.forall_mem_singleton.2 fun _ _ => execBlockRelaunch_proceeds

theorem partHappenings_proceed (s : State) (p : Nat) : ∀ f ∈ partHappenings s p, Happening.Proceeds f := by
  simp only [partHappenings, List.forall_mem_append, List.forall_mem_flatMap, List.forall_mem_map, List.forall_mem_cons]
  refine ⟨⟨⟨⟨⟨⟨?_, fun _ _ => execBubbleOverrunSave_proceeds, List.forall_mem_nil _⟩, ?_⟩, ?_⟩, ?_⟩, fun r _ =>
    ⟨fun _ _ => execReadyRecordRetire_proceeds, fun _ _ _ _ => execScaleoutTimeout_proceeds⟩⟩,
    fun _ _ _ _ => execScaleoutTimeout_proceeds⟩
  · split
    · exact List.forall_mem_singleton.2 fun _ _ => execBubbleSlotEnd_proceeds
    · exact List.forall_mem_nil _
  · split
    · exact List.forall_mem_nil _
    · simp only [List.forall_mem_cons]
      exact ⟨fun _ _ => execBootLoad_proceeds, fun _ _ => execBootAttest_proceeds, fun _ _ => execBootCert_proceeds,
        fun _ _ => execBootEvict_proceeds, fun _ _ => execBootSvnadv_proceeds, fun _ _ => execBootBadcmd_proceeds,
        List.forall_mem_nil _⟩
  · split
    · exact List.forall_mem_cons.2 ⟨fun _ _ => execTableauLatch_proceeds,
        List.forall_mem_singleton.2 fun _ _ => execTableauRecordsWritten_proceeds⟩
    · exact List.forall_mem_nil _
  · split
    · exact List.forall_mem_nil _
    · exact List.forall_mem_singleton.2 fun _ _ h => next_proceeds (runLate_upholds h)

theorem happenings_proceed (s : State) : ∀ f ∈ happenings s, Happening.Proceeds f := by
  unfold happenings
  split
  · exact List.forall_mem_singleton.2 fun _ _ h => next_proceeds (bootStep_upholds h)
  · split
    · exact List.forall_mem_nil _
    · simp only [List.forall_mem_append, List.forall_mem_flatMap, List.forall_mem_map]
      refine ⟨⟨⟨⟨⟨⟨⟨⟨fun c _ => coreHappenings_proceed s c, fun e _ => threadHappenings_proceed s e.1 e.2⟩,
        fun e _ => logHappenings_proceed e.1 e.2⟩, fun e _ => clusterHappenings_proceed e.1 e.2⟩,
        fun e _ => copyHappenings_proceed e.1 e.2⟩, fun d _ => dieHappenings_proceed s d⟩,
        fun p _ => ⟨?_, partHappenings_proceed s p⟩⟩, fun _ _ _ _ => execLaunchRetire_proceeds⟩,
        fun _ _ _ _ => execBlockSave_proceeds⟩
      split
      · exact dispatchHappenings_proceed s p
      · exact List.forall_mem_nil _

theorem coreTurn_proceeds (s : State) : ∀ f ∈ coreTurn s, Happening.Proceeds f := by
  unfold coreTurn
  dsimp only
  have hs : ∀ f ∈ (if s.clk % 16 = 0 ∧ s.running ∧ (liveCores s).contains (s.clk / 16 % 256) then
      coreHappenings s (s.clk / 16 % 256) else []), Happening.Proceeds f := by
    split
    · exact coreHappenings_proceed s _
    · exact List.forall_mem_nil _
  split
  · exact fun f hf => hs f (List.mem_of_mem_drop (List.mem_of_mem_take hf))
  · exact fun f hf => hs f (List.mem_of_mem_drop (List.mem_of_mem_take hf))
  · exact fun f hf => hs f (List.mem_of_mem_take hf)

/-! #### A step -/

/-- A turn without an agenda: the clk passes, and one of the happenings that stand ready happens. -/
theorem autoTurn_proceeds (s : State) : Proceeds { s with clk := s.clk + 1, issue := .none } (autoTurn s) := by
  unfold autoTurn
  extract_lets s1 hs
  have hp : ∀ f ∈ hs, Happening.Proceeds f := by
    unfold hs
    split
    · exact happenings_proceed s1
    · exact coreTurn_proceeds s1
  have h1 : Upholds s1 (s1.pick hs.length).2 := pick_upholds (.refl s1)
  dsimp only
  split
  · exact next_proceeds h1
  · rename_i f e
    exact hp f (List.mem_of_getElem? e) h1

/-- A step begins in a state in which no word is being issued, with the memories of the one before it. -/
theorem step_proceeds (s : State) :
    ∃ s₀, s₀.issue = .none ∧ (s.memoryOk → s₀.memoryOk) ∧ Proceeds s₀ (step s) := by
  unfold step
  split
  · refine ⟨_, ?_, ?_, runTurn_proceeds (.refl _)⟩
    · rfl
    · exact id
  · refine ⟨_, ?_, ?_, autoTurn_proceeds s⟩
    · rfl
    · exact id

end

/-- Settles O59: a step is a turn of the agenda or a happening that stands ready, and each of them proceeds. -/
theorem everyStepAnswers : Obligations.EveryStepAnswers := by
  intro s
  obtain ⟨s₀, hi, -, s', e, h⟩ := step_proceeds s
  exact ⟨s', e, h.2 hi⟩

/-- Settles O60: the state in which a step begins has the memories of the one before it, and the step upholds them. -/
theorem memoryStaysCanonical : Obligations.MemoryStaysCanonical := by
  intro s s' ok e
  obtain ⟨s₀, -, hm, s1, e1, h⟩ := step_proceeds s
  cases e.symm.trans e1
  exact h.1 (hm ok)

end Sys2Proof.Machine

/-! ### What power-on reset leaves (O54) -/

namespace Sys2Proof.Machine

/-- No register is set at reset: each reads as its map's reset value (R8). -/
theorem sysGet_reset (n k : Nat) : sysGet State.reset n k = regReset n k := rfl

/-- No group stands at reset. -/
theorem group_reset (g : Nat) : State.reset.group g = .fresh := rfl

/-- A register whose map gives 0 at reset reads 0. -/
theorem regReset_zero {n : Nat} {i : RegInfo} (k : Nat) (hn : n ≠ RegNo.pcl) (hi : regInfo n = some i) (h0 : i.reset = 0) :
    regReset n k = 0 := by
  simp [regReset, hn, hi, h0]

theorem regInfo_disp {j : Nat} (h : j < 0x4000) : regInfo (RegNo.of 1 j) = dispInfo j := by
  have hd : RegNo.of 1 j / 0x4000 = 1 := by unfold RegNo.of; omega
  have hm : RegNo.of 1 j % 0x4000 = j := by unfold RegNo.of; omega
  simp only [regInfo, hd, hm]

theorem regInfo_dbg {j : Nat} (h : j < 0x4000) : regInfo (RegNo.of 0x0B j) = dbgInfo j := by
  have hd : RegNo.of 0x0B j / 0x4000 = 0x0B := by unfold RegNo.of; omega
  have hm : RegNo.of 0x0B j % 0x4000 = j := by unfold RegNo.of; omega
  simp only [regInfo, hd, hm]

/-- The map of DISP_CTXc. -/
theorem regInfo_ctx {c : Nat} (h : c < 255) :
    regInfo (RegNo.ctx c) = some ⟨.package, true, false, maskBits 31 31 + maskBits 2 0, 0, false, false⟩ := by
  rw [RegNo.ctx, regInfo_disp (by omega), dispInfo]
  repeat rw [if_neg (by omega)]
  rw [if_pos (by omega)]

/-- The map of DISP_LQq. -/
theorem regInfo_lq {q : Nat} (h : q < 64) :
    regInfo (RegNo.lq q) = some ⟨.part, false, true, maskBits 63 59 + maskBits 56 0, 0, false, false⟩ := by
  rw [RegNo.lq, regInfo_disp (by omega), dispInfo]
  repeat rw [if_neg (by omega)]
  rw [if_pos (by omega)]

/-- The map of DBG_CTLc. -/
theorem regInfo_dbgCtl {c : Nat} (h : c < 255) :
    regInfo (RegNo.dbgCtl c) = some ⟨.ctx, false, false, maskBits 2 0, 0, true, false⟩ := by
  rw [RegNo.dbgCtl, regInfo_dbg (by omega), dbgInfo]
  repeat rw [if_neg (by omega)]
  rw [if_pos (by omega)]

/-- Settles O54: the lists of the reset state are empty and its registers read as their maps' reset values. -/
theorem resetState : Obligations.ResetState := by
  have hctx : ∀ c, c < 255 → sysGet State.reset (RegNo.ctx c) 0 = 0 ∧ sysGet State.reset (RegNo.dbgCtl c) 0 = 0 := fun c h => by
    constructor
    · exact regReset_zero 0 (by unfold RegNo.ctx RegNo.pcl RegNo.of; omega) (regInfo_ctx h) rfl
    · exact regReset_zero 0 (by unfold RegNo.dbgCtl RegNo.pcl RegNo.of; omega) (regInfo_dbgCtl h) rfl
  have hlq : ∀ n, n < 64 → sysGet State.reset (RegNo.lq n) 0 = 0 := fun n h =>
    regReset_zero 0 (by unfold RegNo.lq RegNo.pcl RegNo.of; omega) (regInfo_lq h) rfl
  have hmask : ∀ g n, n < 12 → (maskOf (State.reset.group g) n).m = 0 ∧ (maskOf (State.reset.group g) n).a = 0 :=
    fun g n _ => by
      rw [group_reset]
      exact ⟨rfl, rfl⟩
  have hregs : sysGet State.reset RegNo.waitSave 0 = 20 ∧ sysGet State.reset RegNo.earlyReserve 0 = 48 ∧
      sysGet State.reset RegNo.rsv 0 = 2 ∧ sysGet State.reset RegNo.pcl 0 = 0xFFFF_FFFF_FFFF_FFFF ∧
      sysGet State.reset RegNo.pcl 1 = 0 ∧ sysGet State.reset RegNo.pteIa 0 = 1 ∧ sysGet State.reset (RegNo.flsOwn 3) 1 = 0xFF ∧
      sysGet State.reset (RegNo.l2sRwf 7) 0 = 0x8004_0004 ∧ sysGet State.reset RegNo.ptm 0 = 10 ∧
      sysGet State.reset RegNo.uepTmo 0 = 5000 ∧ sysGet State.reset RegNo.scbCtl 0 = 0x8000_0018 := by
    simp only [sysGet_reset]
    decide
  obtain ⟨hWait, hEarly, hRsv, hPcl, hPcl1, hPte, hOwn, hRwf, hPtm, hUep, hScb⟩ := hregs
  exact ⟨rfl, rfl, rfl, rfl, rfl, rfl, rfl, rfl, ⟨rfl, rfl, rfl, rfl⟩, rfl, rfl, rfl, fun a => ⟨rfl, rfl, rfl, rfl⟩,
    hWait, hEarly, hRsv, hPcl, hPcl1, hPte, hOwn, hRwf, hPtm, hUep, hScb, hctx, hlq, hmask⟩

end Sys2Proof.Machine

/-! ### The system registers (O35) -/

namespace Sys2Proof.Machine

/-! ### A word with one active thread -/

/-- A word that acts on each active thread in turn acts on its one active thread. -/
theorem word_sole {i : Instr} {b : Bundle} {s : State} {t : Nat} (h : Sole i b s t) (hn : gatherMask i = none)
    (f : Issued → State → Nat → State) :
    (word i s fun is s => eachActive is s (f is)) = .next (f (issuedAs i b s) (afterIssue b s) t) := by
  rw [word_issues h.issuing hn]
  simp [eachActive, issuedAs, h.active]

/-- Two changes of one thread are one. -/
theorem onThread_onThread (s : State) (t : Nat) (f g : Thread → Thread) :
    (s.onThread t f).onThread t g = s.onThread t fun th => g (f th) := by
  simp only [State.onThread, Sparse.modify, Sparse.mapKV, List.map_map]
  congr 2
  refine List.map_congr_left fun e _ => ?_
  by_cases he : e.1 = t <;> simp [he]

/-- A stall of the one active thread holds it STALLED at the word. -/
theorem stall_sole {i : Instr} {b : Bundle} {s : State} {t : Nat} (h : Sole i b s t) (w : Why) :
    (issuedAs i b s).stall (afterIssue b s) t w = stalledAt b s t w := by
  have hfree : (issuedAs i b s).free.contains t = (s.thread t).freePass := by
    rw [Bool.eq_iff_iff]
    simp [issuedAs, h.thread.1]
  rw [Issued.stall, stall, onThread_onThread, hfree]
  rfl

/-- A trap of the one active thread, with no address and no code. -/
theorem trap_sole (i : Instr) (b : Bundle) (s : State) (t : Nat) (c : Cause) :
    (issuedAs i b s).trap (afterIssue b s) t c = trapsAt b s t c 0 0 := rfl

/-! ### csrr and csrw (R314, R315) -/

section
variable {a : CsrArgs} {b : Bundle} {s : State} {t : Nat}

theorem exec_csrr_priv (h : Sole (.csrr a) b s t) (hk : csrInst (afterIssue b s) t b.core a.reg.toNat = none) :
    exec (.csrr a) s = .next (trapsAt b s t .priv 0 0) := by
  change execCsrr a s = _
  rw [execCsrr, word_sole h rfl]
  have hc : (issuedAs (.csrr a) b s).core = b.core := rfl
  simp only [hc, hk, trap_sole]

theorem exec_csrr {k : Nat} (h : Sole (.csrr a) b s t) (hk : csrInst (afterIssue b s) t b.core a.reg.toNat = some k) :
    exec (.csrr a) s = .next ((regRead (afterIssue b s) a.reg.toNat k).2.onThread t fun th => { th with
        v := (th.v.set (baseReg a.r) ((regRead (afterIssue b s) a.reg.toNat k).1.setWidth 32)).set
          (baseReg a.r + 1) (((regRead (afterIssue b s) a.reg.toNat k).1 >>> 32).setWidth 32) }) := by
  change execCsrr a s = _
  rw [execCsrr, word_sole h rfl]
  have hc : (issuedAs (.csrr a) b s).core = b.core := rfl
  simp only [hc, hk]

theorem exec_csrw_priv (h : Sole (.csrw a) b s t) (hk : csrInst (afterIssue b s) t b.core a.reg.toNat = none) :
    exec (.csrw a) s = .next (trapsAt b s t .priv 0 0) := by
  change execCsrw a s = _
  rw [execCsrw, word_sole h rfl]
  have hc : (issuedAs (.csrw a) b s).core = b.core := rfl
  simp only [hc, hk, trap_sole]

/-- What csrw writes: the low word alone goes to a 32-bit register. -/
def csrwValue (s : State) (t : Nat) (r : Base) (i : RegInfo) : Dword :=
  if i.wide then (envOf s t).base2 r else (envOf s t).base2 r &&& 0xFFFF_FFFF

/-- csrw on a register that the thread reaches: the write, or the thread held to try again. -/
theorem exec_csrw {k : Nat} {i : RegInfo} (h : Sole (.csrw a) b s t)
    (hk : csrInst (afterIssue b s) t b.core a.reg.toNat = some k) (hi : regInfo a.reg.toNat = some i) :
    exec (.csrw a) s = .next (match regWrite (afterIssue b s) (.core b.core) ((afterIssue b s).partOf t) a.reg.toNat k
        (csrwValue (afterIssue b s) t a.r i) with
      | some s' => noteWindow s' t a.reg.toNat (sysGet (afterIssue b s) a.reg.toNat k)
      | none => stalledAt b s t .retry) := by
  change execCsrw a s = _
  rw [execCsrw, word_sole h rfl]
  have hc : (issuedAs (.csrw a) b s).core = b.core := rfl
  simp only [hc, hk, hi, stall_sole h, Option.map_some, Option.getD_some]
  rfl

/-- csrw behind accesses of its thread is held till they are done. -/
theorem exec_csrw_held (h : Alone (.csrw a) b s t)
    (hp : pendingHazard s t (usesOf (.csrw a)) (guardOf (.csrw a)) true = false) (hr : replayHold s t (.csrw a) = none)
    (hd : accessesDone s t = false) : exec (.csrw a) s = .next (heldAt b s t .drain) := by
  refine exec_held ⟨rfl, rfl⟩ h .drain ?_ fun p hp => nomatch hp
  have hg : guardHolds (guardOf (.csrw a)) (s.thread t) = true := h.guarded
  have hports : portHazard (s.thread t) (usesOf (.csrw a)) = none := by
    obtain ⟨g, r, reg⟩ := a
    cases r <;> rfl
  have hm : mustDrain s (.csrw a) t = true := by simp [mustDrain, memVa, hd]
  simp [waitsFor, hg, hp, hr, hports, hm, isXop]

end

/-- R363: beside a register that is no window nothing is kept. -/
theorem noteWindow_of_no_window {n : Nat} (h : n / 0x4000 ≠ 2 ∨ n % 0x4000 < 0x1000) (s : State) (t : Nat) (old : Dword) :
    noteWindow s t n old = s := by
  rw [noteWindow, if_neg (by omega)]

/-! ### Who reaches a register (R314) -/

theorem csrInst_eq {n : Nat} {i : RegInfo} (h : regInfo n = some i) (s : State) (t core : Nat) :
    csrInst s t core n = coreInst s (s.partOf t) core n i := by
  rw [csrInst, h, Option.bind_some]

theorem csrInst_of_no_register {n : Nat} (h : regInfo n = none) (s : State) (t core : Nat) : csrInst s t core n = none := by
  rw [csrInst, h, Option.bind_none]

theorem csrInst_of_mOnly {n : Nat} {i : RegInfo} (h : regInfo n = some i) (hm : i.mOnly = true) (s : State) (t core : Nat) :
    csrInst s t core n = none := by
  rw [csrInst_eq h, coreInst, if_pos hm]

/-- Which one of a register not at level M alone a thread reaches follows what the register exists once per. -/
theorem coreInst_of_not_mOnly {i : RegInfo} (hm : i.mOnly = false) (s : State) (p core n : Nat) :
    (i.per = .part → coreInst s p core n i = some p) ∧ (i.per = .core → coreInst s p core n i = some core) ∧
    (i.per = .die → coreInst s p core n i = some (dieOf core)) ∧
    (i.per = .ctx → s.ctxPart (ctxIndex n) ≠ some p → coreInst s p core n i = none) := by
  refine ⟨fun h => ?_, fun h => ?_, fun h => ?_, fun h hp => ?_⟩
  all_goals simp only [coreInst, hm, h, Bool.false_eq_true, if_false]
  rw [if_neg hp]

/-! ### Reads and writes that only fetch or store (R7) -/

/-- Of the dispatcher's registers DISP_BSOPEN alone reads as more than its stored bits. -/
theorem regRead_disp {j : Nat} (hj : j < 0x4000) (h : j ≠ 0x013) (s : State) (k : Nat) :
    regRead s (RegNo.of 1 j) k = (sysGet s (RegNo.of 1 j) k, s) := by
  have hopen : RegNo.of 1 j ≠ RegNo.bsOpen := by unfold RegNo.bsOpen RegNo.of; omega
  have hother : ∀ blk i, blk ≠ 1 → i < 0x4000 → RegNo.of 1 j ≠ RegNo.of blk i := fun blk i hb hi => by unfold RegNo.of; omega
  have hblock : RegNo.of 1 j / 0x4000 = 1 := by unfold RegNo.of; omega
  simp only [regRead, if_neg hopen, hblock, RegNo.xcuStat, RegNo.bootFails, RegNo.smgFifo, RegNo.hlkNote, RegNo.hlkErr, RegNo.scbCe,
    RegNo.scbUe]
  repeat rw [if_neg (hother _ _ (by decide) (by decide))]
  simp

/-- Registers of which a write sets the RW bits alone, within no limits. -/
def plainRegs : List Nat :=
  [RegNo.rsvcl, RegNo.trapArea, RegNo.saveBase, RegNo.bsMask, RegNo.bsWord, RegNo.rtCtx, RegNo.pir, RegNo.pfr 0, RegNo.pfr 1,
    RegNo.faultArea, RegNo.faultQ, RegNo.b2map, RegNo.uepBase]

theorem regWrite_plain {n : Nat} (h : n ∈ plainRegs) (s : State) (who : Requester) (p k : Nat) (x : Dword) :
    regWrite s who p n k x = some (plainWrite s n k x) := by
  simp only [plainRegs, List.mem_cons, List.not_mem_nil, or_false] at h
  rcases h with rfl | rfl | rfl | rfl | rfl | rfl | rfl | rfl | rfl | rfl | rfl | rfl | rfl <;> rfl

theorem regStored_plain {n : Nat} (h : n ∈ plainRegs) (i : RegInfo) (old new : Dword) :
    regStored n i old new = (old &&& ~~~ BitVec.ofNat 64 i.rw) ||| (new &&& BitVec.ofNat 64 i.rw) := by
  simp only [plainRegs, List.mem_cons, List.not_mem_nil, or_false] at h
  rcases h with rfl | rfl | rfl | rfl | rfl | rfl | rfl | rfl | rfl | rfl | rfl | rfl | rfl <;> rfl

/-! ### Accesses over the link (R384, R385) -/

/-- A write that the part admits is a write of the register. -/
theorem linkWrite_admitted {s : State} {a : RegAcc} {n k p : Nat} {x : Dword} (h : WritesReg s a n k p x) :
    linkWrite s a = (regWrite s a.who p n k x).getD s := by
  obtain ⟨hrun, rfl, hsize, rfl, hreach⟩ := h
  simp only [linkWrite, hrun, hreach, hsize, merged, Bool.not_true, Bool.false_eq_true, if_false, if_true]
  rw [if_neg (by omega)]
  cases regWrite s a.who p a.reg.toNat k a.val <;> rfl

theorem linkWrite_refused {s : State} {a : RegAcc} (hrun : s.running = true) (h : accessOk s a true = none) :
    linkWrite s a = refuse s a := by
  simp [linkWrite, hrun, h]

theorem linkRead_refused {s : State} {a : RegAcc} (hrun : s.running = true) (h : accessOk s a false = none) :
    linkRead s a = (0, refuse s a) := by
  simp [linkRead, hrun, h]

theorem exec_registerWrite (a : RegAcc) (s : State) : exec (.registerWrite a) s = .next (linkWrite s a) := rfl

theorem exec_registerWrite_admitted {s : State} {a : RegAcc} {n k p : Nat} {x : Dword} (h : WritesReg s a n k p x) :
    exec (.registerWrite a) s = .next ((regWrite s a.who p n k x).getD s) := by
  rw [exec_registerWrite, linkWrite_admitted h]

theorem exec_refusedRegisterRead {s : State} {a : RegAcc} (hrun : s.running = true) (hsize : a.size = 8)
    (h : accessOk s a false = none) : exec (.refusedRegisterRead a) s = .next (replied (refuse s a) 0) := by
  change Host.Outcome.next (if (accessOk s a false).isNone then linkReply a (linkRead s a) else s) = _
  rw [linkRead_refused hrun h, h, linkReply, hsize]
  rfl

/-- R390: the first access of a virtual function that is refused stands in HLK_ERR of its partition. -/
theorem sysGet_refuse_vf {s : State} {a : RegAcc} {v : BitVec 3} (hw : a.who = .vf v)
    (hfree : sysBits s RegNo.hlkErr v.toNat 63 63 = 0) :
    sysGet (refuse s a) RegNo.hlkErr v.toNat = BitVec.ofNat 64 (2 ^ 63 + barOffset a % 2 ^ 57) := by
  have h : sysGet (hlkErr s v.toNat 0 (barOffset a)) RegNo.hlkErr v.toNat
      = BitVec.ofNat 64 (2 ^ 63 + 0 * 2 ^ 60 + barOffset a % 2 ^ 57) := by
    rw [hlkErr, if_neg (by omega)]
    exact sysGet_sysPut_same ..
  simpa only [refuse, hw, Nat.zero_mul, Nat.add_zero] using h

/-- A plain write of one of these registers sets its RW bits alone. -/
theorem exec_registerWrite_plain {s : State} {a : RegAcc} {n k p : Nat} {x : Dword} {i : RegInfo} (hn : n ∈ plainRegs)
    (hi : regInfo n = some i) (h : WritesReg s a n k p x) : exec (.registerWrite a) s =
      .next (sysPut s n k ((sysGet s n k &&& ~~~BitVec.ofNat 64 i.rw) ||| (x &&& BitVec.ofNat 64 i.rw))) := by
  rw [exec_registerWrite_admitted h, regWrite_plain hn, Option.getD_some, plainWrite, hi]
  simp only [regStored_plain hn]

/-- Settles O35: csrr and csrw by their one active thread, the accesses over the link, and the plain writes, each by its
lemma. -/
theorem systemRegisters : Obligations.SystemRegisters := by
  refine ⟨fun a b s t h => ⟨exec_csrr_priv h, fun k => exec_csrr h⟩,
    fun a b s t h => ⟨exec_csrw_priv h, fun k i hk hi => ⟨fun s' hw => ?_, fun hw => ?_⟩⟩,
    fun a b s t => exec_csrw_held,
    fun s t n old h => noteWindow_of_no_window h s t old,
    fun s t core n h => csrInst_of_no_register h s t core,
    fun s t core n i h hm => csrInst_of_mOnly h hm s t core,
    fun s t core n i h hm => ?_,
    fun s p k n h => ⟨?_, ?_⟩,
    fun s a n k p x => exec_registerWrite_admitted,
    fun s a hrun h => by rw [exec_registerWrite, linkWrite_refused hrun h],
    fun s a => exec_refusedRegisterRead,
    fun s v a => sysGet_refuse_vf,
    fun n hn i hi s a k p x => exec_registerWrite_plain hn hi⟩
  · have he := exec_csrw h hk hi
    simp only [csrwValue] at he
    rw [he, hw]
  · have he := exec_csrw h hk hi
    simp only [csrwValue] at he
    rw [he, hw]
  · rw [csrInst_eq h]
    exact coreInst_of_not_mOnly hm s (s.partOf t) core n
  · rw [RegNo.evc, regRead_disp (by omega) (by omega)]
  · rw [RegNo.pmc, regRead_disp (by omega) (by omega)]

end Sys2Proof.Machine

/-! ### A step and its decoded instruction (O55) -/

namespace Sys2Proof.Machine

/-- R292: a prompter executes no word of a job that it has not begun. -/
theorem promptWord_of_unbegun {s : State} {d n : Nat} (h : ∀ j ∈ (prompterOf s d n).jobs, j.begun = false) :
    promptWord s d n = (none, s) := by
  have hopen : ((prompterOf s d n).jobs.zipIdx.filter fun e => e.1.begun && !e.1.finished) = [] := by
    refine List.filter_eq_nil_iff.2 fun e he => ?_
    simp [h e.1 (List.fst_mem_of_mem_zipIdx he)]
  simp [promptWord, hopen]

/-- A job popped and not begun (R292): it stands behind an earlier one of its slot, its sequence descriptor unread; its
program holds the word `mode 0`. -/
def unbegunJob : Job := { Job.ofDesc 0 0 0 [] with prog := [0x2400_0000_0000_0000] }

/-- Prompter 0 of die 0, with that one job, is to execute its next word. -/
def unbegunState : State :=
  { onPrompter State.reset 0 0 fun x => { x with jobs := [unbegunJob] } with agenda := [⟨0, .prompt 0 0⟩] }

/-- The places in their programs of the jobs of prompter 0 of die 0. -/
def jobPlaces (o : Host.Outcome State Fault Refusal) : List Nat :=
  match o with
  | .next s => (prompterOf s 0 0).jobs.map Job.ip
  | _ => []

theorem jobPlaces_step_unbegun : jobPlaces (step unbegunState) = [0] := by
  have hstep : step unbegunState = runIssue (promptWord { unbegunState with agenda := [], issue := .none } 0 0) := rfl
  have hjob : ∀ j ∈ (prompterOf { unbegunState with agenda := [], issue := .none } 0 0).jobs, j.begun = false := by
    intro j hj
    rw [show j = unbegunJob from List.mem_singleton.1 hj]
    rfl
  rw [hstep, promptWord_of_unbegun hjob]
  rfl

/-- Refutes O55: its last clause asks that a prompter execute the program word at the place of its one unfinished job,
whether or not the job has been begun. A job whose sequence descriptor is not yet read (R292) is passed over by
`promptWord`, so it stays at place 0, where the word, executed, would move it to place 1. -/
theorem not_stepRunsDecoded : ¬ Obligations.StepRunsDecoded := by
  unfold Obligations.StepRunsDecoded
  rintro ⟨-, -, -, -, hprompt⟩
  have hmode : decodeLogit (unbegunJob.prog.getD unbegunJob.ip 0) = .ok (.logitMode ⟨0, 0, 0, 0, false, .eq, 0⟩) := by
    decide
  have h := congrArg jobPlaces (hprompt unbegunState 0 0 0 [] unbegunJob _ rfl rfl rfl hmode)
  rw [jobPlaces_step_unbegun] at h
  exact absurd h (by decide)

end Sys2Proof.Machine

/-! ### What ending waits leaves as it was (R27, R43, R45, R128, R245) -/

namespace Sys2Proof.Machine

/-- None of some threads is held by anything. -/
def Unheld (K : Nat → Prop) (s : State) : Prop := ∀ t, K t → (s.thread t).why = .none

/-- The two states differ at most in what held threads that are not of `K`, where those stand, snapshots, arrivals at
masks and barriers, convergence registers and the reservation tables, and blocks queued for relaunch. -/
structure Wakes (K : Nat → Prop) (s s' : State) : Prop where
  rest : { s' with threads := s.threads, groups := s.groups, blocks := s.blocks, clusters := s.clusters, ctr := s.ctr } = s
  has : ∀ t, s'.threads.has t = s.threads.has t
  thread : ∀ t, { s'.thread t with held := (s.thread t).held, why := (s.thread t).why, pc := (s.thread t).pc,
                                   snap := (s.thread t).snap, readyAt := (s.thread t).readyAt,
                                   passed := (s.thread t).passed } = s.thread t
  kept : ∀ t, K t → (s'.thread t).held = (s.thread t).held ∧ (s'.thread t).why = (s.thread t).why
  group : ∀ g, { s'.group g with m := (s.group g).m } = s.group g
  members : ∀ g n, (maskOf (s'.group g) n).m = (maskOf (s.group g) n).m
  arrived : ∀ g n i, (maskOf (s.group g) n).a.getLsbD i = false → (maskOf (s'.group g) n).a.getLsbD i = false
  block : ∀ b, { s'.block b with save := (s.block b).save, cvs := (s.block b).cvs, bars := (s.block b).bars } = s.block b
  resident : ∀ b, (s.block b).save = .resident → (s'.block b).save = .resident

namespace Wakes

variable {K : Nat → Prop} {s s' s'' : State}

theorem refl (s : State) : Wakes K s s :=
  ⟨rfl, fun _ => rfl, fun _ => rfl, fun _ _ => ⟨rfl, rfl⟩, fun _ => rfl, fun _ _ => rfl, fun _ _ _ h => h, fun _ => rfl, fun _ h => h⟩

theorem trans (h : Wakes K s s') (h' : Wakes K s' s'') : Wakes K s s'' where
  rest := by have := h'.rest; rw [← h.rest, ← this]
  has t := (h'.has t).trans (h.has t)
  thread t := by have := h'.thread t; rw [← h.thread t, ← this]
  kept t ht := ⟨(h'.kept t ht).1.trans (h.kept t ht).1, (h'.kept t ht).2.trans (h.kept t ht).2⟩
  group g := by have := h'.group g; rw [← h.group g, ← this]
  members g n := (h'.members g n).trans (h.members g n)
  arrived g n i hi := h'.arrived g n i (h.arrived g n i hi)
  block b := by have := h'.block b; rw [← h.block b, ← this]
  resident b hb := h'.resident b (h.resident b hb)

theorem unheld (h : Wakes K s s') (hK : Unheld K s) : Unheld K s' := fun t ht => ((h.kept t ht).2).trans (hK t ht)

theorem foldl {α : Type} {f : State → α → State} (hf : ∀ s x, Unheld K s → Wakes K s (f s x)) (l : List α) :
    ∀ s, Unheld K s → Wakes K s (l.foldl f s) := by
  induction l with
  | nil => exact fun s _ => refl s
  | cons x l ih => exact fun s hs => (hf s x hs).trans (ih _ ((hf s x hs).unheld hs))

theorem threadGroup (h : Wakes K s s') (t : Nat) : (s'.thread t).group = (s.thread t).group := by
  have := congrArg Thread.group (h.thread t); exact this
theorem lane (h : Wakes K s s') (t : Nat) : (s'.thread t).lane = (s.thread t).lane := by
  have := congrArg Thread.lane (h.thread t); exact this
theorem v (h : Wakes K s s') (t : Nat) : (s'.thread t).v = (s.thread t).v := by
  have := congrArg Thread.v (h.thread t); exact this
theorem p (h : Wakes K s s') (t : Nat) : (s'.thread t).p = (s.thread t).p := by
  have := congrArg Thread.p (h.thread t); exact this
theorem dc (h : Wakes K s s') (t : Nat) : (s'.thread t).dc = (s.thread t).dc := by
  have := congrArg Thread.dc (h.thread t); exact this
theorem freePass (h : Wakes K s s') (t : Nat) : (s'.thread t).freePass = (s.thread t).freePass := by
  have := congrArg Thread.freePass (h.thread t); exact this
theorem k (h : Wakes K s s') (g : Nat) : (s'.group g).k = (s.group g).k := by
  have := congrArg Group.k (h.group g); exact this
theorem fsr (h : Wakes K s s') (g : Nat) : (s'.group g).fsr = (s.group g).fsr := by
  have := congrArg Group.fsr (h.group g); exact this
theorem core (h : Wakes K s s') (g : Nat) : (s'.group g).core = (s.group g).core := by
  have := congrArg Group.core (h.group g); exact this
theorem withdrawn (h : Wakes K s s') (b : Nat) : (s'.block b).withdrawn = (s.block b).withdrawn := by
  have := congrArg Block.withdrawn (h.block b); exact this
theorem cores (h : Wakes K s s') : s'.cores = s.cores := by have := congrArg State.cores h.rest; exact this
theorem launches (h : Wakes K s s') : s'.launches = s.launches := by have := congrArg State.launches h.rest; exact this
theorem parts (h : Wakes K s s') : s'.parts = s.parts := by have := congrArg State.parts h.rest; exact this
theorem sys (h : Wakes K s s') : s'.sys = s.sys := by have := congrArg State.sys h.rest; exact this
theorem hbm (h : Wakes K s s') : s'.hbm = s.hbm := by have := congrArg State.hbm h.rest; exact this
theorem flats (h : Wakes K s s') : s'.flats = s.flats := by have := congrArg State.flats h.rest; exact this
theorem loft (h : Wakes K s s') : s'.loft = s.loft := by have := congrArg State.loft h.rest; exact this
theorem host (h : Wakes K s s') : s'.host = s.host := by have := congrArg State.host h.rest; exact this

/-- Free values spent. -/
theorem ctr (s : State) (n : Nat) : Wakes K s { s with ctr := n } :=
  ⟨rfl, fun _ => rfl, fun _ => rfl, fun _ _ => ⟨rfl, rfl⟩, fun _ => rfl, fun _ _ => rfl, fun _ _ _ h => h, fun _ => rfl, fun _ h => h⟩

/-- A change of the reservation tables. -/
theorem onCluster (s : State) (c : Nat) (f : Cluster → Cluster) : Wakes K s (s.onCluster c f) :=
  ⟨rfl, fun _ => rfl, fun _ => rfl, fun _ _ => ⟨rfl, rfl⟩, fun _ => rfl, fun _ _ => rfl, fun _ _ _ h => h, fun _ => rfl, fun _ h => h⟩

/-- A change of one thread, in what holds it and where it stands, if it is not of `K`. -/
theorem onThread (s : State) (t : Nat) (f : Thread → Thread)
    (hf : ∀ x, { f x with held := x.held, why := x.why, pc := x.pc, snap := x.snap, readyAt := x.readyAt, passed := x.passed } = x)
    (hk : K t → ∀ x, (f x).held = x.held ∧ (f x).why = x.why) : Wakes K s (s.onThread t f) := by
  have key : ∀ u, (s.onThread t f).thread u = s.thread u ∨ u = t ∧ (s.onThread t f).thread u = f (s.thread u) := fun u => by
    simp only [State.thread, State.onThread, Sparse.findD, Sparse.find?_modify]
    by_cases hu : u = t
    · cases h : s.threads.find? u <;> simp [hu]
    · simp [hu]
  refine ⟨rfl, fun u => by simp, fun u => ?_, fun u hu => ?_, fun _ => rfl, fun _ _ => rfl, fun _ _ _ h => h, fun _ => rfl, fun _ h => h⟩
  · rcases key u with h | ⟨-, h⟩ <;> rw [h]
    exact hf _
  · rcases key u with h | ⟨rfl, h⟩ <;> rw [h]
    · exact ⟨rfl, rfl⟩
    · exact hk hu _

/-- Snapshots extended. -/
theorem onThreads_snap (s : State) (ts : List Nat) (f : Nat → Thread → Snap) :
    Wakes K s (s.onThreads ts fun t th => { th with snap := f t th }) := by
  refine ⟨rfl, fun u => by simp, fun u => ?_, fun u hu => ?_, fun _ => rfl, fun _ _ => rfl, fun _ _ _ h => h, fun _ => rfl, fun _ h => h⟩
  · rw [thread_onThreads]; split <;> rfl
  · rw [thread_onThreads]; split <;> exact ⟨rfl, rfl⟩

/-- A change of a block's barriers and convergence registers, or of one that is saved to one that is queued. -/
theorem onBlock (s : State) (b : Nat) (f : Block → Block)
    (hf : ∀ x, { f x with save := x.save, cvs := x.cvs, bars := x.bars } = x)
    (hr : ∀ x, x.save = .resident → (f x).save = .resident) : Wakes K s (s.onBlock b f) := by
  have key : ∀ u, (s.onBlock b f).block u = s.block u ∨ (s.onBlock b f).block u = f (s.block u) := fun u => by
    simp only [State.block, State.onBlock, Sparse.findD, Sparse.find?_modify]
    by_cases hu : u = b
    · cases h : s.blocks.find? u <;> simp [hu]
    · simp [hu]
  refine ⟨rfl, fun _ => rfl, fun _ => rfl, fun _ _ => ⟨rfl, rfl⟩, fun _ => rfl, fun _ _ => rfl, fun _ _ _ h => h, fun u => ?_, fun u hu => ?_⟩
  · rcases key u with h | h <;> rw [h]
    exact hf _
  · rcases key u with h | h <;> rw [h]
    · exact hu
    · exact hr _ hu

/-- The arrivals at a mask cleared. -/
theorem setMask (s : State) (g n : Nat) (x : MaskReg) (hx : x = { maskOf (s.group g) n with a := 0 }) :
    Wakes K s (setMask s g n x) := by
  have key : ∀ u, (Machine.setMask s g n x).group u = s.group u ∨
      u = g ∧ (Machine.setMask s g n x).group u = { s.group u with m := (s.group u).m.set n x } := fun u => by
    by_cases hu : u = g
    · subst hu
      simp only [Machine.setMask, State.group, State.onGroup, Sparse.findD, Sparse.find?_modify, if_true]
      cases h : s.groups.find? u <;> simp
    · exact .inl (group_onGroup_ne s g u _ hu)
  have mask : ∀ u j, maskOf ((Machine.setMask s g n x).group u) j = maskOf (s.group u) j ∨
      maskOf ((Machine.setMask s g n x).group u) j = { maskOf (s.group u) j with a := 0 } := fun u j => by
    rcases key u with h | ⟨rfl, h⟩ <;> rw [h]
    · exact .inl rfl
    · simp only [maskOf, Sparse.findD_set]
      split
      · subst_vars; exact .inr rfl
      · exact .inl rfl
  refine ⟨rfl, fun _ => rfl, fun _ => rfl, fun _ _ => ⟨rfl, rfl⟩, fun u => ?_, fun u j => ?_, fun u j i hi => ?_, fun _ => rfl, fun _ h => h⟩
  · rcases key u with h | ⟨-, h⟩ <;> rw [h]
  · rcases mask u j with h | h <;> rw [h]
  · rcases mask u j with h | h <;> rw [h]
    · exact hi
    · simp

theorem extend (s : State) (t : Nat) (l : List Nat) : Wakes K s (extend s t l) := by
  have h := onThread (K := K) s t (fun th => { th with snap := { th.snap with need := unionN th.snap.need l } }) (fun _ => rfl)
    fun _ _ => ⟨rfl, rfl⟩
  unfold Machine.extend
  dsimp only
  split
  · exact h
  · split
    · exact (h.trans (ctr _ _)).trans (onThreads_snap _ _ _)
    · exact h.trans (ctr _ _)

theorem acquire (s : State) (t : Nat) (sc : Scope) (r : List Nat) (f : Bool) : Wakes K s (acquire s t sc r f) := extend s t _

theorem releaseSet (s : State) (t : Nat) : Wakes K s (releaseSet s t).2 := by
  unfold Machine.releaseSet
  dsimp only
  split
  · exact refl s
  · exact ctr s _

theorem syncAll (s : State) (ts : List Nat) : Wakes K s (syncAll s ts) := by
  have collect : ∀ (ts : List Nat) (a : List Nat × State),
      Wakes K a.2 (ts.foldl (fun (a : List Nat × State) t => (unionN a.1 (Machine.releaseSet a.2 t).1, (Machine.releaseSet a.2 t).2)) a).2 := by
    intro ts
    induction ts with
    | nil => exact fun a => refl a.2
    | cons t ts ih => exact fun a => (releaseSet a.2 t).trans (ih (unionN a.1 (Machine.releaseSet a.2 t).1, (Machine.releaseSet a.2 t).2))
  have spread : ∀ (l ts : List Nat) (s : State), Wakes K s (ts.foldl (fun s t => acquireOf s t l) s) := by
    intro l ts
    induction ts with
    | nil => exact refl
    | cons t ts ih => exact fun s => (extend s t l).trans (ih _)
  exact (collect ts ([], s)).trans (spread _ ts _)

theorem setReady (s : State) (t : Nat) (ht : ¬ K t) : Wakes K s (setReady s t) :=
  onThread s t _ (fun _ => rfl) fun h => absurd h ht

theorem queueBlock (s : State) (b : Nat) : Wakes K s (queueBlock s b) :=
  onBlock s b _ (fun _ => rfl) fun x hx => by simp only [hx]

/-- A thread that was held goes on. -/
theorem release8 (s : State) (t : Nat) (ht : ¬ K t) : Wakes K s (release8 s t) :=
  ((onThread s t (fun th => { th with pc := th.pc + 8 }) (fun _ => rfl) fun h => absurd h ht).trans (setReady _ t ht)).trans
    (queueBlock _ _)

theorem releaseAll (s : State) (ts : List Nat) (h : ∀ t ∈ ts, ¬ K t) : Wakes K s (ts.foldl Machine.release8 s) := by
  induction ts generalizing s with
  | nil => exact refl s
  | cons t ts ih => exact (release8 s t (h t (by simp))).trans (ih _ fun u hu => h u (by simp [hu]))

/-- check of a mask ends the waits of threads at that mask alone. -/
theorem checkMask (s : State) (g n : Nat) (hK : Unheld K s) : Wakes K s (checkMask s g n) := by
  unfold Machine.checkMask
  dsimp only
  split
  · have hfree : ∀ t ∈ (lanesIn s g (maskOf (s.group g) n).a).filter (fun t => (s.thread t).why == .mask n), ¬ K t :=
      fun t ht hk => by simp [hK t hk] at ht
    generalize (lanesIn s g (maskOf (s.group g) n).a).filter (fun t => (s.thread t).why == .mask n) = ts at hfree
    have hw := (syncAll (K := K) s ts).trans (releaseAll _ ts hfree)
    refine hw.trans (setMask _ g n _ ?_)
    dsimp only
    rw [hw.members g n]
  · exact refl s

/-- A block's barriers, whose check ends the waits of threads at that barrier alone. -/
theorem barRelease (s : State) (b id : Nat) (hK : Unheld K s) : Wakes K s (barRelease s b id) := by
  have hfree : ∀ t ∈ barWaiters s b id, ¬ K t := fun t ht hk => by simp [barWaiters, hK t hk] at ht
  exact ((syncAll s _).trans (releaseAll _ _ hfree)).trans (onBlock _ _ _ (fun _ => rfl) fun _ h => h)

theorem barCheck (s : State) (b id : Nat) (hK : Unheld K s) : Wakes K s (barCheck s b id) := by
  unfold Machine.barCheck
  dsimp only
  split
  · exact refl s
  · split
    · split
      · exact barRelease s b id hK
      · exact refl s
    · split
      · exact barRelease s b id hK
      · exact refl s

theorem cvCheck (s : State) (b n : Nat) : Wakes K s (cvCheck s b n) := by
  have set : ∀ x, Wakes K s (setCv s b n x) := fun x => onBlock s b _ (fun _ => rfl) fun _ h => h
  unfold Machine.cvCheck
  dsimp only
  generalize (if (cvOf s b n).need = 0 then (s.blockLive b).length else (cvOf s b n).need) = need
  split
  · split
    · exact set _
    · exact (set _).trans (onCluster _ _ _)
  · exact refl s

/-- R334: the checks due as a thread resumes. -/
theorem resumeChecks (s : State) (t : Nat) (hK : Unheld K s) : Wakes K s (resumeChecks s t) :=
  foldl (fun s _ hs => checkMask s _ _ hs) _ s hK

end Wakes

end Sys2Proof.Machine

/-! ### exit, suspend and signal (O26) -/

namespace Sys2Proof.Machine

/-! ### exit (R45, R251) -/

/-- A thread EXITED, its bits gone from its group's masks and its part in gathers, before the checks that follow. -/
def exited (s : State) (t : Nat) : State :=
  let bit : Word := 1#32 <<< (s.thread t).lane
  (s.onThread t fun x =>
    { x with held := .exited, why := .none, tc := false, dc := false,
             ports := x.ports.filter fun p _ => decide (4 ≤ p)
             out := x.out.filter fun (r : Req) => match r.acc with
               | .qload _ => false
               | _ => true }).onGroup (s.thread t).group fun x =>
    { x with
      m := x.m.mapKV fun _ y => { y with m := y.m &&& ~~~bit, a := y.a &&& ~~~bit }
      gathers := x.gathers.map fun y => { y with parts := y.parts.filter (· != t), arrived := y.arrived.filter (· != t) } }

theorem exited_thread {s : State} {t : Nat} (hh : s.threads.has t = true) :
    ((exited s t).thread t).held = .exited ∧ ((exited s t).thread t).why = .none := by
  rw [exited, thread_onGroup, thread_onThread_self _ _ _ hh]
  exact ⟨rfl, rfl⟩

theorem exited_regs (s : State) (t u : Nat) :
    ((exited s t).thread u).v = (s.thread u).v ∧ ((exited s t).thread u).p = (s.thread u).p ∧
      ((exited s t).thread u).group = (s.thread u).group := by
  rw [exited, thread_onGroup]
  by_cases h : u = t
  · subst h
    cases hx : s.threads.find? u <;> simp [State.thread, State.onThread, Sparse.findD, hx]
  · rw [thread_onThread_ne _ _ _ _ h]
    exact ⟨rfl, rfl, rfl⟩

theorem exited_uniform (s : State) (t g : Nat) :
    ((exited s t).group g).k = (s.group g).k ∧ ((exited s t).group g).fsr = (s.group g).fsr := by
  rw [exited]
  by_cases h : g = (s.thread t).group
  · subst h
    cases hx : s.groups.find? (s.thread t).group <;> simp [State.group, State.onGroup, Sparse.findD, hx]
  · rw [group_onGroup_ne _ _ _ _ h]
    exact ⟨rfl, rfl⟩

/-- A lane's bit leaves a word. -/
theorem getLsbD_and_not_lane (x : Word) (l : Nat) : (x &&& ~~~(1#32 <<< l)).getLsbD l = false := by
  by_cases h : l < 32
  · simp [h]
  · simp [BitVec.getLsbD_of_ge x l (by omega)]

/-- A thread that exits is no member of any mask, and has arrived at none. -/
theorem exited_mask {s : State} {t : Nat} (hg : s.groups.has (s.thread t).group = true) (n : Nat) :
    (maskOf ((exited s t).group (s.thread t).group) n).m.getLsbD (s.thread t).lane = false ∧
    (maskOf ((exited s t).group (s.thread t).group) n).a.getLsbD (s.thread t).lane = false := by
  rw [exited, group_onGroup _ _ _ _ (by exact hg), if_pos rfl]
  simp only [maskOf, Sparse.findD, Sparse.find?_mapKV, group_onThread]
  cases (s.group (s.thread t).group).m.find? n with
  | none => simp [MaskReg.zero]
  | some x => exact ⟨getLsbD_and_not_lane _ _, getLsbD_and_not_lane _ _⟩

/-- The checks that an exit makes due end no wait of the thread itself: it waits for nothing any more. -/
theorem exitThread_wakes {s : State} {t : Nat} (hh : s.threads.has t = true) :
    Wakes (· = t) (exited s t) (exitThread s t) := by
  have hfree : Unheld (· = t) (exited s t) := fun u hu => hu ▸ (exited_thread hh).2
  have hmasks := Wakes.foldl (K := (· = t)) (fun s' n hs => Wakes.checkMask s' (s.thread t).group n hs) (List.range 12) _ hfree
  have hbars := Wakes.foldl (K := (· = t)) (fun s' n hs => Wakes.barCheck s' (s.blockIdOf t) n hs) (List.range 16) _ (hmasks.unheld hfree)
  have hcvs := Wakes.foldl (K := (· = t)) (fun s' n _ => Wakes.cvCheck s' (s.blockIdOf t) n) (List.range 16) _ (hbars.unheld (hmasks.unheld hfree))
  have hchecks := (hmasks.trans hbars).trans hcvs
  unfold exitThread
  dsimp only
  split
  · exact hchecks.trans (Wakes.onCluster _ _ _)
  · exact hchecks

/-- R251: what the exit of a thread leaves. -/
theorem exitThread_spec {s : State} {t : Nat} (hh : s.threads.has t = true) (hg : s.groups.has (s.thread t).group = true) :
    let s' := exitThread s t
    (s'.thread t).held = .exited ∧
    (∀ n, (maskOf (s'.groupOf t) n).m.getLsbD (s.thread t).lane = false ∧ (maskOf (s'.groupOf t) n).a.getLsbD (s.thread t).lane = false) ∧
    (∀ u, (s'.thread u).v = (s.thread u).v ∧ (s'.thread u).p = (s.thread u).p) ∧
    (∀ g, (s'.group g).k = (s.group g).k ∧ (s'.group g).fsr = (s.group g).fsr) ∧
    s'.hbm = s.hbm ∧ s'.flats = s.flats ∧ s'.loft = s.loft ∧ s'.host = s.host ∧ s'.sys = s.sys := by
  intro s'
  have hw : Wakes (· = t) (exited s t) s' := exitThread_wakes hh
  have hgrp : s'.groupOf t = s'.group (s.thread t).group := by
    rw [State.groupOf, hw.threadGroup, (exited_regs s t t).2.2]
  refine ⟨(hw.kept t rfl).1.trans (exited_thread hh).1, fun n => ?_, fun u => ?_, fun g => ?_, hw.hbm, hw.flats, hw.loft, hw.host, hw.sys⟩
  · obtain ⟨hm, ha⟩ := exited_mask hg n
    rw [hgrp, hw.members]
    exact ⟨hm, hw.arrived _ _ _ ha⟩
  · obtain ⟨hv, hp, -⟩ := exited_regs s t u
    exact ⟨(hw.v u).trans hv, (hw.p u).trans hp⟩
  · obtain ⟨hk, hf⟩ := exited_uniform s t g
    exact ⟨(hw.k g).trans hk, (hw.fsr g).trans hf⟩

/-- exit by its one active thread. -/
theorem exec_exit {a : Guard} {b : Bundle} {s : State} {t : Nat} (h : Sole (.exit a) b s t) :
    exec (.exit a) s = .next (exitThread (afterIssue b s) t) := by
  obtain ⟨-, -, -, hready⟩ := h.thread
  change execExit a s = _
  rw [execExit, word_sole h rfl, if_neg (by simp [hready])]

/-- exit behind results that its thread awaits is held till they are written. -/
theorem exec_exit_held {a : Guard} {b : Bundle} {s : State} {t : Nat} (h : Alone (.exit a) b s t)
    (hp : pendingHazard s t (usesOf (.exit a)) (guardOf (.exit a)) true = false) (hr : replayHold s t (.exit a) = none)
    (hd : (s.thread t).pend ≠ []) : exec (.exit a) s = .next (heldAt b s t .drain) := by
  refine exec_held ⟨rfl, rfl⟩ h .drain ?_ fun p hp => nomatch hp
  have hg : guardHolds (guardOf (.exit a)) (s.thread t) = true := h.guarded
  have hports : portHazard (s.thread t) (usesOf (.exit a)) = none := rfl
  have hm : mustDrain s (.exit a) t = true := by simp [mustDrain, memVa, hd]
  simp [waitsFor, hg, hp, hr, hports, hm, isXop]

/-! ### suspend (R253) -/

/-- Two states that differ in snapshots and free values spent alone. -/
structure SnapsOnly (s s' : State) : Prop where
  thread : ∀ u, s'.thread u = { s.thread u with snap := (s'.thread u).snap }
  rest : { s' with threads := s.threads, ctr := s.ctr } = s

theorem SnapsOnly.trans {s s' s'' : State} (h : SnapsOnly s s') (h' : SnapsOnly s' s'') : SnapsOnly s s'' where
  thread u := by rw [h'.thread u, h.thread u]
  rest := by have := h'.rest; rw [← h.rest, ← this]

theorem SnapsOnly.ctr (s : State) (n : Nat) : SnapsOnly s { s with ctr := n } := ⟨fun _ => rfl, rfl⟩

/-- An acquire changes snapshots alone (R121). -/
theorem SnapsOnly.extend (s : State) (t : Nat) (l : List Nat) : SnapsOnly s (extend s t l) := by
  have own : SnapsOnly s (s.onThread t fun th => { th with snap := { th.snap with need := unionN th.snap.need l } }) := by
    refine ⟨fun u => ?_, rfl⟩
    by_cases hu : u = t
    · subst hu
      cases hx : s.threads.find? u <;> simp [State.thread, State.onThread, Sparse.findD, hx]
    · rw [thread_onThread_ne _ _ _ _ hu]
  have others : ∀ (s : State) ts (f : Nat → Thread → Snap), SnapsOnly s (s.onThreads ts fun u th => { th with snap := f u th }) :=
    fun s ts f => ⟨fun u => by rw [thread_onThreads]; split <;> rfl, rfl⟩
  unfold Machine.extend
  dsimp only
  split
  · exact own
  · split
    · exact (own.trans (SnapsOnly.ctr _ _)).trans (others _ _ _)
    · exact own.trans (SnapsOnly.ctr _ _)

theorem SnapsOnly.acquire (s : State) (t : Nat) (sc : Scope) (r : List Nat) (f : Bool) : SnapsOnly s (acquire s t sc r f) :=
  SnapsOnly.extend s t _

theorem exec_suspend {a : Guard} {b : Bundle} {s : State} {t : Nat} (h : Sole (.suspend a) b s t) :
    let s0 := afterIssue b s
    let k := s0.blockIdOf t
    exec (.suspend a) s = .next (if (s0.block k).signal then acquire (s0.onBlock k fun x => { x with signal := false }) t .dev [] false
      else waitingAt b s t .suspend) := by
  change execSuspend a s = _
  rw [execSuspend, word_sole h rfl]
  rfl

/-- A pending signal is taken: the block has none any more, and nothing but snapshots changes beside it. -/
theorem takeSignal_spec {s : State} {k : Nat} (t : Nat) (hs : (s.block k).signal = true) :
    let s' := acquire (s.onBlock k fun x => { x with signal := false }) t .dev [] false
    s'.block k = { s.block k with signal := false } ∧ (∀ u, s'.thread u = { s.thread u with snap := (s'.thread u).snap }) ∧
      { s' with threads := s.threads, blocks := s.blocks, ctr := s.ctr } = s := by
  intro s'
  have hk : s.blocks.has k = true := by
    by_contra hn
    have hnone : s.blocks.find? k = none := by simpa [Sparse.has] using hn
    simp [State.block, Sparse.findD, hnone, Block.fresh] at hs
  have hw : SnapsOnly (s.onBlock k fun x => { x with signal := false }) s' := SnapsOnly.acquire _ t .dev [] false
  refine ⟨?_, hw.thread, ?_⟩
  · have hb := congrArg (fun x : State => x.block k) hw.rest
    exact hb.trans ((block_onBlock s k k _ hk).trans (if_pos rfl))
  · exact congrArg (fun x : State => { x with blocks := s.blocks }) hw.rest

/-! ### signal (R253) -/

/-- A release spends free values and enters the history; it changes nothing else (R120). -/
theorem release_eq (s : State) (t : Nat) (sc : Scope) (f : Bool) (own : List Nat) :
    ∃ h n, (release s t sc f own).2 = { s with hist := h, ctr := n } := by
  unfold release publish releaseSet
  dsimp only
  split <;> exact ⟨_, _, rfl⟩

/-- A signal to a block that stands with threads: it is left pending where none is suspended; else they go on. -/
theorem signalTo_eq {s : State} {l stage n k : Nat} {y : Block} (hstage : stage < (s.launch l).pkt.stages)
    (hn : n < (s.launch l).pkt.gx * (s.launch l).pkt.gy * (s.launch l).pkt.gz)
    (hy : (s.blocks.items.find? fun e => e.2.launch == l && e.2.lin == n && e.2.stage == stage) = some (k, y)) (hlive : s.blockLive k ≠ []) :
    signalTo s l stage n = if (y.threads.filter fun t => (s.thread t).why == .suspend).isEmpty then s.onBlock k fun z => { z with signal := true }
      else (y.threads.filter fun t => (s.thread t).why == .suspend).foldl (fun s t => release8 (acquire s t .dev [] false) t) s := by
  unfold signalTo
  simp only [hy]
  rw [if_neg (by omega), if_neg (by simpa using hlive)]

/-- A released thread is READY behind its word; no other thread moves. -/
theorem release8_thread {s : State} {t : Nat} (hh : s.threads.has t = true) :
    ((release8 s t).thread t).held = .ready ∧ ((release8 s t).thread t).pc = (s.thread t).pc + 8 := by
  have hh' : (s.onThread t fun th => { th with pc := th.pc + 8 }).threads.has t = true := by simpa using hh
  rw [release8, queueBlock, thread_onBlock, setReady, thread_onThread_self _ _ _ hh', thread_onThread_self _ _ _ hh]
  exact ⟨rfl, rfl⟩

theorem release8_thread_ne (s : State) {t u : Nat} (h : u ≠ t) : (release8 s t).thread u = s.thread u := by
  rw [release8, queueBlock, thread_onBlock, setReady, thread_onThread_ne _ _ _ _ h, thread_onThread_ne _ _ _ _ h]

/-- Suspended threads that a signal lets go on: each acquires what was released and goes on behind its word. -/
theorem wakeSuspended_spec (ts : List Nat) (s : State) (hn : ts.Nodup) :
    let s' := ts.foldl (fun s t => release8 (acquire s t .dev [] false) t) s
    (∀ u ∈ ts, s.threads.has u = true → (s'.thread u).held = .ready ∧ (s'.thread u).pc = (s.thread u).pc + 8) ∧
    (∀ u, u ∉ ts → (s'.thread u).held = (s.thread u).held ∧ (s'.thread u).pc = (s.thread u).pc) ∧
    (∀ u, (s'.thread u).v = (s.thread u).v) ∧ { s' with threads := s.threads, blocks := s.blocks, ctr := s.ctr } = s := by
  induction ts generalizing s with
  | nil => exact ⟨fun _ h => absurd h (by simp), fun _ _ => ⟨rfl, rfl⟩, fun _ => rfl, rfl⟩
  | cons t ts ih =>
    obtain ⟨ht, hts⟩ := List.nodup_cons.1 hn
    have hacq := SnapsOnly.acquire s t .dev [] false
    have hw := (Wakes.acquire (K := fun _ => False) s t .dev [] false).trans (Wakes.release8 _ t id)
    obtain ⟨hin, hout, hv, hrest⟩ := ih (release8 (acquire s t .dev [] false) t) hts
    have hsame : ∀ u, ((acquire s t .dev [] false).thread u).held = (s.thread u).held ∧
        ((acquire s t .dev [] false).thread u).pc = (s.thread u).pc := fun u => by rw [hacq.thread u]; exact ⟨rfl, rfl⟩
    have hother : ∀ u, u ≠ t → ((release8 (acquire s t .dev [] false) t).thread u).held = (s.thread u).held ∧
        ((release8 (acquire s t .dev [] false) t).thread u).pc = (s.thread u).pc := fun u hu => by
      rw [release8_thread_ne _ hu]
      exact hsame u
    refine ⟨fun u hu hh => ?_, fun u hu => ?_, fun u => (hv u).trans (hw.v u), ?_⟩
    · rw [List.foldl_cons]
      by_cases hut : u = t
      · subst hut
        have hself := release8_thread (s := acquire s u .dev [] false) (t := u) (by
          rw [(Wakes.acquire (K := fun _ => False) s u .dev [] false).has u]; exact hh)
        rw [(hout u ht).1, (hout u ht).2, hself.1, hself.2, (hsame u).2]
        exact ⟨rfl, rfl⟩
      · have hmem : u ∈ ts := (List.mem_cons.1 hu).resolve_left hut
        obtain ⟨h1, h2⟩ := hin u hmem (by rw [hw.has u]; exact hh)
        exact ⟨h1, h2.trans (by rw [(hother u hut).2])⟩
    · obtain ⟨hne, hnot⟩ := not_or.1 (mt List.mem_cons.2 hu)
      exact ⟨((hout u hnot).1).trans (hother u hne).1, ((hout u hnot).2).trans (hother u hne).2⟩
    · have h1 := congrArg (fun x : State => { x with threads := s.threads, blocks := s.blocks, ctr := s.ctr }) hrest
      exact h1.trans (congrArg (fun x : State => { x with blocks := s.blocks }) hacq.rest)

/-- R253: what a signal to a block that stands with threads leaves. -/
theorem signalTo_spec {s : State} {l stage n k : Nat} {y : Block} (hstage : stage < (s.launch l).pkt.stages)
    (hn : n < (s.launch l).pkt.gx * (s.launch l).pkt.gy * (s.launch l).pkt.gz) (hk : s.blocks.find? k = some y)
    (hy : (s.blocks.items.find? fun e => e.2.launch == l && e.2.lin == n && e.2.stage == stage) = some (k, y))
    (hlive : s.blockLive k ≠ []) (hnodup : y.threads.Nodup) :
    let s' := signalTo s l stage n
    ((∀ u ∈ y.threads, (s.thread u).why ≠ .suspend) → s'.block k = { y with signal := true } ∧ s'.threads = s.threads) ∧
    (∀ u ∈ y.threads, s.threads.has u = true → (s.thread u).why = .suspend →
      (s'.thread u).held = .ready ∧ (s'.thread u).pc = (s.thread u).pc + 8 ∧ (s'.thread u).v = (s.thread u).v) ∧
    s'.groups = s.groups ∧ s'.hbm = s.hbm ∧ s'.flats = s.flats ∧ s'.sys = s.sys := by
  intro s'
  have he : s' = _ := signalTo_eq hstage hn hy hlive
  obtain hts | hts := eq_or_ne (y.threads.filter fun t => (s.thread t).why == .suspend) []
  · rw [he, hts]
    have hnone : ∀ u ∈ y.threads, (s.thread u).why ≠ .suspend := fun u hu hw => by
      simpa [hw] using List.filter_eq_nil_iff.1 hts u hu
    rw [if_pos (by rfl)]
    refine ⟨fun _ => ⟨?_, rfl⟩, fun u hu _ hw => absurd hw (hnone u hu), rfl, rfl, rfl, rfl⟩
    have hb : s.block k = y := Sparse.findD_of_find? hk _
    exact (block_onBlock s k k _ ((Sparse.has_iff _ _).2 ⟨y, hk⟩)).trans (by rw [if_pos rfl, hb])
  · rw [if_neg (by simpa using hts)] at he
    obtain ⟨hin, -, hv, hrest⟩ := wakeSuspended_spec _ s (hnodup.filter fun t => (s.thread t).why == .suspend)
    rw [← he] at hin hv hrest
    refine ⟨fun hnone => absurd ?_ hts, fun u hu hh hw => ?_, (congrArg State.groups hrest :), (congrArg State.hbm hrest :),
      (congrArg State.flats hrest :), (congrArg State.sys hrest :)⟩
    · exact List.filter_eq_nil_iff.2 fun u hu => by simpa using hnone u hu
    · obtain ⟨h1, h2⟩ := hin u (List.mem_filter.2 ⟨hu, by simp [hw]⟩) hh
      exact ⟨h1, h2, hv u⟩

theorem exec_signal {a : SignalArgs} {b : Bundle} {s : State} {t : Nat} (h : Sole (.signal a) b s t) :
    let s0 := afterIssue b s
    exec (.signal a) s = .next (signalTo (release s0 t .dev false []).2 (s0.launchIdOf t) a.stage.toNat ((envOf s0 t).base1 a.a).toNat) := by
  intro s0
  have hr : releaseMem s0 t .dev false = release s0 t .dev false [] := by
    unfold releaseMem
    simp
  have hl : (release s0 t .dev false []).2.launchIdOf t = s0.launchIdOf t := by
    obtain ⟨_, _, he⟩ := release_eq s0 t .dev false []
    rw [he]
    rfl
  change execSignal a s = _
  rw [execSignal, word_sole h rfl]
  change Host.Outcome.next (signalTo (releaseMem s0 t .dev false).2 ((releaseMem s0 t .dev false).2.launchIdOf t) _ _) = _
  rw [hr, hl]

/-- Settles O26: exit, suspend and signal by their one active thread, each by its lemma. -/
theorem exitSuspendSignal : Obligations.ExitSuspendSignal := by
  refine ⟨fun a b s t h => ?_, fun a b s t => exec_exit_held, fun a b s t h => ?_, fun a b s t k y h => ?_⟩
  · obtain ⟨hmem, hh, -, -⟩ := h.thread
    refine ⟨_, exec_exit h, exitThread_spec ((afterIssue_has b s t).trans hh) ?_⟩
    rw [afterIssue_thread_group, afterIssue_groups]
    exact (h.issuing.may t hmem).grouped
  · have he := exec_suspend h
    refine ⟨fun hs => ?_, fun hs => ?_⟩
    · exact he.trans (by rw [if_neg (by rw [hs]; exact Bool.false_ne_true)])
    · obtain ⟨hb, hthread, hrest⟩ := takeSignal_spec t hs
      refine ⟨_, he.trans (by rw [if_pos hs]), hb, hthread t, fun u _ => hthread u, hrest⟩
  · intro s0 l n hstage hn hk hfind hlive hnodup
    obtain ⟨hist, m, hs1⟩ := release_eq s0 t .dev false []
    refine ⟨_, (exec_signal h).trans (by rw [hs1]), ?_⟩
    exact signalTo_spec (s := { s0 with hist := hist, ctr := m }) hstage hn hk hfind hlive hnodup

end Sys2Proof.Machine

/-! ### What holds a thread at its word is the same whatever holds others (R27) -/

namespace Sys2Proof.Machine

/-- The two states differ at most in what holds threads: held state, cause, and how long they have been READY. -/
structure HeldOnly (s s' : State) : Prop where
  rest : ∃ ths, s' = { s with threads := ths }
  thread : ∀ t, ∃ h w r n, s'.thread t = { s.thread t with held := h, why := w, readyAt := r, passed := n }
  has : ∀ t, s'.threads.has t = s.threads.has t
  members : ∀ p : Nat → Bool, (s'.threads.filter fun _ th => p th.group).keys = (s.threads.filter fun _ th => p th.group).keys

namespace HeldOnly

theorem refl (s : State) : HeldOnly s s := ⟨⟨_, rfl⟩, fun _ => ⟨_, _, _, _, rfl⟩, fun _ => rfl, fun _ => rfl⟩

variable {s s' s'' : State}

theorem trans (h : HeldOnly s s') (h' : HeldOnly s' s'') : HeldOnly s s'' where
  rest := by
    obtain ⟨ths, rfl⟩ := h.rest
    obtain ⟨ths', rfl⟩ := h'.rest
    exact ⟨ths', rfl⟩
  thread t := by
    obtain ⟨_, _, _, _, e⟩ := h.thread t
    obtain ⟨_, _, _, _, e'⟩ := h'.thread t
    rw [e', e]
    exact ⟨_, _, _, _, rfl⟩
  has t := (h'.has t).trans (h.has t)
  members p := (h'.members p).trans (h.members p)

/-- A change of what holds one thread. -/
theorem onThread (s : State) (t : Nat) (f : Thread → Thread) (hf : ∃ h w r n, f (s.thread t) = { s.thread t with held := h, why := w, readyAt := r, passed := n })
    (hg : ∀ x, (f x).group = x.group) : HeldOnly s (s.onThread t f) := by
  refine ⟨⟨_, rfl⟩, fun u => ?_, fun u => by simp, fun p => ?_⟩
  · by_cases hu : u = t
    · subst hu
      by_cases hh : s.threads.has u = true
      · rw [thread_onThread_self _ _ _ hh]; exact hf
      · have : s.threads.find? u = none := by simpa [Sparse.has] using hh
        exact ⟨(s.thread u).held, (s.thread u).why, (s.thread u).readyAt, (s.thread u).passed, by simp [State.thread, State.onThread, Sparse.findD, this]⟩
    · rw [thread_onThread_ne _ _ _ _ hu]; exact ⟨_, _, _, _, rfl⟩
  · simp only [Sparse.keys, Sparse.filter, State.onThread, Sparse.modify, Sparse.mapKV, List.filter_map, List.map_map]
    congr 1
    refine List.filter_congr fun e _ => ?_
    by_cases he : e.1 = t <;> simp [he, hg]

theorem setReady (s : State) (t : Nat) : HeldOnly s (setReady s t) := onThread s t _ ⟨_, _, _, _, rfl⟩ fun _ => rfl
/-- A thread held STALLED where it stands. -/
theorem stallHere (s : State) (t : Nat) (w : Why) : HeldOnly s (stall s t (s.thread t).pc w) :=
  onThread s t _ ⟨_, _, _, _, rfl⟩ fun _ => rfl

theorem foldl {α : Type} {f : State → α → State} (hf : ∀ s x, HeldOnly s (f s x)) (l : List α) : ∀ s, HeldOnly s (l.foldl f s) := by
  induction l with
  | nil => exact refl
  | cons x l ih => exact fun s => (hf s x).trans (ih _)

/-! Fields of a thread that stand. -/

theorem pc (h : HeldOnly s s') (t : Nat) : (s'.thread t).pc = (s.thread t).pc := by obtain ⟨_, _, _, _, e⟩ := h.thread t; rw [e]
theorem v (h : HeldOnly s s') (t : Nat) : (s'.thread t).v = (s.thread t).v := by obtain ⟨_, _, _, _, e⟩ := h.thread t; rw [e]
theorem p (h : HeldOnly s s') (t : Nat) : (s'.thread t).p = (s.thread t).p := by obtain ⟨_, _, _, _, e⟩ := h.thread t; rw [e]
theorem pend (h : HeldOnly s s') (t : Nat) : (s'.thread t).pend = (s.thread t).pend := by obtain ⟨_, _, _, _, e⟩ := h.thread t; rw [e]
theorem group (h : HeldOnly s s') (t : Nat) : (s'.thread t).group = (s.thread t).group := by obtain ⟨_, _, _, _, e⟩ := h.thread t; rw [e]
theorem groups (h : HeldOnly s s') : s'.groups = s.groups := by obtain ⟨_, rfl⟩ := h.rest; rfl
theorem groupOf (h : HeldOnly s s') (t : Nat) : s'.groupOf t = s.groupOf t := by
  simp only [State.groupOf, State.group, h.group, h.groups]
theorem ctxOf (h : HeldOnly s s') (t : Nat) : s'.ctxOf t = s.ctxOf t := by simp only [State.ctxOf, h.groupOf]
theorem privOf (h : HeldOnly s s') (t : Nat) : s'.privOf t = s.privOf t := by simp only [State.privOf, h.groupOf]
theorem partOf (h : HeldOnly s s') (t : Nat) : s'.partOf t = s.partOf t := by
  have hg := h.groupOf t
  obtain ⟨_, rfl⟩ := h.rest
  simp only [State.partOf, State.launchOf, State.launchIdOf, State.blockOf, State.blockIdOf, hg]
  rfl
theorem coreThreads (h : HeldOnly s s') (c : Nat) : coreThreads s' c = coreThreads s c := by
  have hm := h.members fun g => (s.group g).core == c && (s.block (s.group g).block).save == .resident
  obtain ⟨_, rfl⟩ := h.rest
  exact hm
theorem groupThreads (h : HeldOnly s s') (g : Nat) : s'.groupThreads g = s.groupThreads g := h.members fun k => k == g

/-! What a thread awaits. -/

theorem pendingHazard (h : HeldOnly s s') (t : Nat) (u : Uses) (g : Guard) (on : Bool) :
    pendingHazard s' t u g on = pendingHazard s t u g on := by
  simp only [Machine.pendingHazard, h.pend, h.group, h.groupThreads]
theorem accessesDone (h : HeldOnly s s') (t : Nat) : accessesDone s' t = accessesDone s t := by
  obtain ⟨_, _, _, _, e⟩ := h.thread t
  simp only [Machine.accessesDone, e]
theorem canRelease (h : HeldOnly s s') (t : Nat) : canRelease s' t = canRelease s t := by
  have hp := h.partOf t
  have ha := h.accessesDone t
  obtain ⟨_, _, _, _, e⟩ := h.thread t
  obtain ⟨_, rfl⟩ := h.rest
  simp only [Machine.canRelease, hp, ha, e]
  rfl
theorem canArrive (h : HeldOnly s s') (t : Nat) : canArrive s' t = canArrive s t := by
  simp only [Machine.canArrive, h.pend, h.canRelease]
/-- The address of a memory word is read of registers alone. -/
theorem memVa (h : HeldOnly s s') (i : Instr) (t : Nat) : memVa i (envOf s' t) = memVa i (envOf s t) := by
  obtain ⟨_, _, _, _, e⟩ := h.thread t
  simp only [envOf, e, h.groupOf]
  cases i <;> rfl
theorem mustDrain (h : HeldOnly s s') (i : Instr) (t : Nat) : mustDrain s' i t = mustDrain s i t := by
  obtain ⟨_, _, _, _, e⟩ := h.thread t
  simp only [Machine.mustDrain, h.memVa, h.canRelease, h.canArrive, h.accessesDone, h.groupOf, e]
  rfl
theorem waitsFor (h : HeldOnly s s') (i : Instr) (t : Nat) : waitsFor s' i t = waitsFor s i t := by
  have hh := fun on => h.pendingHazard t (usesOf i) (guardOf i) on
  have hd := h.mustDrain i t
  obtain ⟨_, _, _, _, e⟩ := h.thread t
  obtain ⟨_, rfl⟩ := h.rest
  simp only [Machine.waitsFor, hh, hd, e]
  rfl
theorem fateOf (h : HeldOnly s s') (i : Instr) (pc : Dword) (t : Nat) : fateOf s' i pc t = fateOf s i pc t := by
  have hw := h.waitsFor i t
  have hg := h.groupOf t
  obtain ⟨_, _, _, _, e⟩ := h.thread t
  obtain ⟨_, rfl⟩ := h.rest
  simp only [Machine.fateOf, hw, hg, e]
  rfl
theorem nextInstr (h : HeldOnly s s') (t : Nat) : nextInstr s' t = nextInstr s t := by
  have hc := h.ctxOf t
  have hp := h.privOf t
  have hpc := h.pc t
  obtain ⟨_, rfl⟩ := h.rest
  simp only [Machine.nextInstr, peekWord, hc, hp, hpc]
  rfl
/-- R27: what holds a thread at the word it stands at. -/
theorem nextWait (h : HeldOnly s s') (t : Nat) : nextWait s' t = nextWait s t := by
  simp only [Machine.nextWait, h.nextInstr, h.fateOf, h.pc]

end HeldOnly

end Sys2Proof.Machine

/-! ### A build boundary (O52) -/

namespace Sys2Proof.Machine

/-! ### READY and STALLED at a boundary (R27) -/

theorem coreThreads_has {s : State} {c t : Nat} (ht : t ∈ coreThreads s c) : s.threads.has t = true := by
  simp only [coreThreads, Sparse.keys, Sparse.filter, List.mem_map, List.mem_filter] at ht
  obtain ⟨e, ⟨he, -⟩, rfl⟩ := ht
  exact (Sparse.mem_keys _ _).mp (List.mem_map_of_mem he)

theorem foldl_setReady_of_not_mem (t : Nat) (l : List Nat) (ht : t ∉ l) :
    ∀ s : State, (l.foldl setReady s).thread t = s.thread t := by
  induction l with
  | nil => exact fun _ => rfl
  | cons u l ih =>
      obtain ⟨hu, hl⟩ := not_or.mp (mt List.mem_cons.mpr ht)
      exact fun s => (ih hl _).trans (thread_onThread_ne _ _ _ _ hu)

theorem foldl_setReady_of_mem {t : Nat} (l : List Nat) (ht : t ∈ l) :
    ∀ s : State, s.threads.has t = true → ((l.foldl setReady s).thread t).held = .ready := by
  induction l using List.reverseRecOn with
  | nil => simp at ht
  | append_singleton l u ih =>
      intro s hh
      have h := HeldOnly.foldl HeldOnly.setReady l s
      rw [List.foldl_append]
      by_cases hu : t = u
      · subst hu
        rw [List.foldl_cons, List.foldl_nil, setReady, thread_onThread_self _ _ _ ((h.has t).trans hh)]
      · rw [List.foldl_cons, List.foldl_nil, setReady, thread_onThread_ne _ _ _ _ hu]
        exact ih (by simpa [hu] using ht) s hh

theorem wakeStalled_heldOnly (s : State) (c : Nat) : HeldOnly s (wakeStalled s c) :=
  HeldOnly.foldl HeldOnly.setReady _ s

theorem wakeStalled_wakes {s : State} {c t : Nat} (ht : t ∈ coreThreads s c) (hs : (s.thread t).held = .stalled)
    (hc : causeClear s t = true) : ((wakeStalled s c).thread t).held = .ready :=
  foldl_setReady_of_mem _ (List.mem_filter.mpr ⟨ht, by simp [hs, hc]⟩) s (coreThreads_has ht)

theorem wakeStalled_thread {s : State} {c t : Nat} (hs : (s.thread t).held ≠ .stalled) :
    (wakeStalled s c).thread t = s.thread t :=
  foldl_setReady_of_not_mem t _ (by simp [hs]) s

/-- What a boundary does for one thread that its next word may hold. -/
def holdNext (s : State) (t : Nat) : State :=
  match (s.thread t).held, nextWait s t with
  | .ready, some w => stall s t (s.thread t).pc w
  | _, _ => s

theorem holdWaiting_eq (s : State) (ts : List Nat) : holdWaiting s ts = ts.foldl holdNext s := rfl

/-- A thread that its next word holds is held; another stands. -/
theorem holdNext_eq (s : State) (t : Nat) :
    (∃ w, (s.thread t).held = .ready ∧ nextWait s t = some w ∧ holdNext s t = stall s t (s.thread t).pc w) ∨
    (((s.thread t).held ≠ .ready ∨ nextWait s t = none) ∧ holdNext s t = s) := by
  cases hw : nextWait s t with
  | none => exact .inr ⟨.inr rfl, by unfold holdNext; rw [hw]; split <;> simp_all⟩
  | some w =>
      by_cases hr : (s.thread t).held = .ready
      · exact .inl ⟨w, hr, rfl, by simp [holdNext, hr, hw]⟩
      · exact .inr ⟨.inl hr, by unfold holdNext; rw [hw]; split <;> simp_all⟩

theorem holdNext_heldOnly (s : State) (t : Nat) : HeldOnly s (holdNext s t) := by
  obtain ⟨w, -, -, h⟩ | ⟨-, h⟩ := holdNext_eq s t <;> rw [h]
  · exact .stallHere s t w
  · exact .refl s

theorem holdWaiting_heldOnly (s : State) (ts : List Nat) : HeldOnly s (holdWaiting s ts) :=
  HeldOnly.foldl holdNext_heldOnly ts s

theorem holdNext_thread_ne (s : State) {t u : Nat} (h : t ≠ u) : (holdNext s u).thread t = s.thread t := by
  obtain ⟨w, -, -, e⟩ | ⟨-, e⟩ := holdNext_eq s u <;> rw [e]
  exact thread_onThread_ne _ _ _ _ h

/-- A thread that nothing holds at its word stands as it did. -/
theorem holdWaiting_thread {s : State} {t : Nat} (hw : (s.thread t).held ≠ .ready ∨ nextWait s t = none) (ts : List Nat) :
    (holdWaiting s ts).thread t = s.thread t := by
  rw [holdWaiting_eq]
  induction ts using List.reverseRecOn with
  | nil => rfl
  | append_singleton l u ih =>
      have h := HeldOnly.foldl holdNext_heldOnly l s
      rw [List.foldl_append, List.foldl_cons, List.foldl_nil]
      by_cases hu : t = u
      · subst hu
        obtain ⟨w, hr, hn, -⟩ | ⟨-, e⟩ := holdNext_eq (l.foldl holdNext s) t
        · rw [ih] at hr
          rw [h.nextWait] at hn
          exact absurd hn (by rw [hw.resolve_left (not_not.mpr hr)]; simp)
        · rw [e, ih]
      · rw [holdNext_thread_ne _ hu, ih]

/-- A READY thread that its next word holds is STALLED at it. -/
theorem holdWaiting_stalls {s : State} {t : Nat} {w : Why} (hh : s.threads.has t = true) (hr : (s.thread t).held = .ready)
    (hw : nextWait s t = some w) {ts : List Nat} (ht : t ∈ ts) :
    ((holdWaiting s ts).thread t).held = .stalled ∧ ((holdWaiting s ts).thread t).why = w := by
  rw [holdWaiting_eq]
  induction ts generalizing s with
  | nil => simp at ht
  | cons u l ih =>
      have h := holdNext_heldOnly s u
      rw [List.foldl_cons]
      by_cases hu : t = u
      · subst hu
        have e : holdNext s t = stall s t (s.thread t).pc w := by simp [holdNext, hr, hw]
        have e' : ((holdNext s t).thread t).held = .stalled ∧ ((holdNext s t).thread t).why = w := by
          rw [e, stall, thread_onThread_self _ _ _ hh]; exact ⟨rfl, rfl⟩
        have := holdWaiting_thread (s := holdNext s t) (t := t) (.inl (by rw [e'.1]; simp)) l
        rw [holdWaiting_eq] at this
        rw [this]
        exact e'
      · exact ih ((h.has t).trans hh) (by rw [holdNext_thread_ne _ hu, hr]) ((h.nextWait t).trans hw)
          (by simpa [hu] using ht)

theorem held_of_canIssue {s : State} {t : Nat} (h : s.canIssue t = true) : (s.thread t).held = .ready := by
  simp only [State.canIssue, Bool.and_eq_true, beq_iff_eq] at h
  exact h.1.1.1.1

theorem HeldOnly.lane {s s' : State} (h : HeldOnly s s') (t : Nat) : (s'.thread t).lane = (s.thread t).lane := by
  obtain ⟨_, _, _, _, e⟩ := h.thread t
  rw [e]

theorem HeldOnly.canIssue {s s' : State} (h : HeldOnly s s') {t : Nat} (ht : s'.thread t = s.thread t) : s'.canIssue t = s.canIssue t := by
  have hg := h.groupOf t
  obtain ⟨_, rfl⟩ := h.rest
  simp only [State.canIssue, State.blockOf, State.blockIdOf, State.coreOf, State.ctxOf, ht, hg]
  rfl

/-- The threads of a core, woken and held as a boundary finds them. -/
def settled (s : State) (c : Nat) : State := holdWaiting (wakeStalled s c) (coreThreads (wakeStalled s c) c)

theorem settled_heldOnly (s : State) (c : Nat) : HeldOnly s (settled s c) :=
  (wakeStalled_heldOnly s c).trans (holdWaiting_heldOnly _ _)

theorem settled_wakes {s : State} {c t : Nat} (ht : t ∈ coreThreads s c) (hs : (s.thread t).held = .stalled)
    (hc : causeClear s t = true) (hw : nextWait s t = none) : ((settled s c).thread t).held = .ready := by
  have h := wakeStalled_heldOnly s c
  rw [settled, holdWaiting_thread (.inr ((h.nextWait t).trans hw))]
  exact wakeStalled_wakes ht hs hc

theorem settled_stalls {s : State} {c t : Nat} {w : Why} (ht : t ∈ coreThreads s c) (hr : (s.thread t).held = .ready)
    (hw : nextWait s t = some w) : ((settled s c).thread t).held = .stalled ∧ ((settled s c).thread t).why = w := by
  have h := wakeStalled_heldOnly s c
  have hne : (s.thread t).held ≠ .stalled := by rw [hr]; simp
  exact holdWaiting_stalls ((h.has t).trans (coreThreads_has ht)) (by rw [wakeStalled_thread hne, hr])
    ((h.nextWait t).trans hw) ((h.coreThreads c).symm ▸ ht)

/-- A READY thread that nothing holds stands. -/
theorem settled_thread {s : State} {c t : Nat} (hr : (s.thread t).held = .ready) (hw : nextWait s t = none) :
    (settled s c).thread t = s.thread t := by
  have h := wakeStalled_heldOnly s c
  rw [settled, holdWaiting_thread (.inr ((h.nextWait t).trans hw)), wakeStalled_thread (by rw [hr]; simp)]


/-! ### Forming bundles (R29, R30, R34) -/

/-- A bucket with those of its threads that can issue at its PC. -/
def stays (s : State) (c : Nat) (b : Bucket) : Bucket :=
  { b with threads := b.threads.filter fun t =>
      ((coreThreads s c).filter s.canIssue).contains t && (s.thread t).pc == b.pc && s.ctxOf t == b.ctx }

/-- The buckets of a core that stay. -/
def keepBuckets (s : State) (c : Nat) : State :=
  s.onCore c fun k => { k with buckets := (k.buckets.map (stays s c)).filter fun b => !b.threads.isEmpty }

/-- The threads that can issue enter the PC table; those it has no room for are returned. -/
def enterReady (s : State) (c : Nat) : List Nat × State :=
  enterThreads (keepBuckets s c) c (((coreThreads s c).filter s.canIssue).filter fun t =>
    !(((keepBuckets s c).core c).buckets.flatMap Bucket.threads).contains t)

/-- The bundles of a list of buckets. -/
def bundlesOf (s : State) (bks : List Bucket) : List (List Nat) × State :=
  bks.foldl (fun (acc, s) b => (acc ++ (bucketBundles s b).1, (bucketBundles s b).2)) ([], s)

/-- The bundles formed of the threads that entered the table and of those returned. -/
def formBundles (c : Nat) (out : List Nat) (s : State) : State :=
  let s := if out.isEmpty then s else pmc s c 2 1
  (bundlesOf s (s.core c).buckets).2.onCore c fun k =>
    { k with bundles := loneBundles (bundlesOf s (s.core c).buckets).2 out ++ (bundlesOf s (s.core c).buckets).1, left0 := 4, left1 := 4 }

theorem buildCore_eq (s : State) (c : Nat) :
    buildCore s c = formBundles c (enterReady (settled s c) c).1 (enterReady (settled s c) c).2 := rfl

/-- The two states differ at most in cores, registers and the number of choices made: threads and memory stand. -/
def CoresOnly (s s' : State) : Prop := ∃ cs sy n, s' = { s with cores := cs, sys := sy, ctr := n }

namespace CoresOnly

variable {s s' s'' : State}

theorem refl (s : State) : CoresOnly s s := ⟨_, _, _, rfl⟩
theorem trans (h : CoresOnly s s') (h' : CoresOnly s' s'') : CoresOnly s s'' := by
  obtain ⟨_, _, _, rfl⟩ := h
  obtain ⟨_, _, _, rfl⟩ := h'
  exact ⟨_, _, _, rfl⟩
theorem onCore (s : State) (c : Nat) (f : Core → Core) : CoresOnly s (s.onCore c f) := ⟨_, _, _, rfl⟩
theorem pmc (s : State) (c n k : Nat) : CoresOnly s (pmc s c n k) := ⟨_, _, _, rfl⟩
theorem pick (s : State) (n : Nat) : CoresOnly s (s.pick n).2 := by
  unfold State.pick
  split <;> exact ⟨_, _, _, rfl⟩

theorem thread (h : CoresOnly s s') (t : Nat) : s'.thread t = s.thread t := by obtain ⟨_, _, _, rfl⟩ := h; rfl
theorem ctxOf (h : CoresOnly s s') (t : Nat) : s'.ctxOf t = s.ctxOf t := by obtain ⟨_, _, _, rfl⟩ := h; rfl
theorem canIssue (h : CoresOnly s s') (t : Nat) : s'.canIssue t = s.canIssue t := by obtain ⟨_, _, _, rfl⟩ := h; rfl
theorem memory (h : CoresOnly s s') : s'.groups = s.groups ∧ s'.hbm = s.hbm ∧ s'.flats = s.flats := by
  obtain ⟨_, _, _, rfl⟩ := h; exact ⟨rfl, rfl, rfl⟩

end CoresOnly

theorem bucketBundles_coresOnly (s : State) (b : Bucket) : CoresOnly s (bucketBundles s b).2 := by
  unfold bucketBundles
  split
  · exact .refl s
  · dsimp only
    split
    · exact .refl s
    · exact .pick s _

theorem bundlesOf_coresOnly (bks : List Bucket) (s : State) : CoresOnly s (bundlesOf s bks).2 := by
  induction bks using List.reverseRecOn with
  | nil => exact .refl s
  | append_singleton l b ih =>
      rw [bundlesOf, List.foldl_append]
      exact ih.trans (bucketBundles_coresOnly _ b)

/-- The threads of a list are of one context at one PC. -/
def AtOnePc (s : State) (l : List Nat) : Prop := ∀ t ∈ l, ∀ u ∈ l, (s.thread t).pc = (s.thread u).pc ∧ s.ctxOf t = s.ctxOf u

theorem AtOnePc.mono {s : State} {l l' : List Nat} (h : AtOnePc s l) (hl : ∀ t ∈ l', t ∈ l) : AtOnePc s l' :=
  fun t ht u hu => h t (hl t ht) u (hl u hu)

theorem mem_laneInsert {s : State} {t x : Nat} {l : List Nat} (h : x ∈ laneInsert s t l) : x = t ∨ x ∈ l := by
  induction l with
  | nil => exact .inl (by simpa [laneInsert] using h)
  | cons u l ih =>
      unfold laneInsert at h
      split at h
      · exact List.mem_cons.mp h
      · obtain rfl | h := List.mem_cons.mp h
        · exact .inr List.mem_cons_self
        · exact (ih h).imp_right (List.mem_cons_of_mem _)

/-- Packs are made of lanes alone. -/
theorem pack_congr {s s' : State} (h : ∀ t, (s'.thread t).lane = (s.thread t).lane) (ts : List Nat) : pack s' ts = pack s ts := by
  have hl : ∀ t l, laneInsert s' t l = laneInsert s t l := fun t l => by
    induction l with
    | nil => rfl
    | cons u l ih => simp only [laneInsert, h, ih]
  have hp : packThread s' = packThread s := by
    funext bs t
    simp only [packThread, h, funext (hl t)]
  rw [pack, pack, hp]

/-- A packed bundle holds the threads packed, and no others. -/
theorem mem_of_mem_pack {s : State} {ts b : List Nat} (hb : b ∈ pack s ts) : ∀ t ∈ b, t ∈ ts := by
  induction ts using List.reverseRecOn generalizing b with
  | nil => simp [pack] at hb
  | append_singleton l u ih =>
      intro t ht
      rw [pack, List.foldl_append, List.foldl_cons, List.foldl_nil, packThread] at hb
      rw [List.mem_append]
      split at hb
      · obtain ⟨i, hi, rfl⟩ := List.mem_iff_getElem.mp hb
        rw [List.getElem_modify] at ht
        split at ht
        · exact (mem_laneInsert ht).elim (fun e => .inr (by simp [e])) fun h => .inl (ih (List.getElem_mem _) t h)
        · exact .inl (ih (List.getElem_mem _) t ht)
      · obtain hb | hb := List.mem_append.mp hb
        · exact .inl (ih hb t ht)
        · exact .inr (by simpa [List.mem_singleton.mp hb] using ht)

/-- The class of a key holds threads of that key. -/
theorem mem_of_mem_groupBy {f : Nat → Nat} {ts l : List Nat} (hl : l ∈ groupBy f ts) :
    (∀ t ∈ l, t ∈ ts) ∧ ∀ t ∈ l, ∀ u ∈ l, f t = f u := by
  obtain ⟨k, -, rfl⟩ := List.mem_map.mp hl
  refine ⟨fun t ht => (List.mem_filter.mp ht).1, fun t ht u hu => ?_⟩
  have ht := (List.mem_filter.mp ht).2
  have hu := (List.mem_filter.mp hu).2
  rw [eq_of_beq ht, eq_of_beq hu]

theorem mem_of_mem_packClasses {s : State} {f : Nat → Nat} {ts b : List Nat} (hb : b ∈ (groupBy f ts).flatMap (pack s)) :
    ∀ t ∈ b, t ∈ ts := by
  obtain ⟨l, hl, hb⟩ := List.mem_flatMap.mp hb
  exact fun t ht => (mem_of_mem_groupBy hl).1 t (mem_of_mem_pack hb t ht)

theorem mem_of_mem_sortOn {f : Nat → Nat} {l : List Nat} {x : Nat} (h : x ∈ sortOn f l) : x ∈ l := by
  induction l using List.reverseRecOn generalizing x with
  | nil => simp [sortOn] at h
  | append_singleton l u ih =>
      rw [sortOn, List.foldl_append, List.foldl_cons, List.foldl_nil] at h
      rw [List.mem_append, List.mem_singleton]
      obtain h | h := List.mem_append.mp h
      · exact .inl (ih (List.takeWhile_subset _ h))
      · obtain rfl | h := List.mem_cons.mp h
        · exact .inr rfl
        · exact .inl (ih (List.dropWhile_subset _ h))

theorem rotateLeft_perm (l : List Nat) (k : Nat) : (l.rotateLeft k).Perm l := by
  unfold List.rotateLeft
  dsimp only
  split
  · exact .refl l
  · exact List.perm_append_comm.trans (.of_eq (List.take_append_drop _ l))

theorem mem_of_mem_gatherBundles {s : State} {ts b : List Nat} (hb : b ∈ gatherBundles s ts) : ∀ t ∈ b, t ∈ ts := by
  obtain ⟨u, -, hu⟩ := List.mem_filterMap.mp hb
  split at hu
  · split at hu
    · rename_i x _ hx
      obtain ⟨-, hall⟩ := Bool.and_eq_true_iff.mp hx
      obtain rfl := Option.some.inj hu
      exact fun t ht => by simpa using List.all_eq_true.mp hall t ht
    · simp at hu
  · simp at hu

/-- R30: a bucket's bundles hold threads of the bucket. -/
theorem mem_of_mem_bucketBundles {s : State} {bk : Bucket} {b : List Nat} (hb : b ∈ (bucketBundles s bk).1) : ∀ t ∈ b, t ∈ bk.threads := by
  unfold bucketBundles at hb
  split at hb
  · simp at hb
  · rename_i u r e
    have sub : ∀ x, x ∈ (bk.threads.filter fun u => !((gatherBundles s bk.threads).any fun g => g.contains u)) → x ∈ bk.threads :=
      fun x hx => (List.mem_filter.mp hx).1
    dsimp only at hb
    split at hb <;> obtain hb | hb := List.mem_append.mp hb
    · exact mem_of_mem_gatherBundles hb
    · exact fun t ht => sub t (mem_of_mem_packClasses hb t ht)
    · exact mem_of_mem_gatherBundles hb
    · exact fun t ht => sub t ((rotateLeft_perm _ _).subset (mem_of_mem_packClasses hb t ht))

theorem mem_of_mem_bundlesOf {s : State} {bks : List Bucket} {b : List Nat} (hb : b ∈ (bundlesOf s bks).1) :
    ∃ bk ∈ bks, ∀ t ∈ b, t ∈ bk.threads := by
  induction bks using List.reverseRecOn with
  | nil => simp [bundlesOf] at hb
  | append_singleton l bk ih =>
      rw [bundlesOf, List.foldl_append] at hb
      obtain hb | hb := List.mem_append.mp hb
      · obtain ⟨x, hx, h⟩ := ih hb
        exact ⟨x, List.mem_append_left _ hx, h⟩
      · exact ⟨bk, by simp, mem_of_mem_bucketBundles hb⟩

/-- R34: a bundle of threads without a bucket holds threads of one context at one PC. -/
theorem loneBundles_atOnePc {s : State} {ts b : List Nat} (hb : b ∈ loneBundles s ts) : (∀ t ∈ b, t ∈ ts) ∧ AtOnePc s b := by
  obtain ⟨l, hl, hb⟩ := List.mem_flatMap.mp hb
  obtain ⟨hsub, hkey⟩ := mem_of_mem_groupBy hl
  have hin : ∀ t ∈ b, t ∈ l := fun t ht => mem_of_mem_sortOn (mem_of_mem_packClasses hb t ht)
  refine ⟨fun t ht => hsub t (hin t ht), fun t ht u hu => ?_⟩
  have key := hkey t (hin t ht) u (hin u hu)
  have ht := (s.thread t).pc.isLt
  have hu := (s.thread u).pc.isLt
  exact ⟨BitVec.eq_of_toNat_eq (by omega), by omega⟩

/-! ### The PC table at a boundary -/

/-- A bucket holds threads that can issue, of its context at its PC. -/
def BucketHolds (s : State) (ts : List Nat) (b : Bucket) : Prop :=
  ∀ t ∈ b.threads, t ∈ ts ∧ (s.thread t).pc = b.pc ∧ s.ctxOf t = b.ctx

theorem BucketHolds.atOnePc {s : State} {ts : List Nat} {b : Bucket} (h : BucketHolds s ts b) : AtOnePc s b.threads := by
  intro t ht u hu
  obtain ⟨-, hp, hc⟩ := h t ht
  obtain ⟨-, hp', hc'⟩ := h u hu
  exact ⟨hp.trans hp'.symm, hc.trans hc'.symm⟩

theorem keepBuckets_holds (s : State) (c : Nat) :
    ∀ b ∈ ((keepBuckets s c).core c).buckets, BucketHolds s ((coreThreads s c).filter s.canIssue) b := by
  intro b hb t ht
  rw [keepBuckets, core_onCore, if_pos rfl] at hb
  obtain ⟨x, -, rfl⟩ := List.mem_map.mp (List.mem_filter.mp hb).1
  have h := (List.mem_filter.mp ht).2
  simp only [Bool.and_eq_true, List.contains_iff_mem, beq_iff_eq] at h
  exact ⟨h.1.1, h.1.2, h.2⟩

/-- A thread enters the bucket of its context and PC, or is returned. -/
def enterThread (c : Nat) (x : List Nat × State) (t : Nat) : List Nat × State :=
  if (x.2.core c).buckets.any fun b => b.ctx == x.2.ctxOf t && b.pc == (x.2.thread t).pc then
    (x.1, x.2.onCore c fun k => { k with buckets := enterBucket k.buckets (x.2.ctxOf t) (x.2.thread t).pc t })
  else if roomForBucket (x.2.core c).buckets (x.2.ctxOf t) (x.2.thread t).pc then
    (x.1, x.2.onCore c fun k => { k with buckets := k.buckets ++ [⟨x.2.ctxOf t, (x.2.thread t).pc, [t]⟩] })
  else (x.1 ++ [t], x.2)

theorem enterThreads_eq (s : State) (c : Nat) (ts : List Nat) : enterThreads s c ts = ts.foldl (enterThread c) ([], s) := rfl

/-- What entering the table keeps: its buckets hold threads of their key, and a thread returned is one that was to enter. -/
def Entered (s : State) (c : Nat) (rs ts : List Nat) (x : List Nat × State) : Prop :=
  CoresOnly s x.2 ∧ (∀ b ∈ (x.2.core c).buckets, BucketHolds s rs b) ∧ ∀ t ∈ x.1, t ∈ ts

theorem enterThread_entered {s : State} {c : Nat} {rs ts : List Nat} {x : List Nat × State} {u : Nat} (hu : u ∈ rs)
    (h : Entered s c rs ts x) : Entered s c rs (ts ++ [u]) (enterThread c x u) := by
  obtain ⟨hc, hb, ho⟩ := h
  have ho' : ∀ t ∈ x.1, t ∈ ts ++ [u] := fun t ht => List.mem_append_left _ (ho t ht)
  unfold enterThread
  rw [hc.thread u, hc.ctxOf u]
  split
  · refine ⟨hc.trans (.onCore ..), fun b hb' => ?_, ho'⟩
    rw [core_onCore, if_pos rfl] at hb'
    obtain ⟨b, hm, rfl⟩ := List.mem_map.mp hb'
    split
    · rename_i hk
      obtain ⟨hk, hk'⟩ := Bool.and_eq_true_iff.mp hk
      intro t ht
      obtain ht | ht := mem_unionN.mp ht
      · exact hb b hm t ht
      · obtain rfl := List.mem_singleton.mp ht
        exact ⟨hu, (eq_of_beq hk').symm, (eq_of_beq hk).symm⟩
    · exact hb b hm
  · split
    · refine ⟨hc.trans (.onCore ..), fun b hb' => ?_, ho'⟩
      rw [core_onCore, if_pos rfl] at hb'
      obtain hb' | hb' := List.mem_append.mp hb'
      · exact hb b hb'
      · obtain rfl := List.mem_singleton.mp hb'
        intro t ht
        obtain rfl := List.mem_singleton.mp ht
        exact ⟨hu, rfl, rfl⟩
    · exact ⟨hc, hb, fun t ht => (List.mem_append.mp ht).elim (ho' t) (List.mem_append_right _)⟩

theorem enterThreads_entered {s : State} {c : Nat} {rs ts : List Nat} (hts : ∀ t ∈ ts, t ∈ rs)
    (hs : ∀ b ∈ (s.core c).buckets, BucketHolds s rs b) : Entered s c rs ts (enterThreads s c ts) := by
  rw [enterThreads_eq]
  induction ts using List.reverseRecOn with
  | nil => exact ⟨.refl s, hs, by simp⟩
  | append_singleton l u ih =>
      rw [List.foldl_append]
      exact enterThread_entered (hts u (by simp)) (ih fun t ht => hts t (List.mem_append_left _ ht))

/-- What a boundary leaves: bundles of threads that can issue, each at one PC in one context, and all else but the core. -/
theorem formBundles_spec {c : Nat} {out : List Nat} {s s0 : State} {rs ts : List Nat} (h : Entered s0 c rs ts (out, s)) (hts : ∀ t ∈ ts, t ∈ rs) :
    CoresOnly s0 (formBundles c out s) ∧
    ∀ b ∈ ((formBundles c out s).core c).bundles, (∀ t ∈ b, t ∈ rs) ∧ AtOnePc s0 b := by
  obtain ⟨hc, hb, ho⟩ := h
  let s1 := if out.isEmpty then s else pmc s c 2 1
  have h1 : CoresOnly s s1 := by
    show CoresOnly s (if out.isEmpty then s else pmc s c 2 1)
    split
    · exact .refl s
    · exact .pmc s c 2 1
  have hb1 : (s1.core c).buckets = (s.core c).buckets := by
    show ((if out.isEmpty then s else pmc s c 2 1).core c).buckets = _
    split <;> rfl
  have h2 := (hc.trans h1).trans (bundlesOf_coresOnly (s1.core c).buckets s1)
  refine ⟨h2.trans (.onCore ..), fun b hb' => ?_⟩
  change b ∈ (State.core (State.onCore (bundlesOf s1 (s1.core c).buckets).2 c _) c).bundles at hb'
  rw [core_onCore, if_pos rfl] at hb'
  obtain hb' | hb' := List.mem_append.mp hb'
  · obtain ⟨hsub, hat⟩ := loneBundles_atOnePc hb'
    refine ⟨fun t ht => hts t (ho t (hsub t ht)), fun t ht u hu => ?_⟩
    have := hat t ht u hu
    rwa [h2.thread t, h2.thread u, h2.ctxOf t, h2.ctxOf u] at this
  · obtain ⟨bk, hbk, hsub⟩ := mem_of_mem_bundlesOf hb'
    have hh := hb bk (hb1 ▸ hbk)
    exact ⟨fun t ht => (hh t (hsub t ht)).1, hh.atOnePc.mono hsub⟩

theorem buildCore_spec (s : State) (c : Nat) :
    CoresOnly (settled s c) (buildCore s c) ∧
    ∀ b ∈ ((buildCore s c).core c).bundles,
      (∀ t ∈ b, t ∈ (coreThreads (settled s c) c).filter (settled s c).canIssue) ∧ AtOnePc (settled s c) b := by
  have hk : CoresOnly (settled s c) (keepBuckets (settled s c) c) := .onCore ..
  have he : Entered (keepBuckets (settled s c) c) c ((coreThreads (settled s c) c).filter (settled s c).canIssue) _ (enterReady (settled s c) c) :=
    enterThreads_entered (fun t ht => (List.mem_filter.mp ht).1) fun b hb t ht => keepBuckets_holds _ c b hb t ht
  rw [buildCore_eq]
  exact formBundles_spec ⟨hk.trans he.1, fun b hb t ht => he.2.1 b hb t ht, he.2.2⟩ fun t ht => (List.mem_filter.mp ht).1

/-! ### A fresh bucket (R29, R30) -/

theorem groupBy_const {f : Nat → Nat} {ts : List Nat} {k : Nat} (hne : ts ≠ []) (h : ∀ t ∈ ts, f t = k) : groupBy f ts = [ts] := by
  have hd : (ts.map f).dedup = [k] := by
    rw [List.map_congr_left h, List.map_const', List.replicate_dedup (by simpa using hne)]
  have hf : ts.filter (fun t => f t == k) = ts := List.filter_eq_self.mpr fun t ht => by simp [h t ht]
  simp [groupBy, hd, hf]

theorem gatherBundles_nil {s : State} {ts : List Nat} (h : ∀ t ∈ ts, (s.groupOf t).gathers = []) : gatherBundles s ts = [] := by
  refine List.filterMap_eq_nil_iff.mpr fun t ht => ?_
  have : fullGather (s.groupOf t) (s.thread t).pc t = none := by simp [fullGather, gatherAt, h t ht]
  rw [this]

/-- The threads of one group with no gather form the bundles of their pack, from whichever the part begins with. -/
theorem bucketBundles_oneGroup {s : State} {c g : Nat} {pc : Dword} {ts : List Nat} (hne : ts ≠ [])
    (hg : ∀ t ∈ ts, (s.thread t).group = g) (hgs : (s.group g).gathers = []) :
    ∃ k, (bucketBundles s ⟨c, pc, ts⟩).1 = pack s (ts.rotateLeft k) := by
  have hgo : ∀ t ∈ ts, (s.groupOf t).gathers = [] := fun t ht => by rw [State.groupOf, hg t ht, hgs]
  obtain ⟨t, r, rfl⟩ := List.exists_cons_of_ne_nil hne
  have hf : ((t :: r).filter fun _ => true) = t :: r := List.filter_eq_self.mpr fun _ _ => rfl
  simp only [bucketBundles, gatherBundles_nil hgo, List.any_nil, Bool.not_false, hf, List.nil_append]
  split
  · refine ⟨0, ?_⟩
    rw [groupBy_const (by simp) hg, List.rotateLeft_zero]
    simp
  · refine ⟨(s.pick (t :: r).length).1, ?_⟩
    have hb : (s.pick (t :: r).length).2.blockIdOf = s.blockIdOf := by
      unfold State.pick
      split <;> rfl
    have hr : (t :: r).rotateLeft (s.pick (t :: r).length).1 ≠ [] := fun h => by
      have hperm := rotateLeft_perm (t :: r) (s.pick (t :: r).length).1
      rw [h] at hperm
      exact hne (List.nil_perm.mp hperm)
    rw [hb, groupBy_const (k := (s.group g).block) hr fun u hu => by
      rw [State.blockIdOf, State.groupOf, hg u ((rotateLeft_perm _ _).subset hu)], List.flatMap_singleton]
    exact pack_congr (fun t => by rw [(CoresOnly.pick s _).thread t]) _

/-- Threads of one context at one PC make a bucket where there was none. -/
theorem enterThreads_fresh {s : State} {c k : Nat} {pc : Dword} {ts : List Nat} (hb : (s.core c).buckets = []) (hne : ts ≠ []) (hn : ts.Nodup)
    (hk : ∀ t ∈ ts, s.ctxOf t = k ∧ (s.thread t).pc = pc) :
    (enterThreads s c ts).1 = [] ∧ CoresOnly s (enterThreads s c ts).2 ∧ ((enterThreads s c ts).2.core c).buckets = [⟨k, pc, ts⟩] := by
  rw [enterThreads_eq]
  induction ts using List.reverseRecOn with
  | nil => simp at hne
  | append_singleton l u ih =>
      obtain ⟨hc, hp⟩ := hk u (by simp)
      rw [List.foldl_append, List.foldl_cons, List.foldl_nil]
      by_cases hl : l = []
      · subst hl
        have hr : roomForBucket (s.core c).buckets (s.ctxOf u) (s.thread u).pc = true := by simp [hb, roomForBucket]
        rw [List.foldl_nil, enterThread, if_neg (by simp [hb]), if_pos hr]
        exact ⟨rfl, .onCore .., by rw [core_onCore, if_pos rfl, hc, hp]; simp [hb]⟩
      · obtain ⟨hln, -, hlu⟩ := List.nodup_append.mp hn
        obtain ⟨ho, hco, hbk⟩ := ih hl hln fun t ht => hk t (List.mem_append_left _ ht)
        have hu : u ∉ l := fun h => hlu u h u (by simp) rfl
        rw [enterThread, if_pos (by simp [hbk, hco.ctxOf, hco.thread, hc, hp])]
        refine ⟨ho, hco.trans (.onCore ..), ?_⟩
        rw [core_onCore, if_pos rfl]
        simp [hbk, enterBucket, hco.ctxOf, hco.thread, hc, hp, unionN, hu]

/-- The threads of a core, all of one group at one PC and none held, form the bundles of their pack. -/
theorem buildCore_oneGroup {s : State} {c : Nat} {ts : List Nat} {t : Nat} (ht : coreThreads s c = ts) (htt : t ∈ ts) (hn : ts.Nodup)
    (hi : ∀ u ∈ ts, s.canIssue u = true ∧ nextWait s u = none) (hb : (s.core c).buckets = []) (hgs : (s.groupOf t).gathers = [])
    (hg : ∀ u ∈ ts, (s.thread u).group = (s.thread t).group) (hp : ∀ u ∈ ts, (s.thread u).pc = (s.thread t).pc) :
    ∃ k, ((buildCore s c).core c).bundles = pack s (ts.rotateLeft k) := by
  have h := settled_heldOnly s c
  have hth : ∀ u ∈ ts, (settled s c).thread u = s.thread u := fun u hu =>
    settled_thread (held_of_canIssue (hi u hu).1) (hi u hu).2
  have hready : (coreThreads (settled s c) c).filter (settled s c).canIssue = ts := by
    rw [h.coreThreads, ht]
    exact List.filter_eq_self.mpr fun u hu => (h.canIssue (hth u hu)).trans (hi u hu).1
  have hcores : (settled s c).cores = s.cores := by
    obtain ⟨_, e⟩ := h.rest
    rw [e]
  have hkb : ((keepBuckets (settled s c) c).core c).buckets = [] := by
    rw [keepBuckets, core_onCore, if_pos rfl]
    simp [State.core, hcores, show (s.cores.findD c .idle).buckets = [] from hb]
  have hkc : CoresOnly (settled s c) (keepBuckets (settled s c) c) := .onCore ..
  have hctx : ∀ u ∈ ts, (settled s c).ctxOf u = s.ctxOf t := fun u hu => by
    rw [h.ctxOf, State.ctxOf, State.ctxOf, State.groupOf, State.groupOf, hg u hu]
  have he : enterReady (settled s c) c = enterThreads (keepBuckets (settled s c) c) c ts := by
    simp [enterReady, hready, hkb]
  obtain ⟨ho, hco, hbk⟩ := enterThreads_fresh (k := s.ctxOf t) (pc := (s.thread t).pc) hkb (List.ne_nil_of_mem htt) hn fun u hu => by
    rw [hkc.ctxOf, hkc.thread, hctx u hu, hth u hu, hp u hu]
    exact ⟨rfl, rfl⟩
  rw [buildCore_eq, he, ho]
  have hall := hkc.trans hco
  generalize (enterThreads (keepBuckets (settled s c) c) c ts).2 = s2 at hbk hall
  obtain ⟨k, hk⟩ := bucketBundles_oneGroup (s := s2) (c := s.ctxOf t) (g := (s.thread t).group) (pc := (s.thread t).pc) (List.ne_nil_of_mem htt)
    (fun u hu => by rw [hall.thread, hth u hu, hg u hu]) (by
      have : s2.groups = s.groups := by
        obtain ⟨_, e⟩ := h.rest
        rw [hall.memory.1, e]
      simpa [State.groupOf, State.group, this] using hgs)
  refine ⟨k, ?_⟩
  have hpk : pack s2 (ts.rotateLeft k) = pack s (ts.rotateLeft k) := pack_congr (fun u => by rw [hall.thread, h.lane]) _
  have hf : formBundles c [] s2 = (bundlesOf s2 [⟨s.ctxOf t, (s.thread t).pc, ts⟩]).2.onCore c fun k =>
      { k with bundles := [] ++ (bundlesOf s2 [⟨s.ctxOf t, (s.thread t).pc, ts⟩]).1, left0 := 4, left1 := 4 } := by
    rw [← hbk]
    rfl
  rw [hf, core_onCore, if_pos rfl, ← hpk, ← hk]
  rfl

/-! ### The statement -/

/-- Two threads of two lanes share a bundle, the lower lane first. -/
theorem pack_two {s : State} {t u : Nat} (h : (s.thread t).lane < (s.thread u).lane) :
    pack s [t, u] = [[t, u]] ∧ pack s [u, t] = [[t, u]] := by
  have hne : (s.thread t).lane ≠ (s.thread u).lane := Nat.ne_of_lt h
  have hlt : ¬ (s.thread u).lane < (s.thread t).lane := Nat.not_lt.mpr h.le
  constructor <;> simp [pack, packThread, laneInsert, hne, hne.symm, h, hlt]

theorem rotateLeft_two (t u k : Nat) : [t, u].rotateLeft k = [t, u] ∨ [t, u].rotateLeft k = [u, t] := by
  obtain h | h : k % 2 = 0 ∨ k % 2 = 1 := by omega
  · exact .inl (by simp [List.rotateLeft, h])
  · exact .inr (by simp [List.rotateLeft, h])

/-- Settles O52: a boundary wakes and holds threads first (`settled`), which nothing later of it touches (`CoresOnly`); the
buckets of the PC table hold threads of their key (`Entered`), and each bundle is cut from one bucket or one class of those
without. -/
theorem bundlesBuilt : Obligations.BundlesBuilt := by
  refine ⟨fun s c => ⟨_, rfl, ?_⟩, fun s c t ht hi hw hb hg => ⟨_, rfl, ?_⟩, fun s c t u ht hit hiu hwt hwu hb hg hgr hpc hl => ⟨_, rfl, ?_⟩⟩
  · have h := settled_heldOnly s c
    obtain ⟨hc, hbs⟩ := buildCore_spec s c
    refine ⟨fun b hb t ht => ?_, fun t => ?_, fun t ht hs hcl hw => ?_, fun t ht w hr hw => ?_, ?_⟩
    · obtain ⟨hsub, hat⟩ := hbs b hb
      obtain ⟨hmem, hcan⟩ := List.mem_filter.mp (hsub t ht)
      refine ⟨(hc.canIssue t).trans hcan, h.coreThreads c ▸ hmem, fun u hu => ?_⟩
      rw [hc.thread, hc.thread, hc.ctxOf, hc.ctxOf]
      exact hat t ht u hu
    · rw [hc.thread]
      exact ⟨h.pc t, h.v t, h.p t⟩
    · rw [hc.thread]
      exact settled_wakes ht hs hcl hw
    · rw [hc.thread]
      exact settled_stalls ht hr hw
    · obtain ⟨hgs, hhbm, hfl⟩ := hc.memory
      obtain ⟨_, e⟩ := h.rest
      rw [hgs, hhbm, hfl, e]
      exact ⟨rfl, rfl, rfl⟩
  · obtain ⟨k, hk⟩ := buildCore_oneGroup ht List.mem_cons_self (List.nodup_singleton t) (by simp [hi, hw]) hb hg (by simp) (by simp)
    exact hk
  · have hne : t ≠ u := fun e => Nat.lt_irrefl _ (e ▸ hl)
    obtain ⟨k, hk⟩ := buildCore_oneGroup ht List.mem_cons_self (by simp [hne]) (by simp [hit, hiu, hwt, hwu]) hb hg (by simp [hgr]) (by simp [hpc])
    obtain ⟨h1, h2⟩ := pack_two hl
    obtain e | e := rotateLeft_two t u k
    · exact hk.trans (by rw [e, h1])
    · exact hk.trans (by rw [e, h2])

end Sys2Proof.Machine

/-! ### Save, relaunch and bubble slots (O43) -/

namespace Sys2Proof.Machine

/-! ### Save (R50, R51, R326) -/

theorem isWaiting_has {s : State} {k : Nat} (h : isWaiting s (s.block k) = true) : s.blocks.has k = true := by
  by_contra hk
  have hb : s.block k = .fresh := by
    have : s.blocks.find? k = none := by simpa [Sparse.has] using hk
    simp [State.block, Sparse.findD, this]
  simp [isWaiting, hb, Block.fresh] at h

theorem blockLive_has {s : State} {k : Nat} (h : s.blockLive k ≠ []) : s.blocks.has k = true := by
  by_contra hk
  have hb : s.block k = .fresh := by
    have : s.blocks.find? k = none := by simpa [Sparse.has] using hk
    simp [State.block, Sparse.findD, this]
  simp [State.blockLive, hb, Block.fresh] at h

/-- Without a place in the save area a block stays. -/
theorem saveBlock_noFrame {s : State} {k : Nat} (q : Bool)
    (h : frameFor s (s.launch (s.block k).launch).part (frameSize s (s.block k)) = none) : saveBlock s k q = s := by
  simp only [saveBlock, h, Option.bind_none]

/-- While LOCK holds a page of its frame a block stays. -/
theorem saveBlock_locked {s : State} {k o : Nat} (q : Bool) (b : Block) (hb : s.block k = b) (l : Launch) (hl : s.launch b.launch = l)
    (ho : frameFor s l.part (frameSize s b) = some o)
    (hw : areaWrite (s.freeBytes (frameSize s b)).2 l.ctx (locateDie s l.part) (((saveArea s l.part).getD (0, 0)).1 + o)
      (s.freeBytes (frameSize s b)).1 = none) : saveBlock s k q = s := by
  subst hb hl
  simp only [saveBlock, ho, Option.bind_some, hw, Option.map_none]

theorem exec_blockSave {s : State} {k : Nat} (hr : (s.block k).save = .resident) (hw : isWaiting s (s.block k) = true) (hs : saveable s k = true)
    (ht : (s.block k).lastIssue + 1250 * sysBits s RegNo.waitSave (s.launch (s.block k).launch).part 9 0 < s.clk)
    (hh : (s.die (blockCluster s k / 32)).halted.has (s.launch (s.block k).launch).ctx = false) :
    exec (.blockSave k) s = .next (saveBlock s k false) := by
  show Host.Outcome.next _ = _
  simp [hr, hw, hs, ht, hh]

theorem exec_blockSave_early {s : State} {k : Nat}
    (h : s.clk ≤ (s.block k).lastIssue + 1250 * sysBits s RegNo.waitSave (s.launch (s.block k).launch).part 9 0 ∨ isWaiting s (s.block k) = false) :
    exec (.blockSave k) s = .next s := by
  show Host.Outcome.next _ = _
  obtain h | h := h
  · simp [Nat.not_lt.mpr h]
  · simp [h]

/-! ### What a relaunch takes (R346, R352) -/

theorem mem_edfInsert {x y : Nat × Launch} {l : List (Nat × Launch)} (h : y ∈ edfInsert x l) : y = x ∨ y ∈ l := by
  induction l with
  | nil => exact .inl (by simpa [edfInsert] using h)
  | cons z l ih =>
      unfold edfInsert at h
      split at h
      · exact List.mem_cons.mp h
      · obtain rfl | h := List.mem_cons.mp h
        · exact .inr List.mem_cons_self
        · exact (ih h).imp_right (List.mem_cons_of_mem _)

theorem mem_edfSort {y : Nat × Launch} {l : List (Nat × Launch)} (h : y ∈ edfSort l) : y ∈ l := by
  induction l with
  | nil => exact h
  | cons x l ih => exact (mem_edfInsert h).elim (fun e => e ▸ List.mem_cons_self) fun h => List.mem_cons_of_mem _ (ih h)

theorem candidates_has {s : State} {p id : Nat} {l : Launch} (h : (id, l) ∈ candidates s p) : s.launches.has id = true := by
  have h := (List.mem_filter.mp (mem_edfSort h)).1
  exact (Sparse.mem_keys _ _).mp (List.mem_map_of_mem (List.mem_filter.mp h).1)

theorem nextOf_saved_has {s : State} {id k : Nat} {l : Launch} (h : (nextOf s id l).saved = some k) : s.blocks.has k = true := by
  unfold nextOf at h
  split at h
  · rename_i b x r e
    obtain rfl := Option.some.inj h
    have hm : (b, x) ∈ queuedBlocks s id := e ▸ List.mem_cons_self
    exact (Sparse.mem_keys _ _).mp (List.mem_map_of_mem (List.mem_filter.mp hm).1)
  · cases h

/-- A choice to place is of a candidate's next block, where there is room. -/
theorem choose_place {s : State} {L : List (Nat × Launch)} {id c : Nat} {n : Next} {cs : List (Nat × Nat)} (h : choose s L = .place id n c cs) :
    ∃ l a, (id, l) ∈ L ∧ n = nextOf s id l ∧ seek s id l a n.stage n.groups n.entries = some (c, cs) := by
  induction L with
  | nil => cases h
  | cons x r ih =>
      obtain ⟨i, l⟩ := x
      have later : choose s r = .place id n c cs →
          ∃ l' a, (id, l') ∈ (i, l) :: r ∧ n = nextOf s id l' ∧ seek s id l' a n.stage n.groups n.entries = some (c, cs) := fun h => by
        obtain ⟨l', a, hm, h⟩ := ih h
        exact ⟨l', a, List.mem_cons_of_mem _ hm, h⟩
      unfold choose at h
      dsimp only at h
      split at h
      · cases h
      · exact later h
      · split at h
        · rename_i hseek
          cases h
          exact ⟨l, _, List.mem_cons_self, rfl, hseek⟩
        · exact later h

theorem shareOut_subset {cs : List (Nat × Nat)} {n : Nat} {e : Nat × Nat} (h : e ∈ shareOut cs n) : ∃ k, (e.1, k) ∈ cs := by
  induction cs generalizing n with
  | nil => cases n <;> simp [shareOut] at h
  | cons x cs ih =>
      have later : ∀ {m}, e ∈ shareOut cs m → ∃ k, (e.1, k) ∈ x :: cs := fun h => by
        obtain ⟨k, hk⟩ := ih h
        exact ⟨k, List.mem_cons_of_mem _ hk⟩
      cases n with
      | zero => simp [shareOut] at h
      | succ n =>
          obtain ⟨c, k⟩ := x
          simp only [shareOut] at h
          split at h
          · exact later h
          · obtain rfl | h := List.mem_cons.mp h
            · exact ⟨k, List.mem_cons_self⟩
            · exact later h

/-- R39: the cores taken on a cluster are cores of it. -/
theorem coresFor_cluster {s : State} {k : Packet} {cap : Nat → Nat} {c n : Nat} {cs : List (Nat × Nat)} (h : coresFor s k cap c n = some cs) :
    ∀ e ∈ cs, clusterOf e.1 = c := by
  have four : ∀ x ∈ (List.range 4).map (fun i => 4 * c + i), clusterOf x = c := fun x hx => by
    obtain ⟨i, hi, rfl⟩ := List.mem_map.mp hx
    have := List.mem_range.mp hi
    simp only [clusterOf]
    omega
  intro e he
  unfold coresFor at h
  dsimp only at h
  split at h
  · split at h
    · rename_i x hx
      cases h
      obtain rfl := List.mem_singleton.mp he
      exact four _ (List.mem_filter.mp (List.mem_of_find?_eq_some hx)).1
    · cases h
  · split at h
    · cases h
    · cases h
      obtain ⟨m, hm⟩ := shareOut_subset he
      obtain ⟨x, hx, hxe⟩ := List.mem_map.mp hm
      exact four _ ((congrArg Prod.fst hxe) ▸ hx)

theorem seek_cluster {s : State} {id : Nat} {l : Launch} {a : Affinity} {stage n w c : Nat} {cs : List (Nat × Nat)}
    (h : seek s id l a stage n w = some (c, cs)) : ∀ e ∈ cs, clusterOf e.1 = c := by
  obtain ⟨x, -, hx⟩ := List.mem_filterMap.mp (List.mem_of_find?_eq_some h)
  obtain ⟨y, hy, e⟩ := Option.map_eq_some_iff.mp hx
  cases e
  unfold roomOn at hy
  split at hy
  · cases hy
  · exact coresFor_cluster hy

/-! ### What a relaunch leaves in place -/

/-- Groups stay on their cores, resident blocks are resident, launches and withdrawn entries stand. -/
structure KeepsPlace (s s' : State) : Prop where
  launches : s'.launches = s.launches
  core : ∀ g, (s'.group g).core = (s.group g).core
  withdrawn : ∀ b, (s'.block b).withdrawn = (s.block b).withdrawn
  resident : ∀ b, (s.block b).save = .resident → (s'.block b).save = .resident

/-- The same, with memory and the traps held for queues as they were. -/
structure Quiet (s s' : State) : Prop extends KeepsPlace s s' where
  hbm : s'.hbm = s.hbm
  held : ∀ p, (s'.part p).heldTraps = (s.part p).heldTraps

namespace KeepsPlace

variable {s s' s'' : State}

theorem refl (s : State) : KeepsPlace s s := ⟨rfl, fun _ => rfl, fun _ => rfl, fun _ h => h⟩
theorem trans (h : KeepsPlace s s') (h' : KeepsPlace s' s'') : KeepsPlace s s'' :=
  ⟨h'.launches.trans h.launches, fun g => (h'.core g).trans (h.core g), fun b => (h'.withdrawn b).trans (h.withdrawn b),
    fun b hb => h'.resident b (h.resident b hb)⟩
theorem foldl {α : Type} {f : State → α → State} (hf : ∀ s x, KeepsPlace s (f s x)) (l : List α) : ∀ s, KeepsPlace s (l.foldl f s) := by
  induction l with
  | nil => exact refl
  | cons x l ih => exact fun s => (hf s x).trans (ih _)
theorem onPart (s : State) (p : Nat) (f : Part → Part) : KeepsPlace s (s.onPart p f) :=
  ⟨rfl, fun _ => rfl, fun _ => rfl, fun _ h => h⟩
theorem of_memOnly (h : MemOnly s s') : KeepsPlace s s' :=
  ⟨h.launches, fun g => by rw [h.group], fun b => by rw [h.block], fun b hb => by rw [h.block, hb]⟩
theorem of_wakes (h : Wakes (fun _ => False) s s') : KeepsPlace s s' := ⟨h.launches, h.core, h.withdrawn, h.resident⟩

end KeepsPlace

namespace Quiet

variable {s s' s'' : State}

theorem refl (s : State) : Quiet s s := ⟨.refl s, rfl, fun _ => rfl⟩
theorem trans (h : Quiet s s') (h' : Quiet s' s'') : Quiet s s'' :=
  ⟨h.toKeepsPlace.trans h'.toKeepsPlace, h'.hbm.trans h.hbm, fun p => (h'.held p).trans (h.held p)⟩
theorem foldl {α : Type} {f : State → α → State} (hf : ∀ s x, Quiet s (f s x)) (l : List α) : ∀ s, Quiet s (l.foldl f s) := by
  induction l with
  | nil => exact refl
  | cons x l ih => exact fun s => (hf s x).trans (ih _)
theorem of_wakes (h : Wakes (fun _ => False) s s') : Quiet s s' :=
  ⟨.of_wakes h, h.hbm, fun p => by rw [State.part, State.part, h.parts]⟩
theorem onThread (s : State) (t : Nat) (f : Thread → Thread) : Quiet s (s.onThread t f) :=
  ⟨⟨rfl, fun _ => rfl, fun _ => rfl, fun _ h => h⟩, rfl, fun _ => rfl⟩
theorem onPart (s : State) (p : Nat) (f : Part → Part) (hf : ∀ x, (f x).heldTraps = x.heldTraps) : Quiet s (s.onPart p f) := by
  refine ⟨.onPart s p f, rfl, fun q => ?_⟩
  rw [part_onPart]
  split
  · subst_vars
    exact hf _
  · rfl
theorem release8 (s : State) (t : Nat) : Quiet s (release8 s t) := of_wakes (.release8 s t id)
theorem acquire (s : State) (t : Nat) (sc : Scope) (r : List Nat) (f : Bool) : Quiet s (acquire s t sc r f) := of_wakes (.acquire s t sc r f)
theorem release (s : State) (t : Nat) (sc : Scope) (f : Bool) (own : List Nat) : Quiet s (release s t sc f own).2 := by
  obtain ⟨h, n, e⟩ := release_eq s t sc f own
  rw [e]
  exact ⟨⟨rfl, fun _ => rfl, fun _ => rfl, fun _ h => h⟩, rfl, fun _ => rfl⟩
theorem repost (s : State) (b c : Nat) (e : RtEntry) : Quiet s (repost s b c e) :=
  of_wakes ((Wakes.onCluster s c _).trans (.onBlock _ b _ (fun _ => rfl) fun _ h => h))

/-- R242: the threads that wait to take a flat go on. -/
theorem attachWake (s : State) (c k : Nat) : Quiet s (attachWake s c k) := by
  unfold Machine.attachWake
  split
  · exact refl s
  · refine foldl (fun s t => ?_) _ s
    split
    · exact (onThread s t _).trans (release8 _ t)
    · exact refl s

theorem cueDeliver (s : State) (t d : Nat) (e : Dword) (l : List Nat) : Quiet s (cueDeliver s t d e l) :=
  (of_wakes (.extend s t (unionN l s.hist.dev))).trans (onThread _ t _)
theorem cueDrop (s : State) (p h : Nat) : Quiet s (cueDrop s p h) := onPart s p _ fun _ => rfl

/-- R239: pops served. -/
theorem cueServe (p h fuel : Nat) : ∀ s, Quiet s (cueServe s p h fuel) := by
  induction fuel with
  | zero => exact refl
  | succ fuel ih =>
      intro s
      unfold Machine.cueServe
      split
      · exact refl s
      · split
        · rename_i e _ t _ _
          split
          · rename_i d _
            have hw := onPart (Machine.cueDeliver s t d e.1 e.2) p
              (fun x => { x with cues := x.cues.modify h fun q => { q with waiters := q.waiters.filter (· != t) } }) fun _ => rfl
            exact ((((cueDeliver s t d e.1 e.2).trans hw).trans (cueDrop _ p h)).trans (release8 _ t)).trans (ih _)
          · exact refl s
        · exact refl s

end Quiet

theorem KeepsPlace.agentPut (s : State) (p : Nat) (r : List Nat) (va : Nat) (b : List Byte) : KeepsPlace s (agentPut s p r va b) := by
  have hw : KeepsPlace s (agentWrite s p r va b).2 := by
    unfold agentWrite
    split
    · exact refl s
    · split
      · exact refl s
      · exact of_memOnly (.writeRange ..)
  unfold Machine.agentPut
  generalize agentWrite s p r va b = x at hw
  split
  · exact hw.trans (onPart _ p fun y => { y with late := y.late ++ [⟨va, b, r, none⟩] })
  · exact hw

/-- R238: an entry enters a queue. -/
theorem KeepsPlace.cueEnter (s : State) (p h : Nat) (e : Dword) (l : List Nat) : KeepsPlace s (cueEnter s p h e l) := by
  unfold Machine.cueEnter
  split
  · exact refl s
  · rename_i q _
    have hq : ∀ (ts : List Nat) s, KeepsPlace s (ts.foldl (fun s t => queueBlock s (s.blockIdOf t)) s) :=
      foldl fun s t => of_wakes (.queueBlock s _)
    exact (((agentPut s p [] _ _).trans (onPart _ p fun x => { x with cues := x.cues.modify h fun q => { q with entries := q.entries ++ [(e, l)] } })).trans
      (hq _ _)).trans (Quiet.cueServe p h _ _).toKeepsPlace

/-- R319: traps held for a queue enter it. -/
theorem KeepsPlace.heldTraps (p h fuel : Nat) : ∀ s, KeepsPlace s (heldTraps s p h fuel) := by
  induction fuel with
  | zero => exact refl
  | succ fuel ih =>
      intro s
      unfold Machine.heldTraps
      split
      · split
        · exact refl s
        · exact ((onPart s p _).trans (cueEnter _ p h _ _)).trans (ih _)
      · exact refl s

/-- Two states that differ at most in groups, whose cores stay on a cluster where they are on it, and free values spent. -/
structure Seats (c : Nat) (s s' : State) : Prop where
  rest : ∃ gs n, s' = { s with groups := gs, ctr := n }
  has : ∀ g, s'.groups.has g = s.groups.has g
  core : ∀ g, clusterOf (s.group g).core = c → clusterOf (s'.group g).core = c

namespace Seats

variable {c : Nat} {s s' s'' : State}

theorem refl (s : State) : Seats c s s := ⟨⟨_, _, rfl⟩, fun _ => rfl, fun _ h => h⟩
theorem trans (h : Seats c s s') (h' : Seats c s' s'') : Seats c s s'' := by
  refine ⟨?_, fun g => (h'.has g).trans (h.has g), fun g hg => h'.core g (h.core g hg)⟩
  obtain ⟨_, _, rfl⟩ := h.rest
  obtain ⟨_, _, rfl⟩ := h'.rest
  exact ⟨_, _, rfl⟩
theorem ctr (s : State) (n : Nat) : Seats c s { s with ctr := n } := ⟨⟨_, _, rfl⟩, fun _ => rfl, fun _ h => h⟩
theorem onGroup (s : State) (g : Nat) (f : Group → Group) (hf : ∀ x, clusterOf x.core = c → clusterOf (f x).core = c) :
    Seats c s (s.onGroup g f) := by
  refine ⟨⟨_, _, rfl⟩, fun u => by simp, fun u hu => ?_⟩
  simp only [State.group, State.onGroup, Sparse.findD, Sparse.find?_modify] at hu ⊢
  split
  · cases h : s.groups.find? u with
    | none => simpa [h] using hu
    | some x => exact hf x (by simpa [h] using hu)
  · exact hu
theorem pick (s : State) (n : Nat) : Seats c s (s.pick n).2 := by
  unfold State.pick
  split
  · exact refl s
  · exact ctr s _
theorem takeSlot (s : State) (k : Nat) (priv : Bool) : Seats c s (takeSlot s k priv).2 := pick s _

end Seats

/-- A group takes a slot of a core. -/
def seatGroup (s : State) (e : Nat × Nat) : State :=
  let (k, s) := takeSlot (s.onGroup e.1 fun y => { y with core := e.2, slot := 192 }) e.2 false
  s.onGroup e.1 fun y => { y with slot := k }

theorem seatGroup_seats {c : Nat} (s : State) {e : Nat × Nat} (he : clusterOf e.2 = c) : Seats c s (seatGroup s e) :=
  ((Seats.onGroup s e.1 (fun y => { y with core := e.2, slot := 192 }) fun _ _ => he).trans (.takeSlot _ e.2 false)).trans
    (.onGroup _ e.1 (fun y => { y with slot := _ }) fun _ h => h)

/-- The groups of a block come to the cores given them on a cluster. -/
def seatBlock (s : State) (x : Block) (lg : List Nat) (c : Nat) (cs : List (Nat × Nat)) : State :=
  (lg.zip (perGroup cs)).foldl seatGroup
    { s with groups := s.groups.mapKV fun g y => if x.groups.contains g then { y with core := 4 * c } else y }

theorem foldl_seatGroup_seats {c : Nat} (l : List (Nat × Nat)) (hl : ∀ e ∈ l, clusterOf e.2 = c) : ∀ s, Seats c s (l.foldl seatGroup s) := by
  induction l with
  | nil => exact .refl
  | cons e l ih =>
      exact fun s => (seatGroup_seats s (hl e List.mem_cons_self)).trans (ih (fun x hx => hl x (List.mem_cons_of_mem _ hx)) _)

theorem seatBlock_spec {s : State} {x : Block} {c : Nat} {cs : List (Nat × Nat)} (lg : List Nat) (hcs : ∀ e ∈ cs, clusterOf e.1 = c) :
    (∃ gs n, seatBlock s x lg c cs = { s with groups := gs, ctr := n }) ∧
    ∀ g ∈ x.groups, s.groups.has g = true → clusterOf ((seatBlock s x lg c cs).group g).core = c := by
  have hzip : ∀ e ∈ lg.zip (perGroup cs), clusterOf e.2 = c := fun e he => by
    obtain ⟨y, hy, h⟩ := List.mem_flatMap.mp (List.of_mem_zip he).2
    rw [List.eq_of_mem_replicate h]
    exact hcs y hy
  have h := foldl_seatGroup_seats _ hzip { s with groups := s.groups.mapKV fun g y => if x.groups.contains g then { y with core := 4 * c } else y }
  refine ⟨?_, fun g hg hh => h.core g ?_⟩
  · obtain ⟨gs, n, e⟩ := h.rest
    exact ⟨gs, n, e⟩
  · obtain ⟨y, hy⟩ := (Sparse.has_iff _ _).1 hh
    simp [State.group, Sparse.findD, hy, hg, clusterOf]

/-- A thread of a relaunched block that awaits a flat or a queue's entry looks again. -/
def lookAgain (p : Nat) (s : State) (t : Nat) : State :=
  match (s.thread t).why with
  | .take k _ => attachWake s (s.coreOf t) k
  | .cue h _ =>
      let s := cueServe s p h (((s.part p).cues.find? h).map (fun q => q.waiters.length) |>.getD 0)
      heldTraps s p h (s.part p).heldTraps.length
  | _ => s

theorem KeepsPlace.lookAgain (p : Nat) (s : State) (t : Nat) : KeepsPlace s (lookAgain p s t) := by
  unfold Machine.lookAgain
  split
  · exact (Quiet.attachWake s _ _).toKeepsPlace
  · exact (Quiet.cueServe p _ _ s).toKeepsPlace.trans (.heldTraps p _ _ _)
  · exact refl s

theorem Quiet.lookAgain {p : Nat} {s : State} (hp : (s.part p).heldTraps = []) (t : Nat) : Quiet s (lookAgain p s t) := by
  unfold Machine.lookAgain
  split
  · exact attachWake s _ _
  · rename_i h _ _
    have hq := cueServe p h (((s.part p).cues.find? h).map (fun q => q.waiters.length) |>.getD 0) s
    dsimp only
    rw [hq.held p, hp]
    exact hq
  · exact refl s

theorem Quiet.lookAll {p : Nat} (ts : List Nat) : ∀ {s : State}, (s.part p).heldTraps = [] → Quiet s (ts.foldl (Machine.lookAgain p) s) := by
  induction ts with
  | nil => exact fun _ => refl _
  | cons t ts ih =>
      intro s hp
      have h := Quiet.lookAgain hp t
      exact h.trans (ih ((h.held p).trans hp))

/-- What a relaunched block does before its threads look again: entries re-posted, releases and acquires made. -/
def rejoin (s : State) (x : Block) (b c : Nat) : State :=
  let s := x.withdrawn.foldl (fun s e => repost s b c e) s
  let s := x.threads.foldl (fun s t => (release s t .dev false []).2) s
  (s.blockLive b).foldl (fun s t => acquire s t .dev [] false) s

theorem Quiet.rejoin (s : State) (x : Block) (b c : Nat) : Quiet s (rejoin s x b c) :=
  ((foldl (fun s e => repost s b c e) x.withdrawn s).trans (foldl (fun s t => release s t .dev false []) x.threads _)).trans
    (foldl (fun s t => acquire s t .dev [] false) _ _)

/-- A block resident again, its frame free. -/
def unsave (s : State) (x : Block) (b p : Nat) : State :=
  (s.onPart p fun y => { y with frames := match x.save with
    | .queued o n => y.frames.erase (o, n)
    | _ => y.frames }).onBlock b fun y => { y with save := .resident, withdrawn := [], lastIssue := s.clk }

/-- The steps of a relaunch; its last fold is over the threads that were live as the entries were re-posted. -/
theorem relaunch_eq (s : State) (id b c : Nat) (cs : List (Nat × Nat)) :
    ∃ ts : List Nat, relaunch s id b c cs = ts.foldl (lookAgain (s.launch id).part)
      (rejoin (unsave (seatBlock s (s.block b) (liveGroups s (s.block b)) c cs) (s.block b) b (s.launch id).part) (s.block b) b c) :=
  ⟨_, rfl⟩

/-- R51: a relaunched block is resident on its cluster. -/
theorem relaunch_spec {s : State} {id b c : Nat} {cs : List (Nat × Nat)} (hb : s.blocks.has b = true) (hcs : ∀ e ∈ cs, clusterOf e.1 = c) :
    let s' := relaunch s id b c cs
    (s'.block b).save = .resident ∧ (s'.block b).withdrawn = [] ∧ ((s.part (s.launch id).part).heldTraps = [] → s'.hbm = s.hbm) ∧
    s'.launches = s.launches ∧ ∀ g ∈ (s.block b).groups, s.groups.has g = true → clusterOf (s'.group g).core = c := by
  intro s'
  obtain ⟨ts, e⟩ := relaunch_eq s id b c cs
  obtain ⟨⟨gs, n, hseat⟩, hcore⟩ := seatBlock_spec (s := s) (x := s.block b) (liveGroups s (s.block b)) hcs
  have e : s' = _ := e
  generalize seatBlock s (s.block b) (liveGroups s (s.block b)) c cs = s1 at e hseat hcore
  have hb1 : s1.blocks.has b = true := by rw [hseat]; exact hb
  have hu : ((unsave s1 (s.block b) b (s.launch id).part).block b).save = .resident ∧
      ((unsave s1 (s.block b) b (s.launch id).part).block b).withdrawn = [] := by
    rw [unsave, block_onBlock _ _ _ _ (by simpa using hb1)]
    simp
  have hj := Quiet.rejoin (unsave s1 (s.block b) b (s.launch id).part) (s.block b) b c
  have hk := hj.toKeepsPlace.trans (KeepsPlace.foldl (KeepsPlace.lookAgain (s.launch id).part) ts _)
  rw [← e] at hk
  refine ⟨hk.resident b hu.1, (hk.withdrawn b).trans hu.2, fun hp => ?_, ?_, fun g hg hh => ?_⟩
  · have hheld : ((rejoin (unsave s1 (s.block b) b (s.launch id).part) (s.block b) b c).part (s.launch id).part).heldTraps = [] := by
      rw [hj.held, ← hp, unsave, part_onBlock, part_onPart, if_pos rfl, hseat]
      rfl
    rw [e, (Quiet.lookAll ts hheld).hbm, hj.hbm, unsave, hseat]
    rfl
  · rw [hk.launches, unsave, hseat]
    rfl
  · rw [hk.core]
    exact hcore g hg hh

/-- R348: noting the launch passed over changes nothing but that note. -/
theorem passOver_spec (s : State) (p id : Nat) :
    ∃ ls, passOver s p id = { s with launches := ls } ∧ (∀ i, ls.has i = s.launches.has i) ∧
      ∀ i, ((passOver s p id).launch i).part = (s.launch i).part := by
  unfold passOver
  split
  · split
    · exact ⟨_, rfl, fun _ => rfl, fun _ => rfl⟩
    · refine ⟨_, rfl, fun i => by simp, fun i => ?_⟩
      simp only [State.launch, State.onLaunch, Sparse.findD, Sparse.find?_modify]
      split
      · cases s.launches.find? i <;> rfl
      · rfl
  · exact ⟨_, rfl, fun _ => rfl, fun _ => rfl⟩

/-- The launch whose block takes its turn, and its partition, as the turn is taken. -/
def turnTaken (s : State) (p id c : Nat) : State :=
  ((passOver s p id).onLaunch id fun x =>
    { x with disp := some (x.disp.getD s.ns), mark := if x.disp.isSome then x.mark else (passOver s p id).hist.next,
             lastCluster := some c, unplaced := none }).onPart p fun x => { x with reserve := match x.reserve with
    | some (i, k) => if i = id then none else some (i, k)
    | none => none }

theorem placeNext_saved {s : State} {p id k c : Nat} {n : Next} {cs : List (Nat × Nat)} (hn : n.saved = some k) :
    placeNext s p id n c cs = relaunch (turnTaken s p id c) id k c cs := by
  simp [placeNext, turnTaken, hn] <;> rfl

theorem turnTaken_spec {s : State} {p id c : Nat} (hid : s.launches.has id = true) :
    let s' := turnTaken s p id c
    s'.blocks = s.blocks ∧ s'.groups = s.groups ∧ s'.hbm = s.hbm ∧ (s'.launch id).lastCluster = some c ∧
    (s'.launch id).part = (s.launch id).part ∧ ∀ q, (s'.part q).heldTraps = (s.part q).heldTraps := by
  intro s'
  obtain ⟨ls, e, hhas, hpart⟩ := passOver_spec s p id
  have hid' : (passOver s p id).launches.has id = true := by rw [e]; exact (hhas id).trans hid
  refine ⟨?_, ?_, ?_, ?_, ?_, fun q => ?_⟩
  · show (passOver s p id).blocks = _
    rw [e]
  · show (passOver s p id).groups = _
    rw [e]
  · show (passOver s p id).hbm = _
    rw [e]
  · show ((turnTaken s p id c).launch id).lastCluster = _
    rw [turnTaken, launch_onPart, launch_onLaunch _ _ _ _ hid', if_pos rfl]
  · show ((turnTaken s p id c).launch id).part = _
    rw [turnTaken, launch_onPart, launch_onLaunch _ _ _ _ hid', if_pos rfl]
    exact hpart id
  · show ((turnTaken s p id c).part q).heldTraps = _
    have hq : (passOver s p id).part q = s.part q := by rw [e]; rfl
    rw [turnTaken, part_onPart]
    split
    · subst_vars
      rw [part_onLaunch, hq]
    · rw [part_onLaunch, hq]

/-- R51, R346: a block queued for relaunch that takes its turn. -/
theorem placeNext_saved_spec {s : State} {p id k c : Nat} {n : Next} {cs : List (Nat × Nat)} (hn : n.saved = some k)
    (hk : s.blocks.has k = true) (hid : s.launches.has id = true) (hcs : ∀ e ∈ cs, clusterOf e.1 = c) :
    let s' := placeNext s p id n c cs
    (s'.block k).save = .resident ∧ (s'.block k).withdrawn = [] ∧ ((s.part (s.launch id).part).heldTraps = [] → s'.hbm = s.hbm) ∧
    (s'.launch id).lastCluster = some c ∧ ∀ g ∈ (s.block k).groups, s.groups.has g = true → clusterOf (s'.group g).core = c := by
  obtain ⟨hblocks, hgroups, hhbm, hlast, hpart, hheld⟩ := turnTaken_spec (p := p) (c := c) hid
  rw [placeNext_saved hn]
  obtain ⟨hres, hwd, hm, hla, hcore⟩ := relaunch_spec (s := turnTaken s p id c) (id := id) (b := k) (by rw [hblocks]; exact hk) hcs
  refine ⟨hres, hwd, fun hp => (hm ?_).trans hhbm, ?_, fun g hg hh => hcore g ?_ ?_⟩
  · rw [hpart, hheld, hp]
  · rw [State.launch, hla]
    exact hlast
  · rw [State.block, hblocks]
    exact hg
  · rw [hgroups]
    exact hh

/-! ### Bubble slots (R358) -/

/-- R358: a slot ends. -/
theorem closeBubble_spec {s : State} {p : Nat} {b : Bubble} (hb : (s.part p).bubble = some b) (at_ : Nat) :
    let s' := closeBubble s p at_
    (s'.part p).bubble = none ∧ s'.threads = s.threads ∧ ∀ i x, s.blocks.find? i = some x → let l := s.launch x.launch
      s'.block i = { x with due :=
        if l.part = p ∧ l.pkt.cls ≠ 0 ∧ l.priv = false ∧ x.save = .resident ∧ x.due = none then some (at_ + 1000 * b.allowance) else x.due } := by
  intro s'
  have e : s' = { s.onPart p (fun x => { x with bubble := none }) with blocks := s.blocks.mapKV fun _ x =>
      let l := s.launch x.launch
      if l.part == p && l.pkt.cls != 0 && !l.priv && x.save == .resident && x.due.isNone then
        { x with due := some (at_ + 1000 * b.allowance) } else x } := by
    show closeBubble s p at_ = _
    rw [closeBubble, hb]
    rfl
  refine ⟨?_, by rw [e]; rfl, fun i x hx => ?_⟩
  · rw [e]
    show ((s.onPart p _).part p).bubble = none
    rw [part_onPart, if_pos rfl]
  · simp only [e, State.block, Sparse.findD, Sparse.find?_mapKV, hx, Option.map_some, Option.getD_some, Bool.and_eq_true, beq_iff_eq, bne_iff_ne,
      Bool.not_eq_true', Option.isNone_iff_eq_none, and_assoc]
    split <;> rfl

theorem exec_bubbleSlotEnd_open {s : State} {p : Nat} {b : Bubble} (hb : (s.part p).bubble = some b) :
    exec (.bubbleSlotEnd p) s = .next (if b.ends ≤ s.ns then closeBubble s p b.ends else s) := by
  show Host.Outcome.next _ = _
  rw [hb]

/-- R358: a block alone due for its overrun. -/
theorem exec_bubbleOverrunSave_one {s : State} {p k : Nat} {x : Block}
    (hdue : (s.blocks.items.filter fun e => (s.launch e.2.launch).part == p && e.2.save == .resident && (match e.2.due with
      | some t => decide (t ≤ s.ns)
      | none => false)) = [(k, x)]) (hl : s.blockLive k ≠ []) (hs : saveable s k = true) :
    exec (.bubbleOverrunSave p) s = .next (saveBlock s k true) := by
  show Host.Outcome.next ((s.blocks.items.filter fun e => (s.launch e.2.launch).part == p && e.2.save == .resident && (match e.2.due with
      | some t => decide (t ≤ s.ns)
      | none => false)).foldl _ s) = _
  rw [hdue]
  simp [hl, hs]

/-- Settles O43, by what saving a block (`saveBlock_spec`), relaunching it (`relaunch_spec`) and closing a slot (`closeBubble_spec`) do. -/
theorem savesAndBubbles : Obligations.SavesAndBubbles := by
  refine ⟨fun s k => ?_, fun s k h => exec_blockSave_early h, fun s k id n c cs hc hn => ?_, fun s p => ⟨fun hb => ?_, fun b hb => ⟨fun h => ?_, fun h => ?_⟩⟩,
    fun s p k x o hdue hx hl hs ho => ?_⟩
  · intro b l n f hr hw hs ht hh
    have he := exec_blockSave hr hw hs ht hh
    refine ⟨fun hf => he.trans (congrArg _ (saveBlock_noFrame false hf)), fun o ho => ⟨fun hn => ?_, fun s1 hs1 => ⟨_, he, ?_⟩⟩⟩
    · exact he.trans (congrArg _ (saveBlock_locked false b rfl l rfl ho hn))
    · exact saveBlock_spec false (isWaiting_has hw) rfl rfl rfl ho hs1
  · obtain ⟨l, a, hm, rfl, hseek⟩ := choose_place hc
    refine ⟨placeNext s (s.launch (s.block k).launch).part id (nextOf s id l) c cs, ?_, ?_⟩
    · show Host.Outcome.next _ = _
      simp [hc, hn]
    · exact placeNext_saved_spec hn (nextOf_saved_has hn) (candidates_has hm) (seek_cluster hseek)
  · show Host.Outcome.next _ = _
    rw [hb]
  · rw [exec_bubbleSlotEnd_open hb, if_neg (Nat.not_le.mpr h)]
  · rw [exec_bubbleSlotEnd_open hb, if_pos h]
    exact ⟨_, rfl, closeBubble_spec hb b.ends⟩
  · intro f s1 hw
    have hp : (s.launch x.launch).part = p := by
      have hm : (k, x) ∈ [(k, x)] := List.mem_singleton_self _
      rw [← hdue] at hm
      have h := (List.mem_filter.mp hm).2
      simp only [Bool.and_eq_true, beq_iff_eq] at h
      exact h.1.1
    subst hp
    obtain ⟨hsave, -, -, hframes, -, hhbm, hflats⟩ := saveBlock_spec true (blockLive_has hl) hx rfl rfl ho hw
    exact ⟨_, exec_bubbleOverrunSave_one hdue hl hs, hsave, hframes, hhbm, hflats⟩

end Sys2Proof.Machine

/-! ### Accesses that trap, and what holds a word before it issues (O15) -/

namespace Sys2Proof.Machine

/-! ### Accesses at fault (R108..R111, R219, R317) -/

/-- A memory word whose one active thread's access may not be made traps there. -/
theorem word_access_trap {i : Instr} {b : Bundle} {s : State} {t : Nat} {c : Cause} {f : State → Env → Access}
    (he : ∀ s, exec i s = word i s (memBody f)) (hn : gatherMask i = none) (h : Sole i b s t)
    (hc : accessCheck (windowView (afterIssue b s) t).1 (issuedAs i b s) t (f (afterIssue b s) (envOf (afterIssue b s) t)) = .error c) :
    exec i s = .next (accessTraps b s t c (f (afterIssue b s) (envOf (afterIssue b s) t)).va) := by
  obtain ⟨-, -, -, hready⟩ := h.thread
  rw [he, word_issues h.issuing hn, memBody_trap (t := t) h.active rfl hc (by rw [windowView_thread]; exact hready)]
  rfl

theorem accessCheck_of_target_error {s : State} {is : Issued} {t : Nat} {x : Access} {c : Cause} (h : accessTarget s t x = .error c) :
    accessCheck s is t x = .error c := by
  rw [accessCheck, h]

theorem inFlat_lt {va : Nat} (h : inFlat va = true) : va < 2 ^ 57 := by
  have h := of_decide_eq_true h
  unfold flatBase at h
  omega

theorem accessTarget_outOfRange {s : State} {t : Nat} {x : Access} (h : 2 ^ 57 ≤ x.va ∨ (inFlat x.va = true ∧ x.flatOk = false)) :
    accessTarget s t x = .error .vaRange := by
  unfold accessTarget
  dsimp only
  obtain h | ⟨hf, hok⟩ := h
  · rw [if_pos h]
  · rw [if_neg (Nat.not_le.mpr (inFlat_lt hf)), if_pos hf, hok]
    rfl

/-- An access in the flat aperture that may lie there: aligned, it is as its slot is. -/
theorem accessTarget_flat {s : State} {t : Nat} {x : Access} (hf : inFlat x.va = true) (hok : x.flatOk = true) :
    accessTarget s t x = if x.va % x.align ≠ 0 then .error .misaligned else
      match slotBank s (s.coreOf t) (flatSlot x.va) with
      | none => .error .flatDetached
      | some b => if x.write && slotRo s (s.coreOf t) (flatSlot x.va) then .error .flatReadonly
          else .ok (.flat (dieOf (s.coreOf t)) b (flatOff x.va)) := by
  have hlt := inFlat_lt hf
  unfold accessTarget targetOf
  dsimp only
  rw [if_neg (Nat.not_le.mpr hlt), if_pos hf, if_pos hf, if_neg (not_not.mpr (Nat.div_eq_of_lt hlt)), hok]
  rfl

/-- An access outside the aperture is as the windows and its alignment are. -/
theorem accessTarget_windows {s : State} {t : Nat} {x : Access} (hlt : x.va < 2 ^ 57) (hf : inFlat x.va = false) :
    (∀ c, viaWindows s (s.ctxOf t) (s.privOf t) x.va ⟨x.read, x.write, false⟩ = .error c → accessTarget s t x = .error c) ∧
    (∀ l, viaWindows s (s.ctxOf t) (s.privOf t) x.va ⟨x.read, x.write, false⟩ = .ok l → x.va % x.align ≠ 0 →
      accessTarget s t x = .error .misaligned) := by
  have hne : ¬ inFlat x.va = true := by simp [hf]
  have ht : targetOf s (s.ctxOf t) (s.coreOf t) (s.privOf t) x.va x.perm =
      match viaWindows s (s.ctxOf t) (s.privOf t) x.va ⟨x.read, x.write, false⟩ with
      | .error e => .error e
      | .ok l => .ok (.mem l) := by
    unfold targetOf
    rw [if_neg (not_not.mpr (Nat.div_eq_of_lt hlt)), if_neg hne]
    rfl
  unfold accessTarget
  dsimp only
  rw [if_neg (Nat.not_le.mpr hlt), if_neg hne, ht]
  refine ⟨fun c h => ?_, fun l h ha => ?_⟩
  · rw [h]
  · simp only [h, if_pos ha]

/-! ### What a word awaits of its thread (R67, R120, R132, R133, R251, R314) -/

theorem not_canArrive_of_not_canRelease {s : State} {t : Nat} (h : canRelease s t = false) : canArrive s t = false := by
  rw [canArrive, h, Bool.and_false]

/-- What holds a guarded word, in the order in which its causes are looked for. -/
theorem waitsFor_guarded {s : State} {i : Instr} {t : Nat} (hg : Guarded s i t) :
    waitsFor s i t = if pendingHazard s t (usesOf i) (guardOf i) true then some .result
      else match replayHold s t i with
        | some e => some (.replay e)
        | none => match portHazard (s.thread t) (usesOf i) with
            | some p => some (.port p)
            | none => if isXop i && xopPending s t then some .result else if mustDrain s i t then some .drain else none := by
  have hg' : guardHolds (guardOf i) (s.thread t) = true := hg
  simp [waitsFor, hg'] <;> rfl

/-! ### A gather that is not complete (R46, R209) -/

/-- The operations of a lane or a bundle are words. -/
theorem exec_gather {i : Instr} {m : BitVec 4} (h : gatherMask i = some m) : ∃ body, ∀ s, exec i s = word i s body := by
  unfold gatherMask at h
  split at h
  case h_12 => cases h
  all_goals exact ⟨_, fun _ => rfl⟩

theorem mem_items_of_find? {α : Type} {m : Sparse α} {k : Nat} {x : α} (h : m.find? k = some x) : (k, x) ∈ m.items := by
  obtain ⟨l⟩ := m
  simp only [Sparse.find?] at h
  induction l with
  | nil => cases h
  | cons e l ih =>
      unfold Sparse.findIn at h
      split at h
      · rename_i hk
        obtain rfl := Option.some.inj h
        exact hk ▸ List.mem_cons_self
      · exact List.mem_cons_of_mem _ (ih h)

/-- A thread whose lane is in a set of lanes of its group. -/
theorem mem_lanesIn {s : State} {t : Nat} {m : Word} (hh : s.threads.has t = true) (hm : m.getLsbD (s.thread t).lane = true) :
    t ∈ lanesIn s (s.thread t).group m := by
  obtain ⟨x, hx⟩ := (Sparse.has_iff _ _).1 hh
  have ht : s.thread t = x := by simp [State.thread, Sparse.findD, hx]
  rw [ht] at hm ⊢
  exact List.mem_map.mpr ⟨(t, x), List.mem_filter.mpr ⟨mem_items_of_find? hx, by simp [hm]⟩, rfl⟩

/-- The state in which a thread has begun a gather of its mask's members at a word. -/
def gatherBegun (s : State) (m : Nat) (pc : Dword) (t : Nat) : State :=
  s.onGroup (s.thread t).group fun x => { x with gathers := x.gathers ++ [⟨pc, lanesIn s (s.thread t).group (maskOf (s.groupOf t) m).m, [t]⟩] }

theorem gatherArrive_begins {s : State} {m : Nat} {pc : Dword} {t : Nat} (hf : ∀ x ∈ (s.groupOf t).gathers, x.pc ≠ pc)
    (hm : (maskOf (s.groupOf t) m).m.getLsbD (s.thread t).lane = true) : gatherArrive m pc s t = gatherBegun s m pc t := by
  have hnone : gatherAt (s.group (s.thread t).group) pc t = none :=
    List.find?_eq_none.mpr fun x hx => by simp [hf x hx]
  have hm' : (maskOf (s.group (s.thread t).group) m).m.getLsbD (s.thread t).lane = true := hm
  simp only [gatherArrive, hnone, hm', if_true]
  rfl

/-- A thread whose gather awaits another does not issue. -/
theorem gatherGo_awaits {s : State} {m : BitVec 4} {pc : Dword} {t u : Nat} (hh : s.threads.has t = true)
    (hgh : s.groups.has (s.thread t).group = true) (hf : ∀ x ∈ (s.groupOf t).gathers, x.pc ≠ pc)
    (hm : (maskOf (s.groupOf t) m.toNat).m.getLsbD (s.thread t).lane = true) (hu : u ≠ t)
    (hin : u ∈ lanesIn s (s.thread t).group (maskOf (s.groupOf t) m.toNat).m) :
    gatherGo m pc [t] s = ([], stall (gatherBegun s m.toNat pc t) t pc .gather) := by
  have hlanes := mem_lanesIn hh hm
  have hone := gatherArrive_first (m := m.toNat) rfl hm hf
  rw [gatherArrive_begins hf hm] at hone
  have hgroup : (gatherBegun s m.toNat pc t).groupOf t = _ := hone.group hgh
  have hat := gatherAt_last (congrArg Group.gathers hgroup) hf hlanes
  have hsets : gatherSets (gatherBegun s m.toNat pc t) pc [t] = [] := by
    simp only [gatherSets, List.filterMap_cons, List.filterMap_nil, hat]
    rw [if_neg]
    rintro ⟨-, hall⟩
    have hmem := List.contains_iff_mem.mp (List.all_eq_true.mp hall u hin)
    exact hu (List.mem_singleton.mp (List.mem_filter.mp hmem).1)
  simp only [gatherGo, List.foldl_cons, List.foldl_nil, gatherArrive_begins hf hm, hsets]
  rfl

/-- A word of a gather that is not complete leaves its thread held at the word, the gather begun. -/
theorem exec_gather_awaits {i : Instr} {m : BitVec 4} {b : Bundle} {s : State} {t u : Nat} (hi : gatherMask i = some m) (h : Issuing i b s)
    (hb : b.threads = [t]) (hf : ∀ x ∈ (s.groupOf t).gathers, x.pc ≠ b.pc)
    (hm : (maskOf (s.groupOf t) m.toNat).m.getLsbD (s.thread t).lane = true) (hu : u ≠ t)
    (hin : u ∈ lanesIn s (s.thread t).group (maskOf (s.groupOf t) m.toNat).m) :
    exec i s = .next (heldAt b (gatherBegun s m.toNat b.pc t) t .gather) := by
  obtain ⟨body, he⟩ := exec_gather hi
  have hmay := h.may t (hb ▸ List.mem_singleton_self t)
  have ho : oneGroup s i [t] = [t] := by unfold oneGroup; split <;> simp
  have hgo := gatherGo_awaits hmay.here hmay.grouped hf hm hu hin
  rw [he, word, h.bundle]
  simp only [issueWord, hb, ho]
  simp [fateOf_go h.wf hmay, hmay.ready, takeIn, hi, hgo, heldAt]

/-! ### Room (R234, R322) -/

/-- Where the operand log has no entry left, a load or store outside the flats finds no room. -/
theorem roomless_ld {s : State} {a : LdstArgs} {c t : Nat} (he : freeEntry s c (s.privOf t) = none)
    (hf : inFlat (effAddr (envOf s t) a.base a.off) = false) :
    roomless s (.ld a) c [t] = ([t], some 5) ∧ roomless s (.st a) c [t] = ([t], some 5) := by
  constructor <;> simp [roomless, memVa, hf, he]

/-- Where the copies of a core are all in flight, one more finds no room. -/
theorem roomless_cpRows {s : State} {a : DescArgs} {c t : Nat} (h : 2048 ≤ copiesOf s c) : roomless s (.cpRows a) c [t] = ([t], some 6) := by
  have hn : ¬ [t].length + copiesOf s c ≤ 2048 := by simp only [List.length_cons, List.length_nil]; omega
  have hd : 2048 - copiesOf s c = 0 := by omega
  simp only [roomless, if_neg hn, hd, List.drop_zero]

/-- What a word awaits of its thread before it issues, as it is looked for: results, replays, ports, its earlier xop, what drains. -/
theorem exec_held_by_cause {i : Instr} {b : Bundle} {s : State} {t : Nat} (hw : IsWord i) (h : Alone i b s t) :
    let u := usesOf i
    (pendingHazard s t u (guardOf i) true = true → exec i s = .next (heldAt b s t .result)) ∧
    (pendingHazard s t u (guardOf i) true = false →
      (∀ e, replayHold s t i = some e → exec i s = .next (heldAt b s t (.replay e))) ∧
      (replayHold s t i = none →
        (∀ p, portHazard (s.thread t) u = some p → portFault s (s.thread t) (s.groupOf t) u = none →
          exec i s = .next (heldAt b s t (.port p))) ∧
        (portHazard (s.thread t) u = none →
          (isXop i = true → xopPending s t = true → exec i s = .next (heldAt b s t .result)) ∧
          ((isXop i && xopPending s t) = false → mustDrain s i t = true → exec i s = .next (heldAt b s t .drain))))) := by
  have wf := waitsFor_guarded h.guarded
  refine ⟨fun hp => ?_, fun hp => ⟨fun e hr => ?_, fun hr => ⟨fun p hpo hpf => ?_, fun hpo => ⟨fun hx hxp => ?_, fun hx hd => ?_⟩⟩⟩⟩
  · exact exec_held hw h .result (by simp [wf, hp]) fun _ e => nomatch e
  · exact exec_held hw h (.replay e) (by simp [wf, hp, hr]) fun _ e => nomatch e
  · exact exec_held hw h (.port p) (by simp [wf, hp, hr, hpo]) fun _ _ => hpf
  · exact exec_held hw h .result (by simp [wf, hp, hr, hpo, hx, hxp]) fun _ e => nomatch e
  · exact exec_held hw h .drain (by simp [wf, hp, hr, hpo, hx, hd]) fun _ e => nomatch e

/-- Settles O15: a memory word's trap (`word_access_trap`), the order in which what holds a word is looked for
(`waitsFor_guarded`), room, and a gather that is not complete (`exec_gather_awaits`). -/
theorem accessFaultsAndWaits : Obligations.AccessFaultsAndWaits := by
  refine ⟨?_, fun i b s t => exec_held_by_cause, fun s t h => ?_, fun s t h => ?_, fun s t h => ?_, fun i b s t => exec_roomless,
    fun s a c t => roomless_ld, fun s a c t => roomless_cpRows, fun i m b s t hi h hb hf hm ⟨u, hu, hin⟩ => exec_gather_awaits hi h hb hf hm hu hin⟩
  · intro traps
    refine ⟨fun a b s t c => word_access_trap (fun _ => rfl) rfl, fun a b s t c => word_access_trap (fun _ => rfl) rfl,
      fun a b s t c => word_access_trap (fun _ => rfl) rfl, fun a b s t c => word_access_trap (fun _ => rfl) rfl,
      fun a b s t c => word_access_trap (fun _ => rfl) rfl, fun a b s t c => word_access_trap (fun _ => rfl) rfl,
      fun a b s t c => word_access_trap (fun _ => rfl) rfl, fun a b s t c => word_access_trap (fun _ => rfl) rfl,
      fun a b s t c => word_access_trap (fun _ => rfl) rfl, fun a b s t c => word_access_trap (fun _ => rfl) rfl,
      fun a b s t c => word_access_trap (fun _ => rfl) rfl, fun a b s t c => word_access_trap (fun _ => rfl) rfl,
      fun a b s t c => word_access_trap (fun _ => rfl) rfl, fun s is t x c => accessCheck_of_target_error,
      fun s t x => accessTarget_outOfRange, fun s t x hf hok => ?_, fun s t x => accessTarget_windows⟩
    rw [accessTarget_flat hf hok]
    refine ⟨fun ha => if_pos ha, fun ha hs => ?_, fun ha hs hro hw => ?_⟩
    · rw [if_neg (not_not.mpr ha), hs]
    · obtain ⟨b, hb⟩ := Option.ne_none_iff_exists'.mp hs
      rw [if_neg (not_not.mpr ha), hb]
      simp [hw, hro]
  · have hc := not_canArrive_of_not_canRelease h
    exact ⟨fun a ho => by simp [mustDrain, ho, h], fun a ho => ⟨by simp [mustDrain, ho, h], by simp [mustDrain, ho, h]⟩,
      fun a => by simp [mustDrain, h], fun a => by simp [mustDrain, h], fun a => by simp [mustDrain, h], fun a => by simp [mustDrain, h],
      fun a => by simp [mustDrain, h], fun a => by simp [mustDrain, hc], fun a => by simp [mustDrain, hc], fun a => by simp [mustDrain, hc],
      fun a => by simp [mustDrain, hc], fun a => by simp [mustDrain, hc], fun a => by simp [mustDrain, hc],
      fun a hm => by simp [mustDrain, hm, hc]⟩
  · refine ⟨fun a => ?_, fun a => ?_, fun a => ?_, fun a => ?_, fun a => ?_, fun a => ?_⟩ <;> simp [mustDrain, h]
  · exact ⟨fun a => by simp [mustDrain, h], fun a ha => by simp [mustDrain, ha, h]⟩

end Sys2Proof.Machine

/-! ### Tableaux (O53: R335, R412..R414) -/

namespace Sys2Proof.Machine

theorem fireTableau_fires {s : State} {p code : Nat} {h : Word} {always : Bool} (ha : (s.part p).tableau.armed = true)
    (hf : (s.part p).tableau.fired = false) (ht : (always || (s.part p).tableau.trig.testBit code) = true) :
    fireTableau s p code h always =
      s.onPart p fun z => { z with tableau := { (s.part p).tableau with fired := true, code := code, thread := h } } := by
  simp only [fireTableau, ha, hf, ht, Bool.not_false, Bool.and_self, if_true]

theorem fireTableau_idle {s : State} {p code : Nat} {h : Word}
    (hn : (s.part p).tableau.armed = false ∨ (s.part p).tableau.fired = true ∨ (s.part p).tableau.trig.testBit code = false) :
    fireTableau s p code h false = s := by
  obtain hn | hn | hn := hn <;> simp [fireTableau, hn]

theorem fireTableau_threads (s : State) (p code : Nat) (h : Word) (always : Bool) : (fireTableau s p code h always).threads = s.threads := by
  unfold fireTableau
  dsimp only
  split <;> rfl

/-- What a trigger does to a tableau that is armed for it and has not fired. -/
def triggered (code : Nat) (h : Word) (y : Tableau) : Tableau :=
  if y.armed = true ∧ y.fired = false ∧ y.trig.testBit code = true then { y with fired := true, code := code, thread := h } else y

theorem triggered_twice (code : Nat) (h : Word) (y : Tableau) : triggered code h (triggered code h y) = triggered code h y := by
  unfold triggered
  split <;> simp_all

theorem fireTableau_part (s : State) (p q code : Nat) (h : Word) :
    ((fireTableau s p code h false).part q).tableau = if q = p then triggered code h (s.part q).tableau else (s.part q).tableau := by
  by_cases hc : (s.part p).tableau.armed = true ∧ (s.part p).tableau.fired = false ∧ (s.part p).tableau.trig.testBit code = true
  · obtain ⟨ha, hf, ht⟩ := hc
    rw [fireTableau_fires ha hf (by simpa using ht), part_onPart]
    split
    · subst_vars
      rw [triggered, if_pos ⟨ha, hf, ht⟩]
    · rfl
  · rw [fireTableau_idle (by simpa [or_iff_not_imp_left] using hc)]
    split
    · subst_vars
      rw [triggered, if_neg hc]
    · rfl

/-- A trigger of several partitions' tableaus. -/
theorem foldl_fireTableau (code : Nat) (h : Word) (l : List Nat) : ∀ s,
    (l.foldl (fun s p => fireTableau s p code h false) s).threads = s.threads ∧
    ∀ q ∈ l, ((l.foldl (fun s p => fireTableau s p code h false) s).part q).tableau = triggered code h (s.part q).tableau := by
  have part : ∀ (l : List Nat) s q, ((l.foldl (fun s p => fireTableau s p code h false) s).part q).tableau =
      if q ∈ l then triggered code h (s.part q).tableau else (s.part q).tableau := by
    intro l
    induction l with
    | nil => exact fun s q => by simp
    | cons p l ih =>
        intro s q
        rw [List.foldl_cons, ih, fireTableau_part]
        by_cases hq : q = p <;> by_cases hl : q ∈ l <;> simp [hq, hl, triggered_twice]
  refine fun s => ⟨?_, fun q hq => by rw [part, if_pos hq]⟩
  induction l generalizing s with
  | nil => rfl
  | cons p l ih => exact (ih _).trans (fireTableau_threads s p code h false)

/-! ### TBL_CTL (R413, R414) -/

theorem regWrite_tblCtl (s : State) (who : Requester) (p k : Nat) (x : Dword) :
    regWrite s who p RegNo.tblCtl k x = some (tableauControl s k x) := rfl

theorem exec_tblFire {s : State} {a : RegAcc} {k p : Nat} {x : Dword} (h : WritesReg s a RegNo.tblCtl k p x) (hx : x.getLsbD 0 = true) :
    exec (.tblFire a) s = .next (tableauControl s k x) := by
  have hrow : (a.reg.toNat == RegNo.tblCtl && a.val.toNat.testBit 0) = true := by
    rw [h.reg, h.value, beq_self_eq_true, Bool.true_and]
    exact hx
  show Host.Outcome.next (if a.reg.toNat == RegNo.tblCtl && a.val.toNat.testBit 0 then linkWrite s a else s) = _
  rw [if_pos hrow, linkWrite_admitted h, regWrite_tblCtl]
  rfl

theorem exec_tblDisarm {s : State} {a : RegAcc} {k p : Nat} {x : Dword} (h : WritesReg s a RegNo.tblCtl k p x) (hx : x.getLsbD 1 = true) :
    exec (.tblDisarm a) s = .next (tableauControl s k x) := by
  have hrow : (a.reg.toNat == RegNo.tblCtl && a.val.toNat.testBit 1) = true := by
    rw [h.reg, h.value, beq_self_eq_true, Bool.true_and]
    exact hx
  show Host.Outcome.next (if a.reg.toNat == RegNo.tblCtl && a.val.toNat.testBit 1 then linkWrite s a else s) = _
  rw [if_pos hrow, linkWrite_admitted h, regWrite_tblCtl]
  rfl

theorem tableauControl_fire {s : State} {k : Nat} {x : Dword} (h0 : x.getLsbD 0 = true) (h1 : x.getLsbD 1 = false) :
    tableauControl s k x = fireTableau s k 2 noThread false := by
  simp only [tableauControl, h0, h1, if_true, Bool.false_eq_true, if_false]

theorem tableauControl_disarm {s : State} {k : Nat} {x : Dword} (h0 : x.getLsbD 0 = false) (h1 : x.getLsbD 1 = true) :
    tableauControl s k x = onTableau s k fun y => if y.armed && !y.fired then { y with armed := false } else y := by
  simp only [tableauControl, h0, h1, if_true, Bool.false_eq_true, if_false]

/-! ### The capture (R413, R414) -/

/-- The words of memory that waits look at end waits, and leave partitions as they are. -/
theorem sweep_parts (s : State) : (sweep s).parts = s.parts := by
  have done : ∀ (s : State) (t : Nat) (sc : Scope) (r : List Nat), (release8 (acquire s t sc r false) t).parts = s.parts := fun s t sc r =>
    ((Wakes.acquire (K := fun _ => False) s t sc r false).trans (.release8 _ t id)).parts
  have fold : ∀ (f : State → Nat × Thread → State), (∀ s e, (f s e).parts = s.parts) → ∀ (l : List (Nat × Thread)) s, (l.foldl f s).parts = s.parts := by
    intro f hf l
    induction l with
    | nil => exact fun _ => rfl
    | cons e l ih => exact fun s => (ih _).trans (hf s e)
  refine fold _ (fun s e => ?_) _ s
  dsimp only
  split
  · split
    · split
      · split
        · exact done _ _ _ _
        · rfl
      · rfl
    · rfl
  · split
    · split
      · rfl
      · exact done _ _ _ _
    · rfl
  · rfl

/-- The count of a capture's records published, and written behind its buffer's head (R414). -/
def recordsPublished (s0 s : State) (x : Tableau) (n lost : Nat) : State :=
  let stores := List.range' s0.hist.next (s.hist.next - s0.hist.next)
  let (pub, s) := publish s .device .dev stores false
  let s := (writeRange s x.ctx true (.agent [pub]) (x.buf + 28) (bytesOfNat 4 n ++ bytesOfNat 4 lost)).2
  (publish s .device .dev (List.range' s0.hist.next (s.hist.next - s0.hist.next)) false).2

theorem exec_tableauRecordsWritten {s : State} {p : Nat} {l : List (List Byte)} (hl : (s.part p).tableau.latched = some l) {n : Nat} {r : RecRun}
    {s1 : State} (hr : recAll (s.part p).tableau (l.take (((s.part p).tableau.cap - 64) / 384)) s = (n, r, s1)) (hw : r ≠ .wait) :
    exec (.tableauRecordsWritten p) s = .next (sweep (onTableau (recordsPublished s s1 (s.part p).tableau n
      (l.length - (l.take (((s.part p).tableau.cap - 64) / 384)).length)) p fun y => { y with armed := false, latched := none, written := n })) := by
  refine congrArg Host.Outcome.next ?_
  dsimp only
  cases r
  case wait => exact absurd rfl hw
  all_goals
    simp only [hl, hr]
    rfl

/-! ### tblarm and tblread (R335, R412) -/

theorem tblarmOne_armed {a : TblarmArgs} {is : Issued} {s : State} {t : Nat} (h : (s.part (s.partOf t)).tableau.armed = true) :
    tblarmOne a is s t = s.onThread t fun th => { th with v := th.v.set a.d.toNat 4 } := by
  simp only [tblarmOne, h, if_true]

theorem MemOnly.readRange (s : State) (c : Nat) (priv : Bool) (va n : Nat) : MemOnly s (readRange s c priv va n).2 := by
  unfold Machine.readRange
  have key : ∀ (l : List (Nat × Nat × Nat)) (a : Answer (List Byte) × State), MemOnly s a.2 →
      MemOnly s (l.foldl (fun (a : Answer (List Byte) × State) x =>
        match a.1 with
        | .ok b => match viaWindows a.2 c priv x.2.1 ⟨true, false, false⟩ with
            | .error e => (.fault e .noLeaf, a.2)
            | .ok l => match Machine.readLoc a.2 l x.2.2 with
                | (.ok b', s) => (.ok (b ++ b'), s)
                | (.fault e r, s) => (.fault e r, s)
                | (.wait, s) => (.wait, s)
        | x => (x, a.2)) a).2 := by
    intro l
    induction l with
    | nil => exact fun a h => h
    | cons x l ih =>
        intro a h
        refine ih _ ?_
        obtain ⟨acc, w⟩ := a
        cases acc with
        | ok _ =>
            dsimp only
            split
            · exact h
            · rename_i loc _
              have hread := h.trans (MemOnly.readLoc w loc x.2.2)
              generalize Machine.readLoc w loc x.2.2 = y at hread
              split <;> exact hread
        | fault _ _ => exact h
        | wait => exact h
  exact key _ _ (refl s)

theorem readCap_bad {s : State} {c va : Nat} (h : va % 4096 ≠ 0) : readCap s c va = (.bad, s) := by
  rw [readCap, if_pos h]

theorem readCap_cap {s s1 : State} {c va : Nat} {x : List Byte} (h : va % 4096 = 0) (hr : readRange s c true va 8 = (.ok x, s1))
    (hx : natOfBytes x % 4096 = 0) (hc : 4096 ≤ natOfBytes x) : readCap s c va = (.cap (natOfBytes x), s1) := by
  rw [readCap, if_neg (not_not.mpr h), hr]
  simp [hx, Nat.not_lt.mpr hc]

/-- R335: a tableau armed by a thread, and fired at once where the word says so. -/
theorem tblarmOne_arms {a : TblarmArgs} {is : Issued} {s s1 : State} {t n : Nat} (hh : s1.threads.has t = true)
    (ha : (s.part (s.partOf t)).tableau.armed = false)
    (hc : readCap s (s.ctxOf t) ((envOf s t).base2 a.a).toNat = (.cap n, s1)) :
    let s' := tblarmOne a is s t
    (s'.thread t).v = (s1.thread t).v.set a.d.toNat 0 ∧
    (s'.part (s.partOf t)).tableau = ⟨true, a.fire, a.trig.toNat, if a.fire then 4 else 0, if a.fire then s1.handle t else 0xFFFF_FFFF,
      ((envOf s t).base2 a.a).toNat, n, s1.ctxOf t, none, 0, 0, 0⟩ := by
  intro s'
  let s2 := onTableau s1 (s.partOf t) fun _ =>
    { Tableau.idle with armed := true, trig := a.trig.toNat, buf := ((envOf s t).base2 a.a).toNat, cap := n, ctx := s1.ctxOf t }
  have hs2 : (s2.part (s.partOf t)).tableau =
      { Tableau.idle with armed := true, trig := a.trig.toNat, buf := ((envOf s t).base2 a.a).toNat, cap := n, ctx := s1.ctxOf t } := by
    show ((s1.onPart _ _).part _).tableau = _
    rw [part_onPart, if_pos rfl]
  have e : s' = (if a.fire then fireTableau s2 (s.partOf t) 4 (s2.handle t) true else s2).onThread t fun th => { th with v := th.v.set a.d.toNat 0 } := by
    show tblarmOne a is s t = _
    simp only [tblarmOne, ha, hc, Bool.false_eq_true, if_false]
    rfl
  have hthreads : (if a.fire then fireTableau s2 (s.partOf t) 4 (s2.handle t) true else s2).threads = s1.threads := by
    split
    · exact fireTableau_threads s2 _ _ _ _
    · rfl
  rw [e]
  refine ⟨?_, ?_⟩
  · rw [thread_onThread_self _ _ _ (by rw [hthreads]; exact hh), State.thread, hthreads]
    rfl
  · rw [part_onThread]
    cases a.fire with
    | false => rw [if_neg Bool.false_ne_true, hs2]; rfl
    | true =>
        rw [if_pos rfl, fireTableau_fires (by rw [hs2]) (by rw [hs2]; rfl) rfl, part_onPart, if_pos rfl, hs2]
        rfl

/-- R335, R412: what a thread's tblarm answers, and what it arms. -/
theorem exec_tblarm {a : TblarmArgs} {b : Bundle} {s : State} {t : Nat} (h : Sole (.tblarm a) b s t) :
    let s0 := afterIssue b s
    let p := s0.partOf t
    let va := ((envOf s0 t).base2 a.a).toNat
    ((s0.part p).tableau.armed = true → exec (.tblarm a) s = .next (wroteRegs b s t [(a.d.toNat, 4)])) ∧
    ((s0.part p).tableau.armed = false →
      (va % 4096 ≠ 0 → exec (.tblarm a) s = .next (wroteRegs b s t [(a.d.toNat, 5)])) ∧
      (va % 4096 = 0 → ∀ s1 x, readRange s0 (s0.ctxOf t) true va 8 = (.ok x, s1) → natOfBytes x % 4096 = 0 → 4096 ≤ natOfBytes x → ∃ s',
        exec (.tblarm a) s = .next s' ∧ (s'.thread t).v = (s1.thread t).v.set a.d.toNat 0 ∧
        (s'.part p).tableau = ⟨true, a.fire, a.trig.toNat, if a.fire then 4 else 0, if a.fire then s1.handle t else 0xFFFF_FFFF, va, natOfBytes x,
          s1.ctxOf t, none, 0, 0, 0⟩)) := by
  intro s0 p va
  have he : exec (.tblarm a) s = .next (tblarmOne a (issuedAs (.tblarm a) b s) s0 t) := word_sole h rfl _
  obtain ⟨-, hhas, -, -⟩ := h.thread
  refine ⟨fun ha => he.trans (congrArg _ (tblarmOne_armed ha)), fun ha => ⟨fun hv => he.trans (congrArg _ ?_), fun hv s1 x hr hx hc => ⟨_, he, ?_⟩⟩⟩
  · have hb : readCap s0 (s0.ctxOf t) ((envOf s0 t).base2 a.a).toNat = (.bad, s0) := readCap_bad hv
    have ha' : ¬ (s0.part (s0.partOf t)).tableau.armed = true := by simpa using ha
    rw [tblarmOne]
    simp only [if_neg ha', hb]
    rfl
  · have hm : s1.threads.has t = true := by
      have := (MemOnly.readRange s0 (s0.ctxOf t) true va 8).threads
      rw [hr] at this
      rw [this, afterIssue_has]
      exact hhas
    exact tblarmOne_arms hm ha (readCap_cap hv hr hx hc)

theorem exec_tblread {a : TblreadArgs} {b : Bundle} {s : State} {t : Nat} (h : Sole (.tblread a) b s t) :
    let s0 := afterIssue b s
    let x := (s0.part (s0.partOf t)).tableau
    let w := (if x.armed then 1 else 0) + (if x.fired then 2 + 16 * x.code else 0) + x.written % 2 ^ 16 * 2 ^ 16
    ((x.armed = true ∨ x.fired = false) → exec (.tblread a) s = .next (wroteRegs b s t [(a.d.toNat, BitVec.ofNat 32 w)])) ∧
    (x.armed = false → x.fired = true → ∃ s', exec (.tblread a) s = .next s' ∧ (s'.thread t).v = (s0.thread t).v.set a.d.toNat (BitVec.ofNat 32 w) ∧
      s'.hbm = s0.hbm ∧ s'.flats = s0.flats) := by
  intro s0 x w
  have he : exec (.tblread a) s = .next (if !x.armed && x.fired then acquire (wroteRegs b s t [(a.d.toNat, BitVec.ofNat 32 w)]) t .dev [] false
      else wroteRegs b s t [(a.d.toNat, BitVec.ofNat 32 w)]) := word_sole h rfl _
  obtain ⟨-, hhas, -, -⟩ := h.thread
  refine ⟨fun hx => he.trans (congrArg _ (if_neg ?_)), fun ha hf => ⟨_, he.trans (congrArg _ (if_pos (by simp [ha, hf]))), ?_⟩⟩
  · obtain hx | hx := hx <;> simp [hx]
  · have hw := Wakes.acquire (K := fun _ => False) (wroteRegs b s t [(a.d.toNat, BitVec.ofNat 32 w)]) t .dev [] false
    refine ⟨?_, hw.hbm, hw.flats⟩
    rw [hw.v, wroteRegs, thread_onThread_self _ _ _ ((afterIssue_has b s t).trans hhas)]
    rfl

theorem exec_tblCtl {s : State} {a : RegAcc} {k p : Nat} {x : Dword} (h : WritesReg s a RegNo.tblCtl k p x) :
    let y := (s.part k).tableau
    (x.getLsbD 0 = true → x.getLsbD 1 = false →
      (y.armed = true → y.fired = false → y.trig.testBit 2 = true → exec (.tblFire a) s =
        .next (s.onPart k fun z => { z with tableau := { y with fired := true, code := 2, thread := 0xFFFF_FFFF } })) ∧
      ((y.armed = false ∨ y.fired = true ∨ y.trig.testBit 2 = false) → exec (.tblFire a) s = .next s)) ∧
    (x.getLsbD 0 = false → x.getLsbD 1 = true → ∃ s', exec (.tblDisarm a) s = .next s' ∧
      (s'.part k).tableau = (if y.armed = true ∧ y.fired = false then { y with armed := false } else y) ∧ s'.threads = s.threads) := by
  intro y
  refine ⟨fun h0 h1 => ?_, fun h0 h1 => ⟨_, (exec_tblDisarm h h1).trans (congrArg _ (tableauControl_disarm h0 h1)), ?_, rfl⟩⟩
  · rw [exec_tblFire h h0, tableauControl_fire h0 h1]
    exact ⟨fun ha hf ht => congrArg _ (fireTableau_fires ha hf ht), fun hn => congrArg _ (fireTableau_idle hn)⟩
  · rw [onTableau, part_onPart, if_pos rfl]
    simp [y]

theorem exec_tableauLatch (s : State) (p : Nat) :
    let y := (s.part p).tableau
    (y.armed = true → y.fired = true → y.latched = none → ∃ s', exec (.tableauLatch p) s = .next s' ∧
      (s'.part p).tableau = { y with latched := some ((residentGroups s p).map fun e => groupRecord s e.1 e.2), ns := s.ns, clk := s.clk } ∧
      s'.pkg.sent = s.pkg.sent ++ [.trigOut] ∧ s'.threads = s.threads) ∧
    ((y.armed = false ∨ y.fired = false ∨ y.latched ≠ none) → exec (.tableauLatch p) s = .next s) := by
  intro y
  have he : exec (.tableauLatch p) s = .next (if y.armed && y.fired && y.latched.isNone then
      (onTableau s p fun y => { y with latched := some ((residentGroups s p).map fun e => groupRecord s e.1 e.2), ns := s.ns, clk := s.clk }).send .trigOut
    else s) := rfl
  refine ⟨fun ha hf hl => ⟨_, he.trans (congrArg _ (if_pos (by simp [ha, hf, hl]))), ?_, rfl, rfl⟩, fun hn => he.trans (congrArg _ (if_neg ?_))⟩
  · show ((s.onPart p _).part p).tableau = _
    rw [part_onPart, if_pos rfl]
  · obtain hn | hn | hn := hn <;> simp [hn]

end Sys2Proof.Machine

/-! ### The debug aperture (O53: R334) -/

namespace Sys2Proof.Machine

/-- A read that the part admits is a read of the register. -/
theorem linkRead_admitted {s : State} {a : RegAcc} {n k : Nat} (h : ReadsReg s a n k) : linkRead s a = regRead s n k := by
  obtain ⟨hrun, rfl, hsize, p, hreach⟩ := h
  simp only [linkRead, hrun, hreach, hsize, Bool.not_true, Bool.false_eq_true, if_false, if_true]

theorem dbgData_inBlock {n : Nat} (hn : n < 4) : inBlock 0x0B 4 4 (RegNo.dbgData n) = true := by
  match n, hn with
  | 0, _ | 1, _ | 2, _ | 3, _ => rfl

theorem regRead_dbgData {n : Nat} (hn : n < 4) (s : State) (k : Nat) : regRead s (RegNo.dbgData n) k = dataRead s k n := by
  match n, hn with
  | 0, _ | 1, _ | 2, _ | 3, _ => rfl

theorem regWrite_dbgData {n : Nat} (hn : n < 4) (s : State) (who : Requester) (p k : Nat) (x : Dword) :
    regWrite s who p (RegNo.dbgData n) k x = some (dataWrite s k n x) := by
  match n, hn with
  | 0, _ | 1, _ | 2, _ | 3, _ => rfl

theorem exec_dbgDataRead {s : State} {a : RegAcc} {k n : Nat} (hn : n < 4) (h : ReadsReg s a (RegNo.dbgData n) k) :
    exec (.dbgDataRead a) s = .next (replied (dataRead s k n).2 (dataRead s k n).1) := by
  show Host.Outcome.next (if inBlock 0x0B 4 4 a.reg.toNat then linkReply a (linkRead s a) else s) = _
  rw [h.reg, dbgData_inBlock hn, if_pos rfl, linkRead_admitted h, regRead_dbgData hn, linkReply, h.size]
  rfl

theorem exec_dbgDataWrite {s : State} {a : RegAcc} {k p n : Nat} {x : Dword} (hn : n < 4) (h : WritesReg s a (RegNo.dbgData n) k p x) :
    exec (.dbgDataWrite a) s = .next (dataWrite s k n x) := by
  show Host.Outcome.next (if inBlock 0x0B 4 4 a.reg.toNat then linkWrite s a else s) = _
  rw [h.reg, dbgData_inBlock hn, if_pos rfl, linkWrite_admitted h, regWrite_dbgData hn]
  rfl

/-- R334: what the aperture reads and sets of a thread: a vector register, its predicates, its PC. -/
theorem resourceSet_thread {s : State} {t : Nat} (i : Nat) (x : Dword) (hh : s.threads.has t = true) :
    ((resourceSet s t 0 i x).thread t).v = (s.thread t).v.set i (x.setWidth 32) ∧
    ((resourceSet s t 1 0 x).thread t).p = x.setWidth 7 ∧ ((resourceSet s t 6 0 x).thread t).pc = x ∧
    (resourceGet s t 0 i) = ((s.thread t).v.findD i 0).setWidth 64 ∧ resourceGet s t 6 0 = (s.thread t).pc := by
  refine ⟨?_, ?_, ?_, rfl, rfl⟩ <;> simp only [resourceSet] <;> rw [thread_onThread_self _ _ _ hh]

end Sys2Proof.Machine

/-! ### dbgcur, dbgres and dbgstep (O53: R47, R331..R333) -/

namespace Sys2Proof.Machine

/-! ### dbgstep (R333) -/

/-- A step of the threads `ts` asked of the core of the thread `u`, the debugger `t` held at its word until it is over. -/
def askStep (is : Issued) (s : State) (t u : Nat) (ts : List Nat) (w : Why) : State :=
  is.stall ((resumeChecks s u).onCore ((resumeChecks s u).coreOf u) fun k => { k with steps := k.steps ++ [⟨t, u, ts, []⟩] }) t w

/-- R48, R333: the threads of a step. -/
def stepThreads (s : State) (all : Bool) (u : Nat) : List Nat :=
  (if all then allAtPc s u else [u]).foldl (fun l o => laneInsert s o l) []

section
variable {a : DbgstepArgs} {b : Bundle} {s : State} {t : Nat}

theorem exec_dbgstep_refused (h : Sole (.dbgstep a) b s t) {n : Nat}
    (hr : stepRefused (afterIssue b s) t ((envOf (afterIssue b s) t).base1 a.h) = .error n) :
    exec (.dbgstep a) s = .next (wroteRegs b s t [(a.d.toNat, BitVec.ofNat 32 n)]) := by
  refine (word_sole h rfl _).trans (congrArg _ ?_)
  simp only [hr]
  rfl

theorem exec_dbgstep_asks (h : Sole (.dbgstep a) b s t) {u : Nat}
    (hr : stepRefused (afterIssue b s) t ((envOf (afterIssue b s) t).base1 a.h) = .ok u) :
    exec (.dbgstep a) s = .next (askStep (issuedAs (.dbgstep a) b s) (afterIssue b s) t u (stepThreads (afterIssue b s) a.all u) (.step a.d.toNat)) := by
  refine (word_sole h rfl _).trans (congrArg _ ?_)
  simp only [hr]
  rfl

end

theorem stepRefused_noThread {s : State} {t : Nat} {h : Word} (hn : s.handlePart h ≠ some (s.partOf t) ∨ s.byHandle h = none) :
    stepRefused s t h = .error 6 := by
  unfold stepRefused
  split
  · rfl
  · rename_i hp
    rw [hn.resolve_left hp]

/-- What a step finds of the thread its handle names. -/
theorem stepRefused_aimed {s : State} {t u : Nat} {h : Word} (hp : s.handlePart h = some (s.partOf t)) (hu : s.byHandle h = some u) :
    stepRefused s t h = if !(s.thread u).dc then .error 5
      else if (s.die (dieOf (s.coreOf u))).halted.has (s.ctxOf u) then .error 7
      else match (s.thread u).held with
        | .stalled => .error 1
        | .waiting => .error 2
        | _ => .ok u := by
  simp only [stepRefused, if_neg (not_not.mpr hp), hu] <;> rfl

theorem self_mem_laneInsert (s : State) (t : Nat) (l : List Nat) : t ∈ laneInsert s t l := by
  induction l with
  | nil => exact List.mem_singleton_self t
  | cons u l ih =>
      unfold laneInsert
      split
      · exact List.mem_cons_self
      · exact List.mem_cons_of_mem _ ih

theorem subset_laneInsert (s : State) (t : Nat) {x : Nat} {l : List Nat} (h : x ∈ l) : x ∈ laneInsert s t l := by
  induction l with
  | nil => cases h
  | cons u l ih =>
      unfold laneInsert
      split
      · exact List.mem_cons_of_mem _ h
      · obtain rfl | h := List.mem_cons.mp h
        · exact List.mem_cons_self
        · exact List.mem_cons_of_mem _ (ih h)

theorem subset_foldl_laneInsert (s : State) {x : Nat} (l : List Nat) : ∀ {acc : List Nat}, x ∈ acc → x ∈ l.foldl (fun l o => laneInsert s o l) acc := by
  induction l with
  | nil => exact id
  | cons o l ih => exact fun h => ih (subset_laneInsert s o h)

/-- R48: the thread that a step names is of its own issue. -/
theorem allAtPc_head (s : State) (t : Nat) : ∃ l, allAtPc s t = t :: l := by
  have grow : ∀ (f : List Nat → Nat → Bool) (l : List Nat) (acc : List Nat), (∃ r, acc = t :: r) →
      ∃ r, l.foldl (fun acc u => if f acc u then acc ++ [u] else acc) acc = t :: r := by
    intro f l
    induction l with
    | nil => exact fun _ h => h
    | cons u l ih =>
        rintro acc ⟨r, rfl⟩
        refine ih _ ?_
        dsimp only
        split
        · exact ⟨r ++ [u], rfl⟩
        · exact ⟨r, rfl⟩
  unfold allAtPc
  dsimp only
  split
  · exact ⟨_, rfl⟩
  · exact grow _ _ _ ⟨_, rfl⟩

theorem mem_stepThreads (s : State) (all : Bool) (u : Nat) : u ∈ stepThreads s all u := by
  have start : ∀ l, u ∈ (u :: l).foldl (fun l o => laneInsert s o l) [] := fun l => subset_foldl_laneInsert s l (self_mem_laneInsert s u [])
  unfold stepThreads
  split
  · obtain ⟨l, e⟩ := allAtPc_head s u
    rw [e]
    exact start l
  · exact start []

/-- R333: a step is the core's next issue, its debugger held until it is over. -/
theorem askStep_spec {i : Instr} {b : Bundle} {s : State} {t : Nat} (h : Sole i b s t) (u : Nat) (ts : List Nat) (w : Why) :
    let s0 := afterIssue b s
    let s' := askStep (issuedAs i b s) s0 t u ts w
    (s'.core (s0.coreOf u)).steps = (s0.core (s0.coreOf u)).steps ++ [⟨t, u, ts, []⟩] ∧
    (s'.thread t).held = .stalled ∧ (s'.thread t).why = w ∧ (s'.thread t).pc = b.pc ∧ s'.hbm = s0.hbm ∧ s'.flats = s0.flats := by
  intro s0 s'
  have hw : Wakes (fun _ => False) s0 (resumeChecks s0 u) := .resumeChecks s0 u fun _ h => h.elim
  obtain ⟨-, hhas, -, -⟩ := h.thread
  have hcore : (resumeChecks s0 u).coreOf u = s0.coreOf u := by
    rw [State.coreOf, State.coreOf, State.groupOf, State.groupOf, hw.threadGroup, hw.core]
  have e : s' = ((resumeChecks s0 u).onCore (s0.coreOf u) fun k => { k with steps := k.steps ++ [⟨t, u, ts, []⟩] }).onThread t fun th =>
      { th with held := .stalled, why := w, pc := b.pc, freePass := (issuedAs i b s).free.contains t } := by
    show askStep _ s0 t u ts w = _
    rw [askStep, hcore, Issued.stall, stall, onThread_onThread]
    rfl
  generalize resumeChecks s0 u = s1 at e hw
  have hh : s1.threads.has t = true := (hw.has t).trans ((afterIssue_has b s t).trans hhas)
  rw [e]
  refine ⟨?_, ?_, ?_, ?_, hw.hbm, hw.flats⟩
  · rw [core_onThread, core_onCore, if_pos rfl, State.core, hw.cores]
    rfl
  all_goals rw [thread_onThread_self _ _ _ (by rw [onCore_threads]; exact hh)]

theorem exec_dbgstep {a : DbgstepArgs} {b : Bundle} {s : State} {t : Nat} (h : Sole (.dbgstep a) b s t) : let s0 := afterIssue b s
    let h := (envOf s0 t).base1 a.h
    ((s0.handlePart h ≠ some (s0.partOf t) ∨ s0.byHandle h = none) → exec (.dbgstep a) s = .next (wroteRegs b s t [(a.d.toNat, 6)])) ∧
    (∀ u, s0.handlePart h = some (s0.partOf t) → s0.byHandle h = some u →
      ((s0.thread u).dc = false → exec (.dbgstep a) s = .next (wroteRegs b s t [(a.d.toNat, 5)])) ∧
      ((s0.thread u).dc = true → let hd := (s0.die (dieOf (s0.coreOf u))).halted.has (s0.ctxOf u)
        (hd = true → exec (.dbgstep a) s = .next (wroteRegs b s t [(a.d.toNat, 7)])) ∧
        (hd = false → (s0.thread u).held = .stalled → exec (.dbgstep a) s = .next (wroteRegs b s t [(a.d.toNat, 1)])) ∧
        (hd = false → (s0.thread u).held = .waiting → exec (.dbgstep a) s = .next (wroteRegs b s t [(a.d.toNat, 2)])) ∧
        (hd = false → (s0.thread u).held = .ready → ∃ s' ts, exec (.dbgstep a) s = .next s' ∧ u ∈ ts ∧ (a.all = false → ts = [u]) ∧
          (s'.core (s0.coreOf u)).steps = (s0.core (s0.coreOf u)).steps ++ [⟨t, u, ts, []⟩] ∧
          (s'.thread t).held = .stalled ∧ (s'.thread t).why = .step a.d.toNat ∧ (s'.thread t).pc = b.pc ∧ s'.hbm = s0.hbm ∧ s'.flats = s0.flats))) := by
  refine ⟨fun hn => exec_dbgstep_refused h (stepRefused_noThread hn), fun u hp hu => ?_⟩
  have hr := stepRefused_aimed hp hu
  refine ⟨fun hd => exec_dbgstep_refused h (n := 5) (by rw [hr, hd]; rfl), fun hd => ⟨fun hh => ?_, fun hh hs => ?_, fun hh hs => ?_, fun hh hs => ?_⟩⟩
  · exact exec_dbgstep_refused h (n := 7) (by rw [hr, hd, hh]; rfl)
  · exact exec_dbgstep_refused h (n := 1) (by rw [hr, hd, hh, hs]; rfl)
  · exact exec_dbgstep_refused h (n := 2) (by rw [hr, hd, hh, hs]; rfl)
  · refine ⟨_, _, exec_dbgstep_asks h (u := u) (by rw [hr, hd, hh, hs]; rfl), mem_stepThreads _ _ u, fun ha => ?_, askStep_spec h u _ _⟩
    rw [stepThreads, ha]
    rfl

/-! ### dbgcur (R331, R332) -/

/-- A bit set reads as set. -/
theorem sysBits_sysPutBits_bit8 (s : State) (n k : Nat) : sysBits (sysPutBits s n k 8 8 1) n k 8 8 = 1 := by
  rw [sysBits, sysPutBits, sysGet_sysPut_same]
  have hx := (sysGet s n k).isLt
  simp only [bits, putBits, BitVec.toNat_ofNat]
  omega

theorem sysBits_setEv (s : State) (c p : Nat) : sysBits (setEv s c p) (RegNo.dbgCtl c) 0 8 8 = 1 := by
  unfold setEv
  split
  · assumption
  · exact sysBits_sysPutBits_bit8 s _ _

/-- The threads there are, and the vector registers of the thread `t`, stand. -/
structure KeepsV (t : Nat) (s s' : State) : Prop where
  has : ∀ u, s'.threads.has u = s.threads.has u
  v : (s'.thread t).v = (s.thread t).v

namespace KeepsV

variable {t : Nat} {s s' s'' : State}

theorem of_threads (h : s'.threads = s.threads) : KeepsV t s s' := ⟨fun _ => by rw [h], by rw [State.thread, State.thread, h]⟩
theorem refl (s : State) : KeepsV t s s := of_threads rfl
theorem trans (h : KeepsV t s s') (h' : KeepsV t s' s'') : KeepsV t s s'' := ⟨fun u => (h'.has u).trans (h.has u), h'.v.trans h.v⟩
theorem foldl {α : Type} {f : State → α → State} {l : List α} (hf : ∀ s, ∀ x ∈ l, KeepsV t s (f s x)) : ∀ s, KeepsV t s (l.foldl f s) := by
  induction l with
  | nil => exact refl
  | cons x l ih => exact fun s => (hf s x List.mem_cons_self).trans (ih (fun s y hy => hf s y (List.mem_cons_of_mem _ hy)) _)
theorem onThread (s : State) (u : Nat) (f : Thread → Thread) (hf : u ≠ t ∨ ∀ x, (f x).v = x.v) : KeepsV t s (s.onThread u f) := by
  refine ⟨fun w => has_onThread s u w f, ?_⟩
  by_cases hu : t = u
  · subst hu
    have hv := hf.resolve_left (not_not.mpr rfl)
    simp only [State.thread, State.onThread, Sparse.findD, Sparse.find?_modify, if_true]
    cases s.threads.find? t <;> simp [hv]
  · rw [thread_onThread_ne _ _ _ _ hu]
theorem setReady (s : State) (u : Nat) : KeepsV t s (setReady s u) := onThread s u _ (.inr fun _ => rfl)
/-- Results of another thread land. -/
theorem landPend (s : State) {u : Nat} (p : Pend) (hu : u ≠ t) : KeepsV t s (landPend s u p) := by
  have hland := (onThread s u (applyPend p) (.inl hu)).trans (of_threads (s' := (s.onThread u (applyPend p)).onGroup (s.thread u).group fun x =>
    { x with fsr := x.fsr ||| p.flags, k := if p.uniform then p.writes.foldl (fun v e => v.set e.1 e.2) x.k else x.k }) rfl)
  exact hland.trans (foldl (fun s w _ => setReady s w) _)
theorem settleSfu (s : State) {u : Nat} (hu : u ≠ t) : KeepsV t s (settleSfu s u) := foldl (fun s p _ => landPend s p hu) s
theorem agentPut (s : State) (p : Nat) (r : List Nat) (va : Nat) (b : List Byte) : KeepsV t s (agentPut s p r va b) := by
  have hw : (agentWrite s p r va b).2.threads = s.threads := by
    unfold agentWrite
    split
    · rfl
    · split
      · rfl
      · exact (MemOnly.writeRange ..).threads
  unfold Machine.agentPut
  generalize agentWrite s p r va b = x at hw
  split
  · exact of_threads hw
  · exact of_threads hw
theorem curtainRecord (s : State) (u : Nat) : KeepsV t s (curtainRecord s u) := by
  unfold Machine.curtainRecord
  dsimp only
  have hf : KeepsV t s ((s.freeBytes 1).2.freeBytes 8).2 := of_threads rfl
  have hc : KeepsV t s (((s.freeBytes 1).2.freeBytes 8).2.onThread u fun th => { th with cause := (s.freeBytes 1).1.headD 0 }) :=
    hf.trans (onThread _ u (fun th => { th with cause := (s.freeBytes 1).1.headD 0 }) (.inr fun _ => rfl))
  split
  · exact hc
  · exact hc.trans (agentPut _ _ _ _ _)
theorem setEv (s : State) (c p : Nat) : KeepsV t s (setEv s c p) := by
  unfold Machine.setEv
  split
  · exact refl s
  · exact of_threads rfl

end KeepsV

/-- R331: the record and the event of a curtain drawn. -/
def curtainEvent (s : State) (u : Nat) : State :=
  if s.privOf u then s else setEv (curtainRecord (settleSfu s u) u) (s.ctxOf u) (s.partOf u)

/-- R331: the curtain drawn before some threads. -/
def drawCurtain (s : State) (hit : List Nat) : State := (hit.foldl settleSfu s).onThreads hit fun _ th => { th with dc := true }

/-- R331: the curtain opened before some threads, the checks that were due made. -/
def openCurtain (s : State) (hit : List Nat) : State :=
  hit.foldl (fun s o => if (s.thread o).tc then s else resumeChecks s o)
    (s.onThreads hit fun _ th => { th with dc := false, freePass := true, readyAt := s.clk })

section
variable {a : DbgArgs} {b : Bundle} {s : State} {t : Nat}

theorem exec_dbgcur_missed (h : Sole (.dbgcur a) b s t) {x : Word} (hr : aimDebug (afterIssue b s) t ((envOf (afterIssue b s) t).base1 a.h) = .error x) :
    exec (.dbgcur a) s = .next (wroteRegs b s t [(a.d.toNat, x)]) := by
  refine (word_sole h rfl _).trans (congrArg _ ?_)
  simp only [hr]
  rfl

theorem exec_dbgres_missed (h : Sole (.dbgres a) b s t) {x : Word} (hr : aimDebug (afterIssue b s) t ((envOf (afterIssue b s) t).base1 a.h) = .error x) :
    exec (.dbgres a) s = .next (wroteRegs b s t [(a.d.toNat, x)]) := by
  refine (word_sole h rfl _).trans (congrArg _ ?_)
  simp only [hr]
  rfl

theorem exec_dbgcur_aimed (h : Sole (.dbgcur a) b s t) {u : Nat} (hr : aimDebug (afterIssue b s) t ((envOf (afterIssue b s) t).base1 a.h) = .ok u) :
    let s0 := afterIssue b s
    let hit := (scopeThreads s0 u a.sc).filter fun o => !s0.privOf o && !(s0.thread o).dc
    exec (.dbgcur a) s = .next (putV (drawCurtain (curtainEvent s0 u) hit) t a.d (BitVec.ofNat 32 (hit.length % 2 ^ 16))) := by
  refine (word_sole h rfl _).trans (congrArg _ ?_)
  simp only [hr]
  rfl

theorem exec_dbgres_aimed (h : Sole (.dbgres a) b s t) {u : Nat} (hr : aimDebug (afterIssue b s) t ((envOf (afterIssue b s) t).base1 a.h) = .ok u) :
    let s0 := afterIssue b s
    let hit := (scopeThreads s0 u a.sc).filter fun o => (s0.thread o).dc
    exec (.dbgres a) s = .next (putV (openCurtain s0 hit) t a.d (BitVec.ofNat 32 (hit.length % 2 ^ 16))) := by
  refine (word_sole h rfl _).trans (congrArg _ ?_)
  simp only [hr]
  rfl

end

theorem aimDebug_hits {s : State} {t u : Nat} {h : Word} (hp : s.handlePart h = some (s.partOf t)) (hu : s.byHandle h = some u) :
    aimDebug s t h = .ok u := by
  rw [aimDebug, if_neg (not_not.mpr hp), hu]

theorem aimDebug_otherPart {s : State} {t : Nat} {h : Word} (hp : s.handlePart h ≠ some (s.partOf t)) : aimDebug s t h = .error 3 := if_pos hp

theorem aimDebug_noThread {s : State} {t : Nat} {h : Word} (hp : s.handlePart h = some (s.partOf t)) (hu : s.byHandle h = none) :
    aimDebug s t h = .error 2 := by
  rw [aimDebug, if_neg (not_not.mpr hp), hu]

/-- A thread's result in a vector register: all else of threads stands. -/
theorem putV_spec (s : State) (t : Nat) (d : BitVec 8) (x : Word) :
    (∀ o, ((putV s t d x).thread o).dc = (s.thread o).dc ∧ ((putV s t d x).thread o).freePass = (s.thread o).freePass) ∧
    (s.threads.has t = true → ((putV s t d x).thread t).v = (s.thread t).v.set d.toNat x) := by
  refine ⟨fun o => ?_, fun hh => by rw [putV, thread_onThread_self _ _ _ hh]⟩
  simp only [putV, State.thread, State.onThread, Sparse.findD, Sparse.find?_modify]
  split
  · cases s.threads.find? o <;> exact ⟨rfl, rfl⟩
  · exact ⟨rfl, rfl⟩

/-- A debugger's thread is not one that a curtain may be drawn before (R309). -/
theorem privOf_dbgcur {a : DbgArgs} {b : Bundle} {s : State} {t : Nat} (h : Sole (.dbgcur a) b s t) : (afterIssue b s).privOf t = true := by
  rw [State.privOf, afterIssue_groupOf]
  exact (h.issuing.may t h.thread.1).level rfl

theorem curtainEvent_keepsV {s : State} {t : Nat} (u : Nat) (ht : s.privOf t = true) : KeepsV t s (curtainEvent s u) := by
  unfold curtainEvent
  split
  · exact .refl s
  · rename_i hu
    have hne : u ≠ t := fun e => hu (e ▸ ht)
    exact ((KeepsV.settleSfu s hne).trans (.curtainRecord _ u)).trans (.setEv _ _ _)

theorem drawCurtain_spec {s : State} {hit : List Nat} {t : Nat} (ht : t ∉ hit) :
    KeepsV t s (drawCurtain s hit) ∧ (drawCurtain s hit).sys = s.sys ∧
    ∀ o ∈ hit, s.threads.has o = true → ((drawCurtain s hit).thread o).dc = true := by
  have hk : KeepsV t s (hit.foldl settleSfu s) := .foldl (fun s o ho => .settleSfu s (ne_of_mem_of_not_mem ho ht)) s
  have hs : Settles s (hit.foldl settleSfu s) := .foldl settleSfu .settleSfu hit s
  refine ⟨hk.trans ⟨fun u => has_onThreads _ _ _ u, ?_⟩, hs.sys, fun o ho hh => ?_⟩
  · rw [drawCurtain, thread_onThreads, if_neg fun h => ht h.1]
  · rw [drawCurtain, thread_onThreads, if_pos ⟨ho, (hk.has o).trans hh⟩]

theorem exec_dbgcur {a : DbgArgs} {b : Bundle} {s : State} {t u : Nat} (h : Sole (.dbgcur a) b s t) : let s0 := afterIssue b s
    let hit := (scopeThreads s0 u a.sc).filter fun o => !s0.privOf o && !(s0.thread o).dc
    s0.handlePart ((envOf s0 t).base1 a.h) = some (s0.partOf t) → s0.byHandle ((envOf s0 t).base1 a.h) = some u →
    (∀ o ∈ hit, s0.threads.has o = true) → ∃ s', exec (.dbgcur a) s = .next s' ∧
      (∀ o ∈ hit, (s'.thread o).dc = true) ∧ (s'.thread t).v = (s0.thread t).v.set a.d.toNat (BitVec.ofNat 32 (hit.length % 2 ^ 16)) ∧
      (s0.privOf u = false → sysBits s' (RegNo.dbgCtl (s0.ctxOf u)) 0 8 8 = 1) := by
  intro s0 hit hp hu hhas
  have ht := privOf_dbgcur h
  have hhit : t ∉ hit := fun hm => by simpa [s0, ht] using (List.mem_filter.mp hm).2
  have he := curtainEvent_keepsV u ht
  obtain ⟨hk, hsys, hdc⟩ := drawCurtain_spec (s := curtainEvent s0 u) hhit
  obtain ⟨hput, hv⟩ := putV_spec (drawCurtain (curtainEvent s0 u) hit) t a.d (BitVec.ofNat 32 (hit.length % 2 ^ 16))
  refine ⟨_, exec_dbgcur_aimed h (aimDebug_hits hp hu), fun o ho => ?_, ?_, fun hpriv => ?_⟩
  · exact (hput o).1.trans (hdc o ho ((he.has o).trans (hhas o ho)))
  · refine (hv ?_).trans (by rw [hk.v, he.v])
    rw [hk.has, he.has, afterIssue_has]
    exact h.thread.2.1
  · have hev : sysBits (curtainEvent s0 u) (RegNo.dbgCtl (s0.ctxOf u)) 0 8 8 = 1 := by
      rw [curtainEvent, hpriv, if_neg Bool.false_ne_true]
      exact sysBits_setEv _ _ _
    rw [← hev]
    show bits (Sparse.findD (drawCurtain (curtainEvent s0 u) hit).sys _ _).toNat 8 8 = _
    rw [hsys]
    rfl

/-! ### dbgres (R331, R332, R334) -/

theorem openCurtain_spec (s : State) (hit : List Nat) :
    (∀ o ∈ hit, s.threads.has o = true → ((openCurtain s hit).thread o).dc = false ∧ ((openCurtain s hit).thread o).freePass = true) ∧
    (∀ t, ((openCurtain s hit).thread t).v = (s.thread t).v ∧ (openCurtain s hit).threads.has t = s.threads.has t) ∧ (openCurtain s hit).hbm = s.hbm := by
  have hw : Wakes (fun _ => False) (s.onThreads hit fun _ th => { th with dc := false, freePass := true, readyAt := s.clk }) (openCurtain s hit) := by
    refine Wakes.foldl (fun s o hs => ?_) hit _ fun _ h => h.elim
    split
    · exact .refl s
    · exact .resumeChecks s o hs
  refine ⟨fun o ho hh => ?_, fun t => ⟨?_, (hw.has t).trans (has_onThreads _ _ _ t)⟩, hw.hbm⟩
  · rw [hw.dc, hw.freePass, thread_onThreads, if_pos ⟨ho, hh⟩]
    exact ⟨rfl, rfl⟩
  · rw [hw.v, thread_onThreads]
    split <;> rfl

theorem exec_dbgres {a : DbgArgs} {b : Bundle} {s : State} {t u : Nat} (h : Sole (.dbgres a) b s t) : let s0 := afterIssue b s
    let hit := (scopeThreads s0 u a.sc).filter fun o => (s0.thread o).dc
    s0.handlePart ((envOf s0 t).base1 a.h) = some (s0.partOf t) → s0.byHandle ((envOf s0 t).base1 a.h) = some u →
    (∀ o ∈ hit, s0.threads.has o = true) → ∃ s', exec (.dbgres a) s = .next s' ∧
      (∀ o ∈ hit, (s'.thread o).dc = false ∧ (s'.thread o).freePass = true) ∧
      (s'.thread t).v = (s0.thread t).v.set a.d.toNat (BitVec.ofNat 32 (hit.length % 2 ^ 16)) ∧ s'.hbm = s0.hbm := by
  intro s0 hit hp hu hhas
  obtain ⟨hopen, hkeep, hhbm⟩ := openCurtain_spec s0 hit
  obtain ⟨hput, hv⟩ := putV_spec (openCurtain s0 hit) t a.d (BitVec.ofNat 32 (hit.length % 2 ^ 16))
  refine ⟨_, exec_dbgres_aimed h (aimDebug_hits hp hu), fun o ho => ?_, ?_, hhbm⟩
  · obtain ⟨hd, hf⟩ := hopen o ho (hhas o ho)
    exact ⟨(hput o).1.trans hd, (hput o).2.trans hf⟩
  · refine (hv ?_).trans (by rw [(hkeep t).1])
    rw [(hkeep t).2, afterIssue_has]
    exact h.thread.2.1

end Sys2Proof.Machine

/-! ### Debuggers and tableaus (O53) -/

namespace Sys2Proof.Machine

/-- Settles O53, clause by clause: dbgstep, dbgcur and dbgres (`exec_dbgstep`, `exec_dbgcur`, `exec_dbgres`), the aperture
(`dataRead`, `dataWrite`), the tableau's arming, triggers, latch and records. -/
theorem debugAndTableau : Obligations.DebugAndTableau := by
  refine ⟨fun a b s t => exec_dbgstep, ⟨fun a b s t h => ⟨fun hp => exec_dbgcur_missed h (aimDebug_otherPart hp),
      fun hp hu => exec_dbgcur_missed h (aimDebug_noThread hp hu)⟩, fun a b s t h => ⟨fun hp => exec_dbgres_missed h (aimDebug_otherPart hp),
      fun hp hu => exec_dbgres_missed h (aimDebug_noThread hp hu)⟩, ?_, ?_⟩,
    fun s a k n hn h => ⟨fun t kd i ha => ?_, fun ha => ?_⟩, fun s a k p x n hn h => ⟨fun t kd i ha => ?_, fun ha => ?_⟩,
    fun s t i x => resourceSet_thread i x, fun a b s t => exec_tblarm, fun a b s t => exec_tblread, fun s a k p x => exec_tblCtl,
    fun s => ⟨_, rfl, ?_⟩, exec_tableauLatch, fun s p l hl n r s1 hr hw => ⟨_, exec_tableauRecordsWritten hl hr hw, ?_⟩⟩
  · rintro a b s t u h s0 hit ⟨hp, hu⟩ hhas
    exact exec_dbgcur h hp hu hhas
  · rintro a b s t u h s0 hit ⟨hp, hu⟩ hhas
    exact exec_dbgres h hp hu hhas
  · rw [exec_dbgDataRead hn h, dataRead, ha]
  · rw [exec_dbgDataRead hn h, dataRead, ha]
  · rw [exec_dbgDataWrite hn h, dataWrite, ha]
  · rw [exec_dbgDataWrite hn h, dataWrite, ha]
  · obtain ⟨hthreads, hpart⟩ := foldl_fireTableau 3 noThread (List.range 8) s
    exact ⟨hthreads, fun p hp => hpart p (List.mem_range.mpr hp)⟩
  · rw [State.part, sweep_parts, ← State.part, onTableau, part_onPart, if_pos rfl]
    exact ⟨rfl, rfl, rfl⟩

end Sys2Proof.Machine

/-! ### Distributions and draws (O7) -/

namespace Sys2Proof.Machine

/-! ### Words with results at issue (R199..R202, R207) -/

theorem completes_dmake (a : DmakeArgs) : Completes (.dmake a) (dmakeL a) := completes_alu (fun _ => rfl) rfl fun _ _ _ _ h => h.dmakeL a
theorem completes_dmean (a : DistArgs) : Completes (.dmean a) (dmeanL a) := completes_alu (fun _ => rfl) rfl fun _ _ _ _ h => h.dmeanL a
theorem completes_dvar (a : DistArgs) : Completes (.dvar a) (dvarL a) := completes_alu (fun _ => rfl) rfl fun _ _ _ _ h => h.dvarL a
theorem completes_dfold (a : DistArgs) : Completes (.dfold a) (dfoldL a) := completes_alu (fun _ => rfl) rfl fun _ _ _ _ h => h.dfoldL a
theorem completes_dspread (a : DdrawArgs) : Completes (.dspread a) (dspreadL a) := completes_alu (fun _ => rfl) rfl fun _ _ _ _ h => h.dspreadL a
theorem completes_dsamp (a : DdrawArgs) : Completes (.dsamp a) (dsampL a) := completes_alu (fun _ => rfl) rfl fun _ _ _ _ h => h.dsampL a
theorem completes_rndU32 (a : RndArgs) : Completes (.rndU32 a) (rndL rawWords a) := completes_alu (fun _ => rfl) rfl fun _ _ _ _ h => h.rndL _ a
theorem completes_rndF32 (a : RndArgs) : Completes (.rndF32 a) (rndL unitWords a) := completes_alu (fun _ => rfl) rfl fun _ _ _ _ h => h.rndL _ a
theorem completes_rndGauss (a : RndArgs) : Completes (.rndGauss a) (rndL gaussAll a) := completes_alu (fun _ => rfl) rfl fun _ _ _ _ h => h.rndL _ a

/-- The mean of a distribution whose variance stands beside it is its first register. -/
theorem dmeanL_of_ne_s4 {a : DistArgs} (h : a.dm ≠ .s4) (s : State) (e : Env) :
    dmeanL a s e = .vec a.d [codeWord ((fmtOf a.ty).low (e.op immSext a.a))] := if_neg h

theorem draws_apply {w : Wr} (h : w.push = none) (iw : Dword) (th : Thread) :
    (w.apply iw th).draws = th.draws + BitVec.ofNat 48 w.draws := by
  simp only [Wr.apply, h]

/-! ### dlin (R77, R200) -/

/-- One change of each of several groups that are there. -/
theorem foldl_onGroup (f : Group → Group) : ∀ (gs : List Nat) (s : State), gs.Nodup → (∀ g ∈ gs, s.groups.has g = true) →
    ∀ j, (gs.foldl (fun s g => s.onGroup g f) s).group j = if j ∈ gs then f (s.group j) else s.group j := by
  intro gs
  induction gs with
  | nil => exact fun s _ _ j => rfl
  | cons g gs ih =>
    intro s hn hs j
    obtain ⟨hg, hn⟩ := List.nodup_cons.1 hn
    have hhas : ∀ k ∈ gs, (s.onGroup g f).groups.has k = true := fun k hk => by
      rw [onGroup_groups, Sparse.has_modify]
      exact hs k (List.mem_cons_of_mem _ hk)
    rw [List.foldl_cons, ih _ hn hhas, group_onGroup _ _ _ _ (hs g List.mem_cons_self)]
    by_cases e : j = g
    · simp [e, hg]
    · simp [e]

theorem foldl_onGroup_rest (f : Group → Group) (gs : List Nat) (s : State) :
    { gs.foldl (fun s g => s.onGroup g f) s with groups := s.groups } = s :=
  List.foldlRecOn (motive := fun s' : State => { s' with groups := s.groups } = s) gs _ rfl fun _ h _ _ => h

/-- Landing results makes no group and ends none. -/
theorem land_groups_has (i : Instr) (rs : List (Nat × Wr)) (s : State) (g : Nat) : (land i rs s).groups.has g = s.groups.has g :=
  List.foldlRecOn (motive := fun s' : State => s'.groups.has g = s.groups.has g) rs _ rfl fun _ h _ _ => by rw [orFlags_has, h]

/-- The results of dlin land as those of a plain word; then the counter of each group that issued it goes on. -/
theorem exec_dlin {a : DistArgs} {b : Bundle} {s : State} (h : Issuing (.dlin a) b s) :
    ∃ s1, Lands (.dlin a) b s s1 (dlinL a s) ∧ ∃ s', exec (.dlin a) s = .next s' ∧ { s' with groups := s1.groups } = s1 ∧
      ∀ g, s'.group g = { s1.group g with
        lineage := if g ∈ (activeIn (.dlin a) b s).map (fun t => (s.thread t).group) then lineageNext (s.group g).lineage
          else (s.group g).lineage } := by
  obtain ⟨s1, halu, hl⟩ := lanes_complete (f := dlinL a) (r := dlinL a s) h rfl fun t _ _ => (sameReads_issued s b b.pc t).dlinL a
  have hs1 : lanesBody (.dlin a) (dlinL a) (issuedAs (.dlin a) b s) (afterIssue b s) = s1 :=
    Host.Outcome.next.inj ((word_issues h rfl _).symm.trans halu)
  have hbody : dlinBody a (issuedAs (.dlin a) b s) (afterIssue b s)
      = (((activeIn (.dlin a) b s).map fun t => (s.thread t).group).dedup).foldl
          (fun s g => s.onGroup g fun x => { x with lineage := lineageNext x.lineage }) s1 := by
    simp only [dlinBody, hs1, afterIssue_thread_group]
    rfl
  have hhas : ∀ g ∈ ((activeIn (.dlin a) b s).map fun t => (s.thread t).group).dedup, s1.groups.has g = true := fun g hg => by
    obtain ⟨t, ht, rfl⟩ := List.mem_map.1 (List.mem_dedup.1 hg)
    rw [← hs1, lanesBody, land_groups_has, afterIssue_groups]
    exact (h.may t (mem_activeIn.1 ht).1).grouped
  refine ⟨s1, hl, _, word_issues h rfl (dlinBody a), ?_, fun g => ?_⟩
  · rw [hbody]
    exact foldl_onGroup_rest _ _ _
  · have hline : (s1.group g).lineage = (s.group g).lineage := by rw [hl.groups g]
    rw [hbody, foldl_onGroup _ _ _ (List.nodup_dedup _) hhas, ← hline]
    simp only [List.mem_dedup]
    split <;> rfl

/-! ### rngseed (R206) -/

/-- The group of the bundle takes its key, each active thread begins its draws anew. -/
theorem exec_rngseed {a : RngseedArgs} {b : Bundle} {s : State} (h : Issuing (.rngseed a) b s) (hne : activeIn (.rngseed a) b s ≠ []) :
    ∃ s', exec (.rngseed a) s = .next s' ∧ Acts (.rngseed a) b s s' (fun _ th => { th with draws := 0 }) fun g x =>
      if g ∈ (activeIn (.rngseed a) b s).map (fun t => (s.thread t).group) then
        { x with key := pair (x.k.findD a.k.toNat 0) (x.k.findD (a.k.toNat + 1) 0) } else x := by
  obtain ⟨t, l, htl⟩ := List.exists_cons_of_ne_nil hne
  have hmem : t ∈ activeIn (.rngseed a) b s := htl ▸ List.mem_cons_self
  have hgrouped : s.groups.has (s.thread t).group = true := (h.may t (mem_activeIn.1 hmem).1).grouped
  have hone : ∀ g, g ∈ (activeIn (.rngseed a) b s).map (fun t => (s.thread t).group) ↔ g = (s.thread t).group := fun g => by
    refine ⟨fun hg => ?_, fun hg => hg ▸ List.mem_map_of_mem hmem⟩
    obtain ⟨u, hu, rfl⟩ := List.mem_map.1 hg
    exact h.together rfl u (mem_activeIn.1 hu).1 t (mem_activeIn.1 hmem).1
  have hbody : rngseedBody a (issuedAs (.rngseed a) b s) (afterIssue b s)
      = ((afterIssue b s).onGroup (s.thread t).group fun x =>
          { x with key := pair ((s.groupOf t).k.findD a.k.toNat 0) ((s.groupOf t).k.findD (a.k.toNat + 1) 0) }).onThreads
            (activeIn (.rngseed a) b s) fun _ th => { th with draws := 0 } := by
    simp only [rngseedBody, issuedAs, htl, afterIssue_groupOf, afterIssue_thread_group]
  refine ⟨_, word_issues h rfl (rngseedBody a), ?_⟩
  rw [hbody]
  refine Acts.intro h (fun u hu => ?_) (fun u hu => ?_) (fun g => ?_) (fun g hg => ?_) rfl
  · have hm := (mem_activeIn.1 hu).1
    have hhas := (h.may u hm).here
    rw [thread_onThreads, if_pos ⟨hu, (afterIssue_has b s u).trans hhas⟩]
    exact congrArg (fun th : Thread => { th with draws := 0 }) (afterIssue_thread hm hhas)
  · cases hx : (afterIssue b s).threads.find? u <;> simp [State.onThreads, hx, hu]
  · rw [onThreads_groups, onGroup_groups, Sparse.has_modify, afterIssue_groups]
  · simp only [hone]
    rw [group_onThreads, group_onGroup _ _ _ _ (by rw [afterIssue_groups]; exact hgrouped), afterIssue_group, afterIssue_group]
    split
    next e => rw [e]; rfl
    next => rfl

end Sys2Proof.Machine

namespace Sys2Proof.Machine

/-- Settles O7: the words with results at issue land what their rules say (`completes_dmake` to `completes_rndGauss`); dlin
moves its group's counter on (`exec_dlin`), rngseed sets the key (`exec_rngseed`). -/
theorem distributionsAndDraws : Obligations.DistributionsAndDraws := by
  refine ⟨completes_dmake, completes_dmean, completes_dvar, completes_dfold, fun a s e h => dmeanL_of_ne_s4 ?_ s e,
    fun a b s => exec_dlin, completes_rndU32, completes_rndF32, completes_rndGauss, completes_dspread, completes_dsamp,
    fun s e st i => rfl, fun w iw th h => draws_apply h iw th, fun a b s => exec_rngseed⟩
  rintro h4
  simp [h4] at h

end Sys2Proof.Machine

/-! ### Results that come late (O51) -/

namespace Sys2Proof.Machine

/-! ### A result lands (R56, R67) -/

/-- The state in which a result for a thread's own registers is written, before the thread goes on. -/
def resultWritten (s : State) (t : Nat) (p : Pend) : State :=
  (s.onThread t (applyPend p)).onGroup (s.thread t).group fun x => { x with fsr := x.fsr ||| p.flags }

theorem landPend_own {p : Pend} (hu : p.uniform = false) (s : State) (t : Nat) : landPend s t p =
    if ((resultWritten s t p).thread t).held = .stalled ∧ ((resultWritten s t p).thread t).why = .result ∧ noneAwaited (resultWritten s t p) t = true
    then setReady (resultWritten s t p) t else resultWritten s t p := by
  have hw : landPend s t p = ([t].filter fun u => ((resultWritten s t p).thread u).held == .stalled &&
      ((resultWritten s t p).thread u).why == .result && noneAwaited (resultWritten s t p) u).foldl setReady (resultWritten s t p) := by
    simp only [landPend, hu, Bool.false_eq_true, if_false]
    rfl
  rw [hw, List.filter_cons]
  simp only [Bool.and_eq_true, beq_iff_eq, and_assoc]
  split <;> rfl

theorem landPend_heldOnly {p : Pend} (hu : p.uniform = false) (s : State) (t : Nat) : HeldOnly (resultWritten s t p) (landPend s t p) := by
  rw [landPend_own hu]
  split
  · exact .setReady _ t
  · exact .refl _

theorem thread_resultWritten {s : State} {t : Nat} (p : Pend) (hh : s.threads.has t = true) :
    (resultWritten s t p).thread t = applyPend p (s.thread t) := thread_onThread_self s t _ hh

/-- A result for vector registers. -/
theorem applyPend_vector {p : Pend} (hport : p.port = none) (hu : p.uniform = false) (hp : p.pred = false) (th : Thread) :
    applyPend p th = { th with pend := th.pend.filter fun x => x.id != p.id, v := p.writes.foldl (fun v e => v.set e.1 e.2) th.v } := by
  simp only [applyPend, hport, hu, hp, Bool.false_eq_true, if_false]

theorem landPend_thread_ne {p : Pend} (hu : p.uniform = false) (s : State) {t u : Nat} (hne : u ≠ t) :
    (landPend s t p).thread u = s.thread u := by
  have hw : (resultWritten s t p).thread u = s.thread u := thread_onThread_ne s t u _ hne
  rw [landPend_own hu]
  split
  · rw [setReady, thread_onThread_ne _ _ _ _ hne, hw]
  · exact hw

theorem landPend_rest {p : Pend} (hu : p.uniform = false) (s : State) (t : Nat) :
    { landPend s t p with threads := s.threads, groups := s.groups } = s := by
  rw [landPend_own hu]
  split <;> rfl

theorem noneAwaited_iff (s : State) (t : Nat) : noneAwaited s t = true ↔
    (s.thread t).pend = [] ∧ ∀ u ∈ s.groupThreads (s.thread t).group, ∀ q ∈ (s.thread u).pend, q.uniform = false := by
  simp [noneAwaited]

theorem HeldOnly.noneAwaited {s s' : State} (h : HeldOnly s s') (t : Nat) : Machine.noneAwaited s' t = Machine.noneAwaited s t := by
  simp only [Machine.noneAwaited, h.pend, h.group, h.groupThreads]

/-- R27: a thread that awaited a result goes on where nothing else is awaited. -/
theorem landPend_held {s : State} {t : Nat} {p : Pend} (hport : p.port = none) (hu : p.uniform = false) (hp : p.pred = false)
    (hh : s.threads.has t = true) (hs : (s.thread t).held = .stalled) (hw : (s.thread t).why = .result) :
    ((landPend s t p).thread t).held = if noneAwaited (landPend s t p) t = true then .ready else .stalled := by
  have ht := thread_resultWritten p hh
  have hstalled : ((resultWritten s t p).thread t).held = .stalled := by rw [ht, applyPend_vector hport hu hp, hs]
  have hwhy : ((resultWritten s t p).thread t).why = .result := by rw [ht, applyPend_vector hport hu hp, hw]
  rw [(landPend_heldOnly hu s t).noneAwaited, landPend_own hu]
  by_cases ha : noneAwaited (resultWritten s t p) t = true
  · have hh' : (resultWritten s t p).threads.has t = true := (has_onThread s t t _).trans hh
    rw [if_pos ⟨hstalled, hwhy, ha⟩, if_pos ha, setReady, thread_onThread_self _ _ _ hh']
  · rw [if_neg fun h => ha h.2.2, if_neg ha, hstalled]

/-- A result for vector registers is written with its flags, and is awaited no more; all else of its thread but what held it stands. -/
theorem landPend_vector {s : State} {t : Nat} {p : Pend} (hport : p.port = none) (hu : p.uniform = false) (hp : p.pred = false)
    (hh : s.threads.has t = true) : ∃ h w r n, (landPend s t p).thread t = { s.thread t with
      pend := (s.thread t).pend.filter fun x => x.id != p.id, v := p.writes.foldl (fun v e => v.set e.1 e.2) (s.thread t).v,
      held := h, why := w, readyAt := r, passed := n } := by
  obtain ⟨h, w, r, n, e⟩ := (landPend_heldOnly hu s t).thread t
  exact ⟨h, w, r, n, by rw [e, thread_resultWritten p hh, applyPend_vector hport hu hp]⟩

theorem landPend_group {s : State} {t : Nat} {p : Pend} (hu : p.uniform = false) (hg : s.groups.has (s.thread t).group = true) :
    (landPend s t p).group (s.thread t).group =
      { s.group (s.thread t).group with fsr := (s.group (s.thread t).group).fsr ||| p.flags } := by
  rw [State.group, (landPend_heldOnly hu s t).groups, ← State.group, resultWritten, group_onGroup (s.onThread t (applyPend p)) _ _ _ hg, if_pos rfl]
  rfl

/-! ### LATE_RESULT_WRITE (R56) -/

theorem exec_lateResultWrite {s : State} {t : Nat} {p : Pend} (h : (s.thread t).pend.filter (fun p => p.vals.isSome) = [p]) :
    exec (.lateResultWrite t) s = .next (landPend s t p) := by
  show execLateResultWrite t s = _
  simp only [execLateResultWrite, h]
  rfl

/-! ### XOP_RESULT_RETURN (R166) -/

theorem onDie_congr {s : State} {d : Nat} {f g : Die → Die} (h : f (s.die d) = g (s.die d)) : s.onDie d f = s.onDie d g := by
  simp only [State.onDie, Sparse.update]
  rw [← State.die, h]

theorem exec_xopResultReturn {s : State} {d : Nat} {x : Xop} {p : Pend} (hx : (s.die d).xops = [x])
    (hp : (s.thread x.tid).pend.find? (fun p => p.id == x.pend) = some p) :
    exec (.xopResultReturn d) s = .next (landPend (sysPutBits (s.onDie d fun y => { y with xops := [] }) RegNo.xcuStat d 63 32
      (sysBits s RegNo.xcuStat d 63 32 + 1)) x.tid { p with vals := some x.vals }) := by
  have hnone : s.onDie d (fun y => { y with xops := y.xops.filter fun z => z.pend != x.pend }) = s.onDie d fun y => { y with xops := [] } :=
    onDie_congr (by simp [hx])
  have hpick : s.pick 1 = (0, s) := rfl
  show Host.Outcome.next (xopReturn d s) = _
  simp only [xopReturn, hx, List.take, List.length_singleton, hpick, List.getElem?_cons_zero, hnone]
  have hth : ∀ n, (sysPutBits (s.onDie d fun y => { y with xops := [] }) RegNo.xcuStat d 63 32 n).thread x.tid = s.thread x.tid := fun _ => rfl
  rw [hth, hp]
  rfl

/-! ### LATE_FAULT_ARRIVAL and OPERAND_LOG_REPLAY (R323) -/

theorem exec_lateFaultArrival {met : Req → Bool} (hmet : ∀ r, met r = true ↔ ∃ f, r.st = .fault f) (s : State) (e : Nat) :
    exec (.lateFaultArrival e) s = .next (s.onCore (e / 256) fun k => { k with log := k.log.modify (e % 256) fun x =>
      { x with faulted := unionN x.faulted (x.threads.filter fun t => (s.thread t).out.any fun r => r.entry == some e && met r) } }) := by
  have h : met = fun r => match r.st with
      | .fault _ => true
      | _ => false := by
    funext r
    rw [Bool.eq_iff_iff, hmet]
    cases r.st <;> simp
  rw [h]
  rfl

/-- R323: a request that is sent again where its fault was resolved. -/
def resent (e : Nat) (r : Req) : Req := if r.entry == some e && r.st == ReqSt.resolved then { r with st := .sent } else r

/-- The state that a replay of an entry for some of its threads leaves. -/
def replayed (s : State) (e : Nat) (due : List Nat) : State :=
  (s.onThreads due fun _ th => { th with out := th.out.map (resent e) }).onCore (e / 256) fun k =>
    { k with log := k.log.modify (e % 256) fun x => { x with faulted := x.faulted.filter fun t => !due.contains t } }

theorem exec_operandLogReplay {s : State} {e : Nat} {x : LogEntry} (hx : (s.core (e / 256)).log.find? (e % 256) = some x) :
    exec (.operandLogReplay e) s = .next (replayed s e (x.threads.filter fun t => (s.thread t).out.any fun r =>
      r.entry == some e && r.st == .resolved)) := by
  show execOperandLogReplay e s = _
  simp only [execOperandLogReplay, entryAt, hx, Option.map_some, Option.getD_some]
  rfl

theorem replayed_log {s : State} {e : Nat} {x : LogEntry} (due : List Nat) (hx : (s.core (e / 256)).log.find? (e % 256) = some x) :
    ((replayed s e due).core (e / 256)).log.find? (e % 256) = some { x with faulted := x.faulted.filter fun t => !due.contains t } := by
  simp only [replayed, core_onCore, core_onThreads, if_true, Sparse.find?_modify, hx, Option.map_some]

/-! ### HOST_LINK_COMPLETION (R389) -/

/-- Where no thread waits on a word of memory, none of its waits ends. -/
theorem sweep_quiet {s : State} (h : s.quiet) : sweep s = s := by
  unfold sweep
  refine List.foldl_fixed' (fun e => ?_) _
  dsimp only
  split
  next hh hw => exact absurd hw (h e.1 hh).1
  next hh hw => exact absurd hw ((h e.1 hh).2 _ _ _ _)
  next => rfl

theorem passEntry_cores (s : State) (t : Nat) (r : Req) : ∃ cs, passEntry s t r = { s with cores := cs } := by
  unfold passEntry
  split <;> exact ⟨_, rfl⟩

/-- Host memory is not cached. -/
theorem cacheLine_host (s : State) (t : Nat) (l : Loc) (pa : Nat) : cacheLine s t l (.host pa) = s := by
  cases h : l.phys <;> simp only [cacheLine, h]

theorem acquireRead_plain {r : Req} (h : r.order = .none) (s : State) (t : Nat) (ids : List Nat) : acquireRead s t r ids = s :=
  if_neg (by rw [h]; exact Bool.false_ne_true)

theorem finish_found {s : State} {t id : Nat} {q : Pend} (h : (s.thread t).pend.find? (fun x => x.id == id) = some q) (ws : List Word) :
    finish s t (some id) ws = landPend s t { q with vals := some ws } := by
  simp only [finish, Option.bind_some, h]

/-- The oldest access of a thread awaits nothing. -/
theorem mayPass_head (r : Req) (l : List Req) : mayPass (r :: l) r = true := by
  simp [mayPass]

section
variable {s : State} {t pa p a : Nat} {r : Req} {lt : LT} {q : Pend}

/-- A load of host memory is performed as its completion returns: its bytes are those the host holds. -/
theorem performOne_hostLoad (hacc : r.acc = .load lt p) (hord : r.order = .none) (ha : hostAddr s r.loc pa = some a)
    (hq : (s.thread t).pend.find? (fun x => x.id == p) = some q) (hh : s.threads.has t = true) :
    performOne s (t, r) (.host pa) false =
      landPend (dropReq s (t, r)) t { q with vals := some (LT.value lt (Memory.readN s.host a r.size)) } := by
  have hread : ∀ k, hostRead (dropReq s (t, r)) k r.loc pa r.size = (Memory.readN s.host a r.size, dropReq s (t, r)) := fun k => by
    have : hostAddr (dropReq s (t, r)) r.loc pa = some a := ha
    rw [hostRead, this]
    rfl
  have hfind : ((dropReq s (t, r)).thread t).pend.find? (fun x => x.id == p) = some q := by
    rw [dropReq, thread_onThread_self s t _ hh, hq]
  simp only [performOne, hacc, loadAt, Place.read, hread, cacheLine_host, acquireRead_plain hord]
  exact finish_found hfind _

/-- The state in which the completion of a thread's oldest access, a load, has returned. -/
theorem performRun_hostLoad (hout : (s.thread t).out.head? = some r) (hacc : r.acc = .load lt p) (hord : r.order = .none)
    (ha : hostAddr s r.loc pa = some a) (hq : (s.thread t).pend.find? (fun x => x.id == p) = some q) (hu : q.uniform = false)
    (hport : q.port = none) (hp : q.pred = false) (hh : s.threads.has t = true) :
    performRun s [(t, r)] (.host pa) = sweep (passEntry (landPend (dropReq s (t, r)) t
      { q with vals := some (LT.value lt (Memory.readN s.host a r.size)) }) t r) := by
  obtain ⟨l, hl⟩ := List.head?_eq_some_iff.1 hout
  have hone := performOne_hostLoad hacc hord ha hq hh
  generalize hq' : ({ q with vals := some (LT.value lt (Memory.readN s.host a r.size)) } : Pend) = q' at hone
  have hmem : (s.thread t).out.any (fun x => x.seq == r.seq) = true := by simp [hl]
  have hfind : (s.thread t).out.find? (fun x => x.seq == r.seq) = some r := by simp [hl]
  have hgone : ((landPend (dropReq s (t, r)) t q').thread t).out.find? (fun x => x.seq == r.seq) = none := by
    obtain ⟨_, _, _, _, e⟩ := landPend_vector (s := dropReq s (t, r)) (t := t) (p := q') (by rw [← hq', hport]) (by rw [← hq', hu])
      (by rw [← hq', hp]) ((has_onThread s t t _).trans hh)
    rw [e, dropReq, thread_onThread_self s t _ hh]
    simp
  have hms : performMembers s [(t, r)] (.host pa) = landPend (dropReq s (t, r)) t q' := by
    simp only [performMembers, hacc, List.foldl_cons, List.foldl_nil, hfind]
    exact hone
  simp only [performRun, Place.poison, ite_self, Bool.false_eq_true, if_false, List.filter_cons, hmem, if_true, List.filter_nil, hms,
    List.foldl_cons, List.foldl_nil, hgone]

theorem exec_hostLinkCompletion (hout : (s.thread t).out.head? = some r) (hst : r.st = .host pa) (hacc : r.acc = .load lt p) :
    exec (.hostLinkCompletion t) s = .next (performRun s [(t, r)] (.host pa)) := by
  obtain ⟨l, hl⟩ := List.head?_eq_some_iff.1 hout
  have hrun : runOf s t r = [(t, r)] := by simp only [runOf, hacc]
  show execHostLinkCompletion t s = _
  simp only [execHostLinkCompletion, hl, List.find?_cons, hst, mayPass_head, hrun]

end

/-- A state whose threads wait as those of another do, or no more. -/
theorem State.quiet.of_waiting {s s' : State} (h : s.quiet)
    (hw : ∀ u, (s'.thread u).held = .waiting → (s.thread u).held = .waiting ∧ (s'.thread u).why = (s.thread u).why) : s'.quiet := fun u hu => by
  obtain ⟨h1, h2⟩ := hw u hu
  rw [h2]
  exact h u h1

theorem landPend_waiting {s : State} {t : Nat} {p : Pend} (hport : p.port = none) (hu : p.uniform = false) (hp : p.pred = false)
    (hh : s.threads.has t = true) (hw : ((landPend s t p).thread t).held = .waiting) :
    (s.thread t).held = .waiting ∧ ((landPend s t p).thread t).why = (s.thread t).why := by
  have hh' : (resultWritten s t p).threads.has t = true := (has_onThread s t t _).trans hh
  rw [landPend_own hu] at hw ⊢
  split at hw
  · rw [setReady, thread_onThread_self _ _ _ hh'] at hw
    cases hw
  · rename_i hc
    rw [if_neg hc]
    rw [thread_resultWritten p hh, applyPend_vector hport hu hp] at hw ⊢
    exact ⟨hw, rfl⟩

/-- A thread that has an access on its way is one there is. -/
theorem has_of_out {s : State} {t : Nat} {r : Req} (h : (s.thread t).out.head? = some r) : s.threads.has t = true := by
  by_contra hn
  have hnone : s.threads.find? t = none := by simpa [Sparse.has] using hn
  rw [State.thread, Sparse.findD, hnone] at h
  cases h

/-- R389: what the completion of a load brings its thread, and what it leaves. -/
theorem hostLoad_returns {s : State} {t pa p a : Nat} {r : Req} {lt : LT} {q : Pend} (hout : (s.thread t).out.head? = some r)
    (hst : r.st = .host pa) (hacc : r.acc = .load lt p) (hord : r.order = .none) (hquiet : s.quiet) (ha : hostAddr s r.loc pa = some a)
    (hq : (s.thread t).pend.find? (fun x => x.id == p) = some q) (hu : q.uniform = false) (hport : q.port = none) (hp : q.pred = false) :
    ∃ s', exec (.hostLinkCompletion t) s = .next s' ∧
      (s'.thread t).v = ((q.dst.zip (LT.value lt (Memory.readN s.host a r.size))).filter fun e => e.1 != 1024).foldl
        (fun v e => v.set e.1 e.2) (s.thread t).v ∧
      (s'.thread t).out = (s.thread t).out.filter (fun x => x.seq != r.seq) ∧ (s'.thread t).pc = (s.thread t).pc ∧
      (∀ u, u ≠ t → s'.thread u = s.thread u) ∧ s'.hbm = s.hbm ∧ s'.flats = s.flats ∧ s'.host = s.host := by
  have hh := has_of_out hout
  have hrun := performRun_hostLoad hout hacc hord ha hq hu hport hp hh
  generalize hq' : ({ q with vals := some (LT.value lt (Memory.readN s.host a r.size)) } : Pend) = q' at hrun
  have hu' : q'.uniform = false := hq' ▸ hu
  have hport' : q'.port = none := hq' ▸ hport
  have hp' : q'.pred = false := hq' ▸ hp
  have hdrop : (dropReq s (t, r)).thread t = { s.thread t with out := (s.thread t).out.filter fun x => x.seq != r.seq } :=
    thread_onThread_self s t _ hh
  have hother : ∀ u, u ≠ t → (landPend (dropReq s (t, r)) t q').thread u = s.thread u := fun u hne => by
    rw [landPend_thread_ne hu' _ hne, dropReq, thread_onThread_ne _ _ _ _ hne]
  have hhd : (dropReq s (t, r)).threads.has t = true := (has_onThread s t t _).trans hh
  obtain ⟨cs, hcs⟩ := passEntry_cores (landPend (dropReq s (t, r)) t q') t r
  have hstill : State.quiet { landPend (dropReq s (t, r)) t q' with cores := cs } := hquiet.of_waiting fun u hw => by
    by_cases hne : u = t
    · subst hne
      have := landPend_waiting hport' hu' hp' hhd hw
      rwa [hdrop] at this
    · have := hother u hne
      exact ⟨this ▸ hw, congrArg Thread.why this⟩
  rw [hcs, sweep_quiet hstill] at hrun
  obtain ⟨_, _, _, _, hland⟩ := landPend_vector hport' hu' hp' hhd
  have hrest := landPend_rest hu' (dropReq s (t, r)) t
  refine ⟨_, (exec_hostLinkCompletion hout hst hacc).trans (congrArg _ hrun), ?_, ?_, ?_, hother, ?_, ?_, ?_⟩
  · show ((landPend (dropReq s (t, r)) t q').thread t).v = _
    rw [hland, hdrop, ← hq']
    rfl
  · show ((landPend (dropReq s (t, r)) t q').thread t).out = _
    rw [hland, hdrop]
  · show ((landPend (dropReq s (t, r)) t q').thread t).pc = _
    rw [hland, hdrop]
  · exact (congrArg State.hbm hrest :)
  · exact (congrArg State.flats hrest :)
  · exact (congrArg State.host hrest :)

end Sys2Proof.Machine

namespace Sys2Proof.Machine

/-- Settles O51, event by event: a late result written (`landPend_vector`, `landPend_held`), an xop returned
(`exec_xopResultReturn`), a late fault (`exec_lateFaultArrival`), a replay (`exec_operandLogReplay`) and a completion of
the host link (`hostLoad_returns`). -/
theorem lateResults : Obligations.LateResults := by
  refine ⟨fun s t p hone hh hport hu hp hg => ?_, fun s d x p hx hp => ⟨_, exec_xopResultReturn hx hp, rfl⟩,
    fun s e met hmet => exec_lateFaultArrival hmet s e, fun s e x hx => ?_, ?_⟩
  · obtain ⟨_, _, _, _, hland⟩ := landPend_vector hport hu hp hh
    refine ⟨_, exec_lateResultWrite hone, ?_, ?_, ?_, ?_, landPend_group hu hg, fun hs hw => ?_,
      fun u hne => landPend_thread_ne hu s hne, landPend_rest hu s t⟩
    · rw [hland]; rfl
    · rw [hland]
    · rw [hland]
    · rw [hland]
    · have hgroup : ((landPend s t p).thread t).group = (s.thread t).group := by rw [hland]
      rw [landPend_held hport hu hp hh hs hw, ← hgroup]
      exact if_congr (noneAwaited_iff _ t) rfl rfl
  · refine ⟨_, exec_operandLogReplay hx, fun t ht hh => ?_, fun t ht => ?_, replayed_log _ hx, rfl⟩
    · exact (thread_onThreads _ _ _ t).trans (if_pos ⟨ht, hh⟩)
    · exact (thread_onThreads _ _ _ t).trans (if_neg fun h => ht h.1)
  · intro s t r pa a lt p ds fl sfu pc iw hout hst hacc hord hquiet ha hq
    obtain ⟨s', hexec, hv, ho, hpc, hother, hmem⟩ := hostLoad_returns hout hst hacc hord hquiet ha hq rfl rfl rfl
    exact ⟨s', hexec, hv, ho, hpc, fun u hne => ⟨by rw [hother u hne], by rw [hother u hne]⟩, hmem⟩

end Sys2Proof.Machine

/-! ### What ending a context leaves of the errors of a die (R380, R381) -/

namespace Sys2Proof.Machine

/-- R380, R381: what a die holds of its uncorrectable errors, but for the poison that a write clears: the log, the errors that
found it full, the poisoned lines of the loft. -/
def Die.errors (x : Die) : List UeEntry × Nat × List Nat := (x.ueLog, x.ueLost, x.poisonLoft)

/-- The threads and the errors of every die stand as in `s₀`. -/
def KeepsErrors (s₀ s : State) : Prop := s.threads = s₀.threads ∧ ∀ d, (s.die d).errors = (s₀.die d).errors

section
variable {s₀ s : State}

/-- An update of anything but threads and dies. -/
theorem keepsErrors_update {clk ctr agenda issue groups blocks launches cores clusters parts copies sys hbm flats loft host hist pkg images}
    {winWrites} (h : KeepsErrors s₀ s) : KeepsErrors s₀ ⟨clk, ctr, agenda, issue, s.threads, groups, blocks, launches, cores,
      clusters, s.dies, parts, copies, sys, hbm, flats, loft, host, hist, pkg, images, winWrites⟩ := h

theorem onDie_keepsErrors {d : Nat} {f : Die → Die} (hf : ∀ x, (f x).errors = x.errors) (h : KeepsErrors s₀ s) :
    KeepsErrors s₀ (s.onDie d f) := by
  refine ⟨h.1, fun e => ?_⟩
  rw [die_onDie]
  split
  · rename_i he
    rw [hf, ← he]
    exact h.2 e
  · exact h.2 e

theorem onPkg_keepsErrors {f} (h : KeepsErrors s₀ s) : KeepsErrors s₀ (s.onPkg f) := h

/-! Accesses at their place. -/

theorem coin_keepsErrors (h : KeepsErrors s₀ s) : KeepsErrors s₀ s.coin.2 := h

theorem pick_keepsErrors {n} (h : KeepsErrors s₀ s) : KeepsErrors s₀ (s.pick n).2 := by
  unfold State.pick
  split <;> exact h

theorem windowView_keepsErrors {t} (h : KeepsErrors s₀ s) : KeepsErrors s₀ (windowView s t).2 := by
  have hd : (windowView s t).2.dies = s.dies := (congrArg State.dies (windowView_rest s t) :)
  exact ⟨(windowView_threads s t).trans h.1, fun d => by rw [State.die, hd]; exact h.2 d⟩

theorem hlkErr_keepsErrors {p kind addr} (h : KeepsErrors s₀ s) : KeepsErrors s₀ (hlkErr s p kind addr) := by
  unfold hlkErr
  split <;> exact h

theorem leafUsed_keepsErrors {d ia} (h : KeepsErrors s₀ s) : KeepsErrors s₀ (leafUsed s d ia).2 := by
  unfold leafUsed
  grind [coin_keepsErrors]

theorem leafTouched_keepsErrors {d ia w} (h : KeepsErrors s₀ s) : KeepsErrors s₀ (leafTouched s d ia w) :=
  onDie_keepsErrors (fun _ => rfl) h

theorem hatTouched_keepsErrors {l pa} (h : KeepsErrors s₀ s) : KeepsErrors s₀ (hatTouched s l pa) := by
  unfold hatTouched
  grind [coin_keepsErrors, onPkg_keepsErrors]

theorem translate_keepsErrors {l w f} (h : KeepsErrors s₀ s) : KeepsErrors s₀ (translate s l w f).2 := by
  unfold translate
  grind [leafUsed_keepsErrors, leafTouched_keepsErrors, hatTouched_keepsErrors]

theorem placeGo_keepsErrors {l w f x} (h : KeepsErrors s₀ s) : KeepsErrors s₀ (place.go l w f s x).2 := by
  unfold place.go
  grind [translate_keepsErrors]

theorem place_keepsErrors {l w f} (h : KeepsErrors s₀ s) : KeepsErrors s₀ (place s l w f).2 := by
  unfold place
  grind [placeGo_keepsErrors]

theorem touchSide_keepsErrors {d pa} (h : KeepsErrors s₀ s) : KeepsErrors s₀ (touchSide s d pa) := onDie_keepsErrors (fun _ => rfl) h

theorem placeRead_keepsErrors {pl : Place} {l p n} (h : KeepsErrors s₀ s) : KeepsErrors s₀ (pl.read s l p n).2 := by
  unfold Place.read hostRead
  grind [touchSide_keepsErrors, hlkErr_keepsErrors]

theorem putLine_keepsErrors {x} (h : KeepsErrors s₀ s) : KeepsErrors s₀ (putLine s x) := by
  unfold putLine
  split
  · exact onDie_keepsErrors (fun _ => rfl) (onDie_keepsErrors (fun _ => rfl) h)
  · exact onDie_keepsErrors (fun _ => rfl) h

theorem hostWrite_keepsErrors {p l pa relaxed b} (h : KeepsErrors s₀ s) : KeepsErrors s₀ (hostWrite s p l pa relaxed b) := by
  unfold hostWrite
  split
  · exact h
  · exact hlkErr_keepsErrors h

theorem physWrite_keepsErrors {d pa o b} (h : KeepsErrors s₀ s) : KeepsErrors s₀ (physWrite s d pa o b) :=
  onDie_keepsErrors (fun _ => rfl) (touchSide_keepsErrors (keepsErrors_update h))

theorem placeWrite_keepsErrors {pl : Place} {l p relaxed b} (h : KeepsErrors s₀ s) : KeepsErrors s₀ (pl.write s l p relaxed b) := by
  unfold Place.write
  grind [putLine_keepsErrors, physWrite_keepsErrors, hostWrite_keepsErrors]

theorem storeAt_keepsErrors {pl l p r relaxed b} (h : KeepsErrors s₀ s) : KeepsErrors s₀ (storeAt s pl l p r relaxed b) := by
  unfold storeAt
  grind [placeRead_keepsErrors, placeWrite_keepsErrors, keepsErrors_update]

theorem writeLoc_keepsErrors {l r relaxed b} (h : KeepsErrors s₀ s) : KeepsErrors s₀ (writeLoc s l r relaxed b).2 := by
  unfold writeLoc
  grind [place_keepsErrors, storeAt_keepsErrors]

theorem flatWrite_keepsErrors {d bank off b} (h : KeepsErrors s₀ s) : KeepsErrors s₀ (flatWrite s d bank off b) :=
  onDie_keepsErrors (fun _ => rfl) (keepsErrors_update h)

theorem someOf_keepsErrors {l} (h : KeepsErrors s₀ s) : KeepsErrors s₀ (someOf s l).2 :=
  List.foldlRecOn (motive := fun p : List Nat × State => KeepsErrors s₀ p.2) l _ h fun _ hp _ _ => hp

theorem histRead_keepsErrors {v l home} (h : KeepsErrors s₀ s) : KeepsErrors s₀ (histRead s v l home).2 := by
  have hs : ∀ l, KeepsErrors s₀ (someOf s l).2 := fun _ => someOf_keepsErrors h
  unfold histRead
  dsimp only
  split
  · split <;> exact hs _
  · exact hs _

theorem mixRead_keepsErrors {mark l home} (h : KeepsErrors s₀ s) : KeepsErrors s₀ (mixRead s mark l home).2 :=
  List.foldlRecOn (motive := fun p : List Byte × State × Nat => KeepsErrors s₀ p.2.1) (chunks 4 home.length home) _ h
    fun _ hp _ _ => pick_keepsErrors hp

/-! Copies. -/

theorem copyBytes_keepsErrors {cp l home} (h : KeepsErrors s₀ s) : KeepsErrors s₀ (copyBytes s cp l home).2 := by
  unfold copyBytes
  grind [mixRead_keepsErrors, histRead_keepsErrors]

theorem targetFor_keepsErrors {t ctx core priv va need} (h : KeepsErrors s₀ s) : KeepsErrors s₀ (targetFor s t ctx core priv va need).2 :=
  windowView_keepsErrors h

theorem copyRead_keepsErrors {cp va n} (h : KeepsErrors s₀ s) : KeepsErrors s₀ (copyRead s cp va n).2 := by
  unfold copyRead
  split <;> grind [targetFor_keepsErrors, place_keepsErrors, placeRead_keepsErrors, copyBytes_keepsErrors]

theorem copyWrite_keepsErrors {cp va b} (h : KeepsErrors s₀ s) : KeepsErrors s₀ (copyWrite s cp va b).2 := by
  unfold copyWrite
  grind [targetFor_keepsErrors, flatWrite_keepsErrors, writeLoc_keepsErrors]

theorem placePiece_keepsErrors {cp va n} (h : KeepsErrors s₀ s) : KeepsErrors s₀ (placePiece s cp va n).2 := by
  unfold placePiece
  grind [targetFor_keepsErrors, place_keepsErrors, placeRead_keepsErrors]

theorem placePieces_keepsErrors {cp va n} (h : KeepsErrors s₀ s) : KeepsErrors s₀ (placePieces s cp va n).2 := by
  refine List.foldlRecOn (motive := fun p : Answer (List Piece) × State => KeepsErrors s₀ p.2) (spans va n) _ h fun p hp x _ => ?_
  grind [placePiece_keepsErrors]

theorem putPiece_keepsErrors {cp x b} (h : KeepsErrors s₀ s) : KeepsErrors s₀ (putPiece s cp x b) := by
  unfold putPiece
  grind [flatWrite_keepsErrors, storeAt_keepsErrors]

theorem copyUpdate_keepsErrors {cp va n f} (h : KeepsErrors s₀ s) : KeepsErrors s₀ (copyUpdate s cp va n f).2 := by
  have hp := placePieces_keepsErrors (cp := cp) (va := va) (n := n) h
  unfold copyUpdate
  split <;> rename_i e <;> rw [e] at hp
  · exact List.foldlRecOn (motive := fun p : State × Nat => KeepsErrors s₀ p.1) _ _ hp fun p hp x _ => putPiece_keepsErrors hp
  · exact hp
  · exact hp

theorem copyTakes_keepsErrors {a : CopyAcc} (h : KeepsErrors s₀ a.s) : KeepsErrors s₀ a.takes.2.s := by
  unfold CopyAcc.takes
  split <;> exact h

theorem copyStop_keepsErrors {a : CopyAcc} {f} (h : KeepsErrors s₀ s) : KeepsErrors s₀ (a.stop s f).s := by
  unfold CopyAcc.stop
  split <;> exact h

theorem copyWrote_keepsErrors {a : CopyAcc} {key fl} (h : KeepsErrors s₀ s) : KeepsErrors s₀ (a.wrote s key fl).s := h

theorem copyRow_keepsErrors {a : CopyAcc} (h : KeepsErrors s₀ a.s) : KeepsErrors s₀ a.row.s := h

theorem copyWord_keepsErrors {a : CopyAcc} {va} (h : KeepsErrors s₀ a.s) : KeepsErrors s₀ (a.word va).2.s := by
  unfold CopyAcc.word
  grind [copyTakes_keepsErrors, copyRead_keepsErrors, copyStop_keepsErrors]

theorem copyAccRead_keepsErrors {a : CopyAcc} {va n} (h : KeepsErrors s₀ a.s) : KeepsErrors s₀ (a.read va n).2.s :=
  List.foldlRecOn (motive := fun x : List Byte × CopyAcc => KeepsErrors s₀ x.2.s) _ _ h fun _ hx _ _ => copyWord_keepsErrors hx

/-- A fold over the words or the rows of a copy. -/
theorem foldl_copyAcc_keepsErrors {α : Type} {f : CopyAcc → α → CopyAcc} {l : List α} {a : CopyAcc}
    (hf : ∀ a x, KeepsErrors s₀ a.s → KeepsErrors s₀ (f a x).s) (h : KeepsErrors s₀ a.s) : KeepsErrors s₀ (l.foldl f a).s :=
  List.foldlRecOn (motive := fun a : CopyAcc => KeepsErrors s₀ a.s) l f h fun a ha x _ => hf a x ha

theorem copyPut_keepsErrors {a : CopyAcc} {r va b fl} (h : KeepsErrors s₀ a.s) : KeepsErrors s₀ (a.put r va b fl).s := by
  unfold CopyAcc.put
  split
  · exact h
  · refine foldl_copyAcc_keepsErrors (fun a x ha => ?_) h
    have ht := copyTakes_keepsErrors ha
    have hw := copyWrite_keepsErrors (cp := a.takes.2.cp) (va := x.1) (b := x.2) ht
    dsimp only
    split
    · exact ha
    · split
      · exact ht
      · split <;> rename_i e <;> rw [e] at hw
        · exact copyWrote_keepsErrors hw
        · exact copyStop_keepsErrors hw
        · exact copyStop_keepsErrors hw

theorem copyUpd_keepsErrors {a : CopyAcc} {r va n f} (h : KeepsErrors s₀ a.s) : KeepsErrors s₀ (a.upd r va n f).s := by
  unfold CopyAcc.upd
  grind [copyTakes_keepsErrors, copyUpdate_keepsErrors, copyWrote_keepsErrors, copyStop_keepsErrors]

theorem runAccrd_keepsErrors {a} (h : KeepsErrors s₀ a.s) : KeepsErrors s₀ (runAccrd a).s := by
  unfold runAccrd
  grind [copyPut_keepsErrors, copyRow_keepsErrors, copyUpd_keepsErrors, foldl_copyAcc_keepsErrors]

theorem runAcccvt_keepsErrors {a} (h : KeepsErrors s₀ a.s) : KeepsErrors s₀ (runAcccvt a).s := by
  unfold runAcccvt
  grind [copyPut_keepsErrors, copyRow_keepsErrors, foldl_copyAcc_keepsErrors]

theorem runColl_keepsErrors {a} (h : KeepsErrors s₀ a.s) : KeepsErrors s₀ (runColl a).s := by
  unfold runColl
  grind [copyAccRead_keepsErrors, copyRow_keepsErrors, copyPut_keepsErrors, foldl_copyAcc_keepsErrors]

theorem runRows_keepsErrors {a} (h : KeepsErrors s₀ a.s) : KeepsErrors s₀ (runRows a).s := by
  unfold runRows
  grind [copyAccRead_keepsErrors, copyRow_keepsErrors, copyUpd_keepsErrors, copyPut_keepsErrors, foldl_copyAcc_keepsErrors]

theorem runCopy_keepsErrors {cp part} (h : KeepsErrors s₀ s) : KeepsErrors s₀ (runCopy s cp part).s := by
  have hs : KeepsErrors s₀ (CopyAcc.start s cp part).s := h
  unfold runCopy
  grind [runRows_keepsErrors, runColl_keepsErrors, copyStop_keepsErrors, runAccrd_keepsErrors, runAcccvt_keepsErrors]

theorem copySome_keepsErrors {cp ready} (h : KeepsErrors s₀ s) : KeepsErrors s₀ (copySome s cp ready).2 := by
  unfold copySome
  split
  · exact runCopy_keepsErrors h
  · exact h

/-- A copy discarded writes some of its words (R321): no error is logged, and none of the loft's poison goes. -/
theorem discardCopy_keepsErrors {id} (h : KeepsErrors s₀ s) : KeepsErrors s₀ (discardCopy s id) := by
  unfold discardCopy
  split
  · exact h
  · exact keepsErrors_update (copySome_keepsErrors h)

end

end Sys2Proof.Machine

namespace Sys2Proof.Machine

/-- A field that a map over a table keeps. -/
theorem Sparse.findD_mapKV_keeps {α β : Type} {f : Nat → α → α} {g : α → β} (h : ∀ k x, g (f k x) = g x) (m : Sparse α) (k : Nat) (d : α) :
    g ((m.mapKV f).findD k d) = g (m.findD k d) := by
  rw [Sparse.findD, Sparse.find?_mapKV, Sparse.findD]
  cases m.find? k
  · rfl
  · exact h _ _

/-! ### Contexts that end (R321) -/

section
variable (s : State) (ts : List Nat) (hit : Launch → Bool) (st : LaunchStatus)

/-- The copies of some threads discarded. -/
def discarded : State := (s.copies.filter fun _ cp => ts.contains cp.tid).keys.foldl discardCopy s

theorem discarded_keepsErrors : KeepsErrors s (discarded s ts) :=
  List.foldlRecOn (motive := KeepsErrors s) _ _ ⟨rfl, fun _ => rfl⟩ fun _ h _ _ => discardCopy_keepsErrors h

theorem discarded_noCopies (h : s.copies = .empty) : discarded s ts = s := by
  rw [discarded, h]
  rfl

/-- What ends launches changes of a die, beside what the copies in flight had yet to write, its queue of xops alone. -/
theorem endLaunches_die {α : Type} {g : Die → α} (hg : ∀ x q, g { x with xops := q } = g x) (d : Nat) :
    g ((endLaunches s ts hit st).die d) = g ((discarded s ts).die d) :=
  Sparse.findD_mapKV_keeps (fun _ _ => hg _ _) (discarded s ts).dies d .idle

theorem endLaunches_held {t : Nat} (ht : t ∈ ts) (hh : s.threads.has t = true) : ((endLaunches s ts hit st).thread t).held = .exited := by
  have hhas : (discarded s ts).threads.has t = true := by rw [(discarded_keepsErrors s ts).1, hh]
  exact congrArg Thread.held ((thread_onThreads (discarded s ts) ts _ t).trans (if_pos ⟨ht, hhas⟩))

end

theorem has_of_mem_ctxThreads {s : State} {c t : Nat} (h : t ∈ s.ctxThreads c) : s.threads.has t = true := by
  rw [← Sparse.mem_keys]
  obtain ⟨e, he, rfl⟩ := List.mem_map.1 h
  exact List.mem_map_of_mem (List.mem_of_mem_filter he)

/-! ### Detections (R380, R381) -/

section
variable (s : State) (src : ErrSrc) (d a : Nat) (o : Byte)

/-- The entry that a detection logs. -/
def ueLogged : State := ueLogAdd s d ⟨ErrSrc.code src, o, liveCtx s o, a % 2 ^ 48⟩

theorem ueLogged_die {α : Type} {g : Die → α} (hg : ∀ x l n, g { x with ueLog := l, ueLost := n } = g x) (e : Nat) :
    g ((ueLogged s src d a o).die e) = g (s.die e) := by
  rw [ueLogged, ueLogAdd, die_onDie]
  split
  next h =>
    rw [h]
    split <;> exact hg _ _ _
  next => rfl

theorem detectUe_live (h : liveCtx s o = true) : detectUe s src d a o = endContext (ueLogged s src d a o) o.toNat := if_pos h

theorem detectUe_unowned (h : liveCtx s o = false) : detectUe s src d a o = ueLogged s src d a o :=
  if_neg (by rw [h]; exact Bool.false_ne_true)

/-- Whether or not an owner ends, the errors of every die are those that the log entry leaves. -/
theorem detectUe_errors (e : Nat) : ((detectUe s src d a o).die e).errors = ((ueLogged s src d a o).die e).errors := by
  cases h : liveCtx s o
  · rw [detectUe_unowned s src d a o h]
  · rw [detectUe_live s src d a o h, endContext, endLaunches_die _ _ _ _ (g := Die.errors) fun _ _ => rfl]
    exact (discarded_keepsErrors _ _).2 e

theorem detectUe_poisonLoft (e : Nat) : ((detectUe s src d a o).die e).poisonLoft = (s.die e).poisonLoft := by
  have hk := ueLogged_die s src d a o (g := Die.poisonLoft) (fun _ _ _ => rfl) e
  exact (congrArg (fun x => x.2.2) (detectUe_errors s src d a o e)).trans hk

/-- With no copy in flight a detection writes no bank. -/
theorem detectUe_poisonFlat (hc : s.copies = .empty) (e : Nat) : ((detectUe s src d a o).die e).poisonFlat = (s.die e).poisonFlat := by
  have hk := ueLogged_die s src d a o (g := Die.poisonFlat) (fun _ _ _ => rfl) e
  cases h : liveCtx s o
  · rw [detectUe_unowned s src d a o h, hk]
  · rw [detectUe_live s src d a o h, endContext, endLaunches_die _ _ _ _ (g := Die.poisonFlat) fun _ _ => rfl, discarded_noCopies (ueLogged s src d a o) _ hc, hk]

theorem detectUe_logged (h : (s.die d).ueLog.length < 16) :
    ((detectUe s src d a o).die d).ueLog = (s.die d).ueLog ++ [⟨ErrSrc.code src, o, liveCtx s o, a % 2 ^ 48⟩] ∧
      ((detectUe s src d a o).die d).ueLost = (s.die d).ueLost := by
  have he := detectUe_errors s src d a o d
  rw [ueLogged, ueLogAdd, die_onDie, if_pos rfl, if_pos h] at he
  exact ⟨congrArg Prod.fst he, congrArg (fun x => x.2.1) he⟩

theorem detectUe_lost (h : 16 ≤ (s.die d).ueLog.length) :
    ((detectUe s src d a o).die d).ueLog = (s.die d).ueLog ∧ ((detectUe s src d a o).die d).ueLost = min 7 ((s.die d).ueLost + 1) := by
  have he := detectUe_errors s src d a o d
  rw [ueLogged, ueLogAdd, die_onDie, if_pos rfl, if_neg (Nat.not_lt.mpr h)] at he
  exact ⟨congrArg Prod.fst he, congrArg (fun x => x.2.1) he⟩

/-- R380: a live owner is ended. -/
theorem detectUe_ends (h : liveCtx s o = true) : ∀ t ∈ s.ctxThreads o.toNat, ((detectUe s src d a o).thread t).held = .exited := fun t ht => by
  rw [detectUe_live s src d a o h]
  exact endLaunches_held _ _ _ _ ht (has_of_mem_ctxThreads ht)

end

/-! ### UNCORRECTABLE_ERROR (R379, R380) -/

theorem mem_unionN_right (l : List Nat) (x : Nat) : x ∈ unionN l [x] := by
  by_cases h : x ∈ l <;> simp [unionN, h]

/-- R380: word `w` of the banks poisoned: what it holds is free. -/
def wordPoisoned (s : State) (d w : Nat) : State :=
  { s with ctr := s.ctr + 4, flats := Memory.writeN s.flats (4 * w) (s.freeBytes 4).1 }.onDie d fun y =>
    { y with poisonFlat := unionN y.poisonFlat [w] }

/-- R380: line `l` of a die's loft poisoned. -/
def loftPoisonedAt (s : State) (d l : Nat) : State :=
  { s with ctr := s.ctr + 128, loft := Memory.writeN s.loft (loftKey d (l * 128)) (s.freeBytes 128).1 }.onDie d fun y =>
    { y with poisonLoft := unionN y.poisonLoft [l] }

section
variable {s : State} {e : UeErr} (hd : e.die < 2)
include hd

theorem exec_ue_hbm (hs : e.src = .hbm ∨ e.src = .msc) : exec (.uncorrectableError e) s = .next (detectUe ({ s with
    ctr := s.ctr + 128, hbm := Memory.writeN s.hbm (hbmKey e.die (e.addr / 128 * 128)) (s.freeBytes 128).1 }.onDie e.die fun y =>
      { y with poisonHbm := unionN y.poisonHbm [e.addr / 128] }) e.src e.die e.addr (physOwner s e.die e.addr)) := by
  show Host.Outcome.next (ueAt s e) = _
  unfold ueAt
  rw [Nat.mod_eq_of_lt hd]
  rcases hs with h | h <;> rw [h] <;> rfl

theorem exec_ue_flat (hs : e.src = .flat) (hc : s.copies = .empty) : ∃ s', exec (.uncorrectableError e) s = .next s' ∧
    bankKey e.die (e.addr / 2 ^ 16 % 256) (e.addr % 2 ^ 16 * 4) / 4 ∈ (s'.die e.die).poisonFlat := by
  have hue : exec (.uncorrectableError e) s = .next (detectUe (wordPoisoned s e.die (bankKey e.die (e.addr / 2 ^ 16 % 256) (e.addr % 2 ^ 16 * 4) / 4))
      .flat e.die (e.addr % 2 ^ 24) (bankOwner s e.die (e.addr / 2 ^ 16 % 256))) := by
    show Host.Outcome.next (ueAt s e) = _
    unfold ueAt
    rw [Nat.mod_eq_of_lt hd, hs]
    rfl
  refine ⟨_, hue, ?_⟩
  rw [detectUe_poisonFlat (wordPoisoned ..) _ _ _ _ hc, wordPoisoned, die_onDie, if_pos rfl]
  exact mem_unionN_right _ _

theorem exec_ue_loft (hs : e.src = .loft) : ∃ s', exec (.uncorrectableError e) s = .next s' ∧
    e.addr % loftBytes / 128 ∈ (s'.die e.die).poisonLoft := by
  have hue : exec (.uncorrectableError e) s = .next (detectUe (loftPoisonedAt s e.die (e.addr % loftBytes / 128))
      .loft e.die (e.addr % loftBytes) (loftOwner s e.die (e.addr % loftBytes))) := by
    show Host.Outcome.next (ueAt s e) = _
    unfold ueAt
    rw [Nat.mod_eq_of_lt hd, hs]
    rfl
  refine ⟨_, hue, ?_⟩
  rw [detectUe_poisonLoft, loftPoisonedAt, die_onDie, if_pos rfl]
  exact mem_unionN_right _ _

end

/-- R271: a tile changed behind the passes granted on it is the tile that they leave. -/
theorem tileNow_setTile (s : State) (c t : Nat) (x : Tile) : tileNow (setTile s c t x) c t = x := by
  simp only [tileNow, setTile, cluster_onCluster, if_true]
  generalize s.cluster c = k
  by_cases hn : k.next.any (fun r => r.tile == t) = true
  · obtain ⟨r, hr, ht⟩ := (Option.any_eq_true _ _).1 hn
    have ht : r.tile = t := by simpa using ht
    simp [Cluster.granted, hr, ht, Running.leaving]
  · have hnext : k.next.toList.reverse.find? (fun r => r.tile == t) = none := by
      cases h : k.next with
      | none => rfl
      | some r => simpa [h] using hn
    rw [if_neg hn]
    by_cases hr : k.running.any (fun r => r.tile == t) = true
    · obtain ⟨r, hr', ht⟩ := (Option.any_eq_true _ _).1 hr
      have ht : r.tile = t := by simpa using ht
      simp [Cluster.granted, List.find?_append, hnext, hr', ht, Running.leaving]
    · have hrun : k.running.toList.reverse.find? (fun r => r.tile == t) = none := by
        cases h : k.running with
        | none => rfl
        | some r => simpa [h] using hr
      rw [if_neg hr]
      simp [Cluster.granted, List.find?_append, hnext, hrun]

theorem exec_ue_tile {s : State} {e : UeErr} (hd : e.die < 2) (hs : e.src = .tile) (hr : e.reader = none) : let c := 32 * e.die + e.addr / 2 ^ 20 % 32
    ∃ s', exec (.uncorrectableError e) s = .next s' ∧ e.addr % 2 ^ 15 ∈ (tileNow s' c (e.addr / 2 ^ 15 % 32)).poison ∧
      s'.threads = s.threads ∧ s'.hbm = s.hbm ∧ s'.flats = s.flats := by
  intro c
  refine ⟨ueAt s e, rfl, ?_⟩
  simp only [ueAt, hs, Nat.mod_eq_of_lt hd, userOf, hr]
  rw [detectUe_unowned _ _ _ _ _ rfl]
  refine ⟨?_, rfl, rfl, rfl⟩
  have hsame : ∀ (s : State) (src : ErrSrc) (d a : Nat) (o : Byte) (t : Nat), tileNow (ueLogged s src d a o) c t = tileNow s c t := fun _ _ _ _ _ _ => rfl
  rw [hsame, tileNow_setTile]
  exact mem_unionN_right _ _

end Sys2Proof.Machine

/-! ### Tuning and errors (O50) -/

namespace Sys2Proof.Machine

/-! ### ISSUE_FRACTION_ADJUST (R409, R410) -/

theorem nextFraction_lt {f : Nat} (hf : f < 32) (power cap : Nat) (hot : Bool) : nextFraction f power cap hot < 32 := by
  unfold nextFraction
  split
  · omega
  · split <;> omega

theorem sysBits_lt (s : State) (n k hi lo : Nat) : sysBits s n k hi lo < 2 ^ (hi + 1 - lo) := Nat.mod_lt _ (Nat.two_pow_pos _)

/-- The fields of TUN_STAT as the power loop writes them: the power, the issue fraction, the temperature. -/
theorem tunStat_fields (s : State) (power temp : Nat) {f : Nat} (hf : f < 32) :
    let s' := sysPut s RegNo.tunStat 0 (BitVec.ofNat 64 (min power 4095 * 2 ^ 20 + f * 2 ^ 15 + min temp 255))
    sysBits s' RegNo.tunStat 0 19 15 = f ∧ sysBits s' RegNo.tunStat 0 31 20 = min power 4095 ∧ sysBits s' RegNo.tunStat 0 7 0 = min temp 255 := by
  simp only [sysBits, sysGet_sysPut_same, bits, BitVec.toNat_ofNat]
  refine ⟨?_, ?_, ?_⟩ <;> omega

theorem exec_issueFractionAdjust {s : State} (w t : Nat) (hr : s.running = true) : let f := sysBits s RegNo.tunStat 0 19 15
    let cap := sysBits s RegNo.tunPwr 0 11 0
    ∃ s', exec (.issueFractionAdjust w t) s = .next s' ∧
      sysBits s' RegNo.tunStat 0 19 15 = nextFraction f w cap s'.pkg.hotLoft ∧
      s'.pkg.hotLoft = (decide (105 < t) || (s.pkg.hotLoft && decide (100 ≤ t))) ∧
      sysBits s' RegNo.tunStat 0 31 20 = min w 4095 ∧ sysBits s' RegNo.tunStat 0 7 0 = min t 255 ∧ { s' with sys := s.sys, pkg := s.pkg } = s := by
  intro f cap
  let hot := decide (105 < t) || (s.pkg.hotLoft && decide (100 ≤ t))
  have hexec : exec (.issueFractionAdjust w t) s = .next (sysPut (s.onPkg fun x => { x with hotLoft := hot }) RegNo.tunStat 0
      (BitVec.ofNat 64 (min w 4095 * 2 ^ 20 + nextFraction f w cap hot * 2 ^ 15 + min t 255))) := by
    show execIssueFractionAdjust w t s = _
    simp only [execIssueFractionAdjust, hr, Bool.not_true, Bool.false_eq_true, if_false]
    rfl
  obtain ⟨hf, hw, ht⟩ := tunStat_fields (s.onPkg fun x => { x with hotLoft := hot }) w t (nextFraction_lt (sysBits_lt s RegNo.tunStat 0 19 15) w cap hot)
  exact ⟨_, hexec, hf, rfl, hw, ht, rfl⟩

/-! ### REMOTE_WAY_ADJUST (R373, R409) -/

theorem exec_remoteWayAdjust_auto {s : State} {d k : Nat} (up : Bool) (hr : s.running = true) (hu : s.isUnderstudy = false) (hd : d < 2)
    (hk : k < 16) (ha : sysBits s (RegNo.l2sRwf k) d 31 31 = 1) : let c := sysBits s (RegNo.l2sRwf k) d 19 16
    exec (.remoteWayAdjust d k up) s = .next (setWays s d k (if up then min 8 (c + 1) else c - 1)) := by
  have hin : decide (2 ≤ d ∨ 16 ≤ k) = false := by
    simp only [decide_eq_false_iff_not]
    omega
  show execRemoteWayAdjust d k up s = _
  simp only [execRemoteWayAdjust, hr, hu, hin, ha]
  rfl

theorem exec_remoteWayAdjust_fixed {s : State} {d k : Nat} (up : Bool) (ha : sysBits s (RegNo.l2sRwf k) d 31 31 = 0) :
    exec (.remoteWayAdjust d k up) s = .next s := by
  show execRemoteWayAdjust d k up s = _
  simp [execRemoteWayAdjust, ha]

section
variable {s : State} {d k n : Nat}

/-- Ways given up: what they held leaves. -/
theorem setWays_fewer (h : n < remoteWays s d k) : setWays s d k n =
    (sysPutBits s (RegNo.l2sRwf k) d 19 16 n).onDie d fun y => { y with slices := y.slices.modify k fun z => { z with
      remote := z.remote.filter fun x => decide (((z.remote.takeWhile (· != x)).filter fun y => Machine.setOf y.2 == Machine.setOf x.2).length < n) } } :=
  if_pos h

/-- Ways taken where every line still has one. -/
theorem setWays_room (h : remoteWays s d k ≤ n)
    (hroom : ∀ x ∈ ((s.die d).slices.findD k .empty).lines, (inSet s d k x.line).length + n < 16) :
    setWays s d k n = sysPutBits s (RegNo.l2sRwf k) d 19 16 n := by
  unfold setWays
  rw [if_neg (Nat.not_lt.mpr h)]
  refine List.foldlRecOn (motive := fun s' => s' = sysPutBits s (RegNo.l2sRwf k) d 19 16 n) _ _ rfl fun s' hs x hx => ?_
  subst hs
  exact if_pos (decide_eq_true (hroom x hx))

end

/-! ### CLOCK_STRETCH (R64, R409) -/

theorem sysBits_sysPutBits_31_16 (s : State) (n k v : Nat) : sysBits (sysPutBits s n k 31 16 v) n k 31 16 = v % 2 ^ 16 := by
  rw [sysBits, sysPutBits, sysGet_sysPut_same]
  have hx := (sysGet s n k).isLt
  simp only [bits, putBits, BitVec.toNat_ofNat]
  omega

/-- While a cluster's clock is stretched clk passes and %cyc stands. -/
theorem exec_clockStretch {s : State} {c : Nat} (n : Nat) (hr : s.running = true) (hc : c < 64) :
    ∃ s', exec (.clockStretch c n) s = .next s' ∧ s'.cyc c = s.cyc c ∧
      sysBits s' (RegNo.tunAvs c) 0 31 16 = min 65535 (sysBits s (RegNo.tunAvs c) 0 31 16 + 1) ∧ s'.threads = s.threads ∧ s'.clk = s.clk + n := by
  have hexec : exec (.clockStretch c n) s = .next (sysPutBits ({ s with clk := s.clk + n }.onCluster c fun k => { k with stretched := k.stretched + n })
      (RegNo.tunAvs c) 0 31 16 (min 65535 (sysBits s (RegNo.tunAvs c) 0 31 16 + 1))) := by
    show execClockStretch c n s = _
    simp only [execClockStretch, hr, decide_eq_false (Nat.not_le.mpr hc)]
    rfl
  refine ⟨_, hexec, ?_, ?_, rfl, rfl⟩
  · have hcyc : ∀ s n i hi lo v, State.cyc (sysPutBits s n i hi lo v) c = s.cyc c := fun _ _ _ _ _ _ => rfl
    rw [hcyc, State.cyc, cluster_onCluster, if_pos rfl]
    exact Nat.add_sub_add_right _ _ _
  · rw [sysBits_sysPutBits_31_16]
    omega

/-! ### SERDES_RETRAIN (R409) and SCRUB_PASS (R378) -/

theorem exec_serdesRetrain {s : State} (n : Nat) (hr : s.running = true) :
    exec (.serdesRetrain n) s = .next (s.onPkg fun x => { x with linkPause := s.clk + min n 1250 }) := by
  show execSerdesRetrain n s = _
  rw [execSerdesRetrain, if_pos hr]

section
variable {s : State} {d : Nat} (hd : d < 2)
include hd

theorem exec_scrubPass_off (h : sysBits s RegNo.scbCtl d 31 31 = 0) : exec (.scrubPass d) s = .next s := by
  show execScrubPass d s = _
  simp only [execScrubPass, Nat.mod_eq_of_lt hd, h, if_true]

/-- A pass over a die without a poisoned line counts what it corrects. -/
theorem exec_scrubPass_clean (h : sysBits s RegNo.scbCtl d 31 31 = 1) (hp : (s.die d).poisonHbm = []) :
    ∃ s' n, exec (.scrubPass d) s = .next s' ∧ (s'.die d).corrected = min (2 ^ 32 - 1) ((s.die d).corrected + n) ∧
      s'.threads = s.threads ∧ s'.hbm = s.hbm := by
  have hexec : exec (.scrubPass d) s = .next ((s.pick (2 ^ 32)).2.onDie d fun x =>
      { x with corrected := min (2 ^ 32 - 1) (x.corrected + (s.pick (2 ^ 32)).1) }) := by
    have hnone : (((s.pick (2 ^ 32)).2.onDie d fun x => { x with corrected := min (2 ^ 32 - 1) (x.corrected + (s.pick (2 ^ 32)).1) }).die d).poisonHbm = [] := by
      rw [die_onDie, if_pos rfl]
      exact hp
    show execScrubPass d s = _
    simp only [execScrubPass, Nat.mod_eq_of_lt hd, h, Nat.one_ne_zero, if_false, hnone]
    rfl
  refine ⟨_, (s.pick (2 ^ 32)).1, hexec, ?_, rfl, rfl⟩
  rw [die_onDie, if_pos rfl]
  rfl

end

end Sys2Proof.Machine

namespace Sys2Proof.Machine

/-- Settles O50, event by event: the tuning loops (`exec_issueFractionAdjust`, `exec_remoteWayAdjust_auto`, `setWays_fewer`), a droop
(`exec_clockStretch`), a retrain, a scrub pass, and an uncorrectable error of each store with its detection (`detectUe_logged`,
`detectUe_ends`). -/
theorem tuningAndErrors : Obligations.TuningAndErrors := by
  refine ⟨fun s w t hr => ?_, fun s d k up hr hu hd hk => ⟨exec_remoteWayAdjust_auto up hr hu hd hk, exec_remoteWayAdjust_fixed up⟩,
    fun s d k n => ⟨setWays_fewer, setWays_room⟩, fun s c n => exec_clockStretch n, fun s n => exec_serdesRetrain n,
    fun s d hd => ⟨exec_scrubPass_off hd, exec_scrubPass_clean hd⟩, fun s e hd hs => ⟨_, ?_, exec_ue_hbm hd hs⟩,
    fun s e hd hs hc => exec_ue_flat hd hs hc, fun s e hd => exec_ue_loft hd, fun s e hd => exec_ue_tile hd,
    fun s src d a o h => ?_, fun s src d a o => detectUe_lost s src d a o⟩
  · obtain ⟨s', hexec, hf, hrest⟩ := exec_issueFractionAdjust w t hr
    refine ⟨s', hexec, hf.trans ?_, hrest⟩
    simp only [nextFraction, Bool.or_eq_true, decide_eq_true_eq]
  · simp [State.freeBytes]
  · obtain ⟨hlog, hlost⟩ := detectUe_logged s src d a o h
    exact ⟨hlog, hlost, detectUe_ends s src d a o, fun ho => by rw [detectUe_unowned s src d a o ho]; rfl⟩

end Sys2Proof.Machine

/-! ### The compatibility unit (O11) -/

namespace Sys2Proof.Machine

/-! ### Words whose results the unit returns later (R86, R165, R166)

A request carries what its thread read before the word (`SameReads`), so its result is the word's own function of that thread. -/

/-- The FP64 forms of two sources. -/
theorem completes_xf2 {i : Instr} {a : XfArgs} (op : Mode → Nat → Nat → Nat × Flags) (hx : ∀ s, exec i s = xop i s (xf2 op a))
    (hn : gatherMask i = none) : CompletesXop i (xf2 op a .reset) := completes_xop hx hn fun _ _ _ _ h => h.xf2 op a
/-- The integer forms. -/
theorem completes_xint {i : Instr} {a : XintArgs} (f : Bool → Word → Word → Word) (hx : ∀ s, exec i s = xop i s (xint f a))
    (hn : gatherMask i = none) : CompletesXop i (xint f a .reset) := completes_xop hx hn fun _ _ _ _ h => h.xint f a
/-- The major-2 forms of two sources. -/
theorem completes_xop2 {i : Instr} {a : Xop2Args} (f : Word → Word → Word) (hx : ∀ s, exec i s = xop i s (xop2 f a))
    (hn : gatherMask i = none) : CompletesXop i (xop2 f a .reset) := completes_xop hx hn fun _ _ _ _ h => h.xop2 f a
theorem completes_xfma (a : XfArgs) : CompletesXop (.xfma a) (xfmaL a .reset) := completes_xop (fun _ => rfl) rfl fun _ _ _ _ h => h.xfmaL a
theorem completes_xfsqt (a : XfArgs) : CompletesXop (.xfsqt a) (xfsqtL a .reset) := completes_xop (fun _ => rfl) rfl fun _ _ _ _ h => h.xfsqtL a
theorem completes_xfcvt (a : XfcvtArgs) : CompletesXop (.xfcvt a) (xfcvtL a .reset) := completes_xop (fun _ => rfl) rfl fun _ _ _ _ h => h.xfcvtL a
theorem completes_xfsetp (a : XfsetpArgs) : CompletesXop (.xfsetp a) (xfsetpL a .reset) := completes_xop (fun _ => rfl) rfl fun _ _ _ _ h => h.xfsetpL a
theorem completes_xcvt2 (a : Log1Args) : CompletesXop (.xcvt2 a) (xcvt2L a .reset) := completes_xop (fun _ => rfl) rfl fun _ _ _ _ h => h.xcvt2L a

/-! ### Integer division (R165)

Where the divisor is not 0 the unit's quotient and remainder are the library's division of bit vectors toward zero. -/

theorem quotient_zero (sgn : Bool) (x : Word) : quotient sgn x 0 = 0xFFFF_FFFF := if_pos rfl
theorem remainder_zero (sgn : Bool) (x : Word) : remainder sgn x 0 = x := if_pos rfl

theorem quotient_eq_udiv {y : Word} (hy : y ≠ 0) (x : Word) : quotient false x y = x / y := by
  rw [quotient, if_neg hy, if_neg Bool.false_ne_true, BitVec.udiv_def]

theorem quotient_eq_sdiv {y : Word} (hy : y ≠ 0) (x : Word) : quotient true x y = x.sdiv y := by
  rw [quotient, if_neg hy, if_pos rfl, ← BitVec.toInt_inj, BitVec.toInt_ofInt, BitVec.toInt_sdiv]

/-- The remainder is a − b × quotient, which is less than the divisor and so does not wrap. -/
theorem remainder_eq_umod {y : Word} (hy : y ≠ 0) (x : Word) : remainder false x y = x % y := by
  rw [remainder, if_neg hy, quotient_eq_udiv hy, ← BitVec.toNat_inj]
  have hdiv := Nat.div_add_mod x.toNat y.toNat
  simp only [BitVec.toNat_sub, BitVec.toNat_mul, BitVec.toNat_udiv, BitVec.toNat_umod]
  generalize y.toNat * (x.toNat / y.toNat) = p at *
  omega

/-- As a − b × quotient modulo 2^32, the remainder is right even where the quotient overflows. -/
theorem remainder_eq_srem {y : Word} (hy : y ≠ 0) (x : Word) : remainder true x y = x.srem y := by
  rw [remainder, if_neg hy, quotient_eq_sdiv hy, ← BitVec.toInt_inj]
  calc (x - y * x.sdiv y).toInt
      = (x.toInt - y.toInt * x.toInt.tdiv y.toInt).bmod (2 ^ 32) := by
        rw [BitVec.toInt_sub, BitVec.toInt_mul, BitVec.toInt_sdiv, Int.mul_bmod_bmod, Int.sub_bmod_bmod]
    _ = (x.srem y).toInt.bmod (2 ^ 32) := by rw [← Int.tmod_def, BitVec.toInt_srem]
    _ = (x.srem y).toInt := BitVec.toInt_bmod_cancel _

/-- A signed quotient overflows for the least word divided by −1 alone. -/
theorem toInt_quotient {x y : Word} (hy : y ≠ 0) (h : ¬(x.toInt = -2 ^ 31 ∧ y.toInt = -1)) :
    (quotient true x y).toInt = x.toInt.tdiv y.toInt := by
  rw [quotient_eq_sdiv hy]
  refine BitVec.toInt_sdiv_of_ne_or_ne x y (not_and_or.mp ?_)
  rintro ⟨rfl, rfl⟩
  exact h ⟨rfl, rfl⟩

end Sys2Proof.Machine

namespace Sys2Proof.Machine

/-- Settles O11: each word of the unit asks for what its rule says (`completes_xf2`, `completes_xint`, `completes_xop2` and
the words of a shape of their own), and the integer divisions are those of bit vectors (`quotient_eq_sdiv`, `remainder_eq_srem`). -/
theorem compatibilityUnit : Obligations.CompatibilityUnit := by
  refine ⟨⟨fun _ => completes_xf2 Fmt.f64.add (fun _ => rfl) rfl, fun _ => completes_xf2 Fmt.f64.sub (fun _ => rfl) rfl,
      fun _ => completes_xf2 Fmt.f64.mul (fun _ => rfl) rfl, fun _ => completes_xf2 div64 (fun _ => rfl) rfl,
      completes_xfma, completes_xfsqt, completes_xfcvt, completes_xfsetp,
      fun _ => completes_xint quotient (fun _ => rfl) rfl, fun _ => completes_xint remainder (fun _ => rfl) rfl,
      fun _ => completes_xop2 shl2 (fun _ => rfl) rfl, fun _ => completes_xop2 shr2 (fun _ => rfl) rfl,
      fun _ => completes_xop2 sar2 (fun _ => rfl) rfl, fun _ => completes_xop2 min2 (fun _ => rfl) rfl,
      fun _ => completes_xop2 max2 (fun _ => rfl) rfl, completes_xcvt2⟩,
    fun sgn x => ⟨quotient_zero sgn x, remainder_zero sgn x⟩, fun x y hy => ⟨?_, ?_⟩, fun x y hy h => ⟨toInt_quotient hy h, ?_⟩⟩
  · rw [quotient_eq_udiv hy, BitVec.toNat_udiv]
  · rw [remainder_eq_umod hy, BitVec.toNat_umod]
  · rw [remainder_eq_srem hy, BitVec.toInt_srem]

end Sys2Proof.Machine

namespace Sys2Proof.Machine

/-! ### Accesses on their way (O13) -/

/-- What becomes of the thread of an access on its way (R231, R247, R322): its request and the awaited result enter their
queues, and a wait holds it at the word. -/
def Access.sends (x : Access) (b : Bundle) (l : Loc) (seq entry pend t : Nat) (th : Thread) : Thread :=
  let th := { th with out := th.out ++ [requestOf x l seq entry pend t], pend := th.pend ++ x.awaits pend b }
  match x.waits with
  | some w => { th with held := .waiting, why := w, pc := b.pc }
  | none => th

theorem holdFor_of_waits {s : State} {is : Issued} {t : Nat} {x : Access} {w : Why} (h : x.waits = some w) :
    holdFor s is t x = waitAt s t is.pc w := by
  unfold Access.waits at h
  unfold holdFor
  split at h <;> simp_all

theorem holdFor_of_no_wait {s : State} {is : Issued} {t : Nat} {x : Access} (h : x.waits = none) : holdFor s is t x = s := by
  unfold Access.waits at h
  unfold holdFor
  split at h <;> simp_all

/-- A request enters its thread, which the access then holds or not. -/
theorem holdFor_addReq {i : Instr} {b : Bundle} (s s' : State) (t : Nat) (x : Access) (l : Loc) (seq entry pend : Nat) :
    holdFor (addReq s' (issuedAs i b s) t x l seq entry t pend) (issuedAs i b s) t x = s'.onThread t (x.sends b l seq entry pend t) := by
  have hadd : addReq s' (issuedAs i b s) t x l seq entry t pend =
      s'.onThread t fun th => { th with out := th.out ++ [requestOf x l seq entry pend t], pend := th.pend ++ x.awaits pend b } := by
    unfold addReq Access.awaits
    rcases x.dst with - | ⟨ds, u⟩ <;> simp [requestOf, issuedAs]
  rw [hadd]
  unfold Access.sends
  cases hw : x.waits with
  | none => exact holdFor_of_no_wait hw
  | some w => rw [holdFor_of_waits hw, waitAt, onThread_onThread]; rfl

@[simp] theorem afterIssue_core (b : Bundle) (s : State) (c : Nat) : (afterIssue b s).core c = s.core c := by simp [State.core]

/-- An entry of the operand log taken for a word of one thread (R322). -/
def logEntryTaken (b : Bundle) (t e : Nat) (s : State) : State :=
  s.onCore b.core fun c => { c with log := c.log.set e ⟨b.word, b.pc, [t], [], [], s.privOf t⟩ }

theorem sent_of_logEntryTaken {b : Bundle} {s : State} {t : Nat} (hh : s.threads.has t = true) (x : Access) (l : Loc) (e m n seq pend : Nat) :
    Sent b s (({ logEntryTaken b t e { s with ctr := m } with ctr := n }).onThread t (x.sends b l seq (256 * b.core + e) pend t)) t x l e where
  thread := ⟨seq, pend, thread_onThread_self _ _ _ hh⟩
  others _ hu := find?_onThread_ne _ _ _ _ hu
  log := (core_onCore _ _ _ _).trans (if_pos rfl)
  cores _ hc := (core_onCore _ _ _ _).trans (if_neg hc)
  rest := rfl

/-- A memory word whose one active thread's access goes to memory: an entry of the operand log is taken, and the request enters
the thread. -/
theorem exec_sends {i : Instr} {f : State → Env → Access} (he : ∀ s, exec i s = word i s (memBody f)) (hn : gatherMask i = none)
    {b : Bundle} {s : State} {t : Nat} {l : Loc} {e : Nat}
    (h : ToMemory i b s t (f (afterIssue b s) (envOf (afterIssue b s) t)) l e) :
    ∃ s', exec i s = .next s' ∧ Sent b (afterIssue b s) s' t (f (afterIssue b s) (envOf (afterIssue b s) t)) l e := by
  obtain ⟨-, hh, -, hready⟩ := h.sole.thread
  have hentry : freeEntry (windowView (afterIssue b s) t).2 b.core ((windowView (afterIssue b s) t).2.privOf t) = some e := by
    rw [windowView_freeEntry, windowView_privOf, afterIssue_privOf, ← h.entry]
    simp only [freeEntry, afterIssue_core]
  have hbody := memBody_mem (f := f) h.sole.active rfl h.place (by rw [windowView_thread]; exact hready) h.l1 hentry
  have hexec := (he s).trans ((word_issues h.sole.issuing hn _).trans (congrArg Host.Outcome.next hbody))
  rw [holdFor_addReq] at hexec
  have hw : (windowView (afterIssue b s) t).2 = { afterIssue b s with ctr := (windowView (afterIssue b s) t).2.ctr } :=
    congrArg (fun y : State => { y with ctr := (windowView (afterIssue b s) t).2.ctr }) (windowView_rest (afterIssue b s) t)
  rw [hw] at hexec
  refine ⟨_, hexec, ?_⟩
  have hhas : (afterIssue b s).threads.has t = true := (afterIssue_has b s t).trans hh
  split
  · exact sent_of_logEntryTaken hhas _ l e _ _ _ _
  · exact sent_of_logEntryTaken hhas _ l e _ _ _ _

/-- Settles O13: each of the words asks of memory what its row says, and the request of its one active thread is on its way
(`exec_sends`). -/
theorem memoryRequests : Obligations.MemoryRequests := by
  unfold Obligations.MemoryRequests
  intro sends
  refine ⟨fun a b s t l e => exec_sends (f := ldAccess a) (fun _ => rfl) rfl,
    fun a b s t l e => exec_sends (f := stAccess a) (fun _ => rfl) rfl,
    fun a b s t l e => exec_sends (f := ldkAccess a) (fun _ => rfl) rfl,
    fun a b s t l e => exec_sends (f := atomAccess false a) (fun _ => rfl) rfl,
    fun a b s t l e => exec_sends (f := atomAccess true a) (fun _ => rfl) rfl,
    fun a b s t l e => exec_sends (f := svAccess true a) (fun _ => rfl) rfl,
    fun a b s t l e => exec_sends (f := svAccess false a) (fun _ => rfl) rfl,
    fun a b s t l e => exec_sends (f := barAccess a.base .cls false none) (fun _ => rfl) rfl,
    fun a b s t l e => exec_sends (f := barAccess a.base .dev false none) (fun _ => rfl) rfl,
    fun a b s t l e => exec_sends (f := barAccess a.base .sys true none) (fun _ => rfl) rfl,
    fun ⟨g, d, base, sc⟩ b s t l e => ?_,
    fun ⟨g, d, base, sc⟩ b s t l e => ?_,
    fun a b s t l e => exec_sends (f := launchAccess a) (fun _ => rfl) rfl⟩
  · cases sc <;> exact exec_sends (f := barAccess base _ false (some d.toNat)) (fun _ => rfl) rfl
  · cases sc <;> exact exec_sends (f := barWaitAccess ⟨g, d, base, _⟩) (fun _ => rfl) rfl

end Sys2Proof.Machine

namespace Sys2Proof.Machine

/-! ### ld.loft (O16) -/

/-- What ld.loft finds of an offset that is within the loft and aligned (R112). -/
theorem loftCheck_ok {s : State} {e : Env} {a : LdstArgs} (hu : s.isUnderstudy = false) (h0 : 0 ≤ loftOff e a)
    (h1 : loftOff e a < 0x6000_0000) (ha : (loftOff e a).toNat % LT.bytes a.lt = 0) : loftCheck s e a = .ok (loftOff e a).toNat := by
  have hin : ¬(s.isUnderstudy = true ∨ loftOff e a < 0 ∨ (loftBytes : Int) ≤ loftOff e a) := by
    rw [hu, loftBytes]
    rintro (h | h | h)
    · cases h
    · omega
    · omega
  simp only [loftCheck, if_neg hin, ha, ne_eq, not_true_eq_false, if_false]

/-- What ld.loft brings a thread (R221): the bytes of die `d`'s loft at the offset, nothing where the offset is at fault. -/
def loftResult (a : LdstArgs) (d : Nat) (s : State) (e : Env) : Wr :=
  match loftCheck s e a with
  | .ok o => .vec a.d (LT.value a.lt (loftRead s d o (LT.bytes a.lt)))
  | .error _ => .none

/-- Where no active thread's offset is at fault or poisoned, every active thread awaits what ld.loft brings it. -/
theorem loftBody_eq {a : LdstArgs} {is : Issued} {s : State} (hr : ∀ t ∈ is.active, (s.thread t).held = .ready)
    (h : ∀ t ∈ is.active, ∃ o, loftCheck s (envOf s t) a = .ok o ∧ loftPoisoned s (dieOf is.core) o (LT.bytes a.lt) = false) :
    loftBody a is s = lateBody (.ldLoft a) false (loftResult a (dieOf is.core)) is s := by
  have hfold : ∀ g : List Nat × State → Nat × Except Cause Nat → List Nat × State,
      (∀ t o, loftPoisoned s (dieOf is.core) o (LT.bytes a.lt) = false → g ([], s) (t, .ok o) = ([], s)) →
      (is.active.map fun t => (t, loftCheck s (envOf s t) a)).foldl g ([], s) = ([], s) := fun g hg => by
    refine List.foldlRecOn (motive := (· = ([], s))) _ _ rfl fun x hx y hy => ?_
    obtain ⟨t, ht, rfl⟩ := List.mem_map.1 hy
    obtain ⟨o, ho, hp⟩ := h t ht
    rw [hx, ho, hg t o hp]
  have hgo : (is.active.filter fun t => !([] : List Nat).contains t && (s.thread t).held == .ready) = is.active :=
    List.filter_eq_self.2 fun t ht => by simp [hr t ht]
  unfold loftBody
  dsimp only
  rw [hfold _ fun t o hp => by simp [hp]]
  simp only [hgo]
  rfl

theorem exec_ldLoft {a : LdstArgs} {b : Bundle} {s : State} (h : Issuing (.ldLoft a) b s) (hu : s.isUnderstudy = false)
    (hin : ∀ t ∈ activeIn (.ldLoft a) b s, 0 ≤ loftOff (envOf s t) a ∧ loftOff (envOf s t) a < 0x6000_0000 ∧
      (loftOff (envOf s t) a).toNat % LT.bytes a.lt = 0 ∧
      loftPoisoned s (dieOf b.core) (loftOff (envOf s t) a).toNat (LT.bytes a.lt) = false) :
    ∃ s', exec (.ldLoft a) s = .next s' ∧ Awaits (.ldLoft a) false b s s' fun e =>
      .vec a.d (LT.value a.lt (loftRead s (dieOf b.core) (loftOff e a).toNat (LT.bytes a.lt))) := by
  have hu' : (afterIssue b s).isUnderstudy = false := by rw [State.isUnderstudy, afterIssue_pkg]; exact hu
  have hpoison : ∀ t ∈ activeIn (.ldLoft a) b s,
      loftPoisoned (afterIssue b s) (dieOf b.core) (loftOff (envOf s t) a).toNat (LT.bytes a.lt) = false := fun t ht => by
    obtain ⟨-, -, -, hp⟩ := hin t ht
    simpa only [loftPoisoned, State.die, afterIssue_dies] using hp
  have hcheck : ∀ t ∈ activeIn (.ldLoft a) b s,
      loftCheck (afterIssue b s) ⟨t, stepped s b.pc t, s.groupOf t⟩ a = .ok (loftOff (envOf s t) a).toNat := fun t ht => by
    obtain ⟨h0, h1, ha, -⟩ := hin t ht
    have hoff : loftOff ⟨t, stepped s b.pc t, s.groupOf t⟩ a = loftOff (envOf s t) a := by
      simp only [loftOff, (sameReads_issued s b b.pc t).base1]
    rw [← hoff] at h0 h1 ha ⊢
    exact loftCheck_ok hu' h0 h1 ha
  have hmem : ∀ t ∈ activeIn (.ldLoft a) b s, t ∈ b.threads := fun t ht => (mem_activeIn.1 ht).1
  have hbody := loftBody_eq (a := a) (is := issuedAs (.ldLoft a) b s) (s := afterIssue b s)
    (fun t ht => by
      rw [afterIssue_thread (hmem t ht) (h.may t (hmem t ht)).here]
      exact (h.may t (hmem t ht)).ready)
    (fun t ht => ⟨_, by rw [afterIssue_env (hmem t ht) (h.may t (hmem t ht)).here]; exact hcheck t ht, hpoison t ht⟩)
  have hexec : exec (.ldLoft a) s = word (.ldLoft a) s (lateBody (.ldLoft a) false (loftResult a (dieOf b.core))) := by
    change word (.ldLoft a) s (loftBody a) = _
    rw [word_issues h rfl, word_issues h rfl, hbody]
    rfl
  rw [hexec]
  refine late_complete h rfl fun t ht hg => ?_
  simp only [loftResult, hcheck t (mem_activeIn.2 ⟨ht, hg⟩), loftRead, afterIssue_loft]

/-- Settles O16: no offset is at fault, so each active thread awaits its bytes (`exec_ldLoft`). -/
theorem loftLoads : Obligations.LoftLoads := by
  intro a b s h hu off hin
  exact exec_ldLoft h hu hin

end Sys2Proof.Machine

namespace Sys2Proof.Machine

/-! ### Copies and batches (O20) -/

/-- A copy of one thread: a descriptor that breaks its table traps, one of no rows is none, any other copy is issued. -/
theorem rowsBody_sole {red : Bool} {k t : Nat} {is : Issued} {s : State} {d : List Word} (ha : is.active = [t])
    (hd : descAt (s.groupOf t) k 8 = d) (hr : (s.thread t).held = .ready) :
    rowsBody red k is s = if rowsDescOk red d = false then is.trap s t .cpDesc
      else if fieldOf d 4 23 0 = 0 ∨ fieldOf d 5 23 0 = 0 then s else newCopy s t (if red then .reduce else .rows) d none := by
  simp [rowsBody, ha, hd, hr, eachActive, issueCopies]

theorem exec_copy {red : Bool} {k : Nat} {i : Instr} {b : Bundle} {s : State} {t : Nat}
    (he : ∀ s, exec i s = word i s (rowsBody red k)) (hn : gatherMask i = none) (h : Sole i b s t) :
    let s0 := afterIssue b s
    let d := descAt (s0.groupOf t) k 8
    exec i s = .next (if rowsDescOk red d = false then trapsAt b s t .cpDesc 0 0
      else if fieldOf d 4 23 0 = 0 ∨ fieldOf d 5 23 0 = 0 then s0 else newCopy s0 t (if red then .reduce else .rows) d none) := by
  intro s0 d
  obtain ⟨-, -, -, hready⟩ := h.thread
  rw [he, word_issues h.issuing hn, rowsBody_sole (red := red) h.active rfl hready, trap_sole]

/-- R232: addresses and strides of a copy that are no multiples of 4 break the table. -/
theorem rowsDescOk_of_misaligned {red : Bool} {d : List Word}
    (h : dwordAt d 0 % 4 ≠ 0 ∨ dwordAt d 2 % 4 ≠ 0 ∨ wordOf d 6 % 4 ≠ 0 ∨ wordOf d 7 % 4 ≠ 0) : rowsDescOk red d = false := by
  have hplain : (dwordAt d 0 % 4 == 0 && dwordAt d 2 % 4 == 0 && wordOf d 6 % 4 == 0 && wordOf d 7 % 4 == 0) = false := by
    rcases h with h | h | h | h <;> simp [h]
  simp only [rowsDescOk, hplain, Bool.false_and]

/-- R234: a copy joins the engine and its thread's unsealed batch. -/
theorem newCopy_eq {s : State} {t c : Nat} (hc : s.coreOf t = c) (kind : CopyKind) (d : List Word) :
    newCopy s t kind d none = { s with
      ctr := s.ctr + 1
      copies := s.copies.set s.ctr ⟨kind, t, c, clusterOf c, s.ctxOf t, s.partOf t, d,
        unionN (s.hist.own t) (s.thread t).snap.need, none, .empty, none, false, .empty, [], [], 0⟩
      threads := s.threads.modify t fun th => { th with unsealed := { th.unsealed with copies := th.unsealed.copies ++ [s.ctr] } } } := by
  subst hc
  rfl

/-! ### Seals and waits (R133, R235) -/

theorem exec_cpSeal {a : SealArgs} {b : Bundle} {s : State} (h : Issuing (.cpSeal a) b s) :
    ∃ s', exec (.cpSeal a) s = .next s' ∧ Acts (.cpSeal a) b s s' (fun _ th => { th with
      v := th.v.set a.d.toNat (th.nextBatch.setWidth 32)
      batches := th.batches ++ [{ th.unsealed with num := th.nextBatch.toNat }]
      unsealed := ⟨0, [], none, false, 0, []⟩
      nextBatch := th.nextBatch + 1 }) fun _ g => g :=
  acts_threads h rfl rfl (eachActive_onThread _ _ (fun _ _ _ => _) (fun _ _ _ _ => rfl) (h.apart.filter _))

/-- The batch a cp.wait names. -/
def waitNumber (a : CpWaitArgs) (e : Env) : Nat :=
  match a.b with
  | .r r => bits (e.base1 r).toNat 15 0
  | .imm x => x.toNat

theorem waitMet_iff (th : Thread) (n : Nat) :
    waitMet th n = true ↔ 32768 ≤ (n + 65536 - th.nextBatch.toNat) % 65536 ∧ ∀ x ∈ covered th n, x.copies = [] := by
  simp [waitMet, sealed_]

theorem exec_cpWait {a : CpWaitArgs} {b : Bundle} {s : State} {t : Nat} (h : Sole (.cpWait a) b s t) :
    let s0 := afterIssue b s
    let n := waitNumber a (envOf s0 t)
    exec (.cpWait a) s = .next (if waitMet (s0.thread t) n then finishWait s0 t n b.pc b.word id else waitingAt b s t (.cp n b.word)) := by
  change execCpWait a s = _
  rw [execCpWait, word_sole h rfl]
  rfl

/-- Flags ORed into the status of one group, batch by batch. -/
theorem foldl_orFlags_batches (g : Nat) (l : List Batch) : ∀ s : State, s.groups.has g = true →
    let s' := l.foldl (fun s x => orFlags s g x.flags) s
    { s' with groups := s.groups } = s ∧
    ∀ j, s'.group j = { s.group j with fsr := if j = g then l.foldl (fun fl x => fl ||| x.flags) (s.group j).fsr else (s.group j).fsr } := by
  induction l with
  | nil => exact fun _ _ => ⟨rfl, fun _ => by rw [List.foldl_nil, List.foldl_nil, ite_self]⟩
  | cons x l ih =>
    intro s hg
    obtain ⟨hrest, hgroup⟩ := ih (orFlags s g x.flags) (by rw [orFlags_has, hg])
    refine ⟨(congrArg (fun y : State => { y with groups := s.groups }) hrest).trans (orFlags_rest s g x.flags), fun j => ?_⟩
    rw [List.foldl_cons, hgroup, orFlags_group s g x.flags hg]
    by_cases hj : j = g
    · simp only [hj, if_true, List.foldl_cons]
    · simp only [if_neg hj, if_neg (Ne.symm hj)]

/-- R235: the stores of completed batches are ordered for their thread, which holds the batches no more. -/
def Thread.passBatches (cov : List Batch) (th : Thread) : Thread :=
  { th with
    snap := { th.snap with need := unionN th.snap.need (cov.flatMap Batch.stores) }
    batches := th.batches.filter fun x => !(cov.any fun y => y.num == x.num) }

/-- R235: the fault of batch `n` is noted as raised. -/
def Thread.raiseBatch (n : Nat) (th : Thread) : Thread :=
  { th with batches := th.batches.map fun y => if y.num == n then { y with raised := true } else y }

section
variable {s : State} {t n : Nat} {pc iw : Dword} {go : State → State}

theorem finishWait_of_no_fault (h : (covered (s.thread t) n).find? (fun x => x.fault.isSome && !x.raised) = none) :
    finishWait s t n pc iw go = go ((covered (s.thread t) n).foldl (fun s' x => orFlags s' (s.thread t).group x.flags)
      (s.onThread t (Thread.passBatches (covered (s.thread t) n)))) := by
  simp only [finishWait, h]
  rfl

theorem finishWait_of_fault {x : Batch} {f : Cause × Nat}
    (h : (covered (s.thread t) n).find? (fun x => x.fault.isSome && !x.raised) = some x) (hf : x.fault = some f) :
    finishWait s t n pc iw go = takeTrap (setReady (s.onThread t (Thread.raiseBatch x.num)) t) t ⟨f.1, pc, iw, f.2, 0, false⟩ := by
  simp only [finishWait, h, hf]
  rfl

end

/-- Settles O20: a copy by `exec_copy`, a seal by `exec_cpSeal`, a wait by `exec_cpWait` and what ends it. -/
theorem copiesAndBatches : Obligations.CopiesAndBatches := by
  unfold Obligations.CopiesAndBatches
  intro issues
  have hissues : ∀ i red k, (∀ s, exec i s = word i s (rowsBody red k.toNat)) → gatherMask i = none → issues i red k := by
    intro i red k he hn b s t h s0 d
    have hexec : exec i s = .next (if rowsDescOk red d = false then trapsAt b s t .cpDesc 0 0
      else if fieldOf d 4 23 0 = 0 ∨ fieldOf d 5 23 0 = 0 then s0 else newCopy s0 t (if red then .reduce else .rows) d none) :=
      exec_copy he hn h
    have hcore : s0.coreOf t = b.core := (afterIssue_coreOf b s t).trans (h.issuing.stands t h.thread.1)
    refine ⟨fun hd => ?_, rowsDescOk_of_misaligned, fun hd h0 => ?_, fun hd h4 h5 => ?_⟩
    · rw [hexec, if_pos hd]
    · rw [hexec, if_neg (ne_false_of_eq_true hd), if_pos h0]
    · rw [hexec, if_neg (ne_false_of_eq_true hd), if_neg (not_or.2 ⟨h4, h5⟩), newCopy_eq hcore]
  refine ⟨fun a => hissues _ _ _ (fun _ => rfl) rfl, fun a => hissues _ _ _ (fun _ => rfl) rfl, fun a b s => exec_cpSeal, ?_⟩
  intro a b s t h s0 n cov met
  obtain ⟨hmem, hh, hthread, -⟩ := h.thread
  have hhas : s0.threads.has t = true := (afterIssue_has b s t).trans hh
  have hgroup : s0.groups.has (s0.thread t).group = true := by
    rw [afterIssue_thread_group, afterIssue_groups]
    exact (h.issuing.may t hmem).grouped
  have hexec : exec (.cpWait a) s = .next (if waitMet (s0.thread t) n then finishWait s0 t n b.pc b.word id
    else waitingAt b s t (.cp n b.word)) := exec_cpWait h
  have hmet : waitMet (s0.thread t) n = true ↔ met := waitMet_iff _ _
  refine ⟨fun hm hf => ?_, fun hm => ?_, fun hm x f hx hf => ?_⟩
  · have hnone : cov.find? (fun x => x.fault.isSome && !x.raised) = none := List.find?_eq_none.2 fun x hx => by simp [hf x hx]
    obtain ⟨hrest, hflags⟩ := foldl_orFlags_batches (s0.thread t).group cov (s0.onThread t (Thread.passBatches cov)) hgroup
    refine ⟨_, hexec.trans (by rw [if_pos (hmet.2 hm), finishWait_of_no_fault hnone]; rfl), ?_, hflags, ?_⟩
    · have hthreads := congrArg (fun y : State => y.thread t) hrest
      exact hthreads.trans (thread_onThread_self _ _ _ hhas)
    · exact congrArg (fun y : State => { y with threads := s0.threads }) hrest
  · rw [hexec, if_neg (fun h => hm (hmet.1 h))]
  · have hready : (setReady (s0.onThread t (Thread.raiseBatch x.num)) t).thread t = _ :=
      (congrArg (State.thread · t) (onThread_onThread s0 t _ _)).trans (thread_onThread_self _ _ _ hhas)
    refine ⟨_, hexec.trans (by rw [if_pos (hmet.2 hm), finishWait_of_fault hx hf]), ?_, ?_⟩
    · rw [hready]
      rfl
    · rw [hready]
      exact congrArg Thread.pc hthread

end Sys2Proof.Machine

namespace Sys2Proof.Machine

/-! ### Atomics on integers (O14) -/

theorem natOfBytes_append (l m : List Byte) : natOfBytes (l ++ m) = natOfBytes l + 256 ^ l.length * natOfBytes m := by
  induction l with
  | nil => simp [natOfBytes]
  | cons b l ih =>
    simp only [List.cons_append, natOfBytes, ih, List.length_cons, Nat.pow_succ]
    ring

theorem joinWords_cons (w : Word) (l : List Word) : joinWords (w :: l) = w.toNat + 2 ^ 32 * joinWords l := by
  have hw : w.toNat % 256 ^ 4 = w.toNat := Nat.mod_eq_of_lt w.isLt
  rw [joinWords, bytesOfWords, List.flatMap_cons, natOfBytes_append, natOfBytes_bytesOfNat, length_bytesOfNat, hw]
  rfl

theorem joinWords_one (x : Word) : joinWords [x] = x.toNat := joinWords_cons x []

theorem joinWords_two (x y : Word) : joinWords [x, y] = (y ++ x).toNat := by
  rw [joinWords_cons, joinWords_one, BitVec.toNat_append, ← Nat.shiftLeft_add_eq_or_of_lt x.isLt, Nat.shiftLeft_eq]
  omega

theorem signedOf_toNat (x : Word) : signedOf 32 x.toNat = x.toInt := by
  rw [signedOf, BitVec.toInt_eq_toNat_cond]
  split <;> split <;> omega

/-- R229: the integer operations of atomics on a word; the i types compare as signed. -/
theorem atomNew_word (old x : Word) :
    atomNew .add .u32 old.toNat [x] = some (old + x).toNat ∧ atomNew .sub .u32 old.toNat [x] = some (old - x).toNat ∧
    atomNew .and .u32 old.toNat [x] = some (old &&& x).toNat ∧ atomNew .or .u32 old.toNat [x] = some (old ||| x).toNat ∧
    atomNew .xor .u32 old.toNat [x] = some (old ^^^ x).toNat ∧ atomNew .exch .u32 old.toNat [x] = some x.toNat ∧
    atomNew .min .u32 old.toNat [x] = some (min old.toNat x.toNat) ∧
    atomNew .max .u32 old.toNat [x] = some (max old.toNat x.toNat) ∧
    atomNew .min .i32 old.toNat [x] = some (if x.slt old then x else old).toNat ∧
    atomNew .max .i32 old.toNat [x] = some (if old.slt x then x else old).toNat ∧
    atomNew .inc .u32 old.toNat [x] = some (if x.toNat ≤ old.toNat then 0 else old.toNat + 1) ∧
    atomNew .dec .u32 old.toNat [x] = some (if old = 0 ∨ x.toNat < old.toNat then x.toNat else old.toNat - 1) := by
  have hx : x.toNat % 2 ^ 32 = x.toNat := Nat.mod_eq_of_lt x.isLt
  have hz : old.toNat = 0 ↔ old = 0 := BitVec.toNat_inj (y := 0#32)
  simp only [atomNew, AT.bytes, joinWords_one, Nat.reduceMul, hx, signedOf_toNat, hz]
  refine ⟨?add, ?sub, ?and, ?or, ?xor, trivial, ?umin, ?umax, ?imin, ?imax, trivial, trivial⟩
  case add => rw [BitVec.toNat_add]
  case sub => rw [BitVec.toNat_sub, Nat.add_comm]
  case and => rw [BitVec.toNat_and]; rfl
  case or => rw [BitVec.toNat_or]; rfl
  case xor => rw [BitVec.toNat_xor]; rfl
  case umin =>
    change some (if decide (x.toNat < old.toNat) = true then x.toNat else old.toNat) = _
    simp only [decide_eq_true_eq, Option.some.injEq]
    split <;> omega
  case umax =>
    change some (if decide (old.toNat < x.toNat) = true then x.toNat else old.toNat) = _
    simp only [decide_eq_true_eq, Option.some.injEq]
    split <;> omega
  case imin => exact congrArg some (apply_ite BitVec.toNat _ x old).symm
  case imax => exact congrArg some (apply_ite BitVec.toNat _ x old).symm

/-- R229: cas stores its second value where the first matches. -/
theorem atomNew_cas (old c n : Word) : atomNew .cas .u32 old.toNat [c, n] = if old = c then some n.toNat else none := by
  have hc : (n ++ c).toNat % 2 ^ 32 = c.toNat := by
    rw [← joinWords_two, joinWords_cons, Nat.add_mul_mod_self_left, Nat.mod_eq_of_lt c.isLt]
  have hn : (n ++ c).toNat / 2 ^ 32 % 2 ^ 32 = n.toNat := by
    rw [← joinWords_two, joinWords_cons, joinWords_one, Nat.add_mul_div_left _ _ (by decide), Nat.div_eq_of_lt c.isLt, Nat.zero_add,
      Nat.mod_eq_of_lt n.isLt]
  simp only [atomNew, AT.bytes, joinWords_two, Nat.reduceMul, hc, hn, BitVec.toNat_inj]

/-- R229: add and exch on a double. -/
theorem atomNew_double (old : Dword) (x y : Word) :
    atomNew .add .i64 old.toNat [x, y] = some (old + (y ++ x)).toNat ∧ atomNew .exch .i64 old.toNat [x, y] = some (y ++ x).toNat := by
  have hxy : (y ++ x).toNat % 2 ^ 64 = (y ++ x).toNat := Nat.mod_eq_of_lt (y ++ x).isLt
  simp only [atomNew, AT.bytes, joinWords_two, Nat.reduceMul, hxy, BitVec.toNat_add, and_self]

end Sys2Proof.Machine

namespace Sys2Proof.Machine

/-! ### Accesses performed at the bank (O14) -/

/-- The registers an access writes with the words it brings. -/
def Access.writes (x : Access) (ws : List Word) : List (Nat × Word) :=
  match x.dst with
  | some (ds, _) => ds.zip ws
  | none => []

/-- Two changes of one group are one. -/
theorem onGroup_onGroup (s : State) (g : Nat) (f f' : Group → Group) : (s.onGroup g f).onGroup g f' = s.onGroup g fun y => f' (f y) := by
  simp only [State.onGroup, Sparse.modify, Sparse.mapKV, List.map_map]
  congr 2
  refine List.map_congr_left fun e _ => ?_
  by_cases he : e.1 = g <;> simp [he]

/-- Uniform registers written one by one are written together. -/
theorem foldl_setK (t : Nat) (l : List (Nat × Word)) : ∀ s : State,
    l.foldl (fun s e => setK s (s.thread t).group e.1 e.2) s =
      s.onGroup (s.thread t).group fun y => { y with k := l.foldl (fun k e => k.set e.1 e.2) y.k } := by
  induction l with
  | nil => exact fun s => (congrArg (fun g => { s with groups := g }) (by simp [Sparse.modify, Sparse.mapKV]) : s = _)
  | cons e l ih => exact fun s => (ih _).trans (onGroup_onGroup s _ _ _)

namespace AtBank

variable {s s' s'' : State} {t : Nat} {x : Access} {regs : List (Nat × Word)} {key : Nat} {bytes : List Byte}

/-- A state in which the access has made its release alone: the history has a publication, and the host is told at .sys. -/
theorem of_released {h : Hist} {n : Nat} {p : Package} (hb : h.bytes = s.hist.bytes)
    (hp : p = if x.releases ∧ x.scope = .sys then { s.pkg with sent := p.sent } else s.pkg) :
    AtBank s { s with hist := h, ctr := n, pkg := p } t x [] key [] where
  thread := by rw [List.foldl_nil, ite_self]; rfl
  others _ _ := rfl
  groups _ := by rw [List.foldl_nil, ite_self]; rfl
  memory a := by rw [if_neg (by simp)]
  pkg := hp
  dies _ := rfl
  stored := hb
  rest := rfl

/-- An acquire follows. -/
theorem acquired (h : AtBank s s' t x regs key bytes) (ha : SnapsOnly s' s'') : AtBank s s'' t x regs key bytes where
  thread := by
    rw [ha.thread t, h.thread]
  others u hu := by rw [ha.thread u, h.others u hu]
  groups g := by
    have := congrArg (fun y : State => y.group g) ha.rest
    exact this.trans (h.groups g)
  memory a := by
    have := congrArg (fun y : State => Memory.read y.flats a) ha.rest
    exact this.trans (h.memory a)
  pkg := by
    have hp : s''.pkg = s'.pkg := (congrArg State.pkg ha.rest :)
    rw [hp]
    exact h.pkg
  dies d := by
    have hd : s''.die d = s'.die d := (congrArg (fun y : State => y.die d) ha.rest :)
    rw [hd]
    exact h.dies d
  stored := (congrArg (fun y : State => y.hist.bytes) ha.rest :).trans h.stored
  rest := by
    have := congrArg (fun y : State => { y with
      threads := s.threads, groups := s.groups, flats := s.flats, hist := s.hist, dies := s.dies, pkg := s.pkg, ctr := s.ctr }) ha.rest
    exact this.trans h.rest

/-- Its bytes are written at the bank, and with them what an acquire of them finds. -/
theorem stored_bytes {d k o n : Nat} {rels : List Nat} (h : AtBank s s' t x regs (bankKey d k o) []) (b : List Byte) :
    AtBank s (setFlatRels (flatWrite s' d k o b) d k o n rels) t x regs (bankKey d k o) b where
  thread := h.thread
  others := h.others
  groups := h.groups
  memory a := by
    have hm := h.memory a
    rw [if_neg (by simp)] at hm
    exact (Memory.read_writeN b s'.flats (bankKey d k o) a).trans (by rw [hm])
  pkg := h.pkg
  dies e := by
    have hd : (setFlatRels (flatWrite s' d k o b) d k o n rels).die e =
        { s'.die e with poisonFlat := ((setFlatRels (flatWrite s' d k o b) d k o n rels).die e).poisonFlat } := by
      change ((flatWrite s' d k o b).die e) = { s'.die e with poisonFlat := ((flatWrite s' d k o b).die e).poisonFlat }
      rw [flatWrite, die_onDie]
      split
      · subst_vars; rfl
      · rfl
    rw [hd, h.dies e]
  stored := h.stored
  rest := h.rest

/-- Vector registers are written. -/
theorem wrote_vector (h : AtBank s s' t x [] key bytes) {ds : List Nat} (hd : x.dst = some (ds, false)) (regs : List (Nat × Word))
    (hh : s'.threads.has t = true) :
    AtBank s (s'.onThread t fun th => { th with v := regs.foldl (fun v e => v.set e.1 e.2) th.v }) t x regs key bytes where
  thread := by
    rw [thread_onThread_self _ _ _ hh, h.thread]
    simp [hd]
  others u hu := by rw [thread_onThread_ne _ _ _ _ hu, h.others u hu]
  groups g := by
    rw [group_onThread, h.groups g]
    simp [hd]
  memory := h.memory
  pkg := h.pkg
  dies := h.dies
  stored := h.stored
  rest := h.rest

/-- Uniform registers are written. -/
theorem wrote_uniform (h : AtBank s s' t x [] key bytes) {ds : List Nat} (hd : x.dst = some (ds, true)) (regs : List (Nat × Word))
    (hg : s'.groups.has (s'.thread t).group = true) :
    AtBank s (s'.onGroup (s'.thread t).group fun y => { y with k := regs.foldl (fun k e => k.set e.1 e.2) y.k }) t x regs key bytes where
  thread := by
    rw [thread_onGroup, h.thread]
    simp [hd]
  others u hu := by rw [thread_onGroup, h.others u hu]
  groups g := by
    have hgroup : (s'.thread t).group = (s.thread t).group := by rw [h.thread]
    rw [group_onGroup _ _ _ _ hg, hgroup, h.groups, h.groups]
    by_cases hj : g = (s.thread t).group <;> simp [hd, hj]
  memory := h.memory
  pkg := h.pkg
  dies := h.dies
  stored := h.stored
  rest := h.rest

/-- The registers of an access are written, if it has any. -/
theorem wrote (h : AtBank s s' t x [] key bytes) (ws : List Word) (hh : s'.threads.has t = true)
    (hg : s'.groups.has (s'.thread t).group = true) : AtBank s (writeRegs s' t x.dst ws) t x (x.writes ws) key bytes := by
  unfold Access.writes
  rcases hd : x.dst with - | ⟨ds, - | -⟩
  · exact h
  · exact h.wrote_vector hd _ hh
  · rw [writeRegs, foldl_setK]
    exact h.wrote_uniform hd _ hg

/-- It makes the acquire it is. -/
theorem acquires (h : AtBank s s' t x regs key bytes) (rels : List Nat) :
    AtBank s (if Order.acquires x.order then acquire s' t x.scope rels (x.order == .ar) else s') t x regs key bytes := by
  split
  · exact h.acquired (SnapsOnly.acquire s' t x.scope rels (x.order == .ar))
  · exact h

end AtBank

/-! ### The release of an access at the bank (R120, R389) -/

/-- The release that an access at a bank makes before it is performed, and the publication it is, if any. -/
def bankRelease (s : State) (t : Nat) (x : Access) : List Nat × State :=
  if x.releases then
    let (i, s) := releaseMem s t x.scope (x.order == .ar)
    ([i], s)
  else ([], s)

theorem release_hist_bytes (s : State) (t : Nat) (sc : Scope) (f : Bool) (own : List Nat) :
    (release s t sc f own).2.hist.bytes = s.hist.bytes := by
  unfold release publish releaseSet
  dsimp only
  split <;> rfl

/-- A release spends free values, enters the history, and at .sys may have the host's writes flushed; nothing else changes. -/
theorem releaseMem_eq (s : State) (t : Nat) (sc : Scope) (f : Bool) :
    ∃ h n p, (releaseMem s t sc f).2 = { s with hist := h, ctr := n, pkg := p } ∧ h.bytes = s.hist.bytes ∧
      p = if sc = .sys then { s.pkg with sent := p.sent } else s.pkg := by
  have hrel : ∀ s1 : State, ∃ h n, (release s1 t sc f []).2 = { s1 with hist := h, ctr := n } ∧ h.bytes = s1.hist.bytes := fun s1 => by
    obtain ⟨h, n, he⟩ := release_eq s1 t sc f []
    exact ⟨h, n, he, (congrArg (fun y : State => y.hist.bytes) he).symm.trans (release_hist_bytes s1 t sc f [])⟩
  unfold releaseMem
  dsimp only
  split
  · rename_i hc
    obtain ⟨h, n, he, hb⟩ := hrel (s.send .hostFlush)
    exact ⟨h, n, (s.send .hostFlush).pkg, he, hb, by rw [if_pos hc.1]; rfl⟩
  · obtain ⟨h, n, he, hb⟩ := hrel s
    exact ⟨h, n, s.pkg, he, hb, by rw [ite_self]⟩

theorem bankRelease_atBank (s : State) (t : Nat) (x : Access) (key : Nat) :
    AtBank s (bankRelease s t x).2 t x [] key [] ∧ (bankRelease s t x).2.threads = s.threads ∧ (bankRelease s t x).2.groups = s.groups := by
  unfold bankRelease
  split
  · rename_i hr
    obtain ⟨h, n, p, he, hb, hp⟩ := releaseMem_eq s t x.scope (x.order == .ar)
    dsimp only
    rw [he]
    exact ⟨.of_released hb (by simpa [hr] using hp), rfl, rfl⟩
  · rename_i hr
    exact ⟨.of_released (h := s.hist) (n := s.ctr) (p := s.pkg) rfl (by simp [hr]), rfl, rfl⟩

section
variable {s : State} {is : Issued} {t : Nat} {x : Access} {d k o : Nat}
  (hp : flatPoisoned s d k o x.size = false) (hr : (s.thread t).held = .ready) (hh : s.threads.has t = true)
  (hg : s.groups.has (s.thread t).group = true)
include hp hr hh hg

/-- R221: a load at the bank writes what the bank holds. -/
theorem flatAccess_load {lt : LT} (ha : (∃ n, x.acc = .load lt n) ∨ ∃ m n, x.acc = .ldk lt m n) :
    AtBank s (flatAccess s is t x d k o) t x (x.writes (LT.value lt (Memory.readN s.flats (bankKey d k o) x.size))) (bankKey d k o) [] := by
  obtain ⟨hrel, hthreads, hgroups⟩ := bankRelease_atBank s t x (bankKey d k o)
  have hw := hrel.wrote (LT.value lt (Memory.readN s.flats (bankKey d k o) x.size)) (by rw [hthreads, hh]) (by
    rw [hgroups, State.thread, hthreads]; exact hg)
  unfold flatAccess
  rcases ha with ⟨_, ha⟩ | ⟨_, _, ha⟩ <;> simp only [hp, hr, ha, Bool.and_false, Bool.false_eq_true, if_false] <;>
  exact hw.acquires _

omit hh hg in
/-- R221: a store at the bank writes its bytes. -/
theorem flatAccess_store {lt : LT} (ha : x.acc = .store lt) :
    AtBank s (flatAccess s is t x d k o) t x [] (bankKey d k o) ((bytesOfWords x.ops).take x.size) := by
  obtain ⟨hrel, -, -⟩ := bankRelease_atBank s t x (bankKey d k o)
  have hw := hrel.stored_bytes (n := x.size) (rels := (bankRelease s t x).1) ((bytesOfWords x.ops).take x.size)
  unfold flatAccess
  simp only [hp, hr, ha, Bool.and_false, Bool.false_eq_true, if_false]
  exact hw.acquires _

/-- R229: an atomic at the bank writes the new value, where there is one, and returns the old one where it has a result. -/
theorem flatAccess_atom {op : AOp} {ty : AT} {n : Option Nat} (ha : x.acc = .atom op ty n) :
    let old := natOfBytes (Memory.readN s.flats (bankKey d k o) x.size)
    AtBank s (flatAccess s is t x d k o) t x (x.writes (atomOld ty old)) (bankKey d k o)
      ((atomNew op ty old x.ops).elim [] (bytesOfNat x.size)) := by
  intro old
  obtain ⟨hrel, hthreads, hgroups⟩ := bankRelease_atBank s t x (bankKey d k o)
  have hhas : (bankRelease s t x).2.threads.has t = true := by rw [hthreads, hh]
  have hgrouped : (bankRelease s t x).2.groups.has ((bankRelease s t x).2.thread t).group = true := by
    rw [hgroups, State.thread, hthreads]; exact hg
  have hold : natOfBytes (flatRead s d k o x.size) = old := rfl
  unfold flatAccess
  simp only [hp, hr, ha, Bool.and_false, Bool.false_eq_true, if_false, hold]
  cases atomNew op ty old x.ops with
  | none => exact (hrel.wrote (atomOld ty old) hhas hgrouped).acquires _
  | some y =>
    have hw := hrel.stored_bytes (n := x.size) (rels := unionN (bankRelease s t x).1 (flatRels s d k o x.size)) (bytesOfNat x.size y)
    exact (hw.wrote (atomOld ty old) hhas hgrouped).acquires _

end

/-- Free values spent before the access do not show in what it does. -/
theorem AtBank.of_ctr {s s' : State} {t m key : Nat} {x : Access} {regs : List (Nat × Word)} {bytes : List Byte}
    (h : AtBank { s with ctr := m } s' t x regs key bytes) : AtBank s s' t x regs key bytes :=
  ⟨h.thread, h.others, h.groups, h.memory, h.pkg, h.dies, h.stored, congrArg (fun y : State => { y with ctr := s.ctr }) h.rest⟩

section
variable {i : Instr} {f : State → Env → Access} (he : ∀ s, exec i s = word i s (memBody f)) (hn : gatherMask i = none)
  {b : Bundle} {s : State} {t d k o : Nat} (h : ToBank i b s t (f (afterIssue b s) (envOf (afterIssue b s) t)) d k o)
include he hn h

/-- A memory word whose one active thread's access lies in a bank: the access is performed there, in the state in which the
word acts, some free values spent. -/
theorem exec_bank {regs : List (Nat × Word)} {bytes : List Byte}
    (hperf : ∀ m, let w := { afterIssue b s with ctr := m }
      let x := f (afterIssue b s) (envOf (afterIssue b s) t)
      flatPoisoned w d k o x.size = false → (w.thread t).held = .ready → w.threads.has t = true →
      w.groups.has (w.thread t).group = true → AtBank w (flatAccess w (issuedAs i b s) t x d k o) t x regs (bankKey d k o) bytes) :
    ∃ s', exec i s = .next s' ∧ AtBank (afterIssue b s) s' t (f (afterIssue b s) (envOf (afterIssue b s) t)) regs (bankKey d k o) bytes := by
  obtain ⟨hmem, hh, -, hready⟩ := h.sole.thread
  have hw : (windowView (afterIssue b s) t).2 = { afterIssue b s with ctr := (windowView (afterIssue b s) t).2.ctr } :=
    congrArg (fun y : State => { y with ctr := (windowView (afterIssue b s) t).2.ctr }) (windowView_rest (afterIssue b s) t)
  have hgroup : (afterIssue b s).groups.has ((afterIssue b s).thread t).group = true := by
    rw [afterIssue_thread_group, afterIssue_groups]
    exact (h.sole.issuing.may t hmem).grouped
  have hbody := memBody_bank (f := f) h.sole.active rfl h.place (by rw [windowView_thread]; exact hready)
  rw [hw] at hbody
  have hexec := (he s).trans ((word_issues h.sole.issuing hn _).trans (congrArg Host.Outcome.next hbody))
  exact ⟨_, hexec, (hperf (windowView (afterIssue b s) t).2.ctr h.sound hready ((afterIssue_has b s t).trans hh) hgroup).of_ctr⟩

end

/-- Settles O14: the access of each word performed at its bank, as its kind says (`flatAccess_load`, `flatAccess_store`,
`flatAccess_atom`), and the integer operations of atomics. -/
theorem bankAndAtomics : Obligations.BankAndAtomics := by
  refine ⟨?_, atomNew_word, atomNew_cas, atomNew_double⟩
  intro bank loaded updated
  have hupdated : ∀ a l y, (atomNew a.op a.ty (natOfBytes l) y.ops).elim [] (bytesOfNat y.size) = updated a l y := fun a l y => by
    dsimp only [updated]
    cases atomNew a.op a.ty (natOfBytes l) y.ops <;> rfl
  refine ⟨fun a b s t d k o h => ?_, fun a b s t d k o h => ?_, fun a b s t d k o h => ?_, fun a b s t d k o h => ?_,
    fun a b s t d k o h => ?_⟩
  · exact exec_bank (f := ldAccess a) (fun _ => rfl) rfl h fun _ hp hr hh hg => flatAccess_load hp hr hh hg (.inl ⟨_, rfl⟩)
  · exact exec_bank (f := ldkAccess a) (fun _ => rfl) rfl h fun _ hp hr hh hg => flatAccess_load hp hr hh hg (.inr ⟨_, _, rfl⟩)
  · exact exec_bank (f := stAccess a) (fun _ => rfl) rfl h fun _ hp hr _ _ => flatAccess_store hp hr rfl
  · exact exec_bank (f := atomAccess false a) (fun _ => rfl) rfl h fun _ hp hr hh hg => hupdated a _ _ ▸ flatAccess_atom hp hr hh hg rfl
  · exact exec_bank (f := atomAccess true a) (fun _ => rfl) rfl h fun _ hp hr hh hg => hupdated a _ _ ▸ flatAccess_atom hp hr hh hg rfl

end Sys2Proof.Machine

namespace Sys2Proof.Machine

/-! ### What copies may change (R132, R233, R321) -/

/-- The state is `s₀` but for what copies change: memories, their caches and errors, the history and what cores have read of it, the copies themselves, messages
that left, errors of the host link, free values spent. -/
inductive Copied (s₀ : State) : State → Prop
  | refl : Copied s₀ s₀
  | update {s : State} {ctr cores dies copies hbm flats host hist pkg} (h : Copied s₀ s) : Copied s₀ ⟨s.clk, ctr, s.agenda, s.issue, s.threads,
      s.groups, s.blocks, s.launches, cores, s.clusters, dies, s.parts, copies, s.sys, hbm, flats, s.loft, host, hist, pkg, s.images, s.winWrites⟩
  | hlkErr {s : State} {p kind addr : Nat} (h : Copied s₀ s) : Copied s₀ (hlkErr s p kind addr)

section
variable {s₀ s : State}

theorem onDie_copied {d f} (h : Copied s₀ s) : Copied s₀ (s.onDie d f) := .update h

theorem onPkg_copied {f} (h : Copied s₀ s) : Copied s₀ (s.onPkg f) := .update h

/-! Accesses at their place. -/

theorem coin_copied (h : Copied s₀ s) : Copied s₀ s.coin.2 := .update h

theorem pick_copied {n} (h : Copied s₀ s) : Copied s₀ (s.pick n).2 := by
  unfold State.pick
  split
  · exact h
  · exact .update h

theorem windowView_copied {t} (h : Copied s₀ s) : Copied s₀ (windowView s t).2 := by
  have hw : (windowView s t).2 = { s with ctr := (windowView s t).2.ctr } :=
    congrArg (fun y : State => { y with ctr := (windowView s t).2.ctr }) (windowView_rest s t)
  rw [hw]
  exact .update h

theorem leafUsed_copied {d ia} (h : Copied s₀ s) : Copied s₀ (leafUsed s d ia).2 := by
  unfold leafUsed
  grind [coin_copied]

theorem leafTouched_copied {d ia w} (h : Copied s₀ s) : Copied s₀ (leafTouched s d ia w) :=
  onDie_copied h

theorem hatTouched_copied {l pa} (h : Copied s₀ s) : Copied s₀ (hatTouched s l pa) := by
  unfold hatTouched
  grind [coin_copied, onPkg_copied]

theorem translate_copied {l w f} (h : Copied s₀ s) : Copied s₀ (translate s l w f).2 := by
  unfold translate
  grind [leafUsed_copied, leafTouched_copied, hatTouched_copied]

theorem placeGo_copied {l w f x} (h : Copied s₀ s) : Copied s₀ (place.go l w f s x).2 := by
  unfold place.go
  grind [translate_copied]

theorem place_copied {l w f} (h : Copied s₀ s) : Copied s₀ (place s l w f).2 := by
  unfold place
  grind [placeGo_copied]

theorem touchSide_copied {d pa} (h : Copied s₀ s) : Copied s₀ (touchSide s d pa) := onDie_copied h

theorem placeRead_copied {pl : Place} {l p n} (h : Copied s₀ s) : Copied s₀ (pl.read s l p n).2 := by
  unfold Place.read hostRead
  grind [touchSide_copied, Copied.hlkErr]

theorem putLine_copied {x} (h : Copied s₀ s) : Copied s₀ (putLine s x) := by
  unfold putLine
  split
  · exact onDie_copied (onDie_copied h)
  · exact onDie_copied h

theorem hostWrite_copied {p l pa relaxed b} (h : Copied s₀ s) : Copied s₀ (hostWrite s p l pa relaxed b) := by
  unfold hostWrite
  split
  · exact .update (.update h)
  · exact Copied.hlkErr h

theorem physWrite_copied {d pa o b} (h : Copied s₀ s) : Copied s₀ (physWrite s d pa o b) :=
  onDie_copied (touchSide_copied (Copied.update h))

theorem placeWrite_copied {pl : Place} {l p relaxed b} (h : Copied s₀ s) : Copied s₀ (pl.write s l p relaxed b) := by
  unfold Place.write
  grind [putLine_copied, physWrite_copied, hostWrite_copied]

theorem storeAt_copied {pl l p r relaxed b} (h : Copied s₀ s) : Copied s₀ (storeAt s pl l p r relaxed b) := by
  unfold storeAt
  grind [placeRead_copied, placeWrite_copied, Copied.update]

theorem writeLoc_copied {l r relaxed b} (h : Copied s₀ s) : Copied s₀ (writeLoc s l r relaxed b).2 := by
  unfold writeLoc
  grind [place_copied, storeAt_copied]

theorem flatWrite_copied {d bank off b} (h : Copied s₀ s) : Copied s₀ (flatWrite s d bank off b) :=
  onDie_copied (Copied.update h)

theorem someOf_copied {l} (h : Copied s₀ s) : Copied s₀ (someOf s l).2 :=
  List.foldlRecOn (motive := fun p : List Nat × State => Copied s₀ p.2) l _ h fun _ hp _ _ => .update hp

theorem histRead_copied {v l home} (h : Copied s₀ s) : Copied s₀ (histRead s v l home).2 := by
  have hs : ∀ l, Copied s₀ (someOf s l).2 := fun _ => someOf_copied h
  unfold histRead
  dsimp only
  split
  · split
    · exact .update (hs _)
    · exact hs _
  · exact hs _

theorem mixRead_copied {mark l home} (h : Copied s₀ s) : Copied s₀ (mixRead s mark l home).2 :=
  List.foldlRecOn (motive := fun p : List Byte × State × Nat => Copied s₀ p.2.1) (chunks 4 home.length home) _ h
    fun _ hp _ _ => pick_copied hp

/-! Copies. -/

theorem copyBytes_copied {cp l home} (h : Copied s₀ s) : Copied s₀ (copyBytes s cp l home).2 := by
  unfold copyBytes
  grind [mixRead_copied, histRead_copied]

theorem targetFor_copied {t ctx core priv va need} (h : Copied s₀ s) : Copied s₀ (targetFor s t ctx core priv va need).2 :=
  windowView_copied h

theorem copyRead_copied {cp va n} (h : Copied s₀ s) : Copied s₀ (copyRead s cp va n).2 := by
  unfold copyRead
  split <;> grind [targetFor_copied, place_copied, placeRead_copied, copyBytes_copied]

theorem copyWrite_copied {cp va b} (h : Copied s₀ s) : Copied s₀ (copyWrite s cp va b).2 := by
  unfold copyWrite
  grind [targetFor_copied, flatWrite_copied, writeLoc_copied]

theorem placePiece_copied {cp va n} (h : Copied s₀ s) : Copied s₀ (placePiece s cp va n).2 := by
  unfold placePiece
  grind [targetFor_copied, place_copied, placeRead_copied]

theorem placePieces_copied {cp va n} (h : Copied s₀ s) : Copied s₀ (placePieces s cp va n).2 := by
  refine List.foldlRecOn (motive := fun p : Answer (List Piece) × State => Copied s₀ p.2) (spans va n) _ h fun p hp x _ => ?_
  grind [placePiece_copied]

theorem putPiece_copied {cp x b} (h : Copied s₀ s) : Copied s₀ (putPiece s cp x b) := by
  unfold putPiece
  grind [flatWrite_copied, storeAt_copied]

theorem copyUpdate_copied {cp va n f} (h : Copied s₀ s) : Copied s₀ (copyUpdate s cp va n f).2 := by
  have hp := placePieces_copied (cp := cp) (va := va) (n := n) h
  unfold copyUpdate
  split <;> rename_i e <;> rw [e] at hp
  · exact List.foldlRecOn (motive := fun p : State × Nat => Copied s₀ p.1) _ _ hp fun p hp x _ => putPiece_copied hp
  · exact hp
  · exact hp

theorem copyTakes_copied {a : CopyAcc} (h : Copied s₀ a.s) : Copied s₀ a.takes.2.s := by
  unfold CopyAcc.takes
  split
  · exact .update h
  · exact h

theorem copyStop_copied {a : CopyAcc} {f} (h : Copied s₀ s) : Copied s₀ (a.stop s f).s := by
  unfold CopyAcc.stop
  split <;> exact h

theorem copyWrote_copied {a : CopyAcc} {key fl} (h : Copied s₀ s) : Copied s₀ (a.wrote s key fl).s := h

theorem copyRow_copied {a : CopyAcc} (h : Copied s₀ a.s) : Copied s₀ a.row.s := h

theorem copyWord_copied {a : CopyAcc} {va} (h : Copied s₀ a.s) : Copied s₀ (a.word va).2.s := by
  unfold CopyAcc.word
  grind [copyTakes_copied, copyRead_copied, copyStop_copied]

theorem copyAccRead_copied {a : CopyAcc} {va n} (h : Copied s₀ a.s) : Copied s₀ (a.read va n).2.s :=
  List.foldlRecOn (motive := fun x : List Byte × CopyAcc => Copied s₀ x.2.s) _ _ h fun _ hx _ _ => copyWord_copied hx

/-- A fold over the words or the rows of a copy. -/
theorem foldl_copyAcc_copied {α : Type} {f : CopyAcc → α → CopyAcc} {l : List α} {a : CopyAcc}
    (hf : ∀ a x, Copied s₀ a.s → Copied s₀ (f a x).s) (h : Copied s₀ a.s) : Copied s₀ (l.foldl f a).s :=
  List.foldlRecOn (motive := fun a : CopyAcc => Copied s₀ a.s) l f h fun a ha x _ => hf a x ha

theorem copyPut_copied {a : CopyAcc} {r va b fl} (h : Copied s₀ a.s) : Copied s₀ (a.put r va b fl).s := by
  unfold CopyAcc.put
  split
  · exact h
  · refine foldl_copyAcc_copied (fun a x ha => ?_) h
    have ht := copyTakes_copied ha
    have hw := copyWrite_copied (cp := a.takes.2.cp) (va := x.1) (b := x.2) ht
    dsimp only
    split
    · exact ha
    · split
      · exact ht
      · split <;> rename_i e <;> rw [e] at hw
        · exact copyWrote_copied hw
        · exact copyStop_copied hw
        · exact copyStop_copied hw

theorem copyUpd_copied {a : CopyAcc} {r va n f} (h : Copied s₀ a.s) : Copied s₀ (a.upd r va n f).s := by
  unfold CopyAcc.upd
  grind [copyTakes_copied, copyUpdate_copied, copyWrote_copied, copyStop_copied]

theorem runAccrd_copied {a} (h : Copied s₀ a.s) : Copied s₀ (runAccrd a).s := by
  unfold runAccrd
  grind [copyPut_copied, copyRow_copied, copyUpd_copied, foldl_copyAcc_copied]

theorem runAcccvt_copied {a} (h : Copied s₀ a.s) : Copied s₀ (runAcccvt a).s := by
  unfold runAcccvt
  grind [copyPut_copied, copyRow_copied, foldl_copyAcc_copied]

theorem runColl_copied {a} (h : Copied s₀ a.s) : Copied s₀ (runColl a).s := by
  unfold runColl
  grind [copyAccRead_copied, copyRow_copied, copyPut_copied, foldl_copyAcc_copied]

theorem runRows_copied {a} (h : Copied s₀ a.s) : Copied s₀ (runRows a).s := by
  unfold runRows
  grind [copyAccRead_copied, copyRow_copied, copyUpd_copied, copyPut_copied, foldl_copyAcc_copied]

theorem runCopy_copied {cp part} (h : Copied s₀ s) : Copied s₀ (runCopy s cp part).s := by
  have hs : Copied s₀ (CopyAcc.start s cp part).s := h
  unfold runCopy
  grind [runRows_copied, runColl_copied, copyStop_copied, runAccrd_copied, runAcccvt_copied]

theorem copySome_copied {cp ready} (h : Copied s₀ s) : Copied s₀ (copySome s cp ready).2 := by
  unfold copySome
  split
  · exact runCopy_copied h
  · exact h

/-- A copy discarded writes some of its words (R321). -/
theorem discardCopy_copied {id} (h : Copied s₀ s) : Copied s₀ (discardCopy s id) := by
  unfold discardCopy
  split
  · exact h
  · exact Copied.update (copySome_copied h)

end

end Sys2Proof.Machine

namespace Sys2Proof.Machine

/-! ### What the end of a context leaves (R321) -/

theorem Copied.threads {s₀ s : State} (h : Copied s₀ s) : s.threads = s₀.threads := by
  induction h with
  | refl => rfl
  | update _ ih => exact ih
  | hlkErr _ ih => unfold Machine.hlkErr; split <;> exact ih

theorem Copied.groups {s₀ s : State} (h : Copied s₀ s) : s.groups = s₀.groups := by
  induction h with
  | refl => rfl
  | update _ ih => exact ih
  | hlkErr _ ih => unfold Machine.hlkErr; split <;> exact ih

theorem Copied.notes {s₀ s : State} (h : Copied s₀ s) (p : Nat) :
    (s.part p).notes = (s₀.part p).notes := by
  induction h with
  | refl => rfl
  | update _ ih => exact ih
  | hlkErr _ ih =>
    rw [← ih, Machine.hlkErr]
    split
    · rfl
    · rw [raiseMsix, part_onPart]
      split
      · subst_vars; rfl
      · rfl

/-- Registers below the error record of the host link stand. -/
theorem Copied.sysGet {s₀ s : State} (h : Copied s₀ s) {n k : Nat} (hn : n < RegNo.hlkErr) (hk : k < 256) :
    sysGet s n k = sysGet s₀ n k := by
  induction h with
  | refl => rfl
  | update _ ih => exact ih
  | @hlkErr s p kind addr _ ih =>
    rw [← ih, Machine.hlkErr]
    split
    · rfl
    · refine (sysGet_sysPut s RegNo.hlkErr p n k _).trans (if_neg ?_)
      unfold regKey
      omega

/-- The threads of every context are the same, those that have exited stay so, and the notes and launch queues of every partition
stand. -/
structure EndsOnly (s s' : State) : Prop where
  members : ∀ c, s'.ctxThreads c = s.ctxThreads c
  exited : ∀ t, (s.thread t).held = .exited → (s'.thread t).held = .exited
  notes : ∀ p, (s'.part p).notes = (s.part p).notes
  lq : ∀ q p, q < 64 → p < 8 → sysGet s' (RegNo.lq q) p = sysGet s (RegNo.lq q) p

theorem EndsOnly.refl (s : State) : EndsOnly s s := ⟨fun _ => rfl, fun _ h => h, fun _ => rfl, fun _ _ _ _ => rfl⟩

theorem EndsOnly.trans {s s' s'' : State} (h : EndsOnly s s') (h' : EndsOnly s' s'') : EndsOnly s s'' where
  members c := (h'.members c).trans (h.members c)
  exited t ht := h'.exited t (h.exited t ht)
  notes p := (h'.notes p).trans (h.notes p)
  lq q p hq hp := (h'.lq q p hq hp).trans (h.lq q p hq hp)

theorem discarded_copied (s : State) (ts : List Nat) : Copied s (discarded s ts) :=
  List.foldlRecOn (motive := Copied s) _ _ .refl fun _ h _ _ => discardCopy_copied h

theorem Sparse.keys_filter_mapKV {α β : Type} (m : Sparse α) {f : Nat → α → β} {p : Nat → α → Bool} {p' : Nat → β → Bool}
    (h : ∀ k x, p' k (f k x) = p k x) : ((m.mapKV f).filter p').keys = (m.filter p).keys := by
  simp only [Sparse.keys, Sparse.filter, Sparse.mapKV, List.filter_map, List.map_map]
  congr 1
  exact List.filter_congr fun e _ => h e.1 e.2

/-- What the end of its launch makes of a thread. -/
def endedThread (th : Thread) : Thread :=
  { th with
    held := .exited, why := .none, tc := false, dc := false, out := [], pend := [], ports := Sparse.empty, unsealed := Batch.empty, batches := [] }

section
variable (s : State) (ts : List Nat) (hit : Launch → Bool) (st : LaunchStatus)

theorem endLaunches_threads :
    (endLaunches s ts hit st).threads = (discarded s ts).threads.mapKV fun t th => if ts.contains t then endedThread th else th := rfl

theorem endLaunches_thread (t : Nat) : ((endLaunches s ts hit st).thread t).group = (s.thread t).group ∧
    ((s.thread t).held = .exited → ((endLaunches s ts hit st).thread t).held = .exited) := by
  have hd : (discarded s ts).thread t = s.thread t := congrArg (·.findD t .fresh) (discarded_copied s ts).threads
  have ht : (endLaunches s ts hit st).thread t = _ := thread_onThreads (discarded s ts) ts (fun _ => endedThread) t
  rw [ht, hd]
  split
  · exact ⟨rfl, fun _ => rfl⟩
  · exact ⟨rfl, id⟩

theorem endLaunches_group_ctx (g : Nat) : ((endLaunches s ts hit st).group g).ctx = (s.group g).ctx := by
  have hk : ((endLaunches s ts hit st).group g).ctx = ((discarded s ts).group g).ctx := by
    refine Sparse.findD_mapKV_keeps (g := Group.ctx) ?_ (discarded s ts).groups g .fresh
    exact fun _ _ => rfl
  rw [hk, State.group, (discarded_copied s ts).groups]
  rfl

theorem endLaunches_ctxThreads (c : Nat) : (endLaunches s ts hit st).ctxThreads c = s.ctxThreads c := by
  rw [State.ctxThreads, State.ctxThreads, endLaunches_threads, ← (discarded_copied s ts).threads]
  refine Sparse.keys_filter_mapKV (discarded s ts).threads fun t th => ?_
  rw [endLaunches_group_ctx]
  split <;> rfl

theorem endLaunches_endsOnly : EndsOnly s (endLaunches s ts hit st) where
  members := endLaunches_ctxThreads s ts hit st
  exited t := (endLaunches_thread s ts hit st t).2
  notes p := by
    have hk : ((endLaunches s ts hit st).part p).notes = ((discarded s ts).part p).notes := by
      refine Sparse.findD_mapKV_keeps (g := Part.notes) ?_ (discarded s ts).parts p .idle
      exact fun _ _ => rfl
    rw [hk, (discarded_copied s ts).notes p]
  lq q p hq hp := (discarded_copied s ts).sysGet (by unfold RegNo.lq RegNo.hlkErr RegNo.of; omega) (by omega)

end

theorem endContext_endsOnly (s : State) (c : Nat) : EndsOnly s (endContext s c) := endLaunches_endsOnly s _ _ _

theorem endContexts_endsOnly (s : State) (cs : List Nat) : EndsOnly s (cs.foldl endContext s) :=
  List.foldlRecOn (motive := EndsOnly s) _ _ (.refl s) fun _ h c _ => h.trans (endContext_endsOnly _ c)

/-- Every thread of a context that is ended exits. -/
theorem endContexts_held {s : State} {c t : Nat} (ht : t ∈ s.ctxThreads c) : ∀ cs : List Nat, c ∈ cs → ((cs.foldl endContext s).thread t).held = .exited := by
  intro cs hc
  obtain ⟨before, after, rfl⟩ := List.append_of_mem hc
  rw [List.foldl_append, List.foldl_cons]
  refine (endContexts_endsOnly _ after).exited t ?_
  rw [← (endContexts_endsOnly s before).members c] at ht
  exact endLaunches_held _ _ _ _ ht (has_of_mem_ctxThreads ht)

end Sys2Proof.Machine

namespace Sys2Proof.Machine

/-! ### Launch queues that stop, and a function's reset (R383) -/

/-- Bit 3 of a register cleared reads as clear, and stays clear when it is cleared of another register. -/
theorem sysBits_clear_bit3 (s : State) (n k m j : Nat) :
    sysBits (sysPutBits s n k 3 3 0) m j 3 3 = if regKey m j = regKey n k then 0 else sysBits s m j 3 3 := by
  rw [sysBits, sysPutBits, sysGet_sysPut]
  split
  · have hx := (sysGet s n k).isLt
    simp only [bits, putBits, BitVec.toNat_ofNat]
    omega
  · rfl

/-- The launch queues `qs` of a partition stopped. -/
def stopQueues (s : State) (p : Nat) (qs : List Nat) : State := qs.foldl (fun s q => sysPutBits s (RegNo.lq q) p 3 3 0) s

theorem stopQueues_threads (s : State) (p : Nat) (qs : List Nat) : (stopQueues s p qs).threads = s.threads :=
  List.foldlRecOn (motive := fun s' : State => s'.threads = s.threads) _ _ rfl fun _ h _ _ => h

theorem stopQueues_parts (s : State) (p : Nat) (qs : List Nat) : (stopQueues s p qs).parts = s.parts :=
  List.foldlRecOn (motive := fun s' : State => s'.parts = s.parts) _ _ rfl fun _ h _ _ => h

theorem sysBits_stopQueues (s : State) (p m j : Nat) (qs : List Nat) :
    sysBits (stopQueues s p qs) m j 3 3 = if ∃ q ∈ qs, regKey m j = regKey (RegNo.lq q) p then 0 else sysBits s m j 3 3 := by
  induction qs using List.reverseRecOn with
  | nil => simp [stopQueues]
  | append_singleton qs q ih =>
    rw [stopQueues, List.foldl_append, List.foldl_cons, List.foldl_nil, sysBits_clear_bit3]
    change (if _ then _ else sysBits (stopQueues s p qs) m j 3 3) = _
    rw [ih]
    simp only [List.mem_append, List.mem_singleton, or_and_right, exists_or, exists_eq_left]
    split <;> simp_all

/-- A partition whose function has been reset: no notes, and every launch queue stopped. -/
def Quit (s : State) (p : Nat) : Prop := (s.part p).notes = [] ∧ ∀ q, q < 64 → sysBits s (RegNo.lq q) p 3 3 = 0

/-- The contexts of a partition. -/
def partContexts (s : State) (p : Nat) : List Nat := (List.range 255).filter fun c => s.ctxPart c == some p

/-- The contexts of a partition ended. -/
def partEnded (s : State) (p : Nat) : State := (partContexts s p).foldl endContext s

theorem partEnded_endsOnly (s : State) (p : Nat) : EndsOnly s (partEnded s p) := endContexts_endsOnly s _

theorem resetFunction_eq (s : State) (p : Nat) :
    resetFunction s p = (stopQueues (partEnded s p) p (List.range 64)).onPart p fun x => { x with notes := [], boot := [] } := rfl

theorem sysBits_onPart (s : State) (n : Nat) (f : Part → Part) (m j hi lo : Nat) : sysBits (s.onPart n f) m j hi lo = sysBits s m j hi lo := rfl

section
variable (s : State) (p : Nat)

/-- R383: every thread of the contexts of the partition exits. -/
theorem resetFunction_held {c t : Nat} (hc : c < 255) (hp : s.ctxPart c = some p) (ht : t ∈ s.ctxThreads c) :
    ((resetFunction s p).thread t).held = .exited := by
  have hm : c ∈ partContexts s p := List.mem_filter.2 ⟨List.mem_range.2 hc, beq_iff_eq.2 hp⟩
  rw [State.thread, resetFunction_eq, onPart_threads, stopQueues_threads]
  exact endContexts_held ht _ hm

theorem resetFunction_notes (p' : Nat) : ((resetFunction s p).part p').notes = if p' = p then [] else (s.part p').notes := by
  rw [resetFunction_eq, part_onPart]
  split
  · rfl
  · rw [State.part, stopQueues_parts]
    exact (partEnded_endsOnly s p).notes p'

theorem resetFunction_boot : ((resetFunction s p).part p).boot = [] := by
  rw [resetFunction_eq, part_onPart, if_pos rfl]

theorem regKey_lq {q q' p p' : Nat} (hp : p < 256) (hp' : p' < 256) : regKey (RegNo.lq q) p = regKey (RegNo.lq q') p' ↔ q = q' ∧ p = p' := by
  unfold regKey RegNo.lq RegNo.of
  omega

theorem resetFunction_lq {q p' : Nat} (hp : p < 8) (hq : q < 64) (hp' : p' < 8) :
    sysBits (resetFunction s p) (RegNo.lq q) p' 3 3 = if p' = p then 0 else sysBits s (RegNo.lq q) p' 3 3 := by
  have hk : (∃ r ∈ List.range 64, regKey (RegNo.lq q) p' = regKey (RegNo.lq r) p) ↔ p' = p := by
    simp only [regKey_lq (show p' < 256 by omega) (show p < 256 by omega), List.mem_range]
    exact ⟨fun ⟨_, _, _, h⟩ => h, fun h => ⟨q, hq, rfl, h⟩⟩
  rw [resetFunction_eq, sysBits_onPart, sysBits_stopQueues]
  simp only [hk]
  rw [sysBits, (partEnded_endsOnly s p).lq q p' hq hp', sysBits]

end

theorem resetFunction_quit (s : State) {p : Nat} (hp : p < 8) : Quit (resetFunction s p) p :=
  ⟨(resetFunction_notes s p p).trans (if_pos rfl), fun _ hq => (resetFunction_lq s p hp hq hp).trans (if_pos rfl)⟩

/-- The reset of another function leaves a partition so. -/
theorem Quit.resetFunction {s : State} {p p' : Nat} (h : Quit s p') (hp : p < 8) (hp' : p' < 8) : Quit (resetFunction s p) p' := by
  refine ⟨?_, fun q hq => ?_⟩
  · rw [resetFunction_notes, h.1, ite_self]
  · rw [resetFunction_lq s p hp hq hp', h.2 q hq, ite_self]

/-- Every function named is reset. -/
theorem resetFunctions_quit (s : State) {p' : Nat} (hp' : p' < 8) : ∀ ps : List Nat, (∀ p ∈ ps, p < 8) → p' ∈ ps →
    Quit (ps.foldl Machine.resetFunction s) p' := by
  intro ps hps hm
  obtain ⟨before, after, rfl⟩ := List.append_of_mem hm
  rw [List.foldl_append, List.foldl_cons]
  refine List.foldlRecOn (motive := fun s => Quit s p') _ _ (resetFunction_quit _ hp') fun _ h p hp => ?_
  exact h.resetFunction (hps p (List.mem_append_right _ (List.mem_cons_of_mem _ hp))) hp'

/-! The event. -/

theorem exec_functionLevelReset_virtual {s : State} {p : Nat} (hr : s.running = true) (hu : s.isUnderstudy = false) (hp : p < 8) :
    exec (.functionLevelReset p) s = .next (resetFunction s p) := by
  change execFunctionLevelReset p s = _
  simp [execFunctionLevelReset, hr, hu, hp]

theorem exec_functionLevelReset_physical {s : State} (hr : s.running = true) :
    exec (.functionLevelReset 8) s = .next (sysPutBits ((List.range 8).foldl resetFunction s) RegNo.hatBase 0 0 0 0) := by
  change execFunctionLevelReset 8 s = _
  rw [execFunctionLevelReset, hr]
  rfl

/-- The register that turns host translation off is no launch queue. -/
theorem Quit.hatBase {s : State} {p : Nat} (h : Quit s p) (hp : p < 8) : Quit (sysPutBits s RegNo.hatBase 0 0 0 0) p := by
  refine ⟨h.1, fun q hq => ?_⟩
  rw [sysBits, sysPutBits, sysGet_sysPut, if_neg, ← sysBits, h.2 q hq]
  unfold regKey RegNo.lq RegNo.hatBase RegNo.of
  omega

theorem sysBits_clear_bit0 (s : State) (n k : Nat) : sysBits (sysPutBits s n k 0 0 0) n k 0 0 = 0 := by
  rw [sysBits, sysPutBits, sysGet_sysPut_same]
  have hx := (sysGet s n k).isLt
  simp only [bits, putBits, BitVec.toNat_ofNat]
  omega

theorem functionReset {s : State} {p : Nat} (hr : s.running = true) (hu : s.isUnderstudy = false) (hp : p < 8) :
    ∃ s', exec (.functionLevelReset p) s = .next s' ∧
      (∀ c, c < 255 → s.ctxPart c = some p → ∀ t ∈ s.ctxThreads c, (s'.thread t).held = .exited) ∧
      (∀ q, q < 64 → sysBits s' (RegNo.lq q) p 3 3 = 0) ∧ (s'.part p).notes = [] ∧ (s'.part p).boot = [] := by
  obtain ⟨hnotes, hlq⟩ := resetFunction_quit s hp
  exact ⟨_, exec_functionLevelReset_virtual hr hu hp, fun c hc hcp t ht => resetFunction_held s p hc hcp ht, hlq, hnotes, resetFunction_boot s p⟩

theorem physicalReset {s : State} (hr : s.running = true) : ∃ s', exec (.functionLevelReset 8) s = .next s' ∧ sysBits s' RegNo.hatBase 0 0 0 = 0 ∧
    ∀ p, p < 8 → (s'.part p).notes = [] ∧ ∀ q, q < 64 → sysBits s' (RegNo.lq q) p 3 3 = 0 :=
  ⟨_, exec_functionLevelReset_physical hr, sysBits_clear_bit0 _ _ _, fun _ hp =>
    (resetFunctions_quit s hp _ (fun _ h => List.mem_range.1 h) (List.mem_range.2 hp)).hatBase hp⟩

end Sys2Proof.Machine

namespace Sys2Proof.Machine

/-! ### BAR2 (R139, R387) -/

section
variable {a : Bar2Acc} {s : State} (hf : functionUp s a.part = true)
include hf

theorem exec_bar2Read_unmapped (hm : bar2Map s a.part a.off.toNat = none) :
    exec (.bar2Read a) s = .next ((hlkErr s a.part 1 a.off.toNat).send (.completion (List.replicate a.size 0xFF))) := by
  change execBar2Read a s = _
  simp [execBar2Read, hf, hm]

theorem exec_bar2Write_unmapped (hm : bar2Map s a.part a.off.toNat = none) : exec (.bar2Write a) s = .next (hlkErr s a.part 1 a.off.toNat) := by
  change execBar2Write a s = _
  simp [execBar2Write, hf, hm]

variable {c va : Nat} (hm : bar2Map s a.part a.off.toNat = some (c, va))
include hm

theorem exec_bar2Read_ok (hn : (List.range a.size).any (fun i => inFlat (va + i)) = false) {s1 : State} {b : List Byte}
    (hr : readRange s c false va a.size = (.ok b, s1)) : exec (.bar2Read a) s = .next (s1.send (.completion b)) := by
  have hb : bar2Fetch s c va a.size = some (some b, s1) := by rw [bar2Fetch, if_neg (by rw [hn]; exact Bool.false_ne_true), hr]
  change execBar2Read a s = _
  simp [execBar2Read, hf, hm, hb]

theorem exec_bar2Read_flat (hn : (List.range a.size).any (fun i => inFlat (va + i)) = true) :
    exec (.bar2Read a) s = .next ((hlkErr s a.part 1 va).send (.completion (List.replicate a.size 0xFF))) := by
  have hb : bar2Fetch s c va a.size = some (none, s) := if_pos hn
  change execBar2Read a s = _
  simp [execBar2Read, hf, hm, hb]

theorem exec_bar2Write_flat (hn : (List.range a.data.length).any (fun i => inFlat (va + i)) = true) :
    exec (.bar2Write a) s = .next (hlkErr s a.part 1 va) := by
  change execBar2Write a s = _
  rw [execBar2Write, hf, hm]
  exact congrArg Host.Outcome.next (if_pos hn)

/-- What the host publishes with a posted write, and the state in which the write is made. -/
def bar2Pub (s : State) (va n : Nat) : Nat × State :=
  publish s .outside .sys (hostStores s ++ List.range' s.hist.next (spans va n).length) false

theorem exec_bar2Write_ok (hn : (List.range a.data.length).any (fun i => inFlat (va + i)) = false) {s2 : State}
    (hw : writeRange (bar2Pub s va a.data.length).2 c false (.agent [(bar2Pub s va a.data.length).1]) va a.data = (.ok (), s2)) :
    exec (.bar2Write a) s = .next (sweep s2) := by
  change execBar2Write a s = _
  rw [bar2Pub] at hw
  simp [execBar2Write, hf, hm, hn, hw]

theorem exec_bar2Write_fault (hn : (List.range a.data.length).any (fun i => inFlat (va + i)) = false) {s2 : State} {f e}
    (hw : writeRange (bar2Pub s va a.data.length).2 c false (.agent [(bar2Pub s va a.data.length).1]) va a.data = (.fault f e, s2)) :
    exec (.bar2Write a) s = .next (hlkErr s a.part 1 va) := by
  change execBar2Write a s = _
  rw [bar2Pub] at hw
  simp [execBar2Write, hf, hm, hn, hw]

end

/-! ### Device time (R391) -/

theorem sysBits_ptm_bit63 (s : State) (n k v : Nat) (x : Dword) :
    sysBits (sysPut s n k (putBits (putBits x 63 63 1) 47 16 v)) n k 63 63 = 1 := by
  rw [sysBits, sysGet_sysPut_same]
  have hx := x.isLt
  simp only [bits, putBits, BitVec.toNat_ofNat]
  omega

/-- What a slew under way has made so far, in units of 10 fs (R391). -/
def slewMade (s : State) : Int :=
  if s.pkg.nsSlew ≥ 0 then min (100000 * s.pkg.nsSlew) (8 * ((s.clk : Int) - s.pkg.nsFrom))
  else max (100000 * s.pkg.nsSlew) (-(8 * ((s.clk : Int) - s.pkg.nsFrom)))

/-- The corrections to device time after a dialogue that finds the host `off` ns ahead. -/
def timed (s : State) (off : Int) : State :=
  s.onPkg fun x =>
    { x with
      nsAdd := if off > 1000 then s.pkg.nsAdd - (-slewMade s) / 100000 + off else s.pkg.nsAdd - (-slewMade s) / 100000
      nsSlew := if off > 1000 then 0 else off
      nsFrom := s.clk }

/-- The difference as PTM holds it, within its 32 bits. -/
def ptmField (off : Int) : Nat := (max (-(2 ^ 31)) (min (2 ^ 31 - 1) off) % 2 ^ 32).toNat

theorem exec_ptmDialogue {s : State} (h : Dword) (hr : s.running = true) : exec (.ptmDialogue h) s = .next
    (sysPut (timed s (h.toNat - s.ns)) RegNo.ptm 0 (putBits (putBits (sysGet s RegNo.ptm 0) 63 63 1) 47 16 (ptmField (h.toNat - s.ns)))) := by
  change execPtmDialogue h s = _
  rw [execPtmDialogue, hr]
  rfl

theorem ns_eq (s : State) : s.ns = ((80000 * (s.clk : Int) + 100000 * s.pkg.nsAdd + slewMade s) / 100000).toNat := rfl

theorem slewMade_noSlew {s : State} (hs : s.pkg.nsSlew = 0) (hf : s.pkg.nsFrom ≤ s.clk) : slewMade s = 0 := by
  unfold slewMade
  split <;> omega

/-- A slew starts from nothing. -/
theorem slewMade_start {s : State} (hf : s.pkg.nsFrom = s.clk) : slewMade s = 0 := by
  unfold slewMade
  split <;> omega

section
variable {s : State} {off : Int} (hs : s.pkg.nsSlew = 0) (hf : s.pkg.nsFrom ≤ s.clk)
include hs hf

theorem timed_ns : (timed s off).ns =
    ((80000 * (s.clk : Int) + 100000 * (if off > 1000 then s.pkg.nsAdd + off else s.pkg.nsAdd)) / 100000).toNat := by
  rw [ns_eq, slewMade_start (s := timed s off) rfl, timed, slewMade_noSlew hs hf]
  simp

/-- A lead of the host of more than 1 µs is stepped. -/
theorem timed_step {h : Nat} (hp : (0 : Int) ≤ 80000 * s.clk + 100000 * s.pkg.nsAdd) (hh : s.ns + 1000 < h) :
    (timed s (h - s.ns)).ns = h ∧ (timed s (h - s.ns)).pkg.nsSlew = 0 := by
  have hgt : (h : Int) - s.ns > 1000 := by omega
  have hns := ns_eq s
  rw [slewMade_noSlew hs hf] at hns
  refine ⟨?_, if_pos hgt⟩
  rw [timed_ns hs hf, if_pos hgt]
  omega

/-- Any other correction is slewed in: device time stands at first. -/
theorem timed_slew {h : Nat} (hh : h ≤ s.ns + 1000) :
    (timed s (h - s.ns)).ns = s.ns ∧ (timed s (h - s.ns)).pkg.nsSlew = (h : Int) - s.ns := by
  have hle : ¬ (h : Int) - s.ns > 1000 := by omega
  refine ⟨?_, if_neg hle⟩
  rw [timed_ns hs hf, if_neg hle, ns_eq, slewMade_noSlew hs hf, add_zero]

end

theorem ptmDialogue {s : State} {h : Dword} (hr : s.running = true) (hs : s.pkg.nsSlew = 0) (hf : s.pkg.nsFrom ≤ s.clk)
    (hp : (0 : Int) ≤ 80000 * s.clk + 100000 * s.pkg.nsAdd) :
    ∃ s', exec (.ptmDialogue h) s = .next s' ∧ sysBits s' RegNo.ptm 0 63 63 = 1 ∧
      (s.ns + 1000 < h.toNat → s'.ns = h.toNat ∧ s'.pkg.nsSlew = 0) ∧
      (h.toNat ≤ s.ns + 1000 → s'.ns = s.ns ∧ s'.pkg.nsSlew = (h.toNat : Int) - s.ns) ∧ { s' with sys := s.sys, pkg := s.pkg } = s :=
  ⟨_, exec_ptmDialogue h hr, sysBits_ptm_bit63 _ _ _ _ _, timed_step hs hf hp, timed_slew hs hf, rfl⟩

/-! ### SPDM and MCTP (R392) -/

section
variable {code : Byte} {after : Bool} {m : List Byte} {s : State} (hp : s.pkg.pcie = true) (hc : m.getD 1 0 = code) (hl : 4 ≤ m.length)
include hp hc hl

/-- A request that is answered: nothing has to be negotiated first, or it has been. -/
theorem spdm_answered (ha : after = false ∨ s.pkg.algorithms = true) (f : State → State) : spdm code after m s f = .next (f s) := by
  have hrefused : (after && !s.pkg.algorithms) = false := by
    obtain h | h := ha
    · rw [h, Bool.false_and]
    · rw [h, Bool.not_true, Bool.and_false]
  have hshort : ¬ m.length < 4 := Nat.not_lt.2 hl
  simp only [spdm, hp, hc, hrefused, hshort, Bool.not_true, bne_self_eq_false, decide_false, Bool.or_self, Bool.false_eq_true, if_false]

/-- A request that needs negotiated algorithms, before they are. -/
theorem spdm_refused (ha : after = true) (hn : s.pkg.algorithms = false) (f : State → State) :
    spdm code after m s f = .next (s.send (.mctp [0x12, 0x7F, 0x04, 0])) := by
  have hshort : ¬ m.length < 4 := Nat.not_lt.2 hl
  simp only [spdm, hp, hc, ha, hn, hshort, Bool.not_true, Bool.not_false, bne_self_eq_false, decide_false, Bool.or_self, Bool.false_eq_true, if_false,
    Bool.and_self, if_true]
  rfl

end

/-- R392: a request is answered with `reply`, or refused where the algorithms it needs are not negotiated. -/
def SpdmAnswers (mk : List Byte → Instr) (code : Byte) (after : Bool) (reply : List Byte → State → State) : Prop :=
  ∀ m s, s.pkg.pcie = true → m.getD 1 0 = code → 4 ≤ m.length →
    (after = false ∨ s.pkg.algorithms = true → exec (mk m) s = .next (reply m s)) ∧
    (after = true → s.pkg.algorithms = false → exec (mk m) s = .next (s.send (.mctp [0x12, 0x7F, 0x04, 0])))

theorem spdmAnswers_of_spdm {mk : List Byte → Instr} {code : Byte} {after : Bool} {reply : List Byte → State → State}
    (h : ∀ m s, exec (mk m) s = spdm code after m s (reply m)) : SpdmAnswers mk code after reply := fun m s hp hc hl => by
  rw [h]
  exact ⟨fun ha => spdm_answered hp hc hl ha _, fun ha hn => spdm_refused hp hc hl ha hn _⟩

theorem answers_spdmGetVersion : SpdmAnswers .spdmGetVersion 0x84 false fun _ s =>
    (s.onPkg fun x => { x with algorithms := false }).send (.mctp [0x12, 0x04, 0, 0, 0, 1, 0, 0x12]) :=
  spdmAnswers_of_spdm fun _ _ => rfl

theorem answers_spdmGetCapabilities : SpdmAnswers .spdmGetCapabilities 0xE1 false fun m s => s.send (.mctp ([0x12, 0x61, 0, 0] ++ spdmOpen m 16)) :=
  spdmAnswers_of_spdm fun _ _ => rfl

theorem answers_spdmGetDigests : SpdmAnswers .spdmGetDigests 0x81 true fun _ s =>
    s.send (.mctp ([0x12, 0x01, 0, 1] ++ sha512 (Config.sealed 3 []))) :=
  spdmAnswers_of_spdm fun _ _ => rfl

/-- The part of the certificate chain that a request names. -/
def certPart (m : List Byte) : List Byte :=
  ((Config.sealed 3 []).drop (natOfBytes ((m.drop 4).take 2))).take (natOfBytes ((m.drop 6).take 2))

theorem answers_spdmGetCertificate : SpdmAnswers .spdmGetCertificate 0x82 true fun m s => s.send (.mctp ([0x12, 0x02, m.getD 2 0, 0] ++
    (bytesOfNat 2 (certPart m).length ++
      bytesOfNat 2 ((Config.sealed 3 []).length - natOfBytes ((m.drop 4).take 2) - (certPart m).length) ++ certPart m))) :=
  spdmAnswers_of_spdm fun _ _ => rfl

/-- What a request to negotiate leads to, where it offers both algorithms of the part and where it does not. -/
def negotiated (s : State) (ok : Bool) : State :=
  if ok then spdmReply (s.onPkg fun x => { x with algorithms := true }) 0x63 0 0
    ([0x24, 0, 0x01, 0] ++ bytesOfNat 4 4 ++ bytesOfNat 4 4 ++ bytesOfNat 4 4 ++ List.replicate 16 0)
  else spdmError s 0x07 0xE3

/-- The four blocks of a measurements reply (R401). -/
def measurementBlocks (s : State) : List Byte := (List.range 4).flatMap fun i =>
  [BitVec.ofNat 8 (i + 1), 1] ++ bytesOfNat 2 67 ++ [BitVec.ofNat 8 i] ++ bytesOfNat 2 64 ++ measure s i

section
variable {m : List Byte} {s : State} (hp : s.pkg.pcie = true) (hl : 4 ≤ m.length)
include hp hl

theorem exec_spdmNegotiateAlgorithms (hc : m.getD 1 0 = 0xE3) :
    let ok := (natOfBytes ((m.drop 8).take 4)).testBit 2 && (natOfBytes ((m.drop 12).take 4)).testBit 2
    ∃ s', exec (.spdmNegotiateAlgorithms m) s = .next s' ∧ s'.pkg.algorithms = (if ok then true else s.pkg.algorithms) ∧ s'.threads = s.threads ∧
      ∃ b, s'.pkg.sent = s.pkg.sent ++ [.mctp ([0x12, if ok then 0x63 else 0x7F] ++ b)] := by
  intro ok
  have he : exec (.spdmNegotiateAlgorithms m) s = .next (negotiated s ok) :=
    spdm_answered hp hc hl (.inl rfl) fun s => negotiated s ok
  refine ⟨_, he, ?_⟩
  cases ok
  · exact ⟨rfl, rfl, _, rfl⟩
  · exact ⟨rfl, rfl, _, rfl⟩

theorem exec_spdmChallenge (hc : m.getD 1 0 = 0x83) (ha : s.pkg.algorithms = true) : ∃ n g, exec (.spdmChallenge m) s = .next
    (s.send (.mctp ([0x12, 0x03, m.getD 2 0, 1] ++ (sha512 (Config.sealed 3 []) ++ n ++ sha512 ((List.range 4).flatMap (measure s)) ++ [0, 0] ++ g)))) := by
  refine ⟨spdmOpen m 32, fixedLen 512 (Config.sealed 5 (m ++ [0])), ?_⟩
  change execSpdmChallenge m s = _
  rw [execSpdmChallenge, spdm_answered hp hc hl (.inr ha)]
  rfl

theorem exec_spdmGetMeasurements (hc : m.getD 1 0 = 0xE0) (ha : s.pkg.algorithms = true) : ∃ s' h g, exec (.spdmGetMeasurements m) s = .next s' ∧
    s'.pkg.sent = s.pkg.sent ++ [.mctp ([0x12, 0x60, 4, 0] ++ h ++ ((List.range 4).flatMap fun i =>
      [BitVec.ofNat 8 (i + 1), 1] ++ bytesOfNat 2 67 ++ [BitVec.ofNat 8 i] ++ bytesOfNat 2 64 ++ measure s i) ++ g)] ∧ s'.threads = s.threads := by
  have he : exec (.spdmGetMeasurements m) s = .next (spdmReply s 0x60 4 0
      ([4] ++ bytesOfNat 3 (measurementBlocks s).length ++ measurementBlocks s ++ spdmOpen m 34)) := by
    change execSpdmGetMeasurements m s = _
    rw [execSpdmGetMeasurements, spdm_answered hp hc hl (.inr ha)]
    rfl
  refine ⟨_, [4] ++ bytesOfNat 3 (measurementBlocks s).length, spdmOpen m 34, he, ?_, rfl⟩
  change _ ++ [Msg.mctp (_ ++ (_ ++ measurementBlocks s ++ _))] = _ ++ [Msg.mctp (_ ++ _ ++ measurementBlocks s ++ _)]
  simp only [List.append_assoc]

end

theorem exec_mctpControlMessage (m : List Byte) {s : State} (hp : s.pkg.pcie = true) : ∃ b, exec (.mctpControlMessage m) s = .next (s.send (.mctp b)) :=
  ⟨_, congrArg Host.Outcome.next (if_pos hp)⟩

/-- Settles O49: each event of the host link by its own rule; a reset ends contexts one after another, each end keeping what those before it
ended, and the stopped queues, so. -/
theorem hostLink : Obligations.HostLink := by
  unfold Obligations.HostLink
  refine ⟨fun a s hf => ⟨fun hm => ⟨exec_bar2Read_unmapped hf hm, exec_bar2Write_unmapped hf hm⟩, fun c va hm => ⟨?_, ?_, ?_, fun hn => ⟨?_, ?_⟩⟩⟩,
    fun s p hr hu hp => functionReset hr hu hp, fun s hr => physicalReset hr, fun s h hr hs hf hp => ptmDialogue hr hs hf hp, ?_,
    fun m s hp => exec_mctpControlMessage m hp⟩
  · exact fun hn s1 b hr => exec_bar2Read_ok hf hm hn hr
  · exact exec_bar2Read_flat hf hm
  · exact exec_bar2Write_flat hf hm
  · exact fun s2 hw => exec_bar2Write_ok hf hm hn hw
  · exact fun s2 f e hw => exec_bar2Write_fault hf hm hn hw
  · refine ⟨?_, ?_, fun m s hp hc hl => exec_spdmNegotiateAlgorithms hp hl hc, ?_, ?_,
      fun m s hp hc hl ha => exec_spdmChallenge hp hl hc ha,
      fun m s hp hc hl ha => exec_spdmGetMeasurements hp hl hc ha⟩
    · exact answers_spdmGetVersion
    · exact answers_spdmGetCapabilities
    · exact answers_spdmGetDigests
    · exact answers_spdmGetCertificate

end Sys2Proof.Machine

/-! ### Instruction words and what they stand for (O57, O58) -/

namespace Sys2Proof

/-! #### Bits of a word -/

theorem extractLsb'_self {n s : Nat} {x : BitVec n} (h : s = 0) : x.extractLsb' s n = x := by
  rw [h, BitVec.extractLsb'_eq_self]

theorem extractLsb'_extractLsb' {w s n s' k : Nat} (x : BitVec w) (h : s' + k ≤ n) :
    (x.extractLsb' s n).extractLsb' s' k = x.extractLsb' (s + s') k := by
  refine BitVec.eq_of_getLsbD_eq fun i hi => ?_
  have hlt : s' + i < n := by omega
  simp only [BitVec.getLsbD_extractLsb', hi, hlt, decide_true, Bool.true_and, Nat.add_assoc]

theorem extractLsb'_append_low {n k : Nat} (x : BitVec (n + k)) : x.extractLsb' k n ++ x.extractLsb' 0 k = x := by
  rw [BitVec.extractLsb'_append_extractLsb'_eq_extractLsb' (by omega), BitVec.extractLsb'_eq_self]

/-- A word is the join of two parts just if it holds them at their places. -/
theorem eq_append_iff (n k : Nat) {x : BitVec (n + k)} {y : BitVec n} {z : BitVec k} :
    x = y ++ z ↔ x.extractLsb' k n = y ∧ x.extractLsb' 0 k = z := by
  constructor
  · rintro rfl
    exact ⟨(BitVec.extractLsb'_append_eq_of_le le_rfl).trans (extractLsb'_self (Nat.sub_self k)),
      (BitVec.extractLsb'_append_eq_of_add_le (Nat.zero_add k).le).trans BitVec.extractLsb'_eq_self⟩
  · rintro ⟨rfl, rfl⟩
    exact (extractLsb'_append_low x).symm

theorem bit_inj {a b : Bool} : bit a = bit b ↔ a = b := by cases a <;> cases b <;> decide

theorem bit_getLsbD {n : Nat} (x : BitVec n) (k : Nat) : bit (x.getLsbD k) = x.extractLsb' k 1 := by
  refine BitVec.eq_of_getLsbD_eq fun i hi => ?_
  obtain rfl : i = 0 := by omega
  cases h : x.getLsbD k <;> simp [bit, h]

theorem extractLsb'_one {n k : Nat} {x : BitVec n} {b : Bool} : x.extractLsb' k 1 = bit b ↔ x.getLsbD k = b := by
  rw [← bit_getLsbD, bit_inj]

@[simp] theorem bit_beq_one (x : BitVec 1) : bit (x == 1) = x := by revert x; decide
@[simp] theorem beq_one_bit (b : Bool) : (bit b == 1) = b := by cases b <;> rfl

/-- A field below the bits that must be 0. -/
theorem zero_append_iff (n k : Nat) {x : BitVec (n + k)} {z : BitVec k} :
    x = 0#n ++ z ↔ x.extractLsb' k n = 0#n ∧ x.extractLsb' 0 k = z := eq_append_iff n k

/-- One bit above the bits that must be 0. -/
theorem zero_append_bit_iff (n : Nat) {x : BitVec (n + 1)} {b : Bool} :
    x = 0#n ++ bit b ↔ x.extractLsb' 1 n = 0#n ∧ x.getLsbD 0 = b := (eq_append_iff n 1).trans (and_congr_right' extractLsb'_one)

/-- A flag and a field below the bits that must be 0. -/
theorem zero_append_bit_append_iff (n k : Nat) {x : BitVec (n + 1 + k)} {b : Bool} {z : BitVec k} :
    x = 0#n ++ bit b ++ z ↔ x.extractLsb' (k + 1) n = 0#n ∧ x.getLsbD k = b ∧ x.extractLsb' 0 k = z := by
  rw [eq_append_iff (n + 1) k, zero_append_bit_iff n, extractLsb'_extractLsb' x (by omega)]
  simp [and_assoc]

/-! #### Codes -/

theorem Ty.code_of_ofCode : ∀ c : BitVec 5, ∀ t ∈ Ty.ofCode c, t.code = c := by decide
@[simp] theorem Ty.ofCode_code (t : Ty) : Ty.ofCode t.code = some t := by cases t <;> rfl
@[simp] theorem DM.code_ofCode : ∀ c : BitVec 2, (DM.ofCode c).code = c := by decide
@[simp] theorem DM.ofCode_code (d : DM) : DM.ofCode d.code = d := by cases d <;> rfl
theorem RM.code_of_ofCode : ∀ c : BitVec 3, ∀ m ∈ RM.ofCode c, m.code = c := by decide
@[simp] theorem RM.ofCode_code (m : RM) : RM.ofCode m.code = some m := by cases m <;> rfl
theorem Cond.code_of_ofCode : ∀ x : BitVec 4, ∀ c ∈ Cond.ofCode x, c.code = x := by decide
@[simp] theorem Cond.ofCode_code (c : Cond) : Cond.ofCode c.code = some c := by cases c <;> rfl
theorem Edge.code_of_ofCode : ∀ x : BitVec 2, ∀ e ∈ Edge.ofCode x, e.code = x := by decide
@[simp] theorem Edge.ofCode_code (e : Edge) : Edge.ofCode e.code = some e := by cases e <;> rfl
theorem FoldOp.code_of_ofCode : ∀ x : BitVec 3, ∀ o ∈ FoldOp.ofCode x, o.code = x := by decide
@[simp] theorem FoldOp.ofCode_code (o : FoldOp) : FoldOp.ofCode o.code = some o := by cases o <;> rfl
theorem Special.code_of_ofCode : ∀ x : Byte, ∀ s ∈ Special.ofCode x, s.code = x := by decide
@[simp] theorem Special.ofCode_code (s : Special) : Special.ofCode s.code = some s := by
  cases s with
  | loftwin g => revert g; decide
  | _ => rfl
theorem HalfOp.code_of_ofCode : ∀ x : BitVec 6, ∀ o ∈ HalfOp.ofCode x, o.code = x := by decide
@[simp] theorem HalfOp.ofCode_code (o : HalfOp) : HalfOp.ofCode o.code = some o := by cases o <;> rfl
theorem LT.code_of_ofCode : ∀ x : BitVec 3, ∀ t ∈ LT.ofCode x, t.code = x := by decide
@[simp] theorem LT.ofCode_code (t : LT) : LT.ofCode t.code = some t := by cases t <;> rfl
theorem Scope.code_of_ofCode : ∀ x : BitVec 3, ∀ s ∈ Scope.ofCode x, s.code = x := by decide
@[simp] theorem Scope.ofCode_code (s : Scope) : Scope.ofCode s.code = some s := by cases s <;> rfl
@[simp] theorem Order.code_ofCode : ∀ x : BitVec 2, (Order.ofCode x).code = x := by decide
@[simp] theorem Order.ofCode_code (o : Order) : Order.ofCode o.code = o := by cases o <;> rfl
theorem AOp.code_of_ofCode : ∀ x : BitVec 4, ∀ o ∈ AOp.ofCode x, o.code = x := by decide
@[simp] theorem AOp.ofCode_code (o : AOp) : AOp.ofCode o.code = some o := by cases o <;> rfl
theorem AT.code_of_ofCode : ∀ x : BitVec 3, ∀ t ∈ AT.ofCode x, t.code = x := by decide
@[simp] theorem AT.ofCode_code (t : AT) : AT.ofCode t.code = some t := by cases t <;> rfl
theorem BarScope.code_of_ofCode : ∀ x : BitVec 2, ∀ s ∈ BarScope.ofCode x, s.code = x := by decide
@[simp] theorem BarScope.ofCode_code (s : BarScope) : BarScope.ofCode s.code = some s := by cases s <;> rfl
theorem MxSel.code_of_ofCode : ∀ x : BitVec 2, ∀ s ∈ MxSel.ofCode x, s.code = x := by decide
@[simp] theorem MxSel.ofCode_code (s : MxSel) : MxSel.ofCode s.code = some s := by cases s <;> rfl
theorem Res.code_of_ofCode : ∀ x : BitVec 2, ∀ s ∈ Res.ofCode x, s.code = x := by decide
@[simp] theorem Res.ofCode_code (s : Res) : Res.ofCode s.code = some s := by cases s <;> rfl
theorem DScope.code_of_ofCode : ∀ x : BitVec 2, ∀ s ∈ DScope.ofCode x, s.code = x := by decide
@[simp] theorem DScope.ofCode_code (s : DScope) : DScope.ofCode s.code = some s := by cases s <;> rfl
@[simp] theorem ty3Code_ty3OfCode : ∀ c : BitVec 3, ty3Code (ty3OfCode c) = c := by decide
theorem ty3OfCode_ty3Code {t : Ty} (h : t.isTy3 = true) : ty3OfCode (ty3Code t) = t := by
  cases t <;> (revert h; decide)

/-! #### Operands and their fields (R147, R148) -/

@[simp] theorem Reg.field_ofField : ∀ x : BitVec 8, (Reg.ofField x).field = x := by decide
@[simp] theorem Opnd.field_ofField : ∀ x : BitVec 8, (Opnd.ofField x).field = x := by decide
@[simp] theorem Opnd.kBit_ofField : ∀ x : BitVec 8, (Opnd.ofField x).kBit = 0 := by decide
@[simp] theorem Opnd.uix_ofField : ∀ x : BitVec 8, (Opnd.ofField x).uix = 0 := by decide

theorem vOk_lt {n : Nat} {x : BitVec 8} (h : vOk n x = true) : x.toNat < 248 := by
  simp only [vOk, Bool.and_eq_true, decide_eq_true_eq] at h
  exact h.1

theorem Reg.ofField_port : ∀ p : BitVec 3, Reg.ofField (31#5 ++ p) = .q p := by decide
theorem Opnd.ofField_port : ∀ p : BitVec 3, Opnd.ofField (31#5 ++ p) = .q p := by decide

theorem Reg.ofField_field {n : Nat} {d : Reg} (h : d.ok n = true) : Reg.ofField d.field = d := by
  cases d with
  | v x => exact if_pos (vOk_lt h)
  | q p => exact Reg.ofField_port p

theorem Reg.ofField_field_of_srcOk {d : Reg} (h : d.srcOk = true) : Reg.ofField d.field = d := by
  cases d with
  | v x => exact if_pos (vOk_lt h)
  | q p => exact Reg.ofField_port p

theorem Opnd.ofField_field {n : Nat} {o : Opnd} (hv : o.isVQ = true) (h : o.ok n = true) : Opnd.ofField o.field = o := by
  cases o with
  | v x => exact if_pos (vOk_lt h)
  | q p => exact Opnd.ofField_port p
  | k x => cases hv
  | imm x => cases hv

theorem predField_eq_some {x : BitVec 8} {p : BitVec 3} : predField x = some p ↔ x = 0#5 ++ p := by
  revert x p; decide

/-! #### F- and I-words as their fields (R146, R154) -/

theorem FRaw.ofWord_toWord (c : BitVec 2) (r : FRaw) : FRaw.ofWord (r.toWord c) = r := by
  simp (disch := decide) only [FRaw.ofWord, FRaw.toWord, BitVec.extractLsb'_append_eq_of_add_le,
    BitVec.extractLsb'_append_eq_of_le, extractLsb'_self]

theorem FRaw.toWord_ofWord (w : Dword) : FRaw.toWord (w.extractLsb' 62 2) (.ofWord w) = w := by
  simp (disch := decide) only [FRaw.ofWord, FRaw.toWord, BitVec.extractLsb'_append_extractLsb'_eq_extractLsb',
    extractLsb'_self]

theorem FRaw.class_toWord (c : BitVec 2) (r : FRaw) : (r.toWord c).extractLsb' 62 2 = c := by
  simp (disch := decide) only [FRaw.toWord, BitVec.extractLsb'_append_eq_of_le, extractLsb'_self]

theorem FRaw.toWord_inj {c : BitVec 2} {r r' : FRaw} (h : r.toWord c = r'.toWord c) : r = r' := by
  rw [← FRaw.ofWord_toWord c r, h, FRaw.ofWord_toWord]

/-- MOD is UIX and FN. -/
theorem FRaw.m_eq {r : FRaw} {u : BitVec 2} {f : BitVec 9} : r.m = u ++ f ↔ r.uix = u ∧ r.fn = f := eq_append_iff 2 9

theorem FRaw.uixOk_iff {r : FRaw} : r.uixOk = true ↔ r.isK = true ∨ r.uix = 0 := by
  simp [FRaw.uixOk]

theorem FRaw.kb_eq {r : FRaw} : r.kb = if r.isK then 1 else 0 := by
  unfold FRaw.isK
  generalize r.kb = x
  revert x
  decide

theorem kField_eq {k : BitVec 10} {u : BitVec 2} {x : BitVec 8} :
    k = u ++ x ↔ k.extractLsb' 8 2 = u ∧ k.extractLsb' 0 8 = x := eq_append_iff 2 8

/-- The class of a two-source word's form. -/
def formClass (imm : Bool) : BitVec 2 := if imm then 2 else 0

/-- An F-word's fields: a raw A, and b read from B or a uniform. -/
structure ReadsF (r : FRaw) (g : Guard) (dm : BitVec 2) (d a : BitVec 8) (b : Opnd) (c : BitVec 8) (ty : BitVec 4)
    (m : BitVec 9) : Prop where
  guard : r.guard = g
  dm : r.dm = dm
  d : r.d = d
  a : r.a = a
  b : r.srcB false = b
  c : r.c = c
  uix : r.uixOk = true
  ty : r.ty = ty
  fn : r.fn = m

/-- A one-source F-word's fields (R175). -/
structure ReadsF1 (r : FRaw) (g : Guard) (dm : BitVec 2) (d : BitVec 8) (a : Opnd) (c : BitVec 8) (ty : BitVec 4)
    (m : BitVec 9) : Prop where
  guard : r.guard = g
  dm : r.dm = dm
  d : r.d = d
  a : r.src1 = a
  one : r.one = true
  c : r.c = c
  ty : r.ty = ty
  fn : r.fn = m

/-- The fields of a two-source word in its F- or I-form (R154). -/
structure ReadsFI (imm : Bool) (r : FRaw) (g : Guard) (dm : BitVec 2) (d : BitVec 8) (a b : Opnd) (ty : BitVec 4)
    (m : BitVec 9) : Prop where
  guard : r.guard = g
  dm : r.dm = dm
  d : r.d = d
  a : r.srcA imm = a
  b : r.srcB imm = b
  c : r.c0 imm = true
  uix : r.uixOk = true
  ty : r.ty = ty
  fn : r.fn = m

theorem FRaw.guard_eq {r : FRaw} {g : Guard} : r.guard = g ↔ r.gn = bit g.neg ∧ r.gp = g.p := by
  obtain ⟨n, p⟩ := g
  simp only [FRaw.guard, Guard.mk.injEq]
  refine and_congr_left' ⟨?_, ?_⟩
  · rintro rfl
    exact (bit_beq_one _).symm
  · intro h
    rw [h, beq_one_bit]

section
variable {r : FRaw} {op : BitVec 8} {g : Guard} {dm : BitVec 2} {d a' c : BitVec 8} {a b : Opnd} {ty : BitVec 4} {m : BitVec 9}
  {imm : Bool} {n k : Nat}

/-- The fields that name a source read from X, or from a uniform. -/
theorem FRaw.src_fields {o : Opnd} {x : BitVec 8} (hu : r.uixOk = true)
    (h : (if r.isK then .k (r.uix ++ x) else Opnd.ofField x) = o) : o.field = x ∧ o.kBit = r.kb ∧ o.uix = r.uix := by
  rw [FRaw.kb_eq]
  rw [FRaw.uixOk_iff] at hu
  subst h
  split
  next hk =>
    exact ⟨((eq_append_iff 2 8).1 rfl).2, rfl, ((eq_append_iff 2 8).1 rfl).1⟩
  next hk =>
    exact ⟨Opnd.field_ofField x, Opnd.kBit_ofField x, (Opnd.uix_ofField x).trans (hu.resolve_left hk).symm⟩

/-- What a source's fields are read as. -/
theorem FRaw.src_of_fields {o : Opnd} (hk : r.kb = o.kBit) (hx : r.uix = o.uix) (ho : o.isImm = false) (h : o.ok n = true) :
    (if r.isK then .k (r.uix ++ o.field) else Opnd.ofField o.field) = o ∧ r.uixOk = true := by
  rw [FRaw.uixOk_iff, FRaw.isK, hk, hx]
  cases o with
  | v x => exact ⟨if_pos (vOk_lt h), .inr rfl⟩
  | q p => exact ⟨Opnd.ofField_port p, .inr rfl⟩
  | k x => exact ⟨congrArg Opnd.k (extractLsb'_append_low (n := 2) (k := 8) x), .inl rfl⟩
  | imm x => cases ho

theorem ReadsF.encF (hop : r.op = op) (ha : a.field = a') (h : ReadsF r g dm d a' b c ty m) :
    encF op g dm d a b c ty m = r.toWord 0 := by
  obtain ⟨hgn, hgp⟩ := FRaw.guard_eq.1 h.guard
  obtain ⟨hb, hk, hx⟩ := FRaw.src_fields h.uix h.b
  have hm := FRaw.m_eq.2 ⟨hx.symm, h.fn⟩
  simp only [Sys2Proof.encF, ← hop, ← hgn, ← hgp, ← h.dm, ← h.d, ha, ← h.a, hb, ← h.c, ← h.ty, hk, ← hm]

theorem FRaw.guard_mk {g : Guard} (h : r.gn = bit g.neg) (h' : r.gp = g.p) : r.guard = g := FRaw.guard_eq.2 ⟨h, h'⟩

theorem readsF_of_encF (hi : b.isImm = false) (hb : b.ok n = true) (h : encF op g dm d a b c ty m = r.toWord 0) :
    ReadsF r g dm d a.field b c ty m := by
  have hr := FRaw.toWord_inj h
  obtain ⟨hx, hm⟩ := FRaw.m_eq.1 (congrArg FRaw.m hr).symm
  obtain ⟨hs, hu⟩ := FRaw.src_of_fields (congrArg FRaw.kb hr).symm hx hi hb
  subst hr
  exact ⟨FRaw.guard_mk rfl rfl, rfl, rfl, rfl, hs, rfl, hu, rfl, hm⟩

theorem FRaw.one_iff : r.one = true ↔ r.uixOk = true ∧ if r.isK then r.a = 0 else r.b = 0 := by
  unfold FRaw.one
  split <;> simp_all

theorem encF1_uniform (x : BitVec 10) : encF1 op g dm d (.k x) c ty m = encF op g dm d (.v 0) (.k x) c ty m := rfl

theorem encF1_register (hv : a.isVQ = true) : encF1 op g dm d a c ty m = encF op g dm d a (.v 0) c ty m := by
  cases a with
  | v x => rfl
  | q p => rfl
  | _ => cases hv

theorem Opnd.isVQ_ofField : ∀ x : BitVec 8, (Opnd.ofField x).isVQ = true := by decide

theorem ReadsF1.encF1 (hop : r.op = op) (h : ReadsF1 r g dm d a c ty m) : encF1 op g dm d a c ty m = r.toWord 0 := by
  obtain ⟨hu, hz⟩ := FRaw.one_iff.1 h.one
  have hs := h.a
  unfold FRaw.src1 at hs
  split at hs
  next hk =>
    rw [if_pos hk] at hz
    rw [← hs, encF1_uniform]
    exact ReadsF.encF hop rfl ⟨h.guard, h.dm, h.d, hz, if_pos hk, h.c, hu, h.ty, h.fn⟩
  next hk =>
    rw [if_neg hk] at hz
    rw [← hs, encF1_register (Opnd.isVQ_ofField _)]
    exact ReadsF.encF hop (Opnd.field_ofField _)
      ⟨h.guard, h.dm, h.d, rfl, (if_neg hk).trans (congrArg Opnd.ofField hz), h.c, hu, h.ty, h.fn⟩

theorem readsF1_of_encF1 (hi : a.isImm = false) (ha : a.ok n = true) (h : encF1 op g dm d a c ty m = r.toWord 0) :
    ReadsF1 r g dm d a c ty m := by
  by_cases hv : a.isVQ = true
  · rw [encF1_register hv] at h
    have hr := readsF_of_encF (b := .v 0) (n := 1) rfl rfl h
    obtain rfl := FRaw.toWord_inj h
    exact ⟨hr.guard, rfl, rfl, Opnd.ofField_field hv ha, FRaw.one_iff.2 ⟨hr.uix, rfl⟩, rfl, rfl, hr.fn⟩
  · cases a with
    | k x =>
      rw [encF1_uniform] at h
      have hr := readsF_of_encF (b := .k x) (n := 1) rfl rfl h
      obtain rfl := FRaw.toWord_inj h
      exact ⟨hr.guard, rfl, rfl, hr.b, FRaw.one_iff.2 ⟨hr.uix, rfl⟩, rfl, rfl, hr.fn⟩
    | v x => exact absurd rfl hv
    | q p => exact absurd rfl hv
    | imm x => cases hi

theorem ReadsFI.encFI (hop : r.op = op) (h : ReadsFI imm r g dm d a b ty m) :
    encFI imm op g dm d a b ty m = r.toWord (formClass imm) := by
  cases imm with
  | false =>
    have hc : r.c = 0 := by simpa [FRaw.c0] using h.c
    have ha : a.field = r.a := by rw [← h.a]; exact Opnd.field_ofField _
    exact ReadsF.encF hop ha ⟨h.guard, h.dm, h.d, rfl, h.b, hc, h.uix, h.ty, h.fn⟩
  | true =>
    obtain ⟨hgn, hgp⟩ := FRaw.guard_eq.1 h.guard
    obtain ⟨ha, hk, hx⟩ := FRaw.src_fields h.uix h.a
    have hm := FRaw.m_eq.2 ⟨hx.symm, h.fn⟩
    obtain ⟨hhi, hlo⟩ := (eq_append_iff 8 8).1 (congrArg Opnd.immVal h.b).symm
    simp only [Sys2Proof.encFI, encI, if_true, formClass, ← hop, ← hgn, ← hgp, ← h.dm, ← h.d, ha, hhi, hlo, ← h.ty, hk, ← hm]

theorem readsFI_of_encFI (hf : formOk imm a b = true) (ha : a.ok n = true) (hb : b.ok k = true)
    (h : encFI imm op g dm d a b ty m = r.toWord (formClass imm)) : ReadsFI imm r g dm d a b ty m := by
  cases imm with
  | false =>
    obtain ⟨hi, hv⟩ : b.isImm = false ∧ a.isVQ = true := by simpa [formOk] using hf
    have hr := readsF_of_encF hi hb h
    obtain rfl := FRaw.toWord_inj h
    exact ⟨hr.guard, rfl, rfl, Opnd.ofField_field hv ha, hr.b, rfl, hr.uix, rfl, hr.fn⟩
  | true =>
    obtain ⟨hi, ha'⟩ : b.isImm = true ∧ a.isImm = false := by simpa [formOk] using hf
    have hr := FRaw.toWord_inj h
    obtain ⟨hx, hm⟩ := FRaw.m_eq.1 (congrArg FRaw.m hr).symm
    obtain ⟨hs, hu⟩ := FRaw.src_of_fields (congrArg FRaw.kb hr).symm hx ha' ha
    subst hr
    refine ⟨FRaw.guard_mk rfl rfl, rfl, rfl, hs, ?_, rfl, hu, rfl, hm⟩
    cases b with
    | imm x => exact congrArg Opnd.imm (extractLsb'_append_low (n := 8) (k := 8) x)
    | _ => cases hi

end

/-! #### The parts of a decoder -/

section
variable {β : Type} {b : Bool} {e : Reject} {x : β} {k : Except Reject β}

theorem zero_eq_ok : zero b k = .ok x ↔ b = true ∧ k = .ok x := by
  cases b <;> simp [zero]

theorem need_eq_ok {α : Type} {o : Option α} {k : α → Except Reject β} : need o k = .ok x ↔ ∃ y, o = some y ∧ k y = .ok x := by
  cases o <;> simp [need]

theorem ite_error_eq_ok {p : Prop} [Decidable p] : (if p then k else .error e) = .ok x ↔ p ∧ k = .ok x := by
  split <;> simp_all

end

/-- The word of an instruction that a thread runs. -/
def WordOf (i : Instr) (w : Dword) : Prop := encode? i = some w ∧ i.isLogit = false

theorem WordOf.of_eq {i : Instr} {w w' : Dword} (h : WordOf i w) (hw : w = w') : WordOf i w' := hw ▸ h

theorem Ty.ofCode_eq_some {c : BitVec 5} {t : Ty} : Ty.ofCode c = some t ↔ t.code = c :=
  ⟨Ty.code_of_ofCode c t, fun h => h ▸ Ty.ofCode_code t⟩

section
variable {r : FRaw} {op : BitVec 8} {imm : Bool} {t : Ty} {i : Instr}

theorem FRaw.ofCode_fnTy : Ty.ofCode r.fnTy = some t ↔ t.tx = 0 ∧ t.ty4 = r.ty :=
  Ty.ofCode_eq_some.trans (eq_append_iff 1 4)

theorem FRaw.ofCode_flTy : Ty.ofCode r.flTy = some t ↔ t.tx = r.m.extractLsb' 0 1 ∧ t.ty4 = r.ty :=
  Ty.ofCode_eq_some.trans (eq_append_iff 1 4)

theorem Opnd.of_groupOk {n : Nat} {o : Opnd} (h : o.groupOk n = true) : o.isImm = false ∧ o.ok n = true := by
  cases o with
  | v x => exact ⟨rfl, h⟩
  | k x => exact ⟨rfl, rfl⟩
  | _ => cases h

theorem of_formOk {a b : Opnd} (h : formOk false a b = true) : b.isImm = false ∧ a.isVQ = true := by
  simpa [formOk] using h

theorem Ty.tx_of_isInt {t : Ty} (h : t.isInt = true) : t.tx = 0 := by cases t <;> (revert h; decide)

/-- TY where only u32 and i32 are admitted. -/
theorem sgnTy_iff {x : BitVec 4} {b : Bool} : x = 0#3 ++ bit b ↔ (x = 0 ∨ x = 1) ∧ (x == 1) = b := by
  revert x b; decide

/-! #### Integer words (R178..R184) -/

theorem wordOf_decInt2 {mk : Int2Args → Instr} (hop : r.op = op) (he : ∀ a, WordOf (mk a) (a.enc imm op))
    (h : decInt2 r imm mk = .ok i) : WordOf i (r.toWord (formClass imm)) := by
  simp only [decInt2, zero_eq_ok, need_eq_ok, Bool.and_eq_true, beq_iff_eq, Except.ok.injEq] at h
  obtain ⟨⟨⟨⟨hdm, hu⟩, hc⟩, hf⟩, t, ht, rfl⟩ := h
  exact (he _).of_eq (ReadsFI.encFI hop ⟨rfl, hdm, (Reg.field_ofField _).symm, rfl, rfl, hc, hu,
    (FRaw.ofCode_fnTy.1 ht).2.symm, (zero_append_bit_iff 8).2 ⟨hf, rfl⟩⟩)

theorem decInt2_enc {mk : Int2Args → Instr} {a : Int2Args} {sat : Bool} {tys : Ty → Bool} (htys : ∀ t, tys t = true → t.tx = 0)
    (hw : a.wf imm sat tys = true) (he : a.enc imm op = r.toWord (formClass imm)) : decInt2 r imm mk = .ok (mk a) := by
  simp only [Int2Args.wf, Bool.and_eq_true] at hw
  obtain ⟨⟨⟨⟨⟨⟨hty, -⟩, hform⟩, ha⟩, hb⟩, hd⟩, -⟩ := hw
  have h := readsFI_of_encFI hform ha hb he
  obtain ⟨hf, hs⟩ := (zero_append_bit_iff 8).1 h.fn
  simp only [decInt2, zero_eq_ok, need_eq_ok, Bool.and_eq_true, beq_iff_eq, Except.ok.injEq]
  exact ⟨⟨⟨⟨h.dm, h.uix⟩, h.c⟩, hf⟩, a.ty, FRaw.ofCode_fnTy.2 ⟨htys _ hty, h.ty.symm⟩,
    by rw [h.guard, hs, h.d, Reg.ofField_field hd, h.a, h.b]⟩

theorem wordOf_decInt1 {mk : Int1Args → Instr} (hop : r.op = op) (he : ∀ a, WordOf (mk a) (a.enc op))
    (h : decInt1 r mk = .ok i) : WordOf i (r.toWord 0) := by
  simp only [decInt1, zero_eq_ok, need_eq_ok, Bool.and_eq_true, beq_iff_eq, Except.ok.injEq] at h
  obtain ⟨⟨⟨⟨hdm, hone⟩, hc⟩, hf⟩, t, ht, rfl⟩ := h
  exact (he _).of_eq (ReadsF1.encF1 hop ⟨rfl, hdm, (Reg.field_ofField _).symm, rfl, hone, hc, (FRaw.ofCode_fnTy.1 ht).2.symm,
    (zero_append_bit_iff 8).2 ⟨hf, rfl⟩⟩)

theorem decInt1_enc {mk : Int1Args → Instr} {a : Int1Args} (hw : a.wf = true) (he : a.enc op = r.toWord 0) :
    decInt1 r mk = .ok (mk a) := by
  simp only [Int1Args.wf, Bool.and_eq_true, Bool.not_eq_true', Bool.or_eq_true, beq_iff_eq] at hw
  obtain ⟨⟨⟨hty, hi⟩, ha⟩, hd⟩ := hw
  have htx : a.ty.tx = 0 := by rcases hty with (h | h) | h <;> rw [h] <;> rfl
  have h := readsF1_of_encF1 hi ha he
  obtain ⟨hf, hs⟩ := (zero_append_bit_iff 8).1 h.fn
  simp only [decInt1, zero_eq_ok, need_eq_ok, Bool.and_eq_true, beq_iff_eq, Except.ok.injEq]
  exact ⟨⟨⟨⟨h.dm, h.one⟩, h.c⟩, hf⟩, a.ty, FRaw.ofCode_fnTy.2 ⟨htx, h.ty.symm⟩,
    by rw [h.guard, hs, h.d, Reg.ofField_field hd, h.a]⟩

theorem FRaw.srcA_false {a : Opnd} {n : Nat} (h : r.a = a.field) (hv : a.isVQ = true) (ha : a.ok n = true) : r.srcA false = a :=
  (congrArg Opnd.ofField h).trans (Opnd.ofField_field hv ha)

theorem wordOf_decInt3 {mk : IntArgs → Instr} (hop : r.op = op) (he : ∀ a, WordOf (mk a) (a.enc op))
    (h : decInt3 r mk = .ok i) : WordOf i (r.toWord 0) := by
  simp only [decInt3, zero_eq_ok, need_eq_ok, Bool.and_eq_true, beq_iff_eq, Except.ok.injEq] at h
  obtain ⟨⟨⟨hdm, hu⟩, hf⟩, t, ht, rfl⟩ := h
  exact (he _).of_eq (ReadsF.encF hop (Opnd.field_ofField _) ⟨rfl, hdm, (Reg.field_ofField _).symm, rfl, rfl,
    (Opnd.field_ofField _).symm, hu, (FRaw.ofCode_fnTy.1 ht).2.symm, (zero_append_bit_iff 8).2 ⟨hf, rfl⟩⟩)

theorem decInt3_enc {mk : IntArgs → Instr} {a : IntArgs} (hw : a.wf = true) (he : a.enc op = r.toWord 0) :
    decInt3 r mk = .ok (mk a) := by
  simp only [IntArgs.wf, Bool.and_eq_true, Bool.not_eq_true'] at hw
  obtain ⟨⟨⟨⟨⟨⟨⟨⟨hty, hav⟩, hbi⟩, hcv⟩, ha⟩, hb⟩, hc⟩, hd⟩, -⟩ := hw
  have h := readsF_of_encF hbi hb he
  obtain ⟨hf, hs⟩ := (zero_append_bit_iff 8).1 h.fn
  simp only [decInt3, zero_eq_ok, need_eq_ok, Bool.and_eq_true, beq_iff_eq, Except.ok.injEq]
  exact ⟨⟨⟨h.dm, h.uix⟩, hf⟩, a.ty, FRaw.ofCode_fnTy.2 ⟨Ty.tx_of_isInt hty, h.ty.symm⟩,
    by rw [h.guard, hs, h.d, Reg.ofField_field hd, FRaw.srcA_false h.a hav ha, h.b, h.c, Opnd.ofField_field hcv hc]⟩

theorem wordOf_decShladd (hop : r.op = 0x06) (h : decShladd r = .ok i) : WordOf i (r.toWord 0) := by
  simp only [decShladd, zero_eq_ok, need_eq_ok, Bool.and_eq_true, beq_iff_eq, Except.ok.injEq] at h
  obtain ⟨⟨⟨⟨hdm, hu⟩, hc⟩, hf⟩, t, ht, rfl⟩ := h
  exact WordOf.of_eq ⟨rfl, rfl⟩ (ReadsF.encF hop (Opnd.field_ofField _) ⟨rfl, hdm, (Reg.field_ofField _).symm, rfl, rfl,
    hc, hu, (FRaw.ofCode_fnTy.1 ht).2.symm, (zero_append_bit_append_iff 3 5).2 ⟨hf, rfl, rfl⟩⟩)

theorem decShladd_enc {a : ShladdArgs} (hw : a.wf = true) (he : a.enc = r.toWord 0) : decShladd r = .ok (.shladd a) := by
  simp only [ShladdArgs.wf, Bool.and_eq_true] at hw
  obtain ⟨⟨⟨hform, ha⟩, -⟩, hw⟩ := hw
  obtain ⟨hbi, hav⟩ := of_formOk hform
  obtain ⟨n, htx, hb, hd⟩ : ∃ n, a.ty.tx = 0 ∧ a.b.ok n = true ∧ a.d.ok n = true := by
    split at hw <;> simp only [Bool.and_eq_true, Bool.or_eq_true, beq_iff_eq] at hw
    · exact ⟨2, by rcases hw.1.1 with h | h <;> rw [h] <;> rfl, (Opnd.of_groupOk hw.1.2).2, hw.2⟩
    · exact ⟨1, by rcases hw.1.1 with (h | h) | h <;> rw [h] <;> rfl, hw.1.2, hw.2⟩
  have h := readsF_of_encF hbi hb he
  obtain ⟨hf, hx, hs⟩ := (zero_append_bit_append_iff 3 5).1 h.fn
  simp only [decShladd, zero_eq_ok, need_eq_ok, Bool.and_eq_true, beq_iff_eq, Except.ok.injEq]
  exact ⟨⟨⟨⟨h.dm, h.uix⟩, h.c⟩, hf⟩, a.ty, FRaw.ofCode_fnTy.2 ⟨htx, h.ty.symm⟩,
    by rw [h.guard, hx, hs, h.d, Reg.ofField_field hd, FRaw.srcA_false h.a hav ha, h.b]⟩

theorem wordOf_decLog2 {mk : Log2Args → Instr} (hop : r.op = op) (he : ∀ a, WordOf (mk a) (a.enc imm op))
    (h : decLog2 r imm mk = .ok i) : WordOf i (r.toWord (formClass imm)) := by
  simp only [decLog2, zero_eq_ok, ite_error_eq_ok, Bool.and_eq_true, beq_iff_eq, Except.ok.injEq] at h
  obtain ⟨⟨⟨⟨hdm, hu⟩, hc⟩, hf⟩, ht, rfl⟩ := h
  exact (he _).of_eq (ReadsFI.encFI hop ⟨rfl, hdm, (Reg.field_ofField _).symm, rfl, rfl, hc, hu, ht, hf⟩)

theorem decLog2_enc {mk : Log2Args → Instr} {a : Log2Args} (hw : a.wf imm = true) (he : a.enc imm op = r.toWord (formClass imm)) :
    decLog2 r imm mk = .ok (mk a) := by
  simp only [Log2Args.wf, Bool.and_eq_true] at hw
  obtain ⟨⟨⟨⟨hform, ha⟩, hb⟩, hd⟩, -⟩ := hw
  have h := readsFI_of_encFI hform ha hb he
  simp only [decLog2, zero_eq_ok, ite_error_eq_ok, Bool.and_eq_true, beq_iff_eq, Except.ok.injEq]
  exact ⟨⟨⟨⟨h.dm, h.uix⟩, h.c⟩, h.fn⟩, h.ty, by rw [h.guard, h.d, Reg.ofField_field hd, h.a, h.b]⟩

theorem wordOf_decLog1 {mk : Log1Args → Instr} (hop : r.op = op) (he : ∀ a, WordOf (mk a) (a.enc op))
    (h : decLog1 r mk = .ok i) : WordOf i (r.toWord 0) := by
  simp only [decLog1, zero_eq_ok, ite_error_eq_ok, Bool.and_eq_true, beq_iff_eq, Except.ok.injEq] at h
  obtain ⟨⟨⟨⟨hdm, hone⟩, hc⟩, hf⟩, ht, rfl⟩ := h
  exact (he _).of_eq (ReadsF1.encF1 hop ⟨rfl, hdm, (Reg.field_ofField _).symm, rfl, hone, hc, ht, hf⟩)

theorem decLog1_enc {mk : Log1Args → Instr} {a : Log1Args} (hw : a.wf = true) (he : a.enc op = r.toWord 0) :
    decLog1 r mk = .ok (mk a) := by
  simp only [Log1Args.wf, Bool.and_eq_true, Bool.not_eq_true'] at hw
  obtain ⟨⟨hi, ha⟩, hd⟩ := hw
  have h := readsF1_of_encF1 hi ha he
  simp only [decLog1, zero_eq_ok, ite_error_eq_ok, Bool.and_eq_true, beq_iff_eq, Except.ok.injEq]
  exact ⟨⟨⟨⟨h.dm, h.one⟩, h.c⟩, h.fn⟩, h.ty, by rw [h.guard, h.d, Reg.ofField_field hd, h.a]⟩

theorem wordOf_decLog3 {mk : Log3Args → Instr} (hop : r.op = op) (he : ∀ a, WordOf (mk a) (a.enc op))
    (h : decLog3 r mk = .ok i) : WordOf i (r.toWord 0) := by
  simp only [decLog3, zero_eq_ok, ite_error_eq_ok, Bool.and_eq_true, beq_iff_eq, Except.ok.injEq] at h
  obtain ⟨⟨⟨hdm, hu⟩, hf⟩, ht, rfl⟩ := h
  exact (he _).of_eq (ReadsF.encF hop (Opnd.field_ofField _) ⟨rfl, hdm, (Reg.field_ofField _).symm, rfl, rfl,
    (Opnd.field_ofField _).symm, hu, ht, (zero_append_iff 1 8).2 ⟨hf, rfl⟩⟩)

theorem decLog3_enc {mk : Log3Args → Instr} {a : Log3Args} {tab : Bool} (hw : a.wf tab = true) (he : a.enc op = r.toWord 0) :
    decLog3 r mk = .ok (mk a) := by
  simp only [Log3Args.wf, Bool.and_eq_true, Bool.not_eq_true'] at hw
  obtain ⟨⟨⟨⟨⟨⟨⟨⟨-, hav⟩, hbi⟩, hcv⟩, ha⟩, hb⟩, hc⟩, hd⟩, -⟩ := hw
  have h := readsF_of_encF hbi hb he
  obtain ⟨hf, hs⟩ := (zero_append_iff 1 8).1 h.fn
  simp only [decLog3, zero_eq_ok, ite_error_eq_ok, Bool.and_eq_true, beq_iff_eq, Except.ok.injEq]
  exact ⟨⟨⟨h.dm, h.uix⟩, hf⟩, h.ty,
    by rw [h.guard, hs, h.d, Reg.ofField_field hd, FRaw.srcA_false h.a hav ha, h.b, h.c, Opnd.ofField_field hcv hc]⟩

/-- bfi has no table, so its FN is 0. -/
theorem decBfi_enc {a : Log3Args} (hw : a.wf false = true) (he : a.enc op = r.toWord 0) :
    zero (r.fn == 0) (decLog3 r .bfi) = .ok (.bfi a) := by
  refine zero_eq_ok.2 ⟨?_, decLog3_enc hw he⟩
  simp only [Log3Args.wf, Bool.and_eq_true, Bool.not_eq_true', Bool.or_eq_true, beq_iff_eq] at hw
  obtain ⟨⟨⟨⟨⟨⟨⟨⟨htab, -⟩, hbi⟩, -⟩, -⟩, hb⟩, -⟩, -⟩, -⟩ := hw
  rw [(readsF_of_encF hbi hb he).fn, htab.resolve_left Bool.false_ne_true]
  rfl

theorem wordOf_decBfe (hop : r.op = 0x1A) (h : decBfe r = .ok i) : WordOf i (r.toWord 0) := by
  simp only [decBfe, zero_eq_ok, ite_error_eq_ok, Bool.and_eq_true, Bool.or_eq_true, beq_iff_eq, Except.ok.injEq] at h
  obtain ⟨⟨⟨⟨hdm, hu⟩, hc⟩, hf⟩, ht, rfl⟩ := h
  exact WordOf.of_eq ⟨rfl, rfl⟩ (ReadsF.encF hop (Opnd.field_ofField _) ⟨rfl, hdm, (Reg.field_ofField _).symm, rfl, rfl,
    hc, hu, sgnTy_iff.2 ⟨ht, rfl⟩, hf⟩)

theorem decBfe_enc {a : BfeArgs} (hw : a.wf = true) (he : a.enc = r.toWord 0) : decBfe r = .ok (.bfe a) := by
  simp only [BfeArgs.wf, Bool.and_eq_true] at hw
  obtain ⟨⟨⟨⟨hform, ha⟩, hb⟩, hd⟩, -⟩ := hw
  obtain ⟨hbi, hav⟩ := of_formOk hform
  have h := readsF_of_encF hbi hb he
  obtain ⟨ht, hs⟩ := sgnTy_iff.1 h.ty
  simp only [decBfe, zero_eq_ok, ite_error_eq_ok, Bool.and_eq_true, Bool.or_eq_true, beq_iff_eq, Except.ok.injEq]
  exact ⟨⟨⟨⟨h.dm, h.uix⟩, h.c⟩, h.fn⟩, ht,
    by rw [h.guard, hs, h.d, Reg.ofField_field hd, FRaw.srcA_false h.a hav ha, h.b]⟩

theorem wordOf_decSetp {mk : SetpArgs → Instr} (hop : r.op = 0x1C) (he : ∀ a, WordOf (mk a) (a.enc imm))
    (h : decSetp r imm mk = .ok i) : WordOf i (r.toWord (formClass imm)) := by
  simp only [decSetp, zero_eq_ok, need_eq_ok, Bool.and_eq_true, beq_iff_eq, Except.ok.injEq] at h
  obtain ⟨⟨⟨⟨hdm, hu⟩, hc⟩, hf⟩, t, ht, c, hcond, p, hp, rfl⟩ := h
  exact (he _).of_eq (ReadsFI.encFI hop ⟨rfl, hdm, predField_eq_some.1 hp, rfl, rfl, hc, hu, (FRaw.ofCode_fnTy.1 ht).2.symm,
    (zero_append_iff 5 4).2 ⟨hf, (Cond.code_of_ofCode _ _ hcond).symm⟩⟩)

theorem decSetp_enc {mk : SetpArgs → Instr} {a : SetpArgs} (hw : a.wf imm = true) (he : a.enc imm = r.toWord (formClass imm)) :
    decSetp r imm mk = .ok (mk a) := by
  simp only [SetpArgs.wf, Bool.and_eq_true] at hw
  obtain ⟨⟨⟨⟨⟨hty, -⟩, hform⟩, ha⟩, hb⟩, -⟩ := hw
  have h := readsFI_of_encFI hform ha hb he
  obtain ⟨hf, hs⟩ := (zero_append_iff 5 4).1 h.fn
  simp only [decSetp, zero_eq_ok, need_eq_ok, Bool.and_eq_true, beq_iff_eq, Except.ok.injEq]
  exact ⟨⟨⟨⟨h.dm, h.uix⟩, h.c⟩, hf⟩, a.ty, FRaw.ofCode_fnTy.2 ⟨Ty.tx_of_isInt hty, h.ty.symm⟩, a.cond,
    by rw [hs, Cond.ofCode_code], a.pd, predField_eq_some.2 h.d, by rw [h.guard, h.a, h.b]⟩

theorem wordOf_decSel {mk : SelArgs → Instr} (hop : r.op = 0x1D) (he : ∀ a, WordOf (mk a) (a.enc imm))
    (h : decSel r imm mk = .ok i) : WordOf i (r.toWord (formClass imm)) := by
  simp only [decSel, zero_eq_ok, need_eq_ok, Bool.and_eq_true, beq_iff_eq, Except.ok.injEq] at h
  obtain ⟨⟨⟨hu, hc⟩, hf⟩, t, ht, rfl⟩ := h
  exact (he _).of_eq (ReadsFI.encFI hop ⟨rfl, (DM.code_ofCode _).symm, (Reg.field_ofField _).symm, rfl, rfl, hc, hu,
    (FRaw.ofCode_fnTy.1 ht).2.symm, (zero_append_bit_append_iff 5 3).2 ⟨hf, rfl, rfl⟩⟩)

theorem decSel_enc {mk : SelArgs → Instr} {a : SelArgs} (hw : a.wf imm = true) (he : a.enc imm = r.toWord (formClass imm)) :
    decSel r imm mk = .ok (mk a) := by
  simp only [SelArgs.wf, Bool.and_eq_true] at hw
  obtain ⟨⟨⟨⟨⟨hty, hform⟩, ha⟩, hb⟩, hd⟩, -⟩ := hw
  have htx : a.ty.tx = 0 := by revert hty; cases a.ty <;> decide
  have h := readsFI_of_encFI hform ha hb he
  obtain ⟨hf, hs, hp⟩ := (zero_append_bit_append_iff 5 3).1 h.fn
  simp only [decSel, zero_eq_ok, need_eq_ok, Bool.and_eq_true, beq_iff_eq, Except.ok.injEq]
  exact ⟨⟨⟨h.uix, h.c⟩, hf⟩, a.ty, FRaw.ofCode_fnTy.2 ⟨htx, h.ty.symm⟩,
    by rw [h.guard, h.dm, DM.ofCode_code, h.d, Reg.ofField_field hd, h.a, h.b, hs, hp]⟩

theorem wordOf_decCvti (hop : r.op = 0x1E) (h : decCvti r = .ok i) : WordOf i (r.toWord 0) := by
  simp only [decCvti, zero_eq_ok, need_eq_ok, Bool.and_eq_true, beq_iff_eq, Except.ok.injEq] at h
  obtain ⟨⟨⟨⟨hdm, hone⟩, hc⟩, hf⟩, t, ht, s, hs, rfl⟩ := h
  have hs4 := ((eq_append_iff 1 4).1 (Ty.ofCode_eq_some.1 hs)).2
  exact WordOf.of_eq ⟨rfl, rfl⟩ (ReadsF1.encF1 hop ⟨rfl, hdm, (Reg.field_ofField _).symm, rfl, hone,
    (zero_append_iff 4 4).2 ⟨hc, hs4.symm⟩, (FRaw.ofCode_fnTy.1 ht).2.symm, (zero_append_bit_iff 8).2 ⟨hf, rfl⟩⟩)

theorem decCvti_enc {a : CvtiArgs} (hw : a.wf = true) (he : a.enc = r.toWord 0) : decCvti r = .ok (.cvti a) := by
  simp only [CvtiArgs.wf, Bool.and_eq_true, Bool.not_eq_true'] at hw
  obtain ⟨⟨⟨⟨hdt, hst⟩, hi⟩, ha⟩, hd⟩ := hw
  have h := readsF1_of_encF1 hi ha he
  obtain ⟨hf, hs⟩ := (zero_append_bit_iff 8).1 h.fn
  obtain ⟨hc, hsty⟩ := (zero_append_iff 4 4).1 h.c
  simp only [decCvti, zero_eq_ok, need_eq_ok, Bool.and_eq_true, beq_iff_eq, Except.ok.injEq]
  exact ⟨⟨⟨⟨h.dm, h.one⟩, hc⟩, hf⟩, a.dty, FRaw.ofCode_fnTy.2 ⟨Ty.tx_of_isInt hdt, h.ty.symm⟩, a.sty,
    Ty.ofCode_eq_some.2 ((eq_append_iff 1 4).2 ⟨Ty.tx_of_isInt hst, hsty.symm⟩),
    by rw [h.guard, hs, h.d, Reg.ofField_field hd, h.a]⟩

end

section
variable {r : FRaw} {op : BitVec 8} {imm : Bool} {t : Ty} {m : RM} {ftz sat pla plb plc : Bool} {i : Instr}

/-! #### Floating-point words (R150, R185..R195) -/

/-- FN in the FL layout (R150). -/
theorem FRaw.fn_eq_flMod : r.fn = flMod m ftz sat pla plb plc t ↔ r.rm = m.code ∧ r.ftz = ftz ∧ r.sat = sat ∧ r.pla = pla ∧
    r.plb = plb ∧ r.plc = plc ∧ t.tx = r.m.extractLsb' 0 1 := by
  rw [flMod, eq_append_iff 8 1, eq_append_iff 7 1, eq_append_iff 6 1, eq_append_iff 5 1, eq_append_iff 4 1, eq_append_iff 3 1,
    eq_comm (a := t.tx)]
  simp (disch := decide) only [FRaw.fn, FRaw.rm, FRaw.ftz, FRaw.sat, FRaw.pla, FRaw.plb, FRaw.plc, extractLsb'_extractLsb',
    extractLsb'_one, Nat.reduceAdd, and_assoc]

theorem srcOk_ok {dm : DM} {mark : Bool} {o : Opnd} (h : srcOk dm mark o = true) : ∃ n, o.ok n = true := by
  simp only [srcOk, Bool.and_eq_true] at h
  exact ⟨_, h.1⟩

theorem wordOf_decFlt2 {mk : Flt2Args → Instr} (hop : r.op = op) (he : ∀ a, WordOf (mk a) (a.enc imm op))
    (h : decFlt2 r imm mk = .ok i) : WordOf i (r.toWord (formClass imm)) := by
  simp only [decFlt2, zero_eq_ok, need_eq_ok, Bool.and_eq_true, Bool.not_eq_true', Except.ok.injEq] at h
  obtain ⟨⟨⟨⟨hu, hc⟩, hs⟩, hplc⟩, t, ht, m, hm, rfl⟩ := h
  obtain ⟨htx, hty⟩ := FRaw.ofCode_flTy.1 ht
  exact (he _).of_eq (ReadsFI.encFI hop ⟨rfl, (DM.code_ofCode _).symm, (Reg.field_ofField _).symm, rfl, rfl, hc, hu, hty.symm,
    FRaw.fn_eq_flMod.2 ⟨(RM.code_of_ofCode _ _ hm).symm, rfl, hs, rfl, rfl, hplc, htx⟩⟩)

theorem decFlt2_enc {mk : Flt2Args → Instr} {a : Flt2Args} {bInt : Bool} {sp : FlSpec} (hw : a.wf imm bInt sp = true)
    (he : a.enc imm op = r.toWord (formClass imm)) : decFlt2 r imm mk = .ok (mk a) := by
  simp only [Flt2Args.wf, Bool.and_eq_true] at hw
  obtain ⟨⟨⟨⟨⟨⟨⟨-, -⟩, -⟩, hform⟩, ha⟩, hb⟩, hd⟩, -⟩ := hw
  obtain ⟨n, ha⟩ := srcOk_ok ha
  obtain ⟨k, hb⟩ : ∃ k, a.b.ok k = true := by
    split at hb
    · simp only [Bool.and_eq_true] at hb
      exact ⟨1, hb.1.2⟩
    · exact srcOk_ok hb
  have h := readsFI_of_encFI hform ha hb he
  obtain ⟨hrm, hftz, hs, hpla, hplb, hplc, htx⟩ := FRaw.fn_eq_flMod.1 h.fn
  simp only [decFlt2, zero_eq_ok, need_eq_ok, Bool.and_eq_true, Bool.not_eq_true', Except.ok.injEq]
  exact ⟨⟨⟨⟨h.uix, h.c⟩, hs⟩, hplc⟩, a.ty, FRaw.ofCode_flTy.2 ⟨htx, h.ty.symm⟩, a.rm, by rw [hrm, RM.ofCode_code],
    by rw [h.guard, h.dm, DM.ofCode_code, hftz, hpla, hplb, h.d, Reg.ofField_field hd, h.a, h.b]⟩

theorem wordOf_decFlt1 {mk : Flt1Args → Instr} (hop : r.op = op) (he : ∀ a, WordOf (mk a) (a.enc op))
    (h : decFlt1 r mk = .ok i) : WordOf i (r.toWord 0) := by
  simp only [decFlt1, zero_eq_ok, need_eq_ok, Bool.and_eq_true, Bool.not_eq_true', beq_iff_eq, Except.ok.injEq] at h
  obtain ⟨⟨⟨⟨⟨hone, hc⟩, hs⟩, hplb⟩, hplc⟩, t, ht, m, hm, rfl⟩ := h
  obtain ⟨htx, hty⟩ := FRaw.ofCode_flTy.1 ht
  exact (he _).of_eq (ReadsF1.encF1 hop ⟨rfl, (DM.code_ofCode _).symm, (Reg.field_ofField _).symm, rfl, hone, hc, hty.symm,
    FRaw.fn_eq_flMod.2 ⟨(RM.code_of_ofCode _ _ hm).symm, rfl, hs, rfl, hplb, hplc, htx⟩⟩)

theorem decFlt1_enc {mk : Flt1Args → Instr} {a : Flt1Args} {sp : FlSpec} (hw : a.wf sp = true)
    (he : a.enc op = r.toWord 0) : decFlt1 r mk = .ok (mk a) := by
  simp only [Flt1Args.wf, Bool.and_eq_true, Bool.not_eq_true'] at hw
  obtain ⟨⟨⟨-, hi⟩, ha⟩, hd⟩ := hw
  obtain ⟨n, ha⟩ := srcOk_ok ha
  have h := readsF1_of_encF1 hi ha he
  obtain ⟨hrm, hftz, hs, hpla, hplb, hplc, htx⟩ := FRaw.fn_eq_flMod.1 h.fn
  simp only [decFlt1, zero_eq_ok, need_eq_ok, Bool.and_eq_true, Bool.not_eq_true', beq_iff_eq, Except.ok.injEq]
  exact ⟨⟨⟨⟨⟨h.one, h.c⟩, hs⟩, hplb⟩, hplc⟩, a.ty, FRaw.ofCode_flTy.2 ⟨htx, h.ty.symm⟩, a.rm, by rw [hrm, RM.ofCode_code],
    by rw [h.guard, h.dm, DM.ofCode_code, hftz, hpla, h.d, Reg.ofField_field hd, h.a]⟩

theorem wordOf_decFlt3 {mk : Flt3Args → Instr} (hop : r.op = op) (he : ∀ a, WordOf (mk a) (a.enc op))
    (h : decFlt3 r mk = .ok i) : WordOf i (r.toWord 0) := by
  simp only [decFlt3, zero_eq_ok, need_eq_ok, Bool.and_eq_true, Bool.not_eq_true', Except.ok.injEq] at h
  obtain ⟨⟨hu, hs⟩, t, ht, m, hm, rfl⟩ := h
  obtain ⟨htx, hty⟩ := FRaw.ofCode_flTy.1 ht
  exact (he _).of_eq (ReadsF.encF hop (Opnd.field_ofField _) ⟨rfl, (DM.code_ofCode _).symm, (Reg.field_ofField _).symm, rfl, rfl,
    (Opnd.field_ofField _).symm, hu, hty.symm,
    FRaw.fn_eq_flMod.2 ⟨(RM.code_of_ofCode _ _ hm).symm, rfl, hs, rfl, rfl, rfl, htx⟩⟩)

theorem decFlt3_enc {mk : Flt3Args → Instr} {a : Flt3Args} {sp : FlSpec} (hw : a.wf sp = true) (he : a.enc op = r.toWord 0) :
    decFlt3 r mk = .ok (mk a) := by
  simp only [Flt3Args.wf, Bool.and_eq_true, Bool.not_eq_true'] at hw
  obtain ⟨⟨⟨⟨⟨⟨⟨⟨-, hav⟩, hbi⟩, hcv⟩, ha⟩, hb⟩, hc⟩, hd⟩, -⟩ := hw
  obtain ⟨n, ha⟩ := srcOk_ok ha
  obtain ⟨k, hb⟩ := srcOk_ok hb
  obtain ⟨l, hc⟩ := srcOk_ok hc
  have h := readsF_of_encF hbi hb he
  obtain ⟨hrm, hftz, hs, hpla, hplb, hplc, htx⟩ := FRaw.fn_eq_flMod.1 h.fn
  simp only [decFlt3, zero_eq_ok, need_eq_ok, Bool.and_eq_true, Bool.not_eq_true', Except.ok.injEq]
  exact ⟨⟨h.uix, hs⟩, a.ty, FRaw.ofCode_flTy.2 ⟨htx, h.ty.symm⟩, a.rm, by rw [hrm, RM.ofCode_code],
    by rw [h.guard, h.dm, DM.ofCode_code, hftz, hpla, hplb, hplc, h.d, Reg.ofField_field hd, FRaw.srcA_false h.a hav ha, h.b,
      h.c, Opnd.ofField_field hcv hc]⟩

/-- FN of fsetp (R167). -/
theorem fn_fsetp {x : BitVec 9} {c : BitVec 4} : x = 0#1 ++ bit pla ++ bit plb ++ bit ftz ++ 0#1 ++ c ↔
    x.getLsbD 8 = false ∧ x.getLsbD 7 = pla ∧ x.getLsbD 6 = plb ∧ x.getLsbD 5 = ftz ∧ x.getLsbD 4 = false ∧
      x.extractLsb' 0 4 = c := by
  have h0 : 0#1 = bit false := rfl
  rw [h0, eq_append_iff 5 4, eq_append_iff 4 1, eq_append_iff 3 1, eq_append_iff 2 1, eq_append_iff 1 1]
  simp (disch := decide) only [extractLsb'_extractLsb', extractLsb'_one, Nat.reduceAdd, and_assoc]

theorem wordOf_decFsetp {mk : FsetpArgs → Instr} (hop : r.op = 0x26) (he : ∀ a, WordOf (mk a) (a.enc imm))
    (h : decFsetp r imm mk = .ok i) : WordOf i (r.toWord (formClass imm)) := by
  simp only [decFsetp, zero_eq_ok, need_eq_ok, Bool.and_eq_true, Bool.not_eq_true', Except.ok.injEq] at h
  obtain ⟨⟨⟨⟨hu, hc⟩, h8⟩, h4⟩, t, ht, c, hcond, p, hp, rfl⟩ := h
  exact (he _).of_eq (ReadsFI.encFI hop ⟨rfl, (DM.code_ofCode _).symm, predField_eq_some.1 hp, rfl, rfl, hc, hu,
    (FRaw.ofCode_fnTy.1 ht).2.symm, fn_fsetp.2 ⟨h8, rfl, rfl, rfl, h4, (Cond.code_of_ofCode _ _ hcond).symm⟩⟩)

theorem Ty.tx_of_isF3 {t : Ty} (h : t.isF3 = true) : t.tx = 0 := by cases t <;> (revert h; decide)

theorem decFsetp_enc {mk : FsetpArgs → Instr} {a : FsetpArgs} (hw : a.wf imm = true) (he : a.enc imm = r.toWord (formClass imm)) :
    decFsetp r imm mk = .ok (mk a) := by
  simp only [FsetpArgs.wf, Bool.and_eq_true] at hw
  obtain ⟨⟨⟨⟨⟨hty, -⟩, hform⟩, ha⟩, hb⟩, -⟩ := hw
  obtain ⟨n, ha⟩ := srcOk_ok ha
  obtain ⟨k, hb⟩ := srcOk_ok hb
  have h := readsFI_of_encFI hform ha hb he
  obtain ⟨h8, hpla, hplb, hftz, h4, hcond⟩ := fn_fsetp.1 h.fn
  simp only [decFsetp, zero_eq_ok, need_eq_ok, Bool.and_eq_true, Bool.not_eq_true', Except.ok.injEq]
  exact ⟨⟨⟨⟨h.uix, h.c⟩, h8⟩, h4⟩, a.ty, FRaw.ofCode_fnTy.2 ⟨Ty.tx_of_isF3 hty, h.ty.symm⟩, a.cond,
    by rw [hcond, Cond.ofCode_code], a.pd, predField_eq_some.2 h.d,
    by rw [h.guard, h.dm, DM.ofCode_code, hftz, hpla, hplb, h.a, h.b]⟩

theorem wordOf_decCvt (hop : r.op = 0x2A) (h : decCvt r = .ok i) : WordOf i (r.toWord 0) := by
  simp only [decCvt, zero_eq_ok, need_eq_ok, Bool.and_eq_true, Bool.not_eq_true', beq_iff_eq, Except.ok.injEq] at h
  obtain ⟨⟨⟨⟨hone, hc⟩, hplb⟩, hplc⟩, t, ht, s, hs, m, hm, rfl⟩ := h
  obtain ⟨htx, hty⟩ := FRaw.ofCode_flTy.1 ht
  exact WordOf.of_eq ⟨rfl, rfl⟩ (ReadsF1.encF1 hop ⟨rfl, (DM.code_ofCode _).symm, (Reg.field_ofField _).symm, rfl, hone,
    (zero_append_iff 3 5).2 ⟨hc, (Ty.ofCode_eq_some.1 hs).symm⟩, hty.symm,
    FRaw.fn_eq_flMod.2 ⟨(RM.code_of_ofCode _ _ hm).symm, rfl, rfl, rfl, hplb, hplc, htx⟩⟩)

/-- R191: the operands of a legal cvt are registers or a uniform. -/
theorem CvtArgs.operands_of_wf {a : CvtArgs} (hw : a.wf = true) :
    a.a.isImm = false ∧ (∃ n, a.a.ok n = true) ∧ ∃ n, a.d.ok n = true := by
  simp only [CvtArgs.wf, Bool.and_eq_true, Bool.not_eq_true'] at hw
  obtain ⟨hi, hk⟩ := hw
  refine ⟨hi, ?_⟩
  split at hk
  case h_1 => cases hk
  case h_2 =>
    simp only [Bool.and_eq_true] at hk
    exact ⟨srcOk_ok hk.1, _, hk.2⟩
  case h_3 | h_4 =>
    simp only [Bool.and_eq_true] at hk
    exact ⟨srcOk_ok hk.1.2, _, hk.2⟩
  case h_6 n _ =>
    simp only [Bool.and_eq_true] at hk
    refine ⟨⟨_, hk.1.2⟩, n, ?_⟩
    have hd := hk.2
    split at hd
    · cases hd
    · exact hd
  all_goals
    simp only [Bool.and_eq_true] at hk
    exact ⟨⟨_, hk.1.2⟩, _, hk.2⟩

theorem decCvt_enc {a : CvtArgs} (hw : a.wf = true) (he : a.enc = r.toWord 0) : decCvt r = .ok (.cvt a) := by
  obtain ⟨hi, ⟨n, ha⟩, k, hd⟩ := CvtArgs.operands_of_wf hw
  have h := readsF1_of_encF1 hi ha he
  obtain ⟨hrm, hftz, hs, hpla, hplb, hplc, htx⟩ := FRaw.fn_eq_flMod.1 h.fn
  obtain ⟨hc, hsty⟩ := (zero_append_iff 3 5).1 h.c
  simp only [decCvt, zero_eq_ok, need_eq_ok, Bool.and_eq_true, Bool.not_eq_true', beq_iff_eq, Except.ok.injEq]
  exact ⟨⟨⟨⟨h.one, hc⟩, hplb⟩, hplc⟩, a.dty, FRaw.ofCode_flTy.2 ⟨htx, h.ty.symm⟩, a.sty, Ty.ofCode_eq_some.2 hsty.symm,
    a.rm, by rw [hrm, RM.ofCode_code],
    by rw [h.guard, h.dm, DM.ofCode_code, hftz, hs, hpla, h.d, Reg.ofField_field hd, h.a]⟩

/-! #### Distribution words (R199..R202) -/

/-- FN of a word that neither rounds nor marks. -/
theorem FRaw.fn_eq_noMarks : r.fn = flMod .rne ftz false false false false t ↔
    r.noMarks = true ∧ r.ftz = ftz ∧ t.tx = r.m.extractLsb' 0 1 := by
  rw [FRaw.fn_eq_flMod, FRaw.noMarks]
  simp only [Bool.and_eq_true, Bool.not_eq_true', beq_iff_eq, RM.code]
  tauto

theorem wordOf_decDist {mk : DistArgs → Instr} (hop : r.op = op) (he : ∀ a, WordOf (mk a) (a.enc op))
    (h : decDist r mk = .ok i) : WordOf i (r.toWord 0) := by
  simp only [decDist, zero_eq_ok, need_eq_ok, Bool.and_eq_true, beq_iff_eq, Except.ok.injEq] at h
  obtain ⟨⟨⟨hone, hc⟩, hmk⟩, t, ht, rfl⟩ := h
  obtain ⟨htx, hty⟩ := FRaw.ofCode_flTy.1 ht
  exact (he _).of_eq (ReadsF1.encF1 hop ⟨rfl, (DM.code_ofCode _).symm, rfl, rfl, hone, hc, hty.symm,
    FRaw.fn_eq_noMarks.2 ⟨hmk, rfl, htx⟩⟩)

theorem decDist_enc {mk : DistArgs → Instr} {a : DistArgs} {dms : DM → Bool} {n l : DM → Nat} (hw : a.wf dms n l = true)
    (he : a.enc op = r.toWord 0) : decDist r mk = .ok (mk a) := by
  simp only [DistArgs.wf, Bool.and_eq_true] at hw
  obtain ⟨⟨-, hk⟩, ha⟩ := hw
  have hi : a.a.isImm = false := by
    revert hk
    cases a.a <;> simp [Opnd.isV, Opnd.isImm]
  have h := readsF1_of_encF1 hi ha he
  obtain ⟨hmk, hftz, htx⟩ := FRaw.fn_eq_noMarks.1 h.fn
  simp only [decDist, zero_eq_ok, need_eq_ok, Bool.and_eq_true, beq_iff_eq, Except.ok.injEq]
  exact ⟨⟨⟨h.one, h.c⟩, hmk⟩, a.ty, FRaw.ofCode_flTy.2 ⟨htx, h.ty.symm⟩,
    by rw [h.guard, h.dm, DM.ofCode_code, hftz, h.d, h.a]⟩

theorem wordOf_decDmake (hop : r.op = 0x48) (h : decDmake r = .ok i) : WordOf i (r.toWord 0) := by
  simp only [decDmake, zero_eq_ok, need_eq_ok, Bool.and_eq_true, beq_iff_eq, Except.ok.injEq] at h
  obtain ⟨⟨⟨hu, hc⟩, hmk⟩, t, ht, rfl⟩ := h
  obtain ⟨htx, hty⟩ := FRaw.ofCode_flTy.1 ht
  exact WordOf.of_eq ⟨rfl, rfl⟩ (ReadsF.encF hop (Opnd.field_ofField _) ⟨rfl, (DM.code_ofCode _).symm, rfl, rfl, rfl, hc, hu,
    hty.symm, FRaw.fn_eq_noMarks.2 ⟨hmk, rfl, htx⟩⟩)

theorem decDmake_enc {a : DmakeArgs} (hw : a.wf = true) (he : a.enc = r.toWord 0) : decDmake r = .ok (.dmake a) := by
  simp only [DmakeArgs.wf, Bool.and_eq_true] at hw
  obtain ⟨⟨⟨-, hav⟩, ha⟩, hb⟩ := hw
  have hav : a.a.isVQ = true := by
    revert hav
    cases a.a <;> simp [Opnd.isV, Opnd.isVQ]
  obtain ⟨hbi, hb⟩ : a.b.isImm = false ∧ a.b.ok 1 = true := by
    split at hb
    · rw [beq_iff_eq.1 hb]
      exact ⟨rfl, rfl⟩
    · revert hb
      cases a.b <;> simp [Opnd.isImm, Opnd.ok]
  have h := readsF_of_encF hbi hb he
  obtain ⟨hmk, hftz, htx⟩ := FRaw.fn_eq_noMarks.1 h.fn
  simp only [decDmake, zero_eq_ok, need_eq_ok, Bool.and_eq_true, beq_iff_eq, Except.ok.injEq]
  exact ⟨⟨⟨h.uix, h.c⟩, hmk⟩, a.ty, FRaw.ofCode_flTy.2 ⟨htx, h.ty.symm⟩,
    by rw [h.guard, h.dm, DM.ofCode_code, hftz, h.d, FRaw.srcA_false h.a hav ha, h.b]⟩

theorem wordOf_decDdraw {mk : DdrawArgs → Instr} (hop : r.op = op) (he : ∀ a, WordOf (mk a) (a.enc op))
    (h : decDdraw r mk = .ok i) : WordOf i (r.toWord 0) := by
  simp only [decDdraw, zero_eq_ok, need_eq_ok, Bool.and_eq_true, beq_iff_eq, Except.ok.injEq] at h
  obtain ⟨⟨⟨hone, hc⟩, hmk⟩, t, ht, rfl⟩ := h
  obtain ⟨htx, hty⟩ := FRaw.ofCode_flTy.1 ht
  exact (he _).of_eq (ReadsF1.encF1 hop ⟨rfl, (DM.code_ofCode _).symm, rfl, rfl, hone, (zero_append_iff 4 4).2 ⟨hc, rfl⟩,
    hty.symm, FRaw.fn_eq_noMarks.2 ⟨hmk, rfl, htx⟩⟩)

theorem decDdraw_enc {mk : DdrawArgs → Instr} {a : DdrawArgs} {dms : DM → Bool} {n l : DM → Nat} (hw : a.wf dms n l = true)
    (he : a.enc op = r.toWord 0) : decDdraw r mk = .ok (mk a) := by
  simp only [DdrawArgs.wf, Bool.and_eq_true] at hw
  obtain ⟨-, ha⟩ := hw
  obtain ⟨hi, ha⟩ : a.a.isImm = false ∧ a.a.ok (l a.dm) = true := by
    revert ha
    cases a.a <;> simp [Opnd.isImm, Opnd.ok]
  have h := readsF1_of_encF1 hi ha he
  obtain ⟨hmk, hftz, htx⟩ := FRaw.fn_eq_noMarks.1 h.fn
  obtain ⟨hc, hst⟩ := (zero_append_iff 4 4).1 h.c
  simp only [decDdraw, zero_eq_ok, need_eq_ok, Bool.and_eq_true, beq_iff_eq, Except.ok.injEq]
  exact ⟨⟨⟨h.one, hc⟩, hmk⟩, a.ty, FRaw.ofCode_flTy.2 ⟨htx, h.ty.symm⟩,
    by rw [h.guard, h.dm, DM.ofCode_code, hftz, h.d, h.a, hst]⟩

end

section
variable {r : FRaw} {op : BitVec 8} {t : Ty} {m : RM} {i : Instr}

/-- An unused B field: no uniform, and 0. -/
theorem FRaw.noK_and_b_iff : r.noK = true ∧ r.b = 0 ↔ r.srcB false = .v 0 ∧ r.uixOk = true := by
  rw [FRaw.uixOk_iff, FRaw.noK, FRaw.srcB]
  cases hk : r.isK with
  | true => simp
  | false =>
    have hb : Opnd.ofField r.b = .v 0 ↔ r.b = 0 := ⟨fun h => (Opnd.field_ofField r.b).symm.trans (congrArg Opnd.field h),
      fun h => by rw [h]; rfl⟩
    simp only [Bool.not_false, Bool.true_and, beq_iff_eq, Bool.false_eq_true, if_false, false_or, hb, and_comm]

/-- An unused A field of an I-word. -/
theorem FRaw.noK_and_a_iff : r.noK = true ∧ r.a = 0 ↔ r.srcA true = .v 0 ∧ r.uixOk = true :=
  FRaw.noK_and_b_iff (r := { r with b := r.a })

/-- B names a uniform. -/
theorem FRaw.srcB_eq_uniform {k : BitVec 10} : r.srcB false = .k k ↔ r.isK = true ∧ r.uix ++ r.b = k := by
  unfold FRaw.srcB
  cases r.isK with
  | true => simp
  | false =>
    have hv := Opnd.isVQ_ofField r.b
    simp only [Bool.false_eq_true, if_false, false_and, iff_false]
    rintro h
    rw [h] at hv
    cases hv

/-! #### Bit streams and random draws (R203..R208) -/

theorem wordOf_decBsinit (hop : r.op = 0x50) (h : decBsinit r = .ok i) : WordOf i (r.toWord 0) := by
  simp only [decBsinit, zero_eq_ok, ite_error_eq_ok, Bool.and_eq_true, beq_iff_eq, Except.ok.injEq] at h
  obtain ⟨⟨⟨⟨hdm, hu⟩, hc⟩, hf⟩, ht, rfl⟩ := h
  exact WordOf.of_eq ⟨rfl, rfl⟩ (ReadsF.encF hop rfl ⟨rfl, hdm, rfl, rfl, rfl, hc, hu, ht, hf⟩)

theorem decBsinit_enc {a : BsinitArgs} (hw : a.wf = true) (he : encF 0x50 a.g 0 a.d (.v a.a) a.b 0 6 0 = r.toWord 0) :
    decBsinit r = .ok (.bsinit a) := by
  simp only [BsinitArgs.wf, Bool.and_eq_true, Bool.not_eq_true'] at hw
  obtain ⟨⟨-, hi⟩, hb⟩ := hw
  have h := readsF_of_encF hi hb he
  simp only [decBsinit, zero_eq_ok, ite_error_eq_ok, Bool.and_eq_true, beq_iff_eq, Except.ok.injEq]
  exact ⟨⟨⟨⟨h.dm, h.uix⟩, h.c⟩, h.fn⟩, h.ty, by rw [h.guard, h.d, h.a, h.b]; rfl⟩

theorem wordOf_decBsread {mk : BsreadArgs → Instr} (hop : r.op = op) (he : ∀ a, WordOf (mk a) (a.enc op))
    (h : decBsread r mk = .ok i) : WordOf i (r.toWord 0) := by
  simp only [decBsread, zero_eq_ok, ite_error_eq_ok, Bool.and_eq_true, Bool.or_eq_true, beq_iff_eq, Except.ok.injEq] at h
  obtain ⟨⟨⟨hdm, hu⟩, hf⟩, ht, rfl⟩ := h
  exact (he _).of_eq (ReadsF.encF hop rfl ⟨rfl, hdm, (Reg.field_ofField _).symm, rfl, rfl, (Reg.field_ofField _).symm, hu,
    sgnTy_iff.2 ⟨ht, rfl⟩, hf⟩)

theorem decBsread_enc {mk : BsreadArgs → Instr} {a : BsreadArgs} (hw : a.wf = true) (he : a.enc op = r.toWord 0) :
    decBsread r mk = .ok (mk a) := by
  simp only [BsreadArgs.wf, Bool.and_eq_true] at hw
  obtain ⟨⟨⟨hd, -⟩, hr⟩, hwd⟩ := hw
  obtain ⟨hi, hr⟩ := Opnd.of_groupOk hr
  have h := readsF_of_encF hi hr he
  obtain ⟨ht, hs⟩ := sgnTy_iff.1 h.ty
  simp only [decBsread, zero_eq_ok, ite_error_eq_ok, Bool.and_eq_true, Bool.or_eq_true, beq_iff_eq, Except.ok.injEq]
  exact ⟨⟨⟨h.dm, h.uix⟩, h.fn⟩, ht,
    by rw [h.guard, hs, h.d, Reg.ofField_field hd, h.a, h.b, h.c, Reg.ofField_field_of_srcOk hwd]; rfl⟩

theorem wordOf_decBsskip (hop : r.op = 0x53) (h : decBsskip r = .ok i) : WordOf i (r.toWord 0) := by
  simp only [decBsskip, zero_eq_ok, ite_error_eq_ok, Bool.and_eq_true, beq_iff_eq, Except.ok.injEq] at h
  obtain ⟨⟨⟨⟨hdm, hu⟩, hf⟩, hd⟩, ht, rfl⟩ := h
  exact WordOf.of_eq ⟨rfl, rfl⟩
    (ReadsF.encF hop rfl ⟨rfl, hdm, hd, rfl, rfl, (Reg.field_ofField _).symm, hu, ht, hf⟩)

theorem decBsskip_enc {a : BsskipArgs} (hw : a.wf = true) (he : encF 0x53 a.g 0 0 (.v a.a) a.r a.w.field 6 0 = r.toWord 0) :
    decBsskip r = .ok (.bsskip a) := by
  simp only [BsskipArgs.wf, Bool.and_eq_true] at hw
  obtain ⟨⟨-, hr⟩, hwd⟩ := hw
  obtain ⟨hi, hr⟩ := Opnd.of_groupOk hr
  have h := readsF_of_encF hi hr he
  simp only [decBsskip, zero_eq_ok, ite_error_eq_ok, Bool.and_eq_true, beq_iff_eq, Except.ok.injEq]
  exact ⟨⟨⟨⟨h.dm, h.uix⟩, h.fn⟩, h.d⟩, h.ty,
    by rw [h.guard, h.a, h.b, h.c, Reg.ofField_field_of_srcOk hwd]; rfl⟩

theorem wordOf_decBsalign (hop : r.op = 0x54) (h : decBsalign r = .ok i) : WordOf i (r.toWord 0) := by
  simp only [decBsalign, zero_eq_ok, ite_error_eq_ok, Bool.and_eq_true, beq_iff_eq, Except.ok.injEq] at h
  obtain ⟨⟨⟨⟨⟨⟨hdm, hk⟩, hd⟩, hb⟩, hc⟩, hf⟩, ht, rfl⟩ := h
  obtain ⟨hb, hu⟩ := FRaw.noK_and_b_iff.1 ⟨hk, hb⟩
  exact WordOf.of_eq ⟨rfl, rfl⟩
    (ReadsF.encF hop rfl ⟨rfl, hdm, hd, rfl, hb, hc, hu, ht, (zero_append_iff 6 3).2 ⟨hf, rfl⟩⟩)

theorem decBsalign_enc {a : BsalignArgs} (he : encF 0x54 a.g 0 0 (.v a.a) (.v 0) 0 6 (0#6 ++ a.k) = r.toWord 0) :
    decBsalign r = .ok (.bsalign a) := by
  have h := readsF_of_encF (n := 1) rfl rfl he
  obtain ⟨hk, hb⟩ := FRaw.noK_and_b_iff.2 ⟨h.b, h.uix⟩
  obtain ⟨hf, hs⟩ := (zero_append_iff 6 3).1 h.fn
  simp only [decBsalign, zero_eq_ok, ite_error_eq_ok, Bool.and_eq_true, beq_iff_eq, Except.ok.injEq]
  exact ⟨⟨⟨⟨⟨⟨h.dm, hk⟩, h.d⟩, hb⟩, h.c⟩, hf⟩, h.ty, by rw [h.guard, h.a, hs]; rfl⟩

theorem wordOf_decRngseed (hop : r.op = 0x58) (h : decRngseed r = .ok i) : WordOf i (r.toWord 0) := by
  simp only [decRngseed, zero_eq_ok, ite_error_eq_ok, Bool.and_eq_true, beq_iff_eq, Except.ok.injEq] at h
  obtain ⟨⟨⟨⟨⟨⟨hdm, hk⟩, hd⟩, ha⟩, hc⟩, hf⟩, ht, rfl⟩ := h
  exact WordOf.of_eq ⟨rfl, rfl⟩ (ReadsF.encF hop rfl
    ⟨rfl, hdm, hd, ha, FRaw.srcB_eq_uniform.2 ⟨hk, rfl⟩, hc, FRaw.uixOk_iff.2 (.inl hk), ht, hf⟩)

theorem decRngseed_enc {a : RngseedArgs} (he : encF 0x58 a.g 0 0 (.v 0) (.k a.k) 0 6 0 = r.toWord 0) :
    decRngseed r = .ok (.rngseed a) := by
  have h := readsF_of_encF (n := 1) rfl rfl he
  obtain ⟨hk, hb⟩ := FRaw.srcB_eq_uniform.1 h.b
  simp only [decRngseed, zero_eq_ok, ite_error_eq_ok, Bool.and_eq_true, beq_iff_eq, Except.ok.injEq]
  exact ⟨⟨⟨⟨⟨⟨h.dm, hk⟩, h.d⟩, h.a⟩, h.c⟩, h.fn⟩, h.ty, by rw [h.guard, hb]⟩

theorem wordOf_decRnd {ty : BitVec 4} {mk : RndArgs → Instr} (hop : r.op = op) (he : ∀ a, WordOf (mk a) (a.enc op ty))
    (h : decRnd r ty mk = .ok i) : WordOf i (r.toWord 0) := by
  simp only [decRnd, zero_eq_ok, ite_error_eq_ok, Bool.and_eq_true, beq_iff_eq, Except.ok.injEq] at h
  obtain ⟨⟨⟨⟨⟨⟨hdm, hk⟩, ha⟩, hb⟩, hc⟩, hf⟩, ht, rfl⟩ := h
  obtain ⟨hb, hu⟩ := FRaw.noK_and_b_iff.1 ⟨hk, hb⟩
  exact (he _).of_eq (ReadsF.encF hop rfl ⟨rfl, hdm, (Reg.field_ofField _).symm, ha, hb, (zero_append_iff 4 4).2 ⟨hc, rfl⟩, hu,
    ht, (zero_append_bit_iff 8).2 ⟨hf, rfl⟩⟩)

theorem decRnd_enc {ty : BitVec 4} {mk : RndArgs → Instr} {a : RndArgs} (hw : a.wf = true) (he : a.enc op ty = r.toWord 0) :
    decRnd r ty mk = .ok (mk a) := by
  have h := readsF_of_encF (b := .v 0) (n := 1) rfl rfl he
  obtain ⟨hk, hb⟩ := FRaw.noK_and_b_iff.2 ⟨h.b, h.uix⟩
  obtain ⟨hf, hx⟩ := (zero_append_bit_iff 8).1 h.fn
  obtain ⟨hc, hs⟩ := (zero_append_iff 4 4).1 h.c
  simp only [decRnd, zero_eq_ok, ite_error_eq_ok, Bool.and_eq_true, beq_iff_eq, Except.ok.injEq]
  exact ⟨⟨⟨⟨⟨⟨h.dm, hk⟩, h.a⟩, hb⟩, hc⟩, hf⟩, h.ty, by rw [h.guard, h.d, Reg.ofField_field hw, hs, hx]⟩

theorem wordOf_decRndCat (hop : r.op = 0x5C) (h : decRndCat r = .ok i) : WordOf i (r.toWord 0) := by
  simp only [decRndCat, zero_eq_ok, ite_error_eq_ok, Bool.and_eq_true, beq_iff_eq, Except.ok.injEq] at h
  obtain ⟨⟨⟨hdm, hone⟩, hf⟩, ht, rfl⟩ := h
  exact WordOf.of_eq ⟨rfl, rfl⟩ (ReadsF1.encF1 hop ⟨rfl, hdm, (Reg.field_ofField _).symm, rfl, hone,
    (eq_append_iff 4 4).2 ⟨rfl, rfl⟩, ht, hf⟩)

theorem decRndCat_enc {a : RndCatArgs} (hw : a.wf = true)
    (he : encF1 0x5C a.g 0 a.d.field a.a (a.stream ++ a.m) 8 0 = r.toWord 0) : decRndCat r = .ok (.rndCat a) := by
  simp only [RndCatArgs.wf, Bool.and_eq_true, Bool.not_eq_true'] at hw
  obtain ⟨⟨⟨hd, hi⟩, ha⟩, -⟩ := hw
  have h := readsF1_of_encF1 hi ha he
  obtain ⟨hs, hm⟩ := (eq_append_iff 4 4).1 h.c
  simp only [decRndCat, zero_eq_ok, ite_error_eq_ok, Bool.and_eq_true, beq_iff_eq, Except.ok.injEq]
  exact ⟨⟨⟨h.dm, h.one⟩, h.fn⟩, h.ty, by rw [h.guard, h.d, Reg.ofField_field hd, h.a, hm, hs]⟩

/-! #### Lane operations (R209..R213) -/

theorem wordOf_decLane {mk : LaneArgs → Instr} (hop : r.op = op) (he : ∀ a, WordOf (mk a) (a.enc op))
    (h : decLane r mk = .ok i) : WordOf i (r.toWord 0) := by
  simp only [decLane, zero_eq_ok, need_eq_ok, ite_error_eq_ok, Bool.and_eq_true, beq_iff_eq, Except.ok.injEq] at h
  obtain ⟨⟨⟨⟨hdm, hu⟩, hc⟩, hf⟩, ht, e, hedge, rfl⟩ := h
  exact (he _).of_eq (ReadsF.encF hop (Opnd.field_ofField _) ⟨rfl, hdm, (Reg.field_ofField _).symm, rfl, rfl,
    (zero_append_iff 4 4).2 ⟨hc, rfl⟩, hu, ht, (zero_append_iff 7 2).2 ⟨hf, (Edge.code_of_ofCode _ _ hedge).symm⟩⟩)

theorem decLane_enc {mk : LaneArgs → Instr} {a : LaneArgs} (hw : a.wf = true) (he : a.enc op = r.toWord 0) :
    decLane r mk = .ok (mk a) := by
  simp only [LaneArgs.wf, Bool.and_eq_true] at hw
  obtain ⟨⟨⟨⟨⟨hd, hform⟩, ha⟩, hb⟩, -⟩, -⟩ := hw
  obtain ⟨hbi, hav⟩ := of_formOk hform
  have h := readsF_of_encF hbi hb he
  obtain ⟨hc, hm⟩ := (zero_append_iff 4 4).1 h.c
  obtain ⟨hf, hedge⟩ := (zero_append_iff 7 2).1 h.fn
  simp only [decLane, zero_eq_ok, need_eq_ok, ite_error_eq_ok, Bool.and_eq_true, beq_iff_eq, Except.ok.injEq]
  exact ⟨⟨⟨⟨h.dm, h.uix⟩, hc⟩, hf⟩, h.ty, a.edge, by rw [hedge, Edge.ofCode_code],
    by rw [h.guard, h.d, Reg.ofField_field hd, FRaw.srcA_false h.a hav ha, h.b, hm]⟩

theorem wordOf_decPoll {mk : PollArgs → Instr} (hop : r.op = op) (he : ∀ a, WordOf (mk a) (a.enc op))
    (h : decPoll r mk = .ok i) : WordOf i (r.toWord 0) := by
  simp only [decPoll, zero_eq_ok, need_eq_ok, ite_error_eq_ok, Bool.and_eq_true, beq_iff_eq, Except.ok.injEq] at h
  obtain ⟨⟨⟨⟨⟨hdm, hk⟩, hb⟩, hc⟩, hf⟩, ht, d, hd, a, ha, rfl⟩ := h
  obtain ⟨hb, hu⟩ := FRaw.noK_and_b_iff.1 ⟨hk, hb⟩
  exact (he _).of_eq (ReadsF.encF hop rfl ⟨rfl, hdm, predField_eq_some.1 hd, predField_eq_some.1 ha, hb,
    (zero_append_iff 4 4).2 ⟨hc, rfl⟩, hu, ht, hf⟩)

theorem decPoll_enc {mk : PollArgs → Instr} {a : PollArgs} (he : a.enc op = r.toWord 0) : decPoll r mk = .ok (mk a) := by
  have h := readsF_of_encF (b := .v 0) (n := 1) rfl rfl he
  obtain ⟨hk, hb⟩ := FRaw.noK_and_b_iff.2 ⟨h.b, h.uix⟩
  obtain ⟨hc, hm⟩ := (zero_append_iff 4 4).1 h.c
  simp only [decPoll, zero_eq_ok, need_eq_ok, ite_error_eq_ok, Bool.and_eq_true, beq_iff_eq, Except.ok.injEq]
  exact ⟨⟨⟨⟨⟨h.dm, hk⟩, hb⟩, hc⟩, h.fn⟩, h.ty, a.pd, predField_eq_some.2 h.d, a.pa, predField_eq_some.2 h.a,
    by rw [h.guard, hm]⟩

theorem wordOf_decPollMap (hop : r.op = 0x66) (h : decPollMap r = .ok i) : WordOf i (r.toWord 0) := by
  simp only [decPollMap, zero_eq_ok, need_eq_ok, ite_error_eq_ok, Bool.and_eq_true, beq_iff_eq, Except.ok.injEq] at h
  obtain ⟨⟨⟨⟨⟨hdm, hk⟩, hb⟩, hc⟩, hf⟩, ht, a, ha, rfl⟩ := h
  obtain ⟨hb, hu⟩ := FRaw.noK_and_b_iff.1 ⟨hk, hb⟩
  exact WordOf.of_eq ⟨rfl, rfl⟩ (ReadsF.encF hop rfl ⟨rfl, hdm, (Reg.field_ofField _).symm, predField_eq_some.1 ha, hb,
    (zero_append_iff 4 4).2 ⟨hc, rfl⟩, hu, ht, hf⟩)

theorem decPollMap_enc {a : PollMapArgs} (hw : a.wf = true)
    (he : encF 0x66 a.g 0 a.d.field (.v (0#5 ++ a.pa)) (.v 0) (0#4 ++ a.m) 6 0 = r.toWord 0) :
    decPollMap r = .ok (.pollMap a) := by
  simp only [PollMapArgs.wf, Bool.and_eq_true] at hw
  have h := readsF_of_encF (n := 1) rfl rfl he
  obtain ⟨hk, hb⟩ := FRaw.noK_and_b_iff.2 ⟨h.b, h.uix⟩
  obtain ⟨hc, hm⟩ := (zero_append_iff 4 4).1 h.c
  simp only [decPollMap, zero_eq_ok, need_eq_ok, ite_error_eq_ok, Bool.and_eq_true, beq_iff_eq, Except.ok.injEq]
  exact ⟨⟨⟨⟨⟨h.dm, hk⟩, hb⟩, hc⟩, h.fn⟩, h.ty, a.pa, predField_eq_some.2 h.a,
    by rw [h.guard, h.d, Reg.ofField_field hw.1, hm]⟩

theorem wordOf_decFold {mk : FoldArgs → Instr} (hop : r.op = op) (he : ∀ a, WordOf (mk a) (a.enc op))
    (h : decFold r mk = .ok i) : WordOf i (r.toWord 0) := by
  simp only [decFold, zero_eq_ok, need_eq_ok, Bool.and_eq_true, beq_iff_eq, Except.ok.injEq] at h
  obtain ⟨⟨⟨⟨hdm, hone⟩, hc⟩, hf⟩, t, ht, o, ho, rfl⟩ := h
  exact (he _).of_eq (ReadsF1.encF1 hop ⟨rfl, hdm, (Reg.field_ofField _).symm, rfl, hone, (zero_append_iff 4 4).2 ⟨hc, rfl⟩,
    (FRaw.ofCode_fnTy.1 ht).2.symm,
    (zero_append_bit_append_iff 5 3).2 ⟨hf, rfl, (FoldOp.code_of_ofCode _ _ ho).symm⟩⟩)

theorem FoldOp.tx_of_tyOk {o : FoldOp} {t : Ty} (h : o.tyOk t = true) : t.tx = 0 := by
  cases o <;> cases t <;> (revert h; decide)

theorem decFold_enc {mk : FoldArgs → Instr} {a : FoldArgs} {pfx : Bool} (hw : a.wf pfx = true) (he : a.enc op = r.toWord 0) :
    decFold r mk = .ok (mk a) := by
  simp only [FoldArgs.wf, Bool.and_eq_true, Bool.not_eq_true'] at hw
  obtain ⟨⟨⟨⟨⟨hty, -⟩, hd⟩, hi⟩, ha⟩, -⟩ := hw
  have h := readsF1_of_encF1 hi ha he
  obtain ⟨hc, hm⟩ := (zero_append_iff 4 4).1 h.c
  obtain ⟨hf, hx, ho⟩ := (zero_append_bit_append_iff 5 3).1 h.fn
  simp only [decFold, zero_eq_ok, need_eq_ok, Bool.and_eq_true, beq_iff_eq, Except.ok.injEq]
  exact ⟨⟨⟨⟨h.dm, h.one⟩, hc⟩, hf⟩, a.ty, FRaw.ofCode_fnTy.2 ⟨FoldOp.tx_of_tyOk hty, h.ty.symm⟩, a.op,
    by rw [ho, FoldOp.ofCode_code], by rw [h.guard, hx, h.d, Reg.ofField_field hd, h.a, hm]⟩

theorem wordOf_decPeers (hop : r.op = 0x69) (h : decPeers r = .ok i) : WordOf i (r.toWord 0) := by
  simp only [decPeers, zero_eq_ok, ite_error_eq_ok, Bool.and_eq_true, beq_iff_eq, Except.ok.injEq] at h
  obtain ⟨⟨⟨⟨hdm, hone⟩, hc⟩, hf⟩, ht, rfl⟩ := h
  exact WordOf.of_eq ⟨rfl, rfl⟩ (ReadsF1.encF1 hop ⟨rfl, hdm, (Reg.field_ofField _).symm, rfl, hone,
    (zero_append_iff 4 4).2 ⟨hc, rfl⟩, ht, hf⟩)

theorem decPeers_enc {a : PeersArgs} (hw : a.wf = true) (he : encF1 0x69 a.g 0 a.d.field a.a (0#4 ++ a.m) 6 0 = r.toWord 0) :
    decPeers r = .ok (.peers a) := by
  simp only [PeersArgs.wf, Bool.and_eq_true, Bool.not_eq_true'] at hw
  obtain ⟨⟨⟨hd, hi⟩, ha⟩, -⟩ := hw
  have h := readsF1_of_encF1 hi ha he
  obtain ⟨hc, hm⟩ := (zero_append_iff 4 4).1 h.c
  simp only [decPeers, zero_eq_ok, ite_error_eq_ok, Bool.and_eq_true, beq_iff_eq, Except.ok.injEq]
  exact ⟨⟨⟨⟨h.dm, h.one⟩, hc⟩, h.fn⟩, h.ty, by rw [h.guard, h.d, Reg.ofField_field hd, h.a, hm]⟩

/-! #### Moves (R214..R216) -/

theorem wordOf_decMov (hop : r.op = 0x70) (h : decMov r = .ok i) : WordOf i (r.toWord 0) := by
  simp only [decMov, zero_eq_ok, ite_error_eq_ok, Bool.and_eq_true, beq_iff_eq, Except.ok.injEq] at h
  obtain ⟨⟨⟨hone, hc⟩, hf⟩, ht, rfl⟩ := h
  exact WordOf.of_eq ⟨rfl, rfl⟩
    (ReadsF1.encF1 hop ⟨rfl, (DM.code_ofCode _).symm, (Reg.field_ofField _).symm, rfl, hone, hc, ht, hf⟩)

theorem decMov_enc {a : MovArgs} (hw : a.wf = true) (he : encF1 0x70 a.g a.dm.code a.d.field a.a 0 6 0 = r.toWord 0) :
    decMov r = .ok (.mov a) := by
  simp only [MovArgs.wf, Bool.and_eq_true, Bool.not_eq_true'] at hw
  obtain ⟨⟨hi, ha⟩, hd⟩ := hw
  have h := readsF1_of_encF1 hi ha he
  simp only [decMov, zero_eq_ok, ite_error_eq_ok, Bool.and_eq_true, beq_iff_eq, Except.ok.injEq]
  exact ⟨⟨⟨h.one, h.c⟩, h.fn⟩, h.ty, by rw [h.guard, h.dm, DM.ofCode_code, h.d, Reg.ofField_field hd, h.a]⟩

/-- FN of a word whose one flag chooses between two forms. -/
theorem fn_eq_zero {x : BitVec 9} : x = 0 ↔ x.extractLsb' 1 8 = 0 ∧ x.getLsbD 0 = false := zero_append_bit_iff 8 (b := false)
theorem fn_eq_one {x : BitVec 9} : x = 1 ↔ x.extractLsb' 1 8 = 0 ∧ x.getLsbD 0 = true := zero_append_bit_iff 8 (b := true)

theorem wordOf_decMovi (hop : r.op = 0x71) (h : decMovi r = .ok i) : WordOf i (r.toWord 2) := by
  simp only [decMovi, zero_eq_ok, need_eq_ok, Bool.and_eq_true, beq_iff_eq] at h
  obtain ⟨⟨⟨⟨hdm, hk⟩, ha⟩, hf⟩, t, ht, h⟩ := h
  obtain ⟨ha, hu⟩ := FRaw.noK_and_a_iff.1 ⟨hk, ha⟩
  have hty := (FRaw.ofCode_fnTy.1 ht).2.symm
  split at h
  next hb =>
    rw [ite_error_eq_ok, Except.ok.injEq] at h
    obtain ⟨rfl, rfl⟩ := h
    exact WordOf.of_eq ⟨rfl, rfl⟩ (ReadsFI.encFI (imm := true) hop ⟨rfl, hdm, (Reg.field_ofField _).symm, ha, rfl, rfl, hu, hty,
      fn_eq_one.2 ⟨hf, hb⟩⟩)
  next hb =>
    obtain rfl := Except.ok.inj h
    exact WordOf.of_eq ⟨rfl, rfl⟩ (ReadsFI.encFI (imm := true) hop ⟨rfl, hdm, (Reg.field_ofField _).symm, ha, rfl, rfl, hu, hty,
      fn_eq_zero.2 ⟨hf, Bool.eq_false_iff.2 hb⟩⟩)

theorem decMovi_enc {a : MoviArgs} (hw : a.wf = true)
    (he : encI 0x71 a.g 0 a.d.field (.v 0) (.imm a.imm) a.ty.ty4 0 = r.toWord 2) : decMovi r = .ok (.movi a) := by
  simp only [MoviArgs.wf, Bool.and_eq_true] at hw
  obtain ⟨hty, hd⟩ := hw
  have htx : a.ty.tx = 0 := by revert hty; cases a.ty <;> decide
  have h := readsFI_of_encFI (imm := true) (n := 1) (k := 1) rfl rfl rfl he
  obtain ⟨hk, ha⟩ := FRaw.noK_and_a_iff.2 ⟨h.a, h.uix⟩
  obtain ⟨hf, hb⟩ := fn_eq_zero.1 h.fn
  simp only [decMovi, zero_eq_ok, need_eq_ok, Bool.and_eq_true, beq_iff_eq]
  refine ⟨⟨⟨⟨h.dm, hk⟩, ha⟩, hf⟩, a.ty, FRaw.ofCode_fnTy.2 ⟨htx, h.ty.symm⟩, ?_⟩
  rw [hb, if_neg Bool.false_ne_true, h.guard, h.d, Reg.ofField_field hd, Opnd.imm.inj h.b]

theorem decMovi_encHi {a : MoviHiArgs} (hw : a.wf = true)
    (he : encI 0x71 a.g 0 a.d.field (.v 0) (.imm a.imm) 6 1 = r.toWord 2) : decMovi r = .ok (.moviHi a) := by
  have h := readsFI_of_encFI (imm := true) (n := 1) (k := 1) rfl rfl rfl he
  obtain ⟨hk, ha⟩ := FRaw.noK_and_a_iff.2 ⟨h.a, h.uix⟩
  obtain ⟨hf, hb⟩ := fn_eq_one.1 h.fn
  simp only [decMovi, zero_eq_ok, need_eq_ok, Bool.and_eq_true, beq_iff_eq]
  refine ⟨⟨⟨⟨h.dm, hk⟩, ha⟩, hf⟩, .b32, FRaw.ofCode_fnTy.2 ⟨rfl, h.ty.symm⟩, ?_⟩
  rw [hb, if_pos rfl, if_pos rfl, h.guard, h.d, Reg.ofField_field hw, Opnd.imm.inj h.b]

/-- movk: UIX stands with no KB, and names the destination with D (R214). -/
theorem wordOf_decMovk (hop : r.op = 0x72) (h : decMovk r = .ok i) : WordOf i (r.toWord 0) := by
  simp only [decMovk, zero_eq_ok, ite_error_eq_ok, Bool.and_eq_true, Bool.not_eq_true', beq_iff_eq, Except.ok.injEq] at h
  obtain ⟨⟨⟨⟨⟨hdm, hk⟩, hb⟩, hc⟩, hf⟩, ht, rfl⟩ := h
  obtain ⟨hgn, hgp⟩ := FRaw.guard_eq.1 (rfl : r.guard = r.guard)
  obtain ⟨hx, hd⟩ := kField_eq.1 (rfl : r.uix ++ r.d = r.uix ++ r.d)
  have hkb : r.kb = 0 := by rw [FRaw.kb_eq, hk]; rfl
  have hm := FRaw.m_eq.2 ⟨(rfl : r.uix = r.uix), hf⟩
  refine WordOf.of_eq ⟨rfl, rfl⟩ (congrArg (FRaw.toWord 0) ?_)
  exact (FRaw.mk.injEq ..).mpr ⟨hop.symm, hgn.symm, hgp.symm, hdm.symm, hd, Reg.field_ofField _, hb.symm, hc.symm, ht.symm,
    hkb.symm, (congrArg (· ++ 0#9) hx).trans hm.symm⟩

theorem decMovk_enc {a : MovkArgs} (hw : a.wf = true) (he : FRaw.toWord 0
      ⟨0x72, bit a.g.neg, a.g.p, 0, a.k.extractLsb' 0 8, a.a.field, 0, 0, 6, 0, a.k.extractLsb' 8 2 ++ 0#9⟩ = r.toWord 0) :
    decMovk r = .ok (.movk a) := by
  have hr := FRaw.toWord_inj he
  obtain ⟨hx, hf⟩ := FRaw.m_eq.1 (congrArg FRaw.m hr).symm
  subst hr
  simp only [decMovk, zero_eq_ok, ite_error_eq_ok, Bool.and_eq_true, Bool.not_eq_true', beq_iff_eq, Except.ok.injEq]
  exact ⟨⟨⟨⟨⟨trivial, rfl⟩, trivial⟩, trivial⟩, hf⟩, trivial,
    by rw [FRaw.guard_mk rfl rfl, Reg.ofField_field_of_srcOk hw, hx, extractLsb'_append_low (n := 2) (k := 8) a.k]⟩

theorem wordOf_decMovs (hop : r.op = 0x73) (h : decMovs r = .ok i) : WordOf i (r.toWord 0) := by
  simp only [decMovs, zero_eq_ok, ite_error_eq_ok, Bool.and_eq_true, beq_iff_eq] at h
  obtain ⟨⟨⟨⟨⟨hdm, hk⟩, hb⟩, hc⟩, hf⟩, ht, h⟩ := h
  obtain ⟨hb, hu⟩ := FRaw.noK_and_b_iff.1 ⟨hk, hb⟩
  split at h
  next hx =>
    rw [ite_error_eq_ok, Except.ok.injEq] at h
    obtain ⟨hd, rfl⟩ := h
    exact WordOf.of_eq ⟨rfl, rfl⟩
      (ReadsF.encF hop rfl ⟨rfl, hdm, hd, (Reg.field_ofField _).symm, hb, hc, hu, ht, fn_eq_one.2 ⟨hf, hx⟩⟩)
  next hx =>
    simp only [need_eq_ok, Except.ok.injEq] at h
    obtain ⟨s, hs, rfl⟩ := h
    exact WordOf.of_eq ⟨rfl, rfl⟩ (ReadsF.encF hop rfl ⟨rfl, hdm, (Reg.field_ofField _).symm,
      (Special.code_of_ofCode _ _ hs).symm, hb, hc, hu, ht, fn_eq_zero.2 ⟨hf, Bool.eq_false_iff.2 hx⟩⟩)

theorem decMovs_encRead {a : MovsArgs} (hw : a.wf = true) (he : encF 0x73 a.g 0 a.d.field (.v a.sr.code) (.v 0) 0 6 0 = r.toWord 0) :
    decMovs r = .ok (.movsRead a) := by
  have h := readsF_of_encF (n := 1) rfl rfl he
  obtain ⟨hk, hb⟩ := FRaw.noK_and_b_iff.2 ⟨h.b, h.uix⟩
  obtain ⟨hf, hx⟩ := fn_eq_zero.1 h.fn
  have hs : Special.ofCode r.a = some a.sr := by rw [h.a]; exact Special.ofCode_code _
  simp only [decMovs, zero_eq_ok, ite_error_eq_ok, Bool.and_eq_true, beq_iff_eq]
  refine ⟨⟨⟨⟨⟨h.dm, hk⟩, hb⟩, h.c⟩, hf⟩, h.ty, ?_⟩
  rw [hx, if_neg Bool.false_ne_true, hs, h.guard, h.d, Reg.ofField_field hw]
  rfl

theorem decMovs_encWrite {a : MovWriteArgs} (hw : a.wf = true) (he : encF 0x73 a.g 0 0x20 (.v a.a.field) (.v 0) 0 6 1 = r.toWord 0) :
    decMovs r = .ok (.movsWriteFsr a) := by
  have h := readsF_of_encF (n := 1) rfl rfl he
  obtain ⟨hk, hb⟩ := FRaw.noK_and_b_iff.2 ⟨h.b, h.uix⟩
  obtain ⟨hf, hx⟩ := fn_eq_one.1 h.fn
  have ha : Reg.ofField r.a = a.a := by rw [h.a]; exact Reg.ofField_field_of_srcOk hw
  simp only [decMovs, zero_eq_ok, ite_error_eq_ok, Bool.and_eq_true, beq_iff_eq]
  refine ⟨⟨⟨⟨⟨h.dm, hk⟩, hb⟩, h.c⟩, hf⟩, h.ty, ?_⟩
  rw [hx, if_pos rfl, h.d, h.guard, ha]
  rfl

theorem wordOf_decMovp (hop : r.op = 0x74) (h : decMovp r = .ok i) : WordOf i (r.toWord 0) := by
  simp only [decMovp, zero_eq_ok, ite_error_eq_ok, Bool.and_eq_true, beq_iff_eq] at h
  obtain ⟨⟨⟨⟨⟨hdm, hk⟩, hb⟩, hc⟩, hf⟩, ht, h⟩ := h
  obtain ⟨hb, hu⟩ := FRaw.noK_and_b_iff.1 ⟨hk, hb⟩
  split at h <;> rw [zero_eq_ok, beq_iff_eq, Except.ok.injEq] at h
  next hx =>
    obtain ⟨hd, rfl⟩ := h
    exact WordOf.of_eq ⟨rfl, rfl⟩
      (ReadsF.encF hop rfl ⟨rfl, hdm, hd, (Reg.field_ofField _).symm, hb, hc, hu, ht, fn_eq_one.2 ⟨hf, hx⟩⟩)
  next hx =>
    obtain ⟨ha, rfl⟩ := h
    exact WordOf.of_eq ⟨rfl, rfl⟩ (ReadsF.encF hop rfl
      ⟨rfl, hdm, (Reg.field_ofField _).symm, ha, hb, hc, hu, ht, fn_eq_zero.2 ⟨hf, Bool.eq_false_iff.2 hx⟩⟩)

theorem decMovp_encRead {a : MovpArgs} (hw : a.wf = true) (he : encF 0x74 a.g 0 a.d.field (.v 0) (.v 0) 0 6 0 = r.toWord 0) :
    decMovp r = .ok (.movpRead a) := by
  have h := readsF_of_encF (n := 1) rfl rfl he
  obtain ⟨hk, hb⟩ := FRaw.noK_and_b_iff.2 ⟨h.b, h.uix⟩
  obtain ⟨hf, hx⟩ := fn_eq_zero.1 h.fn
  simp only [decMovp, zero_eq_ok, ite_error_eq_ok, Bool.and_eq_true, beq_iff_eq]
  refine ⟨⟨⟨⟨⟨h.dm, hk⟩, hb⟩, h.c⟩, hf⟩, h.ty, ?_⟩
  rw [hx, if_neg Bool.false_ne_true, h.a, h.guard, h.d, Reg.ofField_field hw]
  rfl

theorem decMovp_encWrite {a : MovWriteArgs} (hw : a.wf = true) (he : encF 0x74 a.g 0 0 (.v a.a.field) (.v 0) 0 6 1 = r.toWord 0) :
    decMovp r = .ok (.movpWrite a) := by
  have h := readsF_of_encF (n := 1) rfl rfl he
  obtain ⟨hk, hb⟩ := FRaw.noK_and_b_iff.2 ⟨h.b, h.uix⟩
  obtain ⟨hf, hx⟩ := fn_eq_one.1 h.fn
  have ha : Reg.ofField r.a = a.a := by rw [h.a]; exact Reg.ofField_field_of_srcOk hw
  simp only [decMovp, zero_eq_ok, ite_error_eq_ok, Bool.and_eq_true, beq_iff_eq]
  refine ⟨⟨⟨⟨⟨h.dm, hk⟩, hb⟩, h.c⟩, hf⟩, h.ty, ?_⟩
  rw [hx, if_pos rfl, h.d, h.guard, ha]
  rfl

/-! #### Words of the compatibility unit (R165) -/

/-- FTZ, SAT and the plain marks of an xop are 0. -/
theorem FRaw.xop_iff : r.xopOk = true ∧ r.rm = m.code ∧ t.tx = r.m.extractLsb' 0 1 ↔
    r.dm = 0 ∧ r.fn = flMod m false false false false false t := by
  rw [FRaw.fn_eq_flMod, FRaw.xopOk]
  simp only [Bool.and_eq_true, Bool.not_eq_true', beq_iff_eq]
  tauto

theorem FRaw.flTy_eq {c : BitVec 5} (hc : c = t.code) : r.flTy = c ↔ t.tx = r.m.extractLsb' 0 1 ∧ t.ty4 = r.ty := by
  rw [hc, eq_comm]
  exact eq_append_iff 1 4

/-- FN of an FP64 form: its rounding mode alone. -/
theorem flMod_f64 : m.code ++ 0#6 = flMod m false false false false false .f64 := by cases m <;> rfl

theorem wordOf_decXf {mk : XfArgs → Instr} (hop : r.op = op) (he : ∀ a, WordOf (mk a) (a.enc op))
    (h : decXf r mk = .ok i) : WordOf i (r.toWord 0) := by
  simp only [decXf, zero_eq_ok, need_eq_ok, ite_error_eq_ok, Bool.and_eq_true, beq_iff_eq, Except.ok.injEq] at h
  obtain ⟨⟨hx, hu⟩, ht, m, hm, rfl⟩ := h
  obtain ⟨htx, hty⟩ := (FRaw.flTy_eq (t := .f64) rfl).1 ht
  obtain ⟨hdm, hf⟩ := FRaw.xop_iff.1 ⟨hx, (RM.code_of_ofCode _ _ hm).symm, htx⟩
  exact (he _).of_eq (ReadsF.encF hop (Opnd.field_ofField _) ⟨rfl, hdm, rfl, rfl, rfl, rfl, hu, hty.symm, hf.trans flMod_f64.symm⟩)

/-- R165: the operands of a legal FP64 form of two or three sources. -/
theorem XfArgs.operands_of_wf {a : XfArgs} {n : Nat} (hn : n ≠ 1) (hw : a.wf n = true) :
    a.a.isVQ = true ∧ a.a.ok 2 = true ∧ a.b.isImm = false ∧ a.b.ok 2 = true ∧ (n ≠ 3 → a.c = 0) := by
  simp only [XfArgs.wf, if_neg hn, Bool.and_eq_true] at hw
  obtain ⟨⟨-, ⟨hav, ha⟩, hb⟩, hc⟩ := hw
  have hv : a.a.isVQ = true := by
    revert hav
    cases a.a <;> simp [Opnd.isV, Opnd.isVQ]
  obtain ⟨hbi, hb⟩ := Opnd.of_groupOk hb
  refine ⟨hv, (Opnd.of_groupOk ha).2, hbi, hb, fun h3 => ?_⟩
  rw [if_neg h3] at hc
  exact beq_iff_eq.1 hc

theorem decXf_enc {mk : XfArgs → Instr} {a : XfArgs} {n : Nat} (hn : n ≠ 1) (hw : a.wf n = true) (he : a.enc op = r.toWord 0) :
    decXf r mk = .ok (mk a) := by
  obtain ⟨hav, ha, hbi, hb, -⟩ := XfArgs.operands_of_wf hn hw
  have h := readsF_of_encF hbi hb he
  obtain ⟨hx, hrm, htx⟩ := FRaw.xop_iff.2 ⟨h.dm, h.fn.trans flMod_f64⟩
  simp only [decXf, zero_eq_ok, need_eq_ok, ite_error_eq_ok, Bool.and_eq_true, beq_iff_eq, Except.ok.injEq]
  exact ⟨⟨hx, h.uix⟩, (FRaw.flTy_eq (t := .f64) rfl).2 ⟨htx, h.ty.symm⟩, a.rm, by rw [hrm, RM.ofCode_code],
    by rw [h.guard, h.d, FRaw.srcA_false h.a hav ha, h.b, h.c]⟩

/-- A form of two sources has no C. -/
theorem decXf2_enc {mk : XfArgs → Instr} {a : XfArgs} (hw : a.wf 2 = true) (he : a.enc op = r.toWord 0) :
    zero (r.c == 0) (decXf r mk) = .ok (mk a) := by
  obtain ⟨-, -, hbi, hb, hc⟩ := XfArgs.operands_of_wf (by decide) hw
  have h := readsF_of_encF hbi hb he
  exact zero_eq_ok.2 ⟨beq_iff_eq.2 (h.c.trans (hc (by decide))), decXf_enc (by decide) hw he⟩

theorem wordOf_decXf1 {mk : XfArgs → Instr} (hop : r.op = op) (he : ∀ a, WordOf (mk a) (a.enc1 op))
    (h : decXf1 r mk = .ok i) : WordOf i (r.toWord 0) := by
  simp only [decXf1, zero_eq_ok, need_eq_ok, ite_error_eq_ok, Bool.and_eq_true, beq_iff_eq, Except.ok.injEq] at h
  obtain ⟨⟨⟨hx, hone⟩, hc⟩, ht, m, hm, rfl⟩ := h
  obtain ⟨htx, hty⟩ := (FRaw.flTy_eq (t := .f64) rfl).1 ht
  obtain ⟨hdm, hf⟩ := FRaw.xop_iff.1 ⟨hx, (RM.code_of_ofCode _ _ hm).symm, htx⟩
  exact (he _).of_eq (ReadsF1.encF1 hop ⟨rfl, hdm, rfl, rfl, hone, hc, hty.symm, hf.trans flMod_f64.symm⟩)

theorem decXf1_enc {mk : XfArgs → Instr} {a : XfArgs} (hw : a.wf 1 = true) (he : a.enc1 op = r.toWord 0) :
    decXf1 r mk = .ok (mk a) := by
  simp only [XfArgs.wf, if_pos, Bool.and_eq_true, beq_iff_eq] at hw
  obtain ⟨⟨-, ha, hb⟩, hc⟩ := hw
  rw [if_neg (by decide), beq_iff_eq] at hc
  obtain ⟨hi, ha⟩ := Opnd.of_groupOk ha
  have h := readsF1_of_encF1 hi ha he
  obtain ⟨hx, hrm, htx⟩ := FRaw.xop_iff.2 ⟨h.dm, h.fn.trans flMod_f64⟩
  simp only [decXf1, zero_eq_ok, need_eq_ok, ite_error_eq_ok, Bool.and_eq_true, beq_iff_eq, Except.ok.injEq]
  exact ⟨⟨⟨hx, h.one⟩, h.c⟩, (FRaw.flTy_eq (t := .f64) rfl).2 ⟨htx, h.ty.symm⟩, a.rm, by rw [hrm, RM.ofCode_code],
    by rw [h.guard, h.d, h.a, ← hb, ← hc]⟩

theorem flMod_xfcvt : m.code ++ 0#5 ++ t.tx = flMod m false false false false false t := by
  rw [flMod]
  congr 1
  cases m <;> rfl

theorem wordOf_decXfcvt (hop : r.op = 0xF6) (h : decXfcvt r = .ok i) : WordOf i (r.toWord 0) := by
  simp only [decXfcvt, zero_eq_ok, need_eq_ok, Bool.and_eq_true, beq_iff_eq, Except.ok.injEq] at h
  obtain ⟨⟨⟨hx, hone⟩, hc⟩, t, ht, s, hs, m, hm, rfl⟩ := h
  obtain ⟨htx, hty⟩ := FRaw.ofCode_flTy.1 ht
  obtain ⟨hdm, hf⟩ := FRaw.xop_iff.1 ⟨hx, (RM.code_of_ofCode _ _ hm).symm, htx⟩
  exact WordOf.of_eq ⟨rfl, rfl⟩ (ReadsF1.encF1 hop ⟨rfl, hdm, (Reg.field_ofField _).symm, rfl, hone,
    (zero_append_iff 3 5).2 ⟨hc, (Ty.ofCode_eq_some.1 hs).symm⟩, hty.symm, hf.trans flMod_xfcvt.symm⟩)

/-- R165: the operands of a legal xfcvt. -/
theorem XfcvtArgs.operands_of_wf {a : XfcvtArgs} (hw : a.wf = true) :
    a.a.isImm = false ∧ (∃ n, a.a.ok n = true) ∧ ∃ n, a.d.ok n = true := by
  simp only [XfcvtArgs.wf, Bool.and_eq_true, Bool.or_eq_true (_ && _), Bool.not_eq_true'] at hw
  rcases hw with ⟨⟨⟨-, hi⟩, ha⟩, hd⟩ | ⟨⟨-, ha⟩, hd⟩
  · refine ⟨hi, ⟨_, ha⟩, 2, ?_⟩
    revert hd
    cases a.d <;> simp [Reg.ok]
  · obtain ⟨hi, ha⟩ := Opnd.of_groupOk ha
    exact ⟨hi, ⟨_, ha⟩, _, hd⟩

theorem decXfcvt_enc {a : XfcvtArgs} (hw : a.wf = true) (he : encF1 0xF6 a.g 0 a.d.field a.a (0#3 ++ a.sty.code) a.dty.ty4
      (a.rm.code ++ 0#5 ++ a.dty.tx) = r.toWord 0) : decXfcvt r = .ok (.xfcvt a) := by
  obtain ⟨hi, ⟨n, ha⟩, k, hd⟩ := XfcvtArgs.operands_of_wf hw
  have h := readsF1_of_encF1 hi ha he
  obtain ⟨hx, hrm, htx⟩ := FRaw.xop_iff.2 ⟨h.dm, h.fn.trans flMod_xfcvt⟩
  obtain ⟨hc, hs⟩ := (zero_append_iff 3 5).1 h.c
  simp only [decXfcvt, zero_eq_ok, need_eq_ok, Bool.and_eq_true, beq_iff_eq, Except.ok.injEq]
  exact ⟨⟨⟨hx, h.one⟩, hc⟩, a.dty, FRaw.ofCode_flTy.2 ⟨htx, h.ty.symm⟩, a.sty, Ty.ofCode_eq_some.2 hs.symm, a.rm,
    by rw [hrm, RM.ofCode_code], by rw [h.guard, h.d, Reg.ofField_field hd, h.a]⟩

theorem wordOf_decXfsetp (hop : r.op = 0xF7) (h : decXfsetp r = .ok i) : WordOf i (r.toWord 0) := by
  simp only [decXfsetp, zero_eq_ok, need_eq_ok, ite_error_eq_ok, Bool.and_eq_true, beq_iff_eq, Except.ok.injEq] at h
  obtain ⟨⟨⟨hx, hu⟩, hc⟩, ht, c, hcond, p, hp, m, hm, rfl⟩ := h
  obtain ⟨htx, hty⟩ := (FRaw.flTy_eq (t := .f64) rfl).1 ht
  obtain ⟨hdm, hf⟩ := FRaw.xop_iff.1 ⟨hx, (RM.code_of_ofCode _ _ hm).symm, htx⟩
  exact WordOf.of_eq ⟨rfl, rfl⟩ (ReadsF.encF hop (Opnd.field_ofField _) ⟨rfl, hdm, predField_eq_some.1 hp, rfl, rfl,
    (zero_append_iff 4 4).2 ⟨hc, (Cond.code_of_ofCode _ _ hcond).symm⟩, hu, hty.symm, hf.trans flMod_f64.symm⟩)

theorem decXfsetp_enc {a : XfsetpArgs} (hw : a.wf = true)
    (he : encF 0xF7 a.g 0 (0#5 ++ a.pd) a.a a.b (0#4 ++ a.cond.code) 7 (a.rm.code ++ 0#6) = r.toWord 0) :
    decXfsetp r = .ok (.xfsetp a) := by
  simp only [XfsetpArgs.wf, Bool.and_eq_true] at hw
  obtain ⟨⟨⟨-, hav⟩, ha⟩, hb⟩ := hw
  have hv : a.a.isVQ = true := by
    revert hav
    cases a.a <;> simp [Opnd.isV, Opnd.isVQ]
  obtain ⟨hbi, hb⟩ := Opnd.of_groupOk hb
  have h := readsF_of_encF hbi hb he
  obtain ⟨hx, hrm, htx⟩ := FRaw.xop_iff.2 ⟨h.dm, h.fn.trans flMod_f64⟩
  obtain ⟨hc, hcond⟩ := (zero_append_iff 4 4).1 h.c
  simp only [decXfsetp, zero_eq_ok, need_eq_ok, ite_error_eq_ok, Bool.and_eq_true, beq_iff_eq, Except.ok.injEq]
  exact ⟨⟨⟨hx, h.uix⟩, hc⟩, (FRaw.flTy_eq (t := .f64) rfl).2 ⟨htx, h.ty.symm⟩, a.cond, by rw [hcond, Cond.ofCode_code], a.pd,
    predField_eq_some.2 h.d, a.rm, by rw [hrm, RM.ofCode_code],
    by rw [h.guard, FRaw.srcA_false h.a hv (Opnd.of_groupOk ha).2, h.b]⟩

/-- FN of an xop that does not round, with a type whose code is below 16. -/
theorem FRaw.xop_plain_iff (htx : t.tx = 0) : (r.xopOk = true ∧ r.rm = 0) ∧ r.flTy = t.code ↔
    r.dm = 0 ∧ r.fn = 0 ∧ t.ty4 = r.ty := by
  have hf : flMod .rne false false false false false t = 0 := by rw [flMod, htx]; rfl
  have := FRaw.xop_iff (r := r) (m := .rne) (t := t)
  rw [hf] at this
  rw [FRaw.flTy_eq rfl, ← and_assoc (a := r.dm = 0), ← this, show RM.rne.code = 0 from rfl]
  tauto

theorem wordOf_decXint {mk : XintArgs → Instr} (hop : r.op = op) (he : ∀ a, WordOf (mk a) (a.enc op))
    (h : decXint r mk = .ok i) : WordOf i (r.toWord 0) := by
  simp only [decXint, zero_eq_ok, ite_error_eq_ok, Bool.and_eq_true, Bool.or_eq_true, beq_iff_eq, Except.ok.injEq] at h
  obtain ⟨⟨⟨hx, hu⟩, hc⟩, ht, rfl⟩ := h
  have hsgn : r.dm = 0 ∧ r.fn = 0 ∧ r.ty = 0#3 ++ bit (r.flTy == 1) := by
    rcases ht with ht | ht <;> rw [ht]
    · obtain ⟨hdm, hf, hty⟩ := (FRaw.xop_plain_iff (t := .u32) rfl).1 ⟨hx, ht⟩
      exact ⟨hdm, hf, hty.symm⟩
    · obtain ⟨hdm, hf, hty⟩ := (FRaw.xop_plain_iff (t := .i32) rfl).1 ⟨hx, ht⟩
      exact ⟨hdm, hf, hty.symm⟩
  obtain ⟨hdm, hf, hty⟩ := hsgn
  exact (he _).of_eq (ReadsF.encF hop (Opnd.field_ofField _) ⟨rfl, hdm, (Reg.field_ofField _).symm, rfl, rfl, hc, hu, hty, hf⟩)

theorem decXint_enc {mk : XintArgs → Instr} {a : XintArgs} (hw : a.wf = true) (he : a.enc op = r.toWord 0) :
    decXint r mk = .ok (mk a) := by
  simp only [XintArgs.wf, Bool.and_eq_true] at hw
  obtain ⟨⟨⟨⟨hform, ha⟩, hb⟩, hd⟩, -⟩ := hw
  obtain ⟨hbi, hav⟩ := of_formOk hform
  have h := readsF_of_encF hbi hb he
  have hsgn : (r.xopOk = true ∧ r.rm = 0) ∧ (r.flTy = 0 ∨ r.flTy = 1) ∧ (r.flTy == 1) = a.sgn := by
    cases hs : a.sgn
    · obtain ⟨hx, ht⟩ := (FRaw.xop_plain_iff (t := .u32) rfl).2 ⟨h.dm, h.fn, by rw [h.ty, hs]; rfl⟩
      exact ⟨hx, .inl ht, by rw [ht]; rfl⟩
    · obtain ⟨hx, ht⟩ := (FRaw.xop_plain_iff (t := .i32) rfl).2 ⟨h.dm, h.fn, by rw [h.ty, hs]; rfl⟩
      exact ⟨hx, .inr ht, by rw [ht]; rfl⟩
  obtain ⟨hx, ht, hs⟩ := hsgn
  simp only [decXint, zero_eq_ok, ite_error_eq_ok, Bool.and_eq_true, Bool.or_eq_true, beq_iff_eq, Except.ok.injEq]
  exact ⟨⟨⟨hx, h.uix⟩, h.c⟩, ht, by rw [h.guard, hs, h.d, Reg.ofField_field hd, FRaw.srcA_false h.a hav ha, h.b]⟩

theorem wordOf_decXop2 {mk : Xop2Args → Instr} (htx : t.tx = 0) (hop : r.op = op) (he : ∀ a, WordOf (mk a) (a.enc op t.ty4))
    (h : decXop2 r t.code mk = .ok i) : WordOf i (r.toWord 0) := by
  simp only [decXop2, zero_eq_ok, ite_error_eq_ok, Bool.and_eq_true, beq_iff_eq, Except.ok.injEq] at h
  obtain ⟨⟨⟨hx, hu⟩, hc⟩, ht, rfl⟩ := h
  obtain ⟨hdm, hf, hty⟩ := (FRaw.xop_plain_iff htx).1 ⟨hx, ht⟩
  exact (he _).of_eq (ReadsF.encF hop (Opnd.field_ofField _)
    ⟨rfl, hdm, (Reg.field_ofField _).symm, rfl, rfl, hc, hu, hty.symm, hf⟩)

theorem decXop2_enc {mk : Xop2Args → Instr} {a : Xop2Args} (htx : t.tx = 0) (hw : a.wf = true)
    (he : a.enc op t.ty4 = r.toWord 0) : decXop2 r t.code mk = .ok (mk a) := by
  simp only [Xop2Args.wf, Bool.and_eq_true] at hw
  obtain ⟨⟨⟨⟨hform, ha⟩, hb⟩, hd⟩, -⟩ := hw
  obtain ⟨hbi, hav⟩ := of_formOk hform
  have h := readsF_of_encF hbi hb he
  obtain ⟨hx, ht⟩ := (FRaw.xop_plain_iff htx).2 ⟨h.dm, h.fn, h.ty.symm⟩
  simp only [decXop2, zero_eq_ok, ite_error_eq_ok, Bool.and_eq_true, beq_iff_eq, Except.ok.injEq]
  exact ⟨⟨⟨hx, h.uix⟩, h.c⟩, ht, by rw [h.guard, h.d, Reg.ofField_field hd, FRaw.srcA_false h.a hav ha, h.b]⟩

theorem wordOf_decXcvt2 (hop : r.op = 0xFF) (h : decXcvt2 r = .ok i) : WordOf i (r.toWord 0) := by
  simp only [decXcvt2, zero_eq_ok, ite_error_eq_ok, Bool.and_eq_true, beq_iff_eq, Except.ok.injEq] at h
  obtain ⟨⟨⟨hx, hone⟩, hc⟩, ht, rfl⟩ := h
  obtain ⟨hdm, hf, hty⟩ := (FRaw.xop_plain_iff (t := .i32) rfl).1 ⟨hx, ht⟩
  exact WordOf.of_eq ⟨rfl, rfl⟩
    (ReadsF1.encF1 hop ⟨rfl, hdm, (Reg.field_ofField _).symm, rfl, hone, hc, hty.symm, hf⟩)

theorem decXcvt2_enc {a : Log1Args} (hw : a.wf = true) (he : encF1 0xFF a.g 0 a.d.field a.a 0 1 0 = r.toWord 0) :
    decXcvt2 r = .ok (.xcvt2 a) := by
  simp only [Log1Args.wf, Bool.and_eq_true, Bool.not_eq_true'] at hw
  obtain ⟨⟨hi, ha⟩, hd⟩ := hw
  have h := readsF1_of_encF1 hi ha he
  obtain ⟨hx, ht⟩ := (FRaw.xop_plain_iff (t := .i32) rfl).2 ⟨h.dm, h.fn, h.ty.symm⟩
  simp only [decXcvt2, zero_eq_ok, ite_error_eq_ok, Bool.and_eq_true, beq_iff_eq, Except.ok.injEq]
  exact ⟨⟨⟨hx, h.one⟩, h.c⟩, ht, by rw [h.guard, h.d, Reg.ofField_field hd, h.a]⟩

end

/-! #### M-words as their fields (R159) -/

theorem MRaw.ofWord_toWord (r : MRaw) : MRaw.ofWord r.toWord = r := by
  simp (disch := decide) only [MRaw.ofWord, MRaw.toWord, BitVec.extractLsb'_append_eq_of_add_le,
    BitVec.extractLsb'_append_eq_of_le, extractLsb'_self]

theorem MRaw.toWord_ofWord {w : Dword} (h : w.extractLsb' 62 2 = 3) : (MRaw.ofWord w).toWord = w := by
  unfold MRaw.toWord
  rw [show (3#2 : BitVec 2) = w.extractLsb' 62 2 from h.symm]
  simp (disch := decide) only [MRaw.ofWord, BitVec.extractLsb'_append_extractLsb'_eq_extractLsb', extractLsb'_self]

theorem MRaw.class_toWord (r : MRaw) : r.toWord.extractLsb' 62 2 = 3 := by
  simp (disch := decide) only [MRaw.toWord, BitVec.extractLsb'_append_eq_of_le]
  rfl

theorem MRaw.toWord_inj {r r' : MRaw} : r.toWord = r'.toWord ↔ r = r' :=
  ⟨fun h => by rw [← MRaw.ofWord_toWord r, h, MRaw.ofWord_toWord], congrArg _⟩

theorem MRaw.guard_eq {r : MRaw} {g : Guard} : r.guard = g ↔ r.gn = bit g.neg ∧ r.gp = g.p :=
  FRaw.guard_eq (r := ⟨0, r.gn, r.gp, 0, 0, 0, 0, 0, 0, 0, 0⟩)

theorem MRaw.base_eq {r : MRaw} {b : Base} : r.base = b ↔ r.a = b.field ∧ r.ka = b.kBit := by
  obtain ⟨-, -, -, -, x, k, -, -, -, -⟩ := r
  have hk : k = 0 ∨ k = 1 := by revert k; decide
  rcases hk with rfl | rfl <;> cases b <;> simp [MRaw.base, Base.field, Base.kBit]

theorem MRaw.noA_iff {r : MRaw} : r.noA = true ↔ r.a = 0 ∧ r.ka = 0 := by
  simp [MRaw.noA]

theorem MRaw.noOrd_iff {r : MRaw} : r.noOrd = true ↔ r.scope = 0 ∧ r.order = 0 := by
  simp [MRaw.noOrd]

section
variable {r : MRaw} {op d a mod : BitVec 8} {g : Guard} {ka : BitVec 1} {f : BitVec 20} {sc : BitVec 3} {o : BitVec 2} {i : Instr}

/-- An M-word's fields, order and scope among them. -/
theorem MRaw.mk_toWord (hop : r.op = op) : MRaw.toWord ⟨op, bit g.neg, g.p, d, a, ka, f, sc, o, mod⟩ = r.toWord ↔
    r.guard = g ∧ r.d = d ∧ r.a = a ∧ r.ka = ka ∧ r.f20 = f ∧ r.scope = sc ∧ r.order = o ∧ r.mod = mod := by
  rw [MRaw.toWord_inj, MRaw.guard_eq, eq_comm, and_assoc]
  exact (Iff.of_eq (MRaw.mk.injEq ..)).trans (and_iff_right hop)

/-- The fields of an M-word without order and scope. -/
theorem encM_eq (hop : r.op = op) : encM op g d a ka f mod = r.toWord ↔
    r.guard = g ∧ r.d = d ∧ r.a = a ∧ r.ka = ka ∧ r.f20 = f ∧ r.noOrd = true ∧ r.mod = mod := by
  rw [MRaw.noOrd_iff, and_assoc]
  exact MRaw.mk_toWord hop

/-- The fields of an M-word with a base. -/
theorem encM_base_eq (hop : r.op = op) {b : Base} : encM op g d b.field b.kBit f mod = r.toWord ↔
    r.guard = g ∧ r.d = d ∧ r.base = b ∧ r.f20 = f ∧ r.noOrd = true ∧ r.mod = mod := by
  rw [encM_eq hop, MRaw.base_eq, and_assoc]

/-- The fields of an M-word without an A operand. -/
theorem encM_noA_eq (hop : r.op = op) : encM op g d 0 0 f mod = r.toWord ↔
    r.guard = g ∧ r.d = d ∧ r.noA = true ∧ r.f20 = f ∧ r.noOrd = true ∧ r.mod = mod := by
  rw [encM_eq hop, MRaw.noA_iff, and_assoc]

/-! #### Fields below clear bits -/

theorem ushiftRight_eq_zero {w n k : Nat} (x : BitVec w) (hw : w ≤ n + k) : x >>> k = 0 ↔ x.extractLsb' k n = 0#n := by
  have hlt : x.toNat >>> k < 2 ^ n := by
    rw [Nat.shiftRight_eq_div_pow, Nat.div_lt_iff_lt_mul (Nat.two_pow_pos k), ← Nat.pow_add]
    exact x.isLt.trans_le (Nat.pow_le_pow_right (by decide) hw)
  rw [← BitVec.toNat_inj, ← BitVec.toNat_inj, BitVec.extractLsb'_toNat, Nat.mod_eq_of_lt hlt]
  simp

theorem clear_append_iff (n k : Nat) {x : BitVec (n + k)} {z : BitVec k} :
    x = 0#n ++ z ↔ x >>> k = 0 ∧ x.extractLsb' 0 k = z := by
  rw [ushiftRight_eq_zero x le_rfl]
  exact zero_append_iff n k

theorem clear_append_bit_iff (n : Nat) {x : BitVec (n + 1)} {b : Bool} :
    x = 0#n ++ bit b ↔ x >>> 1 = 0 ∧ x.getLsbD 0 = b := by
  rw [clear_append_iff, extractLsb'_one]

theorem clear_append_append_iff (n k l : Nat) {x : BitVec (n + k + l)} {y : BitVec k} {z : BitVec l} :
    x = 0#n ++ y ++ z ↔ x >>> (l + k) = 0 ∧ x.extractLsb' l k = y ∧ x.extractLsb' 0 l = z := by
  rw [eq_append_iff (n + k) l, zero_append_iff n k, extractLsb'_extractLsb' x (by omega), extractLsb'_extractLsb' x (by omega),
    and_assoc, ushiftRight_eq_zero x (n := n) (by omega)]
  rfl

theorem clear_append_append_append_iff (n j k l : Nat) {x : BitVec (n + j + k + l)} {v : BitVec j} {y : BitVec k} {z : BitVec l} :
    x = 0#n ++ v ++ y ++ z ↔
      x >>> (l + k + j) = 0 ∧ x.extractLsb' (l + k) j = v ∧ x.extractLsb' l k = y ∧ x.extractLsb' 0 l = z := by
  rw [eq_append_iff (n + j + k) l, clear_append_append_iff n j k, ushiftRight_eq_zero _ (n := n) (by omega),
    extractLsb'_extractLsb' x (by omega), extractLsb'_extractLsb' x (by omega), extractLsb'_extractLsb' x (by omega), and_assoc,
    and_assoc, ushiftRight_eq_zero x (n := n) (by omega), ← Nat.add_assoc]
  rfl

end

section
variable {r : MRaw} {op d a mod : BitVec 8} {g : Guard} {ka : BitVec 1} {f : BitVec 20} {i : Instr}

/-! #### Loads, stores, atomics and hints (R219..R231) -/

/-- MOD of a load or store: the type, the policy, and three bits that are 0. -/
theorem mod_ldst {x : BitVec 8} {t : BitVec 3} {c : BitVec 2} :
    x = t ++ c ++ 0#3 ↔ x.extractLsb' 5 3 = t ∧ x.extractLsb' 3 2 = c ∧ x.extractLsb' 0 3 = 0 := by
  rw [eq_append_iff 5 3, eq_append_iff 3 2, extractLsb'_extractLsb' x (by decide), extractLsb'_extractLsb' x (by decide), and_assoc]
  rfl

theorem decLdst_eq_ok {mk : LdstArgs → Instr} (hop : r.op = op) :
    decLdst r mk = .ok i ↔ ∃ a, mk a = i ∧ a.enc op = r.toWord := by
  simp only [decLdst, zero_eq_ok, need_eq_ok, beq_iff_eq, Except.ok.injEq, LdstArgs.enc, MRaw.mk_toWord hop]
  constructor
  · rintro ⟨hz, t, ht, s, hs, rfl⟩
    obtain ⟨ha, hk⟩ := MRaw.base_eq.1 (rfl : r.base = r.base)
    exact ⟨_, rfl, rfl, rfl, ha, hk, rfl, (Scope.code_of_ofCode _ _ hs).symm, (Order.code_ofCode _).symm,
      mod_ldst.2 ⟨(LT.code_of_ofCode _ _ ht).symm, rfl, hz⟩⟩
  · rintro ⟨a, rfl, hg, hd, ha, hk, hf, hs, ho, hm⟩
    obtain ⟨ht, hc, hz⟩ := mod_ldst.1 hm
    exact ⟨hz, a.lt, by rw [ht, LT.ofCode_code], a.scope, by rw [hs, Scope.ofCode_code],
      by rw [hg, hc, ho, Order.ofCode_code, hd, MRaw.base_eq.2 ⟨ha, hk⟩, hf]⟩

theorem decHint_eq_ok {n : Nat} {mk : HintArgs → Instr} (hn : n ≤ 5) (hop : r.op = op) :
    decHint r n mk = .ok i ↔ ∃ a, mk a = i ∧ a.enc op = r.toWord ∧ r.mod >>> n = 0 := by
  simp only [decHint, zero_eq_ok, Bool.and_eq_true, MRaw.modTop, beq_iff_eq, Except.ok.injEq, HintArgs.enc, encM_base_eq hop]
  constructor
  · rintro ⟨⟨⟨ho, hd⟩, hm⟩, rfl⟩
    have h5 : r.mod >>> 5 = 0 := by
      rw [← Nat.add_sub_cancel' hn, BitVec.shiftRight_add, hm]
      exact BitVec.zero_ushiftRight
    exact ⟨_, rfl, ⟨rfl, hd, rfl, rfl, ho, (clear_append_iff 3 5).2 ⟨h5, rfl⟩⟩, hm⟩
  · rintro ⟨a, rfl, ⟨hg, hd, hb, hf, ho, hlv⟩, hm⟩
    exact ⟨⟨⟨ho, hd⟩, hm⟩, by rw [hg, ((clear_append_iff 3 5).1 hlv).2, hb, hf]⟩

/-- A value operand: a register or an immediate (R228). -/
theorem MRaw.aval_eq {b : AVal} : (if r.mod.getLsbD 0 then AVal.imm r.imm8 else .v r.imm8) = b ↔
    r.imm8 = b.field ∧ r.mod.extractLsb' 0 1 = b.immBit := by
  have hbit : ∀ c, r.mod.extractLsb' 0 1 = bit c ↔ r.mod.getLsbD 0 = c := fun c => extractLsb'_one
  cases b with
  | v y =>
    refine Iff.trans ?_ (and_congr_right' (hbit false).symm)
    cases r.mod.getLsbD 0 <;> simp [AVal.field]
  | imm y =>
    refine Iff.trans ?_ (and_congr_right' (hbit true).symm)
    cases r.mod.getLsbD 0 <;> simp [AVal.field]

/-- MOD of an atomic: the operation, its type, and the immediate mark. -/
theorem mod_atom {x : BitVec 8} {p : BitVec 4} {t : BitVec 3} {b : BitVec 1} :
    x = p ++ t ++ b ↔ x.extractLsb' 4 4 = p ∧ x.extractLsb' 1 3 = t ∧ x.extractLsb' 0 1 = b := by
  rw [eq_append_iff 7 1, eq_append_iff 4 3, extractLsb'_extractLsb' x (by decide), extractLsb'_extractLsb' x (by decide), and_assoc]

theorem decAtom_eq_ok {mk : AtomArgs → Instr} (hop : r.op = op) :
    decAtom r mk = .ok i ↔ ∃ a, mk a = i ∧ a.enc op = r.toWord := by
  simp only [decAtom, need_eq_ok, Except.ok.injEq, AtomArgs.enc, MRaw.mk_toWord hop]
  constructor
  · rintro ⟨o, ho, t, ht, s, hs, rfl⟩
    obtain ⟨ha, hk⟩ := MRaw.base_eq.1 (rfl : r.base = r.base)
    obtain ⟨hb, hi⟩ := (MRaw.aval_eq (r := r)).1 rfl
    exact ⟨_, rfl, rfl, rfl, ha, hk, (eq_append_iff 8 12).2 ⟨hb, rfl⟩, (Scope.code_of_ofCode _ _ hs).symm,
      (Order.code_ofCode _).symm, mod_atom.2 ⟨(AOp.code_of_ofCode _ _ ho).symm, (AT.code_of_ofCode _ _ ht).symm, hi⟩⟩
  · rintro ⟨a, rfl, hg, hd, ha, hk, hf, hs, hor, hm⟩
    obtain ⟨hb, hoff⟩ := (eq_append_iff 8 12).1 hf
    obtain ⟨ho, ht, hi⟩ := mod_atom.1 hm
    exact ⟨a.op, by rw [ho, AOp.ofCode_code], a.ty, by rw [ht, AT.ofCode_code], a.scope, by rw [hs, Scope.ofCode_code],
      by rw [hg, hor, Order.ofCode_code, hd, MRaw.base_eq.2 ⟨ha, hk⟩, (MRaw.aval_eq (r := r)).2 ⟨hb, hi⟩, MRaw.off12, hoff]⟩

theorem decSv_eq_ok {mk : SvArgs → Instr} (hop : r.op = op) :
    decSv r mk = .ok i ↔ ∃ a, mk a = i ∧ a.enc op = r.toWord := by
  simp only [decSv, zero_eq_ok, Bool.and_eq_true, MRaw.modTop, beq_iff_eq, Except.ok.injEq, SvArgs.enc, encM_base_eq hop]
  constructor
  · rintro ⟨⟨ho, hm⟩, rfl⟩
    obtain ⟨hb, hi⟩ := (MRaw.aval_eq (r := r)).1 rfl
    exact ⟨_, rfl, rfl, rfl, rfl, (eq_append_iff 8 12).2 ⟨hb, rfl⟩, ho, (clear_append_iff 7 1).2 ⟨hm, hi⟩⟩
  · rintro ⟨a, rfl, hg, hd, hbase, hf, ho, hm⟩
    obtain ⟨hb, hoff⟩ := (eq_append_iff 8 12).1 hf
    obtain ⟨hm, hi⟩ := (clear_append_iff 7 1).1 hm
    exact ⟨⟨ho, hm⟩, by rw [hg, hd, hbase, (MRaw.aval_eq (r := r)).2 ⟨hb, hi⟩, MRaw.off12, hoff]⟩

/-- A port in a D field. -/
theorem port_iff {x : BitVec 8} {p : BitVec 3} : x = 0#5 ++ p ↔ x.toNat < 8 ∧ x.extractLsb' 0 3 = p := by
  revert x p
  decide

theorem qcfgArm_eq_ok (hop : r.op = 0x06) :
    zero (r.noOrd && r.d.toNat < 8 && r.ka == 1 && r.f20 == 0 && r.mod == 0)
      (.ok (.qcfg ⟨r.guard, r.d.extractLsb' 0 3, r.a⟩)) = .ok i ↔
    ∃ a, .qcfg a = i ∧ encM 0x06 a.g (0#5 ++ a.port) a.k 1 0 0 = r.toWord := by
  simp only [zero_eq_ok, Bool.and_eq_true, decide_eq_true_eq, beq_iff_eq, Except.ok.injEq, encM_eq hop, port_iff]
  constructor
  · rintro ⟨⟨⟨⟨⟨ho, hd⟩, hk⟩, hf⟩, hm⟩, rfl⟩
    exact ⟨_, rfl, rfl, ⟨hd, rfl⟩, rfl, hk, hf, ho, hm⟩
  · rintro ⟨a, rfl, hg, ⟨hd, hp⟩, ha, hk, hf, ho, hm⟩
    exact ⟨⟨⟨⟨⟨ho, hd⟩, hk⟩, hf⟩, hm⟩, by rw [hg, hp, ha]⟩

theorem qcloseArm_eq_ok (hop : r.op = 0x07) :
    zero (r.noOrd && r.d.toNat < 8 && r.noA && r.f20 == 0 && r.mod == 0) (.ok (.qclose ⟨r.guard, r.d.extractLsb' 0 3⟩)) = .ok i ↔
    ∃ a, .qclose a = i ∧ encM 0x07 a.g (0#5 ++ a.port) 0 0 0 0 = r.toWord := by
  simp only [zero_eq_ok, Bool.and_eq_true, decide_eq_true_eq, beq_iff_eq, Except.ok.injEq, encM_noA_eq hop, port_iff]
  constructor
  · rintro ⟨⟨⟨⟨⟨ho, hd⟩, hk⟩, hf⟩, hm⟩, rfl⟩
    exact ⟨_, rfl, rfl, ⟨hd, rfl⟩, hk, hf, ho, hm⟩
  · rintro ⟨a, rfl, hg, ⟨hd, hp⟩, hk, hf, ho, hm⟩
    exact ⟨⟨⟨⟨⟨ho, hd⟩, hk⟩, hf⟩, hm⟩, by rw [hg, hp]⟩

/-! #### Copies, queues and flats (R232..R244) -/

theorem decDesc_eq_ok {mk : DescArgs → Instr} (hop : r.op = op) :
    decDesc r mk = .ok i ↔ ∃ a, mk a = i ∧ a.enc op = r.toWord := by
  simp only [decDesc, zero_eq_ok, Bool.and_eq_true, beq_iff_eq, Except.ok.injEq, DescArgs.enc, encM_eq hop]
  constructor
  · rintro ⟨⟨⟨⟨⟨ho, hd⟩, hk⟩, hf⟩, hm⟩, rfl⟩
    exact ⟨_, rfl, rfl, hd, rfl, hk, hf, ho, hm⟩
  · rintro ⟨a, rfl, hg, hd, ha, hk, hf, ho, hm⟩
    exact ⟨⟨⟨⟨⟨ho, hd⟩, hk⟩, hf⟩, hm⟩, by rw [hg, ha]⟩

theorem decGuard_eq_ok {mk : Guard → Instr} (hop : r.op = op) :
    decGuard r mk = .ok i ↔ ∃ g, mk g = i ∧ encM op g 0 0 0 0 0 = r.toWord := by
  simp only [decGuard, zero_eq_ok, Bool.and_eq_true, beq_iff_eq, Except.ok.injEq, encM_noA_eq hop]
  constructor
  · rintro ⟨⟨⟨⟨⟨ho, hd⟩, hk⟩, hf⟩, hm⟩, rfl⟩
    exact ⟨_, rfl, rfl, hd, hk, hf, ho, hm⟩
  · rintro ⟨a, rfl, hg, hd, hk, hf, ho, hm⟩
    exact ⟨⟨⟨⟨⟨ho, hd⟩, hk⟩, hf⟩, hm⟩, by rw [hg]⟩

theorem sealArm_eq_ok (hop : r.op = 0x12) :
    zero (r.noOrd && r.noA && r.f20 == 0 && r.mod == 0) (.ok (.cpSeal ⟨r.guard, r.d⟩)) = .ok i ↔
    ∃ a, .cpSeal a = i ∧ encM 0x12 a.g a.d 0 0 0 0 = r.toWord := by
  simp only [zero_eq_ok, Bool.and_eq_true, beq_iff_eq, Except.ok.injEq, encM_noA_eq hop]
  constructor
  · rintro ⟨⟨⟨⟨ho, hk⟩, hf⟩, hm⟩, rfl⟩
    exact ⟨_, rfl, rfl, rfl, hk, hf, ho, hm⟩
  · rintro ⟨a, rfl, hg, hd, hk, hf, ho, hm⟩
    exact ⟨⟨⟨⟨ho, hk⟩, hf⟩, hm⟩, by rw [hg, hd]⟩

/-- MOD of a word whose one modifier chooses between two forms. -/
theorem mod_eq_zero {x : BitVec 8} : x = 0 ↔ x >>> 1 = 0 ∧ x.getLsbD 0 = false := clear_append_bit_iff 7 (b := false)
theorem mod_eq_one {x : BitVec 8} : x = 1 ↔ x >>> 1 = 0 ∧ x.getLsbD 0 = true := clear_append_bit_iff 7 (b := true)

theorem decCpWait_eq_ok (hop : r.op = 0x13) : decCpWait r = .ok i ↔ ∃ a, .cpWait a = i ∧ a.enc = r.toWord := by
  simp only [decCpWait, zero_eq_ok, Bool.and_eq_true, MRaw.modTop, MRaw.immTop, beq_iff_eq]
  constructor
  · rintro ⟨⟨⟨ho, hd⟩, hm⟩, h⟩
    split at h <;> simp only [zero_eq_ok, Bool.and_eq_true, beq_iff_eq, Except.ok.injEq] at h
    next hb =>
      obtain ⟨⟨hk, hf⟩, rfl⟩ := h
      exact ⟨_, rfl, (encM_noA_eq hop).2 ⟨rfl, hd, hk, (clear_append_iff 4 16).2 ⟨hf, rfl⟩, ho, mod_eq_one.2 ⟨hm, hb⟩⟩⟩
    next hb =>
      obtain ⟨hf, rfl⟩ := h
      exact ⟨_, rfl, (encM_base_eq hop).2 ⟨rfl, hd, rfl, hf, ho, mod_eq_zero.2 ⟨hm, Bool.eq_false_iff.2 hb⟩⟩⟩
  · rintro ⟨⟨g, b⟩, rfl, h⟩
    cases b with
    | imm n =>
      obtain ⟨hg, hd, hk, hf, ho, hm⟩ := (encM_noA_eq hop).1 h
      obtain ⟨hf, hn⟩ := (clear_append_iff 4 16).1 hf
      obtain ⟨hm, hb⟩ := mod_eq_one.1 hm
      refine ⟨⟨⟨ho, hd⟩, hm⟩, ?_⟩
      rw [if_pos hb, hk, hf, hg, hn]
      rfl
    | r b =>
      obtain ⟨hg, hd, hbase, hf, ho, hm⟩ := (encM_base_eq hop).1 h
      obtain ⟨hm, hb⟩ := mod_eq_zero.1 hm
      refine ⟨⟨⟨ho, hd⟩, hm⟩, ?_⟩
      rw [hb, if_neg Bool.false_ne_true, hf, hg, hbase]
      rfl

theorem decCue_eq_ok {mk : CueArgs → Instr} (hop : r.op = op) :
    decCue r mk = .ok i ↔ ∃ a, mk a = i ∧ a.enc op = r.toWord := by
  simp only [decCue, zero_eq_ok, Bool.and_eq_true, beq_iff_eq, Except.ok.injEq, CueArgs.enc, encM_base_eq hop]
  constructor
  · rintro ⟨⟨⟨ho, hf⟩, hm⟩, rfl⟩
    exact ⟨_, rfl, rfl, rfl, rfl, hf, ho, hm⟩
  · rintro ⟨a, rfl, hg, hd, hb, hf, ho, hm⟩
    exact ⟨⟨⟨ho, hf⟩, hm⟩, by rw [hg, hd, hb]⟩

theorem decGive_eq_ok (hop : r.op = 0x1A) : decGive r = .ok i ↔ ∃ a, .flatGive a = i ∧ a.enc = r.toWord := by
  simp only [decGive, zero_eq_ok, Bool.and_eq_true, MRaw.modTop, MRaw.immTop, beq_iff_eq]
  constructor
  · rintro ⟨⟨⟨ho, hf⟩, hm⟩, h⟩
    split at h <;> simp only [zero_eq_ok, beq_iff_eq, Except.ok.injEq] at h
    next hb =>
      obtain ⟨hf, rfl⟩ := h
      exact ⟨_, rfl, (encM_base_eq hop).2 ⟨rfl, rfl, rfl, (clear_append_append_iff 14 3 3).2 ⟨hf, rfl, rfl⟩, ho,
        mod_eq_one.2 ⟨hm, hb⟩⟩⟩
    next hb =>
      obtain ⟨hk, rfl⟩ := h
      exact ⟨_, rfl, (encM_noA_eq hop).2 ⟨rfl, rfl, hk, (clear_append_append_append_iff 6 8 3 3).2 ⟨hf, rfl, rfl, rfl⟩, ho,
        mod_eq_zero.2 ⟨hm, Bool.eq_false_iff.2 hb⟩⟩⟩
  · rintro ⟨⟨g, d, s, s2, c⟩, rfl, h⟩
    cases c with
    | imm c =>
      obtain ⟨hg, hd, hk, hf, ho, hm⟩ := (encM_noA_eq hop).1 h
      obtain ⟨hf, (hc : r.f20.extractLsb' 6 8 = _), hs2, hs⟩ := (clear_append_append_append_iff 6 8 3 3).1 hf
      obtain ⟨hm, hb⟩ := mod_eq_zero.1 hm
      refine ⟨⟨⟨ho, hf⟩, hm⟩, ?_⟩
      rw [hb, if_neg Bool.false_ne_true, zero_eq_ok, hg, hd, hs, hs2, hc]
      exact ⟨hk, rfl⟩
    | r b =>
      obtain ⟨hg, hd, hbase, hf, ho, hm⟩ := (encM_base_eq hop).1 h
      obtain ⟨hf, hs2, hs⟩ := (clear_append_append_iff 14 3 3).1 hf
      obtain ⟨hm, hb⟩ := mod_eq_one.1 hm
      have hf14 : r.f20 >>> 14 = 0 := by
        rw [show (14 : Nat) = 6 + 8 from rfl, BitVec.shiftRight_add, show r.f20 >>> 6 = 0 from hf]
        rfl
      refine ⟨⟨⟨ho, hf14⟩, hm⟩, ?_⟩
      rw [if_pos hb, zero_eq_ok, hg, hd, hs, hs2, hbase]
      exact ⟨beq_iff_eq.2 hf, rfl⟩

theorem decSlot_eq_ok {mk : SlotArgs → Instr} (hop : r.op = op) :
    decSlot r mk = .ok i ↔ ∃ a, mk a = i ∧ a.enc op = r.toWord := by
  simp only [decSlot, zero_eq_ok, Bool.and_eq_true, MRaw.immTop, beq_iff_eq, Except.ok.injEq, SlotArgs.enc, encM_noA_eq hop]
  constructor
  · rintro ⟨⟨⟨⟨ho, hk⟩, hf⟩, hm⟩, rfl⟩
    exact ⟨_, rfl, rfl, rfl, hk, (clear_append_iff 17 3).2 ⟨hf, rfl⟩, ho, hm⟩
  · rintro ⟨a, rfl, hg, hd, hk, hf, ho, hm⟩
    obtain ⟨hf, hs⟩ := (clear_append_iff 17 3).1 hf
    exact ⟨⟨⟨⟨ho, hk⟩, hf⟩, hm⟩, by rw [hg, hd, hs]⟩

theorem decShare_eq_ok (hop : r.op = 0x1C) : decShare r = .ok i ↔
    ∃ a, .flatShare a = i ∧ encM 0x1C a.g a.d 0 0 (0#10 ++ a.mask ++ a.s2 ++ a.s) 0 = r.toWord := by
  simp only [decShare, zero_eq_ok, Bool.and_eq_true, MRaw.immTop, beq_iff_eq, Except.ok.injEq, encM_noA_eq hop]
  constructor
  · rintro ⟨⟨⟨⟨ho, hk⟩, hf⟩, hm⟩, rfl⟩
    exact ⟨_, rfl, rfl, rfl, hk, (clear_append_append_append_iff 10 4 3 3).2 ⟨hf, rfl, rfl, rfl⟩, ho, hm⟩
  · rintro ⟨a, rfl, hg, hd, hk, hf, ho, hm⟩
    obtain ⟨hf, (hmask : r.f20.extractLsb' 6 4 = _), hs2, hs⟩ := (clear_append_append_append_iff 10 4 3 3).1 hf
    exact ⟨⟨⟨⟨ho, hk⟩, hf⟩, hm⟩, by rw [hg, hd, hs, hs2, hmask]⟩

end

section
variable {r : MRaw} {op d a mod : BitVec 8} {g : Guard} {ka : BitVec 1} {f : BitVec 20} {i : Instr}

/-! #### Barriers and masks (R245..R249, R261) -/

theorem decBarBlk_eq_ok (hop : r.op = 0x20) : decBarBlk r = .ok i ↔
    ∃ a, .barBlk a = i ∧ encM 0x20 a.g 0 0 0 (0#1 ++ a.count ++ a.id) 0 = r.toWord := by
  simp only [decBarBlk, zero_eq_ok, Bool.and_eq_true, MRaw.immTop, beq_iff_eq, Except.ok.injEq, encM_noA_eq hop]
  constructor
  · rintro ⟨⟨⟨⟨⟨ho, hd⟩, hk⟩, hf⟩, hm⟩, rfl⟩
    exact ⟨_, rfl, rfl, hd, hk, (clear_append_append_iff 1 15 4).2 ⟨hf, rfl, rfl⟩, ho, hm⟩
  · rintro ⟨a, rfl, hg, hd, hk, hf, ho, hm⟩
    obtain ⟨hf, hc, hid⟩ := (clear_append_append_iff 1 15 4).1 hf
    exact ⟨⟨⟨⟨⟨ho, hd⟩, hk⟩, hf⟩, hm⟩, by rw [hg, hid, hc]⟩

theorem decBar_eq_ok {mk : BarArgs → Instr} (hop : r.op = op) :
    decBar r mk = .ok i ↔ ∃ a, mk a = i ∧ a.enc op = r.toWord := by
  simp only [decBar, zero_eq_ok, Bool.and_eq_true, beq_iff_eq, Except.ok.injEq, BarArgs.enc, encM_base_eq hop]
  constructor
  · rintro ⟨⟨⟨⟨ho, hd⟩, hf⟩, hm⟩, rfl⟩
    exact ⟨_, rfl, rfl, hd, rfl, hf, ho, hm⟩
  · rintro ⟨a, rfl, hg, hd, hb, hf, ho, hm⟩
    exact ⟨⟨⟨⟨ho, hd⟩, hf⟩, hm⟩, by rw [hg, hb]⟩

theorem decBarScope_eq_ok {mk : BarScopeArgs → Instr} (hop : r.op = op) :
    decBarScope r mk = .ok i ↔ ∃ a, mk a = i ∧ a.enc op = r.toWord := by
  simp only [decBarScope, zero_eq_ok, need_eq_ok, Bool.and_eq_true, MRaw.modTop, beq_iff_eq, Except.ok.injEq, BarScopeArgs.enc,
    encM_base_eq hop]
  constructor
  · rintro ⟨⟨⟨ho, hf⟩, hm⟩, s, hs, rfl⟩
    exact ⟨_, rfl, rfl, rfl, rfl, hf, ho, (clear_append_iff 6 2).2 ⟨hm, (BarScope.code_of_ofCode _ _ hs).symm⟩⟩
  · rintro ⟨a, rfl, hg, hd, hb, hf, ho, hm⟩
    obtain ⟨hm, hs⟩ := (clear_append_iff 6 2).1 hm
    exact ⟨⟨⟨ho, hf⟩, hm⟩, a.sc, by rw [hs, BarScope.ofCode_code], by rw [hg, hd, hb]⟩

theorem decMask_eq_ok {mk : MaskArgs → Instr} (hop : r.op = op) :
    decMask r mk = .ok i ↔ ∃ a, mk a = i ∧ a.enc op = r.toWord := by
  simp only [decMask, zero_eq_ok, Bool.and_eq_true, MRaw.immTop, beq_iff_eq, Except.ok.injEq, MaskArgs.enc, encM_noA_eq hop]
  constructor
  · rintro ⟨⟨⟨⟨⟨ho, hd⟩, hk⟩, hf⟩, hm⟩, rfl⟩
    exact ⟨_, rfl, rfl, hd, hk, (clear_append_iff 16 4).2 ⟨hf, rfl⟩, ho, hm⟩
  · rintro ⟨a, rfl, hg, hd, hk, hf, ho, hm⟩
    obtain ⟨hf, hn⟩ := (clear_append_iff 16 4).1 hf
    exact ⟨⟨⟨⟨⟨ho, hd⟩, hk⟩, hf⟩, hm⟩, by rw [hg, hn]⟩

theorem decMset_eq_ok (hop : r.op = 0x2B) : decMset r = .ok i ↔
    ∃ a, .mset a = i ∧ encM 0x2B a.g 0 a.k 1 (0#16 ++ a.n) 0 = r.toWord := by
  simp only [decMset, zero_eq_ok, Bool.and_eq_true, MRaw.immTop, beq_iff_eq, Except.ok.injEq, encM_eq hop]
  constructor
  · rintro ⟨⟨⟨⟨⟨ho, hd⟩, hk⟩, hf⟩, hm⟩, rfl⟩
    exact ⟨_, rfl, rfl, hd, rfl, hk, (clear_append_iff 16 4).2 ⟨hf, rfl⟩, ho, hm⟩
  · rintro ⟨a, rfl, hg, hd, ha, hk, hf, ho, hm⟩
    obtain ⟨hf, hn⟩ := (clear_append_iff 16 4).1 hf
    exact ⟨⟨⟨⟨⟨ho, hd⟩, hk⟩, hf⟩, hm⟩, by rw [hg, hn, ha]⟩

theorem decMget_eq_ok (hop : r.op = 0x2C) : decMget r = .ok i ↔
    ∃ a, .mget a = i ∧ encM 0x2C a.g a.k 0 0 (0#16 ++ a.n) 0 = r.toWord := by
  simp only [decMget, zero_eq_ok, Bool.and_eq_true, MRaw.immTop, beq_iff_eq, Except.ok.injEq, encM_noA_eq hop]
  constructor
  · rintro ⟨⟨⟨⟨ho, hk⟩, hf⟩, hm⟩, rfl⟩
    exact ⟨_, rfl, rfl, rfl, hk, (clear_append_iff 16 4).2 ⟨hf, rfl⟩, ho, hm⟩
  · rintro ⟨a, rfl, hg, hd, hk, hf, ho, hm⟩
    obtain ⟨hf, hn⟩ := (clear_append_iff 16 4).1 hf
    exact ⟨⟨⟨⟨ho, hk⟩, hf⟩, hm⟩, by rw [hg, hn, hd]⟩

/-! #### Control words (R250..R255) -/

theorem braArm_eq_ok (hop : r.op = 0x30) :
    zero (r.noOrd && r.d == 0 && r.noA && r.mod == 0) (.ok (.bra ⟨r.guard, r.f20⟩)) = .ok i ↔
    ∃ a, .bra a = i ∧ encM 0x30 a.g 0 0 0 a.disp 0 = r.toWord := by
  simp only [zero_eq_ok, Bool.and_eq_true, beq_iff_eq, Except.ok.injEq, encM_noA_eq hop]
  constructor
  · rintro ⟨⟨⟨⟨ho, hd⟩, hk⟩, hm⟩, rfl⟩
    exact ⟨_, rfl, rfl, hd, hk, rfl, ho, hm⟩
  · rintro ⟨a, rfl, hg, hd, hk, hf, ho, hm⟩
    exact ⟨⟨⟨⟨ho, hd⟩, hk⟩, hm⟩, by rw [hg, hf]⟩

theorem callArm_eq_ok (hop : r.op = 0x32) :
    zero (r.noOrd && r.noA && r.mod == 0) (.ok (.call ⟨r.guard, r.d, r.f20⟩)) = .ok i ↔
    ∃ a, .call a = i ∧ encM 0x32 a.g a.d 0 0 a.disp 0 = r.toWord := by
  simp only [zero_eq_ok, Bool.and_eq_true, beq_iff_eq, Except.ok.injEq, encM_noA_eq hop]
  constructor
  · rintro ⟨⟨⟨ho, hk⟩, hm⟩, rfl⟩
    exact ⟨_, rfl, rfl, rfl, hk, rfl, ho, hm⟩
  · rintro ⟨a, rfl, hg, hd, hk, hf, ho, hm⟩
    exact ⟨⟨⟨ho, hk⟩, hm⟩, by rw [hg, hd, hf]⟩

theorem decBrx_eq_ok {mk : BrxArgs → Instr} (hop : r.op = op) :
    decBrx r mk = .ok i ↔ ∃ a, mk a = i ∧ a.enc op = r.toWord := by
  simp only [decBrx, zero_eq_ok, Bool.and_eq_true, beq_iff_eq, Except.ok.injEq, BrxArgs.enc, encM_base_eq hop]
  constructor
  · rintro ⟨⟨⟨⟨ho, hd⟩, hf⟩, hm⟩, rfl⟩
    exact ⟨_, rfl, rfl, hd, rfl, hf, ho, hm⟩
  · rintro ⟨a, rfl, hg, hd, hb, hf, ho, hm⟩
    exact ⟨⟨⟨⟨ho, hd⟩, hf⟩, hm⟩, by rw [hg, hb]⟩

theorem signalArm_eq_ok (hop : r.op = 0x37) :
    zero (r.noOrd && r.d == 0 && r.immTop 4 && r.mod == 0) (.ok (.signal ⟨r.guard, r.base, r.f20.extractLsb' 0 4⟩)) = .ok i ↔
    ∃ a, .signal a = i ∧ encM 0x37 a.g 0 a.a.field a.a.kBit (0#16 ++ a.stage) 0 = r.toWord := by
  simp only [zero_eq_ok, Bool.and_eq_true, MRaw.immTop, beq_iff_eq, Except.ok.injEq, encM_base_eq hop]
  constructor
  · rintro ⟨⟨⟨⟨ho, hd⟩, hf⟩, hm⟩, rfl⟩
    exact ⟨_, rfl, rfl, hd, rfl, (clear_append_iff 16 4).2 ⟨hf, rfl⟩, ho, hm⟩
  · rintro ⟨a, rfl, hg, hd, hb, hf, ho, hm⟩
    obtain ⟨hf, hs⟩ := (clear_append_iff 16 4).1 hf
    exact ⟨⟨⟨⟨ho, hd⟩, hf⟩, hm⟩, by rw [hg, hb, hs]⟩

theorem launchArm_eq_ok (hop : r.op = 0x38) :
    zero (r.noOrd && r.immTop 6 && r.mod == 0) (.ok (.launch ⟨r.guard, r.d, r.base, r.f20.extractLsb' 0 6⟩)) = .ok i ↔
    ∃ a, .launch a = i ∧ encM 0x38 a.g a.d a.base.field a.base.kBit (0#14 ++ a.q) 0 = r.toWord := by
  simp only [zero_eq_ok, Bool.and_eq_true, MRaw.immTop, beq_iff_eq, Except.ok.injEq, encM_base_eq hop]
  constructor
  · rintro ⟨⟨⟨ho, hf⟩, hm⟩, rfl⟩
    exact ⟨_, rfl, rfl, rfl, rfl, (clear_append_iff 14 6).2 ⟨hf, rfl⟩, ho, hm⟩
  · rintro ⟨a, rfl, hg, hd, hb, hf, ho, hm⟩
    obtain ⟨hf, hq⟩ := (clear_append_iff 14 6).1 hf
    exact ⟨⟨⟨ho, hf⟩, hm⟩, by rw [hg, hd, hb, hq]⟩

theorem decCode_eq_ok {mk : CodeArgs → Instr} (hop : r.op = op) :
    decCode r mk = .ok i ↔ ∃ a, mk a = i ∧ a.enc op = r.toWord := by
  simp only [decCode, zero_eq_ok, Bool.and_eq_true, MRaw.immTop, beq_iff_eq, Except.ok.injEq, CodeArgs.enc, encM_noA_eq hop]
  constructor
  · rintro ⟨⟨⟨⟨⟨ho, hd⟩, hk⟩, hf⟩, hm⟩, rfl⟩
    exact ⟨_, rfl, rfl, hd, hk, (clear_append_iff 8 12).2 ⟨hf, rfl⟩, ho, hm⟩
  · rintro ⟨a, rfl, hg, hd, hk, hf, ho, hm⟩
    obtain ⟨hf, hc⟩ := (clear_append_iff 8 12).1 hf
    exact ⟨⟨⟨⟨⟨ho, hd⟩, hk⟩, hf⟩, hm⟩, by rw [hg, hc]⟩

/-! #### Words of the matrix engine (R257..R276) -/

theorem wlatchArm_eq_ok (hop : r.op = 0x40) :
    zero (r.noOrd && r.d == 0 && r.ka == 1 && r.immTop 4 && r.modTop 1)
      (.ok (.wlatch ⟨r.guard, r.f20.extractLsb' 0 4, r.a, r.mod.getLsbD 0⟩)) = .ok i ↔
    ∃ a, .wlatch a = i ∧ encM 0x40 a.g 0 a.k 1 (0#16 ++ a.n) (0#7 ++ bit a.mv) = r.toWord := by
  simp only [zero_eq_ok, Bool.and_eq_true, MRaw.immTop, MRaw.modTop, beq_iff_eq, Except.ok.injEq, encM_eq hop]
  constructor
  · rintro ⟨⟨⟨⟨⟨ho, hd⟩, hk⟩, hf⟩, hm⟩, rfl⟩
    exact ⟨_, rfl, rfl, hd, rfl, hk, (clear_append_iff 16 4).2 ⟨hf, rfl⟩, ho, (clear_append_bit_iff 7).2 ⟨hm, rfl⟩⟩
  · rintro ⟨a, rfl, hg, hd, ha, hk, hf, ho, hm⟩
    obtain ⟨hf, hn⟩ := (clear_append_iff 16 4).1 hf
    obtain ⟨hm, hv⟩ := (clear_append_bit_iff 7).1 hm
    exact ⟨⟨⟨⟨⟨ho, hd⟩, hk⟩, hf⟩, hm⟩, by rw [hg, hn, ha, hv]⟩

/-- MOD of mmpost: five flags. -/
theorem mod_mmpost {x : BitVec 8} {acc tb ta full2 mv : Bool} :
    x = 0#3 ++ bit acc ++ bit tb ++ bit ta ++ bit full2 ++ bit mv ↔ x >>> 5 = 0 ∧ x.getLsbD 4 = acc ∧ x.getLsbD 3 = tb ∧
      x.getLsbD 2 = ta ∧ x.getLsbD 1 = full2 ∧ x.getLsbD 0 = mv := by
  rw [eq_append_iff 7 1, eq_append_iff 6 1, eq_append_iff 5 1, eq_append_iff 4 1, eq_append_iff 3 1,
    ushiftRight_eq_zero x (n := 3) (by decide)]
  simp (disch := decide) only [extractLsb'_extractLsb', extractLsb'_one, Nat.reduceAdd, and_assoc]

theorem mmpostArm_eq_ok (hop : r.op = 0x41) :
    zero (r.noOrd && r.d == 0 && r.ka == 1 && r.immTop 19 && r.modTop 5)
      (.ok (.mmpost ⟨r.guard, r.f20.extractLsb' 0 4, r.a, r.f20.extractLsb' 4 15, r.mod.getLsbD 0, r.mod.getLsbD 1,
        r.mod.getLsbD 2, r.mod.getLsbD 3, r.mod.getLsbD 4⟩)) = .ok i ↔
    ∃ a, .mmpost a = i ∧ encM 0x41 a.g 0 a.k 1 (0#1 ++ a.count ++ a.n)
      (0#3 ++ bit a.acc ++ bit a.tb ++ bit a.ta ++ bit a.full2 ++ bit a.mv) = r.toWord := by
  simp only [zero_eq_ok, Bool.and_eq_true, MRaw.immTop, MRaw.modTop, beq_iff_eq, Except.ok.injEq, encM_eq hop]
  constructor
  · rintro ⟨⟨⟨⟨⟨ho, hd⟩, hk⟩, hf⟩, hm⟩, rfl⟩
    exact ⟨_, rfl, rfl, hd, rfl, hk, (clear_append_append_iff 1 15 4).2 ⟨hf, rfl, rfl⟩, ho,
      mod_mmpost.2 ⟨hm, rfl, rfl, rfl, rfl, rfl⟩⟩
  · rintro ⟨a, rfl, hg, hd, ha, hk, hf, ho, hm⟩
    obtain ⟨hf, hc, hn⟩ := (clear_append_append_iff 1 15 4).1 hf
    obtain ⟨hm, hacc, htb, hta, hfull, hmv⟩ := mod_mmpost.1 hm
    exact ⟨⟨⟨⟨⟨ho, hd⟩, hk⟩, hf⟩, hm⟩, by rw [hg, hn, ha, hc, hmv, hfull, hta, htb, hacc]⟩

theorem accclrArm_eq_ok (hop : r.op = 0x43) :
    zero (r.noOrd && r.d == 0 && r.noA && r.immTop 5 && r.mod == 0) (.ok (.accclr ⟨r.guard, r.f20.extractLsb' 0 5⟩)) = .ok i ↔
    ∃ a, .accclr a = i ∧ encM 0x43 a.g 0 0 0 (0#15 ++ a.t) 0 = r.toWord := by
  simp only [zero_eq_ok, Bool.and_eq_true, MRaw.immTop, beq_iff_eq, Except.ok.injEq, encM_noA_eq hop]
  constructor
  · rintro ⟨⟨⟨⟨⟨ho, hd⟩, hk⟩, hf⟩, hm⟩, rfl⟩
    exact ⟨_, rfl, rfl, hd, hk, (clear_append_iff 15 5).2 ⟨hf, rfl⟩, ho, hm⟩
  · rintro ⟨a, rfl, hg, hd, hk, hf, ho, hm⟩
    obtain ⟨hf, ht⟩ := (clear_append_iff 15 5).1 hf
    exact ⟨⟨⟨⟨⟨ho, hd⟩, hk⟩, hf⟩, hm⟩, by rw [hg, ht]⟩

theorem accstatArm_eq_ok (hop : r.op = 0x45) :
    zero (r.noOrd && r.noA && r.immTop 5 && r.modTop 1)
      (.ok (.accstat ⟨r.guard, r.d, r.f20.extractLsb' 0 5, r.mod.getLsbD 0⟩)) = .ok i ↔
    ∃ a, .accstat a = i ∧ encM 0x45 a.g a.d 0 0 (0#15 ++ a.t) (0#7 ++ bit a.clr) = r.toWord := by
  simp only [zero_eq_ok, Bool.and_eq_true, MRaw.immTop, MRaw.modTop, beq_iff_eq, Except.ok.injEq, encM_noA_eq hop]
  constructor
  · rintro ⟨⟨⟨⟨ho, hk⟩, hf⟩, hm⟩, rfl⟩
    exact ⟨_, rfl, rfl, rfl, hk, (clear_append_iff 15 5).2 ⟨hf, rfl⟩, ho, (clear_append_bit_iff 7).2 ⟨hm, rfl⟩⟩
  · rintro ⟨a, rfl, hg, hd, hk, hf, ho, hm⟩
    obtain ⟨hf, ht⟩ := (clear_append_iff 15 5).1 hf
    obtain ⟨hm, hc⟩ := (clear_append_bit_iff 7).1 hm
    exact ⟨⟨⟨⟨ho, hk⟩, hf⟩, hm⟩, by rw [hg, hd, ht, hc]⟩

theorem mxstatArm_eq_ok (hop : r.op = 0x46) :
    (zero (r.noOrd && r.noA && r.immTop 4 && r.modTop 2) <|
      need (MxSel.ofCode (r.mod.extractLsb' 0 2)) fun s => .ok (.mxstat ⟨r.guard, r.d, r.f20.extractLsb' 0 4, s⟩)) = .ok i ↔
    ∃ a, .mxstat a = i ∧ encM 0x46 a.g a.d 0 0 (0#16 ++ a.idx) (0#6 ++ a.sel.code) = r.toWord := by
  simp only [zero_eq_ok, need_eq_ok, Bool.and_eq_true, MRaw.immTop, MRaw.modTop, beq_iff_eq, Except.ok.injEq, encM_noA_eq hop]
  constructor
  · rintro ⟨⟨⟨⟨ho, hk⟩, hf⟩, hm⟩, s, hs, rfl⟩
    exact ⟨_, rfl, rfl, rfl, hk, (clear_append_iff 16 4).2 ⟨hf, rfl⟩, ho,
      (clear_append_iff 6 2).2 ⟨hm, (MxSel.code_of_ofCode _ _ hs).symm⟩⟩
  · rintro ⟨a, rfl, hg, hd, hk, hf, ho, hm⟩
    obtain ⟨hf, hx⟩ := (clear_append_iff 16 4).1 hf
    obtain ⟨hm, hs⟩ := (clear_append_iff 6 2).1 hm
    exact ⟨⟨⟨⟨ho, hk⟩, hf⟩, hm⟩, a.sel, by rw [hs, MxSel.ofCode_code], by rw [hg, hd, hx]⟩

/-! #### Privileged words (R313..R335) -/

/-- csrr: the destination is a vector pair, never a uniform. -/
theorem csrrArm_eq_ok (hop : r.op = 0xE0) :
    zero (r.noOrd && r.noA && r.mod == 0) (.ok (.csrr ⟨r.guard, .v r.d, r.f20⟩)) = .ok i ↔
    ∃ a : CsrArgs, .csrr a = i ∧ encM 0xE0 a.g a.r.field 0 0 a.reg 0 = r.toWord ∧ a.r = .v a.r.field := by
  simp only [zero_eq_ok, Bool.and_eq_true, beq_iff_eq, Except.ok.injEq, encM_noA_eq hop]
  constructor
  · rintro ⟨⟨⟨ho, hk⟩, hm⟩, rfl⟩
    exact ⟨_, rfl, ⟨rfl, rfl, hk, rfl, ho, hm⟩, rfl⟩
  · rintro ⟨a, rfl, ⟨hg, hd, hk, hf, ho, hm⟩, hr⟩
    exact ⟨⟨⟨ho, hk⟩, hm⟩, by rw [hg, hd, ← hr, hf]⟩

theorem csrwArm_eq_ok (hop : r.op = 0xE1) :
    zero (r.noOrd && r.d == 0 && r.mod == 0) (.ok (.csrw ⟨r.guard, r.base, r.f20⟩)) = .ok i ↔
    ∃ a, .csrw a = i ∧ encM 0xE1 a.g 0 a.r.field a.r.kBit a.reg 0 = r.toWord := by
  simp only [zero_eq_ok, Bool.and_eq_true, beq_iff_eq, Except.ok.injEq, encM_base_eq hop]
  constructor
  · rintro ⟨⟨⟨ho, hd⟩, hm⟩, rfl⟩
    exact ⟨_, rfl, rfl, hd, rfl, rfl, ho, hm⟩
  · rintro ⟨a, rfl, hg, hd, hb, hf, ho, hm⟩
    exact ⟨⟨⟨ho, hd⟩, hm⟩, by rw [hg, hb, hf]⟩

theorem eretArm_eq_ok (hop : r.op = 0xE2) :
    (zero (r.noOrd && r.f20 == 0 && r.modTop 2) <|
      need (Res.ofCode (r.mod.extractLsb' 0 2)) fun s => .ok (.eret ⟨r.guard, r.d, r.base, s⟩)) = .ok i ↔
    ∃ a, .eret a = i ∧ encM 0xE2 a.g a.d a.h.field a.h.kBit 0 (0#6 ++ a.res.code) = r.toWord := by
  simp only [zero_eq_ok, need_eq_ok, Bool.and_eq_true, MRaw.modTop, beq_iff_eq, Except.ok.injEq, encM_base_eq hop]
  constructor
  · rintro ⟨⟨⟨ho, hf⟩, hm⟩, s, hs, rfl⟩
    exact ⟨_, rfl, rfl, rfl, rfl, hf, ho, (clear_append_iff 6 2).2 ⟨hm, (Res.code_of_ofCode _ _ hs).symm⟩⟩
  · rintro ⟨a, rfl, hg, hd, hb, hf, ho, hm⟩
    obtain ⟨hm, hs⟩ := (clear_append_iff 6 2).1 hm
    exact ⟨⟨⟨ho, hf⟩, hm⟩, a.res, by rw [hs, Res.ofCode_code], by rw [hg, hd, hb]⟩

theorem tlbinvArm_eq_ok (hop : r.op = 0xE3) :
    zero (r.noOrd && r.immTop 15 && r.mod == 0)
      (.ok (.tlbinv ⟨r.guard, r.d, r.base, r.f20.extractLsb' 0 8, r.f20.extractLsb' 8 6, r.f20.getLsbD 14⟩)) = .ok i ↔
    ∃ a, .tlbinv a = i ∧ encM 0xE3 a.g a.d a.a.field a.a.kBit (0#5 ++ bit a.all ++ a.log2sz ++ a.ctx) 0 = r.toWord := by
  simp only [zero_eq_ok, Bool.and_eq_true, MRaw.immTop, beq_iff_eq, Except.ok.injEq, encM_base_eq hop]
  constructor
  · rintro ⟨⟨⟨ho, hf⟩, hm⟩, rfl⟩
    exact ⟨_, rfl, rfl, rfl, rfl,
      (clear_append_append_append_iff 5 1 6 8).2 ⟨hf, extractLsb'_one.2 rfl, rfl, rfl⟩, ho, hm⟩
  · rintro ⟨a, rfl, hg, hd, hb, hf, ho, hm⟩
    obtain ⟨hf, hall, hs, hc⟩ := (clear_append_append_append_iff 5 1 6 8).1 hf
    have hall : r.f20.getLsbD 14 = a.all := extractLsb'_one.1 hall
    exact ⟨⟨⟨ho, hf⟩, hm⟩, by rw [hg, hd, hb, hc, hs, hall]⟩

theorem decCtxId_eq_ok {mk : CtxIdArgs → Instr} (hop : r.op = op) :
    decCtxId r mk = .ok i ↔ ∃ a, mk a = i ∧ a.enc op r.mod = r.toWord := by
  simp only [decCtxId, zero_eq_ok, Bool.and_eq_true, MRaw.immTop, beq_iff_eq, Except.ok.injEq, CtxIdArgs.enc, encM_noA_eq hop]
  constructor
  · rintro ⟨⟨⟨ho, hk⟩, hf⟩, rfl⟩
    exact ⟨_, rfl, rfl, rfl, hk, (clear_append_iff 12 8).2 ⟨hf, rfl⟩, ho, trivial⟩
  · rintro ⟨a, rfl, hg, hd, hk, hf, ho, -⟩
    obtain ⟨hf, hc⟩ := (clear_append_iff 12 8).1 hf
    exact ⟨⟨⟨ho, hk⟩, hf⟩, by rw [hg, hd, hc]⟩

theorem mod_of_ctxIdEnc {a : CtxIdArgs} (hop : r.op = op) (h : a.enc op mod = r.toWord) : r.mod = mod := by
  obtain ⟨-, -, -, -, -, hm⟩ := (encM_noA_eq hop).1 h
  exact hm

theorem ctxkillArm_eq_ok (hop : r.op = 0xEC) :
    zero (r.mod == 0) (decCtxId r .ctxkill) = .ok i ↔ ∃ a, .ctxkill a = i ∧ a.enc 0xEC 0 = r.toWord := by
  rw [zero_eq_ok, beq_iff_eq, decCtxId_eq_ok hop]
  constructor
  · rintro ⟨hm, a, rfl, h⟩
    exact ⟨a, rfl, hm ▸ h⟩
  · rintro ⟨a, rfl, h⟩
    have hm := mod_of_ctxIdEnc hop h
    exact ⟨hm, a, rfl, hm ▸ h⟩

theorem haltArm_eq_ok (hop : r.op = 0xE6) :
    zero (r.modTop 1) (decCtxId r (if r.mod.getLsbD 0 then .haltGo else .halt)) = .ok i ↔
    (∃ a, .halt a = i ∧ a.enc 0xE6 0 = r.toWord) ∨ ∃ a, .haltGo a = i ∧ a.enc 0xE6 1 = r.toWord := by
  rw [zero_eq_ok, MRaw.modTop, beq_iff_eq, decCtxId_eq_ok hop]
  constructor
  · rintro ⟨ht, a, hi, h⟩
    cases hb : r.mod.getLsbD 0 <;> rw [hb] at hi
    · exact .inl ⟨a, hi, mod_eq_zero.2 ⟨ht, hb⟩ ▸ h⟩
    · exact .inr ⟨a, hi, mod_eq_one.2 ⟨ht, hb⟩ ▸ h⟩
  · rintro (⟨a, rfl, h⟩ | ⟨a, rfl, h⟩)
    · have hm := mod_of_ctxIdEnc hop h
      obtain ⟨ht, hb⟩ := mod_eq_zero.1 hm
      exact ⟨ht, a, by rw [hb]; rfl, hm ▸ h⟩
    · have hm := mod_of_ctxIdEnc hop h
      obtain ⟨ht, hb⟩ := mod_eq_one.1 hm
      exact ⟨ht, a, by rw [hb]; rfl, hm ▸ h⟩

theorem decCtx_eq_ok {mk : CtxArgs → Instr} (hop : r.op = op) :
    decCtx r mk = .ok i ↔ ∃ a, mk a = i ∧ a.enc op = r.toWord := by
  simp only [decCtx, zero_eq_ok, Bool.and_eq_true, MRaw.immTop, MRaw.modTop, beq_iff_eq]
  constructor
  · rintro ⟨⟨⟨ho, hf⟩, hm⟩, h⟩
    have hf := (clear_append_iff 12 8).2 ⟨hf, rfl⟩
    split at h
    next hb =>
      obtain rfl := Except.ok.inj h
      exact ⟨_, rfl, (encM_base_eq hop).2 ⟨rfl, rfl, rfl, hf, ho, mod_eq_one.2 ⟨hm, hb⟩⟩⟩
    next hb =>
      rw [zero_eq_ok, Except.ok.injEq] at h
      obtain ⟨hk, rfl⟩ := h
      exact ⟨_, rfl, (encM_noA_eq hop).2 ⟨rfl, rfl, hk, hf, ho, mod_eq_zero.2 ⟨hm, Bool.eq_false_iff.2 hb⟩⟩⟩
  · rintro ⟨⟨g, d, b, c⟩, rfl, h⟩
    cases b with
    | none =>
      obtain ⟨hg, hd, hk, hf, ho, hm⟩ := (encM_noA_eq hop).1 h
      obtain ⟨hf, hc⟩ := (clear_append_iff 12 8).1 hf
      obtain ⟨hm, hb⟩ := mod_eq_zero.1 hm
      refine ⟨⟨⟨ho, hf⟩, hm⟩, ?_⟩
      rw [hb, if_neg Bool.false_ne_true, zero_eq_ok, hg, hd, hc]
      exact ⟨hk, rfl⟩
    | some b =>
      obtain ⟨hg, hd, hbase, hf, ho, hm⟩ := (encM_base_eq hop).1 h
      obtain ⟨hf, hc⟩ := (clear_append_iff 12 8).1 hf
      obtain ⟨hm, hb⟩ := mod_eq_one.1 hm
      refine ⟨⟨⟨ho, hf⟩, hm⟩, ?_⟩
      rw [if_pos hb, hg, hd, hc, hbase]

theorem dbgstepArm_eq_ok (hop : r.op = 0xE7) :
    zero (r.noOrd && r.f20 == 0 && r.modTop 1) (.ok (.dbgstep ⟨r.guard, r.d, r.base, r.mod.getLsbD 0⟩)) = .ok i ↔
    ∃ a, .dbgstep a = i ∧ encM 0xE7 a.g a.d a.h.field a.h.kBit 0 (0#7 ++ bit a.all) = r.toWord := by
  simp only [zero_eq_ok, Bool.and_eq_true, MRaw.modTop, beq_iff_eq, Except.ok.injEq, encM_base_eq hop]
  constructor
  · rintro ⟨⟨⟨ho, hf⟩, hm⟩, rfl⟩
    exact ⟨_, rfl, rfl, rfl, rfl, hf, ho, (clear_append_bit_iff 7).2 ⟨hm, rfl⟩⟩
  · rintro ⟨a, rfl, hg, hd, hb, hf, ho, hm⟩
    obtain ⟨hm, hall⟩ := (clear_append_bit_iff 7).1 hm
    exact ⟨⟨⟨ho, hf⟩, hm⟩, by rw [hg, hd, hb, hall]⟩

theorem tblarmArm_eq_ok (hop : r.op = 0xE8) :
    zero (r.noOrd && r.f20 == 0 && r.modTop 5)
      (.ok (.tblarm ⟨r.guard, r.d, r.base, r.mod.extractLsb' 0 4, r.mod.getLsbD 4⟩)) = .ok i ↔
    ∃ a, .tblarm a = i ∧ encM 0xE8 a.g a.d a.a.field a.a.kBit 0 (0#3 ++ bit a.fire ++ a.trig) = r.toWord := by
  simp only [zero_eq_ok, Bool.and_eq_true, MRaw.modTop, beq_iff_eq, Except.ok.injEq, encM_base_eq hop]
  constructor
  · rintro ⟨⟨⟨ho, hf⟩, hm⟩, rfl⟩
    exact ⟨_, rfl, rfl, rfl, rfl, hf, ho, (clear_append_append_iff 3 1 4).2 ⟨hm, extractLsb'_one.2 rfl, rfl⟩⟩
  · rintro ⟨a, rfl, hg, hd, hb, hf, ho, hm⟩
    obtain ⟨hm, hfire, ht⟩ := (clear_append_append_iff 3 1 4).1 hm
    exact ⟨⟨⟨ho, hf⟩, hm⟩, by rw [hg, hd, hb, ht, extractLsb'_one.1 hfire]⟩

theorem tblreadArm_eq_ok (hop : r.op = 0xE9) :
    zero (r.noOrd && r.noA && r.f20 == 0 && r.mod == 0) (.ok (.tblread ⟨r.guard, r.d⟩)) = .ok i ↔
    ∃ a, .tblread a = i ∧ encM 0xE9 a.g a.d 0 0 0 0 = r.toWord := by
  simp only [zero_eq_ok, Bool.and_eq_true, beq_iff_eq, Except.ok.injEq, encM_noA_eq hop]
  constructor
  · rintro ⟨⟨⟨⟨ho, hk⟩, hf⟩, hm⟩, rfl⟩
    exact ⟨_, rfl, rfl, rfl, hk, hf, ho, hm⟩
  · rintro ⟨a, rfl, hg, hd, hk, hf, ho, hm⟩
    exact ⟨⟨⟨⟨ho, hk⟩, hf⟩, hm⟩, by rw [hg, hd]⟩

theorem decDbg_eq_ok {mk : DbgArgs → Instr} (hop : r.op = op) :
    decDbg r mk = .ok i ↔ ∃ a, mk a = i ∧ a.enc op = r.toWord := by
  simp only [decDbg, zero_eq_ok, need_eq_ok, Bool.and_eq_true, MRaw.modTop, beq_iff_eq, Except.ok.injEq, DbgArgs.enc,
    encM_base_eq hop]
  constructor
  · rintro ⟨⟨⟨ho, hf⟩, hm⟩, s, hs, rfl⟩
    exact ⟨_, rfl, rfl, rfl, rfl, hf, ho, (clear_append_iff 6 2).2 ⟨hm, (DScope.code_of_ofCode _ _ hs).symm⟩⟩
  · rintro ⟨a, rfl, hg, hd, hb, hf, ho, hm⟩
    obtain ⟨hm, hs⟩ := (clear_append_iff 6 2).1 hm
    exact ⟨⟨⟨ho, hf⟩, hm⟩, a.sc, by rw [hs, DScope.ofCode_code], by rw [hg, hd, hb]⟩

end

/-! #### P-words (R155..R158) -/

theorem HRaw.ofBits_toBits (r : HRaw) : HRaw.ofBits r.toBits = r := by
  simp (disch := decide) only [HRaw.ofBits, HRaw.toBits, BitVec.extractLsb'_append_eq_of_add_le,
    BitVec.extractLsb'_append_eq_of_le, extractLsb'_self]

theorem HRaw.toBits_ofBits (x : BitVec 31) : (HRaw.ofBits x).toBits = x := by
  simp (disch := decide) only [HRaw.ofBits, HRaw.toBits, BitVec.extractLsb'_append_extractLsb'_eq_extractLsb', extractLsb'_self]

theorem half_dm {x : BitVec 2} {mv : Bool} : x = 0#1 ++ bit mv ↔ x.getLsbD 1 = false ∧ x.getLsbD 0 = mv :=
  (eq_append_iff 1 1).trans (and_congr (extractLsb'_one (b := false)) extractLsb'_one)

theorem enc_of_decHalf {x : BitVec 31} {h : Half} (hd : decHalf (.ofBits x) = .ok h) : h.enc = x := by
  simp only [decHalf, need_eq_ok, zero_eq_ok, beq_iff_eq, Except.ok.injEq] at hd
  obtain ⟨o, ho, hm, rfl⟩ := hd
  have hdm := half_dm.2 ⟨hm, rfl⟩
  simp only [Half.enc, HalfOp.code_of_ofCode _ _ ho, ty3Code_ty3OfCode, bit_beq_one, ← hdm]
  exact HRaw.toBits_ofBits x

theorem decHalf_enc {h : Half} (ht : h.ty.isTy3 = true) : decHalf (.ofBits h.enc) = .ok h := by
  obtain ⟨hm, hv⟩ := half_dm.1 (rfl : 0#1 ++ bit h.mv = 0#1 ++ bit h.mv)
  simp only [decHalf, need_eq_ok, zero_eq_ok, beq_iff_eq, Except.ok.injEq, Half.enc, HRaw.ofBits_toBits, hv, ty3OfCode_ty3Code ht,
    beq_one_bit]
  exact ⟨h.op, HalfOp.ofCode_code _, hm, rfl⟩

/-- R155: the class and the two halves of a P-word. -/
theorem pword_eq {w : Dword} {x y : BitVec 31} :
    w = 1#2 ++ x ++ y ↔ w.extractLsb' 62 2 = 1#2 ∧ w.extractLsb' 31 31 = x ∧ w.extractLsb' 0 31 = y := by
  rw [eq_append_iff 33 31, eq_append_iff 2 31, extractLsb'_extractLsb' w (by decide), extractLsb'_extractLsb' w (by decide),
    and_assoc]

/-- The word of an instruction that a thread runs. -/
theorem wordOf_decP {w : Dword} {i : Instr} (hc : w.extractLsb' 62 2 = 1) (h : decP w = .ok i) : WordOf i w := by
  unfold decP at h
  split at h
  next x y hx hy =>
    obtain rfl := Except.ok.inj h
    exact ⟨congrArg some (pword_eq.2 ⟨hc, (enc_of_decHalf hx).symm, (enc_of_decHalf hy).symm⟩).symm, rfl⟩
  all_goals cases h

theorem decP_enc {a : PairArgs} (hw : a.wf = true) : decP (1#2 ++ a.x.enc ++ a.y.enc) = .ok (.pairedWord a) := by
  simp only [PairArgs.wf, Bool.and_eq_true] at hw
  obtain ⟨⟨⟨⟨hx, hy⟩, -⟩, -⟩, -⟩ := hw
  simp only [Half.wf, Bool.and_eq_true] at hx hy
  obtain ⟨-, hhi, hlo⟩ := pword_eq.1 (rfl : 1#2 ++ a.x.enc ++ a.y.enc = _)
  rw [decP, hhi, hlo, decHalf_enc hx.1.1.1, decHalf_enc hy.1.1.1]

/-! #### Decoding whole words -/

theorem checkWf_eq_ok {e : Except Reject Instr} {i : Instr} : checkWf e = .ok i ↔ e = .ok i ∧ i.wf = true := by
  unfold checkWf
  split
  next j =>
    rw [ite_error_eq_ok, Except.ok.injEq]
    constructor
    · rintro ⟨h, rfl⟩
      exact ⟨rfl, h⟩
    · rintro ⟨rfl, h⟩
      exact ⟨h, rfl⟩
  next => simp

section
variable {i : Instr} {w : Dword}

theorem decode_F {r : FRaw} (he : some (r.toWord 0) = some w) (hw : i.wf = true) (h : decF r = .ok i) : decode w = .ok i := by
  rw [← Option.some.inj he, decode, checkWf_eq_ok, FRaw.class_toWord, FRaw.ofWord_toWord]
  exact ⟨h, hw⟩

theorem decode_I {r : FRaw} (he : some (r.toWord 2) = some w) (hw : i.wf = true) (h : decI r = .ok i) : decode w = .ok i := by
  rw [← Option.some.inj he, decode, checkWf_eq_ok, FRaw.class_toWord, FRaw.ofWord_toWord]
  exact ⟨h, hw⟩

theorem decode_M {r : MRaw} (he : some r.toWord = some w) (hw : i.wf = true) (h : decM r = .ok i) : decode w = .ok i := by
  rw [← Option.some.inj he, decode, checkWf_eq_ok, MRaw.class_toWord, MRaw.ofWord_toWord]
  exact ⟨h, hw⟩

theorem decode_P {a : PairArgs} (he : encode? (.pairedWord a) = some w) (hw : (Instr.pairedWord a).wf = true) :
    decode w = .ok (.pairedWord a) := by
  obtain rfl := Option.some.inj he
  obtain ⟨hc, -, -⟩ := pword_eq.1 (rfl : 1#2 ++ a.x.enc ++ a.y.enc = _)
  rw [decode, checkWf_eq_ok, hc]
  exact ⟨decP_enc hw, hw⟩

end

/-! #### Program words of the prompter (R294, R296) -/

theorem LRaw.ofWord_toWord (r : LRaw) : LRaw.ofWord r.toWord = r := by
  simp (disch := decide) only [LRaw.ofWord, LRaw.toWord, BitVec.extractLsb'_append_eq_of_add_le,
    BitVec.extractLsb'_append_eq_of_le, extractLsb'_self]

theorem LRaw.toWord_ofWord (w : Dword) : (LRaw.ofWord w).toWord = w := by
  simp (disch := decide) only [LRaw.ofWord, LRaw.toWord, BitVec.extractLsb'_append_extractLsb'_eq_extractLsb', extractLsb'_self]

/-- Only an opcode that uses FN as a mark may have the mark of a scalar b. -/
theorem LogitArgs.scalarB_of_uses {l : LogitArgs} {dV dS aV bV s imm : Bool} (h : l.uses dV dS aV bV s false imm = true) :
    l.scalarB = false := by
  simp only [LogitArgs.uses, Bool.and_eq_true, Bool.or_eq_true, Bool.not_eq_true', Bool.false_eq_true, false_or] at h
  obtain ⟨⟨-, hb, -⟩, -⟩ := h
  exact hb

/-! #### The opcode maps (R161, R162): every arm's words are the encodings of what it decodes them to -/

theorem op_eq {n k : Nat} {x : BitVec n} (h : x.toNat = k) : x = BitVec.ofNat n k := by
  rw [← h, BitVec.ofNat_toNat, BitVec.setWidth_eq]

theorem WordOf.of_ok {α : Type} {mk : α → Instr} {enc : α → Dword} {i : Instr} {w : Dword} (h : ∃ a, mk a = i ∧ enc a = w)
    (he : ∀ a, WordOf (mk a) (enc a)) : WordOf i w := by
  obtain ⟨a, rfl, rfl⟩ := h
  exact he a

/-- The arms in the order of R161's map, those of one family together. -/
theorem wordOf_decF {r : FRaw} {i : Instr} (h : decF r = .ok i) : WordOf i (r.toWord 0) := by
  unfold decF at h
  split at h
  all_goals rename_i ho
  -- add, sub, mul, mulhi, min_, max_
  case h_1 | h_2 | h_4 | h_5 | h_9 | h_10 => exact wordOf_decInt2 (imm := false) (op_eq ho) (fun _ => ⟨rfl, rfl⟩) h
  -- add3, mad
  case h_3 | h_6 => exact wordOf_decInt3 (op_eq ho) (fun _ => ⟨rfl, rfl⟩) h
  case h_7 => exact wordOf_decShladd (op_eq ho) h
  -- abs_, neg
  case h_8 | h_11 => exact wordOf_decInt1 (op_eq ho) (fun _ => ⟨rfl, rfl⟩) h
  -- shl, shr, sar, rot, and_, or_, xor_, andn
  case h_12 | h_13 | h_14 | h_15 | h_16 | h_17 | h_18 | h_19 =>
    exact wordOf_decLog2 (imm := false) (op_eq ho) (fun _ => ⟨rfl, rfl⟩) h
  -- not_, popc, clz, ctz, brev
  case h_20 | h_22 | h_23 | h_24 | h_25 => exact wordOf_decLog1 (op_eq ho) (fun _ => ⟨rfl, rfl⟩) h
  case h_21 => exact wordOf_decLog3 (op_eq ho) (fun _ => ⟨rfl, rfl⟩) h
  case h_26 => exact wordOf_decBfe (op_eq ho) h
  case h_27 => exact wordOf_decLog3 (op_eq ho) (fun _ => ⟨rfl, rfl⟩) (zero_eq_ok.1 h).2
  case h_28 => exact wordOf_decSetp (imm := false) (op_eq ho) (fun _ => ⟨rfl, rfl⟩) h
  case h_29 => exact wordOf_decSel (imm := false) (op_eq ho) (fun _ => ⟨rfl, rfl⟩) h
  case h_30 => exact wordOf_decCvti (op_eq ho) h
  -- fadd, fsub, fmul, fmin, fmax, fscale, pkadd, pkmul
  case h_31 | h_32 | h_33 | h_35 | h_36 | h_39 | h_42 | h_43 =>
    exact wordOf_decFlt2 (imm := false) (op_eq ho) (fun _ => ⟨rfl, rfl⟩) h
  -- fma, pkfma, dp2, dp4
  case h_34 | h_44 | h_45 | h_46 => exact wordOf_decFlt3 (op_eq ho) (fun _ => ⟨rfl, rfl⟩) h
  case h_37 => exact wordOf_decFsetp (imm := false) (op_eq ho) (fun _ => ⟨rfl, rfl⟩) h
  -- fclass, frnd, ex2, lg2, rcp, rsq, sqt, sin, cos, tnh, lgt
  case h_38 | h_40 | h_47 | h_48 | h_49 | h_50 | h_51 | h_52 | h_53 | h_54 | h_55 =>
    exact wordOf_decFlt1 (op_eq ho) (fun _ => ⟨rfl, rfl⟩) h
  case h_41 => exact wordOf_decCvt (op_eq ho) h
  case h_56 => exact wordOf_decDmake (op_eq ho) h
  -- dmean, dvar, dlin, dfold
  case h_57 | h_58 | h_59 | h_60 => exact wordOf_decDist (op_eq ho) (fun _ => ⟨rfl, rfl⟩) h
  -- dspread, dsamp
  case h_61 | h_62 => exact wordOf_decDdraw (op_eq ho) (fun _ => ⟨rfl, rfl⟩) h
  case h_63 => exact wordOf_decBsinit (op_eq ho) h
  -- bsread, bspeek
  case h_64 | h_65 => exact wordOf_decBsread (op_eq ho) (fun _ => ⟨rfl, rfl⟩) h
  case h_66 => exact wordOf_decBsskip (op_eq ho) h
  case h_67 => exact wordOf_decBsalign (op_eq ho) h
  case h_68 => exact wordOf_decRngseed (op_eq ho) h
  -- rndU32, rndF32, rndGauss
  case h_69 | h_70 | h_71 => exact wordOf_decRnd (op_eq ho) (fun _ => ⟨rfl, rfl⟩) h
  case h_72 => exact wordOf_decRndCat (op_eq ho) h
  -- laneIdx, laneRise, laneFall, laneFlip
  case h_73 | h_74 | h_75 | h_76 => exact wordOf_decLane (op_eq ho) (fun _ => ⟨rfl, rfl⟩) h
  -- pollAny, pollAll
  case h_77 | h_78 => exact wordOf_decPoll (op_eq ho) (fun _ => ⟨rfl, rfl⟩) h
  case h_79 => exact wordOf_decPollMap (op_eq ho) h
  -- fold, pfx
  case h_80 | h_81 => exact wordOf_decFold (op_eq ho) (fun _ => ⟨rfl, rfl⟩) h
  case h_82 => exact wordOf_decPeers (op_eq ho) h
  case h_83 => exact wordOf_decMov (op_eq ho) h
  -- no F-form, or unassigned
  case h_84 | h_104 => cases h
  case h_85 => exact wordOf_decMovk (op_eq ho) h
  case h_86 => exact wordOf_decMovs (op_eq ho) h
  case h_87 => exact wordOf_decMovp (op_eq ho) h
  -- xfadd, xfsub, xfmul, xfdiv
  case h_88 | h_89 | h_90 | h_92 => exact wordOf_decXf (op_eq ho) (fun _ => ⟨rfl, rfl⟩) (zero_eq_ok.1 h).2
  case h_91 => exact wordOf_decXf (op_eq ho) (fun _ => ⟨rfl, rfl⟩) h
  case h_93 => exact wordOf_decXf1 (op_eq ho) (fun _ => ⟨rfl, rfl⟩) h
  case h_94 => exact wordOf_decXfcvt (op_eq ho) h
  case h_95 => exact wordOf_decXfsetp (op_eq ho) h
  -- xdiv, xrem
  case h_96 | h_97 => exact wordOf_decXint (op_eq ho) (fun _ => ⟨rfl, rfl⟩) h
  -- xshl2, xshr2, xsar2
  case h_98 | h_99 | h_100 => exact wordOf_decXop2 (t := .b32) rfl (op_eq ho) (fun _ => ⟨rfl, rfl⟩) h
  -- xmin2, xmax2
  case h_101 | h_102 => exact wordOf_decXop2 (t := .f32) rfl (op_eq ho) (fun _ => ⟨rfl, rfl⟩) h
  case h_103 => exact wordOf_decXcvt2 (op_eq ho) h

/-- The arms in the order of the map, those of one family together. -/
theorem wordOf_decI {r : FRaw} {i : Instr} (h : decI r = .ok i) : WordOf i (r.toWord 2) := by
  unfold decI at h
  split at h
  all_goals rename_i ho
  -- addImm, subImm, mulImm, mulhiImm, minImm, maxImm
  case h_1 | h_2 | h_3 | h_4 | h_5 | h_6 => exact wordOf_decInt2 (imm := true) (op_eq ho) (fun _ => ⟨rfl, rfl⟩) h
  -- shlImm, shrImm, sarImm, rotImm, andImm, orImm, xorImm, andnImm
  case h_7 | h_8 | h_9 | h_10 | h_11 | h_12 | h_13 | h_14 => exact wordOf_decLog2 (imm := true) (op_eq ho) (fun _ => ⟨rfl, rfl⟩) h
  case h_15 => exact wordOf_decSetp (imm := true) (op_eq ho) (fun _ => ⟨rfl, rfl⟩) h
  case h_16 => exact wordOf_decSel (imm := true) (op_eq ho) (fun _ => ⟨rfl, rfl⟩) h
  -- faddImm, fsubImm, fmulImm, fminImm, fmaxImm, fscaleImm, pkaddImm, pkmulImm
  case h_17 | h_18 | h_19 | h_20 | h_21 | h_23 | h_24 | h_25 =>
    exact wordOf_decFlt2 (imm := true) (op_eq ho) (fun _ => ⟨rfl, rfl⟩) h
  case h_22 => exact wordOf_decFsetp (imm := true) (op_eq ho) (fun _ => ⟨rfl, rfl⟩) h
  case h_26 => exact wordOf_decMovi (op_eq ho) h
  -- no I-form
  case h_27 => cases h

/-- The arms in the order of R162's map, those of one family together. -/
theorem wordOf_decM {r : MRaw} {i : Instr} (h : decM r = .ok i) : WordOf i r.toWord := by
  unfold decM at h
  split at h
  all_goals rename_i ho
  -- ld, st, ldk, ldLoft
  case h_1 | h_2 | h_3 | h_4 => exact .of_ok ((decLdst_eq_ok (op_eq ho)).1 h) fun _ => ⟨rfl, rfl⟩
  -- prefetch, icflush
  case h_5 | h_6 =>
    exact .of_ok (((decHint_eq_ok (by decide) (op_eq ho)).1 h).imp fun _ ⟨hi, he, _⟩ => ⟨hi, he⟩) fun _ => ⟨rfl, rfl⟩
  case h_7 => exact .of_ok ((qcfgArm_eq_ok (op_eq ho)).1 h) fun _ => ⟨rfl, rfl⟩
  case h_8 => exact .of_ok ((qcloseArm_eq_ok (op_eq ho)).1 h) fun _ => ⟨rfl, rfl⟩
  case h_15 => exact .of_ok ((sealArm_eq_ok (op_eq ho)).1 h) fun _ => ⟨rfl, rfl⟩
  case h_38 => exact .of_ok ((braArm_eq_ok (op_eq ho)).1 h) fun _ => ⟨rfl, rfl⟩
  case h_40 => exact .of_ok ((callArm_eq_ok (op_eq ho)).1 h) fun _ => ⟨rfl, rfl⟩
  case h_45 => exact .of_ok ((signalArm_eq_ok (op_eq ho)).1 h) fun _ => ⟨rfl, rfl⟩
  case h_46 => exact .of_ok ((launchArm_eq_ok (op_eq ho)).1 h) fun _ => ⟨rfl, rfl⟩
  case h_50 => exact .of_ok ((wlatchArm_eq_ok (op_eq ho)).1 h) fun _ => ⟨rfl, rfl⟩
  case h_51 => exact .of_ok ((mmpostArm_eq_ok (op_eq ho)).1 h) fun _ => ⟨rfl, rfl⟩
  case h_53 => exact .of_ok ((accclrArm_eq_ok (op_eq ho)).1 h) fun _ => ⟨rfl, rfl⟩
  case h_55 => exact .of_ok ((accstatArm_eq_ok (op_eq ho)).1 h) fun _ => ⟨rfl, rfl⟩
  case h_56 => exact .of_ok ((mxstatArm_eq_ok (op_eq ho)).1 h) fun _ => ⟨rfl, rfl⟩
  case h_57 => exact .of_ok (((csrrArm_eq_ok (op_eq ho)).1 h).imp fun _ ⟨hi, he, _⟩ => ⟨hi, he⟩) fun _ => ⟨rfl, rfl⟩
  case h_58 => exact .of_ok ((csrwArm_eq_ok (op_eq ho)).1 h) fun _ => ⟨rfl, rfl⟩
  case h_59 => exact .of_ok ((eretArm_eq_ok (op_eq ho)).1 h) fun _ => ⟨rfl, rfl⟩
  case h_60 => exact .of_ok ((tlbinvArm_eq_ok (op_eq ho)).1 h) fun _ => ⟨rfl, rfl⟩
  case h_64 => exact .of_ok ((dbgstepArm_eq_ok (op_eq ho)).1 h) fun _ => ⟨rfl, rfl⟩
  case h_65 => exact .of_ok ((tblarmArm_eq_ok (op_eq ho)).1 h) fun _ => ⟨rfl, rfl⟩
  case h_66 => exact .of_ok ((tblreadArm_eq_ok (op_eq ho)).1 h) fun _ => ⟨rfl, rfl⟩
  -- atom, red
  case h_9 | h_10 => exact .of_ok ((decAtom_eq_ok (op_eq ho)).1 h) fun _ => ⟨rfl, rfl⟩
  -- svpost, svwait
  case h_11 | h_12 => exact .of_ok ((decSv_eq_ok (op_eq ho)).1 h) fun _ => ⟨rfl, rfl⟩
  -- cpRows, cpReduce, cpColl, cpReady, accrd, acccvt
  case h_13 | h_14 | h_17 | h_18 | h_52 | h_54 => exact .of_ok ((decDesc_eq_ok (op_eq ho)).1 h) fun _ => ⟨rfl, rfl⟩
  case h_16 => exact .of_ok ((decCpWait_eq_ok (op_eq ho)).1 h) fun _ => ⟨rfl, rfl⟩
  -- cuePop, cuePush
  case h_19 | h_20 => exact .of_ok ((decCue_eq_ok (op_eq ho)).1 h) fun _ => ⟨rfl, rfl⟩
  case h_21 => exact .of_ok ((decGive_eq_ok (op_eq ho)).1 h) fun _ => ⟨rfl, rfl⟩
  -- flatTake, flatStat
  case h_22 | h_24 => exact .of_ok ((decSlot_eq_ok (op_eq ho)).1 h) fun _ => ⟨rfl, rfl⟩
  case h_23 => exact .of_ok ((decShare_eq_ok (op_eq ho)).1 h) fun _ => ⟨rfl, rfl⟩
  case h_25 => exact .of_ok ((decBarBlk_eq_ok (op_eq ho)).1 h) fun _ => ⟨rfl, rfl⟩
  -- barCls, barDev, barDevSuper
  case h_26 | h_27 | h_28 => exact .of_ok ((decBar_eq_ok (op_eq ho)).1 h) fun _ => ⟨rfl, rfl⟩
  -- barArrive, barWait
  case h_29 | h_30 => exact .of_ok ((decBarScope_eq_ok (op_eq ho)).1 h) fun _ => ⟨rfl, rfl⟩
  -- join, leave, wait, sign, cvwait
  case h_31 | h_32 | h_33 | h_36 | h_37 => exact .of_ok ((decMask_eq_ok (op_eq ho)).1 h) fun _ => ⟨rfl, rfl⟩
  case h_34 => exact .of_ok ((decMset_eq_ok (op_eq ho)).1 h) fun _ => ⟨rfl, rfl⟩
  case h_35 => exact .of_ok ((decMget_eq_ok (op_eq ho)).1 h) fun _ => ⟨rfl, rfl⟩
  -- brx, ret
  case h_39 | h_41 => exact .of_ok ((decBrx_eq_ok (op_eq ho)).1 h) fun _ => ⟨rfl, rfl⟩
  -- exit, yield, suspend, nop
  case h_42 | h_43 | h_44 | h_49 => exact .of_ok ((decGuard_eq_ok (op_eq ho)).1 h) fun _ => ⟨rfl, rfl⟩
  -- trap, brk
  case h_47 | h_48 => exact .of_ok ((decCode_eq_ok (op_eq ho)).1 h) fun _ => ⟨rfl, rfl⟩
  -- ctxsave, ctxload
  case h_61 | h_62 => exact .of_ok ((decCtx_eq_ok (op_eq ho)).1 h) fun _ => ⟨rfl, rfl⟩
  case h_63 =>
    rcases (haltArm_eq_ok (op_eq ho)).1 h with h | h
    · exact .of_ok h fun _ => ⟨rfl, rfl⟩
    · exact .of_ok h fun _ => ⟨rfl, rfl⟩
  case h_69 => exact .of_ok ((ctxkillArm_eq_ok (op_eq ho)).1 h) fun _ => ⟨rfl, rfl⟩
  -- dbgres, dbgcur
  case h_67 | h_68 => exact .of_ok ((decDbg_eq_ok (op_eq ho)).1 h) fun _ => ⟨rfl, rfl⟩
  -- unassigned
  case h_70 => cases h

/-- A word of a thread that decodes is the encoding of what it decodes to. -/
theorem wordOf_decode {w : Dword} {i : Instr} (h : decode w = .ok i) : i.wf = true ∧ WordOf i w := by
  obtain ⟨h, hw⟩ := checkWf_eq_ok.1 h
  refine ⟨hw, ?_⟩
  have hF := FRaw.toWord_ofWord w
  split at h
  next hc =>
    rw [op_eq hc] at hF
    exact hF ▸ wordOf_decF h
  next hc => exact wordOf_decP (op_eq hc) h
  next hc =>
    rw [op_eq hc] at hF
    exact hF ▸ wordOf_decI h
  next h0 h1 h2 =>
    have hc : w.extractLsb' 62 2 = 3 := by
      revert h0 h1 h2
      generalize w.extractLsb' 62 2 = c
      revert c
      decide
    exact MRaw.toWord_ofWord hc ▸ wordOf_decM h

section
variable {i : Instr} {w : Dword}

/-! #### Decoding an encoding, form by form -/

/-- The fields of a one-source word (R175). -/
def FRaw.one1 (op : BitVec 8) (g : Guard) (dm : BitVec 2) (d : BitVec 8) (a : Opnd) (c : BitVec 8) (ty : BitVec 4)
    (m : BitVec 9) : FRaw :=
  { FRaw.ofWord (encF1 op g dm d a c ty m) with op }

theorem encF1_eq {op : BitVec 8} {g : Guard} {dm : BitVec 2} {d : BitVec 8} {a : Opnd} {c : BitVec 8} {ty : BitVec 4}
    {m : BitVec 9} : encF1 op g dm d a c ty m = (FRaw.one1 op g dm d a c ty m).toWord 0 := by
  cases a <;> simp only [FRaw.one1, encF1, FRaw.ofWord_toWord]

theorem decode_F1 {op : BitVec 8} {g : Guard} {dm : BitVec 2} {d : BitVec 8} {a : Opnd} {c : BitVec 8} {ty : BitVec 4}
    {m : BitVec 9} (he : some (encF1 op g dm d a c ty m) = some w) (hw : i.wf = true)
    (h : encF1 op g dm d a c ty m = (FRaw.one1 op g dm d a c ty m).toWord 0 → decF (FRaw.one1 op g dm d a c ty m) = .ok i) :
    decode w = .ok i :=
  decode_F (encF1_eq ▸ he) hw (h encF1_eq)

theorem Ty.tx_of_ui32 {t : Ty} (h : ui32 t = true) : t.tx = 0 := by cases t <;> (revert h; decide)

theorem CsrArgs.register_of_wf {a : CsrArgs} (hw : (Instr.csrr a).wf = true) : a.r = .v a.r.field := by
  obtain ⟨g, r, n⟩ := a
  cases r with
  | v x => rfl
  | k x => cases hw

theorem HintArgs.clear_of_wfPrefetch {a : HintArgs} (hw : a.wfPrefetch = true) : (0#3 ++ a.lv) >>> 2 = 0 := by
  simp only [HintArgs.wfPrefetch, Bool.and_eq_true, decide_eq_true_eq] at hw
  revert hw
  generalize a.lv = x
  generalize a.base.pairOk = b
  revert x b
  decide

/-- The word of every well-formed instruction of a thread decodes to it. -/
theorem decode_of_encode (hw : i.wf = true) (he : encode? i = some w) (hl : i.isLogit = false) : decode w = .ok i := by
  cases i with
  | add a | sub a | mul a | min_ a | max_ a => exact decode_F he hw (decInt2_enc (fun _ => Ty.tx_of_isInt) hw rfl)
  | mulhi a => exact decode_F he hw (decInt2_enc (fun _ => Ty.tx_of_ui32) hw rfl)
  | addImm a | subImm a | mulImm a | minImm a | maxImm a =>
    exact decode_I he hw (decInt2_enc (imm := true) (fun _ => Ty.tx_of_isInt) hw rfl)
  | mulhiImm a => exact decode_I he hw (decInt2_enc (imm := true) (fun _ => Ty.tx_of_ui32) hw rfl)
  | add3 a | mad a => exact decode_F he hw (decInt3_enc hw rfl)
  | shladd a => exact decode_F he hw (decShladd_enc hw rfl)
  | abs_ a | neg a => exact decode_F1 he hw (decInt1_enc hw)
  | shl a | shr a | sar a | rot a | and_ a | or_ a | xor_ a | andn a => exact decode_F he hw (decLog2_enc hw rfl)
  | shlImm a | shrImm a | sarImm a | rotImm a | andImm a | orImm a | xorImm a | andnImm a =>
    exact decode_I he hw (decLog2_enc (imm := true) hw rfl)
  | not_ a | popc a | clz a | ctz a | brev a => exact decode_F1 he hw (decLog1_enc hw)
  | lut3 a => exact decode_F he hw (decLog3_enc hw rfl)
  | bfi a => exact decode_F he hw (decBfi_enc hw rfl)
  | bfe a => exact decode_F he hw (decBfe_enc hw rfl)
  | setp a => exact decode_F he hw (decSetp_enc hw rfl)
  | setpImm a => exact decode_I he hw (decSetp_enc (imm := true) hw rfl)
  | sel a => exact decode_F he hw (decSel_enc hw rfl)
  | selImm a => exact decode_I he hw (decSel_enc (imm := true) hw rfl)
  | cvti a => exact decode_F1 he hw (decCvti_enc hw)
  | fadd a | fsub a | fmul a | fmin a | fmax a | fscale a | pkadd a | pkmul a => exact decode_F he hw (decFlt2_enc hw rfl)
  | faddImm a | fsubImm a | fmulImm a | fminImm a | fmaxImm a | fscaleImm a | pkaddImm a | pkmulImm a =>
    exact decode_I he hw (decFlt2_enc (imm := true) hw rfl)
  | frnd a | ex2 a | lg2 a | rcp a | rsq a | sqt a | sin a | cos a | tnh a | lgt a => exact decode_F1 he hw (decFlt1_enc hw)
  | fclass a => exact decode_F1 he hw (decFlt1_enc ((Bool.and_eq_true _ _).mp hw).2)
  | fma a | pkfma a | dp2 a | dp4 a => exact decode_F he hw (decFlt3_enc hw rfl)
  | fsetp a => exact decode_F he hw (decFsetp_enc hw rfl)
  | fsetpImm a => exact decode_I he hw (decFsetp_enc (imm := true) hw rfl)
  | cvt a => exact decode_F1 he hw (decCvt_enc hw)
  | dmake a => exact decode_F he hw (decDmake_enc hw rfl)
  | dmean a | dvar a => exact decode_F1 he hw (decDist_enc hw)
  | dlin a => exact decode_F1 he hw (decDist_enc (dms := (· == .mva)) (n := fun _ => 4) (l := fun _ => 2) hw)
  | dfold a => exact decode_F1 he hw (decDist_enc (dms := (· == .mv)) (n := fun _ => 2) (l := fun _ => 4) hw)
  | dspread a => exact decode_F1 he hw (decDdraw_enc (dms := (· == .s4)) (n := fun _ => 4) (l := fun _ => 2) hw)
  | dsamp a => exact decode_F1 he hw (decDdraw_enc hw)
  | bsinit a => exact decode_F he hw (decBsinit_enc hw rfl)
  | bsskip a => exact decode_F he hw (decBsskip_enc hw rfl)
  | rndCat a => exact decode_F1 he hw (decRndCat_enc hw)
  | pollMap a => exact decode_F he hw (decPollMap_enc hw rfl)
  | peers a => exact decode_F1 he hw (decPeers_enc hw)
  | mov a => exact decode_F1 he hw (decMov_enc hw)
  | movk a => exact decode_F he hw (decMovk_enc hw rfl)
  | xfcvt a => exact decode_F1 he hw (decXfcvt_enc hw)
  | xfsetp a => exact decode_F he hw (decXfsetp_enc hw rfl)
  | xcvt2 a => exact decode_F1 he hw (decXcvt2_enc hw)
  | bsread a | bspeek a => exact decode_F he hw (decBsread_enc hw rfl)
  | bsalign a => exact decode_F he hw (decBsalign_enc rfl)
  | rngseed a => exact decode_F he hw (decRngseed_enc rfl)
  | rndU32 a | rndF32 a | rndGauss a => exact decode_F he hw (decRnd_enc hw rfl)
  | laneIdx a | laneRise a | laneFall a | laneFlip a => exact decode_F he hw (decLane_enc hw rfl)
  | pollAny a | pollAll a => exact decode_F he hw (decPoll_enc rfl)
  | fold a | pfx a => exact decode_F1 he hw (decFold_enc hw)
  | movi a => exact decode_I he hw (decMovi_enc hw rfl)
  | moviHi a => exact decode_I he hw (decMovi_encHi hw rfl)
  | movsRead a => exact decode_F he hw (decMovs_encRead hw rfl)
  | movsWriteFsr a => exact decode_F he hw (decMovs_encWrite hw rfl)
  | movpRead a => exact decode_F he hw (decMovp_encRead hw rfl)
  | movpWrite a => exact decode_F he hw (decMovp_encWrite hw rfl)
  | xfadd a | xfsub a | xfmul a | xfdiv a => exact decode_F he hw (decXf2_enc hw rfl)
  | xfma a => exact decode_F he hw (decXf_enc (n := 3) (by decide) hw rfl)
  | xfsqt a => exact decode_F1 he hw (decXf1_enc hw)
  | xdiv a | xrem a => exact decode_F he hw (decXint_enc hw rfl)
  | xshl2 a | xshr2 a | xsar2 a => exact decode_F he hw (decXop2_enc (t := .b32) rfl hw rfl)
  | xmin2 a | xmax2 a => exact decode_F he hw (decXop2_enc (t := .f32) rfl hw rfl)
  | pairedWord a => exact decode_P he hw
  | ld a | st a | ldk a | ldLoft a => exact decode_M he hw ((decLdst_eq_ok rfl).2 ⟨a, rfl, rfl⟩)
  | prefetch a => exact decode_M he hw ((decHint_eq_ok (by decide) rfl).2 ⟨a, rfl, rfl, HintArgs.clear_of_wfPrefetch hw⟩)
  | icflush a => exact decode_M he hw ((decHint_eq_ok le_rfl rfl).2 ⟨a, rfl, rfl, ((clear_append_iff 3 5).1 rfl).1⟩)
  | qcfg a => exact decode_M he hw ((qcfgArm_eq_ok rfl).2 ⟨a, rfl, rfl⟩)
  | qclose a => exact decode_M he hw ((qcloseArm_eq_ok rfl).2 ⟨a, rfl, rfl⟩)
  | cpSeal a => exact decode_M he hw ((sealArm_eq_ok rfl).2 ⟨a, rfl, rfl⟩)
  | bra a => exact decode_M he hw ((braArm_eq_ok rfl).2 ⟨a, rfl, rfl⟩)
  | call a => exact decode_M he hw ((callArm_eq_ok rfl).2 ⟨a, rfl, rfl⟩)
  | signal a => exact decode_M he hw ((signalArm_eq_ok rfl).2 ⟨a, rfl, rfl⟩)
  | launch a => exact decode_M he hw ((launchArm_eq_ok rfl).2 ⟨a, rfl, rfl⟩)
  | wlatch a => exact decode_M he hw ((wlatchArm_eq_ok rfl).2 ⟨a, rfl, rfl⟩)
  | mmpost a => exact decode_M he hw ((mmpostArm_eq_ok rfl).2 ⟨a, rfl, rfl⟩)
  | accclr a => exact decode_M he hw ((accclrArm_eq_ok rfl).2 ⟨a, rfl, rfl⟩)
  | accstat a => exact decode_M he hw ((accstatArm_eq_ok rfl).2 ⟨a, rfl, rfl⟩)
  | mxstat a => exact decode_M he hw ((mxstatArm_eq_ok rfl).2 ⟨a, rfl, rfl⟩)
  | csrr a => exact decode_M he hw ((csrrArm_eq_ok rfl).2 ⟨a, rfl, rfl, CsrArgs.register_of_wf hw⟩)
  | csrw a => exact decode_M he hw ((csrwArm_eq_ok rfl).2 ⟨a, rfl, rfl⟩)
  | eret a => exact decode_M he hw ((eretArm_eq_ok rfl).2 ⟨a, rfl, rfl⟩)
  | tlbinv a => exact decode_M he hw ((tlbinvArm_eq_ok rfl).2 ⟨a, rfl, rfl⟩)
  | dbgstep a => exact decode_M he hw ((dbgstepArm_eq_ok rfl).2 ⟨a, rfl, rfl⟩)
  | tblarm a => exact decode_M he hw ((tblarmArm_eq_ok rfl).2 ⟨a, rfl, rfl⟩)
  | tblread a => exact decode_M he hw ((tblreadArm_eq_ok rfl).2 ⟨a, rfl, rfl⟩)
  | atom a | red a => exact decode_M he hw ((decAtom_eq_ok rfl).2 ⟨a, rfl, rfl⟩)
  | svpost a | svwait a => exact decode_M he hw ((decSv_eq_ok rfl).2 ⟨a, rfl, rfl⟩)
  | cpRows a | cpReduce a | cpColl a | cpReady a | accrd a | acccvt a =>
    exact decode_M he hw ((decDesc_eq_ok rfl).2 ⟨a, rfl, rfl⟩)
  | cpWait a =>
    obtain ⟨g, b⟩ := a
    cases b <;> exact decode_M he hw ((decCpWait_eq_ok rfl).2 ⟨_, rfl, rfl⟩)
  | cuePop a | cuePush a => exact decode_M he hw ((decCue_eq_ok rfl).2 ⟨a, rfl, rfl⟩)
  | flatGive a =>
    obtain ⟨g, d, s, s2, c⟩ := a
    cases c <;> exact decode_M he hw ((decGive_eq_ok rfl).2 ⟨_, rfl, rfl⟩)
  | flatTake a | flatStat a => exact decode_M he hw ((decSlot_eq_ok rfl).2 ⟨a, rfl, rfl⟩)
  | flatShare a => exact decode_M he hw ((decShare_eq_ok rfl).2 ⟨a, rfl, rfl⟩)
  | barBlk a => exact decode_M he hw ((decBarBlk_eq_ok rfl).2 ⟨a, rfl, rfl⟩)
  | barCls a | barDev a | barDevSuper a => exact decode_M he hw ((decBar_eq_ok rfl).2 ⟨a, rfl, rfl⟩)
  | barArrive a | barWait a => exact decode_M he hw ((decBarScope_eq_ok rfl).2 ⟨a, rfl, rfl⟩)
  | join a | leave a | wait a | sign a | cvwait a => exact decode_M he hw ((decMask_eq_ok rfl).2 ⟨a, rfl, rfl⟩)
  | mset a => exact decode_M he hw ((decMset_eq_ok rfl).2 ⟨a, rfl, rfl⟩)
  | mget a => exact decode_M he hw ((decMget_eq_ok rfl).2 ⟨a, rfl, rfl⟩)
  | brx a | ret a => exact decode_M he hw ((decBrx_eq_ok rfl).2 ⟨a, rfl, rfl⟩)
  | exit g | yield g | suspend g | nop g => exact decode_M he hw ((decGuard_eq_ok rfl).2 ⟨g, rfl, rfl⟩)
  | trap a | brk a => exact decode_M he hw ((decCode_eq_ok rfl).2 ⟨a, rfl, rfl⟩)
  | ctxsave a | ctxload a =>
    obtain ⟨g, d, b, c⟩ := a
    cases b <;> exact decode_M he hw ((decCtx_eq_ok rfl).2 ⟨_, rfl, rfl⟩)
  | halt a => exact decode_M he hw ((haltArm_eq_ok rfl).2 (.inl ⟨a, rfl, rfl⟩))
  | haltGo a => exact decode_M he hw ((haltArm_eq_ok rfl).2 (.inr ⟨a, rfl, rfl⟩))
  | ctxkill a => exact decode_M he hw ((ctxkillArm_eq_ok rfl).2 ⟨a, rfl, rfl⟩)
  | dbgres a | dbgcur a => exact decode_M he hw ((decDbg_eq_ok rfl).2 ⟨a, rfl, rfl⟩)
  | logitLdc l | logitLdw l | logitLdt l | logitLdb l | logitLdg l | logitLdd l | logitLds l | logitSet l | logitMode l
    | logitMov l | logitAdd l | logitMul l | logitPen l | logitFpen l | logitTemp l | logitClmp l | logitKeep l | logitTopk l
    | logitTopp l | logitMinp l | logitSort l | logitNorm l | logitVmax l | logitDraw l | logitAcc l | logitPub l => cases hl
  -- an event has no word
  | _ => cases he

end

section
variable {i : Instr} {w : Dword}

/-- FN is the mark of a scalar b in add and mul, and a condition elsewhere (R294). -/
theorem logitFn_eq {sc : Bool} {fn : BitVec 4} {c : Cond} (hs : (!sc || fn.toNat ≤ 1) = true)
    (hc : (if sc then some .eq else Cond.ofCode fn) = some c) : (if (sc && fn == 1) then 1 else c.code) = fn := by
  cases sc with
  | false => exact Cond.code_of_ofCode fn c hc
  | true =>
    obtain rfl := Option.some.inj hc
    revert hs
    revert fn
    decide

/-- Without the mark of a scalar b, FN is the condition's code. -/
theorem LogitArgs.enc_unmarked {l : LogitArgs} {op : BitVec 6} (he : some (l.enc op) = some w) (hb : l.scalarB = false) :
    ∃ d a b s c imm, l = ⟨d, a, b, s, false, c, imm⟩ ∧ LRaw.ofWord w = ⟨op, d, a, b, s, 0, c.code, imm⟩ := by
  obtain ⟨d, a, b, s, sb, c, imm⟩ := l
  obtain rfl : sb = false := hb
  obtain rfl := Option.some.inj he
  exact ⟨d, a, b, s, c, imm, rfl, LRaw.ofWord_toWord _⟩

/-- The word of a well-formed instruction of a logit program decodes to it. -/
theorem decodeLogit_of_encode (hw : i.wf = true) (he : encode? i = some w) (hl : i.isLogit = true) :
    decodeLogit w = .ok i := by
  rw [decodeLogit]
  cases i with
  | logitAdd l | logitMul l =>
    obtain ⟨d, a, b, s, sb, c, imm⟩ := l
    obtain rfl := Option.some.inj he
    obtain rfl : c = .eq := beq_iff_eq.mp ((Bool.and_eq_true _ _).mp hw).2
    rw [LogitArgs.enc, LRaw.ofWord_toWord]
    cases sb <;> exact zero_eq_ok.2 ⟨rfl, zero_eq_ok.2 ⟨rfl, need_eq_ok.2 ⟨.eq, rfl, checkWf_eq_ok.2 ⟨rfl, hw⟩⟩⟩⟩
  | logitLdc l | logitLdw l | logitLdt l | logitLdb l | logitLdg l | logitLdd l | logitSet l | logitMov l | logitPen l
    | logitTemp l | logitTopk l | logitTopp l | logitMinp l | logitSort l | logitNorm l | logitVmax l | logitDraw l | logitAcc l
    | logitPub l =>
    obtain ⟨d, a, b, s, c, imm, rfl, hr⟩ := LogitArgs.enc_unmarked he (LogitArgs.scalarB_of_uses hw)
    rw [hr]
    exact zero_eq_ok.2 ⟨rfl, zero_eq_ok.2 ⟨rfl, need_eq_ok.2 ⟨c, Cond.ofCode_code c, checkWf_eq_ok.2 ⟨rfl, hw⟩⟩⟩⟩
  | logitLds l | logitMode l | logitFpen l | logitClmp l =>
    obtain ⟨d, a, b, s, c, imm, rfl, hr⟩ :=
      LogitArgs.enc_unmarked he (LogitArgs.scalarB_of_uses ((Bool.and_eq_true _ _).mp hw).1)
    rw [hr]
    exact zero_eq_ok.2 ⟨rfl, zero_eq_ok.2 ⟨rfl, need_eq_ok.2 ⟨c, Cond.ofCode_code c, checkWf_eq_ok.2 ⟨rfl, hw⟩⟩⟩⟩
  | logitKeep l =>
    obtain ⟨d, a, b, s, c, imm, rfl, hr⟩ :=
      LogitArgs.enc_unmarked he ((Bool.not_eq_true' _).mp ((Bool.and_eq_true _ _).mp hw).2)
    rw [hr]
    exact zero_eq_ok.2 ⟨rfl, zero_eq_ok.2 ⟨rfl, need_eq_ok.2 ⟨c, Cond.ofCode_code c, checkWf_eq_ok.2 ⟨rfl, hw⟩⟩⟩⟩
  | _ => cases hl

theorem LogitArgs.enc_fields {op : BitVec 6} {sb : Bool} {c : Cond} (hz : (LRaw.ofWord w).z = 0)
    (hfn : (if sb then 1 else c.code) = (LRaw.ofWord w).fn) (hop : (LRaw.ofWord w).op = op) :
    LogitArgs.enc ⟨(LRaw.ofWord w).d, (LRaw.ofWord w).a, (LRaw.ofWord w).b, (LRaw.ofWord w).s, sb, c, (LRaw.ofWord w).imm⟩ op
      = w := by
  rw [LogitArgs.enc, hfn, ← hz, ← hop, LRaw.toWord_ofWord]

/-- A word of the prompter that decodes is the encoding of what it decodes to. -/
theorem encode_of_decodeLogit (h : decodeLogit w = .ok i) : i.wf = true ∧ i.isLogit = true ∧ encode? i = some w := by
  simp only [decodeLogit, zero_eq_ok, need_eq_ok, checkWf_eq_ok] at h
  obtain ⟨hz, hs, c, hc, h, hw⟩ := h
  refine ⟨hw, ?_⟩
  clear hw
  split at h
  next ho =>
    obtain rfl := Except.ok.inj h
    split at ho
    all_goals
      rename_i hop
      cases ho
    all_goals exact ⟨rfl, congrArg some (LogitArgs.enc_fields (beq_iff_eq.mp hz) (logitFn_eq hs hc) (op_eq hop))⟩
  next => cases h

end

end Sys2Proof

namespace Sys2Proof.Machine

/-- Settles O57: every form's decoder reads back the fields its encoder writes. -/
theorem decodeOfEncode : Obligations.DecodeOfEncode :=
  fun _ _ hw he => ⟨decode_of_encode hw he, decodeLogit_of_encode hw he⟩

/-- Settles O58: every arm of the opcode maps answers the instruction whose encoding the word is. -/
theorem encodeOfDecode : Obligations.EncodeOfDecode := by
  refine ⟨fun w i h => ?_, fun _ _ => encode_of_decodeLogit⟩
  obtain ⟨hwf, henc, hthread⟩ := wordOf_decode h
  exact ⟨hwf, hthread, henc⟩

/-- Settles O56: each word evaluates to its instruction. -/
theorem wordsDecode : Obligations.WordsDecode := by
  refine ⟨?_, ?_, ?_, ?_, ?_, ?_, ?_, ?_, ?_, ?_, ?_, ?_, ?_, ?_, ?_, ?_⟩ <;> rfl

/-- Settles O12: a paired word is one local update of its threads, so it completes as every ALU word does (R155 to R158). -/
theorem pairedWords : Obligations.PairedWords := fun a =>
  completes_alu (f := pairedL a) (fun _ => rfl) rfl fun _ _ _ _ h => h.pairedL a

end Sys2Proof.Machine

/-! ### Integer arithmetic (O1) -/

namespace Sys2Proof.Machine

/-! ### Words of one, two and three integer sources (R178, R184) -/

theorem completes_int2 {i : Instr} {a : Int2Args} (f : Int → Int → Int) (hx : ∀ s, exec i s = alu i s (int2 f a))
    (hn : gatherMask i = none) : Completes i (int2 f a) := completes_alu hx hn fun _ _ _ _ h => h.int2 f a
theorem completes_int3 {i : Instr} {a : IntArgs} (f : Int → Int → Int → Int) (hx : ∀ s, exec i s = alu i s (int3 f a))
    (hn : gatherMask i = none) : Completes i (int3 f a) := completes_alu hx hn fun _ _ _ _ h => h.int3 f a
theorem completes_int1 {i : Instr} {a : Int1Args} (f : Int → Int) (hx : ∀ s, exec i s = alu i s (int1 f a))
    (hn : gatherMask i = none) : Completes i (int1 f a) := completes_alu hx hn fun _ _ _ _ h => h.int1 f a
theorem completes_cvti (a : CvtiArgs) : Completes (.cvti a) (cvti a) := completes_alu (fun _ => rfl) rfl fun _ _ _ _ h => h.cvti a

theorem smaller_eq_min : smaller = min := by
  funext x y
  unfold smaller
  omega

theorem larger_eq_max : larger = max := by
  funext x y
  unfold larger
  omega

theorem completes_smaller {i : Instr} {a : Int2Args} (hx : ∀ s, exec i s = alu i s (int2 smaller a))
    (hn : gatherMask i = none) : Completes i (int2 min a) := smaller_eq_min ▸ completes_int2 smaller hx hn
theorem completes_larger {i : Instr} {a : Int2Args} (hx : ∀ s, exec i s = alu i s (int2 larger a))
    (hn : gatherMask i = none) : Completes i (int2 max a) := larger_eq_max ▸ completes_int2 larger hx hn

/-! ### Integers in a type (R88) -/

theorem setWidth_signExtend {n : Nat} (hn : n ≤ 32) (y : BitVec n) : (y.signExtend 32).setWidth n = y := by
  ext i hi
  simp [← BitVec.getLsbD_eq_getElem, BitVec.getLsbD_signExtend, hi, hi.trans_le hn]

/-- An integer stored in a type is the one of the type's range that differs from it by a multiple of the range's size. -/
theorem intVal_extTo {ty : Ty} (h : ty.isInt = true) (x : Int) :
    intVal ty (extTo ty x) = (intRange ty).1 + (x - (intRange ty).1) % ((intRange ty).2 - (intRange ty).1 + 1) := by
  cases ty
  case u32 => simp only [intVal, extTo, intRange, BitVec.toNat_ofInt]; omega
  case u16 | u8 =>
    simp only [intVal, extTo, intRange, BitVec.setWidth_setWidth_of_le, Nat.reduceLeDiff, BitVec.setWidth_eq, BitVec.toNat_ofInt]
    omega
  case i32 | i16 | i8 =>
    simp only [intVal, extTo, intRange, setWidth_signExtend, Nat.reduceLeDiff, BitVec.toInt_ofInt, Int.bmod_eq_emod,
      Int.reducePow, Int.reduceNeg, Int.reduceSub, Int.reduceAdd]
    split <;> omega
  all_goals cases h

/-- With .sat the stored integer is the exact one clamped into the type's range. -/
theorem intVal_intResult_sat {ty : Ty} (h : ty.isInt = true) (x : Int) :
    intVal ty (intResult ty true x) = max (intRange ty).1 (min (intRange ty).2 x) := by
  have hr : (intRange ty).1 ≤ (intRange ty).2 := by cases ty <;> decide
  rw [intResult, if_pos rfl, intVal_extTo h, Int.emod_eq_of_lt] <;> omega

/-- Without .sat it lies in the range. -/
theorem intVal_intResult_mem_range {ty : Ty} (h : ty.isInt = true) (x : Int) :
    (intRange ty).1 ≤ intVal ty (intResult ty false x) ∧ intVal ty (intResult ty false x) ≤ (intRange ty).2 := by
  have hr : 0 < (intRange ty).2 - (intRange ty).1 + 1 := by cases ty <;> decide
  have hnonneg := Int.emod_nonneg (x - (intRange ty).1) hr.ne'
  have hlt := Int.emod_lt_of_pos (x - (intRange ty).1) hr
  rw [intResult, if_neg Bool.false_ne_true, intVal_extTo h]
  omega

/-- Without .sat it is congruent to the exact one. -/
theorem intVal_intResult_congr {ty : Ty} (h : ty.isInt = true) (x : Int) :
    (intRange ty).2 - (intRange ty).1 + 1 ∣ intVal ty (intResult ty false x) - x := by
  rw [intResult, if_neg Bool.false_ne_true, intVal_extTo h]
  convert Int.dvd_emod_sub_self (x := x - (intRange ty).1) using 1
  ring

end Sys2Proof.Machine

namespace Sys2Proof.Machine

/-- Settles O1: each word lands the integer its row says (`completes_int2` and its kin), and what is stored is that integer
clamped (`intVal_intResult_sat`) or wrapped (`intVal_intResult_mem_range`, `intVal_intResult_congr`) into the type. -/
theorem integerArithmetic : Obligations.IntegerArithmetic := by
  exact ⟨⟨fun a => completes_int2 _ (fun _ => rfl) rfl, fun a => completes_int2 _ (fun _ => rfl) rfl,
    fun a => completes_int2 _ (fun _ => rfl) rfl, fun a => completes_int2 _ (fun _ => rfl) rfl,
    fun a => completes_int2 _ (fun _ => rfl) rfl, fun a => completes_int2 _ (fun _ => rfl) rfl,
    fun a => completes_int2 mulHigh (fun _ => rfl) rfl, fun a => completes_int2 mulHigh (fun _ => rfl) rfl,
    fun a => completes_smaller (fun _ => rfl) rfl, fun a => completes_smaller (fun _ => rfl) rfl,
    fun a => completes_larger (fun _ => rfl) rfl, fun a => completes_larger (fun _ => rfl) rfl,
    fun a => completes_int3 (fun x y z => x + y + z) (fun _ => rfl) rfl, fun a => completes_int3 (fun x y z => x * y + z) (fun _ => rfl) rfl,
    fun a => completes_int1 absolute (fun _ => rfl) rfl, fun a => completes_int1 (fun x => -x) (fun _ => rfl) rfl, completes_cvti⟩,
    fun ty x h => ⟨intVal_intResult_sat h x, (intVal_intResult_mem_range h x).1, (intVal_intResult_mem_range h x).2,
      intVal_intResult_congr h x⟩⟩

end Sys2Proof.Machine

/-! ### Logic, shifts and fields (O2) -/

namespace Sys2Proof.Machine

/-! ### Words of one, two and three sources of bits (R179..R181) -/

theorem completes_log1 {i : Instr} {a : Log1Args} (f : Word → Word) (hx : ∀ s, exec i s = alu i s (log1 f a))
    (hn : gatherMask i = none) : Completes i (log1 f a) := completes_alu hx hn fun _ _ _ _ h => h.log1 f a
theorem completes_log2 {i : Instr} {a : Log2Args} (f : Word → Word → Word) (hx : ∀ s, exec i s = alu i s (log2 f a))
    (hn : gatherMask i = none) : Completes i (log2 f a) := completes_alu hx hn fun _ _ _ _ h => h.log2 f a
theorem completes_log3 {i : Instr} {a : Log3Args} (f : Byte → Word → Word → Word → Word)
    (hx : ∀ s, exec i s = alu i s (log3 f a)) (hn : gatherMask i = none) : Completes i (log3 f a) :=
  completes_alu hx hn fun _ _ _ _ h => h.log3 f a
theorem completes_shladd (a : ShladdArgs) : Completes (.shladd a) (shladd a) :=
  completes_alu (fun _ => rfl) rfl fun _ _ _ _ h => h.shladd a
theorem completes_bfe (a : BfeArgs) : Completes (.bfe a) (bfe a) := completes_alu (fun _ => rfl) rfl fun _ _ _ _ h => h.bfe a

/-- R180: an arithmetic shift right divides and rounds down. -/
theorem shiftArith_eq : shiftArith = fun x n => BitVec.ofInt 32 (x.toInt / 2 ^ min n.toNat 31) := by
  funext x n
  rw [← BitVec.toInt_inj, BitVec.toInt_ofInt, shiftArith, ← BitVec.toInt_bmod_cancel, BitVec.toInt_sshiftRight, Int.shiftRight_eq_div_pow]
  norm_cast

theorem completes_sar {i : Instr} {a : Log2Args} (hx : ∀ s, exec i s = alu i s (log2 shiftArith a)) (hn : gatherMask i = none) :
    Completes i (log2 (fun x n => BitVec.ofInt 32 (x.toInt / 2 ^ min n.toNat 31)) a) := shiftArith_eq ▸ completes_log2 shiftArith hx hn

/-! ### A word from its bits -/

theorem getLsbD_one_shiftLeft {n : Nat} (hn : n < 32) (j : Nat) : (1#32 <<< j).getLsbD n = decide (j = n) := by
  simp only [BitVec.getLsbD_shiftLeft, BitVec.getLsbD_one, hn]
  grind

theorem getLsbD_foldl_bits {n : Nat} (hn : n < 32) (l : List (Nat × Bool)) (w : Word) :
    (l.foldl (fun w x => if x.2 then w ||| (1#32 <<< x.1) else w) w).getLsbD n = (w.getLsbD n || l.any fun x => x.1 == n && x.2) := by
  induction l generalizing w with
  | nil => simp
  | cons x l ih =>
    obtain ⟨j, b⟩ := x
    rw [List.foldl_cons, ih, List.any_cons]
    cases b
    · simp
    · simp only [if_true, BitVec.getLsbD_or, getLsbD_one_shiftLeft hn, Bool.or_assoc, Bool.and_true]
      rfl

/-- R211: bit `n` is set where lane `n` is listed with a bit that is. -/
theorem getLsbD_laneBits (l : List (Nat × Bool)) {n : Nat} (hn : n < 32) :
    (laneBits l).getLsbD n = l.any fun x => x.1 == n && x.2 := by
  rw [laneBits, getLsbD_foldl_bits hn]
  simp

theorem ofBits_eq_laneBits (f : Nat → Bool) : ofBits f = laneBits ((List.range 32).map fun i => (i, f i)) := by
  rw [laneBits, List.foldl_map]
  rfl

theorem getLsbD_ofBits (f : Nat → Bool) {n : Nat} (hn : n < 32) : (ofBits f).getLsbD n = f n := by
  rw [ofBits_eq_laneBits, getLsbD_laneBits _ hn, Bool.eq_iff_iff]
  simp [hn]

theorem getLsbD_lut3 (tab : Byte) (x y z : Word) {i : Nat} (hi : i < 32) : (lut3 tab x y z).getLsbD i =
    tab.getLsbD ((x.getLsbD i).toNat + 2 * (y.getLsbD i).toNat + 4 * (z.getLsbD i).toNat) := by
  rw [lut3, getLsbD_ofBits _ hi]
  cases x.getLsbD i <;> cases y.getLsbD i <;> cases z.getLsbD i <;> rfl

theorem getLsbD_reverseBits (x : Word) {i : Nat} (hi : i < 32) : (reverseBits x).getLsbD i = x.getLsbD (31 - i) :=
  getLsbD_ofBits _ hi

/-! ### Counting (R180) -/

theorem toNat_popCount (x : Word) : (popCount x).toNat = ((List.range 32).filter fun i => x.getLsbD i).length := by
  have h := List.length_filter_le (fun i => x.getLsbD i) (List.range 32)
  rw [List.length_range] at h
  rw [popCount, BitVec.toNat_ofNat, Nat.mod_eq_of_lt (by omega)]

/-- A word that is not 0 has a bit. -/
theorem exists_getLsbD {x : Word} (h : x ≠ 0) : ∃ i, i < 32 ∧ x.getLsbD i = true := by
  by_contra hnone
  push Not at hnone
  refine h (BitVec.eq_of_getLsbD_eq fun i hi => ?_)
  simpa using hnone i hi

/-- The first of a list of bits that is set, where they are all of a word's. -/
theorem first_bit {x : Word} (h : x ≠ 0) {l : List Nat} (hl : ∀ i, i < 32 → i ∈ l) (hlen : l.length = 32) :
    ∃ (k : Nat) (hk : k < l.length), BitVec.ofNat 32 ((l.findIdx? fun i => x.getLsbD i).getD 32) = BitVec.ofNat 32 k ∧
      x.getLsbD l[k] = true ∧ ∀ j (hj : j < k), x.getLsbD l[j] = false := by
  cases hf : l.findIdx? fun i => x.getLsbD i with
  | none =>
    obtain ⟨i, hi, hx⟩ := exists_getLsbD h
    exact absurd (List.findIdx?_eq_none_iff.1 hf i (hl i hi)) (by simp [hx])
  | some k =>
    obtain ⟨hk, hbit, hbefore⟩ := List.findIdx?_eq_some_iff_getElem.1 hf
    exact ⟨k, hk, rfl, hbit, fun j hj => by simpa using hbefore j hj⟩

theorem leadingZeros_spec (x : Word) : if x = 0 then leadingZeros x = 32
    else x.getLsbD (31 - (leadingZeros x).toNat) = true ∧ ∀ i, 31 - (leadingZeros x).toNat < i → x.getLsbD i = false := by
  split
  next h => subst h; decide
  next h =>
    obtain ⟨k, hk, heq, hbit, hbefore⟩ := first_bit h (l := (List.range 32).reverse) (by simp) (by simp)
    rw [List.length_reverse, List.length_range] at hk
    have hzeros : (leadingZeros x).toNat = k := by
      rw [leadingZeros, heq, BitVec.toNat_ofNat, Nat.mod_eq_of_lt (by omega)]
    simp only [List.getElem_reverse, List.getElem_range, List.length_range] at hbit hbefore
    rw [hzeros]
    refine ⟨hbit, fun i hi => ?_⟩
    by_cases hlt : i < 32
    · have := hbefore (31 - i) (by omega)
      rwa [show 32 - 1 - (31 - i) = i by omega] at this
    · exact BitVec.getLsbD_of_ge x i (by omega)

theorem trailingZeros_spec (x : Word) : if x = 0 then trailingZeros x = 32
    else x.getLsbD (trailingZeros x).toNat = true ∧ ∀ i, i < (trailingZeros x).toNat → x.getLsbD i = false := by
  split
  next h => subst h; decide
  next h =>
    obtain ⟨k, hk, heq, hbit, hbefore⟩ := first_bit h (l := List.range 32) (by simp) (by simp)
    rw [List.length_range] at hk
    have hzeros : (trailingZeros x).toNat = k := by
      rw [trailingZeros, heq, BitVec.toNat_ofNat, Nat.mod_eq_of_lt (by omega)]
    simp only [List.getElem_range] at hbit hbefore
    rw [hzeros]
    exact ⟨hbit, hbefore⟩

/-! ### Fields (R181) -/

@[simp] theorem bits_7_0 (x : Nat) : bits x 7 0 = x % 256 := by simp [bits]
@[simp] theorem bits_15_8 (x : Nat) : bits x 15 8 = x / 256 % 256 := by simp [bits]

theorem testBit_toNat (x : Word) (i : Nat) : x.toNat.testBit i = x.getLsbD i := rfl

/-- Bit `i` of the `n` bits from `p` up. -/
theorem testBit_field (x : Word) (p n i : Nat) : (x.toNat / 2 ^ p % 2 ^ n).testBit i = (decide (i < n) && x.getLsbD (p + i)) := by
  rw [Nat.testBit_mod_two_pow, Nat.testBit_div_two_pow, testBit_toNat, Nat.add_comm]

/-- A field of `n` bits as a negative number repeats its top bit, which is set, above it. -/
theorem getLsbD_ofInt_sub {f n i : Nat} (hf : f < 2 ^ n) (hn : n ≤ 32) (hi : i < 32) :
    (BitVec.ofInt 32 ((f : Int) - 2 ^ n)).getLsbD i = (decide (n ≤ i) || f.testBit i) := by
  have hpow : 2 ^ n * 2 ^ (32 - n) = 2 ^ 32 := by rw [← pow_add, Nat.add_sub_cancel' hn]
  have hnat : ((f : Int) - 2 ^ n) = (2 ^ n * (2 ^ (32 - n) - 1) + f : Nat) - (2 ^ 32 : Nat) := by
    have hle : 2 ^ n ≤ 2 ^ 32 := Nat.pow_le_pow_right (by decide) hn
    rw [Nat.mul_sub, hpow, Nat.mul_one, Nat.cast_add, Nat.cast_sub hle]
    push_cast
    ring
  have hof : BitVec.ofInt 32 ((f : Int) - 2 ^ n) = BitVec.ofNat 32 (2 ^ n * (2 ^ (32 - n) - 1) + f) := by
    rw [← BitVec.ofInt_natCast, ← BitVec.toInt_inj, BitVec.toInt_ofInt, BitVec.toInt_ofInt, hnat, Int.sub_bmod_right]
  have hones : (2 ^ (32 - n) - 1).testBit (i - n) = decide (i - n < 32 - n) := Nat.testBit_two_pow_sub_one _ _
  rw [hof, BitVec.getLsbD_ofNat, Nat.testBit_two_pow_mul_add _ hf, hones]
  by_cases hlt : i < n
  · simp [hi, hlt, hlt.not_ge]
  · rw [Nat.testBit_lt_two_pow (hf.trans_le (Nat.pow_le_pow_right (by decide) (Nat.le_of_not_lt hlt)))]
    simp [hi, hlt, Nat.le_of_not_lt hlt]
    omega

/-- A field of `n` bits as a signed number: its top bit stands at `n - 1` and above. -/
theorem getLsbD_signed_field {f n i : Nat} (hf : f < 2 ^ n) (h0 : 0 < n) (hn : n ≤ 32) (hi : i < 32) :
    (if f.testBit (n - 1) then BitVec.ofInt 32 ((f : Int) - 2 ^ n) else BitVec.ofNat 32 f).getLsbD i = f.testBit (min i (n - 1)) := by
  have habove : ∀ j, n ≤ j → f.testBit j = false := fun j hj =>
    Nat.testBit_lt_two_pow (hf.trans_le (Nat.pow_le_pow_right (by decide) hj))
  have hbit : (if f.testBit (n - 1) then BitVec.ofInt 32 ((f : Int) - 2 ^ n) else BitVec.ofNat 32 f).getLsbD i
      = (decide (n ≤ i) && f.testBit (n - 1) || f.testBit i) := by
    split
    next h => simp [getLsbD_ofInt_sub hf hn hi, h]
    next h => simp only [BitVec.getLsbD_ofNat, hi, h, decide_true, Bool.true_and, Bool.and_false, Bool.false_or]
  rw [hbit]
  by_cases hlt : n ≤ i
  · simp [hlt, habove i hlt, show min i (n - 1) = n - 1 by omega]
  · simp [hlt, show min i (n - 1) = i by omega]

theorem getLsbD_bitExtract_unsigned (x y : Word) {i : Nat} (hi : i < 32) :
    (bitExtract false x y).getLsbD i = (decide (i < y.toNat / 256 % 256) && x.getLsbD (y.toNat % 256 + i)) := by
  simp only [bitExtract, bits_7_0, bits_15_8, Bool.false_and, Bool.false_eq_true, if_false]
  generalize y.toNat % 256 = pos
  generalize y.toNat / 256 % 256 = len
  split_ifs with hlen hpos
  · simp [hlen]
  · rw [BitVec.getLsbD_of_ge x _ (by omega)]
    simp
  · rw [BitVec.getLsbD_ofNat, testBit_field, decide_eq_true hi, Bool.true_and, show min pos 32 = pos by omega]
    by_cases hin : pos + i < 32
    · congr 1
      rw [decide_eq_decide]
      omega
    · rw [BitVec.getLsbD_of_ge x _ (by omega), Bool.and_false, Bool.and_false]

theorem getLsbD_bitExtract_signed (x y : Word) {i : Nat} (hi : i < 32) (hlen : 0 < y.toNat / 256 % 256) :
    (bitExtract true x y).getLsbD i = x.getLsbD (min (y.toNat % 256 + min i (y.toNat / 256 % 256 - 1)) 31) := by
  simp only [bitExtract, bits_7_0, bits_15_8, Bool.true_and]
  generalize y.toNat % 256 = pos
  generalize y.toNat / 256 % 256 = len at *
  rw [if_neg hlen.ne']
  by_cases hpos : min pos 32 = 32
  · rw [if_pos hpos, show min (pos + min i (len - 1)) 31 = 31 by omega]
    have hones : (0xFFFF_FFFF : Word) = BitVec.allOnes 32 := rfl
    cases x.getLsbD 31
    · simp
    · simp only [if_true, hones, BitVec.getLsbD_allOnes, hi, decide_true]
  · have hfield : x.toNat / 2 ^ min pos 32 % 2 ^ (min (pos + len) 32 - min pos 32) < 2 ^ (min (pos + len) 32 - min pos 32) :=
      Nat.mod_lt _ (Nat.two_pow_pos _)
    rw [if_neg hpos, getLsbD_signed_field hfield (by omega) (by omega) hi, testBit_field,
      show min (pos + min i (len - 1)) 31 = min pos 32 + min i (min (pos + len) 32 - min pos 32 - 1) by omega]
    simp only [Bool.and_eq_right_iff_imp, decide_eq_true_eq]
    omega

theorem getLsbD_bitInsert (tab : Byte) (x y z : Word) {i : Nat} (hi : i < 32) :
    (bitInsert tab x y z).getLsbD i = if y.toNat % 256 ≤ i ∧ i < y.toNat % 256 + y.toNat / 256 % 256
      then x.getLsbD (i - y.toNat % 256) else z.getLsbD i := by
  simp only [bitInsert, bits_7_0, bits_15_8]
  generalize y.toNat % 256 = pos
  generalize y.toNat / 256 % 256 = len
  split
  next h => rw [if_neg (by omega)]
  next h =>
    have hmask : (BitVec.ofNat 32 ((2 ^ min len (32 - min pos 32) - 1) * 2 ^ pos)).getLsbD i = decide (pos ≤ i ∧ i < pos + len) := by
      rw [BitVec.getLsbD_ofNat, Nat.testBit_mul_two_pow, Nat.testBit_two_pow_sub_one, Bool.eq_iff_iff]
      simp only [Bool.and_eq_true, decide_eq_true_eq]
      omega
    rw [BitVec.getLsbD_or, BitVec.getLsbD_and, BitVec.getLsbD_and, BitVec.getLsbD_not, hmask, BitVec.getLsbD_shiftLeft]
    by_cases hin : pos ≤ i ∧ i < pos + len
    · simp [hin, hi]
    · simp [hin, hi]

end Sys2Proof.Machine

namespace Sys2Proof.Machine

/-- Settles O2: each word lands what its row says (`completes_log2` and its kin), and the words that its row gives bit by bit
have those bits: those built of bits (`getLsbD_lut3`, `getLsbD_reverseBits`), the counts (`leadingZeros_spec`,
`trailingZeros_spec`) and the fields (`getLsbD_bitExtract_signed`, `getLsbD_bitInsert`). -/
theorem logicShiftsAndFields : Obligations.LogicShiftsAndFields :=
  ⟨⟨fun _ => completes_log2 shiftLeft (fun _ => rfl) rfl, fun _ => completes_log2 shiftLeft (fun _ => rfl) rfl,
    fun _ => completes_log2 shiftRight (fun _ => rfl) rfl, fun _ => completes_log2 shiftRight (fun _ => rfl) rfl,
    fun _ => completes_sar (fun _ => rfl) rfl, fun _ => completes_sar (fun _ => rfl) rfl,
    fun _ => completes_log2 rotateLeft (fun _ => rfl) rfl, fun _ => completes_log2 rotateLeft (fun _ => rfl) rfl,
    fun _ => completes_log2 andW (fun _ => rfl) rfl, fun _ => completes_log2 andW (fun _ => rfl) rfl,
    fun _ => completes_log2 orW (fun _ => rfl) rfl, fun _ => completes_log2 orW (fun _ => rfl) rfl,
    fun _ => completes_log2 xorW (fun _ => rfl) rfl, fun _ => completes_log2 xorW (fun _ => rfl) rfl,
    fun _ => completes_log2 andNot (fun _ => rfl) rfl, fun _ => completes_log2 andNot (fun _ => rfl) rfl,
    fun _ => completes_log1 notW (fun _ => rfl) rfl, completes_shladd⟩,
    fun _ => completes_log3 lut3 (fun _ => rfl) rfl, fun tab x y z _ => getLsbD_lut3 tab x y z,
    fun _ => completes_log1 reverseBits (fun _ => rfl) rfl, fun x _ => getLsbD_reverseBits x,
    fun _ => completes_log1 popCount (fun _ => rfl) rfl, toNat_popCount,
    fun _ => completes_log1 leadingZeros (fun _ => rfl) rfl, leadingZeros_spec,
    fun _ => completes_log1 trailingZeros (fun _ => rfl) rfl, trailingZeros_spec,
    completes_bfe, fun x y _ => getLsbD_bitExtract_unsigned x y, fun x y _ => getLsbD_bitExtract_signed x y,
    fun _ => completes_log3 bitInsert (fun _ => rfl) rfl, fun tab x y z _ => getLsbD_bitInsert tab x y z⟩

end Sys2Proof.Machine

/-! ### Compare and select (O3) -/

namespace Sys2Proof.Machine

/-! ### Words that write a predicate or a chosen group (R182, R183) -/

theorem completes_setp {i : Instr} {a : SetpArgs} (hx : ∀ s, exec i s = alu i s (setp a)) (hn : gatherMask i = none) :
    Completes i (setp a) := completes_alu hx hn fun _ _ _ _ h => h.setp a

/-- The choice of sel, by equality of its predicate with its inversion bit. -/
theorem sel_eq (a : SelArgs) :
    sel a = fun _ e => .dst a.d (groupOf a.dm (immOf a.ty) e (if e.p a.ps = a.inv then a.b else a.a)) := by
  funext s e
  by_cases h : e.p a.ps = a.inv <;> simp [sel, h]

theorem completes_sel {i : Instr} {a : SelArgs} (hx : ∀ s, exec i s = alu i s (sel a)) (hn : gatherMask i = none) :
    Completes i fun _ e => .dst a.d (groupOf a.dm (immOf a.ty) e (if e.p a.ps = a.inv then a.b else a.a)) :=
  sel_eq a ▸ completes_alu hx hn fun _ _ _ _ h => h.sel a

theorem intCond_eq_true_iff (c : Cond) (x y : Int) : intCond c x y = true ↔
    (c = .eq ∧ x = y) ∨ (c = .ne ∧ x ≠ y) ∨ (c = .lt ∧ x < y) ∨ (c = .le ∧ x ≤ y) ∨
      (c = .gt ∧ y < x) ∨ (c = .ge ∧ y ≤ x) := by
  cases c <;> simp [intCond]

/-! ### Predicates written (R58) -/

@[simp] theorem setPred_seven (x : BitVec 7) (b : Bool) : setPred x 7 b = x := if_pos rfl

theorem getLsbD_setPred {n : Nat} (hn : n < 7) (x : BitVec 7) (b : Bool) (q : Nat) :
    (setPred x n b).getLsbD q = if q = n then b else x.getLsbD q := by
  rw [setPred, if_neg hn.ne]
  by_cases hq : q < 7
  · have hbit : (1#7 <<< n).getLsbD q = decide (q = n) := by
      simp only [BitVec.getLsbD_shiftLeft, hq, BitVec.getLsbD_one]
      grind
    cases b
    · rw [if_neg Bool.false_ne_true, BitVec.getLsbD_and, BitVec.getLsbD_not, hbit]
      by_cases e : q = n <;> simp [e, hq]
    · rw [if_pos rfl, BitVec.getLsbD_or, hbit]
      by_cases e : q = n <;> simp [e]
  · have hout : ∀ y : BitVec 7, y.getLsbD q = false := fun y => BitVec.getLsbD_of_ge y q (by omega)
    rw [hout, hout, if_neg (by omega)]

/-- A thread that takes a predicate and no more. -/
theorem apply_pred (p : BitVec 3) (b : Bool) (iw : Dword) (th : Thread) :
    (Wr.pred p b).apply iw th = { th with p := setPred th.p p.toNat b } := by
  simp [Wr.apply, Wr.pred]

/-- R58: a predicate reads as it was last written, p7 as 1. -/
theorem predOf_apply_pred (p : BitVec 3) (q : Nat) (b : Bool) (iw : Dword) (th : Thread) :
    State.predOf ((Wr.pred p b).apply iw th) q = if q = 7 then true else if q = p.toNat then b else State.predOf th q := by
  rw [apply_pred]
  by_cases hq : q = 7
  · simp [hq, State.predOf]
  · have hread : ∀ th : Thread, State.predOf th q = th.p.getLsbD q := fun th => by simp [State.predOf, hq]
    rw [hread, hread, if_neg hq]
    by_cases hp : p.toNat = 7
    · rw [hp, setPred_seven, if_neg hq]
    · exact getLsbD_setPred (by omega) _ _ _

end Sys2Proof.Machine

namespace Sys2Proof.Machine

/-- Settles O3: setp and sel land what their rows say (`completes_setp`, `completes_sel`); a predicate written reads back
(`predOf_apply_pred`) but p7, whose write changes nothing (`setPred_seven`). -/
theorem compareAndSelect : Obligations.CompareAndSelect := by
  refine ⟨fun a => completes_setp (fun _ => rfl) rfl, fun a => completes_setp (fun _ => rfl) rfl, fun a => completes_sel (fun _ => rfl) rfl,
    fun a => completes_sel (fun _ => rfl) rfl, intCond_eq_true_iff, fun p b iw th => ?_, predOf_apply_pred⟩
  rw [apply_pred]
  split
  next hp => rw [hp]; exact congrArg (fun x => { th with p := x }) (setPred_seven th.p b)
  next => rfl

end Sys2Proof.Machine

/-! ### Floating-point arithmetic (O4) -/

namespace Sys2Proof.Machine

/-! ### Words of floating-point operations (R185, R186, R189, R190) -/

theorem completes_flt2 {i : Instr} {a : Flt2Args} (rounds : Bool) (op : Fmt → Mode → Nat → Nat → Nat × Flags)
    (sp : Fmt → Mode → List Nat → Nat → Spread) (hx : ∀ s, exec i s = alu i s (flt2 a rounds op sp)) (hn : gatherMask i = none) :
    Completes i (flt2 a rounds op sp) := completes_alu hx hn fun _ _ _ _ h => h.flt2 a rounds op sp
theorem completes_fma (a : Flt3Args) : Completes (.fma a) (fmaL a) := completes_alu (fun _ => rfl) rfl fun _ _ _ _ h => h.fmaL a
theorem completes_fscale {i : Instr} {a : Flt2Args} (hx : ∀ s, exec i s = alu i s (fscaleL a)) (hn : gatherMask i = none) :
    Completes i (fscaleL a) := completes_alu hx hn fun _ _ _ _ h => h.fscaleL a
theorem completes_frnd (a : Flt1Args) : Completes (.frnd a) (frndL a) := completes_alu (fun _ => rfl) rfl fun _ _ _ _ h => h.frndL a

/-- The mean of an operand is the low bits of its register, whatever its mode. -/
theorem dop_mean (e : Env) (f : Fmt) (im : HalfWord → Word) (dm : DM) (mark : Bool) (o : Opnd) :
    (dop e f im dm mark o).mean = f.low (e.op im o) := by
  unfold dop
  split <;> rfl

/-- A form of plain values: the operation on the low bits of its sources. -/
theorem floatForm_plain (s : State) (e : Env) (src dst : Fmt) (im : HalfWord → Word) (rm : RM) (ftz rounds : Bool) (d : Reg)
    (srcs : List (Opnd × Bool)) (op : Mode → List Nat → Nat × Flags) (sp : Mode → List Nat → Nat → Spread) :
    let r := op (elemMode s e rm ftz 0) (srcs.map fun o => src.low (e.op im o.1))
    floatForm s e src dst im .plain rm ftz rounds d srcs op sp
      = .dst d [codeWord r.1] r.2 (if rounds then drawCount e rm 1 else 0) := by
  have hmeans : (srcs.map fun o => dop e src im .plain o.2 o.1).map DOp.mean = srcs.map fun o => src.low (e.op im o.1) := by
    simp only [List.map_map, Function.comp_def, dop_mean]
  simp only [floatForm, hmeans, if_true, BitVec.ofNat_eq_ofNat, BitVec.or_zero]

/-! ### NaN, infinities and order (R85, R186) -/

theorem Num.isNan_iff {x : Num} : x.isNan = true ↔ x = .nan := by cases x <;> simp [Num.isNan]

theorem Num.add_nan (rd : Bool) {x y : Num} (h : x = .nan ∨ y = .nan) : x.add rd y = (.nan, false) := by
  rcases h with rfl | rfl
  · rfl
  · cases x <;> rfl

theorem Num.times_nan (rd : Bool) {x y : Num} (h : x = .nan ∨ y = .nan) : x.times rd y = (.nan, false) := by
  rcases h with rfl | rfl
  · rfl
  · cases x <;> rfl

/-- An infinity times a zero is invalid. -/
theorem Num.times_inf_zero (rd : Bool) {x y : Num} (hx : x.isInf = true) (hy : y.isZero = true) : x.times rd y = (.nan, true) := by
  obtain ⟨n, rfl⟩ : ∃ n, x = .inf n := by
    cases x
    case inf n => exact ⟨n, rfl⟩
    all_goals cases hx
  have hmul : (Num.inf n).mul y = (.nan, true) := by
    cases y
    case fin => exact if_pos hy
    all_goals cases hy
  rw [Num.times, hmul]
  rfl

theorem Num.negate_eq_nan {x : Num} : x.negate = .nan ↔ x = .nan := by cases x <;> simp [Num.negate]

theorem Fmt.result_nan (f : Fmt) (md : Mode) (bad : Bool) : f.result md (.nan, bad) = (f.qnan, Flags.nf ||| Flags.when bad Flags.inv) := rfl

/-- The flags of an invalid operation hold INV, whatever its sources raise. -/
theorem raises_inv (a b c : Flags) : (a ||| Flags.when true Flags.inv ||| b ||| c) &&& Flags.inv = Flags.inv := by
  have hinv : Flags.when true Flags.inv = Flags.inv := rfl
  rw [hinv]
  ext i hi
  simp only [BitVec.getElem_and, BitVec.getElem_or]
  cases Flags.inv[i] <;> simp

theorem add_of_nan (f : Fmt) (md : Mode) (a b : Nat) (h : (f.source md.ftz a).1 = .nan ∨ (f.source md.ftz b).1 = .nan) :
    (f.add md a b).1 = f.qnan := by
  rw [Fmt.add, Num.add_nan _ h, Fmt.result_nan]

theorem sub_of_nan (f : Fmt) (md : Mode) (a b : Nat) (h : (f.source md.ftz a).1 = .nan ∨ (f.source md.ftz b).1 = .nan) :
    (f.sub md a b).1 = f.qnan := by
  rw [Fmt.sub, Num.add_nan _ (h.imp_right Num.negate_eq_nan.2), Fmt.result_nan]

theorem mul_of_nan (f : Fmt) (md : Mode) (a b : Nat) (h : (f.source md.ftz a).1 = .nan ∨ (f.source md.ftz b).1 = .nan) :
    (f.mul md a b).1 = f.qnan := by
  rw [Fmt.mul, Num.times_nan _ h, Fmt.result_nan]

/-- The sum of opposite infinities is invalid. -/
theorem add_opposite_infinities (f : Fmt) (md : Mode) (a b : Nat) (ha : (f.source md.ftz a).1 = .inf false)
    (hb : (f.source md.ftz b).1 = .inf true) :
    (f.add md a b).1 = f.qnan ∧ (f.add md a b).2 &&& Flags.inv = Flags.inv := by
  have hsum : Num.add (md.rm == .rd) (.inf false) (.inf true) = (.nan, true) := rfl
  rw [Fmt.add, ha, hb, hsum, Fmt.result_nan]
  exact ⟨rfl, raises_inv _ _ _⟩

/-- The product of an infinity and a zero is invalid. -/
theorem mul_infinity_zero (f : Fmt) (md : Mode) (a b : Nat) (ha : (f.source md.ftz a).1.isInf = true)
    (hb : (f.source md.ftz b).1.isZero = true) :
    (f.mul md a b).1 = f.qnan ∧ (f.mul md a b).2 &&& Flags.inv = Flags.inv := by
  rw [Fmt.mul, Num.times_inf_zero _ ha hb, Fmt.result_nan]
  exact ⟨rfl, raises_inv _ _ _⟩

/-! ### Minimum and maximum (R186) -/

theorem Num.lowExp_comm (x y : Num) : x.lowExp y = y.lowExp x := by
  cases x <;> cases y <;> simp [Num.lowExp, min_comm]

theorem Num.lt_asymm {x y : Num} (h : x.lt y = true) : y.lt x = false := by
  cases x <;> cases y <;> simp_all [Num.lt, Num.lowExp_comm]
  omega

theorem Num.isZero_iff {x : Num} : x.isZero = true ↔ ∃ n k, x = .fin n 0 k := by
  unfold Num.isZero
  split <;> simp_all

/-- Of two numbers one of which is less, not both are zeros. -/
theorem Num.not_zeros_of_lt {x y : Num} (h : x.lt y = true) : (x.isZero && y.isZero) = false := by
  by_contra hz
  obtain ⟨hx, hy⟩ : x.isZero = true ∧ y.isZero = true := by simpa using hz
  obtain ⟨n, k, rfl⟩ := Num.isZero_iff.1 hx
  obtain ⟨m, l, rfl⟩ := Num.isZero_iff.1 hy
  simp [Num.lt, Num.scaled] at h

theorem Num.below_of_lt {x y : Num} (h : x.lt y = true) : x.below y = true := by simp [Num.below, h]
theorem Num.not_below_of_lt {x y : Num} (h : x.lt y = true) : y.below x = false := by
  have hz := Num.not_zeros_of_lt h
  simp only [Num.below, Num.lt_asymm h, Bool.and_comm y.isZero, hz, Bool.false_and, Bool.or_false]

theorem selectsB_of_nan {x y : Num} (mx : Bool) (hx : x.isNan = true) (hy : y.isNan = false) : selectsB mx x y = true := by
  simp [selectsB, hx, hy]

theorem selectsB_of_lt {x y : Num} (mx : Bool) (hx : x.isNan = false) (hy : y.isNan = false) (h : x.lt y = true) :
    selectsB mx x y = mx := by
  cases mx <;> simp [selectsB, hx, hy, Num.below_of_lt h, Num.not_below_of_lt h]

/-- The source selected is the result, as it is read, where it is no NaN. -/
theorem minMax_fst (f : Fmt) (mx ftz : Bool) (a b c : Nat) (hc : (if selectsB mx (f.source ftz a).1 (f.source ftz b).1 then b else a) = c)
    (hn : (f.source ftz c).1.isNan = false) : (f.minMax mx ftz a b).1 = f.flushIn ftz c := by
  have hsel : (if selectsB mx (f.source ftz a).1 (f.source ftz b).1 then f.flushIn ftz b else f.flushIn ftz a) = f.flushIn ftz c := by
    rw [← hc, apply_ite (f.flushIn ftz)]
  have hdec : (f.decode (f.flushIn ftz c)).isNan = false := hn
  simp only [Fmt.minMax, hsel, hdec, Bool.false_eq_true, if_false]

/-- A NaN beside a number: the number. -/
theorem minMax_of_nan (f : Fmt) (mx ftz : Bool) (a b : Nat) (ha : (f.source ftz a).1.isNan = true) (hb : (f.source ftz b).1.isNan = false) :
    (f.minMax mx ftz a b).1 = f.flushIn ftz b :=
  minMax_fst f mx ftz a b b (if_pos (selectsB_of_nan mx ha hb)) hb

theorem min_of_lt (f : Fmt) (ftz : Bool) (a b : Nat) (ha : (f.source ftz a).1.isNan = false) (hb : (f.source ftz b).1.isNan = false)
    (h : (f.source ftz a).1.lt (f.source ftz b).1 = true) : (f.minMax false ftz a b).1 = f.flushIn ftz a :=
  minMax_fst f false ftz a b a (if_neg (by simp [selectsB_of_lt false ha hb h])) ha

theorem max_of_lt (f : Fmt) (ftz : Bool) (a b : Nat) (ha : (f.source ftz a).1.isNan = false) (hb : (f.source ftz b).1.isNan = false)
    (h : (f.source ftz a).1.lt (f.source ftz b).1 = true) : (f.minMax true ftz a b).1 = f.flushIn ftz b :=
  minMax_fst f true ftz a b b (if_pos (selectsB_of_lt true ha hb h)) hb

end Sys2Proof.Machine

namespace Sys2Proof.Machine

/-- Settles O4: each word lands its form (`completes_flt2` and its kin; of plain values, `floatForm_plain`), and its operation
keeps the rules of NaN, of invalid sums and products (`add_opposite_infinities`, `mul_infinity_zero`) and of the smaller and
larger source (`min_of_lt`, `max_of_lt`). -/
theorem floatArithmetic : Obligations.FloatArithmetic := by
  refine ⟨⟨fun a => completes_flt2 true Fmt.add (fun _ => sumSpread false) (fun _ => rfl) rfl,
    fun a => completes_flt2 true Fmt.add (fun _ => sumSpread false) (fun _ => rfl) rfl,
    fun a => completes_flt2 true Fmt.sub (fun _ => sumSpread true) (fun _ => rfl) rfl,
    fun a => completes_flt2 true Fmt.sub (fun _ => sumSpread true) (fun _ => rfl) rfl,
    fun a => completes_flt2 true Fmt.mul (fun f => mulSpread f []) (fun _ => rfl) rfl,
    fun a => completes_flt2 true Fmt.mul (fun f => mulSpread f []) (fun _ => rfl) rfl,
    fun a => completes_flt2 false (fun f md => f.minMax false md.ftz) (fun f => pickSpread f false) (fun _ => rfl) rfl,
    fun a => completes_flt2 false (fun f md => f.minMax false md.ftz) (fun f => pickSpread f false) (fun _ => rfl) rfl,
    fun a => completes_flt2 false (fun f md => f.minMax true md.ftz) (fun f => pickSpread f true) (fun _ => rfl) rfl,
    fun a => completes_flt2 false (fun f md => f.minMax true md.ftz) (fun f => pickSpread f true) (fun _ => rfl) rfl,
    completes_fma, fun a => completes_fscale (fun _ => rfl) rfl, fun a => completes_fscale (fun _ => rfl) rfl, completes_frnd,
    floatForm_plain⟩, fun f _ md a b => ⟨fun h => ?_, add_opposite_infinities f md a b, mul_infinity_zero f md a b,
    fun ha hb => ⟨minMax_of_nan f false md.ftz a b ha hb, minMax_of_nan f true md.ftz a b ha hb⟩,
    fun ha hb h => ⟨min_of_lt f md.ftz a b ha hb h, max_of_lt f md.ftz a b ha hb h⟩⟩⟩
  have hnan := h.imp Num.isNan_iff.1 Num.isNan_iff.1
  exact ⟨add_of_nan f md a b hnan, sub_of_nan f md a b hnan, mul_of_nan f md a b hnan⟩

end Sys2Proof.Machine

/-! ### Floating-point compares, classes and special functions (O5) -/

namespace Sys2Proof.Machine

theorem completes_fsetp {i : Instr} {a : FsetpArgs} (hx : ∀ s, exec i s = alu i s (fsetpL a)) (hn : gatherMask i = none) :
    Completes i (fsetpL a) := completes_alu hx hn fun _ _ _ _ h => h.fsetpL a
theorem completes_fclass (a : Flt1Args) : Completes (.fclass a) (fclassL a) :=
  completes_alu (fun _ => rfl) rfl fun _ _ _ _ h => h.fclassL a

/-- R196: a special function's result waits. -/
theorem completes_fn {i : Instr} {a : Flt1Args} (f : SpecialFn) (hx : ∀ s, exec i s = sfu i s (fnL f a)) (hn : gatherMask i = none) :
    CompletesLate i true (fnL f a) := completes_late hx hn fun _ _ _ _ h => h.fnL f a

/-! ### Conditions (R167) -/

theorem Num.lt_nan {x y : Num} (h : x.isNan = true ∨ y.isNan = true) : x.lt y = false := by
  rcases h.imp Num.isNan_iff.1 Num.isNan_iff.1 with rfl | rfl
  · rfl
  · cases x <;> rfl

theorem Num.eq_nan {x y : Num} (h : x.isNan = true ∨ y.isNan = true) : x.eq y = false := by
  rcases h.imp Num.isNan_iff.1 Num.isNan_iff.1 with rfl | rfl
  · rfl
  · cases x <;> rfl

/-- Beside a NaN the unordered conditions hold, and no other. -/
theorem fltCond_unordered {x y : Num} (c : Cond) (h : x.isNan = true ∨ y.isNan = true) : fltCond c x y = true ↔
    c = .equ ∨ c = .neu ∨ c = .ltu ∨ c = .leu ∨ c = .gtu ∨ c = .geu ∨ c = .nan := by
  have hun : (x.isNan || y.isNan) = true := by simpa using h
  cases c <;> simp [fltCond, hun, Num.lt_nan h, Num.lt_nan h.symm, Num.eq_nan h]

end Sys2Proof.Machine

namespace Sys2Proof.Machine

/-- Settles O5: fsetp and fclass land what their rows say (`completes_fsetp`, `completes_fclass`), a special function's result
waits (`completes_fn`), and the conditions are those of R167, with a NaN (`fltCond_unordered`) or without. -/
theorem floatCompareAndFunctions : Obligations.FloatCompareAndFunctions := by
  refine ⟨⟨fun a => completes_fsetp (fun _ => rfl) rfl, fun a => completes_fsetp (fun _ => rfl) rfl, completes_fclass,
    fun c x y => fltCond_unordered c, fun x y hx hy => ?_⟩,
    fun a => completes_fn .ex2 (fun _ => rfl) rfl, fun a => completes_fn .lg2 (fun _ => rfl) rfl,
    fun a => completes_fn .rcp (fun _ => rfl) rfl, fun a => completes_fn .rsq (fun _ => rfl) rfl,
    fun a => completes_fn .sqt (fun _ => rfl) rfl, fun a => completes_fn .sin (fun _ => rfl) rfl,
    fun a => completes_fn .cos (fun _ => rfl) rfl, fun a => completes_fn .tnh (fun _ => rfl) rfl,
    fun a => completes_fn .lgt (fun _ => rfl) rfl⟩
  simp [fltCond, hx, hy]

end Sys2Proof.Machine

/-! ### Conversions and packed words (O6) -/

namespace Sys2Proof.Machine

/-! ### Words of packed elements (R194, R195) -/

theorem Completes.congr {i : Instr} {r r' : State → Env → Wr} (h : Completes i r) (e : r = r') : Completes i r' := e ▸ h

/-- Two elements of each source, each with its draw. -/
theorem pk2_eq (op : Fmt → Mode → Nat → Nat → Nat × Flags) (a : Flt2Args) : pk2 op a = fun s e =>
    let f := fmtOf a.ty
    let x := e.op (immOf a.ty) a.a
    let y := e.op (immOf a.ty) a.b
    let lo := op f (elemMode s e a.rm a.ftz 0) (elemOf f x 0) (elemOf f y 0)
    let hi := op f (elemMode s e a.rm a.ftz 1) (elemOf f x 1) (elemOf f y 1)
    Wr.dst a.d [packWord f [lo.1, hi.1]] (lo.2 ||| hi.2) (drawCount e a.rm 2) := by
  funext s e
  have htwo : List.range 2 = [0, 1] := rfl
  simp [pk2, packed2, orAll, htwo]

theorem completes_pk2 {i : Instr} {a : Flt2Args} (op : Fmt → Mode → Nat → Nat → Nat × Flags)
    (hx : ∀ s, exec i s = alu i s (pk2 op a)) (hn : gatherMask i = none) : Completes i (pk2 op a) :=
  completes_alu hx hn fun _ _ _ _ h => h.pk2 op a
theorem completes_pkfma (a : Flt3Args) : Completes (.pkfma a) (pkfmaL a) := completes_alu (fun _ => rfl) rfl fun _ _ _ _ h => h.pkfmaL a
theorem completes_dp {i : Instr} {a : Flt3Args} (hx : ∀ s, exec i s = alu i s (dpL a)) (hn : gatherMask i = none) :
    Completes i (dpL a) := completes_alu hx hn fun _ _ _ _ h => h.dpL a
theorem completes_cvt (a : CvtArgs) : Completes (.cvt a) (cvtL a) := completes_alu (fun _ => rfl) rfl fun _ _ _ _ h => h.cvtL a

/-! ### Conversions to integers (R101, R193) -/

theorem cvtL_toInt {a : CvtArgs} (h : cvtKind a.dty a.sty = some .toInt) (s : State) (e : Env) :
    let md := elemMode s e a.rm a.ftz 0
    let x := (fmtOf a.sty).source md.ftz ((fmtOf a.sty).low (e.op immSext a.a))
    let r := toIntSat md.rm md.r (intRange a.dty).1 (intRange a.dty).2 x.1
    cvtL a s e = .dst a.d [extTo a.dty r.1] (r.2 ||| x.2) (drawCount e a.rm 1) := by
  simp only [cvtL, h]

/-- A range about 0 holds every converted number, NaN (which gives 0) and infinities too. -/
theorem toIntSat_mem_range (mode : RM) (r : Nat) {lo hi : Int} (x : Num) (hlo : lo ≤ 0) (hhi : 0 ≤ hi) :
    lo ≤ (toIntSat mode r lo hi x).1 ∧ (toIntSat mode r lo hi x).1 ≤ hi := by
  cases x with
  | nan => exact ⟨hlo, hhi⟩
  | inf n => cases n <;> simp [toIntSat] <;> omega
  | fin n m e =>
    simp only [toIntSat]
    split_ifs <;> dsimp only <;> omega

end Sys2Proof.Machine

namespace Sys2Proof.Machine

/-- Settles O6: each word lands what its row says (`completes_pk2`, `completes_dp` and their kin); a conversion to an integer
lands the saturated one (`cvtL_toInt`), which lies in its type (`toIntSat_mem_range`). -/
theorem conversionsAndPacked : Obligations.ConversionsAndPacked :=
  ⟨fun a => (completes_pk2 Fmt.add (fun _ => rfl) rfl).congr (pk2_eq Fmt.add a),
    fun a => (completes_pk2 Fmt.add (fun _ => rfl) rfl).congr (pk2_eq Fmt.add a),
    fun a => (completes_pk2 Fmt.mul (fun _ => rfl) rfl).congr (pk2_eq Fmt.mul a),
    fun a => (completes_pk2 Fmt.mul (fun _ => rfl) rfl).congr (pk2_eq Fmt.mul a),
    completes_pkfma, fun _ => completes_dp (fun _ => rfl) rfl, fun _ => completes_dp (fun _ => rfl) rfl, completes_cvt,
    fun s e _ h => cvtL_toInt h s e, fun mode r _ _ x => toIntSat_mem_range mode r x⟩

end Sys2Proof.Machine

/-! ### Bit streams (O8) -/

namespace Sys2Proof.Machine

/-! ### Words of a stream (R205) -/

theorem completes_bsinit (a : BsinitArgs) : Completes (.bsinit a) (bsinitL a) := completes_alu (fun _ => rfl) rfl fun _ _ _ _ h => h.bsinitL a
theorem completes_bspeek (a : BsreadArgs) : Completes (.bspeek a) (bspeekL a) := completes_alu (fun _ => rfl) rfl fun _ _ _ _ h => h.bspeekL a
theorem completes_bsread (a : BsreadArgs) : Completes (.bsread a) (bsreadL a) := completes_alu (fun _ => rfl) rfl fun _ _ _ _ h => h.bsreadL a
theorem completes_bsskip (a : BsskipArgs) : Completes (.bsskip a) (bsskipL a) := completes_alu (fun _ => rfl) rfl fun _ _ _ _ h => h.bsskipL a
theorem completes_bsalign (a : BsalignArgs) : Completes (.bsalign a) (bsalignL a) :=
  completes_alu (fun _ => rfl) rfl fun _ _ _ _ h => h.bsalignL a

/-! ### The reader (R203, R205) -/

theorem takeBits_of_enough {x : BitReader} {w : Nat} (refill : Nat) (h : w ≤ x.n) :
    takeBits x refill w = (x.buf % 2 ^ w, ⟨x.buf / 2 ^ w % 2 ^ 64, x.n - w, x.idx⟩) := by
  have hmore : decide (x.n < w) = false := decide_eq_false h.not_gt
  simp only [takeBits, hmore, Bool.false_eq_true, if_false]

theorem takeBits_of_short {x : BitReader} {w : Nat} (refill : Nat) (h : x.n < w) :
    takeBits x refill w =
      let y := x.buf + refill * 2 ^ x.n
      (y % 2 ^ w, ⟨y / 2 ^ w % 2 ^ 64, x.n + 64 - w, (x.idx + 1) % 2 ^ 32⟩) := by
  simp only [takeBits, h, decide_true, if_true]

/-! ### The field (R205) -/

theorem fieldWord_unsigned {w x : Nat} (h : x < 2 ^ w) : fieldWord false w x = BitVec.ofNat 32 x := by
  unfold fieldWord
  split
  next hw =>
    subst hw
    obtain rfl : x = 0 := by omega
    rfl
  next => rfl

theorem fieldWord_signed {w x : Nat} (hw : 0 < w) (h : x < 2 ^ w) :
    fieldWord true w x = BitVec.ofInt 32 (if 2 ^ (w - 1) ≤ x then (x : Int) - 2 ^ w else x) := by
  have htop : x.testBit (w - 1) = decide (2 ^ (w - 1) ≤ x) := by
    by_cases hle : 2 ^ (w - 1) ≤ x
    · rw [Nat.testBit_of_two_pow_le_and_two_pow_add_one_gt hle (by rwa [Nat.sub_add_cancel hw]), decide_eq_true hle]
    · rw [Nat.testBit_lt_two_pow (Nat.lt_of_not_le hle), decide_eq_false hle]
  simp only [fieldWord, hw.ne', if_false, htop, Bool.true_and, decide_eq_true_eq]
  split
  · rfl
  · exact (BitVec.ofInt_natCast 32 x).symm

/-- R205: after bsalign the bits consumed, 64 × idx − n, are a multiple of 2^k. -/
theorem aligned_consumed (x : BitReader) {k : BitVec 3} (h : k ≤ 6) :
    (2 ^ k.toNat : Int) ∣ 64 * x.idx - (x.n - x.n % 2 ^ k.toNat : Nat) := by
  have hk : k.toNat ≤ 6 := h
  refine Int.dvd_sub ?_ ?_
  · exact ((pow_dvd_pow 2 hk).trans (by norm_num)).mul_right _
  · exact_mod_cast Nat.dvd_sub_mod x.n

end Sys2Proof.Machine

namespace Sys2Proof.Machine

/-- Settles O8: each word lands what its row says (`completes_bsinit` to `completes_bsalign`); the reader goes on by what is
taken (`takeBits_of_enough`, `takeBits_of_short`), and alignment is to a multiple of 2^k (`aligned_consumed`). -/
theorem bitStreams : Obligations.BitStreams :=
  ⟨completes_bsinit, completes_bspeek, completes_bsread, completes_bsskip, completes_bsalign,
    fun _ refill _ => takeBits_of_enough refill, fun _ refill _ => takeBits_of_short refill, fun _ _ _ => fieldWord_unsigned,
    fun _ => rfl, fun _ _ hw _ => fieldWord_signed hw, fun x _ => aligned_consumed x⟩

end Sys2Proof.Machine

/-! ### Register moves (O9) -/

namespace Sys2Proof.Machine

/-! ### Words with results at issue (R215) -/

theorem completes_mov (a : MovArgs) : Completes (.mov a) (movL a) := completes_alu (fun _ => rfl) rfl fun _ _ _ _ h => h.movL a
theorem completes_movi (a : MoviArgs) : Completes (.movi a) (moviL a) := completes_alu (fun _ => rfl) rfl fun _ _ _ _ _ => rfl
theorem completes_moviHi (a : MoviHiArgs) : Completes (.moviHi a) (moviHiL a) := completes_alu (fun _ => rfl) rfl fun _ _ _ _ h => h.moviHiL a
theorem completes_movpRead (a : MovpArgs) : Completes (.movpRead a) (movpReadL a) :=
  completes_alu (fun _ => rfl) rfl fun _ _ _ _ h => h.movpReadL a
theorem completes_movpWrite (a : MovWriteArgs) : Completes (.movpWrite a) (movpWriteL a) :=
  completes_alu (fun _ => rfl) rfl fun _ _ _ _ h => h.movpWriteL a

/-! ### Immediates (R153) -/

/-- A word's integer wrapped into fewer bits is its low bits. -/
theorem ofInt_toInt_of_le {n : Nat} (hn : n ≤ 32) (y : Word) : BitVec.ofInt n y.toInt = y.setWidth n := by
  have hdvd : 2 ^ n ∣ 2 ^ 32 := pow_dvd_pow 2 hn
  rw [← BitVec.toInt_inj, BitVec.toInt_ofInt, BitVec.toInt_setWidth, BitVec.toInt_eq_toNat_bmod, Int.bmod_bmod_of_dvd hdvd]

theorem ofInt_16_immSext (x : HalfWord) : BitVec.ofInt 16 (immSext x).toInt = x := by
  rw [ofInt_toInt_of_le (by decide), immSext,
    setWidth_signExtend (by decide)]

theorem ofInt_8_immSext (x : HalfWord) : BitVec.ofInt 8 (immSext x).toInt = x.setWidth 8 := by
  rw [ofInt_toInt_of_le (by decide), ← BitVec.setWidth_setWidth_of_le (k := 8) (l := 16) _ (by decide), immSext,
    setWidth_signExtend (by decide)]

/-! ### Words that pop their ports and change their threads or groups -/

theorem onThreads_congr (s : State) {ts : List Nat} {f g : Nat → Thread → Thread} (h : ∀ t ∈ ts, f t = g t) :
    s.onThreads ts f = s.onThreads ts g := by
  unfold State.onThreads
  congr 2
  funext t th
  split
  next ht => rw [h t (List.contains_iff_mem.1 ht)]
  next => rfl

theorem onThreads_onThreads (s : State) (ts : List Nat) (f g : Nat → Thread → Thread) :
    (s.onThreads ts f).onThreads ts g = s.onThreads ts fun t th => g t (f t th) := by
  unfold State.onThreads Sparse.mapKV
  congr 2
  rw [List.map_map]
  refine List.map_congr_left fun e _ => ?_
  dsimp only [Function.comp]
  split <;> rfl

/-- Results without flags change their threads alone. -/
theorem land_of_no_flags (i : Instr) (ts : List Nat) (f : Nat → Wr) (s : State) (h : ∀ t ∈ ts, (f t).flags = 0) :
    land i (ts.map fun t => (t, f t)) s
      = s.onThreads ts fun t th => (f t).apply (issuedWord s) ((usesOf i).lp.foldl Thread.popPort th) := by
  have hflags : ∀ (rs : List (Nat × Wr)) (s : State), (∀ r ∈ rs, r.2.flags = 0) →
      rs.foldl (fun s r => orFlags s (s.thread r.1).group r.2.flags) s = s := by
    intro rs
    induction rs with
    | nil => exact fun _ _ => rfl
    | cons r rs ih =>
      intro s h
      rw [List.foldl_cons, h r List.mem_cons_self, orFlags, if_pos rfl]
      exact ih s fun q hq => h q (List.mem_cons_of_mem _ hq)
  have hkeys : (ts.map fun t => (t, f t)).map Prod.fst = ts := by rw [List.map_map]; exact List.map_id ts
  unfold land
  rw [hflags _ _ fun r hr => by obtain ⟨t, ht, rfl⟩ := List.mem_map.1 hr; exact h t ht, hkeys]
  refine onThreads_congr s fun t ht => ?_
  simp only [find?_map_key, ht, if_true, Option.map_some, Option.getD_some]

/-- Landing nothing pops the ports of its threads. -/
theorem land_none (i : Instr) (ts : List Nat) (s : State) :
    land i (ts.map fun t => (t, Wr.none)) s = s.onThreads ts fun _ th => (usesOf i).lp.foldl Thread.popPort th := by
  rw [land_of_no_flags i ts (fun _ => Wr.none) s fun _ _ => rfl]
  simp only [applyNone]

/-- A word whose active threads pop their ports and change by `f`, and whose other effects are on groups. -/
theorem acts_popped {i : Instr} {b : Bundle} {s s' : State} {f : Nat → Thread → Thread} {gf : Nat → Group → Group} (h : Issuing i b s)
    (hr : { s' with groups := (afterIssue b s).groups } =
      (afterIssue b s).onThreads (activeIn i b s) fun t th => f t ((usesOf i).lp.foldl Thread.popPort th))
    (hh : ∀ g, s'.groups.has g = s.groups.has g) (hg : ∀ g, s.groups.has g = true → s'.group g = gf g (s.group g)) :
    Acts i b s s' f gf := by
  have hthreads := congrArg State.threads hr
  refine Acts.intro h (fun t ht => ?_) (fun t ht => ?_) hh hg ?_
  · have hm := (mem_activeIn.1 ht).1
    have hhas := (h.may t hm).here
    have hthread := congrArg (fun x : State => x.thread t) hr
    rw [thread_onThreads, if_pos ⟨ht, (afterIssue_has b s t).trans hhas⟩, afterIssue_thread hm hhas] at hthread
    exact hthread
  · have hfind := congrArg (fun x : State => x.threads.find? t) hr
    refine hfind.trans ?_
    cases hx : (afterIssue b s).threads.find? t <;> simp [State.onThreads, hx, ht]
  · exact congrArg (fun x : State => { x with
      threads := (afterIssue b s).threads, groups := (afterIssue b s).groups, ctr := (afterIssue b s).ctr }) hr

/-! ### movk (R32, R216) -/

/-- An issued thread reads from a register or port what stood there before the word. -/
theorem cop_issued {i : Instr} {b : Bundle} {s : State} (h : Issuing i b s) {t : Nat} (ht : t ∈ b.threads) (r : Reg) :
    (envOf (afterIssue b s) t).cop r = (envOf s t).cop r := by
  rw [afterIssue_env ht (h.may t ht).here]
  exact (sameReads_issued s b b.pc t).cop r

theorem exec_movk {a : MovkArgs} {b : Bundle} {s : State} {t : Nat} {l : List Nat} (h : Issuing (.movk a) b s)
    (htl : activeIn (.movk a) b s = t :: l) : ∃ s', exec (.movk a) s = .next s' ∧
    Acts (.movk a) b s s' (fun _ th => th) fun g x =>
      if g = (s.thread t).group then { x with k := x.k.set a.k.toNat ((envOf s t).cop a.a) } else x := by
  have hm : t ∈ b.threads := (mem_activeIn.1 (htl ▸ List.mem_cons_self)).1
  have hgrouped : s.groups.has (s.thread t).group = true := (h.may t hm).grouped
  have hbody : movkBody a (issuedAs (.movk a) b s) (afterIssue b s)
      = setK ((afterIssue b s).onThreads (activeIn (.movk a) b s) fun _ th => (usesOf (.movk a)).lp.foldl Thread.popPort th)
          (s.thread t).group a.k.toNat ((envOf s t).cop a.a) := by
    simp only [movkBody, issuedAs, htl, land_none, afterIssue_thread_group, cop_issued h hm]
  refine ⟨_, word_issues h rfl (movkBody a), ?_⟩
  rw [hbody]
  refine acts_popped h rfl (fun g => ?_) fun g _ => ?_
  · rw [setK, onGroup_groups, Sparse.has_modify, onThreads_groups, afterIssue_groups]
  · rw [setK, group_onGroup _ _ _ _ (by rwa [onThreads_groups, afterIssue_groups]), group_onThreads, group_onThreads, afterIssue_group,
      afterIssue_group]
    split
    next e => rw [e]
    next => rfl

/-! ### Special registers read (R63..R65) -/

@[simp] theorem afterIssue_ns (b : Bundle) (s : State) : (afterIssue b s).ns = s.ns := by
  unfold State.ns
  rw [afterIssue_pkg, afterIssue_clk]
@[simp] theorem afterIssue_isUnderstudy (b : Bundle) (s : State) : (afterIssue b s).isUnderstudy = s.isUnderstudy := by
  unfold State.isUnderstudy
  rw [afterIssue_pkg]
@[simp] theorem afterIssue_cyc (b : Bundle) (s : State) (c : Nat) : (afterIssue b s).cyc c = s.cyc c := by
  simp only [State.cyc, State.cluster, afterIssue_clk, afterIssue_clusters]

theorem loftWindow_issued {b : Bundle} {s : State} (hb : b.core < 256) {d : Nat} (hd : d < 256) (g : Nat) :
    loftWindow (afterIssue b s) d g = loftWindow s d g := by
  have hsys : sysGet (afterIssue b s) RegNo.loftRef d = sysGet s RegNo.loftRef d := by
    rw [afterIssue_sys hb _ _ hd, counted, if_neg fun h => absurd h.1 (by decide), if_neg fun h => absurd h.1 (by decide)]
    simp
  unfold loftWindow
  rw [hsys, afterIssue_ns, afterIssue_isUnderstudy]

theorem specialVal_issued {i : Instr} {b : Bundle} {s : State} (h : Issuing i b s) {t : Nat} (ht : t ∈ b.threads) (sr : Special) :
    specialVal (afterIssue b s) (envOf (afterIssue b s) t) sr = specialVal s (envOf s t) sr := by
  have hcore : (s.groupOf t).core = b.core := h.stands t ht
  have hdie : dieOf (s.groupOf t).core < 256 := by
    have := h.place
    rw [hcore, dieOf]
    omega
  rw [afterIssue_env ht (h.may t ht).here]
  cases sr
  case loftwin g => exact congrArg (BitVec.ofNat 32) (loftWindow_issued h.place hdie g.toNat)
  all_goals simp only [specialVal, envOf, stepped, afterIssue_block, afterIssue_launch, afterIssue_clk, afterIssue_ns, afterIssue_cyc]

theorem latchHalf_issued {i : Instr} {b : Bundle} {s : State} (h : Issuing i b s) {t : Nat} (ht : t ∈ b.threads) (sr : Special) :
    latchHalf (afterIssue b s) (envOf (afterIssue b s) t) sr = latchHalf s (envOf s t) sr := by
  rw [afterIssue_env ht (h.may t ht).here]
  funext th
  unfold latchHalf
  rw [afterIssue_clk, afterIssue_ns]
  simp only [afterIssue_cyc, envOf]

theorem dst_flags (d : Reg) (ws : List Word) (fl : Flags) (n : Nat) : (Wr.dst d ws fl n).flags = fl := by cases d <;> rfl

/-- A read of a special register takes its value in each active thread and latches the half beside it. -/
theorem exec_movsRead {a : MovsArgs} {b : Bundle} {s : State} (h : Issuing (.movsRead a) b s) : ∃ s', exec (.movsRead a) s = .next s' ∧
    Acts (.movsRead a) b s s'
      (fun t th => latchHalf s (envOf s t) a.sr ((Wr.dst a.d [specialVal s (envOf s t) a.sr]).apply b.word th)) fun _ x => x := by
  have hword : issuedWord (afterIssue b s) = b.word := by simp [issuedWord, h.bundle]
  have hbody : movsReadBody a (issuedAs (.movsRead a) b s) (afterIssue b s)
      = (afterIssue b s).onThreads (activeIn (.movsRead a) b s) fun t th => latchHalf s (envOf s t) a.sr
          ((Wr.dst a.d [specialVal s (envOf s t) a.sr]).apply b.word ((usesOf (.movsRead a)).lp.foldl Thread.popPort th)) := by
    rw [movsReadBody, land_of_no_flags _ _ _ _ fun t _ => dst_flags _ _ _ _, onThreads_onThreads, hword]
    refine onThreads_congr _ fun t ht => ?_
    have hm := (mem_activeIn.1 ht).1
    rw [specialVal_issued h hm, latchHalf_issued h hm]
  refine ⟨_, word_issues h rfl (movsReadBody a), ?_⟩
  rw [hbody]
  refine acts_popped h rfl (fun g => ?_) fun g _ => ?_
  · rw [onThreads_groups, afterIssue_groups]
  · rw [group_onThreads, afterIssue_group]

/-! ### %fsr written (R66, R68) -/

/-- One change of each of several groups that are there, each by its own function. -/
theorem foldl_onGroup_each (f : Nat → Group → Group) : ∀ (gs : List Nat) (s : State), gs.Nodup → ∀ j, s.groups.has j = true →
    (gs.foldl (fun s g => s.onGroup g (f g)) s).group j = if j ∈ gs then f j (s.group j) else s.group j := by
  intro gs
  induction gs with
  | nil => exact fun s _ j _ => rfl
  | cons g gs ih =>
    intro s hn j hj
    obtain ⟨hg, hn⟩ := List.nodup_cons.1 hn
    rw [List.foldl_cons, ih _ hn j (by rwa [onGroup_groups, Sparse.has_modify])]
    by_cases e : j = g
    · subst e
      rw [if_neg hg, if_pos List.mem_cons_self, group_onGroup _ _ _ _ hj, if_pos rfl]
    · rw [group_onGroup_ne _ _ _ _ e]
      simp [e]

theorem foldl_onGroup_each_rest (f : Nat → Group → Group) (gs : List Nat) (s : State) :
    { gs.foldl (fun s g => s.onGroup g (f g)) s with groups := s.groups } = s :=
  List.foldlRecOn (motive := fun s' : State => { s' with groups := s.groups } = s) gs _ rfl fun _ h _ _ => h

theorem foldl_onGroup_each_has (f : Nat → Group → Group) (gs : List Nat) (s : State) (g : Nat) :
    (gs.foldl (fun s g => s.onGroup g (f g)) s).groups.has g = s.groups.has g :=
  List.foldlRecOn (motive := fun s' : State => s'.groups.has g = s.groups.has g) gs _ rfl fun _ h _ _ => by
    rw [onGroup_groups, Sparse.has_modify, h]

/-- R68: a group after a write of %fsr: it takes the value of its first active thread, where it has one. -/
def fsrTaken (a : MovWriteArgs) (b : Bundle) (s : State) (g : Nat) (x : Group) : Group :=
  match (activeIn (.movsWriteFsr a) b s).find? fun t => (s.thread t).group == g with
  | some t => { x with fsr := fsrStored ((envOf s t).cop a.a) }
  | none => x

theorem fsrTaken_of_some {a : MovWriteArgs} {b : Bundle} {s : State} {g t : Nat}
    (h : ((activeIn (.movsWriteFsr a) b s).find? fun t => (s.thread t).group == g) = some t) :
    fsrTaken a b s g = fun x => { x with fsr := fsrStored ((envOf s t).cop a.a) } := by
  funext x
  simp only [fsrTaken, h]

theorem fsrTaken_of_none {a : MovWriteArgs} {b : Bundle} {s : State} {g : Nat}
    (h : ∀ t ∈ activeIn (.movsWriteFsr a) b s, (s.thread t).group ≠ g) (x : Group) : fsrTaken a b s g x = x := by
  have hnone : ((activeIn (.movsWriteFsr a) b s).find? fun t => (s.thread t).group == g) = none :=
    List.find?_eq_none.2 fun t ht => by simpa using h t ht
  simp only [fsrTaken, hnone]

theorem exec_movsWriteFsr {a : MovWriteArgs} {b : Bundle} {s : State} (h : Issuing (.movsWriteFsr a) b s) :
    ∃ s', exec (.movsWriteFsr a) s = .next s' ∧ Acts (.movsWriteFsr a) b s s' (fun _ th => th) (fsrTaken a b s) := by
  generalize hgs : ((activeIn (.movsWriteFsr a) b s).map fun t => (s.thread t).group).dedup = gs
  have hmem : ∀ g, g ∈ gs ↔ ∃ t ∈ activeIn (.movsWriteFsr a) b s, (s.thread t).group = g := by
    simp only [← hgs, List.mem_dedup, List.mem_map, implies_true]
  have hbody : movsWriteBody a (issuedAs (.movsWriteFsr a) b s) (afterIssue b s)
      = gs.foldl (fun s' g => s'.onGroup g (fsrTaken a b s g)) ((afterIssue b s).onThreads (activeIn (.movsWriteFsr a) b s) fun _ th =>
          (usesOf (.movsWriteFsr a)).lp.foldl Thread.popPort th) := by
    simp only [movsWriteBody, issuedAs, land_none, afterIssue_thread_group, hgs, List.foldl_filterMap]
    refine List.foldl_ext _ _ _ fun s' g hg => ?_
    cases hfind : (activeIn (.movsWriteFsr a) b s).find? fun t => (s.thread t).group == g with
    | none =>
      obtain ⟨t, ht, htg⟩ := (hmem g).1 hg
      exact absurd (List.find?_eq_none.1 hfind t ht) (by simp [htg])
    | some t =>
      have ht := (mem_activeIn.1 (List.mem_of_find?_eq_some hfind)).1
      simp only [fsrTaken_of_some hfind, Option.map_some, cop_issued h ht]
  refine ⟨_, word_issues h rfl (movsWriteBody a), ?_⟩
  rw [hbody]
  refine acts_popped h (foldl_onGroup_each_rest _ gs _) (fun g => ?_) fun g hg => ?_
  · rw [foldl_onGroup_each_has, onThreads_groups, afterIssue_groups]
  · rw [foldl_onGroup_each _ _ _ (hgs ▸ List.nodup_dedup _) _ (by rwa [onThreads_groups, afterIssue_groups]),
      group_onThreads, afterIssue_group]
    split
    next => rfl
    next hout => exact (fsrTaken_of_none (fun t ht htg => hout ((hmem g).2 ⟨t, ht, htg⟩)) _).symm

theorem bits_7_5 (w : Word) : bits w.toNat 7 5 = (w.extractLsb' 5 3).toNat := by
  simp [bits, Nat.shiftRight_eq_div_pow]

theorem fsrStored_reserved (x : Word) : fsrStored x &&& 0xFFFF_0E00 = 0 := by
  unfold fsrStored
  split <;> simp [BitVec.and_assoc]

/-- R66: no reserved rounding mode is stored. -/
theorem fsrStored_mode_lt (x : Word) : bits (fsrStored x).toNat 7 5 < 5 := by
  have hkept : bits (x &&& 0xF1FF).toNat 7 5 = bits x.toNat 7 5 := by
    have hmask : (0xF1FF : Word).extractLsb' 5 3 = BitVec.allOnes 3 := rfl
    rw [bits_7_5, bits_7_5, BitVec.extractLsb'_and, hmask, BitVec.and_allOnes]
  have hcleared : ∀ y : Word, bits (y &&& ~~~0xE0).toNat 7 5 = 0 := fun y => by
    have hmask : (~~~0xE0 : Word).extractLsb' 5 3 = 0#3 := rfl
    rw [bits_7_5, BitVec.extractLsb'_and, hmask, BitVec.and_zero]
    rfl
  unfold fsrStored
  split
  next => rw [hcleared]; decide
  next h => rw [hkept]; exact Nat.lt_of_not_le h

theorem fsrStored_of_mode_lt {x : Word} (h : bits x.toNat 7 5 < 5) : fsrStored x = x &&& 0x0000_F1FF := if_neg h.not_ge

end Sys2Proof.Machine

namespace Sys2Proof.Machine

/-- Settles O9: the plain moves land what their rows say (`completes_mov` to `completes_movpWrite`); moves to and from the group's
and the special registers act by `exec_movk`, `exec_movsRead` and `exec_movsWriteFsr`; what %fsr stores is in its fields. -/
theorem registerMoves : Obligations.RegisterMoves := by
  refine ⟨completes_mov, completes_movi, completes_moviHi, completes_movpRead, completes_movpWrite, fun x => ?_,
    fun a b s t l => exec_movk, fun a b s => exec_movsRead, fun a b s => exec_movsWriteFsr,
    fun s e => ⟨rfl, rfl, rfl, rfl, rfl, rfl, rfl⟩,
    fun x => ⟨fsrStored_reserved x, fsrStored_mode_lt x, fsrStored_of_mode_lt⟩⟩
  refine ⟨rfl, rfl, ?_, ?_, ?_, ?_⟩ <;> simp only [immOf, extTo, ofInt_16_immSext, ofInt_8_immSext]

end Sys2Proof.Machine

/-! ### Lane exchange (O10) -/

namespace Sys2Proof.Machine

/-! ### A word over a whole gather (R46, R209) -/

/-- A word named class U beside its operands is so whatever they are. -/
theorem all_classU_u (l : List Uses) : (Uses.all (l ++ [.classU])).u = true := by
  simp [Uses.all, List.foldl_append, Uses.join, Uses.classU]

/-- A lane word whose result in each contributing participant is read off what the participants read before it. -/
theorem gather_lands {i : Instr} {m : BitVec 4} {g : Guard} {f : State → List Env → List (Nat × Wr)} {r : Env → Wr}
    {b : Bundle} {s : State} (h : Issuing i b s) (hi : gatherMask i = some m) (hg : guardOf i = g) (hu : (usesOf i).u = true) (hga : Gathered m b s)
    (hf : ∀ s1 es, SameReadsAll s1 s es (b.threads.map (envOf s)) → SameReadsAll s1 s (contributing g es) (contributors i b s) →
      f s1 es = (contributors i b s).map fun e => (e.t, r e)) :
    ∃ s', word i s (gatherBody i f) = .next s' ∧ Lands i b s s' r :=
  gather_complete h hi hu hga fun s1 _ es hes => by
    rw [hf s1 es hes (contributing_issue i b s ▸ hg ▸ SameReadsAll.contributing g hes), contributors, List.map_map]
    rfl

/-! ### Moves between lanes (R210) -/

theorem laneMove_lands {i : Instr} {a : LaneArgs} (k : LaneMove) {b : Bundle} {s : State} (hx : exec i s = laneOp i s (laneMove k a))
    (hg : guardOf i = a.g) (hi : gatherMask i = some a.m) (hu : (usesOf i).u = true) (h : Issuing i b s) (hga : Gathered a.m b s) :
    ∃ s', exec i s = .next s' ∧ Lands i b s s' fun e =>
      let j := k.lane e.th.lane (e.op immSext a.b)
      let j := if a.edge = .wr then j % 32 else j
      Wr.dst a.d [((((b.threads.map (envOf s)).find? fun (o : Env) => (o.th.lane : Int) == j).map fun o => o.op immSext a.a).getD
        (if a.edge = .zf then 0 else e.op immSext a.a))] := by
  rw [hx]
  refine gather_lands h hi hg hu hga fun s1 es hes hcs => ?_
  refine hcs.map fun e' e he => ?_
  have hfind : ∀ j : Int, (es.find? fun o => (o.th.lane : Int) == j).map (fun o => o.op immSext a.a)
      = ((b.threads.map (envOf s)).find? fun o => (o.th.lane : Int) == j).map fun o => o.op immSext a.a :=
    fun j => hes.find? (fun _ _ ho => by rw [ho.lane]) fun _ _ ho => ho.op _ _ _
  simp only [he.t, he.lane, he.op, hfind]

/-! ### Polls and matches (R211, R213) -/

theorem SameReadsAll.pollBits {s1 s : State} {es es0 : List Env} {g : Guard} (h : SameReadsAll s1 s (Machine.contributing g es) es0)
    (pa : BitVec 3) : Machine.pollBits g pa es = es0.map fun o => (o.th.lane, o.p pa) :=
  h.map fun _ _ ho => by rw [ho.lane, ho.pred]

theorem exec_pollAny {a : PollArgs} {b : Bundle} {s : State} (h : Issuing (.pollAny a) b s) (hga : Gathered a.m b s) :
    ∃ s', exec (.pollAny a) s = .next s' ∧
      Lands (.pollAny a) b s s' fun _ => .pred a.pd ((contributors (.pollAny a) b s).any fun o => o.p a.pa) :=
  gather_lands (g := a.g) (f := pollAnyL a) h rfl rfl (all_classU_u [_, _]) hga fun s1 es _ hcs => hcs.map fun e' e he => by
    rw [SameReadsAll.pollBits hcs a.pa, List.any_map, he.t]
    rfl

theorem exec_pollAll {a : PollArgs} {b : Bundle} {s : State} (h : Issuing (.pollAll a) b s) (hga : Gathered a.m b s) :
    ∃ s', exec (.pollAll a) s = .next s' ∧
      Lands (.pollAll a) b s s' fun _ => .pred a.pd ((contributors (.pollAll a) b s).all fun o => o.p a.pa) :=
  gather_lands (g := a.g) (f := pollAllL a) h rfl rfl (all_classU_u [_, _]) hga fun s1 es _ hcs => hcs.map fun e' e he => by
    rw [SameReadsAll.pollBits hcs a.pa, List.all_map, he.t]
    rfl

theorem exec_pollMap {a : PollMapArgs} {b : Bundle} {s : State} (h : Issuing (.pollMap a) b s) (hga : Gathered a.m b s) :
    ∃ s', exec (.pollMap a) s = .next s' ∧ Lands (.pollMap a) b s s' fun _ =>
      .dst a.d [laneBits ((contributors (.pollMap a) b s).map fun o => (o.th.lane, o.p a.pa))] :=
  gather_lands (g := a.g) (f := pollMapL a) h rfl rfl (all_classU_u [_, _]) hga fun s1 es _ hcs => hcs.map fun e' e he => by
    rw [SameReadsAll.pollBits hcs a.pa, he.t]

theorem exec_peers {a : PeersArgs} {b : Bundle} {s : State} (h : Issuing (.peers a) b s) (hga : Gathered a.m b s) :
    ∃ s', exec (.peers a) s = .next s' ∧ Lands (.peers a) b s s' fun e => .dst a.d
      [laneBits ((contributors (.peers a) b s).map fun o => (o.th.lane, o.op immSext a.a == e.op immSext a.a))] :=
  gather_lands (g := a.g) (f := peersL a) h rfl rfl (all_classU_u [_, _]) hga fun s1 es _ hcs => hcs.map fun e' e he => by
    have hbits : ((contributing a.g es).map fun o => (o.th.lane, o.op immSext a.a == e'.op immSext a.a))
        = (contributors (.peers a) b s).map fun o => (o.th.lane, o.op immSext a.a == e.op immSext a.a) :=
      hcs.map fun _ _ ho => by rw [ho.lane, ho.op, he.op]
    rw [hbits, he.t]

/-! ### Folds and prefixes (R212) -/

/-- R212: the combination of participants' operands in the order they stand, with its flags. -/
def foldValue (a : FoldArgs) (es : List Env) : Word × Flags :=
  es.foldl (fun (acc : Word × Flags) e =>
    let r := foldStep a.op a.ty (flushes e false) acc.1 (e.op immSext a.a)
    (r.1, acc.2 ||| r.2)) (foldUnit a.op a.ty, 0)

/-- What a running combination gives: to each participant the values of those before it, without and with its own. -/
theorem foldRun_eq (a : FoldArgs) (es : List Env) : foldRun a es =
    (es.mapIdx fun k e => (e.t, (foldValue a (es.take k)).1, (foldValue a (es.take (k + 1))).1), foldValue a es) := by
  induction es using List.reverseRecOn with
  | nil => rfl
  | append_singleton es e ih =>
    have hrun : foldRun a (es ++ [e]) =
        let r := foldStep a.op a.ty (flushes e false) (foldRun a es).2.1 (e.op immSext a.a)
        ((foldRun a es).1 ++ [(e.t, (foldRun a es).2.1, r.1)], r.1, (foldRun a es).2.2 ||| r.2) := by
      rw [foldRun, List.foldl_append]
      rfl
    have hvalue : foldValue a (es ++ [e]) =
        let r := foldStep a.op a.ty (flushes e false) (foldValue a es).1 (e.op immSext a.a)
        (r.1, (foldValue a es).2 ||| r.2) := by
      rw [foldValue, List.foldl_append]
      rfl
    have hbefore : es.mapIdx (fun k x => (x.t, (foldValue a ((es ++ [e]).take k)).1, (foldValue a ((es ++ [e]).take (k + 1))).1))
        = es.mapIdx fun k x => (x.t, (foldValue a (es.take k)).1, (foldValue a (es.take (k + 1))).1) :=
      List.mapIdx_eq_mapIdx_iff.2 fun k hk => by
        rw [List.take_append_of_le_length hk.le, List.take_append_of_le_length hk]
    rw [hrun, ih, List.mapIdx_concat, hbefore, List.take_left', List.take_of_length_le (by simp), hvalue]
    rfl

theorem SameReadsAll.foldRun {s1 s : State} {es es0 : List Env} (h : SameReadsAll s1 s es es0) (a : FoldArgs) :
    foldRun a es = Machine.foldRun a es0 :=
  h.foldl (fun _ _ _ he => by rw [he.t, he.flush, he.op]) _

/-- A participant's place in a list that names each once. -/
theorem mapIdx_eq_map_place {α : Type} {es : List Env} (hn : (es.map Env.t).Nodup) (f : Nat → Env → α) :
    es.mapIdx f = es.map fun e => f ((es.findIdx? fun (o : Env) => o.t == e.t).getD 0) e := by
  refine List.ext_getElem (by simp) fun k hk _ => ?_
  rw [List.length_mapIdx] at hk
  have hplace : (es.findIdx? fun o => o.t == es[k].t) = some k := by
    refine List.findIdx?_eq_some_iff_getElem.2 ⟨hk, by simp, fun j hj => ?_⟩
    have hne := (List.nodup_iff_getElem?_ne_getElem?.1 hn) j k hj (by simpa using hk)
    simpa [hk, hj.trans hk] using hne
  simp [hplace]

theorem nodup_contributors {i : Instr} {b : Bundle} {s : State} (h : Issuing i b s) : ((contributors i b s).map Env.t).Nodup := by
  have htids : (contributors i b s).map Env.t = activeIn i b s := by
    rw [contributors, List.map_map]
    exact List.map_id _
  exact htids ▸ h.apart.filter _

theorem exec_fold {a : FoldArgs} {b : Bundle} {s : State} (h : Issuing (.fold a) b s) (hga : Gathered a.m b s) :
    ∃ s', exec (.fold a) s = .next s' ∧ Lands (.fold a) b s s' fun _ =>
      .dst a.d [(foldValue a (contributors (.fold a) b s)).1] (foldValue a (contributors (.fold a) b s)).2 :=
  gather_lands (g := a.g) (f := foldL a) h rfl rfl (all_classU_u [_, _]) hga fun s1 es _ hcs => by
    simp only [foldL, SameReadsAll.foldRun hcs, foldRun_eq, mapIdx_eq_map_place (nodup_contributors h), List.map_map, Function.comp_def]

theorem exec_pfx {a : FoldArgs} {b : Bundle} {s : State} (h : Issuing (.pfx a) b s) (hga : Gathered a.m b s) :
    ∃ s', exec (.pfx a) s = .next s' ∧ Lands (.pfx a) b s s' fun e =>
      let es := contributors (.pfx a) b s
      let k := (es.findIdx? fun (o : Env) => o.t == e.t).getD 0
      .dst a.d [(foldValue a (es.take (if a.exc then k else k + 1))).1] (foldValue a es).2 :=
  gather_lands (g := a.g) (f := pfxL a) h rfl rfl (all_classU_u [_, _]) hga fun s1 es _ hcs => by
    simp only [pfxL, SameReadsAll.foldRun hcs, foldRun_eq, mapIdx_eq_map_place (nodup_contributors h), List.map_map, Function.comp_def]
    refine List.map_congr_left fun e _ => ?_
    cases a.exc <;> rfl

/-! ### The categorical draw (R208) -/

/-- The draw over participants, its word taken by the first of them. -/
theorem rndCatL_eq (a : RndCatArgs) (s : State) (ps : List Env) : rndCatL a s ps =
    let cs := contributing a.g ps
    cs.map fun e =>
      let ws := cs.map fun o => (o.th.lane, catWeight (o.op immSext a.a))
      let low := (cs.head?).getD e
      let k := catPick (ws.map fun w => (w.1, w.2.1)) ((drawWords s low a.stream.toNat 0).getD 0 0)
      (e.t, .dst a.d [k.1] (k.2 ||| ws.foldl (fun fl w => fl ||| w.2.2) 0) (if e.t = low.t then 1 else 0)) := by
  unfold rndCatL
  cases contributing a.g ps <;> rfl

theorem SameReadsAll.head {s1 s : State} {es es0 : List Env} (h : SameReadsAll s1 s es es0) {e' e : Env} (he : SameReads s1 s e' e) :
    SameReads s1 s (es.head?.getD e') (es0.head?.getD e) := by
  cases h with
  | nil => exact he
  | cons h _ => exact h

theorem exec_rndCat {a : RndCatArgs} {b : Bundle} {s : State} (h : Issuing (.rndCat a) b s) (hga : Gathered a.m b s) :
    ∃ s', exec (.rndCat a) s = .next s' ∧ Lands (.rndCat a) b s s' fun e =>
      let es := contributors (.rndCat a) b s
      let ws := es.map fun o => (o.th.lane, catWeight (o.op immSext a.a))
      let low := (es.head?).getD e
      let k := catPick (ws.map fun w => (w.1, w.2.1)) ((drawWords s low a.stream.toNat 0).getD 0 0)
      .dst a.d [k.1] (k.2 ||| ws.foldl (fun fl w => fl ||| w.2.2) 0) (if e.t = low.t then 1 else 0) :=
  gather_lands (g := a.g) (f := rndCatL a) h rfl rfl (all_classU_u [_, _]) hga fun s1 es _ hcs => by
    have hweights : ((contributing a.g es).map fun o => (o.th.lane, catWeight (o.op immSext a.a)))
        = (contributors (.rndCat a) b s).map fun o => (o.th.lane, catWeight (o.op immSext a.a)) :=
      hcs.map fun _ _ ho => by rw [ho.lane, ho.op]
    rw [rndCatL_eq]
    refine hcs.map fun e' e he => ?_
    have hlow := SameReadsAll.head hcs he
    simp only [hweights, hlow.words, hlow.t, he.t]

end Sys2Proof.Machine

namespace Sys2Proof.Machine

/-- Settles O10: over a whole gather each contributing participant lands what its row says (`gather_lands`): a move
(`laneMove_lands`), a poll or a match (`exec_pollAny` to `exec_peers`), a fold (`exec_fold`, `exec_pfx`), the draw
(`exec_rndCat`). -/
theorem laneExchange : Obligations.LaneExchange :=
  ⟨⟨fun _ _ _ => laneMove_lands .idx rfl rfl rfl (all_classU_u [_, _, _]),
      fun _ _ _ => laneMove_lands .rise rfl rfl rfl (all_classU_u [_, _, _]),
      fun _ _ _ => laneMove_lands .fall rfl rfl rfl (all_classU_u [_, _, _]),
      fun _ _ _ => laneMove_lands .flip rfl rfl rfl (all_classU_u [_, _, _]),
      fun _ _ => ⟨rfl, rfl, rfl, rfl⟩⟩,
    fun _ _ _ => exec_pollAny, fun _ _ _ => exec_pollAll, fun _ _ _ => exec_pollMap, fun _ _ _ => exec_peers,
    fun l _ => getLsbD_laneBits l, fun _ _ _ => exec_fold, fun _ _ _ => exec_pfx, fun _ _ _ => exec_rndCat⟩

end Sys2Proof.Machine

/-! ### Control transfer (O25: R250..R252, R255) -/

namespace Sys2Proof.Machine

/-- A base operand reads registers alone: a change of a thread that leaves them leaves what is read. -/
theorem base2_onThread (s : State) (t u : Nat) (f : Thread → Thread) (hv : ∀ th, (f th).v = th.v) (hg : ∀ th, (f th).group = th.group)
    (x : Base) : (envOf (s.onThread t f) u).base2 x = (envOf s u).base2 x := by
  have hboth : ((s.onThread t f).thread u).v = (s.thread u).v ∧ ((s.onThread t f).thread u).group = (s.thread u).group := by
    by_cases hu : u = t
    · subst hu
      cases hx : s.threads.find? u <;> simp [State.thread, State.onThread, Sparse.findD, hx, hv, hg]
    · rw [thread_onThread_ne _ _ _ _ hu]
      exact ⟨rfl, rfl⟩
  cases x <;> simp only [Env.base2, Env.v, Env.k, envOf, State.groupOf, hboth, group_onThread]

theorem afterIssue_base2 {i : Instr} {b : Bundle} {s : State} {t : Nat} (h : Issuing i b s) (hm : t ∈ b.threads) (x : Base) :
    (envOf (afterIssue b s) t).base2 x = (envOf s t).base2 x := by
  rw [afterIssue_env hm (h.may t hm).here]
  exact (sameReads_issued s b b.pc t).base2 x

/-- Branches to targets that are all multiples of 8, in one update of the threads. -/
theorem foldl_branch {is : Issued} {x : Base} {target : Nat → Dword} (l : List Nat) : ∀ s : State,
    (∀ t ∈ l, (envOf s t).base2 x = target t ∧ (target t).toNat % 8 = 0) →
    l.foldl (fun s t => let x := (envOf s t).base2 x
      if x.toNat % 8 ≠ 0 then is.trap s t .misaligned x.toNat else s.onThread t fun th => { th with pc := x }) s
        = s.onThreads l fun t th => { th with pc := target t } := by
  induction l with
  | nil => exact fun s _ => by simp [State.onThreads, Sparse.mapKV]
  | cons t l ih =>
    intro s hl
    obtain ⟨ht, h8⟩ := hl t List.mem_cons_self
    have hnext : ∀ u ∈ l, (envOf (s.onThread t fun th => { th with pc := target t }) u).base2 x = target u ∧ (target u).toNat % 8 = 0 :=
      fun u hu => by
        rw [base2_onThread s t u (fun th => { th with pc := target t }) (fun _ => rfl) fun _ => rfl]
        exact hl u (List.mem_cons_of_mem _ hu)
    rw [List.foldl_cons]
    dsimp only
    rw [ht, if_neg (by omega), ih _ hnext]
    simp only [State.onThread, State.onThreads, Sparse.modify, Sparse.mapKV, List.map_map]
    congr 2
    refine List.map_congr_left fun e _ => ?_
    by_cases he : e.1 = t
    · by_cases ht : t ∈ l <;> simp [he, ht]
    · simp [he]

section
variable {i : Instr} {x : Base} {b : Bundle} {s : State}

/-- brx and ret whose every target is a multiple of 8. -/
theorem branchTo_acts (h : Issuing i b s) (hn : gatherMask i = none)
    (hp : (usesOf i).lp = []) (ha : ∀ t ∈ activeIn i b s, ((envOf s t).base2 x).toNat % 8 = 0) :
    ∃ s', word i s (branchTo x) = .next s' ∧ Acts i b s s' (fun t th => { th with pc := (envOf s t).base2 x }) fun _ g => g :=
  acts_threads h hn hp (foldl_branch _ _ fun t ht => ⟨afterIssue_base2 h (mem_activeIn.1 ht).1 x, ha t ht⟩)

/-- brx and ret by one active thread to an address that is no multiple of 8. -/
theorem branchTo_trap {t : Nat} (h : Sole i b s t) (hn : gatherMask i = none) (hx : ((envOf s t).base2 x).toNat % 8 ≠ 0) :
    word i s (branchTo x) = .next (trapsAt b s t .misaligned ((envOf s t).base2 x).toNat 0) := by
  have he := afterIssue_base2 h.issuing h.thread.1 x
  have hw := word_sole h hn fun is s t =>
    let y := (envOf s t).base2 x
    if y.toNat % 8 ≠ 0 then is.trap s t .misaligned y.toNat else s.onThread t fun th => { th with pc := y }
  refine hw.trans ?_
  dsimp only
  rw [he, if_pos hx]
  rfl

end

theorem lp_usesOf_brx (a : BrxArgs) : (usesOf (.brx a)).lp = [] := by
  obtain ⟨g, x⟩ := a
  cases x <;> rfl

theorem lp_usesOf_ret (a : BrxArgs) : (usesOf (.ret a)).lp = [] := lp_usesOf_brx a

/-- Settles O25: bra and call change their active threads at once, brx and ret by `branchTo_acts` and `branchTo_trap`. -/
theorem controlTransfer : Obligations.ControlTransfer :=
  ⟨fun _ _ _ h => acts_threads h rfl rfl rfl, fun _ _ _ h => acts_threads h rfl rfl rfl,
    fun _ _ _ h => acts_none h rfl rfl rfl, fun _ _ _ h => acts_none h rfl rfl rfl,
    fun a _ _ h => branchTo_acts h rfl (lp_usesOf_brx a), fun a _ _ h => branchTo_acts h rfl (lp_usesOf_ret a),
    fun _ _ _ _ h => branchTo_trap h rfl, fun _ _ _ _ h => branchTo_trap h rfl⟩

end Sys2Proof.Machine

/-! ### Waits that end together (R43, R128, R245) -/

namespace Sys2Proof.Machine

theorem SnapsOnly.refl (s : State) : SnapsOnly s s := ⟨fun _ => rfl, rfl⟩

/-- A meeting of threads changes what each of them has acquired, and no more (R128). -/
theorem SnapsOnly.syncAll (s : State) (ts : List Nat) : SnapsOnly s (syncAll s ts) := by
  have collect : ∀ (ts : List Nat) (a : List Nat × State),
      SnapsOnly a.2 (ts.foldl (fun (a : List Nat × State) t => (unionN a.1 (releaseSet a.2 t).1, (releaseSet a.2 t).2)) a).2 := by
    intro ts
    induction ts with
    | nil => exact fun a => refl a.2
    | cons t ts ih =>
      intro a
      have hset : SnapsOnly a.2 (releaseSet a.2 t).2 := by
        unfold releaseSet
        dsimp only
        split
        · exact refl _
        · exact ctr _ _
      exact hset.trans (ih (unionN a.1 (releaseSet a.2 t).1, (releaseSet a.2 t).2))
  have spread : ∀ (l ts : List Nat) (s : State), SnapsOnly s (ts.foldl (fun s t => acquireOf s t l) s) := by
    intro l ts
    induction ts with
    | nil => exact refl
    | cons t ts ih => exact fun s => (extend s t l).trans (ih _)
  exact (collect ts ([], s)).trans (spread _ ts _)

/-- A thread that a released wait leaves behind its word. -/
def Thread.passed8 (clk : Nat) (th : Thread) : Thread :=
  { th with held := .ready, why := .none, pc := th.pc + 8, readyAt := clk, passed := 0 }

theorem release8_thread_eq {s : State} {t : Nat} (hh : s.threads.has t = true) :
    (release8 s t).thread t = (s.thread t).passed8 s.clk := by
  have hh' : (s.onThread t fun th => { th with pc := th.pc + 8 }).threads.has t = true := by simpa using hh
  rw [release8, queueBlock, thread_onBlock, setReady, thread_onThread_self _ _ _ hh', thread_onThread_self _ _ _ hh]
  rfl

theorem release8_blocks_has (s : State) (t k : Nat) : (release8 s t).blocks.has k = s.blocks.has k := by
  simp [release8, queueBlock, setReady]

/-- Threads let go one after another. -/
theorem foldl_release8_spec (ts : List Nat) : ∀ s : State, ts.Nodup →
    let s' := ts.foldl release8 s
    (∀ u ∈ ts, s.threads.has u = true → s'.thread u = (s.thread u).passed8 s.clk) ∧ (∀ u, u ∉ ts → s'.thread u = s.thread u) ∧
    { s' with threads := s.threads, blocks := s.blocks } = s ∧ ∀ k, s'.blocks.has k = s.blocks.has k := by
  induction ts with
  | nil => exact fun s _ => ⟨fun _ h => absurd h List.not_mem_nil, fun _ _ => rfl, rfl, fun _ => rfl⟩
  | cons t ts ih =>
    intro s hn
    obtain ⟨ht, hts⟩ := List.nodup_cons.1 hn
    obtain ⟨hin, hout, hrest, hblocks⟩ := ih (release8 s t) hts
    have hhas : ∀ u, (release8 s t).threads.has u = s.threads.has u := (Wakes.release8 (K := fun _ => False) s t id).has
    refine ⟨fun u hu hh => ?_, fun u hu => ?_, ?_, fun k => (hblocks k).trans (release8_blocks_has s t k)⟩
    · by_cases hut : u = t
      · subst hut
        exact (hout u ht).trans (release8_thread_eq hh)
      · have hmem : u ∈ ts := (List.mem_cons.1 hu).resolve_left hut
        refine (hin u hmem ((hhas u).trans hh)).trans ?_
        rw [release8_thread_ne _ hut]
        rfl
    · obtain ⟨hne, hnot⟩ := not_or.1 (mt List.mem_cons.2 hu)
      exact (hout u hnot).trans (release8_thread_ne s hne)
    · exact congrArg (fun x : State => { x with threads := s.threads, blocks := s.blocks }) hrest

/-- R128: threads whose wait ends together. -/
def freeAll (s : State) (ts : List Nat) : State := ts.foldl release8 (syncAll s ts)

theorem freeAll_wakes (s : State) (ts : List Nat) : Wakes (fun _ => False) s (freeAll s ts) :=
  (Wakes.syncAll s ts).trans (Wakes.releaseAll _ ts fun _ _ => id)

theorem freeAll_spec {ts : List Nat} (s : State) (hn : ts.Nodup) :
    (∀ u ∈ ts, s.threads.has u = true → ((freeAll s ts).thread u).held = .ready ∧ ((freeAll s ts).thread u).why = .none ∧
      ((freeAll s ts).thread u).pc = (s.thread u).pc + 8) ∧
    { freeAll s ts with threads := s.threads, blocks := s.blocks, ctr := s.ctr } = s ∧
    ∀ k, (freeAll s ts).blocks.has k = s.blocks.has k := by
  have hsync := SnapsOnly.syncAll s ts
  obtain ⟨hin, -, hrest, hblocks⟩ := foldl_release8_spec ts (syncAll s ts) hn
  refine ⟨fun u hu hh => ?_, ?_, fun k => (hblocks k).trans ?_⟩
  · have hhas : (syncAll s ts).threads.has u = true := ((Wakes.syncAll (K := fun _ => False) s ts).has u).trans hh
    have hu' : (freeAll s ts).thread u = _ := hin u hu hhas
    rw [hu', hsync.thread u]
    exact ⟨rfl, rfl, rfl⟩
  · have h := congrArg (fun x : State => { x with threads := s.threads, blocks := s.blocks, ctr := s.ctr }) hrest
    exact h.trans (congrArg (fun x : State => { x with blocks := s.blocks }) hsync.rest)
  · have h := congrArg State.blocks hsync.rest
    exact congrArg (Sparse.has · k) h

end Sys2Proof.Machine

/-! ### Barriers and mask registers (O23: R43, R44, R245, R249) -/

namespace Sys2Proof.Machine

/-! ### bar.blk (R245) -/

section
variable {s : State} {k id : Nat}

/-- A phase that lacks arrivals goes on. -/
theorem barCheck_unmet (hc : ((s.block k).bars.findD id .zero).count ≠ 0)
    (hlt : ((s.block k).bars.findD id .zero).arrivals < ((s.block k).bars.findD id .zero).count) : barCheck s k id = s := by
  unfold barCheck
  dsimp only
  rw [if_neg hc, if_neg (Nat.not_le.2 hlt), ite_self]

/-- The last arrival completes the phase. -/
theorem barCheck_met (hc : ((s.block k).bars.findD id .zero).count ≠ 0) (ha : ((s.block k).bars.findD id .zero).arrivals ≠ 0)
    (hle : ((s.block k).bars.findD id .zero).count ≤ ((s.block k).bars.findD id .zero).arrivals) :
    barCheck s k id = (freeAll s (barWaiters s k id)).onBlock k fun x =>
      { x with bars := x.bars.update id .zero fun y => { y with arrivals := 0 } } := by
  unfold barCheck
  dsimp only
  rw [if_neg ha, if_neg hc, if_pos hle]
  rfl

end

/-- The state in which an arrival at a block barrier has been counted. -/
def barArrived (b : Bundle) (s : State) (t : Nat) (a : BarBlkArgs) : State :=
  (waitingAt b s t (.barBlk a.id.toNat)).onBlock ((afterIssue b s).blockIdOf t) fun x =>
    { x with bars := x.bars.update a.id.toNat ⟨0, 0⟩ fun y => ⟨y.arrivals + 1, a.count.toNat⟩ }

theorem exec_barBlk {a : BarBlkArgs} {b : Bundle} {s : State} {t : Nat} (h : Sole (.barBlk a) b s t) :
    exec (.barBlk a) s = .next (barCheck (barArrived b s t a) ((afterIssue b s).blockIdOf t) a.id.toNat) := by
  change execBarBlk a s = _
  rw [execBarBlk, word_sole h rfl]
  rfl

/-- A thread that waits at its word: the one that came, in the state in which the word acts. -/
theorem waitingAt_thread {i : Instr} {b : Bundle} {s : State} {t : Nat} (h : Sole i b s t) (w : Why) :
    (waitingAt b s t w).thread t = { (afterIssue b s).thread t with held := .waiting, why := w, pc := b.pc } ∧
    ∀ u, u ≠ t → (waitingAt b s t w).thread u = (afterIssue b s).thread u :=
  ⟨thread_onThread_self _ _ _ ((afterIssue_has b s t).trans h.thread.2.1), fun _ hu => thread_onThread_ne _ _ _ _ hu⟩

theorem waitingAt_has (b : Bundle) (s : State) (t u : Nat) (w : Why) : (waitingAt b s t w).threads.has u = (afterIssue b s).threads.has u :=
  has_onThread _ _ _ _

section
variable {a : BarBlkArgs} {b : Bundle} {s : State} {t : Nat}

theorem barArrived_block (hk : (afterIssue b s).blocks.has ((afterIssue b s).blockIdOf t) = true) :
    (barArrived b s t a).block ((afterIssue b s).blockIdOf t) =
      { (afterIssue b s).block ((afterIssue b s).blockIdOf t) with
        bars := ((afterIssue b s).block ((afterIssue b s).blockIdOf t)).bars.update a.id.toNat ⟨0, 0⟩ fun y => ⟨y.arrivals + 1, a.count.toNat⟩ } :=
  (block_onBlock _ _ _ _ (by exact hk)).trans (if_pos rfl)

/-- R245: the arrival that completes the phase of a block barrier. -/
theorem barBlk_completes (h : Sole (.barBlk a) b s t) (hk : (afterIssue b s).blocks.has ((afterIssue b s).blockIdOf t) = true)
    (ht : t ∈ ((afterIssue b s).block ((afterIssue b s).blockIdOf t)).threads)
    (hn : ((afterIssue b s).block ((afterIssue b s).blockIdOf t)).threads.Nodup) (hc : a.count.toNat ≠ 0)
    (hle : a.count.toNat ≤ (((afterIssue b s).block ((afterIssue b s).blockIdOf t)).bars.findD a.id.toNat ⟨0, 0⟩).arrivals + 1) :
    let s0 := afterIssue b s
    let k := s0.blockIdOf t
    ∃ s', exec (.barBlk a) s = .next s' ∧ ((s'.block k).bars.findD a.id.toNat ⟨0, 0⟩).arrivals = 0 ∧
      (s'.thread t).held = .ready ∧ (s'.thread t).pc = b.pc + 8 ∧
      (∀ u ∈ (s0.block k).threads, (s0.thread u).why = .barBlk a.id.toNat → s0.threads.has u = true → u ≠ t →
        (s'.thread u).held = .ready ∧ (s'.thread u).why = .none ∧ (s'.thread u).pc = (s0.thread u).pc + 8) ∧
      (∀ u, (s'.thread u).v = (s0.thread u).v ∧ (s'.thread u).p = (s0.thread u).p) ∧
      s'.groups = s0.groups ∧ s'.hbm = s0.hbm ∧ s'.flats = s0.flats ∧ s'.sys = s0.sys := by
  intro s0 k
  obtain ⟨hself, hother⟩ := waitingAt_thread h (.barBlk a.id.toNat)
  have hblock : (barArrived b s t a).block k = _ := barArrived_block hk
  have hbar : ((barArrived b s t a).block k).bars.findD a.id.toNat .zero =
      ⟨((s0.block k).bars.findD a.id.toNat ⟨0, 0⟩).arrivals + 1, a.count.toNat⟩ := by
    rw [hblock, Sparse.findD_update, if_pos rfl]
  have hmem : ∀ u, u ∈ barWaiters (barArrived b s t a) k a.id.toNat ↔
      u ∈ (s0.block k).threads ∧ ((barArrived b s t a).thread u).why = .barBlk a.id.toNat := fun u => by
    rw [barWaiters, hblock, List.mem_filter, beq_iff_eq]
  have hnodup : (barWaiters (barArrived b s t a) k a.id.toNat).Nodup := by
    rw [barWaiters, hblock]
    exact hn.filter _
  obtain ⟨hfreed, hrest, hblocks⟩ := freeAll_spec (barArrived b s t a) hnodup
  have hregs := freeAll_wakes (barArrived b s t a) (barWaiters (barArrived b s t a) k a.id.toNat)
  have hwait := Wakes.onThread (K := fun _ => False) s0 t (fun th => { th with held := .waiting, why := .barBlk a.id.toNat, pc := b.pc })
    (fun _ => rfl) fun h => h.elim
  have hhas : ∀ u, (barArrived b s t a).threads.has u = s0.threads.has u := fun u => waitingAt_has b s t u _
  refine ⟨_, (exec_barBlk h).trans (by rw [barCheck_met] <;> rw [hbar]
                                       · exact hc
                                       · exact Nat.succ_ne_zero _
                                       · exact hle), ?_, ?_⟩
  · rw [block_onBlock _ _ _ _ ((hblocks k).trans ?_), if_pos rfl, Sparse.findD_update, if_pos rfl]
    exact (Sparse.has_modify _ _ _ _).trans hk
  · have hthread := hfreed t ((hmem t).2 ⟨ht, congrArg Thread.why hself⟩) ((hhas t).trans ((afterIssue_has b s t).trans h.thread.2.1))
    refine ⟨hthread.1, hthread.2.2.trans (congrArg (Thread.pc · + 8) hself), fun u hu hw hh hne => ?_, fun u => ?_,
      (congrArg State.groups hrest :), (congrArg State.hbm hrest :), (congrArg State.flats hrest :), (congrArg State.sys hrest :)⟩
    · obtain ⟨h1, h2, h3⟩ := hfreed u ((hmem u).2 ⟨hu, (congrArg Thread.why (hother u hne)).trans hw⟩) ((hhas u).trans hh)
      exact ⟨h1, h2, h3.trans (congrArg (Thread.pc · + 8) (hother u hne))⟩
    · exact ⟨(hregs.v u).trans (hwait.v u), (hregs.p u).trans (hwait.p u)⟩

end

end Sys2Proof.Machine

namespace Sys2Proof.Machine

/-! ### Mask registers (R43, R44, R249) -/

/-- A class U word of one active thread acts on its group for that thread alone. -/
theorem word_group {i : Instr} {b : Bundle} {s : State} {t : Nat} (h : Sole i b s t) (hn : gatherMask i = none)
    (f : Issued → State → Nat → List Nat → State) :
    word i s (groupBody f) = .next (f (issuedAs i b s) (afterIssue b s) ((afterIssue b s).thread t).group [t]) := by
  rw [word_issues h.issuing hn]
  simp [groupBody, issuedAs, h.active]

theorem lanesOf_one (s : State) (t : Nat) : lanesOf s [t] = 1#32 <<< (s.thread t).lane := by
  simp [lanesOf]

theorem maskOf_setMask {s : State} {g : Nat} (hg : s.groups.has g = true) (n : Nat) (x : MaskReg) :
    maskOf ((setMask s g n x).group g) n = x := by
  rw [setMask, group_onGroup _ _ _ _ hg, if_pos rfl, maskOf, Sparse.findD_set, if_pos rfl]

section
variable {s : State} {g n : Nat} {x : MaskReg}

/-- No wait at a mask ends while none has arrived, or a member is missing. -/
theorem checkMask_unmet (hx : maskOf (s.group g) n = x) (h : x.a = 0 ∨ x.m &&& ~~~x.a ≠ 0) : checkMask s g n = s := by
  subst hx
  exact if_neg fun hm => h.elim hm.1 fun hne => hne hm.2

/-- The threads that wait at a mask among those that have arrived at it. -/
def maskWaiters (s : State) (g n : Nat) : List Nat :=
  (lanesIn s g (maskOf (s.group g) n).a).filter fun t => (s.thread t).why == .mask n

theorem checkMask_met (hx : maskOf (s.group g) n = x) (ha : x.a ≠ 0) (hm : x.m &&& ~~~x.a = 0) :
    checkMask s g n = setMask (freeAll s (maskWaiters s g n)) g n { x with a := 0 } := by
  subst hx
  exact if_pos ⟨ha, hm⟩

theorem lanesIn_nodup (h : s.threads.keys.Nodup) (m : Word) : (lanesIn s g m).Nodup :=
  h.sublist (List.Sublist.map _ List.filter_sublist)

theorem lanesIn_zero (s : State) (g : Nat) : lanesIn s g 0#32 = [] := by
  simp [lanesIn, Sparse.filter, Sparse.keys]

end

theorem getLsbD_foldl_lanes (s : State) (ts : List Nat) {j : Nat} (hj : j < 32) : ∀ x : Word,
    (ts.foldl (fun (m : Word) t => m ||| (1#32 <<< (s.thread t).lane)) x).getLsbD j =
      (x.getLsbD j || ts.any fun t => (s.thread t).lane == j) := by
  induction ts with
  | nil => exact fun x => by rw [List.foldl_nil, List.any_nil, Bool.or_false]
  | cons t ts ih =>
    intro x
    rw [List.foldl_cons, ih, BitVec.getLsbD_or, getLsbD_one_shiftLeft hj, List.any_cons, Bool.or_assoc]
    rfl

theorem getLsbD_lanesOf (s : State) (ts : List Nat) {j : Nat} (hj : j < 32) :
    (lanesOf s ts).getLsbD j = ts.any fun t => (s.thread t).lane == j := by
  exact (getLsbD_foldl_lanes s ts hj 0).trans (by rw [BitVec.ofNat_eq_ofNat, BitVec.getLsbD_zero, Bool.false_or])

section
variable {b : Bundle} {s : State} {t : Nat}

/-- The group of an issuing thread is there. -/
theorem Sole.grouped {i : Instr} (h : Sole i b s t) : (afterIssue b s).groups.has ((afterIssue b s).thread t).group = true := by
  rw [afterIssue_thread_group, afterIssue_groups]
  exact (h.issuing.may t h.thread.1).grouped

theorem exec_join {a : MaskArgs} (h : Sole (.join a) b s t) : let s0 := afterIssue b s
    let x := maskOf (s0.groupOf t) a.n.toNat
    exec (.join a) s = .next (s0.onGroup (s0.thread t).group fun y => { y with
      m := y.m.set a.n.toNat ⟨x.m ||| (1#32 <<< (s0.thread t).lane), x.a⟩ }) := by
  change execJoin a s = _
  rw [execJoin, word_group h rfl, lanesOf_one]
  rfl

theorem exec_leave {a : MaskArgs} (h : Sole (.leave a) b s t) : let s0 := afterIssue b s
    let x := maskOf (s0.groupOf t) a.n.toNat
    let gone := ~~~(1#32 <<< (s0.thread t).lane)
    (x.a &&& gone = 0 ∨ (x.m &&& ~~~x.a) &&& gone ≠ 0) →
    exec (.leave a) s = .next (s0.onGroup (s0.thread t).group fun y => { y with
      m := y.m.set a.n.toNat ⟨x.m &&& gone, x.a &&& gone⟩ }) := by
  intro s0 x gone hx
  have hmask := maskOf_setMask h.grouped a.n.toNat ⟨x.m &&& gone, x.a &&& gone⟩
  -- who is missing still is a member that stays
  have hmissing : (x.m &&& gone) &&& ~~~(x.a &&& gone) = (x.m &&& ~~~x.a) &&& gone := by
    ext i hi
    simp only [BitVec.getElem_and, BitVec.getElem_not]
    cases x.m[i] <;> cases x.a[i] <;> cases gone[i] <;> rfl
  change execLeave a s = _
  rw [execLeave, word_group h rfl, lanesOf_one]
  exact congrArg _ (checkMask_unmet hmask (by rw [hmissing]; exact hx))

theorem exec_mset {a : MaskKArgs} (h : Sole (.mset a) b s t) : let s0 := afterIssue b s
    let g := (s0.thread t).group
    (maskOf (s0.groupOf t) a.n.toNat).a = 0 →
    exec (.mset a) s = .next (s0.onGroup g fun y => { y with
      m := y.m.set a.n.toNat ⟨(s0.group g).k.findD a.k.toNat 0 &&& lanesOf s0 (s0.live g), 0⟩ }) := by
  intro s0 g ha
  have ha' : (maskOf (s0.group g) a.n.toNat).a = 0 := ha
  have hmask := maskOf_setMask h.grouped a.n.toNat ⟨(s0.group g).k.findD a.k.toNat 0 &&& lanesOf s0 (s0.live g), 0⟩
  change execMset a s = _
  rw [execMset, word_group h rfl]
  dsimp only
  rw [ha']
  simp only [BitVec.ofNat_eq_ofNat, BitVec.zero_and, lanesIn_zero, List.filter_nil, List.foldl_nil]
  exact congrArg _ (checkMask_unmet hmask (.inl rfl))

theorem exec_mget {a : MaskKArgs} (h : Sole (.mget a) b s t) : let s0 := afterIssue b s
    exec (.mget a) s = .next (s0.onGroup (s0.thread t).group fun y => { y with
      k := y.k.set a.k.toNat (maskOf (s0.groupOf t) a.n.toNat).m }) := by
  change execMget a s = _
  rw [execMget, word_group h rfl]
  rfl

/-! ### wait (R43) -/

theorem exec_wait_other {a : MaskArgs} (h : Sole (.wait a) b s t) : let s0 := afterIssue b s
    let x := maskOf (s0.groupOf t) a.n.toNat
    x.m.getLsbD (s0.thread t).lane = false → x.a = 0 →
    exec (.wait a) s = .next (s0.onGroup (s0.thread t).group fun y => { y with m := y.m.set a.n.toNat x }) := by
  intro s0 x hm ha
  have hmask := maskOf_setMask h.grouped a.n.toNat x
  have hm' : (maskOf (s0.group (s0.thread t).group) a.n.toNat).m.getLsbD (s0.thread t).lane = false := hm
  change execWait a s = _
  rw [execWait, word_group h rfl]
  dsimp only
  rw [List.filter_cons_of_neg (by rw [hm']; exact Bool.false_ne_true), List.filter_nil]
  simp only [List.foldl_nil, lanesOf, BitVec.ofNat_eq_ofNat, BitVec.or_zero]
  exact congrArg _ (checkMask_unmet hmask (.inl ha))

/-- The state in which an arrival at a mask has been recorded. -/
def maskArrived (b : Bundle) (s : State) (t n : Nat) : State :=
  (waitingAt b s t (.mask n)).onGroup ((afterIssue b s).thread t).group fun y => { y with
    m := y.m.set n ⟨(maskOf ((afterIssue b s).groupOf t) n).m, (maskOf ((afterIssue b s).groupOf t) n).a ||| (1#32 <<< ((afterIssue b s).thread t).lane)⟩ }

theorem exec_wait {a : MaskArgs} (h : Sole (.wait a) b s t)
    (hm : (maskOf ((afterIssue b s).groupOf t) a.n.toNat).m.getLsbD ((afterIssue b s).thread t).lane = true) :
    exec (.wait a) s = .next (checkMask (maskArrived b s t a.n.toNat) ((afterIssue b s).thread t).group a.n.toNat) := by
  have hm' : (maskOf ((afterIssue b s).group ((afterIssue b s).thread t).group) a.n.toNat).m.getLsbD ((afterIssue b s).thread t).lane = true := hm
  have hlane : ((waitingAt b s t (.mask a.n.toNat)).thread t).lane = ((afterIssue b s).thread t).lane :=
    (congrArg Thread.lane (waitingAt_thread h (.mask a.n.toNat)).1 :)
  change execWait a s = _
  rw [execWait, word_group h rfl]
  dsimp only
  rw [List.filter_cons_of_pos (by exact hm'), List.filter_nil, List.foldl_cons, List.foldl_nil, lanesOf_one]
  change Host.Outcome.next (checkMask (setMask (waitingAt b s t _) _ _ ⟨_, _ ||| (1#32 <<< ((waitingAt b s t (.mask a.n.toNat)).thread t).lane)⟩) _ _) = _
  rw [hlane]
  rfl

theorem maskArrived_mask {i : Instr} (h : Sole i b s t) (n : Nat) :
    maskOf ((maskArrived b s t n).group ((afterIssue b s).thread t).group) n =
      ⟨(maskOf ((afterIssue b s).groupOf t) n).m, (maskOf ((afterIssue b s).groupOf t) n).a ||| (1#32 <<< ((afterIssue b s).thread t).lane)⟩ :=
  maskOf_setMask (s := waitingAt b s t (.mask n)) h.grouped n _

theorem exec_wait_waits {a : MaskArgs} (h : Sole (.wait a) b s t)
    (hm : (maskOf ((afterIssue b s).groupOf t) a.n.toNat).m.getLsbD ((afterIssue b s).thread t).lane = true)
    (hmore : (maskOf ((afterIssue b s).groupOf t) a.n.toNat).m &&&
      ~~~((maskOf ((afterIssue b s).groupOf t) a.n.toNat).a ||| (1#32 <<< ((afterIssue b s).thread t).lane)) ≠ 0) :
    exec (.wait a) s = .next (maskArrived b s t a.n.toNat) := by
  rw [exec_wait h hm, checkMask_unmet (maskArrived_mask h _) (.inr hmore)]

/-- R43: the arrival of the last member that was missing. -/
theorem exec_wait_completes {a : MaskArgs} (h : Sole (.wait a) b s t)
    (hlane : ((afterIssue b s).thread t).lane < 32)
    (hm : (maskOf ((afterIssue b s).groupOf t) a.n.toNat).m.getLsbD ((afterIssue b s).thread t).lane = true)
    (hall : (maskOf ((afterIssue b s).groupOf t) a.n.toNat).m &&&
      ~~~((maskOf ((afterIssue b s).groupOf t) a.n.toNat).a ||| (1#32 <<< ((afterIssue b s).thread t).lane)) = 0)
    (hkeys : (afterIssue b s).threads.keys.Nodup) :
    let s0 := afterIssue b s
    let x := maskOf (s0.groupOf t) a.n.toNat
    ∃ s', exec (.wait a) s = .next s' ∧ maskOf (s'.groupOf t) a.n.toNat = ⟨x.m, 0⟩ ∧
      (s'.thread t).held = .ready ∧ (s'.thread t).pc = b.pc + 8 ∧
      (∀ u, s0.threads.has u = true → u ≠ t → (s0.thread u).group = (s0.thread t).group → (s0.thread u).why = .mask a.n.toNat →
        x.a.getLsbD (s0.thread u).lane = true → (s'.thread u).held = .ready ∧ (s'.thread u).pc = (s0.thread u).pc + 8) ∧
      (∀ u, (s'.thread u).v = (s0.thread u).v ∧ (s'.thread u).p = (s0.thread u).p) ∧ s'.hbm = s0.hbm ∧ s'.flats = s0.flats := by
  intro s0 x
  let s1 := maskArrived b s t a.n.toNat
  let g := (s0.thread t).group
  obtain ⟨hself, hother⟩ := waitingAt_thread h (.mask a.n.toNat)
  have hself : s1.thread t = _ := hself
  have hother : ∀ u, u ≠ t → s1.thread u = s0.thread u := hother
  have hmask : maskOf (s1.group g) a.n.toNat = ⟨x.m, x.a ||| (1#32 <<< (s0.thread t).lane)⟩ := maskArrived_mask h a.n.toNat
  have hhas : ∀ u, s1.threads.has u = s0.threads.has u := fun u => waitingAt_has b s t u _
  have hnodup : (maskWaiters s1 g a.n.toNat).Nodup :=
    (lanesIn_nodup (s := s1) (g := g) (by rw [show s1.threads.keys = s0.threads.keys from Sparse.keys_modify _ _ _]; exact hkeys) _).filter _
  have hbit : (x.a ||| (1#32 <<< (s0.thread t).lane)).getLsbD (s0.thread t).lane = true := by
    rw [BitVec.getLsbD_or, getLsbD_one_shiftLeft hlane, decide_eq_true rfl, Bool.or_true]
  have hne : x.a ||| (1#32 <<< (s0.thread t).lane) ≠ 0 := fun h0 => by
    rw [h0] at hbit
    simp at hbit
  have hwaits : ∀ u, s0.threads.has u = true → (s1.thread u).group = g → (s1.thread u).why = .mask a.n.toNat →
      (x.a ||| (1#32 <<< (s0.thread t).lane)).getLsbD (s1.thread u).lane = true → u ∈ maskWaiters s1 g a.n.toNat :=
    fun u hu hg hw hl => by
      rw [maskWaiters, hmask, List.mem_filter, hw]
      exact ⟨hg ▸ mem_lanesIn ((hhas u).trans hu) hl, beq_self_eq_true _⟩
  obtain ⟨hfreed, hrest, -⟩ := freeAll_spec s1 hnodup
  have hregs := freeAll_wakes s1 (maskWaiters s1 g a.n.toNat)
  have hwait := Wakes.onThread (K := fun _ => False) s0 t (fun th => { th with held := .waiting, why := .mask a.n.toNat, pc := b.pc })
    (fun _ => rfl) fun h => h.elim
  have hgroups : (freeAll s1 (maskWaiters s1 g a.n.toNat)).groups = s1.groups := (congrArg State.groups hrest :)
  have hgroup : (freeAll s1 (maskWaiters s1 g a.n.toNat)).groups.has g = true := by
    rw [hgroups]
    exact (Sparse.has_modify _ _ _ _).trans h.grouped
  refine ⟨_, (exec_wait h hm).trans (by rw [checkMask_met hmask hne hall]), ?_, ?_⟩
  · have hg : ((freeAll s1 (maskWaiters s1 g a.n.toNat)).thread t).group = g :=
      (hregs.threadGroup t).trans (congrArg Thread.group hself :)
    have hown : ∀ (n : Nat) (y : MaskReg), (setMask (freeAll s1 (maskWaiters s1 g a.n.toNat)) g n y).groupOf t =
        (setMask (freeAll s1 (maskWaiters s1 g a.n.toNat)) g n y).group g := fun n y => congrArg (State.group _) hg
    exact (congrArg (maskOf · a.n.toNat) (hown _ _)).trans (maskOf_setMask hgroup _ _)
  · have hthread := hfreed t (hwaits t ((afterIssue_has b s t).trans h.thread.2.1) (congrArg Thread.group hself :) (congrArg Thread.why hself :)
      (by rw [hself]; exact hbit)) ((hhas t).trans ((afterIssue_has b s t).trans h.thread.2.1))
    refine ⟨hthread.1, hthread.2.2.trans (congrArg (Thread.pc · + 8) hself), fun u hu hut hg hw hl => ?_, fun u => ?_,
      (congrArg State.hbm hrest :), (congrArg State.flats hrest :)⟩
    · have hu1 := hother u hut
      obtain ⟨h1, -, h3⟩ := hfreed u (hwaits u hu (by rw [hu1]; exact hg) (by rw [hu1]; exact hw)
        (by rw [hu1, BitVec.getLsbD_or, hl, Bool.true_or])) ((hhas u).trans hu)
      exact ⟨h1, h3.trans (congrArg (Thread.pc · + 8) hu1)⟩
    · exact ⟨(hregs.v u).trans (hwait.v u), (hregs.p u).trans (hwait.p u)⟩

/-- R67, R128: a member whose earlier accesses are under way does not arrive yet. -/
theorem exec_wait_held {a : MaskArgs} (h : Alone (.wait a) b s t)
    (hm : (maskOf (s.groupOf t) a.n.toNat).m.getLsbD (s.thread t).lane = true)
    (hp : pendingHazard s t (usesOf (.wait a)) (guardOf (.wait a)) true = false) (hr : replayHold s t (.wait a) = none)
    (hd : canArrive s t = false) : exec (.wait a) s = .next (heldAt b s t .drain) := by
  refine exec_held ⟨rfl, rfl⟩ h .drain ?_ fun p hp => nomatch hp
  have hg : guardHolds (guardOf (.wait a)) (s.thread t) = true := h.guarded
  have hports : portHazard (s.thread t) (usesOf (.wait a)) = none := rfl
  have hdrain : mustDrain s (.wait a) t = true := by simp [mustDrain, memVa, hm, hd]
  simp [waitsFor, hg, hp, hr, hports, hdrain, isXop]

end

/-- Settles O23: an arrival at a block barrier counts (`exec_barBlk`) or completes the phase (`barBlk_completes`); the mask
words change their group's register as `exec_join` to `exec_mget` say, and wait arrives, waits or completes
(`exec_wait_other`, `exec_wait_waits`, `exec_wait_completes`, `exec_wait_held`). -/
theorem barriersAndMasks : Obligations.BarriersAndMasks := by
  refine ⟨fun a b s t h => ?_, fun a b s t => exec_join, fun a b s t => exec_leave, fun a b s t h => ?_, fun a b s t => exec_mget,
    fun a b s t h => ?_, fun a b s t => exec_wait_held⟩
  · intro s0 k y hk ht hn hc
    refine ⟨fun hlt => ?_, barBlk_completes h hk ht hn hc⟩
    have hbar : ((barArrived b s t a).block k).bars.findD a.id.toNat .zero = ⟨y.arrivals + 1, a.count.toNat⟩ := by
      rw [barArrived_block hk, Sparse.findD_update, if_pos rfl]
    exact (exec_barBlk h).trans (congrArg _ (barCheck_unmet (by rw [hbar]; exact hc) (by rw [hbar]; exact hlt)))
  · intro s0 x ha
    refine ⟨_, exec_mset h ha, fun l hl => ?_⟩
    rw [BitVec.getLsbD_and, getLsbD_lanesOf _ _ hl]
    rfl
  · intro s0 x hlane
    exact ⟨exec_wait_other h, exec_wait_waits h, exec_wait_completes h hlane⟩

end Sys2Proof.Machine

/-! ### Cue queues (O21: R237..R239) -/

namespace Sys2Proof.Machine

theorem Sparse.findD_modify_keeps {α β : Type} {f : α → α} {g : α → β} (h : ∀ x, g (f x) = g x) (m : Sparse α) (k j : Nat) (d : α) :
    g ((m.modify k f).findD j d) = g (m.findD j d) := by
  simp only [Sparse.findD, Sparse.find?_modify]
  split
  · cases m.find? j <;> simp [h]
  · rfl

/-! ### Where a thread belongs while a trap is taken -/

/-- Threads keep their groups, groups their blocks, blocks their launches, launches their partitions, and the same
queues are registered. -/
structure SameHomes (s s' : State) : Prop where
  has : ∀ t, s'.threads.has t = s.threads.has t
  group : ∀ t, (s'.thread t).group = (s.thread t).group
  block : ∀ g, (s'.group g).block = (s.group g).block
  launch : ∀ b, (s'.block b).launch = (s.block b).launch
  part : ∀ l, (s'.launch l).part = (s.launch l).part
  cues : ∀ p h, (s'.part p).cues.has h = (s.part p).cues.has h

namespace SameHomes

variable {s s' s'' : State}

theorem refl (s : State) : SameHomes s s := ⟨fun _ => rfl, fun _ => rfl, fun _ => rfl, fun _ => rfl, fun _ => rfl, fun _ _ => rfl⟩

theorem trans (h : SameHomes s s') (h' : SameHomes s' s'') : SameHomes s s'' :=
  ⟨fun t => (h'.has t).trans (h.has t), fun t => (h'.group t).trans (h.group t), fun g => (h'.block g).trans (h.block g), fun b => (h'.launch b).trans (h.launch b),
    fun l => (h'.part l).trans (h.part l), fun p k => (h'.cues p k).trans (h.cues p k)⟩

theorem foldl {α : Type} {f : State → α → State} (hf : ∀ s x, SameHomes s (f s x)) (l : List α) : ∀ s, SameHomes s (l.foldl f s) := by
  induction l with
  | nil => exact refl
  | cons x l ih => exact fun s => (hf s x).trans (ih _)

theorem partOf (h : SameHomes s s') (t : Nat) : s'.partOf t = s.partOf t := by
  simp only [State.partOf, State.launchOf, State.launchIdOf, State.blockOf, State.blockIdOf, State.groupOf, h.group, h.block, h.launch, h.part]

theorem cueNamed (h : SameHomes s s') (t k : Nat) : cueNamed s' t k = cueNamed s t k := by
  simp only [Machine.cueNamed, h.partOf, h.cues]

/-- States that differ at most where no home is kept. -/
theorem of_same (ht : s'.threads = s.threads) (hg : s'.groups = s.groups) (hb : s'.blocks = s.blocks) (hl : s'.launches = s.launches)
    (hp : ∀ p h, (s'.part p).cues.has h = (s.part p).cues.has h) : SameHomes s s' :=
  ⟨fun t => by rw [ht], fun t => by rw [State.thread, ht, State.thread], fun g => by rw [State.group, hg, State.group],
    fun b => by rw [State.block, hb, State.block], fun l => by rw [State.launch, hl, State.launch], hp⟩

theorem onThread (s : State) (t : Nat) (f : Thread → Thread) (hf : ∀ x, (f x).group = x.group) : SameHomes s (s.onThread t f) :=
  ⟨fun _ => Sparse.has_modify _ _ _ _, fun u => Sparse.findD_modify_keeps hf s.threads t u _, fun _ => rfl, fun _ => rfl, fun _ => rfl, fun _ _ => rfl⟩

theorem onGroup (s : State) (g : Nat) (f : Group → Group) (hf : ∀ x, (f x).block = x.block) : SameHomes s (s.onGroup g f) :=
  ⟨fun _ => rfl, fun _ => rfl, fun u => Sparse.findD_modify_keeps hf s.groups g u _, fun _ => rfl, fun _ => rfl, fun _ _ => rfl⟩

theorem onPart (s : State) (p : Nat) (f : Part → Part) (hf : ∀ x h, (f x).cues.has h = x.cues.has h) : SameHomes s (s.onPart p f) := by
  refine of_same rfl rfl rfl rfl fun q h => ?_
  rw [part_onPart]
  split
  · subst_vars
    exact hf _ h
  · rfl

theorem onCue (s : State) (p h : Nat) (f : Cue → Cue) : SameHomes s (s.onPart p fun x => { x with cues := x.cues.modify h f }) :=
  onPart s p _ fun _ _ => Sparse.has_modify _ _ _ _

theorem of_memOnly (h : MemOnly s s') : SameHomes s s' :=
  of_same h.threads h.groups h.blocks h.launches fun p k => by rw [show (s'.part p).cues = (s.part p).cues from (congrArg Part.cues (h.part p) :)]

theorem of_wakes {K : Nat → Prop} (h : Wakes K s s') : SameHomes s s' where
  has := h.has
  group t := (congrArg Thread.group (h.thread t) :)
  block g := (congrArg Group.block (h.group g) :)
  launch b := (congrArg Block.launch (h.block b) :)
  part l := by rw [State.launch, h.launches, State.launch]
  cues p k := by rw [State.part, h.parts, State.part]

theorem of_cueDeliver (s : State) (t d : Nat) (e : Dword) (l : List Nat) : SameHomes s (cueDeliver s t d e l) :=
  (of_wakes (.extend (K := fun _ => False) s t (unionN l s.hist.dev))).trans (onThread _ t _ fun _ => rfl)

theorem landPend (s : State) (t : Nat) (p : Pend) : SameHomes s (landPend s t p) := by
  have happly : ∀ x, (applyPend p x).group = x.group := fun x => by
    unfold applyPend
    repeat' split
    all_goals rfl
  refine ((onThread s t _ happly).trans (onGroup _ (s.thread t).group _ ?_)).trans (foldl (fun s u => onThread s u _ ?_) _ _)
  · exact fun _ => rfl
  · exact fun _ => rfl

theorem settleSfu (s : State) (t : Nat) : SameHomes s (settleSfu s t) := foldl (fun s p => landPend s t p) _ s

theorem agentWrite (s : State) (p : Nat) (r : List Nat) (va : Nat) (b : List Byte) : SameHomes s (agentWrite s p r va b).2 := by
  unfold Machine.agentWrite
  split
  · exact refl s
  · split
    · exact refl s
    · exact of_memOnly (.writeRange ..)

theorem agentPut (s : State) (p : Nat) (r : List Nat) (va : Nat) (b : List Byte) : SameHomes s (agentPut s p r va b) := by
  have hw := agentWrite s p r va b
  unfold Machine.agentPut
  generalize Machine.agentWrite s p r va b = x at hw
  split
  · exact hw.trans (onPart _ p _ fun _ _ => rfl)
  · exact hw

theorem cueServe (p h fuel : Nat) : ∀ s, SameHomes s (cueServe s p h fuel) := by
  induction fuel with
  | zero => exact refl
  | succ fuel ih =>
    intro s
    unfold Machine.cueServe
    split
    · exact refl s
    · split
      · split
        · exact ((((of_cueDeliver s _ _ _ _).trans (onCue _ p h _)).trans (onCue _ p h _)).trans (of_wakes (.release8 (K := fun _ => False) _ _ id))).trans (ih _)
        · exact refl s
      · exact refl s

theorem cueEnter (s : State) (p h : Nat) (e : Dword) (l : List Nat) : SameHomes s (cueEnter s p h e l) := by
  unfold Machine.cueEnter
  split
  · exact refl s
  · exact (((agentPut s p [] _ _).trans (onCue _ p h _)).trans
      (foldl (fun s t => of_wakes (K := fun _ => False) (.queueBlock s (s.blockIdOf t))) _ _)).trans (cueServe p h _ _)

theorem devPush (s : State) (p h : Nat) (e : Dword) (l : List Nat) : SameHomes s (devPush s p h e l) := by
  have hpub : SameHomes s (publish s .device .dev l false).2 := of_same rfl rfl rfl rfl fun _ _ => rfl
  unfold Machine.devPush
  dsimp only
  split
  · exact hpub.trans (onPart _ p _ fun _ _ => rfl)
  · exact hpub.trans (cueEnter _ p h e l)

theorem recordPush (s : State) (p : Nat) (rec : Option (Nat × List Byte)) (h : Nat) (e : Dword) : SameHomes s (recordPush s p rec h e) := by
  unfold Machine.recordPush
  split
  · exact devPush s p h e []
  · rename_i va b
    have hw := agentWrite s p [] va b
    dsimp only
    generalize Machine.agentWrite s p [] va b = x at hw
    split
    · exact hw.trans (onPart _ p _ fun _ _ => rfl)
    · exact hw.trans (devPush ..)

theorem putRecord (s : State) (t : Nat) (i : TrapInfo) : SameHomes s (putRecord s t i) := by
  unfold Machine.putRecord
  split
  · exact refl s
  · exact agentPut ..

theorem fireTableau (s : State) (p c : Nat) (h : Word) (a : Bool) : SameHomes s (fireTableau s p c h a) := by
  unfold Machine.fireTableau
  dsimp only
  split
  · exact onPart _ p _ fun _ _ => rfl
  · exact refl s

theorem exitThread (s : State) (t : Nat) (hh : s.threads.has t = true) : SameHomes s (exitThread s t) := by
  refine SameHomes.trans ((onThread s t _ ?_).trans (onGroup _ (s.thread t).group _ ?_)) (of_wakes (exitThread_wakes hh))
  · exact fun _ => rfl
  · exact fun _ => rfl

theorem of_copied (h : Copied s s') : SameHomes s s' := by
  induction h with
  | refl => exact refl _
  | update _ ih => exact ih.trans (of_same rfl rfl rfl rfl fun _ _ => rfl)
  | hlkErr _ ih => exact ih.trans (of_memOnly (.hlkErr ..))

theorem endLaunches (s : State) (ts : List Nat) (hit : Launch → Bool) (st : LaunchStatus) : SameHomes s (endLaunches s ts hit st) := by
  refine (of_copied (discarded_copied s ts)).trans ⟨fun t => Sparse.has_mapKV _ _ _, fun t => Sparse.findD_mapKV_keeps ?_ _ t _,
    fun g => Sparse.findD_mapKV_keeps ?_ _ g _, fun b => Sparse.findD_mapKV_keeps ?_ _ b _, fun l => Sparse.findD_mapKV_keeps ?_ _ l _, fun p h => ?_⟩
  · exact fun k x => by split <;> rfl
  · exact fun k x => rfl
  · exact fun k x => by split <;> rfl
  · exact fun k x => by split <;> rfl
  · refine Sparse.findD_mapKV_keeps (g := fun y : Part => y.cues.has h) ?_ _ p _
    exact fun k x => Sparse.has_mapKV _ _ _

theorem sTrap (s : State) (t : Nat) (i : TrapInfo) (hh : s.threads.has t = true) : SameHomes s (sTrap s t i) := by
  have hrun : SameHomes s (s.onThread t fun th => { th with tc := true, cause := i.cause.code }) := onThread s t _ fun _ => rfl
  have hfire := hrun.trans (fireTableau _ (s.partOf t) 1 (State.handle (s.onThread t fun th => { th with tc := true, cause := i.cause.code }) t) false)
  unfold Machine.sTrap
  dsimp only
  split
  · exact hfire.trans (recordPush ..)
  · have hput := hfire.trans (putRecord _ t i)
    split
    · refine (hput.trans (of_memOnly (.hlkErr ..))).trans (exitThread _ t ?_)
      rw [(hput.trans (of_memOnly (.hlkErr ..))).has, hh]
    · exact hput.trans (endLaunches ..)

/-- A trap that no handler and no debug event answers. -/
theorem takeTrap_cueUnbound (s : State) (t : Nat) (i : TrapInfo) (hc : i.cause = .cueUnbound) (hl : i.logged = false)
    (hh : s.threads.has t = true) : SameHomes s (takeTrap s t i) := by
  have hset := settleSfu s t
  have hpc := hset.trans (onThread _ t (fun th => { th with trapPc := i.pc }) fun _ => rfl)
  unfold Machine.takeTrap
  simp only [hc, hl, handlerOf]
  split
  · exact refl s
  · have hready := hpc.trans (onThread _ t (fun th => { th with
      held := .ready, why := .none, pc := i.pc, readyAt := (Machine.settleSfu s t).clk }) fun _ => rfl)
    exact hready.trans (sTrap _ t i (by rw [hready.has, hh]))

end SameHomes

section
variable {b : Bundle} {s : State} {t : Nat}

/-- R237: the trap of a handle that names no queue leaves it unregistered, so the word ends with it. -/
theorem cueThreads_unbound {i : Instr} (h : Sole i b s t) (base : Base)
    (hq : cueNamed (afterIssue b s) t ((envOf (afterIssue b s) t).base2 base).toNat = false) :
    cueThreads (issuedAs i b s) base (afterIssue b s) = ([], trapsAt b s t .cueUnbound 0 0) := by
  have hhome : SameHomes (afterIssue b s) (trapsAt b s t .cueUnbound 0 0) :=
    .takeTrap_cueUnbound _ _ _ rfl rfl (by rw [afterIssue_has]; exact h.thread.2.1)
  have hstill := hhome.cueNamed t ((envOf (afterIssue b s) t).base2 base).toNat
  simp only [cueThreads, show (issuedAs i b (s)).active = [t] from h.active, List.map_cons, List.map_nil, List.foldl_cons, List.foldl_nil, hq,
    trap_sole, Bool.false_eq_true, if_false]
  simp [hstill, hq]

/-- The thread whose handle names a registered queue. -/
theorem cueThreads_named {i : Instr} (h : Sole i b s t) (base : Base)
    (hq : cueNamed (afterIssue b s) t ((envOf (afterIssue b s) t).base2 base).toNat = true) :
    cueThreads (issuedAs i b s) base (afterIssue b s) =
      ([(t, ((envOf (afterIssue b s) t).base2 base).toNat)], afterIssue b s) := by
  simp [cueThreads, show (issuedAs i b s).active = [t] from h.active, hq, h.thread.2.2.2]

/-- R319: where no trap is held for a queue, none enters it. -/
theorem heldTraps_none {p h : Nat} (hn : ∀ e ∈ (s.part p).heldTraps, e.1 ≠ h) (fuel : Nat) : heldTraps s p h fuel = s := by
  have hfind : (s.part p).heldTraps.find? (fun e => e.1 == h) = none := by simpa using hn
  cases fuel <;> simp [heldTraps, hfind]

/-- R237, R239: what a pop takes and leaves, where no trap waits for the place. -/
theorem cueTake_some {p h d : Nat} {q : Cue} {e : Dword × List Nat} {rest : List (Dword × List Nat)} (hq : (s.part p).cues.find? h = some q)
    (he : q.entries = e :: rest) (hn : ∀ e ∈ (s.part p).heldTraps, e.1 ≠ h) :
    cueTake s p h t d = some (cueDrop (cueDeliver s t d e.1 e.2) p h) := by
  have hheld : ∀ x ∈ ((cueDrop (cueDeliver s t d e.1 e.2) p h).part p).heldTraps, x.1 ≠ h := by
    rw [((Quiet.cueDeliver s t d e.1 e.2).trans (.cueDrop _ p h)).held]
    exact hn
  simp [cueTake, hq, he, heldTraps_none hheld]

/-- A pair delivered: two registers of its thread, and what it and its core have read. -/
theorem cueDeliver_thread {d : Nat} {e : Dword} {l : List Nat} (hh : s.threads.has t = true) (u : Nat) :
    (cueDeliver s t d e l).thread u = if u = t
      then { s.thread t with v := ((s.thread t).v.set d (e.setWidth 32)).set (d + 1) ((e >>> 32).setWidth 32)
                             snap := ((cueDeliver s t d e l).thread t).snap }
      else { s.thread u with snap := ((cueDeliver s t d e l).thread u).snap } := by
  have hs : SnapsOnly s (acquireOf s t (unionN l s.hist.dev)) := .extend s t _
  have hhas : (acquireOf s t (unionN l s.hist.dev)).threads.has t = true := by
    have hw : Wakes (fun _ => False) s (acquireOf s t (unionN l s.hist.dev)) := .extend s t _
    rw [hw.has, hh]
  unfold cueDeliver
  simp only [thread_onThread _ _ _ _ hhas, if_true]
  split
  · rw [hs.thread t]
  · exact hs.thread u

theorem cueDeliver_rest (s : State) (t d : Nat) (e : Dword) (l : List Nat) :
    { cueDeliver s t d e l with threads := s.threads, ctr := s.ctr } = s :=
  (SnapsOnly.extend s t (unionN l s.hist.dev)).rest

/-- R239: the state a pop leaves: its thread has the entry, its queue has lost it unless it is the end marker. -/
theorem cueDrop_delivered {p h d : Nat} {q : Cue} {e : Dword × List Nat} {rest : List (Dword × List Nat)} (hh : s.threads.has t = true)
    (hq : (s.part p).cues.find? h = some q) (he : q.entries = e :: rest) :
    let s' := cueDrop (cueDeliver s t d e.1 e.2) p h
    s'.thread t = { s.thread t with
      v := ((s.thread t).v.set d (e.1.setWidth 32)).set (d + 1) ((e.1 >>> 32).setWidth 32), snap := (s'.thread t).snap } ∧
    (∀ u, u ≠ t → s'.thread u = { s.thread u with snap := (s'.thread u).snap }) ∧
    s'.part p = { s.part p with cues := (s'.part p).cues } ∧
    (∀ k, (s'.part p).cues.find? k = if k = h then
        some (if e.1 = 0xFFFF_FFFF_FFFF_FFFF then q else { q with entries := rest, head := (q.head + 1) % q.cap })
      else (s.part p).cues.find? k) ∧
    (∀ n, n ≠ p → s'.part n = s.part n) ∧
    { s' with threads := s.threads, parts := s.parts, ctr := s.ctr } = s := by
  have hr := cueDeliver_rest s t d e.1 e.2
  have hparts : (cueDeliver s t d e.1 e.2).parts = s.parts := (congrArg State.parts hr :)
  have hpart : ∀ n, (cueDeliver s t d e.1 e.2).part n = s.part n := fun n => by rw [State.part, hparts, State.part]
  have ht := cueDeliver_thread (d := d) (e := e.1) (l := e.2) hh
  refine ⟨(ht t).trans (if_pos rfl), fun u hu => (ht u).trans (if_neg hu), ?_, fun k => ?_, fun n hn => ?_, ?_⟩
  · simp [cueDrop, hpart]
  · simp only [cueDrop, part_onPart, if_true, hpart, Sparse.find?_modify]
    split
    · subst_vars
      rw [show (0xFFFF_FFFF_FFFF_FFFF : Dword) = endMarker from rfl]
      by_cases hm : e.1 = endMarker <;> simp [hq, he, hm]
    · rfl
  · simp [cueDrop, hn, hpart]
  · exact (congrArg (fun x : State => { x with parts := s.parts }) hr :)

theorem exec_cuePop_named {a : CueArgs} (h : Sole (.cuePop a) b s t)
    (hq : cueNamed (afterIssue b s) t ((envOf (afterIssue b s) t).base2 a.base).toNat = true) :
    exec (.cuePop a) s = .next ((cueTake (afterIssue b s) ((afterIssue b s).partOf t) ((envOf (afterIssue b s) t).base2 a.base).toNat t a.d.toNat).getD
      ((waitingAt b s t (.cue ((envOf (afterIssue b s) t).base2 a.base).toNat a.d.toNat)).onPart ((afterIssue b s).partOf t) fun y =>
        { y with cues := y.cues.modify ((envOf (afterIssue b s) t).base2 a.base).toNat fun q => { q with waiters := q.waiters ++ [t] } })) := by
  refine (word_issues h.issuing rfl _).trans ?_
  simp only [cueThreads_named h a.base hq, List.foldl_cons, List.foldl_nil]
  split
  · rename_i he
    rw [he]
    rfl
  · rename_i he
    rw [he]
    rfl

theorem exec_cuePop_unbound {a : CueArgs} (h : Sole (.cuePop a) b s t)
    (hq : cueNamed (afterIssue b s) t ((envOf (afterIssue b s) t).base2 a.base).toNat = false) :
    exec (.cuePop a) s = .next (trapsAt b s t .cueUnbound 0 0) := by
  refine (word_issues h.issuing rfl _).trans ?_
  simp only [cueThreads_unbound h a.base hq, List.foldl_nil]

theorem exec_cuePush_unbound {a : CueArgs} (h : Sole (.cuePush a) b s t)
    (hq : cueNamed (afterIssue b s) t ((envOf (afterIssue b s) t).base2 a.base).toNat = false) :
    exec (.cuePush a) s = .next (trapsAt b s t .cueUnbound 0 0) := by
  refine (word_issues h.issuing rfl _).trans ?_
  simp only [cueThreads_unbound h a.base hq, List.foldl_nil]

theorem exec_cuePush_named {a : CueArgs} (h : Sole (.cuePush a) b s t)
    (hq : cueNamed (afterIssue b s) t ((envOf (afterIssue b s) t).base2 a.base).toNat = true) :
    ∃ l, exec (.cuePush a) s = .next (cueEnter (releaseMem (afterIssue b s) t .dev false).2 ((releaseMem (afterIssue b s) t .dev false).2.partOf t)
      ((envOf (afterIssue b s) t).base2 a.base).toNat ((envOf (afterIssue b s) t).base2 (.v a.d)) l) := by
  have hw := word_issues h.issuing rfl fun is s =>
    let (ok, s) := cueThreads is a.base s
    ok.foldl (fun s x =>
      let e := (envOf s x.1).base2 (.v a.d)
      let (id, s) := releaseMem s x.1 .dev false
      cueEnter s (s.partOf x.1) x.2 e ((s.hist.pubs.find? id).map Pub.stores |>.getD [])) s
  simp only [cueThreads_named h a.base hq, List.foldl_cons, List.foldl_nil] at hw
  exact ⟨_, hw⟩

theorem cueNamed_eq (s : State) (t h : Nat) : cueNamed s t h = ((s.part (s.partOf t)).cues.find? h).isSome := rfl

/-- The device writes memory, or keeps the write for later: threads, groups, blocks, flats and queues stand. -/
theorem agentPut_stands (s : State) (p : Nat) (r : List Nat) (va : Nat) (d : List Byte) :
    (agentPut s p r va d).threads = s.threads ∧ (agentPut s p r va d).groups = s.groups ∧ (agentPut s p r va d).flats = s.flats ∧
    ∀ n, ((agentPut s p r va d).part n).cues = (s.part n).cues := by
  have hw : MemOnly s (agentWrite s p r va d).2 := by
    unfold agentWrite
    split
    · exact .refl s
    · split
      · exact .refl s
      · exact .writeRange ..
  have hcues : ∀ n, ((agentWrite s p r va d).2.part n).cues = (s.part n).cues := fun n => (congrArg Part.cues (hw.part n) :)
  unfold agentPut
  generalize agentWrite s p r va d = x at hw hcues
  split
  · refine ⟨hw.threads, hw.groups, hw.flats, fun n => (?_ : _ = _).trans (hcues n)⟩
    simp only [keepLate, part_onPart]
    split
    · subst_vars; rfl
    · rfl
  · exact ⟨hw.threads, hw.groups, hw.flats, hcues⟩

/-- A queue no thread waits on serves none. -/
theorem cueServe_idle {p h : Nat} {q : Cue} (hq : (s.part p).cues.find? h = some q) (hw : q.waiters = []) (fuel : Nat) :
    cueServe s p h fuel = s := by
  cases fuel with
  | zero => rfl
  | succ n =>
    unfold cueServe
    simp only [hq, hw, List.find?_nil]
    split
    · simp_all
    · rfl

/-- R238: a queue without waiters takes an entry; threads, groups and flats stand. -/
theorem cueEnter_pushes {p h : Nat} {q : Cue} (e : Dword) (l : List Nat) (hq : (s.part p).cues.find? h = some q) (hw : q.waiters = []) :
    (((cueEnter s p h e l).part p).cues.find? h).map Cue.entries = some (q.entries ++ [(e, l)]) ∧
    (∀ k, k ≠ h → ((cueEnter s p h e l).part p).cues.find? k = (s.part p).cues.find? k) ∧
    (cueEnter s p h e l).threads = s.threads ∧ (cueEnter s p h e l).groups = s.groups ∧ (cueEnter s p h e l).flats = s.flats := by
  obtain ⟨ht, hg, hf, hc⟩ := agentPut_stands s p [] (q.ring + 8 * ((q.head + q.entries.length) % q.cap)) (bytesOfNat 8 e.toNat)
  have heq : cueEnter s p h e l = (agentPut s p [] (q.ring + 8 * ((q.head + q.entries.length) % q.cap)) (bytesOfNat 8 e.toNat)).onPart p
      fun x => { x with cues := x.cues.modify h fun q => { q with entries := q.entries ++ [(e, l)] } } := by
    simp only [cueEnter, hq, hw, List.filter_nil, List.foldl_nil]
    exact cueServe_idle (q := { q with entries := q.entries ++ [(e, l)] }) (by simp [hc, hq]) hw _
  rw [heq]
  exact ⟨by simp [hc, hq], fun k hk => by simp [hc, hk], ht, hg, hf⟩

end

/-- Settles O21: pops by `cueTake_some`, pushes by `cueEnter_pushes`, unbound handles by `cueThreads_unbound`. -/
theorem cueQueues : Obligations.CueQueues := by
  refine ⟨fun a b s t hs => ⟨fun hq => ?_, fun q hq hn => ⟨fun e rest he => ?_, fun he => ?_⟩⟩,
    fun a b s t hs => ⟨fun hq => ?_, fun q hq hw => ?_⟩, fun a b s t q ha hm hf hq hc => ?_⟩
  · exact exec_cuePop_unbound hs (by rw [cueNamed_eq, hq]; rfl)
  · refine ⟨_, (exec_cuePop_named hs (by rw [cueNamed_eq, hq]; rfl)).trans (by rw [cueTake_some hq he hn, Option.getD_some]), ?_⟩
    have hh : (afterIssue b s).threads.has t = true := by rw [afterIssue_has]; exact hs.thread.2.1
    exact cueDrop_delivered hh hq he
  · refine (exec_cuePop_named hs (by rw [cueNamed_eq, hq]; rfl)).trans ?_
    simp only [cueTake, hq, he]
    rfl
  · exact exec_cuePush_unbound hs (by rw [cueNamed_eq, hq]; rfl)
  · obtain ⟨h, n, p, he, -, hp⟩ := releaseMem_eq (afterIssue b s) t .dev false
    obtain ⟨l, hl⟩ := exec_cuePush_named hs (by rw [cueNamed_eq, hq]; rfl)
    refine ⟨_, l, hl, ?_⟩
    rw [he]
    exact cueEnter_pushes _ _ hq hw
  · have hroom : (roomless s (.cuePush a) b.core [t]) = ([t], none) := by
      obtain ⟨n, hn⟩ := Option.ne_none_iff_exists'.1 hf
      simp [roomless, hn, hq, hc]
    refine (exec_roomless ⟨rfl, rfl⟩ ha hm rfl (by rw [hroom])).trans ?_
    rw [hroom]

end Sys2Proof.Machine

/-! ### Traps taken (O30: R255, R316..R319, R331) -/

namespace Sys2Proof.Machine

section
variable {s : State} {t : Nat} {i : TrapInfo}

theorem groupOf_onThread (f : Thread → Thread) (hf : ∀ x, (f x).group = x.group) (u : Nat) : (s.onThread t f).groupOf u = s.groupOf u := by
  rw [State.groupOf, (SameHomes.onThread s t f hf).group, State.groupOf]
  rfl

theorem partOf_onThread (f : Thread → Thread) (hf : ∀ x, (f x).group = x.group) (u : Nat) : (s.onThread t f).partOf u = s.partOf u :=
  (SameHomes.onThread s t f hf).partOf u

theorem handle_onThread (f : Thread → Thread) (hf : ∀ x, (f x).group = x.group) (hl : ∀ x, (f x).lane = x.lane) (u : Nat) :
    (s.onThread t f).handle u = s.handle u := by
  simp only [State.handle, groupOf_onThread f hf,
    show ((s.onThread t f).thread u).lane = (s.thread u).lane from Sparse.findD_modify_keeps hl s.threads t u _]

theorem ctxThreads_onThread (f : Thread → Thread) (hf : ∀ x, (f x).group = x.group) (c : Nat) :
    (s.onThread t f).ctxThreads c = s.ctxThreads c := by
  change ((s.threads.mapKV fun j x => if j = t then f x else x).filter fun _ th => (s.group th.group).ctx == c).keys = _
  refine Sparse.keys_filter_mapKV s.threads fun u th => ?_
  by_cases hu : u = t <;> simp [hu, hf]

theorem mem_ctxThreads (hh : s.threads.has t = true) : t ∈ s.ctxThreads (s.ctxOf t) := by
  obtain ⟨x, hx⟩ := (Sparse.has_iff _ _).1 hh
  have hth : s.thread t = x := by simp [State.thread, Sparse.findD, hx]
  refine List.mem_map.2 ⟨(t, x), List.mem_filter.2 ⟨mem_items_of_find? hx, ?_⟩, rfl⟩
  simp [State.ctxOf, State.groupOf, hth]

/-- A thread at the word that traps, before the trap is entered. -/
def caught (s : State) (t : Nat) (i : TrapInfo) : State := s.onThread t fun th =>
  { th with held := .ready, why := .none, pc := i.pc, readyAt := s.clk, trapPc := i.pc }

theorem caught_groupOf (u : Nat) : (caught s t i).groupOf u = s.groupOf u := groupOf_onThread _ (by intro; rfl) u
theorem caught_partOf (u : Nat) : (caught s t i).partOf u = s.partOf u := partOf_onThread _ (by intro; rfl) u
theorem caught_handle (u : Nat) : (caught s t i).handle u = s.handle u := handle_onThread _ (by intro; rfl) (by intro; rfl) u
theorem caught_privOf (u : Nat) : (caught s t i).privOf u = s.privOf u := congrArg Group.priv (caught_groupOf u)
theorem caught_ctxOf (u : Nat) : (caught s t i).ctxOf u = s.ctxOf u := congrArg Group.ctx (caught_groupOf u)
theorem caught_launchOf (u : Nat) : (caught s t i).launchOf u = s.launchOf u := by
  simp only [State.launchOf, State.launchIdOf, State.blockOf, State.blockIdOf, caught_groupOf]
  rfl

/-- A trap of a thread with no late results. -/
theorem takeTrap_caught (hr : (s.thread t).held ≠ .exited) (hp : (s.thread t).pend = []) (hl : i.logged = false) (hc : i.cause ≠ .memerr) :
    takeTrap s t i = match handlerOf s t i.cause with
      | some h => (handlerRecord (caught s t i) t i).onThread t fun th => { th with pc := h, cause := i.cause.code }
      | none => match i.cause with
          | .ibrk | .watch => debugCurtain (caught s t i) t i true
          | .brk => if s.privOf t then sTrap (caught s t i) t i else debugCurtain (caught s t i) t i true
          | _ => sTrap (caught s t i) t i := by
  have hset : settleSfu s t = s := by simp [settleSfu, hp]
  have hh : handlerOf (caught s t i) t i.cause = handlerOf s t i.cause := by simp only [handlerOf, caught_launchOf]
  unfold takeTrap
  rw [if_neg hr]
  simp only [hset, hl, hc, Bool.false_eq_true, or_self, if_false, onThread_onThread]
  rw [← hh, ← caught_privOf (s := s) (i := i) t]
  rfl

/-- R318: without a trap base, no record is stored. -/
theorem handlerRecord_none (h : (s.launchOf t).pkt.trapBase = 0) : handlerRecord s t i = s := by
  simp only [handlerRecord, h, if_true]

theorem recordAddr_none {p : Nat} (h : sysGet s RegNo.trapArea p = 0) : recordAddr s p t = none := by
  simp [recordAddr, h]

theorem putRecord_none (h : sysGet s RegNo.trapArea (s.partOf t) = 0) : putRecord s t i = s := by
  simp only [putRecord, recordAddr_none h]

theorem fireTableau_unarmed {p c : Nat} {h : Word} {a : Bool} (hn : (s.part p).tableau.armed = false) : fireTableau s p c h a = s := by
  simp [fireTableau, hn]

/-- The thread of an S trap, behind its trap curtain. -/
def curtained (s : State) (t : Nat) (i : TrapInfo) : State := s.onThread t fun th => { th with tc := true, cause := i.cause.code }

/-- R319: the word that an S trap pushes onto its queue. -/
def trapEntry (s : State) (t : Nat) (i : TrapInfo) : Dword := BitVec.ofNat 64 ((s.handle t).toNat + i.cause.code.toNat * 2 ^ 32)

/-- R319: an S trap, where no record area is set and no tableau armed. -/
theorem sTrap_recordless {c : Nat} (ha : sysGet s RegNo.trapArea (s.partOf t) = 0) (hn : (s.part (s.partOf t)).tableau.armed = false)
    (hc : (if s.privOf t then (s.runtime (s.partOf t)).getD (s.ctxOf t) else s.ctxOf t) = c) :
    sTrap s t i = match trapQueue s (s.partOf t) c with
      | some h => devPush (curtained s t i) (s.partOf t) h (trapEntry s t i) []
      | none => if s.privOf t then exitThread (hlkErr (curtained s t i) (s.partOf t) 4 (s.handle t).toNat) t
          else endContext (curtained s t i) c := by
  subst hc
  have hp : (curtained s t i).partOf t = s.partOf t := partOf_onThread _ (by intro; rfl) t
  have hh : (curtained s t i).handle t = s.handle t := handle_onThread _ (by intro; rfl) (by intro; rfl) t
  have hpriv : (curtained s t i).privOf t = s.privOf t := congrArg Group.priv (groupOf_onThread _ (by intro; rfl) t)
  have hput : putRecord (curtained s t i) t i = curtained s t i := putRecord_none (by rw [hp]; exact ha)
  have hfire : ∀ w, fireTableau (curtained s t i) (s.partOf t) 1 w false = curtained s t i := fun _ => fireTableau_unarmed hn
  unfold sTrap
  simp only [show (s.onThread t fun th => { th with tc := true, cause := i.cause.code }) = curtained s t i from rfl, hfire,
    recordAddr_none (s := curtained s t i) (p := s.partOf t) ha, Option.map_none, recordPush, hput, hh, hpriv]
  rfl

/-- R319: a trap's entry pushed onto a queue that has a place and no waiter. -/
theorem devPush_pushes {p h : Nat} {q : Cue} (e : Dword) (hq : (s.part p).cues.find? h = some q) (hw : q.waiters = [])
    (hf : q.entries.length < q.cap) : (devPush s p h e []).threads = s.threads ∧ (devPush s p h e []).groups = s.groups ∧
      (devPush s p h e []).flats = s.flats ∧ (((devPush s p h e []).part p).cues.find? h).map Cue.entries = some (q.entries ++ [(e, [])]) := by
  have hfull : cueFull (publish s .device .dev [] false).2 p h = false := by
    simp only [cueFull, show ((publish s .device .dev [] false).2.part p).cues.find? h = some q from hq]
    simpa using hf
  have heq : devPush s p h e [] = cueEnter (publish s .device .dev [] false).2 p h e [] := by
    simp only [devPush, hfull, Bool.false_eq_true, if_false]
  obtain ⟨he, -, ht, hg, hfl⟩ := cueEnter_pushes (s := (publish s .device .dev [] false).2) e [] hq hw
  rw [heq]
  exact ⟨ht, hg, hfl, he⟩

/-- R321: the threads of a context that ends, and those of others. -/
theorem endContext_spec (s : State) (c : Nat) :
    (∀ u ∈ s.ctxThreads c, ((endContext s c).thread u).held = .exited ∧ ((endContext s c).thread u).v = (s.thread u).v) ∧
    (∀ u, u ∉ s.ctxThreads c → (endContext s c).thread u = s.thread u) ∧
    ((s.copies.filter fun _ cp => (s.ctxThreads c).contains cp.tid) = .empty → (endContext s c).hbm = s.hbm ∧ (endContext s c).flats = s.flats) := by
  have hthreads : (discarded s (s.ctxThreads c)).threads = s.threads := (discarded_copied s _).threads
  have hd : ∀ u, (discarded s (s.ctxThreads c)).thread u = s.thread u := fun u => by rw [State.thread, hthreads, State.thread]
  have hth : ∀ u, (endContext s c).thread u =
      if u ∈ s.ctxThreads c ∧ (discarded s (s.ctxThreads c)).threads.has u = true then endedThread (s.thread u) else s.thread u := fun u => by
    rw [← hd u]
    exact thread_onThreads (discarded s (s.ctxThreads c)) (s.ctxThreads c) (fun _ => endedThread) u
  refine ⟨fun u hu => ?_, fun u hu => ?_, fun hnone => ?_⟩
  · rw [hth, if_pos ⟨hu, by rw [hthreads]; exact has_of_mem_ctxThreads hu⟩]
    exact ⟨rfl, rfl⟩
  · rw [hth, if_neg fun h => hu h.1]
  · have hdis : discarded s (s.ctxThreads c) = s := by
      rw [discarded, hnone]
      rfl
    exact ⟨(congrArg State.hbm hdis :), (congrArg State.flats hdis :)⟩

theorem sysBits_setEv_scope (s : State) (c p : Nat) : sysBits (setEv s c p) (RegNo.dbgCtl c) 0 1 0 = sysBits s (RegNo.dbgCtl c) 0 1 0 := by
  unfold setEv
  split
  · rfl
  · change sysBits (sysPutBits s (RegNo.dbgCtl c) 0 8 8 1) (RegNo.dbgCtl c) 0 1 0 = _
    rw [sysBits, sysPutBits, sysGet_sysPut_same, sysBits]
    have hx := (sysGet s (RegNo.dbgCtl c) 0).isLt
    simp only [bits, putBits, BitVec.toNat_ofNat]
    omega

/-- The thread of a debug event, behind its debug curtain. -/
def dropped (s : State) (t : Nat) (i : TrapInfo) : State := s.onThread t fun th => { th with dc := true, cause := i.cause.code }

/-- R331: brk of a thread whose context debugs it alone, without a record area. -/
theorem debugCurtain_alone (ha : sysGet s RegNo.trapArea (s.partOf t) = 0) (hc : i.cause = .brk)
    (hs : sysBits s (RegNo.dbgCtl (s.ctxOf t)) 0 1 0 = 0) :
    debugCurtain s t i true = setEv (dropped s t i) (s.ctxOf t) (s.partOf t) := by
  have hput : putRecord (dropped s t i) t i = dropped s t i :=
    putRecord_none (by rw [show (dropped s t i).partOf t = s.partOf t from partOf_onThread _ (by intro; rfl) t]; exact ha)
  have hscope : sysBits (setEv (dropped s t i) (s.ctxOf t) (s.partOf t)) (RegNo.dbgCtl (s.ctxOf t)) 0 1 0 = 0 :=
    (sysBits_setEv_scope _ _ _).trans hs
  unfold debugCurtain
  simp only [show (s.onThread t fun th => { th with dc := true, cause := i.cause.code }) = dropped s t i from rfl, hput, if_pos hc, hscope]
  simp [State.onThreads, Sparse.mapKV]

end

/-- R319: the parts of a trap record. -/
theorem trapRecord_parts (s : State) (t : Nat) (i : TrapInfo) : (trapRecord s t i).length = 64 ∧ (trapRecord s t i).take 8 = bytesOfNat 8 i.pc.toNat ∧
    ((trapRecord s t i).drop 8).take 8 = bytesOfNat 8 i.ea ∧ (trapRecord s t i)[16]? = some i.cause.code ∧
    (trapRecord s t i)[17]? = some (if i.logged then 1 else 0) ∧
    ((trapRecord s t i).drop 24).take 4 = bytesOfNat 4 (s.handle t).toNat ∧
    ((trapRecord s t i).drop 32).take 8 = bytesOfNat 8 i.word.toNat := by
  refine ⟨rfl, rfl, rfl, rfl, rfl, rfl, rfl⟩

section
variable {b : Bundle} {s : State} {t : Nat}

/-- R318: the state in which the handler of a trap starts. -/
def entered (s : State) (b : Bundle) (t : Nat) (h : Dword) (c : Byte) : State := s.onThread t fun th =>
  { th with pc := h, held := .ready, why := .none, readyAt := s.clk, trapPc := b.pc, cause := c }

/-- R318: trap and brk enter the kernel's handler, where no record is stored. -/
theorem trapsAt_handler {i : Instr} (h : Sole i b s t) {c : Cause} {n : Nat} {x : Dword} (hp : ((afterIssue b s).thread t).pend = [])
    (hm : c ≠ .memerr) (hx : handlerOf (afterIssue b s) t c = some x) (hb : ((afterIssue b s).launchOf t).pkt.trapBase = 0) :
    trapsAt b s t c 0 n = entered (afterIssue b s) b t x c.code := by
  unfold trapsAt
  rw [takeTrap_caught (by rw [h.thread.2.2.2]; decide) hp rfl hm]
  simp only [hx]
  rw [handlerRecord_none (by rw [caught_launchOf]; exact hb), caught, onThread_onThread]
  rfl

/-- R319: trap without a handler, a record area or an armed tableau. -/
theorem trapsAt_curtain {i : Instr} (h : Sole i b s t) {n c : Nat} (hp : ((afterIssue b s).thread t).pend = [])
    (hx : ((afterIssue b s).launchOf t).pkt.htrap = 0) (ha : sysGet (afterIssue b s) RegNo.trapArea ((afterIssue b s).partOf t) = 0)
    (hn : ((afterIssue b s).part ((afterIssue b s).partOf t)).tableau.armed = false)
    (hc : (if (afterIssue b s).privOf t then ((afterIssue b s).runtime ((afterIssue b s).partOf t)).getD ((afterIssue b s).ctxOf t)
      else (afterIssue b s).ctxOf t) = c) :
    let i : TrapInfo := ⟨.trap, b.pc, b.word, 0, n, false⟩
    let s1 := curtained (caught (afterIssue b s) t i) t i
    trapsAt b s t .trap 0 n = match trapQueue (afterIssue b s) ((afterIssue b s).partOf t) c with
      | some h => devPush s1 ((afterIssue b s).partOf t) h (trapEntry (afterIssue b s) t i) []
      | none => if (afterIssue b s).privOf t then exitThread (hlkErr s1 ((afterIssue b s).partOf t) 4 ((afterIssue b s).handle t).toNat) t
          else endContext s1 c := by
  intro i s1
  have hrec := sTrap_recordless (s := caught (afterIssue b s) t i) (t := t) (i := i) (c := c) (by rw [caught_partOf]; exact ha)
    (by rw [caught_partOf]; exact hn) (by rw [caught_partOf, caught_privOf, caught_ctxOf]; exact hc)
  simp only [caught_partOf, caught_privOf, caught_handle, trapEntry] at hrec
  unfold trapsAt
  rw [takeTrap_caught (by rw [h.thread.2.2.2]; decide) hp rfl (by simp)]
  simp only [handlerOf, hx, if_true]
  exact hrec

theorem thread_curtained_caught (s : State) (i : TrapInfo) (hh : s.threads.has t = true) :
    (curtained (caught s t i) t i).thread t = { s.thread t with
      held := .ready, why := .none, pc := i.pc, readyAt := s.clk, trapPc := i.pc, tc := true, cause := i.cause.code } := by
  rw [curtained, thread_onThread_self _ _ _ (by simpa [caught] using hh), caught, thread_onThread_self _ _ _ hh]

theorem thread_curtained_caught_ne (s : State) (i : TrapInfo) {u : Nat} (hu : u ≠ t) : (curtained (caught s t i) t i).thread u = s.thread u := by
  rw [curtained, thread_onThread_ne _ _ _ _ hu, caught, thread_onThread_ne _ _ _ _ hu]

theorem ctxThreads_curtained_caught (s : State) (i : TrapInfo) (c : Nat) : (curtained (caught s t i) t i).ctxThreads c = s.ctxThreads c :=
  (ctxThreads_onThread _ (by intro; rfl) c).trans (ctxThreads_onThread _ (by intro; rfl) c)

/-- R319: the state in which a trap was pushed onto a queue. -/
theorem curtained_pushed {i : TrapInfo} {p h : Nat} {q : Cue} (hh : s.threads.has t = true) (hq : (s.part p).cues.find? h = some q)
    (hw : q.waiters = []) (hf : q.entries.length < q.cap) (e : Dword) :
    let s' := devPush (curtained (caught s t i) t i) p h e []
    s'.thread t = { s.thread t with
      held := .ready, why := .none, pc := i.pc, readyAt := s.clk, trapPc := i.pc, tc := true, cause := i.cause.code } ∧
    (∀ u, u ≠ t → s'.thread u = s.thread u) ∧ s'.groups = s.groups ∧ s'.flats = s.flats ∧
    ((s'.part p).cues.find? h).map Cue.entries = some (q.entries ++ [(e, [])]) := by
  obtain ⟨ht, hg, hfl, he⟩ := devPush_pushes (s := curtained (caught s t i) t i) e hq hw hf
  refine ⟨?_, fun u hu => ?_, hg, hfl, he⟩
  · rw [State.thread, ht]
    exact thread_curtained_caught s i hh
  · rw [State.thread, ht]
    exact thread_curtained_caught_ne s i hu

/-- R319, R321: the state in which a trap has ended its thread's context. -/
theorem curtained_ended {i : TrapInfo} (hh : s.threads.has t = true) :
    let c := s.ctxOf t
    let s' := endContext (curtained (caught s t i) t i) c
    (∀ u ∈ s.ctxThreads c, (s'.thread u).held = .exited ∧ (s'.thread u).v = (s.thread u).v) ∧
    (∀ u, u ∉ s.ctxThreads c → s'.thread u = s.thread u) ∧
    ((s.copies.filter fun _ cp => (s.ctxThreads c).contains cp.tid) = .empty → s'.hbm = s.hbm ∧ s'.flats = s.flats) := by
  intro c
  obtain ⟨hin, hout, hmem⟩ := endContext_spec (curtained (caught s t i) t i) c
  simp only [ctxThreads_curtained_caught] at hin hout hmem
  refine ⟨fun u hu => ⟨(hin u hu).1, (hin u hu).2.trans ?_⟩, fun u hu => ?_, hmem⟩
  · by_cases ht : u = t
    · subst ht
      rw [thread_curtained_caught s i hh]
    · rw [thread_curtained_caught_ne s i ht]
  · rw [hout u hu, thread_curtained_caught_ne s i (by rintro rfl; exact hu (mem_ctxThreads hh))]

/-- R331: brk of a U thread that its context debugs alone, without a handler or a record area. -/
theorem trapsAt_debug {i : Instr} (h : Sole i b s t) {n : Nat} (hp : ((afterIssue b s).thread t).pend = [])
    (hx : ((afterIssue b s).launchOf t).pkt.hbrk = 0) (hu : (afterIssue b s).privOf t = false)
    (ha : sysGet (afterIssue b s) RegNo.trapArea ((afterIssue b s).partOf t) = 0)
    (hd : sysBits (afterIssue b s) (RegNo.dbgCtl ((afterIssue b s).ctxOf t)) 0 1 0 = 0) :
    let i : TrapInfo := ⟨.brk, b.pc, b.word, 0, n, false⟩
    trapsAt b s t .brk 0 n = setEv (dropped (caught (afterIssue b s) t i) t i) ((afterIssue b s).ctxOf t) ((afterIssue b s).partOf t) := by
  intro i
  have halone := debugCurtain_alone (s := caught (afterIssue b s) t i) (t := t) (i := i) (by rw [caught_partOf]; exact ha) rfl
    (by rw [caught_ctxOf]; exact hd)
  rw [caught_partOf, caught_ctxOf] at halone
  unfold trapsAt
  rw [takeTrap_caught (by rw [h.thread.2.2.2]; decide) hp rfl (by simp)]
  simp only [handlerOf, hx, if_true, hu, Bool.false_eq_true, if_false]
  exact halone

theorem setEv_stands (s : State) (c p : Nat) : (setEv s c p).threads = s.threads ∧ (setEv s c p).groups = s.groups ∧
    (setEv s c p).hbm = s.hbm ∧ (setEv s c p).flats = s.flats := by
  unfold setEv
  split <;> exact ⟨rfl, rfl, rfl, rfl⟩

/-- R331: the state behind a debug curtain. -/
theorem dropped_noted {i : TrapInfo} (hh : s.threads.has t = true) (c p : Nat) :
    let s' := setEv (dropped (caught s t i) t i) c p
    s'.thread t = { s.thread t with
      held := .ready, why := .none, pc := i.pc, readyAt := s.clk, trapPc := i.pc, dc := true, cause := i.cause.code } ∧
    (∀ u, u ≠ t → s'.thread u = s.thread u) ∧ sysBits s' (RegNo.dbgCtl c) 0 8 8 = 1 ∧
    s'.groups = s.groups ∧ s'.hbm = s.hbm ∧ s'.flats = s.flats := by
  obtain ⟨ht, hg, hb, hf⟩ := setEv_stands (dropped (caught s t i) t i) c p
  refine ⟨?_, fun u hu => ?_, sysBits_setEv _ c p, hg, hb, hf⟩
  · rw [State.thread, ht]
    change (dropped (caught s t i) t i).thread t = _
    rw [dropped, thread_onThread_self _ _ _ (by simpa [caught] using hh), caught, thread_onThread_self _ _ _ hh]
  · rw [State.thread, ht]
    change (dropped (caught s t i) t i).thread u = _
    rw [dropped, thread_onThread_ne _ _ _ _ hu, caught, thread_onThread_ne _ _ _ _ hu]

end

/-- Settles O30: handlers by `trapsAt_handler`, the trap curtain and the end of a context by `trapsAt_curtain`, brk by
`debugCurtain_alone`, the record by its bytes. -/
theorem trapsTaken : Obligations.TrapsTaken := by
  refine ⟨fun a b s t hs hp => ⟨fun hh hb => ?_, fun hh ha hn => ⟨fun h q hq hc hw hf => ?_, fun hq hu => ?_⟩⟩,
    fun a b s t hs hp => ⟨fun hh hb => ?_, fun hh hu ha hd => ?_⟩, trapRecord_parts, fun s p t ha => ?_⟩
  · exact (word_sole hs rfl _).trans (congrArg _ (trapsAt_handler hs hp (by decide) (by simpa [handlerOf] using hh) hb))
  · have hstate := trapsAt_curtain (n := a.code.toNat) hs hp hh ha hn rfl
    rw [hq] at hstate
    exact ⟨_, [], (word_sole hs rfl _).trans (congrArg _ hstate), curtained_pushed (by rw [afterIssue_has]; exact hs.thread.2.1) hc hw hf _⟩
  · have hstate := trapsAt_curtain (n := a.code.toNat) hs hp hh ha hn rfl
    rw [hq] at hstate
    simp only [hu, Bool.false_eq_true, if_false] at hstate hq ⊢
    exact ⟨_, (word_sole hs rfl _).trans (congrArg _ hstate), curtained_ended (by rw [afterIssue_has]; exact hs.thread.2.1)⟩
  · exact (word_sole hs rfl _).trans (congrArg _ (trapsAt_handler hs hp (by decide) (by simpa [handlerOf] using hh) hb))
  · exact ⟨_, (word_sole hs rfl _).trans (congrArg _ (trapsAt_debug hs hp hh hu ha hd)),
      dropped_noted (by rw [afterIssue_has]; exact hs.thread.2.1) _ _⟩
  · have hne : (sysGet s RegNo.trapArea p).toNat ≠ 0 := fun h => ha (BitVec.eq_of_toNat_eq h)
    simp only [recordAddr, hne, if_false]
    rfl

end Sys2Proof.Machine

/-! ### Flat slots: take, stat, share, give and the give point (O22: R140..R142, R240..R244) -/

namespace Sys2Proof.Machine

/-! ### The map word of a slot -/

section
variable {s : State} {c k : Nat}

/-- R240: what a slot holds, a bank and whether read-only, as `setSlot` writes it. -/
def slotHeld : Option (Nat × Bool) → Option Nat × Bool
  | some (b, ro) => (some b, ro)
  | none => (none, false)

/-- The word `setSlot` writes. -/
def slotWord : Option (Nat × Bool) → Dword
  | some (b, ro) => BitVec.ofNat 64 (2 ^ 31 + (if ro then 2 ^ 30 else 0) + b)
  | none => 0

theorem slotMap_setSlot {c' k' : Nat} (x : Option (Nat × Bool)) (hc : c < 256) (hc' : c' < 256) :
    slotMap (setSlot s c k x) c' k' = if k' = k ∧ c' = c then (slotWord x).toNat else slotMap s c' k' := by
  have hk : regKey (RegNo.flsMap k') c' = regKey (RegNo.flsMap k) c ↔ k' = k ∧ c' = c := by
    rw [regKey_inj hc' hc]
    unfold RegNo.flsMap RegNo.of
    omega
  rw [slotMap]
  unfold setSlot
  rw [sysGet_sysPut]
  by_cases h : k' = k ∧ c' = c
  · rw [if_pos h, if_pos (hk.2 h)]
    rfl
  · rw [if_neg h, if_neg (mt hk.1 h)]
    rfl

/-- The fields of the word of a slot. -/
theorem slotWord_bits {x : Option (Nat × Bool)} (hx : ∀ y ∈ x, y.1 < 256) :
    ((if bits (slotWord x).toNat 31 31 = 1 then some (bits (slotWord x).toNat 7 0) else none), bits (slotWord x).toNat 30 30 == 1) = slotHeld x := by
  obtain _ | ⟨b, ro⟩ := x
  · rfl
  · have hb : b < 256 := hx (b, ro) rfl
    obtain ⟨r, hr, hn⟩ : ∃ r, r = (if ro then 1 else 0) ∧ (slotWord (some (b, ro))).toNat = 2 ^ 31 + r * 2 ^ 30 + b := by
      refine ⟨_, rfl, ?_⟩
      cases ro <;> simp [slotWord] <;> omega
    have hr1 : r ≤ 1 := by rw [hr]; split <;> omega
    have h7 : bits (2 ^ 31 + r * 2 ^ 30 + b) 7 0 = b := by unfold bits; omega
    have h30 : bits (2 ^ 31 + r * 2 ^ 30 + b) 30 30 = r := by unfold bits; omega
    have h31 : bits (2 ^ 31 + r * 2 ^ 30 + b) 31 31 = 1 := by unfold bits; omega
    rw [hn, h7, h30, h31, if_pos rfl, hr]
    cases ro <;> rfl

theorem slotRead_setSlot {c' k' : Nat} {x : Option (Nat × Bool)} (hc : c < 256) (hc' : c' < 256) (hx : ∀ y ∈ x, y.1 < 256) :
    (slotBank (setSlot s c k x) c' k', slotRo (setSlot s c k x) c' k') =
      if k' = k ∧ c' = c then slotHeld x else (slotBank s c' k', slotRo s c' k') := by
  have hm := slotMap_setSlot (s := s) (k := k) (k' := k') x hc hc'
  by_cases h : k' = k ∧ c' = c
  · rw [if_pos h] at hm ⊢
    rw [← slotWord_bits hx, ← hm]
    rfl
  · rw [if_neg h] at hm ⊢
    rw [slotBank, slotRo, hm]
    rfl

theorem slotBank_lt {b : Nat} (h : slotBank s c k = some b) : b < 256 := by
  unfold slotBank at h
  dsimp only at h
  split at h
  · obtain rfl := Option.some.inj h
    exact Nat.mod_lt _ (by decide)
  · cases h

/-- An issue counts; it moves no slot. -/
theorem slotMap_afterIssue {b : Bundle} (hb : b.core < 256) : slotMap (afterIssue b s) = slotMap s := by
  funext c k
  have hadv : sysGet (advance s b.threads b.pc) = sysGet s := by
    funext n c
    rw [advance_eq]; rfl
  have hkey : ∀ n, n ≤ 1 → regKey (RegNo.flsMap k) c ≠ regKey (RegNo.pmc n) b.core := fun n hn => by
    unfold regKey RegNo.flsMap RegNo.pmc RegNo.of
    omega
  simp only [slotMap, afterIssue, pmc, sysGet_sysPut, hkey 0 (by omega), hkey 1 (by omega), if_false, hadv]

theorem slotBank_afterIssue {b : Bundle} (hb : b.core < 256) : slotBank (afterIssue b s) = slotBank s := by
  funext c k
  simp only [slotBank, slotMap_afterIssue hb]

theorem slotRo_afterIssue {b : Bundle} (hb : b.core < 256) : slotRo (afterIssue b s) = slotRo s := by
  funext c k
  simp only [slotRo, slotMap_afterIssue hb]

theorem thread_setSlot (s : State) (c k : Nat) (x : Option (Nat × Bool)) (u : Nat) : (setSlot s c k x).thread u = s.thread u := rfl

/-! ### Nothing to drain and no thread to wake -/

theorem drainFlats_idle (hp : ∀ u, (s.thread u).ports = .empty) : drainFlats s c = s := by
  unfold drainFlats
  refine List.foldlRecOn (motive := fun x => x = s) _ _ rfl fun x hx t _ => ?_
  subst hx
  refine List.foldlRecOn (motive := fun y => y = x) _ _ rfl fun y hy p _ => ?_
  subst hy
  simp [hp]

theorem attachWake_idle (hw : ∀ u k d, (s.thread u).why ≠ .take k d) : attachWake s c k = s := by
  unfold attachWake
  split
  · rfl
  · dsimp only
    refine List.foldlRecOn (motive := fun x => x = s) _ _ rfl fun x hx t _ => ?_
    subst hx
    split
    · rename_i h
      exact absurd h (hw _ _ _)
    · rfl

end

/-! ### Words on slots -/

section
variable {b : Bundle} {s : State} {t : Nat}

/-- R242: take writes the bank of an attached slot, and waits for a detached one. -/
theorem exec_flatTake {a : SlotArgs} (h : Sole (.flatTake a) b s t) :
    exec (.flatTake a) s = .next (match slotBank s b.core a.s.toNat with
      | some k => wroteRegs b s t [(a.d.toNat, BitVec.ofNat 32 (k + if slotRo s b.core a.s.toNat then 256 else 0))]
      | none => waitingAt b s t (.take a.s.toNat a.d.toNat)) := by
  refine (word_sole h rfl _).trans ?_
  rw [show (issuedAs (.flatTake a) b s).core = b.core from rfl, slotBank_afterIssue h.issuing.place, slotRo_afterIssue h.issuing.place]
  cases slotBank s b.core a.s.toNat <;> rfl

theorem statWord_afterIssue (hb : b.core < 256) (c k : Nat) : statWord (afterIssue b s) c k = statWord s c k := by
  have ha : attachments (afterIssue b s) = attachments s := by
    funext d k
    simp only [attachments, slotBank_afterIssue hb]
  simp only [statWord, slotBank_afterIssue hb, slotRo_afterIssue hb, ha]

/-- R244: stat writes the state word. -/
theorem exec_flatStat {a : SlotArgs} (h : Sole (.flatStat a) b s t) :
    exec (.flatStat a) s = .next (wroteRegs b s t [(a.d.toNat, statWord s b.core a.s.toNat)]) := by
  refine (word_sole h rfl _).trans ?_
  rw [show (issuedAs (.flatStat a) b s).core = b.core from rfl, statWord_afterIssue h.issuing.place]
  rfl

/-- R241: a give is held to its give point, or traps. -/
theorem exec_flatGive {a : GiveArgs} (h : Sole (.flatGive a) b s t) (c2 : Nat)
    (hc : (match a.core with
      | .imm x => x.toNat
      | .r r => bits ((envOf (afterIssue b s) t).base1 r).toNat 7 0) = c2) :
    exec (.flatGive a) s = .next (if (slotBank s b.core a.s.toNat).isNone then trapsAt b s t .flatDetached 0 0
      else { stalledAt b s t (.give b.core (afterIssue b s).ctr a.s.toNat a.s2.toNat c2 a.d.toNat b.word) with
        ctr := (afterIssue b s).ctr + 1 }) := by
  subst hc
  refine (word_sole h rfl _).trans ?_
  rw [show (issuedAs (.flatGive a) b s).core = b.core from rfl, slotBank_afterIssue h.issuing.place]
  have hstall := fun w => congrArg (fun x : State => { x with ctr := (afterIssue b s).ctr + 1 }) (stall_sole h w)
  cases (slotBank s b.core a.s.toNat).isNone
  · exact congrArg _ (hstall _)
  · rfl

/-! ### flat.share -/

/-- R243: a slot of each core named is attached. -/
def attachAll (s : State) (k : Nat) (x : Nat × Bool) (cs : List Nat) : State := cs.foldl (fun s c => setSlot s c k (some x)) s

theorem foldl_attachWake {k : Nat} {x : Nat × Bool} (cs : List Nat) : ∀ s : State, (∀ u k d, (s.thread u).why ≠ .take k d) →
    cs.foldl (fun s c => attachWake (setSlot s c k (some x)) c k) s = attachAll s k x cs := by
  induction cs with
  | nil => exact fun s _ => rfl
  | cons c cs ih =>
    intro s hw
    rw [List.foldl_cons, attachWake_idle (s := setSlot s c k (some x)) hw, ih (setSlot s c k (some x)) hw]
    rfl

theorem attachAll_rest (k : Nat) (x : Nat × Bool) (cs : List Nat) : ∀ s : State, { attachAll s k x cs with sys := s.sys } = s := by
  induction cs with
  | nil => exact fun s => rfl
  | cons c cs ih => exact fun s => (congrArg (fun y : State => { y with sys := s.sys }) (ih (setSlot s c k (some x))) :)

theorem slotRead_attachAll {k c' k' : Nat} {x : Nat × Bool} (hx : x.1 < 256) (hc' : c' < 256) (cs : List Nat) :
    ∀ s : State, (∀ c ∈ cs, c < 256) →
    (slotBank (attachAll s k x cs) c' k', slotRo (attachAll s k x cs) c' k') =
      if k' = k ∧ c' ∈ cs then (some x.1, x.2) else (slotBank s c' k', slotRo s c' k') := by
  induction cs with
  | nil => exact fun s _ => by simp [attachAll]
  | cons c cs ih =>
    intro s hcs
    have hset := slotRead_setSlot (s := s) (k := k) (k' := k') (x := some x) (hcs c List.mem_cons_self) hc' (by simpa using hx)
    have hfold := ih (setSlot s c k (some x)) fun d hd => hcs d (List.mem_cons_of_mem _ hd)
    rw [hset] at hfold
    refine hfold.trans ?_
    by_cases hk : k' = k <;> by_cases hm : c' ∈ cs <;> by_cases he : c' = c <;> simp [hk, hm, he, slotHeld]

theorem shareCores_eq (core : Nat) (mask : BitVec 4) : shareCores core mask =
    ((List.range 4).filter fun i => mask.getLsbD i && 4 * (core / 4) + i != core).map fun i => 4 * (core / 4) + i := by
  simp only [shareCores, clusterOf, List.filter_map, List.filter_filter, Nat.mul_comm (core / 4) 4]
  congr 1
  refine List.filter_congr fun i _ => ?_
  simp [Bool.and_comm]

theorem shareCores_spec {core c : Nat} {mask : BitVec 4} (h : c ∈ shareCores core mask) (hc : core < 256) : c < 256 ∧ c ≠ core := by
  obtain ⟨hm, hne⟩ := List.mem_filter.1 h
  obtain ⟨i, hi, rfl⟩ := List.mem_map.1 hm
  have := List.mem_range.1 (List.mem_filter.1 hi).1
  exact ⟨by unfold clusterOf; omega, by simpa using hne⟩

/-- R243: the state in which a share has attached its bank. -/
def sharedAt (b : Bundle) (s : State) (t : Nat) (a : ShareArgs) (k : Nat) : State :=
  ((shareCores b.core a.mask).foldl (fun s c => attachWake (setSlot s c a.s2.toNat (some (k, true))) c a.s2.toNat)
    (setSlot (drainFlats (afterIssue b s) b.core) b.core a.s.toNat (some (k, true)))).onThread t fun th =>
      { th with v := th.v.set a.d.toNat 0 }

theorem exec_flatShare {a : ShareArgs} (h : Sole (.flatShare a) b s t) :
    exec (.flatShare a) s = .next (match slotBank s b.core a.s.toNat with
      | none => trapsAt b s t .flatDetached 0 0
      | some k =>
          if slotRo s b.core a.s.toNat then trapsAt b s t .flatReadonly 0 0
          else if !copiesDone (afterIssue b s) t || copiesOn (afterIssue b s) b.core k then stalledAt b s t .drain
          else if (shareCores b.core a.mask).any fun c => (slotBank s c a.s2.toNat).isSome then wroteRegs b s t [(a.d.toNat, 1)]
          else sharedAt b s t a k) := by
  refine (word_sole h rfl _).trans ?_
  rw [show (issuedAs (.flatShare a) b s).core = b.core from rfl, slotBank_afterIssue h.issuing.place, slotRo_afterIssue h.issuing.place,
    stall_sole h]
  cases slotBank s b.core a.s.toNat <;> rfl

theorem sharedAt_spec {a : ShareArgs} {k : Nat} (hb : b.core < 256) (hk : k < 256) (hp : ∀ u, ((afterIssue b s).thread u).ports = .empty)
    (hw : ∀ u k d, ((afterIssue b s).thread u).why ≠ .take k d) :
    let s' := sharedAt b s t a k
    s'.threads = (wroteRegs b s t [(a.d.toNat, 0)]).threads ∧
    slotBank s' b.core a.s.toNat = some k ∧ slotRo s' b.core a.s.toNat = true ∧
    (∀ c ∈ shareCores b.core a.mask, slotBank s' c a.s2.toNat = some k ∧ slotRo s' c a.s2.toNat = true) ∧
    (∀ c j, c < 256 → j < 8 → (c, j) ≠ (b.core, a.s.toNat) → (c ∉ shareCores b.core a.mask ∨ j ≠ a.s2.toNat) →
      slotBank s' c j = slotBank (afterIssue b s) c j ∧ slotRo s' c j = slotRo (afterIssue b s) c j) ∧
    s'.flats = (afterIssue b s).flats ∧ s'.hbm = (afterIssue b s).hbm ∧ s'.groups = (afterIssue b s).groups := by
  have heq : sharedAt b s t a k = (attachAll (setSlot (afterIssue b s) b.core a.s.toNat (some (k, true))) a.s2.toNat (k, true)
      (shareCores b.core a.mask)).onThread t fun th => { th with v := th.v.set a.d.toNat 0 } := by
    rw [sharedAt, drainFlats_idle hp, foldl_attachWake (x := (k, true)) _ (setSlot (afterIssue b s) b.core a.s.toNat (some (k, true)))
      fun u => by rw [thread_setSlot]; exact hw u]
  have hrest := attachAll_rest a.s2.toNat (k, true) (shareCores b.core a.mask) (setSlot (afterIssue b s) b.core a.s.toNat (some (k, true)))
  have hread : ∀ c j, c < 256 → (slotBank (sharedAt b s t a k) c j, slotRo (sharedAt b s t a k) c j) =
      if j = a.s2.toNat ∧ c ∈ shareCores b.core a.mask then (some k, true)
      else if j = a.s.toNat ∧ c = b.core then (some k, true) else (slotBank (afterIssue b s) c j, slotRo (afterIssue b s) c j) := by
    intro c j hc
    rw [heq]
    have hset := slotRead_setSlot (s := afterIssue b s) (c := b.core) (k := a.s.toNat) (k' := j) (x := some (k, true)) hb hc (by simpa using hk)
    have hall := slotRead_attachAll (k := a.s2.toNat) (k' := j) (x := (k, true)) hk hc (shareCores b.core a.mask)
      (setSlot (afterIssue b s) b.core a.s.toNat (some (k, true))) fun d hd => (shareCores_spec hd hb).1
    rw [hset] at hall
    exact hall
  have hout : b.core ∉ shareCores b.core a.mask := fun h => (shareCores_spec h hb).2 rfl
  refine ⟨?_, ?_, ?_, fun c hc => ?_, fun c j hc _ hne hout => ?_, ?_, ?_, ?_⟩
  · have hthreads := (congrArg State.threads hrest :)
    rw [heq, onThread_threads, hthreads]
    rfl
  · have h := hread b.core a.s.toNat hb
    simp only [hout, and_false, if_false, and_self, if_true, Prod.mk.injEq] at h
    exact h.1
  · have h := hread b.core a.s.toNat hb
    simp only [hout, and_false, if_false, and_self, if_true, Prod.mk.injEq] at h
    exact h.2
  · have h := hread c a.s2.toNat (shareCores_spec hc hb).1
    simpa only [hc, and_self, if_true, Prod.mk.injEq] using h
  · have h := hread c j hc
    rw [if_neg (fun hx => hout.elim (fun h => h hx.2) fun h => h hx.1), if_neg fun hx => hne (by rw [hx.1, hx.2])] at h
    exact Prod.mk.inj h
  · rw [heq]; exact (congrArg State.flats hrest :)
  · rw [heq]; exact (congrArg State.hbm hrest :)
  · rw [heq]; exact (congrArg State.groups hrest :)

end

/-! ### The give point -/

theorem Sparse.find?_of_mem_items {α : Type} {m : Sparse α} {k : Nat} {x : α} (hn : m.keys.Nodup) (h : (k, x) ∈ m.items) : m.find? k = some x := by
  obtain ⟨l⟩ := m
  simp only [Sparse.keys, Sparse.find?] at *
  induction l with
  | nil => cases h
  | cons e l ih =>
    obtain ⟨j, y⟩ := e
    obtain ⟨hj, hl⟩ := List.nodup_cons.1 hn
    obtain h | h := List.mem_cons.1 h
    · obtain ⟨rfl, rfl⟩ := Prod.mk.inj h
      simp [findIn]
    · have hne : j ≠ k := fun hjk => hj (hjk ▸ List.mem_map.2 ⟨(k, x), h, rfl⟩)
      simp only [findIn, if_neg hne]
      exact ih hl h

section
variable {s : State} {t c n k k2 c2 d : Nat} {iw : Dword}

/-- R140: no earlier give of a slot waits. -/
def giveFirst (s : State) (c n k : Nat) : Bool := s.threads.values.all fun x => match x.why with
  | .give o m j _ _ _ _ => o != c || j != k || decide (n ≤ m)
  | _ => true

/-- R140: what a give waits for: a pass that reads the bank, a copy on it, and its thread's own copies. -/
def giveHeld (s : State) (t c k : Nat) : Bool := match slotBank s c k with
  | some b => slotPassing s c k || copiesOn s c b || !copiesDone s t
  | none => false

/-- R140: the one give there is comes first. -/
theorem giveFirst_only (hn : s.threads.keys.Nodup) (ho : ∀ u, u ≠ t → (s.thread u).why = .none) (hw : (s.thread t).why = .give c n k k2 c2 d iw) :
    giveFirst s c n k = true := by
  refine List.all_eq_true.2 fun x hx => ?_
  obtain ⟨⟨u, y⟩, hm, rfl⟩ := List.mem_map.1 hx
  have hy : s.thread u = y := by simp [State.thread, Sparse.findD, Sparse.find?_of_mem_items hn hm]
  dsimp only
  by_cases hu : u = t
  · rw [← hy, hu, hw]
    simp
  · rw [← hy, ho u hu]

/-- R140, R241: the give point of the one give there is, once what holds it is done. -/
theorem exec_flatGivePoint (hh : (s.thread t).held = .stalled) (hw : (s.thread t).why = .give c n k k2 c2 d iw)
    (hn : s.threads.keys.Nodup) (ho : ∀ u, u ≠ t → (s.thread u).why = .none)
    (hd : giveHeld s t c k = false ∨ giveRefused s c k c2 k2 ≠ none) :
    exec (.flatGivePoint t) s = .next (match giveAt s c k c2 k2 with
      | (some x, s) => release8 (s.onThread t fun th => { th with v := th.v.set d (BitVec.ofNat 32 x) }) t
      | (none, s1) => takeTrap s1 t ⟨.flatDetached, (s.thread t).pc, iw, 0, 0, false⟩) := by
  have hpoint : exec (.flatGivePoint t) s = .next (if !giveFirst s c n k || (giveHeld s t c k && (giveRefused s c k c2 k2).isNone) then s
      else match giveAt s c k c2 k2 with
        | (some x, s) => release8 (s.onThread t fun th => { th with v := th.v.set d (BitVec.ofNat 32 x) }) t
        | (none, s1) => takeTrap s1 t ⟨.flatDetached, (s.thread t).pc, iw, 0, 0, false⟩) := by
    change execFlatGivePoint t s = _
    unfold execFlatGivePoint
    simp only [hh, hw] <;> rfl
  have hgo : (giveHeld s t c k && (giveRefused s c k c2 k2).isNone) = false := by
    obtain h | h := hd
    · rw [h, Bool.false_and]
    · obtain ⟨x, hx⟩ := Option.ne_none_iff_exists'.1 h
      rw [hx, Option.isNone_some, Bool.and_false]
  rw [hpoint, giveFirst_only hn ho hw, hgo] <;> rfl

/-- R241: the status of a give and what it does to the slots. -/
theorem giveAt_spec {bank : Nat} (hc : c < 256) (hc2 : c2 < 256) (hp : ∀ u, (s.thread u).ports = .empty)
    (hw : ∀ u k d, (s.thread u).why ≠ .take k d) (hb : slotBank s c k = some bank) :
    ∃ x s', giveAt s c k c2 k2 = (some x, s') ∧ { s' with sys := s.sys } = s ∧
      (dieOf c2 ≠ dieOf c ∨ s.corePart c2 ≠ s.corePart c → x = 2 ∧ s' = s) ∧
      (dieOf c2 = dieOf c → s.corePart c2 = s.corePart c → slotRo s c k = true → 1 < (attachments s (dieOf c) bank).length →
        x = 4 ∧ slotBank s' c k = none) ∧
      (dieOf c2 = dieOf c → s.corePart c2 = s.corePart c → slotRo s c k = false ∨ (attachments s (dieOf c) bank).length ≤ 1 →
        (slotBank s c2 k2 ≠ none → x = 1 ∧ s' = s) ∧
        (slotBank s c2 k2 = none → x = 0 ∧ slotBank s' c k = none ∧ slotBank s' c2 k2 = some bank ∧ slotRo s' c2 k2 = false)) := by
  have hx : bank < 256 := slotBank_lt hb
  by_cases hdie : dieOf c2 ≠ dieOf c ∨ s.corePart c2 ≠ s.corePart c
  · have hr : giveRefused s c k c2 k2 = some 2 := by simp only [giveRefused, hb, if_pos hdie]
    refine ⟨2, s, by simp only [giveAt, hb, hr], rfl, fun _ => ⟨rfl, rfl⟩, fun h1 h2 => ?_, fun h1 h2 => ?_⟩
    · exact absurd hdie (by simp [h1, h2])
    · exact absurd hdie (by simp [h1, h2])
  · by_cases hshared : (slotRo s c k && decide (1 < (attachments s (dieOf c) bank).length)) = true
    · have hr : giveRefused s c k c2 k2 = none := by simp only [giveRefused, hb, if_neg hdie, if_pos hshared]
      have hset := slotRead_setSlot (s := s) (k := k) (k' := k) (x := none) hc hc (by simp)
      simp only [and_self, if_true, slotHeld, Prod.mk.injEq] at hset
      refine ⟨4, setSlot s c k none, by simp only [giveAt, hb, hr, if_pos hshared], rfl, fun h => absurd h hdie, fun _ _ _ _ => ⟨rfl, hset.1⟩,
        fun _ _ h => ?_⟩
      simp only [Bool.and_eq_true, decide_eq_true_eq] at hshared
      obtain h | h := h
      · simp [h] at hshared
      · omega
    · have hlone : ∀ P : Prop, slotRo s c k = true → 1 < (attachments s (dieOf c) bank).length → P := fun P h1 h2 => by simp [h1, h2] at hshared
      cases hb2 : slotBank s c2 k2 with
      | some b2 =>
        have hr : giveRefused s c k c2 k2 = some 1 := by simp [giveRefused, hb, hdie, hshared, hb2]
        exact ⟨1, s, by simp only [giveAt, hb, hr], rfl, fun h => absurd h hdie, fun _ _ => hlone _, fun _ _ _ => ⟨fun _ => ⟨rfl, rfl⟩, nofun⟩⟩
      | none =>
        have hr : giveRefused s c k c2 k2 = none := by simp [giveRefused, hb, hdie, hshared, hb2]
        have hgive : giveAt s c k c2 k2 = (some 0, setSlot (setSlot s c k none) c2 k2 (some (bank, false))) := by
          simp only [giveAt, hb, hr, if_neg hshared, drainFlats_idle hp]
          rw [attachWake_idle (s := setSlot (setSlot s c k none) c2 k2 (some (bank, false))) hw]
        have hne : ¬ (k = k2 ∧ c = c2) := by rintro ⟨rfl, rfl⟩; rw [hb] at hb2; cases hb2
        have hfrom := slotRead_setSlot (s := s) (k := k) (k' := k) (x := none) hc hc (by simp)
        have hkeep := slotRead_setSlot (s := setSlot s c k none) (k := k2) (k' := k) (x := some (bank, false)) hc2 hc (by simpa using hx)
        have hto := slotRead_setSlot (s := setSlot s c k none) (k := k2) (k' := k2) (x := some (bank, false)) hc2 hc2 (by simpa using hx)
        rw [if_neg hne, hfrom] at hkeep
        simp only [and_self, if_true, slotHeld, Prod.mk.injEq] at hkeep hto
        exact ⟨0, _, hgive, rfl, fun h => absurd h hdie, fun _ _ => hlone _, fun _ _ _ => ⟨fun h => absurd rfl h, fun _ => ⟨rfl, hkeep.1, hto⟩⟩⟩


/-- R241: the state after a give point: its thread has the status and goes on, only the slots' words have changed besides. -/
theorem given_frame {x : Nat} {s' : State} (hh : s.threads.has t = true) (hr : { s' with sys := s.sys } = s) :
    let s2 := release8 (s'.onThread t fun th => { th with v := th.v.set d (BitVec.ofNat 32 x) }) t
    s2.flats = s.flats ∧ s2.groups = s.groups ∧ s2.sys = s'.sys ∧ (∀ u, u ≠ t → s2.thread u = s.thread u) ∧
    s2.thread t = { s.thread t with
      v := (s.thread t).v.set d (BitVec.ofNat 32 x), held := .ready, why := .none, pc := (s.thread t).pc + 8, readyAt := s.clk, passed := 0 } := by
  have hthreads : s'.threads = s.threads := (congrArg State.threads hr :)
  have hth : ∀ u, s'.thread u = s.thread u := fun u => by rw [State.thread, hthreads, State.thread]
  have hclk : s'.clk = s.clk := (congrArg State.clk hr :)
  have hh' : (s'.onThread t fun th => { th with v := th.v.set d (BitVec.ofNat 32 x) }).threads.has t = true := by simpa [hthreads] using hh
  refine ⟨(congrArg State.flats hr :), (congrArg State.groups hr :), rfl, fun u hu => ?_, ?_⟩
  · rw [release8, queueBlock, thread_onBlock, setReady, thread_onThread_ne _ _ _ _ hu, thread_onThread_ne _ _ _ _ hu,
      thread_onThread_ne _ _ _ _ hu, hth]
  · rw [release8_thread_eq hh', thread_onThread_self _ _ _ (by rw [hthreads]; exact hh), hth, onThread_clk, hclk]
    rfl

end

/-- Settles O22: the words by their cases, a share by `sharedAt_spec`, the give point by `exec_flatGivePoint` and `giveAt_spec`. -/
theorem flatSlots : Obligations.FlatSlots := by
  refine ⟨fun a b s t hs => ⟨fun k hk => ?_, fun hk => ?_⟩, fun a b s t hs => ?_,
    fun a b s t hs => ⟨fun hk => ?_, fun k hk => ⟨fun hr => ?_, fun hr hd => ?_, fun hr hd hc ⟨c, hm, hb⟩ => ?_, fun hr hd hc hfree hb hp hw => ?_⟩⟩,
    fun a b s t hs => ⟨fun hk => ?_, fun hk => ?_⟩, fun s t c n k k2 c2 d iw hh hs hw hn ho hk => ?_,
    fun s t c n k k2 c2 d iw bank hh hc hc2 _ _ hs hw hn ho hp hk hd => ?_⟩
  · rw [exec_flatTake hs, hk]
  · rw [exec_flatTake hs, hk]
  · exact exec_flatStat hs
  · rw [exec_flatShare hs, hk]
  · rw [exec_flatShare hs, hk]
    simp only [hr, if_true]
  · have hwait : (!copiesDone (afterIssue b s) t || copiesOn (afterIssue b s) b.core k) = true := by
      obtain h | h := hd <;> simp [h]
    rw [exec_flatShare hs, hk]
    simp only [hr, Bool.false_eq_true, if_false, hwait, if_true]
  · have hgo : (!copiesDone (afterIssue b s) t || copiesOn (afterIssue b s) b.core k) = false := by simp [hd, hc]
    rw [← shareCores_eq] at hm
    have htaken : ((shareCores b.core a.mask).any fun c => (slotBank s c a.s2.toNat).isSome) = true :=
      List.any_eq_true.2 ⟨c, hm, by simpa [Option.isSome_iff_ne_none] using hb⟩
    rw [exec_flatShare hs, hk]
    simp only [hr, Bool.false_eq_true, if_false, hgo, htaken, if_true]
  · have hgo : (!copiesDone (afterIssue b s) t || copiesOn (afterIssue b s) b.core k) = false := by simp [hd, hc]
    rw [← shareCores_eq] at hfree ⊢
    have hnone : ((shareCores b.core a.mask).any fun c => (slotBank s c a.s2.toNat).isSome) = false := by
      rw [List.any_eq_false]
      exact fun c hm => by simp [hfree c hm]
    refine ⟨_, ?_, sharedAt_spec hb (slotBank_lt hk) hp hw⟩
    rw [exec_flatShare hs, hk]
    simp only [hr, Bool.false_eq_true, if_false, hgo, hnone]
  · rw [exec_flatGive hs _ rfl, hk] <;> rfl
  · rw [exec_flatGive hs _ rfl, if_neg (by simpa using hk)] <;> rfl
  · rw [exec_flatGivePoint hs hw hn ho (.inl (by simp [giveHeld, hk]))]
    simp only [giveAt, hk]
  · have hno : ∀ u k d, (s.thread u).why ≠ .take k d := fun u j e h => by
      by_cases hu : u = t
      · rw [hu, hw] at h; cases h
      · rw [ho u hu] at h; cases h
    obtain ⟨x, s', hg, hr, hbad, hshared, hfree⟩ := giveAt_spec hc hc2 hp hno hk
    have hgo : giveHeld s t c k = false ∨ giveRefused s c k c2 k2 ≠ none := hd.imp_left fun ⟨h1, h2, h3⟩ => by simp [giveHeld, hk, h1, h2, h3]
    obtain ⟨hfl, hgr, hsys, hothers, hself⟩ := given_frame (d := d) (x := x) hh hr
    refine ⟨_, (exec_flatGivePoint hs hw hn ho hgo).trans (by rw [hg]), hfl, hgr, hothers, BitVec.ofNat 32 x, hself,
      fun h => ?_, fun h1 h2 h3 h4 => ?_, fun h1 h2 h3 => ⟨fun h => ?_, fun h => ?_⟩⟩
    · obtain ⟨rfl, rfl⟩ := hbad h
      exact ⟨rfl, hsys⟩
    · obtain ⟨rfl, hnone⟩ := hshared h1 h2 h3 h4
      exact ⟨rfl, hnone⟩
    · obtain ⟨rfl, rfl⟩ := (hfree h1 h2 h3).1 h
      exact ⟨rfl, hsys⟩
    · obtain ⟨rfl, hslots⟩ := (hfree h1 h2 h3).2 h
      exact ⟨rfl, hslots⟩

end Sys2Proof.Machine

/-! ### Scale-out (O46: R248, R283, R284, R393..R395) -/

namespace Sys2Proof.Machine

/-! ### Pulls, tiles and acknowledgements -/

section
variable {s : State} {m : UeMsg}

/-- R284: a pull whose record has none left, or whose tile leaves. -/
theorem exec_uePullRequest {r : ReadyRec} (hr : ((s.part m.part).ready.find? fun r => r.tid == m.tid) = some r) :
    exec (.uePullRequest m) s = .next (if r.rcnt ≤ r.pulls + r.asked.length then s
      else match tileBytes s r with
        | (.ok b, s) => (onReady s m.part m.tid fun r => { r with asked := r.asked ++ [(m.rank, s.clk)] }).send (.tile m.part m.rank m.tid b)
        | (_, s) => s) := by
  change execUePullRequest m s = _
  unfold execUePullRequest
  simp only [hr] <;> rfl

/-- R284: the tile a collective of the partition has asked a rank for. -/
theorem exec_ueTileData {id : Nat} {cp : Copy} (hf : (s.copies.items.find? fun e =>
      e.2.kind == .coll && e.2.part == m.part && e.2.desc.getD 2 0 == m.tid && e.2.asked.isSome && !e.2.pulled.has m.rank
        && m.rank != selfRank s m.part && (collSources s m.part e.2.desc).contains m.rank) = some (id, cp)) :
    exec (.ueTileData m) s = .next (
      if m.val ≠ fieldOf cp.desc 3 23 0 ∨ m.data.length ≠ fieldOf cp.desc 3 23 0 * fieldOf cp.desc 4 23 0 then
        copyDone (s.send (.ack m.part m.rank m.tid)) id cp 0 (some (.cpDesc, 0)) []
      else { s.send (.ack m.part m.rank m.tid) with copies := s.copies.set id { cp with pulled := cp.pulled.set m.rank m.data } }) := by
  change execUeTileData m s = _
  unfold execUeTileData
  simp only [hf] <;> rfl

/-- R283: the acknowledgement of a tile counts as a pull of the record it was of. -/
theorem exec_ueAcknowledgement_tile (hm : m.step = false) : exec (.ueAcknowledgement m) s =
    .next (s.onPart m.part fun x => { x with ready := x.ready.map fun r =>
      if r.tid = m.tid then ((r.asked.find? fun y => y.1 == m.rank).map fun y => { r with asked := r.asked.erase y, pulls := r.pulls + 1 }).getD r
      else r }) := by
  have hone : ∀ r : ReadyRec, (if r.tid == m.tid then (match r.asked.find? fun x => x.1 == m.rank with
        | some x => { r with asked := r.asked.erase x, pulls := r.pulls + 1 }
        | none => r) else r) =
      if r.tid = m.tid then ((r.asked.find? fun y => y.1 == m.rank).map fun y => { r with asked := r.asked.erase y, pulls := r.pulls + 1 }).getD r
      else r := fun r => by
    cases r.asked.find? (fun y => y.1 == m.rank) <;> simp
  change execUeAcknowledgement m s = _
  unfold execUeAcknowledgement onReady
  simp only [hm, Bool.false_eq_true, if_false]
  congr 3
  funext x
  congr 2
  exact funext hone

/-- R395: the acknowledgement of a superstep message drops what was kept of it. -/
theorem ueAcknowledgement_step (hm : m.step = true) : ∃ s', exec (.ueAcknowledgement m) s = .next s' ∧
    (s'.part m.part).ready = (s.part m.part).ready ∧
    (∀ x, x ∈ (s'.part m.part).steps ↔ x ∈ (s.part m.part).steps ∧ ¬(x.rank = m.rank ∧ x.obj = m.obj.toNat ∧ x.gen = m.val % 256)) ∧
    s'.threads = s.threads ∧ s'.copies = s.copies ∧ s'.hbm = s.hbm := by
  have heq : exec (.ueAcknowledgement m) s =
      .next (s.onPart m.part fun x => { x with steps := x.steps.filter fun y => !y.about m.rank m.obj.toNat (m.val % 256) }) := by
    change execUeAcknowledgement m s = _
    unfold execUeAcknowledgement
    rw [if_pos hm]
  refine ⟨_, heq, by simp, fun x => ?_, rfl, rfl, rfl⟩
  simp [StepMsg.about]
  tauto

end

/-! ### Supersteps -/

section
variable {s : State} {p va g : Nat}

theorem superPeers_congr {s' : State} (hs : s'.sys = s.sys) (hr : (s'.part p).ranks = (s.part p).ranks) : superPeers s' p = superPeers s p := by
  have hbits : ∀ hi lo, sysBits s' RegNo.uepGrp p hi lo = sysBits s RegNo.uepGrp p hi lo := fun hi lo => by
    rw [sysBits, sysGet, hs, sysBits, sysGet]
  simp only [superPeers, hbits, hr]

theorem superPeers_onPart_peers (f : Part → Sparse Nat) : superPeers (s.onPart p fun x => { x with peers := f x }) p = superPeers s p :=
  superPeers_congr rfl (by simp)

theorem superCheck_unmet (h : (((s.part p).supers.findD va 0).testBit g &&
    (superPeers s p).all fun r => ((s.part p).peers.findD (peerKey r va) 0).testBit g) = false) : superCheck s p va g = s := by
  simp only [superCheck, h, Bool.false_eq_true, if_false]

theorem foldl_send {α : Type} (f : α → Msg) (l : List α) : ∀ s : State,
    l.foldl (fun s r => s.send (f r)) s = s.onPkg fun y => { y with sent := y.sent ++ l.map f } := by
  induction l with
  | nil => exact fun s => by simp [State.onPkg]
  | cons r l ih =>
    intro s
    rw [List.foldl_cons, ih, State.send]
    simp [State.onPkg, List.append_assoc]

/-- R248, R395: the partition's own completion of a GEN, while another rank has not completed it. -/
theorem superOwn_spec (h : ∃ r ∈ superPeers s p, ((s.part p).peers.findD (peerKey r va) 0).testBit g = false) :
    let s' := superOwn s p va g
    (s'.part p).steps = (s.part p).steps ++ (superPeers s p).map (fun r => ⟨r, va, g, s.clk⟩) ∧
    s'.pkg.sent = s.pkg.sent ++ (superPeers s p).map (fun r => .superstep p r va g) ∧ s'.threads = s.threads := by
  obtain ⟨r, hr, hn⟩ := h
  let s0 := s.onPart p fun x => { x with
    supers := x.supers.update va 0 fun n => n ||| 2 ^ g
    steps := x.steps ++ (superPeers s p).map fun r => ⟨r, va, g, s.clk⟩ }
  let s1 := s0.onPkg fun y => { y with sent := y.sent ++ (superPeers s p).map fun r => .superstep p r va g }
  have hpart : s1.part p = { s.part p with
      supers := (s.part p).supers.update va 0 fun n => n ||| 2 ^ g
      steps := (s.part p).steps ++ (superPeers s p).map fun r => ⟨r, va, g, s.clk⟩ } := by
    change s0.part p = _
    rw [part_onPart, if_pos rfl]
  have hpeers : superPeers s1 p = superPeers s p := superPeers_congr rfl (by rw [hpart])
  have hunmet : (((s1.part p).supers.findD va 0).testBit g &&
      (superPeers s1 p).all fun r => ((s1.part p).peers.findD (peerKey r va) 0).testBit g) = false := by
    have hall : ((superPeers s1 p).all fun r => ((s1.part p).peers.findD (peerKey r va) 0).testBit g) = false := by
      rw [hpeers, hpart, List.all_eq_false]
      exact ⟨r, hr, by simpa using hn⟩
    rw [hall, Bool.and_false]
  have heq : superOwn s p va g = s1 := by
    have hfold : (superPeers s0 p).foldl (fun s r => s.send (.superstep p r va g)) s0 = s1 := by
      rw [show superPeers s0 p = superPeers s p from hpeers, foldl_send]
    exact (congrArg (superCheck · p va g) hfold).trans (superCheck_unmet hunmet)
  rw [heq]
  exact ⟨by rw [hpart], rfl, rfl⟩

/-- R248: what a thread at a barrier reads of it, once the superstep is complete. -/
def superRead (s : State) (t : Nat) : List Nat × State := match (s.thread t).why with
  | .bar l _ _ _ _ => readNewest s t { l with ia := l.ia + 4 } 4
  | _ => ([], s)

theorem superRead_threads (s : State) (t : Nat) : (superRead s t).2.threads = s.threads := by
  unfold superRead
  split <;> rfl

/-- R248: a thread whose superstep is complete reads what the barrier wrote and goes on. -/
def superWake (s : State) (t : Nat) : State :=
  release8 (acquire (superRead s t).2 t .sys (relsOf (superRead s t).2 (superRead s t).1) false) t

/-- The threads of a partition that wait for a GEN of an object. -/
def superWaiters (s : State) (p va g : Nat) : List Nat := s.threads.keys.filter fun t => s.partOf t == p && match (s.thread t).why with
  | .bar _ v gen true _ => v == va && gen == g
  | _ => false

/-- The GEN of a complete superstep is taken back. -/
def superCleared (s : State) (p va g : Nat) : State := s.onPart p fun x =>
  { x with
    supers := x.supers.modify va fun n => if n.testBit g then n - 2 ^ g else n
    peers := (superPeers s p).foldl (fun m r => m.modify (peerKey r va) fun n => if n.testBit g then n - 2 ^ g else n) x.peers }

theorem superCheck_met (h : (((s.part p).supers.findD va 0).testBit g &&
    (superPeers s p).all fun r => ((s.part p).peers.findD (peerKey r va) 0).testBit g) = true) :
    superCheck s p va g = (superWaiters (superCleared s p va g) p va g).foldl superWake (superCleared s p va g) := by
  unfold superCheck
  simp only [h, if_true] <;> rfl

/-- What a wake-up does before its thread goes on: what threads and cores have read. -/
theorem superWake_reads (s : State) (t : Nat) : ∃ s1, superWake s t = release8 s1 t ∧
    (∀ u, s1.thread u = { s.thread u with snap := (s1.thread u).snap }) ∧ ∀ u, s1.threads.has u = s.threads.has u := by
  have hth : ∀ u, (superRead s t).2.thread u = s.thread u := fun u => by rw [State.thread, superRead_threads, State.thread]
  refine ⟨_, rfl, fun u => ?_, fun u => ?_⟩
  · rw [(SnapsOnly.acquire (superRead s t).2 t .sys _ false).thread u, hth u]
  · rw [(Wakes.acquire (K := fun _ => False) (superRead s t).2 t .sys _ false).has, superRead_threads]

theorem foldl_superWake_spec (ts : List Nat) : ∀ s : State, ts.Nodup →
    (∀ u ∈ ts, s.threads.has u = true → ((ts.foldl superWake s).thread u).held = .ready ∧
      ((ts.foldl superWake s).thread u).pc = (s.thread u).pc + 8 ∧ ((ts.foldl superWake s).thread u).v = (s.thread u).v) ∧
    (∀ u, u ∉ ts → ((ts.foldl superWake s).thread u).held = (s.thread u).held ∧
      ((ts.foldl superWake s).thread u).pc = (s.thread u).pc ∧ ((ts.foldl superWake s).thread u).v = (s.thread u).v) := by
  induction ts with
  | nil => exact fun s _ => ⟨fun _ h => absurd h (by simp), fun _ _ => ⟨rfl, rfl, rfl⟩⟩
  | cons t ts ih =>
    intro s hn
    obtain ⟨ht, hts⟩ := List.nodup_cons.1 hn
    obtain ⟨s1, heq, hth, hhas⟩ := superWake_reads s t
    obtain ⟨hin, hout⟩ := ih (superWake s t) hts
    have hother : ∀ u, u ≠ t → (superWake s t).thread u = { s.thread u with snap := (s1.thread u).snap } := fun u hu => by
      rw [heq, release8_thread_ne _ hu, hth u]
    refine ⟨fun u hu hh => ?_, fun u hu => ?_⟩
    · rw [List.foldl_cons]
      by_cases hut : u = t
      · subst hut
        obtain ⟨h1, h2, h3⟩ := hout u ht
        rw [h1, h2, h3, heq, release8_thread_eq (by rw [hhas]; exact hh), hth u]
        exact ⟨rfl, rfl, rfl⟩
      · have hkeep : (superWake s t).threads.has u = true := by
          rw [heq, (Wakes.release8 (K := fun _ => False) s1 t id).has, hhas]
          exact hh
        obtain ⟨h1, h2, h3⟩ := hin u ((List.mem_cons.1 hu).resolve_left hut) hkeep
        rw [h1, h2, h3, hother u hut]
        exact ⟨rfl, rfl, rfl⟩
    · obtain ⟨hne, hnot⟩ := not_or.1 (mt List.mem_cons.2 hu)
      obtain ⟨h1, h2, h3⟩ := hout u hnot
      rw [List.foldl_cons, h1, h2, h3, hother u hne]
      exact ⟨rfl, rfl, rfl⟩

/-- R248: the threads of a complete superstep go on. -/
theorem superCheck_completes (h : (((s.part p).supers.findD va 0).testBit g &&
    (superPeers s p).all fun r => ((s.part p).peers.findD (peerKey r va) 0).testBit g) = true) {t : Nat} {l : Loc} {sc : Scope}
    (hw : (s.thread t).why = .bar l va g true sc) (hp : s.partOf t = p) (hh : s.threads.has t = true) (hn : s.threads.keys.Nodup) :
    ((superCheck s p va g).thread t).held = .ready ∧ ((superCheck s p va g).thread t).pc = (s.thread t).pc + 8 ∧
      ((superCheck s p va g).thread t).v = (s.thread t).v := by
  have hmem : t ∈ superWaiters (superCleared s p va g) p va g := by
    refine List.mem_filter.2 ⟨(Sparse.mem_keys _ _).2 hh, ?_⟩
    change (s.partOf t == p && match (s.thread t).why with
      | .bar _ v gen true _ => v == va && gen == g
      | _ => false) = true
    rw [hw, hp]
    simp
  rw [superCheck_met h]
  exact (foldl_superWake_spec _ _ (hn.sublist List.filter_sublist)).1 t hmem hh

end

/-! ### Timeouts, the group, ports -/

theorem exec_scaleoutTimeout {s : State} {w : UeWait} {p r c : Nat} (h : waitSince s w = some (p, r, c)) :
    exec (.scaleoutTimeout w) s = .next (if sysBits s RegNo.uepTmo p 15 0 * 1250000 ≤ s.clk - c then hlkErr s p 2 r else s) := by
  change execScaleoutTimeout w s = _
  unfold execScaleoutTimeout
  rw [h]

/-- R284, R395: a pull waits from the time it was asked for. -/
theorem waitSince_pull {s : State} {id c r : Nat} {cp : Copy} (hc : s.copies.find? id = some cp) (hk : cp.kind = .coll) (ha : cp.asked = some c)
    (hr : ((collSources s cp.part cp.desc).find? fun r => r != selfRank s cp.part && !cp.pulled.has r) = some r) :
    waitSince s (.pull id) = some (cp.part, r, c) := by
  simp only [waitSince, hc, hk, ha, hr]

theorem waitSince_tile {s : State} {p rank : Nat} {tid : Word} {r : ReadyRec} {x : Nat × Nat}
    (hr : ((s.part p).ready.find? fun r => r.tid == tid) = some r) (hx : (r.asked.find? fun x => x.1 == rank) = some x) :
    waitSince s (.tile p rank tid) = some (p, rank, x.2) := by
  simp only [waitSince, hr, hx, Option.map_some]

theorem waitSince_step {s : State} {p : Nat} {x : StepMsg} {obj : Dword} (ho : obj.toNat = x.obj) (hx : (s.part p).steps = [x]) :
    waitSince s (.step p x.rank obj x.gen) = some (p, x.rank, x.sent) := by
  simp [waitSince, hx, StepMsg.about, ho]

theorem regWrite_uepGrp (s : State) (who : Requester) (p k : Nat) (x : Dword) :
    regWrite s who p RegNo.uepGrp k x = groupWrite s k x := rfl

theorem exec_uepGroupEnable {s : State} {a : RegAcc} {k p : Nat} {x : Dword} (h : WritesReg s a RegNo.uepGrp k p x) (hx : x.getLsbD 63 = true) :
    exec (.uepGroupEnable a) s = .next ((groupWrite s k x).getD s) := by
  have hrow : (a.reg.toNat == RegNo.uepGrp && a.val.toNat.testBit 63) = true := by
    rw [h.reg, h.value, beq_self_eq_true, Bool.true_and]
    exact hx
  change Host.Outcome.next (if a.reg.toNat == RegNo.uepGrp && a.val.toNat.testBit 63 then linkWrite s a else s) = _
  rw [if_pos hrow, linkWrite_admitted h, regWrite_uepGrp]

/-- R394: an enable of a partition's group. -/
theorem groupWrite_enable (s : State) (p : Nat) {x : Dword} (hx : x.getLsbD 63 = true) :
    let new := regStored RegNo.uepGrp ⟨.part, false, true, maskBits 63 63 + maskBits 59 24 + maskBits 11 0, 0, true, false⟩ (sysGet s RegNo.uepGrp p) x
    groupWrite s p x = if groupBusy s p then some (sysPutBits s RegNo.uepGrp p 62 61 1)
      else match readTable s p x with
        | (.wait, _) => none
        | (.invalid, s) => some (sysPut s RegNo.uepGrp p (putBits (putBits new 63 63 0) 62 61 2))
        | (.ranks l, s) => some ((sysPut s RegNo.uepGrp p (putBits new 62 61 0)).onPart p fun y => { y with ranks := l }) := by
  unfold groupWrite
  simp only [hx, Bool.not_true, Bool.false_eq_true, if_false] <;> rfl

/-- Settles O46: each event by its equation, supersteps by `superOwn_spec` and `superCheck_completes`. -/
theorem scaleOut : Obligations.ScaleOut := by
  refine ⟨fun m s r hr => ⟨fun hfull => ?_, fun hleft s1 x hx => ?_⟩, fun m s id cp hf => ⟨fun hok => ?_, fun hbad => ?_⟩,
    fun m s hm => exec_ueAcknowledgement_tile hm, fun m s hm => ueAcknowledgement_step hm, fun s p va g h => superOwn_spec h,
    fun m s => ⟨fun hs => ?_, fun hs hp => ?_⟩, fun s id cp c r hc hk ha hr => ⟨fun h => ?_, fun h => ?_⟩,
    fun s p rank tid r x hr hx => ⟨fun h => ?_, fun h => ?_⟩, fun s p x obj ho hx => ⟨fun h => ?_, fun h => ?_⟩,
    fun s a k p x h hx => ⟨fun hb => ?_, fun hb => ⟨fun s1 ht => ?_, fun s1 l ht => ?_⟩⟩,
    fun s port up => ⟨fun hp ht => ?_, fun ht => ?_⟩⟩
  · rw [exec_uePullRequest hr, if_pos hfull]
  · rw [exec_uePullRequest hr, if_neg (by omega), hx]
  · rw [exec_ueTileData hf, if_neg (by simp [hok.1, hok.2])]
  · rw [exec_ueTileData hf, if_pos hbad]
  · exact congrArg _ (superCheck_unmet (by simp [hs]))
  · refine ⟨_, rfl, fun t l sc hw ht hh hn => superCheck_completes ?_ hw ht hh hn⟩
    rw [Bool.and_eq_true, List.all_eq_true, superPeers_onPart_peers]
    exact ⟨by simpa using hs, hp⟩
  · rw [exec_scaleoutTimeout (waitSince_pull hc hk ha hr), if_pos h]
  · rw [exec_scaleoutTimeout (waitSince_pull hc hk ha hr), if_neg (by omega)]
  · rw [exec_scaleoutTimeout (waitSince_tile hr hx), if_pos h]
  · rw [exec_scaleoutTimeout (waitSince_tile hr hx), if_neg (by omega)]
  · rw [exec_scaleoutTimeout (waitSince_step ho hx), if_pos h]
  · rw [exec_scaleoutTimeout (waitSince_step ho hx), if_neg (by omega)]
  · rw [exec_uepGroupEnable h hx, groupWrite_enable s k hx, if_pos hb]
    rfl
  · rw [exec_uepGroupEnable h hx, groupWrite_enable s k hx, if_neg (by simp [hb]), ht]
    rfl
  · rw [exec_uepGroupEnable h hx, groupWrite_enable s k hx, if_neg (by simp [hb]), ht]
    rfl
  · exact congrArg _ (if_pos ⟨hp, ht⟩)
  · exact congrArg _ (if_neg fun h => ht h.2)

end Sys2Proof.Machine

/-! ### Copies and collectives (O45: R233, R234, R282..R285) -/

namespace Sys2Proof.Machine

/-! ### cp.ready and cp.coll -/

theorem release_hist_next (s : State) (t : Nat) (sc : Scope) (f : Bool) (own : List Nat) :
    (release s t sc f own).2.hist.next = s.hist.next := by
  unfold release publish releaseSet
  dsimp only
  split <;> rfl

theorem releaseMem_hist_next (s : State) (t : Nat) (sc : Scope) (f : Bool) : (releaseMem s t sc f).2.hist.next = s.hist.next := by
  unfold releaseMem
  dsimp only
  split
  · exact release_hist_next (s.send .hostFlush) t sc f []
  · exact release_hist_next s t sc f []

section
variable {b : Bundle} {s : State} {t : Nat}

/-- R283: the record cp.ready lists. -/
def readyRec (s : State) (t : Nat) (d : List Word) : ReadyRec :=
  ⟨d.getD 2 0, dwordAt d 0, fieldOf d 3 23 0, fieldOf d 4 23 0, d.getD 5 0, fieldOf d 6 15 0, 0, [], dwordAt d 8, s.ctxOf t, t, s.hist.next⟩

/-- R283: cp.ready of one thread: a trap, or a release at .sys and a record. -/
theorem exec_cpReady {a : DescArgs} (h : Sole (.cpReady a) b s t) {d : List Word} (hd : descAt ((afterIssue b s).groupOf t) a.k.toNat 16 = d) :
    exec (.cpReady a) s = .next (if readyOk d = false then trapsAt b s t .cpDesc 0 0
      else (releaseMem (afterIssue b s) t .sys false).2.onPart ((afterIssue b s).partOf t) fun x =>
        { x with ready := x.ready ++ [readyRec (releaseMem (afterIssue b s) t .sys false).2 t d] }) := by
  obtain ⟨-, -, -, hready⟩ := h.thread
  refine (word_issues h.issuing rfl _).trans (congrArg _ ?_)
  simp only [show (issuedAs (.cpReady a) b s).active = [t] from h.active, hd, trapAll, eachActive, List.foldl_cons, List.foldl_nil,
    hready, trap_sole]
  cases readyOk d <;> rfl

/-- R283: the state in which a record has been listed. -/
theorem readyListed_spec (s : State) (t : Nat) (d : List Word) :
    let s1 := (releaseMem s t .sys false).2
    let s' := s1.onPart (s.partOf t) fun x => { x with ready := x.ready ++ [readyRec s1 t d] }
    (s'.part (s.partOf t)).ready = (s.part (s.partOf t)).ready ++ [readyRec s t d] ∧
    (∀ u, (s'.thread u).v = (s.thread u).v ∧ (s'.thread u).pc = (s.thread u).pc) ∧
    s'.hbm = s.hbm ∧ s'.flats = s.flats ∧ s'.groups = s.groups := by
  obtain ⟨h, n, p, he, -, -⟩ := releaseMem_eq s t .sys false
  have hnext := releaseMem_hist_next s t .sys false
  have hrec : readyRec (releaseMem s t .sys false).2 t d = readyRec s t d := by
    unfold readyRec
    rw [hnext, he]
    rfl
  rw [he] at hrec
  dsimp only
  rw [he]
  refine ⟨?_, fun u => ⟨rfl, rfl⟩, rfl, rfl, rfl⟩
  rw [part_onPart, if_pos rfl, hrec]
  rfl

/-- R284: cp.coll of one thread: a trap, or a copy. -/
theorem exec_cpColl {a : DescArgs} (h : Sole (.cpColl a) b s t) {d : List Word} (hd : descAt ((afterIssue b s).groupOf t) a.k.toNat 16 = d) :
    exec (.cpColl a) s = .next (if collOk (afterIssue b s) ((afterIssue b s).partOf t) d = false then trapsAt b s t .cpDesc 0 0
      else newCopy (afterIssue b s) t .coll d none) := by
  obtain ⟨-, -, -, hready⟩ := h.thread
  refine (word_issues h.issuing rfl _).trans (congrArg _ ?_)
  simp only [show (issuedAs (.cpColl a) b s).active = [t] from h.active, hd, trapAll, issueCopies, eachActive, List.foldl_cons, List.foldl_nil,
    hready, trap_sole]
  cases collOk (afterIssue b s) ((afterIssue b s).partOf t) d <;> rfl

end


/-! ### Pulls and records -/

section
variable {s : State} {id : Nat} {cp : Copy}

theorem exec_collPull (hc : s.copies.find? id = some cp) (hk : cp.kind = .coll) (hs : cp.suspended = false) :
    exec (.collPull id) s = .next (
      let src := collSources s cp.part cp.desc
      let self := selfRank s cp.part
      let tid := cp.desc.getD 2 0
      let others := src.filter (· != self)
      if cp.asked.isNone then
        let s := others.foldl (fun s r => s.send (.pull cp.part r tid)) s
        { s with copies := s.copies.set id { cp with asked := some s.clk } }
      else if src.contains self && !cp.pulled.has self && others.all cp.pulled.has then
        match (s.part cp.part).ready.find? fun r => r.tid == tid with
        | none => s
        | some r =>
            if r.rcnt ≤ r.pulls + r.asked.length then s
            else
              let s1 := onReady s cp.part tid fun r => { r with pulls := r.pulls + 1 }
              if r.rowb ≠ fieldOf cp.desc 3 23 0 ∨ r.rows ≠ fieldOf cp.desc 4 23 0 then copyDone s1 id cp 0 (some (.cpDesc, 0)) []
              else match tileBytes s1 r with
                | (.ok b, s) => { s with copies := s.copies.set id { cp with pulled := cp.pulled.set self b } }
                | (.fault c _, s) => copyDone s id cp 0 (some (c, r.src)) []
                | (.wait, _) => s
      else s) := by
  change execCollPull id s = _
  unfold execCollPull
  simp only [hc, hk, hs, bne_self_eq_false, Bool.or_self, Bool.false_eq_true, if_false] <;> rfl

/-- R284: the part's own tile, once every other tile is here. -/
theorem exec_collPull_own {r : ReadyRec} (hc : s.copies.find? id = some cp) (hk : cp.kind = .coll) (hs : cp.suspended = false)
    (ha : cp.asked.isSome = true) (hself : (collSources s cp.part cp.desc).contains (selfRank s cp.part) = true)
    (hnot : cp.pulled.has (selfRank s cp.part) = false)
    (hall : ((collSources s cp.part cp.desc).filter (· != selfRank s cp.part)).all cp.pulled.has = true)
    (hr : ((s.part cp.part).ready.find? fun r => r.tid == cp.desc.getD 2 0) = some r) :
    exec (.collPull id) s = .next (
      let s1 := onReady s cp.part (cp.desc.getD 2 0) fun r => { r with pulls := r.pulls + 1 }
      if r.rcnt ≤ r.pulls + r.asked.length then s
      else if r.rowb ≠ fieldOf cp.desc 3 23 0 ∨ r.rows ≠ fieldOf cp.desc 4 23 0 then copyDone s1 id cp 0 (some (.cpDesc, 0)) []
      else match tileBytes s1 r with
        | (.ok b, s2) => { s2 with copies := s2.copies.set id { cp with pulled := cp.pulled.set (selfRank s cp.part) b } }
        | (.fault c _, s2) => copyDone s2 id cp 0 (some (c, r.src)) []
        | (.wait, _) => s) := by
  have hasked : cp.asked.isNone = false := by rw [Option.isNone_eq_false_iff]; exact ha
  rw [exec_collPull hc hk hs]
  simp only [hasked, Bool.false_eq_true, if_false, hself, hnot, hall, Bool.not_false, Bool.and_self, if_true, hr]

theorem exec_readyRecordRetire {p n : Nat} {r : ReadyRec} (hr : ((s.part p).ready.find? fun r => r.tid.toNat == n) = some r) :
    exec (.readyRecordRetire p n) s = .next (if r.pulls < r.rcnt then s
      else if r.rcue = 0 then s.onPart p fun x => { x with ready := x.ready.filter fun y => y.tid != r.tid }
      else pushEntry (s.onPart p fun x => { x with ready := x.ready.filter fun y => y.tid != r.tid }) p r.rcue n (s.hist.own r.thread)) := by
  change execReadyRecordRetire p n s = _
  unfold execReadyRecordRetire
  simp only [hr] <;> rfl

/-! ### Completion and faults -/

theorem exec_copyComplete (hc : s.copies.find? id = some cp) (hr : copyReady s cp = true) (hk : cp.kind ≠ .coll) :
    exec (.copyComplete id) s = .next (if (copyWhole s cp).wait || (copyWhole s cp).fault.isSome then s
      else sweep (copyDone (copyWhole s cp).s id cp (copyWhole s cp).cp.flags none (copyWhole s cp).cp.stores)) := by
  change execCopyComplete id s = _
  unfold execCopyComplete
  simp only [hc, hr, hk, Bool.not_true, Bool.false_eq_true, if_false, false_and]

theorem exec_copyFault (hc : s.copies.find? id = some cp) (hr : copyReady s cp = true) :
    exec (.copyFault id) s = .next (match (copyWhole s cp).wait, (copyWhole s cp).fault with
      | false, some f => copyCut s id cp f
      | _, _ => s) := by
  change execCopyFault id s = _
  unfold execCopyFault
  simp only [hc, hr, Bool.not_true, Bool.false_eq_true, if_false] <;> rfl

theorem copy_unready (hc : s.copies.find? id = some cp) (hr : copyReady s cp = false) :
    exec (.copyComplete id) s = .next s ∧ exec (.copyFault id) s = .next s := by
  change execCopyComplete id s = _ ∧ execCopyFault id s = _
  unfold execCopyComplete execCopyFault
  simp only [hc, hr, Bool.not_false, if_true, and_self]

theorem copyComplete_faulted (hc : s.copies.find? id = some cp) (hr : copyReady s cp = true) (hf : (copyWhole s cp).fault.isSome = true) :
    exec (.copyComplete id) s = .next s := by
  change execCopyComplete id s = _
  unfold execCopyComplete
  simp only [hc, hr, hf, Bool.not_true, Bool.false_eq_true, if_false, Bool.or_true, if_true]

/-- R234, R380: a read-out of a poisoned tile meets the poison first. -/
theorem copyWhole_poisoned (hk : cp.kind = .accrd ∨ cp.kind = .acccvt) (hp : cp.tilePoison.isSome = true) :
    (copyWhole s cp).wait = false ∧ (copyWhole s cp).fault = some (.memerr, dwordAt cp.desc 0) := by
  obtain hk | hk := hk <;> simp only [copyWhole, runCopy, hk, hp, if_true] <;> exact ⟨rfl, rfl⟩

/-- What a batch keeps of a copy that leaves the engine. -/
def Batch.told (id : Nat) (fl : Flags) (fault : Option (Cause × Nat)) (stores : List Nat) (x : Batch) : Batch :=
  if x.copies.contains id then
    { x with copies := x.copies.filter (· != id), flags := x.flags ||| fl, stores := unionN x.stores stores,
             fault := match x.fault with
               | none => fault
               | some f => some f }
  else x

theorem Batch.told_eq (id : Nat) (fl : Flags) (f : Option (Cause × Nat)) (st : List Nat) (x : Batch) : x.told id fl f st =
    if x.copies.contains id then
      { x with copies := x.copies.filter (· != id), flags := x.flags ||| fl, stores := unionN x.stores st, fault := x.fault.or f }
    else x := by
  unfold Batch.told
  cases x.fault <;> rfl

/-- R233: a copy leaves the engine; its thread waits for no batch. -/
theorem copyDone_eq {fl : Flags} {f : Option (Cause × Nat)} {st : List Nat}
    (hw : (s.thread cp.tid).held ≠ .waiting ∨ ∀ n w, (s.thread cp.tid).why ≠ .cp n w) :
    copyDone s id cp fl f st = { s with copies := s.copies.erase id }.onThread cp.tid fun th =>
      { th with unsealed := th.unsealed.told id fl f st, batches := th.batches.map (Batch.told id fl f st) } := by
  let s1 := { s with copies := s.copies.erase id }.onThread cp.tid fun th =>
      { th with unsealed := th.unsealed.told id fl f st, batches := th.batches.map (Batch.told id fl f st) }
  have hkept : (s1.thread cp.tid).held = (s.thread cp.tid).held ∧ (s1.thread cp.tid).why = (s.thread cp.tid).why := by
    cases hx : s.threads.find? cp.tid <;> simp [s1, State.thread, State.onThread, Sparse.findD, hx]
  change (match (s1.thread cp.tid).held, (s1.thread cp.tid).why with
    | .waiting, .cp b iw => if waitMet (s1.thread cp.tid) b then
        finishWait s1 cp.tid b (s1.thread cp.tid).pc iw (fun s => release8 s cp.tid) else s1
    | _, _ => s1) = s1
  rw [hkept.1, hkept.2]
  split
  · rename_i h1 h2
    obtain h | h := hw
    · exact absurd h1 h
    · exact absurd h2 (h _ _)
  · rfl

theorem copyDone_spec {fl : Flags} {f : Option (Cause × Nat)} {st : List Nat}
    (hw : (s.thread cp.tid).held ≠ .waiting ∨ ∀ n w, (s.thread cp.tid).why ≠ .cp n w) :
    let s' := copyDone s id cp fl f st
    s'.copies = s.copies.erase id ∧ (∀ u, u ≠ cp.tid → s'.thread u = s.thread u) ∧ s'.hbm = s.hbm ∧ s'.flats = s.flats ∧
    (s.threads.has cp.tid = true → ∀ (n : Nat) (x : Batch), (s.thread cp.tid).batches[n]? = some x →
      (s'.thread cp.tid).batches[n]? = some (x.told id fl f st)) := by
  rw [copyDone_eq hw]
  refine ⟨rfl, fun u hu => thread_onThread_ne _ _ _ _ hu, rfl, rfl, fun hh n x hx => ?_⟩
  rw [thread_onThread_self { s with copies := s.copies.erase id } cp.tid _ hh]
  change ((s.thread cp.tid).batches.map _)[n]? = _
  rw [List.getElem?_map, hx]
  rfl

/-! ### A copy of one word -/

theorem cutWords_word {va : Nat} {l : List Byte} (ha : va % 4 = 0) (hl : l.length = 4) : cutWords va l = [(va, l)] := by
  have hne : l ≠ [] := fun h => by simp [h] at hl
  simp [cutWords, cutWordsOf, hl, ha, hne, List.take_of_length_le (Nat.le_of_eq hl), List.drop_of_length_le (Nat.le_of_eq hl)]

theorem addrAdd_row0 (l : List Word) (i j : Nat) : addrAdd (dwordAt l i) (((0 : Nat) : Int) * signedAt l j) = dwordAt l i := by
  have h0 := (l.getD i 0).isLt
  have h1 := (l.getD (i + 1) 0).isLt
  have hlt : ((dwordAt l i : Nat) : Int) < 2 ^ 64 := by
    unfold dwordAt wordOf
    omega
  rw [addrAdd, Nat.cast_zero, zero_mul, add_zero]
  exact (congrArg Int.toNat (Int.emod_eq_of_lt (Int.natCast_nonneg _) hlt)).trans (Int.toNat_natCast _)

end

/-- States that differ at most in threads, where they stand, and what cores have read. -/
structure Woken (s s' : State) : Prop where
  rest : { s' with threads := s.threads, groups := s.groups, blocks := s.blocks, clusters := s.clusters, cores := s.cores, ctr := s.ctr } = s

namespace Woken

variable {s s' s'' : State}

theorem refl (s : State) : Woken s s := ⟨rfl⟩

theorem trans (h : Woken s s') (h' : Woken s' s'') : Woken s s'' := by
  have := congrArg (fun x : State => { x with
    threads := s.threads, groups := s.groups, blocks := s.blocks, clusters := s.clusters, cores := s.cores, ctr := s.ctr }) h'.rest
  exact ⟨this.trans h.rest⟩

theorem of_wakes {K : Nat → Prop} (h : Wakes K s s') : Woken s s' :=
  ⟨(congrArg (fun x : State => { x with cores := s.cores }) h.rest :)⟩

theorem foldl {α : Type} {f : State → α → State} (hf : ∀ s x, Woken s (f s x)) (l : List α) : ∀ s, Woken s (l.foldl f s) := by
  induction l with
  | nil => exact refl
  | cons x l ih => exact fun s => (hf s x).trans (ih _)

/-- A wait that has read what it waits for ends. -/
theorem done (s : State) (t : Nat) (l : Loc) (sc : Scope) :
    Woken s (release8 (acquire (readNewest s t l 4).2 t sc (relsOf (readNewest s t l 4).2 (readNewest s t l 4).1) false) t) :=
  have hread : Woken s (readNewest s t l 4).2 := ⟨rfl⟩
  hread.trans (of_wakes ((Wakes.acquire (K := fun _ => False) _ t sc _ false).trans (.release8 _ t id)))

theorem svDone (s : State) (t : Nat) (r : Req) (d v : Nat) : Woken s (svDone s t r d v) :=
  have htake : Woken s (s.onThread t fun th => { th with
    v := th.v.set d (BitVec.ofNat 32 v), out := th.out.filter fun x => x.seq != r.seq }) := ⟨rfl⟩
  htake.trans (done _ t r.loc .dev)

/-- The words that waits look at change threads and what their cores have read. -/
theorem sweep (s : State) : Woken s (sweep s) := by
  refine foldl (fun s e => ?_) _ s
  dsimp only
  split
  · split
    · split
      · split
        · exact svDone ..
        · exact refl s
      · exact refl s
    · exact refl s
  · split
    · split
      · exact refl s
      · exact done ..
    · exact refl s
  · exact refl s

end Woken

section
variable {s : State} {id : Nat} {cp : Copy}

theorem copyRead_flat {va n d b o : Nat} (hw : s.winWrites = [])
    (ht : targetOf s cp.ctx cp.core (s.privOf cp.tid) va ⟨true, false, false⟩ = .ok (.flat d b o)) (hp : flatPoisoned s d b o n = false) :
    copyRead s cp va n = (.ok (flatRead s d b o n), s) := by
  simp only [copyRead, targetFor, windowView_still hw, Copy.priv, ht, hp, Bool.false_eq_true, if_false]

theorem copyWrite_flat {va d b o : Nat} {l : List Byte} (hw : s.winWrites = [])
    (ht : targetOf s cp.ctx cp.core (s.privOf cp.tid) va ⟨false, true, false⟩ = .ok (.flat d b o)) :
    copyWrite s cp va l = (.ok (), flatWrite s d b o l) := by
  simp only [copyWrite, targetFor, windowView_still hw, Copy.priv, ht]

/-- R233: a row of one word from a flat is read. -/
theorem copyAcc_read_flat {a : CopyAcc} {va d b o : Nat} (hw : a.s.winWrites = []) (hg : a.cp.got = .empty) (hs : a.stopped = false)
    (hpart : a.part = false) (hva : va % 4 = 0)
    (ht : targetOf a.s a.cp.ctx a.cp.core (a.s.privOf a.cp.tid) va ⟨true, false, false⟩ = .ok (.flat d b o))
    (hp : flatPoisoned a.s d b o 4 = false) :
    a.read va 4 = (flatRead a.s d b o 4, { a with cp := { a.cp with got := a.cp.got.set va (flatRead a.s d b o 4) } }) := by
  have hlen : (flatRead a.s d b o 4).length = 4 := by simp [flatRead, Memory.readN]
  have hva4 : va / 4 * 4 = va := by omega
  have hword : a.word va = (flatRead a.s d b o 4, { a with cp := { a.cp with got := a.cp.got.set va (flatRead a.s d b o 4) } }) := by
    simp [CopyAcc.word, hs, hg, CopyAcc.takes, hpart, copyRead_flat hw ht hp]
  rw [CopyAcc.read, cutWords_word hva (by simp)]
  simp [hva4, hva, hword, List.take_of_length_le (Nat.le_of_eq hlen)]

/-- R233: a row of one word is written to a flat. -/
theorem copyAcc_put_flat {a : CopyAcc} {r va d b o : Nat} {l : List Byte} {fl : Flags} (hw : a.s.winWrites = []) (hm : a.cp.made = [])
    (hs : a.stopped = false) (hshort : a.short = false) (hpart : a.part = false) (hva : va % 4 = 0) (hl : l.length = 4)
    (ht : targetOf a.s a.cp.ctx a.cp.core (a.s.privOf a.cp.tid) va ⟨false, true, false⟩ = .ok (.flat d b o)) :
    (a.put r va l fl).s = flatWrite a.s d b o l ∧ (a.put r va l fl).wait = a.wait ∧ (a.put r va l fl).fault = a.fault := by
  obtain ⟨w, cp, part, short, fault, wait⟩ := a
  dsimp only at *
  subst hpart hshort
  have hnew : cp.made.contains (r * 2 ^ 64 + va) = false := by simp [hm]
  have hgo : (fault.isSome || wait) = false := hs
  have hwrite : copyWrite w { cp with flags := cp.flags ||| fl } va l = (.ok (), flatWrite w d b o l) := copyWrite_flat hw ht
  have hput : CopyAcc.put ⟨w, cp, false, false, fault, wait⟩ r va l fl =
      CopyAcc.wrote ⟨w, { cp with flags := cp.flags ||| fl }, false, false, fault, wait⟩ (flatWrite w d b o l) (r * 2 ^ 64 + va) 0 := by
    simp only [CopyAcc.put, CopyAcc.stopped, hgo, cutWords_word hva hl, List.foldl_cons, List.foldl_nil, hnew, Bool.or_self, CopyAcc.takes,
      Bool.false_eq_true, if_false, Bool.not_true, hwrite]
  rw [hput]
  exact ⟨rfl, rfl, rfl⟩

/-- R232, R233: a copy of one row of one word, from a flat to a flat. -/
theorem copyWhole_word {d b o d2 b2 o2 : Nat} (hk : cp.kind = .rows) (hg : cp.got = .empty) (hm : cp.made = []) (hw : s.winWrites = [])
    (hconv : fieldOf cp.desc 4 31 24 = 0) (hrowb : fieldOf cp.desc 4 23 0 = 4) (hrows : fieldOf cp.desc 5 23 0 = 1)
    (hsrc : dwordAt cp.desc 0 % 4 = 0) (hdst : dwordAt cp.desc 2 % 4 = 0)
    (ht : targetOf s cp.ctx cp.core (s.privOf cp.tid) (dwordAt cp.desc 0) ⟨true, false, false⟩ = .ok (.flat d b o))
    (ht2 : targetOf s cp.ctx cp.core (s.privOf cp.tid) (dwordAt cp.desc 2) ⟨false, true, false⟩ = .ok (.flat d2 b2 o2))
    (hp : flatPoisoned s d b o 4 = false) :
    (copyWhole s cp).s = flatWrite s d2 b2 o2 (flatRead s d b o 4) ∧ (copyWhole s cp).wait = false ∧ (copyWhole s cp).fault = none := by
  have hlen : (flatRead s d b o 4).length = 4 := by simp [flatRead, Memory.readN]
  let a := (CopyAcc.start s cp false).row
  have hread : a.read (dwordAt cp.desc 0) 4 = _ := copyAcc_read_flat hw hg rfl rfl hsrc ht hp
  have hrun : copyWhole s cp = ({ a with cp := { a.cp with got := a.cp.got.set (dwordAt cp.desc 0) (flatRead a.s d b o 4) } } : CopyAcc).put 0
      (dwordAt cp.desc 2) (flatRead s d b o 4) 0 := by
    unfold copyWhole runCopy
    rw [hk]
    unfold runRows
    simp only [show (CopyAcc.start s cp false).cp = cp from rfl, hrowb, hrows, hconv, List.range_one,
      List.foldl_cons, List.foldl_nil, addrAdd_row0, hk, reduceCtorEq, if_false, copyRow]
    rw [show (CopyAcc.start s cp false).row.read (dwordAt cp.desc 0) 4 = _ from hread] <;> rfl
  rw [hrun]
  exact copyAcc_put_flat hw hm rfl rfl rfl hdst hlen ht2

theorem copyComplete_word {d b o d2 b2 o2 : Nat} (hc : s.copies.find? id = some cp) (hk : cp.kind = .rows) (hs : cp.suspended = false)
    (hrun : (copyWhole s cp).s = flatWrite s d2 b2 o2 (flatRead s d b o 4) ∧ (copyWhole s cp).wait = false ∧ (copyWhole s cp).fault = none)
    (hh : (s.thread cp.tid).held ≠ .waiting) :
    ∃ s', exec (.copyComplete id) s = .next s' ∧
      s'.flats = Memory.writeN s.flats (bankKey d2 b2 o2) (Memory.readN s.flats (bankKey d b o) 4) ∧ s'.copies = s.copies.erase id ∧ s'.hbm = s.hbm := by
  obtain ⟨hstate, hwait, hfault⟩ := hrun
  have hready : copyReady s cp = true := by simp [copyReady, hk, hs]
  refine ⟨_, exec_copyComplete hc hready (by rw [hk]; decide), ?_⟩
  rw [hwait, hfault, hstate]
  obtain ⟨hcopies, -, hhbm, hflats, -⟩ := copyDone_spec (s := flatWrite s d2 b2 o2 (flatRead s d b o 4)) (id := id) (cp := cp)
    (fl := (copyWhole s cp).cp.flags) (f := none) (st := (copyWhole s cp).cp.stores) (.inl hh)
  have hsweep := (Woken.sweep (copyDone (flatWrite s d2 b2 o2 (flatRead s d b o 4)) id cp (copyWhole s cp).cp.flags none (copyWhole s cp).cp.stores)).rest
  exact ⟨(congrArg State.flats hsweep :).trans hflats, (congrArg State.copies hsweep :).trans hcopies, (congrArg State.hbm hsweep :).trans hhbm⟩

end

/-- Settles O45: the words and events by their equations, the copy of one word by `copyWhole_word`, completion by `copyDone_spec`. -/
theorem copiesComplete : Obligations.CopiesComplete := by
  refine ⟨fun a b s t hs => ⟨fun hd => ?_, fun hd => ?_⟩, fun s a c t hx => ?_, fun a b s t hs => ⟨fun hd => ?_, fun hd => ?_⟩,
    fun s id cp hc hk hs => ⟨fun ha => ?_, fun r ha hself hnot hall hr => ⟨fun hfull => ?_, fun hleft hrowb hrows s2 x hx => ?_⟩⟩,
    fun s p n r hr => ⟨fun h => ?_, fun h h0 => ?_⟩,
    fun s id cp hc => ⟨fun hr => copy_unready hc hr, fun hr => ⟨fun hw hf hk => ?_, fun hf => copyComplete_faulted hc hr hf,
      fun hk hp => ⟨?_, ?_⟩, fun f hw hf => ?_⟩⟩,
    fun s id cp d b o d2 b2 o2 hc hk hs hg hm hw hconv hrowb hrows hsrc hdst ht ht2 hp hh =>
      copyComplete_word hc hk hs (copyWhole_word hk hg hm hw hconv hrowb hrows hsrc hdst ht ht2 hp) hh,
    fun s id cp fl f st hw => ?_⟩
  · rw [exec_cpReady hs rfl]
    exact congrArg _ (if_pos hd)
  · refine ⟨_, (exec_cpReady hs rfl).trans (congrArg _ (if_neg (by rw [show readyOk (descAt _ _ _) = true from hd]; decide))), ?_⟩
    exact readyListed_spec (afterIssue b s) t _
  · simp only [roomless, if_pos hx]
  · rw [exec_cpColl hs rfl]
    exact congrArg _ (if_pos hd)
  · have hcore : (afterIssue b s).coreOf t = b.core := by rw [afterIssue_coreOf]; exact hs.issuing.stands t hs.thread.1
    rw [exec_cpColl hs rfl, if_neg (by rw [show collOk _ _ (descAt _ _ _) = true from hd]; decide), newCopy_eq hcore] <;> rfl
  · refine ⟨_, exec_collPull hc hk hs, ?_⟩
    simp only [ha, Option.isNone_none, if_true, foldl_send]
    exact ⟨rfl, rfl, rfl, rfl⟩
  · rw [exec_collPull_own hc hk hs ha hself hnot hall hr, if_pos hfull]
  · rw [exec_collPull_own hc hk hs ha hself hnot hall hr, if_neg (Nat.not_le.2 hleft), if_neg (by simp [hrowb, hrows])]
    simp only [hx]
  · rw [exec_readyRecordRetire hr, if_pos h]
  · rw [exec_readyRecordRetire hr, if_neg (by omega), if_pos h0]
  · rw [exec_copyComplete hc hr hk, hw, hf] <;> rfl
  · exact copyComplete_faulted hc hr (by rw [(copyWhole_poisoned hk hp).2]; rfl)
  · rw [exec_copyFault hc hr, (copyWhole_poisoned hk hp).1, (copyWhole_poisoned hk hp).2]
  · rw [exec_copyFault hc hr, hw, hf]
  · simpa only [Batch.told_eq] using copyDone_spec hw

end Sys2Proof.Machine

/-! ### Queue streams (O19: R225..R227) -/

namespace Sys2Proof.Machine

/-! ### Binding and closing a port -/

section
variable {b : Bundle} {s : State} {t : Nat}

/-- R225: what a descriptor is to obey. -/
def QcfgGood (w : Nat → Word) : Prop :=
  (w 0).toNat % 4 = 0 ∧ (w 2).toNat % 4 = 0 ∧ (w 3).toNat < 65536 ∧ (w 3).toNat % 4 = 0 ∧ (w 5).toNat < 4

theorem qcfgGood_iff (g : Group) (k : Nat) : (QcfgGood fun i => g.k.findD (k + i) 0) ↔
    ((pair (g.k.findD k 0) (g.k.findD (k + 1) 0)).toNat % 4 = 0 ∧ (g.k.findD (k + 2) 0).toNat % 4 = 0 ∧
      bits (g.k.findD (k + 3) 0).toNat 31 16 = 0 ∧ (g.k.findD (k + 3) 0).toNat % 4 = 0 ∧ bits (g.k.findD (k + 5) 0).toNat 31 2 = 0) := by
  have hbase : (pair (g.k.findD k 0) (g.k.findD (k + 1) 0)).toNat % 4 = (g.k.findD k 0).toNat % 4 := by
    have h0 := (g.k.findD k 0).isLt
    simp only [pair, BitVec.toNat_append, Nat.shiftLeft_eq]
    rw [Nat.mul_comm, ← Nat.two_pow_add_eq_or_of_lt h0]
    omega
  have h3 := (g.k.findD (k + 3) 0).isLt
  have h5 := (g.k.findD (k + 5) 0).isLt
  have hnrow : bits (g.k.findD (k + 3) 0).toNat 31 16 = 0 ↔ (g.k.findD (k + 3) 0).toNat < 65536 := by unfold bits; omega
  have hcp : bits (g.k.findD (k + 5) 0).toNat 31 2 = 0 ↔ (g.k.findD (k + 5) 0).toNat < 4 := by unfold bits; omega
  rw [hbase, hnrow, hcp]
  rfl

/-- R225: the descriptor of a port. -/
theorem qcfgDesc_good {g : Group} {k : Nat} (h : QcfgGood fun i => g.k.findD (k + i) 0) : qcfgDesc g k =
    some ⟨g.k.findD (k + 1) 0 ++ g.k.findD k 0, g.k.findD (k + 2) 0, (g.k.findD (k + 3) 0).setWidth 16, (g.k.findD (k + 4) 0).toNat,
      (g.k.findD (k + 5) 0).toNat⟩ := by
  have hlstr : BitVec.ofNat 16 (g.k.findD (k + 3) 0).toNat = (g.k.findD (k + 3) 0).setWidth 16 := by bv_omega
  unfold qcfgDesc
  dsimp only
  rw [if_pos ((qcfgGood_iff g k).1 h), BitVec.ofNat_toNat, BitVec.setWidth_eq, hlstr]
  rfl

theorem qcfgDesc_bad {g : Group} {k : Nat} (h : ¬ QcfgGood fun i => g.k.findD (k + i) 0) : qcfgDesc g k = none :=
  if_neg (mt (qcfgGood_iff g k).2 h)

theorem closePort_unbound {g p : Nat} (h : (s.group g).qports.has p = false) : closePort s g p = s := by
  simp only [closePort, h, Bool.not_false, if_true]

/-- R225: a port of the group not bound before. -/
theorem exec_qcfg {a : QcfgArgs} (h : Sole (.qcfg a) b s t)
    (hp : ((afterIssue b s).group ((afterIssue b s).thread t).group).qports.has a.port.toNat = false) :
    let g := ((afterIssue b s).thread t).group
    exec (.qcfg a) s = .next (match qcfgDesc ((afterIssue b s).group g) a.k.toNat with
      | none => trapsAt b s t .qportUnbound 0 0
      | some q => ((afterIssue b s).onGroup g fun x => { x with qports := x.qports.set a.port.toNat q }).onThreads
          ((afterIssue b s).groupThreads g) fun _ th => { th with
            rows := th.rows.set a.port.toNat 0, moved := th.moved.set a.port.toNat 0, ports := th.ports.erase a.port.toNat }) := by
  intro g
  refine (word_issues h.issuing rfl _).trans (congrArg _ ?_)
  simp only [show (issuedAs (.qcfg a) b s).active = [t] from h.active, hp, closePort_unbound hp, eachActive, List.foldl_cons, List.foldl_nil,
    trap_sole, Bool.false_eq_true, if_false]
  cases qcfgDesc ((afterIssue b s).group ((afterIssue b s).thread t).group) a.k.toNat <;> rfl

/-! ### Closing a port -/

/-- R227: what a thread keeps of a port that is closed. -/
def Thread.closed (th : Thread) (p : Nat) : Thread := if p < 4 then th.rewindPort p else { th with ports := th.ports.erase p }

theorem mem_groupThreads {g u : Nat} (hn : s.threads.keys.Nodup) :
    u ∈ s.groupThreads g ↔ s.threads.has u = true ∧ (s.thread u).group = g := by
  constructor
  · intro h
    obtain ⟨⟨k, x⟩, hm, rfl⟩ := List.mem_map.1 h
    obtain ⟨hi, hg⟩ := List.mem_filter.1 hm
    have hf := Sparse.find?_of_mem_items hn hi
    exact ⟨by simp [Sparse.has, hf], by simpa [State.thread, Sparse.findD, hf] using hg⟩
  · rintro ⟨hh, hg⟩
    obtain ⟨x, hx⟩ := (Sparse.has_iff _ _).1 hh
    refine List.mem_map.2 ⟨(u, x), List.mem_filter.2 ⟨mem_items_of_find? hx, ?_⟩, rfl⟩
    simpa [State.thread, Sparse.findD, hx] using hg

theorem movePort_empty {u p fuel : Nat} (h : (s.thread u).ports.findD p [] = []) : movePort s u p fuel = s := by
  cases fuel <;> simp [movePort, h]

/-- R227: a bound port of a group is closed, with no pushed words left to go on their way. -/
theorem closePort_bound {g p : Nat} (hp : (s.group g).qports.has p = true) (he : 4 ≤ p → ∀ u, (s.thread u).ports.findD p [] = []) :
    closePort s g p = (s.onThreads (s.groupThreads g) fun _ th => th.closed p).onGroup g fun x => { x with qports := x.qports.erase p } := by
  have hmove : (if 4 ≤ p then (s.groupThreads g).foldl (fun s t => movePort s t p 16) s else s) = s := by
    split
    · rename_i h4
      refine List.foldlRecOn (motive := fun x => x = s) _ _ rfl fun x hx u _ => ?_
      subst hx
      exact movePort_empty (he h4 u)
    · rfl
  simp only [closePort, hp, Bool.not_true, Bool.false_eq_true, if_false, hmove]
  rfl

theorem closePort_spec {g p : Nat} (hp : (s.group g).qports.has p = true) (he : 4 ≤ p → ∀ u, (s.thread u).ports.findD p [] = [])
    (hg : s.groups.has g = true) (hn : s.threads.keys.Nodup) :
    (closePort s g p).group g = { s.group g with qports := (s.group g).qports.erase p } ∧
    ∀ u, (closePort s g p).thread u = if s.threads.has u = true ∧ (s.thread u).group = g then (s.thread u).closed p else s.thread u := by
  rw [closePort_bound hp he]
  refine ⟨(group_onGroup _ g g _ hg).trans (if_pos rfl), fun u => ?_⟩
  change ((s.onThreads (s.groupThreads g) fun _ th => th.closed p).thread u) = _
  have hm := mem_groupThreads (g := g) (u := u) hn
  rw [thread_onThreads]
  by_cases h : s.threads.has u = true ∧ (s.thread u).group = g
  · rw [if_pos ⟨hm.2 h, h.1⟩, if_pos h]
  · rw [if_neg fun x => h (hm.1 x.1), if_neg h]

/-- R227: no store word of the thread is on its way. -/
theorem accessesDone_closed {s' : State} {p : Nat} (hd : accessesDone s t = true) (hp : 4 ≤ p) (h : s'.thread t = (s.thread t).closed p) :
    accessesDone s' t = true := by
  simp only [accessesDone, Bool.and_eq_true, List.isEmpty_iff] at hd ⊢
  rw [h, Thread.closed, if_neg (by omega)]
  refine ⟨hd.1, ?_⟩
  have hsub : ((s.thread t).ports.erase p).items ⊆ (s.thread t).ports.items := fun _ he => (List.mem_filter.1 he).1
  rw [Sparse.filter, List.filter_eq_nil_iff] at hd ⊢
  exact fun e he => hd.2 e (hsub he)

theorem holdStores_done {i : Instr} (h : Sole i b s t) {s' : State} {p : Nat} (hd : 4 ≤ p → accessesDone s' t = true) :
    holdStores (issuedAs i b s) p s' = s' := by
  unfold holdStores
  split
  · rfl
  · rename_i h4
    simp [eachActive, show (issuedAs i b s).active = [t] from h.active, hd (by omega)]

theorem exec_qclose {a : QcloseArgs} (h : Sole (.qclose a) b s t) :
    let s0 := afterIssue b s
    let g := (s0.thread t).group
    exec (.qclose a) s = .next (if (s0.group g).qports.has a.port.toNat then
      holdStores (issuedAs (.qclose a) b s) a.port.toNat (closePort s0 g a.port.toNat) else s0) := by
  intro s0 g
  refine (word_issues h.issuing rfl _).trans (congrArg _ ?_)
  simp only [show (issuedAs (.qclose a) b s).active = [t] from h.active]
  rfl

/-- R227: a bound port of the group is closed, its stores performed. -/
theorem qclose_bound {a : QcloseArgs} (h : Sole (.qclose a) b s t) (hp : ((afterIssue b s).group ((afterIssue b s).thread t).group).qports.has a.port.toNat = true)
    (hn : (afterIssue b s).threads.keys.Nodup)
    (he : 4 ≤ a.port.toNat → accessesDone (afterIssue b s) t = true ∧ ∀ u, ((afterIssue b s).thread u).ports.findD a.port.toNat [] = []) :
    let s0 := afterIssue b s
    let g := (s0.thread t).group
    ∃ s', exec (.qclose a) s = .next s' ∧
      s'.group g = { s0.group g with qports := (s0.group g).qports.erase a.port.toNat } ∧
      ∀ u, s'.thread u = if s0.threads.has u = true ∧ (s0.thread u).group = g then (s0.thread u).closed a.port.toNat else s0.thread u := by
  intro s0 g
  obtain ⟨hgroup, hthread⟩ := closePort_spec hp (fun h4 => (he h4).2) h.grouped hn
  have hself := (hthread t).trans (if_pos ⟨by rw [afterIssue_has]; exact h.thread.2.1, rfl⟩)
  refine ⟨_, exec_qclose h, ?_⟩
  rw [if_pos hp, holdStores_done h fun h4 => accessesDone_closed (he h4).1 h4 hself]
  exact ⟨hgroup, hthread⟩

end

/-! ### The engine's words -/

section
variable {s : State} {t p : Nat} {q : QBind}

/-- R226, R363: resolving an address spends free values and nothing else. -/
theorem targetFor_rest (s : State) (t ctx core : Nat) (priv : Bool) (va : Nat) (need : Perm) :
    { (targetFor s t ctx core priv va need).2 with ctr := s.ctr } = s := windowView_rest s t

/-- R226: what a load stream's next word, read at `va`, leaves. -/
def streamArrive (t p row va : Nat) : Except Cause Target × State → State
  | (.error c, s) => s.onThread t fun th => th.arrive p ⟨row, 0, some (c, va), 0, 0⟩
  | (.ok (.flat d b o), s) =>
      if flatPoisoned s d b o 4 then
        let (err, s) := meetPoison s t .flat d (bankKey d b o / 4) (bankOwner s d b)
        s.onThread t fun th => th.arrive p
          ⟨row, BitVec.ofNat 32 (natOfBytes (flatRead s d b o 4)), if err then some (.memerr, va) else none, 0, 0⟩
      else s.onThread t fun th => th.arrive p ⟨row, BitVec.ofNat 32 (natOfBytes (flatRead s d b o 4)), none, 0, 0⟩
  | (.ok (.mem l), s) => { s with ctr := s.ctr + 1 }.onThread t fun th =>
      { th with out := th.out ++ [streamReq (.qload p) l va false (BitVec.ofNat 32 row) s.ctr] }

theorem exec_queueStreamRead {row : Nat} (hp : p < 4) (hh : s.threads.has t = true) (hx : (s.thread t).held ≠ .exited)
    (hs : (s.blockOf t).save = .resident) (hq : (s.groupOf t).qports.find? p = some q) (hr : row = (s.thread t).moved.findD p 0)
    (hn : row < q.nrow) (ha : row < (s.thread t).rows.findD p 0 + 16) :
    let va := streamVa q row (s.thread t).lane
    exec (.queueStreamRead t p) s = .next (streamArrive t p row va (targetFor (s.onThread t fun th => { th with
      moved := th.moved.set p (row + 1) }) t (s.ctxOf t) (s.coreOf t) (s.privOf t) va ⟨true, false, false⟩)) := by
  subst hr
  intro va
  change execQueueStreamRead t p s = _
  unfold execQueueStreamRead
  simp only [hq, hp, hh, hx, hs, hn, ha, ne_eq, not_false_eq_true, and_self, if_true]
  rfl

theorem streamArrive_error {row va : Nat} {c : Cause} : ∀ {w : Except Cause Target × State}, w.1 = .error c →
    streamArrive t p row va w = w.2.onThread t fun th => th.arrive p ⟨row, 0, some (c, va), 0, 0⟩
  | (_, _), rfl => rfl

theorem streamArrive_mem {row va : Nat} {l : Loc} : ∀ {w : Except Cause Target × State}, w.1 = .ok (.mem l) →
    streamArrive t p row va w = { w.2 with ctr := w.2.ctr + 1 }.onThread t fun th =>
      { th with out := th.out ++ [streamReq (.qload p) l va false (BitVec.ofNat 32 row) w.2.ctr] }
  | (_, _), rfl => rfl

/-- R226: a word of a bank that is not poisoned; `s` is the state but for the free values. -/
theorem streamArrive_flat {row va d b o : Nat} (hclean : flatPoisoned s d b o 4 = false) :
    ∀ {w : Except Cause Target × State}, w.1 = .ok (.flat d b o) → w.2.dies = s.dies → w.2.flats = s.flats →
    streamArrive t p row va w = w.2.onThread t fun th =>
      th.arrive p ⟨row, BitVec.ofNat 32 (natOfBytes (Memory.readN s.flats (bankKey d b o) 4)), none, 0, 0⟩
  | (_, s1), rfl, hdies, hflats => by
      have hclean1 : flatPoisoned s1 d b o 4 = false := by
        rw [← hclean, flatPoisoned, flatPoisoned, State.die, State.die, hdies]
      have hread : flatRead s1 d b o 4 = Memory.readN s.flats (bankKey d b o) 4 := by rw [flatRead, hflats]
      simp only [streamArrive, hclean1, hread, Bool.false_eq_true, if_false]

/-- R227: what a store stream's oldest word, written at `va`, leaves; a fault of a thread that has `gone` is dropped. -/
def streamStore (t p va : Nat) (e : PortEntry) (gone : Bool) : Except Cause Target × State → State
  | (.ok (.flat d b o), s) => flatWrite s d b o (bytesOfNat 4 e.word.toNat)
  | (.ok (.mem l), s) => { s with ctr := s.ctr + 1 }.onThread t fun th =>
      { th with out := th.out ++ [streamReq (.qstore p e.pc e.iw) l va true e.word s.ctr] }
  | (.error c, s) => if gone then s else takeTrap s t ⟨c, e.pc, e.iw, va, 0, false⟩

theorem exec_queueStreamWrite {e : PortEntry} {rest : List PortEntry} (hp : 4 ≤ p) (hs : (s.blockOf t).save = .resident)
    (hq : (s.groupOf t).qports.find? p = some q) (he : (s.thread t).ports.findD p [] = e :: rest) :
    let va := streamVa q e.row (s.thread t).lane
    exec (.queueStreamWrite t p) s = .next (streamStore t p va e ((s.thread t).held == .exited) (targetFor (s.onThread t fun th => { th with
      ports := th.ports.set p rest }) t (s.ctxOf t) (s.coreOf t) (s.privOf t) va ⟨false, true, false⟩)) := by
  intro va
  have hmove : execQueueStreamWrite t p s = .next (moveWord s t p) := by
    unfold execQueueStreamWrite
    rw [if_pos ⟨hp, by rw [hs]; decide⟩]
  change execQueueStreamWrite t p s = _
  rw [hmove]
  unfold moveWord
  simp only [he, hq]
  rfl

theorem streamStore_mem {va : Nat} {gone : Bool} {e : PortEntry} {l : Loc} : ∀ {w : Except Cause Target × State}, w.1 = .ok (.mem l) →
    streamStore t p va e gone w = { w.2 with ctr := w.2.ctr + 1 }.onThread t fun th =>
      { th with out := th.out ++ [streamReq (.qstore p e.pc e.iw) l va true e.word w.2.ctr] }
  | (_, _), rfl => rfl

theorem streamStore_flat {va d b o : Nat} {gone : Bool} {e : PortEntry} : ∀ {w : Except Cause Target × State}, w.1 = .ok (.flat d b o) →
    streamStore t p va e gone w = flatWrite w.2 d b o (bytesOfNat 4 e.word.toNat)
  | (_, _), rfl => rfl

end

/-- Settles O19: binding by `exec_qcfg`, closing by `qclose_bound`, the engine's words by their equations. -/
theorem queueStreams : Obligations.QueueStreams := by
  refine ⟨fun a b s t hs hp => ⟨fun hg => ?_, fun hg => ?_⟩, fun a b s t hs => ⟨fun hp => ?_, fun hp h4 hn => ?_, fun hp h4 hd hn he => ?_⟩,
    fun s t p q row hp hh hx hs hq hr hn ha => ⟨fun c hw => ?_, fun d k o hw hpoison => ?_, fun l hw => ?_⟩,
    fun s t p q e rest hp hh hs hq he => ⟨fun d k o hw => ?_, fun l hw => ?_⟩⟩
  · exact (exec_qcfg hs hp).trans (by rw [qcfgDesc_good hg] <;> rfl)
  · exact (exec_qcfg hs hp).trans (by rw [qcfgDesc_bad hg])
  · rw [exec_qclose hs, if_neg (by rw [hp]; decide)]
  · simpa only [Thread.closed, if_pos h4] using qclose_bound hs hp hn fun h => absurd h4 (by omega)
  · simpa only [Thread.closed, if_neg (Nat.not_lt.2 h4)] using qclose_bound hs hp hn fun _ => ⟨hd, he⟩
  · exact (exec_queueStreamRead hp hh hx hs hq hr hn ha).trans (congrArg _ (streamArrive_error hw))
  · have hrest := targetFor_rest (s.onThread t fun th => { th with moved := th.moved.set p (row + 1) }) t (s.ctxOf t) (s.coreOf t)
      (s.privOf t) (streamVa q row (s.thread t).lane) ⟨true, false, false⟩
    exact (exec_queueStreamRead hp hh hx hs hq hr hn ha).trans
      (congrArg _ (streamArrive_flat hpoison hw (congrArg State.dies hrest :) (congrArg State.flats hrest :)))
  · exact (exec_queueStreamRead hp hh hx hs hq hr hn ha).trans (congrArg _ (streamArrive_mem hw))
  · have hrest := targetFor_rest (s.onThread t fun th => { th with ports := th.ports.set p rest }) t (s.ctxOf t) (s.coreOf t)
      (s.privOf t) (streamVa q e.row (s.thread t).lane) ⟨false, true, false⟩
    refine ⟨_, (exec_queueStreamWrite hp hs hq he).trans (congrArg _ (streamStore_flat hw)), fun a => ?_,
      (congrArg State.threads hrest :), (congrArg State.groups hrest :), (congrArg State.hbm hrest :), (congrArg State.hist hrest :)⟩
    refine (Memory.read_writeN ..).trans ?_
    rw [length_bytesOfNat]
    congr 2
    exact (congrArg State.flats hrest :)
  · exact (exec_queueStreamWrite hp hs hq he).trans (congrArg _ (streamStore_mem hw))

end Sys2Proof.Machine

/-! ### prefetch and icflush (O17: R223, R224) -/

namespace Sys2Proof.Machine

/-! ### The words that a flush drops -/

section
variable {s : State} {c k : Nat}

theorem find?_filter_key {α : Type} (m : Sparse α) (p : Nat → Bool) (k : Nat) :
    (m.filter fun k _ => p k).find? k = if p k then m.find? k else none := Sparse.findIn_filter_key m.items p k

/-- R224: a word that the flush is about is in no instruction cache; every other stays. -/
theorem icache_dropCode (ctx : Nat) (drop : Loc → Bool) : ((dropCode s ctx drop).core c).icache.find? k =
    if (icLoc k).ctx = ctx ∧ drop (icLoc k) = true then none else (s.core c).icache.find? k := by
  have hcore : ((dropCode s ctx drop).core c).icache = (s.core c).icache.filter fun k _ => !((icLoc k).ctx == ctx && drop (icLoc k)) := by
    rw [State.core, State.core, dropCode, Sparse.findD, Sparse.findD, Sparse.find?_mapKV]
    cases s.cores.find? c <;> rfl
  rw [hcore, find?_filter_key]
  by_cases h : (icLoc k).ctx = ctx ∧ drop (icLoc k) = true
  · rw [if_pos h, if_neg (by simp [h])]
  · rw [if_neg h, if_pos (by simpa [imp_iff_not_or] using h)]

theorem homeDie_lt (ia : Nat) : homeDie ia < 2 :=
  have hbit : ∀ n, bits ia n n < 2 ^ 1 := fun n => by
    unfold bits
    rw [Nat.add_sub_cancel_left]
    exact Nat.mod_lt _ (by decide)
  Nat.xor_lt_two_pow (Nat.xor_lt_two_pow (Nat.xor_lt_two_pow (Nat.xor_lt_two_pow (hbit 8) (hbit 16)) (hbit 24)) (hbit 32)) (hbit 40)

/-- R362: where a window maps an address, and what it maps there. -/
theorem windowAt_spec {n va : Nat} {l : Loc} {p : Perm} (h : windowAt s c n va = some (l, p)) :
    let start := sysBits s (RegNo.winA c n) 0 56 16 * 65536
    let off := sysBits s (RegNo.winB c n) 0 31 0 * 65536
    off ≤ l.ia ∧ start + (l.ia - off) = va ∧ l.ia < 2 ^ 48 ∧ l.die < 2 := by
  intro start off
  unfold windowAt at h
  dsimp only at h
  split at h
  · cases h
  · rw [Option.ite_none_right_eq_some] at h
    obtain ⟨hin, hl⟩ := h
    simp only [Bool.and_eq_true, decide_eq_true_eq] at hin
    obtain ⟨⟨⟨-, hoff⟩, -⟩, hva, hlt⟩ := hin
    obtain ⟨rfl, -⟩ := Prod.mk.inj (Option.some.inj hl)
    refine ⟨Nat.le_add_right _ _, ?_, ?_, ?_⟩
    · change start + (off + (va - start) - off) = va
      change start ≤ va at hva
      rw [Nat.add_sub_cancel_left, Nat.add_sub_of_le hva]
    · dsimp only
      omega
    · dsimp only
      split
      · unfold bits
        omega
      · exact homeDie_lt _

theorem viaWindows_ok {x : Nat} {need : Perm} {l : Loc} (h : viaWindows s c true x need = .ok l) :
    ∃ n < 16, ∃ p, windowAt s c n x = some (l, p) := by
  unfold viaWindows at h
  split at h
  · cases h
  · split at h
    · cases h
    · rename_i l' p hf
      obtain ⟨n, hn, hw⟩ := List.exists_of_findSome?_eq_some hf
      split at h
      · cases h
      · cases h
        exact ⟨n, List.mem_range.1 hn, p, hw⟩

/-- The key of a cached word gives back its place and context. -/
theorem icLoc_icKey {l : Loc} (hd : l.die < 2) (hia : l.ia < 2 ^ 48) : icLoc (icKey c l) = ⟨l.die, l.ia, l.dieLocal, false, c, 0⟩ := by
  unfold icLoc icKey
  cases l.dieLocal <;> simp <;> omega

/-- R224: the words of the range, as the context's windows map it, are among those the flush covers. -/
theorem covers_icKey {va n x : Nat} {l : Loc} (h1 : va ≤ x) (h2 : x < va + n)
    (h : viaWindows s c true x ⟨false, false, false⟩ = .ok l) :
    (icLoc (icKey c l)).ctx = c ∧ covers s c va n (icLoc (icKey c l)) = true := by
  obtain ⟨w, hw, p, hwin⟩ := viaWindows_ok h
  obtain ⟨hoff, hx, hia, hd⟩ := windowAt_spec hwin
  rw [icLoc_icKey hd hia]
  refine ⟨rfl, ?_⟩
  rw [covers, List.any_eq_true]
  refine ⟨w, List.mem_range.2 hw, ?_⟩
  simp only [hx, h, hoff, h1, h2, and_self, decide_true, beq_self_eq_true, Bool.and_self]

end

/-! ### The flush itself -/

section
variable {s : State} {t va n : Nat}

theorem exec_icflushComplete (hh : (s.thread t).held = .stalled) (hw : (s.thread t).why = .icflush va n) :
    exec (.icflushComplete t) s =
      .next (release8 (noteFlush (dropCode s (s.ctxOf t) (covers s (s.ctxOf t) va (2 ^ n))) t va (2 ^ n)) t) := by
  change execIcflushComplete t s = _
  unfold execIcflushComplete
  simp only [hh, hw]

/-- Letting a thread go on behind its word keeps what `Keeps` names. -/
theorem release8_keeps (s : State) (t : Nat) : Keeps s (release8 s t) where
  regs u := by
    have h := (Wakes.release8 (K := fun _ => False) s t id).thread u
    exact ⟨(congrArg Thread.v h :), (congrArg Thread.p h :), (congrArg Thread.draws h :)⟩
  groups _ := ⟨rfl, rfl, rfl, rfl⟩
  sys := rfl
  tiles _ := ⟨rfl, rfl, rfl⟩
  hbm := rfl
  flats := rfl
  loft := rfl
  host := rfl
  lines _ := rfl
  clk := rfl

/-- The flush before its thread goes on: threads, groups, memory and registers stand. -/
theorem noteFlush_dropCode_keeps {s' : State} {ctx : Nat} {drop : Loc → Bool}
    (h : Keeps (noteFlush (dropCode s ctx drop) t va n) s') : Keeps s s' :=
  ⟨h.regs, h.groups, h.sys, h.tiles, h.hbm, h.flats, h.loft, h.host, h.lines, h.clk⟩

end

/-! ### What a prefetch can change -/

/-- No line of a slice is dirty. -/
def CleanLines (s : State) : Prop := ∀ d k, ∀ x ∈ (sliceOf s d k).lines, x.dirty = false

/-- R223: what a hint leaves: caches, translators' copies, free values and the count of lines another L1 holds apart, the
state stands; and a clean slice stays clean. -/
structure Hinted (s s' : State) : Prop where
  rest : { s' with ctr := s.ctr, cores := s.cores, dies := s.dies, sys := s.sys, pkg := s.pkg } = s
  pkg : { s'.pkg with hat := s.pkg.hat } = s.pkg
  sys : ∀ n c, c < 256 → n ≠ RegNo.pmc 7 → sysGet s' n c = sysGet s n c
  clean : CleanLines s → CleanLines s'

namespace Hinted

variable {s s' s'' : State}

theorem refl (s : State) : Hinted s s := ⟨rfl, rfl, fun _ _ _ _ => rfl, id⟩

theorem trans (h : Hinted s s') (h' : Hinted s' s'') : Hinted s s'' where
  rest := by
    have h1 := congrArg (fun x : State => { x with ctr := s.ctr, cores := s.cores, dies := s.dies, sys := s.sys, pkg := s.pkg }) h'.rest
    exact h1.trans h.rest
  pkg := by
    have h1 := congrArg (fun x : Package => { x with hat := s.pkg.hat }) h'.pkg
    exact h1.trans h.pkg
  sys n c hc hn := (h'.sys n c hc hn).trans (h.sys n c hc hn)
  clean := h'.clean ∘ h.clean

theorem threads (h : Hinted s s') : s'.threads = s.threads := (congrArg State.threads h.rest :)
theorem groups (h : Hinted s s') : s'.groups = s.groups := (congrArg State.groups h.rest :)

theorem coreOf (h : Hinted s s') (t : Nat) : s'.coreOf t = s.coreOf t := by
  simp only [State.coreOf, State.groupOf, State.group, State.thread, h.threads, h.groups]

theorem ctr (s : State) (n : Nat) : Hinted s { s with ctr := n } := ⟨rfl, rfl, fun _ _ _ _ => rfl, id⟩
theorem coin (s : State) : Hinted s s.coin.2 := ctr s _
theorem pick (s : State) (n : Nat) : Hinted s (s.pick n).2 := by
  unfold State.pick
  split
  · exact refl s
  · exact ctr s _
theorem onCore (s : State) (c : Nat) (f : Core → Core) : Hinted s (s.onCore c f) := ⟨rfl, rfl, fun _ _ _ _ => rfl, id⟩
theorem hat (s : State) (m : Sparse Nat) : Hinted s (s.onPkg fun x => { x with hat := m }) := ⟨rfl, rfl, fun _ _ _ _ => rfl, id⟩

/-- A die changes, its slices only by lines leaving or clean lines coming. -/
theorem onDie (s : State) (d : Nat) (f : Die → Die)
    (h : ∀ x k, ∀ l ∈ ((f x).slices.findD k .empty).lines, l.dirty = true → l ∈ (x.slices.findD k .empty).lines) :
    Hinted s (s.onDie d f) where
  rest := rfl
  pkg := rfl
  sys _ _ _ _ := rfl
  clean hs d' k x hx := by
    by_contra hd
    rw [Bool.not_eq_false] at hd
    rw [sliceOf, die_onDie] at hx
    split at hx
    · exact absurd (hs d k x (h _ k x hx hd)) (by rw [hd]; decide)
    · exact absurd (hs d' k x hx) (by rw [hd]; decide)

/-- R329: the count of lines that another L1 of the cluster holds. -/
theorem pmc7 (s : State) {c : Nat} (hc : c < 256) (k : Nat) : Hinted s (pmc s c 7 k) where
  rest := rfl
  pkg := rfl
  sys n c' hc' hn := by
    unfold Machine.pmc
    rw [sysGet_sysPut, if_neg (mt (regKey_inj hc' hc).1 fun h => hn h.1)]
  clean := id

theorem touchSide (s : State) (d pa : Nat) : Hinted s (touchSide s d pa) := onDie _ _ _ fun _ _ _ h _ => h
theorem leafTouched (s : State) (d ia : Nat) (w : Bool) : Hinted s (leafTouched s d ia w) := onDie _ _ _ fun _ _ _ h _ => h
theorem leafUsed (s : State) (d ia : Nat) : Hinted s (leafUsed s d ia).2 := by
  unfold Machine.leafUsed
  split
  · exact refl s
  · dsimp only
    split
    · exact refl s
    · exact coin s
theorem hatTouched (s : State) (l : Loc) (pa : Nat) : Hinted s (hatTouched s l pa) := by
  unfold Machine.hatTouched
  dsimp only
  split
  · split
    · exact refl s
    · split
      · exact (coin s).trans (hat _ _)
      · exact coin s
  · exact hat _ _
theorem translate (s : State) (l : Loc) (w f : Bool) : Hinted s (translate s l w f).2 := by
  unfold Machine.translate
  dsimp only
  split
  · split
    · exact ((leafUsed s _ _).trans (leafTouched _ _ _ _)).trans (hatTouched _ _ _)
    · exact (leafUsed s _ _).trans (leafTouched _ _ _ _)
  · exact leafUsed s _ _
theorem placeGo (s : State) (l : Loc) (w f : Bool) (x : Option Line) : Hinted s (place.go l w f s x).2 := by
  have h := translate s l w f
  unfold place.go
  split <;> rename_i e <;> rw [e] at h <;> exact h
theorem place (s : State) (l : Loc) (w f : Bool) : Hinted s (place s l w f).2 := by
  unfold Machine.place
  split
  · exact refl s
  · split
    · split
      · exact refl s
      · exact placeGo s l w f _
    · exact placeGo s l w f _

/-! #### Lines that come and go -/

theorem dropLine (s : State) (x : Line) : Hinted s (dropLine s x) := onDie _ _ _ fun y k l hl _ => by
  simp only [Sparse.findD, Sparse.find?_mapKV] at hl ⊢
  cases hf : y.slices.find? k with
  | none => simp [hf, Slice.empty] at hl
  | some z =>
    simp only [hf, Option.map_some, Option.getD_some] at hl ⊢
    exact (List.mem_filter.1 hl).1

/-- A clean line enters its slice. -/
theorem putLine (s : State) {x : Line} (hx : x.dirty = false) : Hinted s (putLine s x) := by
  unfold Machine.putLine
  dsimp only
  rw [if_neg (by rw [hx]; decide)]
  refine onDie _ _ _ fun y k l hl hd => ?_
  rw [Sparse.findD_update] at hl
  split at hl
  · rename_i hk
    subst hk
    obtain rfl | hl := List.mem_cons.1 hl
    · exact absurd hd (by rw [hx]; decide)
    · exact (List.mem_filter.1 hl).1
  · exact hl

theorem mem_of_mem_rotateLeft {α : Type} {l : List α} {n : Nat} {x : α} (h : x ∈ l.rotateLeft n) : x ∈ l := by
  unfold List.rotateLeft at h
  dsimp only at h
  split at h
  · exact h
  · exact (List.mem_append.1 h).elim List.mem_of_mem_drop List.mem_of_mem_take

/-- One of some clean lines leaves. -/
theorem evictOne (s : State) {ls : List Line} (hl : ∀ x ∈ ls, x.dirty = false) : Hinted s (evictOne s ls) := by
  unfold Machine.evictOne
  have hrot : ∀ x ∈ ls.rotateLeft (s.pick ls.length).1, x.dirty = false := fun x hx => hl x (mem_of_mem_rotateLeft hx)
  refine List.foldlRecOn (motive := fun a : Bool × State => Hinted s a.2) _ _ (pick s _) fun a ha x hx => ?_
  obtain ⟨done, s1⟩ := a
  dsimp only
  split
  · exact ha
  · refine ha.trans ?_
    rw [evict, if_pos (by rw [hrot x hx]; decide)]
    exact dropLine s1 x

theorem makeRoom (hs : CleanLines s) (d k line : Nat) : Hinted s (makeRoom s d k line) := by
  have hset : ∀ x ∈ inSet s d k line, x.dirty = false := fun x hx => hs d k x (List.mem_filter.1 hx).1
  have hfirst : Hinted s (if wayFree s d k line then s else Machine.evictOne s (inSet s d k line)) := by
    split
    · exact refl s
    · exact evictOne s hset
  unfold Machine.makeRoom
  dsimp only
  generalize (if wayFree s d k line then s else Machine.evictOne s (inSet s d k line)) = s1 at hfirst ⊢
  have hcoin := hfirst.trans (coin s1)
  split
  · exact hcoin.trans (evictOne _ fun x hx => hcoin.clean hs d k x (List.mem_filter.1 hx).1)
  · exact hcoin

theorem fillWay (hs : CleanLines s) (l : Loc) (pa : Nat) : Hinted s (fillWay s l pa) := by
  have hroom := makeRoom hs l.die (homeSlice l.ia) (l.ia / 128)
  unfold Machine.fillWay
  dsimp only
  split
  · exact hroom.trans ((touchSide _ _ _).trans (putLine _ rfl))
  · exact hroom

theorem keepAmong (s : State) (n : Nat) (x : Nat × Nat) (l : List (Nat × Nat)) : Hinted s (keepAmong s n x l).2 := by
  unfold Machine.keepAmong
  split
  · exact refl s
  · split
    · exact refl s
    · split
      · exact refl s
      · exact pick s _

theorem addL1 (s : State) (c : Nat) (id : Nat × Nat) : Hinted s (addL1 s c id) := (keepAmong s _ _ _).trans (onCore _ _ _)

theorem addRemote (s : State) (d k : Nat) (id : Nat × Nat) : Hinted s (addRemote s d k id) :=
  (keepAmong s _ _ _).trans (onDie _ _ _ fun y j l hl _ => by
    rw [Sparse.findD_update] at hl
    split at hl
    · rename_i hk
      subst hk
      exact hl
    · exact hl)

theorem cacheLine {t : Nat} (hc : s.coreOf t < 256) (l : Loc) (pl : Place) : Hinted s (cacheLine s t l pl) := by
  unfold Machine.cacheLine
  split
  · exact refl s
  · exact refl s
  · dsimp only
    generalize (((List.range 4).map fun i => clusterOf (s.coreOf t) * 4 + i).filter _) = peers
    have hask : Hinted s (if ((s.core (s.coreOf t)).l1.contains (lineId l) || peers.isEmpty) = true then (false, s) else s.coin).2 := by
      split
      · exact refl s
      · exact coin s
    generalize (if ((s.core (s.coreOf t)).l1.contains (lineId l) || peers.isEmpty) = true then (false, s) else s.coin) = r at hask ⊢
    have hcount : Hinted s (if r.1 = true then Machine.pmc r.2 (s.coreOf t) 7 1 else r.2) := by
      split
      · exact hask.trans (pmc7 _ hc 1)
      · exact hask
    have hl1 := hcount.trans (addL1 _ (s.coreOf t) (lineId l))
    split
    · exact hl1
    · exact hl1.trans (addRemote _ _ _ _)

theorem prefetchOne {t : Nat} (hs : CleanLines s) (hc : s.coreOf t < 256) (a : HintArgs) (is : Issued) : Hinted s (prefetchOne a is s t) := by
  unfold Machine.prefetchOne
  dsimp only
  split
  · rename_i l _
    split
    · exact refl s
    · split
      · exact coin s
      · have hplace := (coin s).trans (place s.coin.2 l false false)
        split <;> rename_i hp <;> rw [hp] at hplace
        · split
          · exact hplace.trans (cacheLine (by rw [hplace.coreOf]; exact hc) _ _)
          · exact hplace
        · rename_i d pa f s1
          split
          · exact hplace
          · have hfill := hplace.trans (fillWay (hplace.clean hs) l pa)
            split
            · exact hfill.trans (cacheLine (by rw [hfill.coreOf]; exact hc) _ _)
            · exact hfill
        · exact hplace
  · exact refl s

end Hinted

/-- Settles O17: a prefetch by `Hinted.prefetchOne`, the flush by the words it drops and its keys. -/
theorem prefetchAndFlush : Obligations.PrefetchAndFlush := by
  refine ⟨fun a b s t hs => ⟨_, word_sole hs rfl _, fun hclean => ?_⟩, fun a b s t hs => ⟨fun h => ?_, fun h => ?_⟩,
    fun s t va n hhas hh hw => ⟨_, exec_icflushComplete hh hw, ?_, fun u hu => ?_, fun c x l h1 h2 hv => ?_, fun c k hk => ?_,
      noteFlush_dropCode_keeps (release8_keeps _ t), rfl, rfl, _, rfl, rfl, rfl, rfl⟩⟩
  · have hcore : (afterIssue b s).coreOf t < 256 := by
      rw [afterIssue_coreOf, hs.issuing.stands t hs.thread.1]
      exact hs.issuing.place
    have h := Hinted.prefetchOne hclean hcore a (issuedAs (.prefetch a) b s)
    exact ⟨h.threads, h.groups, (congrArg State.blocks h.rest :), (congrArg State.hbm h.rest :), (congrArg State.flats h.rest :),
      (congrArg State.loft h.rest :), (congrArg State.host h.rest :), (congrArg State.hist h.rest :), (congrArg State.clusters h.rest :),
      (congrArg State.parts h.rest :), h.pkg, h.sys⟩
  · refine (word_sole hs rfl _).trans (congrArg _ ?_)
    dsimp only
    rw [if_neg (not_not.2 h), stall_sole hs]
  · refine (word_sole hs rfl _).trans (congrArg _ ?_)
    dsimp only
    rw [if_pos h]
    rfl
  · exact release8_thread_eq hhas
  · exact release8_thread_ne _ hu
  · exact (icache_dropCode (s := s) _ _).trans (if_pos (covers_icKey h1 h2 hv))
  · exact (icache_dropCode (s := s) _ _).trans (if_neg fun h => hk.elim (fun hc => hc h.1) fun hc => by rw [hc] at h; exact absurd h.2 (by decide))

end Sys2Proof.Machine
